-- ==== Sys2Proof/Word.lean ====
section
/-! DEFINITION. The word types of the LVK-5120 model: identifiers at the widths of R21, and the outcome codes of R34. -/

namespace Sys2Proof

/-- A register word (R6). -/
abbrev Word := BitVec 32
/-- One byte of memory. -/
abbrev Byte := BitVec 8
/-- A package physical address (R23). -/
abbrev Pa := BitVec 44
/-- Global core number (R21). -/
abbrev CoreId := BitVec 9
/-- Global cluster number GC (R21). -/
abbrev ClusterId := BitVec 6
/-- Region index 4d + r (R16). -/
abbrev RegionId := BitVec 4
/-- Engine ID (R21). -/
abbrev EngId := BitVec 8
/-- Queue ID: GC in [15:10], local queue in [9:0] (R21). -/
abbrev QueueId := BitVec 16
/-- Activity ID (R21). -/
abbrev ActId := BitVec 9
/-- Package ID (R21). -/
abbrev PkgId := BitVec 4
/-- Fault source ID (R21). -/
abbrev SourceId := BitVec 10
/-- Fronthaul stream context (R21). -/
abbrev StreamId := BitVec 12
/-- Fronthaul port (R296). -/
abbrev PortId := BitVec 5
/-- Host ring number (R270). -/
abbrev RingId := BitVec 12
/-- Event timer number (R342). -/
abbrev TimerId := BitVec 6
/-- Fabric node ID (R222). -/
abbrev NodeId := BitVec 8
/-- A 32-byte queue entry, byte 0 in bits [7:0] (R149). -/
abbrev Entry := BitVec 256
/-- A 64-byte block or descriptor, byte 0 in bits [7:0]. -/
abbrev Block64 := BitVec 512

/-- A table keyed by a number, in one canonical form: keys strictly rising, no entry equal to the
default of its key. -/
abbrev Sparse (α : Type) := List (Nat × α)

/-- The outcome codes of R34. -/
inductive Outc where
  | ok | okFlagged | cancelled | timeout | routeFault | domainAsleep | wakeFailed | uncorrectable
  | replayExhausted | notPermitted | badDescriptor | conflict | budgetExhausted | refused
  | queueFull | deadlineMissed | engineError | thermalRefused
  deriving DecidableEq, Repr, Inhabited

/-- The 5-bit code of an outcome (R34). -/
def Outc.code : Outc → BitVec 5
  | .ok => 0x00 | .okFlagged => 0x01 | .cancelled => 0x02 | .timeout => 0x03
  | .routeFault => 0x04 | .domainAsleep => 0x05 | .wakeFailed => 0x06 | .uncorrectable => 0x07
  | .replayExhausted => 0x08 | .notPermitted => 0x09 | .badDescriptor => 0x0A | .conflict => 0x0B
  | .budgetExhausted => 0x0C | .refused => 0x0D | .queueFull => 0x0E | .deadlineMissed => 0x0F
  | .engineError => 0x10 | .thermalRefused => 0x11

/-- OK or OK_FLAGGED: the access or command did what was asked (R34). -/
def Outc.good : Outc → Bool
  | .ok => true
  | .okFlagged => true
  | _ => false

end Sys2Proof
end

