-- ==== Sys2Proof/Syntax.lean ====
section
/-! DEFINITION. The commands of the LVK-5120: one constructor of Instr per row of spec/opcode_table.json, with its operands.
The operand types come first; a constructor's docstring cites the rule its row rests on. -/

namespace Sys2Proof

/-! ## Operands of the core's slots (R82, R509, R87) -/

/-- The two load/store slots (R52). -/
inductive LsSlot where
  | a | b
  deriving DecidableEq, Repr, Inhabited

/-- The address forms of MR and MI words (R70, R509). -/
inductive AddrMode where
  | off (imm : BitVec 13)
  | postN (nm : BitVec 4)
  | postI (imm : BitVec 13)
  deriving DecidableEq, Repr, Inhabited

/-- Data register, base register and address form of an MR or MI word (R82). -/
structure MemArgs where
  d : BitVec 5
  an : BitVec 4
  mode : AddrMode
  deriving DecidableEq, Repr, Inhabited

/-- The address forms of VSTA (R509, opcode 0x04). -/
inductive VaMode where
  | off (imm : BitVec 4)
  | postN (nm : BitVec 4)
  | postI (imm : BitVec 4)
  deriving DecidableEq, Repr, Inhabited

/-- The fields of a VA word (R82). -/
structure VaArgs where
  acs : BitVec 3
  sm : BitVec 2
  sh : BitVec 4
  an : BitVec 4
  mode : VaMode
  deriving DecidableEq, Repr, Inhabited

/-- The multiply-accumulate operations of R58. -/
inductive MacKind where
  | cmac | cmacj | cmsb | cmul | cmulj | rmac
  deriving DecidableEq, Repr, Inhabited

/-- The three-operand vector operations of R66. -/
inductive VbinKind where
  | add | sub | addw | subw | and | or | xor
  deriving DecidableEq, Repr, Inhabited

/-- The scalar operations of opcode 0x20 (R509). -/
inductive AluKind where
  | add | sub | and | or | xor | shl | shr | sar | mul | cmplt | cmpeq
  deriving DecidableEq, Repr, Inhabited

/-- The branch conditions that test something (R83); J, CALL and RET are operations of their own. -/
inductive BrCond where
  | eq | ne | lt | ge | le | gt | cp0busy | cp1busy
  deriving DecidableEq, Repr, Inhabited

/-- The DST, SRCA, SRCB and VAR fields of a coprocessor word (R87). -/
structure CpFields where
  dst : BitVec 5
  srca : BitVec 5
  srcb : BitVec 5
  var : BitVec 4
  deriving DecidableEq, Repr, Inhabited

/-- The operation in one slot of a bundle, as R509 and R87 decode it; `undef` is a slot word that
the opcode maps do not define. -/
inductive Op where
  | nop
  | undef (w : Word)
  | ldh (m : MemArgs) | ldw (m : MemArgs) | sth (m : MemArgs) | stw (m : MemArgs)
  | vld (m : MemArgs) | vldu (m : MemArgs) | vst (m : MemArgs)
  | qenq (m : MemArgs) | qdeq (m : MemArgs)
  | vsta (v : VaArgs)
  | addaN (an nm : BitVec 4) | addaI (an : BitVec 4) (imm : BitVec 13)
  | mova (an : BitVec 4) (sa : BitVec 5) | movn (nm : BitVec 4) (sa : BitVec 5)
  | movas (sd : BitVec 5) (an : BitVec 4)
  | mac (k : MacKind) (acd : BitVec 3) (va vb : BitVec 5)
  | acclr (acd : BitVec 3) | acset (acd : BitVec 3) (va : BitVec 5)
  | vbin (k : VbinKind) (vd va vb : BitVec 5)
  | vneg (vd va : BitVec 5) | vconj (vd va : BitVec 5)
  | vshrr (vd va : BitVec 5) (imm : BitVec 4)
  | vmov (vd va : BitVec 5) | vbcst (vd va : BitVec 5) (lane : BitVec 4)
  | acmv (vd : BitVec 5) (acs : BitVec 3) (sm : BitVec 2) (sh : BitVec 4)
  | acsh (sd : BitVec 5) (acs : BitVec 3)
  | alu (k : AluKind) (sd sa sb : BitVec 5)
  | movi (sd : BitVec 5) (imm : BitVec 16)
  | br (c : BrCond) (hint : Bool) (sa : BitVec 5) (off : BitVec 16)
  | j (off : BitVec 16) | call (off : BitVec 16) | ret (off : BitVec 16)
  | loop (count : BitVec 12) (fin : BitVec 13) | loops (sa : BitVec 5) (fin : BitVec 13)
  | mfc (sd : BitVec 5) (cr : BitVec 7) | mtc (sa : BitVec 5) (cr : BitVec 7)
  | rti | wait | fence
  | cp (sl : Bool) (op : BitVec 5) (f : CpFields)
  deriving DecidableEq, Repr, Inhabited

/-- The four slots of a bundle (R52). In a command, the slot of the named instruction is replaced by it. -/
structure Bundle where
  a : Op
  b : Op
  c : Op
  d : Op
  deriving DecidableEq, Repr, Inhabited

/-- The second operand of ADDA (R509, opcodes 0x05 and 0x06). -/
inductive AddaArg where
  | nm (n : BitVec 4)
  | imm (i : BitVec 13)
  deriving DecidableEq, Repr, Inhabited

/-! ## Operands of the other blocks -/

/-- A TS96 time stamp (00_scope, "Numbers and units"). -/
structure Ts where
  sec : BitVec 48
  ns : BitVec 32
  frac : BitVec 16
  deriving DecidableEq, Repr, Inhabited

/-- Who issues an access (R222, R510): a core, an engine, a slice, or a block of the hub. -/
inductive Initiator where
  | core (g : CoreId)
  | engine (e : EngId)
  | slice (gc : ClusterId)
  | host (fn : BitVec 6)
  | hif
  | dma (ch : BitVec 4)
  | fhp
  | cas (pkg : PkgId)
  | mgc
  | hma
  | scv
  deriving DecidableEq, Repr, Inhabited

/-- Outcome that arose on the way to the target or back (TIMEOUT, REPLAY_EXHAUSTED, …; R35), none when the
access reached its target and its answer came back. -/
abbrev PathRes := Option Outc

/-- A memory that the initialiser writes (R139, R407). -/
inductive InitMem where
  | cm (gc : ClusterId)
  | dmem (g : CoreId)
  | imem (g : CoreId)
  | rm (r : RegionId)
  | hub
  deriving DecidableEq, Repr, Inhabited

/-- The fuse map as step 4 of the boot sequence loads it (R413 item 0, R414, R435, R457, R458). -/
structure FuseMap where
  ileak : List (BitVec 16)
  aonleak : BitVec 16
  fusedOff : BitVec 16
  minSvn : Word
  keyHash : BitVec 384
  spareRows : List (BitVec 8)
  spareCols : List (BitVec 8)
  deriving DecidableEq, Repr, Inhabited

/-- What the completing boot step brings (R462): its ready signal, its failure code, the fuse map, the
images read from QSPI flash (none where the flash read failed, R467), or the signal that replay ran over. -/
inductive BootInput where
  | ready
  | fail (code : BitVec 4)
  | fuses (f : FuseMap)
  | flash (main alt : Option (List Byte))
  deriving DecidableEq, Repr, Inhabited

/-- The request packet types of R230. -/
inductive PktType where
  | rd | rd256 | wr | wr256 | wrm | wrP | wr256P | wrmP
  | rsp | rspd | rspd256 | retry | msg | reserved
  deriving DecidableEq, Repr, Inhabited

/-- A routing element of the fabric (R224): the mesh router of a cluster, a gateway, H0 or H1. -/
inductive Elem where
  | mesh (gc : ClusterId)
  | gwDie (d : BitVec 2)
  | gwHub (d : BitVec 2)
  | h0
  | h1
  | ni (n : NodeId)
  deriving DecidableEq, Repr, Inhabited

/-- The BARs of R32. -/
inductive Bar where
  | bar0 | bar2 | bar4
  deriving DecidableEq, Repr, Inhabited

/-- The result of one PCIe completion of a device read (R292). -/
inductive PcieCpl where
  | success (data : List Byte)
  | unsupported
  | abort
  | poisoned (data : List Byte)
  | timeout
  deriving DecidableEq, Repr, Inhabited

/-- What a PTP frame carries, after time-stamping (R318, R340). -/
inductive PtpMsg where
  | sync (origin : Ts) (twoStep : Bool) (seq : BitVec 16)
  | followUp (origin : Ts) (seq : BitVec 16)
  | announce (clockClass : BitVec 8) (domain : BitVec 8)
  | delayReq (seq : BitVec 16)
  | delayResp (rx : Ts) (seq : BitVec 16)
  deriving DecidableEq, Repr, Inhabited

/-- The periodic messages a PTP port sends (R340). -/
inductive PtpSend where
  | sync | announce | delayReq
  deriving DecidableEq, Repr, Inhabited

/-- A cascade frame (R354). `crcBad` is set when the CRC does not hold, `stomped` when it is the
inverted CRC of R357; `east` names the port of arrival. -/
structure CasFrame where
  typ : BitVec 4
  src : PkgId
  dst : PkgId
  ring : Bool
  bcast : Bool
  len : BitVec 12
  hops : BitVec 5
  tag : BitVec 16
  act : ActId
  outcome : BitVec 5
  payload : List Byte
  crcBad : Bool
  stomped : Bool
  east : Bool
  deriving DecidableEq, Repr, Inhabited

/-- What the Crier's receiver makes of one masked symbol (R383 to R388): the demodulator's findings. -/
inductive CriObs where
  | quiet
  | preamble (metric : BitVec 16) (gain : BitVec 16) (start : Ts)
  | chirps (found : Bool) (foff : Word)
  | header (bits : Word)
  | headerCapture (bits : Word) (metric : BitVec 16) (gain : BitVec 16) (start : Ts)
  | payload (bits : List Bool) (residual : Word)
  deriving DecidableEq, Repr, Inhabited

/-- Which task a deadline event concerns (R205). -/
inductive DlSel where
  | queueHead (lq : BitVec 10)
  | bound (k : BitVec 3)
  | suspended (k : BitVec 3) (i : BitVec 3)
  | running (k : BitVec 3)
  deriving DecidableEq, Repr, Inhabited

/-- The BUD budget words of BUD_BUDGET_WRITE (R220). -/
inductive BudWord where
  | cyc | joba | jobb | jobc | bmax
  deriving DecidableEq, Repr, Inhabited

/-- A member of a power transaction (R440). -/
inductive Member where
  | slice (gc : ClusterId)
  | core (g : CoreId)
  | engine (e : EngId)
  | crier
  | port (p : PortId)
  | cas
  | hif
  | scv
  deriving DecidableEq, Repr, Inhabited

/-- A unit that the Lamplighter wakes or that an operating point applies to (R434). -/
inductive PowerUnit where
  | package
  | region (r : RegionId)
  | cluster (gc : ClusterId)
  deriving DecidableEq, Repr, Inhabited

/-- The wake steps of R447. -/
inductive WakeStep where
  | regulator | oscillator | root
  deriving DecidableEq, Repr, Inhabited

/-- How one received bit of a stored word differs from what was written is state; this names a memory
controller m of R417. -/
abbrev McId := BitVec 5

/-- Why a SOURCE_VALIDITY_CHANGE happens (R333). -/
structure SrcChange where
  slot : BitVec 3
  valid : Bool
  ql : BitVec 4
  deriving DecidableEq, Repr, Inhabited

/-- A JTAG instruction-register value (R499). -/
abbrev JtagIr := BitVec 8

/-- One command of the block: a row of spec/opcode_table.json with its operands. `who` names the initiator of a register
access, `m` holds the other slots of a core's bundle, `path` the outcome that arose on the fabric. -/
inductive Instr where
  -- reset, boot, registers (R459 to R468, R6 to R12, R37 to R39)
  | porstNAssert (role : Bool) (pkgId : PkgId) (bootSrc : BitVec 2)
  | porstNRelease (role : Bool) (pkgId : PkgId) (bootSrc : BitVec 2)
  | bootStepComplete (i : BootInput)
  | bootStepTimeout
  | loadMailboxDetect
  | perstNAssert
  | registerWrite (who : Initiator) (pa : Pa) (size : Nat) (v : Word)
  | tallyCounterRead (who : Initiator) (pa : Pa)
  | rcFieldRead (who : Initiator) (pa : Pa) (ev : BitVec 48)
  -- Shezia core: loads, stores, queue, address (R70 to R73, R509)
  | ldh (g : CoreId) (sl : LsSlot) (a : MemArgs) (m : Bundle)
  | ldw (g : CoreId) (sl : LsSlot) (a : MemArgs) (m : Bundle)
  | sth (g : CoreId) (sl : LsSlot) (a : MemArgs) (m : Bundle)
  | stw (g : CoreId) (sl : LsSlot) (a : MemArgs) (m : Bundle)
  | vld (g : CoreId) (sl : LsSlot) (a : MemArgs) (m : Bundle)
  | vldu (g : CoreId) (sl : LsSlot) (a : MemArgs) (m : Bundle)
  | vst (g : CoreId) (sl : LsSlot) (a : MemArgs) (m : Bundle)
  | vsta (g : CoreId) (sl : LsSlot) (a : VaArgs) (m : Bundle)
  | qenq (g : CoreId) (sl : LsSlot) (a : MemArgs) (m : Bundle)
  | qenqStallRelease (g : CoreId)
  | enqueueTimeout (g : CoreId)
  | qdeq (g : CoreId) (sl : LsSlot) (a : MemArgs) (m : Bundle)
  | adda (g : CoreId) (sl : LsSlot) (an : BitVec 4) (arg : AddaArg) (m : Bundle)
  | mova (g : CoreId) (sl : LsSlot) (an : BitVec 4) (sa : BitVec 5) (m : Bundle)
  | movn (g : CoreId) (sl : LsSlot) (nm : BitVec 4) (sa : BitVec 5) (m : Bundle)
  | movas (g : CoreId) (sl : LsSlot) (sd : BitVec 5) (an : BitVec 4) (m : Bundle)
  -- slot C (R58 to R66)
  | cmac (g : CoreId) (acd : BitVec 3) (va vb : BitVec 5) (m : Bundle)
  | cmacj (g : CoreId) (acd : BitVec 3) (va vb : BitVec 5) (m : Bundle)
  | cmsb (g : CoreId) (acd : BitVec 3) (va vb : BitVec 5) (m : Bundle)
  | cmul (g : CoreId) (acd : BitVec 3) (va vb : BitVec 5) (m : Bundle)
  | cmulj (g : CoreId) (acd : BitVec 3) (va vb : BitVec 5) (m : Bundle)
  | rmac (g : CoreId) (acd : BitVec 3) (va vb : BitVec 5) (m : Bundle)
  | acclr (g : CoreId) (acd : BitVec 3) (m : Bundle)
  | acset (g : CoreId) (acd : BitVec 3) (va : BitVec 5) (m : Bundle)
  | acmv (g : CoreId) (vd : BitVec 5) (acs : BitVec 3) (sm : BitVec 2) (sh : BitVec 4) (m : Bundle)
  | acsh (g : CoreId) (sd : BitVec 5) (acs : BitVec 3) (m : Bundle)
  | vadd (g : CoreId) (vd va vb : BitVec 5) (m : Bundle)
  | vsub (g : CoreId) (vd va vb : BitVec 5) (m : Bundle)
  | vaddw (g : CoreId) (vd va vb : BitVec 5) (m : Bundle)
  | vsubw (g : CoreId) (vd va vb : BitVec 5) (m : Bundle)
  | vneg (g : CoreId) (vd va : BitVec 5) (m : Bundle)
  | vconj (g : CoreId) (vd va : BitVec 5) (m : Bundle)
  | vshrr (g : CoreId) (vd va : BitVec 5) (imm : BitVec 4) (m : Bundle)
  | vmov (g : CoreId) (vd va : BitVec 5) (m : Bundle)
  | vbcst (g : CoreId) (vd va : BitVec 5) (lane : BitVec 4) (m : Bundle)
  | vand (g : CoreId) (vd va vb : BitVec 5) (m : Bundle)
  | vor (g : CoreId) (vd va vb : BitVec 5) (m : Bundle)
  | vxor (g : CoreId) (vd va vb : BitVec 5) (m : Bundle)
  -- slot D (R67, R77, R81, R83, R509)
  | add (g : CoreId) (sd sa sb : BitVec 5) (m : Bundle)
  | sub (g : CoreId) (sd sa sb : BitVec 5) (m : Bundle)
  | and (g : CoreId) (sd sa sb : BitVec 5) (m : Bundle)
  | or (g : CoreId) (sd sa sb : BitVec 5) (m : Bundle)
  | xor (g : CoreId) (sd sa sb : BitVec 5) (m : Bundle)
  | shl (g : CoreId) (sd sa sb : BitVec 5) (m : Bundle)
  | shr (g : CoreId) (sd sa sb : BitVec 5) (m : Bundle)
  | sar (g : CoreId) (sd sa sb : BitVec 5) (m : Bundle)
  | mul (g : CoreId) (sd sa sb : BitVec 5) (m : Bundle)
  | cmplt (g : CoreId) (sd sa sb : BitVec 5) (m : Bundle)
  | cmpeq (g : CoreId) (sd sa sb : BitVec 5) (m : Bundle)
  | movi (g : CoreId) (sd : BitVec 5) (imm : BitVec 16) (m : Bundle)
  | br (g : CoreId) (c : BrCond) (hint : Bool) (sa : BitVec 5) (off : BitVec 16) (m : Bundle)
  | j (g : CoreId) (off : BitVec 16) (m : Bundle)
  | call (g : CoreId) (off : BitVec 16) (m : Bundle)
  | ret (g : CoreId) (off : BitVec 16) (m : Bundle)
  | loop (g : CoreId) (count : BitVec 12) (fin : BitVec 13) (m : Bundle)
  | loops (g : CoreId) (sa : BitVec 5) (fin : BitVec 13) (m : Bundle)
  | mfc (g : CoreId) (sd : BitVec 5) (cr : BitVec 7) (m : Bundle)
  | mtc (g : CoreId) (sa : BitVec 5) (cr : BitVec 7) (m : Bundle)
  | rti (g : CoreId) (m : Bundle)
  | wait (g : CoreId) (m : Bundle)
  | waitWake (g : CoreId)
  | fence (g : CoreId) (m : Bundle)
  | nop (g : CoreId) (m : Bundle)
  | interruptEntry (g : CoreId)
  | timerRaise (g : CoreId)
  | postedStoreFault (g : CoreId) (o : Outc)
  | coreRun (who : Initiator) (g : CoreId)
  | coreHalt (who : Initiator) (g : CoreId)
  | coreSreset (who : Initiator) (g : CoreId)
  -- coprocessor port (R87 to R120)
  | cpwr (g : CoreId) (sl : Bool) (f : CpFields) (m : Bundle)
  | cpld (g : CoreId) (sl : Bool) (f : CpFields) (m : Bundle)
  | cprd (g : CoreId) (sl : Bool) (f : CpFields) (m : Bundle)
  | cpst (g : CoreId) (sl : Bool) (f : CpFields) (m : Bundle)
  | cprds (g : CoreId) (sl : Bool) (f : CpFields) (m : Bundle)
  | cpwrs (g : CoreId) (sl : Bool) (f : CpFields) (m : Bundle)
  | cpsave (g : CoreId) (sl : Bool) (f : CpFields) (m : Bundle)
  | cprestore (g : CoreId) (sl : Bool) (f : CpFields) (m : Bundle)
  | cpOperationFinish (g : CoreId) (sl : Bool)
  | mmac (g : CoreId) (f : CpFields) (m : Bundle)
  | mmac8 (g : CoreId) (f : CpFields) (m : Bundle)
  | mmv (g : CoreId) (f : CpFields) (m : Bundle)
  | mmva (g : CoreId) (f : CpFields) (m : Bundle)
  | mrsq (g : CoreId) (f : CpFields) (m : Bundle)
  | mchol (g : CoreId) (f : CpFields) (m : Bundle)
  | mtrsv (g : CoreId) (f : CpFields) (m : Bundle)
  | maclr (g : CoreId) (f : CpFields) (m : Bundle)
  | sdmap (g : CoreId) (f : CpFields) (m : Bundle)
  | sscrb (g : CoreId) (f : CpFields) (m : Bundle)
  | sdscr (g : CoreId) (f : CpFields) (m : Bundle)
  | sginit (g : CoreId) (f : CpFields) (m : Bundle)
  | scrc (g : CoreId) (f : CpFields) (m : Bundle)
  | scrcinit (g : CoreId) (f : CpFields) (m : Bundle)
  | silv (g : CoreId) (f : CpFields) (m : Bundle)
  | sdilv (g : CoreId) (f : CpFields) (m : Bundle)
  -- cluster memory (R137 to R142)
  | cluWbaseWrite (who : Initiator) (gc : ClusterId) (n : BitVec 4) (v : Word)
  | cluWlenWrite (who : Initiator) (gc : ClusterId) (n : BitVec 4) (v : Word)
  | cmInitStart (who : Initiator) (gc : ClusterId)
  | memoryInitDone (mem : InitMem)
  | requestAtTarget (node : NodeId)
  -- engines (R148 to R180)
  | jobDequeue (e : EngId)
  | jobSetupReadResponse (e : EngId) (path : PathRes)
  | jobBorrowAnswer (e : EngId)
  | jobRunDone (e : EngId)
  | jobWritebackDone (e : EngId) (path : PathRes)
  | jobAccessError (e : EngId) (write : Bool) (o : Outc)
  | jobInternalError (e : EngId)
  | jobDeadline (e : EngId)
  | jobAbortComplete (e : EngId)
  | jobRecordEnqueue (e : EngId) (path : PathRes)
  | engineEnable (who : Initiator) (e : EngId)
  | engineDisable (who : Initiator) (e : EngId)
  | engineSreset (who : Initiator) (e : EngId)
  | accQselWrite (who : Initiator) (e : EngId) (v : Word)
  -- scheduler (R181 to R221)
  | queueEnqueue (src : Initiator) (q : QueueId) (entry : Entry)
  | queueDequeue (src : Initiator) (q : QueueId)
  | queueStatusRead (src : Initiator) (q : QueueId)
  | endTask (g : CoreId) (lq : BitVec 10) (result : Word)
  | cancel (src : Initiator) (q : QueueId) (tag : Word)
  | taskBind (gc : ClusterId)
  | preemptBind (gc : ClusterId)
  | taskDeadline (gc : ClusterId) (sel : DlSel)
  | taskRecordEnqueue (gc : ClusterId) (path : PathRes)
  | chunkRequest (gc : ClusterId) (act : ActId)
  | chunkAnswer (gc : ClusterId) (act : ActId)
  | budgetPeriodEdge (r : RegionId) (act : ActId)
  | reservePeriodEdge (r : RegionId)
  | budgetEnable (who : Initiator) (r : RegionId) (act : ActId) (v : Word)
  | budgetDisable (who : Initiator) (r : RegionId) (act : ActId) (v : Word)
  | reserveEnable (who : Initiator) (r : RegionId) (v : Word)
  | budBudgetWrite (who : Initiator) (r : RegionId) (act : ActId) (w : BudWord) (v : Word)
  | dramBudgetPeriodEdge (act : ActId)
  | loadPeriodEdge (gc : ClusterId)
  | queueEnable (who : Initiator) (gc : ClusterId) (v : Word)
  | queueDisable (who : Initiator) (gc : ClusterId) (v : Word)
  | stealStart (gc : ClusterId)
  | stealRequest (victim thief : ClusterId)
  | stealReceive (thief : ClusterId)
  | stealRefusal (thief : ClusterId)
  | stealRecordReturn (thief : ClusterId)
  | stealCancelForward (victim : ClusterId)
  -- fabric (R222 to R264)
  | niRequest (ini : Initiator) (typ : PktType) (pa : Pa) (mask : BitVec 64) (data : List Byte) (act : ActId)
  | regulatorInject (node : NodeId) (n : BitVec 7)
  | regulatorRefill (node : NodeId)
  | regulatorConfigWrite (who : Initiator) (node : NodeId) (n : BitVec 6) (v : Word)
  | routerForward (el : Elem) (inCode : BitVec 3)
  | responseArrival (node : NodeId)
  | requestTimeout (node : NodeId) (slot : BitVec 9)
  | txidQuarantineEnd (node : NodeId) (slot : BitVec 9)
  | responseLifetimeExpiry (el : Elem) (inCode : BitVec 3)
  | retryArrival (node : NodeId)
  | retryResend (node : NodeId) (ini : Initiator)
  | linkFlitError (el : Elem) (port : BitVec 3) (flit : BitVec 2)
  | portDrain (who : Initiator) (el : Elem) (port : BitVec 3) (depoch : Bool)
  | portDisable (who : Initiator) (el : Elem) (port : BitVec 3)
  | portEnable (who : Initiator) (el : Elem) (port : BitVec 3)
  | portDrainComplete (el : Elem) (port : BitVec 3)
  | routeTableSwap (who : Initiator) (node : NodeId)
  -- host interface (R265 to R295)
  | doorbell (fn : BitVec 6) (off : BitVec 17) (size : Nat) (v : BitVec 64)
  | descriptorFetch (ring : RingId) (cpl : PcieCpl)
  | taskSubmit (ring : RingId) (idx : Word) (path : PathRes)
  | taskCancel (ring : RingId) (idx : Word) (path : PathRes)
  | dmaCopy (ring : RingId) (idx : Word) (path : PathRes)
  | dmaGather (ring : RingId) (idx : Word) (path : PathRes)
  | cfgStage (ring : RingId) (idx : Word) (path : PathRes)
  | cfgCommit (ring : RingId) (idx : Word)
  | commitBoundary (num : BitVec 3) (sfn : BitVec 10) (slot : BitVec 8)
  | powerStateWake (ring : RingId) (idx : Word)
  | powerStateNap (ring : RingId) (idx : Word)
  | powerStateRetain (ring : RingId) (idx : Word)
  | powerStateStandby (ring : RingId) (idx : Word)
  | powerStateDeep (ring : RingId) (idx : Word)
  | budgetSet (ring : RingId) (idx : Word)
  | journalAppend (ring : RingId) (idx : Word)
  | journalCompact (ring : RingId) (idx : Word)
  | journalRead (ring : RingId) (idx : Word) (path : PathRes)
  | timeCmdRead (ring : RingId) (idx : Word) (path : PathRes)
  | timeCmdStep (ring : RingId) (idx : Word)
  | timeCmdFrequencyAdjust (ring : RingId) (idx : Word)
  | timeCmdArmTimer (ring : RingId) (idx : Word)
  | timeCmdCancelTimer (ring : RingId) (idx : Word)
  | beaconTransmit (ring : RingId) (idx : Word) (path : PathRes)
  | beaconReceiveOn (ring : RingId) (idx : Word)
  | beaconReceiveOff (ring : RingId) (idx : Word)
  | beaconLoadTable (ring : RingId) (idx : Word) (path : PathRes)
  | beaconReadNoiseFloor (ring : RingId) (idx : Word) (path : PathRes)
  | faultInject (ring : RingId) (idx : Word)
  | faultQuery (ring : RingId) (idx : Word) (path : PathRes)
  | hostFence (ring : RingId) (idx : Word)
  | completionWrite (ring : RingId) (ok : Bool)
  | sourceQueueForward (ring : RingId) (ok : Bool)
  | eventWrite (ring : RingId) (ok : Bool)
  | ringEnable (who : Initiator) (ring : RingId) (v : Word)
  | ringDisable (who : Initiator) (ring : RingId) (v : Word)
  | functionLevelReset (fn : BitVec 6)
  | barAccess (fn : BitVec 6) (bar : Bar) (off : BitVec 36) (wr : Bool) (size : Nat) (data : List Byte)
  | hostMemoryAccess (ini : Initiator) (pa : Pa) (wr : Bool) (len : Nat) (data : List Byte) (act : ActId)
  | hostReadCompletion (tag : BitVec 10) (cpl : PcieCpl)
  | dmaChannelConfigWrite (who : Initiator) (n : BitVec 4) (v : Word)
  -- fronthaul (R296 to R321)
  | frameReceive (port : PortId) (frame : List Byte) (fcsBad : Bool) (stamp : Ts)
  | iqPacketReceive (port : PortId)
  | type2MessageReceive (port : PortId)
  | ptpFrameReceive (port : PortId) (msg : PtpMsg)
  | esmcFrameReceive (port : PortId) (ssm : BitVec 4)
  | delayRequestReceive (port : PortId) (twoStep : Bool) (measId : BitVec 8)
  | delayFollowUpReceive (port : PortId) (measId : BitVec 8)
  | remoteDelayRequestReceive (port : PortId) (measId : BitVec 8)
  | delayResponseReceive (port : PortId) (measId : BitVec 8) (peerRx : BitVec 64) (comp : BitVec 64)
  | delayMeasurementStart (who : Initiator) (port : PortId) (v : Word)
  | delayMeasurementTimeout (port : PortId)
  | symbolCloseTimeout (strm : StreamId) (inst : BitVec 2)
  | symbolDescriptorEnqueue (strm : StreamId) (path : PathRes)
  | exceptionBufferFree (who : Initiator) (v : Word)
  | txEntryDequeue (strm : StreamId)
  | txSend (strm : StreamId) (path : PathRes)
  | txRecordEnqueue (strm : StreamId) (path : PathRes)
  | quadModeWrite (who : Initiator) (q : BitVec 3) (v : Word)
  | streamEnable (who : Initiator) (strm : StreamId) (v : Word)
  | streamDisable (who : Initiator) (strm : StreamId) (v : Word)
  | laneLockChange (q : BitVec 3) (locked : Bool)
  -- Clockmaker (R322 to R351)
  | sourceSelection
  | sourceValidityChange (c : SrcChange)
  | phaseMeasurement (slot : BitVec 3) (phase : BitVec 64) (freqPpb : BitVec 32)
  | holdoverSpecExpiry
  | eventTimerFire (t : TimerId)
  | timerArm (who : Initiator) (t : TimerId) (v : Word)
  | timerDisarm (who : Initiator) (t : TimerId) (v : Word)
  | ppsEnable (who : Initiator) (n : Bool) (v : Word)
  | timeSnapshot (who : Initiator) (v : Word)
  | slotPulse (num : BitVec 3)
  | ppsInEdge (at96 : Ts)
  | todMessageReceive (isTime badSum : Bool) (sec : BitVec 48)
  | ptpMessageTransmit (port : PortId) (k : PtpSend)
  -- cascade (R352 to R371)
  | tokenReceive (f : CasFrame)
  | tokenRegenerate (ring : Bool)
  | frameTransit (f : CasFrame)
  | reqReceive (f : CasFrame)
  | rspReceive (f : CasFrame)
  | enqReceive (f : CasFrame)
  | enqrspReceive (f : CasFrame)
  | pollSend
  | pollReceive (f : CasFrame)
  | replyReceive (f : CasFrame)
  | joinTimeout
  | remoteAccess (ini : Initiator) (typ : PktType) (pa : Pa) (mask : BitVec 64) (data : List Byte) (act : ActId)
  | remoteSlotTimeout (slot : BitVec 8)
  | exportDequeue (n : BitVec 4)
  | linkLockLoss (east : Bool)
  | wrapIndicationReceive (east : Bool)
  | wrapHoldExpiry (east : Bool)
  | unwrap (who : Initiator) (v : Word)
  -- Crier (R372 to R395)
  | beaconSymbolReceive (power : List (BitVec 32)) (obs : CriObs)
  | beaconSymbolTransmit
  | receiveSlotFree (who : Initiator) (v : Word)
  | crierEnable (who : Initiator) (v : Word)
  | crierDisable (who : Initiator) (v : Word)
  | referenceHoldExpiry
  -- stored data (R396 to R418)
  | bulkMemoryRead (ini : Initiator) (pa : Pa) (len : Nat) (act : ActId)
  | bulkMemoryWrite (ini : Initiator) (pa : Pa) (bytes : List (Option Byte)) (poison : BitVec 128) (act : ActId)
  | scrubRead (m : McId)
  | wmapClearStart (who : Initiator) (v : Word)
  | wmapClearDone
  | flipArm (who : Initiator) (m : McId) (v : Word)
  -- Assayer (R419 to R433)
  | faultSourceEvent (src : SourceId) (detail : Word)
  | reportPathFault (src : SourceId)
  | faultWindowClose (src : SourceId)
  | asyUnfence (who : Initiator) (v : Word)
  | faultInjectTimeout (src : SourceId)
  | logRecordWrite
  -- Lamplighter (R434 to R458)
  | prepareAnswer (m : Member)
  | prepareTimeout
  | entryDrainComplete
  | wakePin (i : BitVec 2)
  | wakeStepReady (u : PowerUnit)
  | wakeStepTimeout (u : PowerUnit)
  | thermalPrediction (r : RegionId)
  | brownOut (r : RegionId)
  | aonOvercurrent
  | reconciliation (u : PowerUnit) (reported : BitVec 2)
  | operatingPointRequest (who : Initiator) (r : RegionId) (v : Word)
  | operatingPointDone (r : RegionId)
  | regionEnable (who : Initiator) (r : RegionId)
  -- journal (R469 to R481)
  | journalRecordWrite
  | compactionStart
  | compactionCommit
  -- board interfaces (R498, R499, R504)
  | thermtrip (die : BitVec 3) (sensor : BitVec 3) (temp : BitVec 16)
  | smbusBlockWrite (addr : BitVec 7) (count : Nat) (offset : Word)
  | smbusBlockRead (addr : BitVec 7)
  | smbusTimeout
  | extest | samplePreload | extestPulse | extestTrain | highz | clamp
  | bypass (ir : JtagIr)
  | trstNAssert
  -- late rows of the table
  | perstNRelease
  | busMasterEnableChange (fn : BitVec 6) (on : Bool)
  | cascadeRxLockGain (east : Bool)
  | fronthaulLinkChange (port : PortId) (up : Bool)
  deriving DecidableEq, Repr

end Sys2Proof
end

