-- ==== Sys2Proof/Machine/Map.lean ====
section
/-! DEFINITION. Sparse tables in canonical form: a key that is absent holds the default of its key. -/

namespace Sys2Proof.Machine

/-- The value at key i: the first entry with that key, else the default. -/
def get {α : Type} (d : Nat → α) : Sparse α → Nat → α
  | [], i => d i
  | (k, v) :: rest, i => if k = i then v else get d rest i

/-- Removes every entry with key i. -/
def drop {α : Type} : Sparse α → Nat → Sparse α
  | [], _ => []
  | (k, v) :: rest, i => if k = i then drop rest i else (k, v) :: drop rest i

/-- Inserts key i before the first larger key. -/
def insertKey {α : Type} (i : Nat) (v : α) : Sparse α → Sparse α
  | [] => [(i, v)]
  | (k, w) :: rest => if i < k then (i, v) :: (k, w) :: rest else (k, w) :: insertKey i v rest

/-- Writes key i; writing its default removes the entry. -/
def put {α : Type} [DecidableEq α] (d : Nat → α) (m : Sparse α) (i : Nat) (v : α) : Sparse α :=
  if v = d i then drop m i else insertKey i v (drop m i)

/-- Changes the value at key i. -/
def upd {α : Type} [DecidableEq α] (d : Nat → α) (m : Sparse α) (i : Nat) (f : α → α) : Sparse α :=
  put d m i (f (get d m i))

/-- The canonical form: keys strictly rising from lo, no entry equal to its default. -/
def canonFrom {α : Type} [DecidableEq α] (d : Nat → α) (lo : Nat) : Sparse α → Bool
  | [] => true
  | (k, v) :: rest => decide (lo ≤ k) && decide (v ≠ d k) && canonFrom d (k + 1) rest

/-- A table in canonical form. -/
def canon {α : Type} [DecidableEq α] (d : Nat → α) (m : Sparse α) : Bool := canonFrom d 0 m

/-- A table whose default is the same at every key. -/
def sget {α : Type} (d : α) (m : Sparse α) (i : Nat) : α := get (fun _ => d) m i

/-- Writes a table whose default is the same at every key. -/
def sput {α : Type} [DecidableEq α] (d : α) (m : Sparse α) (i : Nat) (v : α) : Sparse α := put (fun _ => d) m i v

end Sys2Proof.Machine
end

