-- ==== Sys2Proof/Machine/State/ClusterState.lean ====
section
/-! DEFINITION. The state of a cluster's memory control, its scheduler slice, a region's budget controller and an engine
(R121 to R221). -/

namespace Sys2Proof.Machine

/-- How far the initialiser is with a memory (R139, R140). -/
inductive InitState where
  | blank | busy | done
  deriving DecidableEq, Repr, Inhabited

/-- A parity error that a 16-bit word of a parity memory shows (R74, R127): on every read until it is rewritten, or on
the next n reads. -/
inductive ParityErr where
  | none
  | stuck
  | glitch (n : Nat)
  deriving DecidableEq, Repr, Inhabited

/-- The CLU registers of R143 (INITSTAT is computed from the memories' initialisation states). -/
structure Clu where
  wbase : Sparse (BitVec 14)
  wstage : Sparse (BitVec 14)
  wpend : BitVec 16
  wlen : Sparse (BitVec 11)
  deriving DecidableEq, Repr, Inhabited

/-- CLU registers at reset (R143): every window disabled. -/
def Clu.reset : Clu := { wbase := [], wstage := [], wpend := 0, wlen := [] }

/-! ## Scheduler slice (R181 to R219) -/

/-- An entry in a queue's store: its bytes, arrival order (R182), tick of acceptance (R217), whether it is kept only until its
record enters the buffer (R201), and poison of the store (R183). -/
structure QEnt where
  e : Entry
  seq : Nat
  at0 : Word
  dead : Bool
  bad : Bool
  deriving DecidableEq, Repr, Inhabited

/-- A hardware queue: the fields of SCH_QCFG, QBASE, QCAP, QAUX (R219) and its entries in arrival order. -/
structure Queue where
  en : Bool
  typ : BitVec 2
  cons : BitVec 2
  qprio : BitVec 3
  actchk : Bool
  remote : Bool
  act : ActId
  base : BitVec 15
  cap : BitVec 13
  recEntry : BitVec 16
  recAff : BitVec 8
  recClass : BitVec 4
  ents : List QEnt
  deriving DecidableEq, Repr, Inhabited

/-- Local queue lq at reset (R219): CONS is ENGINE for queues 1 020 to 1 023. -/
def Queue.reset (lq : Nat) : Queue :=
  { en := false, typ := 0, cons := if 1020 ≤ lq then 1 else 0, qprio := 0, actchk := false, remote := false, act := 0,
    base := 0, cap := 0, recEntry := 0, recAff := 0xFF, recClass := 0, ents := [] }

/-- A task bound to, running on or suspended on a core (R194 to R199). `raw` is what CORE_TDESC delivers; `dead` marks a suspended
task kept only until its record enters the buffer (R201). -/
structure Task where
  raw : Entry
  qid : QueueId
  level : BitVec 3
  cls : BitVec 4
  seq : Nat
  charged : Nat
  stolen : Bool
  home : ClusterId
  noticed : Bool
  missed : Bool
  budget : Bool
  dead : Bool
  deriving DecidableEq, Repr, Inhabited

/-- What a core is doing for its slice (R194, SCH_COREk_STAT.STATE; OFF is FREE with COREEN 0 or fenced). -/
inductive SchedState where
  | free | bound | running | reclaim
  deriving DecidableEq, Repr, Inhabited

/-- The slice's record of one of its cores (R194 to R206, R218). `cur` is the bound or running task, `next` the task bound with
PREEMPT; `dead` holds the core in BOUND or RECLAIM until a record enters the buffer (R201); `ended` marks the END of a killed
task. -/
structure SCore where
  st : SchedState
  cur : Option Task
  next : Option Task
  resume : Bool
  notice : Bool
  killed : Bool
  noticePend : Option Word
  dispatch : Option Word
  preempt : Option Word
  susp : List Task
  dead : Bool
  ended : Bool
  load : Word
  busy : Nat
  deriving DecidableEq, Repr, Inhabited

/-- A slice core at reset: OFF, because COREEN resets to 0 (R194). -/
def SCore.reset : SCore :=
  { st := .free, cur := none, next := none, resume := false, notice := false, killed := false, noticePend := none,
    dispatch := none, preempt := none, susp := [], dead := false, ended := false, load := 0, busy := 0 }

/-- A slice's holding for one activity (R209, R211, R212). -/
structure Hold where
  held : Int
  asked : Bool
  exh : Bool
  parity : Bool
  deriving DecidableEq, Repr, Inhabited

/-- No holding. -/
def Hold.reset : Hold := { held := 0, asked := false, exh := false, parity := false }

/-- A record that waits in a slice's buffer (R201): completion queue and record. -/
structure RecOut where
  cqid : QueueId
  record : Entry
  deriving DecidableEq, Repr, Inhabited

/-- The storage that a waiting record's task or entry keeps (R201): a queued entry by queue and arrival number, a suspended task, a
core in BOUND, a core in RECLAIM. -/
inductive Holder where
  | queued (lq : BitVec 10) (seq : Nat)
  | suspended (k : BitVec 3) (seq : Nat)
  | bound (k : BitVec 3)
  | killed (k : BitVec 3)
  | none
  deriving DecidableEq, Repr, Inhabited

/-- A record formed by CANCEL or a deadline that waits for buffer space (R201). -/
structure WaitRec where
  out : RecOut
  holder : Holder
  deriving DecidableEq, Repr, Inhabited

/-- A stolen record kept by the victim (R215). -/
structure Stolen where
  tag : Word
  qid : QueueId
  thief : ClusterId
  cancelled : Bool
  deriving DecidableEq, Repr, Inhabited

/-- A thief's progress (R214): idle start, victims still to ask, refusals so far, and an outstanding request or task on its way. -/
structure Thief where
  idleSince : Option Nat
  victims : List ClusterId
  refusals : Nat
  asking : Option ClusterId
  coming : Option Task
  refused : Bool
  deriving DecidableEq, Repr, Inhabited

/-- One scheduler slice (R219). -/
structure Slice where
  coreen : BitVec 8
  stealen : Bool
  giveen : Bool
  enqtmo : BitVec 24
  stealidle : BitVec 16
  histScale : BitVec 5
  loadNum : BitVec 3
  loadMult : BitVec 5
  qidx : BitVec 10
  cls : Sparse (BitVec 2)
  queues : Sparse Queue
  cores : Sparse SCore
  recbuf : List RecOut
  waitRecs : List WaitRec
  stealSlot : Option Task
  stolen : List Stolen
  back : List (ClusterId × Word × QueueId)
  holds : Sparse Hold
  thief : Thief
  seq : Nat
  deriving DecidableEq, Repr, Inhabited

/-- A slice at reset (R219). -/
def Slice.reset : Slice :=
  { coreen := 0, stealen := false, giveen := false, enqtmo := 0x100000, stealidle := 256, histScale := 6, loadNum := 1,
    loadMult := 1, qidx := 0, cls := [], queues := [], cores := [], recbuf := [], waitRecs := [], stealSlot := none, stolen := [],
    back := [], holds := [],
    thief := { idleSince := none, victims := [], refusals := 0, asking := none, coming := none, refused := false },
    seq := 0 }

/-! ## Budget controller (R208 to R220) -/

/-- Budget words of one activity (R220). -/
structure BudWords where
  cyc : Word
  joba : Word
  jobb : Word
  jobc : Word
  bmax : Word
  deriving DecidableEq, Repr, Inhabited

/-- Budget words at reset (R220): no job limit, no cycles, no borrowing. -/
def BudWords.reset : BudWords :=
  { cyc := 0, joba := 0xFFFFFFFF, jobb := 0xFFFFFFFF, jobc := 0xFFFFFFFF, bmax := 0 }

/-- One activity in a region's BUD (R208 to R212, R220). `cur` is in effect, `staged` applies at the next edge;
jobsLeft and jobsBorrowed are per class 0–5. -/
structure BudAct where
  en : Bool
  num : BitVec 3
  mult : BitVec 5
  borrow : Bool
  cur : BudWords
  staged : Option BudWords
  left : Word
  jobsLeft : Sparse (BitVec 16)
  jobsBorrowed : Sparse (BitVec 16)
  borrowed : BitVec 16
  exh : Bool
  ovr : Bool
  parity : Bool
  deriving DecidableEq, Repr, Inhabited

/-- An activity at reset (R220). -/
def BudAct.reset : BudAct :=
  { en := false, num := 0, mult := 1, borrow := false, cur := BudWords.reset, staged := none, left := 0,
    jobsLeft := [], jobsBorrowed := [], borrowed := 0, exh := false, ovr := false, parity := false }

/-- A chunk grant or refusal on its way to a slice (R209, R211, R212). -/
structure ChunkMsg where
  gc : ClusterId
  act : ActId
  amount : Option Nat
  parity : Bool
  deriving DecidableEq, Repr, Inhabited

/-- A region's budget controller (R220). -/
structure Bud where
  acts : Sparse BudAct
  rsvEn : Bool
  rsvNum : BitVec 3
  rsvMult : BitVec 5
  rsvCyc : Word
  rsvJobA : Word
  rsvJobB : Word
  rsvJobC : Word
  rsvLeft : Word
  rsvJobs : Sparse (BitVec 16)
  msgs : List ChunkMsg
  deriving DecidableEq, Repr, Inhabited

/-- A BUD at reset (R220). -/
def Bud.reset : Bud :=
  { acts := [], rsvEn := false, rsvNum := 0, rsvMult := 1, rsvCyc := 0, rsvJobA := 0, rsvJobB := 0, rsvJobC := 0,
    rsvLeft := 0, rsvJobs := [], msgs := [] }

/-! ## Engines (R144 to R180) -/

/-- ACC_STATUS.STATE (R179). -/
inductive EngState where
  | disabled | idle | setup | run | writeback | complete
  deriving DecidableEq, Repr, Inhabited

/-- What an engine in SETUP waits for (R153, R210). -/
inductive SetupWait where
  | descriptor | params | borrow
  deriving DecidableEq, Repr, Inhabited

/-- The job in an engine's hands (R149, R150, R154 to R162). -/
structure Job where
  entry : Entry
  desc : Block64
  params : List Byte
  wait : SetupWait
  flags : Word
  outc : Outc
  step : BitVec 4
  result : Word
  outlen : Word
  tend : Word
  abort : Option Outc
  abortAt : Nat
  ran : Bool
  hasDesc : Bool
  wb : List Byte
  wbDone : Bool
  deriving DecidableEq, Repr, Inhabited

/-- One accelerator engine (R179). `rst` marks a reset that waits for the job's record (R178). -/
structure Engine where
  en : Bool
  st : EngState
  qsel : QueueId
  curtag : Word
  errOutc : BitVec 5
  errStep : BitVec 4
  etag : Word
  job : Option Job
  rst : Bool
  deriving DecidableEq, Repr, Inhabited

/-- Engine e at reset (R179): DISABLED; ACC_QSEL names cluster slot mod 4 of its region, local queue 1 020 + slot div 4. -/
def Engine.reset (e : Nat) : Engine :=
  { en := false, st := .disabled,
    qsel := BitVec.ofNat 16 ((4 * (e / 16) + e % 16 % 4) * 1024 + (1020 + e % 16 / 4)),
    curtag := 0, errOutc := 0, errStep := 0, etag := 0, job := none, rst := false }

end Sys2Proof.Machine
end

