-- ==== Sys2Proof/Machine/State/CoreState.lean ====
section
/-! DEFINITION. The state of one Shezia core with its two coprocessor slots (R44, R48, R84, R97, R105, R114). -/

namespace Sys2Proof.Machine

/-- CORE_STATUS.STATE (R84). -/
inductive CoreRunState where
  | halted | running | wait | stalled
  deriving DecidableEq, Repr, Inhabited

/-- The loop registers LC0–LC3, LB0–LB3, LE0–LE3 and the depth (R44); also the form of a loop shadow set (R48). -/
structure Loops where
  depth : BitVec 3
  lc : Sparse (BitVec 16)
  lb : Sparse (BitVec 16)
  le : Sparse (BitVec 16)
  deriving DecidableEq, Repr, Inhabited

/-- Loop registers at reset (depth 0; the counts and addresses are a DESIGN CHOICE, log 3). -/
def Loops.reset : Loops := { depth := 0, lc := [], lb := [], le := [] }

/-- A late report of R103. -/
structure CpLate where
  baddr : BitVec 16
  slot : Bool
  ovf : Bool
  divz : Bool
  par : Bool
  seq : BitVec 8
  deriving DecidableEq, Repr, Inhabited

/-- A committed coprocessor operation that has not finished (R91), with the core operands it read at its bundle. -/
structure CpPend where
  op : BitVec 5
  f : CpFields
  baddr : BitVec 16
  seq : BitVec 8
  vsrc : BitVec 512
  ssrc : Word
  ssrc2 : Word
  data : List Byte
  deriving DecidableEq, Repr, Inhabited

/-- The CMU's architectural state (R105). -/
structure Cmu where
  mx : Sparse (BitVec 512)
  ma : Sparse (BitVec 1280)
  flg : BitVec 4
  exp : BitVec 16
  deriving DecidableEq, Repr, Inhabited

/-- The SBU's architectural state (R114): work buffers and control words 0–7. -/
structure Sbu where
  wb : Sparse (BitVec 512)
  ctl : Sparse Word
  deriving DecidableEq, Repr, Inhabited

/-- One coprocessor slot's queues: operations in flight, late reports, the count SEQ, and the 16-bit words of its
state that hold a parity error, by byte offset of the state image (R95, R103, R104). -/
structure CpPort where
  pend : List CpPend
  late : List CpLate
  seq : BitVec 8
  bad : Sparse Bool
  deriving DecidableEq, Repr, Inhabited

/-- An empty coprocessor port. -/
def CpPort.reset : CpPort := { pend := [], late := [], seq := 0, bad := [] }

/-- What a fabric access of a core came back with (R72). -/
structure FabRes where
  outc : Outc
  flags : Word
  data : List Byte
  deriving DecidableEq, Repr, Inhabited

/-- Why a bundle is held before its commit: instruction memory or another memory of the cluster is being initialised (R86, R140), an
issue stall (R96), a fabric answer (R54), a full queue (R73). -/
inductive HeldKind where
  | fetch | init | busy | fabric | queueFull
  deriving DecidableEq, Repr, Inhabited

/-- A bundle that has issued and not yet committed, with the fabric answers it has so far (key: 0 slot A, 1 slot B, 2 slot D,
plus 10 for each further 64-byte block of the slot's read; 4 a queue access). -/
structure Held where
  kind : HeldKind
  bundle : Bundle
  asked : Sparse Bool
  got : Sparse (Option FabRes)
  since : Nat
  deriving DecidableEq, Repr, Inhabited

/-- Registers saved and set by trap and interrupt entry, one set per level (R77). -/
structure TrapRegs where
  epc : BitVec 16
  estat : BitVec 3
  tcause : BitVec 8
  tval : Word
  tvec : BitVec 16
  lsh : Loops
  deriving DecidableEq, Repr, Inhabited

/-- A trap register set at reset (values: DESIGN CHOICE, log 3). -/
def TrapRegs.reset : TrapRegs :=
  { epc := 0, estat := 0, tcause := 0, tval := 0, tvec := 0, lsh := Loops.reset }

/-- The data registers of R44. -/
structure CoreRegs where
  s : Sparse Word
  a : Sparse Word
  n : Sparse Word
  v : Sparse (BitVec 512)
  ac : Sparse (BitVec 1280)
  scf : Word
  deriving DecidableEq, Repr, Inhabited

/-- Data registers at reset: SCF is 0x44 (R47), the others are 0 (DESIGN CHOICE, log 3). -/
def CoreRegs.reset : CoreRegs := { s := [], a := [], n := [], v := [], ac := [], scf := 0x44 }

/-- The control registers of R48 and R97 that are not per level. -/
structure CoreCtl where
  acst : BitVec 9
  ldflags : Word
  priv : BitVec 2
  ie : Bool
  imask : BitVec 6
  deleg : Word
  tdesc : Entry
  cycle : BitVec 64
  timercmp : Word
  timerPend : Bool
  farwin : Sparse (BitVec 16)
  cpen : Word
  bootpc : BitVec 16
  stfault : Bool
  stOutc : BitVec 5
  deriving DecidableEq, Repr, Inhabited

/-- Control registers at reset: CORE_DELEG 0 (R48), CORE_CPEN by R97, the CORE block by R84; privilege P0 with IE 0
and the registers without a stated reset at 0 are a DESIGN CHOICE (log 3). -/
def CoreCtl.reset : CoreCtl :=
  { acst := 0, ldflags := 0, priv := 0, ie := false, imask := 0, deleg := 0, tdesc := 0, cycle := 0,
    timercmp := 0, timerPend := false, farwin := [], cpen := 0x3011, bootpc := 0, stfault := false, stOutc := 0 }

/-- One core (R44, R84). -/
structure Core where
  pc : BitVec 16
  st : CoreRunState
  haltReq : Bool
  r : CoreRegs
  c : CoreCtl
  loops : Loops
  t0 : TrapRegs
  t1 : TrapRegs
  cmu : Cmu
  sbu : Sbu
  cp0 : CpPort
  cp1 : CpPort
  held : Option Held
  deriving DecidableEq, Repr, Inhabited

/-- A core at reset: HALTED (R86). -/
def Core.reset : Core :=
  { pc := 0, st := .halted, haltReq := false, r := CoreRegs.reset, c := CoreCtl.reset, loops := Loops.reset,
    t0 := TrapRegs.reset, t1 := TrapRegs.reset, cmu := { mx := [], ma := [], flg := 0, exp := 0 },
    sbu := { wb := [], ctl := [] }, cp0 := CpPort.reset, cp1 := CpPort.reset, held := none }

end Sys2Proof.Machine
end

