-- ==== Sys2Proof/Machine/State/FabricState.lean ====
section
/-! DEFINITION. The state of the on-package fabric: packets, network interfaces with route tables and regulators, routing
elements with port states (R222 to R264). -/

namespace Sys2Proof.Machine

/-- A packet of R228 to R230. `poison` marks the 16-bit payload words with bad parity (R232); `born` is the root cycle in
which it entered the buffer it stands in (R253), `p2` marks an access by a task at privilege P2 (R31). -/
structure Packet where
  typ : PktType
  route : BitVec 24
  src : NodeId
  txid : BitVec 11
  act : ActId
  epoch : Bool
  addr : Pa
  mask : BitVec 64
  data : List Byte
  poison : BitVec 128
  outc : Outc
  synth : Bool
  flags : BitVec 8
  tc : Bool
  mgt : Bool
  ini : Initiator
  p2 : Bool
  born : Nat
  deriving DecidableEq, Repr, Inhabited

/-- What an initiator asked its NI for (R238). `lane` tells the initiator's accesses apart: 0, 1, 2 the load of a core's slot
A, B, D; 3 a posted store; 4 a QENQ; 5 and above other accesses. `again` marks an enqueue that was re-sent (R254). -/
structure NiReq where
  ini : Initiator
  lane : Nat
  typ : PktType
  addr : Pa
  mask : BitVec 64
  data : List Byte
  poison : BitVec 128
  act : ActId
  node : NodeId
  route : BitVec 24
  epoch : Bool
  enqueue : Bool
  p2 : Bool
  again : Bool
  deriving DecidableEq, Repr, Inhabited

/-- A route table entry (FAB_RTEn, R262). -/
structure RtEntry where
  route : BitVec 24
  epoch : Bool
  valid : Bool
  deriving DecidableEq, Repr, Inhabited

/-- A regulator entry with its bucket and FIFO (R244 to R246). -/
structure RegEntry where
  act : ActId
  en : Bool
  tc : Bool
  rate : BitVec 14
  burst : BitVec 16
  bucket : Nat
  fifo : List NiReq
  deriving DecidableEq, Repr, Inhabited

/-- A regulator entry at reset: full bucket (R245, R262). -/
def RegEntry.reset : RegEntry :=
  { act := 0, en := false, tc := false, rate := 0x3FFF, burst := 0xFFFF, bucket := 0xFFFF * 4096, fifo := [] }

/-- What a TXID slot is doing (R250 to R252); numbers are root cycles. -/
inductive TxState where
  | free
  | opened (r : NiReq) (since : Nat)
  | quarantine (since : Nat)
  deriving DecidableEq, Repr, Inhabited

/-- A TXID slot with its generation (R228, R252). -/
structure TxSlot where
  gen : BitVec 2
  st : TxState
  deriving DecidableEq, Repr, Inhabited

/-- An enqueue answered RETRY, waiting for its gap to end (R254). -/
structure RetryHold where
  r : NiReq
  since : Nat
  deriving DecidableEq, Repr, Inhabited

/-- One network interface (R262). -/
structure Ni where
  statsel : BitVec 4
  hscale : BitVec 5
  retrygap : BitVec 16
  tmo : BitVec 10
  staging : Sparse RtEntry
  active : Sparse RtEntry
  regs : Sparse RegEntry
  free : List NiReq
  mgt : List NiReq
  slots : Sparse TxSlot
  arrived : List Packet
  retries : List RetryHold
  deriving DecidableEq, Repr, Inhabited

/-- An NI at reset (R262); its route tables hold the default routes of R243, which are their default value. -/
def Ni.reset : Ni :=
  { statsel := 0xF, hscale := 4, retrygap := 64, tmo := 100, staging := [], active := [], regs := [], free := [], mgt := [],
    slots := [], arrived := [], retries := [] }

/-- A router port (R256, R263). -/
structure RPort where
  state : BitVec 2
  depoch : Bool
  pend : Bool
  deriving DecidableEq, Repr, Inhabited

/-- A port at reset: ENABLED (R263). -/
def RPort.reset : RPort := { state := 0, depoch := false, pend := false }

/-- A routing element: its output ports, its input buffers by the code of the port of entry, the packets waiting in an
output port's buffer while it drains, and each output's count of consecutive failures of a flit (R224, R249, R256). -/
structure ElemState where
  ports : Sparse RPort
  inq : Sparse (List Packet)
  outq : Sparse (List Packet)
  fails : Sparse Nat
  deriving DecidableEq, Repr, Inhabited

/-- An empty routing element. -/
def ElemState.reset : ElemState := { ports := [], inq := [], outq := [], fails := [] }

end Sys2Proof.Machine
end

