-- ==== Sys2Proof/Machine/State/FronthaulState.lean ====
section
/-! DEFINITION. The state of the fronthaul ports, the Clockmaker, the cascade MAC and the Crier (R296 to R395). -/

namespace Sys2Proof.Machine

/-! ## Fronthaul (R296 to R321) -/

/-- A quad of lanes (R298, R319). -/
structure Quad where
  mode : BitVec 3
  reclane : BitVec 2
  link : BitVec 4
  reclos : Bool
  deriving DecidableEq, Repr, Inhabited

/-- A quad at reset (R321). -/
def Quad.reset : Quad := { mode := 2, reclane := 0, link := 0, reclos := true }

/-- A message that passed R299 up to step 9 and waits for its classification: arrival stamp, section header, and what follows it. -/
structure RxMsg where
  strm : StreamId
  typ2 : Bool
  fcsBad : Bool
  stamp : Ts
  hdr : List Byte
  body : List Byte
  deriving DecidableEq, Repr, Inhabited

/-- A type 5 request with follow-up that waits for it (R317). -/
structure OwdReq where
  measId : BitVec 8
  stamp : Ts
  deriving DecidableEq, Repr, Inhabited

/-- A type 5 message the port has sent last (R317): action, measurement ID, time stamp, compensation. -/
structure OwdSent where
  action : BitVec 8
  measId : BitVec 8
  stamp : Ts
  comp : Word
  deriving DecidableEq, Repr, Inhabited

/-- A message sent by a transmit stream (R316): send tick, SEQ_ID, section header, and the bytes of its samples or payload. -/
structure TxMsg where
  strm : StreamId
  at0 : Word
  seqId : BitVec 16
  hdr : List Byte
  body : List Byte
  deriving DecidableEq, Repr, Inhabited

/-- A fronthaul port (R321); `owdId`, `owdTx` and `owdSince` belong to the delay request that is out. -/
structure Port where
  rxEn : Bool
  deliverBad : Bool
  unkHost : Bool
  txEn : Bool
  pcp : BitVec 3
  oneStep : Bool
  maclo : Word
  machi : Word
  peerlo : Word
  peerhi : Word
  tscorr : Word
  owdcomp : Word
  followup : Bool
  measId : BitVec 8
  busy : Bool
  tmo : Bool
  owdSince : Nat
  owdId : BitVec 8
  owdTx : Ts
  delay : BitVec 31
  valid : Bool
  rx : List RxMsg
  owdReqs : List OwdReq
  owdOut : Option OwdSent
  deriving DecidableEq, Repr, Inhabited

/-- A port at reset (R321); the addresses and OWDCOMP are a DESIGN CHOICE (log 3). -/
def Port.reset : Port :=
  { rxEn := false, deliverBad := false, unkHost := false, txEn := false, pcp := 0, oneStep := false, maclo := 0, machi := 0,
    peerlo := 0, peerhi := 0, tscorr := 0, owdcomp := 0, followup := false, measId := 0, busy := false, tmo := false,
    owdSince := 0, owdId := 0, owdTx := { sec := 0, ns := 0, frac := 0 }, delay := 0, valid := false, rx := [],
    owdReqs := [], owdOut := none }

/-- A symbol instance of a receive stream with its coverage map (R308, R312). -/
structure SymInst where
  ident : BitVec 24
  s : Word
  map : BitVec 273
  opened : Bool
  formed : Bool
  flags : Word
  outc : Outc
  seq : Nat
  deriving DecidableEq, Repr, Inhabited

/-- A descriptor that waits to be enqueued (R312, R314). -/
structure PendDesc where
  e : Entry
  q : QueueId
  deriving DecidableEq, Repr, Inhabited

/-- A transmit entry that a port holds (R316). -/
structure TxHeld where
  e : Entry
  deriving DecidableEq, Repr, Inhabited

/-- A stream context: the nine words of R321 and its instances, pending descriptors, held entries and records. -/
structure Strm where
  pcid : BitVec 16
  vid : BitVec 12
  tagged : Bool
  type2 : Bool
  en : Bool
  tx : Bool
  fmt : BitVec 3
  num : BitVec 3
  deliverBad : Bool
  nodl : Bool
  emptyDesc : Bool
  act : ActId
  expprb : BitVec 9
  wopen : BitVec 16
  wclose : BitVec 16
  log2nbuf : BitVec 3
  port : PortId
  stride : BitVec 16
  dstlo : Word
  dsthi : BitVec 12
  qid : QueueId
  dloff : BitVec 16
  tmpl0 : Word
  tmpl1 : Word
  insts : List SymInst
  closing : List PendDesc
  pendq : List PendDesc
  held : List TxHeld
  recs : List PendDesc
  seqId : BitVec 16
  seq : Nat
  deriving DecidableEq, Repr, Inhabited

/-- A stream context at reset (R321). -/
def Strm.reset : Strm :=
  { pcid := 0, vid := 0, tagged := false, type2 := false, en := false, tx := false, fmt := 0, num := 1, deliverBad := false,
    nodl := false, emptyDesc := false, act := 0, expprb := 273, wopen := 0, wclose := 0, log2nbuf := 0, port := 0, stride := 0,
    dstlo := 0, dsthi := 0, qid := 0, dloff := 0, tmpl0 := 0x00FF0000, tmpl1 := 0, insts := [], closing := [], pendq := [],
    held := [], recs := [], seqId := 0, seq := 0 }

/-- A two-step egress stamp (R318). -/
structure EgressStamp where
  port : PortId
  seqId : BitVec 16
  stamp : Ts
  deriving DecidableEq, Repr, Inhabited

/-- The fronthaul block (R321); `sent` is the eCPRI message sent last. -/
structure Fhp where
  excbase : BitVec 25
  exccnt : BitVec 9
  excused : Sparse Bool
  txslack : BitVec 24
  quads : Sparse Quad
  ports : Sparse Port
  strms : Sparse Strm
  egress : List EgressStamp
  sent : Option TxMsg
  deriving DecidableEq, Repr, Inhabited

/-- The fronthaul block at reset (R321); EXCBASE and EXCCNT are a DESIGN CHOICE (log 3). -/
def Fhp.reset : Fhp :=
  { excbase := 0, exccnt := 0, excused := [], txslack := 512, quads := [], ports := [], strms := [], egress := [], sent := none }

/-! ## Clockmaker (R322 to R351) -/

/-- CMK_STAT.STATE (R338). -/
inductive ClockState where
  | freerun | acquiring | locked | holdover
  deriving DecidableEq, Repr, Inhabited

/-- A source slot (R333 to R335); `since` is the root cycle since which it has been valid. -/
structure ClkSrc where
  en : Bool
  typ : BitVec 3
  inst : BitVec 5
  prio : BitVec 4
  qlcfg : BitVec 4
  asym : Word
  valid : Bool
  ql : BitVec 4
  since : Nat
  deriving DecidableEq, Repr, Inhabited

/-- A source slot at reset (R351). -/
def ClkSrc.reset : ClkSrc :=
  { en := false, typ := 0, inst := 0, prio := 0, qlcfg := 0xF, asym := 0, valid := false, ql := 0xF, since := 0 }

/-- A PPS output (R344, R351); `offAt` is the root cycle in which its pulse ends. -/
structure Pps where
  en : Bool
  timer : TimerId
  pol : Bool
  width : BitVec 16
  off : Word
  level : Bool
  offAt : Nat
  deriving DecidableEq, Repr, Inhabited

/-- PPS output n at reset (R351). -/
def Pps.reset (n : Nat) : Pps :=
  { en := false, timer := BitVec.ofNat 6 (62 + n), pol := false, width := 100, off := 0, level := false, offAt := 0 }

/-- PTP port states (R340, R351). -/
inductive PtpState where
  | disabled | listening | uncalibrated | slave | master | passive
  deriving DecidableEq, Repr, Inhabited

/-- A PTP port (R340, R351). -/
structure PtpPort where
  en : Bool
  notSlave : Bool
  prio : BitVec 8
  st : PtpState
  clockClass : BitVec 8
  lastSync : Option (Ts × Ts)
  seq : BitVec 16
  sent : Option (PtpSend × BitVec 8 × Ts)
  deriving DecidableEq, Repr, Inhabited

/-- A PTP port at reset (R351). -/
def PtpPort.reset : PtpPort :=
  { en := false, notSlave := false, prio := 128, st := .disabled, clockClass := 248, lastSync := none, seq := 0, sent := none }

/-- Who owns an event timer (R343). -/
inductive TmrOwner where
  | free | host | pps | crier | gpio
  deriving DecidableEq, Repr, Inhabited

/-- An event timer (R342, R351); `skipped` marks an armed instant that had passed when it was armed or was stepped over. -/
structure Tmr where
  armBit : Bool
  periodic : Bool
  evt : Bool
  outsel : BitVec 3
  line : BitVec 4
  owner : TmrOwner
  inst : Ts
  period : Word
  armed : Bool
  late : Bool
  preempt : Bool
  skipped : Bool
  deriving DecidableEq, Repr, Inhabited

/-- A timer at reset (R351). -/
def Tmr.reset : Tmr :=
  { armBit := false, periodic := false, evt := false, outsel := 0, line := 0, owner := .free,
    inst := { sec := 0, ns := 0, frac := 0 }, period := 0, armed := false, late := false, preempt := false, skipped := false }

/-- The Clockmaker (R351). Device time is seconds, nanoseconds and fractional nanoseconds in units of 2^−16, with the place in the
group of three cycles (R327); `tick` is the device tick counter (R328); `pulses` holds, per numerology, the SFN and slot number of the
pulse delivered last (R332). -/
structure Cmk where
  sec : Nat
  ns : Nat
  frac : Nat
  phase3 : Nat
  tick : Word
  en : Bool
  role : BitVec 2
  autostep : Bool
  bw : BitVec 2
  clkouten : Bool
  clkoutf : Bool
  domain : BitVec 8
  st : ClockState
  hospec : Bool
  hoFromTime : Bool
  tsrc : Option (BitVec 3)
  fsrc : Option (BitVec 3)
  stepped : Bool
  wtr : BitVec 10
  qlmin : BitVec 4
  stepthr : BitVec 24
  lockthr : BitVec 16
  spec : BitVec 16
  sfnoff : BitVec 10
  gnssdly : Word
  baud : BitVec 3
  txen : Bool
  foff : Word
  pherr : Word
  good : Nat
  hoSince : Nat
  snap0 : Word
  snap1 : Word
  snap2 : Word
  snap3 : Word
  srcs : Sparse ClkSrc
  pps0 : Pps
  pps1 : Pps
  ptp : Sparse PtpPort
  tmrs : Sparse Tmr
  ppsIn : Option Ts
  ppsLabel : Option (BitVec 48)
  wasLocked : Bool
  pulses : Sparse Word
  deriving DecidableEq, Repr, Inhabited

/-- The Clockmaker at reset (R351); device time 0 is a DESIGN CHOICE (log 4). -/
def Cmk.reset : Cmk :=
  { sec := 0, ns := 0, frac := 0, phase3 := 0, tick := 0, en := false, role := 0, autostep := true, bw := 0, clkouten := false,
    clkoutf := false, domain := 24, st := .freerun, hospec := true, hoFromTime := false, tsrc := none,
    fsrc := none, stepped := false, wtr := 300, qlmin := 4, stepthr := 1000, lockthr := 400, spec := 14400, sfnoff := 0,
    gnssdly := 0, baud := 0, txen := false, foff := 0, pherr := 0, good := 0, hoSince := 0, snap0 := 0, snap1 := 0, snap2 := 0,
    snap3 := 0, srcs := [], pps0 := Pps.reset 0, pps1 := Pps.reset 1, ptp := [], tmrs := [], ppsIn := none, ppsLabel := none,
    wasLocked := false, pulses := [] }

/-! ## Cascade (R352 to R371) -/

/-- What a transaction slot holds (R365, R367): nothing, an access with the packet to answer if it came over the fabric, or the entry of an
export queue. -/
inductive CasUse where
  | free
  | access (ini : Initiator) (pkt : Option Packet) (typ : PktType)
  | xq (n : BitVec 4)
  deriving DecidableEq, Repr, Inhabited

/-- A transaction slot (R365, R366): generation, use, and the root cycle in which it was opened. -/
structure CasSlot where
  gen : BitVec 8
  use : CasUse
  since : Nat
  deriving DecidableEq, Repr, Inhabited

/-- A free slot. -/
def CasSlot.reset : CasSlot := { gen := 0, use := .free, since := 0 }

/-- An export queue (R367, R371) with the entry that it has dequeued and that has no ENQRSP yet. -/
structure XQueue where
  lqid : QueueId
  pkg : PkgId
  en : Bool
  dqid : QueueId
  entry : Option Entry
  deriving DecidableEq, Repr, Inhabited

/-- An export queue at reset (R371). -/
def XQueue.reset : XQueue := { lqid := 0, pkg := 0, en := false, dqid := 0, entry := none }

/-- What the manager knows of package k (R362, R364): hops, misses in a row, whether it answered the poll that is out, its Ek on each ring, the
second word of its last REPLY and its mailbox. -/
structure Peer where
  hops : BitVec 5
  hopsValid : Bool
  missed : Nat
  answered : Bool
  ek0 : BitVec 64
  ek1 : BitVec 64
  info : Word
  mailbox : List Byte
  deriving DecidableEq, Repr, Inhabited

/-- A peer at reset. -/
def Peer.reset : Peer :=
  { hops := 0, hopsValid := false, missed := 0, answered := false, ek0 := 0x7FFFFFFFFFFFFFFF, ek1 := 0x7FFFFFFFFFFFFFFF, info := 0, mailbox := [] }

/-- One ring's medium state (R358, R359): the token generation that the manager saw last and when, frames that wait for the token, and the
frames that the last cascade command put on the wire in this direction. -/
structure CasRing where
  lastGen : BitVec 16
  lastAt : Nat
  seen : Bool
  outq : List CasFrame
  sent : List CasFrame
  deriving DecidableEq, Repr, Inhabited

/-- A ring without token. -/
def CasRing.reset : CasRing := { lastGen := 0, lastAt := 0, seen := false, outq := [], sent := [] }

/-- A cascade port (R369). -/
structure CasPort where
  lock : Bool
  wrap : Bool
  indication : Bool
  since : Nat
  linkok : Bool
  unwrapAt : Option Nat
  deriving DecidableEq, Repr, Inhabited

/-- A cascade port at reset. -/
def CasPort.reset : CasPort :=
  { lock := false, wrap := false, indication := false, since := 0, linkok := false, unwrapAt := none }

/-- The time values a worker keeps between polls (R362, R363). -/
structure PollTimes where
  t2 : Ts
  t3 : Ts
  corr : BitVec 64
  deriving DecidableEq, Repr, Inhabited

/-- The cascade MAC (R371). -/
structure Cas where
  en : Bool
  unwrapReq : Bool
  joined : Bool
  straperr : Bool
  deliverBad : Bool
  pollper : BitVec 8
  toktmo : BitVec 16
  quota : BitVec 7
  present : BitVec 16
  rte : Sparse (BitVec 2)
  xq : Sparse XQueue
  slots : Sparse CasSlot
  peers : Sparse Peer
  ring0 : CasRing
  ring1 : CasRing
  east : CasPort
  west : CasPort
  pollSeq : BitVec 16
  lastPoll : Nat
  pollmask : BitVec 16
  timesE : Option PollTimes
  timesW : Option PollTimes
  theta : Option (BitVec 64)
  t1of0 : Ts
  t1of1 : Ts
  mbox : List Byte
  deriving DecidableEq, Repr, Inhabited

/-- The cascade MAC at reset (R371). -/
def Cas.reset : Cas :=
  { en := false, unwrapReq := false, joined := false, straperr := false, deliverBad := false, pollper := 10, toktmo := 20,
    quota := 64, present := 0, rte := [], xq := [], slots := [], peers := [], ring0 := CasRing.reset, ring1 := CasRing.reset,
    east := CasPort.reset, west := CasPort.reset, pollSeq := 0, lastPoll := 0, pollmask := 0, timesE := none, timesW := none,
    theta := none, t1of0 := { sec := 0, ns := 0, frac := 0 }, t1of1 := { sec := 0, ns := 0, frac := 0 }, mbox := [] }

/-! ## Crier (R372 to R395) -/

/-- CRI_STAT.RXSTATE (R384). -/
inductive CriRx where
  | idle | search | sync | header | payload
  deriving DecidableEq, Repr, Inhabited

/-- A held transmission (R390): its command, table, payload, timer, the tick of its timer's instant, whether it has started and in which symbol,
the symbols used and needed, and its header. -/
structure CriTx where
  ring : RingId
  idx : Word
  table : BitVec 4
  payload : List Byte
  timer : BitVec 8
  fireAt : Word
  started : Bool
  firstTick : Word
  used : Nat
  total : Nat
  header : Word
  deriving DecidableEq, Repr, Inhabited

/-- A packet being received (R384 to R388): CRI_NCO before it, the residual offset found so far, the payload bits and symbols so far. -/
structure CriPkt where
  metric : BitVec 16
  gain : BitVec 16
  start : Ts
  nco0 : Word
  residual : Word
  header : Word
  stream : List Bool
  syms : Nat
  table : Option (BitVec 256)
  deriving DecidableEq, Repr, Inhabited

/-- No packet. -/
def CriPkt.reset : CriPkt :=
  { metric := 0, gain := 0, start := { sec := 0, ns := 0, frac := 0 }, nco0 := 0, residual := 0, header := 0, stream := [], syms := 0, table := none }

/-- The Crier (R395); `act` is the activity of the receive-on command, which its records carry. -/
structure Cri where
  en : Bool
  fmode : Bool
  txpilot : Bool
  evfail : Bool
  rx : CriRx
  rxstrm : StreamId
  txstrm : StreamId
  bw : BitVec 2
  sf : BitVec 4
  startprb : BitVec 9
  symbols : BitVec 14
  mperiod : BitVec 10
  moffset : BitVec 10
  detthr : BitVec 8
  capmargin : BitVec 8
  agcTarget : BitVec 8
  agcGain : BitVec 8
  carrier : BitVec 24
  nco : Word
  lastfoff : Word
  refEn : Bool
  minmetric : BitVec 8
  hold : BitVec 8
  log2n : BitVec 4
  txamp : BitVec 16
  tblstat : BitVec 16
  tables : Sparse (BitVec 256)
  buf : Pa
  nslots : Nat
  used : Sparse Bool
  nextSlot : Nat
  written : Word
  pkt : CriPkt
  tx : Option CriTx
  refvalid : Bool
  refAt : Nat
  measure : Option Word
  nfSum : Sparse Nat
  nfCount : Nat
  nfVal : Sparse (BitVec 16)
  nfValid : Bool
  act : ActId
  deriving DecidableEq, Repr, Inhabited

/-- The Crier at reset (R395). -/
def Cri.reset : Cri :=
  { en := false, fmode := false, txpilot := true, evfail := false, rx := .idle, rxstrm := 0, txstrm := 0, bw := 0, sf := 10,
    startprb := 0, symbols := 0, mperiod := 1, moffset := 0, detthr := 48, capmargin := 24, agcTarget := 0xE8, agcGain := 0,
    carrier := 0, nco := 0, lastfoff := 0, refEn := false, minmetric := 40, hold := 10, log2n := 6, txamp := 8192, tblstat := 0,
    tables := [], buf := 0, nslots := 0, used := [], nextSlot := 0, written := 0, pkt := CriPkt.reset, tx := none,
    refvalid := false, refAt := 0, measure := none, nfSum := [], nfCount := 0, nfVal := [], nfValid := false, act := 0 }

end Sys2Proof.Machine
end

