-- ==== Sys2Proof/Machine/State/HostState.lean ====
section
/-! DEFINITION. The state of the host interface: functions, rings, commands, completions, events, stage sets, commits and DMA
channels (R265 to R295, R488). -/

namespace Sys2Proof.Machine

/-- HIF_RINGn_STAT.STATE (R293). -/
inductive RingState where
  | disabled | active | error
  deriving DecidableEq, Repr, Inhabited

/-- A host ring (R270, R295); `p0` is the index loaded at the last enable (R282); `held` are the entries that wait for space,
oldest first; `lost` counts dropped events (R285). -/
structure Ring where
  baselo : Word
  basehi : Word
  en : Bool
  typ : BitVec 2
  logsz : BitVec 5
  inten : Bool
  fn : BitVec 6
  vec : BitVec 11
  actlo : ActId
  acthi : ActId
  cring : RingId
  srcq : QueueId
  start : Word
  pi : Word
  ci : Word
  p0 : Word
  st : RingState
  armed : Bool
  cause : BitVec 3
  waiting : List Entry
  lost : Word
  deriving DecidableEq, Repr, Inhabited

/-- A ring at reset (R295). -/
def Ring.reset : Ring :=
  { baselo := 0, basehi := 0, en := false, typ := 0, logsz := 6, inten := false, fn := 0, vec := 0, actlo := 0, acthi := 0,
    cring := 0, srcq := 0, start := 0, pi := 0, ci := 0, p0 := 0, st := .disabled, armed := false, cause := 0, waiting := [],
    lost := 0 }

/-- A PCIe function (R266, R269, R271): MSI-X block, activity range, Bus Master Enable. -/
structure HostFn where
  vbase : BitVec 11
  vcount : BitVec 12
  actlo : ActId
  acthi : ActId
  bme : Bool
  deriving DecidableEq, Repr, Inhabited

/-- Function n at reset (R295); Bus Master Enable 0 is the PCI Express default (PRESUMED, log 6). -/
def HostFn.reset (n : Nat) : HostFn :=
  { vbase := 0, vcount := if n = 0 then 2048 else 0, actlo := 0, acthi := if n = 0 then 511 else 0, bme := false }

/-- An outbound translation entry (R291, R295). -/
structure Ott where
  valid : Bool
  fn : BitVec 6
  ro : Bool
  ns : Bool
  haddr : BitVec 32
  deriving DecidableEq, Repr, Inhabited

/-- An outbound translation entry at reset (R295). -/
def Ott.reset : Ott := { valid := false, fn := 0, ro := false, ns := false, haddr := 0 }

/-- How far an accepted command is (R275). -/
inductive CmdPhase where
  | accepted | running
  deriving DecidableEq, Repr, Inhabited

/-- An accepted command (R274): ring, index, descriptor; `retried` after a RETRY; `orphan` when its ring has left ACTIVE since (R287). -/
structure Cmd where
  ring : RingId
  idx : Word
  desc : Block64
  phase : CmdPhase
  retried : Bool
  orphan : Bool
  deriving DecidableEq, Repr, Inhabited

/-- One write of a stage set (R288). -/
structure StageEnt where
  pa : Pa
  value : Word
  mask : Word
  deriving DecidableEq, Repr, Inhabited

/-- A commit that waits for its boundary (R289): the command, the boundary as a tick, and its writes. -/
structure Commit where
  ring : RingId
  idx : Word
  num : BitVec 3
  sfn : BitVec 10
  slot : BitVec 8
  tick : Nat
  writes : List StageEnt
  deriving DecidableEq, Repr, Inhabited

/-- An event that waits for its ring (R285): event ring and the entry without PHASE, OVERFLOW and LOST. -/
structure EvEnt where
  ring : RingId
  e : Entry
  deriving DecidableEq, Repr, Inhabited

/-- A hub DMA channel's configuration (R488). -/
structure DmaCh where
  rsv : Bool
  ring : RingId
  deriving DecidableEq, Repr, Inhabited

/-- A DMA channel at reset: in the pool (R488). -/
def DmaCh.reset : DmaCh := { rsv := false, ring := 0 }

/-- A device read of host memory that PCIe has not completed (R292): who reads, the packet to answer if it came over the fabric, host
address, length, and the root cycle of the request. -/
structure HostRead where
  ini : Initiator
  pkt : Option Packet
  haddr : Nat
  len : Nat
  since : Nat
  deriving DecidableEq, Repr, Inhabited

/-- An MSI-X message that was sent: function and vector within its block (R269, R286). -/
structure MsixSent where
  fn : BitVec 6
  vec : BitVec 11
  deriving DecidableEq, Repr, Inhabited

/-- The host interface (R295). `stages` is the number of entries of each stage set; the entries stand in hub memory (R288, R483). `rr` is
the ring served last (R275), `msix` every message sent since reset. -/
structure Hif where
  ringen : Bool
  cto : BitVec 4
  ready : Bool
  rate : BitVec 3
  width : BitVec 5
  msixerr : Bool
  cfglead : BitVec 16
  errOutc : BitVec 5
  errOff : Word
  linkUp : Bool
  evsel : Sparse RingId
  fns : Sparse HostFn
  ott : Sparse Ott
  rings : Sparse Ring
  rr : RingId
  cmds : List Cmd
  events : List EvEnt
  stages : Sparse Nat
  commits : List Commit
  dma : Sparse DmaCh
  reads : Sparse (Option HostRead)
  msixTable : Sparse Word
  pba : Sparse Bool
  msix : List MsixSent
  perst : Bool
  deriving DecidableEq, Repr, Inhabited

/-- The host interface at reset (R295). -/
def Hif.reset : Hif :=
  { ringen := false, cto := 5, ready := false, rate := 0, width := 0, msixerr := false, cfglead := 100, errOutc := 0,
    errOff := 0, linkUp := false, evsel := [], fns := [], ott := [], rings := [], rr := 0, cmds := [], events := [],
    stages := [], commits := [], dma := [], reads := [], msixTable := [], pba := [], msix := [], perst := false }

end Sys2Proof.Machine
end

