-- ==== Sys2Proof/Machine/State/HubState.lean ====
section
/-! DEFINITION. The state of stored-data protection, the Assayer, the Lamplighter, the Scrivener, boot and the board interfaces
(R396 to R505). -/

namespace Sys2Proof.Machine

/-! ## Stored data (R396 to R418) -/

/-- A memory controller's registers (R417): the word to scrub next, the root cycle since which it is being waited for, the last
error. -/
structure Mc where
  scrubEn : Bool
  interval : BitVec 16
  scrubpos : BitVec 31
  scrubSince : Nat
  fliplo : Word
  fliphi : Word
  chk : BitVec 8
  arm : Bool
  errLo : Word
  errHi : Word
  deriving DecidableEq, Repr, Inhabited

/-- A controller at reset (R417). -/
def Mc.reset : Mc :=
  { scrubEn := false, interval := 64, scrubpos := 0, scrubSince := 0, fliplo := 0, fliphi := 0, chk := 0, arm := false,
    errLo := 0, errHi := 0 }

/-- A DRAM byte budget (R213, R221). -/
structure DBud where
  en : Bool
  num : BitVec 3
  mult : BitVec 5
  lim : BitVec 28
  staged : Option (BitVec 28)
  units : Nat
  deriving DecidableEq, Repr, Inhabited

/-- A DRAM byte budget at reset (R221). -/
def DBud.reset : DBud := { en := false, num := 0, mult := 1, lim := 0, staged := none, units := 0 }

/-- A copy of a triplicated word that differs from the value the model holds for it (R413): item, word, copy and the
differing bits. -/
structure TripUpset where
  item : BitVec 3
  word : BitVec 6
  copy : BitVec 2
  diff : Word
  deriving DecidableEq, Repr, Inhabited

/-- Package-wide protection state (R408, R412, R417, R418). `syn` is the syndrome each stored 8-byte word shows (R397), `written`
the written bit of each DRAM block, `mapSyn` the syndrome of each map word. -/
structure Edc where
  mcs : Sparse Mc
  syn : Sparse (BitVec 8)
  written : Sparse Bool
  mapSyn : Sparse (BitVec 8)
  clrFirst : BitVec 23
  clrLeft : Nat
  clrNext : Nat
  dbud : Sparse DBud
  trip : List TripUpset
  deriving DecidableEq, Repr, Inhabited

/-- Protection state at reset: every word clean, no block written (R407, R408). -/
def Edc.reset : Edc :=
  { mcs := [], syn := [], written := [], mapSyn := [], clrFirst := 0, clrLeft := 0, clrNext := 0, dbud := [],
    trip := [] }

/-! ## Assayer (R419 to R433) -/

/-- What FENCE and RESET act on (R419, R424). -/
inductive FaultUnit where
  | core (g : CoreId)
  | engine (e : EngId)
  | cluster (gc : ClusterId)
  | region (r : RegionId)
  | port (el : Elem) (p : BitVec 3)
  | none
  deriving DecidableEq, Repr, Inhabited

/-- A fence in force: the source that made it and its unit (R424). -/
structure Fence where
  src : SourceId
  unit : FaultUnit
  deriving DecidableEq, Repr, Inhabited

/-- A pending injection (R425, R426): its command, how many checks are left and done, and when it was accepted. -/
structure Injection where
  src : SourceId
  ring : RingId
  idx : Word
  left : Nat
  done : Nat
  since : Nat
  deriving DecidableEq, Repr, Inhabited

/-- A source (R422, R423, R433); `windowEnd` is the root cycle in which its window closes. -/
structure FaultSrc where
  en : Bool
  kind : BitVec 2
  loreact : BitVec 6
  hireact : BitVec 6
  thresh : BitVec 8
  winVal : BitVec 16
  winUnit : BitVec 2
  cnt : BitVec 16
  lastClass : BitVec 3
  wopen : Bool
  windowEnd : Nat
  rpf : Bool
  lastDet : Word
  deriving DecidableEq, Repr, Inhabited

/-- An event that a source has queued for the Assayer (R420): its detail word (R508), and the INJ and DURINJ marks of R426. -/
structure FaultEv where
  detail : Word
  inj : Bool
  durinj : Bool
  deriving DecidableEq, Repr, Inhabited

/-- The FATAL sources of R419. -/
def fatalSource (n : Nat) : Bool := n == 0x3E1 || n == 0x3E2 || n == 0x3E3 || n == 0x3FF

/-- Source n at reset (R433). -/
def FaultSrc.reset (n : Nat) : FaultSrc :=
  { en := true, kind := if fatalSource n then 2 else 0, loreact := 3, hireact := if fatalSource n then 0x33 else 3, thresh := 4,
    winVal := 1000, winUnit := 1, cnt := 0, lastClass := 0, wopen := false, windowEnd := 0, rpf := false, lastDet := 0 }

/-- The Assayer (R433); `buf` are records that wait for the log ring, `fatal` the fatal log, oldest first. -/
structure Asy where
  pin : Bool
  safe : Bool
  safeByCmk : Bool
  rpreact : BitVec 6
  injmask : BitVec 6
  logBase : BitVec 25
  log2n : BitVec 4
  seq : Word
  srcs : Sparse FaultSrc
  buf : List Entry
  fatal : List Entry
  fences : List Fence
  inj : List Injection
  queued : Sparse (List FaultEv)
  deriving DecidableEq, Repr, Inhabited

/-- The Assayer at reset (R433). -/
def Asy.reset : Asy :=
  { pin := false, safe := false, safeByCmk := false, rpreact := 0x13, injmask := 3, logBase := 0, log2n := 8, seq := 0, srcs := [],
    buf := [], fatal := [], fences := [], inj := [], queued := [] }

/-! ## Lamplighter (R434 to R458) -/

/-- A region's power state (R434, R458). -/
inductive RegionPower where
  | disabled | retain | active | failed
  deriving DecidableEq, Repr, Inhabited

/-- A cluster's power state (R434, R458). -/
inductive ClusterPower where
  | off | retain | nap | active
  deriving DecidableEq, Repr, Inhabited

/-- A region as the Lamplighter and its agent hold it (R434, R458). `saved` are the cluster states before its RETAIN, `opEnd` is the
root cycle in which the ramp of an operating-point change ends (R454). -/
structure RegionState where
  st : RegionPower
  c0 : ClusterPower
  c1 : ClusterPower
  c2 : ClusterPower
  c3 : ClusterPower
  saved : List ClusterPower
  retlost : Bool
  opReq : BitVec 2
  opCur : BitVec 2
  opBusy : Bool
  opEnd : Nat
  failed : List (BitVec 2)
  deriving DecidableEq, Repr, Inhabited

/-- A region after reset: DISABLED (R435, R458). -/
def RegionState.reset : RegionState :=
  { st := .disabled, c0 := .off, c1 := .off, c2 := .off, c3 := .off, saved := [], retlost := false, opReq := 0,
    opCur := 0, opBusy := false, opEnd := 0, failed := [] }

/-- Package power states (R434, R457). -/
inductive PkgPower where
  | run | standby | deep
  deriving DecidableEq, Repr, Inhabited

/-- A power-down transaction (R442): command, target, the state asked for, members still to answer, members that agreed, the
first refusal, and whether the drain has begun. -/
structure PowerTx where
  ring : RingId
  idx : Word
  target : PowerUnit
  state : BitVec 8
  waiting : List Member
  agreed : List Member
  draining : Bool
  since : Nat
  deriving DecidableEq, Repr, Inhabited

/-- A wake in progress (R446 to R448): the unit, its step, retries so far, when the step began, the command that asked for it
if one did, the state code before, the state code to reach (NAP for a cluster that POWER_STATE raises from RETAIN, log 24), and the
LMP_WAKESRC bits of this wake. -/
structure WakeTx where
  target : PowerUnit
  step : WakeStep
  retries : Nat
  since : Nat
  start : Nat
  cmd : Option (RingId × Word)
  prev : BitVec 8
  goal : BitVec 8
  src : BitVec 8
  deriving DecidableEq, Repr, Inhabited

/-- A request held for a wake (R445). -/
structure HeldReq where
  target : PowerUnit
  node : NodeId
  deriving DecidableEq, Repr, Inhabited

/-- The Lamplighter (R457). -/
structure Lmp where
  pkg : PkgPower
  wfail : Bool
  wakeEn : BitVec 4
  wakePol : BitVec 4
  wakeLevel : BitVec 4
  wakesrc : BitVec 8
  wakeonaccr : BitVec 16
  wakeonaccc0 : Word
  wakeonaccc1 : Word
  lastref : Word
  dtemp : Sparse (BitVec 16)
  aonleak : BitVec 16
  ileak : Sparse (BitVec 16)
  fusedOff : BitVec 16
  regions : Sparse RegionState
  tx : Option PowerTx
  wakes : List WakeTx
  held : List HeldReq
  savedRegions : Sparse RegionState
  doorbells : List (BitVec 6 × BitVec 17 × Nat × BitVec 64)
  deriving DecidableEq, Repr, Inhabited

/-- The Lamplighter at reset (R457). The fused currents read 0 until the fuse map is loaded, and the die temperatures 0 until a
sensor is read (DESIGN CHOICE, log 3). -/
def Lmp.reset : Lmp :=
  { pkg := .run, wfail := false, wakeEn := 0, wakePol := 0, wakeLevel := 0, wakesrc := 0, wakeonaccr := 0, wakeonaccc0 := 0,
    wakeonaccc1 := 0, lastref := 0, dtemp := [], aonleak := 0, ileak := [], fusedOff := 0, regions := [], tx := none, wakes := [],
    held := [], savedRegions := [], doorbells := [] }

/-! ## Scrivener (R469 to R481) -/

/-- An append that waits to be written (R473): its command if the host sent it, the record without SEQ and CRC, and whether it has been
counted as waiting for the bucket. -/
structure JAppend where
  cmd : Option (RingId × Word)
  typ : Byte
  len : Byte
  key : BitVec 16
  payload : BitVec 384
  waited : Bool
  deriving DecidableEq, Repr, Inhabited

/-- A compaction in progress (R474): command, new CUT, area written, number of values, and the root cycle in which it began. -/
structure Compaction where
  cmd : Option (RingId × Word)
  cut : Word
  area : Bool
  count : Nat
  since : Nat
  deriving DecidableEq, Repr, Inhabited

/-- The journal store and its controller (R469, R481). `store` holds the 64-byte records by position: area A from 0, area B from
65 536, the ring from 131 072; it is non-volatile. `count` is the number of records in the active area, `next` the next SEQ, `bucket` is
in units of which 3 932 160 000 make a record, `wroteAt` the root cycle of the last record write. -/
structure Scv where
  store : Sparse Block64
  area : Bool
  count : Nat
  cut : Word
  next : Word
  lost : Bool
  rate : BitVec 14
  bucket : Nat
  wroteAt : Nat
  queue : List JAppend
  compact : Option Compaction
  lastCommit : Option Nat
  fatalN : Nat
  deriving DecidableEq, Repr, Inhabited

/-- A full bucket: 4 096 records (R473), in units of which 3 932 160 000 make a record. -/
def fullBucket : Nat := 4096 * 3932160000

/-- The Scrivener at reset (R481) over an erased store (DESIGN CHOICE, log 5). -/
def Scv.reset : Scv :=
  { store := [], area := false, count := 0, cut := 0, next := 0, lost := false, rate := 10000, bucket := fullBucket, wroteAt := 0,
    queue := [], compact := none, lastCommit := none, fatalN := 0 }

/-! ## Boot, management controller, pins, board interfaces (R459 to R468, R487, R498, R499, R504) -/

/-- The management controller's boot state (R462, R480). -/
structure Mgc where
  porst : Bool
  step : BitVec 4
  code : BitVec 4
  done : Bool
  fail : Bool
  straperr : Bool
  alt : Bool
  src : BitVec 2
  role : Bool
  pkgid : PkgId
  cause : BitVec 2
  boottime : Word
  loadpage : BitVec 6
  retries : Nat
  since : Nat
  mcRunning : Bool
  mcEntry : Word
  minSvn : Word
  keyHash : BitVec 384
  spareRows : Sparse (BitVec 8)
  spareCols : Sparse (BitVec 8)
  alert : Bool
  thermtrip : Bool
  deriving DecidableEq, Repr, Inhabited

/-- The management controller with PORST_n low (R459, R480). -/
def Mgc.reset : Mgc :=
  { porst := true, step := 0, code := 0, done := false, fail := false, straperr := false, alt := false, src := 0, role := false,
    pkgid := 0, cause := 0, boottime := 0, loadpage := 0, retries := 0, since := 0, mcRunning := false, mcEntry := 0, minSvn := 0,
    keyHash := 0, spareRows := [], spareCols := [], alert := false, thermtrip := false }

/-- A GPIO pin's configuration (R487). -/
structure GpoPin where
  func : BitVec 4
  sel : BitVec 2
  safeval : Bool
  safeen : Bool
  deriving DecidableEq, Repr, Inhabited

/-- A pin at reset: an input (R487). -/
def GpoPin.reset : GpoPin := { func := 0, sel := 0, safeval := false, safeen := true }

/-- The GPO block (R487). -/
structure Gpo where
  dout : BitVec 16
  pins : Sparse GpoPin
  lines : BitVec 16
  deriving DecidableEq, Repr, Inhabited

/-- The GPO block at reset (R487, R491). -/
def Gpo.reset : Gpo := { dout := 0, pins := [], lines := 0 }

/-- What the boundary-scan register drives (R499). -/
inductive TapMode where
  | normal | sample | drive | pulse | train | highz | clamp
  deriving DecidableEq, Repr, Inhabited

/-- The SMBus target and the JTAG test access port (R498, R499); `bsr` are the cells of the boundary register as a number. -/
structure Board where
  smbOffset : Word
  smbData : Word
  smbNack : Bool
  tapIr : JtagIr
  tapMode : TapMode
  tapBypass : Bool
  bsr : Nat
  deriving DecidableEq, Repr, Inhabited

/-- SMBus offset and boundary register 0 (DESIGN CHOICE, log 3); BYPASS selected (R499). -/
def Board.reset : Board :=
  { smbOffset := 0, smbData := 0, smbNack := false, tapIr := 0xFF, tapMode := .normal, tapBypass := true, bsr := 0 }

end Sys2Proof.Machine
end

