-- ==== Sys2Proof/Machine/State.lean ====
section
/-! DEFINITION. The state of one LVK-5120 package with its queue of waiting commands, the state after reset, and the reasons to
stop. Units stand in sparse tables keyed by their number; an absent key holds the unit's reset record. -/

namespace Sys2Proof.Machine

/-- A reason for the machine to stop with a fault. The block has none: an access that the specification calls unmapped or not
permitted completes with an outcome code of R34, so no command ends in a fault. -/
inductive Fault where
  deriving DecidableEq, Repr

/-- A reason to refuse a command. -/
inductive Refusal where
  /-- Raised by the arms of exec that have no meaning yet, under the mnemonic of the table; safe: the machine stops. -/
  | notModelled (mnemonic : String)
  deriving DecidableEq, Repr

/-- What the last access brought back to its initiator (R34, R36): the model's own output field. -/
structure Resp where
  outc : Outc
  flags : Word
  data : List Byte
  deriving DecidableEq, Repr, Inhabited

/-- The whole package.

`cycle` counts root cycles since PORST_n rose; `inits` is how far the initialiser is with each memory (R139); `mem` is every
byte of package memory by package address, `par` the 16-bit words of parity memories that hold an error, by package address (R74,
R127); `hostMem` is what the device has written to host memory; `tally` and `shadow` are the Tally counters and their shadows
by the package address of the low word (R37, R38); `resp` is the last access answer; `fresh` numbers the free values taken so
far (the model's own field). -/
structure State where
  cycle : Nat
  cores : Sparse Core
  clus : Sparse Clu
  inits : Sparse InitState
  slices : Sparse Slice
  buds : Sparse Bud
  engines : Sparse Engine
  nis : Sparse Ni
  elems : Sparse ElemState
  hif : Hif
  fhp : Fhp
  cmk : Cmk
  cas : Cas
  cri : Cri
  edc : Edc
  asy : Asy
  lmp : Lmp
  scv : Scv
  mgc : Mgc
  gpo : Gpo
  board : Board
  mem : List Host.Cell
  par : Sparse ParityErr
  hostMem : List Host.Cell
  tally : Sparse (BitVec 48)
  shadow : Sparse (BitVec 16)
  resp : Resp
  fresh : Nat
  pending : List Instr
  deriving DecidableEq, Repr, Inhabited

/-- The package with PORST_n low, over an erased journal store (R459; log 1, 3, 5). -/
def State.reset : State :=
  { cycle := 0, cores := [], clus := [], inits := [], slices := [], buds := [], engines := [], nis := [], elems := [],
    hif := Hif.reset, fhp := Fhp.reset, cmk := Cmk.reset, cas := Cas.reset, cri := Cri.reset, edc := Edc.reset,
    asy := Asy.reset, lmp := Lmp.reset, scv := Scv.reset, mgc := Mgc.reset, gpo := Gpo.reset, board := Board.reset,
    mem := [], par := [], hostMem := [], tally := [], shadow := [],
    resp := { outc := .ok, flags := 0, data := [] }, fresh := 0, pending := [] }

end Sys2Proof.Machine
end

