-- ==== Sys2Proof/Machine/Ops.lean ====
section
/-! DEFINITION. The named operations over State that every block shares: units, bytes, Tally counters, fault reports, host
completions and events, and the address map. -/

namespace Sys2Proof.Machine

/-! ## Numbers and bytes -/

/-- Fields packed from the least significant bit up, each as (width, value). -/
def packLE : List (Nat × Nat) → Nat
  | [] => 0
  | (w, v) :: rest => v % 2 ^ w + 2 ^ w * packLE rest

/-- Bits [lo + w − 1 : lo] of a number. -/
def bits (x lo w : Nat) : Nat := x / 2 ^ lo % 2 ^ w

/-- One bit of a number. -/
def bitOf (x i : Nat) : Bool := x.testBit i

/-- Bits [lo + w − 1 : lo] of a word, as a vector. -/
def slice {n : Nat} (x : BitVec n) (lo w : Nat) : BitVec w := BitVec.ofNat w (x.toNat / 2 ^ lo)

/-- A Boolean as a bit. -/
def b2n (b : Bool) : Nat := if b then 1 else 0

/-- The number whose little-endian bytes are given (R13). -/
def natOfBytes : List Byte → Nat
  | [] => 0
  | b :: rest => b.toNat + 256 * natOfBytes rest

/-- The n little-endian bytes of a number (R13). -/
def bytesOfNat : Nat → Nat → List Byte
  | 0, _ => []
  | n + 1, v => BitVec.ofNat 8 v :: bytesOfNat n (v / 256)

/-- The list padded with zero bytes to length n, or cut. -/
def fitBytes (n : Nat) (l : List Byte) : List Byte := (l ++ List.replicate n 0).take n

/-- The number whose network-order bytes are given (R13). -/
def natOfBE (l : List Byte) : Nat := natOfBytes l.reverse

/-- Folds over 0 … n − 1. -/
def upTo {α : Type} (n : Nat) (f : Nat → α → α) (a : α) : α := (List.range n).foldl (fun x i => f i x) a

/-! ## Units -/

/-- Core g. -/
def State.core (s : State) (g : CoreId) : Core := sget Core.reset s.cores g.toNat
/-- Replaces core g. -/
def State.setCore (s : State) (g : CoreId) (c : Core) : State := { s with cores := sput Core.reset s.cores g.toNat c }
/-- Changes core g. -/
def State.updCore (s : State) (g : CoreId) (f : Core → Core) : State := s.setCore g (f (s.core g))

/-- The CLU registers of cluster gc. -/
def State.clu (s : State) (gc : ClusterId) : Clu := sget Clu.reset s.clus gc.toNat
/-- Replaces the CLU registers of cluster gc. -/
def State.setClu (s : State) (gc : ClusterId) (c : Clu) : State := { s with clus := sput Clu.reset s.clus gc.toNat c }

/-- Scheduler slice gc. -/
def State.slice (s : State) (gc : ClusterId) : Slice := sget Slice.reset s.slices gc.toNat
/-- Replaces scheduler slice gc. -/
def State.setSlice (s : State) (gc : ClusterId) (x : Slice) : State :=
  { s with slices := sput Slice.reset s.slices gc.toNat x }
/-- Changes scheduler slice gc. -/
def State.updSlice (s : State) (gc : ClusterId) (f : Slice → Slice) : State := s.setSlice gc (f (s.slice gc))

/-- The budget controller of region r. -/
def State.bud (s : State) (r : RegionId) : Bud := sget Bud.reset s.buds r.toNat
/-- Replaces the budget controller of region r. -/
def State.setBud (s : State) (r : RegionId) (b : Bud) : State := { s with buds := sput Bud.reset s.buds r.toNat b }

/-- Engine e. -/
def State.engine (s : State) (e : EngId) : Engine := get Engine.reset s.engines e.toNat
/-- Replaces engine e. -/
def State.setEngine (s : State) (e : EngId) (x : Engine) : State :=
  { s with engines := put Engine.reset s.engines e.toNat x }

/-- The network interface of node n. -/
def State.ni (s : State) (n : NodeId) : Ni := sget Ni.reset s.nis n.toNat
/-- Replaces the network interface of node n. -/
def State.setNi (s : State) (n : NodeId) (x : Ni) : State := { s with nis := sput Ni.reset s.nis n.toNat x }

/-- The key of a routing element: routers 0–63, gateways die-bound 64–67 and hub-bound 68–71, H0 72, H1 73, NI n 128 + n. -/
def Elem.key : Elem → Nat
  | .mesh gc => gc.toNat
  | .gwDie d => 64 + d.toNat
  | .gwHub d => 68 + d.toNat
  | .h0 => 72
  | .h1 => 73
  | .ni n => 128 + n.toNat
/-- A routing element. -/
def State.elem (s : State) (e : Elem) : ElemState := sget ElemState.reset s.elems (Elem.key e)
/-- Replaces a routing element. -/
def State.setElem (s : State) (e : Elem) (x : ElemState) : State :=
  { s with elems := sput ElemState.reset s.elems (Elem.key e) x }

/-- Queue lq of a slice. -/
def Slice.queue (x : Slice) (lq : BitVec 10) : Queue := get Queue.reset x.queues lq.toNat
/-- Replaces queue lq of a slice. -/
def Slice.setQueue (x : Slice) (lq : BitVec 10) (q : Queue) : Slice :=
  { x with queues := put Queue.reset x.queues lq.toNat q }
/-- The slice's record of its core k. -/
def Slice.score (x : Slice) (k : BitVec 3) : SCore := sget SCore.reset x.cores k.toNat
/-- Replaces the slice's record of its core k. -/
def Slice.setScore (x : Slice) (k : BitVec 3) (c : SCore) : Slice := { x with cores := sput SCore.reset x.cores k.toNat c }
/-- The slice's holding for an activity. -/
def Slice.hold (x : Slice) (a : ActId) : Hold := sget Hold.reset x.holds a.toNat
/-- Replaces the slice's holding for an activity. -/
def Slice.setHold (x : Slice) (a : ActId) (h : Hold) : Slice := { x with holds := sput Hold.reset x.holds a.toNat h }

/-- Host ring n. -/
def State.ring (s : State) (n : RingId) : Ring := sget Ring.reset s.hif.rings n.toNat
/-- Replaces host ring n. -/
def State.setRing (s : State) (n : RingId) (r : Ring) : State :=
  { s with hif := { s.hif with rings := sput Ring.reset s.hif.rings n.toNat r } }
/-- A PCIe function. -/
def State.hostFn (s : State) (n : BitVec 6) : HostFn := get HostFn.reset s.hif.fns n.toNat
/-- Replaces a PCIe function. -/
def State.setHostFn (s : State) (n : BitVec 6) (x : HostFn) : State :=
  { s with hif := { s.hif with fns := put HostFn.reset s.hif.fns n.toNat x } }

/-- Fronthaul stream context n. -/
def State.strm (s : State) (n : StreamId) : Strm := sget Strm.reset s.fhp.strms n.toNat
/-- Replaces a fronthaul stream context. -/
def State.setStrm (s : State) (n : StreamId) (x : Strm) : State :=
  { s with fhp := { s.fhp with strms := sput Strm.reset s.fhp.strms n.toNat x } }
/-- Fronthaul port n. -/
def State.port (s : State) (n : PortId) : Port := sget Port.reset s.fhp.ports n.toNat
/-- Replaces a fronthaul port. -/
def State.setPort (s : State) (n : PortId) (x : Port) : State :=
  { s with fhp := { s.fhp with ports := sput Port.reset s.fhp.ports n.toNat x } }

/-- Event timer n. -/
def State.tmr (s : State) (n : TimerId) : Tmr := sget Tmr.reset s.cmk.tmrs n.toNat
/-- Replaces an event timer. -/
def State.setTmr (s : State) (n : TimerId) (t : Tmr) : State :=
  { s with cmk := { s.cmk with tmrs := sput Tmr.reset s.cmk.tmrs n.toNat t } }

/-- Memory controller m. -/
def State.mc (s : State) (m : Nat) : Mc := sget Mc.reset s.edc.mcs m
/-- Replaces memory controller m. -/
def State.setMc (s : State) (m : Nat) (x : Mc) : State := { s with edc := { s.edc with mcs := sput Mc.reset s.edc.mcs m x } }

/-- A fault source. -/
def State.src (s : State) (n : SourceId) : FaultSrc := get FaultSrc.reset s.asy.srcs n.toNat
/-- Replaces a fault source. -/
def State.setSrc (s : State) (n : SourceId) (x : FaultSrc) : State :=
  { s with asy := { s.asy with srcs := put FaultSrc.reset s.asy.srcs n.toNat x } }

/-- A region's power state. -/
def State.region (s : State) (r : RegionId) : RegionState := sget RegionState.reset s.lmp.regions r.toNat
/-- Replaces a region's power state. -/
def State.setRegion (s : State) (r : RegionId) (x : RegionState) : State :=
  { s with lmp := { s.lmp with regions := sput RegionState.reset s.lmp.regions r.toNat x } }

/-! ## Identifiers (R21) -/

/-- The cluster of a core. -/
def coreCluster (g : CoreId) : ClusterId := slice g 3 6
/-- A core's index in its cluster. -/
def coreIndex (g : CoreId) : BitVec 3 := slice g 0 3
/-- The core with index k of a cluster. -/
def coreOf (gc : ClusterId) (k : BitVec 3) : CoreId := BitVec.ofNat 9 (8 * gc.toNat + k.toNat)
/-- The region of a cluster. -/
def clusterRegion (gc : ClusterId) : RegionId := slice gc 2 4
/-- Cluster c of a region. -/
def clusterOf (r : RegionId) (c : BitVec 2) : ClusterId := BitVec.ofNat 6 (4 * r.toNat + c.toNat)
/-- The region of an engine. -/
def engRegion (e : EngId) : RegionId := slice e 4 4
/-- An engine's slot in its region. -/
def engSlot (e : EngId) : BitVec 4 := slice e 0 4
/-- The cluster of a queue. -/
def queueCluster (q : QueueId) : ClusterId := slice q 10 6
/-- The local number of a queue. -/
def queueLocal (q : QueueId) : BitVec 10 := slice q 0 10
/-- The queue ID of local queue lq of a cluster. -/
def queueOf (gc : ClusterId) (lq : BitVec 10) : QueueId := BitVec.ofNat 16 (1024 * gc.toNat + lq.toNat)

/-! ## Address map (R23 to R27) -/

/-- Base of the hub window. -/
def hubBase : Nat := 0x20000000000
/-- Base of the hub register space. -/
def hubRegs : Nat := hubBase + 0x10000000
/-- Base of region r. -/
def regionBase (r : RegionId) : Nat := 0x10000000000 + r.toNat / 4 * 0x1000000000 + r.toNat % 4 * 0x100000000
/-- Base of cluster gc. -/
def clusterBase (gc : ClusterId) : Nat := regionBase (clusterRegion gc) + 0x40000000 + gc.toNat % 4 * 0x10000000
/-- Base of a core's data memory. -/
def dmemBase (g : CoreId) : Nat := clusterBase (coreCluster g) + 0x1000000 + g.toNat % 8 * 0x100000
/-- Base of a core's instruction memory. -/
def imemBase (g : CoreId) : Nat := clusterBase (coreCluster g) + 0x1040000 + g.toNat % 8 * 0x100000
/-- Base of a core's register block. -/
def coreRegs (g : CoreId) : Nat := clusterBase (coreCluster g) + 0x1080000 + g.toNat % 8 * 0x100000
/-- Base of a cluster's slice registers. -/
def schBase (gc : ClusterId) : Nat := clusterBase gc + 0x2000000
/-- Base of a cluster's CLU registers. -/
def cluBase (gc : ClusterId) : Nat := clusterBase gc + 0x2008000
/-- Base of a cluster's queue apertures. -/
def queueBase (gc : ClusterId) : Nat := clusterBase gc + 0x2010000
/-- Base of an engine's registers. -/
def engBase (e : EngId) : Nat := regionBase (engRegion e) + 0x1000000 + e.toNat % 16 * 0x10000
/-- Base of a region's BUD block and Lamplighter agent. -/
def budBase (r : RegionId) : Nat := regionBase r + 0x2000000
/-- Base of a hub register block, by its number in R27. -/
def hubBlk (n : Nat) : Nat := hubRegs + n * 0x100000
/-- Base of the NI register block of a node (R262, R264). -/
def niBase (n : NodeId) : Nat :=
  if n.toNat < 64 then clusterBase (slice n 0 6) + 0x3000000 else hubBlk 10 + (n.toNat - 0x80) * 0x4000
/-- Base of the port block of a routing element (R263, R264). -/
def elemBase : Elem → Nat
  | .mesh gc => clusterBase gc + 0x3002000
  | .h0 => hubBlk 10 + 0x80000
  | .h1 => hubBlk 10 + 0x84000
  | .gwDie d => hubBlk 10 + 0x90000 + d.toNat * 0x4000
  | .gwHub d => 2 ^ 49 + d.toNat * 0x4000
  | .ni n => 2 ^ 50 + n.toNat * 0x4000

/-- What a package address reaches (R23 to R28); the offset counts from the start of the thing named. -/
inductive Place where
  | dram (off : Nat)
  | rm (r : RegionId) (off : Nat)
  | engReg (e : EngId) (off : Nat)
  | budReg (r : RegionId) (off : Nat)
  | cm (gc : ClusterId) (off : Nat)
  | ringWin (gc : ClusterId) (n : BitVec 4) (off : Nat)
  | dmem (g : CoreId) (off : Nat)
  | imem (g : CoreId) (off : Nat)
  | coreReg (g : CoreId) (off : Nat)
  | sch (gc : ClusterId) (off : Nat)
  | clu (gc : ClusterId) (off : Nat)
  | queue (gc : ClusterId) (lq : BitVec 10) (off : Nat)
  | fab (gc : ClusterId) (off : Nat)
  | hubMem (off : Nat)
  | hubReg (blk : Nat) (off : Nat)
  | journal (off : Nat)
  | remote (p : PkgId) (off : Nat)
  | host (off : Nat)
  | gapRegion (r : RegionId)
  | gapCluster (gc : ClusterId)
  | gapHub
  | nowhere
  deriving DecidableEq, Repr

/-- The window of cluster gc (R26). -/
def placeCluster (gc : ClusterId) (o : Nat) : Place :=
  if o < 0x100000 then .cm gc o
  else if o < 0x200000 then .ringWin gc (BitVec.ofNat 4 ((o - 0x100000) / 0x10000)) (o % 0x10000)
  else if o < 0x1000000 then .gapCluster gc
  else if o < 0x1800000 then
    let g := coreOf gc (BitVec.ofNat 3 ((o - 0x1000000) / 0x100000))
    let x := o % 0x100000
    if x < 0x20000 then .dmem g x
    else if x < 0x40000 then .gapCluster gc
    else if x < 0x50000 then .imem g (x - 0x40000)
    else if x < 0x80000 then .gapCluster gc
    else if x < 0x90000 then .coreReg g (x - 0x80000)
    else .gapCluster gc
  else if o < 0x2000000 then .gapCluster gc
  else if o < 0x2008000 then .sch gc (o - 0x2000000)
  else if o < 0x2010000 then .clu gc (o - 0x2008000)
  else if o < 0x2020000 then .queue gc (BitVec.ofNat 10 ((o - 0x2010000) / 0x40)) (o % 0x40)
  else if o < 0x3000000 then .gapCluster gc
  else if o < 0x3100000 then .fab gc (o - 0x3000000)
  else .gapCluster gc

/-- The window of region r (R25). -/
def placeRegion (r : RegionId) (o : Nat) : Place :=
  if o < 0x800000 then .rm r o
  else if o < 0x1000000 then .gapRegion r
  else if o < 0x1100000 then .engReg (BitVec.ofNat 8 (16 * r.toNat + (o - 0x1000000) / 0x10000)) (o % 0x10000)
  else if o < 0x2000000 then .gapRegion r
  else if o < 0x2100000 then .budReg r (o - 0x2000000)
  else if o < 0x40000000 then .gapRegion r
  else if o < 0x80000000 then
    placeCluster (clusterOf r (BitVec.ofNat 2 ((o - 0x40000000) / 0x10000000))) (o % 0x10000000)
  else .gapRegion r

/-- The hub window (R27). -/
def placeHub (o : Nat) : Place :=
  if o < 0x2000000 then .hubMem o
  else if o < 0x10000000 then .gapHub
  else if o < 0x10E00000 then .hubReg ((o - 0x10000000) / 0x100000) (o % 0x100000)
  else if o < 0x20000000 then .gapHub
  else if o < 0x21000000 then .journal (o - 0x20000000)
  else .gapHub

/-- The package address map (R23). -/
def place (pa : Pa) : Place :=
  let a := pa.toNat
  if a < 0x800000000 then .dram a
  else if a < 0x10000000000 then .nowhere
  else if a < 0x14000000000 then
    let o := a % 0x1000000000
    if o < 0x400000000 then
      placeRegion (BitVec.ofNat 4 (4 * ((a - 0x10000000000) / 0x1000000000) + o / 0x100000000)) (o % 0x100000000)
    else .nowhere
  else if a < 0x20000000000 then .nowhere
  else if a < 0x20400000000 then placeHub (a - hubBase)
  else if a < 0x40000000000 then .nowhere
  else if a < 0x50000000000 then
    .remote (BitVec.ofNat 4 ((a - 0x40000000000) / 0x1000000000)) (a % 0x1000000000)
  else if a < 0x80000000000 then .nowhere
  else .host (a - 0x80000000000)

/-- Register space in the sense of R31: where a P2 task may not go and what travels on the MGT channel (R234). -/
def Place.isReg : Place → Bool
  | .engReg _ _ | .budReg _ _ | .coreReg _ _ | .sch _ _ | .clu _ _ | .fab _ _ | .hubReg _ _ => true
  | _ => false

/-- Register space by address. -/
def isRegPa (pa : Pa) : Bool := (place pa).isReg

/-! ## Tally counters (R37 to R39) -/

/-- Adds n to the Tally counter whose low word has package address a, saturating (R37). -/
def tallyAdd (s : State) (a n : Nat) : State :=
  { s with tally := sput 0 s.tally a (BitVec.ofNat 48 (min ((sget 0 s.tally a).toNat + n) 0xFFFFFFFFFFFF)) }

/-- Reads the low word: the low bits, the high bits to the shadow, and the counter cleared (R38). -/
def tallyReadLow (s : State) (a : Nat) : Word × State :=
  let v := sget 0 s.tally a
  (slice v 0 32, { s with shadow := sput 0 s.shadow a (slice v 32 16), tally := sput 0 s.tally a 0 })

/-- Reads the high word: the shadow (R38). -/
def tallyReadHigh (s : State) (a : Nat) : Word := (sget 0 s.shadow a).setWidth 32

/-! ## Bytes of memory -/

/-- One byte of package memory by canonical package address; an unlisted byte reads 0 (R139, R407, R409; log 7). -/
def State.byte (s : State) (a : Nat) : Byte := sget 0 s.mem a
/-- Writes one byte. -/
def State.setByte (s : State) (a : Nat) (b : Byte) : State := { s with mem := sput 0 s.mem a b }
/-- n bytes from a. -/
def State.bytes (s : State) (a n : Nat) : List Byte := (List.range n).map (fun i => s.byte (a + i))
/-- Writes bytes from a. -/
def State.setBytes (s : State) (a : Nat) : List Byte → State
  | [] => s
  | b :: rest => (s.setByte a b).setBytes (a + 1) rest

/-- Bytes that the device writes to host memory. -/
def State.hostBytes (s : State) (a : Nat) : List Byte → State
  | [] => s
  | b :: rest => { s with hostMem := sput 0 s.hostMem a b }.hostBytes (a + 1) rest

/-! ## Time (R327, R328) -/

/-- Device time as a TS96 value; the fraction of a nanosecond in 2^−16. -/
def State.now (s : State) : Ts :=
  { sec := BitVec.ofNat 48 s.cmk.sec, ns := BitVec.ofNat 32 s.cmk.ns, frac := BitVec.ofNat 16 s.cmk.frac }

/-- The device tick counter. -/
def State.tick (s : State) : Word := s.cmk.tick

/-- Device time in nanoseconds (whole). -/
def State.nowNs (s : State) : Nat := s.cmk.sec * 1000000000 + s.cmk.ns

/-- a is at or past b, modulo 2^32, in the sense (a − b) < 2^31. -/
def tickReached (a b : Word) : Bool := (a - b).toNat < 0x80000000

/-- The 12 bytes of a TS96 in entries: fraction, nanoseconds, seconds (R284). -/
def tsFields (t : Ts) : List (Nat × Nat) := [(16, t.frac.toNat), (32, t.ns.toNat), (48, t.sec.toNat)]

/-! ## Free values (the model's own) -/

/-- The number of the next free value, and the state with it taken. -/
def takeFree (s : State) : Nat × State := (s.fresh, { s with fresh := s.fresh + 1 })

/-! ## Host completions and events (R281, R284, R285, R287) -/

/-- Base of the HIF's Tally counters (R295). -/
def hifTal : Nat := hubBlk 1 + 0xF0000

/-- A completion or event ring that can take an entry now: ACTIVE, not full, owner's Bus Master Enable set (R270, R287). -/
def State.ringTakes (s : State) (n : RingId) : Bool :=
  let r := s.ring n
  r.st == .active && decide ((r.pi - r.ci).toNat < 2 ^ r.logsz.toNat) && (s.hostFn r.fn).bme

/-- An event ring that can take an entry now (R284, R285). -/
def State.eventTakes (s : State) (n : RingId) : Bool := s.ringTakes n && (s.ring n).typ == 2

/-- Raises an event of type typ (R284): it waits for its ring in the HIF, or is dropped and counted when 512 events that cannot
be written wait already (R285). -/
def pushEvent (s : State) (typ : Nat) (source : SourceId) (act : ActId) (outc : BitVec 5) (detail : Nat) : State :=
  let ring := sget 0 s.hif.evsel typ
  let e : Entry := BitVec.ofNat 256 (packLE ([(4, 9), (4, 0), (8, typ), (10, source.toNat), (6, 0)] ++ tsFields s.now ++
    [(9, act.toNat), (7, 0), (5, outc.toNat), (3, 0), (8, 0), (32, 0), (64, detail)]))
  if s.eventTakes ring = false ∧ 512 ≤ (s.hif.events.filter (fun x => s.eventTakes x.ring == false)).length then
    let r := s.ring ring
    tallyAdd (s.setRing ring { r with lost := if r.lost = 0xFFFFFFFF then r.lost else r.lost + 1 }) (hifTal + 0x20) 1
  else { s with hif := { s.hif with events := s.hif.events ++ [{ ring := ring, e := e }] } }

/-- The accepted command of a ring at an index. -/
def State.cmd (s : State) (ring : RingId) (idx : Word) : Option Cmd :=
  s.hif.cmds.find? (fun c => c.ring == ring && c.idx == idx)

/-- Completes a command (R281): its entry waits for its completion ring, unless SUPPRESS and OK; it is discarded and counted when
that ring is not ACTIVE or the command's own ring has left ACTIVE (R287). HIF_TAL_CMD and HIF_TAL_CMDERR count it (R295). -/
def completeCmd (s : State) (ring : RingId) (idx : Word) (o : Outc) (flags result result2 : Word) : State :=
  match s.cmd ring idx with
  | none => s
  | some c =>
    let crid := (s.ring ring).cring
    let cr := s.ring crid
    let s1 := { s with hif := { s.hif with cmds := s.hif.cmds.filter (fun x => !(x.ring == ring && x.idx == idx)) } }
    let s2 := tallyAdd s1 hifTal 1
    let s3 := if o = .ok then s2 else tallyAdd s2 (hifTal + 8) 1
    if o = .ok ∧ c.desc.getLsbD 8 then s3
    else
      let e : Entry := BitVec.ofNat 256 (packLE [(8, 8), (8, c.desc.toNat), (8, o.code.toNat), (8, 0),
        (32, c.desc.toNat / 2 ^ 32), (12, ring.toNat), (20, 0), (32, idx.toNat), (32, flags.toNat), (32, result.toNat),
        (32, result2.toNat), (32, s.tick.toNat)])
      if cr.st = .active ∧ c.orphan = false then s3.setRing crid { cr with waiting := cr.waiting ++ [e] }
      else tallyAdd s3 (hifTal + 0x30) 1

/-- Completes a command without flags or results. -/
def completeOk (s : State) (ring : RingId) (idx : Word) (o : Outc) : State := completeCmd s ring idx o 0 0 0

/-! ## Fault reports (R420, R425, R426) -/

/-- Base of the Assayer's block. -/
def asyBase : Nat := hubBlk 7

/-- Queues an event at a source: up to 8, later ones merge into the last and are counted in ASY_TAL_MERGED (R420). -/
def queueEvent (s : State) (n : SourceId) (ev : FaultEv) : State :=
  let q := sget [] s.asy.queued n.toNat
  if q.length < 8 then { s with asy := { s.asy with queued := sput [] s.asy.queued n.toNat (q ++ [ev]) } }
  else tallyAdd s (asyBase + 0x118) 1

/-- A checker reports an event to its source. -/
def report (s : State) (n : SourceId) (detail : Word) : State := queueEvent s n { detail := detail, inj := false, durinj := false }

/-- One committed check of a source's checker (R425, R426): a real finding is reported, with DURINJ while an injection is pending;
then the injected evaluation reports with INJ, and after the last one the command completes OK with RESULT = COUNT. -/
def check (s : State) (n : SourceId) (found : Bool) (detail : Word) : State :=
  match s.asy.inj.find? (fun j => j.src == n) with
  | none => if found then report s n detail else s
  | some j =>
    let s1 := if found then queueEvent s n { detail := detail, inj := false, durinj := true } else s
    let s2 := queueEvent s1 n { detail := detail, inj := true, durinj := false }
    if j.left ≤ 1 then
      let s3 := { s2 with asy := { s2.asy with inj := s2.asy.inj.filter (fun x => !(x.src == n)) } }
      completeCmd s3 j.ring j.idx .ok 0 (BitVec.ofNat 32 (j.done + 1)) 0
    else
      { s2 with asy := { s2.asy with inj := s2.asy.inj.map (fun x =>
        if x.src == n then { x with left := x.left - 1, done := x.done + 1 } else x) } }

/-! ## Fault source numbers (R419) -/

/-- A core's source. -/
def srcCore (g : CoreId) : SourceId := g.setWidth 10
/-- A cluster's source i (0 CM replay, 1 CM poison, 2 slice, 3 slice deadline). -/
def srcCluster (gc : ClusterId) (i : Nat) : SourceId := BitVec.ofNat 10 (0x200 + 4 * gc.toNat + i)
/-- A region's source i. -/
def srcRegion (r : RegionId) (i : Nat) : SourceId := BitVec.ofNat 10 (0x300 + 12 * r.toNat + i)
/-- The single sources of the hub blocks: 0 HIF, 1 FHP, 2 CMK, 3 CAS, 4 CRI, 5 LMP, 6 SCV, 7 MGC. -/
def srcHub (i : Nat) : SourceId := BitVec.ofNat 10 (0x3D9 + i)

/-! ## Answers -/

/-- What an access came back with. -/
structure Ans where
  outc : Outc
  flags : Word
  data : List Byte
  poison : List Bool
  deriving DecidableEq, Repr, Inhabited

/-- An answer without data. -/
def Ans.only (o : Outc) : Ans := { outc := o, flags := 0, data := [], poison := [] }

/-- Notes the answer that the last access brought back. -/
def State.answer (s : State) (a : Ans) : State := { s with resp := { outc := a.outc, flags := a.flags, data := a.data } }

/-- Notes an outcome without data. -/
def State.answerOnly (s : State) (o : Outc) : State := s.answer (Ans.only o)

end Sys2Proof.Machine
end

