-- ==== Sys2Proof/Machine/Flags.lean ====
section
/-! DEFINITION. Saturation, rounding, guard overflow and scaling: the arithmetic that sets GOVF and QSAT (R57 to R66). -/

namespace Sys2Proof.Machine

/-- A signed integer as w bits. -/
def wrapTo (w : Nat) (x : Int) : Nat := (x % (2 ^ w : Int)).toNat

/-- Limits to −32 768 … 32 767; true when that changes the value (R62). -/
def sat16 (x : Int) : Int × Bool :=
  if x > 32767 then (32767, true) else if x < -32768 then (-32768, true) else (x, false)

/-- Division by 2^n, halves away from zero (R62, R113); n = 0 leaves x. -/
def rnd (x : Int) (n : Nat) : Int :=
  if n = 0 then x
  else
    let m : Int := ((x.natAbs + 2 ^ (n - 1)) / 2 ^ n : Nat)
    if x < 0 then -m else m

/-- The 40-bit guard rule (R60): the stored value, and whether x left the range. -/
def guard40 (sat : Bool) (x : Int) : Int × Bool :=
  if x > 2 ^ 39 - 1 then (if sat then 2 ^ 39 - 1 else (x + 2 ^ 39) % 2 ^ 40 - 2 ^ 39, true)
  else if x < -(2 ^ 39) then (if sat then -(2 ^ 39 - 1) else (x + 2 ^ 39) % 2 ^ 40 - 2 ^ 39, true)
  else (x, false)

/-- The scaling of R62 with shift s (−4 … 11): the lane value, and whether it saturated. -/
def scaleEl (s : Int) (x : Int) : Int × Bool := sat16 (rnd x (15 + s).toNat)

/-- The smallest shift −4 + k, k < n, that saturates no element (R64); 11 at the end. -/
def autoFrom (els : List Int) : Nat → Int → Int
  | 0, s => s
  | n + 1, s => if els.all (fun x => !(scaleEl s x).2) then s else autoFrom els n (s + 1)

/-- The shift that AUTO chooses (R64). -/
def autoShift (els : List Int) : Int := autoFrom els 15 (-4)

/-- Adds shifts to the block exponent, saturating at 16 bits (R64). -/
def addExp (e : Int) (d : Int) : Int := (sat16 (e + d)).1

/-! ## Vectors and accumulators (R45, R46) -/

/-- Real lane i of a vector. -/
def lane (v : BitVec 512) (i : Nat) : Int := (slice v (16 * i) 16).toInt

/-- The vector whose real lane i is f i. -/
def mkLanes (f : Nat → Int) : BitVec 512 :=
  BitVec.ofNat 512 (packLE ((List.range 32).map (fun i => (16, wrapTo 16 (f i)))))

/-- Element e of an accumulator. -/
def accEl (a : BitVec 1280) (e : Nat) : Int := (slice a (40 * e) 40).toInt

/-- The elements of an accumulator. -/
def accEls (a : BitVec 1280) : List Int := (List.range 32).map (accEl a)

/-- The accumulator whose element e is f e. -/
def mkAcc (f : Nat → Int) : BitVec 1280 :=
  BitVec.ofNat 1280 (packLE ((List.range 32).map (fun e => (40, wrapTo 40 (f e)))))

/-- The exact term of a MAC operation at element e (R58): the product to add, subtract or write. -/
def macTerm (k : MacKind) (a b : BitVec 512) (e : Nat) : Int :=
  let j := e / 2
  let ar := lane a (2 * j)
  let ai := lane a (2 * j + 1)
  let br := lane b (2 * j)
  let bi := lane b (2 * j + 1)
  match k with
  | .rmac => lane a e * lane b e
  | .cmac | .cmsb | .cmul => if e % 2 = 0 then ar * br - ai * bi else ar * bi + ai * br
  | .cmacj | .cmulj => if e % 2 = 0 then ar * br + ai * bi else ai * br - ar * bi

/-- The exact new value of element e (R58). -/
def macExact (k : MacKind) (old : Int) (t : Int) : Int :=
  match k with
  | .cmac | .cmacj | .rmac => old + t
  | .cmsb => old - t
  | .cmul | .cmulj => t

/-- A MAC operation on an accumulator (R58, R60): the new accumulator, and whether an element left the range. -/
def macOp (sat : Bool) (k : MacKind) (acc : BitVec 1280) (a b : BitVec 512) : BitVec 1280 × Bool :=
  let x := fun e => guard40 sat (macExact k (accEl acc e) (macTerm k a b e))
  (mkAcc (fun e => (x e).1), (List.range 32).any (fun e => (x e).2))

/-- Scales an accumulator to a vector with shift s (R62). -/
def accToVec (acc : BitVec 1280) (s : Int) : BitVec 512 × Bool :=
  (mkLanes (fun e => (scaleEl s (accEl acc e)).1), (accEls acc).any (fun x => (scaleEl s x).2))

/-- SCF.SHIFT as a shift (R47). -/
def scfShift (scf : Word) : Int := (bits scf.toNat 0 4 : Int) - 4
/-- SCF.MODE is AUTO. -/
def scfAuto (scf : Word) : Bool := bits scf.toNat 4 2 == 1
/-- SCF.SAT. -/
def scfSat (scf : Word) : Bool := scf.getLsbD 6
/-- SCF.GTE. -/
def scfGte (scf : Word) : Bool := scf.getLsbD 7
/-- SCF.EXP. -/
def scfExp (scf : Word) : Int := (slice scf 16 16).toInt
/-- SCF with another EXP. -/
def scfWithExp (scf : Word) (e : Int) : Word := BitVec.ofNat 32 (packLE [(16, scf.toNat), (16, wrapTo 16 e)])

/-- The SM field picks AUTO (R63). -/
def smAuto (scf : Word) (sm : BitVec 2) : Bool := sm == 2 || (sm == 1 && scfAuto scf)

/-- The shift of an ACMV or VSTA (R63, R64). -/
def smShift (scf : Word) (sm : BitVec 2) (sh : BitVec 4) (acc : BitVec 1280) : Int :=
  if smAuto scf sm then autoShift (accEls acc)
  else if sm = 0 then (sh.toNat : Int) - 4
  else scfShift scf

/-- A scaled move (R62 to R64): the vector, QSAT (never under AUTO), and the AUTO shift to add to EXP. -/
def scaledMove (scf : Word) (sm : BitVec 2) (sh : BitVec 4) (acc : BitVec 1280) : BitVec 512 × Bool × Option Int :=
  let s := smShift scf sm sh acc
  let (v, q) := accToVec acc s
  if smAuto scf sm then (v, false, some s) else (v, q, none)

/-! ## Vector ALU (R66) -/

/-- A lane-wise result with its saturation mark. -/
def laneMap (f : Nat → Int × Bool) : BitVec 512 × Bool :=
  (mkLanes (fun i => (f i).1), (List.range 32).any (fun i => (f i).2))

/-- The three-operand vector operations. -/
def vbinOp (k : VbinKind) (a b : BitVec 512) : BitVec 512 × Bool :=
  match k with
  | .add => laneMap (fun i => sat16 (lane a i + lane b i))
  | .sub => laneMap (fun i => sat16 (lane a i - lane b i))
  | .addw => (mkLanes (fun i => lane a i + lane b i), false)
  | .subw => (mkLanes (fun i => lane a i - lane b i), false)
  | .and => (a &&& b, false)
  | .or => (a ||| b, false)
  | .xor => (a ^^^ b, false)

/-- VNEG. -/
def vnegOp (a : BitVec 512) : BitVec 512 × Bool := laneMap (fun i => sat16 (-lane a i))
/-- VCONJ. -/
def vconjOp (a : BitVec 512) : BitVec 512 × Bool :=
  laneMap (fun i => if i % 2 = 0 then (lane a i, false) else sat16 (-lane a i))
/-- VSHRR. -/
def vshrrOp (a : BitVec 512) (imm : BitVec 4) : BitVec 512 := mkLanes (fun i => rnd (lane a i) imm.toNat)
/-- VBCST: complex lane imm to all lanes. -/
def vbcstOp (a : BitVec 512) (n : BitVec 4) : BitVec 512 := mkLanes (fun i => lane a (2 * n.toNat + i % 2))
/-- ACSET (R59). -/
def acsetOp (a : BitVec 512) : BitVec 1280 := mkAcc (fun e => lane a e * 32768)

/-- The scalar operations of opcode 0x20 (R509). -/
def aluOp (k : AluKind) (a b : Word) : Word :=
  match k with
  | .add => a + b
  | .sub => a - b
  | .and => a &&& b
  | .or => a ||| b
  | .xor => a ^^^ b
  | .shl => a <<< (bits b.toNat 0 5)
  | .shr => a >>> (bits b.toNat 0 5)
  | .sar => a.sshiftRight (bits b.toNat 0 5)
  | .mul => a * b
  | .cmplt => if a.toInt < b.toInt then 1 else 0
  | .cmpeq => if a = b then 1 else 0

end Sys2Proof.Machine
end

