-- ==== Sys2Proof/Machine/Cmu.lean ====
section
/-! DEFINITION. The complex matrix unit: exact arithmetic of its operations (R105 to R113). -/

namespace Sys2Proof.Machine

/-- Matrix register n. -/
def Cmu.getMx (c : Cmu) (n : Nat) : BitVec 512 := sget 0 c.mx n
/-- Writes matrix register n. -/
def Cmu.putMx (c : Cmu) (n : Nat) (v : BitVec 512) : Cmu := { c with mx := sput 0 c.mx n v }
/-- Matrix accumulator n. -/
def Cmu.getMa (c : Cmu) (n : Nat) : BitVec 1280 := sget 0 c.ma n
/-- Writes matrix accumulator n. -/
def Cmu.putMa (c : Cmu) (n : Nat) (v : BitVec 1280) : Cmu := { c with ma := sput 0 c.ma n v }

/-- A complex integer. -/
structure Cx where
  re : Int
  im : Int
  deriving DecidableEq, Repr, Inhabited

/-- Zero. -/
def Cx.zero : Cx := { re := 0, im := 0 }
/-- Sum. -/
def Cx.add (a b : Cx) : Cx := { re := a.re + b.re, im := a.im + b.im }
/-- Difference. -/
def Cx.sub (a b : Cx) : Cx := { re := a.re - b.re, im := a.im - b.im }
/-- Product. -/
def Cx.mul (a b : Cx) : Cx := { re := a.re * b.re - a.im * b.im, im := a.re * b.im + a.im * b.re }
/-- Conjugate. -/
def Cx.conj (a : Cx) : Cx := { re := a.re, im := -a.im }
/-- A multiple. -/
def Cx.scale (a : Cx) (k : Int) : Cx := { re := a.re * k, im := a.im * k }

/-- Element (i, k) of a matrix register (R105). -/
def mxEl (v : BitVec 512) (i k : Nat) : Cx := { re := lane v (2 * (4 * i + k)), im := lane v (2 * (4 * i + k) + 1) }

/-- The matrix register whose element (i, k) is f i k. -/
def mkMx (f : Nat → Nat → Cx) : BitVec 512 :=
  mkLanes (fun n => if n % 2 = 0 then (f (n / 8) (n / 2 % 4)).re else (f (n / 8) (n / 2 % 4)).im)

/-- A sum of complex integers. -/
def cxSum (n : Nat) (f : Nat → Cx) : Cx := upTo n (fun i a => a.add (f i)) Cx.zero

/-- Element of a, or of its Hermitian transpose (R108). -/
def mxElH (herm : Bool) (v : BitVec 512) (i k : Nat) : Cx := if herm then (mxEl v k i).conj else mxEl v i k

/-- The product term of MMAC at (i, k) (R108). -/
def mmacTerm (ah bh : Bool) (a b : BitVec 512) (i k : Nat) : Cx := cxSum 4 (fun m => (mxElH ah a i m).mul (mxElH bh b m k))

/-- The new part of a matrix accumulator: add, subtract or overwrite (R108). -/
def maNew (mode : Nat) (old p : Int) : Int := if mode = 0 then old + p else if mode = 1 then old - p else p

/-- A matrix accumulator updated with terms, each part range-checked once and saturated; true on guard overflow (R108). -/
def maUpdate (mode : Nat) (old : BitVec 1280) (t : Nat → Nat → Cx) : BitVec 1280 × Bool :=
  let x := fun e =>
    let p := t (e / 8) (e / 2 % 4)
    guard40 true (maNew mode (accEl old e) (if e % 2 = 0 then p.re else p.im))
  (mkAcc (fun e => (x e).1), (List.range 32).any (fun e => (x e).2))

/-- The integer square root, from the top bit down. -/
def isqrtFrom (v : Nat) : Nat → Nat → Nat
  | 0, r => r
  | b + 1, r => let c := r + 2 ^ b; if c * c ≤ v then isqrtFrom v b c else isqrtFrom v b r

/-- The integer nearest to 2^(15 − e) · √(2^30 / v) (R111). -/
def rsqNear (v e : Nat) : Nat := (isqrtFrom (2 ^ (62 - 2 * e) / v) 33 0 + 1) / 2

/-- The smallest exponent from e on whose mantissa fits (R111). -/
def rsqFrom (v : Nat) : Nat → Nat → Int × Int
  | 0, e => (rsqNear v e, e)
  | n + 1, e => if rsqNear v e ≤ 32767 then (rsqNear v e, e) else rsqFrom v n (e + 1)

/-- rsq(v) of a positive integer (R111). -/
def rsq (v : Int) : Int × Int := rsqFrom v.toNat 31 0

/-- MRSQ (R112); true when an element was not positive. -/
def mrsqOp (a : BitVec 512) : BitVec 512 × Bool :=
  let el := fun i k => (mxEl a i k).re
  let f := fun i k => if el i k ≤ 0 then Cx.mk 32767 32767
    else Cx.mk (rsq (el i k * 32768)).1 (rsq (el i k * 32768)).2
  (mkMx f, (List.range 16).any (fun n => decide (el (n / 4) (n % 4) ≤ 0)))

/-- Findings of a solve: saturation of a lane, guard overflow, bad divisor. -/
structure CmuFound where
  qsat : Bool
  ovf : Bool
  divz : Bool
  deriving DecidableEq, Repr, Inhabited

/-- Nothing found. -/
def CmuFound.none : CmuFound := { qsat := false, ovf := false, divz := false }

/-- A matrix under construction, by row and column. -/
abbrev CxMat := Nat → Nat → Cx

/-- Sets one element. -/
def matSet (m : CxMat) (i k : Nat) (v : Cx) : CxMat := fun x y => if x = i ∧ y = k then v else m x y

/-- t saturated to 40 bits, times m, rounded by 30 − e, saturated to 16 bits (R113). -/
def solveEl (t : Cx) (m e : Int) (fd : CmuFound) : Cx × CmuFound :=
  let (tr, o1) := guard40 true t.re
  let (ti, o2) := guard40 true t.im
  let (xr, q1) := sat16 (rnd (tr * m) (30 - e).toNat)
  let (xi, q2) := sat16 (rnd (ti * m) (30 - e).toNat)
  ({ re := xr, im := xi }, { fd with qsat := fd.qsat || q1 || q2, ovf := fd.ovf || o1 || o2 })

/-- The columns of MCHOL from j on (R113). -/
def mcholFrom (a : BitVec 512) : Nat → Nat → CxMat → CmuFound → CxMat × CmuFound
  | 0, _, l, fd => (l, fd)
  | n + 1, j, l, fd =>
    let d := (mxEl a j j).re * 32768 - upTo j (fun k s => s + (l j k).re * (l j k).re + (l j k).im * (l j k).im) 0
    if d ≤ 0 then (l, { fd with divz := true })
    else
      let (m, e) := rsq d
      let l1 := matSet l j j { re := m, im := e }
      let (l2, fd2) := ((List.range 4).filter (fun i => decide (j < i))).foldl (fun (x : CxMat × CmuFound) i =>
        let t := ((mxEl a i j).scale 32768).sub (cxSum j (fun k => (x.1 i k).mul (x.1 j k).conj))
        let (v, fd') := solveEl t m e x.2
        (matSet x.1 i j v, fd')) (l1, fd)
      mcholFrom a n (j + 1) l2 fd2

/-- MCHOL (R113). -/
def mcholOp (a : BitVec 512) : BitVec 512 × CmuFound :=
  let (l, fd) := mcholFrom a 4 0 (fun _ _ => Cx.zero) CmuFound.none
  (mkMx l, fd)

/-- MTRSV (R113): forward with L, or backward with L^H. -/
def mtrsvOp (back : Bool) (l b : BitVec 512) : BitVec 512 × CmuFound :=
  let rows := if back then [3, 2, 1, 0] else [0, 1, 2, 3]
  let (x, fd) := (List.range 4).foldl (fun (y : CxMat × CmuFound) k =>
    rows.foldl (fun (z : CxMat × CmuFound) i =>
      let m := (mxEl l i i).re
      let e := (mxEl l i i).im
      if m ≤ 0 ∨ e < 0 ∨ 16 < e then (matSet z.1 i k Cx.zero, { z.2 with divz := true })
      else
        let sum := if back then cxSum 4 (fun j => if i < j then (mxEl l j i).conj.mul (z.1 j k) else Cx.zero)
          else cxSum i (fun j => (mxEl l i j).mul (z.1 j k))
        let (v, fd') := solveEl (((mxEl b i k).scale 32768).sub sum) m e z.2
        (matSet z.1 i k v, fd')) y) ((fun _ _ => Cx.zero), CmuFound.none)
  (mkMx x, fd)

/-! ## Refusals, and the state that operations touch (R99, R104, R106, R107) -/

/-- The CMU refuses the operation (R87, R99, R107, R109). -/
def cmuRefuses (op : Nat) (f : CpFields) : Bool :=
  let d := f.dst.toNat
  let a := f.srca.toNat
  let b := f.srcb.toNat
  let v := f.var.toNat
  match op with
  | 0x00 | 0x01 => decide (15 < d) || v != 0
  | 0x02 | 0x03 => decide (15 < a) || v != 0
  | 0x04 => decide (15 < a) || v != 0
  | 0x05 => decide (1 < d) || v != 0
  | 0x06 | 0x07 => v != 0
  | 0x08 => decide (15 < a) || decide (15 < b) || decide (5 < d) || decide (v / 4 = 3)
  | 0x09 => !([0, 4, 8, 12].contains a) || !([0, 4, 8, 12].contains b) || decide (2 < d) || v % 4 != 0 || decide (v / 4 = 3)
  | 0x0A => decide (5 < a) || decide (15 < d)
  | 0x0B => decide (5 < a) || decide (15 < d) || v != 0
  | 0x0C | 0x0D => decide (15 < a) || decide (15 < d) || v != 0
  | 0x0E => decide (15 < a) || decide (15 < b) || decide (15 < d) || decide (1 < v)
  | 0x0F => decide (5 < d) || v != 0
  | _ => true

/-- Image bytes of matrix register n. -/
def mxRange (n : Nat) : Nat × Nat := (64 * n, 64)
/-- Image bytes of matrix accumulator n. -/
def maRange (n : Nat) : Nat × Nat := (0x400 + 160 * n, 160)
/-- Image bytes of control word n. -/
def cmuCtlRange (n : Nat) : Nat × Nat := (0x7C0 + 4 * n, 4)

/-- The image ranges that an operation reads (R104). -/
def cmuReads (op : Nat) (f : CpFields) : List (Nat × Nat) :=
  let d := f.dst.toNat
  let a := f.srca.toNat
  let b := f.srcb.toNat
  let old := f.var.toNat / 4 != 2
  match op with
  | 0x02 | 0x03 => [mxRange a]
  | 0x04 => if a < 2 then [cmuCtlRange a] else []
  | 0x06 => [(0, 0x7C8)]
  | 0x08 => [mxRange a, mxRange b] ++ (if old then [maRange d] else [])
  | 0x09 => (List.range 4).flatMap (fun i => [mxRange (a + i), mxRange (b + i)] ++ (if old then [maRange (d + i)] else []))
  | 0x0A => [maRange a]
  | 0x0B => [maRange a, cmuCtlRange 1]
  | 0x0C | 0x0D => [mxRange a]
  | 0x0E => [mxRange a, mxRange b]
  | _ => []

/-- The image ranges that an operation writes. -/
def cmuWrites (op : Nat) (f : CpFields) : List (Nat × Nat) :=
  let d := f.dst.toNat
  match op with
  | 0x00 | 0x01 => [mxRange d]
  | 0x05 => [cmuCtlRange d]
  | 0x07 => [(0, 0x7C8)]
  | 0x08 | 0x0F => [maRange d]
  | 0x09 => (List.range 4).map (fun i => maRange (d + i))
  | 0x0A | 0x0C | 0x0D | 0x0E => [mxRange d]
  | 0x0B => [mxRange d, cmuCtlRange 1]
  | _ => []

/-- The state image (R106), 2 048 bytes. -/
def cmuImage (c : Cmu) : List Byte :=
  (List.range 16).flatMap (fun n => bytesOfNat 64 (c.getMx n).toNat) ++
  (List.range 6).flatMap (fun n => bytesOfNat 160 (c.getMa n).toNat) ++
  bytesOfNat 4 c.flg.toNat ++ bytesOfNat 4 c.exp.toNat ++ List.replicate 56 0

/-- The state of an image (R100, R101, R106). -/
def cmuOfImage (d : List Byte) : Cmu :=
  let c0 : Cmu := { mx := [], ma := [], flg := BitVec.ofNat 4 (natOfBytes ((d.drop 0x7C0).take 4)),
                    exp := BitVec.ofNat 16 (natOfBytes ((d.drop 0x7C4).take 4)) }
  let c1 := upTo 16 (fun n c => c.putMx n (BitVec.ofNat 512 (natOfBytes ((d.drop (64 * n)).take 64)))) c0
  upTo 6 (fun n c => c.putMa n (BitVec.ofNat 1280 (natOfBytes ((d.drop (0x400 + 160 * n)).take 160)))) c1

/-- A control word (R105). -/
def cmuCtl (c : Cmu) (n : Nat) : Word :=
  if n = 0 then c.flg.setWidth 32 else if n = 1 then c.exp.setWidth 32 else 0

/-- Sets the sticky flags of CMU_FLG (R102, R110). -/
def Cmu.flag (c : Cmu) (fd : CmuFound) : Cmu :=
  { c with flg := c.flg ||| BitVec.ofNat 4 (packLE [(1, b2n fd.ovf), (1, b2n fd.divz), (1, b2n fd.qsat)]) }

/-- What an operation of the CMU does to its state when it finishes (R91, R107 to R113). -/
def cmuFinish (c : Cmu) (p : CpPend) : Cmu × CmuFound :=
  let d := p.f.dst.toNat
  let a := p.f.srca.toNat
  let b := p.f.srcb.toNat
  let v := p.f.var.toNat
  let r : Cmu × CmuFound := match p.op.toNat with
    | 0x00 => (c.putMx d p.vsrc, CmuFound.none)
    | 0x01 => (c.putMx d (BitVec.ofNat 512 (natOfBytes p.data)), CmuFound.none)
    | 0x05 => (if d = 0 then { c with flg := slice p.ssrc 0 4 } else { c with exp := slice p.ssrc 0 16 }, CmuFound.none)
    | 0x07 => (cmuOfImage p.data, CmuFound.none)
    | 0x08 =>
      let (m, o) := maUpdate (v / 4) (c.getMa d) (mmacTerm (v.testBit 1) (v.testBit 0) (c.getMx a) (c.getMx b))
      (c.putMa d m, { CmuFound.none with ovf := o })
    | 0x09 =>
      (List.range 4).foldl (fun (x : Cmu × CmuFound) q =>
        let i := q / 2
        let k := q % 2
        let t := fun r s => (mmacTerm false false (c.getMx (a + 2 * i)) (c.getMx (b + k)) r s).add
          (mmacTerm false false (c.getMx (a + 2 * i + 1)) (c.getMx (b + 2 + k)) r s)
        let (m, o) := maUpdate (v / 4) (c.getMa (d + q)) t
        (x.1.putMa (d + q) m, { x.2 with ovf := x.2.ovf || o })) (c, CmuFound.none)
    | 0x0A =>
      let (x, q) := accToVec (c.getMa a) ((v : Int) - 4)
      (c.putMx d x, { CmuFound.none with qsat := q })
    | 0x0B =>
      let s := autoShift (accEls (c.getMa a))
      let c1 := c.putMx d (accToVec (c.getMa a) s).1
      ({ c1 with exp := BitVec.ofInt 16 (addExp c.exp.toInt s) }, CmuFound.none)
    | 0x0C =>
      let (x, z) := mrsqOp (c.getMx a)
      (c.putMx d x, { CmuFound.none with divz := z })
    | 0x0D => let (x, fd) := mcholOp (c.getMx a); (c.putMx d x, fd)
    | 0x0E => let (x, fd) := mtrsvOp (v == 1) (c.getMx a) (c.getMx b); (c.putMx d x, fd)
    | 0x0F => (c.putMa d 0, CmuFound.none)
    | _ => (c, CmuFound.none)
  (r.1.flag r.2, r.2)

end Sys2Proof.Machine
end

