-- ==== Sys2Proof/Machine/Operands.lean ====
section
/-! DEFINITION. The operand forms of a core's slots: slot words (R82, R83, R87, R509), registers, addresses (R49, R70, R71) and
which registers an operation writes (R53). -/

namespace Sys2Proof.Machine

/-! ## Slot words -/

/-- An MR or MI word: opcode from the address form, fn, data register, base (R509). -/
def memWord (fn : Nat) (m : MemArgs) : Word :=
  match m.mode with
  | .off imm => BitVec.ofNat 32 (packLE [(13, imm.toNat), (4, m.an.toNat), (5, m.d.toNat), (4, fn), (6, 2)])
  | .postI imm => BitVec.ofNat 32 (packLE [(13, imm.toNat), (4, m.an.toNat), (5, m.d.toNat), (4, fn), (6, 3)])
  | .postN nm => BitVec.ofNat 32 (packLE [(7, 0), (2, 1), (4, nm.toNat), (4, m.an.toNat), (5, m.d.toNat), (4, fn), (6, 1)])

/-- A VA word (R82, R509). -/
def vaWord (v : VaArgs) : Word :=
  let (fn, x) := match v.mode with | .off i => (0, i.toNat) | .postN n => (1, n.toNat) | .postI i => (2, i.toNat)
  BitVec.ofNat 32 (packLE [(5, 0), (4, v.sh.toNat), (4, x), (4, v.an.toNat), (2, v.sm.toNat), (3, v.acs.toNat), (4, fn), (6, 4)])

/-- An opcode 0x05 word. -/
def addrWord (fn d an nm : Nat) : Word :=
  BitVec.ofNat 32 (packLE [(9, 0), (4, nm), (4, an), (5, d), (4, fn), (6, 5)])

/-- A VR word. -/
def vrWord (fn vd va vb imm : Nat) : Word := BitVec.ofNat 32 (packLE [(5, imm), (5, vb), (5, va), (5, vd), (6, fn), (6, 0x10)])

/-- A VM word. -/
def vmWord (fn d acs sm sh : Nat) : Word :=
  BitVec.ofNat 32 (packLE [(6, 0), (4, sh), (2, sm), (3, acs), (5, d), (6, fn), (6, 0x11)])

/-- A BR word. -/
def brWord (cond hint sa off : Nat) : Word := BitVec.ofNat 32 (packLE [(16, off), (5, sa), (1, hint), (4, cond), (6, 0x22)])

/-- A CT word. -/
def ctWord (fn r cr : Nat) : Word := BitVec.ofNat 32 (packLE [(8, 0), (7, cr), (5, r), (6, fn), (6, 0x24)])

/-- fn of a MAC operation (R509). -/
def macFn : MacKind → Nat
  | .cmac => 0 | .cmacj => 1 | .cmsb => 2 | .cmul => 3 | .cmulj => 4 | .rmac => 5

/-- fn of a three-operand vector operation (R509). -/
def vbinFn : VbinKind → Nat
  | .add => 0x10 | .sub => 0x11 | .addw => 0x12 | .subw => 0x13 | .and => 0x19 | .or => 0x1A | .xor => 0x1B

/-- fn of a scalar operation (R509). -/
def aluFn : AluKind → Nat
  | .add => 0 | .sub => 1 | .and => 2 | .or => 3 | .xor => 4 | .shl => 5 | .shr => 6 | .sar => 7 | .mul => 8 | .cmplt => 9
  | .cmpeq => 10

/-- The condition field of a branch (R83). -/
def condCode : BrCond → Nat
  | .eq => 0 | .ne => 1 | .lt => 2 | .ge => 3 | .le => 4 | .gt => 5 | .cp0busy => 9 | .cp1busy => 10

/-- The slot word of an operation (R82, R83, R87, R509); what CORE_TVAL holds of it. -/
def opWord : Op → Word
  | .nop => 0
  | .undef w => w
  | .ldh m => memWord 0 m | .ldw m => memWord 1 m | .sth m => memWord 2 m | .stw m => memWord 3 m
  | .vld m => memWord 4 m | .vldu m => memWord 5 m | .vst m => memWord 6 m
  | .qenq m => memWord 8 m | .qdeq m => memWord 9 m
  | .vsta v => vaWord v
  | .addaN an nm => addrWord 0 0 an.toNat nm.toNat
  | .addaI an imm => BitVec.ofNat 32 (packLE [(13, imm.toNat), (4, an.toNat), (5, 0), (4, 0), (6, 6)])
  | .mova an sa => addrWord 1 sa.toNat an.toNat 0
  | .movn nm sa => addrWord 2 sa.toNat 0 nm.toNat
  | .movas sd an => addrWord 3 sd.toNat an.toNat 0
  | .mac k d va vb => vrWord (macFn k) d.toNat va.toNat vb.toNat 0
  | .acclr d => vrWord 6 d.toNat 0 0 0
  | .acset d va => vrWord 7 d.toNat va.toNat 0 0
  | .vbin k vd va vb => vrWord (vbinFn k) vd.toNat va.toNat vb.toNat 0
  | .vneg vd va => vrWord 0x14 vd.toNat va.toNat 0 0
  | .vconj vd va => vrWord 0x15 vd.toNat va.toNat 0 0
  | .vshrr vd va i => vrWord 0x16 vd.toNat va.toNat 0 i.toNat
  | .vmov vd va => vrWord 0x17 vd.toNat va.toNat 0 0
  | .vbcst vd va l => vrWord 0x18 vd.toNat va.toNat 0 l.toNat
  | .acmv vd acs sm sh => vmWord 0 vd.toNat acs.toNat sm.toNat sh.toNat
  | .acsh sd acs => vmWord 1 sd.toNat acs.toNat 0 0
  | .alu k sd sa sb =>
    BitVec.ofNat 32 (packLE [(6, 0), (5, sb.toNat), (5, sa.toNat), (5, sd.toNat), (5, aluFn k), (6, 0x20)])
  | .movi sd imm => BitVec.ofNat 32 (packLE [(16, imm.toNat), (5, 0), (5, sd.toNat), (6, 0x21)])
  | .br c h sa off => brWord (condCode c) (b2n h) sa.toNat off.toNat
  | .j off => brWord 6 0 0 off.toNat
  | .call off => brWord 7 0 0 off.toNat
  | .ret off => brWord 8 0 0 off.toNat
  | .loop n fin => BitVec.ofNat 32 (packLE [(12, n.toNat), (13, fin.toNat), (1, 0), (6, 0x23)])
  | .loops sa fin => BitVec.ofNat 32 (packLE [(5, sa.toNat), (7, 0), (13, fin.toNat), (1, 1), (6, 0x23)])
  | .mfc sd cr => ctWord 0 sd.toNat cr.toNat
  | .mtc sa cr => ctWord 1 sa.toNat cr.toNat
  | .rti => ctWord 2 0 0
  | .wait => ctWord 3 0 0
  | .fence => ctWord 4 0 0
  | .cp sl op f => BitVec.ofNat 32 (packLE [(1, 0), (4, f.var.toNat), (5, f.srcb.toNat), (5, f.srca.toNat), (5, f.dst.toNat),
      (5, op.toNat), (1, b2n sl), (6, 0x3C)])

/-- Slots by number: 0 A, 1 B, 2 C, 3 D (R52). -/
def slotHas (slot : Nat) : Op → Bool
  | .nop => true
  | .undef _ => false
  | .ldh _ | .ldw _ | .sth _ | .stw _ | .vld _ | .vldu _ | .vst _ | .vsta _ => slot == 0 || slot == 1
  | .addaN _ _ | .addaI _ _ | .mova _ _ | .movn _ _ | .movas _ _ => slot == 0 || slot == 1
  | .qenq _ | .qdeq _ => slot == 0
  | .mac _ _ _ _ | .acclr _ | .acset _ _ | .vbin _ _ _ _ | .vneg _ _ | .vconj _ _ | .vshrr _ _ _ | .vmov _ _ => slot == 2
  | .vbcst _ _ _ | .acmv _ _ _ _ | .acsh _ _ => slot == 2
  | .alu _ _ _ _ | .movi _ _ | .br _ _ _ _ | .j _ | .call _ | .ret _ | .loop _ _ | .loops _ _ => slot == 3
  | .mfc _ _ | .mtc _ _ | .rti | .wait | .fence | .cp _ _ _ => slot == 3

/-- Field values that the encoding reserves (R63, R67, R82, R83): SM = 3, a loop count or end offset of 0, Sa of a busy
condition. -/
def reservedField : Op → Bool
  | .vsta v => v.sm == 3
  | .acmv _ _ sm _ => sm == 3
  | .loop n fin => n == 0 || fin == 0
  | .loops _ fin => fin == 0
  | .br .cp0busy _ sa _ => sa != 0
  | .br .cp1busy _ sa _ => sa != 0
  | _ => false

/-- The operation in slot n of a bundle. -/
def slotOp (b : Bundle) : Nat → Op
  | 0 => b.a
  | 1 => b.b
  | 2 => b.c
  | _ => b.d

/-! ## Registers -/

/-- S register i. -/
def CoreRegs.getS (r : CoreRegs) (i : BitVec 5) : Word := sget 0 r.s i.toNat
/-- Writes S register i. -/
def CoreRegs.putS (r : CoreRegs) (i : BitVec 5) (v : Word) : CoreRegs := { r with s := sput 0 r.s i.toNat v }
/-- A register i. -/
def CoreRegs.getA (r : CoreRegs) (i : BitVec 4) : Word := sget 0 r.a i.toNat
/-- Writes A register i. -/
def CoreRegs.putA (r : CoreRegs) (i : BitVec 4) (v : Word) : CoreRegs := { r with a := sput 0 r.a i.toNat v }
/-- N register i. -/
def CoreRegs.getN (r : CoreRegs) (i : BitVec 4) : Word := sget 0 r.n i.toNat
/-- Writes N register i. -/
def CoreRegs.putN (r : CoreRegs) (i : BitVec 4) (v : Word) : CoreRegs := { r with n := sput 0 r.n i.toNat v }
/-- V register i. -/
def CoreRegs.getV (r : CoreRegs) (i : BitVec 5) : BitVec 512 := sget 0 r.v i.toNat
/-- Writes V register i. -/
def CoreRegs.putV (r : CoreRegs) (i : BitVec 5) (v : BitVec 512) : CoreRegs := { r with v := sput 0 r.v i.toNat v }
/-- Accumulator i. -/
def CoreRegs.getAc (r : CoreRegs) (i : BitVec 3) : BitVec 1280 := sget 0 r.ac i.toNat
/-- Writes accumulator i. -/
def CoreRegs.putAc (r : CoreRegs) (i : BitVec 3) (v : BitVec 1280) : CoreRegs := { r with ac := sput 0 r.ac i.toNat v }

/-- A register that an operation names as its destination (R53). -/
inductive RegName where
  | s (i : BitVec 5) | a (i : BitVec 4) | n (i : BitVec 4) | v (i : BitVec 5) | ac (i : BitVec 3)
  deriving DecidableEq, Repr

/-- The base register that an address form updates (R70). -/
def postWrites (an : BitVec 4) : AddrMode → List RegName
  | .off _ => []
  | .postN _ => [.a an]
  | .postI _ => [.a an]

/-- The registers that an operation writes. -/
def opWrites : Op → List RegName
  | .ldh m | .ldw m => .s m.d :: postWrites m.an m.mode
  | .sth m | .stw m | .vst m | .qenq m => postWrites m.an m.mode
  | .vld m | .vldu m | .qdeq m => .v m.d :: postWrites m.an m.mode
  | .vsta v => match v.mode with | .off _ => [] | _ => [.a v.an]
  | .addaN an _ | .addaI an _ | .mova an _ => [.a an]
  | .movn nm _ => [.n nm]
  | .movas sd _ => [.s sd]
  | .mac _ d _ _ | .acclr d | .acset d _ => [.ac d]
  | .vbin _ vd _ _ | .vneg vd _ | .vconj vd _ | .vshrr vd _ _ | .vmov vd _ | .vbcst vd _ _ | .acmv vd _ _ _ => [.v vd]
  | .acsh sd _ | .alu _ sd _ _ | .movi sd _ | .mfc sd _ => [.s sd]
  | .call _ => [.s 31]
  | .cp _ op f => if op = 2 then [.v f.dst] else if op = 4 then [.s f.dst] else []
  | _ => []

/-- The operation applies AUTO (R63). -/
def usesAuto (scf : Word) : Op → Bool
  | .vsta v => smAuto scf v.sm
  | .acmv _ _ sm _ => smAuto scf sm
  | _ => false

/-! ## Addresses (R70, R71) -/

/-- Access size of an operation that accesses memory through a slot A or B word (R70). -/
def accSize : Op → Nat
  | .ldh _ | .sth _ => 2
  | .ldw _ | .stw _ => 4
  | .qenq _ | .qdeq _ => 32
  | _ => 64

/-- The alignment that the operation requires (R71). -/
def accAlign : Op → Nat
  | .vldu _ => 4
  | o => accSize o

/-- The arguments of an MR or MI operation. -/
def memArgs : Op → Option MemArgs
  | .ldh m | .ldw m | .sth m | .stw m | .vld m | .vldu m | .vst m | .qenq m | .qdeq m => some m
  | _ => none

/-- A signed 13-bit immediate times the size. -/
def immOff (imm : BitVec 13) (size : Nat) : Word := BitVec.ofInt 32 (imm.toInt * size)
/-- A signed 4-bit immediate times 64. -/
def immOff4 (imm : BitVec 4) : Word := BitVec.ofInt 32 (imm.toInt * 64)

/-- The effective address of a slot A or B operation, none for an operation that accesses no memory (R70, R509). -/
def effAddr (r : CoreRegs) (o : Op) : Option Word :=
  match o with
  | .vsta v => some (match v.mode with | .off i => r.getA v.an + immOff4 i | _ => r.getA v.an)
  | _ =>
    match memArgs o with
    | none => none
    | some m => some (match m.mode with | .off i => r.getA m.an + immOff i (accSize o) | _ => r.getA m.an)

/-- The post-modified base register and its value (R70), with 32-bit wrap-around. -/
def postMod (r : CoreRegs) (o : Op) : Option (BitVec 4 × Word) :=
  match o with
  | .vsta v =>
    match v.mode with
    | .off _ => none
    | .postN n => some (v.an, r.getA v.an + r.getN n)
    | .postI i => some (v.an, r.getA v.an + immOff4 i)
  | _ =>
    match memArgs o with
    | none => none
    | some m =>
      match m.mode with
      | .off _ => none
      | .postN n => some (m.an, r.getA m.an + r.getN n)
      | .postI i => some (m.an, r.getA m.an + immOff i (accSize o))

/-- What a core address reaches (R49). -/
inductive CoreTarget where
  | dmem (off : Nat)
  | imem (off : Nat)
  | cm (off : Nat)
  | win (n : BitVec 4) (off : Nat)
  | queue (lq : BitVec 10) (off : Nat)
  | rm (off : Nat)
  | far (pa : Pa)
  | none
  deriving DecidableEq, Repr

/-- The core address map (R49). -/
def coreMap (c : CoreCtl) (a : Word) : CoreTarget :=
  let x := a.toNat
  if x < 0x20000 then .dmem x
  else if x < 0x30000 then .imem (x - 0x20000)
  else if x < 0x100000 then .none
  else if x < 0x200000 then .cm (x - 0x100000)
  else if x < 0x300000 then .win (BitVec.ofNat 4 ((x - 0x200000) / 0x10000)) (x % 0x10000)
  else if x < 0x310000 then .queue (BitVec.ofNat 10 ((x - 0x300000) / 0x40)) (x % 0x40)
  else if x < 0x800000 then .none
  else if x < 0x1000000 then .rm (x - 0x800000)
  else if x < 0x80000000 then .none
  else .far (BitVec.ofNat 44 ((sget 0 c.farwin ((x - 0x80000000) / 0x10000000)).toNat * 0x10000000 + x % 0x10000000))

/-- Bytes of a core read that lie in one 64-byte block: the block's core address and the byte offsets, rising. -/
structure ReadPiece where
  blk : Word
  offs : List Nat
  deriving DecidableEq, Repr

/-- The pieces of the n bytes from a, one per 64-byte block (R49). -/
def spanPieces (a : Word) (n : Nat) : List ReadPiece :=
  let o := a.toNat % 64
  let blk := BitVec.ofNat 32 (a.toNat - o)
  if o + n ≤ 64 then [{ blk := blk, offs := (List.range n).map (· + o) }]
  else [{ blk := blk, offs := (List.range (64 - o)).map (· + o) },
        { blk := blk + 64, offs := List.range (o + n - 64) }]

/-- The pieces that hold the given byte offsets from a base address (for the gathers of R120). -/
def gatherPieces (a : Word) (offs : List Nat) : List ReadPiece :=
  let addrs := offs.map (fun o => (a + BitVec.ofNat 32 o).toNat)
  let blks := (addrs.map (fun x => x / 64)).eraseDups
  blks.map (fun b => { blk := BitVec.ofNat 32 (64 * b), offs := (List.range 64).filter (fun i => addrs.contains (64 * b + i)) })

end Sys2Proof.Machine
end

