-- ==== Sys2Proof/Config.lean ====
section
/-! DEFINITION. What the specification leaves open: free values, each an opaque constant of the number of the value taken (log 9), and
the two cryptographic functions whose algorithms other standards define (log 10). Nothing can be proved of a value of them. -/

namespace Sys2Proof

/-- Free value of 8 bits. -/
opaque Config.free8 : Nat → BitVec 8
/-- Free value of 16 bits. -/
opaque Config.free16 : Nat → BitVec 16
/-- Free value of 32 bits. -/
opaque Config.free32 : Nat → BitVec 32
/-- Free value of 64 bytes. -/
opaque Config.free512 : Nat → BitVec 512
/-- Free bytes: value n, byte i. -/
opaque Config.freeByte : Nat → Nat → BitVec 8
/-- Free natural number. -/
opaque Config.freeNat : Nat → Nat
/-- Free truth value. -/
opaque Config.freeBool : Nat → Bool
/-- Coded bit i of the encoder's function (0 LDPC of TS 38.212 5.3.2, 5.4.2; 1 polar of 5.3.1, 5.4.1) for a parameter block and an input:
the standard's base graphs and sequences are not part of the specification. -/
opaque Config.codedBit : Nat → List (BitVec 8) → List (BitVec 8) → Nat → Bool
/-- SHA-384 of a byte string (FIPS 180-4), as a number. -/
opaque Config.sha384 : List (BitVec 8) → BitVec 384
/-- Whether an ECDSA P-384 signature verifies: public key, digest, signature (FIPS 186-5). -/
opaque Config.ecdsaP384 : List (BitVec 8) → BitVec 384 → List (BitVec 8) → Bool

end Sys2Proof
end

