-- ==== Sys2Proof/Machine/Memory.lean ====
section
/-! DEFINITION. Stored data and its checks: parity memories with replay and poison (R74, R127 to R129), the (72,64) code of the
bulk stores (R397 to R403), never-written DRAM (R408 to R411), the flip mask (R415), and which memories are initialised (R139,
R407). -/

namespace Sys2Proof.Machine

/-- A byte memory is in canonical form; an unlisted byte reads as 0 (R139, log 7). -/
def Memory.wf (m : List Host.Cell) : Bool := canon (fun _ => (0 : Byte)) m

/-! ## Initialisation state (R139 to R142, R407) -/

/-- The key of a memory in the table of initialisation states. -/
def initKey : InitMem → Nat
  | .cm gc => gc.toNat
  | .dmem g => 64 + g.toNat
  | .imem g => 576 + g.toNat
  | .rm r => 1088 + r.toNat
  | .hub => 1104

/-- How far the initialiser is with a memory. -/
def State.initOf (s : State) (m : InitMem) : InitState := sget .blank s.inits (initKey m)
/-- Sets how far the initialiser is with a memory. -/
def State.setInit (s : State) (m : InitMem) (x : InitState) : State :=
  { s with inits := sput .blank s.inits (initKey m) x }
/-- The memory answers accesses (R140, R407). -/
def State.ready (s : State) (m : InitMem) : Bool := s.initOf m == .done

/-- Base address and size of a memory. -/
def initRange : InitMem → Nat × Nat
  | .cm gc => (clusterBase gc, 0x100000)
  | .dmem g => (dmemBase g, 0x20000)
  | .imem g => (imemBase g, 0x10000)
  | .rm r => (regionBase r, 0x800000)
  | .hub => (hubBase, 0x2000000)

/-- The memories of a cluster (R140). -/
def clusterMems (gc : ClusterId) : List InitMem :=
  .cm gc :: ((List.range 8).map (fun k => InitMem.dmem (coreOf gc (BitVec.ofNat 3 k))) ++
    (List.range 8).map (fun k => InitMem.imem (coreOf gc (BitVec.ofNat 3 k))))

/-- Clears a range of bytes with its checks: zeros with valid check bits (R139, R407, R410). -/
def zeroRange (s : State) (lo n : Nat) : State :=
  let out := fun k => decide (k < lo) || decide (lo + n ≤ k)
  { s with mem := s.mem.filter (fun c => out c.1), par := s.par.filter (fun c => out c.1),
           edc := { s.edc with syn := s.edc.syn.filter (fun c => out c.1) } }

/-- The initialiser starts on a memory; its contents are lost (R141). -/
def startInit (s : State) (m : InitMem) : State :=
  zeroRange (s.setInit m .busy) (initRange m).1 (initRange m).2

/-- Starts the initialiser on several memories. -/
def startInits (s : State) (l : List InitMem) : State := l.foldl startInit s

/-- Every memory of a cluster is initialised: CLU_INITSTAT.DONE (R139, R140). -/
def initDone (s : State) (gc : ClusterId) : Bool := (clusterMems gc).all s.ready

/-! ## Parity memories -/

/-- Whom a parity memory reports to: its sources for replay and for poison, its Tally counters (poisonTal 0: none), and the detail
word of a 16-bit word. -/
structure ParityUse where
  replaySrc : SourceId
  poisonSrc : SourceId
  replayTal : Nat
  poisonTal : Nat
  detail : Nat → Bool → Word

/-- Reads that fail before the stored parity holds: how many re-reads a committed read makes, whether it ends in poison, and what
error is left (R74, R127, R128). -/
def replay : ParityErr → Nat × Bool × ParityErr
  | .none => (0, false, .none)
  | .stuck => (3, true, .stuck)
  | .glitch n => if n ≤ 3 then (n, false, .none) else (3, true, if n = 4 then .none else .glitch (n - 4))

/-- A committed read of the 16-bit word at even address a; true when it is poison. -/
def parityWord (u : ParityUse) (s : State) (a : Nat) : Bool × State :=
  let (n, poison, rest) := replay (sget .none s.par a)
  let s1 := { s with par := sput .none s.par a rest }
  let s2 := if n = 0 then s1 else tallyAdd s1 u.replayTal n
  let s3 := if poison && u.poisonTal != 0 then tallyAdd s2 u.poisonTal 1 else s2
  let replayed := decide (n ≠ 0) && !poison
  if u.replaySrc = u.poisonSrc then (poison, check s3 u.replaySrc (replayed || poison) (u.detail a poison))
  else (poison, check (check s3 u.replaySrc replayed (u.detail a false)) u.poisonSrc poison (u.detail a true))

/-- Committed reads of several 16-bit words; the poison marks in order. -/
def parityWords (u : ParityUse) (s : State) : List Nat → List Bool × State
  | [] => ([], s)
  | a :: rest =>
    let (p, s1) := parityWord u s a
    let (ps, s2) := parityWords u s1 rest
    (p :: ps, s2)

/-- The even addresses of the 16-bit words that bytes a … a + n − 1 touch. -/
def words16 (a n : Nat) : List Nat :=
  if n = 0 then [] else (List.range ((a + n - 1) / 2 - a / 2 + 1)).map (fun i => 2 * (a / 2 + i))

/-- The addresses of the 8-byte words that bytes a … a + n − 1 touch. -/
def words64 (a n : Nat) : List Nat :=
  if n = 0 then [] else (List.range ((a + n - 1) / 8 - a / 8 + 1)).map (fun i => 8 * (a / 8 + i))

/-- A committed read of n bytes at a. -/
def parityRead (u : ParityUse) (s : State) (a n : Nat) : Ans × State :=
  let (ps, s1) := parityWords u s (words16 a n)
  ({ outc := if ps.any id then .uncorrectable else .ok, flags := 0, data := s1.bytes a n, poison := ps }, s1)

/-- The word's stored parity becomes valid. -/
def clearPar (s : State) (a : Nat) : State := { s with par := sput .none s.par a .none }
/-- The word is stored with inverted parity (R129). -/
def poisonPar (s : State) (a : Nat) : State := { s with par := sput .none s.par a .stuck }

/-- Writes whole 16-bit words with fresh parity (R126). -/
def parityWrite (s : State) (a : Nat) (d : List Byte) : State :=
  ((words16 a d.length).foldl clearPar s).setBytes a d

/-- Writes one byte and leaves the parity state. -/
def setByteOpt (s : State) (a : Nat) : Option Byte → State
  | none => s
  | some b => s.setByte a b

/-- A fabric write to one 16-bit word of a parity memory, by byte enables (R126, R129): a whole word is written; one byte is merged
after a read of the word; a poisoned word is stored with inverted parity. Answers whether a merge ended in poison. -/
def mergeWord (u : ParityUse) (s : State) (a : Nat) (b0 b1 : Option Byte) (poisoned : Bool) : Bool × State :=
  match b0, b1 with
  | none, none => (false, s)
  | some x, some y =>
    let s1 := (s.setByte a x).setByte (a + 1) y
    (false, if poisoned then poisonPar s1 a else clearPar s1 a)
  | _, _ =>
    let (p, s1) := parityWord u s a
    let s2 := setByteOpt (setByteOpt s1 a b0) (a + 1) b1
    if p then (true, poisonPar s2 a)
    else (false, if poisoned then poisonPar s2 a else clearPar s2 a)

/-- Byte i of an enabled-byte list, none outside it. -/
def optAt (d : List (Option Byte)) (i : Nat) : Option Byte := (d[i]?).getD none

/-- A fabric write to a parity memory: each 16-bit word in turn. -/
def parityMerge (u : ParityUse) (s : State) (a : Nat) (d : List (Option Byte)) (poison : BitVec 128) : Ans × State :=
  let (bad, s1) := (words16 a d.length).foldl (fun (x : Bool × State) w =>
    let lo := if w < a then none else optAt d (w - a)
    let (p, t) := mergeWord u x.2 w lo (optAt d (w + 1 - a)) (poison.getLsbD (w / 2 - a / 2))
    (x.1 || p, t)) (false, s)
  (Ans.only (if bad then .uncorrectable else .ok), s1)

/-! ## The (72,64) code (R397) -/

/-- The number of set bits of a byte value. -/
def weight (x : Nat) : Nat := ((List.range 8).filter (fun i => x.testBit i)).length

/-- The columns of data bits 0–63 (R397). -/
def eccCols : List Nat :=
  (List.range 256).filter (fun x => weight x == 3) ++ [0x1F, 0x2F, 0x37, 0x3B, 0x3D, 0x3E, 0x4F, 0x57]

/-- The XOR of the columns of the data bits set in d: the check bits of data d (R397). -/
def eccOf (d : Nat) : Nat := upTo 64 (fun i c => if d.testBit i then c ^^^ (eccCols.getD i 0) else c) 0

/-- What a syndrome says of a word (R397). -/
inductive EccClass where
  | clean
  | single (dataBit : Option Nat)
  | poison
  | bad
  deriving DecidableEq, Repr

/-- The class of an 8-bit syndrome (R397). -/
def eccClass (syn : Nat) : EccClass :=
  if syn = 0 then .clean
  else if syn = 0x7F then .poison
  else if weight syn = 1 then .single none
  else match eccCols.findIdx? (· == syn) with
    | some i => .single (some i)
    | none => .bad

/-- The controller of a bulk store's address: 0, 1 DRAM, 2 hub memory, 3 + 4d + r RM (R24, R417); none elsewhere. -/
def bulkMc (a : Nat) : Option Nat :=
  match place (BitVec.ofNat 44 a) with
  | .dram o => some (o / 256 % 2)
  | .hubMem _ => some 2
  | .rm r _ => some (3 + r.toNat)
  | _ => none

/-- The word index within the memory's own space (R397, R24). -/
def bulkWord (a : Nat) : Nat :=
  match place (BitVec.ofNat 44 a) with
  | .dram o => (o / 512 * 256 + o % 256) / 8
  | .hubMem o => o / 8
  | .rm _ o => o / 8
  | _ => 0

/-- Base of a controller's register block (R417). -/
def mcBase (m : Nat) : Nat := hubBlk 9 + m * 0x1000
/-- Base of the package-wide protection registers (R418). -/
def edcPkg : Nat := hubBlk 9 + 0x20000

/-- The correctable-error source of a controller (R419); the uncorrectable one follows it. -/
def mcSrc (m : Nat) : SourceId :=
  if m < 3 then BitVec.ofNat 10 (0x3D0 + 2 * m) else srcRegion (BitVec.ofNat 4 (m - 3)) 3

/-- Records an error in EDC_MCm_LASTERR (R417). -/
def lastErr (s : State) (m word syn typ : Nat) (scrub : Bool) : State :=
  let x := s.mc m
  s.setMc m { x with errLo := BitVec.ofNat 32 (packLE [(31, word), (1, 1)]),
                     errHi := BitVec.ofNat 32 (packLE [(8, syn), (3, typ), (1, b2n scrub)]) }

/-- The stored syndrome of the word at a. -/
def State.synOf (s : State) (a : Nat) : BitVec 8 := sget 0 s.edc.syn a
/-- Sets the stored syndrome of the word at a. -/
def State.setSyn (s : State) (a : Nat) (v : BitVec 8) : State := { s with edc := { s.edc with syn := sput 0 s.edc.syn a v } }

/-- Flips bit i of the bytes of a word. -/
def flipBit (d : List Byte) (i : Nat) : List Byte :=
  d.zipIdx.map (fun (b, j) => if j = i / 8 then b ^^^ BitVec.ofNat 8 (2 ^ (i % 8)) else b)

/-- The checks of a word that is read: the two sources of its controller see it (R399, R400, R425). -/
def bulkCheck (s : State) (m a : Nat) (scrub : Bool) : State :=
  let c := eccClass (s.synOf a).toNat
  let d : Word := BitVec.ofNat 32 (packLE [(31, bulkWord a), (1, b2n scrub)])
  let ce := match c with | .single _ => true | _ => false
  check (check s (mcSrc m) ce d) (mcSrc m + 1) (c == .bad) d

/-- A committed read of the 8-byte word at a (R399, R400): its data as returned, and its class. -/
def bulkReadWord (s : State) (m a : Nat) : List Byte × EccClass × State :=
  let syn := (s.synOf a).toNat
  let d := s.bytes a 8
  let s1 := bulkCheck s m a false
  match eccClass syn with
  | .clean => (d, .clean, s1)
  | .single i =>
    (match i with | some k => flipBit d k | none => d, .single i,
      tallyAdd (lastErr s1 m (bulkWord a) syn 1 false) (mcBase m + 0x100) 1)
  | .poison => (d, .poison, tallyAdd (lastErr s1 m (bulkWord a) syn 3 false) (mcBase m + 0x110) 1)
  | .bad => (d, .bad, tallyAdd (lastErr s1 m (bulkWord a) syn 2 false) (mcBase m + 0x108) 1)

/-! ## The written-block map (R408 to R412) -/

/-- Index of the 4 KiB block of a DRAM address. -/
def dramBlk (a : Nat) : Nat := a / 4096

/-- The written bit of a block. -/
def State.written (s : State) (b : Nat) : Bool := sget false s.edc.written b

/-- A read of the map word of a block (R411): an uncorrectable map word is rewritten with ones, reported and counted; a correctable
one is corrected and reported. -/
def mapRead (s : State) (b : Nat) : State :=
  let w := b / 64
  let syn := (sget 0 s.edc.mapSyn w).toNat
  let s1 := check s 0x3D6 (decide (syn ≠ 0)) (BitVec.ofNat 32 w)
  match eccClass syn with
  | .clean => s1
  | .single _ => s1
  | _ =>
    let s2 := tallyAdd s1 (edcPkg + 0x108) 1
    let ones := upTo 64 (fun i m => sput false m (64 * w + i) true) s2.edc.written
    { s2 with edc := { s2.edc with mapSyn := sput 0 s2.edc.mapSyn w 0, written := ones } }

/-- A DRAM access charges its activity in 64-byte units (R213): in background class once the units already charged have reached
LIM. -/
def dramCharge (s : State) (act : ActId) (n : Nat) : State :=
  let u := (n + 63) / 64
  let b := sget DBud.reset s.edc.dbud act.toNat
  let base := hubBlk 9 + 0x80000 + act.toNat * 0x20
  let s1 := tallyAdd { s with edc := { s.edc with dbud := sput DBud.reset s.edc.dbud act.toNat { b with units := b.units + u } } }
    (base + 8) u
  if b.en ∧ b.lim.toNat ≤ b.units then tallyAdd s1 (base + 0x10) u else s1

/-! ## Bulk reads and writes -/

/-- Joins the findings of two words of one read: UNCORRECTABLE before OK_FLAGGED before OK. -/
def joinOutc (a b : Outc) : Outc :=
  if a = .uncorrectable ∨ b = .uncorrectable then .uncorrectable
  else if a = .okFlagged ∨ b = .okFlagged then .okFlagged else .ok

/-- A committed read of n bytes at a of one bulk store, served by one controller (R399, R400, R409). -/
def bulkRead1 (s : State) (a n : Nat) (act : ActId) : Ans × State :=
  match bulkMc a with
  | none => (Ans.only .routeFault, s)
  | some m =>
    let s0 := if m < 2 then dramCharge (mapRead s (dramBlk a)) act n else s
    if m < 2 ∧ s0.written (dramBlk a) = false then
      ({ outc := .okFlagged, flags := 1, data := List.replicate n 0, poison := [] }, tallyAdd s0 (mcBase m + 0x140) 1)
    else
      let (d, o, fl, ps, s1) := (words64 a n).foldl
        (fun (x : List Byte × Outc × Word × List Bool × State) w =>
          let (d, c, t) := bulkReadWord x.2.2.2.2 m w
          let o : Outc := match c with | .clean => .ok | .single _ => .okFlagged | _ => .uncorrectable
          let p := c == .poison || c == .bad
          (x.1 ++ d, joinOutc x.2.1 o, if o = .okFlagged then x.2.2.1 ||| 0x80 else x.2.2.1,
            x.2.2.2.1 ++ List.replicate 4 p, t)) ([], .ok, 0, [], s0)
      ({ outc := o, flags := fl, data := (d.drop (a % 8)).take n, poison := ps.drop (a % 8 / 2) }, s1)

/-- The pieces of bytes a … a + n − 1 between 256-byte boundaries (R24), at most `fuel` of them. -/
def pieces : Nat → Nat → Nat → List (Nat × Nat)
  | 0, _, _ => []
  | fuel + 1, a, n =>
    if n = 0 then []
    else
      let k := min n (256 - a % 256)
      (a, k) :: pieces fuel (a + k) (n - k)

/-- A committed read of n bytes at a, split at 256-byte boundaries (R24). -/
def bulkRead (s : State) (a n : Nat) (act : ActId) : Ans × State :=
  (pieces (n / 256 + 2) a n).foldl (fun (x : Ans × State) p =>
    let (r, t) := bulkRead1 x.2 p.1 p.2 act
    ({ outc := joinOutc x.1.outc r.outc, flags := x.1.flags ||| r.flags, data := x.1.data ++ r.data,
       poison := x.1.poison ++ r.poison }, t)) (Ans.only .ok, s)

/-- Puts enabled bytes over the bytes of a word. -/
def overlay (d : List Byte) (w : List (Option Byte)) : List Byte :=
  d.zipIdx.map (fun (b, i) => ((w[i]?).getD none).getD b)

/-- Writes a word's data, flipped by a mask, with the syndrome that results (R398, R401, R415). -/
def storeWord (s : State) (a : Nat) (d : List Byte) (syn flip chk : Nat) : State :=
  let x := natOfBytes d ^^^ flip
  (s.setBytes a (bytesOfNat 8 x)).setSyn a (BitVec.ofNat 8 (syn ^^^ eccOf flip ^^^ chk))

/-- A write to the 8-byte word at a by byte enables (R401 to R403); answers whether a merge ended in poison. -/
def bulkWriteWord (s : State) (m a : Nat) (w : List (Option Byte)) (poisoned : Bool) (flip chk : Nat) : Bool × State :=
  let p := if poisoned then 0x7F else 0
  if w.all (fun x => x.isNone) then (false, s)
  else if w.all (fun x => x.isSome) then (false, storeWord s a (overlay (List.replicate 8 0) w) p flip chk)
  else
    let syn := (s.synOf a).toNat
    let d := s.bytes a 8
    let s1 := bulkCheck s m a false
    match eccClass syn with
    | .clean => (false, storeWord s1 a (overlay d w) p flip chk)
    | .single i =>
      let d' := match i with | some k => flipBit d k | none => d
      let s2 := tallyAdd (tallyAdd (lastErr s1 m (bulkWord a) syn 1 false) (mcBase m + 0x100) 1) (mcBase m + 0x118) 1
      (false, storeWord s2 a (overlay d' w) p flip chk)
    | .poison =>
      (true, storeWord (tallyAdd (lastErr s1 m (bulkWord a) syn 4 false) (mcBase m + 0x120) 1) a (overlay d w) 0x7F flip chk)
    | .bad =>
      let s2 := tallyAdd (tallyAdd (lastErr s1 m (bulkWord a) syn 4 false) (mcBase m + 0x108) 1) (mcBase m + 0x120) 1
      (true, storeWord s2 a (overlay d w) 0x7F flip chk)

/-- The enabled bytes of the 8-byte word at w in a write of d at a. -/
def wordOf (a : Nat) (d : List (Option Byte)) (w : Nat) : List (Option Byte) :=
  (List.range 8).map (fun i => if w + i < a then none else optAt d (w + i - a))

/-- The written words: those with at least one enabled byte. -/
def touched (a : Nat) (d : List (Option Byte)) : List Nat :=
  (words64 a d.length).filter (fun w => (wordOf a d w).any (fun x => x.isSome))

/-- The first write to a DRAM block (R410): the rest of the block is zero-filled and the written bit set. -/
def firstWrite (s : State) (a : Nat) : State :=
  let b := dramBlk a
  if s.written b then s
  else
    let s1 := zeroRange s (4096 * b) 4096
    { s1 with edc := { s1.edc with written := sput false s1.edc.written b true } }

/-- One write request to one controller (R401 to R403, R410, R415); `poison` marks 16-bit words counted from a. -/
def bulkWrite1 (s : State) (a : Nat) (d : List (Option Byte)) (poison : Nat) (act : ActId) : Ans × State :=
  match bulkMc a with
  | none => (Ans.only .routeFault, s)
  | some m =>
    let s0 := if m < 2 then firstWrite (dramCharge (mapRead s (dramBlk a)) act d.length) a else s
    let x := s0.mc m
    let ws := touched a d
    let s1 := if x.arm ∧ ws ≠ [] then s0.setMc m { x with arm := false } else s0
    let flip := if x.arm then x.fliplo.toNat + 2 ^ 32 * x.fliphi.toNat else 0
    let chk := if x.arm then x.chk.toNat else 0
    let (bad, s2) := ws.foldl (fun (y : Bool × State) w =>
      let isFirst := ws.head? == some w
      let pz := (List.range 4).any (fun i => decide (a ≤ w + 2 * i + 1) && poison.testBit ((w + 2 * i) / 2 - a / 2))
      let (b, t) := bulkWriteWord y.2 m w (wordOf a d w) pz (if isFirst then flip else 0) (if isFirst then chk else 0)
      (y.1 || b, t)) (false, s1)
    (Ans.only (if bad then .uncorrectable else .ok), s2)

/-- A write at a, split at 256-byte boundaries (R24). -/
def bulkWrite (s : State) (a : Nat) (d : List (Option Byte)) (poison : BitVec 128) (act : ActId) : Ans × State :=
  (pieces (d.length / 256 + 2) a d.length).foldl (fun (x : Ans × State) p =>
    let o := p.1 - a
    let (r, t) := bulkWrite1 x.2 p.1 ((d.drop o).take p.2) (poison.toNat / 2 ^ (p.1 / 2 - a / 2)) act
    (Ans.only (joinOutc x.1.outc r.outc), t)) (Ans.only .ok, s)

/-! ## The parity memories of a cluster -/

/-- How a core's data or instruction memory reports (R74, R508): mem 0 data, 1 instruction; `fab` for a read over the fabric, `fetch`
the bundle address of a fetch. -/
def coreParity (g : CoreId) (mem : Nat) (fab : Bool) (fetch : Option Nat) : ParityUse :=
  let base := if mem = 0 then dmemBase g else imemBase g
  { replaySrc := srcCore g, poisonSrc := srcCore g, replayTal := coreRegs g + 0x118, poisonTal := 0,
    detail := fun a p =>
      let off := match fetch with | some b => b | none => a - base + (if mem = 0 then 0 else 0x20000)
      BitVec.ofNat 32 (packLE [(18, off), (2, 0), (2, mem), (1, b2n fetch.isSome), (1, b2n p), (1, b2n fab)]) }

/-- How CM reports (R127, R128, R508); req is the requester code of R508. -/
def cmParity (gc : ClusterId) (req : Nat) : ParityUse :=
  { replaySrc := srcCluster gc 0, poisonSrc := srcCluster gc 1, replayTal := cluBase gc + 0x208, poisonTal := cluBase gc + 0x210,
    detail := fun a _ => BitVec.ofNat 32 (packLE [(20, a - clusterBase gc), (5, req)]) }

/-- The CM offset that byte o of aperture n reaches (R132); none when the window is disabled (R133). -/
def winMap (c : Clu) (n : BitVec 4) (o : Nat) : Option Nat :=
  let l := (sget 0 c.wlen n.toNat).toNat * 64
  if l = 0 then none else some (((sget 0 c.wbase n.toNat).toNat * 64 + o % l) % 0x100000)

end Sys2Proof.Machine
end

