-- ==== Sys2Proof/Machine/FabricOps.lean ====
section
/-! DEFINITION. From an initiator to its network interface: nodes, default routes, regulator entries, and how a request enters an NI
and an answer leaves it (R222 to R247, R510). -/

namespace Sys2Proof.Machine

/-! ## Nodes (R222, R238) -/

/-- The node IDs of R222. -/
def nodeListed (n : NodeId) : Bool :=
  decide (n.toNat < 0x40) || decide (0x80 ≤ n.toNat ∧ n.toNat ≤ 0x82) || decide (0x90 ≤ n.toNat ∧ n.toNat ≤ 0x95)

/-- The nodes with initiators behind them (R222). -/
def nodeInitiates (n : NodeId) : Bool := nodeListed n && !decide (0x80 ≤ n.toNat ∧ n.toNat ≤ 0x82)

/-- The cluster NI that serves an engine: the cluster slot mod 4 of its region (R146, R222). -/
def engNode (e : EngId) : NodeId := BitVec.ofNat 8 (4 * (e.toNat / 16) + e.toNat % 16 % 4)

/-- The node of a cluster. -/
def clusterNode (gc : ClusterId) : NodeId := gc.setWidth 8

/-- The NI behind which an initiator stands (R222). -/
def iniNode : Initiator → NodeId
  | .core g => clusterNode (coreCluster g)
  | .engine e => engNode e
  | .slice gc => clusterNode gc
  | .host _ | .hif => 0x90
  | .dma _ => 0x94
  | .fhp => 0x91
  | .cas _ => 0x92
  | .mgc => 0x93
  | .hma | .scv => 0x95

/-- The destination node of an address (R238, R29); none where the initiating NI answers ROUTE_FAULT itself. -/
def nodeOf (pa : Pa) : Option NodeId :=
  match place pa with
  | .dram o => some (BitVec.ofNat 8 (0x80 + o / 256 % 2))
  | .rm r o => some (BitVec.ofNat 8 (4 * r.toNat + o / 4096 % 4))
  | .engReg e _ => some (engNode e)
  | .budReg r _ | .gapRegion r => some (BitVec.ofNat 8 (4 * r.toNat))
  | .cm gc _ | .ringWin gc _ _ | .sch gc _ | .clu gc _ | .queue gc _ _ | .fab gc _ | .gapCluster gc => some (clusterNode gc)
  | .dmem g _ | .imem g _ | .coreReg g _ => some (clusterNode (coreCluster g))
  | .hubMem _ | .hubReg _ _ | .journal _ | .gapHub => some 0x82
  | .remote _ _ => some 0x92
  | .host _ => some 0x90
  | .nowhere => none

/-! ## Default routes (R223, R243) -/

/-- Mesh position of a cluster's router (R223). -/
def meshX (gc : ClusterId) : Nat := 2 * (gc.toNat / 4 % 2) + gc.toNat % 2
/-- Mesh position of a cluster's router (R223). -/
def meshY (gc : ClusterId) : Nat := 2 * (gc.toNat / 4 % 4 / 2) + gc.toNat % 4 / 2

/-- The codes of the X hops. -/
def xHops (x1 x2 : Nat) : List Nat := List.replicate (x2 - x1) 2 ++ List.replicate (x1 - x2) 4
/-- The codes of the Y hops. -/
def yHops (y1 y2 : Nat) : List Nat := List.replicate (y2 - y1) 3 ++ List.replicate (y1 - y2) 1

/-- The hub-bound part of a route up to the gateway (R243). -/
def toHub (gc : ClusterId) : List Nat :=
  (if (meshX gc + meshY gc) % 2 = 1 then (if meshX gc % 2 = 1 then [4] else [2]) else []) ++ [5, 0]

/-- The die-bound part of a route after H0's code: the channel, one X hop where it applies, L (R243). -/
def fromHub (gc : ClusterId) : List Nat :=
  let x := meshX gc
  let y := meshY gc
  if (x + y) % 2 = 0 then [2 * y + x / 2, 0]
  else if x % 2 = 1 then [2 * y + (x - 1) / 2, 2, 0]
  else [2 * y + (x + 1) / 2, 4, 0]

/-- The codes from H0 to a hub node. -/
def h0ToHub (n : Nat) : List Nat := if n < 0x90 then [n - 0x80 + 4] else [7, n - 0x90 + 1]

/-- The codes of the default route between two nodes (R243). -/
def routeCodes (src dst : Nat) : List Nat :=
  let sc : ClusterId := BitVec.ofNat 6 src
  let dc : ClusterId := BitVec.ofNat 6 dst
  if src < 64 then
    if dst < 64 then
      if src / 16 = dst / 16 then xHops (meshX sc) (meshX dc) ++ yHops (meshY sc) (meshY dc) ++ [0]
      else toHub sc ++ [dst / 16] ++ fromHub dc
    else toHub sc ++ h0ToHub dst
  else
    if dst < 64 then [0, dst / 16] ++ fromHub dc
    else if dst < 0x90 then [0, dst - 0x80 + 4]
    else [dst - 0x90 + 1]

/-- A ROUTE field from its codes, code i in bits [3i+2 : 3i] (R228). -/
def packRoute (l : List Nat) : BitVec 24 := BitVec.ofNat 24 (packLE (l.map (fun c => (3, c))))

/-- The default route table entry of a node (R243, R262). -/
def defaultRt (src : NodeId) (dst : Nat) : RtEntry :=
  if nodeListed (BitVec.ofNat 8 dst) && decide (dst < 256) then
    { route := packRoute (routeCodes src.toNat dst), epoch := false, valid := true }
  else { route := 0, epoch := false, valid := false }

/-- The active entry that node n uses towards a destination (R239). -/
def activeRt (s : State) (n dst : NodeId) : RtEntry := get (defaultRt n) (s.ni n).active dst.toNat

/-! ## Regulator entries (R244, R246) -/

/-- Regulator entry n of an NI. -/
def Ni.reg (x : Ni) (n : Nat) : RegEntry := sget RegEntry.reset x.regs n
/-- Replaces a regulator entry. -/
def Ni.setReg (x : Ni) (n : Nat) (r : RegEntry) : Ni := { x with regs := sput RegEntry.reset x.regs n r }

/-- The entry that regulates an activity: the enabled entry that binds it, else entry 63 when enabled (R244). -/
def regFor (x : Ni) (act : ActId) : Option Nat :=
  match (List.range 63).find? (fun n => (x.reg n).en && (x.reg n).act == act) with
  | some n => some n
  | none => if (x.reg 63).en then some 63 else none

/-- The regulator charge in flits: request and response (R246). -/
def regCharge : PktType → Nat
  | .rd => 2 | .rd256 => 5 | .wr => 2 | .wr256 => 5 | .wrm => 3 | .wrP => 2 | .wr256P => 5 | .wrmP => 3
  | _ => 0

/-- The flits of a packet (R230). -/
def flitsOf : PktType → Nat
  | .wr256 | .wr256P | .rspd256 => 4
  | .wrm | .wrmP => 2
  | _ => 1

/-- A read (R233). -/
def PktType.isRead : PktType → Bool
  | .rd | .rd256 => true
  | _ => false

/-! ## Answers to an initiator -/

/-- A posted store's response (R72): anything but OK sets STFAULT; the first outcome since STFAULT was 0 is kept. -/
def storeFault (s : State) (g : CoreId) (o : Outc) : State :=
  if o = .ok then s
  else
    let c := s.core g
    if c.c.stfault then s else s.setCore g { c with c := { c.c with stfault := true, stOutc := o.code } }

/-- Hands an answer to the initiator of a request (R242, R251). -/
def deliver (s : State) (r : NiReq) (a : Ans) : State :=
  match r.ini with
  | .core g =>
    if r.lane = 3 then storeFault s g a.outc
    else
      let c := s.core g
      match c.held with
      | none => s.answer a
      | some h =>
        let v : FabRes := { outc := a.outc, flags := a.flags, data := a.data }
        s.setCore g { c with held := some { h with got := sput none h.got r.lane (some v) } }
  | _ => s.answer a

/-- A request enters its initiator's NI (R238, R239, R244): an address that no node serves and an invalid route complete ROUTE_FAULT at
once; register space goes to the management queue, a regulated activity to its entry's FIFO. -/
def niIssue (s : State) (r : NiReq) : State :=
  let n := iniNode r.ini
  match nodeOf r.addr with
  | none => deliver s r (Ans.only .routeFault)
  | some dst =>
    let e := activeRt s n dst
    if e.valid = false then deliver (tallyAdd s (niBase n + 0x128) 1) r (Ans.only .routeFault)
    else
      let q := { r with node := dst, route := e.route, epoch := e.epoch }
      let x := s.ni n
      if isRegPa r.addr then s.setNi n { x with mgt := x.mgt ++ [q] }
      else
        match regFor x r.act with
        | some i => s.setNi n (x.setReg i { x.reg i with fifo := (x.reg i).fifo ++ [q] })
        | none => s.setNi n { x with free := x.free ++ [q] }

/-- A request record before the NI fills in node and route. -/
def mkReq (ini : Initiator) (lane : Nat) (typ : PktType) (addr : Pa) (mask : BitVec 64) (data : List Byte) (act : ActId)
    (enq p2 : Bool) : NiReq :=
  { ini := ini, lane := lane, typ := typ, addr := addr, mask := mask, data := data, poison := 0, act := act, node := 0, route := 0,
    epoch := false, enqueue := enq, p2 := p2, again := false }

/-- The requests that an NI holds without an answer: waiting, in flight, or waiting for a re-send. -/
def niRequests (x : Ni) : List NiReq :=
  x.free ++ x.mgt ++ (x.regs.flatMap (fun p => p.2.fifo)) ++
    (x.slots.filterMap (fun p => match p.2.st with | .opened r _ => some r | _ => none)) ++ x.retries.map (fun h => h.r)

/-- A core's posted stores without a response (R72, FENCE). -/
def postedOpen (s : State) (g : CoreId) : Bool :=
  (niRequests (s.ni (clusterNode (coreCluster g)))).any (fun r => r.ini == .core g && r.lane == 3)

/-- The mask of bytes [o, o + n) of a 64-byte block. -/
def maskOf (o n : Nat) : BitVec 64 := BitVec.ofNat 64 ((2 ^ n - 1) * 2 ^ o)

end Sys2Proof.Machine
end

