-- ==== Sys2Proof/Machine/Sched.lean ====
section
/-! DEFINITION. The scheduler slice's operations: queue entries, enqueue and dequeue, selection, binding, ending, cancelling and
deadlines (R181 to R207, R217). -/

namespace Sys2Proof.Machine

/-! ## Entries (R149, R185) -/

/-- KIND. -/
def eKind (e : Entry) : Nat := bits e.toNat 0 4
/-- PRIO. -/
def ePrio (e : Entry) : BitVec 3 := slice e 4 3
/-- ACT. -/
def eAct (e : Entry) : ActId := slice e 8 9
/-- CLASS of a task descriptor. -/
def eClass (e : Entry) : BitVec 4 := slice e 17 4
/-- DEADLINE. -/
def eDeadline (e : Entry) : Word := slice e 32 32
/-- TAG: of a job entry at 0x10, of other entries at 0x08. -/
def eTag (e : Entry) : Word := if eKind e = 2 then slice e 128 32 else slice e 64 32
/-- CAFF. -/
def eCaff (e : Entry) : BitVec 16 := slice e 96 16
/-- AFF. -/
def eAff (e : Entry) : BitVec 8 := slice e 112 8
/-- CQID: of a job entry at 0x14, of a task descriptor at 0x12. -/
def eCqid (e : Entry) : QueueId := if eKind e = 2 then slice e 160 16 else slice e 144 16
/-- The entry forms no completion record: NOCOMPL, or a completion record itself (R187). -/
def eNoCompl (e : Entry) : Bool :=
  if eKind e = 1 then e.getLsbD 22 else if eKind e = 2 then e.getLsbD 176 else true
/-- The entry has a deadline that the slice tests (R205). -/
def eHasDl (e : Entry) : Bool := eKind e == 1 && !e.getLsbD 21

/-- A task descriptor's reserved fields are 0, AFF is not 0 and ENTRY is aligned (R186). -/
def taskOk (e : Entry) : Bool :=
  !e.getLsbD 7 && bits e.toNat 23 9 == 0 && bits e.toNat 120 8 == 0 && bits e.toNat 112 8 != 0 && bits e.toNat 128 4 == 0

/-- A record of R162 for an entry: PRIO, ACT, DEADLINE and TAG copied. -/
def mkRecord (e : Entry) (o : Outc) (engid step origin : Nat) (flags outlen result tend : Word) : Entry :=
  BitVec.ofNat 256 (packLE [(4, 3), (3, (ePrio e).toNat), (1, 0), (9, (eAct e).toNat), (15, 0), (32, (eDeadline e).toNat),
    (32, (eTag e).toNat), (5, o.code.toNat), (3, 0), (8, engid), (4, step), (4, 0), (8, origin), (32, flags.toNat),
    (32, outlen.toNat), (32, result.toNat), (32, tend.toNat)])

/-- The record of a task (R200, R202); none under NOCOMPL. -/
def taskRecord (s : State) (t : Task) (o : Outc) (result : Word) : Option RecOut :=
  if eNoCompl t.raw then none
  else some { cqid := eCqid t.raw,
              record := mkRecord t.raw o 0 0 1 0 (BitVec.ofNat 32 (min t.charged 0xFFFFFFFF)) result s.tick }

/-! ## Tally counters of a slice -/

/-- A slice counter. -/
def schTal (s : State) (gc : ClusterId) (off n : Nat) : State := tallyAdd s (schBase gc + off) n
/-- The key of a per-queue counter; off is its register offset (0x400 to 0x4F8). -/
def qtalKey (q : QueueId) (off : Nat) : Nat := 2 ^ 48 + q.toNat * 0x200 + (off - 0x400)
/-- A per-queue counter (R217). -/
def qTal (s : State) (q : QueueId) (off n : Nat) : State := tallyAdd s (qtalKey q off) n

/-- The bin of a value under a scale (R217, R261). -/
def histBin (scale v : Nat) : Nat :=
  if v < 2 ^ scale then 0 else min 15 (Nat.log2 (v / 2 ^ scale) + 1)

/-- Counts an entry that leaves by binding or dequeue: OUT and its waiting time (R217). -/
def countOut (s : State) (q : QueueId) (at0 : Word) : State :=
  let b := histBin (s.slice (queueCluster q)).histScale.toNat (s.tick - at0).toNat
  qTal (qTal s q 0x408 1) q (0x480 + 8 * b) 1

/-! ## Queue order (R181, R182, R194) -/

/-- Deadline a is earlier than b (R182). -/
def dlEarlier (a b : Word) : Bool := decide (2 ^ 31 ≤ (a - b).toNat)

/-- Entry a leaves before entry b in a queue of this type; entries are given in arrival order. -/
def leavesFirst (typ : BitVec 2) (a b : QEnt) : Bool :=
  if typ = 1 then
    decide ((ePrio b.e).toNat < (ePrio a.e).toNat) || ((ePrio a.e) == (ePrio b.e) && decide (a.seq < b.seq))
  else if typ = 2 then dlEarlier (eDeadline a.e) (eDeadline b.e) || (eDeadline a.e == eDeadline b.e && decide (a.seq < b.seq))
  else decide (a.seq < b.seq)

/-- The head of a queue: the live entry that leaves first (R194, R201). -/
def headOf (q : Queue) : Option QEnt :=
  (q.ents.filter (fun x => !x.dead)).foldl (fun best x =>
    match best with
    | none => some x
    | some b => if leavesFirst q.typ x b then some x else some b) none

/-- Removes the entry with an arrival number. -/
def removeSeq (q : Queue) (n : Nat) : Queue := { q with ents := q.ents.filter (fun x => x.seq != n) }

/-- The queue is full: DEPTH = CAP (R192, R201); a disabled queue is not (SCH_QSTAT.FULL is 0 at reset, where CAP is 0). -/
def queueFull (q : Queue) : Bool := q.en && decide (q.cap.toNat ≤ q.ents.length)

/-- Takes the head of a queue; poisoned entries met on the way are removed, counted and reported (R183). -/
def takeHead (s : State) (qid : QueueId) : Nat → Option QEnt × State
  | 0 => (none, s)
  | fuel + 1 =>
    let gc := queueCluster qid
    let x := s.slice gc
    let q := x.queue (queueLocal qid)
    match headOf q with
    | none => (none, s)
    | some h =>
      let s1 := s.setSlice gc (x.setQueue (queueLocal qid) (removeSeq q h.seq))
      if h.bad then
        let d : Word := BitVec.ofNat 32 (packLE [(16, qid.toNat), (4, 2)])
        takeHead (report (schTal s1 gc 0x268 1) (srcCluster gc 2) d) qid fuel
      else (some h, s1)

/-- Takes the head of a queue. -/
def takeFrom (s : State) (qid : QueueId) : Option QEnt × State :=
  takeHead s qid (((s.slice (queueCluster qid)).queue (queueLocal qid)).ents.length + 1)

/-! ## Enqueue and dequeue (R186, R188 to R193) -/

/-- Where an enqueue comes from (R193): a core of the cluster, the fabric of this package, or the cascade. -/
inductive EnqFrom where
  | core (g : CoreId)
  | fabric
  | cascade
  deriving DecidableEq, Repr

/-- The answer to an enqueue: OK, an outcome, or full (a stall or RETRY). -/
inductive EnqAns where
  | accepted
  | full
  | refused (o : Outc)
  deriving DecidableEq, Repr

/-- The checks of an entry (R186): true when refused with BAD_DESCRIPTOR. -/
def badEntry (cons : BitVec 2) (e : Entry) : Bool :=
  let k := eKind e
  (k == 0 || decide (4 ≤ k)) || (cons == 0 && (k == 2 || (k == 1 && !taskOk e)))

/-- An enqueue at the ENTRY port (R186, R192, R193). -/
def enqueue (s : State) (src : EnqFrom) (qid : QueueId) (e : Entry) : EnqAns × State :=
  let gc := queueCluster qid
  let x := s.slice gc
  let q := x.queue (queueLocal qid)
  if q.en = false then (.refused .notPermitted, schTal s gc 0x218 1)
  else if src = .cascade ∧ q.remote = false then (.refused .notPermitted, s)
  else if q.actchk ∧ eAct e ≠ q.act then (.refused .notPermitted, schTal s gc 0x218 1)
  else if badEntry q.cons e then (.refused .badDescriptor, schTal s gc 0x218 1)
  else if queueFull q then
    (if src = .cascade then .refused .queueFull else .full, schTal s gc 0x210 1)
  else
    let ent : QEnt := { e := e, seq := x.seq, at0 := s.tick, dead := false, bad := false }
    let x1 := x.setQueue (queueLocal qid) { q with ents := q.ents ++ [ent] }
    (.accepted, qTal (s.setSlice gc { x1 with seq := x.seq + 1 }) qid 0x400 1)

/-- A dequeue at the ENTRY port (R188, R189, R192): 32 zero bytes from an empty queue. -/
def dequeue (s : State) (qid : QueueId) : Ans × State :=
  let q := (s.slice (queueCluster qid)).queue (queueLocal qid)
  if q.en = false ∨ q.cons ≠ 2 then (Ans.only .notPermitted, s)
  else
    match takeFrom s qid with
    | (none, s1) => ({ outc := .ok, flags := 0, data := List.replicate 32 0, poison := [] }, s1)
    | (some h, s1) => ({ outc := .ok, flags := 0, data := bytesOfNat 32 h.e.toNat, poison := [] }, countOut s1 qid h.at0)

/-! ## Core states of a slice (R194) -/

/-- The Assayer fences the core: its own unit, its cluster or its region (R424), or safe state (R427). -/
def coreFenced (s : State) (g : CoreId) : Bool :=
  s.asy.safe || s.asy.fences.any (fun f =>
    f.unit == .core g || f.unit == .cluster (coreCluster g) || f.unit == .region (clusterRegion (coreCluster g)))

/-- COREEN and no fence: the slice may give the core tasks. -/
def coreAllowed (s : State) (gc : ClusterId) (k : BitVec 3) : Bool :=
  (s.slice gc).coreen.getLsbD k.toNat && !coreFenced s (coreOf gc k)

/-- SCH_COREk_STAT.STATE (R194, R219): 0 OFF, 1 IDLE, 2 BOUND, 3 RUNNING, 4 RECLAIM. -/
def schedStateCode (s : State) (gc : ClusterId) (k : BitVec 3) : Nat :=
  match ((s.slice gc).score k).st with
  | .free => if coreAllowed s gc k then 1 else 0
  | .bound => 2
  | .running => 3
  | .reclaim => 4

/-- The core is IDLE. -/
def coreIdle (s : State) (gc : ClusterId) (k : BitVec 3) : Bool :=
  ((s.slice gc).score k).st == .free && coreAllowed s gc k

/-- A class is PREEMPTIBLE. -/
def clsPreempt (x : Slice) (c : BitVec 4) : Bool := (sget 0 x.cls c.toNat).getLsbD 0
/-- A class is KILLABLE. -/
def clsKill (x : Slice) (c : BitVec 4) : Bool := (sget 0 x.cls c.toNat).getLsbD 1

/-! ## Candidates (R194, R195) -/

/-- Where a candidate stands. -/
inductive CandSrc where
  | queue (lq : BitVec 10)
  | susp (k : BitVec 3)
  | steal
  deriving DecidableEq, Repr

/-- A candidate for a core. -/
structure Cand where
  src : CandSrc
  task : Task
  at0 : Word
  aff : BitVec 8
  deriving DecidableEq, Repr

/-- The task that a queue entry becomes when it is bound (R187, R194). -/
def taskOf (x : Slice) (gc : ClusterId) (lq : BitVec 10) (h : QEnt) : Task :=
  let q := x.queue lq
  { raw := h.e, qid := queueOf gc lq, level := if q.typ = 1 then ePrio h.e else q.qprio,
    cls := if eKind h.e = 1 then eClass h.e else q.recClass, seq := h.seq, charged := 0, stolen := false, home := gc,
    noticed := false, missed := false, budget := false, dead := false }

/-- The candidate of an enabled CORES queue: its head. -/
def queueCand (x : Slice) (gc : ClusterId) (lq : BitVec 10) : Option Cand :=
  let q := x.queue lq
  if q.en = false ∨ q.cons ≠ 0 then none
  else (headOf q).map (fun h =>
    { src := .queue lq, task := taskOf x gc lq h, at0 := h.at0,
      aff := if eKind h.e = 1 then eAff h.e else q.recAff })

/-- The queues of a slice that hold entries. -/
def busyQueues (x : Slice) : List (BitVec 10) := x.queues.map (fun p => BitVec.ofNat 10 p.1)

/-- All candidates of a slice: suspended tasks first, then queue heads in ascending queue number, then the steal slot. -/
def candidates (x : Slice) (gc : ClusterId) : List Cand :=
  (x.cores.flatMap (fun p => (p.2.susp.filter (fun t => !t.dead)).map (fun t =>
    ({ src := .susp (BitVec.ofNat 3 p.1), task := t, at0 := 0, aff := BitVec.ofNat 8 (2 ^ p.1) } : Cand)))) ++
  (busyQueues x).filterMap (queueCand x gc) ++
  (match x.stealSlot with
    | none => []
    | some t => [{ src := .steal, task := t, at0 := 0, aff := eAff t.raw }])

/-- The order of R195: a comes before b. -/
def candBefore (a b : Cand) : Bool :=
  let la := a.task.level.toNat
  let lb := b.task.level.toNat
  if la ≠ lb then decide (lb < la)
  else
    let da := eHasDl a.task.raw
    let db := eHasDl b.task.raw
    if da ≠ db then da
    else if da ∧ eDeadline a.task.raw ≠ eDeadline b.task.raw then dlEarlier (eDeadline a.task.raw) (eDeadline b.task.raw)
    else decide (a.task.seq < b.task.seq)

/-- Candidates in the order of R195. -/
def sortCands (l : List Cand) : List Cand :=
  l.foldl (fun acc c =>
    let (lo, hi) := acc.span (fun x => !candBefore c x)
    lo ++ c :: hi) []

/-- The lowest-numbered eligible core that a candidate may take (R194, R195). -/
def eligibleCore (s : State) (gc : ClusterId) (c : Cand) : Option (BitVec 3) :=
  ((List.range 8).map (fun k => BitVec.ofNat 3 k)).find? (fun k =>
    c.aff.getLsbD k.toNat && coreIdle s gc k &&
      (c.src == .susp k || decide (((s.slice gc).score k).susp.length < 8)))

/-- The candidate's activity is exhausted in the cluster (R211). -/
def candExh (x : Slice) (c : Cand) : Bool := (x.hold (eAct c.task.raw)).exh

/-- The first dispatchable candidate and its core (R194, R195). -/
def pickBind (s : State) (gc : ClusterId) : Option (Cand × BitVec 3) :=
  let x := s.slice gc
  (sortCands (candidates x gc)).findSome? (fun c =>
    if candExh x c then none else (eligibleCore s gc c).map (fun k => (c, k)))

/-- The core that a candidate pre-empts (R198): among those it may take, running a pre-emptible task of a lower level, with room in the
suspend set and no PREEMPT pending, the lowest level, then the lowest number. -/
def preemptCore (s : State) (gc : ClusterId) (c : Cand) : Option (BitVec 3) :=
  let x := s.slice gc
  let ok : BitVec 3 → Bool := fun k =>
    let y := x.score k
    c.aff.getLsbD k.toNat && y.st == .running && y.next.isNone && y.preempt.isNone && decide (y.susp.length < 8) &&
      (match y.cur with
        | none => false
        | some t => clsPreempt x t.cls && decide (t.level.toNat < c.task.level.toNat))
  let lvl : BitVec 3 → Nat := fun k => match (x.score k).cur with | some t => t.level.toNat | none => 0
  (((List.range 8).map (fun k => BitVec.ofNat 3 k)).filter ok).foldl (fun best k =>
    match best with
    | none => some k
    | some b => if lvl k < lvl b then some k else some b) none

/-- The first candidate that pre-empts, and the core (R198). -/
def pickPreempt (s : State) (gc : ClusterId) : Option (Cand × BitVec 3) :=
  let x := s.slice gc
  (sortCands (candidates x gc)).findSome? (fun c =>
    if candExh x c || (eligibleCore s gc c).isSome then none else (preemptCore s gc c).map (fun k => (c, k)))

/-- Takes a candidate out of where it stands. -/
def takeCand (s : State) (gc : ClusterId) (c : Cand) : State :=
  let x := s.slice gc
  match c.src with
  | .queue lq =>
    countOut (s.setSlice gc (x.setQueue lq (removeSeq (x.queue lq) c.task.seq))) (queueOf gc lq) c.at0
  | .susp k =>
    let y := x.score k
    s.setSlice gc (x.setScore k { y with susp := y.susp.filter (fun t => t.seq != c.task.seq) })
  | .steal => s.setSlice gc { x with stealSlot := none }

/-- CORE_TVAL of DISPATCH and PREEMPT (R197). -/
def dispatchTval (t : Task) (resume budget : Bool) : Word :=
  BitVec.ofNat 32 (packLE [(16, if budget then 0 else t.qid.toNat), (1, b2n resume), (1, b2n t.stolen), (1, b2n budget)])

/-- Delivers a descriptor to CORE_TDESC. -/
def setTdesc (s : State) (g : CoreId) (e : Entry) : State :=
  s.updCore g (fun c => { c with c := { c.c with tdesc := e } })

/-- Removes entries at the head of the chosen queue that read poisoned (R183); true when one was there. -/
def candBad (s : State) (gc : ClusterId) (c : Cand) : Bool :=
  match c.src with
  | .queue lq => (((s.slice gc).queue lq).ents.find? (fun x => x.seq == c.task.seq)).any (fun x => x.bad)
  | _ => false

/-- Binds a candidate to an idle core and raises DISPATCH (R195, R197). -/
def bindTask (s : State) (gc : ClusterId) (c : Cand) (k : BitVec 3) : State :=
  let s1 := takeCand s gc c
  let x := s1.slice gc
  let resume := c.src == .susp k
  let y := { x.score k with st := .bound, cur := some c.task, next := none, resume := resume, preempt := none,
                            dispatch := some (dispatchTval c.task resume false) }
  setTdesc (schTal (s1.setSlice gc (x.setScore k y)) gc 0x200 1) (coreOf gc k) c.task.raw

/-- Binds a candidate to a running core and raises PREEMPT (R198). -/
def bindPreempt (s : State) (gc : ClusterId) (c : Cand) (k : BitVec 3) : State :=
  let s1 := takeCand s gc c
  let x := s1.slice gc
  let resume := c.src == .susp k
  let y := { x.score k with next := some c.task, resume := resume, preempt := some (dispatchTval c.task resume false) }
  schTal (schTal (s1.setSlice gc (x.setScore k y)) gc 0x200 1) gc 0x208 1

/-! ## Records (R200, R201) -/

/-- A record formed by CANCEL or a deadline: it enters the buffer, or waits and its task or entry keeps its storage; true when
it waits (R201). -/
def emitRecord (x : Slice) (r : Option RecOut) (h : Holder) : Bool × Slice :=
  match r with
  | none => (false, x)
  | some o =>
    if x.recbuf.length < 16 ∧ x.waitRecs = [] then (false, { x with recbuf := x.recbuf ++ [o] })
    else (true, { x with waitRecs := x.waitRecs ++ [{ out := o, holder := h }] })

/-- There is room for the record of an END (R201). -/
def recordRoom (x : Slice) : Bool := decide (x.recbuf.length < 16) && x.waitRecs.isEmpty

/-- The task or entry of a waiting record leaves its storage once the record enters the buffer (R201). -/
def releaseHolder (x : Slice) : Holder → Slice
  | .queued lq n => x.setQueue lq (removeSeq (x.queue lq) n)
  | .suspended k n => x.setScore k { x.score k with susp := (x.score k).susp.filter (fun t => t.seq != n) }
  | .bound k => x.setScore k { x.score k with st := .free, cur := none, dead := false }
  | .killed k =>
    let y := x.score k
    if y.ended then x.setScore k { y with st := .free, cur := none, dead := false, ended := false, killed := false, notice := false }
    else x.setScore k { y with dead := false }
  | .none => x

/-- Moves waiting records into the buffer while there is room (R201). -/
def refillRecords : Nat → Slice → Slice
  | 0, x => x
  | fuel + 1, x =>
    match x.waitRecs with
    | [] => x
    | w :: rest =>
      if x.recbuf.length < 16 then
        refillRecords fuel (releaseHolder { x with recbuf := x.recbuf ++ [w.out], waitRecs := rest } w.holder)
      else x

/-- A stolen task's record goes back to the victim when the task completes (R215). -/
def returnStolen (x : Slice) (t : Task) : Slice :=
  if t.stolen then { x with back := x.back ++ [(t.home, eTag t.raw, t.qid)] } else x

/-! ## Ending a task (R200, R203) -/

/-- After a task ended: a task bound with PREEMPT takes the idle core with DISPATCH (R207), else the core is idle. -/
def afterEnd (s : State) (gc : ClusterId) (k : BitVec 3) (x : Slice) (y : SCore) : State :=
  let y0 := { y with notice := false, killed := false, noticePend := none, preempt := none, resume := false, ended := false }
  match y.next with
  | some t =>
    let y1 := { y0 with st := .bound, cur := some t, next := none, resume := y.resume,
                        dispatch := some (dispatchTval t y.resume false) }
    setTdesc (s.setSlice gc (x.setScore k y1)) (coreOf gc k) t.raw
  | none => s.setSlice gc (x.setScore k { y0 with st := .free, cur := none })

/-- The answer to a command at a CONTROL port: done, or the write stalls for record space. -/
inductive CmdAns where
  | done
  | stall
  | refused (o : Outc)
  deriving DecidableEq, Repr

/-- END from core k of a cluster (R200, R203). -/
def endCmd (s : State) (gc : ClusterId) (k : BitVec 3) (result : Word) : CmdAns × State :=
  let x := s.slice gc
  let y := x.score k
  match y.st, y.cur with
  | .running, some t =>
    let o : Outc := if t.missed then .deadlineMissed else .ok
    match taskRecord s t o result with
    | none => (.done, afterEnd s gc k (returnStolen x t) y)
    | some r =>
      if recordRoom x then (.done, afterEnd s gc k (returnStolen { x with recbuf := x.recbuf ++ [r] } t) y)
      else (.stall, s)
  | .reclaim, _ =>
    if y.dead then (.done, s.setSlice gc (x.setScore k { y with ended := true }))
    else (.done, afterEnd s gc k x y)
  | _, _ => (.done, schTal s gc 0x258 1)

/-! ## Cancelling and killing (R202 to R204) -/

/-- Kills the running task of core k with an outcome (R203, R206). -/
def killRunning (s : State) (gc : ClusterId) (k : BitVec 3) (t : Task) (o : Outc) : State :=
  let x := s.slice gc
  let (held, x1) := emitRecord (returnStolen x t) (taskRecord s t o 0) (.killed k)
  s.setSlice gc (x1.setScore k { x1.score k with st := .reclaim, notice := true, killed := true, noticePend := some (eTag t.raw),
                                                 preempt := none, dead := held, ended := false })

/-- Removes the task bound to core k: DISPATCH is withdrawn (R202). -/
def dropBound (s : State) (gc : ClusterId) (k : BitVec 3) (t : Task) (o : Outc) : State :=
  let x := s.slice gc
  let (held, x1) := emitRecord (returnStolen x t) (taskRecord s t o 0) (.bound k)
  let y := x1.score k
  s.setSlice gc (x1.setScore k (if held then { y with dispatch := none, dead := true }
    else { y with st := .free, cur := none, dispatch := none, resume := false }))

/-- Removes the task bound to core k with PREEMPT: PREEMPT is withdrawn (R202). -/
def dropNext (s : State) (gc : ClusterId) (k : BitVec 3) (t : Task) (o : Outc) : State :=
  let x := s.slice gc
  let (_, x1) := emitRecord (returnStolen x t) (taskRecord s t o 0) .none
  s.setSlice gc (x1.setScore k { x1.score k with next := none, preempt := none, resume := false })

/-- Removes a suspended task (R202, R204, R206). -/
def dropSusp (s : State) (gc : ClusterId) (k : BitVec 3) (t : Task) (o : Outc) : State :=
  let x := s.slice gc
  let (held, x1) := emitRecord (returnStolen x t) (taskRecord s t o 0) (.suspended k t.seq)
  let y := x1.score k
  let mark := fun (u : Task) => if u.seq = t.seq then { u with dead := true } else u
  s.setSlice gc (x1.setScore k { y with susp := if held then y.susp.map mark else y.susp.filter (fun u => u.seq != t.seq) })

/-- A record for a queued entry that is removed; the engine fields of a job entry's record are free (log 9). -/
def queuedRecord (s : State) (gc : ClusterId) (lq : BitVec 10) (h : QEnt) (o : Outc) : Option RecOut × State :=
  if eNoCompl h.e then (none, s)
  else if eKind h.e = 2 then
    let (n, s1) := takeFree s
    (some { cqid := eCqid h.e, record := mkRecord h.e o (Config.free8 n).toNat (Config.free16 n).toNat 0 0 0 0 s.tick }, s1)
  else (taskRecord s (taskOf (s.slice gc) gc lq h) o 0, s)

/-- Removes a queued entry with an outcome (R202, R206). -/
def dropQueued (s : State) (gc : ClusterId) (lq : BitVec 10) (h : QEnt) (o : Outc) : State :=
  let (r, s0) := queuedRecord s gc lq h o
  let (held, x1) := emitRecord (s0.slice gc) r (.queued lq h.seq)
  let q := x1.queue lq
  let mark := fun (u : QEnt) => if u.seq = h.seq then { u with dead := true } else u
  s0.setSlice gc (x1.setQueue lq (if held then { q with ents := q.ents.map mark } else removeSeq q h.seq))

/-- A cancel notice to a running task of a class that is not killable (R203). -/
def noticeRunning (s : State) (gc : ClusterId) (k : BitVec 3) (t : Task) (missed : Bool) : State :=
  let x := s.slice gc
  let y := x.score k
  s.setSlice gc (x.setScore k { y with notice := true, noticePend := some (eTag t.raw),
                                       cur := some { t with missed := t.missed || missed } })

/-- A task matches a cancel: same tag, same queue. -/
def matchTask (q : QueueId) (tag : Word) (t : Task) : Bool := t.qid == q && eTag t.raw == tag && !t.dead

/-- Cancels what core k holds of a tag (R202 to R204); counts what it met. -/
def cancelCore (s : State) (gc : ClusterId) (q : QueueId) (tag : Word) (k : BitVec 3) : Nat × State :=
  let x := s.slice gc
  let y := x.score k
  let (n1, s1) : Nat × State := match y.st, y.cur with
    | .bound, some t => if matchTask q tag t && !y.dead then (1, dropBound s gc k t .cancelled) else (0, s)
    | .running, some t =>
      if matchTask q tag t then
        (1, if clsKill x t.cls then killRunning s gc k t .cancelled else noticeRunning s gc k t false)
      else (0, s)
    | _, _ => (0, s)
  let (n2, s2) : Nat × State := match y.next with
    | some t => if matchTask q tag t then (n1 + 1, dropNext s1 gc k t .cancelled) else (n1, s1)
    | none => (n1, s1)
  y.susp.foldl (fun (a : Nat × State) t =>
    if matchTask q tag t then
      if clsKill x t.cls then (a.1 + 1, dropSusp a.2 gc k t .cancelled)
      else
        let z := a.2.slice gc
        let w := z.score k
        let mark := fun (u : Task) => if u.seq = t.seq then { u with noticed := true } else u
        (a.1 + 1, a.2.setSlice gc (z.setScore k { w with susp := w.susp.map mark }))
    else a) (n2, s2)

/-- Cancels the engine jobs that run from a queue with a tag (R159). -/
def cancelEngines (s : State) (q : QueueId) (tag : Word) : Nat × State :=
  let r := clusterRegion (queueCluster q)
  (List.range 16).foldl (fun (a : Nat × State) i =>
    let e : EngId := BitVec.ofNat 8 (16 * r.toNat + i)
    let x := a.2.engine e
    match x.job with
    | none => a
    | some j =>
      if x.qsel = q ∧ eTag j.entry = tag ∧ (x.st = .setup ∨ x.st = .run ∨ x.st = .writeback) ∧ j.abort = none then
        (a.1 + 1, a.2.setEngine e { x with job := some { j with abort := some .cancelled, abortAt := a.2.cycle } })
      else a) (0, s)

/-- CANCEL for a tag at a queue (R202): queued entries, bound, running and suspended tasks, the steal slot's records, running engine
jobs; a cancel that finds nothing is a miss. -/
def cancelCmd (s : State) (q : QueueId) (tag : Word) : State :=
  let gc := queueCluster q
  let lq := queueLocal q
  let (n0, s0) := ((s.slice gc).queue lq).ents.foldl (fun (a : Nat × State) h =>
    if eTag h.e = tag ∧ h.dead = false then (a.1 + 1, dropQueued a.2 gc lq h .cancelled) else a) (0, s)
  let (n1, s1) := (List.range 8).foldl (fun (a : Nat × State) k =>
    let (n, t) := cancelCore a.2 gc q tag (BitVec.ofNat 3 k)
    (a.1 + n, t)) (n0, s0)
  let x := s1.slice gc
  let hit := fun (r : Stolen) => r.tag == tag && r.qid == q
  let n2 := (x.stolen.filter hit).length
  let mark := fun (r : Stolen) => if hit r then { r with cancelled := true } else r
  let s2 := s1.setSlice gc { x with stolen := x.stolen.map mark }
  let (n3, s3) := if (x.queue lq).cons = 1 then cancelEngines s2 q tag else (0, s2)
  let n := n1 + n2 + n3
  if n = 0 then schTal s3 gc 0x228 1 else qTal s3 q 0x420 n

/-- A command written to a CONTROL port (R190): END only from a core of the cluster; CANCEL from any source that may enqueue. -/
def controlWrite (s : State) (src : EnqFrom) (qid : QueueId) (e : Entry) : CmdAns × State :=
  let cmd := bits e.toNat 0 4
  let q := (s.slice (queueCluster qid)).queue (queueLocal qid)
  if cmd = 1 then
    match src with
    | .core g =>
      if coreCluster g = queueCluster qid then endCmd s (queueCluster qid) (coreIndex g) (slice e 32 32)
      else (.refused .notPermitted, s)
    | _ => (.refused .notPermitted, s)
  else if cmd = 2 then
    if src = .cascade ∧ q.remote = false then (.refused .notPermitted, s)
    else (.done, cancelCmd s qid (slice e 64 32))
  else (.refused .badDescriptor, s)

/-- The status read at a CONTROL port (R191); the core fields are 0 for a fabric read. -/
def statusRead (s : State) (src : EnqFrom) (qid : QueueId) : List Byte :=
  let gc := queueCluster qid
  let x := s.slice gc
  let q := x.queue (queueLocal qid)
  let w0 := [(13, q.ents.length), (3, 0), (1, b2n (queueFull q)), (1, b2n q.en), (2, q.typ.toNat), (2, q.cons.toNat), (10, 0)]
  let cw : List (Nat × Nat) := match src with
    | .core g =>
      let y := x.score (coreIndex g)
      [(3, schedStateCode s gc (coreIndex g)), (1, b2n y.notice), (1, b2n y.killed), (3, 0), (4, y.susp.length), (20, 0),
        (32, match y.cur with | some t => (eTag t.raw).toNat | none => 0)]
    | _ => [(64, 0)]
  bytesOfNat 32 (packLE (w0 ++ cw))

/-! ## Deadlines (R205, R206) -/

/-- Reports a deadline miss and counts it (R206, R508). -/
def missReport (s : State) (gc : ClusterId) (q : QueueId) (k : Option (BitVec 3)) : State :=
  let d : Word := BitVec.ofNat 32 (packLE [(16, q.toNat), (3, match k with | some i => i.toNat | none => 0), (1, b2n k.isSome)])
  qTal (schTal (report s (srcCluster gc 3) d) gc 0x220 1) q 0x418 1

/-- A task's deadline is reached. -/
def taskLate (s : State) (t : Task) : Bool := eHasDl t.raw && tickReached s.tick (eDeadline t.raw)

/-- A reached deadline of the head of a queue (R205, R206). -/
def lateQueued (s : State) (gc : ClusterId) (lq : BitVec 10) : State :=
  let q := (s.slice gc).queue lq
  match headOf q with
  | none => s
  | some h =>
    if q.en ∧ eHasDl h.e ∧ tickReached s.tick (eDeadline h.e) then
      missReport (dropQueued s gc lq h .deadlineMissed) gc (queueOf gc lq) none
    else s

/-- A reached deadline of the task bound to a core, with DISPATCH or with PREEMPT (R206). -/
def lateBound (s : State) (gc : ClusterId) (k : BitVec 3) : State :=
  let y := (s.slice gc).score k
  match y.st, y.cur with
  | .bound, some t =>
    if taskLate s t ∧ y.dead = false then missReport (dropBound s gc k t .deadlineMissed) gc t.qid (some k) else s
  | _, _ =>
    match y.next with
    | some t => if taskLate s t then missReport (dropNext s gc k t .deadlineMissed) gc t.qid (some k) else s
    | none => s

/-- A reached deadline of suspended task i of a core (R206). -/
def lateSusp (s : State) (gc : ClusterId) (k i : BitVec 3) : State :=
  match ((s.slice gc).score k).susp[i.toNat]? with
  | none => s
  | some t =>
    if taskLate s t ∧ t.dead = false then missReport (dropSusp s gc k t .deadlineMissed) gc t.qid (some k) else s

/-- A reached deadline of a running task: killed, or noticed once (R206). -/
def lateRunning (s : State) (gc : ClusterId) (k : BitVec 3) : State :=
  let x := s.slice gc
  let y := x.score k
  match y.st, y.cur with
  | .running, some t =>
    if taskLate s t ∧ t.missed = false then
      missReport (if clsKill x t.cls then killRunning s gc k t .deadlineMissed else noticeRunning s gc k t true) gc t.qid (some k)
    else s
  | _, _ => s

/-! ## A core takes DISPATCH or PREEMPT (R197, R199, R204) -/

/-- The core's current task is noticed on resumption (R204). -/
def resumeNotice (y : SCore) (t : Task) : SCore :=
  if t.noticed then { y with notice := true, noticePend := some (eTag t.raw), cur := some { t with noticed := false } } else y

/-- DISPATCH taken: the core runs the bound task (R197, R218). -/
def takeDispatch (s : State) (g : CoreId) : State :=
  let gc := coreCluster g
  let k := coreIndex g
  let x := s.slice gc
  let y := x.score k
  match y.cur with
  | none => s
  | some t =>
    let y1 := resumeNotice { y with st := .running, dispatch := none } t
    schTal (s.setSlice gc (x.setScore k y1)) gc (0x640 + 8 * k.toNat) 1

/-- PREEMPT taken: the running task is suspended; the incoming task runs, or the core is idle after a budget suspension (R199,
R211). -/
def takePreempt (s : State) (g : CoreId) : State :=
  let gc := coreCluster g
  let k := coreIndex g
  let x := s.slice gc
  let y := x.score k
  let susp := match y.cur with | some t => y.susp ++ [{ t with budget := y.next.isNone, noticed := t.noticed || y.notice }] | none => y.susp
  match y.next with
  | some t =>
    let y1 := resumeNotice { y with st := .running, cur := some t, next := none, preempt := none, susp := susp, notice := false,
                                    noticePend := none } t
    schTal (setTdesc (s.setSlice gc (x.setScore k y1)) g t.raw) gc (0x640 + 8 * k.toNat) 1
  | none =>
    s.setSlice gc (x.setScore k { y with st := .free, cur := none, preempt := none, susp := susp, notice := false,
                                         noticePend := none })

end Sys2Proof.Machine
end

