-- ==== Sys2Proof/Machine/CoreCtl.lean ====
section
/-! DEFINITION. A core's control registers (R48, R97), trap and interrupt entry and return (R76 to R81). -/

namespace Sys2Proof.Machine

/-! ## Control registers (R48) -/

/-- A control register's access: read-only, and its minimum privilege; none for a number that neither R48 nor R97 lists. -/
def cregInfo (n : Nat) : Option (Bool × Nat) :=
  if n ≤ 0x02 then some (false, 2)
  else if n = 0x03 then some (true, 2)
  else if n ≤ 0x05 then some (false, 1)
  else if n = 0x06 then some (false, 0)
  else if n = 0x07 then none
  else if n ≤ 0x0B then some (false, n % 2)
  else if n ≤ 0x0F then some (true, n % 2)
  else if n ≤ 0x11 then some (false, n % 2)
  else if n < 0x14 then none
  else if n ≤ 0x19 then some (false, 0)
  else if n ≤ 0x1F then some (false, 1)
  else if n ≤ 0x2C then some (false, 1)
  else if n < 0x30 then none
  else if n ≤ 0x39 then some (true, 2)
  else if n = 0x3A then some (false, 1)
  else if n < 0x40 then none
  else if n ≤ 0x48 then some (false, 1)
  else none

/-- CORE_PSTAT: privilege in [1:0], IE in [2]. -/
def pstat (c : Core) : BitVec 3 := BitVec.ofNat 3 (c.c.priv.toNat + 4 * b2n c.c.ie)

/-- CORE_CPEN as read: the busy bits copy the slots (R95, R97). -/
def cpenRead (c : Core) : Word :=
  BitVec.ofNat 32 (packLE [(16, c.c.cpen.toNat), (1, b2n (!c.cp0.pend.isEmpty)), (1, b2n (!c.cp1.pend.isEmpty))])

/-- CORE_CPEN after a write: enables and LATEN bits set, dirty bits cleared by 1; `keepP0` for a write by P1 (R97). -/
def cpenWrite (old v : Word) (keepP0 : Bool) : Word :=
  let rw : Word := if keepP0 then 0x3066 else 0x3077
  (old &&& ~~~rw &&& ~~~(v &&& 0x300)) ||| (v &&& rw)

/-- A word of a loop shadow set (R48). -/
def lshWord (l : Loops) (i : Nat) : Word :=
  let h := fun (t : Sparse (BitVec 16)) n => (sget 0 t n).toNat
  let pair := fun t => BitVec.ofNat 32 (packLE [(16, h t (2 * (i % 2))), (16, h t (2 * (i % 2) + 1))])
  if i < 2 then pair l.lc
  else if i = 2 then BitVec.ofNat 32 (packLE [(3, l.depth.toNat), (1, 0), (12, h l.lb 0 / 16), (16, h l.lb 1)])
  else if i = 3 then pair l.lb
  else pair l.le

/-- Bits [3:0] of a bundle address cleared. -/
def bundleAlign (a : BitVec 16) : BitVec 16 := a &&& 0xFFF0

/-- The depth after a write of d: 5, 6 and 7 are reserved and leave it (R48). -/
def depthWrite (old d : BitVec 3) : BitVec 3 := if 4 < d.toNat then old else d

/-- A loop shadow set after a write of word i. -/
def lshWrite (l : Loops) (i : Nat) (v : Word) : Loops :=
  let lo : BitVec 16 := slice v 0 16
  let hi : BitVec 16 := slice v 16 16
  let two := fun (t : Sparse (BitVec 16)) (a b : BitVec 16) => sput 0 (sput 0 t (2 * (i % 2)) a) (2 * (i % 2) + 1) b
  if i < 2 then { l with lc := two l.lc lo hi }
  else if i < 4 then
    { l with lb := two l.lb (bundleAlign lo) (bundleAlign hi),
             depth := if i = 2 then depthWrite l.depth (slice v 0 3) else l.depth }
  else { l with le := two l.le (bundleAlign lo) (bundleAlign hi) }

/-- A loop register of numbers 0x20 to 0x2C. -/
def loopReg (l : Loops) (i : Nat) : Word :=
  if i < 4 then (sget 0 l.lc i).setWidth 32
  else if i < 8 then (sget 0 l.lb (i - 4)).setWidth 32
  else if i < 12 then (sget 0 l.le (i - 8)).setWidth 32
  else l.depth.setWidth 32

/-- The loop registers after a write of number 0x20 + i. -/
def loopRegWrite (l : Loops) (i : Nat) (v : Word) : Loops :=
  let h : BitVec 16 := slice v 0 16
  if i < 4 then { l with lc := sput 0 l.lc i h }
  else if i < 8 then { l with lb := sput 0 l.lb (i - 4) (bundleAlign h) }
  else if i < 12 then { l with le := sput 0 l.le (i - 8) (bundleAlign h) }
  else { l with depth := depthWrite l.depth (slice v 0 3) }

/-- The trap register set of level n. -/
def Core.trapSet (c : Core) (n : Nat) : TrapRegs := if n = 0 then c.t0 else c.t1
/-- Replaces the trap register set of level n. -/
def Core.setTrap (c : Core) (n : Nat) (t : TrapRegs) : Core := if n = 0 then { c with t0 := t } else { c with t1 := t }

/-- MFC: the value of a listed control register (R48, R97). -/
def cregRead (c : Core) (n : Nat) : Word :=
  if n = 0x00 then c.r.scf
  else if n = 0x01 then c.c.acst.setWidth 32
  else if n = 0x02 then c.c.ldflags
  else if n = 0x03 then c.loops.depth.setWidth 32
  else if n = 0x04 then (pstat c).setWidth 32
  else if n = 0x05 then c.c.imask.setWidth 32
  else if n = 0x06 then c.c.deleg
  else if n ≤ 0x09 then (c.trapSet (n % 2)).epc.setWidth 32
  else if n ≤ 0x0B then (c.trapSet (n % 2)).estat.setWidth 32
  else if n ≤ 0x0D then (c.trapSet (n % 2)).tcause.setWidth 32
  else if n ≤ 0x0F then (c.trapSet (n % 2)).tval
  else if n ≤ 0x11 then (c.trapSet (n % 2)).tvec.setWidth 32
  else if n ≤ 0x19 then lshWord c.t0.lsh (n - 0x14)
  else if n ≤ 0x1F then lshWord c.t1.lsh (n - 0x1A)
  else if n ≤ 0x2C then loopReg c.loops (n - 0x20)
  else if n ≤ 0x37 then slice c.c.tdesc (32 * (n - 0x30)) 32
  else if n = 0x38 then slice c.c.cycle 0 32
  else if n = 0x39 then slice c.c.cycle 32 32
  else if n = 0x3A then c.c.timercmp
  else if n ≤ 0x47 then (sget 0 c.c.farwin (n - 0x40)).setWidth 32
  else cpenRead c

/-- SCF after a write: a reserved MODE leaves MODE, [15:8] stay 0 (R12, R47). -/
def scfWrite (old v : Word) : Word :=
  let m := if 2 ≤ bits v.toNat 4 2 then bits old.toNat 4 2 else bits v.toNat 4 2
  BitVec.ofNat 32 (packLE [(4, v.toNat), (2, m), (2, v.toNat / 64), (8, 0), (16, v.toNat / 65536)])

/-- CORE_PSTAT after a write: the privilege only downward, IE always (R48). -/
def pstatWrite (c : CoreCtl) (v : Word) : CoreCtl :=
  let p := bits v.toNat 0 2
  { c with priv := if p = 3 ∨ p < c.priv.toNat then c.priv else BitVec.ofNat 2 p, ie := v.getLsbD 2 }

/-- CORE_ESTATn after a write: privilege 3 is reserved and leaves the field (R12, R48). -/
def estatWrite (old : BitVec 3) (v : Word) : BitVec 3 :=
  let p := if bits v.toNat 0 2 = 3 then bits old.toNat 0 2 else bits v.toNat 0 2
  BitVec.ofNat 3 (p + 4 * b2n (v.getLsbD 2))

/-- MTC to a listed register that is not read-only (R48, R97). CORE_ACST and CORE_LDFLAGS only clear bits here. -/
def cregWrite (c : Core) (n : Nat) (v : Word) : Core :=
  let t := c.trapSet (n % 2)
  if n = 0x00 then { c with r := { c.r with scf := scfWrite c.r.scf v } }
  else if n = 0x01 then { c with c := { c.c with acst := c.c.acst &&& ~~~(slice v 0 9) } }
  else if n = 0x02 then { c with c := { c.c with ldflags := c.c.ldflags &&& ~~~v } }
  else if n = 0x04 then { c with c := pstatWrite c.c v }
  else if n = 0x05 then { c with c := { c.c with imask := slice v 0 6 } }
  else if n = 0x06 then { c with c := { c.c with deleg := v &&& 0x3F03FE } }
  else if n = 0x08 ∨ n = 0x09 then c.setTrap (n % 2) { t with epc := slice v 0 16 }
  else if n = 0x0A ∨ n = 0x0B then c.setTrap (n % 2) { t with estat := estatWrite t.estat v }
  else if n = 0x10 ∨ n = 0x11 then c.setTrap (n % 2) { t with tvec := bundleAlign (slice v 0 16) }
  else if 0x14 ≤ n ∧ n ≤ 0x19 then c.setTrap 0 { c.t0 with lsh := lshWrite c.t0.lsh (n - 0x14) v }
  else if 0x1A ≤ n ∧ n ≤ 0x1F then c.setTrap 1 { c.t1 with lsh := lshWrite c.t1.lsh (n - 0x1A) v }
  else if 0x20 ≤ n ∧ n ≤ 0x2C then { c with loops := loopRegWrite c.loops (n - 0x20) v }
  else if n = 0x3A then { c with c := { c.c with timercmp := v, timerPend := false } }
  else if 0x40 ≤ n ∧ n ≤ 0x47 then { c with c := { c.c with farwin := sput 0 c.c.farwin (n - 0x40) (slice v 0 16) } }
  else if n = 0x48 then { c with c := { c.c with cpen := cpenWrite c.c.cpen v (c.c.priv == 1) } }
  else c

/-! ## Entry and return (R77) -/

/-- The level a cause enters: 1 when delegated and the core does not run at P0. -/
def entryLevel (c : Core) (cause : Nat) : Nat := if c.c.deleg.getLsbD cause ∧ c.c.priv ≠ 0 then 1 else 0

/-- Entry of a trap or an interrupt, with the bundle address to return to. -/
def enterCore (c : Core) (cause : Nat) (tval : Word) (epc : BitVec 16) : Core :=
  let n := entryLevel c cause
  let t := c.trapSet n
  let t1 : TrapRegs := { t with epc := epc, estat := pstat c, tcause := BitVec.ofNat 8 cause, tval := tval, lsh := c.loops }
  let c1 := c.setTrap n t1
  { c1 with pc := t.tvec, loops := { c.loops with depth := 0 }, c := { c.c with ie := false, priv := BitVec.ofNat 2 n },
            held := none, st := .running }

/-- RTI at the current level (R77); bits [3:0] of the return address are not part of a bundle address (log 11). -/
def rtiCore (c : Core) : Core :=
  let t := c.trapSet c.c.priv.toNat
  { c with pc := bundleAlign t.epc, loops := t.lsh,
           c := { c.c with priv := slice t.estat 0 2, ie := t.estat.getLsbD 2 } }

/-- At a bundle boundary a core that was asked to halt halts (R84). -/
def boundary (s : State) (g : CoreId) : State :=
  let c := s.core g
  if c.haltReq then s.setCore g { c with st := .halted, haltReq := false } else s

/-- A trap: entry, CORE_TAL_TRAP, and the boundary behind it (R77, R79, R84). -/
def trap (s : State) (g : CoreId) (cause : Nat) (tval : Word) (epc : BitVec 16) : State :=
  boundary (tallyAdd (s.setCore g (enterCore (s.core g) cause tval epc)) (coreRegs g + 0x110) 1) g

/-! ## Interrupts (R78, R80, R81) -/

/-- The interrupts in order of priority (R80). -/
def intOrder : List Nat := [0x15, 0x13, 0x11, 0x14, 0x10, 0x12]

/-- CORE_TVAL of FAULT (R72). -/
def faultTval (c : Core) (g : CoreId) : Word :=
  BitVec.ofNat 32 (packLE [(10, (srcCore g).toNat), (6, 0), (5, c.c.stOutc.toNat)])

/-- CORE_TVAL of CP_LATE (R103). -/
def lateTval (l : CpLate) : Word :=
  BitVec.ofNat 32 (packLE [(16, l.baddr.toNat), (1, b2n l.slot), (1, b2n l.ovf), (1, b2n l.divz), (1, b2n l.par), (4, 0),
    (8, l.seq.toNat)])

/-- What an interrupt delivers while its source holds it; none when it is not pending (R80). -/
def intPending (s : State) (g : CoreId) (code : Nat) : Option Word :=
  let c := s.core g
  let y := (s.slice (coreCluster g)).score (coreIndex g)
  if code = 0x15 then (if c.c.stfault then some (faultTval c g) else none)
  else if code = 0x13 then ((c.cp0.late ++ c.cp1.late).head?).map lateTval
  else if code = 0x11 then y.preempt
  else if code = 0x14 then y.noticePend
  else if code = 0x10 then y.dispatch
  else if code = 0x12 then (if c.c.timerPend then some 0 else none)
  else none

/-- The first pending interrupt that CORE_IMASK enables. -/
def intChoice (s : State) (g : CoreId) : Option (Nat × Word) :=
  intOrder.findSome? (fun code =>
    if (s.core g).c.imask.getLsbD (code - 0x10) then (intPending s g code).map (fun v => (code, v)) else none)

/-- Taking an interrupt consumes what its source delivers once (R103, R197, R199, R203). -/
def intTaken (s : State) (g : CoreId) (code : Nat) : State :=
  let gc := coreCluster g
  let k := coreIndex g
  if code = 0x13 then
    s.updCore g (fun c =>
      match c.cp0.late with
      | _ :: r => { c with cp0 := { c.cp0 with late := r } }
      | [] => { c with cp1 := { c.cp1 with late := c.cp1.late.drop 1 } })
  else if code = 0x11 then takePreempt s g
  else if code = 0x14 then s.updSlice gc (fun x => x.setScore k { x.score k with noticePend := none })
  else if code = 0x10 then takeDispatch s g
  else s

/-- The core takes an interrupt at a bundle boundary; pc is the next bundle (R77, R80). -/
def takeInt (s : State) (g : CoreId) (code : Nat) (tval : Word) : State :=
  let s1 := s.setCore g (enterCore (s.core g) code tval (s.core g).pc)
  boundary (intTaken s1 g code) g

end Sys2Proof.Machine
end

