-- ==== Sys2Proof/Machine/Power.lean ====
section
/-! DEFINITION. Power states and fences as a target sees them, wakes, and the resets of units, clusters and regions (R17, R19, R141,
R178, R255, R424, R434 to R452). -/

namespace Sys2Proof.Machine

/-! ## Power states (R434) -/

/-- The state of cluster c of a region. -/
def RegionState.cl (x : RegionState) (c : BitVec 2) : ClusterPower :=
  if c = 0 then x.c0 else if c = 1 then x.c1 else if c = 2 then x.c2 else x.c3
/-- Replaces the state of cluster c. -/
def RegionState.setCl (x : RegionState) (c : BitVec 2) (p : ClusterPower) : RegionState :=
  if c = 0 then { x with c0 := p } else if c = 1 then { x with c1 := p } else if c = 2 then { x with c2 := p } else { x with c3 := p }

/-- The index of a cluster in its region. -/
def clusterIndex (gc : ClusterId) : BitVec 2 := slice gc 0 2
/-- A cluster's power state. -/
def clusterPower (s : State) (gc : ClusterId) : ClusterPower := (s.region (clusterRegion gc)).cl (clusterIndex gc)
/-- Sets a cluster's power state. -/
def setClusterPower (s : State) (gc : ClusterId) (p : ClusterPower) : State :=
  s.setRegion (clusterRegion gc) ((s.region (clusterRegion gc)).setCl (clusterIndex gc) p)

/-- The cluster's clocks run (R434). -/
def clkOn (s : State) (gc : ClusterId) : Bool :=
  s.lmp.pkg != .deep && (s.region (clusterRegion gc)).st == .active && clusterPower s gc == .active

/-- A member has agreed to the power transaction in progress and holds (R442). -/
def memberHolds (s : State) (m : Member) : Bool :=
  match s.lmp.tx with
  | some t => t.agreed.contains m
  | none => false

/-- A core may do work: its cluster's clocks run and it does not hold for a power transaction (R434, R442). -/
def coreOn (s : State) (g : CoreId) : Bool := clkOn s (coreCluster g) && !memberHolds s (.core g)

/-- The fence of the Assayer covers the cluster, or safe state fences every region (R424, R427). -/
def asyFenced (s : State) (gc : ClusterId) : Bool :=
  s.asy.safe || s.asy.fences.any (fun f => f.unit == .cluster gc || f.unit == .region (clusterRegion gc))

/-- The L port of the cluster's router is locked: its region is DISABLED, or a fence of the Assayer covers the cluster (R255). -/
def lPortLocked (s : State) (gc : ClusterId) : Bool := (s.region (clusterRegion gc)).st == .disabled || asyFenced s gc

/-- A power transaction covers the cluster. -/
def txCovers (u : PowerUnit) (gc : ClusterId) : Bool :=
  match u with
  | .package => true
  | .region r => r == clusterRegion gc
  | .cluster c => c == gc

/-- A power transaction has fenced the cluster and drains it (R442). -/
def draining (s : State) (gc : ClusterId) : Bool :=
  match s.lmp.tx with
  | none => false
  | some t => t.draining && txCovers t.target gc

/-- The cluster or its region is FAILED (R448). -/
def powerFailed (s : State) (gc : ClusterId) : Bool :=
  let x := s.region (clusterRegion gc)
  x.st == .failed || x.failed.contains (clusterIndex gc)

/-! ## Tally counters of the Lamplighter (R457) -/

/-- Lamplighter counter i: 0 ENTRY, 1 REFUSE, 2 ABORT, 3 WAKE, 4 RETRY, 5 WAKEFAIL, 6 BROWNOUT, 7 THERMREF, 8 MISMATCH, 9 HELD, 10
ASLEEP. -/
def lmpTal (s : State) (i : Nat) : State := tallyAdd s (hubBlk 6 + 0x100 + 8 * i) 1

/-! ## Wakes (R445 to R448) -/

/-- Starts a wake of a unit unless one is in progress; the source's bit is set in LMP_WAKESRC. A command that meets a wake in progress
completes with it, and its time counts from now. -/
def startWakeTo (s : State) (u : PowerUnit) (src : BitVec 8) (cmd : Option (RingId × Word)) (prev goal : BitVec 8) : State :=
  let l := s.lmp
  let l1 := { l with wakesrc := l.wakesrc ||| src }
  if l.wakes.any (fun w => w.target == u) then
    { s with lmp := { l1 with wakes := l1.wakes.map (fun w =>
      if w.target = u then
        (if cmd.isSome then { w with src := w.src ||| src, cmd := cmd, prev := prev, start := s.cycle } else { w with src := w.src ||| src })
      else w) } }
  else
    { s with lmp := { l1 with wakes := l1.wakes ++
      [{ target := u, step := .regulator, retries := 0, since := s.cycle, start := s.cycle, cmd := cmd, prev := prev, goal := goal,
         src := src }] } }

/-- A wake to the running state. -/
def startWake (s : State) (u : PowerUnit) (src : BitVec 8) (cmd : Option (RingId × Word)) (prev : BitVec 8) : State :=
  startWakeTo s u src cmd prev 0

/-! ## The gate of a target cluster (R19, R255, R444, R445) -/

/-- What a request meets at a cluster: it enters, it is answered at the boundary, or it is held for a wake of a unit. -/
inductive Gate where
  | pass
  | answer (o : Outc)
  | hold (u : PowerUnit)
  deriving DecidableEq, Repr

/-- Requests held for a unit. -/
def heldFor (s : State) (u : PowerUnit) : Nat := (s.lmp.held.filter (fun h => h.target == u)).length

/-- A sleeping domain: held with its WAKEONACC bit, up to 8 requests, else DOMAIN_ASLEEP (R444, R445). -/
def asleepGate (s : State) (u : PowerUnit) (bit : Bool) : Gate :=
  if bit ∧ heldFor s u < 8 then .hold u else .answer .domainAsleep

/-- The WAKEONACC bit of a cluster. -/
def wakeBitC (s : State) (gc : ClusterId) : Bool :=
  if gc.toNat < 32 then s.lmp.wakeonaccc0.getLsbD gc.toNat else s.lmp.wakeonaccc1.getLsbD (gc.toNat - 32)

/-- A request to a cluster that a power transaction drains: held or answered by the bit of the level that goes down (R442, R445). -/
def drainGate (s : State) (gc : ClusterId) : Gate :=
  match s.lmp.tx with
  | some { target := .cluster _, .. } => asleepGate s (.cluster gc) (wakeBitC s gc)
  | _ => asleepGate s (.region (clusterRegion gc)) (s.lmp.wakeonaccr.getLsbD (clusterRegion gc).toNat)

/-- What a request meets at a cluster; `agent` for the registers of the region's Lamplighter agent (R255, R444). -/
def clusterGate (s : State) (gc : ClusterId) (agent : Bool) : Gate :=
  let r := clusterRegion gc
  if agent then .pass
  else if lPortLocked s gc then .answer .routeFault
  else if powerFailed s gc then .answer .wakeFailed
  else if s.lmp.pkg = .deep then .answer .domainAsleep
  else if (s.region r).st = .retain then asleepGate s (.region r) (s.lmp.wakeonaccr.getLsbD r.toNat)
  else if clusterPower s gc = .retain ∨ clusterPower s gc = .off then asleepGate s (.cluster gc) (wakeBitC s gc)
  else if draining s gc then drainGate s gc
  else if clusterPower s gc = .nap then .hold (.cluster gc)
  else .pass

/-- The address is a register of a region's Lamplighter agent (R458). -/
def agentPa (pa : Pa) : Bool :=
  match place pa with
  | .budReg _ o => decide (0x80000 ≤ o ∧ o < 0x80010)
  | _ => false

/-- The gate of a target node: only cluster nodes have one. -/
def nodeGate (s : State) (n : NodeId) (agent : Bool) : Gate :=
  if n.toNat < 64 then clusterGate s (slice n 0 6) agent else .pass

/-- A request that is held starts a wake, with LMP_WAKESRC.ACCESS (R445, R446); a domain that still drains wakes after its entry. -/
def holdWake (s : State) (u : PowerUnit) : State :=
  match s.lmp.tx with
  | some _ => s
  | none => startWake s u 0x40 none 0

/-- The gate holds for a cluster in NAP, whose wake is not counted as a held request (R444). -/
def napHold (s : State) (u : PowerUnit) : Bool :=
  match u with
  | .cluster gc => clusterPower s gc == .nap
  | _ => false

/-- An access that is performed whole waits: of what it did only the wakes stay that it started, each counted as one held request (R445). -/
def stayWake (s t : State) : State :=
  let new := t.lmp.wakes.filter (fun w => !s.lmp.wakes.any (fun v => v.target == w.target))
  let s1 := { s with lmp := t.lmp }
  if new.any (fun w => !napHold s w.target) then lmpTal s1 9 else s1

/-- A whole access is held for a wake. -/
def holdWhole (s : State) (u : PowerUnit) : State := stayWake s (holdWake s u)

/-! ## What an access to a register meets (R31, R35) -/

/-- The initiator is a core at P2 (R31). -/
def whoP2 (s : State) (who : Initiator) : Bool :=
  match who with
  | .core g => (s.core g).c.priv == 2
  | _ => false

/-- The node does not answer: PORST_n is low, or the compute dies are not released yet (R459, R462 step 9). -/
def inReset (s : State) (n : NodeId) : Bool := s.mgc.porst || (decide (n.toNat < 64) && !s.mgc.done)

/-! ## Resets (R84, R141, R178, R424) -/

/-- Architectural state of a core at reset, HALTED; CORE_BOOTPC, which is no register of R44, and an initialised memory are kept (R84;
log 12). -/
def resetCore (c : Core) : Core := { Core.reset with c := { CoreCtl.reset with bootpc := c.c.bootpc } }

/-- Unit reset of a core by the Assayer (R141, R424): registers at reset, memories initialised. -/
def unitResetCore (s : State) (g : CoreId) : State := startInits (s.setCore g Core.reset) [.dmem g, .imem g]

/-- Unit reset of an engine (R178): DISABLED, the job lost, ACC_QSEL at its reset value. -/
def unitResetEngine (s : State) (e : EngId) : State := s.setEngine e (Engine.reset e.toNat)

/-- Cluster reset (R141, R424): the memories are initialised, the SCH and CLU registers return to their reset values. -/
def clusterReset (s : State) (gc : ClusterId) : State :=
  let s1 := (List.range 8).foldl (fun t k => t.setCore (coreOf gc (BitVec.ofNat 3 k)) Core.reset) s
  startInits ((s1.setSlice gc Slice.reset).setClu gc Clu.reset) (clusterMems gc)

/-- Region cold reset (R141, R407, R424): its clusters, engines and budget controller at reset, its memories initialised. -/
def regionReset (s : State) (r : RegionId) : State :=
  let s1 := (List.range 4).foldl (fun t c => clusterReset t (clusterOf r (BitVec.ofNat 2 c))) s
  let s2 := (List.range 16).foldl (fun t i => unitResetEngine t (BitVec.ofNat 8 (16 * r.toNat + i))) s1
  startInit (s2.setBud r Bud.reset) (.rm r)

/-! ## A wake ends (R436, R446, R448, R449) -/

/-- Microseconds between two root cycles (3 932.16 root cycles each). -/
def usBetween (a b : Nat) : Nat := (b - a) * 100 / 393216

/-- LEVEL and TARGET of a unit (R278). -/
def unitCode : PowerUnit → Nat × Nat
  | .package => (0, 0xFFFF)
  | .region r => (1, r.toNat)
  | .cluster gc => (2, gc.toNat)

/-- The POWER event of a wake (R446). -/
def powerEvent (s : State) (w : WakeTx) (o : Outc) : State :=
  let (lv, tg) := unitCode w.target
  pushEvent s 5 (srcHub 5) 0 o.code (packLE [(8, w.goal.toNat), (8, lv), (16, if lv = 0 then 0 else tg), (32, w.src.toNat)])

/-- Supply voltage of an operating point in mV (R323). -/
def opVolt (p : BitVec 2) : Nat := if p = 0 then 800 else if p = 1 then 700 else 620

/-- The requested operating point is taken up (R454): raised after the ramp of 10 mV/µs, lowered before it. -/
def opStart (cycle : Nat) (x : RegionState) : RegionState :=
  if x.opReq = x.opCur then x
  else
    let dv := opVolt x.opReq - opVolt x.opCur + (opVolt x.opCur - opVolt x.opReq)
    { x with opBusy := true, opEnd := cycle + (dv * 393216 + 999) / 1000, opCur := if x.opReq < x.opCur then x.opCur else x.opReq }

/-- A region becomes ACTIVE with the cluster states it had; one that lost retention runs its cold-reset initialisation (R436, R449); an
operating point requested in RETAIN is applied (R454). -/
def regionUp (s : State) (r : RegionId) : State :=
  let x := s.region r
  let lost := x.retlost
  let st := fun (i : Nat) => (x.saved[i]?).getD .active
  let x1 := opStart s.cycle { x with st := .active, c0 := st 0, c1 := st 1, c2 := st 2, c3 := st 3, saved := [], retlost := false }
  let s1 := s.setRegion r x1
  if lost then regionReset s1 r else s1

/-- The package is in RUN again with the recorded states (R436). -/
def packageUp (s : State) : State :=
  let s1 := { s with lmp := { s.lmp with pkg := .run } }
  (List.range 16).foldl (fun t i =>
    let r : RegionId := BitVec.ofNat 4 i
    let was := sget RegionState.reset t.lmp.savedRegions i
    if was.st = .active ∧ (t.region r).st = .retain then regionUp t r else t) s1

/-- Whether a region of the unit lost its retention (R449). -/
def unitLost (s : State) : PowerUnit → Bool
  | .package => (List.range 16).any (fun i => (s.region (BitVec.ofNat 4 i)).retlost)
  | .region r => (s.region r).retlost
  | .cluster _ => false

/-- The unit reaches its running state; a cluster that was powered off starts from its reset (log 21). -/
def unitUp (s : State) (goal : BitVec 8) : PowerUnit → State
  | .package => packageUp s
  | .region r => regionUp s r
  | .cluster gc =>
    let r := clusterRegion gc
    let x := s.region r
    let y := x.setCl (clusterIndex gc) (if goal = 1 then .nap else .active)
    let s1 := s.setRegion r { y with failed := x.failed.filter (fun c => c != clusterIndex gc) }
    if x.cl (clusterIndex gc) = .off then clusterReset s1 gc else s1

/-- Removes a wake. -/
def dropWake (s : State) (u : PowerUnit) : State :=
  { s with lmp := { s.lmp with wakes := s.lmp.wakes.filter (fun w => w.target != u),
                               held := s.lmp.held.filter (fun h => h.target != u) } }

/-- A wake is complete: the unit runs, the command that asked for it completes, a POWER event is raised, and held requests may enter
(R439, R445, R446, R449). -/
def finishWake (s : State) (w : WakeTx) : State :=
  let lost := unitLost s w.target
  let o : Outc := if lost then .okFlagged else .ok
  let s1 := lmpTal (unitUp (dropWake s w.target) w.goal w.target) 3
  let s2 := powerEvent s1 w o
  match w.cmd with
  | none => s2
  | some (ring, idx) =>
    completeCmd s2 ring idx o (if lost then 0x40 else 0) (w.prev.setWidth 32) (BitVec.ofNat 32 (usBetween w.start s2.cycle))

/-- Detail word of a region's power source (R508). -/
def powerDetail (reason : Nat) (u : PowerUnit) : Word :=
  match u with
  | .cluster gc => BitVec.ofNat 32 (packLE [(4, reason), (2, (clusterIndex gc).toNat), (1, 1)])
  | _ => BitVec.ofNat 32 reason

/-- A wake failed its third retry (R448): a unit is FAILED; the package latches WAKE_FAILED, drives ALERT_n and stays in DEEP. The command that
asked for it completes WAKE_FAILED. -/
def failWake (s : State) (w : WakeTx) (step : Nat) : State :=
  let s1 := lmpTal (dropWake s w.target) 5
  let s2 := match w.target with
    | .package =>
      let d : Word := BitVec.ofNat 32 (packLE [(4, 2), (4, step)])
      report { s1 with lmp := { s1.lmp with wfail := true, pkg := .deep }, mgc := { s1.mgc with alert := true } } (srcHub 5) d
    | .region r =>
      let x := s1.region r
      report (s1.setRegion r { x with st := .failed, c0 := .off, c1 := .off, c2 := .off, c3 := .off, saved := [], retlost := true }) (srcRegion r 7)
        (powerDetail 2 w.target)
    | .cluster gc =>
      let r := clusterRegion gc
      let x := s1.region r
      report (s1.setRegion r { x.setCl (clusterIndex gc) .off with failed := x.failed ++ [clusterIndex gc] }) (srcRegion r 7)
        (powerDetail 2 w.target)
  match w.cmd with
  | none => s2
  | some (ring, idx) => completeOk s2 ring idx .wakeFailed

/-! ## Retention current (R451) -/

/-- The largest x below 2^n with x^72 · 2^down ≤ lim, from the top bit down. -/
def rootFrom (down lim : Nat) : Nat → Nat → Nat
  | 0, x => x
  | n + 1, x => let y := x + 2 ^ n; rootFrom down lim n (if y ^ 72 * 2 ^ down ≤ lim then y else x)

/-- floor(leak · 2^((T − 25)/18)) for T in units of 0.25 °C (R451). -/
def leakPred (leak : Nat) (t : Int) : Nat :=
  let e : Int := t - 100
  if e < 0 then rootFrom e.natAbs (leak ^ 72) 17 0 else rootFrom 0 (leak ^ 72 * 2 ^ e.natAbs) (17 + e.natAbs / 72) 0

/-- The predicted retention current of a region in mA (R451); LMP_DTEMPd holds the hottest reading of its die. -/
def regionPred (s : State) (r : RegionId) : Nat :=
  leakPred (sget 0 s.lmp.ileak r.toNat).toNat (sget 0 s.lmp.dtemp (r.toNat / 4)).toInt

/-- The predicted current of the always-on regulator (R451). -/
def aonPred (s : State) : Nat := leakPred s.lmp.aonleak.toNat (sget 0 s.lmp.dtemp 4).toInt

end Sys2Proof.Machine
end

