-- ==== Sys2Proof/Machine/Path.lean ====
section
/-! DEFINITION. The fabric's elements and ports, and the path of an access that is performed whole: the route of its initiator's NI,
hop by hop, to the target and back (R223 to R225, R238 to R243, R255 to R257). -/

namespace Sys2Proof.Machine

/-! ## Topology (R223 to R225, R243) -/

/-- Where a packet goes on leaving a port: into an input buffer of an element, or to a node's NI. -/
inductive Next where
  | el (e : Elem) (inCode : Nat)
  | node (n : NodeId)
  deriving DecidableEq, Repr

/-- The cluster at a mesh position of a die (R223). -/
def clusterAt (die x y : Nat) : ClusterId := BitVec.ofNat 6 (16 * die + 4 * (x / 2 + 2 * (y / 2)) + x % 2 + 2 * (y % 2))
/-- The router that channel j of a die attaches to (R223). -/
def channelRouter (die j : Nat) : ClusterId :=
  let y := j / 2
  clusterAt die (2 * (j % 2) + y % 2) y

/-- The port exists at the element (R224). -/
def portPresent (e : Elem) (p : Nat) : Bool :=
  match e with
  | .mesh gc =>
    let x := meshX gc
    let y := meshY gc
    match p with
    | 0 => true
    | 1 => decide (0 < y)
    | 2 => decide (x < 3)
    | 3 => decide (y < 3)
    | 4 => decide (0 < x)
    | 5 => decide ((x + y) % 2 = 0)
    | _ => false
  | .gwDie _ | .h0 => decide (p < 8)
  | .gwHub _ => p == 0
  | .h1 => decide (p < 7)
  | .ni _ => false

/-- The far end of a port (R223, R224). -/
def hop (e : Elem) (p : Nat) : Next :=
  match e with
  | .mesh gc =>
    let d := gc.toNat / 16
    let x := meshX gc
    let y := meshY gc
    match p with
    | 0 => .node (clusterNode gc)
    | 1 => .el (.mesh (clusterAt d x (y - 1))) 3
    | 2 => .el (.mesh (clusterAt d (x + 1) y)) 4
    | 3 => .el (.mesh (clusterAt d x (y + 1))) 1
    | 4 => .el (.mesh (clusterAt d (x - 1) y)) 2
    | _ => .el (.gwHub (BitVec.ofNat 2 d)) (2 * y + x / 2)
  | .gwDie d => .el (.mesh (channelRouter d.toNat p)) 5
  | .gwHub d => .el .h0 d.toNat
  | .h0 => if p < 4 then .el (.gwDie (BitVec.ofNat 2 p)) 0 else if p < 7 then .node (BitVec.ofNat 8 (0x80 + p - 4)) else .el .h1 0
  | .h1 => if p = 0 then .el .h0 7 else .node (BitVec.ofNat 8 (0x90 + p - 1))
  | .ni n => .node n

/-- The element and port by which a node's packets enter the fabric. -/
def entryOf (n : NodeId) : Elem × Nat :=
  if n.toNat < 64 then (.mesh (slice n 0 6), 0) else if n.toNat < 0x90 then (.h0, n.toNat - 0x80 + 4) else (.h1, n.toNat - 0x90 + 1)

/-! ## Routes and ports (R239, R240, R255 to R257) -/

/-- Code i of a route. -/
def codeAt (r : BitVec 24) (i : Nat) : Nat := bits r.toNat (3 * i) 3
/-- The route after an element's turn (R240). -/
def consume (r : BitVec 24) (inCode : Nat) : BitVec 24 := BitVec.ofNat 24 (r.toNat / 8 + inCode % 8 * 2 ^ 21)
/-- A port of an element. -/
def ElemState.port (x : ElemState) (p : Nat) : RPort := sget RPort.reset x.ports p
/-- Replaces a port of an element. -/
def State.setRPort (s : State) (e : Elem) (p : Nat) (x : RPort) : State :=
  s.setElem e { s.elem e with ports := sput RPort.reset (s.elem e).ports p x }

/-- The port is held DISABLED: a fence on it, or on the cluster whose L port it is, or a DISABLED region (R255, R424). -/
def portLocked (s : State) (e : Elem) (p : Nat) : Bool :=
  s.asy.fences.any (fun f => f.unit == .port e (BitVec.ofNat 3 p)) ||
    (match e with | .mesh gc => p == 0 && lPortLocked s gc | _ => false)

/-- The state that a port shows (R255, R256): 0 ENABLED, 1 DRAIN, 2 DISABLED. -/
def portState (s : State) (e : Elem) (p : Nat) : Nat :=
  if portLocked s e p then 2 else ((s.elem e).port p).state.toNat

/-- A port lets a packet of an epoch pass (R257). -/
def portPasses (s : State) (e : Elem) (p : Nat) (epoch : Bool) : Bool :=
  match e with
  | .gwHub _ => true
  | _ => portPresent e p && (portState s e p == 0 || (portState s e p == 1 && ((s.elem e).port p).depoch == epoch))

/-- A port counter: 0 FLITS, 1 REPLAY, 2 EXH, 3 RFAULT, 4 DROP, 5 LIFE; elements without a port block count nothing. -/
def portCount (s : State) (e : Elem) (p i n : Nat) : State :=
  match e with
  | .gwHub _ | .ni _ => s
  | _ => tallyAdd s (elemBase e + 0x40 * p + 8 + 8 * i) n

/-! ## The path of a whole access (R29, R239 to R242, R257) -/

/-- Where a route leads: to a node, with the ports of entry from the last element back to the first; or to a port that accepts nothing. -/
inductive Walk where
  | reached (n : NodeId) (back : List (Elem × Nat))
  | stopped (e : Elem) (p : Nat)
  | lost
  deriving DecidableEq, Repr

/-- The output port at an element for the first code of a route. -/
def turnPort (e : Elem) (route : BitVec 24) : Nat := match e with | .gwHub _ => 0 | _ => codeAt route 0

/-- The register space of a region's Lamplighter agent, which the router of cluster 0 serves whatever its L port's state (R255). -/
def agentTurn (e : Elem) (p : Nat) (agent : Bool) : Bool :=
  agent && p == 0 && (match e with | .mesh gc => gc.toNat % 4 == 0 | _ => false)

/-- Follows a route from an element for at most `fuel` hops. -/
def walk (s : State) (epoch agent : Bool) : Nat → Elem → Nat → BitVec 24 → List (Elem × Nat) → Walk
  | 0, _, _, _, _ => .lost
  | fuel + 1, e, i, r, back =>
    let p := turnPort e r
    if agentTurn e p agent = false ∧ portPasses s e p epoch = false then .stopped e p
    else
      match hop e p with
      | .node n => .reached n ((e, i) :: back)
      | .el e1 i1 => walk s epoch agent fuel e1 i1 (consume r i) ((e, i) :: back)

/-- The path of a request of node n to a node by the active route table (R239, R240). -/
def pathTo (s : State) (n dst : NodeId) (agent : Bool) : Walk :=
  let e := activeRt s n dst
  walk s e.epoch agent 8 (entryOf n).1 (entryOf n).2 e.route []

/-- The first port on the way back that drops the response (R241, R257). -/
def backBlocked (s : State) (epoch : Bool) (back : List (Elem × Nat)) : Option (Elem × Nat) :=
  back.find? (fun x => !portPasses s x.1 x.2 epoch)

/-- The route of an access of node n to an address: none with the answer of R29 and R239 where there is no route. -/
def routeCheck (s : State) (n : NodeId) (pa : Pa) : Option NodeId × State :=
  match nodeOf pa with
  | none => (none, s)
  | some dst => if (activeRt s n dst).valid then (some dst, s) else (none, tallyAdd s (niBase n + 0x128) 1)

/-- The end of the way to a queue: the gate of its cluster (R444). -/
def queueAt (q : QueueId) (t : State) : Gate × State :=
  match clusterGate t (queueCluster q) false with
  | .answer o => (.answer o, if o = .domainAsleep then lmpTal t 10 else t)
  | g => (g, t)

/-- The way to queue q after the walk to node d (R239, R242, R251). -/
def queueWalked (n d : NodeId) (q : QueueId) (t : State) : Walk → Gate × State
  | .stopped e p => (.answer .routeFault, portCount t e p 3 1)
  | .lost => (.answer .timeout, tallyAdd t (niBase n + 0x110) 1)
  | .reached m _ => if m ≠ d then (.answer .routeFault, t) else queueAt q t

/-- The way to queue q after the look-up of its node (R35). -/
def queueRouted (n : NodeId) (q : QueueId) : Option NodeId × State → Gate × State
  | (none, t) => (.answer .routeFault, t)
  | (some d, t) => queueWalked n d q t (pathTo t n d false)

/-- What an access of node n to a queue's aperture meets on its way and at the queue's cluster (R29, R239 to R242, R257, R444). -/
def queueWay (s : State) (n : NodeId) (q : QueueId) : Gate × State :=
  queueRouted n q (routeCheck s n (BitVec.ofNat 44 (queueBase (queueCluster q) + 64 * (queueLocal q).toNat)))

/-! ## Commands that write a register (R31, R35) -/

/-- A register access reaches its register and its answer comes back: no reset, a clear path both ways, an open gate, no core at P2. -/
def regOpen (s : State) (who : Initiator) (pa : Nat) : Bool :=
  let a : Pa := BitVec.ofNat 44 pa
  match routeCheck s (iniNode who) a with
  | (none, _) => false
  | (some n, _) =>
    !inReset s n && !whoP2 s who && nodeGate s n (agentPa a) == .pass &&
      (match pathTo s (iniNode who) n (agentPa a) with
       | .reached m back => m == n && (backBlocked s (activeRt s (iniNode who) n).epoch back).isNone
       | _ => false)

/-- What becomes of a register access that does not act: nothing while its node is in reset; else ROUTE_FAULT first, then the permission of
R31, then the power gate (R35). -/
def regShut (s : State) (who : Initiator) (pa : Nat) : State :=
  let a : Pa := BitVec.ofNat 44 pa
  match routeCheck s (iniNode who) a with
  | (none, t) => t.answerOnly .routeFault
  | (some n, _) =>
    if inReset s n then s
    else
      match pathTo s (iniNode who) n (agentPa a) with
      | .stopped e p => (portCount s e p 3 1).answerOnly .routeFault
      | .lost => (tallyAdd s (niBase (iniNode who) + 0x110) 1).answerOnly .timeout
      | .reached m back =>
        if m ≠ n ∨ nodeGate s n (agentPa a) = .answer .routeFault then s.answerOnly .routeFault
        else if whoP2 s who then s.answerOnly .notPermitted
        else
          match nodeGate s n (agentPa a) with
          | .answer o => (if o = .domainAsleep then lmpTal s 10 else s).answerOnly o
          | .hold u => holdWhole s u
          | .pass =>
            match backBlocked s (activeRt s (iniNode who) n).epoch back with
            | some x => (tallyAdd (portCount s x.1 x.2 4 1) (niBase (iniNode who) + 0x110) 1).answerOnly .timeout
            | none => s

/-- An access to a register: it acts where the way is open (R31, R35); one whose answer a port would drop does not act (log 36). -/
def regCmd (s : State) (who : Initiator) (pa : Nat) (eff : State → State) : State :=
  if regOpen s who pa then eff s else regShut s who pa

end Sys2Proof.Machine
end

