-- ==== Sys2Proof/Machine/Sbu.lean ====
section
/-! DEFINITION. The soft-bit unit: demapping, scrambling, CRC and interleaving (R114 to R120). -/

namespace Sys2Proof.Machine

/-- Control word n of the SBU. -/
def Sbu.getCtl (c : Sbu) (n : Nat) : Word := sget 0 c.ctl n
/-- The bits of control word n that exist (R114). -/
def sbuMask (n : Nat) : Word :=
  match n with
  | 0 | 1 => 0x7FFFFFFF
  | 2 | 5 => 0x00FFFFFF
  | 3 => 0x00000F03
  | 4 => 0xFFFFFFFF
  | 6 => 0x0F0FFFFF
  | 7 => 0x00000008
  | _ => 0
/-- Writes control word n. -/
def Sbu.putCtl (c : Sbu) (n : Nat) (v : Word) : Sbu := { c with ctl := sput 0 c.ctl n (v &&& sbuMask n) }
/-- Work buffer n. -/
def Sbu.getWb (c : Sbu) (n : Nat) : BitVec 512 := sget 0 c.wb n
/-- Writes work buffer n. -/
def Sbu.putWb (c : Sbu) (n : Nat) (v : BitVec 512) : Sbu := { c with wb := sput 0 c.wb n v }

/-- SBU_MODE.QM. -/
def sbuQm (c : Sbu) : Nat := bits (c.getCtl 3).toNat 8 4
/-- The interleaver length E. -/
def sbuE (c : Sbu) : Nat := bits (c.getCtl 5).toNat 0 24
/-- The column pointer j0. -/
def sbuJ0 (c : Sbu) : Nat := bits (c.getCtl 6).toNat 0 20
/-- The row pointer i0. -/
def sbuI0 (c : Sbu) : Nat := bits (c.getCtl 6).toNat 24 4

/-! ## Demapping (R117) -/

/-- The metrics λ(1) … λ(k) of one dimension value. -/
def lamFrom (k unit : Nat) : Nat → Nat → Int → List Int
  | 0, _, _ => []
  | n + 1, t, l => l :: lamFrom k unit n (t + 1) ((2 ^ (k - t) * unit : Nat) - (l.natAbs : Int))

/-- An LLR byte value from a metric. -/
def llrOf (gain : Nat) (l : Int) : Int := max (-127) (min 127 (rnd (l * gain) 12))

/-- The QM LLRs of one lane, bit 0 first. -/
def laneLlrs (qm unit gain : Nat) (i q : Int) : List Int :=
  let k := qm / 2
  ((lamFrom k unit k 1 i).zip (lamFrom k unit k 1 q)).flatMap (fun (x, y) => [llrOf gain x, llrOf gain y])

/-- The 192 bytes of WB0 to WB2 after SDMAP. -/
def sdmapBytes (c : Sbu) (v : BitVec 512) : List Byte :=
  let unit := bits (c.getCtl 4).toNat 0 16
  let gain := bits (c.getCtl 4).toNat 16 16
  fitBytes 192 ((List.range 16).flatMap (fun s =>
    (laneLlrs (sbuQm c) unit gain (lane v (2 * s)) (lane v (2 * s + 1))).map (fun l => BitVec.ofInt 8 l)))

/-! ## Gold sequence (R118) -/

/-- One step of a Gold register: the new bit enters at bit 30. -/
def goldStep (x1 x2 : Nat) : Nat × Nat :=
  let b1 := (x1 + x1 / 8) % 2
  let b2 := (x2 + x2 / 2 + x2 / 4 + x2 / 8) % 2
  (x1 / 2 + 2 ^ 30 * b1, x2 / 2 + 2 ^ 30 * b2)

/-- n steps: the bits produced, and the registers after them. -/
def goldBits : Nat → Nat → Nat → List Bool × Nat × Nat
  | 0, x1, x2 => ([], x1, x2)
  | n + 1, x1, x2 =>
    let (a, b) := goldStep x1 x2
    let (l, r) := goldBits n a b
    (decide ((x1 + x2) % 2 = 1) :: l, r)

/-- n steps without the bits. -/
def goldSkip : Nat → Nat → Nat → Nat × Nat
  | 0, x1, x2 => (x1, x2)
  | n + 1, x1, x2 => let (a, b) := goldStep x1 x2; goldSkip n a b

/-- A number from its bits, bit 0 first. -/
def natOfBits : List Bool → Nat
  | [] => 0
  | b :: r => b2n b + 2 * natOfBits r

/-- Sets the Gold registers. -/
def Sbu.putGold (c : Sbu) (x : Nat × Nat) : Sbu := (c.putCtl 0 (BitVec.ofNat 32 x.1)).putCtl 1 (BitVec.ofNat 32 x.2)

/-- SSCRB (R116). -/
def sscrbOp (c : Sbu) (v : BitVec 512) : Sbu :=
  let (l, x) := goldBits 512 (c.getCtl 0).toNat (c.getCtl 1).toNat
  (c.putWb 0 (v ^^^ BitVec.ofNat 512 (natOfBits l))).putGold x

/-- An LLR byte with −128 taken as −127 (R115). -/
def llrIn (b : Byte) : Int := max (-127) b.toInt

/-- SDSCR (R115, R116). -/
def sdscrOp (c : Sbu) (v : BitVec 512) : Sbu :=
  let (l, x) := goldBits 64 (c.getCtl 0).toNat (c.getCtl 1).toNat
  let bs := (bytesOfNat 64 v.toNat).zip l
  let out := bs.map (fun (b, n) => BitVec.ofInt 8 (if n then -(llrIn b) else llrIn b))
  (c.putWb 0 (BitVec.ofNat 512 (natOfBytes out))).putGold x

/-- SGINIT (R118). -/
def sginitOp (c : Sbu) (sa : Word) : Sbu := c.putGold (goldSkip 1600 1 (bits sa.toNat 0 31))

/-! ## CRC (R119) -/

/-- Length and polynomial of SBU_MODE[1:0]. -/
def crcPoly (n : Nat) : Nat × Nat :=
  match n with
  | 0 => (24, 0x864CFB)
  | 1 => (24, 0x800063)
  | 2 => (24, 0xB2B117)
  | _ => (16, 0x1021)

/-- One message bit. -/
def crcStep (len poly r : Nat) (a : Bool) : Nat :=
  let top := r.testBit (len - 1)
  let s := 2 * r % 2 ^ len
  if top != a then s ^^^ poly else s

/-- SCRC over the first n bits (R119). -/
def scrcOp (c : Sbu) (v : BitVec 512) (n : Nat) : Sbu :=
  let (len, poly) := crcPoly (bits (c.getCtl 3).toNat 0 2)
  c.putCtl 2 (BitVec.ofNat 32 (upTo n (fun i r => crcStep len poly r (v.getLsbD i)) (c.getCtl 2).toNat))

/-- SCRCINIT (R116). -/
def scrcinitOp (c : Sbu) (var : Nat) : Sbu :=
  (c.putCtl 2 0).putCtl 3 ((c.getCtl 3 &&& 0xFFFFFFFC) ||| BitVec.ofNat 32 (var % 4))

/-! ## Interleaving (R120) -/

/-- SILV and SDILV are refused for the current configuration (R120). -/
def ilvRefused (c : Sbu) : Bool :=
  let qm := sbuQm c
  !([1, 2, 4, 6, 8, 10].contains qm) || sbuE c % qm != 0 || decide (sbuE c / qm ≤ sbuJ0 c)

/-- The number of bits SILV writes. -/
def silvCnt (c : Sbu) : Nat := sbuQm c * min (512 / sbuQm c) (sbuE c / sbuQm c - sbuJ0 c)

/-- The index in e of output bit n of SILV. -/
def silvSrc (c : Sbu) (n : Nat) : Nat := (n % sbuQm c) * (sbuE c / sbuQm c) + sbuJ0 c + n / sbuQm c

/-- The number of LLRs SDILV writes. -/
def sdilvCnt (c : Sbu) : Nat := min 64 (sbuE c / sbuQm c - sbuJ0 c)

/-- The byte offsets that a gather reads, in output order (R120). -/
def gatherOffs (op : Nat) (c : Sbu) : List Nat :=
  if op = 0x0E then (List.range (silvCnt c)).map (fun n => silvSrc c n / 8)
  else (List.range (sdilvCnt c)).map (fun t => sbuI0 c + (sbuJ0 c + t) * sbuQm c)

/-- Sets j0 and i0. -/
def Sbu.putPos (c : Sbu) (j i : Nat) : Sbu := c.putCtl 6 (BitVec.ofNat 32 (packLE [(20, j), (4, 0), (4, i)]))

/-- SILV with the gathered bytes (R120). -/
def silvOp (c : Sbu) (d : List Byte) : Sbu :=
  let cnt := silvCnt c
  let bs := (List.range cnt).map (fun n => (d.getD n 0).getLsbD (silvSrc c n % 8))
  let j := sbuJ0 c + cnt / sbuQm c
  (c.putWb 0 (BitVec.ofNat 512 (natOfBits bs))).putPos (if j = sbuE c / sbuQm c then 0 else j) (sbuI0 c)

/-- SDILV with the gathered bytes (R115, R120). -/
def sdilvOp (c : Sbu) (d : List Byte) : Sbu :=
  let cnt := sdilvCnt c
  let out := (d.take cnt).map (fun b => BitVec.ofInt 8 (llrIn b))
  let j := sbuJ0 c + cnt
  let last := j == sbuE c / sbuQm c
  (c.putWb 0 (BitVec.ofNat 512 (natOfBytes out))).putPos (if last then 0 else j) (if last then sbuI0 c + 1 else sbuI0 c)

/-! ## Refusals, and the state that operations touch (R99, R104, R114, R116) -/

/-- The SBU refuses the operation; sb is the value of S register SRCB. -/
def sbuRefuses (c : Sbu) (op : Nat) (f : CpFields) (sb : Word) : Bool :=
  let d := f.dst.toNat
  let a := f.srca.toNat
  let v := f.var.toNat
  match op with
  | 0x00 | 0x01 => decide (2 < d) || v != 0
  | 0x02 | 0x03 => decide (2 < a) || v != 0
  | 0x04 => decide (7 < a) || v != 0
  | 0x05 => decide (7 < d) || v != 0
  | 0x06 | 0x07 => v != 0
  | 0x08 => !([2, 4, 6, 8, 10].contains (sbuQm c)) || v != 0
  | 0x09 | 0x0A | 0x0B => v != 0
  | 0x0C => v != 0 || sb == 0 || decide (512 < sb.toNat)
  | 0x0D => decide (3 < v)
  | 0x0E | 0x0F => v != 0 || ilvRefused c
  | _ => true

/-- Image bytes of control word n. -/
def sbuCtlRange (n : Nat) : Nat × Nat := (4 * n, 4)
/-- Image bytes of work buffer n. -/
def wbRange (n : Nat) : Nat × Nat := (0x20 + 64 * n, 64)

/-- The image ranges that an operation reads (R104). -/
def sbuReads (op : Nat) (f : CpFields) : List (Nat × Nat) :=
  match op with
  | 0x02 | 0x03 => [wbRange f.srca.toNat]
  | 0x04 => [sbuCtlRange f.srca.toNat]
  | 0x06 => [(0, 0xE0)]
  | 0x08 => [sbuCtlRange 3, sbuCtlRange 4]
  | 0x09 | 0x0A => [sbuCtlRange 0, sbuCtlRange 1]
  | 0x0C => [sbuCtlRange 2, sbuCtlRange 3]
  | 0x0E | 0x0F => [sbuCtlRange 3, sbuCtlRange 5, sbuCtlRange 6]
  | _ => []

/-- The image ranges that an operation writes. -/
def sbuWrites (op : Nat) (f : CpFields) : List (Nat × Nat) :=
  match op with
  | 0x00 | 0x01 => [wbRange f.dst.toNat]
  | 0x05 => [sbuCtlRange f.dst.toNat]
  | 0x07 => [(0, 0xE0)]
  | 0x08 => [wbRange 0, wbRange 1, wbRange 2]
  | 0x09 | 0x0A => [wbRange 0, sbuCtlRange 0, sbuCtlRange 1]
  | 0x0B => [sbuCtlRange 0, sbuCtlRange 1]
  | 0x0C => [sbuCtlRange 2]
  | 0x0D => [sbuCtlRange 2, sbuCtlRange 3]
  | 0x0E | 0x0F => [wbRange 0, sbuCtlRange 6]
  | _ => []

/-- The state image (R114), 256 bytes. -/
def sbuImage (c : Sbu) : List Byte :=
  (List.range 8).flatMap (fun n => bytesOfNat 4 (c.getCtl n).toNat) ++
  (List.range 3).flatMap (fun n => bytesOfNat 64 (c.getWb n).toNat) ++ List.replicate 32 0

/-- The state of an image (R100, R101). -/
def sbuOfImage (d : List Byte) : Sbu :=
  let c1 := upTo 8 (fun n c => c.putCtl n (BitVec.ofNat 32 (natOfBytes ((d.drop (4 * n)).take 4)))) { wb := [], ctl := [] }
  upTo 3 (fun n c => c.putWb n (BitVec.ofNat 512 (natOfBytes ((d.drop (0x20 + 64 * n)).take 64)))) c1

/-- What an operation of the SBU does to its state when it finishes (R91, R116). -/
def sbuFinish (c : Sbu) (p : CpPend) : Sbu :=
  match p.op.toNat with
  | 0x00 => c.putWb p.f.dst.toNat p.vsrc
  | 0x01 => c.putWb p.f.dst.toNat (BitVec.ofNat 512 (natOfBytes p.data))
  | 0x05 => c.putCtl p.f.dst.toNat p.ssrc
  | 0x07 => sbuOfImage p.data
  | 0x08 =>
    let bs := sdmapBytes c p.vsrc
    upTo 3 (fun n x => x.putWb n (BitVec.ofNat 512 (natOfBytes ((bs.drop (64 * n)).take 64)))) c
  | 0x09 => sscrbOp c p.vsrc
  | 0x0A => sdscrOp c p.vsrc
  | 0x0B => sginitOp c p.ssrc
  | 0x0C => scrcOp c p.vsrc p.ssrc2.toNat
  | 0x0D => scrcinitOp c p.f.var.toNat
  | 0x0E => silvOp c p.data
  | 0x0F => sdilvOp c p.data
  | _ => c

end Sys2Proof.Machine
end

