-- ==== Sys2Proof/Machine/CoreExec.lean ====
section
/-! DEFINITION. How a core executes one bundle: checks in the order of R79, reads, queue accesses, and the commit (R52 to R75,
R87 to R104). -/

namespace Sys2Proof.Machine

/-! ## Checks before any access (R53, R67, R76, R82, R98, R99) -/

/-- Slots a < n of the bundle that write a register which slot n writes, or that slot n writes one register twice (R53). -/
def writeConflict (b : Bundle) (n : Nat) : Bool :=
  (opWrites (slotOp b n)).any (fun r => (List.range n).any (fun i => (opWrites (slotOp b i)).contains r))

/-- The coprocessor port of a slot. -/
def Core.port (c : Core) (sl : Bool) : CpPort := if sl then c.cp1 else c.cp0
/-- Replaces the coprocessor port of a slot. -/
def Core.setPort (c : Core) (sl : Bool) (p : CpPort) : Core := if sl then { c with cp1 := p } else { c with cp0 := p }

/-- The slot is enabled at the core's privilege (R97, R98). -/
def cpEnabled (c : Core) (sl : Bool) : Bool := c.c.cpen.getLsbD (4 * b2n sl + c.c.priv.toNat)

/-- A cause of an undefined-instruction trap that slot D adds, or a hold, before the coprocessor decides. -/
inductive DFind where
  | fine
  | undef (cause : Nat)
  | busy
  deriving DecidableEq, Repr

/-- The operation waits for every older operation of its slot (R94, R96, R100). -/
def cpWaits (sl : Bool) (op : Nat) : Bool :=
  op == 2 || op == 3 || op == 4 || op == 6 || op == 7 || (sl && (op == 8 || op == 0xE || op == 0xF))

/-- The unit refuses the operation (R99). -/
def cpRefuses (c : Core) (sl : Bool) (op : Nat) (f : CpFields) : Bool :=
  if sl then sbuRefuses c.sbu op f (c.r.getS f.srcb) else cmuRefuses op f

/-- The undefined-instruction checks of slot D that depend on the core's state (R48, R53, R67, R96 to R99, R103). -/
def slotDFind (c : Core) (b : Bundle) : DFind :=
  match b.d with
  | .loop _ _ | .loops _ _ => if 4 ≤ c.loops.depth.toNat then .undef 1 else .fine
  | .mfc _ cr => if (cregInfo cr.toNat).isNone then .undef 1 else .fine
  | .mtc _ cr =>
    match cregInfo cr.toNat with
    | none => .undef 1
    | some (ro, _) =>
      if ro then .undef 1
      else if cr = 0 ∧ (usesAuto c.r.scf b.a || usesAuto c.r.scf b.b || usesAuto c.r.scf b.c) = true then .undef 1
      else .fine
  | .cp sl op f =>
    let p := c.port sl
    if cpEnabled c sl = false then .undef 2
    else if 4 ≤ p.late.length then .busy
    else if cpWaits sl op.toNat ∧ p.pend ≠ [] then .busy
    else if cpRefuses c sl op.toNat f then .undef 3
    else .fine
  | _ => .fine

/-- The undefined-instruction trap of a bundle, in slot order (R79): cause and slot word; or a hold of slot D. -/
def undefFind (c : Core) (b : Bundle) : DFind × Word :=
  let early := (List.range 4).find? (fun n => !slotHas n (slotOp b n) || reservedField (slotOp b n) || writeConflict b n)
  match early with
  | some n => (.undef 1, opWord (slotOp b n))
  | none => (slotDFind c b, opWord b.d)

/-- A privilege violation of slot D (R48, R76). -/
def privFind (c : Core) (o : Op) : Bool :=
  match o with
  | .mfc _ cr | .mtc _ cr =>
    match cregInfo cr.toNat with
    | some (_, p) => decide (p < c.c.priv.toNat)
    | none => false
  | .rti | .wait | .fence => c.c.priv == 2
  | _ => false

/-- The address of a coprocessor operation that accesses memory, with the alignment it needs (R89). -/
def cpAddr (c : Core) (sl : Bool) (op : Nat) (f : CpFields) : Option (Word × Nat) :=
  if op = 1 ∨ op = 6 ∨ op = 7 then some (c.r.getA (slice f.srca 0 4), 64)
  else if op = 3 then some (c.r.getA (slice f.dst 0 4), 64)
  else if sl ∧ (op = 0xE ∨ op = 0xF) then some (c.r.getA (slice f.srca 0 4), 1)
  else none

/-- The address that an operation accesses, with the alignment it needs (R71, R89). -/
def opAddr (c : Core) (o : Op) : Option (Word × Nat) :=
  match o with
  | .cp sl op f => cpAddr c sl op.toNat f
  | _ => (effAddr c.r o).map (fun a => (a, accAlign o))

/-- The slots with memory accesses in the order of their traps: A, B, D. -/
def memSlots : List Nat := [0, 1, 3]

/-- The first misaligned address of a bundle (R71, R79). -/
def misFind (c : Core) (b : Bundle) : Option Word :=
  memSlots.findSome? (fun n =>
    match opAddr c (slotOp b n) with
    | some (a, al) => if a.toNat % al = 0 then none else some a
    | none => none)

/-! ## Where an access goes (R42, R49, R50, R89, R133, R135) -/

/-- Size of a coprocessor's state image (R106, R114). -/
def imageSize (sl : Bool) : Nat := if sl then 256 else 2048

/-- What a 64-byte block of the core's address space is. -/
inductive BlkAt where
  | own (m : InitMem) (pa : Nat)
  | fab (pa : Pa)
  | bad (o : Outc) (window : Bool)
  deriving DecidableEq, Repr

/-- Plain memory in the sense of R42. -/
def plainPa (pa : Pa) : Bool :=
  match place pa with
  | .dram _ | .hubMem _ | .rm _ _ | .cm _ _ | .ringWin _ _ _ | .dmem _ _ | .imem _ _ => true
  | _ => false

/-- Unmapped package address (R29). -/
def unmappedPa (pa : Pa) : Bool :=
  match place pa with
  | .gapRegion _ | .gapCluster _ | .gapHub | .nowhere => true
  | _ => false

/-- Where a block lies (R49); ring windows map it with the registers current now (R136). -/
def blkAt (s : State) (g : CoreId) (blk : Word) : BlkAt :=
  let c := s.core g
  let gc := coreCluster g
  match coreMap c.c blk with
  | .dmem o => .own (.dmem g) (dmemBase g + o)
  | .imem o => if c.c.priv = 2 then .bad .notPermitted false else .own (.imem g) (imemBase g + o)
  | .cm o => .own (.cm gc) (clusterBase gc + o)
  | .win n o =>
    match winMap (s.clu gc) n o with
    | some x => .own (.cm gc) (clusterBase gc + x)
    | none => .bad .routeFault true
  | .queue _ _ => .bad .notPermitted false
  | .rm o => .fab (BitVec.ofNat 44 (regionBase (clusterRegion gc) + o))
  | .far pa => .fab pa
  | .none => .bad .routeFault false

/-- The reads that an operation makes, by 64-byte block. -/
def opReads (c : Core) (o : Op) : List ReadPiece :=
  match o with
  | .ldh _ | .ldw _ | .vld _ | .vldu _ =>
    match effAddr c.r o with
    | some a => spanPieces a (accSize o)
    | none => []
  | .cp sl op f =>
    match cpAddr c sl op.toNat f with
    | none => []
    | some (a, _) =>
      if op = 1 then spanPieces a 64
      else if op = 7 then
        (List.range (imageSize sl / 64)).map (fun i => { blk := a + BitVec.ofNat 32 (64 * i), offs := List.range 64 })
      else if op = 0xE ∨ op = 0xF then gatherPieces a (gatherOffs op.toNat c.sbu)
      else []
  | _ => []

/-- The scaled vector that VSTA stores (R62 to R64). -/
def vstaMove (c : Core) (v : VaArgs) : BitVec 512 × Bool × Option Int := scaledMove c.r.scf v.sm v.sh (c.r.getAc v.acs)

/-- The stores that an operation makes at commit, by 64-byte block: address and bytes. -/
def opStores (c : Core) (o : Op) : List (Word × List Byte) :=
  let put := fun (n v : Nat) => match effAddr c.r o with | some a => [(a, bytesOfNat n v)] | none => []
  match o with
  | .sth m => put 2 (c.r.getS m.d).toNat
  | .stw m => put 4 (c.r.getS m.d).toNat
  | .vst m => put 64 (c.r.getV m.d).toNat
  | .vsta v => put 64 (vstaMove c v).1.toNat
  | .cp sl op f =>
    match cpAddr c sl op.toNat f with
    | none => []
    | some (a, _) =>
      if op = 3 then
        [(a, bytesOfNat 64 (if sl then c.sbu.getWb f.srca.toNat else c.cmu.getMx f.srca.toNat).toNat)]
      else if op = 6 then
        let img := if sl then sbuImage c.sbu else cmuImage c.cmu
        (List.range (imageSize sl / 64)).map (fun i => (a + BitVec.ofNat 32 (64 * i), (img.drop (64 * i)).take 64))
      else []
  | _ => []

/-- The 64-byte blocks that an operation touches. -/
def opBlocks (c : Core) (o : Op) : List Word :=
  (opReads c o).map (fun p => p.blk) ++ (opStores c o).map (fun p => p.1 &&& 0xFFFFFFC0)

/-- The outcome that R35 places first among the faults of one access. -/
def worstOf (l : List Outc) : Option Outc :=
  if l.contains .routeFault then some .routeFault else l.head?

/-- The fault that a block's place gives an operation before anything is sent. -/
def blkFault (s : State) (g : CoreId) (o : Op) (blk : Word) : Option Outc :=
  match blkAt s g blk with
  | .bad x _ => some x
  | .own _ _ => none
  | .fab pa =>
    match o with
    | .cp _ _ _ => if unmappedPa pa then some .routeFault else if plainPa pa then none else some .notPermitted
    | _ => none

/-- The access fault that an operation has by its addresses alone (R49, R89, R133, R135, R512). -/
def staticFault (s : State) (g : CoreId) (o : Op) : Option Outc :=
  let c := s.core g
  match o with
  | .qenq _ | .qdeq _ =>
    match effAddr c.r o with
    | none => none
    | some a =>
      match coreMap c.c a with
      | .queue _ _ | .far _ => none
      | .none => some .routeFault
      | _ => some .notPermitted
  | .cp sl op f =>
    match cpAddr c sl op.toNat f with
    | none => none
    | some (a, _) =>
      if (op = 6 ∨ op = 7) ∧ 0x20000 < a.toNat + imageSize sl then some .notPermitted
      else worstOf ((opBlocks c o).filterMap (blkFault s g o))
  | _ => worstOf ((opBlocks c o).filterMap (blkFault s g o))

/-- The operation's fault comes from a disabled ring window (R133). -/
def windowFault (s : State) (g : CoreId) (o : Op) : Bool :=
  (opBlocks (s.core g) o).any (fun blk => match blkAt s g blk with | .bad _ w => w | _ => false)

/-- A memory of the core's cluster that the bundle touches is not initialised (R86, R140). -/
def needsInit (s : State) (g : CoreId) (b : Bundle) : Bool :=
  memSlots.any (fun n => (opBlocks (s.core g) (slotOp b n)).any (fun blk =>
    match blkAt s g blk with | .own m _ => !s.ready m | _ => false))

/-! ## Reads of the cluster's memories -/

/-- The checkers of an own read (R74, R127, R508); the requester code of slot D is free (log 9). -/
def ownUse (g : CoreId) (slot free : Nat) (m : InitMem) : ParityUse :=
  match m with
  | .dmem _ => coreParity g 0 false none
  | .imem _ => coreParity g 1 false none
  | _ =>
    cmParity (coreCluster g)
      (if slot = 3 then (Config.free8 free).toNat % 32 else 2 * (coreIndex g).toNat + slot)

/-- Bytes read for an operation, by core address; the first poisoned address. -/
structure Got where
  bytes : List (Nat × Byte)
  bad : Option Nat
  outc : Option Outc
  flags : Word
  deriving DecidableEq, Repr, Inhabited

/-- Reads one piece from an own memory. -/
def readOwn (u : ParityUse) (s : State) (pa : Nat) (p : ReadPiece) : Got × State :=
  let ws := (p.offs.map (fun o => pa + o / 2 * 2)).eraseDups
  let (ps, s1) := parityWords u s ws
  let bad := ((ws.zip ps).find? (fun x => x.2)).map (fun x => p.blk.toNat + (x.1 - pa))
  ({ bytes := p.offs.map (fun o => (p.blk.toNat + o, s1.byte (pa + o))), bad := bad, outc := none, flags := 0 }, s1)

/-- The key of a fabric read in Held.got: slot and piece. -/
def laneOf (slot i : Nat) : Nat := (if slot = 3 then 2 else slot) + 10 * i

/-- Reads one piece: from an own memory now, from the fabric what came back. -/
def readPiece (s : State) (g : CoreId) (h : Held) (slot i : Nat) (p : ReadPiece) : Got × State :=
  match blkAt s g p.blk with
  | .own m pa => readOwn (ownUse g slot s.fresh m) s pa p
  | .bad o _ => ({ bytes := [], bad := none, outc := some o, flags := 0 }, s)
  | .fab _ =>
    match sget none h.got (laneOf slot i) with
    | none => ({ bytes := [], bad := none, outc := none, flags := 0 }, s)
    | some r =>
      ({ bytes := p.offs.map (fun o => (p.blk.toNat + o, r.data.getD o 0)), bad := none,
         outc := if r.outc.good then none else some r.outc,
         flags := if r.outc = .okFlagged then r.flags else 0 }, s)

/-- Joins what two pieces of one access brought. -/
def Got.join (a b : Got) : Got :=
  { bytes := a.bytes ++ b.bytes, bad := a.bad.or b.bad, outc := worstOf (a.outc.toList ++ b.outc.toList),
    flags := a.flags ||| b.flags }

/-- Nothing read. -/
def Got.nothing : Got := { bytes := [], bad := none, outc := none, flags := 0 }

/-- All reads of a slot. -/
def readSlot (s : State) (g : CoreId) (h : Held) (slot : Nat) : Got × State :=
  (opReads (s.core g) (slotOp h.bundle slot)).zipIdx.foldl (fun (x : Got × State) p =>
    let (r, t) := readPiece x.2 g h slot p.2 p.1
    (x.1.join r, t)) (Got.nothing, s)

/-- All reads of a bundle: slots A, B and D. -/
def readAll (s : State) (g : CoreId) (h : Held) : Got × Got × Got × State :=
  let (a, s1) := readSlot s g h 0
  let (b, s2) := readSlot s1 g h 1
  let (d, s3) := readSlot s2 g h 3
  (a, b, d, if opReads (s.core g) h.bundle.d = [] then s3 else { s3 with fresh := s3.fresh + 1 })

/-! ## Fabric reads -/

/-- The activity that a core's accesses carry (R510). -/
def coreAct (s : State) (g : CoreId) : ActId :=
  if ((s.slice (coreCluster g)).score (coreIndex g)).st = .running then eAct (s.core g).c.tdesc else 0

/-- The byte mask of a piece. -/
def pieceMask (p : ReadPiece) : BitVec 64 := BitVec.ofNat 64 (p.offs.foldl (fun m o => m ||| 2 ^ o) 0)

/-- The fabric reads of a bundle: key, request, and whether the target is plain memory. -/
def fabReads (s : State) (g : CoreId) (b : Bundle) : List (Nat × NiReq × Bool) :=
  let c := s.core g
  memSlots.flatMap (fun n => (opReads c (slotOp b n)).zipIdx.filterMap (fun (p, i) =>
    match blkAt s g p.blk with
    | .fab pa =>
      some (laneOf n i, mkReq (.core g) (laneOf n i) .rd pa (pieceMask p) [] (coreAct s g) false (c.c.priv == 2), plainPa pa)
    | _ => none))

/-- The request of a QENQ or QDEQ through a far window (R512). -/
def queueReq (s : State) (g : CoreId) (o : Op) : Option NiReq :=
  let c := s.core g
  match effAddr c.r o with
  | none => none
  | some a =>
    match coreMap c.c a with
    | .far pa =>
      let blk : Pa := BitVec.ofNat 44 (pa.toNat / 64 * 64)
      let off := pa.toNat % 64
      match o with
      | .qenq m =>
        some (mkReq (.core g) 4 .wrm blk (maskOf off 32)
          (fitBytes 64 (List.replicate off 0 ++ bytesOfNat 32 (c.r.getV m.d).toNat)) (coreAct s g) true (c.c.priv == 2))
      | _ => some (mkReq (.core g) 4 .rd blk (maskOf off 32) [] (coreAct s g) false (c.c.priv == 2))
    | _ => none

/-! ## What a held bundle does next -/

/-- The next move of a bundle that has issued. -/
inductive Move where
  | stay (k : HeldKind) (t : State)
  | trap (cause : Nat) (tval : Word) (t : State)
  | ask (lane : Nat) (r : NiReq)
  | go (q : List Byte) (fl : Word) (t : State)

/-- The first access fault in slot order (R79). -/
def firstFault (a b d : Option Outc) : Option Outc := a.or (b.or d)

/-- The access trap of a bundle whose addresses fault; disabled windows are counted (R133). -/
def staticTrap (s : State) (g : CoreId) (b : Bundle) : Option (Outc × State) :=
  match memSlots.find? (fun n => (staticFault s g (slotOp b n)).isSome) with
  | none => none
  | some n =>
    match staticFault s g (slotOp b n) with
    | none => none
    | some o =>
      some (o, if windowFault s g (slotOp b n) ∧ o = .routeFault then tallyAdd s (cluBase (coreCluster g) + 0x218) 1 else s)

/-- A QENQ or QDEQ of the core's own cluster (R73, R188 to R193, R512). -/
def queueOwn (s : State) (g : CoreId) (h : Held) (o : Op) (lq : BitVec 10) (off : Nat) : Move :=
  let q := queueOf (coreCluster g) lq
  match o with
  | .qenq m =>
    let e : Entry := slice ((s.core g).r.getV m.d) 0 256
    if off = 0 then
      match enqueue s (.core g) q e with
      | (.accepted, t) => .go [] 0 t
      | (.full, t) => if h.kind = .queueFull then .stay .queueFull s else .stay .queueFull t
      | (.refused x, t) => .trap 9 (x.code.setWidth 32) t
    else
      match controlWrite s (.core g) q e with
      | (.done, t) => .go [] 0 t
      | (.stall, _) => .stay .queueFull s
      | (.refused x, t) => .trap 9 (x.code.setWidth 32) t
  | _ =>
    if off = 0 then
      match dequeue s q with
      | (r, t) => if r.outc = .ok then .go r.data 0 t else .trap 9 (r.outc.code.setWidth 32) t
    else .go (statusRead s (.core g) q) 0 s

/-- The queue access of a bundle, made last (R41, R73). -/
def queueMove (s : State) (g : CoreId) (h : Held) : Move :=
  let o := h.bundle.a
  match o with
  | .qenq _ | .qdeq _ =>
    match effAddr (s.core g).r o with
    | none => .go [] 0 s
    | some a =>
      match coreMap (s.core g).c a with
      | .queue lq off => queueOwn s g h o lq off
      | _ =>
        match queueReq s g o with
        | none => .trap 9 (Outc.notPermitted.code.setWidth 32) s
        | some r =>
          if sget false h.asked 4 = false then .ask 4 r
          else
            match sget none h.got 4 with
            | none => .stay .fabric s
            | some x =>
              if x.outc.good then
                .go ((x.data.drop (if r.mask.getLsbD 0 then 0 else 32)).take 32) (if x.outc = .okFlagged then x.flags else 0) s
              else .trap 9 (x.outc.code.setWidth 32) s
  | _ => .go [] 0 s

/-- The next move of the bundle that core g holds: parity of own reads, addresses, plain fabric reads, reads with side effects one at a
time, then the queue access (R41, R42, R72 to R74, R79). -/
def nextMove (s : State) (g : CoreId) (h : Held) : Move :=
  if needsInit s g h.bundle then .stay .init s
  else
    let (a, b, d, t) := readAll s g h
    match a.bad.or (b.bad.or d.bad) with
    | some x => .trap 6 (BitVec.ofNat 32 x) t
    | none =>
      match staticTrap s g h.bundle with
      | some (o, t1) => .trap 9 (o.code.setWidth 32) t1
      | none =>
        let fr := fabReads s g h.bundle
        let plain := fr.filter (fun x => x.2.2)
        let side := fr.filter (fun x => !x.2.2)
        let unasked := fun (l : List (Nat × NiReq × Bool)) => l.find? (fun x => !(sget false h.asked x.1))
        let open1 := fun (l : List (Nat × NiReq × Bool)) =>
          l.any (fun x => sget false h.asked x.1 && (sget none h.got x.1).isNone)
        match unasked plain with
        | some x => .ask x.1 x.2.1
        | none =>
          if open1 plain || open1 side then .stay .fabric s
          else
            match firstFault a.outc b.outc d.outc with
            | some o => .trap 9 (o.code.setWidth 32) s
            | none =>
              match unasked side with
              | some x => .ask x.1 x.2.1
              | none => queueMove s g h

/-! ## The commit (R53, R54, R61, R64, R68, R69) -/

/-- What the operations of a bundle do at commit, collected over its slots. -/
structure Eff where
  c : Core
  govSet : Nat
  govClr : Nat
  qsat : Bool
  auto : Option Int
  flags : Word

/-- Adds an AUTO shift to those of the bundle (R53). -/
def addAuto (e : Eff) (x : Option Int) : Eff :=
  match x with
  | none => e
  | some s => { e with auto := some (e.auto.getD 0 + s) }

/-- Changes the data registers. -/
def Eff.regs (e : Eff) (f : CoreRegs → CoreRegs) : Eff := { e with c := { e.c with r := f e.c.r } }

/-- The bytes of a read, as a number. -/
def gotNat (x : Got) : Nat := natOfBytes (x.bytes.map (fun p => p.2))

/-- The base register's post-modification (R70). -/
def effPost (old : Core) (o : Op) (e : Eff) : Eff :=
  match postMod old.r o with
  | some (an, v) => e.regs (fun r => r.putA an v)
  | none => e

/-- A vector result with its saturation mark. -/
def Eff.vec (e : Eff) (vd : BitVec 5) (x : BitVec 512 × Bool) : Eff :=
  { e.regs (fun r => r.putV vd x.1) with qsat := e.qsat || x.2 }

/-- The register results of one operation of slots A, B and C, and of the scalar ones of slot D; all sources are read from `old`
(R53). -/
def opEff (old : Core) (got : Got) (q : List Byte) (o : Op) (e0 : Eff) : Eff :=
  let e := effPost old o { e0 with flags := e0.flags ||| got.flags }
  let r := old.r
  match o with
  | .ldh m => e.regs (fun x => x.putS m.d ((BitVec.ofNat 16 (gotNat got)).signExtend 32))
  | .ldw m => e.regs (fun x => x.putS m.d (BitVec.ofNat 32 (gotNat got)))
  | .vld m | .vldu m => e.regs (fun x => x.putV m.d (BitVec.ofNat 512 (gotNat got)))
  | .qdeq m => e.regs (fun x => x.putV m.d (BitVec.ofNat 512 (natOfBytes q)))
  | .vsta v =>
    let z := vstaMove old v
    addAuto { e with qsat := e.qsat || z.2.1 } z.2.2
  | .addaN an nm => e.regs (fun x => x.putA an (r.getA an + r.getN nm))
  | .addaI an imm => e.regs (fun x => x.putA an (r.getA an + immOff imm 4))
  | .mova an sa => e.regs (fun x => x.putA an (r.getS sa))
  | .movn nm sa => e.regs (fun x => x.putN nm (r.getS sa))
  | .movas sd an => e.regs (fun x => x.putS sd (r.getA an))
  | .mac k acd va vb =>
    let z := macOp (scfSat r.scf) k (r.getAc acd) (r.getV va) (r.getV vb)
    { e.regs (fun x => x.putAc acd z.1) with govSet := e.govSet ||| (if z.2 then 2 ^ acd.toNat else 0) }
  | .acclr acd => { e.regs (fun x => x.putAc acd 0) with govClr := e.govClr ||| 2 ^ acd.toNat }
  | .acset acd va => { e.regs (fun x => x.putAc acd (acsetOp (r.getV va))) with govClr := e.govClr ||| 2 ^ acd.toNat }
  | .vbin k vd va vb => e.vec vd (vbinOp k (r.getV va) (r.getV vb))
  | .vneg vd va => e.vec vd (vnegOp (r.getV va))
  | .vconj vd va => e.vec vd (vconjOp (r.getV va))
  | .vshrr vd va imm => e.vec vd (vshrrOp (r.getV va) imm, false)
  | .vmov vd va => e.vec vd (r.getV va, false)
  | .vbcst vd va n => e.vec vd (vbcstOp (r.getV va) n, false)
  | .acmv vd acs sm sh =>
    let z := scaledMove r.scf sm sh (r.getAc acs)
    addAuto (e.vec vd (z.1, z.2.1)) z.2.2
  | .acsh sd acs => e.regs (fun x => x.putS sd (BitVec.ofInt 32 (autoShift (accEls (r.getAc acs)))))
  | .alu k sd sa sb => e.regs (fun x => x.putS sd (aluOp k (r.getS sa) (r.getS sb)))
  | .movi sd imm => e.regs (fun x => x.putS sd (imm.signExtend 32))
  | .call _ => e.regs (fun x => x.putS 31 ((old.pc + 16).setWidth 32))
  | .mfc sd cr => e.regs (fun x => x.putS sd (cregRead old cr.toNat))
  | .mtc sa cr => { e with c := cregWrite e.c cr.toNat (r.getS sa) }
  | .cp sl op f =>
    if op = 2 then
      e.regs (fun x => x.putV f.dst (if sl then old.sbu.getWb f.srca.toNat else old.cmu.getMx f.srca.toNat))
    else if op = 4 then
      e.regs (fun x => x.putS f.dst (if sl then old.sbu.getCtl f.srca.toNat else cmuCtl old.cmu f.srca.toNat))
    else e
  | _ => e

/-- The sticky registers and the block exponent after the bundle: set bits win over clears (R10, R53, R60, R62, R64, R72). -/
def effCore (e : Eff) : Core :=
  let a := (e.c.c.acst &&& ~~~(BitVec.ofNat 9 e.govClr)) ||| BitVec.ofNat 9 (e.govSet + if e.qsat then 256 else 0)
  let scf := match e.auto with
    | none => e.c.r.scf
    | some d => scfWithExp e.c.r.scf (addExp (scfExp e.c.r.scf) d)
  { e.c with c := { e.c.c with acst := a, ldflags := e.c.c.ldflags ||| e.flags }, r := { e.c.r with scf := scf } }

/-- A branch is taken, with its target (R83); conditions read the registers as before the bundle. -/
def branchTo (c : Core) (o : Op) : Option (BitVec 16) :=
  let target := fun (off : BitVec 16) => c.pc + 16 * off
  match o with
  | .br cond _ sa off =>
    let x := (c.r.getS sa).toInt
    let t := match cond with
      | .eq => x == 0
      | .ne => x != 0
      | .lt => decide (x < 0)
      | .ge => decide (0 ≤ x)
      | .le => decide (x ≤ 0)
      | .gt => decide (0 < x)
      | .cp0busy => !c.cp0.pend.isEmpty
      | .cp1busy => !c.cp1.pend.isEmpty
    if t then some (target off) else none
  | .j off | .call off => some (target off)
  | .ret _ => some (bundleAlign (slice (c.r.getS 31) 0 16))
  | _ => none

/-- The depth after a taken branch: the levels, from the outermost, whose body holds the target (R69). -/
def depthFor (l : Loops) (t : BitVec 16) : Nat → Nat → Nat
  | 0, m => m
  | n + 1, m =>
    if m < l.depth.toNat ∧ (sget 0 l.lb m).toNat ≤ t.toNat ∧ t.toNat ≤ (sget 0 l.le m).toNat then depthFor l t n (m + 1) else m

/-- The loop test at address pc (R68), from level n − 1 down. -/
def loopTest (l : Loops) (pc : BitVec 16) : Nat → Loops × BitVec 16
  | 0 => (l, pc + 16)
  | n + 1 =>
    if pc = sget 0 l.le n then
      let k := sget 0 l.lc n - 1
      let l1 := { l with lc := sput 0 l.lc n k }
      if k ≠ 0 then (l1, sget 0 l1.lb n) else loopTest { l1 with depth := BitVec.ofNat 3 n } pc n
    else (l, pc + 16)

/-- Opens a loop level (R67); there are four, and a bundle that would open a fifth was undefined at issue. -/
def openLoop (l : Loops) (pc count fin : BitVec 16) : Loops :=
  let d := l.depth.toNat
  if 4 ≤ d then l
  else { depth := l.depth + 1, lc := sput 0 l.lc d count, lb := sput 0 l.lb d (pc + 16), le := sput 0 l.le d fin }

/-- The core goes on at the next address by the loop test (R68). -/
def fallThrough (c : Core) : Core :=
  let (l, n) := loopTest c.loops c.pc c.loops.depth.toNat
  { c with loops := l, pc := n }

/-- The end address of a loop: an offset in bundles from the LOOP bundle (R67). -/
def loopEnd (pc : BitVec 16) (fin : BitVec 13) : BitVec 16 := pc + 16 * fin.setWidth 16

/-- Where execution goes on after the bundle, with the loop registers (R67 to R69, R77). -/
def flow (old c : Core) (o : Op) : Core :=
  match branchTo old o with
  | some t => { c with pc := t, loops := { c.loops with depth := BitVec.ofNat 3 (depthFor c.loops t 4 0) } }
  | none =>
    match o with
    | .rti => rtiCore c
    | .loop n fin => fallThrough { c with loops := openLoop c.loops c.pc (n.setWidth 16) (loopEnd c.pc fin) }
    | .loops sa fin =>
      let n : BitVec 16 := slice (old.r.getS sa) 0 16
      if n = 0 then { c with pc := loopEnd c.pc fin + 16 }
      else fallThrough { c with loops := openLoop c.loops c.pc n (loopEnd c.pc fin) }
    | _ => fallThrough c

/-! ## Coprocessor operations at commit (R91, R100 to R104) -/

/-- The even image offsets of ranges (R104). -/
def rangeWords (l : List (Nat × Nat)) : List Nat := l.flatMap (fun p => words16 p.1 p.2)

/-- The image ranges that an operation reads. -/
def cpReads (sl : Bool) (op : Nat) (f : CpFields) : List (Nat × Nat) := if sl then sbuReads op f else cmuReads op f
/-- The image ranges that an operation writes. -/
def cpWrites (sl : Bool) (op : Nat) (f : CpFields) : List (Nat × Nat) := if sl then sbuWrites op f else cmuWrites op f

/-- The parity checks of the state words that an operation reads (R104, R508); true when one holds an error. -/
def cpParity (s : State) (g : CoreId) (sl : Bool) (ws : List Nat) : Bool × State :=
  ws.foldl (fun (x : Bool × State) w =>
    let bad := sget false ((x.2.core g).port sl).bad w
    let d : Word := BitVec.ofNat 32 (packLE [(18, w), (2, 0), (2, 2 + b2n sl), (2, 0)])
    (x.1 || bad, check x.2 (srcCore g) bad d)) (false, s)

/-- Words that are written again hold no parity error. -/
def clearBad (p : CpPort) (ws : List Nat) : CpPort := { p with bad := ws.foldl (fun b w => sput false b w false) p.bad }

/-- Raises a late report, when LATEN is 1 (R102, R103). -/
def lateReport (c : Core) (sl : Bool) (l : CpLate) : Core :=
  if c.c.cpen.getLsbD (12 + b2n sl) ∧ (l.ovf || l.divz || l.par) = true then
    c.setPort sl { c.port sl with late := (c.port sl).late ++ [l] }
  else c

/-- Sets PAR in CMU_FLG or SBU_FLG (R102). -/
def flagPar (c : Core) (sl par : Bool) : Core :=
  if par then
    (if sl then { c with sbu := c.sbu.putCtl 7 (c.sbu.getCtl 7 ||| 8) }
     else { c with cmu := { c.cmu with flg := c.cmu.flg ||| 8 } })
  else c

/-- Sets or clears a slot's dirty bit (R97, R100). -/
def setDirty (c : Core) (sl d : Bool) : Core :=
  let m : Word := if sl then 0x200 else 0x100
  { c with c := { c.c with cpen := if d then c.c.cpen ||| m else c.c.cpen &&& ~~~m } }

/-- The bytes of a read in the order the operation uses them. -/
def cpData (c : Core) (sl : Bool) (op : Nat) (f : CpFields) (got : Got) : List Byte :=
  if sl ∧ (op = 0xE ∨ op = 0xF) then
    match cpAddr c sl op f with
    | none => []
    | some (a, _) => (gatherOffs op c.sbu).map (fun o =>
        ((got.bytes.find? (fun p => p.1 == (a + BitVec.ofNat 32 o).toNat)).map (fun p => p.2)).getD 0)
  else got.bytes.map (fun p => p.2)

/-- The committed operation of slot D: those with an effect at commit act, the others join the operations in flight; SEQ counts it
(R91, R100, R103). -/
def cpCommit (s : State) (old : Core) (g : CoreId) (sl : Bool) (op : BitVec 5) (f : CpFields) (got : Got) : State :=
  let c0 := s.core g
  let p0 := c0.port sl
  let seq := p0.seq + 1
  let n := op.toNat
  if n = 2 ∨ n = 3 ∨ n = 4 ∨ n = 6 ∨ n = 7 then
    let (par, s1) := cpParity (s.setCore g (c0.setPort sl { p0 with seq := seq })) g sl (rangeWords (cpReads sl n f))
    let late : CpLate := { baddr := old.pc, slot := sl, ovf := false, divz := false, par := par, seq := seq }
    let c1 := lateReport (flagPar (s1.core g) sl par) sl late
    let c2 := if n = 6 then setDirty c1 sl false
      else if n = 7 then
        let d := cpData old sl n f got
        let c3 := if sl then { c1 with sbu := sbuOfImage d } else { c1 with cmu := cmuOfImage d }
        setDirty (c3.setPort sl (clearBad (c3.port sl) (rangeWords (cpWrites sl n f)))) sl false
      else c1
    s1.setCore g c2
  else
    let q : CpPend := { op := op, f := f, baddr := old.pc, seq := seq, vsrc := old.r.getV f.srca, ssrc := old.r.getS f.srca,
                        ssrc2 := old.r.getS f.srcb, data := cpData old sl n f got }
    s.setCore g (c0.setPort sl { p0 with seq := seq, pend := p0.pend ++ [q] })

/-! ## Stores -/

/-- A released store of one block: performed at once in a memory of the cluster, posted to the fabric otherwise (R54, R72, R93). -/
def coreStore (s : State) (g : CoreId) (a : Word) (d : List Byte) : State :=
  let o := a.toNat % 64
  match blkAt s g (a &&& 0xFFFFFFC0) with
  | .own _ pa => parityWrite s (pa + o) d
  | .fab pa =>
    niIssue s (mkReq (.core g) 3 (if d.length = 64 then .wr else .wrm) pa (maskOf o d.length)
      (fitBytes 64 (List.replicate o 0 ++ d)) (coreAct s g) false ((s.core g).c.priv == 2))
  | .bad _ _ => s

/-- The stores of a bundle in slot order. -/
def coreStores (s : State) (g : CoreId) (l : List (Word × List Byte)) : State :=
  l.foldl (fun t p => coreStore t g p.1 p.2) s

/-- The bundle commits (R53, R54): registers, stores, coprocessor operation, counters, the GOVF trap behind it, WAIT and a requested
halt. -/
def commit (s : State) (g : CoreId) (h : Held) (q : List Byte) (fl : Word) : State :=
  let old := s.core g
  let b := h.bundle
  let (ga, gb, gd, s1) := readAll s g h
  let st := (opStores old b.a ++ opStores old b.b) ++ opStores old b.d
  let s2 := coreStores s1 g st
  let e0 : Eff := { c := s2.core g, govSet := 0, govClr := 0, qsat := false, auto := none, flags := fl }
  let e := opEff old gd [] b.d (opEff old Got.nothing [] b.c (opEff old gb [] b.b (opEff old ga q b.a e0)))
  let c1 := effCore e
  let c2 := { flow old c1 b.d with held := none, st := .running }
  let s3 := tallyAdd (s2.setCore g c2) (coreRegs g + 0x100) 1
  let s4 := match b.d with
    | .cp sl op f => cpCommit s3 old g sl op f gd
    | _ => s3
  let new : BitVec 8 := slice c1.c.acst 0 8 &&& ~~~(slice old.c.acst 0 8)
  let s5 := if new = 0 then s4 else tallyAdd s4 (coreRegs g + 0x120) (weight new.toNat)
  if new ≠ 0 ∧ scfGte old.r.scf = true then trap s5 g 7 (new.setWidth 32) (s5.core g).pc
  else
    let s6 := if b.d = .wait ∧ (intChoice s5 g).isNone then s5.updCore g (fun c => { c with st := .wait }) else s5
    boundary s6 g

/-! ## Issue and progress -/

/-- The core holds its bundle and waits for something; STATE reads STALLED but for an issue stall (R84, R140). -/
def stay (s : State) (g : CoreId) (h : Held) (k : HeldKind) : State :=
  let c := s.core g
  let since := if k = .queueFull ∧ h.kind ≠ .queueFull then s.cycle else h.since
  s.setCore g { c with st := if k = .busy then .running else .stalled, held := some { h with kind := k, since := since } }

/-- Moves a held bundle on until it waits, traps or commits. -/
def settle : Nat → State → CoreId → State
  | 0, s, _ => s
  | fuel + 1, s, g =>
    match (s.core g).held with
    | none => s
    | some h =>
      match nextMove s g h with
      | .stay k t => stay t g h k
      | .trap cause tval t => trap t g cause tval (s.core g).pc
      | .ask lane r =>
        let h1 := { h with asked := sput false h.asked lane true, since := if lane = 4 then s.cycle else h.since }
        settle fuel (niIssue (s.setCore g { s.core g with held := some h1 }) r) g
      | .go q fl t => commit t g h q fl

/-- Steps that a bundle can need: one per fabric read and a few more. -/
def settleFuel : Nat := 200

/-- The checks of a bundle at issue, after its fetch: undefined, held in issue, privilege, misalignment (R79, R96); then its accesses. -/
def issue (s : State) (g : CoreId) (h : Held) : State :=
  let c := s.core g
  let b := h.bundle
  match undefFind c b with
  | (.undef cause, w) => trap s g cause w c.pc
  | (.busy, _) => stay s g h .busy
  | (.fine, _) =>
    if privFind c b.d then trap s g 4 (opWord b.d) c.pc
    else if b.d = .fence ∧ postedOpen s g = true then stay s g h .busy
    else
      match misFind c b with
      | some a => trap s g 5 a c.pc
      | none => settle settleFuel (s.setCore g { c with held := some h }) g

/-- What the parity of the fetched bundle came to: an instruction parity trap, or the bundle issues (R74, R79). -/
def fetched (g : CoreId) (pc : BitVec 16) (h : Held) (r : Ans × State) : State :=
  if r.1.outc = .uncorrectable then trap r.2 g 6 (pc.setWidth 32) pc else issue r.2 g { h with kind := .busy }

/-- The fetch of the bundle at the core's pc: it waits for instruction memory, and its parity is checked (R74, R86). -/
def fetch (s : State) (g : CoreId) (h : Held) : State :=
  let c := s.core g
  if s.ready (.imem g) = false then stay s g h .fetch
  else fetched g c.pc h (parityRead (coreParity g 1 false (some c.pc.toNat)) s (imemBase g + c.pc.toNat) 16)

/-- A bundle that has not issued yet. -/
def newHeld (s : State) (b : Bundle) : Held := { kind := .fetch, bundle := b, asked := [], got := [], since := s.cycle }

/-- Core g executes bundle b at its pc; a core that is not RUNNING, or that still holds a bundle, does nothing (log 1). -/
def runBundle (s : State) (g : CoreId) (b : Bundle) : State :=
  let c := s.core g
  if c.st = .running ∧ c.held = none ∧ coreOn s g = true then fetch s g (newHeld s b) else s

/-- What a held bundle waited for may have come: it goes on from where it stopped. A bundle held at fetch is fetched, one held in issue is
issued again. -/
def coreResume (s : State) (g : CoreId) : State :=
  match (s.core g).held with
  | none => s
  | some h =>
    match h.kind with
    | .fetch => fetch s g h
    | .busy => issue s g h
    | _ => settle settleFuel s g

/-- A held bundle goes on where what it waited for has come; a QENQ on a full queue is tried by commands of its own (R54, R72, R73, R96, R140). -/
def coreProgress (s : State) (g : CoreId) : State :=
  match (s.core g).held with
  | none => s
  | some h => if h.kind = .queueFull then s else coreResume s g

/-- The initiator of an answered request goes on. -/
def iniProgress (s : State) (i : Initiator) : State :=
  match i with
  | .core g => coreProgress s g
  | _ => s

end Sys2Proof.Machine
end

