-- ==== Sys2Proof/Machine/RegTools.lean ====
section
/-! DEFINITION. What register files share: answers of a register access, Tally counters as registers, slot numbers and periods (R9,
R12, R37 to R39, R208). -/

namespace Sys2Proof.Machine

/-- The answer to a read of one register: none where the offset holds none. -/
abbrev RdAns := Option (Word × State)
/-- The answer to a write of one register. -/
abbrev WrAns := Option (Outc × State)

/-- A read without a side effect. -/
def rdVal (s : State) (v : Word) : RdAns := some (v, s)
/-- A read of packed fields. -/
def rdPack (s : State) (l : List (Nat × Nat)) : RdAns := some (BitVec.ofNat 32 (packLE l), s)
/-- A write that is done. -/
def wrOk (s : State) : WrAns := some (.ok, s)
/-- A write that is discarded. -/
def wrNo (s : State) : WrAns := some (.notPermitted, s)

/-- A read of a Tally counter by word (R38). -/
def tallyRead (s : State) (lowPa : Nat) (high : Bool) : RdAns :=
  if high then some (tallyReadHigh s lowPa, s) else some (tallyReadLow s lowPa)

/-- Offset `off` lies in a row of n Tally counters of stride 8 from `first`. -/
def inTal (off first n : Nat) : Bool := decide (first ≤ off ∧ off < first + 8 * n)

/-- A read in a block's Tally counters. -/
def talRead (s : State) (base off : Nat) : RdAns := tallyRead s (base + off / 8 * 8) (decide (off % 8 = 4))

/-- A copy of a register bank: index and offset in the copy. -/
def copyOf (off first stride n : Nat) : Option (Nat × Nat) :=
  if first ≤ off ∧ off < first + stride * n then some ((off - first) / stride, (off - first) % stride) else none

/-- A field's value unless it is a reserved encoding, which leaves it (R12). -/
def keepIf {w : Nat} (reserved : Bool) (old new : BitVec w) : BitVec w := if reserved then old else new

/-- The nanoseconds of a slot of numerology num (R208): 1 ms down to 62.5 µs. -/
def slotNs (num : Nat) : Nat := 1000000 / 2 ^ num

/-- MULT divides 10 × 2^num (R208). -/
def multOk (num mult : Nat) : Bool := mult != 0 && decide (10 * 2 ^ num % mult = 0)

/-- NUM and MULT after a write: each reserved encoding leaves its field; MULT is checked with the NUM that results (R12, R208). -/
def periodWrite (oldNum : BitVec 3) (oldMult : BitVec 5) (num : BitVec 3) (mult : BitVec 5) : BitVec 3 × BitVec 5 :=
  let n := keepIf (decide (4 < num.toNat)) oldNum num
  (n, keepIf (!multOk n.toNat mult.toNat) oldMult mult)

/-- The number of the current slot of a numerology in its 10 ms frame (R332). -/
def slotIndex (s : State) (num : Nat) : Nat := s.cmk.ns % 10000000 / slotNs num

/-- Device time stands in the tick, two CLK_TIM cycles of 66 667 units of 2^−16 ns, in which a slot of the numerology starts; no pulse
reaches a die that is not in RUN (R327, R332). -/
def pulseNow (s : State) (num : Nat) : Bool := decide (s.cmk.ns % slotNs num * 65536 + s.cmk.frac < 133334) && s.lmp.pkg == .run

/-- A period of NUM and MULT begins now (R208). -/
def periodNow (s : State) (num mult : Nat) : Bool := pulseNow s num && decide (slotIndex s num % mult = 0)

end Sys2Proof.Machine
end

