-- ==== Sys2Proof/Machine/Budget.lean ====
section
/-! DEFINITION. Activity budgets: charging, chunks, borrowing, period edges, and the BUD registers (R208 to R213, R220, R221). -/

namespace Sys2Proof.Machine

/-! ## Accessors -/

/-- An activity of a budget controller. -/
def Bud.act (b : Bud) (a : ActId) : BudAct := sget BudAct.reset b.acts a.toNat
/-- Replaces an activity. -/
def Bud.setAct (b : Bud) (a : ActId) (x : BudAct) : Bud := { b with acts := sput BudAct.reset b.acts a.toNat x }

/-- A counter of an activity block. -/
def budTal (s : State) (r : RegionId) (a : ActId) (off n : Nat) : State := tallyAdd s (budBase r + a.toNat * 0x40 + off) n
/-- A counter of the whole BUD. -/
def budAllTal (s : State) (r : RegionId) (off : Nat) : State := tallyAdd s (budBase r + off) 1

/-- The job budget of class c in a set of budget words (R160, R220). -/
def BudWords.jobs (w : BudWords) (c : Nat) : BitVec 16 :=
  let x := if c < 2 then w.joba else if c < 4 then w.jobb else w.jobc
  slice x (16 * (c % 2)) 16

/-- The classes of job budgets. -/
def jobTable (f : Nat → BitVec 16) : Sparse (BitVec 16) := (List.range 6).foldl (fun m c => sput 0 m c (f c)) []

/-! ## Overrun (R211) -/

/-- Overrun cycles of an activity in a cluster: counted, and the first of the period in the region reported. -/
def overrun (s : State) (gc : ClusterId) (a : ActId) (n : Nat) : State :=
  if n = 0 then s
  else
    let r := clusterRegion gc
    let s1 := schTal (budTal s r a 0x28 n) gc 0x230 n
    let x := (s1.bud r).act a
    if x.ovr then s1
    else
      let d : Word := BitVec.ofNat 32 (packLE [(9, a.toNat), (7, 0), (6, gc.toNat)])
      report (s1.setBud r ((s1.bud r).setAct a { x with ovr := true })) (srcRegion r 2) d

/-- One CLK_CORE cycle of a running task is charged (R209, R211). -/
def chargeCycle (s : State) (gc : ClusterId) (k : BitVec 3) : State :=
  let x := s.slice gc
  let y := x.score k
  match y.st, y.cur with
  | .running, some t =>
    let a := eAct t.raw
    let h := x.hold a
    let x1 := x.setScore k { y with cur := some { t with charged := t.charged + 1 } }
    let s1 := budTal (s.setSlice gc (if h.exh then x1 else x1.setHold a { h with held := h.held - 1 })) (clusterRegion gc) a 0x20 1
    if h.exh then overrun s1 gc a 1 else s1
  | _, _ => s

/-! ## Chunks (R209 to R211) -/

/-- The cores of a slice that run a task of an activity. -/
def coresRunning (x : Slice) (a : ActId) : List (BitVec 3) :=
  ((List.range 8).map (fun k => BitVec.ofNat 3 k)).filter (fun k =>
    (x.score k).st == .running && (match (x.score k).cur with | some t => eAct t.raw == a | none => false))

/-- What the BUD answers to a chunk request: the amount, or a refusal. -/
def budAnswer (s : State) (r : RegionId) (a : ActId) : Option Nat × State :=
  let b := s.bud r
  let x := b.act a
  if x.en = false then (some 4096, budAllTal s r 0x8100)
  else if x.left ≠ 0 then
    let n := min 4096 x.left.toNat
    (some n, budAllTal (s.setBud r (b.setAct a { x with left := x.left - BitVec.ofNat 32 n })) r 0x8100)
  else if x.borrow ∧ x.borrowed.toNat < bits x.cur.bmax.toNat 0 16 ∧ b.rsvEn ∧ b.rsvLeft ≠ 0 then
    let n := min 4096 b.rsvLeft.toNat
    let b1 := { b.setAct a { x with borrowed := x.borrowed + 1 } with rsvLeft := b.rsvLeft - BitVec.ofNat 32 n }
    (some n, budTal (budAllTal (s.setBud r b1) r 0x8100) r a 0x38 1)
  else
    let s1 := budAllTal (s.setBud r (b.setAct a { x with exh := true })) r 0x8108
    (none, if x.exh then s1 else budTal s1 r a 0x30 1)

/-- A slice asks for a chunk when its holding is below 4 096 and no request is out (R209). -/
def doChunkRequest (s : State) (gc : ClusterId) (a : ActId) : State :=
  let x := s.slice gc
  let h := x.hold a
  let r := clusterRegion gc
  if h.asked ∨ h.exh ∨ 4096 ≤ h.held ∨ coresRunning x a = [] then s
  else
    let (n, s1) := budAnswer s r a
    let b := s1.bud r
    let s2 := s1.setBud r { b with msgs := b.msgs ++ [{ gc := gc, act := a, amount := n, parity := (b.act a).parity }] }
    s2.setSlice gc ((s2.slice gc).setHold a { h with asked := true })

/-- PREEMPT with BUDGET = 1 for a running task of a pre-emptible class with room in the suspend set (R211). -/
def budgetPreempt (s : State) (gc : ClusterId) (k : BitVec 3) : State :=
  let x := s.slice gc
  let y := x.score k
  match y.cur with
  | none => s
  | some t =>
    if clsPreempt x t.cls ∧ y.susp.length < 8 ∧ y.next = none ∧ y.preempt = none then
      schTal (s.setSlice gc (x.setScore k { y with preempt := some (dispatchTval t false true) })) gc 0x208 1
    else s

/-- The refusal of a chunk at the slice: the activity is exhausted in the cluster (R211). -/
def exhaust (s : State) (gc : ClusterId) (a : ActId) : State :=
  let x := s.slice gc
  let h := x.hold a
  let deficit := if h.held < 0 then h.held.natAbs else 0
  let s1 := s.setSlice gc (x.setHold a { h with held := 0, exh := true, asked := false })
  overrun ((coresRunning x a).foldl (fun t k => budgetPreempt t gc k) s1) gc a deficit

/-- The first answer on its way to a slice for an activity. -/
def takeMsg (l : List ChunkMsg) (gc : ClusterId) (a : ActId) : Option (ChunkMsg × List ChunkMsg) :=
  match l with
  | [] => none
  | m :: rest =>
    if m.gc = gc ∧ m.act = a then some (m, rest)
    else (takeMsg rest gc a).map (fun p => (p.1, m :: p.2))

/-- A chunk answer reaches its slice; one of the previous period is discarded (R209, R211, R212). -/
def doChunkAnswer (s : State) (gc : ClusterId) (a : ActId) : State :=
  let r := clusterRegion gc
  let b := s.bud r
  match takeMsg b.msgs gc a with
  | none => s
  | some (m, rest) =>
    let s1 := s.setBud r { b with msgs := rest }
    let x := s1.slice gc
    let h := x.hold a
    if m.parity ≠ (b.act a).parity then s1.setSlice gc (x.setHold a { h with asked := false })
    else
      match m.amount with
      | some n => s1.setSlice gc (x.setHold a { h with held := h.held + n, asked := false, parity := m.parity })
      | none => if (b.act a).en then exhaust s1 gc a else s1.setSlice gc (x.setHold a { h with asked := false })

/-! ## Job budgets (R160, R210) -/

/-- What an engine's budget check finds. -/
inductive JobBudget where
  | taken
  | borrow
  | exhausted
  deriving DecidableEq, Repr

/-- The check of class c (order 8 of R153): a job is taken, a borrow must be asked for, or the budget is spent. -/
def jobCheck (s : State) (r : RegionId) (a : ActId) (c : Nat) : JobBudget × State :=
  let b := s.bud r
  let x := b.act a
  let left := sget 0 x.jobsLeft c
  if x.en = false ∨ x.cur.jobs c = 0xFFFF then (.taken, s)
  else if left ≠ 0 then (.taken, s.setBud r (b.setAct a { x with jobsLeft := sput 0 x.jobsLeft c (left - 1) }))
  else (if x.borrow then .borrow else .exhausted, s)

/-- The answer to a job borrow (R210): true when a job was taken from the reserve. -/
def jobBorrow (s : State) (r : RegionId) (a : ActId) (c : Nat) : Bool × State :=
  let b := s.bud r
  let x := b.act a
  let n := sget 0 x.jobsBorrowed c
  let rsv := sget 0 b.rsvJobs c
  if x.borrow ∧ n.toNat < bits x.cur.bmax.toNat 16 16 ∧ b.rsvEn ∧ rsv ≠ 0 then
    let b1 := b.setAct a { x with jobsBorrowed := sput 0 x.jobsBorrowed c (n + 1) }
    (true, budTal (s.setBud r { b1 with rsvJobs := sput 0 b.rsvJobs c (rsv - 1) }) r a 0x38 1)
  else (false, s)

/-! ## Period edges (R208, R212) -/

/-- The clusters of a region. -/
def regionClusters (r : RegionId) : List ClusterId := (List.range 4).map (fun c => clusterOf r (BitVec.ofNat 2 c))

/-- Discards the holdings and exhaustion of an activity in the slices of a region. -/
def clearHolds (s : State) (r : RegionId) (a : ActId) (par : Bool) : State :=
  (regionClusters r).foldl (fun t gc =>
    let x := t.slice gc
    t.setSlice gc (x.setHold a { x.hold a with held := 0, exh := false, parity := par })) s

/-- Steps 1 to 3 of R212. -/
def budEdge (s : State) (r : RegionId) (a : ActId) : State :=
  let b := s.bud r
  let x := b.act a
  let w := x.staged.getD x.cur
  let x1 := { x with cur := w, staged := none, left := w.cyc, jobsLeft := jobTable w.jobs, jobsBorrowed := [], borrowed := 0,
                     exh := false, ovr := false, parity := !x.parity }
  clearHolds (s.setBud r (b.setAct a x1)) r a x1.parity

/-- The reserve refills (R212). -/
def reserveFill (s : State) (r : RegionId) : State :=
  let b := s.bud r
  let w : BudWords := { cyc := b.rsvCyc, joba := b.rsvJobA, jobb := b.rsvJobB, jobc := b.rsvJobC, bmax := 0 }
  s.setBud r { b with rsvLeft := b.rsvCyc, rsvJobs := jobTable w.jobs }

/-- An activity's period edge at a slot pulse (R208, R212). -/
def doBudgetEdge (s : State) (r : RegionId) (a : ActId) : State :=
  let x := (s.bud r).act a
  if x.en ∧ periodNow s x.num.toNat x.mult.toNat = true then budEdge s r a else s

/-- A reserve period's edge. -/
def doReserveEdge (s : State) (r : RegionId) : State :=
  let b := s.bud r
  if b.rsvEn ∧ periodNow s b.rsvNum.toNat b.rsvMult.toNat = true then reserveFill s r else s

/-- A DRAM budget (R213, R221). -/
def State.dbud (s : State) (a : ActId) : DBud := sget DBud.reset s.edc.dbud a.toNat
/-- Replaces a DRAM budget. -/
def State.setDbud (s : State) (a : ActId) (d : DBud) : State :=
  { s with edc := { s.edc with dbud := sput DBud.reset s.edc.dbud a.toNat d } }

/-- A DRAM budget's period begins: the staged limit applies, the count starts from 0 (R213, R221). -/
def dbudEdge (s : State) (a : ActId) : State :=
  let d := s.dbud a
  s.setDbud a { d with lim := d.staged.getD d.lim, staged := none, units := 0 }

/-- A DRAM budget's edge at a slot pulse. -/
def doDramEdge (s : State) (a : ActId) : State :=
  let d := s.dbud a
  if d.en ∧ periodNow s d.num.toNat d.mult.toNat = true then dbudEdge s a else s

/-! ## Registers of an activity (R208, R212, R220) -/

/-- BUD_ACTn_CFG written: while EN = 1 NUM, MULT and BORROW may not change; EN rising is an edge, EN falling releases exhaustion. -/
def budCfgWrite (s : State) (r : RegionId) (a : ActId) (v : Word) : Outc × State :=
  let b := s.bud r
  let x := b.act a
  let bw := v.getLsbD 9
  if x.en ∧ (slice v 1 3 ≠ x.num ∨ slice v 4 5 ≠ x.mult ∨ bw ≠ x.borrow) then (.notPermitted, s)
  else
    let (n, m) := periodWrite x.num x.mult (slice v 1 3) (slice v 4 5)
    let s1 := s.setBud r (b.setAct a { x with en := v.getLsbD 0, num := n, mult := m, borrow := bw })
    if v.getLsbD 0 ∧ x.en = false then (.ok, budEdge s1 r a)
    else if v.getLsbD 0 = false then
      (.ok, (regionClusters r).foldl (fun t gc =>
        let y := t.slice gc
        t.setSlice gc (y.setHold a { y.hold a with exh := false })) s1)
    else (.ok, s1)

/-- A budget word replaced in a set. -/
def BudWords.set (w : BudWords) (i : BudWord) (v : Word) : BudWords :=
  match i with
  | .cyc => { w with cyc := v }
  | .joba => { w with joba := v }
  | .jobb => { w with jobb := v }
  | .jobc => { w with jobc := v }
  | .bmax => { w with bmax := v }

/-- A budget word. -/
def BudWords.word (w : BudWords) : BudWord → Word
  | .cyc => w.cyc
  | .joba => w.joba
  | .jobb => w.jobb
  | .jobc => w.jobc
  | .bmax => w.bmax

/-- A write of a budget word: staged while EN = 1, at once while EN = 0 (R220). -/
def budWordWrite (s : State) (r : RegionId) (a : ActId) (i : BudWord) (v : Word) : State :=
  let b := s.bud r
  let x := b.act a
  let w := (x.staged.getD x.cur).set i v
  s.setBud r (b.setAct a (if x.en then { x with staged := some w } else { x with cur := w }))

/-- The register offset of a budget word. -/
def budWordOff : BudWord → Nat
  | .cyc => 0x04
  | .joba => 0x08
  | .jobb => 0x0C
  | .jobc => 0x10
  | .bmax => 0x14

/-- The budget word at an offset. -/
def budWordAt (o : Nat) : Option BudWord :=
  [BudWord.cyc, .joba, .jobb, .jobc, .bmax].find? (fun i => budWordOff i == o)

/-- BUD_RSVCFG written; EN rising fills the reserve (R212). -/
def rsvCfgWrite (s : State) (r : RegionId) (v : Word) : State :=
  let b := s.bud r
  let (n, m) := periodWrite b.rsvNum b.rsvMult (slice v 1 3) (slice v 4 5)
  let s1 := s.setBud r { b with rsvEn := v.getLsbD 0, rsvNum := n, rsvMult := m }
  if v.getLsbD 0 ∧ b.rsvEn = false then reserveFill s1 r else s1

/-- EDC_DBUDn_CFG written; the period rules of R208, with the edge at EN rising (R213; log 14). -/
def dbudCfgWrite (s : State) (a : ActId) (v : Word) : State :=
  let d := s.dbud a
  let (n, m) := periodWrite d.num d.mult (slice v 1 3) (slice v 4 5)
  let s1 := s.setDbud a { d with en := v.getLsbD 0, num := n, mult := m }
  if v.getLsbD 0 ∧ d.en = false then dbudEdge s1 a else s1

/-- EDC_DBUDn_LIM written: staged while EN = 1 (R221). -/
def dbudLimWrite (s : State) (a : ActId) (v : Word) : State :=
  let d := s.dbud a
  s.setDbud a (if d.en then { d with staged := some (slice v 0 28) } else { d with lim := slice v 0 28 })

/-- A read in a region's BUD block (R220). -/
def budRead (s : State) (r : RegionId) (off : Nat) : RdAns :=
  let b := s.bud r
  match copyOf off 0 0x40 512 with
  | some (n, o) =>
    let x := b.act (BitVec.ofNat 9 n)
    if o = 0 then rdPack s [(1, b2n x.en), (3, x.num.toNat), (5, x.mult.toNat), (1, b2n x.borrow)]
    else if o = 0x18 then rdVal s x.left
    else if o = 0x1C then rdPack s [(1, b2n x.exh), (1, b2n x.ovr), (14, 0), (16, x.borrowed.toNat)]
    else if 0x20 ≤ o then talRead s (budBase r) off
    else
      match budWordAt o with
      | some i => rdVal s ((x.staged.getD x.cur).word i)
      | none => none
  | none =>
    if off = 0x8000 then rdPack s [(1, b2n b.rsvEn), (3, b.rsvNum.toNat), (5, b.rsvMult.toNat)]
    else if off = 0x8004 then rdVal s b.rsvCyc
    else if off = 0x8008 then rdVal s b.rsvJobA
    else if off = 0x800C then rdVal s b.rsvJobB
    else if off = 0x8010 then rdVal s b.rsvJobC
    else if off = 0x8014 then rdVal s b.rsvLeft
    else if inTal off 0x8100 2 then talRead s (budBase r) off
    else none

/-- A write in a region's BUD block (R220). -/
def budWrite (s : State) (r : RegionId) (off : Nat) (v : Word) : WrAns :=
  let b := s.bud r
  match copyOf off 0 0x40 512 with
  | some (n, o) =>
    let a : ActId := BitVec.ofNat 9 n
    if o = 0 then some (budCfgWrite s r a v)
    else if 0x18 ≤ o then wrOk s
    else
      match budWordAt o with
      | some i => wrOk (budWordWrite s r a i v)
      | none => none
  | none =>
    if off = 0x8000 then wrOk (rsvCfgWrite s r v)
    else if off = 0x8004 then wrOk (s.setBud r { b with rsvCyc := v })
    else if off = 0x8008 then wrOk (s.setBud r { b with rsvJobA := v })
    else if off = 0x800C then wrOk (s.setBud r { b with rsvJobB := v })
    else if off = 0x8010 then wrOk (s.setBud r { b with rsvJobC := v })
    else if off = 0x8014 ∨ inTal off 0x8100 2 then wrOk s
    else none

/-! ## Meanings -/

/-- CHUNK_REQUEST (R209, R210). -/
def execChunkRequest (gc : ClusterId) (act : ActId) (s : State) : Host.Outcome State Fault Refusal := .next (doChunkRequest s gc act)
/-- CHUNK_ANSWER (R209, R211). -/
def execChunkAnswer (gc : ClusterId) (act : ActId) (s : State) : Host.Outcome State Fault Refusal := .next (doChunkAnswer s gc act)
/-- BUDGET_PERIOD_EDGE (R208, R212). -/
def execBudgetPeriodEdge (r : RegionId) (act : ActId) (s : State) : Host.Outcome State Fault Refusal := .next (doBudgetEdge s r act)
/-- RESERVE_PERIOD_EDGE (R212). -/
def execReservePeriodEdge (r : RegionId) (s : State) : Host.Outcome State Fault Refusal := .next (doReserveEdge s r)
/-- DRAM_BUDGET_PERIOD_EDGE (R213). -/
def execDramBudgetPeriodEdge (act : ActId) (s : State) : Host.Outcome State Fault Refusal := .next (doDramEdge s act)

/-- The state after a register write that answers its initiator. -/
def wrAnswer (x : Outc × State) : State := x.2.answerOnly x.1

/-- BUDGET_ENABLE: a write of BUD_ACTn_CFG with EN = 1 (R212, R220). -/
def execBudgetEnable (who : Initiator) (r : RegionId) (act : ActId) (v : Word) (s : State) : Host.Outcome State Fault Refusal :=
  .next (regCmd s who (budBase r + act.toNat * 0x40) (fun t => wrAnswer (budCfgWrite t r act (v ||| 1))))
/-- BUDGET_DISABLE: a write of BUD_ACTn_CFG with EN = 0 (R208, R220). -/
def execBudgetDisable (who : Initiator) (r : RegionId) (act : ActId) (v : Word) (s : State) : Host.Outcome State Fault Refusal :=
  .next (regCmd s who (budBase r + act.toNat * 0x40) (fun t => wrAnswer (budCfgWrite t r act (v &&& ~~~1))))
/-- RESERVE_ENABLE: a write of BUD_RSVCFG with EN = 1 (R212). -/
def execReserveEnable (who : Initiator) (r : RegionId) (v : Word) (s : State) : Host.Outcome State Fault Refusal :=
  .next (regCmd s who (budBase r + 0x8000) (fun t => wrAnswer (.ok, rsvCfgWrite t r (v ||| 1))))
/-- BUD_BUDGET_WRITE (R220). -/
def execBudBudgetWrite (who : Initiator) (r : RegionId) (act : ActId) (w : BudWord) (v : Word) (s : State) :
    Host.Outcome State Fault Refusal :=
  .next (regCmd s who (budBase r + act.toNat * 0x40 + budWordOff w) (fun t => wrAnswer (.ok, budWordWrite t r act w v)))

end Sys2Proof.Machine
end

