-- ==== Sys2Proof/Machine/SchedRegs.lean ====
section
/-! DEFINITION. The registers of a cluster: CLU with its ring windows (R137, R139 to R143), and the scheduler slice (R184, R219). -/

namespace Sys2Proof.Machine

/-! ## CLU (R137, R143) -/

/-- CLU_WBASEn written: the base is staged (R137). -/
def cluWbaseEff (s : State) (gc : ClusterId) (n : BitVec 4) (v : Word) : State :=
  let c := s.clu gc
  s.setClu gc { c with wstage := sput 0 c.wstage n.toNat (slice v 6 14), wpend := c.wpend ||| BitVec.ofNat 16 (2 ^ n.toNat) }

/-- CLU_WLENn written: length and staged base take effect together; a reserved length changes nothing (R137). -/
def cluWlenEff (s : State) (gc : ClusterId) (n : BitVec 4) (v : Word) : State :=
  let c := s.clu gc
  let l : BitVec 11 := slice v 0 11
  if 1024 < l.toNat then s
  else
    s.setClu gc { c with wlen := sput 0 c.wlen n.toNat l,
                         wbase := if c.wpend.getLsbD n.toNat then sput 0 c.wbase n.toNat (sget 0 c.wstage n.toNat) else c.wbase,
                         wpend := c.wpend &&& ~~~(BitVec.ofNat 16 (2 ^ n.toNat)) }

/-- CLU_INITCTL.START = 1: CM is initialised again; ignored while DONE is 0 (R141, R142). -/
def cmInitEff (s : State) (gc : ClusterId) : State := if initDone s gc then startInit s (.cm gc) else s

/-- The initialiser of a memory is done (R139, R407). -/
def doInitDone (s : State) (m : InitMem) : State := if s.initOf m = .busy then s.setInit m .done else s

/-- A read in the CLU block. -/
def cluRead (s : State) (gc : ClusterId) (off : Nat) : RdAns :=
  let c := s.clu gc
  let core := ((clusterMems gc).drop 1).any (fun m => s.initOf m == .busy)
  if off = 0 then rdPack s [(1, b2n (initDone s gc)), (1, b2n (s.initOf (.cm gc) == .busy)), (1, b2n core)]
  else if off = 4 then rdVal s 0
  else if off = 8 then rdVal s (c.wpend.setWidth 32)
  else
    match copyOf off 0x100 8 16 with
    | some (n, o) =>
      if o = 0 then rdPack s [(6, 0), (14, (sget 0 c.wbase n).toNat)]
      else if o = 4 then rdPack s [(11, (sget 0 c.wlen n).toNat)]
      else none
    | none => if inTal off 0x200 5 then talRead s (cluBase gc) off else none

/-- A write in the CLU block. -/
def cluWrite (s : State) (gc : ClusterId) (off : Nat) (v : Word) : WrAns :=
  if off = 0 ∨ off = 8 then wrOk s
  else if off = 4 then wrOk (if v.getLsbD 0 then cmInitEff s gc else s)
  else
    match copyOf off 0x100 8 16 with
    | some (n, o) =>
      if o = 0 then wrOk (cluWbaseEff s gc (BitVec.ofNat 4 n) v)
      else if o = 4 then wrOk (cluWlenEff s gc (BitVec.ofNat 4 n) v)
      else none
    | none => if inTal off 0x200 5 then wrOk s else none

/-! ## SCH (R184, R219) -/

/-- SCH_QCFG as read. -/
def qcfgWord (q : Queue) : Word :=
  BitVec.ofNat 32 (packLE [(1, b2n q.en), (2, q.typ.toNat), (2, q.cons.toNat), (3, q.qprio.toNat), (1, b2n q.actchk), (1, b2n q.remote),
    (6, 0), (9, q.act.toNat)])

/-- The fields of SCH_QCFG after a write; TYPE and CONS 3 are reserved (R12). -/
def qcfgSet (q : Queue) (v : Word) : Queue :=
  { q with en := v.getLsbD 0, typ := keepIf (slice v 1 2 == (3 : BitVec 2)) q.typ (slice v 1 2),
           cons := keepIf (slice v 3 2 == (3 : BitVec 2)) q.cons (slice v 3 2), qprio := slice v 5 3, actchk := v.getLsbD 8,
           remote := v.getLsbD 9, act := slice v 16 9 }

/-- The write of SCH_QCFG for a queue (R184): enabling needs a capacity and a store inside CM, disabling an empty queue, and an enabled
queue changes nothing but EN. -/
def qcfgAns (q : Queue) (v : Word) : Option Queue :=
  let q1 := qcfgSet q v
  if q.en then
    if { q1 with en := true } ≠ q then none
    else if q1.en then some q1
    else if q.ents = [] then some q1 else none
  else if q1.en then
    if 1 ≤ q.cap.toNat ∧ q.cap.toNat ≤ 4096 ∧ q.base.toNat * 32 + q.cap.toNat * 32 ≤ 0x100000 then some q1 else none
  else some q1

/-- SCH_QCFG written for the queue that SCH_QIDX selects. -/
def qcfgWrite (s : State) (gc : ClusterId) (v : Word) : Outc × State :=
  let x := s.slice gc
  match qcfgAns (x.queue x.qidx) v with
  | some q => (.ok, s.setSlice gc (x.setQueue x.qidx q))
  | none => (.notPermitted, s)

/-- The head of a queue is held by exhaustion (R211, R219). -/
def exhCand (x : Slice) (gc : ClusterId) (lq : BitVec 10) : Bool :=
  match queueCand x gc lq with
  | some c => candExh x c
  | none => false

/-- Tally counters of the slice block, other than those per queue. -/
def schTalOff (off : Nat) : Bool := inTal off 0x200 14 || inTal off 0x600 16
/-- Tally counters of the selected queue. -/
def qTalOff (off : Nat) : Bool := inTal off 0x400 5 || inTal off 0x480 16

/-- A read in the slice block (R219). -/
def schRead (s : State) (gc : ClusterId) (off : Nat) : RdAns :=
  let x := s.slice gc
  let q := x.queue x.qidx
  if off = 0x00 then rdPack s [(8, x.coreen.toNat), (1, b2n x.stealen), (1, b2n x.giveen)]
  else if off = 0x04 then rdVal s (x.enqtmo.setWidth 32)
  else if off = 0x08 then rdVal s (x.stealidle.setWidth 32)
  else if off = 0x0C then rdVal s (x.histScale.setWidth 32)
  else if off = 0x10 then rdPack s [(3, x.loadNum.toNat), (5, x.loadMult.toNat)]
  else if off = 0x14 then rdVal s (x.qidx.setWidth 32)
  else if off = 0x18 then rdVal s (qcfgWord q)
  else if off = 0x1C then rdPack s [(5, 0), (15, q.base.toNat)]
  else if off = 0x20 then rdVal s (q.cap.setWidth 32)
  else if off = 0x24 then rdPack s [(16, q.recEntry.toNat), (8, q.recAff.toNat), (4, q.recClass.toNat)]
  else if off = 0x28 then rdPack s [(13, q.ents.length), (3, 0), (1, b2n (queueFull q)), (1, b2n (exhCand x gc x.qidx))]
  else if schTalOff off then talRead s (schBase gc) off
  else if qTalOff off then tallyRead s (qtalKey (queueOf gc x.qidx) (off / 8 * 8)) (decide (off % 8 = 4))
  else
    match copyOf off 0x40 4 16 with
    | some (n, _) => rdVal s ((sget 0 x.cls n).setWidth 32)
    | none =>
      match copyOf off 0x80 4 8 with
      | some (k, _) =>
        let y := x.score (BitVec.ofNat 3 k)
        rdPack s [(3, schedStateCode s gc (BitVec.ofNat 3 k)), (1, b2n y.notice), (1, b2n y.killed), (3, 0), (4, y.susp.length),
          (4, 0), (9, match y.cur with | some t => (eAct t.raw).toNat | none => 0)]
      | none =>
        match copyOf off 0xA0 4 8 with
        | some (k, _) => rdVal s (x.score (BitVec.ofNat 3 k)).load
        | none => none

/-- A write in the slice block (R184, R219). -/
def schWrite (s : State) (gc : ClusterId) (off : Nat) (v : Word) : WrAns :=
  let x := s.slice gc
  let q := x.queue x.qidx
  let set := fun (y : Slice) => wrOk (s.setSlice gc y)
  let setQ := fun (y : Queue) => if q.en then wrNo s else set (x.setQueue x.qidx y)
  if off = 0x00 then set { x with coreen := slice v 0 8, stealen := v.getLsbD 8, giveen := v.getLsbD 9 }
  else if off = 0x04 then set { x with enqtmo := slice v 0 24 }
  else if off = 0x08 then set { x with stealidle := keepIf (slice v 0 16 == (0 : BitVec 16)) x.stealidle (slice v 0 16) }
  else if off = 0x0C then set { x with histScale := keepIf (decide (16 < bits v.toNat 0 5)) x.histScale (slice v 0 5) }
  else if off = 0x10 then
    let p := periodWrite x.loadNum x.loadMult (slice v 0 3) (slice v 3 5)
    set { x with loadNum := p.1, loadMult := p.2 }
  else if off = 0x14 then set { x with qidx := slice v 0 10 }
  else if off = 0x18 then some (qcfgWrite s gc v)
  else if off = 0x1C then setQ { q with base := slice v 5 15 }
  else if off = 0x20 then setQ { q with cap := keepIf (decide (4096 < bits v.toNat 0 13)) q.cap (slice v 0 13) }
  else if off = 0x24 then setQ { q with recEntry := bundleAddr (slice v 0 16), recAff := slice v 16 8, recClass := slice v 24 4 }
  else if off = 0x28 ∨ schTalOff off ∨ qTalOff off then wrOk s
  else
    match copyOf off 0x40 4 16 with
    | some (n, _) => set { x with cls := sput 0 x.cls n (slice v 0 2) }
    | none => if (copyOf off 0x80 4 16).isSome then wrOk s else none
where
  /-- Bits [3:0] read 0. -/
  bundleAddr (a : BitVec 16) : BitVec 16 := a &&& 0xFFF0

end Sys2Proof.Machine
end

