-- ==== Sys2Proof/Machine/SchedCmds.lean ====
section
/-! DEFINITION. The meanings of the commands of cluster memory and of the scheduler slice (R137 to R142, R181 to R218). -/

namespace Sys2Proof.Machine

/-! ## Cluster memory -/

/-- CLU_WBASE_WRITE (R137). -/
def execCluWbaseWrite (who : Initiator) (gc : ClusterId) (n : BitVec 4) (v : Word) (s : State) : Host.Outcome State Fault Refusal :=
  .next (regCmd s who (cluBase gc + 0x100 + 8 * n.toNat) (fun t => wrAnswer (.ok, cluWbaseEff t gc n v)))
/-- CLU_WLEN_WRITE (R137, R138). -/
def execCluWlenWrite (who : Initiator) (gc : ClusterId) (n : BitVec 4) (v : Word) (s : State) : Host.Outcome State Fault Refusal :=
  .next (regCmd s who (cluBase gc + 0x104 + 8 * n.toNat) (fun t => wrAnswer (.ok, cluWlenEff t gc n v)))
/-- CM_INIT_START (R141, R142). -/
def execCmInitStart (who : Initiator) (gc : ClusterId) (s : State) : Host.Outcome State Fault Refusal :=
  .next (regCmd s who (cluBase gc + 4) (fun t => wrAnswer (.ok, cmInitEff t gc)))
/-- The cores that may wait for a memory of their cluster (R140). -/
def initWaiters : InitMem → List CoreId
  | .cm gc => (List.range 8).map (fun k => coreOf gc (BitVec.ofNat 3 k))
  | .dmem g => [g]
  | .imem g => [g]
  | .rm _ => []
  | .hub => []
/-- MEMORY_INIT_DONE: the memory is ready, and stalled accesses proceed (R139, R140, R407). -/
def execMemoryInitDone (mem : InitMem) (s : State) : Host.Outcome State Fault Refusal :=
  .next ((initWaiters mem).foldl coreProgress (doInitDone s mem))

/-! ## Queues (R181 to R193) -/

/-- Where an enqueue of an initiator comes from: a core of the queue's cluster, the cascade, or the fabric (R193). -/
def enqFrom (src : Initiator) (q : QueueId) : EnqFrom :=
  match src with
  | .core g => if coreCluster g = queueCluster q then .core g else .fabric
  | .cas _ => .cascade
  | _ => .fabric

/-- An access to a queue aperture meets its way and the gate of the queue's cluster; a core's own does not go through the NI. -/
def queueGate (s : State) (who : Initiator) (q : QueueId) (eff : State) : State :=
  match enqFrom who q with
  | .core _ => eff
  | _ =>
    match queueWay s (iniNode who) q with
    | (.pass, _) => eff
    | (.answer o, t) => t.answerOnly o
    | (.hold u, _) => holdWhole s u

/-- An enqueue with its answer; a full queue gives none, and the source tries again (R193). -/
def doEnqueue (s : State) (src : EnqFrom) (q : QueueId) (e : Entry) : State :=
  match enqueue s src q e with
  | (.accepted, t) => t.answerOnly .ok
  | (.full, t) => t
  | (.refused o, t) => t.answerOnly o

/-- QUEUE_ENQUEUE (R186, R192, R193). -/
def execQueueEnqueue (src : Initiator) (q : QueueId) (entry : Entry) (s : State) : Host.Outcome State Fault Refusal :=
  let f := enqFrom src q
  .next (queueGate s src q (doEnqueue s f q entry))

/-- QUEUE_DEQUEUE (R188, R189, R192). -/
def execQueueDequeue (src : Initiator) (q : QueueId) (s : State) : Host.Outcome State Fault Refusal :=
  .next (queueGate s src q ((dequeue s q).2.answer (dequeue s q).1))

/-- QUEUE_STATUS_READ (R191). -/
def execQueueStatusRead (src : Initiator) (q : QueueId) (s : State) : Host.Outcome State Fault Refusal :=
  let f := enqFrom src q
  .next (queueGate s src q (s.answer { outc := .ok, flags := 0, data := statusRead s f q, poison := [] }))

/-- END by a core (R200, R203); it waits while the record buffer is full (R201). -/
def doEnd (s : State) (g : CoreId) (result : Word) : State :=
  match endCmd s (coreCluster g) (coreIndex g) result with
  | (.done, t) => t.answerOnly .ok
  | (.stall, _) => s
  | (.refused o, t) => t.answerOnly o

/-- END at the CONTROL port of any queue of the core's cluster (R190, R200). -/
def execEndTask (g : CoreId) (_lq : BitVec 10) (result : Word) (s : State) : Host.Outcome State Fault Refusal := .next (doEnd s g result)

/-- CANCEL by an initiator (R190, R202). -/
def doCancel (s : State) (src : EnqFrom) (q : QueueId) (tag : Word) : State :=
  let rq := (s.slice (queueCluster q)).queue (queueLocal q)
  if src = .cascade ∧ rq.remote = false then s.answerOnly .notPermitted else (cancelCmd s q tag).answerOnly .ok

/-- CANCEL (R190, R202 to R204). -/
def execCancel (src : Initiator) (q : QueueId) (tag : Word) (s : State) : Host.Outcome State Fault Refusal :=
  let f := enqFrom src q
  .next (queueGate s src q (doCancel s f q tag))

/-- QUEUE_ENABLE: a write of SCH_QCFG with EN = 1 for the selected queue (R184). -/
def execQueueEnable (who : Initiator) (gc : ClusterId) (v : Word) (s : State) : Host.Outcome State Fault Refusal :=
  .next (regCmd s who (schBase gc + 0x18) (fun t => wrAnswer (qcfgWrite t gc (v ||| 1))))
/-- QUEUE_DISABLE: a write of SCH_QCFG with EN = 0 for the selected queue (R184). -/
def execQueueDisable (who : Initiator) (gc : ClusterId) (v : Word) (s : State) : Host.Outcome State Fault Refusal :=
  .next (regCmd s who (schBase gc + 0x18) (fun t => wrAnswer (qcfgWrite t gc (v &&& ~~~1))))

/-! ## Binding (R194 to R199, R206, R207) -/

/-- Removes the task in the steal slot with an outcome. -/
def dropSteal (s : State) (gc : ClusterId) (t : Task) (o : Outc) : State :=
  let (_, x1) := emitRecord (returnStolen (s.slice gc) t) (taskRecord s t o 0) .none
  s.setSlice gc { x1 with stealSlot := none }

/-- A candidate whose deadline is reached is removed and never runs (R206, R207). -/
def dropLate (s : State) (gc : ClusterId) (c : Cand) : State :=
  match c.src with
  | .queue lq => lateQueued s gc lq
  | .susp k => missReport (dropSusp s gc k c.task .deadlineMissed) gc c.task.qid (some k)
  | .steal => missReport (dropSteal s gc c.task .deadlineMissed) gc c.task.qid none

/-- A poisoned head is removed, counted and reported (R183). -/
def dropBad (s : State) (gc : ClusterId) (c : Cand) : State :=
  match c.src with
  | .queue lq =>
    let x := s.slice gc
    let d : Word := BitVec.ofNat 32 (packLE [(16, (queueOf gc lq).toNat), (4, 2)])
    report (schTal (s.setSlice gc (x.setQueue lq (removeSeq (x.queue lq) c.task.seq))) gc 0x268 1) (srcCluster gc 2) d
  | _ => s

/-- One binding, after poisoned heads have been removed (R183, R195, R206). -/
def bindLoop (gc : ClusterId) : Nat → State → State
  | 0, s => s
  | fuel + 1, s =>
    match pickBind s gc with
    | none => s
    | some (c, k) =>
      if candBad s gc c then bindLoop gc fuel (dropBad s gc c)
      else if taskLate s c.task then dropLate s gc c
      else bindTask s gc c k

/-- One pre-emption, after poisoned heads have been removed (R183, R198, R206). -/
def preemptLoop (gc : ClusterId) : Nat → State → State
  | 0, s => s
  | fuel + 1, s =>
    match pickPreempt s gc with
    | none => s
    | some (c, k) =>
      if candBad s gc c then preemptLoop gc fuel (dropBad s gc c)
      else if taskLate s c.task then dropLate s gc c
      else bindPreempt s gc c k

/-- Entries queued in a slice. -/
def queuedCount (x : Slice) : Nat := x.queues.foldl (fun n p => n + p.2.ents.length) 0

/-- TASK_BIND (R194, R195). -/
def execTaskBind (gc : ClusterId) (s : State) : Host.Outcome State Fault Refusal :=
  .next (if clkOn s gc && !memberHolds s (.slice gc) then bindLoop gc (queuedCount (s.slice gc) + 20) s else s)
/-- PREEMPT_BIND (R198). -/
def execPreemptBind (gc : ClusterId) (s : State) : Host.Outcome State Fault Refusal :=
  .next (if clkOn s gc && !memberHolds s (.slice gc) then preemptLoop gc (queuedCount (s.slice gc) + 20) s else s)

/-- TASK_DEADLINE: the deadline test of one task (R205, R206). -/
def doTaskDeadline (s : State) (gc : ClusterId) : DlSel → State
  | .queueHead lq => lateQueued s gc lq
  | .bound k => lateBound s gc k
  | .suspended k i => lateSusp s gc k i
  | .running k => lateRunning s gc k

/-- TASK_DEADLINE (R205, R206). -/
def execTaskDeadline (gc : ClusterId) (sel : DlSel) (s : State) : Host.Outcome State Fault Refusal := .next (doTaskDeadline s gc sel)

/-! ## Completion records (R201) -/

/-- A record's enqueue that completes with another outcome than OK: dropped, counted, reported (R201). -/
def recordLost (s : State) (gc : ClusterId) (q : QueueId) (o : Outc) : State :=
  let d : Word := BitVec.ofNat 32 (packLE [(16, q.toNat), (4, 1), (5, o.code.toNat)])
  report (schTal s gc 0x260 1) (srcCluster gc 2) d

/-- The oldest record has left the buffer. -/
def popRecord (s : State) (gc : ClusterId) : State :=
  s.updSlice gc (fun x => refillRecords (x.waitRecs.length + 1) { x with recbuf := x.recbuf.drop 1 })

/-- What the queue made of a record. -/
def recordEntered (gc : ClusterId) (r : RecOut) : EnqAns × State → State
  | (.accepted, t) => popRecord t gc
  | (.full, t) => t
  | (.refused o, t) => recordLost (popRecord t gc) gc r.cqid o

/-- A record's way to its queue. -/
def recordVia (s : State) (gc : ClusterId) (r : RecOut) : Gate × State → State
  | (.answer o, t) => recordLost (popRecord t gc) gc r.cqid o
  | (.hold u, _) => holdWhole s u
  | (.pass, _) => recordEntered gc r (enqueue s .fabric r.cqid r.record)

/-- The slice enqueues its oldest record: accepted, held by a full queue, or lost (R201). -/
def doRecordEnqueue (s : State) (gc : ClusterId) (path : PathRes) : State :=
  match (s.slice gc).recbuf with
  | [] => s
  | r :: _ =>
    match path with
    | some o => if o.good then s else recordLost (popRecord s gc) gc r.cqid o
    | none => recordVia s gc r (queueWay s (clusterNode gc) r.cqid)

/-- TASK_RECORD_ENQUEUE (R201). -/
def execTaskRecordEnqueue (gc : ClusterId) (path : PathRes) (s : State) : Host.Outcome State Fault Refusal :=
  .next (doRecordEnqueue s gc path)

/-- LOAD_PERIOD_EDGE: the busy cycles of the period that ends stand in SCH_COREk_LOAD (R218). -/
def doLoadEdge (s : State) (gc : ClusterId) : State :=
  let x := s.slice gc
  if periodNow s x.loadNum.toNat x.loadMult.toNat then
    s.setSlice gc ((List.range 8).foldl (fun y k =>
      let c := y.score (BitVec.ofNat 3 k)
      y.setScore (BitVec.ofNat 3 k) { c with load := BitVec.ofNat 32 c.busy, busy := 0 }) x)
  else s

/-- LOAD_PERIOD_EDGE (R218). -/
def execLoadPeriodEdge (gc : ClusterId) (s : State) : Host.Outcome State Fault Refusal := .next (doLoadEdge s gc)

/-! ## Work stealing (R214, R215) -/

/-- A candidate that the thief may take: a queue head of KIND 1 whose CAFF holds the thief's bit; candidates of a queue are neither
bound nor suspended. -/
def stealable (thief : ClusterId) (c : Cand) : Bool :=
  match c.src with
  | .queue _ => eKind c.task.raw == 1 && (eCaff c.task.raw).getLsbD (thief.toNat % 16)
  | _ => false

/-- The slice signals work that another cluster may steal. -/
def signalsWork (s : State) (gc : ClusterId) : Bool :=
  let x := s.slice gc
  x.giveen && (candidates x gc).any (fun c =>
    match c.src with
    | .queue _ => eKind c.task.raw == 1 && (List.range 16).any (fun i => i != gc.toNat % 16 && (eCaff c.task.raw).getLsbD i)
    | _ => false)

/-- The order in which a thief looks for victims (R214): its region, then the rest of its die from the next index on. -/
def victimOrder (gc : ClusterId) : List ClusterId :=
  let base := gc.toNat / 16 * 16
  let own := gc.toNat % 16
  let near := (List.range 3).map (fun i => own / 4 * 4 + (own + i + 1) % 4)
  let far := ((List.range 15).map (fun i => (own + i + 1) % 16)).filter (fun i => i / 4 != own / 4)
  (near ++ far).map (fun i => BitVec.ofNat 6 (base + i))

/-- A core that could take a task and no dispatchable candidate: the idle condition of R214. -/
def stealIdle (s : State) (gc : ClusterId) : Bool :=
  (List.range 8).any (fun k => coreIdle s gc (BitVec.ofNat 3 k) && decide (((s.slice gc).score (BitVec.ofNat 3 k)).susp.length < 8)) &&
    (pickBind s gc).isNone

/-- The attempt failed: counted, and SCH_STEALIDLE starts again (R214). -/
def stealFail (s : State) (gc : ClusterId) : State :=
  let x := s.slice gc
  let t : Thief := { idleSince := some s.cycle, victims := [], refusals := 0, asking := none, coming := none, refused := false }
  schTal (s.setSlice gc { x with thief := t }) gc 0x250 1

/-- Root cycles of one CLK_CORE cycle of a cluster (R323). -/
def clusterDiv (s : State) (gc : ClusterId) : Nat := 2 + (s.region (clusterRegion gc)).opCur.toNat

/-- A slice that has been idle for SCH_STEALIDLE cycles becomes a thief (R214). -/
def doStealStart (s : State) (gc : ClusterId) : State :=
  let x := s.slice gc
  match x.thief.idleSince with
  | none => s
  | some t0 =>
    if x.stealen = false ∨ stealIdle s gc = false ∨ x.stealSlot ≠ none ∨ x.thief.asking ≠ none ∨
        s.cycle - t0 < x.stealidle.toNat * clusterDiv s gc then s
    else
      match ((victimOrder gc).filter (fun v => signalsWork s v)).take 3 with
      | [] => stealFail s gc
      | v :: rest =>
        s.setSlice gc { x with thief := { x.thief with victims := rest, refusals := 0, asking := some v, coming := none, refused := false } }

/-- STEAL_START (R214). -/
def execStealStart (gc : ClusterId) (s : State) : Host.Outcome State Fault Refusal := .next (if clkOn s gc && !memberHolds s (.slice gc) then doStealStart s gc else s)

/-- The oldest candidate of a victim that the thief may take. -/
def oldestSteal (s : State) (victim thief : ClusterId) : Option Cand :=
  ((candidates (s.slice victim) victim).filter (stealable thief)).foldl (fun b c =>
    match b with
    | none => some c
    | some d => if c.task.seq < d.task.seq then some c else some d) none

/-- The thief hears a refusal. -/
def refuseThief (s : State) (thief : ClusterId) : State :=
  s.updSlice thief (fun y => { y with thief := { y.thief with refused := true } })

/-- The victim answers the thief's request: it gives its oldest stealable candidate and keeps a record, or refuses (R215). -/
def doStealRequest (s : State) (victim thief : ClusterId) : State :=
  let t := (s.slice thief).thief
  if t.asking ≠ some victim ∨ t.coming ≠ none ∨ t.refused then s
  else
    let x := s.slice victim
    if x.giveen = false ∨ 16 ≤ x.stolen.length ∨ clkOn s victim = false ∨ memberHolds s (.slice victim) = true then refuseThief s thief
    else
      match oldestSteal s victim thief with
      | none => refuseThief s thief
      | some c =>
        if candBad s victim c then dropBad s victim c
        else
          match c.src with
          | .queue lq =>
            let x1 := x.setQueue lq (removeSeq (x.queue lq) c.task.seq)
            let r : Stolen := { tag := eTag c.task.raw, qid := c.task.qid, thief := thief, cancelled := false }
            let s1 := schTal (s.setSlice victim { x1 with stolen := x1.stolen ++ [r] }) victim 0x248 1
            s1.updSlice thief (fun y => { y with thief := { y.thief with coming := some { c.task with stolen := true, home := victim } } })
          | _ => refuseThief s thief

/-- STEAL_REQUEST (R215). -/
def execStealRequest (victim thief : ClusterId) (s : State) : Host.Outcome State Fault Refusal := .next (doStealRequest s victim thief)

/-- The task reaches the thief's steal slot (R215). -/
def doStealReceive (s : State) (gc : ClusterId) : State :=
  let x := s.slice gc
  match x.thief.coming with
  | none => s
  | some t =>
    let th : Thief := { idleSince := none, victims := [], refusals := 0, asking := none, coming := none, refused := false }
    schTal (s.setSlice gc { x with thief := th, stealSlot := some { t with seq := x.seq }, seq := x.seq + 1 }) gc 0x240 1

/-- STEAL_RECEIVE (R215). -/
def execStealReceive (thief : ClusterId) (s : State) : Host.Outcome State Fault Refusal := .next (doStealReceive s thief)

/-- A refusal reaches the thief: the next victim is asked, or the attempt fails (R214). -/
def doStealRefusal (s : State) (gc : ClusterId) : State :=
  let x := s.slice gc
  let t := x.thief
  if t.refused = false then s
  else
    match t.victims with
    | v :: rest =>
      if t.refusals + 1 < 3 then
        s.setSlice gc { x with thief := { t with victims := rest, refusals := t.refusals + 1, asking := some v, refused := false } }
      else stealFail s gc
    | [] => stealFail s gc

/-- STEAL_REFUSAL (R214). -/
def execStealRefusal (thief : ClusterId) (s : State) : Host.Outcome State Fault Refusal := .next (doStealRefusal s thief)

/-- Removes the first stolen record of a tag and queue. -/
def dropStolen (l : List Stolen) (tag : Word) (q : QueueId) : List Stolen :=
  match l with
  | [] => []
  | r :: rest => if r.tag = tag ∧ r.qid = q then rest else r :: dropStolen rest tag q

/-- A completed stolen task's record returns to the victim (R215). -/
def doRecordReturn (s : State) (gc : ClusterId) : State :=
  let x := s.slice gc
  match x.back with
  | [] => s
  | (home, tag, q) :: rest =>
    (s.setSlice gc { x with back := rest }).updSlice home (fun v => { v with stolen := dropStolen v.stolen tag q })

/-- STEAL_RECORD_RETURN (R215). -/
def execStealRecordReturn (thief : ClusterId) (s : State) : Host.Outcome State Fault Refusal := .next (doRecordReturn s thief)

/-- The cancel of a stolen task acts at the thief (R202, R215). -/
def cancelAtThief (s : State) (thief : ClusterId) (q : QueueId) (tag : Word) : State :=
  let s1 := match (s.slice thief).stealSlot with
    | some t => if matchTask q tag t then dropSteal s thief t .cancelled else s
    | none => s
  (List.range 8).foldl (fun t k => (cancelCore t thief q tag (BitVec.ofNat 3 k)).2) s1

/-- A cancel at the victim's queue is forwarded to the thief through the record; it follows the task (R215). -/
def doCancelForward (s : State) (victim : ClusterId) : State :=
  let x := s.slice victim
  match x.stolen.find? (fun r => r.cancelled) with
  | none => s
  | some r =>
    if (s.slice r.thief).thief.coming ≠ none then s
    else
      let same := fun (y : Stolen) => y.tag == r.tag && y.qid == r.qid && y.thief == r.thief
      let s1 := s.setSlice victim { x with stolen := x.stolen.map (fun y => if same y then { y with cancelled := false } else y) }
      cancelAtThief s1 r.thief r.qid r.tag

/-- STEAL_CANCEL_FORWARD (R215). -/
def execStealCancelForward (victim : ClusterId) (s : State) : Host.Outcome State Fault Refusal := .next (doCancelForward s victim)

end Sys2Proof.Machine
end

