-- ==== Sys2Proof/Machine/Plain.lean ====
section
/-! DEFINITION. Plain memory as a target, and whole accesses to it by the blocks that make no packets visible: their route, the gate of
each target, and the answers joined in address order (R24, R29, R42, R126 to R140, R152, R222, R238, R239, R399 to R410). -/

namespace Sys2Proof.Machine

/-! ## Plain memory at the target -/

/-- An answer of a target: none while it cannot answer yet (R140, R407, R410). -/
abbrev TgtAns := Option (Ans × State)

/-- The requester code of the NI in a CM detail word; the read phase of a byte merge has the next code (R508). -/
def niReq : Nat := 16

/-- The memory behind a plain address and the address of its first byte there; none where there is no plain memory, with the disabled
window of R133 told apart. -/
inductive PlainAt where
  | bulk (m : Option InitMem)
  | cm (gc : ClusterId) (a : Nat)
  | core (g : CoreId) (mem : Nat) (im : InitMem)
  | winOff (gc : ClusterId)
  | none
  deriving DecidableEq, Repr

/-- What a plain address is (R23 to R27, R132, R133). -/
def plainAt (s : State) (pa : Pa) : PlainAt :=
  match place pa with
  | .dram _ => .bulk none
  | .hubMem _ => .bulk (some .hub)
  | .rm r _ => .bulk (some (.rm r))
  | .cm gc o => .cm gc (clusterBase gc + o)
  | .ringWin gc n o =>
    match winMap (s.clu gc) n o with
    | some x => .cm gc (clusterBase gc + x)
    | none => .winOff gc
  | .dmem g _ => .core g 0 (.dmem g)
  | .imem g _ => .core g 1 (.imem g)
  | _ => .none

/-- A refused ring window is counted (R133). -/
def winFault (s : State) (gc : ClusterId) : Ans × State := (Ans.only .routeFault, tallyAdd s (cluBase gc + 0x200 + 0x18) 1)

/-- A read of bytes within one 64-byte block, or of several blocks of a bulk memory, by a fabric request. -/
def plainRead (s : State) (pa n : Nat) (act : ActId) : TgtAns :=
  match plainAt s (BitVec.ofNat 44 pa) with
  | .bulk m => if (m.map s.ready).getD true then some (bulkRead s pa n act) else none
  | .cm gc a => if s.ready (.cm gc) then some (parityRead (cmParity gc niReq) s a n) else none
  | .core g mem im => if s.ready im then some (parityRead (coreParity g mem true none) s pa n) else none
  | .winOff gc => some (winFault s gc)
  | .none => some (Ans.only .routeFault, s)

/-- A write of enabled bytes within one 64-byte block, or several blocks of a bulk memory. -/
def plainWrite (s : State) (pa : Nat) (d : List (Option Byte)) (poison : BitVec 128) (act : ActId) : TgtAns :=
  match plainAt s (BitVec.ofNat 44 pa) with
  | .bulk m => if (m.map s.ready).getD true then some (bulkWrite s pa d poison act) else none
  | .cm gc a => if s.ready (.cm gc) then some (parityMerge (cmParity gc (niReq + 1)) s a d poison) else none
  | .core g mem im => if s.ready im then some (parityMerge (coreParity g mem true none) s pa d poison) else none
  | .winOff gc => some (winFault s gc)
  | .none => some (Ans.only .routeFault, s)

/-! ## Whole accesses -/

/-- What a whole access came to: it waits (with the wake it began), or it is answered. -/
inductive Acc where
  | wait (t : State)
  | done (a : Ans) (t : State)
  deriving DecidableEq, Repr

/-- An access along its path: the initiating NI, the ports of the route, the target node's part f, and the way back (R35, R239 to R242,
R257). A response that a port drops leaves the access without one: TIMEOUT (R251). -/
def routed (s : State) (n : NodeId) (pa : Pa) (f : NodeId → State → Acc) : Acc :=
  match routeCheck s n pa with
  | (none, t) => .done (Ans.only .routeFault) t
  | (some dst, t) =>
    match pathTo t n dst (agentPa pa) with
    | .stopped e p => .done (Ans.only .routeFault) (portCount t e p 3 1)
    | .lost => .done (Ans.only .timeout) (tallyAdd t (niBase n + 0x110) 1)
    | .reached m back =>
      if m ≠ dst then .done (Ans.only .routeFault) t
      else
        match f dst t with
        | .wait u => .wait u
        | .done a u =>
          match backBlocked u (activeRt t n dst).epoch back with
          | some x => .done (Ans.only .timeout) (tallyAdd (portCount u x.1 x.2 4 1) (niBase n + 0x110) 1)
          | none => .done a u

/-- One piece of an access: its path, the gate of the target node, then the target (R35). -/
def accPiece (s : State) (n : NodeId) (pa : Nat) (f : State → TgtAns) : Acc :=
  let a : Pa := BitVec.ofNat 44 pa
  routed s n a (fun dst t =>
    if inReset s dst then .wait t
    else
      match nodeGate t dst (agentPa a) with
      | .answer o => .done (Ans.only o) (if o = .domainAsleep then lmpTal t 10 else t)
      | .hold u => .wait (holdWhole t u)
      | .pass =>
        match f t with
        | some (x, u) => .done x u
        | none => .wait t)

/-- An answer after which a joined access goes on: its data came, poisoned or not. -/
def goesOn (o : Outc) : Bool := o.good || o == .uncorrectable

/-- The pieces of bytes a … a + n − 1 between 64-byte boundaries, at most `fuel` of them. -/
def blocks64 : Nat → Nat → Nat → List (Nat × Nat)
  | 0, _, _ => []
  | fuel + 1, a, n =>
    if n = 0 then []
    else
      let k := min n (64 - a % 64)
      (a, k) :: blocks64 fuel (a + k) (n - k)

/-- Accesses in address order, joined; an outcome without data ends them, a wait undoes them. -/
def accAll (s0 : State) (f : State → Nat × Nat → Acc) : List (Nat × Nat) → Acc
  | l => l.foldl (fun x p =>
      match x with
      | .wait t => .wait t
      | .done a t =>
        if goesOn a.outc = false then .done a t
        else
          match f t p with
          | .wait u => .wait (stayWake s0 u)
          | .done b u =>
            if goesOn b.outc then
              .done { outc := joinOutc a.outc b.outc, flags := a.flags ||| b.flags, data := a.data ++ b.data,
                      poison := a.poison ++ b.poison } u
            else .done { a with outc := b.outc } u) (.done (Ans.only .ok) s0)

/-- A read of n bytes of plain memory by an initiator. -/
def accRead (s : State) (who : Initiator) (pa n : Nat) (act : ActId) : Acc :=
  accAll s (fun t p => accPiece t (iniNode who) p.1 (fun u => plainRead u p.1 p.2 act)) (blocks64 (n / 64 + 2) pa n)

/-- A write of enabled bytes to plain memory by an initiator; `poison` marks 16-bit words counted from the word of pa. -/
def accWrite (s : State) (who : Initiator) (pa : Nat) (d : List (Option Byte)) (poison : List Bool) (act : ActId) : Acc :=
  accAll s (fun t p =>
    let o := p.1 - pa
    let pz : BitVec 128 := BitVec.ofNat 128 (packLE (((poison.drop (p.1 / 2 - pa / 2)).take 32).map (fun b => (1, b2n b))))
    accPiece t (iniNode who) p.1 (fun u => plainWrite u p.1 ((d.drop o).take p.2) pz act)) (blocks64 (d.length / 64 + 2) pa d.length)

/-- A write of whole bytes without poison. -/
def accStore (s : State) (who : Initiator) (pa : Nat) (d : List Byte) (act : ActId) : Acc := accWrite s who pa (d.map some) [] act

/-- An access is complete without an effect of its own where the path brings another outcome. -/
def viaPath (path : PathRes) (s : State) (f : Acc) : Acc :=
  match path with
  | some o => if o.good then f else .done (Ans.only o) s
  | none => f

/-! ## Buffers (R152) -/

/-- Buffer memory: DRAM, hub memory, any RM, any CM and any ring-window aperture. -/
def isBuffer (pa : Nat) : Bool :=
  match place (BitVec.ofNat 44 pa) with
  | .dram _ | .hubMem _ | .rm _ _ | .cm _ _ | .ringWin _ _ _ => true
  | _ => false

/-- An address outside every range of the package map, or an unmapped offset inside a listed window. -/
def isUnmapped (pa : Nat) : Bool :=
  decide (2 ^ 44 ≤ pa) ||
  match place (BitVec.ofNat 44 pa) with
  | .gapRegion _ | .gapCluster _ | .gapHub | .nowhere => true
  | _ => false

/-- The 64-byte blocks that an extent touches: ranges of the map begin and end on their boundaries. -/
def extentBlocks (pa n : Nat) : List Nat := (blocks64 (n / 64 + 2) pa n).map (fun p => p.1)

/-- The check of an extent (R152); an extent of 0 bytes is not checked. -/
def extentCheck (pa n : Nat) : Option Outc :=
  let l := extentBlocks pa n
  if l.any isUnmapped then some .routeFault
  else if l.all isBuffer then none
  else some .notPermitted

end Sys2Proof.Machine
end

