-- ==== Sys2Proof/Machine/EngineMath.lean ====
section
/-! DEFINITION. What the engines compute: parameter blocks, their checks and lengths, the transforms, HARQ combining, coded and decoded
bits, and the beam functions (R164 to R174, R511). -/

namespace Sys2Proof.Machine

/-! ## Fields -/

/-- n bytes at offset o of a block as a number. -/
def le (b : List Byte) (o n : Nat) : Nat := natOfBytes ((b.drop o).take n)
/-- n bytes at offset o of a block as a signed number. -/
def leS (b : List Byte) (o n : Nat) : Int := (BitVec.ofNat (8 * n) (le b o n)).toInt
/-- Bytes lo … hi − 1 are 0 (R14). -/
def zeros (b : List Byte) (lo hi : Nat) : Bool := ((b.drop lo).take (hi - lo)).all (· == 0)
/-- The quotient rounded up. -/
def cdiv (a b : Nat) : Nat := (a + b - 1) / b
/-- Rounded up to a multiple of 8. -/
def round8 (n : Nat) : Nat := 8 * cdiv n 8
/-- lo ≤ x ≤ hi. -/
def within (lo x hi : Nat) : Bool := decide (lo ≤ x ∧ x ≤ hi)

/-- The engine type of a slot (R22). -/
def slotType (slot : Nat) : Nat :=
  if slot < 4 then 0 else if slot < 8 then 1 else if slot < 10 then 2 else if slot < 12 then 3 else if slot < 14 then 4 else 5

/-- The functions defined for a type (R164 to R174). -/
def fnDefined (typ fn : Nat) : Bool :=
  decide (fn < (if typ = 0 then 2 else if typ = 2 then 2 else if typ = 5 then 3 else 1))

/-- The block length that the fixed part of a parameter block calls for (R511). -/
def blockLen (typ fn : Nat) (b : List Byte) : Nat :=
  if typ = 0 then (if (le b 9 1).testBit 0 then round8 (16 + le b 6 2) else 16)
  else if typ < 4 then 32
  else if typ = 4 then 8
  else if fn = 0 then round8 (4 + 2 * le b 1 1)
  else 8

/-- The part of the block that tells its length. -/
def headLen (typ : Nat) : Nat := if typ = 0 then 16 else if typ < 4 then 32 else 8

/-! ## FFT parameters (R164) -/

/-- The checks of an FFT's parameter block. -/
def fftOk (b : List Byte) : Bool :=
  let exp := fun (o : Nat) => decide (-64 ≤ leS b o 1 ∧ leS b o 1 ≤ 63)
  let per := (le b 9 1).testBit 0
  [128, 256, 512, 1024, 1536, 2048, 3072, 4096].contains (le b 0 2) && within 0 (le b 2 2) 1024 && within 0 (le b 4 2) 1024 &&
    within 1 (le b 6 2) 28 && exp 8 && decide (le b 9 1 < 8) && exp 0xA && zeros b 0xB 0xC && le b 0xC 2 % 4 == 0 &&
    le b 0xE 2 % 4 == 0 && (!per || ((List.range (le b 6 2)).all (fun i => exp (0x10 + i)) && zeros b (0x10 + le b 6 2) (round8 (0x10 + le b 6 2))))

/-- The bytes of an FFT input or output symbol, and its stride; `o` is the offset of its prefix length and `so` of its stride. -/
def fftSym (b : List Byte) (o so : Nat) : Nat × Nat :=
  let n := 4 * (le b 0 2 + le b o 2)
  (n, if le b so 2 = 0 then n else le b so 2)

/-! ## LDPC parameters (R166, R170) -/

/-- The 51 lifting sizes of TS 38.212 Table 5.3.2-1 (PRESUMED, log 15). -/
def zcOk (z : Nat) : Bool :=
  [2, 3, 5, 7, 9, 11, 13, 15].any (fun a => (List.range 8).any (fun j => a * 2 ^ j == z)) && decide (z ≤ 384)

/-- BG, ZC, K, F and NCB of a block. -/
def ldpcDims (b : List Byte) : Bool :=
  let bg := le b 0 1
  let z := le b 2 2
  let k := le b 4 2
  within 1 bg 2 && zcOk z && k == (if bg = 1 then 22 else 10) * z && decide (le b 6 2 + 24 ≤ k) &&
    within (2 * z + 1) (le b 0xC 4) ((if bg = 1 then 66 else 50) * z)

/-- The checks of an LDPC decoder's block (R166). -/
def ldpcOk (b : List Byte) : Bool :=
  zeros b 1 2 && ldpcDims b && within 1 (le b 8 4) 1048576 && decide (le b 0x10 1 ≤ 3) && within 1 (le b 0x11 1) 20 &&
    within 4 (le b 0x12 1) (if le b 0 1 = 1 then 46 else 42) && within 8 (le b 0x13 1) 16 && decide (le b 0x14 1 ≤ 3) &&
    decide (le b 0x15 1 ≤ 2) && zeros b 0x16 0x20

/-- The checks of an LDPC encoder's block (R170, FN 0). -/
def encLdpcOk (b : List Byte) : Bool :=
  let qm := le b 1 1
  ldpcDims b && [1, 2, 4, 6, 8, 10].contains qm && within 1 (le b 8 4) 1048576 && le b 8 4 % qm == 0 && decide (le b 0x10 1 ≤ 3) &&
    zeros b 0x11 0x20

/-- The fields that the polar encoder and decoder share (R170, R171). -/
def polarDims (b : List Byte) : Bool :=
  within 9 (le b 0 1) 10 && decide (le b 1 1 < 4) && (le b 2 2 == 0 || le b 2 2 == 3) && within 12 (le b 4 2) 1023 &&
    decide (le b 6 2 ≤ 1) && within (le b 4 2 + le b 2 2 + 1) (le b 8 4) 8192 && zeros b 0xC 0x11

/-- The checks of a polar encoder's block (R170, FN 1). -/
def encPolarOk (b : List Byte) : Bool := polarDims b && zeros b 0x11 0x20

/-- The checks of a polar decoder's block (R171). -/
def polarOk (b : List Byte) : Bool :=
  polarDims b && decide (le b 0x11 1 ≤ 2) && (le b 0x12 2 == 0 || le b 0x11 1 == 0) && zeros b 0x14 0x20

/-- The 188 block sizes of TS 36.212 Table 5.1.3-3 (PRESUMED, log 15). -/
def turboK (k : Nat) : Bool :=
  (within 40 k 512 && k % 8 == 0) || (within 528 k 1024 && k % 16 == 0) || (within 1056 k 2048 && k % 32 == 0) ||
    (within 2112 k 6144 && k % 64 == 0)

/-- The checks of a turbo decoder's block (R172). -/
def turboOk (b : List Byte) : Bool :=
  turboK (le b 0 2) && within 1 (le b 2 1) 16 && decide (le b 3 1 ≤ 2) && within 8 (le b 4 1) 16 && zeros b 5 8

/-! ## Beam parameters (R174) -/

/-- The checks of a beam engine's block. -/
def beamOk (fn : Nat) (b : List Byte) : Bool :=
  within 1 (le b 0 1) 64 &&
    (if fn = 0 then [1, 3, 5, 7].contains (le b 1 1) && within 1 (le b 2 2) 3276 && zeros b (4 + 2 * le b 1 1) (round8 (4 + 2 * le b 1 1))
     else if fn = 1 then zeros b 1 2 && within 1 (le b 2 2) 4096 && zeros b 4 8
     else within 1 (le b 1 1) 16 && within 1 (le b 2 2) 4096)

/-- Samples in and out of one set, and the number of sets. -/
def beamDims (fn : Nat) (b : List Byte) : Nat × Nat × Nat :=
  let a := le b 0 1
  if fn = 0 then (le b 2 2 * a, le b 2 2 * a, 1)
  else if fn = 1 then (le b 2 2 * a, a * a, 1)
  else (a * le b 1 1, a * le b 1 1, le b 2 2)

/-! ## Checks and lengths of order 6 (R153) -/

/-- The parameter fields of a block are valid. -/
def paramOk (typ fn : Nat) (b : List Byte) : Bool :=
  if typ = 0 then fftOk b
  else if typ = 1 then ldpcOk b
  else if typ = 2 then (if fn = 0 then encLdpcOk b else encPolarOk b)
  else if typ = 3 then polarOk b
  else if typ = 4 then turboOk b
  else beamOk fn b

/-- The lengths that a job needs: input, output, auxiliary bytes. -/
def needLens (typ fn : Nat) (b : List Byte) : Nat × Nat × Nat :=
  if typ = 0 then
    let c := le b 6 2
    let i := fftSym b 2 0xC
    let o := fftSym b 4 0xE
    ((c - 1) * i.2 + i.1, (c - 1) * o.2 + o.1, c)
  else if typ = 1 then (le b 8 4, cdiv (le b 4 2 - le b 6 2) 8, if le b 0x15 1 = 0 then 0 else le b 0xC 4)
  else if typ = 2 then (cdiv (le b 4 2 - (if fn = 0 then le b 6 2 else 0)) 8, cdiv (le b 8 4) 8, 0)
  else if typ = 3 then (le b 8 4, cdiv (le b 4 2) 8, 0)
  else if typ = 4 then (3 * (le b 0 2 + 4), cdiv (le b 0 2) 8, 0)
  else
    let d := beamDims fn b
    (4 * d.1 * d.2.2, d.2.2 * (4 * d.2.1 + 4), d.2.2)

/-! ## What a job produced -/

/-- Output as pieces at offsets of DST and of AUX, the bytes of the write-back, RESULT, iterations, and whether the engine could not
complete. -/
structure JobOut where
  dst : List (Nat × List Byte)
  aux : List (Nat × List Byte)
  wb : Option (List Byte)
  result : Nat
  iters : Nat
  fail : Bool
  deriving DecidableEq, Repr, Inhabited

/-- Free value n, part i, as a number. -/
def freePart (n i : Nat) : Nat := (Config.freeByte n (2 * i)).toNat + 256 * (Config.freeByte n (2 * i + 1)).toNat
/-- Free value n, bit i. -/
def freeBit (n i : Nat) : Bool := (Config.freeByte n i).getLsbD 0

/-- A free integer between two bounds; the lower one if they cross. -/
def freeBetween (n i : Nat) (lo hi : Int) : Int := if hi < lo then lo else lo + ((freePart n i : Int) % (hi - lo + 1))

/-- A 16-bit sample part saturated, and whether it was. -/
def satPart (x : Int) : Int × Bool :=
  if x < -32768 then (-32768, true) else if 32767 < x then (32767, true) else (x, false)

/-- A complex sample as 4 bytes, I then Q (R45). -/
def sampleBytes (x : Int × Int) : List Byte :=
  bytesOfNat 2 (BitVec.ofInt 16 x.1).toNat ++ bytesOfNat 2 (BitVec.ofInt 16 x.2).toNat

/-- Complex sample i of a byte string. -/
def sampleAt (d : List Byte) (i : Nat) : Int × Int := (leS d (4 * i) 2, leS d (4 * i + 2) 2)

/-- Bits as bytes in the order of R115. -/
def packBits (n : Nat) (f : Nat → Bool) : List Byte :=
  (List.range (cdiv n 8)).map (fun j => BitVec.ofNat 8 (upTo 8 (fun i a => if 8 * j + i < n ∧ f (8 * j + i) then a + 2 ^ i else a) 0))

/-! ## Transform (R164, R165) -/

/-- Fractional bits of the sine and cosine values. -/
def fracBits : Nat := 80
/-- π in units of 2^−80. -/
def piFix : Int := 3797952473636338580787993

/-- Sum of a power series whose term i + 1 is term i times −x² / ((2i + a)(2i + a + 1)). -/
def series (x2 : Int) (a : Nat) : Nat → Nat → Int → Int
  | 0, _, _ => 0
  | n + 1, i, t => t + series x2 a n (i + 1) (-(t * x2 / 2 ^ fracBits) / (((2 * i + a) * (2 * i + a + 1) : Nat) : Int))

/-- cos(2πk/N) and sin(2πk/N) in units of 2^−80. -/
def unitRoot (k n : Nat) : Int × Int :=
  let m : Int := if 2 * (k % n) ≤ n then (k % n : Nat) else ((k % n : Nat) : Int) - n
  let x := 2 * piFix * m / n
  let x2 := x * x / 2 ^ fracBits
  (series x2 1 40 0 (2 ^ fracBits), series x2 2 40 0 x)

/-- X(k) of N samples, in units of 2^−80; `inv` for +j (R164). -/
def dftPart (d : List (Int × Int)) (inv : Bool) (k : Nat) : Int × Int :=
  let n := d.length
  d.zipIdx.foldl (fun a (x, i) =>
    let (c, s0) := unitRoot (k * i) n
    let s := if inv then s0 else -s0
    (a.1 + x.1 * c - x.2 * s, a.2 + x.1 * s + x.2 * c)) (0, 0)

/-- x times 2^−e, as a fraction: numerator and denominator. -/
def scaleFix (x : Int) (e : Int) : Int × Nat :=
  if e < 0 then (x * 2 ^ e.natAbs, 2 ^ fracBits) else (x, 2 ^ (fracBits + e.natAbs))

/-- The smallest e from −64 on with every part of magnitude at most lim after scaling by 2^−e. -/
def smallestExp (m : Nat) (lim : Nat) : Int :=
  (((List.range 200).find? (fun (i : Nat) =>
    let (x, q) := scaleFix (m : Int) ((i : Int) - 64)
    decide (x ≤ (lim : Int) * q))).map (fun i => (i : Int) - 64)).getD 0

/-- A part within ±4 of the exact scaled value (R165). -/
def nearPart (n i : Nat) (x : Int × Nat) : Int :=
  freeBetween n i (-((-(x.1 - 4 * x.2)) / x.2)) ((x.1 + 4 * x.2) / x.2)

/-- One symbol: N output samples in natural order, its output exponent, and whether a part saturated. -/
def fftSymbol (n base : Nat) (d : List (Int × Int)) (inv fix : Bool) (expIn expFix : Int) : List (Int × Int) × Int × Bool :=
  if fix = false ∧ d.all (fun x => x.1 == 0 && x.2 == 0) = true then (d, expIn, false)
  else
    let xs := (List.range d.length).map (dftPart d inv)
    let m := xs.foldl (fun a x => max a (max x.1.natAbs x.2.natAbs)) 0
    let rel := if fix then expFix - expIn else smallestExp m 32760 + (if freeBit n (2 * base) then 1 else 0)
    let out := xs.zipIdx.map (fun (x, i) =>
      (satPart (nearPart n (base + 1 + 2 * i) (scaleFix x.1 rel)), satPart (nearPart n (base + 2 + 2 * i) (scaleFix x.2 rel))))
    (out.map (fun y => (y.1.1, y.2.1)), expIn + rel, out.any (fun y => y.1.2 || y.2.2))

/-- The prefix of output symbol i: the last CPOUT of its samples; of a prefix longer than the symbol the specification states no sample, and it
is free (R164, log 9). -/
def cyclicPrefix (n i cpout : Nat) (z : List (Int × Int)) : List (Int × Int) :=
  if cpout ≤ z.length then z.drop (z.length - cpout)
  else (List.range cpout).map (fun k =>
    (freeBetween n (0x100000 + 4096 * i + 2 * k) (-32768) 32767, freeBetween n (0x100001 + 4096 * i + 2 * k) (-32768) 32767))

/-- The FFT job (R164, R165): `d` the COUNT input symbols one after another without gaps. -/
def fftJob (n fn : Nat) (b d : List Byte) : JobOut :=
  let len := le b 0 2
  let cpin := le b 2 2
  let cpout := le b 4 2
  let fl := le b 9 1
  let so := fftSym b 4 0xE
  let syms := (List.range (le b 6 2)).map (fun i =>
    let x := (List.range len).map (fun k => sampleAt d (i * (len + cpin) + cpin + k))
    let e := if fl.testBit 0 then leS b (0x10 + i) 1 else leS b 8 1
    let (y, ex, st) := fftSymbol n (i * (2 * len + 2)) x (fn == 1) (fl.testBit 2) e (leS b 0xA 1)
    let z := if fl.testBit 1 then y.drop (len / 2) ++ y.take (len / 2) else y
    (i * so.2, (cyclicPrefix n i cpout z ++ z).flatMap sampleBytes, ex, st))
  let es := syms.map (fun x => x.2.2.1)
  let hi := es.foldl max (es.headD 0)
  let lo := es.foldl min (es.headD 0)
  { dst := syms.map (fun x => (x.1, x.2.1)),
    aux := [(0, es.map (fun e => BitVec.ofInt 8 e))], wb := none,
    result := packLE [(8, (BitVec.ofInt 8 hi).toNat), (8, (BitVec.ofInt 8 lo).toNat), (8, (syms.filter (fun x => x.2.2.2)).length)],
    iters := 0, fail := false }

/-! ## Channel codes (R166 to R173) -/

/-- k0 of TS 38.212 Table 5.4.2.1-2 (PRESUMED, log 15). -/
def ldpcK0 (b : List Byte) : Nat :=
  let z := le b 2 2
  let ncb := le b 0xC 4
  let rv := le b 0x10 1
  if le b 0 1 = 1 then [0, 17, 33, 56].getD rv 0 * ncb / (66 * z) * z else [0, 13, 25, 43].getD rv 0 * ncb / (50 * z) * z

/-- Position i of the circular buffer holds a filler bit: bits K − F … K − 1 of the code block, 2·ZC later in the buffer. -/
def isFiller (b : List Byte) (i : Nat) : Bool :=
  let k := le b 4 2
  let z2 := 2 * le b 2 2
  decide (k - le b 6 2 ≤ i + z2 ∧ i + z2 < k)

/-- Sum saturated to ±127 (R167). -/
def satAdd (a b : Int) : Int := max (-127) (min 127 (a + b))

/-- The first position from i on, modulo NCB, that is no filler. -/
def skipFiller (b : List Byte) : Nat → Nat → Option Nat
  | 0, _ => none
  | fuel + 1, i => if isFiller b (i % le b 0xC 4) then skipFiller b fuel (i + 1) else some (i % le b 0xC 4)

/-- Places LLRs into the buffer from a position on (R167). -/
def placeLlrs (b : List Byte) : List Byte → Nat → Sparse Int → Sparse Int
  | [], _, m => m
  | x :: rest, i, m =>
    match skipFiller b (le b 0xC 4) i with
    | none => m
    | some p => placeLlrs b rest (p + 1) (sput 0 m p (satAdd (sget 0 m p) (llrIn x)))

/-- The combined buffer as NCB bytes: the HARQ bytes first, then the LLRs in order; fillers +127 (R167, R168). -/
def combined (b llrs harq : List Byte) : List Byte :=
  let m0 : Sparse Int := harq.zipIdx.foldl (fun m (x, i) => sput 0 m i (llrIn x)) []
  let m := placeLlrs b llrs (ldpcK0 b) m0
  (List.range (le b 0xC 4)).map (fun i => if isFiller b i then 127 else BitVec.ofInt 8 (sget 0 m i))

/-- The CRC of n bits is 0 after their last CRC bits: they pass (R119, R169, R171). -/
def crcPasses (len poly n : Nat) (f : Nat → Bool) : Bool := upTo n (fun i r => crcStep len poly r (f i)) 0 == 0

/-- Iterations run: MAXIT unless the block stops early, then between 1 and MAXIT (R169). -/
def itersOf (n maxit : Nat) (early : Bool) : Nat := if early then 1 + freePart n 1 % maxit else maxit

/-- The LDPC decoder's job (R166 to R169, R173): the hard decisions are free; CRCOK follows from them. -/
def ldpcJob (n : Nat) (b llrs harq : List Byte) : JobOut :=
  let bitsOut := le b 4 2 - le b 6 2
  let f := fun i => freeBit n (8 + i)
  let stop := le b 0x14 1
  let syn := freeBit n 0
  let crc := decide (2 ≤ stop) && crcPasses 24 (if stop = 2 then 0x800063 else 0x864CFB) bitsOut f
  let it := itersOf n (le b 0x11 1) (if stop = 1 then syn else crc)
  { dst := [(0, packBits bitsOut f)], aux := [], wb := if le b 0x15 1 = 0 then none else some (combined b llrs harq),
    result := packLE [(5, it), (1, b2n syn), (1, b2n crc)], iters := it, fail := false }

/-- The encoder's job (R170). -/
def encJob (fn : Nat) (b d : List Byte) : JobOut :=
  { dst := [(0, packBits (le b 8 4) (Config.codedBit fn b d))], aux := [], wb := none, result := 0, iters := 0, fail := false }

/-- The CRC of a polar block: length and polynomial (R171; the polynomials of CRC-11 and CRC-6 are those of TS 38.212 5.1, log 15). -/
def polarCrc (n : Nat) : Nat × Nat := if n = 0 then (24, 0xB2B117) else if n = 1 then (11, 0x621) else (6, 0x21)

/-- log2 N of TS 38.212 5.3.1 from K, E and NMAX (PRESUMED, log 15). -/
def polarLog (b : List Byte) : Nat :=
  let k := le b 4 2
  let e := le b 8 4
  let lg := Nat.log2 (e - 1) + 1
  let n1 := if 8 * e ≤ 9 * 2 ^ (lg - 1) ∧ 16 * k < 9 * e then lg - 1 else lg
  max 5 (min (le b 0 1) (min n1 (Nat.log2 (8 * k - 1) + 1)))

/-- The polar decoder's job (R171, R173). -/
def polarJob (n : Nat) (b : List Byte) : JobOut :=
  let k := le b 4 2
  let f := fun i => freeBit n (8 + i)
  let (len, poly) := polarCrc (le b 0x11 1)
  let rnti := le b 0x12 2
  let crc := crcPasses len poly k (fun i => f i != (decide (k ≤ i + 16) && rnti.testBit (k - 1 - i)))
  { dst := [(0, packBits k f)], aux := [], wb := none,
    result := packLE [(1, b2n crc), (3, freePart n 0 % 8), (4, polarLog b)], iters := 0, fail := false }

/-- The turbo decoder's job (R172, R173). -/
def turboJob (n : Nat) (b : List Byte) : JobOut :=
  let k := le b 0 2
  let f := fun i => freeBit n (8 + i)
  let stop := le b 3 1
  let crc := decide (stop ≠ 0) && crcPasses 24 (if stop = 1 then 0x864CFB else 0x800063) k f
  let it := itersOf n (le b 2 1) crc
  { dst := [(0, packBits k f)], aux := [], wb := none, result := packLE [(5, it), (1, 0), (1, b2n crc)], iters := it, fail := false }

/-! ## Beam functions (R174) -/

/-- A complex number. -/
abbrev Cq := Rat × Rat
/-- Sum. -/
def Cq.add (a b : Cq) : Cq := (a.1 + b.1, a.2 + b.2)
/-- Difference. -/
def Cq.sub (a b : Cq) : Cq := (a.1 - b.1, a.2 - b.2)
/-- Product. -/
def Cq.mul (a b : Cq) : Cq := (a.1 * b.1 - a.2 * b.2, a.1 * b.2 + a.2 * b.1)
/-- Conjugate. -/
def Cq.conj (a : Cq) : Cq := (a.1, -a.2)
/-- Zero in both parts. -/
def Cq.isZero (a : Cq) : Bool := a.1 == 0 && a.2 == 0
/-- Quotient; the divisor is not zero. -/
def Cq.div (a b : Cq) : Cq :=
  let q := b.1 * b.1 + b.2 * b.2
  let p := Cq.mul a (Cq.conj b)
  (p.1 / q, p.2 / q)
/-- A sample. -/
def Cq.ofSample (x : Int × Int) : Cq := ((x.1 : Rat), (x.2 : Rat))

/-- Row a minus c times row b. -/
def rowSub (a : List Cq) (c : Cq) (b : List Cq) : List Cq := List.zipWith (fun x y => Cq.sub x (Cq.mul c y)) a b

/-- Gauss-Jordan elimination on column j of `todo` further columns; none where the system is singular. -/
def eliminate : Nat → Nat → List (List Cq) → List (List Cq) → Option (List (List Cq))
  | 0, _, pivots, _ => some pivots
  | todo + 1, j, pivots, rows =>
    match rows.find? (fun r => !Cq.isZero ((r[j]?).getD (0, 0))) with
    | none => none
    | some r =>
      let p := (r[j]?).getD (1, 0)
      let r1 := r.map (fun x => Cq.div x p)
      let clear := fun (x : List Cq) => rowSub x ((x[j]?).getD (0, 0)) r1
      let rest := (rows.filter (fun x => x != r)).map clear
      eliminate todo (j + 1) (pivots.map clear ++ [r1]) rest

/-- Element (i, j) of a matrix of samples with `cols` columns. -/
def matAt (d : List Byte) (base cols i j : Nat) : Cq := Cq.ofSample (sampleAt d (base + i * cols + j))

/-- The sum of a term over 0 … n − 1. -/
def cqSum (n : Nat) (f : Nat → Cq) : Cq := (List.range n).foldl (fun a i => Cq.add a (f i)) (0, 0)

/-- Smoothing (FN 0), in steps of the last place at exponent 0. -/
def smoothSet (b d : List Byte) : List Cq :=
  let a := le b 0 1
  let nt := le b 1 1
  let nsc := le b 2 2
  (List.range (nsc * a)).map (fun x =>
    let s := x / a
    let y := cqSum nt (fun t =>
      let i := min (nsc - 1) (s + t - (nt - 1) / 2)
      Cq.mul ((leS b (4 + 2 * t) 2 : Rat), 0) (matAt d 0 a i (x % a)))
    (y.1 / 32768, y.2 / 32768))

/-- Covariance (FN 1). -/
def covSet (b d : List Byte) : List Cq :=
  let a := le b 0 1
  (List.range (a * a)).map (fun x =>
    let y := cqSum (le b 2 2) (fun t => Cq.mul (matAt d 0 a t (x / a)) (Cq.conj (matAt d 0 a t (x % a))))
    (y.1 / 32768, y.2 / 32768))

/-- MMSE weights of one set (FN 2); none where the system is singular. -/
def mmseSet (b d : List Byte) (set : Nat) : Option (List Cq) :=
  let a := le b 0 1
  let l := le b 1 1
  let base := set * a * l
  let sg : Rat := (leS b 4 4 : Rat)
  let rows := (List.range l).map (fun i =>
    (List.range l).map (fun j =>
      Cq.add (cqSum a (fun t => Cq.mul (Cq.conj (matAt d base l t i)) (matAt d base l t j))) (if i = j then sg else 0, 0)) ++
    (List.range a).map (fun j => Cq.conj (matAt d base l j i)))
  (eliminate l 0 [] rows).map (fun m => m.flatMap (fun r => (r.drop l).map (fun x => (x.1 * 1073741824, x.2 * 1073741824))))

/-- The absolute value of a rational. -/
def ratAbs (x : Rat) : Rat := if x < 0 then -x else x

/-- x scaled by 2^−e. -/
def ratScale (x : Rat) (e : Int) : Rat := if e < 0 then x * (2 ^ e.natAbs : Nat) else x / (2 ^ e.natAbs : Nat)

/-- The smallest exponent that keeps magnitude m within 32 767 (R174). -/
def beamExp (m : Rat) : Int :=
  (((List.range 400).find? (fun (i : Nat) => decide (ratScale m ((i : Int) - 200) ≤ 32767))).map (fun i => (i : Int) - 200)).getD 200

/-- One output set: its parts within 2^−10 of the largest from the exact result, its exponent, and the parts at ±32 767 (R174). -/
def beamSet (n base : Nat) (xs : List Cq) : List Byte × Int × Nat :=
  let m := xs.foldl (fun a x => max a (max (ratAbs x.1) (ratAbs x.2))) 0
  if m = 0 then (List.replicate (4 * xs.length) 0, 0, 0)
  else
    let e := beamExp m
    let tol := ratScale m e / 1024
    let part := fun (i : Nat) (x : Rat) =>
      max (-32767) (min 32767 (freeBetween n (base + i) (Rat.ceil (ratScale x e - tol)) (Rat.floor (ratScale x e + tol))))
    let out := xs.zipIdx.map (fun (x, i) => (part (2 * i) x.1, part (2 * i + 1) x.2))
    (out.flatMap sampleBytes, e, (out.flatMap (fun y => [y.1, y.2])).countP (fun v => v.natAbs == 32767))

/-- The beam engine's job (R174). -/
def beamJob (n fn : Nat) (b d : List Byte) : JobOut :=
  let dims := beamDims fn b
  let exact : List (Option (List Cq)) :=
    if fn = 0 then [some (smoothSet b d)] else if fn = 1 then [some (covSet b d)]
    else (List.range dims.2.2).map (mmseSet b d)
  if exact.any (fun x => x.isNone) then { dst := [], aux := [], wb := none, result := 0, iters := 0, fail := true }
  else
    let sets := exact.zipIdx.map (fun (x, i) => beamSet n (i * 2 * dims.2.1) (x.getD []))
    { dst := [(0, sets.flatMap (fun s => s.1 ++ [BitVec.ofInt 8 s.2.1, 0, 0, 0]))],
      aux := [(0, sets.map (fun s => BitVec.ofInt 8 s.2.1))], wb := none,
      result := if fn = 0 then 0 else sets.foldl (fun a s => a + s.2.2) 0, iters := 0, fail := false }

/-- What a job computes from its parameter block, its input and its HARQ buffer. -/
def compute (n typ fn : Nat) (b d harq : List Byte) : JobOut :=
  if typ = 0 then fftJob n fn b d
  else if typ = 1 then ldpcJob n b d harq
  else if typ = 2 then encJob fn b d
  else if typ = 3 then polarJob n b
  else if typ = 4 then turboJob n b
  else beamJob n fn b d

end Sys2Proof.Machine
end

