-- ==== Sys2Proof/Machine/EngineCmds.lean ====
section
/-! DEFINITION. The life of an engine's job, the engine registers, and the meanings of the engine commands (R148 to R163, R177 to R180). -/

namespace Sys2Proof.Machine

/-! ## Accessors -/

/-- Changes engine e. -/
def State.updEngine (s : State) (e : EngId) (f : Engine → Engine) : State := s.setEngine e (f (s.engine e))
/-- An engine's Tally counter at a register offset. -/
def engTal (s : State) (e : EngId) (off n : Nat) : State := tallyAdd s (engBase e + off) n
/-- The engine's type (R22). -/
def engType (e : EngId) : Nat := slotType (engSlot e).toNat
/-- The Assayer source of a region's engines, with ACC_LASTERR and the slot (R508). -/
def engReport (s : State) (e : EngId) (found : Bool) : State :=
  let x := s.engine e
  check s (srcRegion (engRegion e) 0) found
    (BitVec.ofNat 32 (packLE [(5, x.errOutc.toNat), (3, 0), (4, x.errStep.toNat), (4, (engSlot e).toNat)]))

/-- The Assayer fences the engine or its region, or the package is in safe state (R424, R427). -/
def engFenced (s : State) (e : EngId) : Bool :=
  s.asy.safe || s.asy.fences.any (fun f => f.unit == .engine e || f.unit == .region (engRegion e))
/-- The clocks of the engine and of the cluster whose NI serves it run (R434, R440). -/
def engClk (s : State) (e : EngId) : Bool := clkOn s (slice (engNode e) 0 6)

/-- DESC of a job entry, all its bits. -/
def jobDesc (j : Job) : Nat := bits j.entry.toNat 64 64
/-- The activity of a job. -/
def jobAct (j : Job) : ActId := eAct j.entry
/-- A field of the descriptor by byte offset and bytes. -/
def dField (d : Block64) (o n : Nat) : Nat := bits d.toNat (8 * o) (8 * n)
/-- The job has a deadline (R150). -/
def jobHasDl (j : Job) : Bool := j.hasDesc && !j.desc.getLsbD 8

/-! ## The end of a job (R154, R155, R158, R162) -/

/-- The Tally counter that an outcome counts in (R179). -/
def outcTal (o : Outc) : Nat :=
  match o with
  | .ok | .okFlagged => 0x108
  | .badDescriptor | .notPermitted => 0x118
  | .budgetExhausted => 0x120
  | .deadlineMissed => 0x128
  | .cancelled => 0x130
  | _ => 0x110

/-- A job's outcome is fixed: it enters COMPLETE, its counters and ACC_LASTERR are set, and a missed deadline is reported. -/
def finishJob (s : State) (e : EngId) (o : Outc) (step : BitVec 4) : State :=
  let x := s.engine e
  match x.job with
  | none => s
  | some j =>
    let o1 := if o = .ok ∧ j.flags ≠ 0 then .okFlagged else o
    let st := if o1.good then 0 else step
    let j1 := { j with outc := o1, step := st, tend := s.tick, abort := none }
    let x1 := { x with st := .complete, job := some j1 }
    let x2 := if o1.good then x1 else { x1 with errOutc := o1.code, errStep := st, etag := eTag j.entry }
    let s1 := engTal (s.setEngine e x2) e (outcTal o1) 1
    let s2 := if eNoCompl j.entry then s1 else engTal s1 e 0x100 1
    if o1 = .deadlineMissed then
      report s2 (srcRegion (engRegion e) 1) (BitVec.ofNat 32 (packLE [(4, (engSlot e).toNat), (12, 0), (9, (jobAct j).toNat)]))
    else s2

/-- The engine is free of its job: reset if one is due, else IDLE or DISABLED (R154, R178). -/
def releaseEngine (s : State) (e : EngId) : State :=
  let x := s.engine e
  if x.rst then s.setEngine e (Engine.reset e.toNat)
  else s.setEngine e { x with job := none, st := if x.en then .idle else .disabled }

/-- STEP of an abort: 5 for a deadline, 10 for a fence or unit reset (R179). -/
def abortStep (o : Outc) : BitVec 4 :=
  match o with
  | .deadlineMissed => 5
  | .engineError => 10
  | _ => 0

/-! ## Dequeue and SETUP (R151 to R153) -/

/-- The engine takes entries now. -/
def engTakes (s : State) (e : EngId) : Bool :=
  let x := s.engine e
  let q := (s.slice (queueCluster x.qsel)).queue (queueLocal x.qsel)
  x.st == .idle && x.en && !memberHolds s (.engine e) && !engFenced s e && engClk s e && clkOn s (queueCluster x.qsel) && q.en && q.cons == 1

/-- An engine of the same queue in a lower slot takes the entry first (R151). -/
def lowerTakes (s : State) (e : EngId) : Bool :=
  (List.range (engSlot e).toNat).any (fun i =>
    let f : EngId := BitVec.ofNat 8 (16 * (engRegion e).toNat + i)
    (s.engine f).qsel == (s.engine e).qsel && engTakes s f)

/-- A job at its dequeue. -/
def newJob (en : Entry) : Job :=
  { entry := en, desc := 0, params := [], wait := .descriptor, flags := 0, outc := .ok, step := 0, result := 0, outlen := 0, tend := 0,
    abort := none, abortAt := 0, ran := false, hasDesc := false, wb := [], wbDone := false }

/-- An idle engine takes the next entry (R151, R154); another kind than a job entry is discarded; the descriptor's address is checked first
(order 1 of R153). -/
def doDequeue (s : State) (e : EngId) : State :=
  if engTakes s e = false ∨ lowerTakes s e = true then s
  else
    match takeFrom s (s.engine e).qsel with
    | (none, t) => t
    | (some h, t) =>
      if eKind h.e ≠ 2 then engTal t e 0x118 1
      else
        let j := newJob h.e
        let t1 := t.setEngine e { t.engine e with st := .setup, curtag := eTag h.e, job := some j }
        match extentCheck (jobDesc j % 2 ^ 44) 64 with
        | some o => finishJob t1 e o 1
        | none => if jobDesc j % 64 ≠ 0 then finishJob t1 e .badDescriptor 2 else t1

/-- Extents of SRC, DST, PARAM and AUX (R152): the first outcome in the order of R35. -/
def descExtents (d : Block64) : Option Outc :=
  let l := [(0x10, dField d 0x18 4), (0x20, dField d 0x1C 4), (0x28, dField d 0x3C 2), (0x30, dField d 0x38 4)].filterMap
    (fun p => extentCheck (dField d p.1 8 % 2 ^ 44) p.2)
  if l.contains .routeFault then some .routeFault else l.head?

/-- Entry and descriptor agree, TYPE and FN fit the engine, reserved fields are 0 (order 4 of R153). -/
def descAgrees (typ : Nat) (en : Entry) (d : Block64) : Bool :=
  let nodl := d.getLsbD 8
  let nocompl := d.getLsbD 9
  let pa := fun (o : Nat) => decide (dField d o 8 < 2 ^ 44)
  bits d.toNat 0 4 == typ && fnDefined typ (bits d.toNat 4 4) && nocompl == en.getLsbD 176 &&
    dField d 2 2 == (eAct en).toNat && (nodl || dField d 4 4 == (eDeadline en).toNat) && dField d 8 4 == (eTag en).toNat &&
    (nocompl || dField d 0xC 2 == (eCqid en).toNat) &&
    bits d.toNat 11 5 == 0 && bits d.toNat 117 11 == 0 && dField d 0x3E 2 == 0 && pa 0x10 && pa 0x20 && pa 0x28 && pa 0x30 &&
    dField d 0x28 8 % 64 == 0 && dField d 0x3C 2 % 8 == 0 && within 8 (dField d 0x3C 2) 1024 &&
    !en.getLsbD 7 && bits en.toNat 17 15 == 0 && bits en.toNat 108 20 == 0 && bits en.toNat 177 79 == 0

/-- The descriptor came (orders 3 and 4). -/
def gotDescriptor (s : State) (e : EngId) (j : Job) (d : Block64) (fl : Word) : State :=
  let j1 := { j with desc := d, hasDesc := true, flags := j.flags ||| fl, wait := .params }
  let t := s.updEngine e (fun x => { x with job := some j1 })
  match descExtents d with
  | some o => finishJob t e o 2
  | none => if descAgrees (engType e) j.entry d then t else finishJob t e .badDescriptor 2

/-- The job enters RUN. -/
def enterRun (s : State) (e : EngId) : State :=
  s.updEngine e (fun x => { x with st := .run, job := x.job.map (fun j => { j with ran := true }) })

/-- The parameter block came (orders 6 to 8). -/
def gotParams (s : State) (e : EngId) (j : Job) (b : List Byte) (fl : Word) : State :=
  let typ := engType e
  let fn := bits j.desc.toNat 4 4
  let j1 := { j with params := b, flags := j.flags ||| fl, wait := .borrow }
  let t := s.updEngine e (fun x => { x with job := some j1 })
  let n := needLens typ fn b
  if blockLen typ fn b ≤ b.length ∧ paramOk typ fn b = true ∧ n.1 ≤ dField j.desc 0x18 4 ∧ n.2.1 ≤ dField j.desc 0x1C 4 ∧
      n.2.2 ≤ dField j.desc 0x38 4 then
    if jobHasDl j1 ∧ tickReached s.tick (eDeadline j.entry) = true then finishJob t e .deadlineMissed 5
    else
      match jobCheck t (engRegion e) (jobAct j) typ with
      | (.taken, u) => enterRun u e
      | (.borrow, u) => u
      | (.exhausted, u) => finishJob u e .budgetExhausted 6
  else finishJob t e .badDescriptor 4

/-- Runs a read for a job: waits leave the state with the wake begun; a failed one ends the job with a STEP. -/
def withRead (e : EngId) (step : BitVec 4) (r : Acc) (k : State → Ans → State) : State :=
  match r with
  | .wait t => t
  | .done a t => if a.outc.good then k t a else finishJob t e a.outc step

/-- A SETUP read answers (orders 2 and 5 of R153); the block is read to its length and no further (R511). -/
def doSetupRead (s : State) (e : EngId) (path : PathRes) : State :=
  let x := s.engine e
  match x.st, x.job with
  | .setup, some j =>
    if j.abort ≠ none then s
    else
      match j.wait with
      | .descriptor =>
        withRead e 1 (viaPath path s (accRead s (.engine e) (jobDesc j) 64 (jobAct j))) (fun t a =>
          gotDescriptor t e j (BitVec.ofNat 512 (natOfBytes a.data)) a.flags)
      | .params =>
        let pa := dField j.desc 0x28 8
        let plen := dField j.desc 0x3C 2
        let fn := bits j.desc.toNat 4 4
        let h := min plen (headLen (engType e))
        withRead e 3 (viaPath path s (accRead s (.engine e) pa h (jobAct j))) (fun t a =>
          let n := min plen (blockLen (engType e) fn a.data) - h
          match accRead t (.engine e) (pa + h) n (jobAct j) with
          | .wait u => stayWake s u
          | .done b u =>
            if b.outc.good then gotParams u e j (a.data ++ b.data) (a.flags ||| b.flags) else finishJob u e b.outc 3)
      | .borrow => s
  | _, _ => s

/-- The BUD answers a job borrow (R160, R210). -/
def doBorrowAnswer (s : State) (e : EngId) : State :=
  let x := s.engine e
  match x.st, x.job with
  | .setup, some j =>
    if j.wait ≠ .borrow ∨ j.abort ≠ none then s
    else
      match jobBorrow s (engRegion e) (jobAct j) (engType e) with
      | (true, t) => enterRun t e
      | (false, t) => finishJob t e .budgetExhausted 6
  | _, _ => s

/-! ## RUN and WRITEBACK (R154 to R156, R168) -/

/-- Reads of several extents, joined. -/
def accReads (s : State) (who : Initiator) (act : ActId) (l : List (Nat × Nat)) : Acc :=
  accAll s (fun t p => accRead t who p.1 p.2 act) l

/-- The extents of the input: for an FFT its symbols at their stride (R164). -/
def inputExtents (typ fn : Nat) (d : Block64) (b : List Byte) : List (Nat × Nat) :=
  let src := dField d 0x10 8
  if typ = 0 then
    let i := fftSym b 2 0xC
    (List.range (le b 6 2)).map (fun k => (src + k * i.2, i.1))
  else [(src, (needLens typ fn b).1)]

/-- Writes in order: the first outcome that is not OK ends them; answers it with the bytes written, or a wait. -/
def accStores (s : State) (who : Initiator) (act : ActId) (l : List (Nat × List Byte)) : Option (Option Outc × Nat) × State :=
  (l.flatMap (fun p => (blocks64 (p.2.length / 64 + 2) p.1 p.2.length).map (fun q => (q.1, (p.2.drop (q.1 - p.1)).take q.2)))).foldl
    (fun x q =>
      match x.1 with
      | some (none, n) =>
        match accStore x.2 who q.1 q.2 act with
        | .wait t => (none, t)
        | .done a t => if a.outc.good then (some (none, n + q.2.length), t) else (some (some a.outc, n), t)
      | _ => x) (some (none, 0), s)

/-- A job's output is written: to WRITEBACK where the engine writes back, else its outcome is OK. -/
def outputDone (s : State) (e : EngId) (out : JobOut) (n : Nat) : State :=
  let t := engTal (s.updEngine e (fun x => { x with job := x.job.map (fun j =>
    { j with outlen := BitVec.ofNat 32 n, result := BitVec.ofNat 32 out.result }) })) e 0x140 out.iters
  match out.wb with
  | some w => t.updEngine e (fun x => { x with st := .writeback, job := x.job.map (fun j => { j with wb := w }) })
  | none => finishJob t e .ok 0

/-- Computation and output (R154, R155, R164 to R174): the input is read, the result computed and written. -/
def doRunDone (s : State) (e : EngId) : State :=
  let x := s.engine e
  match x.st, x.job with
  | .run, some j =>
    if j.abort ≠ none ∨ engClk s e = false then s
    else
      let typ := engType e
      let fn := bits j.desc.toNat 4 4
      let b := j.params
      let act := jobAct j
      let harq := if typ = 1 ∧ le b 0x15 1 = 2 then [(dField j.desc 0x30 8, le b 0xC 4)] else []
      match accReads s (.engine e) act (inputExtents typ fn j.desc b) with
      | .wait t => stayWake s t
      | .done a t =>
        if a.outc.good = false then finishJob t e a.outc 7
        else
          match accReads t (.engine e) act harq with
          | .wait u => stayWake s u
          | .done h u =>
            if h.outc.good = false then finishJob u e h.outc 7
            else
              let (n, u1) := takeFree u
              let out := compute n typ fn b a.data h.data
              let u2 := u1.updEngine e (fun y => { y with job := some { j with flags := j.flags ||| a.flags ||| h.flags } })
              let u3 := engReport u2 e false
              if out.fail then finishJob u3 e .engineError 10
              else
                match accStores u3 (.engine e) act (out.dst.map (fun p => (dField j.desc 0x20 8 + p.1, p.2))) with
                | (none, w) => stayWake s w
                | (some (some o, k), w) =>
                  finishJob (w.updEngine e (fun y => { y with job := y.job.map (fun z => { z with outlen := BitVec.ofNat 32 k }) })) e o 8
                | (some (none, k), w) =>
                  match accStores w (.engine e) act (out.aux.map (fun p => (dField j.desc 0x30 8 + p.1, p.2))) with
                  | (none, v) => stayWake s v
                  | (some (some o, _), v) =>
                    finishJob (v.updEngine e (fun y => { y with job := y.job.map (fun z => { z with outlen := BitVec.ofNat 32 k }) })) e o 8
                  | (some (none, _), v) => outputDone v e out k
  | _, _ => s

/-- The write-back is answered (R154, R158, R168): an abort that came in WRITEBACK is the outcome. -/
def doWritebackDone (s : State) (e : EngId) (path : PathRes) : State :=
  let x := s.engine e
  match x.st, x.job with
  | .writeback, some j =>
    match viaPath path s (accStore s (.engine e) (dField j.desc 0x30 8) j.wb (jobAct j)) with
    | .wait t => t
    | .done a t =>
      if a.outc.good = false then finishJob t e a.outc 8
      else
        let t1 := t.updEngine e (fun y => { y with job := y.job.map (fun z => { z with result := z.result ||| 0x80 }) })
        match j.abort with
        | some o => finishJob t1 e o (abortStep o)
        | none => finishJob t1 e .ok 0
  | _, _ => s

/-- A read or write response other than OK ends the job (R155). -/
def doAccessError (s : State) (e : EngId) (write : Bool) (o : Outc) : State :=
  let x := s.engine e
  match x.job with
  | none => s
  | some j =>
    if o.good then s
    else if x.st = .run ∧ j.abort = none then finishJob s e o (if write then 8 else 7)
    else if x.st = .writeback ∧ write then finishJob s e o 8
    else s

/-- A parity error in the engine's buffers (R155). -/
def doInternalError (s : State) (e : EngId) : State :=
  let x := s.engine e
  match x.job with
  | none => s
  | some j =>
    if (x.st = .run ∧ j.abort = none) ∨ x.st = .writeback then engReport (finishJob s e .engineError 10) e true else s

/-- A deadline reached in SETUP, RUN or WRITEBACK (R157, R158). -/
def doJobDeadline (s : State) (e : EngId) : State :=
  let x := s.engine e
  match x.job with
  | none => s
  | some j =>
    if (x.st = .setup ∨ x.st = .run ∨ x.st = .writeback) ∧ j.abort = none ∧ jobHasDl j = true ∧
        tickReached s.tick (eDeadline j.entry) = true then
      s.setEngine e { x with job := some { j with abort := some .deadlineMissed, abortAt := s.cycle } }
    else s

/-- An aborted job stops (R154, R158, R159). -/
def doAbortComplete (s : State) (e : EngId) : State :=
  let x := s.engine e
  match x.job with
  | none => s
  | some j =>
    match j.abort with
    | some o => if x.st = .setup ∨ x.st = .run then finishJob s e o (abortStep o) else s
    | none => s

/-! ## COMPLETE (R154, R156, R163) -/

/-- The completion record of a job (R162). -/
def jobRecord (e : EngId) (j : Job) : Entry :=
  mkRecord j.entry j.outc e.toNat j.step.toNat 0 (if j.outc = .okFlagged then j.flags else 0) j.outlen (if j.ran then j.result else 0) j.tend

/-- A record is dropped: counted, recorded with STEP 9 and reported (R163). -/
def recordDropped (s : State) (e : EngId) (j : Job) (o : Outc) : State :=
  let t := engTal (s.updEngine e (fun x => { x with errOutc := o.code, errStep := 9, etag := eTag j.entry })) e 0x150 1
  releaseEngine (engReport t e true) e

/-- The OUTCOME byte is written where WBOUT asks for it (R150, R156). -/
def writeOutcome (s : State) (e : EngId) (j : Job) : Acc :=
  if j.hasDesc ∧ j.desc.getLsbD 10 = true ∧ j.wbDone = false then
    accStore s (.engine e) (jobDesc j + 0xE) [j.outc.code.setWidth 8] (jobAct j)
  else .done (Ans.only .ok) s

/-- What the queue made of a job's record. -/
def jobEntered (e : EngId) (j : Job) : EnqAns × State → State
  | (.accepted, v) => releaseEngine v e
  | (.full, v) => v
  | (.refused o, v) => recordDropped v e j o

/-- The way of a job's record to its queue. -/
def jobVia (e : EngId) (j : Job) : Gate × State → State
  | (.answer o, u) => recordDropped u e j o
  | (.hold w, u) => holdWhole u w
  | (.pass, u) => jobEntered e j (enqueue u .fabric (eCqid j.entry) (jobRecord e j))

/-- An engine in COMPLETE writes OUTCOME, then enqueues its record (R154, R156, R163). -/
def doJobRecord (s : State) (e : EngId) (path : PathRes) : State :=
  let x := s.engine e
  match x.st, x.job with
  | .complete, some j =>
    match writeOutcome s e j with
    | .wait t => t
    | .done _ t0 =>
      let t := t0.updEngine e (fun y => { y with job := some { j with wbDone := true } })
      if eNoCompl j.entry then releaseEngine t e
      else
        match path with
        | some o => if o.good then t else recordDropped t e j o
        | none => jobVia e j (queueWay t (engNode e) (eCqid j.entry))
  | _, _ => s

/-! ## Enable, reset, fence, PREPARE (R154, R177, R178, R424) -/

/-- ACC_CTL.EN written. -/
def engSetEn (s : State) (e : EngId) (en : Bool) : State :=
  let x := s.engine e
  let st : EngState := if x.st = .disabled ∧ en = true then .idle else if x.st = .idle ∧ en = false then .disabled else x.st
  s.setEngine e { x with en := en, st := st }

/-- ACC_CTL.SRESET (R178): a running job is aborted CANCELLED; the registers return to reset once the engine is free of it. -/
def engSreset (s : State) (e : EngId) : State :=
  let x := s.engine e
  match x.job with
  | none => s.setEngine e (Engine.reset e.toNat)
  | some j =>
    let j1 := if x.st = .complete ∨ j.abort ≠ none then j else { j with abort := some .cancelled, abortAt := s.cycle }
    s.setEngine e { x with job := some j1, rst := true }

/-- A running job ends with ENGINE_ERROR, STEP 10 (R178, R424). -/
def engKill (s : State) (e : EngId) : State :=
  let st := (s.engine e).st
  if st = .setup ∨ st = .run ∨ st = .writeback then finishJob s e .engineError 10 else s

/-- Unit reset by the Assayer (R178): the job ends ENGINE_ERROR and its record is enqueued, then the engine is reset. -/
def engUnitReset (s : State) (e : EngId) : State :=
  let t := engKill s e
  match (t.engine e).job with
  | none => t.setEngine e (Engine.reset e.toNat)
  | some _ => t.updEngine e (fun x => { x with rst := true })

/-- ACC_QSEL written (R180). -/
def qselWrite (s : State) (e : EngId) (v : Word) : Outc × State :=
  let x := s.engine e
  let q : QueueId := slice v 0 16
  if x.st ≠ .disabled ∨ clusterRegion (queueCluster q) ≠ engRegion e then (.notPermitted, s)
  else (.ok, s.setEngine e { x with qsel := q })

/-- The code of ACC_STATUS.STATE. -/
def engStateCode : EngState → Nat
  | .disabled => 0 | .idle => 1 | .setup => 2 | .run => 3 | .writeback => 4 | .complete => 5

/-- A read in an engine's block (R179). -/
def engRead (s : State) (e : EngId) (off : Nat) : RdAns :=
  let x := s.engine e
  if off = 0x00 then rdPack s [(8, e.toNat), (4, engType e), (4, 0), (4, 1)]
  else if off = 0x04 then rdVal s (if x.en then 1 else 0)
  else if off = 0x08 then rdPack s [(3, engStateCode x.st), (1, b2n (memberHolds s (.engine e)))]
  else if off = 0x0C then rdVal s (x.qsel.setWidth 32)
  else if off = 0x10 then rdVal s x.curtag
  else if off = 0x14 then rdPack s [(5, x.errOutc.toNat), (3, 0), (4, x.errStep.toNat)]
  else if off = 0x18 then rdVal s x.etag
  else if inTal off 0x100 11 then talRead s (engBase e) off
  else none

/-- A write in an engine's block (R179). -/
def engWrite (s : State) (e : EngId) (off : Nat) (v : Word) : WrAns :=
  if off = 0x04 then
    let t := engSetEn s e (v.getLsbD 0)
    wrOk (if v.getLsbD 1 then engSreset t e else t)
  else if off = 0x0C then some (qselWrite s e v)
  else if off = 0x00 ∨ off = 0x08 ∨ off = 0x10 ∨ off = 0x14 ∨ off = 0x18 ∨ inTal off 0x100 11 = true then wrOk s
  else none

/-! ## Meanings -/

/-- JOB_DEQUEUE (R151, R154). -/
def execJobDequeue (e : EngId) (s : State) : Host.Outcome State Fault Refusal := .next (doDequeue s e)
/-- JOB_SETUP_READ_RESPONSE (R153). -/
def execJobSetupReadResponse (e : EngId) (path : PathRes) (s : State) : Host.Outcome State Fault Refusal := .next (doSetupRead s e path)
/-- JOB_BORROW_ANSWER (R160, R210). -/
def execJobBorrowAnswer (e : EngId) (s : State) : Host.Outcome State Fault Refusal := .next (doBorrowAnswer s e)
/-- JOB_RUN_DONE (R154, R155, R164 to R174). -/
def execJobRunDone (e : EngId) (s : State) : Host.Outcome State Fault Refusal := .next (doRunDone s e)
/-- JOB_WRITEBACK_DONE (R154, R168). -/
def execJobWritebackDone (e : EngId) (path : PathRes) (s : State) : Host.Outcome State Fault Refusal := .next (doWritebackDone s e path)
/-- JOB_ACCESS_ERROR (R155). -/
def execJobAccessError (e : EngId) (write : Bool) (o : Outc) (s : State) : Host.Outcome State Fault Refusal :=
  .next (doAccessError s e write o)
/-- JOB_INTERNAL_ERROR (R155). -/
def execJobInternalError (e : EngId) (s : State) : Host.Outcome State Fault Refusal := .next (doInternalError s e)
/-- JOB_DEADLINE (R157, R158). -/
def execJobDeadline (e : EngId) (s : State) : Host.Outcome State Fault Refusal := .next (doJobDeadline s e)
/-- JOB_ABORT_COMPLETE (R158, R159). -/
def execJobAbortComplete (e : EngId) (s : State) : Host.Outcome State Fault Refusal := .next (doAbortComplete s e)
/-- JOB_RECORD_ENQUEUE (R154, R156, R163). -/
def execJobRecordEnqueue (e : EngId) (path : PathRes) (s : State) : Host.Outcome State Fault Refusal := .next (doJobRecord s e path)
/-- ENGINE_ENABLE (R154, R179). -/
def execEngineEnable (who : Initiator) (e : EngId) (s : State) : Host.Outcome State Fault Refusal :=
  .next (regCmd s who (engBase e + 4) (fun t => wrAnswer (.ok, engSetEn t e true)))
/-- ENGINE_DISABLE (R154, R179). -/
def execEngineDisable (who : Initiator) (e : EngId) (s : State) : Host.Outcome State Fault Refusal :=
  .next (regCmd s who (engBase e + 4) (fun t => wrAnswer (.ok, engSetEn t e false)))
/-- ENGINE_SRESET (R178). -/
def execEngineSreset (who : Initiator) (e : EngId) (s : State) : Host.Outcome State Fault Refusal :=
  .next (regCmd s who (engBase e + 4) (fun t => wrAnswer (.ok, engSreset t e)))
/-- ACC_QSEL_WRITE (R180). -/
def execAccQselWrite (who : Initiator) (e : EngId) (v : Word) (s : State) : Host.Outcome State Fault Refusal :=
  .next (regCmd s who (engBase e + 0xC) (fun t => wrAnswer (qselWrite t e v)))

end Sys2Proof.Machine
end

