-- ==== Sys2Proof/Machine/Conflict.lean ====
section
/-! DEFINITION. Resources with more than one possible user, and the writes that would give one to two users (R305, R483 to R485). -/

namespace Sys2Proof.Machine

/-- A GPIO pin. -/
def State.pin (s : State) (n : Nat) : GpoPin := sget GpoPin.reset s.gpo.pins n

/-- The first number below n that two indices below m share under a key. -/
def firstTwice (l : List Nat) : Option Nat := l.find? (fun x => decide (1 < l.count x))

/-- Two pins are the alternate of one wake source (class 0x01). -/
def wakeClash (s : State) : Option Nat :=
  firstTwice (((List.range 16).filter (fun n => (s.pin n).func == 5)).map (fun n => (s.pin n).sel.toNat))

/-- Two armed timers drive one event line (class 0x02). -/
def lineClash (s : State) : Option Nat :=
  firstTwice (((List.range 64).map (fun t => s.tmr (BitVec.ofNat 6 t))).filterMap (fun t =>
    if t.armed ∧ t.outsel = 3 then some t.line.toNat else none))

/-- Both PPS outputs use one timer (class 0x03). -/
def ppsClash (s : State) : Option Nat :=
  if s.cmk.pps0.en ∧ s.cmk.pps1.en ∧ s.cmk.pps0.timer = s.cmk.pps1.timer then some s.cmk.pps0.timer.toNat else none

/-- What a receive stream matches on (R305). -/
def matchKey (x : Strm) : Nat :=
  packLE [(5, x.port.toNat), (1, b2n x.tagged), (12, if x.tagged then x.vid.toNat else 0), (1, b2n x.type2), (16, x.pcid.toNat)]

/-- Two enabled receive streams have one match, or a stream of the Crier has lost its port (class 0x04). -/
def streamClash (s : State) : Option Nat :=
  let l := (s.fhp.strms.filter (fun p => p.2.en && !p.2.tx)).map (fun p => (p.1, matchKey p.2))
  match l.find? (fun p => l.any (fun q => decide (q.1 < p.1) && q.2 == p.2)) with
  | some p => some p.1
  | none =>
    if s.cri.en ∧ (s.port (s.strm s.cri.rxstrm).port).rxEn = false then some s.cri.rxstrm.toNat
    else if s.cri.en ∧ (s.port (s.strm s.cri.txstrm).port).txEn = false then some s.cri.txstrm.toNat
    else none

/-- A hub DMA channel. -/
def State.dmaCh (s : State) (n : Nat) : DmaCh := sget DmaCh.reset s.hif.dma n

/-- No hub DMA channel is left in the pool (class 0x05). -/
def dmaClash (s : State) : Option Nat :=
  if (List.range 16).all (fun n => (s.dmaCh n).rsv) then some 0xFFFFFF else none

/-- The hub memory ranges of R483 by offset and length. -/
def hubRanges (s : State) : List (Nat × Nat) :=
  let streams := s.fhp.strms.filterMap (fun p =>
    let x := p.2
    let dst := x.dstlo.toNat + 2 ^ 32 * x.dsthi.toNat
    if x.en ∧ x.tx = false ∧ hubBase ≤ dst ∧ dst < hubBase + 0x2000000 then
      some (dst - hubBase, x.stride.toNat * 64 * 2 ^ x.log2nbuf.toNat) else none)
  [(s.fhp.excbase.toNat, s.fhp.exccnt.toNat * 9216), (s.asy.logBase.toNat, 32 * 2 ^ s.asy.log2n.toNat), (0x1E00000, 0x100000),
   (0x1FFFFC0, 64)] ++ streams

/-- The lowest byte that two ranges of a list share. -/
def overlapIn : List (Nat × Nat) → Option Nat
  | [] => none
  | a :: rest =>
    let here := rest.filterMap (fun b =>
      let lo := max a.1 b.1
      if lo < min (a.1 + a.2) (b.1 + b.2) then some lo else none)
    match here.min?, overlapIn rest with
    | some x, some y => some (min x y)
    | some x, none => some x
    | none, y => y

/-- Two hub memory ranges overlap (class 0x06). -/
def hubClash (s : State) : Option Nat := (overlapIn (hubRanges s)).map (fun x => x / 64)

/-- The first conflict of a configuration in the order of R485: CLASS and INDEX. -/
def conflictOf (s : State) : Option (Nat × Nat) :=
  (wakeClash s).map (fun i => (1, i)) |>.or ((lineClash s).map (fun i => (2, i))) |>.or ((ppsClash s).map (fun i => (3, i)))
    |>.or ((streamClash s).map (fun i => (4, i))) |>.or ((dmaClash s).map (fun i => (5, i))) |>.or ((hubClash s).map (fun i => (6, i)))

/-- A direct write that would produce a conflict is discarded; `cm` marks a write of a commit, whose set was checked as a whole (R484). -/
def noConflict (cm : Bool) (s : State) (x : Outc × State) : Outc × State :=
  if cm = false ∧ (conflictOf x.2).isSome ∧ conflictOf x.2 ≠ conflictOf s then (.notPermitted, s) else x

end Sys2Proof.Machine
end

