-- ==== Sys2Proof/Machine/CrierCore.lean ====
section
/-! DEFINITION. The Crier apart from its commands: band, mask, bit-loading tables, packets, aborts, and what it transmits (R372 to R381,
R390, R392). -/

namespace Sys2Proof.Machine

/-- Base of the CRI block (R27). -/
def criBase : Nat := hubBlk 5
/-- A Crier counter: 0 RXDET, 1 CAPTURE, 2 HDRFAIL, 3 HDRBAD, 4 PLFAIL, 5 RXOK, 6 RXDROP, 7 RXABORT, 8 TXDONE, 9 TXCANCEL, 10 TXBLOCK. -/
def criTal (s : State) (i : Nat) : State := tallyAdd s (criBase + 0x100 + 8 * i) 1

/-! ## Band and mask (R372, R373) -/

/-- NPRB of a BW at a numerology; none where the table does not define it. -/
def criPrbs (num bw : Nat) : Option Nat :=
  if num = 0 then [6, 25, 50, 100][bw]?
  else if num = 1 then (match bw with | 1 => some 11 | 2 => some 24 | 3 => some 51 | _ => none)
  else none

/-- A stream fits the Crier's band settings. -/
def criStreamOk (s : State) (n : StreamId) : Bool :=
  let x := s.strm n
  match criPrbs x.num.toNat s.cri.bw.toNat with
  | some p => !x.type2 && decide (s.cri.startprb.toNat + p ≤ 273)
  | none => false

/-- A symbol is masked (R373): SFN, slot in the frame, symbol, numerology. -/
def criMasked (s : State) (num sfn slot sym : Nat) : Bool :=
  s.cri.en && (10 * 2 ^ num * sfn + slot) % s.cri.mperiod.toNat == s.cri.moffset.toNat && s.cri.symbols.getLsbD sym

/-! ## Tables (R378 to R381) -/

/-- The load of beacon sub-carrier i. -/
def tblLoad (t : BitVec 256) (i : Nat) : Nat := bits t.toNat (4 * i) 4
/-- Every load is 0 to 6. -/
def tblOk (t : BitVec 256) : Bool := (List.range 64).all (fun i => decide (tblLoad t i ≤ 6))
/-- Sub-carrier i carries a pilot. -/
def isPilot (pilots : Bool) (i : Nat) : Bool := pilots && i % 8 == 0
/-- Data bits of a payload symbol (R381). -/
def tblBits (t : BitVec 256) (pilots : Bool) : Nat :=
  (List.range 64).foldl (fun a i => if isPilot pilots i then a else a + tblLoad t i) 0
/-- A loaded table by number. -/
def Cri.table (c : Cri) (n : BitVec 4) : Option (BitVec 256) :=
  if c.tblstat.getLsbD n.toNat then some (sget 0 c.tables n.toNat) else none

/-! ## Headers (R377) -/

/-- CRC-16 of R119 over bits in ascending order. -/
def crc16 (n : Nat) (f : Nat → Bool) : Nat := upTo n (fun i r => crcStep 16 0x1021 r (f i)) 0
/-- The header with its HCRC. -/
def mkHeader (table len : Nat) (pilots ref : Bool) : Word :=
  let lo := packLE [(4, table), (10, len), (1, b2n pilots), (1, b2n ref)]
  BitVec.ofNat 32 (lo + 2 ^ 16 * crc16 16 (fun i => lo.testBit i))
/-- HCRC holds. -/
def hcrcOk (h : Word) : Bool := crc16 16 (fun i => h.getLsbD i) == bits h.toNat 16 16
/-- LEN of a header. -/
def hdrLen (h : Word) : Nat := bits h.toNat 4 10

/-! ## Events and aborts (R384, R392) -/

/-- A BEACON event: reasons 0, 7 and 8 always, the others with EVFAIL. -/
def criEvent (s : State) (reason slot len metric table : Nat) : State :=
  if reason = 0 ∨ reason = 7 ∨ reason = 8 ∨ s.cri.evfail = true then
    pushEvent s 7 (srcHub 4) 0 0 (packLE [(8, reason), (8, slot), (16, len), (16, metric), (8, table)])
  else s

/-- The event of a failed packet. -/
def criPktEvent (s : State) (reason : Nat) : State :=
  criEvent s reason 0 (hdrLen s.cri.pkt.header) s.cri.pkt.metric.toNat (bits s.cri.pkt.header.toNat 0 4)

/-- A packet is being received. -/
def criRxBusy (c : Cri) : Bool := c.rx == .sync || c.rx == .header || c.rx == .payload

/-- The receiver leaves its packet for a state: reason 6 and CRI_TAL_RXABORT where one was in progress. -/
def criRxTo (s : State) (st : CriRx) : State :=
  let s1 := if criRxBusy s.cri then criPktEvent (criTal s 7) 6 else s
  { s1 with cri := { s1.cri with rx := st, pkt := CriPkt.reset } }

/-- A held or running transmission completes CANCELLED (R392, R486). -/
def criCancelTx (s : State) : State :=
  match s.cri.tx with
  | none => s
  | some t => completeOk (criTal { s with cri := { s.cri with tx := none } } 9) t.ring t.idx .cancelled

/-- The abort of R392: beacon time moves. -/
def criAbort (s : State) : State :=
  criCancelTx (criRxTo s (if s.cri.rx = .idle then .idle else .search))

/-- CRI_CTL.EN falls: the receiver is IDLE, a transmission ends (R384; log 17). -/
def criStop (s : State) : State := criCancelTx (criRxTo s .idle)

/-! ## Transmitted symbols (R373 to R381) -/

/-- Samples per chirp. -/
def chirpLen (c : Cri) : Nat := 2 ^ c.sf.toNat
/-- k with k XOR (k >> 1) = g. -/
def grayInv (w g : Nat) : Nat := ((List.range (2 ^ w)).find? (fun k => (k ^^^ (k / 2)) == g)).getD 0

/-- Sample n of the up-chirp of value v in units of 2^−80 (R376). -/
def upChirp (a n : Nat) (v i : Nat) : Int × Int :=
  let m := (i + v) % n
  let (x, y) := unitRoot ((m * m + (2 * n - m % 2 * n)) % (2 * n)) (2 * n)
  (a * x, a * y)

/-- Beacon sample i of a preamble and header (R375, R376); 0 beyond 16 N − 1. -/
def beaconSample (a n : Nat) (header : Word) (i : Nat) : Int × Int :=
  let c := i / n
  if c < 6 then upChirp a n 0 (i % n)
  else if c = 6 then let (x, y) := upChirp a n 0 (i % n); (x, -y)
  else if c = 7 then upChirp a n (n / 2) (i % n)
  else if c < 16 then upChirp a n (grayInv 4 (bits header.toNat (4 * (c - 8)) 4) * (n / 16)) (i % n)
  else (0, 0)

/-- √m in units of 2^−80. -/
def sqrtFix (m : Nat) : Nat := Nat.sqrt (m * 2 ^ 160)

/-- A part within ±2 of an exact value given as numerator and denominator, saturated to 16 bits (R373). -/
def nearTwo (n i : Nat) (num : Int) (den : Nat) : Int :=
  (satPart (freeBetween n i (-((-(num - 2 * den)) / den)) ((num + 2 * den) / den))).1

/-- The band sub-carriers of a time-domain symbol: M beacon samples through R373. -/
def chirpSymbol (fr a n m : Nat) (header : Word) (first : Nat) : List (Int × Int) :=
  let x := (List.range m).map (fun i => beaconSample a n header (first + i))
  let q := sqrtFix m
  (List.range m).map (fun i =>
    let k := (i + m / 2) % m
    let y := x.zipIdx.foldl (fun (acc : Int × Int) p =>
      let (c, s0) := unitRoot (k * p.2) m
      (acc.1 + (p.1.1 * c + p.1.2 * s0) / 2 ^ 80, acc.2 + (p.1.2 * c - p.1.1 * s0) / 2 ^ 80)) (0, 0)
    (nearTwo fr (2 * i) y.1 q, nearTwo fr (2 * i + 1) y.2 q))

/-- The level of one dimension of m bits (R380). -/
def qamLevel (m g : Nat) : Int := if m = 0 then 0 else (2 ^ m : Int) - 1 - 2 * (grayInv m g : Int)

/-- The bits g of a dimension, first bit most significant. -/
def takeBits (f : Nat → Bool) (o m : Nat) : Nat := (List.range m).foldl (fun a i => 2 * a + b2n (f (o + i))) 0

/-- The points of the 64 beacon sub-carriers of a payload symbol, within ±2 (R379, R380); `o` is the first bit of the symbol. -/
def payloadPoints (fr a : Nat) (t : BitVec 256) (pilots : Bool) (f : Nat → Bool) (o : Nat) : List (Int × Int) :=
  ((List.range 64).foldl (fun (x : Nat × List (Int × Int)) i =>
    if isPilot pilots i then (x.1, x.2 ++ [((a : Int), 0)])
    else
      let b := tblLoad t i
      let bi := (b + 1) / 2
      let bq := b / 2
      let q := sqrtFix ((2 ^ (2 * bi) + 2 ^ (2 * bq) - 2) / 3)
      let pt := fun (j : Nat) (l : Int) => if b = 0 then 0 else nearTwo fr (2 * i + j) (l * a * 2 ^ 80) q
      (x.1 + b, x.2 ++ [(pt 0 (qamLevel bi (takeBits f x.1 bi)), pt 1 (qamLevel bq (takeBits f (x.1 + bi) bq)))])) (o, [])).2

/-- Bit i of the payload bit stream: payload, CRC-16 low byte first, zero padding (R381). -/
def payloadBit (d : List Byte) (i : Nat) : Bool :=
  let b := fun (l : List Byte) (j : Nat) => ((l[j / 8]?).getD 0).getLsbD (j % 8)
  if i < 8 * d.length then b d i else b (bytesOfNat 2 (crc16 (8 * d.length) (b d))) (i - 8 * d.length)

/-- The band sub-carriers of a payload symbol (R379). -/
def payloadSymbol (fr a m : Nat) (t : BitVec 256) (pilots : Bool) (d : List Byte) (k : Nat) : List (Int × Int) :=
  let pts := payloadPoints fr a t pilots (payloadBit d) (k * tblBits t pilots)
  let g := m / 64
  let o := (m - 64 * g) / 2
  (List.range m).map (fun i => if o ≤ i ∧ i < o + 64 * g then (pts[(i - o) / g]?).getD (0, 0) else (0, 0))

/-- Masked symbols of the preamble and header. -/
def headSymbols (n m : Nat) : Nat := cdiv (16 * n) m

/-- The band sub-carriers of masked symbol u of a transmission. -/
def txSymbol (fr : Nat) (c : Cri) (t : CriTx) (m u : Nat) : List (Int × Int) :=
  let n := chirpLen c
  let a := c.txamp.toNat
  let h := headSymbols n m
  if u < h then chirpSymbol fr a n m t.header (u * m)
  else payloadSymbol fr a m ((c.table t.table).getD 0) (t.header.getLsbD 14) t.payload (u - h)

/-- Masked symbols that a packet needs (R375, R381). -/
def txTotal (n m len d : Nat) : Nat := headSymbols n m + cdiv (8 * (len + 2)) d

end Sys2Proof.Machine
end

