-- ==== Sys2Proof/Machine/FhpCore.lean ====
section
/-! DEFINITION. Fronthaul apart from its commands: symbol times, samples, symbol instances, descriptors and their placement (R296 to R316,
R328, R329). -/

namespace Sys2Proof.Machine

/-! ## Time as a number (R327 to R329) -/

/-- A TS96 in units of 2^−16 ns. -/
def tsUnits (t : Ts) : Nat := (t.sec.toNat * 1000000000 + t.ns.toNat) * 65536 + t.frac.toNat
/-- A number of units as TS96. -/
def unitsTs (u : Nat) : Ts :=
  { sec := BitVec.ofNat 48 (u / 65536 / 1000000000), ns := BitVec.ofNat 32 (u / 65536 % 1000000000), frac := BitVec.ofNat 16 u }
/-- Device time in units of 2^−16 ns. -/
def State.units (s : State) : Nat := s.nowNs * 65536 + s.cmk.frac
/-- Ticks since the epoch at a time: floor(t × 0.491 52) (R328). -/
def ticksAt (u : Nat) : Nat := u * 3 / 400000
/-- Frames since the epoch at a time (R329). -/
def frameAt (u : Nat) : Nat := u / (10000000 * 65536)
/-- The SFN of frame k (R329). -/
def sfnOf (s : State) (k : Int) : Nat := ((k + s.cmk.sfnoff.toNat) % 1024).toNat
/-- The current SFN. -/
def sfnNow (s : State) : Nat := sfnOf s (frameAt s.units)

/-- The frame whose number modulo 256 is n and whose start lies nearest a time (R306); of two equally near, the later (log 18). -/
def nearFrame (s : State) (u n : Nat) : Int :=
  let k0 := frameAt u
  let d := (n + 1024 - sfnOf s k0 % 256) % 256
  let into := ticksAt u - k0 * 4915200
  if d * 4915200 ≤ (256 - d) * 4915200 + 2 * into then (k0 + d : Nat) else (k0 + d : Nat) - 256

/-! ## Symbol identity (R301, R306) -/

/-- A symbol identity. -/
structure SymId where
  frame : Nat
  sub : Nat
  slot : Nat
  sym : Nat
  deriving DecidableEq, Repr

/-- Byte i of a list, 0 beyond its end. -/
def byteAt (l : List Byte) (i : Nat) : Nat := ((l[i]?).getD 0).toNat
/-- The 16-bit number in network order at i. -/
def be16 (l : List Byte) (i : Nat) : Nat := 256 * byteAt l i + byteAt l (i + 1)
/-- The identity in the first bytes of a section header. -/
def symId (h : List Byte) : SymId :=
  { frame := byteAt h 0, sub := byteAt h 1 / 16, slot := byteAt h 1 % 16, sym := byteAt h 2 / 16 }
/-- FMT of a section header. -/
def hdrFmt (h : List Byte) : Nat := byteAt h 2 % 16
/-- STARTPRB. -/
def hdrStart (h : List Byte) : Nat := be16 h 4 % 512
/-- NUMPRB. -/
def hdrNum (h : List Byte) : Nat := be16 h 6 % 512
/-- IDENT of R313. -/
def SymId.ident (i : SymId) : BitVec 24 := BitVec.ofNat 24 (packLE [(8, i.frame), (4, i.sub), (4, i.slot), (4, i.sym)])
/-- SUBFRAME, SLOT and SYMBOL lie in range for a numerology (R301, R304). -/
def SymId.ok (i : SymId) (mu : Nat) : Bool := decide (i.sub ≤ 9 ∧ i.slot < 2 ^ mu ∧ i.sym ≤ 13)
/-- The slot within the frame. -/
def SymId.frameSlot (i : SymId) (mu : Nat) : Nat := 2 ^ mu * i.sub + i.slot

/-- start(l) in ticks (R306). -/
def symOffset (mu l : Nat) : Nat := l * 35072 / 2 ^ mu + 256 * cdiv l (7 * 2 ^ mu)
/-- The symbol start tick S of an identity in frame k (R306). -/
def symStart (mu : Nat) (k : Int) (i : SymId) : Word :=
  BitVec.ofInt 32 (k * 4915200 + 491520 * i.sub + symOffset mu (14 * i.slot + i.sym))

/-- Signed 8-tick units as ticks. -/
def ticks8 (x : BitVec 16) : Word := BitVec.ofInt 32 (x.toInt * 8)

/-- The symbol lies in the Crier's mask on a stream (R320, R373). -/
def criOwns (s : State) (n strm : StreamId) (k : Int) (i : SymId) : Bool :=
  let mu := (s.strm n).num.toNat
  n == strm && criMasked s mu (sfnOf s k) (i.frameSlot mu) i.sym

/-! ## Samples (R302, R303) -/

/-- Mantissa width of a BFP format. -/
def mantBits (fmt : Nat) : Nat := if fmt = 1 then 8 else if fmt = 2 then 9 else if fmt = 3 then 12 else 14
/-- Bytes of a PRB. -/
def prbSize (fmt : Nat) : Nat := if fmt = 0 then 48 else 1 + 3 * mantBits fmt
/-- The signed number of w bits from bit o of a string packed most significant bit first. -/
def bitsBE (x total o w : Nat) : Int := (BitVec.ofNat w (x / 2 ^ (total - o - w))).toInt
/-- The 24 parts of a PRB (R303). -/
def prbParts (fmt : Nat) (d : List Byte) : List Int :=
  if fmt = 0 then (List.range 24).map (fun i => bitsBE (natOfBE (fitBytes 48 d)) 384 (16 * i) 16)
  else
    let m := mantBits fmt
    let e := byteAt d 0 % 16
    let x := natOfBE (fitBytes (3 * m) (d.drop 1))
    (List.range 24).map (fun i => (sat16 (bitsBE x (24 * m) (m * i) m * 2 ^ e)).1)
/-- The parts as the 48 stored bytes of a PRB (R45). -/
def partBytes (l : List Int) : List Byte := l.flatMap (fun v => bytesOfNat 2 (wrapTo 16 v))
/-- The 24 parts of 48 stored bytes. -/
def storedParts (d : List Byte) : List Int := (List.range 24).map (fun i => leS d (2 * i) 2)

/-- The smallest exponent from e with which every mantissa fits (R303). -/
def expFor (m : Nat) (l : List Int) : Nat → Nat → Nat
  | 0, e => e
  | fuel + 1, e =>
    if l.all (fun v => decide (-(2 ^ (m - 1) : Int) ≤ rnd v e ∧ rnd v e ≤ (2 ^ (m - 1) : Int) - 1)) then e else expFor m l fuel (e + 1)
/-- The number whose digits of w bits are given, most significant first. -/
def packBE (w : Nat) (l : List Int) : Nat := l.foldl (fun a v => a * 2 ^ w + wrapTo w v) 0
/-- The n bytes of a number in network order. -/
def bytesBE (n v : Nat) : List Byte := (bytesOfNat n v).reverse
/-- A PRB as a transmit stream sends it (R302, R303). -/
def prbEncode (fmt : Nat) (l : List Int) : List Byte :=
  if fmt = 0 then bytesBE 48 (packBE 16 l)
  else
    let m := mantBits fmt
    let e := expFor m l 15 0
    BitVec.ofNat 8 e :: bytesBE (3 * m) (packBE m (l.map (fun v => rnd v e)))
/-- Consecutive pieces of k bytes, n of them. -/
def chunks (k n : Nat) (d : List Byte) : List (List Byte) := (List.range n).map (fun i => (d.drop (k * i)).take k)

/-! ## Counters and reports (R321, R508) -/

/-- Base of the FHP block. -/
def fhpBase : Nat := hubBlk 2
/-- A port counter: 0 RXFRM, 1 RXERR, 2 RXFCS, 3 RXADDR, 4 RXUNK, 5 RXHDR, 6 RXOVF, 7 RXEXCDROP, 8 TXFRM, 9 FECCORR, 10 FECUNC. -/
def portTal (s : State) (n : PortId) (i : Nat) : State := tallyAdd s (fhpBase + 0x2100 + n.toNat * 0x400 + 8 * i) 1
/-- A stream counter: 0 RXPKT, 1 EARLY, 2 LATE, 3 DUP, 4 BADFCS, 5 INCOMPL, 6 WRERR, 7 QFULL, 8 TXPKT, 9 TXMISS. -/
def strmTal (s : State) (n : StreamId) (i : Nat) : State := tallyAdd s (fhpBase + 0x80000 + n.toNat * 0x80 + 8 * i) 1
/-- A stream counter by an amount. -/
def strmTalN (s : State) (n : StreamId) (i k : Nat) : State := tallyAdd s (fhpBase + 0x80000 + n.toNat * 0x80 + 8 * i) k
/-- The report of a loss under R314. -/
def fhpReport (s : State) (n : StreamId) : State :=
  report s (srcHub 1) (BitVec.ofNat 32 (packLE [(12, n.toNat), (4, 0), (5, (s.strm n).port.toNat), (3, 0), (1, 1)]))

/-! ## Descriptors and instances (R308, R311 to R313) -/

/-- DST of a stream. -/
def Strm.dst (x : Strm) : Nat := x.dstlo.toNat + 2 ^ 32 * x.dsthi.toNat
/-- The start of the symbol buffer of an identity (R311). -/
def bufAddr (x : Strm) (i : SymId) : Nat :=
  let mu := x.num.toNat
  let b := (14 * (10 * 2 ^ mu * i.frame + 2 ^ mu * i.sub + i.slot) + i.sym) % 2 ^ x.log2nbuf.toNat
  x.dst + b * x.stride.toNat * 64

/-- PRBs marked in a map. -/
def marked (m : BitVec 273) : Nat := ((List.range 273).filter (fun i => m.getLsbD i)).length
/-- The map of n PRBs from o. -/
def prbMap (o n : Nat) : BitVec 273 := BitVec.ofNat 273 ((2 ^ n - 1) * 2 ^ o)

/-- The task descriptor of a stream (R313). -/
def strmDesc (n : StreamId) (x : Strm) (sTick : Word) (ident : BitVec 24) (prbs : Nat) (late : Bool) (len : Nat) (flags : Word)
    (bad : Outc) : PendDesc :=
  let o : Outc := if bad.good then (if flags = 0 then .ok else .okFlagged) else bad
  let t0 := x.tmpl0.toNat
  let dl := sTick + BitVec.ofNat 32 (x.dloff.toNat * 8)
  { q := x.qid,
    e := BitVec.ofNat 256 (packLE [(4, 1), (3, bits t0 28 3), (1, 0), (9, x.act.toNat), (4, bits t0 24 4), (1, b2n x.nodl),
      (1, bits t0 31 1), (9, 0), (32, dl.toNat), (32, sTick.toNat), (16, x.tmpl1.toNat), (8, bits t0 16 8), (8, 0),
      (16, bits t0 4 12 * 16), (16, bits x.tmpl1.toNat 16 16), (20, ident.toNat), (9, prbs), (1, b2n (decide (prbs < x.expprb.toNat))),
      (1, b2n late), (1, 0), (5, o.code.toNat), (11, len), (12, n.toNat), (4, 0), (32, flags.toNat)]) }

/-- Puts an instance in place of the one with its number. -/
def Strm.putInst (x : Strm) (i : SymInst) : Strm := { x with insts := x.insts.map (fun j => if j.seq = i.seq then i else j) }

/-- An open instance closes: its descriptor is formed when a PRB is marked or under EMPTYDESC (R312). -/
def closeInst (s : State) (n : StreamId) (i : SymInst) : State :=
  if i.opened = false then s
  else
    let x := s.strm n
    let k := marked i.map
    let form := decide (0 < k) || x.emptyDesc
    let x1 := x.putInst { i with opened := false, formed := form }
    let d := strmDesc n x i.s i.ident k false 0 i.flags i.outc
    let s1 := s.setStrm n (if form then { x1 with closing := x1.closing ++ [d] } else x1)
    if k < x.expprb.toNat then strmTal s1 n 5 else s1

/-- Every open instance of a stream closes (R312, R320). -/
def closeAll (s : State) (n : StreamId) : State := (s.strm n).insts.foldl (fun t i => closeInst t n i) s

/-- The instance of a symbol. -/
def findInst (x : Strm) (ident : BitVec 24) (sTick : Word) : Option SymInst := x.insts.find? (fun i => i.ident == ident && i.s == sTick)

/-- Opens an instance: a free map of the four, or that of the oldest instance, which closes (R308). -/
def openInst (s : State) (n : StreamId) (ident : BitVec 24) (sTick : Word) : SymInst × State :=
  let s1 := match (s.strm n).insts with
    | o :: rest =>
      if 4 ≤ rest.length + 1 then
        let t := closeInst s n o
        t.setStrm n { t.strm n with insts := (t.strm n).insts.drop 1 }
      else s
    | [] => s
  let x := s1.strm n
  let i : SymInst := { ident := ident, s := sTick, map := 0, opened := true, formed := false, flags := 0, outc := .ok, seq := x.seq }
  (i, s1.setStrm n { x with insts := x.insts ++ [i], seq := x.seq + 1 })

/-! ## Writes of a stream (R311) -/

/-- A write of the FHP node to buffer memory; elsewhere the answer of R152. -/
def fhpStore (s : State) (pa : Nat) (d : List Byte) (act : ActId) : Acc :=
  match extentCheck pa d.length with
  | some o => .done (Ans.only o) s
  | none => accStore s .fhp pa d act

/-- Several writes: the first outcome that is not OK, the flags, how many failed; none while one waits. -/
def fhpStores (s0 : State) (act : ActId) (l : List (Nat × List Byte)) : Outc × Word × Nat × Acc :=
  l.foldl (fun x p =>
    match x.2.2.2 with
    | .wait t => (x.1, x.2.1, x.2.2.1, .wait t)
    | .done _ t =>
      match fhpStore t p.1 p.2 act with
      | .wait u => (x.1, x.2.1, x.2.2.1, .wait (stayWake s0 u))
      | .done a u =>
        (if x.1.good && !a.outc.good then a.outc else x.1, x.2.1 ||| a.flags, x.2.2.1 + b2n (!a.outc.good), .done a u))
    (.ok, 0, 0, .done (Ans.only .ok) s0)

/-! ## Quads (R296) -/

/-- Quad q. -/
def State.quad (s : State) (q : Nat) : Quad := sget Quad.reset s.fhp.quads q
/-- Replaces quad q. -/
def State.setQuad (s : State) (q : Nat) (x : Quad) : State := { s with fhp := { s.fhp with quads := sput Quad.reset s.fhp.quads q x } }
/-- The mode of the port's quad creates it. -/
def portExists (s : State) (n : PortId) : Bool :=
  let m := (s.quad (n.toNat / 4)).mode.toNat
  let i := n.toNat % 4
  if m = 0 then i == 0 else if m = 1 then i % 2 == 0 else true

/-- The step of device time as the fronthaul sees it (R320): open instances close; held entries whose send tick the step has passed are
done with DEADLINE_MISSED. -/
def txDone (s : State) (n : StreamId) (e : Entry) (o : Outc) : State :=
  let x := s.strm n
  let e2 : Entry := BitVec.ofNat 256 (e.toNat / 16 * 16 + 2)
  let x1 := { x with held := x.held.filter (fun h => h.e != e) ++ ((x.held.filter (fun h => h.e == e)).drop 1) }
  s.setStrm n (if e2.getLsbD 176 then x1 else { x1 with recs := x1.recs ++ [{ q := slice e2 160 16, e := mkRecord e2 o 0 0 2 0 0 0 s.tick }] })

/-- Effect of a time step on the streams; `fwd` for a forward step from tick `old` over `d` ticks. -/
def fhpStep (s : State) (old : Word) (fwd : Option Nat) : State :=
  s.fhp.strms.foldl (fun t p =>
    let n : StreamId := BitVec.ofNat 12 p.1
    let t1 := closeAll t n
    match fwd with
    | none => t1
    | some d =>
      (t1.strm n).held.foldl (fun u h =>
        let ahead := (eDeadline h.e - old).toNat
        if 0 < ahead ∧ ahead ≤ d then strmTal (txDone u n h.e .deadlineMissed) n 9 else u) t1) s

end Sys2Proof.Machine
end

