-- ==== Sys2Proof/Machine/Clock.lean ====
section
/-! DEFINITION. The Clockmaker apart from its registers: time steps, selection and states, event timers and PPS (R327 to R350). -/

namespace Sys2Proof.Machine

/-- Base of the CMK block (R27). -/
def cmkBase : Nat := hubBlk 3
/-- A Clockmaker counter: 0 SWITCH, 1 STEP, 2 TMRLATE, 3 PPSINMISS, 4 TODERR, 5 TSDROP. -/
def cmkTal (s : State) (i n : Nat) : State := tallyAdd s (cmkBase + 0x2000 + 8 * i) n
/-- Root cycles in a second. -/
def rootHz : Nat := 3932160000

/-! ## State word and events (R338, R350, R351) -/

/-- STATE as coded. -/
def ClockState.code : ClockState → Nat
  | .freerun => 0
  | .acquiring => 1
  | .locked => 2
  | .holdover => 3
/-- A selected slot as coded, 0xF for none. -/
def slotCode (x : Option (BitVec 3)) : Nat := match x with | some i => i.toNat | none => 15
/-- TIMEOK (R338). -/
def Cmk.timeok (c : Cmk) : Bool := (c.st == .locked && c.tsrc.isSome) || (c.st == .holdover && c.hoFromTime)
/-- CMK_STAT. -/
def cmkStat (c : Cmk) : Word :=
  BitVec.ofNat 32 (packLE [(2, c.st.code), (1, b2n c.timeok), (1, b2n c.hospec), (4, slotCode c.tsrc), (4, slotCode c.fsrc),
    (1, b2n c.stepped)])
/-- A TIME event (R350). -/
def timeEvent (s : State) (reason b1 : Nat) : State :=
  pushEvent s 4 (srcHub 2) 0 0 (packLE [(8, reason), (8, b1), (8, slotCode s.cmk.tsrc), (8, slotCode s.cmk.fsrc), (32, s.cmk.pherr.toNat)])

/-! ## Event timers (R342, R343, R348) -/

/-- The instant of a timer in units of 2^−16 ns. -/
def Tmr.due (t : Tmr) : Nat := tsUnits t.inst
/-- A period in nanoseconds as units. -/
def periodUnits (p : Word) : Nat := p.toNat * 65536
/-- The PPS output that uses a timer. -/
def ppsOf (s : State) (t : TimerId) : Option Bool :=
  if s.cmk.pps0.en ∧ s.cmk.pps0.timer = t then some false
  else if s.cmk.pps1.en ∧ s.cmk.pps1.timer = t then some true else none
/-- A PPS output. -/
def State.pps (s : State) (n : Bool) : Pps := if n then s.cmk.pps1 else s.cmk.pps0
/-- Replaces a PPS output. -/
def State.setPps (s : State) (n : Bool) (p : Pps) : State :=
  if n then { s with cmk := { s.cmk with pps1 := p } } else { s with cmk := { s.cmk with pps0 := p } }

/-- PPS output n is driven active for its width (R344); it stops in a safe state that the Clockmaker caused (R427). -/
def ppsPulse (s : State) (n : Bool) : State :=
  if s.asy.safe ∧ s.asy.safeByCmk then s
  else
    let p := s.pps n
    s.setPps n { p with level := true, offAt := s.cycle + p.width.toNat * 393216 / 100 }

/-- What a fire puts out for its owner or by OUTSEL: a PPS pulse, a toggled event line (R342, R344, R351). -/
def timerOut (s : State) (t : TimerId) (x : Tmr) : State :=
  if x.owner = .pps then (match ppsOf s t with | some n => ppsPulse s n | none => s)
  else if x.outsel = 1 then ppsPulse s false
  else if x.outsel = 2 then ppsPulse s true
  else if x.outsel = 3 then { s with gpo := { s.gpo with lines := s.gpo.lines ^^^ BitVec.ofNat 16 (2 ^ x.line.toNat) } }
  else s

/-- The first instant of a periodic timer after a time. -/
def nextAfter (at0 period u : Nat) : Nat := if at0 ≤ u then at0 + ((u - at0) / period + 1) * period else at0 - (at0 - u - 1) / period * period

/-- A timer fires (R342, R350): late when marked so; a periodic timer re-arms, a one-shot timer disarms and is free. -/
def fireTimer (s : State) (t : TimerId) (skip : Bool) : State :=
  let x := s.tmr t
  let late := x.skipped
  let s1 := if late then cmkTal s 2 1 else s
  let s2 := timerOut s1 t x
  let p := periodUnits x.period
  let nxt := if skip then nextAfter x.due p s.units else x.due + p
  let y : Tmr := if x.periodic ∧ x.period ≠ 0 then { x with inst := unitsTs nxt, skipped := decide (nxt < s.units) }
    else { x with armed := false, owner := .free, skipped := false }
  let s3 := s2.setTmr t { y with late := x.late || late }
  if x.evt then timeEvent s3 (b2n late) t.toNat else s3

/-- A timer disarms and has no owner. -/
def freeTimer (s : State) (t : TimerId) : State :=
  s.setTmr t { s.tmr t with armed := false, owner := .free, armBit := false, skipped := false }

/-- A timer is armed for an owner; none where another owner holds it, or where another armed timer drives its event line (R343, R484). -/
def armTimer (cm : Bool) (s : State) (t : TimerId) (o : TmrOwner) (x : Tmr) : Option State :=
  let old := s.tmr t
  if old.owner ≠ .free ∧ old.owner ≠ o then none
  else
    let u := s.setTmr t { x with armBit := true, armed := true, owner := o, skipped := decide (tsUnits x.inst < s.units) }
    if cm = false ∧ (lineClash u).isSome ∧ lineClash u ≠ lineClash s then none else some u

/-! ## PPS (R344) -/

/-- A whole TAI second plus OFF after a time. -/
def ppsInstant (off : Word) (u : Nat) : Nat :=
  let sec : Int := 1000000000 * 65536
  let o : Int := off.toInt * 65536
  ((((u : Int) - o) / sec + 1) * sec + o).toNat

/-- PPS output n takes its timer: a former owner's arming is cancelled with PREEMPT and a TIME event, a beacon transmission with it. -/
def ppsTake (s : State) (n : Bool) : State :=
  let p := s.pps n
  let x := s.tmr p.timer
  let held := x.owner != .free && x.owner != .pps
  let s1 := if x.owner = .crier then criCancelTx s else s
  let y := s1.tmr p.timer
  let z : Tmr := { y with armBit := true, armed := true, periodic := true, period := 1000000000, owner := .pps, skipped := false }
  let s2 := s1.setTmr p.timer { z with inst := unitsTs (ppsInstant p.off s.units), preempt := y.preempt || held }
  if held then timeEvent s2 2 p.timer.toNat else s2

/-! ## Time steps (R330, R348) -/

/-- A timer at a step from time `old` to the present one. -/
def stepTimer (old : Nat) (s : State) (t : TimerId) : State :=
  let x := s.tmr t
  if x.armed = false then s
  else if old < x.due ∧ x.due ≤ s.units then fireTimer (s.setTmr t { x with skipped := true }) t true
  else if s.units < old ∧ x.periodic ∧ x.period ≠ 0 then
    s.setTmr t { x with inst := unitsTs (nextAfter x.due (periodUnits x.period) s.units) }
  else s

/-- Device time and the tick counter at u units, with another phase of the cycle pattern (R327, R328). -/
def Cmk.atUnits (c : Cmk) (u phase : Nat) : Cmk :=
  { c with sec := u / 65536 / 1000000000, ns := u / 65536 % 1000000000, frac := u % 65536, phase3 := phase,
           tick := BitVec.ofNat 32 (ticksAt u) }

/-- Device time becomes a number of units in one cycle (R330). -/
def setTime (s : State) (u : Nat) : State :=
  { s with cmk := { s.cmk.atUnits u 0 with pulses := if u < s.units then [] else s.cmk.pulses } }

/-- A time step: counted, shown in STEPPED, with a TIME event; beacons, fronthaul windows and timers react (R320, R330, R348, R392). -/
def stepTime (s : State) (u0 : Nat) : State :=
  let u := u0 % (2 ^ 48 * 1000000000 * 65536)
  let old := s.units
  let s1 := cmkTal (setTime s u) 1 1
  let s2 := timeEvent { s1 with cmk := { s1.cmk with stepped := true } } 3 s1.cmk.st.code
  let s3 := fhpStep (criAbort s2) s.tick (if old < u then some (ticksAt u - ticksAt old) else none)
  if s3.lmp.pkg = .deep then s3 else (List.range 64).foldl (fun t i => stepTimer old t (BitVec.ofNat 6 i)) s3

/-! ## Sources (R333 to R335) -/

/-- Source slot i. -/
def State.csrc (s : State) (i : BitVec 3) : ClkSrc := sget ClkSrc.reset s.cmk.srcs i.toNat
/-- Replaces a source slot. -/
def State.setCsrc (s : State) (i : BitVec 3) (x : ClkSrc) : State :=
  { s with cmk := { s.cmk with srcs := sput ClkSrc.reset s.cmk.srcs i.toNat x } }
/-- The eight slots. -/
def allSlots : List (BitVec 3) := (List.range 8).map (fun i => BitVec.ofNat 3 i)
/-- The type carries time and phase. -/
def timeType (t : BitVec 3) : Bool := t == 1 || t == 3 || t == 5
/-- The rank comes from the source's messages (R334). -/
def rankedType (t : BitVec 3) : Bool := t == 3 || t == 4 || t == 5
/-- The rank of an SSM code (R334). -/
def ssmRank (c : BitVec 4) : BitVec 4 := if c = 2 then 1 else if c = 4 then 2 else if c = 8 then 3 else if c = 0xB then 4 else 15
/-- The rank of a clockClass (R334). -/
def classRank (c : BitVec 8) : BitVec 4 :=
  if c = 6 then 1 else if c = 7 then 2 else if c = 135 then 3 else if c = 140 ∨ c = 150 ∨ c = 160 ∨ c = 165 then 4 else 15

/-- A slot's validity changes; WTR counts from the moment it becomes valid. -/
def ClkSrc.setValid (x : ClkSrc) (now : Nat) (v : Bool) : ClkSrc := { x with valid := v, since := if v ∧ x.valid = false then now else x.since }

/-- Seconds for which a slot has been valid. -/
def validFor (s : State) (x : ClkSrc) : Nat := (s.cycle - x.since) / rootHz
/-- A slot may be selected as a source of time (`time`) or of frequency; `cur` is the current selection (R335, R340). -/
def eligible (s : State) (time : Bool) (cur : Option (BitVec 3)) (i : BitVec 3) : Bool :=
  let x := s.csrc i
  x.en && x.valid && x.typ != 0 && (!time || timeType x.typ) && !(x.typ == 3 && s.cmk.role == 2) && decide (x.ql ≤ s.cmk.qlmin) &&
    (cur == some i || decide (s.cmk.wtr.toNat ≤ validFor s x))
/-- The order of candidates: rank, PRIO, index. -/
def srcKey (s : State) (i : BitVec 3) : Nat := let x := s.csrc i; (x.ql.toNat * 16 + x.prio.toNat) * 8 + i.toNat
/-- The best eligible slot. -/
def bestSrc (s : State) (time : Bool) (cur : Option (BitVec 3)) : Option (BitVec 3) :=
  (allSlots.filter (eligible s time cur)).foldl (fun b i =>
    match b with
    | none => some i
    | some j => if srcKey s i < srcKey s j then some i else some j) none

/-! ## States (R336, R338) -/

/-- The loop's frequency offset after a measurement: within ±50 ppm (R322); its value follows from analogue history (log 9). -/
def freeFoff (s : State) : State :=
  let (n, s1) := takeFree s
  let v : Int := ((Config.free32 n).toNat % 100000001 : Nat) - 50000000
  { s1 with cmk := { s1.cmk with foff := BitVec.ofInt 32 v } }

/-- Enters a state; LOCKED and HOLDOVER raise their event. -/
def enterState (s : State) (x : ClockState) : State :=
  let s1 := { s with cmk := { s.cmk with st := x, good := 0 } }
  match x with
  | .freerun => { s1 with cmk := { s1.cmk with foff := 0 } }
  | .acquiring => s1
  | .locked => timeEvent s1 5 2
  | .holdover => timeEvent s1 5 3

/-- The step of the state table after a selection; `change` when another source is selected than before (R338). -/
def stateAfterSel (s : State) (hadTime change : Bool) : State :=
  let any := s.cmk.tsrc.isSome || s.cmk.fsrc.isSome
  match s.cmk.st with
  | .freerun => if any then enterState s .acquiring else s
  | .acquiring => if any then s else enterState s .freerun
  | .locked =>
    if any = false then
      let s1 := freeFoff s
      enterState { s1 with cmk := { s1.cmk with hospec := true, hoSince := s.cycle, hoFromTime := hadTime } } .holdover
    else if change then enterState s .acquiring else s
  | .holdover => if any then enterState s .acquiring else s

/-- One selection (R335). -/
def selectSources (s : State) : State :=
  if s.cmk.en = false then s
  else
    let t := bestSrc s true s.cmk.tsrc
    let f := bestSrc s false s.cmk.fsrc
    let change := t != s.cmk.tsrc || f != s.cmk.fsrc
    let hadTime := s.cmk.tsrc.isSome
    let s1 := { s with cmk := { s.cmk with tsrc := t, fsrc := f } }
    stateAfterSel (if change then timeEvent (cmkTal s1 0 1) 4 s1.cmk.st.code else s1) hadTime change

/-- The value of one phase measurement after corrections, in 0.25 ns (R336). -/
def phaseError (s : State) (i : BitVec 3) (phase : BitVec 64) : Int :=
  let x := s.csrc i
  phase.toInt + x.asym.toInt + (if x.typ = 1 then s.cmk.gnssdly.toInt else 0)

/-- One good measurement: the sixteenth in a row locks (R338). -/
def goodMeasure (s : State) (ok : Bool) : State :=
  if s.cmk.st ≠ .acquiring then s
  else if ok = false then { s with cmk := { s.cmk with good := 0 } }
  else if 16 ≤ s.cmk.good + 1 then enterState s .locked
  else { s with cmk := { s.cmk with good := s.cmk.good + 1 } }

/-- One measurement of the selected source (R336, R338, R339). -/
def measureStep (s : State) (i : BitVec 3) (phase : BitVec 64) (ppb : BitVec 32) : State :=
  if s.cmk.en = false then s
  else if s.cmk.tsrc = some i then
    let e := phaseError s i phase
    if s.cmk.st = .acquiring ∧ s.cmk.autostep = true ∧ 4 * s.cmk.stepthr.toNat < e.natAbs then
      let s1 := { s with cmk := { s.cmk with pherr := BitVec.ofInt 32 e } }
      let s2 := stepTime s1 ((s.units : Int) + e * 16384).toNat
      { s2 with cmk := { s2.cmk with pherr := 0, good := 0 } }
    else
      let s1 := if s.cmk.fsrc.isSome ∧ (s.csrc (s.cmk.fsrc.getD 0)).typ = 7 then s else freeFoff s
      goodMeasure { s1 with cmk := { s1.cmk with pherr := BitVec.ofInt 32 e } } (decide (e.natAbs < s.cmk.lockthr.toNat))
  else if s.cmk.tsrc = none ∧ s.cmk.fsrc = some i then
    goodMeasure (if (s.csrc i).typ = 7 then s else freeFoff s) (decide (ppb.toInt.natAbs < 10))
  else s

/-! ## Reading the time (R349) -/

/-- The TS96 in the order of R284. -/
def tsBytes (t : Ts) : List Byte := bytesOfNat 12 (packLE (tsFields t))
/-- The 32 bytes of TIME_CMD subop 0. -/
def timeBytes (s : State) : List Byte :=
  tsBytes s.now ++ bytesOfNat 4 s.tick.toNat ++ bytesOfNat 4 (cmkStat s.cmk).toNat ++ bytesOfNat 4 s.cmk.foff.toNat ++
    bytesOfNat 4 s.cmk.pherr.toNat ++ bytesOfNat 4 (sfnNow s)

end Sys2Proof.Machine
end

