-- ==== Sys2Proof/Machine/FhpCmds.lean ====
section
/-! DEFINITION. The meanings of the fronthaul commands, and the FHP registers (R296 to R321). -/

namespace Sys2Proof.Machine

/-! ## Frame acceptance (R299, R300, R304, R305, R314) -/

/-- What a frame's Ethernet header says: tag, VLAN ID, stacked tags, ethertype and where its payload begins. -/
structure EthHdr where
  tagged : Bool
  vid : Nat
  stacked : Bool
  typ : Nat
  off : Nat
  deriving DecidableEq, Repr

/-- Reads an Ethernet header. -/
def ethHdr (f : List Byte) : EthHdr :=
  let t := be16 f 12
  if t = 0x8100 then
    { tagged := true, vid := be16 f 14 % 4096, stacked := be16 f 16 == 0x8100 || be16 f 16 == 0x88A8, typ := be16 f 16, off := 18 }
  else { tagged := false, vid := 0, stacked := t == 0x88A8, typ := t, off := 14 }

/-- The 48-bit address of a register pair. -/
def macAddr (lo hi : Word) : Nat := lo.toNat + 2 ^ 32 * (hi.toNat % 65536)
/-- A destination that a port accepts (R299, step 2). -/
def dstOk (p : Port) (f : List Byte) : Bool :=
  let d := natOfBE (f.take 6)
  d == macAddr p.maclo p.machi || d == 0xFFFFFFFFFFFF || d == 0x011B19000000 || d == 0x0180C200000E

/-- The enabled receive stream that a message matches (R305). -/
def matchStream (s : State) (n : PortId) (h : EthHdr) (typ2 : Bool) (pcid : Nat) : Option StreamId :=
  let key := matchKey { Strm.reset with port := n, tagged := h.tagged, vid := BitVec.ofNat 12 h.vid, type2 := typ2, pcid := BitVec.ofNat 16 pcid }
  (s.fhp.strms.find? (fun p => p.2.en && !p.2.tx && matchKey p.2 == key)).map (fun p => BitVec.ofNat 12 p.1)

/-- Where the frame goes by steps 1 to 8 (R299). -/
inductive FrameTo where
  | size | addr
  | exc (step : Nat)
  | clock | delay
  | strm (n : StreamId) (typ2 : Bool) (off : Nat)
  deriving DecidableEq, Repr

/-- Steps 1 to 8 of R299. -/
def frameTo (s : State) (n : PortId) (f : List Byte) : FrameTo :=
  let h := ethHdr f
  let o := h.off
  let typ := byteAt f (o + 1)
  if f.length < 64 ∨ 9216 < f.length then .size
  else if dstOk (s.port n) f = false then .addr
  else if h.stacked then .exc 3
  else if h.typ = 0x88F7 ∨ (h.typ = 0x8809 ∧ byteAt f o = 0x0A) then .clock
  else if h.typ ≠ 0xAEFE ∨ (byteAt f o / 16 ≠ 1 ∧ byteAt f o / 16 ≠ 2) ∨ byteAt f o % 2 = 1 then .exc 5
  else if typ = 5 then .delay
  else if typ ≠ 0 ∧ typ ≠ 2 then .exc 6
  else
    match matchStream s n h (typ == 2) (be16 f (o + 4)) with
    | some k => .strm k (typ == 2) o
    | none => .exc 8

/-- The exception path (R300): counted, then dropped or copied to the lowest free buffer with its event. -/
def excPath (s : State) (n : PortId) (f : List Byte) (bad : Bool) (step : Nat) : State :=
  if bad then portTal s n 2
  else
    let s1 := portTal s n 4
    if (s.port n).unkHost = false then s1
    else
      match (List.range s.fhp.exccnt.toNat).find? (fun i => sget false s.fhp.excused i == false) with
      | none => portTal s1 n 7
      | some i =>
        match accStore s1 .fhp (hubBase + s.fhp.excbase.toNat + i * 9216) f 0 with
        | .wait _ => s
        | .done _ t =>
          pushEvent { t with fhp := { t.fhp with excused := sput false t.fhp.excused i true } } 9 (srcHub 1) 0 0
            (packLE [(16, i), (16, f.length), (8, n.toNat), (8, step)])

/-- The header check of R304 for a message at off. -/
def hdrCheck (x : Strm) (typ2 : Bool) (f : List Byte) (off : Nat) : Bool :=
  let h := f.drop (off + 8)
  (symId h).ok x.num.toNat &&
    (typ2 || (hdrFmt h == x.fmt.toNat && decide (hdrStart h + hdrNum h ≤ 273) &&
      be16 f (off + 2) == 12 + hdrNum h * prbSize x.fmt.toNat && decide (off + 8 + be16 f (off + 2) ≤ f.length)))

/-- The part of a message that waits for classification. -/
def mkRxMsg (n : StreamId) (x : Strm) (typ2 bad : Bool) (stamp : Ts) (f : List Byte) (off : Nat) : RxMsg :=
  let h := f.drop (off + 8)
  let whole := (f.take (f.length - 4)).drop (off + 8)
  let body := if typ2 then (whole.drop 4).take (be16 f (off + 2) - 8) else (whole.drop 8).take (hdrNum h * prbSize x.fmt.toNat)
  { strm := n, typ2 := typ2, fcsBad := bad, stamp := stamp, hdr := h.take 8, body := body }

/-- Bytes in a port's receive buffer. -/
def rxFill (p : Port) : Nat := p.rx.foldl (fun a m => a + m.body.length + m.hdr.length) 0

/-- A received frame (R299). -/
def doFrameReceive (s : State) (n : PortId) (f : List Byte) (bad : Bool) (stamp : Ts) : State :=
  let p := s.port n
  if p.rxEn = false ∨ portExists s n = false ∨ s.lmp.pkg = .deep then s
  else
    match frameTo s n f with
    | .size => portTal s n 1
    | .addr => portTal (portTal s n 0) n 3
    | .exc k => excPath (portTal s n 0) n f bad k
    | .clock | .delay => portTal s n 0
    | .strm k typ2 off =>
      let s1 := portTal s n 0
      let x := s.strm k
      if 4 ≤ x.pendq.length then fhpReport (strmTal s1 k 7) k
      else if bad = false ∧ hdrCheck x typ2 f off = false then portTal s1 n 5
      else
        let m := mkRxMsg k x typ2 bad stamp f off
        if 1048576 < rxFill p + m.body.length + m.hdr.length then portTal s1 n 6
        else s1.setPort n { p with rx := p.rx ++ [m] }

/-- FRAME_RECEIVE (R297, R299, R300, R304, R305, R314). -/
def execFrameReceive (port : PortId) (frame : List Byte) (fcsBad : Bool) (stamp : Ts) (s : State) : Host.Outcome State Fault Refusal :=
  .next (doFrameReceive s port frame fcsBad stamp)

/-! ## Classification and delivery (R306 to R313, R320) -/

/-- The classes of R309. -/
inductive PktClass where
  | onTime | fcsBad | early | late | dup
  deriving DecidableEq, Repr

/-- The stream counter of a class. -/
def PktClass.tal : PktClass → Nat
  | .onTime => 0
  | .early => 1
  | .late => 2
  | .dup => 3
  | .fcsBad => 4
/-- The flag of a class (R36, R310). -/
def PktClass.flag : PktClass → Word
  | .onTime => 0
  | .early => 2
  | .late => 4
  | .dup => 8
  | .fcsBad => 0x10

/-- The window test of R307. -/
def windowClass (x : Strm) (sTick t : Word) : PktClass :=
  if tickReached t (sTick + ticks8 x.wopen) = false then .early
  else if tickReached t (sTick + ticks8 x.wclose) then .late
  else .onTime

/-- The class of a packet (R307 to R309); `map` are its PRBs. -/
def pktClass (x : Strm) (bad : Bool) (ident : BitVec 24) (map : BitVec 273) (sTick t : Word) : PktClass :=
  if bad then .fcsBad
  else
    match windowClass x sTick t with
    | .onTime =>
      match findInst x ident sTick with
      | some i => if (i.map &&& map) ≠ 0 ∨ i.formed = true then .dup else .onTime
      | none => .onTime
    | c => c

/-- A packet's PRBs, flags and outcome enter its open instance, which closes when it has EXPPRB (R308, R312). -/
def joinInst (s : State) (n : StreamId) (i : SymInst) (map : BitVec 273) (flags : Word) (o : Outc) : State :=
  let j := { i with map := i.map ||| map, flags := i.flags ||| flags, outc := if i.outc.good then o else i.outc }
  let s1 := s.setStrm n ((s.strm n).putInst j)
  if (s.strm n).expprb.toNat ≤ marked j.map then closeInst s1 n j else s1

/-- A descriptor of its own for one packet (R310). -/
def ownDesc (s : State) (n : StreamId) (sTick : Word) (ident : BitVec 24) (prbs : Nat) (late : Bool) (len : Nat) (flags : Word) (o : Outc) : State :=
  let x := s.strm n
  s.setStrm n { x with closing := x.closing ++ [strmDesc n x sTick ident prbs late len flags o] }

/-- A delivered IQ packet after its writes (R310). -/
def settleIq (s : State) (n : StreamId) (c : PktClass) (sTick : Word) (ident : BitVec 24) (map : BitVec 273) (num : Nat) (flags : Word)
    (o : Outc) : State :=
  let own := ownDesc s n sTick ident num true 0 flags o
  if c = .late then own
  else
    match findInst (s.strm n) ident sTick with
    | some i => if i.opened then joinInst s n i map flags o else own
    | none =>
      let (i, t) := openInst s n ident sTick
      joinInst t n i map flags o

/-- The message at the front of a port's receive buffer. -/
def rxFront (s : State) (n : PortId) (typ2 : Bool) : Option (RxMsg × State) :=
  match (s.port n).rx with
  | [] => none
  | m :: rest => if m.typ2 = typ2 then some (m, s.setPort n { s.port n with rx := rest }) else none

/-- The stream or its port delivers packets of the bad classes (R310). -/
def deliversBad (s : State) (n : PortId) (x : Strm) : Bool := (s.port n).deliverBad || x.deliverBad

/-- The front IQ packet is classified and delivered or dropped. -/
def doIqPacket (s : State) (n : PortId) : State :=
  match rxFront s n false with
  | none => s
  | some (m, s0) =>
    let x := s.strm m.strm
    if x.en = false ∨ x.tx = true then portTal s0 n 4
    else
      let id := symId m.hdr
      let u := tsUnits m.stamp
      let k := nearFrame s u id.frame
      let sTick := symStart x.num.toNat k id
      let map := prbMap (hdrStart m.hdr) (hdrNum m.hdr)
      if criOwns s s.cri.rxstrm m.strm k id then s0
      else
        let c := pktClass x m.fcsBad id.ident map sTick (BitVec.ofNat 32 (ticksAt u))
        let s1 := strmTal s0 m.strm c.tal
        let whole := id.ok x.num.toNat && hdrFmt m.hdr == x.fmt.toNat && decide (hdrStart m.hdr + hdrNum m.hdr ≤ 273) &&
          m.body.length == hdrNum m.hdr * prbSize x.fmt.toNat
        if (c ≠ .onTime ∧ deliversBad s n x = false) ∨ whole = false then s1
        else
          let base := bufAddr x id + hdrStart m.hdr * 48
          let l := (chunks (prbSize x.fmt.toNat) (hdrNum m.hdr) m.body).zipIdx.map (fun p =>
            (base + 48 * p.2, partBytes (prbParts x.fmt.toNat p.1)))
          match fhpStores s1 x.act l with
          | (_, _, _, .wait t) => stayWake s t
          | (o, fl, bad, .done _ t) =>
            settleIq (strmTalN t m.strm 6 bad) m.strm c sTick id.ident map (hdrNum m.hdr) (c.flag ||| fl) o

/-- IQ_PACKET_RECEIVE (R303, R306 to R312, R320). -/
def execIqPacketReceive (port : PortId) (s : State) : Host.Outcome State Fault Refusal := .next (doIqPacket s port)

/-- The front type 2 message is classified and delivered or dropped. -/
def doType2 (s : State) (n : PortId) : State :=
  match rxFront s n true with
  | none => s
  | some (m, s0) =>
    let x := s.strm m.strm
    if x.en = false ∨ x.tx = true then portTal s0 n 4
    else
      let id := symId m.hdr
      let u := tsUnits m.stamp
      let sTick := symStart x.num.toNat (nearFrame s u id.frame) id
      let c := if m.fcsBad then .fcsBad else windowClass x sTick (BitVec.ofNat 32 (ticksAt u))
      let s1 := strmTal s0 m.strm c.tal
      if (c ≠ .onTime ∧ deliversBad s n x = false) ∨ id.ok x.num.toNat = false then s1
      else
        match fhpStores s1 x.act [(bufAddr x id, m.body.take (x.stride.toNat * 64))] with
        | (_, _, _, .wait t) => stayWake s t
        | (o, fl, bad, .done _ t) =>
          ownDesc (strmTalN t m.strm 6 bad) m.strm sTick id.ident 0 (c == .late) (cdiv m.body.length 8) (c.flag ||| fl) o

/-- TYPE2_MESSAGE_RECEIVE (R311 to R313). -/
def execType2MessageReceive (port : PortId) (s : State) : Host.Outcome State Fault Refusal := .next (doType2 s port)

/-- The tick reaches S + CLOSE + 512 (R312). -/
def doSymbolClose (s : State) (n : StreamId) (k : BitVec 2) : State :=
  match (s.strm n).insts[k.toNat]? with
  | none => s
  | some i => if i.opened ∧ tickReached s.tick (i.s + ticks8 (s.strm n).wclose + 512) then closeInst s n i else s

/-- SYMBOL_CLOSE_TIMEOUT (R312). -/
def execSymbolCloseTimeout (strm : StreamId) (inst : BitVec 2) (s : State) : Host.Outcome State Fault Refusal := .next (doSymbolClose s strm inst)

/-! ## Enqueues of the port (R312 to R314, R316) -/

/-- What an enqueue by a hub block came to. -/
inductive FabEnq where
  | taken (t : State)
  | full (t : State)
  | lost (o : Outc) (t : State)
  | wait (t : State)
  deriving DecidableEq, Repr

/-- What the queue made of an entry. -/
def fabEntered : EnqAns × State → FabEnq
  | (.accepted, t) => .taken t
  | (.full, t) => .full t
  | (.refused o, t) => .lost o t

/-- The way of an entry to its queue. -/
def fabVia (s : State) (q : QueueId) (e : Entry) : Gate × State → FabEnq
  | (.answer o, t) => .lost o t
  | (.hold u, _) => .wait (holdWhole s u)
  | (.pass, _) => fabEntered (enqueue s .fabric q e)

/-- An enqueue through the fabric: what the path brought, the gate of the queue's cluster, then the queue (R193, R444). -/
def fabEnqueue (s : State) (q : QueueId) (e : Entry) (path : PathRes) : FabEnq :=
  match path with
  | some o => if o.good then .wait s else .lost o s
  | none => fabVia s q e (queueWay s 0x91 q)

/-- A stream's oldest descriptor is enqueued; a full queue puts it into the pending list (R314). -/
def doDescEnqueue (s : State) (n : StreamId) (path : PathRes) : State :=
  let x := s.strm n
  match x.pendq, x.closing with
  | d :: rest, cl =>
    match fabEnqueue s d.q d.e path with
    | .taken t => t.setStrm n { t.strm n with pendq := rest }
    | .lost _ t => t.setStrm n { t.strm n with pendq := rest }
    | .wait t => t
    | .full t => if x.pendq.length < 4 then t.setStrm n { t.strm n with pendq := x.pendq ++ cl.take 1, closing := cl.drop 1 } else t
  | [], d :: cl =>
    match fabEnqueue s d.q d.e path with
    | .taken t => t.setStrm n { t.strm n with closing := cl }
    | .lost _ t => t.setStrm n { t.strm n with closing := cl }
    | .wait t => t
    | .full t => t.setStrm n { t.strm n with pendq := [d], closing := cl }
  | [], [] => s

/-- SYMBOL_DESCRIPTOR_ENQUEUE (R312 to R314). -/
def execSymbolDescriptorEnqueue (strm : StreamId) (path : PathRes) (s : State) : Host.Outcome State Fault Refusal :=
  .next (doDescEnqueue s strm path)

/-- FHP_EXCFREE written (R300). -/
def excFree (s : State) (v : Word) : State :=
  { s with fhp := { s.fhp with excused := sput false s.fhp.excused (bits v.toNat 0 8) false } }

/-- EXCEPTION_BUFFER_FREE (R300). -/
def execExceptionBufferFree (who : Initiator) (v : Word) (s : State) : Host.Outcome State Fault Refusal :=
  .next (regCmd s who (fhpBase + 0x18) (fun t => wrAnswer (.ok, excFree t v)))

/-! ## Transmission (R315, R316) -/

/-- IDENT of a transmit entry as a section header's first bytes. -/
def txIdent (e : Entry) : SymId := symId (bytesOfNat 3 (bits e.toNat 192 24))
/-- STARTPRB of a transmit entry. -/
def txStart (e : Entry) : Nat := bits e.toNat 224 16
/-- NUMPRB or LEN of a transmit entry. -/
def txNum (e : Entry) : Nat := bits e.toNat 240 16
/-- The frame of a transmit entry's identity: the nearest to now. -/
def txFrame (s : State) (e : Entry) : Int := nearFrame s s.units (txIdent e).frame
/-- The entry's fields lie in range and its DEADLINE agrees with its identity (R315, R316). -/
def txEntryOk (s : State) (x : Strm) (e : Entry) : Bool :=
  let i := txIdent e
  eKind e == 2 && i.ok x.num.toNat && eDeadline e == symStart x.num.toNat (txFrame s e) i + ticks8 x.wopen &&
    (x.type2 || (decide (txStart e ≤ 272) && decide (1 ≤ txNum e) && decide (txStart e + txNum e ≤ 273)))

/-- A transmit stream takes an entry (R316); one for a masked symbol of the Crier completes CONFLICT (R374). -/
def doTxDequeue (s : State) (n : StreamId) : State :=
  let x := s.strm n
  let q := (s.slice (queueCluster x.qid)).queue (queueLocal x.qid)
  if x.en = false ∨ x.tx = false ∨ 4 ≤ x.held.length ∨ q.typ ≠ 2 ∨ clusterGate s (queueCluster x.qid) false ≠ .pass then s
  else
    let (a, t) := dequeue s x.qid
    let e : Entry := BitVec.ofNat 256 (natOfBytes a.data)
    if a.outc.good = false ∨ e = 0 then t
    else
      let t1 := t.setStrm n { t.strm n with held := (t.strm n).held ++ [{ e := e }] }
      if txEntryOk s x e ∧ criOwns s s.cri.txstrm n (txFrame s e) (txIdent e) then criTal (txDone t1 n e .conflict) 10 else t1

/-- TX_ENTRY_DEQUEUE (R315, R316, R374). -/
def execTxEntryDequeue (strm : StreamId) (s : State) : Host.Outcome State Fault Refusal := .next (doTxDequeue s strm)

/-- The section header of a transmitted message (R301). -/
def txHeader (x : Strm) (i : SymId) (start num : Nat) : List Byte :=
  [BitVec.ofNat 8 i.frame, BitVec.ofNat 8 (16 * i.sub + i.slot), BitVec.ofNat 8 (16 * i.sym + x.fmt.toNat), 0] ++ bytesBE 2 start ++ bytesBE 2 num

/-- A message leaves a transmit stream. -/
def txOut (s : State) (n : StreamId) (hdr body : List Byte) : State :=
  let x := s.strm n
  let m : TxMsg := { strm := n, at0 := s.tick, seqId := x.seqId, hdr := hdr, body := body }
  let s1 := { s with fhp := { s.fhp with sent := some m } }
  strmTal (portTal (s1.setStrm n { x with seqId := x.seqId + 1 }) x.port 8) n 8

/-- The held entry that is due: one that is malformed, else one whose send tick is reached. -/
def txDue (s : State) (x : Strm) : Option Entry :=
  (x.held.find? (fun h => !txEntryOk s x h.e || tickReached s.tick (eDeadline h.e))).map (fun h => h.e)

/-- The bytes of a message from the samples read (R303). -/
def txBody (x : Strm) (num : Nat) (d : List Byte) : List Byte :=
  if x.type2 then d else (chunks 48 num d).flatMap (fun c => prbEncode x.fmt.toNat (storedParts c))

/-- A held entry is sent, or done without being sent (R316, R320, R427, R486). -/
def doTxSend (s : State) (n : StreamId) (path : PathRes) : State :=
  let x := s.strm n
  match txDue s x with
  | none => s
  | some e =>
    if txEntryOk s x e = false then txDone s n e .badDescriptor
    else if s.asy.safe ∨ s.fhp.txslack.toNat < (s.tick - eDeadline e).toNat then strmTal (txDone s n e .deadlineMissed) n 9
    else if (s.port x.port).txEn = false then s
    else
      let len := if x.type2 then txNum e else 48 * txNum e
      let pa := bits e.toNat 64 44
      let rd : Acc := match extentCheck pa len with
        | some o => .done (Ans.only o) s
        | none => viaPath path s (accRead s .fhp pa len x.act)
      match rd with
      | .wait t => stayWake s t
      | .done a t =>
        if a.outc.good = false then txDone t n e a.outc
        else txDone (txOut t n (txHeader x (txIdent e) (txStart e) (txNum e)) (txBody x (txNum e) a.data)) n e .ok

/-- TX_SEND (R303, R316, R320). -/
def execTxSend (strm : StreamId) (path : PathRes) (s : State) : Host.Outcome State Fault Refusal := .next (doTxSend s strm path)

/-- A stream's oldest record is enqueued (R316). -/
def doTxRecord (s : State) (n : StreamId) (path : PathRes) : State :=
  match (s.strm n).recs with
  | [] => s
  | d :: rest =>
    match fabEnqueue s d.q d.e path with
    | .taken t => t.setStrm n { t.strm n with recs := rest }
    | .lost _ t => t.setStrm n { t.strm n with recs := rest }
    | .wait t => t
    | .full t => t

/-- TX_RECORD_ENQUEUE (R316). -/
def execTxRecordEnqueue (strm : StreamId) (path : PathRes) (s : State) : Host.Outcome State Fault Refusal := .next (doTxRecord s strm path)

/-! ## Delay measurement (R317) -/

/-- A type 5 message leaves the port. -/
def owdSend (s : State) (n : PortId) (action id : BitVec 8) (stamp : Ts) (comp : Word) : State :=
  let p := s.port n
  if p.txEn = false ∨ s.asy.safe then s
  else portTal (s.setPort n { p with owdOut := some { action := action, measId := id, stamp := stamp, comp := comp } }) n 8

/-- The port receives. -/
def rxLive (s : State) (n : PortId) : Bool := (s.port n).rxEn && portExists s n && s.lmp.pkg != .deep

/-- DELAY_REQUEST_RECEIVE: a request is answered, or waits for its follow-up. -/
def doDelayRequest (s : State) (n : PortId) (twoStep : Bool) (id : BitVec 8) : State :=
  let p := s.port n
  if rxLive s n = false then s
  else if twoStep then s.setPort n { p with owdReqs := p.owdReqs.filter (fun r => r.measId != id) ++ [{ measId := id, stamp := s.now }] }
  else owdSend s n 2 id s.now p.owdcomp

/-- DELAY_REQUEST_RECEIVE (R317). -/
def execDelayRequestReceive (port : PortId) (twoStep : Bool) (measId : BitVec 8) (s : State) : Host.Outcome State Fault Refusal :=
  .next (doDelayRequest s port twoStep measId)

/-- A follow-up with its request is answered; without, it is counted in RXUNK. -/
def doDelayFollowUp (s : State) (n : PortId) (id : BitVec 8) : State :=
  let p := s.port n
  if rxLive s n = false then s
  else
    match p.owdReqs.find? (fun r => r.measId == id) with
    | none => portTal s n 4
    | some r => owdSend (s.setPort n { p with owdReqs := p.owdReqs.filter (fun x => x.measId != id) }) n 2 id r.stamp p.owdcomp

/-- DELAY_FOLLOW_UP_RECEIVE (R317). -/
def execDelayFollowUpReceive (port : PortId) (measId : BitVec 8) (s : State) : Host.Outcome State Fault Refusal :=
  .next (doDelayFollowUp s port measId)

/-- A request goes out and its response is awaited. -/
def owdStart (s : State) (n : PortId) (id : BitVec 8) (followup : Bool) : State :=
  let p := s.port n
  let s1 := s.setPort n { p with busy := true, tmo := false, owdSince := s.cycle, owdId := id, owdTx := s.now }
  if followup then owdSend (owdSend s1 n 1 id s.now 0) n 5 id s.now 0 else owdSend s1 n 0 id s.now 0

/-- REMOTE_DELAY_REQUEST_RECEIVE: the port sends a request; one that is out already keeps its place. -/
def doRemoteDelay (s : State) (n : PortId) (id : BitVec 8) : State :=
  if rxLive s n = false then s
  else if (s.port n).busy then owdSend s n 0 id s.now 0 else owdStart s n id false

/-- REMOTE_DELAY_REQUEST_RECEIVE (R317). -/
def execRemoteDelayRequestReceive (port : PortId) (measId : BitVec 8) (s : State) : Host.Outcome State Fault Refusal :=
  .next (doRemoteDelay s port measId)

/-- A response that matches the request places the delay: the peer's stamp in ns minus the transmit stamp minus the compensation in 2^−16 ns. -/
def doDelayResponse (s : State) (n : PortId) (id : BitVec 8) (peerRx comp : BitVec 64) : State :=
  let p := s.port n
  if rxLive s n = false ∨ p.busy = false ∨ p.owdId ≠ id then s
  else
    let d : Int := ((peerRx.toNat : Int) * 65536 - tsUnits p.owdTx - comp.toInt) / 65536
    s.setPort n { p with busy := false, valid := true, delay := BitVec.ofInt 31 d }

/-- DELAY_RESPONSE_RECEIVE (R317). -/
def execDelayResponseReceive (port : PortId) (measId : BitVec 8) (peerRx comp : BitVec 64) (s : State) : Host.Outcome State Fault Refusal :=
  .next (doDelayResponse s port measId peerRx comp)

/-- FHP_PORTn_OWDCTL written; a START while BUSY is discarded. -/
def owdctlWrite (s : State) (n : PortId) (v : Word) : Outc × State :=
  let p := s.port n
  if v.getLsbD 0 ∧ p.busy then (.notPermitted, s)
  else
    let p1 := { p with followup := v.getLsbD 1, measId := slice v 8 8 }
    if v.getLsbD 0 then (.ok, owdStart (s.setPort n { p1 with valid := false }) n (slice v 8 8) (v.getLsbD 1)) else (.ok, s.setPort n p1)

/-- A write to a port that its quad's mode does not create is discarded (R296). -/
def portAns (s : State) (n : PortId) (x : Outc × State) : Outc × State := if portExists s n then x else (.notPermitted, s)

/-- Address of a port's register. -/
def portPa (n : PortId) (off : Nat) : Nat := fhpBase + 0x2000 + n.toNat * 0x400 + off

/-- DELAY_MEASUREMENT_START: a write of FHP_PORTn_OWDCTL with START = 1 (R317). -/
def execDelayMeasurementStart (who : Initiator) (port : PortId) (v : Word) (s : State) : Host.Outcome State Fault Refusal :=
  .next (regCmd s who (portPa port 0x20) (fun t => wrAnswer (portAns t port (owdctlWrite t port (v ||| 1)))))

/-- No response within 10 ms. -/
def doDelayTimeout (s : State) (n : PortId) : State :=
  let p := s.port n
  if p.busy ∧ 39321600 ≤ s.cycle - p.owdSince then s.setPort n { p with busy := false, tmo := true } else s

/-- DELAY_MEASUREMENT_TIMEOUT (R317). -/
def execDelayMeasurementTimeout (port : PortId) (s : State) : Host.Outcome State Fault Refusal := .next (doDelayTimeout s port)

/-! ## Quads and lanes (R296, R298, R319, R482) -/

/-- The ports of a quad. -/
def quadPorts (q : BitVec 3) : List PortId := (List.range 4).map (fun i => BitVec.ofNat 5 (4 * q.toNat + i))
/-- A PTP port. -/
def State.ptpPort (s : State) (n : PortId) : PtpPort := sget PtpPort.reset s.cmk.ptp n.toNat
/-- Replaces a PTP port. -/
def State.setPtpPort (s : State) (n : PortId) (x : PtpPort) : State :=
  { s with cmk := { s.cmk with ptp := sput PtpPort.reset s.cmk.ptp n.toNat x } }

/-- FHP_QUADq_CFG written (R298): a change of mode needs every port of the quad disabled, retrains the lanes, and disables PTP on the
quad's ports (R482). -/
def quadWrite (s : State) (q : BitVec 3) (v : Word) : Outc × State :=
  let x := s.quad q.toNat
  let m := keepIf (decide (4 < bits v.toNat 0 3)) x.mode (slice v 0 3)
  let lane : BitVec 2 := slice v 4 2
  if m = x.mode then (.ok, s.setQuad q.toNat { x with reclane := lane })
  else if (quadPorts q).any (fun n => (s.port n).rxEn || (s.port n).txEn) then (.notPermitted, s)
  else
    let s1 := s.setQuad q.toNat { x with mode := m, reclane := lane, link := 0 }
    (.ok, (quadPorts q).foldl (fun t n => t.setPtpPort n { t.ptpPort n with st := .disabled, en := (t.ptpPort n).en && portExists t n }) s1)

/-- QUAD_MODE_WRITE (R298). -/
def execQuadModeWrite (who : Initiator) (q : BitVec 3) (v : Word) (s : State) : Host.Outcome State Fault Refusal :=
  .next (regCmd s who (fhpBase + 0x1000 + 0x10 * q.toNat) (fun t => wrAnswer (quadWrite t q v)))

/-- The recovered lane gains or loses lock; without it the SYNCE slots of the quad are not valid (R319, R333). -/
def doLaneLock (s : State) (q : BitVec 3) (locked : Bool) : State :=
  let s1 := s.setQuad q.toNat { s.quad q.toNat with reclos := !locked }
  if locked then s1
  else allSlots.foldl (fun t i =>
    let x := t.csrc i
    if x.typ = 4 ∧ x.inst.toNat = q.toNat then t.setCsrc i (x.setValid t.cycle false) else t) s1

/-- LANE_LOCK_CHANGE (R319). -/
def execLaneLockChange (q : BitVec 3) (locked : Bool) (s : State) : Host.Outcome State Fault Refusal := .next (doLaneLock s q locked)

/-- A port's link comes up or goes down. -/
def doLinkChange (s : State) (n : PortId) (up : Bool) : State :=
  let q := n.toNat / 4
  let x := s.quad q
  let b : BitVec 4 := BitVec.ofNat 4 (2 ^ (n.toNat % 4))
  if portExists s n then s.setQuad q { x with link := if up then x.link ||| b else x.link &&& ~~~b } else s

/-- FRONTHAUL_LINK_CHANGE (R298). -/
def execFronthaulLinkChange (port : PortId) (up : Bool) (s : State) : Host.Outcome State Fault Refusal := .next (doLinkChange s port up)

/-! ## Stream contexts (R305, R311, R320, R321) -/

/-- FHP_STRMs_CFG as read. -/
def strmCfgWord (x : Strm) : Word :=
  BitVec.ofNat 32 (packLE [(1, b2n x.en), (1, b2n x.tx), (3, x.fmt.toNat), (3, x.num.toNat), (1, b2n x.deliverBad), (1, b2n x.nodl),
    (1, b2n x.emptyDesc), (1, 0), (9, x.act.toNat), (9, x.expprb.toNat)])

/-- The fields of FHP_STRMs_CFG after a write (R12). -/
def strmCfgSet (x : Strm) (v : Word) : Strm :=
  let f : BitVec 3 := slice v 2 3
  let m : BitVec 3 := slice v 5 3
  let e : BitVec 9 := slice v 21 9
  { x with en := v.getLsbD 0, tx := v.getLsbD 1, fmt := keepIf (decide (4 < f.toNat)) x.fmt f, num := keepIf (decide (4 < m.toNat)) x.num m,
           deliverBad := v.getLsbD 8, nodl := v.getLsbD 9, emptyDesc := v.getLsbD 10, act := slice v 12 9,
           expprb := keepIf (decide (e.toNat = 0 ∨ 273 < e.toNat)) x.expprb e }

/-- FHP_STRMs_CFG written: a receive stream is enabled only over buffer memory and with a match of its own; a disabled stream's open
instances close (R305, R311, R320). -/
def strmCfgWrite (cm : Bool) (s : State) (n : StreamId) (v : Word) : Outc × State :=
  let x := s.strm n
  let y := strmCfgSet x v
  if y.en then
    if y.tx = false ∧ x.en = false ∧ isBuffer y.dst = false then (.notPermitted, s) else noConflict cm s (.ok, s.setStrm n y)
  else
    let s1 := if x.en then closeAll s n else s
    (.ok, s1.setStrm n (strmCfgSet (s1.strm n) v))

/-- STREAM_ENABLE: a write of FHP_STRMs_CFG with EN = 1 (R305, R311). -/
def execStreamEnable (who : Initiator) (strm : StreamId) (v : Word) (s : State) : Host.Outcome State Fault Refusal :=
  .next (regCmd s who (fhpBase + 0x40004 + 0x40 * strm.toNat) (fun t => wrAnswer (strmCfgWrite false t strm (v ||| 1))))
/-- STREAM_DISABLE: a write of FHP_STRMs_CFG with EN = 0 (R312, R320). -/
def execStreamDisable (who : Initiator) (strm : StreamId) (v : Word) (s : State) : Host.Outcome State Fault Refusal :=
  .next (regCmd s who (fhpBase + 0x40004 + 0x40 * strm.toNat) (fun t => wrAnswer (strmCfgWrite false t strm (v &&& ~~~1))))

/-! ## Registers (R321) -/

/-- The identity word of a block whose ID register the specification leaves without content (log 16). -/
def idWord : Word := 0x00010000

/-- A stream context word as read. -/
def strmRead (x : Strm) (o : Nat) : Option Word :=
  let pk := fun (l : List (Nat × Nat)) => some (BitVec.ofNat 32 (packLE l) : Word)
  match o / 4 with
  | 0 => pk [(16, x.pcid.toNat), (12, x.vid.toNat), (1, b2n x.tagged), (1, b2n x.type2)]
  | 1 => some (strmCfgWord x)
  | 2 => pk [(16, x.wopen.toNat), (16, x.wclose.toNat)]
  | 3 => pk [(3, x.log2nbuf.toNat), (5, x.port.toNat), (16, x.stride.toNat)]
  | 4 => some x.dstlo
  | 5 => pk [(12, x.dsthi.toNat)]
  | 6 => pk [(16, x.qid.toNat), (16, x.dloff.toNat)]
  | 7 => some x.tmpl0
  | 8 => some x.tmpl1
  | _ => none

/-- A stream context word written, other than CFG. -/
def strmSet (x : Strm) (o : Nat) (v : Word) : Option Strm :=
  match o / 4 with
  | 0 => some { x with pcid := slice v 0 16, vid := slice v 16 12, tagged := v.getLsbD 28, type2 := v.getLsbD 29 }
  | 2 => some { x with wopen := slice v 0 16, wclose := slice v 16 16 }
  | 3 => some { x with log2nbuf := keepIf (slice v 0 3 == (7 : BitVec 3)) x.log2nbuf (slice v 0 3), port := slice v 3 5, stride := slice v 8 16 }
  | 4 => some { x with dstlo := v }
  | 5 => some { x with dsthi := slice v 0 12 }
  | 6 => some { x with qid := slice v 0 16, dloff := slice v 16 16 }
  | 7 => some { x with tmpl0 := v &&& 0xFFFFFFF0 }
  | 8 => some { x with tmpl1 := v }
  | _ => none

/-- A stream context register written: words other than CFG while EN = 0. -/
def strmWrite (cm : Bool) (s : State) (n : StreamId) (o : Nat) (v : Word) : WrAns :=
  if o = 4 then some (strmCfgWrite cm s n v)
  else
    match strmSet (s.strm n) o v with
    | none => none
    | some y => if (s.strm n).en then wrNo s else wrOk (s.setStrm n y)

/-- A port register as read; an absent port reads 0. -/
def portRead (s : State) (n : PortId) (o : Nat) : RdAns :=
  let p := s.port n
  let pk := fun (l : List (Nat × Nat)) => if portExists s n then rdPack s l else rdVal s 0
  if o = 0 then pk [(1, b2n p.rxEn), (1, b2n p.deliverBad), (1, b2n p.unkHost)]
  else if o = 4 then pk [(1, b2n p.txEn), (3, p.pcp.toNat), (1, b2n p.oneStep)]
  else if o = 8 then pk [(32, p.maclo.toNat)]
  else if o = 0xC then pk [(16, p.machi.toNat)]
  else if o = 0x10 then pk [(32, p.peerlo.toNat)]
  else if o = 0x14 then pk [(16, p.peerhi.toNat)]
  else if o = 0x18 then pk [(32, p.tscorr.toNat)]
  else if o = 0x1C then pk [(32, p.owdcomp.toNat)]
  else if o = 0x20 then pk [(1, 0), (1, b2n p.followup), (6, 0), (8, p.measId.toNat), (1, b2n p.busy), (1, b2n p.tmo)]
  else if o = 0x24 then pk [(31, p.delay.toNat), (1, b2n p.valid)]
  else if inTal o 0x100 11 then (if portExists s n then talRead s (portPa n 0) o else rdVal s 0)
  else none

/-- A port register written. -/
def portWrite (cm : Bool) (s : State) (n : PortId) (o : Nat) (v : Word) : WrAns :=
  let p := s.port n
  let set := fun (x : Port) => some (portAns s n (noConflict cm s (.ok, s.setPort n x)))
  if o = 0 then set { p with rxEn := v.getLsbD 0, deliverBad := v.getLsbD 1, unkHost := v.getLsbD 2 }
  else if o = 4 then set { p with txEn := v.getLsbD 0, pcp := slice v 1 3, oneStep := v.getLsbD 4 }
  else if o = 8 then set { p with maclo := v }
  else if o = 0xC then set { p with machi := v &&& 0xFFFF }
  else if o = 0x10 then set { p with peerlo := v }
  else if o = 0x14 then set { p with peerhi := v &&& 0xFFFF }
  else if o = 0x18 then set { p with tscorr := v }
  else if o = 0x1C then set { p with owdcomp := v }
  else if o = 0x20 then some (portAns s n (owdctlWrite s n v))
  else if o = 0x24 ∨ inTal o 0x100 11 = true then some (portAns s n (.ok, s))
  else none

/-- A read in the FHP block. -/
def fhpRead (s : State) (off : Nat) : RdAns :=
  let f := s.fhp
  if off = 0 then rdVal s idWord
  else if off = 0x10 then rdVal s (f.excbase.setWidth 32)
  else if off = 0x14 then rdVal s (f.exccnt.setWidth 32)
  else if off = 0x18 then rdVal s 0
  else if off = 0x1C then rdVal s (f.txslack.setWidth 32)
  else
    match copyOf off 0x1000 0x10 8, copyOf off 0x2000 0x400 32, copyOf off 0x40000 0x40 4096, copyOf off 0x80000 0x80 4096 with
    | some (q, o), _, _, _ =>
      let x := s.quad q
      if o = 0 then rdPack s [(3, x.mode.toNat), (1, 0), (2, x.reclane.toNat)]
      else if o = 4 then rdPack s [(4, x.link.toNat), (1, b2n x.reclos)]
      else none
    | none, some (n, o), _, _ => portRead s (BitVec.ofNat 5 n) o
    | none, none, some (n, o), _ => (strmRead (s.strm (BitVec.ofNat 12 n)) o).map (fun v => (v, s))
    | none, none, none, some (n, o) => if inTal o 0 10 then talRead s (fhpBase + 0x80000 + n * 0x80) o else none
    | none, none, none, none => none

/-- A write in the FHP block. -/
def fhpWrite (cm : Bool) (s : State) (off : Nat) (v : Word) : WrAns :=
  let f := s.fhp
  let set := fun (x : Fhp) => some (noConflict cm s (.ok, { s with fhp := x }))
  if off = 0 then wrOk s
  else if off = 0x10 then set { f with excbase := slice v 0 25 &&& ~~~63 }
  else if off = 0x14 then set { f with exccnt := keepIf (decide (bits v.toNat 0 9 = 0 ∨ 256 < bits v.toNat 0 9)) f.exccnt (slice v 0 9) }
  else if off = 0x18 then wrOk (excFree s v)
  else if off = 0x1C then set { f with txslack := slice v 0 24 }
  else
    match copyOf off 0x1000 0x10 8, copyOf off 0x2000 0x400 32, copyOf off 0x40000 0x40 4096, copyOf off 0x80000 0x80 4096 with
    | some (q, o), _, _, _ =>
      if o = 0 then some (quadWrite s (BitVec.ofNat 3 q) v) else if o = 4 then wrOk s else none
    | none, some (n, o), _, _ => portWrite cm s (BitVec.ofNat 5 n) o v
    | none, none, some (n, o), _ => strmWrite cm s (BitVec.ofNat 12 n) o v
    | none, none, none, some (_, o) => if inTal o 0 10 then wrOk s else none
    | none, none, none, none => none

end Sys2Proof.Machine
end

