-- ==== Sys2Proof/Machine/ClockCmds.lean ====
section
/-! DEFINITION. The meanings of the Clockmaker's commands, and the CMK registers (R318, R319, R332 to R344, R351). -/

namespace Sys2Proof.Machine

/-! ## Sources and states (R333 to R339) -/

/-- SOURCE_SELECTION (R335, R338). -/
def execSourceSelection (s : State) : Host.Outcome State Fault Refusal := .next (selectSources s)

/-- Whether a slot can be valid as the package stands (R333): lock of its quad, the PTP port SLAVE, REFVALID, enabled. -/
def srcCan (s : State) (x : ClkSrc) : Bool :=
  if x.typ = 3 then (s.ptpPort x.inst).st == .slave
  else if x.typ = 4 then decide (x.inst.toNat < 8) && !(s.quad x.inst.toNat).reclos
  else if x.typ = 6 then s.cri.refvalid
  else x.typ != 0

/-- A source becomes valid or invalid, with its rank (R333, R334). HOST and CRIER slots follow their own conditions. -/
def doValidity (s : State) (c : SrcChange) : State :=
  let x := s.csrc c.slot
  if x.en = false then s
  else
    let v := if x.typ = 6 ∨ x.typ = 7 then srcCan s x else c.valid && srcCan s x
    s.setCsrc c.slot { x.setValid s.cycle v with ql := if rankedType x.typ then c.ql else x.qlcfg }

/-- SOURCE_VALIDITY_CHANGE (R333, R334). -/
def execSourceValidityChange (c : SrcChange) (s : State) : Host.Outcome State Fault Refusal := .next (doValidity s c)

/-- PHASE_MEASUREMENT (R330, R336, R338, R339): phase in 0.25 ns, frequency error in ppb. -/
def execPhaseMeasurement (slot : BitVec 3) (phase : BitVec 64) (freqPpb : BitVec 32) (s : State) : Host.Outcome State Fault Refusal :=
  .next (measureStep s slot phase freqPpb)

/-- SPEC seconds have passed in HOLDOVER (R338). -/
def doHospec (s : State) : State :=
  if s.cmk.st = .holdover ∧ s.cmk.hospec = true ∧ s.cmk.spec.toNat * rootHz ≤ s.cycle - s.cmk.hoSince then
    timeEvent { s with cmk := { s.cmk with hospec := false } } 6 3
  else s

/-- HOLDOVER_SPEC_EXPIRY (R338). -/
def execHoldoverSpecExpiry (s : State) : Host.Outcome State Fault Refusal := .next (doHospec s)

/-! ## Event timers (R342, R343, R351) -/

/-- An armed timer whose instant device time has reached fires; in DEEP the timers stop (R347). -/
def doTimerFire (s : State) (t : TimerId) : State :=
  let x := s.tmr t
  if x.armed ∧ x.due ≤ s.units ∧ s.lmp.pkg ≠ .deep then fireTimer s t false else s

/-- EVENT_TIMER_FIRE (R342, R344, R347, R350). -/
def execEventTimerFire (t : TimerId) (s : State) : Host.Outcome State Fault Refusal := .next (doTimerFire s t)

/-- The fields of CMK_TMRt_CFG after a write (R12). -/
def tmrCfgSet (x : Tmr) (v : Word) : Tmr :=
  { x with armBit := v.getLsbD 0, periodic := v.getLsbD 1, evt := v.getLsbD 2, line := slice v 8 4,
           outsel := keepIf (decide (5 < bits v.toNat 3 3)) x.outsel (slice v 3 3) }

/-- CMK_TMRt_CFG written: arms for the host or disarms; a timer of another owner is unchanged (R343, R484). -/
def tmrCfgWrite (cm : Bool) (s : State) (t : TimerId) (v : Word) : Outc × State :=
  let x := s.tmr t
  let y := tmrCfgSet x v
  if x.owner ≠ .free ∧ x.owner ≠ .host then (.conflict, s)
  else if y.armBit then (match armTimer cm s t .host y with | some u => (.ok, u) | none => (.conflict, s))
  else (.ok, freeTimer (s.setTmr t y) t)

/-- Address of a timer's register. -/
def tmrPa (t : TimerId) (o : Nat) : Nat := cmkBase + 0x1000 + 0x20 * t.toNat + o

/-- TIMER_ARM: a write of CMK_TMRt_CFG with ARM = 1 (R342, R343). -/
def execTimerArm (who : Initiator) (t : TimerId) (v : Word) (s : State) : Host.Outcome State Fault Refusal :=
  .next (regCmd s who (tmrPa t 0) (fun u => wrAnswer (tmrCfgWrite false u t (v ||| 1))))
/-- TIMER_DISARM: a write of CMK_TMRt_CFG with ARM = 0 (R342, R348). -/
def execTimerDisarm (who : Initiator) (t : TimerId) (v : Word) (s : State) : Host.Outcome State Fault Refusal :=
  .next (regCmd s who (tmrPa t 0) (fun u => wrAnswer (tmrCfgWrite false u t (v &&& ~~~1))))

/-! ## PPS and snapshots (R344, R351, R484) -/

/-- CMK_PPSn_CFG written: a timer given up is free, a timer named is taken; both outputs on one timer is refused (R344, R484). -/
def ppsWrite (cm : Bool) (s : State) (n : Bool) (v : Word) : Outc × State :=
  let p := s.pps n
  let w : BitVec 16 := slice v 8 16
  let q : Pps := { p with en := v.getLsbD 0, timer := slice v 1 6, pol := v.getLsbD 7, width := keepIf (w == 0) p.width w }
  let s1 := if p.en ∧ (s.tmr p.timer).owner = .pps then freeTimer s p.timer else s
  let s2 := s1.setPps n q
  let clash := !cm && q.en && (s.pps (!n)).en && (s.pps (!n)).timer == q.timer
  if clash then (.notPermitted, s) else (.ok, if q.en then ppsTake s2 n else s2)

/-- PPS_ENABLE: a write of CMK_PPSn_CFG with EN = 1 (R344). -/
def execPpsEnable (who : Initiator) (n : Bool) (v : Word) (s : State) : Host.Outcome State Fault Refusal :=
  .next (regCmd s who (cmkBase + 0x200 + 0x10 * b2n n) (fun t => wrAnswer (ppsWrite false t n (v ||| 1))))

/-- CMK_PPSn_OFF written: the pulses of an enabled output move to the new offset (R344). -/
def ppsOffWrite (s : State) (n : Bool) (v : Word) : State :=
  let p := s.pps n
  if v.toInt < -500000000 ∨ 499999999 < v.toInt then s
  else
    let s1 := s.setPps n { p with off := v }
    if p.en then ppsTake s1 n else s1

/-- CMK_SNAPCTL written: bit 0 samples time and tick (R351). -/
def snapWrite (s : State) (v : Word) : State :=
  let t := s.now
  if v.getLsbD 0 then
    { s with cmk := { s.cmk with snap0 := slice t.sec 0 32, snap2 := t.ns, snap3 := s.tick,
                                 snap1 := BitVec.ofNat 32 (packLE [(16, bits t.sec.toNat 32 16), (16, t.frac.toNat)]) } }
  else s

/-- TIME_SNAPSHOT: a write of CMK_SNAPCTL (R351). -/
def execTimeSnapshot (who : Initiator) (v : Word) (s : State) : Host.Outcome State Fault Refusal :=
  .next (regCmd s who (cmkBase + 0x30) (fun t => wrAnswer (.ok, snapWrite t v)))

/-! ## Pulses (R332) -/

/-- The word that marks a pulse: SFN and slot number. -/
def pulseMark (s : State) (num : Nat) : Word := BitVec.ofNat 32 (2 ^ 31 + sfnNow s * 65536 + slotIndex s num)
/-- A pulse of a numerology is delivered in the tick in which its slot starts. -/
def doSlotPulse (s : State) (num : BitVec 3) : State :=
  if num.toNat ≤ 4 ∧ pulseNow s num.toNat = true then
    { s with cmk := { s.cmk with pulses := sput 0 s.cmk.pulses num.toNat (pulseMark s num.toNat) } }
  else s

/-- SLOT_PULSE (R332). -/
def execSlotPulse (num : BitVec 3) (s : State) : Host.Outcome State Fault Refusal := .next (doSlotPulse s num)

/-! ## GNSS (R333, R337) -/

/-- A second in units of 2^−16 ns. -/
def secUnits : Nat := 1000000000 * 65536
/-- Every GNSS slot stops being valid. -/
def dropGnss (s : State) : State :=
  allSlots.foldl (fun t i => let x := t.csrc i; if x.typ = 1 then t.setCsrc i (x.setValid t.cycle false) else t) s

/-- An edge of PPS_IN: expected edges that did not arrive are counted; an edge away from its instant or without a label before it makes GNSS
slots invalid. -/
def doPpsIn (s : State) (edge : Ts) : State :=
  let s1 := { s with cmk := { s.cmk with ppsIn := some edge, ppsLabel := none } }
  match s.cmk.ppsIn with
  | none => s1
  | some old =>
    let d : Int := (tsUnits edge : Int) - tsUnits old
    let n := ((d + secUnits / 2) / secUnits).toNat
    let s2 := if 1 < n then cmkTal s1 3 (n - 1) else s1
    if n ≠ 1 ∨ 1000 * 65536 < (d - secUnits).natAbs ∨ s.cmk.ppsLabel = none then dropGnss s2 else s2

/-- PPS_IN_EDGE (R333, R351). -/
def execPpsInEdge (at96 : Ts) (s : State) : Host.Outcome State Fault Refusal := .next (doPpsIn s at96)

/-- A time-of-day message: the time event message labels an edge within 500 ms after it; others and bad sums are counted (R333, R337). -/
def doTod (s : State) (isTime badSum : Bool) (sec : BitVec 48) : State :=
  if isTime = false ∨ badSum = true then cmkTal s 4 1
  else
    match s.cmk.ppsIn with
    | some e => if tsUnits e ≤ s.units ∧ s.units ≤ tsUnits e + secUnits / 2 then { s with cmk := { s.cmk with ppsLabel := some sec } } else s
    | none => s

/-- TOD_MESSAGE_RECEIVE (R333, R337). -/
def execTodMessageReceive (isTime badSum : Bool) (sec : BitVec 48) (s : State) : Host.Outcome State Fault Refusal := .next (doTod s isTime badSum sec)

/-! ## PTP and ESMC (R318, R319, R334, R340, R341) -/

/-- A stamp with TSCORR applied: 0.25 ns units (R318). -/
def corrected (t : Ts) (corr : Int) : Ts := unitsTs (((tsUnits t : Int) + corr * 16384).toNat)

/-- The states that the role allows a port to take from the BMCA (R340): one SLAVE at most under BC. -/
def bmcaStates (s : State) (n : PortId) : List PtpState :=
  let p := s.ptpPort n
  let other := s.cmk.ptp.any (fun q => q.1 != n.toNat && q.2.st == .slave)
  if s.cmk.role = 2 then [.master, .passive]
  else
    let sl : List PtpState := if p.notSlave then [] else if s.cmk.role = 1 ∧ other = true then [] else [.uncalibrated, .slave]
    (if s.cmk.role = 1 then [.master, .passive] else [.passive]) ++ sl

/-- The BMCA of the profile decides the port's state among those that its role allows: its datasets are outside the specification (log 9). -/
def bmca (s : State) (n : PortId) : State :=
  let (k, s1) := takeFree s
  let l := bmcaStates s n
  let i := Config.freeNat k % l.length
  s1.setPtpPort n { s1.ptpPort n with st := (l[i]?).getD .passive }

/-- PTP slots of a port take the rank of a clockClass. -/
def ptpRank (s : State) (n : PortId) (c : BitVec 8) : State :=
  allSlots.foldl (fun t i => let x := t.csrc i; if x.typ = 3 ∧ x.inst = n then t.setCsrc i { x with ql := classRank c } else t) s

/-- A PTP frame reaches the Clockmaker with its ingress stamp. -/
def doPtpReceive (s : State) (n : PortId) (m : PtpMsg) : State :=
  let p := s.ptpPort n
  let rx := corrected s.now (s.port n).tscorr.toInt
  if rxLive s n = false ∨ p.en = false then s
  else
    match m with
    | .announce c d => if d = s.cmk.domain then bmca (ptpRank (s.setPtpPort n { p with clockClass := c }) n c) n else s
    | .sync o _ q => if p.st = .slave ∨ p.st = .uncalibrated then s.setPtpPort n { p with lastSync := some (o, rx), seq := q } else s
    | .followUp o q =>
      match p.lastSync with
      | some (_, r) => if p.seq = q then s.setPtpPort n { p with lastSync := some (o, r) } else s
      | none => s
    | .delayReq _ => if p.st = .master ∧ (s.port n).txEn = true ∧ s.asy.safe = false then portTal s n 8 else s
    | .delayResp _ _ => s

/-- PTP_FRAME_RECEIVE (R318, R334, R340). -/
def execPtpFrameReceive (port : PortId) (msg : PtpMsg) (s : State) : Host.Outcome State Fault Refusal := .next (doPtpReceive s port msg)

/-- An ESMC frame: the SYNCE slots of the quad take its rank, and are valid with lock and a QL other than DNU (R333, R334). -/
def doEsmc (s : State) (n : PortId) (ssm : BitVec 4) : State :=
  let q := n.toNat / 4
  if rxLive s n = false then s
  else
    allSlots.foldl (fun t i =>
      let x := t.csrc i
      if x.en ∧ x.typ = 4 ∧ x.inst.toNat = q then
        t.setCsrc i { x.setValid t.cycle (ssm != 15 && !(t.quad q).reclos) with ql := ssmRank ssm }
      else t) s

/-- ESMC_FRAME_RECEIVE (R319, R333, R334). -/
def execEsmcFrameReceive (port : PortId) (ssm : BitVec 4) (s : State) : Host.Outcome State Fault Refusal := .next (doEsmc s port ssm)

/-- The clockClass that a master announces (R341). -/
def sentClass (c : Cmk) : BitVec 8 :=
  if c.st = .locked ∧ c.timeok = true then 6
  else if c.st = .holdover ∧ c.role ≠ 0 then
    (if c.hospec then (if c.role = 2 then 7 else 135) else (if c.role = 2 then 140 else 165))
  else 248

/-- The port's state lets it send the message (R340). -/
def ptpMaySend (st : PtpState) : PtpSend → Bool
  | .sync | .announce => st == .master
  | .delayReq => st == .slave || st == .uncalibrated

/-- A PTP message leaves: an event message's two-step egress stamp goes to the FIFO of 16, or is dropped and counted (R318). -/
def doPtpSend (s : State) (n : PortId) (k : PtpSend) : State :=
  let p := s.ptpPort n
  if p.en = false ∨ (s.port n).txEn = false ∨ s.asy.safe = true ∨ s.lmp.pkg = .deep ∨ ptpMaySend p.st k = false then s
  else
    let st := corrected s.now (-(s.port n).tscorr.toInt)
    let s1 := portTal (s.setPtpPort n { p with seq := p.seq + 1, sent := some (k, sentClass s.cmk, st) }) n 8
    if k = .announce ∨ ((s.port n).oneStep = true ∧ k = .sync) then s1
    else if 16 ≤ s1.fhp.egress.length then cmkTal s1 5 1
    else { s1 with fhp := { s1.fhp with egress := s1.fhp.egress ++ [{ port := n, seqId := p.seq, stamp := st }] } }

/-- PTP_MESSAGE_TRANSMIT (R318, R340, R341). -/
def execPtpMessageTransmit (port : PortId) (k : PtpSend) (s : State) : Host.Outcome State Fault Refusal := .next (doPtpSend s port k)

/-! ## Registers (R351) -/

/-- CMK_CTL written; EN = 0 leaves the root free-running at nominal. -/
def cmkCtlWrite (s : State) (v : Word) : State :=
  let c := s.cmk
  let d : BitVec 8 := slice v 8 8
  let c1 := { c with en := v.getLsbD 0, role := keepIf (slice v 1 2 == (3 : BitVec 2)) c.role (slice v 1 2), autostep := v.getLsbD 3,
                     bw := keepIf (slice v 4 2 == (3 : BitVec 2)) c.bw (slice v 4 2), clkouten := v.getLsbD 6, clkoutf := v.getLsbD 7,
                     domain := keepIf (decide (d.toNat < 24 ∨ 43 < d.toNat)) c.domain d }
  { s with cmk := if c1.en then c1 else { c1 with st := .freerun, tsrc := none, fsrc := none, foff := 0, good := 0 } }

/-- CMK_SRCi_CFG written: a slot of a new kind starts without validity; HOST is valid while enabled, CRIER while REFVALID (R333, R389). -/
def srcCfgWrite (s : State) (i : BitVec 3) (v : Word) : State :=
  let x := s.csrc i
  let t : BitVec 3 := slice v 1 3
  let y := { x with en := v.getLsbD 0, typ := keepIf (v.getLsbD 0 && t == 0) x.typ t, inst := slice v 4 5, prio := slice v 9 4, qlcfg := slice v 13 4 }
  let same := x.en == y.en && x.typ == y.typ && x.inst == y.inst
  let ql := if rankedType y.typ then (if same then y.ql else 15) else y.qlcfg
  let ok := y.en && (if y.typ = 7 then true else if y.typ = 6 then s.cri.refvalid else same && x.valid)
  s.setCsrc i { y.setValid s.cycle ok with ql := ql }

/-- CMK_SRCi_STAT: VALID, QL, WTRRUN. -/
def srcStat (s : State) (i : BitVec 3) : List (Nat × Nat) :=
  let x := s.csrc i
  [(1, b2n x.valid), (4, x.ql.toNat), (1, b2n (x.valid && decide (validFor s x < s.cmk.wtr.toNat) && s.cmk.tsrc != some i && s.cmk.fsrc != some i))]

/-- PTP port states as coded. -/
def PtpState.code : PtpState → Nat
  | .disabled => 0
  | .listening => 1
  | .uncalibrated => 2
  | .slave => 3
  | .master => 4
  | .passive => 5
/-- Timer owners as coded. -/
def TmrOwner.code : TmrOwner → Nat
  | .free => 0
  | .host => 1
  | .pps => 2
  | .crier => 3
  | .gpio => 4

/-- CMK_PTPPn_CFG written; a port that its quad does not create cannot be enabled (R340, R482). -/
def ptpWrite (s : State) (n : PortId) (v : Word) : Outc × State :=
  let p := s.ptpPort n
  if v.getLsbD 0 ∧ portExists s n = false then (.notPermitted, s)
  else
    let st : PtpState := if v.getLsbD 0 then (if p.en then p.st else .listening) else .disabled
    (.ok, s.setPtpPort n { p with en := v.getLsbD 0, notSlave := v.getLsbD 1, prio := slice v 2 8, st := st })

/-- A timer register as read. -/
def tmrRead (x : Tmr) (o : Nat) : Option Word :=
  let pk := fun (l : List (Nat × Nat)) => some (BitVec.ofNat 32 (packLE l) : Word)
  match o / 4 with
  | 0 => pk [(1, b2n x.armBit), (1, b2n x.periodic), (1, b2n x.evt), (3, x.outsel.toNat), (2, 0), (4, x.line.toNat), (3, x.owner.code)]
  | 1 => some (slice x.inst.sec 0 32)
  | 2 => pk [(16, bits x.inst.sec.toNat 32 16), (16, x.inst.frac.toNat)]
  | 3 => some x.inst.ns
  | 4 => some x.period
  | 5 => pk [(1, b2n x.armed), (1, b2n x.late), (1, b2n x.preempt)]
  | _ => none

/-- A timer register written. -/
def tmrWrite (cm : Bool) (s : State) (t : TimerId) (o : Nat) (v : Word) : WrAns :=
  let x := s.tmr t
  let set := fun (y : Tmr) => wrOk (s.setTmr t y)
  match o / 4 with
  | 0 => some (tmrCfgWrite cm s t v)
  | 1 => set { x with inst := { x.inst with sec := BitVec.ofNat 48 (v.toNat + 2 ^ 32 * bits x.inst.sec.toNat 32 16) } }
  | 2 => set { x with inst := { x.inst with sec := BitVec.ofNat 48 (bits x.inst.sec.toNat 0 32 + 2 ^ 32 * bits v.toNat 0 16), frac := slice v 16 16 } }
  | 3 => set { x with inst := { x.inst with ns := v } }
  | 4 => set { x with period := v }
  | 5 => set { x with late := x.late && !v.getLsbD 1, preempt := x.preempt && !v.getLsbD 2 }
  | _ => none

/-- A read in the CMK block. -/
def cmkRead (s : State) (off : Nat) : RdAns :=
  let c := s.cmk
  if 0x100 ≤ off then
    match copyOf off 0x100 0x10 8, copyOf off 0x200 0x10 2, copyOf off 0x400 8 32, copyOf off 0x1000 0x20 64 with
    | some (i, o), _, _, _ =>
      let x := s.csrc (BitVec.ofNat 3 i)
      if o = 0 then rdPack s [(1, b2n x.en), (3, x.typ.toNat), (5, x.inst.toNat), (4, x.prio.toNat), (4, x.qlcfg.toNat)]
      else if o = 4 then rdPack s (srcStat s (BitVec.ofNat 3 i))
      else if o = 8 then rdVal s x.asym
      else none
    | none, some (n, o), _, _ =>
      let p := s.pps (n == 1)
      if o = 0 then rdPack s [(1, b2n p.en), (6, p.timer.toNat), (1, b2n p.pol), (16, p.width.toNat)]
      else if o = 4 then rdVal s p.off
      else none
    | none, none, some (n, o), _ =>
      let p := s.ptpPort (BitVec.ofNat 5 n)
      if o = 0 then rdPack s [(1, b2n p.en), (1, b2n p.notSlave), (8, p.prio.toNat)] else if o = 4 then rdPack s [(3, p.st.code)] else none
    | none, none, none, some (t, o) => (tmrRead (s.tmr (BitVec.ofNat 6 t)) o).map (fun v => (v, s))
    | none, none, none, none => if inTal off 0x2000 6 then talRead s cmkBase off else none
  else
    match off / 4 with
    | 0 => rdVal s idWord
    | 1 => rdPack s [(1, b2n c.en), (2, c.role.toNat), (1, b2n c.autostep), (2, c.bw.toNat), (1, b2n c.clkouten), (1, b2n c.clkoutf), (8, c.domain.toNat)]
    | 2 => rdVal s (cmkStat c)
    | 3 => rdPack s [(10, c.wtr.toNat), (2, 0), (4, c.qlmin.toNat)]
    | 4 => rdVal s (c.stepthr.setWidth 32)
    | 5 => rdVal s (c.lockthr.setWidth 32)
    | 6 => rdVal s (c.spec.setWidth 32)
    | 7 => rdVal s (c.sfnoff.setWidth 32)
    | 8 => rdVal s c.gnssdly
    | 9 => rdPack s [(3, c.baud.toNat), (1, b2n c.txen)]
    | 10 => rdVal s c.foff
    | 11 => rdVal s c.pherr
    | 12 => rdVal s 0
    | 13 => rdVal s c.snap0
    | 14 => rdVal s c.snap1
    | 15 => rdVal s c.snap2
    | 16 => rdVal s c.snap3
    | _ => none

/-- A write in the CMK block. -/
def cmkWrite (cm : Bool) (s : State) (off : Nat) (v : Word) : WrAns :=
  let c := s.cmk
  let set := fun (x : Cmk) => wrOk { s with cmk := x }
  if 0x100 ≤ off then
    match copyOf off 0x100 0x10 8, copyOf off 0x200 0x10 2, copyOf off 0x400 8 32, copyOf off 0x1000 0x20 64 with
    | some (i, o), _, _, _ =>
      let k : BitVec 3 := BitVec.ofNat 3 i
      if o = 0 then wrOk (srcCfgWrite s k v)
      else if o = 4 then wrOk s
      else if o = 8 then wrOk (s.setCsrc k { s.csrc k with asym := v })
      else none
    | none, some (n, o), _, _ =>
      if o = 0 then some (ppsWrite cm s (n == 1) v) else if o = 4 then wrOk (ppsOffWrite s (n == 1) v) else none
    | none, none, some (n, o), _ =>
      if o = 0 then some (ptpWrite s (BitVec.ofNat 5 n) v) else if o = 4 then wrOk s else none
    | none, none, none, some (t, o) => tmrWrite cm s (BitVec.ofNat 6 t) o v
    | none, none, none, none => if inTal off 0x2000 6 then wrOk s else none
  else
    match off / 4 with
    | 0 | 10 | 11 | 13 | 14 | 15 | 16 => wrOk s
    | 1 => wrOk (cmkCtlWrite s v)
    | 2 => set { c with stepped := c.stepped && !v.getLsbD 12 }
    | 3 => set { c with wtr := keepIf (decide (720 < bits v.toNat 0 10)) c.wtr (slice v 0 10), qlmin := slice v 12 4 }
    | 4 => set { c with stepthr := slice v 0 24 }
    | 5 => set { c with lockthr := slice v 0 16 }
    | 6 => set { c with spec := slice v 0 16 }
    | 7 => set { c with sfnoff := slice v 0 10 }
    | 8 => set { c with gnssdly := v }
    | 9 => set { c with baud := keepIf (decide (4 < bits v.toNat 0 3)) c.baud (slice v 0 3), txen := v.getLsbD 3 }
    | 12 => wrOk (snapWrite s v)
    | _ => none

end Sys2Proof.Machine
end

