-- ==== Sys2Proof/Machine/CrierCmds.lean ====
section
/-! DEFINITION. The meanings of the Crier's commands, and the CRI registers (R372 to R395). -/

namespace Sys2Proof.Machine

/-! ## Reception (R383 to R388) -/

/-- Receive slots that are free. -/
def Cri.freeSlots (c : Cri) : Nat := ((List.range c.nslots).filter (fun i => sget false c.used i == false)).length
/-- The next free slot in ascending index from the one after the last filled, wrapping (R386). -/
def Cri.pickSlot (c : Cri) : Option Nat :=
  ((List.range c.nslots).map (fun i => (c.nextSlot + i) % c.nslots)).find? (fun i => sget false c.used i == false)

/-- The signed 16-bit floor of a mean power num / den in 0.25 dBFS: rnd(40 log10(P / 2^30)) (R387). -/
def floorOf (num den : Nat) : BitVec 16 :=
  if num = 0 then 0x8000
  else
    let a := num ^ 80
    let b := (den * 2 ^ 30) ^ 80
    let up := fun (v : Int) => if 2 * v - 1 < 0 then decide (b ≤ a * 10 ^ (1 - 2 * v).toNat) else decide (b * 10 ^ (2 * v - 1).toNat ≤ a)
    BitVec.ofInt 16 (((List.range 1200).filter (fun (i : Nat) => up ((i : Int) - 1099))).length - 1100)

/-- An idle masked symbol enters the noise average; a full block of 2^LOG2N symbols replaces the floors (R387). -/
def noiseAdd (c : Cri) (p : List (BitVec 32)) : Cri :=
  let sum := upTo 64 (fun i m => sput 0 m i (sget 0 m i + ((p[i]?).getD 0).toNat)) c.nfSum
  let n := 2 ^ c.log2n.toNat
  if n ≤ c.nfCount + 1 then
    { c with nfSum := [], nfCount := 0, nfValid := true, nfVal := upTo 64 (fun i m => sput 0 m i (floorOf (sget 0 sum i) (c.nfCount + 1))) [] }
  else { c with nfSum := sum, nfCount := c.nfCount + 1 }

/-- A preamble starts a packet: the gain freezes (R382, R384). -/
def startPkt (s : State) (metric gain : BitVec 16) (start : Ts) : State :=
  { s with cri := { s.cri with rx := .sync, agcGain := slice gain 0 8,
                               pkt := { CriPkt.reset with metric := metric, gain := gain, start := start, nco0 := s.cri.nco } } }

/-- A capture by the second correlator (R385): more than CAPMARGIN above the current metric. -/
def captures (c : Cri) (metric : BitVec 16) : Bool := decide (c.pkt.metric.toNat + c.capmargin.toNat < metric.toNat)

/-- The packet is captured by a new preamble. -/
def capture (s : State) (metric gain : BitVec 16) (start : Ts) : State := startPkt (criPktEvent (criTal s 1) 4) metric gain start

/-- The receiver drops its packet and returns to SEARCH with a counter and an event. -/
def failPkt (s : State) (tal reason : Nat) : State :=
  let s1 := criPktEvent (criTal s tal) reason
  { s1 with cri := { s1.cri with rx := .search, pkt := CriPkt.reset } }

/-- A header whose HCRC holds is usable: LEN, table, loads and D (R384). -/
def hdrTable (c : Cri) (h : Word) : Option (BitVec 256) :=
  match c.table (slice h 0 4) with
  | some t => if 0 < hdrLen h ∧ tblOk t = true ∧ 0 < tblBits t (h.getLsbD 14) then some t else none
  | none => none

/-- The header is complete (R384, R388). -/
def takeHeader (s : State) (h : Word) : State :=
  let c := s.cri
  let s1 := { s with cri := { c with pkt := { c.pkt with header := h } } }
  if hcrcOk h = false then failPkt s1 2 1
  else
    match hdrTable c h with
    | none => failPkt s1 3 2
    | some t =>
      { s with cri := { c with rx := .payload, pkt := { c.pkt with header := h, table := some t },
                               nco := if c.fmode then c.nco + c.pkt.residual else c.nco } }

/-- Byte j of a bit stream, bit 0 first (R381). -/
def streamByte (b : List Bool) (j : Nat) : Byte := BitVec.ofNat 8 (upTo 8 (fun i a => if (b[8 * j + i]?).getD false then a + 2 ^ i else a) 0)
/-- The payload CRC holds over n bytes of a stream. -/
def payloadOk (b : List Bool) (n : Nat) : Bool :=
  crc16 (8 * n) (fun i => (b[i]?).getD false) == (streamByte b n).toNat + 256 * (streamByte b (n + 1)).toNat

/-- CRIER slots of the Clockmaker are valid exactly while REFVALID (R389). -/
def refSlots (s : State) : State :=
  allSlots.foldl (fun t i => let x := t.csrc i; if x.en ∧ x.typ = 6 then t.setCsrc i (x.setValid t.cycle s.cri.refvalid) else t) s

/-- The measurement that a packet yields (R389); with no carrier frequency set the specification states no value (log 9). -/
def measureOf (s : State) (foff : Word) : Word × State :=
  let k := s.cri.carrier.toNat
  if k = 0 then
    let (n, t) := takeFree s
    (Config.free32 n, t)
  else
    let num : Int := foff.toInt * 10 ^ 12
    let den := 256 * 1000 * k
    let q : Int := ((2 * num.natAbs + den) / (2 * den) : Nat)
    (BitVec.ofInt 32 (if num < 0 then -q else q), s)

/-- A packet of a reference beacon offers its measurement; REFVALID rises with reason 7 (R389). -/
def offerRef (s : State) (foff : Word) : State :=
  let c := s.cri
  if c.refEn = false ∨ c.pkt.header.getLsbD 15 = false ∨ c.pkt.metric.toNat < c.minmetric.toNat then s
  else
    let (m, s1) := measureOf s foff
    let s2 := { s1 with cri := { s1.cri with measure := some m, refvalid := true, refAt := s.cycle } }
    let s3 := refSlots s2
    if c.refvalid then s3 else criEvent s3 7 0 (hdrLen c.pkt.header) c.pkt.metric.toNat (bits c.pkt.header.toNat 0 4)

/-- The 64-byte head of a record (R386). -/
def recordHead (c : Cri) (foff : Word) : List Byte :=
  fitBytes 64 (tsBytes c.pkt.start ++ bytesOfNat 1 (packLE [(4, c.pkt.header.toNat), (1, b2n (c.pkt.header.getLsbD 14)),
    (1, b2n (c.pkt.header.getLsbD 15))]) ++ [0] ++ bytesOfNat 2 (hdrLen c.pkt.header) ++ bytesOfNat 4 foff.toNat ++
    bytesOfNat 2 c.pkt.metric.toNat ++ bytesOfNat 2 c.pkt.gain.toNat ++ bytesOfNat 4 c.written.toNat)

/-- A packet whose CRC holds: a record in a free slot, or a drop (R384, R386, R389). -/
def goodPkt (s : State) (bits1 : List Bool) : State :=
  let c := s.cri
  let foff := c.pkt.nco0 + c.pkt.residual
  let s0 := offerRef s foff
  match c.pickSlot with
  | none => failPkt s0 6 5
  | some k =>
    let n := hdrLen c.pkt.header
    let body := (List.range n).map (streamByte bits1)
    match accStore s0 .hma (c.buf.toNat + k * 1088) (recordHead c foff ++ body) c.act with
    | .wait t => stayWake s t
    | .done _ t =>
      let t1 := criEvent (criTal t 5) 0 k n c.pkt.metric.toNat (bits c.pkt.header.toNat 0 4)
      { t1 with cri := { t1.cri with rx := .search, pkt := CriPkt.reset, lastfoff := foff, written := c.written + 1,
                                     used := sput false c.used k true, nextSlot := (k + 1) % c.nslots } }

/-- One payload symbol (R381, R384, R388). -/
def takePayload (s : State) (b : List Bool) (residual : Word) : State :=
  let c := s.cri
  let h := c.pkt.header
  let d := tblBits (c.pkt.table.getD 0) (h.getLsbD 14)
  let n := hdrLen h
  let all := c.pkt.stream ++ (List.range d).map (fun i => (b[i]?).getD false)
  let res := if c.fmode = false ∧ h.getLsbD 14 = true then residual else c.pkt.residual
  let s1 := { s with cri := { c with pkt := { c.pkt with stream := all, syms := c.pkt.syms + 1, residual := res } } }
  if c.pkt.syms + 1 < cdiv (8 * (n + 2)) d then s1
  else if payloadOk all n = false then failPkt s1 4 3
  else
    match goodPkt s1 all with
    | t => if t.cri.rx = .payload then stayWake s t else t

/-- A masked symbol of the receive stream (R384, R385, R387, R393). -/
def doSymbolRx (s : State) (p : List (BitVec 32)) (o : CriObs) : State :=
  let c := s.cri
  if c.en = false then s
  else
    match c.rx, o with
    | .idle, _ => s
    | .search, o =>
      let s1 := { s with cri := noiseAdd c p }
      match o with
      | .preamble m g t => if c.detthr.toNat ≤ m.toNat then startPkt (criTal s1 0) m g t else s1
      | _ => s1
    | .sync, .preamble m g t => if captures c m then capture s m g t else s
    | .sync, .chirps ok foff =>
      if ok then { s with cri := { c with rx := .header, pkt := { c.pkt with residual := foff } } }
      else
        let s1 := criTal s 7
        { s1 with cri := { s1.cri with rx := .search, pkt := CriPkt.reset } }
    | .header, .preamble m g t => if captures c m then capture s m g t else s
    | .header, .header h => takeHeader s h
    | .header, .headerCapture h m g t => if hcrcOk h = false ∧ captures c m = true then capture s m g t else takeHeader s h
    | .payload, .payload b r => takePayload s b r
    | .sync, _ | .header, _ | .payload, _ => s

/-- BEACON_SYMBOL_RECEIVE (R320, R384 to R389). -/
def execBeaconSymbolReceive (power : List (BitVec 32)) (obs : CriObs) (s : State) : Host.Outcome State Fault Refusal :=
  .next (doSymbolRx s power obs)

/-! ## Transmission (R374 to R381, R390) -/

/-- Band sub-carriers of the Crier on a stream. -/
def bandOf (s : State) (n : StreamId) : Nat := 12 * (criPrbs (s.strm n).num.toNat s.cri.bw.toNat).getD 0

/-- The masked symbol of the transmit stream whose send tick is now. -/
def maskedNow (s : State) : Option (Int × SymId) :=
  let n := s.cri.txstrm
  let x := s.strm n
  let mu := x.num.toNat
  let k0 := frameAt s.units
  let ids := (List.range 10).flatMap (fun a => (List.range (2 ^ mu)).flatMap (fun b => (List.range 14).map (fun c => (a, b, c))))
  let all := [(k0 : Int) - 1, (k0 : Int), (k0 : Int) + 1].flatMap (fun (k : Int) => ids.map (fun p =>
    (k, ({ frame := sfnOf s k % 256, sub := p.1, slot := p.2.1, sym := p.2.2 } : SymId))))
  all.find? (fun p => symStart mu p.1 p.2 + ticks8 x.wopen == s.tick && criMasked s mu (sfnOf s p.1) (p.2.frameSlot mu) p.2.sym)

/-- REF of a header: LOCKED, and not on a beacon itself (R377). -/
def refBit (s : State) : Bool :=
  s.cmk.st == .locked && (match s.cmk.fsrc with | some i => (s.csrc i).typ != 6 | none => true)

/-- The transmission with its header as the first header chirp is formed (R377). -/
def withRef (s : State) (t : CriTx) (m : Nat) : CriTx :=
  let n := chirpLen s.cri
  if t.used * m ≤ 8 * n ∧ 8 * n < (t.used + 1) * m then
    { t with header := mkHeader t.table.toNat t.payload.length (t.header.getLsbD 14) (refBit s) }
  else t

/-- A masked symbol of the transmit stream carries the next piece of a held transmission; its last one completes the command (R390). -/
def doSymbolTx (s : State) : State :=
  match s.cri.tx, maskedNow s with
  | some t0, some (k, i) =>
    let n := s.cri.txstrm
    let x := s.strm n
    let at0 := symStart x.num.toNat k i
    if s.cri.en = false ∨ s.lmp.pkg = .deep ∨ (t0.started = false ∧ t0.timer ≠ 0xFF ∧ tickReached at0 t0.fireAt = false) then s
    else
      let m := bandOf s n
      let t := withRef s t0 m
      let (fr, s1) := takeFree s
      let pts := txSymbol fr s.cri t m t.used
      let prbs := m / 12
      let body := (List.range prbs).flatMap (fun j =>
        prbEncode x.fmt.toNat (((pts.drop (12 * j)).take 12).flatMap (fun p => [p.1, p.2])))
      let s2 := txOut s1 n (txHeader x i s.cri.startprb.toNat prbs) body
      let first := if t.started then t.firstTick else at0
      if t.total ≤ t.used + 1 then
        completeCmd (criTal { s2 with cri := { s2.cri with tx := none } } 8) t.ring t.idx .ok 0 first (BitVec.ofNat 32 (t.used + 1))
      else { s2 with cri := { s2.cri with tx := some { t with started := true, firstTick := first, used := t.used + 1 } } }
  | _, _ => s

/-- BEACON_SYMBOL_TRANSMIT (R374 to R381, R390). -/
def execBeaconSymbolTransmit (s : State) : Host.Outcome State Fault Refusal := .next (doSymbolTx s)

/-! ## Registers and the remaining events (R372, R384, R386, R389, R395) -/

/-- CRI_RXFREE written. -/
def rxFreeWrite (s : State) (v : Word) : State := { s with cri := { s.cri with used := sput false s.cri.used (bits v.toNat 0 8) false } }

/-- RECEIVE_SLOT_FREE (R386). -/
def execReceiveSlotFree (who : Initiator) (v : Word) (s : State) : Host.Outcome State Fault Refusal :=
  .next (regCmd s who (criBase + 0x38) (fun t => wrAnswer (.ok, rxFreeWrite t v)))

/-- CRI_CTL written: EN = 1 needs streams that fit the band and keep their ports (R372, R484); EN = 0 stops the Crier (R384). -/
def criCtlWrite (cm : Bool) (s : State) (v : Word) : Outc × State :=
  let c := s.cri
  let c1 := { c with en := v.getLsbD 0, fmode := v.getLsbD 1, txpilot := v.getLsbD 2, evfail := v.getLsbD 3 }
  if v.getLsbD 0 then
    if c.en = false ∧ (criStreamOk s c.rxstrm = false ∨ criStreamOk s c.txstrm = false) then (.notPermitted, s)
    else noConflict cm s (.ok, { s with cri := c1 })
  else (.ok, criStop { s with cri := c1 })

/-- CRIER_ENABLE: a write of CRI_CTL with EN = 1 (R372). -/
def execCrierEnable (who : Initiator) (v : Word) (s : State) : Host.Outcome State Fault Refusal :=
  .next (regCmd s who (criBase + 4) (fun t => wrAnswer (criCtlWrite false t (v ||| 1))))
/-- CRIER_DISABLE: a write of CRI_CTL with EN = 0 (R384). -/
def execCrierDisable (who : Initiator) (v : Word) (s : State) : Host.Outcome State Fault Refusal :=
  .next (regCmd s who (criBase + 4) (fun t => wrAnswer (criCtlWrite false t (v &&& ~~~1))))

/-- No measurement for HOLD seconds: REFVALID falls with reason 8 (R389). -/
def doRefExpiry (s : State) : State :=
  if s.cri.refvalid ∧ s.cri.hold.toNat * rootHz ≤ s.cycle - s.cri.refAt then
    criEvent (refSlots { s with cri := { s.cri with refvalid := false } }) 8 0 0 0 0
  else s

/-- REFERENCE_HOLD_EXPIRY (R389). -/
def execReferenceHoldExpiry (s : State) : Host.Outcome State Fault Refusal := .next (doRefExpiry s)

/-- RXSTATE as coded. -/
def CriRx.code : CriRx → Nat
  | .idle => 0
  | .search => 1
  | .sync => 2
  | .header => 3
  | .payload => 4

/-- A read in the CRI block (R395). -/
def criRead (s : State) (off : Nat) : RdAns :=
  let c := s.cri
  match off / 4 with
  | 0 => rdVal s 0x00010000
  | 1 => rdPack s [(1, b2n c.en), (1, b2n c.fmode), (1, b2n c.txpilot), (1, b2n c.evfail)]
  | 2 => rdPack s [(3, c.rx.code), (1, b2n c.tx.isSome), (1, b2n c.refvalid), (3, 0), (9, c.freeSlots)]
  | 3 => rdPack s [(12, c.rxstrm.toNat), (4, 0), (12, c.txstrm.toNat)]
  | 4 => rdPack s [(2, c.bw.toNat), (2, 0), (4, c.sf.toNat), (8, 0), (9, c.startprb.toNat)]
  | 5 => rdVal s (c.symbols.setWidth 32)
  | 6 => rdPack s [(10, c.mperiod.toNat), (6, 0), (10, c.moffset.toNat)]
  | 7 => rdPack s [(8, c.detthr.toNat), (8, c.capmargin.toNat)]
  | 8 => rdPack s [(8, c.agcTarget.toNat), (8, c.agcGain.toNat)]
  | 9 => rdVal s (c.carrier.setWidth 32)
  | 10 => rdVal s c.nco
  | 11 => rdVal s c.lastfoff
  | 12 => rdPack s [(1, b2n c.refEn), (7, 0), (8, c.minmetric.toNat), (8, c.hold.toNat)]
  | 13 => rdVal s (c.log2n.setWidth 32)
  | 14 => rdVal s 0
  | 15 => rdVal s (c.txamp.setWidth 32)
  | 16 => rdVal s (c.tblstat.setWidth 32)
  | _ => if inTal off 0x100 11 then talRead s criBase off else none

/-- A write in the CRI block; `cm` for a commit, which may write the band and the mask while EN = 1 and then aborts (R392, R395). -/
def criWrite (cm : Bool) (s : State) (off : Nat) (v : Word) : WrAns :=
  let c := s.cri
  let set := fun (x : Cri) => wrOk { s with cri := x }
  let mask := fun (x : Cri) =>
    if c.en = true ∧ cm = false then wrNo s
    else wrOk (let t := { s with cri := x }; if cm then criAbort t else t)
  match off / 4 with
  | 0 | 2 | 11 | 16 => wrOk s
  | 1 => some (criCtlWrite cm s v)
  | 3 => mask { c with rxstrm := slice v 0 12, txstrm := slice v 16 12 }
  | 4 => mask { c with bw := slice v 0 2, sf := keepIf (decide (bits v.toNat 4 4 < 10)) c.sf (slice v 4 4),
                       startprb := keepIf (decide (272 < bits v.toNat 16 9)) c.startprb (slice v 16 9) }
  | 5 => mask { c with symbols := slice v 0 14 }
  | 6 =>
    let p := keepIf (decide (bits v.toNat 0 10 = 0)) c.mperiod (slice v 0 10)
    mask { c with mperiod := p, moffset := keepIf (decide (p.toNat ≤ bits v.toNat 16 10)) c.moffset (slice v 16 10) }
  | 7 => set { c with detthr := slice v 0 8, capmargin := slice v 8 8 }
  | 8 => set { c with agcTarget := slice v 0 8 }
  | 9 => set { c with carrier := keepIf (decide (bits v.toNat 0 24 = 0)) c.carrier (slice v 0 24) }
  | 10 => set { c with nco := v }
  | 12 => set { c with refEn := v.getLsbD 0, minmetric := slice v 8 8, hold := keepIf (decide (bits v.toNat 16 8 = 0)) c.hold (slice v 16 8) }
  | 13 => set { c with log2n := keepIf (decide (10 < bits v.toNat 0 4)) c.log2n (slice v 0 4) }
  | 14 => wrOk (rxFreeWrite s v)
  | 15 => set { c with txamp := keepIf (decide (32767 < bits v.toNat 0 16)) c.txamp (slice v 0 16) }
  | _ => if inTal off 0x100 11 then wrOk s else none

end Sys2Proof.Machine
end

