-- ==== Sys2Proof/Machine/FabricCmds.lean ====
section
/-! DEFINITION. The meanings of the fabric's commands, but for the target's side, and the FAB registers (R224 to R264). -/

namespace Sys2Proof.Machine

/-! ## Packets (R228 to R234, R241) -/

/-- A request packet. -/
def typIsReq : PktType → Bool
  | .rd | .rd256 | .wr | .wr256 | .wrm | .wrP | .wr256P | .wrmP => true
  | _ => false
/-- A response packet. -/
def typIsRsp : PktType → Bool
  | .rsp | .rspd | .rspd256 | .retry => true
  | _ => false
/-- The virtual channel of a packet, 0 granted first (R234, R235). -/
def vcOf (p : Packet) : Nat := if p.tc then 0 else if typIsRsp p.typ then 1 else if p.mgt || p.typ == .msg then 2 else 3
/-- The route of a target's response (R241). -/
def backRoute (r : BitVec 24) : BitVec 24 := packRoute ((List.range 8).map (fun i => codeAt r (7 - i)))
/-- The route of a synthesised response (R241). -/
def synthRoute (r : BitVec 24) (inCode : Nat) : BitVec 24 := packRoute (inCode :: (List.range 7).map (fun i => codeAt r (7 - i)))

/-- A response without data to a request. -/
def rspOf (p : Packet) (o : Outc) (synth : Bool) (route : BitVec 24) : Packet :=
  { p with typ := .rsp, route := route, data := [], mask := 0, poison := 0, outc := o, synth := synth, flags := 0 }

/-- Removes the packet at an index. -/
def removeAt {α : Type} : List α → Nat → List α
  | [], _ => []
  | _ :: r, 0 => r
  | a :: r, n + 1 => a :: removeAt r n

/-- The index of the packet that an input buffer offers: the first of the highest channel that waits (R234, R235). -/
def pickPkt (l : List Packet) : Option Nat :=
  (List.range 4).findSome? (fun v => l.findIdx? (fun p => vcOf p == v))

/-! ## Port locks (R255) -/

/-- Ports whose lock ended take the state of R255: DRAIN with PEND becomes DISABLED. -/
def unlockPort (s : State) (e : Elem) (p : Nat) : State :=
  let x := (s.elem e).port p
  if portLocked s e p = false ∧ x.pend = true then s.setRPort e p { x with state := 2, pend := false } else s
/-- The L ports of a region and a port named by a fence are released where no cause holds them (R255). -/
def unlockUnit (s : State) (u : FaultUnit) : State :=
  let l := fun (t : State) (gc : ClusterId) => unlockPort t (.mesh gc) 0
  match u with
  | .cluster gc => l s gc
  | .region r => (List.range 4).foldl (fun t c => l t (clusterOf r (BitVec.ofNat 2 c))) s
  | .port e p => unlockPort s e p.toNat
  | _ => s

/-! ## Links (R248, R249, R419, R508) -/

/-- The Assayer source of an element's outgoing links (R419). -/
def linkSrc : Elem → SourceId
  | .mesh gc => srcRegion (clusterRegion gc) 5
  | .gwDie d => BitVec.ofNat 10 (0x3C0 + 4 * d.toNat)
  | .ni n => if n.toNat < 64 then srcRegion (clusterRegion (slice n 0 6)) 5 else 0x3D8
  | _ => 0x3D8
/-- ELEMENT of a link's detail word (R508). -/
def elemCode : Elem → Nat
  | .mesh gc => gc.toNat
  | .gwDie d => 0xB0 + d.toNat
  | .gwHub d => 0xB4 + d.toNat
  | .h0 => 0xA0
  | .h1 => 0xA1
  | .ni n => if n.toNat < 64 then 0x40 + n.toNat else n.toNat
/-- A link's detail word (R508). -/
def linkDetail (e : Elem) (p kind : Nat) : Word := BitVec.ofNat 32 (packLE [(8, elemCode e), (3, p), (2, kind)])
/-- The checks of a packet's flits at the far end of a link, each without an error (R425). -/
def linkChecks (s : State) (e : Elem) (p n : Nat) : State := upTo n (fun _ t => check t (linkSrc e) false (linkDetail e p 0)) s

/-! ## Forwarding (R235, R240, R241, R257) -/

/-- A packet enters the far end of a port. -/
def sendTo (s : State) (x : Next) (p : Packet) : State :=
  let q := { p with born := s.cycle }
  match x with
  | .el e i => let y := s.elem e; s.setElem e { y with inq := sput [] y.inq i (sget [] y.inq i ++ [q]) }
  | .node n => let y := s.ni n; s.setNi n { y with arrived := y.arrived ++ [q] }

/-- A packet leaves by port p of an element; in DRAIN it waits in the output buffer. -/
def sendOut (s : State) (e : Elem) (p : Nat) (k : Packet) : State :=
  let n := flitsOf k.typ
  let s1 := linkChecks (portCount s e p 0 n) e p n
  let x := s1.elem e
  let x1 := { x with fails := upTo 4 (fun i m => sput 0 m (4 * p + i) 0) x.fails }
  if portState s e p = 1 then s1.setElem e { x1 with outq := sput [] x1.outq p (sget [] x1.outq p ++ [k]) }
  else sendTo (s1.setElem e x1) (hop e p) k

/-- A response that an element makes itself goes back by the port of entry (R241). -/
def sendSynth (s : State) (e : Elem) (inCode : Nat) (k : Packet) (o : Outc) : State :=
  let r := rspOf k o true (synthRoute k.route inCode)
  match e with
  | .gwHub d => sendTo s (.el (.mesh (channelRouter d.toNat inCode)) 5) { r with route := consume r.route inCode }
  | .gwDie d => sendTo s (.el .h0 d.toNat) { r with route := consume r.route inCode }
  | _ =>
    if portPasses s e inCode r.epoch then sendOut s e inCode { r with route := consume r.route inCode }
    else portCount s e inCode 4 1

/-- The request is for the region's Lamplighter agent, which the router of cluster 0 serves whatever the L port's state (R255). -/
def forAgent (e : Elem) (p : Nat) (k : Packet) : Bool :=
  match e with
  | .mesh gc => p == 0 && gc.toNat % 4 == 0 && typIsReq k.typ && agentPa k.addr
  | _ => false

/-- The output port that a packet asks for. -/
def outPort (e : Elem) (k : Packet) : Nat := match e with | .gwHub _ => 0 | _ => codeAt k.route 0

/-- One packet's turn at an element (R240, R257). -/
def forward (s : State) (e : Elem) (inCode : Nat) (k : Packet) : State :=
  let p := outPort e k
  let k1 := { k with route := consume k.route inCode }
  if forAgent e p k then sendTo (portCount s e p 0 (flitsOf k.typ)) (hop e 0) k1
  else if portPasses s e p k.epoch then sendOut s e p k1
  else if typIsReq k.typ then sendSynth (portCount s e p 3 1) e inCode k .routeFault
  else portCount s e p 4 1

/-- An element takes the next packet of an input buffer. -/
def doForward (s : State) (e : Elem) (inCode : BitVec 3) : State :=
  let x := s.elem e
  let l := sget [] x.inq inCode.toNat
  match pickPkt l with
  | none => s
  | some i =>
    match l[i]? with
    | none => s
    | some k => forward (s.setElem e { x with inq := sput [] x.inq inCode.toNat (removeAt l i) }) e inCode.toNat k

/-- ROUTER_FORWARD (R224, R234, R235, R240 to R242, R255, R257). -/
def execRouterForward (el : Elem) (inCode : BitVec 3) (s : State) : Host.Outcome State Fault Refusal := .next (doForward s el inCode)

/-- A response or MSG held for 65 536 CLK_NOC cycles is dropped (R253). -/
def doLifetime (s : State) (e : Elem) (inCode : BitVec 3) : State :=
  let x := s.elem e
  let l := sget [] x.inq inCode.toNat
  match l.findIdx? (fun k => !typIsReq k.typ && decide (65536 * 4 ≤ s.cycle - k.born)) with
  | none => s
  | some i =>
    match l[i]? with
    | none => s
    | some k => portCount (s.setElem e { x with inq := sput [] x.inq inCode.toNat (removeAt l i) }) e (outPort e k) 5 1

/-- RESPONSE_LIFETIME_EXPIRY (R253). -/
def execResponseLifetimeExpiry (el : Elem) (inCode : BitVec 3) (s : State) : Host.Outcome State Fault Refusal := .next (doLifetime s el inCode)

/-! ## Injection (R238, R239, R244 to R246, R250, R252, R254) -/

/-- The enqueue aperture: a write to the ENTRY port of a queue (R188). -/
def isEnqueue (typ : PktType) (pa : Pa) : Bool :=
  typIsReq typ && !PktType.isRead typ && (match place pa with | .queue _ _ off => decide (off < 32) | _ => false)

/-- An NI builds packets only from accesses that meet R231. -/
def reqShape (typ : PktType) (pa : Pa) : Bool :=
  typIsReq typ && (match typ with | .rd256 | .wr256 | .wr256P => decide (pa.toNat % 256 = 0) | _ => decide (pa.toNat % 64 = 0))

/-- NI_REQUEST: an initiator hands an access to its NI (R238, R239, R244). -/
def doNiRequest (s : State) (ini : Initiator) (typ : PktType) (pa : Pa) (mask : BitVec 64) (data : List Byte) (act : ActId) : State :=
  if reqShape typ pa then niIssue s (mkReq ini 5 typ pa mask data act (isEnqueue typ pa) (whoP2 s ini)) else s

/-- NI_REQUEST (R231, R238, R239, R244). -/
def execNiRequest (ini : Initiator) (typ : PktType) (pa : Pa) (mask : BitVec 64) (data : List Byte) (act : ActId) (s : State) :
    Host.Outcome State Fault Refusal := .next (doNiRequest s ini typ pa mask data act)

/-- TXID slot i of an NI. -/
def Ni.slot (x : Ni) (i : Nat) : TxSlot := sget { gen := 0, st := .free } x.slots i
/-- Replaces a TXID slot. -/
def Ni.setSlot (x : Ni) (i : Nat) (t : TxSlot) : Ni := { x with slots := sput { gen := 0, st := .free } x.slots i t }
/-- The lowest free TXID slot. -/
def Ni.freeSlot (x : Ni) : Option Nat := (List.range 512).find? (fun i => (x.slot i).st == .free)

/-- Two requests of one initiator to one 64-byte block. -/
def sameBlock (a b : NiReq) : Bool := a.ini == b.ini && a.addr.toNat / 64 == b.addr.toNat / 64
/-- A request is held behind an enqueue that was answered RETRY (R254). -/
def heldByRetry (x : Ni) (r : NiReq) : Bool :=
  x.retries.any (fun h => sameBlock h.r r) ||
    x.slots.any (fun p => match p.2.st with | .opened q _ => q.again && sameBlock q r | _ => false)

/-- The request enters the fabric from a free slot: its timer starts, flits are counted, a regulator entry pays (R245, R246, R250). -/
def inject (s : State) (n : NodeId) (reg : Option Nat) (slot : Nat) (r : NiReq) : State :=
  let x := s.ni n
  let gen := (x.slot slot).gen
  let x1 := x.setSlot slot { gen := gen, st := .opened r s.cycle }
  let x2 := match reg with
    | some i => x1.setReg i { x1.reg i with bucket := (x1.reg i).bucket - regCharge r.typ * 4096 }
    | none => x1
  let fl := flitsOf r.typ
  let s1 := tallyAdd (s.setNi n x2) (niBase n + 0x100) fl
  let s2 := match reg with | some i => tallyAdd s1 (niBase n + 0x1008 + 0x10 * i) fl | none => s1
  let k : Packet :=
    { typ := r.typ, route := r.route, src := n, txid := BitVec.ofNat 11 (slot + 512 * gen.toNat), act := r.act, epoch := r.epoch, addr := r.addr,
      mask := r.mask, data := r.data, poison := r.poison, outc := .ok, synth := false, flags := 0,
      tc := match reg with | some i => (x.reg i).tc | none => false,
      mgt := isRegPa r.addr, ini := r.ini, p2 := r.p2, born := s.cycle }
  let e := s2.elem (.ni n)
  sendTo (linkChecks (s2.setElem (.ni n) { e with fails := [] }) (.ni n) 0 fl) (.el (entryOf n).1 (entryOf n).2) k

/-- The bucket of the entry holds the charge of a request. -/
def canPay (x : Ni) (reg : Option Nat) (r : NiReq) : Bool :=
  match reg with
  | some i => decide (regCharge r.typ * 4096 ≤ (x.reg i).bucket)
  | none => true

/-- The head of FIFO n leaves: 0 to 63 a regulator entry, 64 the unregulated requests, 65 those to register space (R245). -/
def doInject (s : State) (node : NodeId) (n : Nat) : State :=
  let x := s.ni node
  let (l, reg) : List NiReq × Option Nat := if n < 64 then ((x.reg n).fifo, some n) else if n = 64 then (x.free, none) else (x.mgt, none)
  match l, x.freeSlot with
  | r :: rest, some k =>
    if 65 < n ∨ heldByRetry x r = true ∨ canPay x reg r = false then s
    else
      let x1 := if n < 64 then x.setReg n { x.reg n with fifo := rest } else if n = 64 then { x with free := rest } else { x with mgt := rest }
      inject (s.setNi node x1) node reg k r
  | _, _ => s

/-- REGULATOR_INJECT (R245 to R247, R250, R252). -/
def execRegulatorInject (node : NodeId) (n : BitVec 7) (s : State) : Host.Outcome State Fault Refusal := .next (doInject s node n.toNat)

/-- Every bucket gains 25 × RATE up to its cap (R245). -/
def doRefill (s : State) (node : NodeId) : State :=
  let x := s.ni node
  s.setNi node (x.regs.foldl (fun y p =>
    let r := y.reg p.1
    y.setReg p.1 { r with bucket := min (r.bucket + 25 * r.rate.toNat) (r.burst.toNat * 4096) }) x)

/-- REGULATOR_REFILL (R245). -/
def execRegulatorRefill (node : NodeId) (s : State) : Host.Outcome State Fault Refusal := .next (doRefill s node)

/-- FAB_REGn_CFG written: no second enabled entry for an activity; enabling fills the bucket (R244, R245). -/
def regCfgWrite (s : State) (node : NodeId) (n : Nat) (v : Word) : Outc × State :=
  let x := s.ni node
  let r := x.reg n
  let act : ActId := slice v 0 9
  let en := v.getLsbD 9
  let clash := en && decide (n < 63) && (List.range 63).any (fun i => i != n && (x.reg i).en && (x.reg i).act == act)
  if clash then (.notPermitted, s)
  else
    let b := if en ∧ r.en = false then r.burst.toNat * 4096 else r.bucket
    (.ok, s.setNi node (x.setReg n { r with act := act, en := en, tc := v.getLsbD 10, bucket := b }))

/-- REGULATOR_CONFIG_WRITE (R244, R245, R260). -/
def execRegulatorConfigWrite (who : Initiator) (node : NodeId) (n : BitVec 6) (v : Word) (s : State) : Host.Outcome State Fault Refusal :=
  .next (if nodeInitiates node then
    regCmd s who (niBase node + 0x1000 + 0x10 * n.toNat) (fun t => wrAnswer (regCfgWrite t node n.toNat v)) else s)

/-! ## Answers at the NI (R230, R233, R251 to R254, R261) -/

/-- STATSEL covers an initiator (R261, R262). -/
def statCovers (sel : Nat) (i : Initiator) : Bool :=
  sel == 15 || (match i with
    | .core g => sel == g.toNat % 8
    | .engine e => decide (8 ≤ sel ∧ sel < 12) && e.toNat % 16 / 4 == sel - 8
    | .slice _ => sel == 12
    | _ => false)

/-- The first packet of an NI's ejection that satisfies a test, and the state without it. -/
def takeArrived (s : State) (n : NodeId) (f : Packet → Bool) : Option (Packet × State) :=
  let x := s.ni n
  match x.arrived.findIdx? f with
  | none => none
  | some i =>
    match x.arrived[i]? with
    | none => none
    | some k => some (k, s.setNi n { x with arrived := removeAt x.arrived i })

/-- The open transaction that a response belongs to. -/
def openReq (x : Ni) (k : Packet) : Option (Nat × NiReq × Nat) :=
  let i := k.txid.toNat % 512
  let t := x.slot i
  match t.st with
  | .opened r since => if t.gen.toNat = k.txid.toNat / 512 then some (i, r, since) else none
  | _ => none

/-- The transaction of a slot is closed. -/
def closeSlot (s : State) (n : NodeId) (i : Nat) : State :=
  let x := s.ni n
  s.setNi n (x.setSlot i { x.slot i with st := .free })

/-- Counters of an accepted response: ejected flits, and latency unless it is synthesised (R261). -/
def countResponse (s : State) (n : NodeId) (k : Packet) (r : NiReq) (since : Nat) : State :=
  let x := s.ni n
  if k.synth ∨ statCovers x.statsel.toNat r.ini = false then s
  else tallyAdd s (niBase n + 0x180 + 8 * histBin x.hscale.toNat ((s.cycle - since) / 4)) 1

/-- A response arrives: its transaction completes with its outcome, or it is dropped as late (R251, R252). -/
def doResponse (s : State) (n : NodeId) : State :=
  match takeArrived s n (fun k => typIsRsp k.typ && k.typ != .retry) with
  | none => s
  | some (k, s0) =>
    let s1 := tallyAdd s0 (niBase n + 0x108) (flitsOf k.typ)
    match openReq (s1.ni n) k with
    | none => tallyAdd s1 (niBase n + 0x118) 1
    | some (i, r, since) =>
      let a : Ans := { outc := k.outc, flags := k.flags.setWidth 32, data := k.data, poison := (List.range 128).map (fun j => k.poison.getLsbD j) }
      iniProgress (deliver (countResponse (closeSlot s1 n i) n k r since) r a) r.ini

/-- RESPONSE_ARRIVAL (R233, R251, R252, R260, R261). -/
def execResponseArrival (node : NodeId) (s : State) : Host.Outcome State Fault Refusal := .next (doResponse s node)

/-- CLK_NOC cycles of an initiator timeout (R250). -/
def tmoCycles (us : Nat) : Nat := cdiv (us * 98304) 100

/-- A request's timer expires: TIMEOUT, and the slot goes into quarantine (R250 to R252). -/
def doTimeout (s : State) (n : NodeId) (slot : Nat) : State :=
  let x := s.ni n
  match (x.slot slot).st with
  | .opened r since =>
    if tmoCycles x.tmo.toNat * 4 ≤ s.cycle - since then
      iniProgress
        (deliver (tallyAdd (s.setNi n (x.setSlot slot { x.slot slot with st := .quarantine s.cycle })) (niBase n + 0x110) 1) r (Ans.only .timeout))
        r.ini
    else s
  | _ => s

/-- REQUEST_TIMEOUT (R250 to R252). -/
def execRequestTimeout (node : NodeId) (slot : BitVec 9) (s : State) : Host.Outcome State Fault Refusal := .next (doTimeout s node slot.toNat)

/-- A quarantined slot returns to use with its generation advanced (R252). -/
def doQuarantineEnd (s : State) (n : NodeId) (slot : Nat) : State :=
  let x := s.ni n
  match (x.slot slot).st with
  | .quarantine since => if 983040 * 4 ≤ s.cycle - since then s.setNi n (x.setSlot slot { gen := (x.slot slot).gen + 1, st := .free }) else s
  | _ => s

/-- TXID_QUARANTINE_END (R252). -/
def execTxidQuarantineEnd (node : NodeId) (slot : BitVec 9) (s : State) : Host.Outcome State Fault Refusal := .next (doQuarantineEnd s node slot.toNat)

/-- A RETRY closes its transaction and the gap begins (R254). -/
def doRetryArrival (s : State) (n : NodeId) : State :=
  match takeArrived s n (fun k => k.typ == .retry) with
  | none => s
  | some (k, s0) =>
    let s1 := tallyAdd s0 (niBase n + 0x108) 1
    match openReq (s1.ni n) k with
    | none => tallyAdd s1 (niBase n + 0x118) 1
    | some (i, r, _) =>
      let s2 := tallyAdd (closeSlot s1 n i) (niBase n + 0x120) 1
      let x := s2.ni n
      s2.setNi n { x with retries := x.retries ++ [{ r := r, since := s.cycle }] }

/-- RETRY_ARRIVAL (R254, R260). -/
def execRetryArrival (node : NodeId) (s : State) : Host.Outcome State Fault Refusal := .next (doRetryArrival s node)

/-- The regulator entry that pays for a request; none for register space. -/
def payer (x : Ni) (r : NiReq) : Option Nat := if isRegPa r.addr then none else regFor x r.act

/-- The gap of an initiator's enqueue has ended: it is sent again with a new TXID, timer and charge (R254). -/
def doResend (s : State) (n : NodeId) (ini : Initiator) : State :=
  let x := s.ni n
  match x.retries.findIdx? (fun h => h.r.ini == ini && decide (x.retrygap.toNat * 4 ≤ s.cycle - h.since)) with
  | none => s
  | some i =>
    match x.retries[i]?, x.freeSlot with
    | some h, some k =>
      if canPay x (payer x h.r) h.r then
        inject (s.setNi n { x with retries := removeAt x.retries i }) n (payer x h.r) k { h.r with again := true }
      else s
    | _, _ => s

/-- RETRY_RESEND (R254). -/
def execRetryResend (node : NodeId) (ini : Initiator) (s : State) : Host.Outcome State Fault Refusal := .next (doResend s node ini)

/-! ## Flit errors (R248, R249) -/

/-- The packet that an element sends on a port: its input buffer, index and packet; for an NI the packet on its link to the fabric. -/
def onLink (s : State) (e : Elem) (p : Nat) : Option (Elem × Nat × Nat × Packet) :=
  match e with
  | .ni n =>
    let (f, c) := entryOf n
    match (sget [] (s.elem f).inq c) with
    | k :: _ => some (f, c, 0, k)
    | [] => none
  | _ =>
    (List.range 8).findSome? (fun c =>
      let l := sget [] (s.elem e).inq c
      match l.findIdx? (fun k => outPort e k == p) with
      | some i => (l[i]?).map (fun k => (e, c, i, k))
      | none => none)

/-- A flit fails: a replay, or after the third replay the packet's abort (R248, R249). -/
def doFlitError (s : State) (e : Elem) (p flit : Nat) : State :=
  match onLink s e p with
  | none => s
  | some (f, c, i, k) =>
    if flitsOf k.typ ≤ flit then s
    else
      let x := s.elem e
      let n := sget 0 x.fails (4 * p + flit) + 1
      if n < 4 then
        check (portCount (s.setElem e { x with fails := sput 0 x.fails (4 * p + flit) n }) e p 1 1) (linkSrc e) true (linkDetail e p 1)
      else
        let s1 := s.setElem e { x with fails := sput 0 x.fails (4 * p + flit) 0 }
        let y := s1.elem f
        let s2 := s1.setElem f { y with inq := sput [] y.inq c (removeAt (sget [] y.inq c) i) }
        let s3 := check (portCount s2 e p 2 1) (linkSrc e) true (linkDetail e p 2)
        if typIsReq k.typ then
          match e with
          | .ni nd =>
            match openReq (s3.ni nd) k with
            | some (j, r, _) => iniProgress (deliver (closeSlot s3 nd j) r (Ans.only .replayExhausted)) r.ini
            | none => s3
          | _ => sendSynth s3 e c k .replayExhausted
        else portCount s3 e p 4 1

/-- LINK_FLIT_ERROR (R248, R249). -/
def execLinkFlitError (el : Elem) (port : BitVec 3) (flit : BitVec 2) (s : State) : Host.Outcome State Fault Refusal :=
  .next (doFlitError s el port.toNat flit.toNat)

/-! ## Port control and tables (R255, R256, R259) -/

/-- The element has a port block in the register map (R263, R264). -/
def hasPortBlock : Elem → Bool
  | .gwHub _ | .ni _ => false
  | _ => true

/-- FAB_RPp_CTL written (R256). -/
def rpCtlWrite (s : State) (e : Elem) (p : Nat) (v : Word) : Outc × State :=
  let x := (s.elem e).port p
  let st := bits v.toNat 0 2
  if portPresent e p = false ∨ portLocked s e p = true then (.notPermitted, s)
  else
    match x.state.toNat, st with
    | 0, 1 => (.ok, s.setRPort e p { x with state := 1, depoch := v.getLsbD 2, pend := false })
    | 1, 0 => (.ok, s.setRPort e p { x with state := 0, pend := false })
    | 1, 2 =>
      if sget [] (s.elem e).outq p = [] then (.ok, s.setRPort e p { x with state := 2, pend := false })
      else (.ok, s.setRPort e p { x with pend := true })
    | 2, 0 => (.ok, s.setRPort e p { x with state := 0 })
    | _, _ => (.notPermitted, s)

/-- A write of a port's FAB_RPp_CTL. -/
def rpCmd (s : State) (who : Initiator) (e : Elem) (p : BitVec 3) (v : Word) : State :=
  if hasPortBlock e then regCmd s who (elemBase e + 0x40 * p.toNat) (fun t => wrAnswer (rpCtlWrite t e p.toNat v)) else s

/-- PORT_DRAIN (R256). -/
def execPortDrain (who : Initiator) (el : Elem) (port : BitVec 3) (depoch : Bool) (s : State) : Host.Outcome State Fault Refusal :=
  .next (rpCmd s who el port (BitVec.ofNat 32 (1 + 4 * b2n depoch)))
/-- PORT_DISABLE (R256). -/
def execPortDisable (who : Initiator) (el : Elem) (port : BitVec 3) (s : State) : Host.Outcome State Fault Refusal :=
  .next (rpCmd s who el port 2)
/-- PORT_ENABLE (R256). -/
def execPortEnable (who : Initiator) (el : Elem) (port : BitVec 3) (s : State) : Host.Outcome State Fault Refusal :=
  .next (rpCmd s who el port 0)

/-- The packets in an output buffer go on. -/
def flushPort (s : State) (e : Elem) (p : Nat) : State :=
  let x := s.elem e
  (sget [] x.outq p).foldl (fun t k => sendTo t (hop e p) k) (s.setElem e { x with outq := sput [] x.outq p [] })

/-- A draining port with PEND empties its buffers and is DISABLED (R256). -/
def doDrainDone (s : State) (e : Elem) (p : Nat) : State :=
  let x := (s.elem e).port p
  if x.state = 1 ∧ x.pend = true then (flushPort s e p).setRPort e p { x with state := 2, pend := false } else s

/-- PORT_DRAIN_COMPLETE (R256). -/
def execPortDrainComplete (el : Elem) (port : BitVec 3) (s : State) : Host.Outcome State Fault Refusal := .next (doDrainDone s el port.toNat)

/-- FAB_NICTL written: SWAP exchanges the tables (R259). -/
def swapTables (s : State) (n : NodeId) (v : Word) : State :=
  let x := s.ni n
  if v.getLsbD 0 ∧ nodeInitiates n = true then s.setNi n { x with staging := x.active, active := x.staging } else s

/-- ROUTE_TABLE_SWAP: a write of FAB_NICTL.SWAP = 1 (R259). -/
def execRouteTableSwap (who : Initiator) (node : NodeId) (s : State) : Host.Outcome State Fault Refusal :=
  .next (if nodeListed node then regCmd s who (niBase node + 0xC) (fun t => wrAnswer (.ok, swapTables t node 1)) else s)

/-! ## Registers (R262 to R264) -/

/-- A route table entry as read. -/
def rtWord (e : RtEntry) : List (Nat × Nat) := [(24, e.route.toNat), (1, b2n e.epoch), (1, b2n e.valid)]
/-- Open transactions of an NI with an epoch. -/
def openCount (x : Ni) (e : Bool) : Nat := (x.slots.filter (fun p => match p.2.st with | .opened r _ => r.epoch == e | _ => false)).length
/-- TXID slots of an NI in quarantine. -/
def quarCount (x : Ni) : Nat := (x.slots.filter (fun p => match p.2.st with | .quarantine _ => true | _ => false)).length

/-- A read in an NI block, port block apart. -/
def niRead (s : State) (n : NodeId) (off : Nat) : RdAns :=
  let x := s.ni n
  let live := nodeInitiates n
  let pk := fun (l : List (Nat × Nat)) => if live then rdPack s l else rdVal s 0
  if off = 0 then rdPack s [(8, n.toNat), (3, if n.toNat < 64 then n.toNat / 16 else 4), (5, 0), (4, 1)]
  else if off = 4 then rdPack s [(4, x.statsel.toNat), (5, x.hscale.toNat), (7, 0), (16, x.retrygap.toNat)]
  else if off = 8 then pk [(10, x.tmo.toNat)]
  else if off = 0xC then rdVal s 0
  else if off = 0x10 then pk [(10, openCount x false), (6, 0), (10, openCount x true)]
  else if off = 0x14 then pk [(10, quarCount x)]
  else if inTal off 0x100 7 ∨ inTal off 0x180 16 then talRead s (niBase n) off
  else
    match copyOf off 0x400 4 256, copyOf off 0x800 4 256, copyOf off 0x1000 0x10 64 with
    | some (k, _), _, _ => pk (rtWord (get (defaultRt n) x.staging k))
    | none, some (k, _), _ => pk (rtWord (get (defaultRt n) x.active k))
    | none, none, some (k, o) =>
      let r := x.reg k
      if o = 0 then pk [(9, r.act.toNat), (1, b2n r.en), (1, b2n r.tc)]
      else if o = 4 then pk [(14, r.rate.toNat), (2, 0), (16, r.burst.toNat)]
      else if live then tallyRead s (niBase n + off / 8 * 8) (o == 0xC) else rdVal s 0
    | none, none, none => none

/-- A write in an NI block, port block apart. -/
def niWrite (s : State) (n : NodeId) (off : Nat) (v : Word) : WrAns :=
  let x := s.ni n
  let live := nodeInitiates n
  let set := fun (y : Ni) => if live then wrOk (s.setNi n y) else wrOk s
  if off = 4 then
    let st : BitVec 4 := slice v 0 4
    let bad := if n.toNat < 64 then st == 13 || st == 14 else st != 15
    wrOk (s.setNi n { x with statsel := keepIf bad x.statsel st, hscale := keepIf (decide (16 < bits v.toNat 4 5)) x.hscale (slice v 4 5),
                             retrygap := keepIf (decide (bits v.toNat 16 16 = 0)) x.retrygap (slice v 16 16) })
  else if off = 8 then set { x with tmo := keepIf (decide (bits v.toNat 0 10 = 0 ∨ 1000 < bits v.toNat 0 10)) x.tmo (slice v 0 10) }
  else if off = 0xC then wrOk (swapTables s n v)
  else if off = 0 ∨ off = 0x10 ∨ off = 0x14 ∨ inTal off 0x100 7 = true ∨ inTal off 0x180 16 = true then wrOk s
  else
    match copyOf off 0x400 4 256, copyOf off 0x800 4 256, copyOf off 0x1000 0x10 64 with
    | some (k, _), _, _ =>
      set { x with staging := put (defaultRt n) x.staging k { route := slice v 0 24, epoch := v.getLsbD 24, valid := v.getLsbD 25 } }
    | none, some _, _ => wrOk s
    | none, none, some (k, o) =>
      let r := x.reg k
      if o = 0 then (if live then some (regCfgWrite s n k v) else wrOk s)
      else if o = 4 then
        let b := keepIf (decide (bits v.toNat 16 16 < 5)) r.burst (slice v 16 16)
        set (x.setReg k { r with rate := slice v 0 14, burst := b, bucket := min r.bucket (b.toNat * 4096) })
      else wrOk s
    | none, none, none => none

/-- A read in a port block (R263). -/
def rpRead (s : State) (e : Elem) (off : Nat) : RdAns :=
  let p := off / 0x40
  let o := off % 0x40
  let x := (s.elem e).port p
  if off < 0x200 then
    if o = 0 then (if portPresent e p then rdPack s [(2, portState s e p), (1, b2n x.depoch)] else rdVal s 2)
    else if o = 4 then (if portPresent e p then rdPack s [(1, 1), (1, b2n x.pend), (1, b2n (portLocked s e p))] else rdVal s 0)
    else if inTal o 8 6 then talRead s (elemBase e) off
    else none
  else none

/-- A write in a port block (R263). -/
def rpWrite (s : State) (e : Elem) (off : Nat) (v : Word) : WrAns :=
  let p := off / 0x40
  let o := off % 0x40
  if off < 0x200 ∧ (o = 0 ∨ o = 4 ∨ inTal o 8 6 = true) then
    if portPresent e p = false then wrNo s else if o = 0 then some (rpCtlWrite s e p v) else wrOk s
  else none

/-- What stands at an offset of the hub FAB block (R264). -/
inductive HubFab where
  | ni (n : NodeId)
  | rp (e : Elem)
  | empty
  | out
  deriving DecidableEq, Repr

/-- The hub FAB block: block and offset in it. -/
def hubFab (off : Nat) : HubFab × Nat :=
  let o := off % 0x4000
  if off < 0x58000 then
    let n : NodeId := BitVec.ofNat 8 (0x80 + off / 0x4000)
    (if nodeListed n then .ni n else .empty, o)
  else if 0x80000 ≤ off ∧ off < 0x84000 then (.rp .h0, o)
  else if 0x84000 ≤ off ∧ off < 0x88000 then (.rp .h1, o)
  else if 0x90000 ≤ off ∧ off < 0xA0000 then (.rp (.gwDie (BitVec.ofNat 2 ((off - 0x90000) / 0x4000))), o)
  else (.out, o)

/-- A read in the hub FAB block. -/
def hubFabRead (s : State) (off : Nat) : RdAns :=
  match hubFab off with
  | (.ni n, o) => niRead s n o
  | (.rp e, o) => rpRead s e o
  | (.empty, _) => rdVal s 0
  | (.out, _) => none
/-- A write in the hub FAB block. -/
def hubFabWrite (s : State) (off : Nat) (v : Word) : WrAns :=
  match hubFab off with
  | (.ni n, o) => niWrite s n o v
  | (.rp e, o) => rpWrite s e o v
  | (.empty, _) => wrOk s
  | (.out, _) => none
/-- A read in a cluster's FAB window. -/
def cluFabRead (s : State) (gc : ClusterId) (off : Nat) : RdAns :=
  if off < 0x2000 then niRead s (clusterNode gc) off else if off < 0x2200 then rpRead s (.mesh gc) (off - 0x2000) else none
/-- A write in a cluster's FAB window. -/
def cluFabWrite (s : State) (gc : ClusterId) (off : Nat) (v : Word) : WrAns :=
  if off < 0x2000 then niWrite s (clusterNode gc) off v else if off < 0x2200 then rpWrite s (.mesh gc) (off - 0x2000) v else none

end Sys2Proof.Machine
end

