-- ==== Sys2Proof/Machine/HostCore.lean ====
section
/-! DEFINITION. The host interface without its command opcodes: rings, entries, MSI-X, doorbells, descriptors, the outbound translation
and the HIF registers (R265 to R278, R281 to R287, R291 to R295, R488). -/

namespace Sys2Proof.Machine

/-- Base of the HIF block. -/
def hifBase : Nat := hubBlk 1
/-- HIF counter i: 0 CMD, 1 CMDERR, 2 DBBAD, 3 CFGERR, 4 EVLOST, 5 CQSTALL, 6 CQDROP, 7 MMIOERR. -/
def hifCount (s : State) (i n : Nat) : State := tallyAdd s (hifTal + 8 * i) n

/-! ## MSI-X (R269, R286; log 19) -/

/-- The vectors of two functions overlap. -/
def blocksMeet (x y : HostFn) : Bool :=
  decide (x.vbase.toNat < y.vbase.toNat + y.vcount.toNat ∧ y.vbase.toNat < x.vbase.toNat + x.vcount.toNat)
/-- A function is enabled: the PF always, a VF with its Bus Master Enable. -/
def fnEnabled (s : State) (fn : BitVec 6) : Bool := fn == 0 || (s.hostFn fn).bme
/-- A VF's vector block is empty or overlaps that of another enabled function. -/
def msixBad (s : State) (fn : BitVec 6) : Bool :=
  fn != 0 && ((s.hostFn fn).vcount == 0 || (List.range 33).any (fun i =>
    let m := BitVec.ofNat 6 i
    m != fn && fnEnabled s m && blocksMeet (s.hostFn fn) (s.hostFn m)))

/-- Word w of MSI-X table entry vec of a function; a vector is masked until its control word is written (PCI Express, log 6). -/
def msixKey (fn : BitVec 6) (vec w : Nat) : Nat := fn.toNat * 8192 + 4 * vec + w
/-- The table word at reset. -/
def msixDflt (k : Nat) : Word := if k % 4 = 3 then 1 else 0
/-- A word of the MSI-X table. -/
def msixWord (s : State) (fn : BitVec 6) (vec w : Nat) : Word := get msixDflt s.hif.msixTable (msixKey fn vec w)

/-- A vector can be sent now: its function's Bus Master Enable is set and the vector is not masked. -/
def msixOpen (s : State) (fn : BitVec 6) (vec : Nat) : Bool := (s.hostFn fn).bme && !(msixWord s fn vec 3).getLsbD 0

/-- The message write of a vector. -/
def msixSend (s : State) (fn : BitVec 6) (vec : Nat) : State :=
  let a := (msixWord s fn vec 0).toNat + 2 ^ 32 * (msixWord s fn vec 1).toNat
  let t := s.hostBytes a (bytesOfNat 4 (msixWord s fn vec 2).toNat)
  { t with hif := { t.hif with msix := t.hif.msix ++ [{ fn := fn, vec := BitVec.ofNat 11 vec }] } }

/-- Signals a vector: withheld with MSIXERR from a VF with a bad block, pending while it is blocked. -/
def msixSignal (s : State) (fn : BitVec 6) (vec : Nat) : State :=
  if msixBad s fn then { s with hif := { s.hif with msixerr := true } }
  else if (s.hostFn fn).vcount.toNat ≤ vec then s
  else if msixOpen s fn vec then msixSend s fn vec
  else { s with hif := { s.hif with pba := sput false s.hif.pba (fn.toNat * 2048 + vec) true } }

/-- Pending vectors that can be sent now are sent. -/
def msixRelease (s : State) : State :=
  s.hif.pba.foldl (fun t p =>
    let fn := BitVec.ofNat 6 (p.1 / 2048)
    if msixOpen t fn (p.1 % 2048) then
      let u := msixSend t fn (p.1 % 2048)
      { u with hif := { u.hif with pba := sput false u.hif.pba p.1 false } }
    else t) s

/-- A write of an MSI-X table word. -/
def msixTableWrite (s : State) (fn : BitVec 6) (word : Nat) (v : Word) : State :=
  msixRelease { s with hif := { s.hif with msixTable := put msixDflt s.hif.msixTable (fn.toNat * 8192 + word) v } }

/-- A 32-bit word of a function's pending-bit array. -/
def pbaWord (s : State) (fn : BitVec 6) (i : Nat) : Word :=
  BitVec.ofNat 32 (packLE ((List.range 32).map (fun b => (1, b2n (sget false s.hif.pba (fn.toNat * 2048 + 32 * i + b))))))

/-! ## Rings (R270, R282, R285 to R287, R292 to R294) -/

/-- Entries of a ring. -/
def Ring.size (r : Ring) : Nat := 2 ^ r.logsz.toNat
/-- Entries that stand in a ring. -/
def Ring.count (r : Ring) : Nat := (r.pi - r.ci).toNat
/-- Host address of slot 0. -/
def Ring.base (r : Ring) : Nat := r.baselo.toNat + 2 ^ 32 * r.basehi.toNat
/-- Bytes of an entry. -/
def Ring.entry (r : Ring) : Nat := if r.typ = 0 then 64 else 32

/-- A completion ring is held: full, or its function has Bus Master Enable 0 (R287). -/
def ringHeld (s : State) (n : RingId) : Bool :=
  (s.ring n).st == .active && (decide ((s.ring n).size ≤ (s.ring n).count) || !(s.hostFn (s.ring n).fn).bme)

/-- A command ring's reading is stopped by a TASK_SUBMIT that was answered RETRY (R287). -/
def ringRetry (s : State) (n : RingId) : Bool := s.hif.cmds.any (fun c => c.ring == n && c.retried && !c.orphan)

/-- HIF_RINGn_STAT.HELD (R287). -/
def heldBit (s : State) (n : RingId) : Bool :=
  if (s.ring n).typ = 0 then (s.ring n).st == .active && (ringHeld s (s.ring n).cring || ringRetry s n) else ringHeld s n

/-- The interrupt of a ring: signalled once while armed (R286). -/
def ringSignal (s : State) (n : RingId) : State :=
  let r := s.ring n
  if r.inten ∧ r.armed then msixSignal (s.setRing n { r with armed := false }) r.fn r.vec.toNat else s

/-- PHASE of the entry that a ring writes next (R282). -/
def Ring.phase (r : Ring) : Bool := (r.pi - r.p0).toNat / r.size % 2 == 0

/-- The device writes an entry into its ring (R282, R286). -/
def putEntry (s : State) (n : RingId) (e : Entry) : State :=
  let r := s.ring n
  let v := e.toNat - bits e.toNat 7 1 * 128 + b2n r.phase * 128
  ringSignal ((s.hostBytes (r.base + r.pi.toNat % r.size * 32) (bytesOfNat 32 v)).setRing n { r with pi := r.pi + 1 }) n

/-- The command ring of a completion entry (R281). -/
def entryRing (e : Entry) : RingId := slice e 64 12

/-- A ring leaves ACTIVE: completions that concern it are discarded and counted, its commands become orphans (R287, R293, R294). -/
def ringLeave (s : State) (n : RingId) : State :=
  let own := (s.ring n).waiting.length
  let s1 := s.setRing n { s.ring n with waiting := [] }
  let s2 := s1.hif.rings.foldl (fun (t : State × Nat) p =>
    let m : RingId := BitVec.ofNat 12 p.1
    let r := t.1.ring m
    let keep := r.waiting.filter (fun e => entryRing e != n)
    (t.1.setRing m { r with waiting := keep }, t.2 + (r.waiting.length - keep.length))) (s1, own)
  let s3 := { s2.1 with hif := { s2.1.hif with cmds := s2.1.hif.cmds.map (fun c => if c.ring = n then { c with orphan := true } else c) } }
  hifCount s3 6 s2.2

/-- A ring goes to ERROR with a cause: 1 BADINDEX, 2 FETCH, 3 WRITE; a RING_ERROR event, whose DETAIL the specification does not lay out
(free, log 9), and a report (R273, R292, R293, R508). -/
def ringError (s : State) (n : RingId) (c : BitVec 3) : State :=
  if (s.ring n).st = .active then
    let s1 := ringLeave s n
    let (k, s2) := takeFree (s1.setRing n { s1.ring n with st := .error, cause := c })
    let d : Word := BitVec.ofNat 32 (packLE [(12, n.toNat), (3, c.toNat)])
    report (pushEvent s2 6 (srcHub 0) 0 0 ((Config.free512 k).toNat % 2 ^ 64)) (srcHub 0) d
  else s

/-- A ring is enabled (R293): PI, CI and P0 from START; CAUSE is cleared. -/
def ringOn (s : State) (n : RingId) : State :=
  let r := s.ring n
  s.setRing n { r with en := true, st := .active, pi := r.start, ci := r.start, p0 := r.start, cause := 0 }

/-- A ring is disabled (R293). -/
def ringOff (s : State) (n : RingId) : State :=
  let s1 := if (s.ring n).st = .active then ringLeave s n else s
  s1.setRing n { s1.ring n with en := false, st := .disabled }

/-- The fields of a ring's CFG are valid for an enable: BASE aligned, the activity range within the owner's (R270, R271). -/
def ringValid (s : State) (r : Ring) : Bool :=
  let f := s.hostFn r.fn
  decide (r.base % min (r.size * r.entry) 4096 = 0) && decide (r.actlo.toNat ≤ r.acthi.toNat ∧ f.actlo.toNat ≤ r.actlo.toNat ∧
    r.acthi.toNat ≤ f.acthi.toNat)

/-- A write with a reserved encoding is counted in HIF_TAL_CFGERR (R12, R33). -/
def hifRsv (bad : Bool) (s : State) : State := if bad then hifCount s 3 1 else s

/-- HIF_RINGn_CFG written (R293, R295): reserved TYPE, LOGSZ and FN leave their fields; an enable with fields that are not valid changes
nothing (log 20). -/
def ringCfgWrite (s : State) (n : RingId) (v : Word) : Outc × State :=
  let r := s.ring n
  let bt := slice v 1 2 == (3 : BitVec 2)
  let bl := decide (bits v.toNat 3 5 < 6 ∨ 16 < bits v.toNat 3 5)
  let bf := decide (32 < bits v.toNat 9 6)
  let x := { r with typ := keepIf bt r.typ (slice v 1 2), logsz := keepIf bl r.logsz (slice v 3 5), inten := v.getLsbD 8,
                    fn := keepIf bf r.fn (slice v 9 6), vec := slice v 16 11 }
  if r.st ≠ .disabled then
    if { x with inten := r.inten } ≠ r then (.notPermitted, s)
    else
      let s1 := hifRsv (bt || bl || bf) (s.setRing n x)
      (.ok, if v.getLsbD 0 then s1 else ringOff s1 n)
  else if v.getLsbD 0 then
    if ringValid s x then (.ok, ringOn (hifRsv (bt || bl || bf) (s.setRing n x)) n) else (.notPermitted, s)
  else (.ok, hifRsv (bt || bl || bf) (s.setRing n x))

/-! ## Doorbells (R266, R271 to R274, R286) -/

/-- A doorbell to an ACTIVE ring acts: index check, new index, ARM (R272, R273, R286). -/
def ringDoorbell (s : State) (n : RingId) (v : BitVec 64) : State :=
  let r := s.ring n
  let i : Word := slice v 0 32
  let arm := v.getLsbD 32
  if r.st ≠ .active then hifCount s 2 1
  else if r.typ = 0 then
    if r.size < (i - r.ci).toNat ∨ 2 ^ 31 ≤ (i - r.pi).toNat then ringError s n 1 else s.setRing n { r with pi := i }
  else if 2 ^ 31 ≤ (i - r.ci).toNat ∨ 2 ^ 31 ≤ (r.pi - i).toNat then ringError s n 1
  else
    let s1 := s.setRing n { r with ci := i, armed := r.armed || arm }
    if arm ∧ r.pi ≠ i then ringSignal s1 n else s1

/-- A doorbell write that acts on a ring: 8 bytes, aligned, after READY, to an ACTIVE ring that the function may ring. -/
def doorbellOk (s : State) (fn : BitVec 6) (off size : Nat) : Bool :=
  let r := s.ring (BitVec.ofNat 12 (off / 8))
  size == 8 && off % 8 == 0 && s.hif.ready && r.st == .active && (fn == 0 || r.fn == fn)

/-- Doorbells that waited for a wake of the package act in their order (R446). -/
def doorbellsRun (s : State) : State :=
  let l := s.lmp.doorbells
  l.foldl (fun t d =>
    if doorbellOk t d.1 d.2.1.toNat d.2.2.1 then ringDoorbell t (BitVec.ofNat 12 (d.2.1.toNat / 8)) d.2.2.2 else hifCount t 2 1)
    { s with lmp := { s.lmp with doorbells := [] } }

/-! ## Commands (R274 to R278, R427) -/

/-- The fields of a descriptor by opcode, as (first bit, width) (R276, R278). -/
def descFields (op : Nat) : Option (List (Nat × Nat)) :=
  match op with
  | 0x01 => some [(64, 16), (128, 256)]
  | 0x02 => some [(64, 16), (96, 32)]
  | 0x03 => some [(64, 44), (128, 44), (192, 32)]
  | 0x04 => some [(64, 44), (128, 44), (192, 16)]
  | 0x08 => some [(64, 8), (72, 1), (80, 16), (128, 44)]
  | 0x09 => some [(64, 8), (72, 3), (79, 1), (80, 16), (96, 8), (104, 1)]
  | 0x10 => some [(64, 8), (72, 8), (80, 16)]
  | 0x11 => some [(64, 8), (72, 6), (96, 192)]
  | 0x18 => some [(64, 8), (72, 8), (80, 16), (128, 384)]
  | 0x19 => some []
  | 0x1A => some [(64, 16), (80, 8), (128, 44), (192, 32)]
  | 0x20 => some [(64, 8), (72, 8), (128, 96), (224, 32), (256, 44)]
  | 0x28 => some [(64, 8), (72, 8), (80, 16), (128, 44), (192, 32), (224, 8)]
  | 0x30 => some [(64, 16), (80, 8)]
  | 0x31 => some [(64, 16), (128, 44)]
  | 0x3F => some []
  | _ => none

/-- The bits of a field list. -/
def fieldMask (l : List (Nat × Nat)) : Nat := l.foldl (fun m p => m ||| (2 ^ p.2 - 1) * 2 ^ p.1) 0

/-- A field of a descriptor: n bytes from byte o. -/
def dF (d : Block64) (o n : Nat) : Nat := bits d.toNat (8 * o) (8 * n)
/-- OPCODE of a descriptor. -/
def dOp (d : Block64) : Nat := dF d 0 1
/-- ACT of a descriptor. -/
def dAct (d : Block64) : ActId := slice d 16 9
/-- ORDERED of a descriptor. -/
def dOrdered (d : Block64) : Bool := d.getLsbD 9

/-- Check 2 of R277: the opcode is defined and its reserved fields are 0. -/
def descDefined (d : Block64) : Bool :=
  match descFields (dOp d) with
  | none => false
  | some l => d.toNat &&& fieldMask ([(0, 10), (16, 9), (32, 32)] ++ l) == d.toNat

/-- Opcodes that only the PF may use (R277). -/
def pfOnly (d : Block64) : Bool :=
  let op := dOp d
  op == 0x08 || op == 0x09 || op == 0x10 || op == 0x19 || (op == 0x20 && dF d 8 1 != 0) || op == 0x28 || op == 0x30

/-- Check 3 of R277. -/
def descAllowed (s : State) (ring : RingId) (d : Block64) : Bool :=
  let r := s.ring ring
  let a := (dAct d).toNat
  let f := s.hostFn r.fn
  decide (r.actlo.toNat ≤ a ∧ a ≤ r.acthi.toNat) &&
    (r.fn == 0 || (!pfOnly d && (dOp d != 0x11 || decide (f.actlo.toNat ≤ a ∧ a ≤ f.acthi.toNat))))

/-- The commands that safe state does not refuse (R427). -/
def safeCmd (d : Block64) : Bool := dOp d == 0x31 || dOp d == 0x1A || dOp d == 0x3F || (dOp d == 0x20 && dF d 8 1 == 0)

/-- What ends a command before its own checks: safe state, then checks 2 and 3 of R277. -/
def cmdCheck (s : State) (c : Cmd) : Option Outc :=
  if s.asy.safe ∧ safeCmd c.desc = false then some .refused
  else if descDefined c.desc = false then some .badDescriptor
  else if descAllowed s c.ring c.desc = false then some .notPermitted
  else none

/-- Commands of the same ring that were accepted before one. -/
def earlierCmds (l : List Cmd) (c : Cmd) : List Cmd := (l.takeWhile (fun x => !(x.ring == c.ring && x.idx == c.idx))).filter (fun x => x.ring == c.ring)

/-- A command may start now: every earlier one of its ring has started, no FENCE waits before it, and with ORDERED none is left (R275). -/
def startable (s : State) (c : Cmd) : Bool :=
  let e := earlierCmds s.hif.cmds c
  e.all (fun x => x.phase == .running && dOp x.desc != 0x3F) && (!(dOrdered c.desc || dOp c.desc == 0x3F) || e.isEmpty)

/-- No row of the command table takes the descriptor: an undefined opcode, SUBOP or STATE. -/
def noRow (d : Block64) : Bool :=
  let op := dOp d
  (descFields op).isNone || ((op == 0x20 || op == 0x28 || op == 0x10) && decide (4 < (if op = 0x10 then dF d 9 1 else dF d 8 1)))

/-- Startable commands that no row takes complete with what their checks give, BAD_DESCRIPTOR at the latest (R277, R437). -/
def settleCmds (s : State) : State :=
  s.hif.cmds.foldl (fun t c =>
    if noRow c.desc ∧ c.phase = .accepted ∧ startable t c = true then completeOk t c.ring c.idx ((cmdCheck t c).getD .badDescriptor) else t) s

/-- The host can reach the device: the link is up and the package is not in DEEP (R446, R461). -/
def hostReach (s : State) : Bool := s.hif.linkUp && !s.hif.perst && !s.mgc.porst && s.lmp.pkg != .deep

/-- The HIF has agreed to a power transaction and takes no new work (R441, R442). -/
def hifHolds (s : State) : Bool :=
  match s.lmp.tx with
  | some t => t.agreed.contains .hif
  | none => false

/-- A ring whose next descriptor the HIF may read (R274, R277 check 1, R287). -/
def ringReady (s : State) (n : RingId) : Bool :=
  let r := s.ring n
  let c := s.ring r.cring
  r.st == .active && r.typ == 0 && decide (0 < r.count) && c.st == .active && c.typ == 1 && !ringHeld s r.cring && !ringRetry s n

/-- The ring whose turn it is, round-robin after the one served last (R275). -/
def nextRing (s : State) : Option RingId :=
  let l := (s.hif.rings.map (fun p => (BitVec.ofNat 12 p.1 : RingId))).filter (ringReady s)
  match (l.map (fun n => (n - s.hif.rr - 1).toNat)).min? with
  | some d => some (s.hif.rr + 1 + BitVec.ofNat 12 d)
  | none => none

/-- DESCRIPTOR_FETCH: the ring whose turn it is gives one descriptor; a failed read is FETCH (R274, R275, R292). -/
def doFetch (s : State) (n : RingId) (cpl : PcieCpl) : State :=
  let r := s.ring n
  if s.hif.ringen = false ∨ s.hif.ready = false ∨ hostReach s = false ∨ hifHolds s = true ∨ nextRing s ≠ some n then s
  else if (s.hostFn r.fn).bme = false then ringError s n 2
  else
    match cpl with
    | .success d =>
      let c : Cmd := { ring := n, idx := r.ci, desc := BitVec.ofNat 512 (natOfBytes (d.take 64)), phase := .accepted, retried := false,
                       orphan := false }
      let s1 := s.setRing n { r with ci := r.ci + 1 }
      settleCmds { s1 with hif := { s1.hif with rr := n, cmds := s1.hif.cmds ++ [c] } }
    | _ => ringError s n 2

/-- Runs a command of a row: the descriptor is the row's, the command may start, and no check ends it (R275, R277, R427). -/
def runCmd (s : State) (ring : RingId) (idx : Word) (row : Block64 → Bool) (eff : State → Block64 → State) : State :=
  match s.cmd ring idx with
  | none => s
  | some c =>
    if row c.desc = false ∨ c.phase ≠ .accepted ∨ startable s c = false then s
    else
      settleCmds (match cmdCheck s c with
        | some o => completeOk s ring idx o
        | none => eff s c.desc)

/-- A started command that completes later. -/
def cmdRunning (s : State) (ring : RingId) (idx : Word) : State :=
  { s with hif := { s.hif with cmds := s.hif.cmds.map (fun c => if c.ring = ring ∧ c.idx = idx then { c with phase := .running } else c) } }

/-! ## Writing entries (R282 to R287) -/

/-- COMPLETION_WRITE: the oldest completion that waits for a ring with space; a failed write is WRITE. -/
def doComplWrite (s : State) (n : RingId) (ok : Bool) : State :=
  let r := s.ring n
  match r.waiting with
  | [] => s
  | e :: rest =>
    if r.typ ≠ 1 ∨ s.ringTakes n = false ∨ hostReach s = false then s
    else if ok then putEntry (s.setRing n { r with waiting := rest }) n e
    else ringError s n 3

/-- SOURCE_QUEUE_FORWARD: an entry of the SOFTWARE queue that feeds a completion ring (R283). -/
def doSrcForward (s : State) (n : RingId) (ok : Bool) : State :=
  let r := s.ring n
  if r.typ ≠ 1 ∨ s.ringTakes n = false ∨ r.srcq = 0 ∨ r.waiting ≠ [] ∨ hostReach s = false then s
  else
    match queueWay s 0x90 r.srcq with
    | (.answer _, _) => s
    | (.hold u, _) => holdWhole s u
    | (.pass, _) =>
      let (a, t) := dequeue s r.srcq
      if a.outc ≠ .ok ∨ a.data.all (fun b => b == 0) = true then t
      else if ok then putEntry t n (BitVec.ofNat 256 (natOfBytes a.data))
      else hifCount (ringError t n 3) 6 1

/-- The first event for a ring, and the others. -/
def takeEvent : List EvEnt → RingId → Option (Entry × List EvEnt)
  | [], _ => none
  | x :: rest, n => if x.ring = n then some (x.e, rest) else (takeEvent rest n).map (fun p => (p.1, x :: p.2))

/-- EVENT_WRITE: the oldest event for a ring with space, with OVERFLOW and LOST (R284, R285). -/
def doEventWrite (s : State) (n : RingId) (ok : Bool) : State :=
  let r := s.ring n
  match takeEvent s.hif.events n with
  | none => s
  | some (e, rest) =>
    if r.typ ≠ 2 ∨ s.ringTakes n = false ∨ hostReach s = false then s
    else if ok then
      let e1 : Entry := BitVec.ofNat 256 (e.toNat + b2n (r.lost != 0) * 2 ^ 152 + r.lost.toNat * 2 ^ 160)
      let s1 := s.setRing n { r with lost := 0 }
      putEntry { s1 with hif := { s1.hif with events := rest } } n e1
    else ringError s n 3

/-! ## Functions (R266, R461) -/

/-- An FLR: the function's rings are DISABLED; of the PF every ring (R266). -/
def flr (s : State) (fn : BitVec 6) : State :=
  s.hif.rings.foldl (fun t p =>
    let n : RingId := BitVec.ofNat 12 p.1
    if (fn = 0 ∨ (t.ring n).fn = fn) ∧ (t.ring n).st ≠ .disabled then ringOff t n else t) s

/-- Bus Master Enable changes: pending messages go out; a VF enabled with a bad vector block sets MSIXERR (R266, R269). -/
def setBme (s : State) (fn : BitVec 6) (on : Bool) : State :=
  if 32 < fn.toNat then s
  else
    let s1 := s.setHostFn fn { s.hostFn fn with bme := on }
    let s2 := if on ∧ msixBad s1 fn = true then { s1 with hif := { s1.hif with msixerr := true } } else s1
    msixRelease s2

/-! ## Outbound translation (R291, R292) -/

/-- The host address of a host-range offset for an activity, or the outcome that refuses it (R266, R291). -/
def hostXlate (s : State) (off : Nat) (act : ActId) : Except Outc Nat :=
  let e := sget Ott.reset s.hif.ott (off / 0x40000000)
  let f := s.hostFn e.fn
  if e.valid = false then .error .routeFault
  else if act.toNat < f.actlo.toNat ∨ f.acthi.toNat < act.toNat ∨ f.bme = false then .error .notPermitted
  else .ok (e.haddr.toNat % 2 ^ 32 * 2 ^ 30 + off % 0x40000000)

/-- The parts of an access to the host range, cut at translation entries (R291). -/
def hostParts : Nat → Nat → Nat → List (Nat × Nat)
  | 0, _, _ => []
  | fuel + 1, off, n =>
    if n = 0 then []
    else
      let k := min n (0x40000000 - off % 0x40000000)
      (off, k) :: hostParts fuel (off + k) (n - k)

/-- A tag is free: at most 512 reads are outstanding (R265). -/
def freeTag (s : State) : Option Nat := (List.range 512).find? (fun i => (sget none s.hif.reads i).isNone)

/-- One part of a device write to host memory. -/
def hostWrite1 (s : State) (off : Nat) (d : List (Option Byte)) (act : ActId) : Outc × State :=
  match hostXlate s off act with
  | .error o => (o, s)
  | .ok a =>
    (.ok, (List.range d.length).foldl (fun t i =>
      match optAt d i with
      | some b => t.hostBytes (a + i) [b]
      | none => t) s)

/-- A device write to host memory, part by part; the first outcome other than OK is the answer (R291). -/
def hostWrite (s : State) (off : Nat) (d : List (Option Byte)) (act : ActId) : Outc × State :=
  (hostParts (d.length / 0x40000000 + 2) off d.length).foldl (fun (x : Outc × State) p =>
    let y := hostWrite1 x.2 p.1 ((d.drop (p.1 - off)).take p.2) act
    (if x.1 = .ok then y.1 else x.1, y.2)) (.ok, s)

/-- One part of a device read of host memory: refused, or outstanding under a tag; none while no tag is free. -/
def hostRead1 (s : State) (ini : Initiator) (pkt : Option Packet) (off n : Nat) (act : ActId) : Option (Outc × State) :=
  match hostXlate s off act with
  | .error o => some (o, s)
  | .ok a =>
    match freeTag s with
    | none => none
    | some t =>
      let r : HostRead := { ini := ini, pkt := pkt, haddr := a, len := n, since := s.cycle }
      some (.ok, { s with hif := { s.hif with reads := sput none s.hif.reads t (some r) } })

/-- The completion timeout of HIF_CTL.CTO in root cycles (R292). -/
def ctoCycles (s : State) : Nat := (if s.hif.cto = 3 then 1 else if s.hif.cto = 7 then 50 else 10) * 3932160

/-- The answer that a PCIe completion maps to (R292). -/
def cplAns (n : Nat) : PcieCpl → Ans
  | .success d => { outc := .ok, flags := 0, data := fitBytes n d, poison := [] }
  | .unsupported => Ans.only .routeFault
  | .abort => Ans.only .notPermitted
  | .poisoned d => { outc := .uncorrectable, flags := 0, data := fitBytes n d, poison := List.replicate (n / 2) true }
  | .timeout => Ans.only .timeout

/-! ## Registers (R295, R488) -/

/-- A read in the HIF block. -/
def hifRead (s : State) (off : Nat) : RdAns :=
  let h := s.hif
  if off = 0 then rdVal s 0x00010000
  else if off = 4 then rdPack s [(1, b2n h.ringen), (3, 0), (4, h.cto.toNat)]
  else if off = 8 then rdPack s [(1, b2n h.ready), (3, h.rate.toNat), (5, h.width.toNat), (1, b2n h.msixerr)]
  else if off = 0xC then rdVal s (h.cfglead.setWidth 32)
  else if off = 0x10 then rdVal s (h.errOutc.setWidth 32)
  else if off = 0x14 then rdVal s h.errOff
  else if inTal off 0xF0000 8 then talRead s hifBase off
  else if 0x80000 ≤ off ∧ off < 0x88000 then rdVal s (get msixDflt h.msixTable ((off - 0x80000) / 4))
  else if 0x90000 ≤ off ∧ off < 0x90100 then rdVal s (pbaWord s 0 ((off - 0x90000) / 4))
  else
    match copyOf off 0x40 4 16, copyOf off 0x100 8 33, copyOf off 0x400 4 16, copyOf off 0x10000 0x20 4096, copyOf off 0x40000 8 8192 with
    | some (t, _), _, _, _, _ => rdVal s ((sget 0 h.evsel t).setWidth 32)
    | _, some (n, o), _, _, _ =>
      let f := s.hostFn (BitVec.ofNat 6 n)
      if o = 0 then rdPack s [(11, f.vbase.toNat), (5, 0), (12, f.vcount.toNat)] else rdPack s [(9, f.actlo.toNat), (7, 0), (9, f.acthi.toNat)]
    | _, _, some (n, _), _, _ => rdPack s [(1, b2n (s.dmaCh n).rsv), (12, (s.dmaCh n).ring.toNat)]
    | _, _, _, some (n, o), _ =>
      let m : RingId := BitVec.ofNat 12 n
      let r := s.ring m
      if o = 0 then rdVal s r.baselo
      else if o = 4 then rdVal s r.basehi
      else if o = 8 then rdPack s [(1, b2n r.en), (2, r.typ.toNat), (5, r.logsz.toNat), (1, b2n r.inten), (6, r.fn.toNat), (1, 0), (11, r.vec.toNat)]
      else if o = 0xC then rdPack s [(9, r.actlo.toNat), (7, 0), (9, r.acthi.toNat)]
      else if o = 0x10 then rdPack s [(12, r.cring.toNat), (4, 0), (16, r.srcq.toNat)]
      else if o = 0x14 then rdVal s (if r.en then r.pi else r.start)
      else if o = 0x18 then rdVal s r.ci
      else
        let c : Nat := match r.st with | .disabled => 0 | .active => 1 | .error => 2
        rdPack s [(2, c), (1, b2n r.armed), (1, b2n (heldBit s m)), (3, r.cause.toNat)]
    | _, _, _, _, some (i, o) =>
      let e := sget Ott.reset h.ott i
      if o = 0 then rdPack s [(1, b2n e.valid), (6, e.fn.toNat), (1, b2n e.ro), (1, b2n e.ns)] else rdVal s e.haddr
    | none, none, none, none, none => none

/-- HIF_DMACHn_CFG written (R488). -/
def dmaCfgWrite (s : State) (n : Nat) (v : Word) : State :=
  { s with hif := { s.hif with dma := sput DmaCh.reset s.hif.dma n { rsv := v.getLsbD 0, ring := slice v 1 12 } } }

/-- A write in the HIF block. -/
def hifWrite (cm : Bool) (s : State) (off : Nat) (v : Word) : WrAns :=
  let h := s.hif
  let set := fun (x : Hif) => wrOk { s with hif := x }
  if off = 4 then
    let c : BitVec 4 := slice v 4 4
    let bad := c != 3 && c != 5 && c != 7
    wrOk (hifRsv bad { s with hif := { h with ringen := v.getLsbD 0, cto := keepIf bad h.cto c } })
  else if off = 8 then set { h with msixerr := h.msixerr && !v.getLsbD 9 }
  else if off = 0xC then
    let bad := decide (bits v.toNat 0 16 < 10 ∨ 10000 < bits v.toNat 0 16)
    wrOk (hifRsv bad { s with hif := { h with cfglead := keepIf bad h.cfglead (slice v 0 16) } })
  else if off = 0 ∨ off = 0x10 ∨ off = 0x14 ∨ inTal off 0xF0000 8 = true then wrOk s
  else if 0x80000 ≤ off ∧ off < 0x88000 then wrOk (msixTableWrite s 0 ((off - 0x80000) / 4) v)
  else if 0x90000 ≤ off ∧ off < 0x90100 then wrOk s
  else
    match copyOf off 0x40 4 16, copyOf off 0x100 8 33, copyOf off 0x400 4 16, copyOf off 0x10000 0x20 4096, copyOf off 0x40000 8 8192 with
    | some (t, _), _, _, _, _ => set { h with evsel := sput 0 h.evsel t (slice v 0 12) }
    | _, some (n, o), _, _, _ =>
      let m : BitVec 6 := BitVec.ofNat 6 n
      let f := s.hostFn m
      if o = 0 then
        let bad := decide (2048 < bits v.toNat 16 12)
        let s1 := hifRsv bad (s.setHostFn m { f with vbase := slice v 0 11, vcount := keepIf bad f.vcount (slice v 16 12) })
        wrOk (if fnEnabled s1 m && msixBad s1 m then { s1 with hif := { s1.hif with msixerr := true } } else s1)
      else wrOk (s.setHostFn m { f with actlo := slice v 0 9, acthi := slice v 16 9 })
    | _, _, some (n, _), _, _ => some (noConflict cm s (.ok, dmaCfgWrite s n v))
    | _, _, _, some (n, o), _ =>
      let m : RingId := BitVec.ofNat 12 n
      let r := s.ring m
      let off0 := fun (x : Ring) => if r.st = .disabled then wrOk (s.setRing m x) else wrNo s
      if o = 0 then off0 { r with baselo := v }
      else if o = 4 then off0 { r with basehi := v }
      else if o = 8 then some (ringCfgWrite s m v)
      else if o = 0xC then wrOk (s.setRing m { r with actlo := slice v 0 9, acthi := slice v 16 9 })
      else if o = 0x10 then wrOk (s.setRing m { r with cring := slice v 0 12, srcq := slice v 16 16 })
      else if o = 0x14 then off0 { r with start := v }
      else wrOk s
    | _, _, _, _, some (i, o) =>
      let e := sget Ott.reset h.ott i
      if o = 0 then
        let bad := decide (32 < bits v.toNat 1 6)
        let x : Ott := { e with valid := v.getLsbD 0, fn := keepIf bad e.fn (slice v 1 6), ro := v.getLsbD 7, ns := v.getLsbD 8 }
        wrOk (hifRsv bad { s with hif := { h with ott := sput Ott.reset h.ott i x } })
      else set { h with ott := sput Ott.reset h.ott i { e with haddr := v } }
    | none, none, none, none, none => none

/-! ## Meanings -/

/-- DESCRIPTOR_FETCH (R274, R275, R277, R292). -/
def execDescriptorFetch (ring : RingId) (cpl : PcieCpl) (s : State) : Host.Outcome State Fault Refusal := .next (doFetch s ring cpl)
/-- COMPLETION_WRITE (R281, R282, R286, R287). -/
def execCompletionWrite (ring : RingId) (ok : Bool) (s : State) : Host.Outcome State Fault Refusal := .next (doComplWrite s ring ok)
/-- SOURCE_QUEUE_FORWARD (R283). -/
def execSourceQueueForward (ring : RingId) (ok : Bool) (s : State) : Host.Outcome State Fault Refusal := .next (doSrcForward s ring ok)
/-- EVENT_WRITE (R284, R285). -/
def execEventWrite (ring : RingId) (ok : Bool) (s : State) : Host.Outcome State Fault Refusal := .next (doEventWrite s ring ok)
/-- RING_ENABLE: a write of HIF_RINGn_CFG with EN = 1 (R293). -/
def execRingEnable (who : Initiator) (ring : RingId) (v : Word) (s : State) : Host.Outcome State Fault Refusal :=
  .next (regCmd s who (hifBase + 0x10008 + 0x20 * ring.toNat) (fun t => wrAnswer (ringCfgWrite t ring (v ||| 1))))
/-- RING_DISABLE: a write of HIF_RINGn_CFG with EN = 0 (R293, R294). -/
def execRingDisable (who : Initiator) (ring : RingId) (v : Word) (s : State) : Host.Outcome State Fault Refusal :=
  .next (regCmd s who (hifBase + 0x10008 + 0x20 * ring.toNat) (fun t => wrAnswer (ringCfgWrite t ring (v &&& ~~~1))))
/-- FUNCTION_LEVEL_RESET (R266). -/
def execFunctionLevelReset (fn : BitVec 6) (s : State) : Host.Outcome State Fault Refusal := .next (flr s fn)
/-- BUS_MASTER_ENABLE_CHANGE (R266). -/
def execBusMasterEnableChange (fn : BitVec 6) (on : Bool) (s : State) : Host.Outcome State Fault Refusal := .next (setBme s fn on)
/-- DMA_CHANNEL_CONFIG_WRITE (R484, R488). -/
def execDmaChannelConfigWrite (who : Initiator) (n : BitVec 4) (v : Word) (s : State) : Host.Outcome State Fault Refusal :=
  .next (regCmd s who (hifBase + 0x400 + 4 * n.toNat) (fun t => wrAnswer (noConflict false t (.ok, dmaCfgWrite t n.toNat v))))
/-- HOST_FENCE: FENCE completes when every earlier command of its ring has (R275). -/
def execHostFence (ring : RingId) (idx : Word) (s : State) : Host.Outcome State Fault Refusal :=
  .next (runCmd s ring idx (fun d => dOp d == 0x3F) (fun t _ => completeOk t ring idx .ok))

end Sys2Proof.Machine
end

