-- ==== Sys2Proof/Machine/Respond.lean ====
section
/-! DEFINITION. A target's answer to a request packet (R228, R230, R232, R233, R241), and reads of host memory that PCIe completes
(R291, R292). -/

namespace Sys2Proof.Machine

/-- The 16-bit words of a block that are poison, as the mask of a packet. -/
def poisonMask (l : List Bool) : BitVec 128 := BitVec.ofNat 128 (packLE ((l.take 128).map (fun b => (1, b2n b))))

/-- The response packet of an answer (R228, R233, R241). -/
def answerPkt (k : Packet) (a : Ans) : Packet :=
  let d := PktType.isRead k.typ && goesOn a.outc
  let wide := k.typ == .rd256
  { k with typ := if d then (if wide then .rspd256 else .rspd) else .rsp, route := backRoute k.route, mask := 0,
           data := if d then fitBytes (if wide then 256 else 64) a.data else [], poison := if d then poisonMask a.poison else 0,
           outc := a.outc, synth := false, flags := if a.outc = .okFlagged then slice a.flags 0 8 else 0 }

/-- RETRY (R230, R254). -/
def retryPkt (k : Packet) : Packet :=
  { k with typ := .retry, route := backRoute k.route, mask := 0, data := [], poison := 0, outc := .ok, synth := false, flags := 0 }

/-- A response leaves its target's NI (R241). -/
def respond (s : State) (n : NodeId) (r : Packet) : State :=
  sendTo (linkChecks s (.ni n) 0 (flitsOf r.typ)) (.el (entryOf n).1 (entryOf n).2) r

/-- The answer to whoever asked: a response packet, or the answer of a whole access. -/
def answerTo (s : State) (n : NodeId) (pkt : Option Packet) (a : Ans) : State :=
  match pkt with
  | some k => respond s n (answerPkt k a)
  | none => s.answer a

/-- The first enabled byte of a mask and the number of bytes to the last one (R231). -/
def maskSpan (m : BitVec 64) : Nat × Nat :=
  let l := (List.range 64).filter (fun i => m.getLsbD i)
  match l.head?, l.getLast? with
  | some a, some b => (a, b + 1 - a)
  | _, _ => (0, 0)

/-- The data of a masked read in its 64-byte block: disabled bytes are 0 (R231). -/
def inBlock (m : BitVec 64) (a : Ans) : Ans :=
  let lo := (maskSpan m).1
  let d := fitBytes 64 (List.replicate lo 0 ++ a.data)
  { a with data := d.zipIdx.map (fun p => if m.getLsbD p.2 then p.1 else 0), poison := List.replicate (lo / 2) false ++ a.poison }

/-- The answer to a read of host memory stands at its place in the block. -/
def hostAns (pkt : Option Packet) (a : Ans) : Ans :=
  match pkt with
  | some k => if k.typ = .rd ∧ goesOn a.outc = true then inBlock k.mask a else a
  | none => a

/-- A PCIe completion ends a read of host memory (R292). -/
def doHostCpl (s : State) (tag : Nat) (cpl : PcieCpl) : State :=
  match sget none s.hif.reads tag with
  | none => s
  | some r =>
    if cpl = .timeout ∧ s.cycle - r.since < ctoCycles s then s
    else answerTo { s with hif := { s.hif with reads := sput none s.hif.reads tag none } } 0x90 r.pkt (hostAns r.pkt (cplAns r.len cpl))

/-- HOST_READ_COMPLETION (R292). -/
def execHostReadCompletion (tag : BitVec 10) (cpl : PcieCpl) (s : State) : Host.Outcome State Fault Refusal :=
  .next (doHostCpl s tag.toNat cpl)

/-- A read of host memory, part by part; none while tags run out; the first part refused ends it (R291). -/
def hostReadAll (s : State) (ini : Initiator) (off n : Nat) (act : ActId) : Option (Outc × State) :=
  (hostParts (n / 0x40000000 + 2) off n).foldl (fun x p =>
    match x with
    | some (.ok, t) => hostRead1 t ini none p.1 p.2 act
    | y => y) (some (.ok, s))

/-- HOST_MEMORY_ACCESS: a device access to the host range (R266, R291). -/
def doHostAccess (s : State) (ini : Initiator) (pa : Pa) (wr : Bool) (len : Nat) (data : List Byte) (act : ActId) : State :=
  match place pa with
  | .host off =>
    if hostReach s = false then s
    else if wr then
      let (o, t) := hostWrite s off (data.map some) act
      t.answerOnly o
    else
      match hostReadAll s ini off len act with
      | some (.ok, t) => t
      | some (o, t) => t.answerOnly o
      | none => s
  | _ => s

/-- HOST_MEMORY_ACCESS (R266, R291). -/
def execHostMemoryAccess (ini : Initiator) (pa : Pa) (wr : Bool) (len : Nat) (data : List Byte) (act : ActId) (s : State) :
    Host.Outcome State Fault Refusal := .next (doHostAccess s ini pa wr len data act)

end Sys2Proof.Machine
end

