-- ==== Sys2Proof/Machine/Casc.lean ====
section
/-! DEFINITION. The cascade MAC, but for the performance of a remote request: frames, tokens, polling, slots, export queues, wrap and the
CAS registers (R352 to R371). -/

namespace Sys2Proof.Machine

/-- Base of the CAS block. -/
def casBase : Nat := hubBlk 4
/-- CAS counter i: 0 TXFRM, 1 RXFRM, 2 RXBAD, 3 CRCBAD, 4 STOMP, 5 ORPHAN, 6 TOKREGEN, 7 TOKDUP, 8 LATEDROP, 9 XDROP, 10 POLLMISS, 11 WRAP. -/
def casTal (s : State) (i : Nat) : State := tallyAdd s (casBase + 0x200 + 8 * i) 1
/-- The package is the manager (R20). -/
def isManager (s : State) : Bool := s.mgc.role && s.mgc.pkgid == 0
/-- Root cycles of a time in µs. -/
def usCycles (n : Nat) : Nat := cdiv (n * 393216) 100
/-- The MAC runs (R371, R427, R434). -/
def casRuns (s : State) : Bool := s.cas.en && !s.cas.straperr && s.lmp.pkg != .deep

/-- A ring: 0 eastward, 1 westward. -/
def State.casRing (s : State) (r : Bool) : CasRing := if r then s.cas.ring1 else s.cas.ring0
/-- Replaces a ring. -/
def State.setCasRing (s : State) (r : Bool) (x : CasRing) : State :=
  if r then { s with cas := { s.cas with ring1 := x } } else { s with cas := { s.cas with ring0 := x } }
/-- A port: east or west. -/
def State.casPort (s : State) (east : Bool) : CasPort := if east then s.cas.east else s.cas.west
/-- Replaces a port. -/
def State.setCasPort (s : State) (east : Bool) (x : CasPort) : State :=
  if east then { s with cas := { s.cas with east := x } } else { s with cas := { s.cas with west := x } }
/-- A transaction slot. -/
def State.casSlot (s : State) (i : Nat) : CasSlot := sget CasSlot.reset s.cas.slots i
/-- Replaces a transaction slot. -/
def State.setCasSlot (s : State) (i : Nat) (x : CasSlot) : State :=
  { s with cas := { s.cas with slots := sput CasSlot.reset s.cas.slots i x } }
/-- An export queue. -/
def State.xq (s : State) (n : Nat) : XQueue := sget XQueue.reset s.cas.xq n
/-- Replaces an export queue. -/
def State.setXq (s : State) (n : Nat) (x : XQueue) : State := { s with cas := { s.cas with xq := sput XQueue.reset s.cas.xq n x } }
/-- What the manager knows of package k. -/
def State.peer (s : State) (k : PkgId) : Peer := sget Peer.reset s.cas.peers k.toNat
/-- Replaces what the manager knows of package k. -/
def State.setPeer (s : State) (k : PkgId) (x : Peer) : State :=
  { s with cas := { s.cas with peers := sput Peer.reset s.cas.peers k.toNat x } }

/-! ## Sending (R353, R358, R369, R427) -/

/-- Forgets the frames of the last command. -/
def casQuiet (s : State) : State :=
  { s with cas := { s.cas with ring0 := { s.cas.ring0 with sent := [] }, ring1 := { s.cas.ring1 with sent := [] } } }

/-- A frame goes out on a ring's port; at a port in WRAP it turns into the other ring; safe state sends idle only. -/
def casSend (s : State) (ring : Bool) (f : CasFrame) : State :=
  if s.asy.safe ∨ casRuns s = false then s
  else
    let r := if (s.casPort (!ring)).wrap then !ring else ring
    if (s.casPort (!r)).wrap then s
    else
      let x := s.casRing r
      casTal (s.setCasRing r { x with sent := x.sent ++ [f] }) 0

/-- A frame of this package before it is sent. -/
def mkFrame (s : State) (typ : BitVec 4) (dst : PkgId) (ring bcast : Bool) (tag : BitVec 16) (act : ActId) (outc : BitVec 5) (d : List Byte) :
    CasFrame :=
  { typ := typ, src := s.mgc.pkgid, dst := dst, ring := ring, bcast := bcast, len := BitVec.ofNat 12 d.length, hops := 0, tag := tag, act := act,
    outcome := outc, payload := d, crcBad := false, stomped := false, east := false }

/-- A token-gated frame waits for its ring's token. -/
def casQueue (s : State) (f : CasFrame) : State :=
  let x := s.casRing f.ring
  s.setCasRing f.ring { x with outq := x.outq ++ [f] }

/-! ## Receiving (R354 to R357) -/

/-- The fabric type of a REQ (R230, R355). -/
def typOfCode (c : Nat) : PktType :=
  match c with
  | 0 => .rd | 1 => .rd256 | 2 => .wr | 3 => .wr256 | 4 => .wrm | 5 => .wrP | 6 => .wr256P | 7 => .wrmP | _ => .reserved
/-- The code of a fabric type (R230). -/
def codeOfTyp : PktType → Nat
  | .rd => 0 | .rd256 => 1 | .wr => 2 | .wr256 => 3 | .wrm => 4 | .wrP => 5 | .wr256P => 6 | .wrmP => 7
  | .rsp => 8 | .rspd => 9 | .rspd256 => 10 | .retry => 11 | .msg => 12 | .reserved => 13
/-- The payload length of a REQ (R355). -/
def reqLen : PktType → Nat
  | .rd256 => 8 | .rd => 16 | .wr | .wrP => 72 | .wrm | .wrmP => 80 | .wr256 | .wr256P => 264 | _ => 0

/-- Bytes o … o + n − 1 of a payload as a number. -/
def pF (d : List Byte) (o n : Nat) : Nat := natOfBytes ((d.drop o).take n)
/-- The fabric type that a REQ asks for. -/
def reqTyp (f : CasFrame) : PktType := typOfCode (bits (pF f.payload 0 8) 36 4)

/-- The frame has a TYPE of R354, a LEN that it allows, and its whole payload; a POLL comes from package 0 (R355). -/
def frameOk (f : CasFrame) : Bool :=
  let n := f.len.toNat
  f.payload.length == n &&
  match f.typ.toNat with
  | 1 => n == 0
  | 2 => decide (8 ≤ n) && reqTyp f != .reserved && n == reqLen (reqTyp f)
  | 3 => n == 8 || n == 72 || n == 264
  | 4 => n == 40
  | 5 => n == 0
  | 6 => n == 256 && f.src == 0
  | 7 => n == 64
  | _ => false

/-- Bad CRC, own or stomped. -/
def frameBad (f : CasFrame) : Bool := f.crcBad || f.stomped

/-- A port takes frames. -/
def casListens (s : State) (east : Bool) : Bool := casRuns s && (s.casPort east).lock && !(s.casPort east).wrap

/-- A frame arrives: HOPS, RXFRM, CRC errors, and RXBAD for one that is dropped as malformed (R354, R355, R357). -/
def casArrive (s : State) (f : CasFrame) (k : State → CasFrame → State) : State :=
  if casListens s f.east = false then s
  else
    let s1 := casTal (casQuiet s) 1
    let s2 := if f.stomped then casTal s1 4 else if f.crcBad then casTal s1 3 else s1
    if frameOk f = false then casTal s2 2 else k s2 { f with hops := f.hops + 1 }

/-- The frame is addressed to this package alone (R356). -/
def casMine (s : State) (f : CasFrame) : Bool := !f.bcast && f.dst == s.mgc.pkgid

/-- The residence time of a frame, at most 160 ns, in 2^−16 ns (R353, R362): its value is free (log 9). -/
def residence (s : State) : Nat × State :=
  let (k, t) := takeFree s
  (Config.freeNat k % (160 * 65536 + 1), t)

/-- Adds to the CORR field at an offset of a payload (R362). -/
def addCorr (d : List Byte) (o n : Nat) : List Byte := d.take o ++ bytesOfNat 8 (pF d o 8 + n) ++ d.drop (o + 8)

/-- A frame is forwarded on the ring on which it came, ring 0 from the west port: a bad CRC is stomped; POLL and REPLY gain their residence time (R353, R357, R362). -/
def casForward (s : State) (f : CasFrame) : State :=
  let g := { f with stomped := frameBad f, crcBad := false }
  if f.typ = 6 then
    let (n, t) := residence s
    casSend t f.east { g with payload := addCorr f.payload 0x18 n }
  else if f.typ = 7 then
    let (n, t) := residence s
    casSend t f.east { g with payload := addCorr f.payload 0x28 n }
  else casSend s f.east g

/-- A POLL with UNWRAP, lock held: the port passes again (R369). -/
def casUnwrap (s : State) : State :=
  [true, false].foldl (fun t e =>
    let p := t.casPort e
    if p.wrap ∧ p.lock then t.setCasPort e { p with wrap := false, indication := false, linkok := false, unwrapAt := some t.cycle } else t) s

/-- UNWRAP of a POLL. -/
def pollUnwraps (f : CasFrame) : Bool := !(frameBad f) && bitOf (pF f.payload 4 4) 21

/-- FRAME_TRANSIT: a frame that is not for this package is forwarded or stripped (R353, R356). -/
def doTransit (s : State) (f : CasFrame) : State :=
  if f.typ = 1 ∨ (f.typ = 6 ∧ f.src ≠ s.mgc.pkgid ∧ frameOk f = true) ∨ (casMine s f ∧ frameOk f = true) then s
  else
    casArrive s f (fun t g =>
      if g.src = t.mgc.pkgid then
        (if g.typ = 6 ∧ isManager t = true then (if pollUnwraps g then casUnwrap t else t) else casTal t 5)
      else if g.hops = 31 then casTal t 5
      else casForward t g)

/-! ## Tokens (R358, R359) -/

/-- The package may send token-gated frames: the manager, or a worker that has joined (R364). -/
def casMaySend (s : State) : Bool := isManager s || s.cas.joined

/-- A token is sent on. -/
def casToken (s : State) (ring : Bool) (gen : BitVec 16) : State := casSend s ring (mkFrame s 1 0 ring false gen 0 0 [])

/-- The token's visit: up to QUOTA waiting frames, then the token (R358). -/
def tokenVisit (s : State) (ring : Bool) (gen : BitVec 16) : State :=
  let x := s.casRing ring
  let n := if casMaySend s then s.cas.quota.toNat else 0
  let s1 := s.setCasRing ring { x with outq := x.outq.drop n }
  casToken ((x.outq.take n).foldl (fun t f => casSend t ring f) s1) ring gen

/-- a is later than b in the comparison of R182 on 16 bits. -/
def laterGen (a b : BitVec 16) : Bool := a != b && decide ((a - b).toNat < 2 ^ 15)

/-- TOKEN_RECEIVE: a corrupt token is dropped; the manager strips the younger of two generations, and notes the generation that passes (R357
to R359). -/
def doToken (s : State) (f : CasFrame) : State :=
  if f.typ ≠ 1 then s
  else
    casArrive s f (fun t g =>
      if frameBad g then t
      else
        let r := g.east
        let x := t.casRing r
        if isManager t then
          if x.seen ∧ t.cycle - x.lastAt ≤ usCycles t.cas.toktmo.toNat ∧ laterGen g.tag x.lastGen = true then casTal t 7
          else tokenVisit (t.setCasRing r { x with lastGen := g.tag, lastAt := t.cycle, seen := true }) r g.tag
        else tokenVisit t r g.tag)

/-- TOKEN_REGENERATE: no token has passed the manager for TOKTMO (R359). -/
def doRegen (s : State) (r : Bool) : State :=
  let x := s.casRing r
  if isManager s = false ∨ casRuns s = false ∨ s.cycle - x.lastAt < usCycles s.cas.toktmo.toNat then s
  else
    let g := x.lastGen + 1
    let s1 := casTal (casQuiet s) 6
    casToken (s1.setCasRing r { s1.casRing r with lastGen := g, lastAt := s.cycle, seen := true }) r g

/-! ## Remote windows (R365, R366) -/

/-- Package p may be addressed, and by which ring (R365). -/
def casRoute (s : State) (p : PkgId) : Option Bool :=
  let e := sget 0 s.cas.rte p.toNat
  if casRuns s ∧ e.getLsbD 0 ∧ s.cas.present.getLsbD p.toNat ∧ p ≠ s.mgc.pkgid then some (e.getLsbD 1) else none

/-- The lowest free slot. -/
def freeCasSlot (s : State) : Option Nat := (List.range 256).find? (fun i => (s.casSlot i).use == .free)

/-- TAG of a slot. -/
def slotTag (s : State) (i : Nat) : BitVec 16 := BitVec.ofNat 16 (i + 256 * (s.casSlot i).gen.toNat)

/-- The payload of a REQ (R355). -/
def reqPayload (typ : PktType) (off : Nat) (mask : BitVec 64) (d : List Byte) : List Byte :=
  bytesOfNat 8 (packLE [(36, off), (4, codeOfTyp typ)]) ++
  match typ with
  | .rd => bytesOfNat 8 mask.toNat
  | .rd256 => []
  | .wrm | .wrmP => bytesOfNat 8 mask.toNat ++ fitBytes 64 d
  | .wr256 | .wr256P => fitBytes 256 d
  | _ => fitBytes 64 d

/-- A request to a remote window: an outcome at once, a slot with its REQ, or a wait while every slot is taken (R29, R365). -/
inductive RemoteAns where
  | now (o : Outc)
  | sent (t : State)
  | wait
  deriving DecidableEq, Repr

/-- A request to a remote window. -/
def remoteReq (s : State) (ini : Initiator) (pkt : Option Packet) (typ : PktType) (p : PkgId) (off : Nat) (mask : BitVec 64) (d : List Byte)
    (act : ActId) : RemoteAns :=
  match casRoute s p with
  | none => .now .routeFault
  | some ring =>
    if memberHolds s .cas then .wait
    else
      match freeCasSlot s with
      | none => .wait
      | some i =>
        let s1 := s.setCasSlot i { s.casSlot i with use := .access ini pkt typ, since := s.cycle }
        .sent (casQueue s1 (mkFrame s 2 p ring false (slotTag s i) act 0 (reqPayload typ off mask d)))

/-- REMOTE_ACCESS (R365). -/
def doRemote (s : State) (ini : Initiator) (typ : PktType) (pa : Pa) (mask : BitVec 64) (d : List Byte) (act : ActId) : State :=
  match place pa with
  | .remote p off =>
    if reqShape typ pa = false then s
    else
      match remoteReq s ini none typ p off mask d act with
      | .now o => s.answerOnly o
      | .sent t => t
      | .wait => s
  | _ => s

/-- The slot that a response's TAG names, open with its generation (R366). -/
def casOpen (s : State) (tag : BitVec 16) : Option (Nat × CasUse) :=
  let i := tag.toNat % 256
  let x := s.casSlot i
  if x.use = .free ∨ x.gen.toNat ≠ tag.toNat / 256 then none else some (i, x.use)

/-- The outcome with a code. -/
def outcOf (c : BitVec 5) : Outc :=
  ([Outc.ok, .okFlagged, .cancelled, .timeout, .routeFault, .domainAsleep, .wakeFailed, .uncorrectable, .replayExhausted, .notPermitted,
    .badDescriptor, .conflict, .budgetExhausted, .refused, .queueFull, .deadlineMissed, .engineError, .thermalRefused][c.toNat]?).getD .routeFault

/-- The answer in an RSP; of a poisoned read the words that are poison are not told, and their marks are free (R232, R355; log 9). -/
def rspAns (s : State) (f : CasFrame) : Ans × State :=
  let d := f.payload.drop 8
  let o := outcOf f.outcome
  let fl : Word := BitVec.ofNat 32 (pF f.payload 0 4)
  if o = .uncorrectable then
    let (k, t) := takeFree s
    ({ outc := o, flags := fl, data := d, poison := (List.range (d.length / 2)).map (fun i => (Config.free512 k).getLsbD i) }, t)
  else ({ outc := o, flags := fl, data := d, poison := [] }, s)

/-- RSP_RECEIVE: the slot closes and its answer reaches the initiator; a bad CRC is dropped or delivered with CRC_BAD (R357, R366). -/
def doRsp (s : State) (f : CasFrame) : State :=
  if f.typ ≠ 3 ∨ casMine s f = false then s
  else
    casArrive s f (fun t g =>
      if frameBad g ∧ t.cas.deliverBad = false then t
      else
        match casOpen t g.tag with
        | some (i, .access _ pkt _) =>
          let (a, u) := rspAns (t.setCasSlot i { t.casSlot i with use := .free }) g
          answerTo u 0x92 pkt (if frameBad g then { a with outc := .okFlagged, flags := a.flags ||| 0x20 } else a)
        | _ => casTal t 8)

/-- An export entry is dropped with an outcome: counted and reported (R367, R508). -/
def xqDrop (s : State) (n : BitVec 4) (o : BitVec 5) : State :=
  let d : Word := BitVec.ofNat 32 (packLE [(4, 1), (4, n.toNat), (5, o.toNat)])
  report (casTal (s.setXq n.toNat { s.xq n.toNat with entry := none }) 9) (srcHub 3) d

/-- REMOTE_SLOT_TIMEOUT: a slot without RSP closes after 2 ms and its generation advances; an export entry is dropped as TIMEOUT (R366). -/
def doSlotTimeout (s : State) (i : Nat) : State :=
  let x := s.casSlot i
  if x.use = .free ∨ s.cycle - x.since < usCycles 2000 then s
  else
    let s1 := s.setCasSlot i { x with use := .free, gen := x.gen + 1 }
    match x.use with
    | .xq n => xqDrop s1 n 3
    | _ => s1

/-! ## Export queues (R367) -/

/-- An ENQ for the entry of an export queue. -/
def xqFrame (s : State) (n i : Nat) (ring : Bool) (e : Entry) : CasFrame :=
  let x := s.xq n
  mkFrame s 4 x.pkg ring false (slotTag s i) (eAct e) 0 (bytesOfNat 2 x.dqid.toNat ++ List.replicate 6 0 ++ bytesOfNat 32 e.toNat)

/-- An export queue sends what the dequeue brought; an entry of zeros is no entry. -/
def exportTaken (n i : Nat) (ring : Bool) (r : Ans × State) : State :=
  let t := r.2
  if r.1.outc ≠ .ok ∨ r.1.data.all (fun b => b == 0) = true then t
  else
    let e : Entry := BitVec.ofNat 256 (natOfBytes r.1.data)
    let t1 := (t.setXq n { t.xq n with entry := some e }).setCasSlot i { t.casSlot i with use := .xq (BitVec.ofNat 4 n), since := t.cycle }
    casQueue t1 (xqFrame t n i ring e)

/-- The way of an export queue's dequeue. -/
def exportVia (s : State) (n i : Nat) (ring : Bool) : Gate × State → State
  | (.answer _, _) => s
  | (.hold u, _) => holdWhole s u
  | (.pass, _) => exportTaken n i ring (dequeue s (s.xq n).lqid)

/-- EXPORT_DEQUEUE: an enabled export queue without an entry takes one, when its destination can be addressed and a slot is free. -/
def doExport (s : State) (n : Nat) : State :=
  let x := s.xq n
  if x.en = false ∨ x.entry ≠ none ∨ memberHolds s .cas = true then s
  else
    match casRoute s x.pkg, freeCasSlot s with
    | some ring, some i => exportVia s n i ring (queueWay s 0x92 x.lqid)
    | _, _ => s

/-- ENQRSP_RECEIVE (R367): OK frees the queue, QUEUE_FULL sends again at the next token visit, anything else drops the entry; a bad CRC is
dropped. -/
def doEnqrsp (s : State) (f : CasFrame) : State :=
  if f.typ ≠ 5 ∨ casMine s f = false then s
  else
    casArrive s f (fun t g =>
      if frameBad g then t
      else
        match casOpen t g.tag with
        | some (i, .xq n) =>
          let x := t.xq n.toNat
          match x.entry with
          | some e =>
            if g.outcome = Outc.queueFull.code then
              casQueue (t.setCasSlot i { t.casSlot i with since := t.cycle }) (xqFrame t n.toNat i ((casRoute t x.pkg).getD g.ring) e)
            else
              let t1 := t.setCasSlot i { t.casSlot i with use := .free }
              if g.outcome = 0 then t1.setXq n.toNat { x with entry := none } else xqDrop t1 n g.outcome
          | none => t.setCasSlot i { t.casSlot i with use := .free }
        | _ => casTal t 8)

/-- ENQ_RECEIVE: the entry is enqueued as from the cascade and answered with ENQRSP (R367). -/
def doEnq (s : State) (f : CasFrame) : State :=
  if f.typ ≠ 4 ∨ casMine s f = false then s
  else
    let q : QueueId := BitVec.ofNat 16 (pF f.payload 0 2)
    let e : Entry := BitVec.ofNat 256 (pF f.payload 8 32)
    let rsp := fun (t : State) (g : CasFrame) (o : Outc) => casQueue t (mkFrame t 5 g.src g.ring false g.tag g.act o.code [])
    match (queueWay s 0x92 q).1 with
    | .hold u => if frameBad f then casArrive s f (fun t _ => t) else if casListens s f.east then holdWhole s u else s
    | .answer o => casArrive s f (fun t g => if frameBad g then t else rsp (queueWay t 0x92 q).2 g o)
    | .pass =>
      casArrive s f (fun t g =>
        if frameBad g then t
        else
          match enqueue t .cascade q e with
          | (.accepted, u) => rsp u g .ok
          | (.full, u) => rsp u g .queueFull
          | (.refused o, u) => rsp u g o)

/-! ## Polling (R361 to R364) -/

/-- The package's rank: that of its selected time source, else 15 (R334, R362). -/
def casRank (s : State) : BitVec 4 :=
  match s.cmk.tsrc with
  | some i => (s.csrc i).ql
  | none => 15

/-- The payload of a POLL on a ring (R362); the mailbox and its target come from firmware and are free. -/
def pollPayload (s : State) (ring : Bool) (seq : BitVec 16) (mask : BitVec 16) (present : BitVec 16) (k : Nat) : List Byte :=
  let ek := fun (i : Nat) => let p := s.peer (BitVec.ofNat 4 i); (64, (if ring then p.ek1 else p.ek0).toNat)
  bytesOfNat 0x30 (packLE ([(32, seq.toNat), (16, mask.toNat), (4, (casRank s).toNat), (1, b2n s.cmk.timeok), (1, b2n s.cas.unwrapReq), (10, 0)] ++
    tsFields s.now ++ [(16, present.toNat), (16, 0), (64, 0)] ++ tsFields (if ring then s.cas.t1of1 else s.cas.t1of0) ++ [(32, 0)])) ++
  bytesOfNat 0x80 (packLE ((List.range 16).map ek)) ++
  (Config.freeByte k 0 &&& 0x0F) :: List.replicate 15 0 ++ (List.range 64).map (fun i => Config.freeByte k (i + 1))

/-- Presence after the polls so far: three misses in a row clear a bit; the manager's own stands with EN (R364). -/
def pollMisses (s : State) : State :=
  (List.range 15).foldl (fun t i =>
    let k : PkgId := BitVec.ofNat 4 (i + 1)
    let p := t.peer k
    if s.cas.pollmask.getLsbD (i + 1) then
      if p.answered then t.setPeer k { p with answered := false, missed := 0 }
      else
        let t1 := casTal (t.setPeer k { p with missed := p.missed + 1, ek0 := 0x7FFFFFFFFFFFFFFF, ek1 := 0x7FFFFFFFFFFFFFFF }) 10
        if 3 ≤ p.missed + 1 then { t1 with cas := { t1.cas with present := t1.cas.present &&& ~~~(BitVec.ofNat 16 (2 ^ (i + 1))) } } else t1
    else t.setPeer k { p with answered := false }) s

/-- POLL_SEND: every POLLPER the manager polls on both rings; which packages it polls is free (R361, R362, R364; log 22). -/
def doPollSend (s : State) : State :=
  if isManager s = false ∨ casRuns s = false ∨ s.cycle - s.cas.lastPoll < usCycles s.cas.pollper.toNat then s
  else
    let s1 := casQuiet (pollMisses s)
    let (k, s2) := takeFree s1
    let mask := Config.free16 k
    let seq := s.cas.pollSeq + 1
    let present := s2.cas.present ||| 1
    let s3 := { s2 with cas := { s2.cas with pollSeq := seq, pollmask := mask, lastPoll := s.cycle, present := present, unwrapReq := false,
                                             t1of0 := s.now, t1of1 := s.now } }
    let send := fun (t : State) (ring : Bool) => casSend t ring (mkFrame s 6 0 ring true seq 0 0 (pollPayload s2 ring seq mask present k))
    send (send s3 false) true

/-- The payload of a REPLY (R362); the mailbox comes from firmware and is free. -/
def replyPayload (s : State) (seq : Nat) (k : Nat) : List Byte :=
  let st := if s.lmp.pkg = .run then 0 else 1
  bytesOfNat 0x30 (packLE ([(32, seq), (1, b2n s.cas.east.linkok), (1, b2n s.cas.west.linkok), (2, st), (4, (casRank s).toNat), (24, 0)] ++
    tsFields s.now ++ [(32, 0)] ++ tsFields s.now ++ [(32, 0), (64, 0)])) ++ (List.range 16).map (fun i => Config.freeByte k i)

/-- A signed 64-bit field. -/
def sF (d : List Byte) (o : Nat) : Int := (BitVec.ofNat 64 (pF d o 8)).toInt
/-- A TS96 field. -/
def tsF (d : List Byte) (o : Nat) : Ts :=
  { frac := BitVec.ofNat 16 (pF d o 2), ns := BitVec.ofNat 32 (pF d (o + 2) 4), sec := BitVec.ofNat 48 (pF d (o + 6) 6) }

/-- θ of R363 from a poll, this package and its times for the previous copy; none where the manager has no Ek for it. -/
def pollTheta (s : State) (d : List Byte) (x : PollTimes) : Option (BitVec 64) :=
  let o := 0x30 + 8 * s.mgc.pkgid.toNat
  if pF d o 8 = 0x7FFFFFFFFFFFFFFF then none
  else
    let t1 : Int := tsUnits (tsF d 0x20)
    let fwd := (tsUnits x.t2 : Int) - t1 - x.corr.toInt
    let rev := sF d o + t1 - (tsUnits x.t3 : Int)
    some (BitVec.ofInt 64 ((fwd - rev) / 2))

/-- The CASCADE sources of an instance take the poll's rank and TIMEOK (R333, R334, R363). -/
def pollSources (s : State) (east : Bool) (rank : BitVec 4) (ok : Bool) : State :=
  allSlots.foldl (fun t i =>
    let x := t.csrc i
    if x.en ∧ x.typ = 5 ∧ x.inst.toNat = b2n (!east) then t.setCsrc i { x.setValid t.cycle ok with ql := rank } else t) s

/-- POLL_RECEIVE: a worker forwards the POLL, joins, offers time and answers on the port of arrival (R361 to R364, R369). -/
def doPoll (s : State) (f : CasFrame) : State :=
  if f.typ ≠ 6 ∨ f.src = s.mgc.pkgid then s
  else
    casArrive s f (fun t g =>
      if g.hops = 31 then casTal t 5
      else
        let t1 := casForward t g
        if frameBad g then t1
        else
          let d := g.payload
          let w1 := pF d 4 4
          let east := g.east
          let old := if east then t1.cas.timesE else t1.cas.timesW
          let x : PollTimes := { t2 := t1.now, t3 := t1.now, corr := BitVec.ofNat 64 (pF d 0x18 8) }
          let th := (old.bind (pollTheta t1 d)).or t1.cas.theta
          let c := { t1.cas with joined := true, present := BitVec.ofNat 16 (pF d 0x14 2), lastPoll := t1.cycle, theta := th,
                                 timesE := if east then some x else t1.cas.timesE, timesW := if east then t1.cas.timesW else some x,
                                 mbox := if pF d 0xB0 1 % 16 = t1.mgc.pkgid.toNat then (d.drop 0xC0).take 64 else t1.cas.mbox }
          let t2 := pollSources { t1 with cas := c } east (BitVec.ofNat 4 (w1 / 65536)) (bitOf w1 20)
          let t3 := if bitOf w1 21 then casUnwrap t2 else t2
          if w1.testBit t3.mgc.pkgid.toNat then
            let (k, t4) := takeFree t3
            casSend t4 (!g.east) (mkFrame t4 7 0 (!g.east) false g.tag 0 0 (replyPayload t4 (pF d 0 4) k))
          else t3)

/-- REPLY_RECEIVE: the manager notes presence, position, Ek and the mailbox; of a bad CRC at most the mailbox (R357, R362, R364). -/
def doReply (s : State) (f : CasFrame) : State :=
  if f.typ ≠ 7 ∨ casMine s f = false ∨ isManager s = false then s
  else
    casArrive s f (fun t g =>
      let k := g.src
      let p := t.peer k
      let mb := (g.payload.drop 0x30).take 16
      if frameBad g then (if t.cas.deliverBad then t.setPeer k { p with mailbox := mb } else t)
      else if pF g.payload 0 2 ≠ t.cas.pollSeq.toNat then t
      else
        let copy := !g.ring
        let e : BitVec 64 := BitVec.ofInt 64 ((t.units : Int) - sF g.payload 0x28 - (tsUnits (if copy then t.cas.t1of1 else t.cas.t1of0) : Int))
        let q := { p with answered := true, missed := 0, mailbox := mb, info := BitVec.ofNat 32 (pF g.payload 4 4),
                          hops := if g.ring then g.hops else p.hops, hopsValid := p.hopsValid || g.ring,
                          ek0 := if copy then p.ek0 else e, ek1 := if copy then e else p.ek1 }
        let t1 := t.setPeer k q
        { t1 with cas := { t1.cas with present := t1.cas.present ||| BitVec.ofNat 16 (2 ^ k.toNat) } })

/-- JOIN_TIMEOUT: no POLL for 4 POLLPER (R363, R364). -/
def doJoinTimeout (s : State) : State :=
  if isManager s ∨ s.cas.joined = false ∨ s.cycle - s.cas.lastPoll < 4 * usCycles s.cas.pollper.toNat then s
  else
    let s1 := { s with cas := { s.cas with joined := false, present := 0 } }
    allSlots.foldl (fun t i => let x := t.csrc i; if x.typ = 5 then t.setCsrc i (x.setValid t.cycle false) else t) s1

/-! ## Ports (R369, R370) -/

/-- A port goes to WRAP: counted and reported (R369, R508). -/
def casWrap (s : State) (east : Bool) : State :=
  let p := s.casPort east
  if p.wrap then s
  else
    let d : Word := BitVec.ofNat 32 (packLE [(4, 2), (4, b2n (!east))])
    report (casTal (s.setCasPort east { p with wrap := true, linkok := false, since := s.cycle }) 11) (srcHub 3) d

/-- LINK_LOCK_LOSS (R369). -/
def doLockLoss (s : State) (east : Bool) : State :=
  if (s.casPort east).lock = false then s
  else
    let s1 := s.setCasPort east { s.casPort east with lock := false, linkok := false, indication := false }
    if casRuns s then casWrap s1 east else s1

/-- CASCADE_RX_LOCK_GAIN (R369). -/
def doLockGain (s : State) (east : Bool) : State :=
  if (s.casPort east).lock ∨ s.cas.straperr then s else s.setCasPort east { s.casPort east with lock := true, since := s.cycle }

/-- WRAP_INDICATION_RECEIVE: a port that passes wraps, unless it was unwrapped within the last 1 ms (R369). -/
def doIndication (s : State) (east : Bool) : State :=
  let p := s.casPort east
  let young := match p.unwrapAt with | some c => decide (s.cycle - c < usCycles 1000) | none => false
  if p.lock = false ∨ casRuns s = false ∨ (p.wrap = false ∧ young = true) then s
  else
    let s1 := casWrap s east
    s1.setCasPort east { s1.casPort east with indication := true, since := if p.indication then p.since else s.cycle }

/-- WRAP_HOLD_EXPIRY: lock and wrap indication for 100 ms (R369). -/
def doWrapHold (s : State) (east : Bool) : State :=
  let p := s.casPort east
  if p.wrap ∧ p.lock ∧ p.indication ∧ usCycles 100000 ≤ s.cycle - p.since then s.setCasPort east { p with linkok := true } else s

/-! ## Registers (R371) -/

/-- CAS_CTL written. -/
def casCtlWrite (s : State) (v : Word) : State :=
  { s with cas := { s.cas with en := v.getLsbD 0, unwrapReq := s.cas.unwrapReq || (v.getLsbD 1 && isManager s) } }

/-- CAS_PRESENTSTAT (R364). -/
def presentNow (s : State) : BitVec 16 :=
  if isManager s then (s.cas.present &&& 0xFFFE) ||| BitVec.ofNat 16 (b2n s.cas.en) else if s.cas.joined then s.cas.present else 0

/-- A read in the CAS block; no token is held between two commands. -/
def casRead (s : State) (off : Nat) : RdAns :=
  let c := s.cas
  if off = 0 then rdVal s 0x00010000
  else if off = 4 then rdPack s [(1, b2n c.en)]
  else if off = 8 then
    rdPack s [(1, b2n c.east.lock), (1, b2n c.west.lock), (1, b2n c.east.wrap), (1, b2n c.west.wrap), (1, b2n (casMaySend s)), (2, 0), (1, b2n c.straperr)]
  else if off = 0xC then rdPack s [(1, b2n c.deliverBad)]
  else if off = 0x10 then rdVal s (c.pollper.setWidth 32)
  else if off = 0x14 then rdVal s (c.toktmo.setWidth 32)
  else if off = 0x18 then rdVal s (c.quota.setWidth 32)
  else if off = 0x1C then rdVal s ((presentNow s).setWidth 32)
  else if inTal off 0x200 12 then talRead s casBase off
  else
    match copyOf off 0x40 4 16, copyOf off 0x80 4 16, copyOf off 0x100 4 16, copyOf off 0x140 4 16 with
    | some (p, _), _, _, _ => rdVal s ((sget 0 c.rte p).setWidth 32)
    | _, some (k, _), _, _ =>
      let x := s.peer (BitVec.ofNat 4 k)
      rdPack s [(5, x.hops.toNat), (1, b2n x.hopsValid)]
    | _, _, some (n, _), _ => rdPack s [(16, (s.xq n).lqid.toNat), (4, (s.xq n).pkg.toNat), (1, b2n (s.xq n).en)]
    | _, _, _, some (n, _) => rdVal s ((s.xq n).dqid.setWidth 32)
    | none, none, none, none => none

/-- A write in the CAS block; the fields of an export queue are written while its EN is 0. -/
def casWrite (s : State) (off : Nat) (v : Word) : WrAns :=
  let c := s.cas
  let set := fun (x : Cas) => wrOk { s with cas := x }
  if off = 4 then wrOk (casCtlWrite s v)
  else if off = 0xC then set { c with deliverBad := v.getLsbD 0 }
  else if off = 0x10 then set { c with pollper := keepIf (slice v 0 8 == (0 : BitVec 8)) c.pollper (slice v 0 8) }
  else if off = 0x14 then set { c with toktmo := keepIf (slice v 0 16 == (0 : BitVec 16)) c.toktmo (slice v 0 16) }
  else if off = 0x18 then set { c with quota := keepIf (decide (bits v.toNat 0 7 = 0 ∨ 64 < bits v.toNat 0 7)) c.quota (slice v 0 7) }
  else if off = 0 ∨ off = 8 ∨ off = 0x1C ∨ inTal off 0x200 12 = true then wrOk s
  else
    match copyOf off 0x40 4 16, copyOf off 0x80 4 16, copyOf off 0x100 4 16, copyOf off 0x140 4 16 with
    | some (p, _), _, _, _ => set { c with rte := sput 0 c.rte p (slice v 0 2) }
    | _, some _, _, _ => wrOk s
    | _, _, some (n, _), _ =>
      let x := s.xq n
      if x.en then wrOk (s.setXq n { x with en := v.getLsbD 20 })
      else wrOk (s.setXq n { x with lqid := slice v 0 16, pkg := slice v 16 4, en := v.getLsbD 20 })
    | _, _, _, some (n, _) => if (s.xq n).en then wrOk s else wrOk (s.setXq n { s.xq n with dqid := slice v 0 16 })
    | none, none, none, none => none

/-! ## Meanings -/

/-- TOKEN_RECEIVE (R357 to R359). -/
def execTokenReceive (f : CasFrame) (s : State) : Host.Outcome State Fault Refusal := .next (doToken s f)
/-- TOKEN_REGENERATE (R359). -/
def execTokenRegenerate (ring : Bool) (s : State) : Host.Outcome State Fault Refusal := .next (doRegen s ring)
/-- FRAME_TRANSIT (R353, R355 to R357). -/
def execFrameTransit (f : CasFrame) (s : State) : Host.Outcome State Fault Refusal := .next (doTransit s f)
/-- RSP_RECEIVE (R357, R366). -/
def execRspReceive (f : CasFrame) (s : State) : Host.Outcome State Fault Refusal := .next (doRsp s f)
/-- ENQ_RECEIVE (R193, R357, R367). -/
def execEnqReceive (f : CasFrame) (s : State) : Host.Outcome State Fault Refusal := .next (doEnq s f)
/-- ENQRSP_RECEIVE (R367). -/
def execEnqrspReceive (f : CasFrame) (s : State) : Host.Outcome State Fault Refusal := .next (doEnqrsp s f)
/-- POLL_SEND (R361, R362, R364). -/
def execPollSend (s : State) : Host.Outcome State Fault Refusal := .next (doPollSend s)
/-- POLL_RECEIVE (R361 to R364, R369). -/
def execPollReceive (f : CasFrame) (s : State) : Host.Outcome State Fault Refusal := .next (doPoll s f)
/-- REPLY_RECEIVE (R357, R362, R364). -/
def execReplyReceive (f : CasFrame) (s : State) : Host.Outcome State Fault Refusal := .next (doReply s f)
/-- JOIN_TIMEOUT (R363, R364). -/
def execJoinTimeout (s : State) : Host.Outcome State Fault Refusal := .next (doJoinTimeout s)
/-- REMOTE_ACCESS (R29, R365). -/
def execRemoteAccess (ini : Initiator) (typ : PktType) (pa : Pa) (mask : BitVec 64) (data : List Byte) (act : ActId) (s : State) :
    Host.Outcome State Fault Refusal := .next (doRemote s ini typ pa mask data act)
/-- REMOTE_SLOT_TIMEOUT (R366). -/
def execRemoteSlotTimeout (slot : BitVec 8) (s : State) : Host.Outcome State Fault Refusal := .next (doSlotTimeout s slot.toNat)
/-- EXPORT_DEQUEUE (R367). -/
def execExportDequeue (n : BitVec 4) (s : State) : Host.Outcome State Fault Refusal := .next (doExport s n.toNat)
/-- LINK_LOCK_LOSS (R369, R370). -/
def execLinkLockLoss (east : Bool) (s : State) : Host.Outcome State Fault Refusal := .next (doLockLoss s east)
/-- CASCADE_RX_LOCK_GAIN (R369, R371). -/
def execCascadeRxLockGain (east : Bool) (s : State) : Host.Outcome State Fault Refusal := .next (doLockGain s east)
/-- WRAP_INDICATION_RECEIVE (R369). -/
def execWrapIndicationReceive (east : Bool) (s : State) : Host.Outcome State Fault Refusal := .next (doIndication s east)
/-- WRAP_HOLD_EXPIRY (R369). -/
def execWrapHoldExpiry (east : Bool) (s : State) : Host.Outcome State Fault Refusal := .next (doWrapHold s east)
/-- UNWRAP: a write of CAS_CTL with UNWRAP = 1 (R369, R371). -/
def execUnwrap (who : Initiator) (v : Word) (s : State) : Host.Outcome State Fault Refusal :=
  .next (regCmd s who (casBase + 4) (fun t => wrAnswer (.ok, casCtlWrite t (v ||| 2))))

end Sys2Proof.Machine
end

