-- ==== Sys2Proof/Machine/Stored.lean ====
section
/-! DEFINITION. Stored-data protection as commands: bulk reads and writes, the scrubber, the written-block map's clear, the flip mask,
triplicated words, and the EDC registers (R396 to R418, R221). -/

namespace Sys2Proof.Machine

/-! ## Bulk reads and writes -/

/-- An access is answered, or its wait goes on. -/
def settleAcc (x : Acc) : State :=
  match x with
  | .wait t => t
  | .done a t => t.answer a

/-- BULK_MEMORY_READ: route, gate and initialisation, then the checked words (R399, R400, R409). -/
def doBulkRead (s : State) (ini : Initiator) (pa : Pa) (len : Nat) (act : ActId) : State :=
  if (bulkMc pa.toNat).isNone then s else settleAcc (accRead s ini pa.toNat len act)

/-- BULK_MEMORY_WRITE (R401 to R403, R410, R415); poison bit i marks the i-th 16-bit word counted from the word of pa. -/
def doBulkWrite (s : State) (ini : Initiator) (pa : Pa) (d : List (Option Byte)) (poison : BitVec 128) (act : ActId) : State :=
  if (bulkMc pa.toNat).isNone then s
  else settleAcc (accWrite s ini pa.toNat d ((List.range 128).map (fun i => poison.getLsbD i)) act)

/-! ## Scrubber (R405) -/

/-- Words of a controller's memory. -/
def mcWords (m : Nat) : Nat := if m < 2 then 2 ^ 31 else if m = 2 then 2 ^ 22 else 2 ^ 20

/-- The package address of a word of a controller (R24). -/
def mcAddr (m w : Nat) : Nat :=
  if m < 2 then w * 8 / 256 * 512 + m * 256 + w * 8 % 256
  else if m = 2 then hubBase + w * 8
  else regionBase (BitVec.ofNat 4 (m - 3)) + w * 8

/-- The memory of a controller is initialised (R407); DRAM needs no initialisation. -/
def mcReady (s : State) (m : Nat) : Bool :=
  if m < 2 then true else if m = 2 then s.ready .hub else s.ready (.rm (BitVec.ofNat 4 (m - 3)))

/-- The controller's clock and memory are on (R434). -/
def mcOn (s : State) (m : Nat) : Bool :=
  s.lmp.pkg != .deep && (decide (m < 3) || (s.region (BitVec.ofNat 4 (m - 3))).st == .active)

/-- The scrubber reads one word. -/
def scrubWord (s : State) (m w : Nat) : State :=
  let a := mcAddr m w
  let syn := (s.synOf a).toNat
  let s1 := bulkCheck s m a true
  match eccClass syn with
  | .clean => s1
  | .single _ => tallyAdd (lastErr s1 m w syn 1 true) (mcBase m + 0x128) 1
  | .poison => tallyAdd (lastErr s1 m w syn 3 true) (mcBase m + 0x130) 1
  | .bad => tallyAdd (lastErr s1 m w syn 2 true) (mcBase m + 0x130) 1

/-- The scrubber passes a block of 8 words: a block that was never written is skipped. -/
def scrubBlock (s : State) (m w : Nat) : State :=
  let b := dramBlk (mcAddr m w)
  if m < 2 then
    let s1 := mapRead s b
    if s1.written b then upTo 8 (fun i t => scrubWord t m (w + i)) s1 else s1
  else upTo 8 (fun i t => scrubWord t m (w + i)) s

/-- A scrub read is due: EN, the memory ready, INTERVAL cycles of CLK_MGT past. -/
def scrubDue (s : State) (m : Nat) : Bool :=
  let x := s.mc m
  x.scrubEn && mcReady s m && mcOn s m && decide (m < 19) && decide (x.interval.toNat * 16 ≤ s.cycle - x.scrubSince)

/-- SCRUB_READ (R405). -/
def doScrub (s : State) (m : Nat) : State :=
  if scrubDue s m then
    let w := (s.mc m).scrubpos.toNat
    let s1 := scrubBlock s m w
    let last := decide (mcWords m ≤ w + 8)
    let s2 := s1.setMc m { s1.mc m with scrubpos := if last then 0 else BitVec.ofNat 31 (w + 8), scrubSince := s.cycle }
    if last then tallyAdd s2 (mcBase m + 0x138) 1 else s2
  else s

/-! ## Clearing the written-block map (R412) -/

/-- A write of COUNT: a reserved range starts nothing (R12). -/
def wmapStart (s : State) (v : Word) : Outc × State :=
  let e := s.edc
  let n := bits v.toNat 0 24
  if e.clrLeft ≠ 0 then (.notPermitted, s)
  else if n = 0 ∨ 8388608 < e.clrFirst.toNat + n then (.ok, s)
  else (.ok, { s with edc := { e with clrLeft := n, clrNext := e.clrFirst.toNat } })

/-- One block is cleared. -/
def wmapStep (s : State) : State :=
  let e := s.edc
  if e.clrLeft = 0 then s
  else { s with edc := { e with written := sput false e.written e.clrNext false, clrNext := e.clrNext + 1, clrLeft := e.clrLeft - 1 } }

/-- WMAP_CLEAR_DONE: the last block is cleared and BUSY falls (R412). -/
def doWmapDone (s : State) : State := if s.edc.clrLeft = 1 ∧ s.lmp.pkg ≠ .deep then wmapStep s else s

/-! ## Triplicated words (R413) -/

/-- The repairs of one cycle: each disagreeing word is counted and reported with its item, and its losing copy rewritten. -/
def tripRepair (s : State) : State :=
  let l := s.edc.trip
  l.foldl (fun t u => check (tallyAdd t (edcPkg + 0x100) 1) 0x3D7 true (u.item.setWidth 32))
    { s with edc := { s.edc with trip := [] } }

/-! ## Registers (R417, R418, R221) -/

/-- A write of EDC_MCm_FLIPCTL (R415). -/
def flipCtlWrite (s : State) (m : Nat) (v : Word) : Outc × State :=
  let x := s.mc m
  if x.arm then (.notPermitted, s) else (.ok, s.setMc m { x with chk := slice v 0 8, arm := v.getLsbD 8 })

/-- The block of a controller answers: not that of a DISABLED region (R417). -/
def mcListed (s : State) (m : Nat) : Bool :=
  decide (m < 3) || (decide (m < 19) && (s.region (BitVec.ofNat 4 (m - 3))).st != .disabled)

/-- A read in a controller's block. -/
def mcRead (s : State) (m off : Nat) : RdAns :=
  let x := s.mc m
  if mcListed s m = false then none
  else if off = 0 then rdPack s [(2, if m < 2 then 0 else if m = 2 then 1 else 2), (2, 0), (4, m - 3), (8, 0), (4, 1)]
  else if off = 4 then rdPack s [(1, b2n (mcReady s m)), (1, b2n (scrubDue s m))]
  else if off = 8 then rdPack s [(1, b2n x.scrubEn), (15, 0), (16, x.interval.toNat)]
  else if off = 0xC then rdVal s (x.scrubpos.setWidth 32)
  else if off = 0x10 then rdVal s x.fliplo
  else if off = 0x14 then rdVal s x.fliphi
  else if off = 0x18 then rdPack s [(8, x.chk.toNat), (1, b2n x.arm)]
  else if off = 0x20 then rdVal s x.errLo
  else if off = 0x24 then rdVal s x.errHi
  else if off = 0x28 then rdPack s [(8, (sget 0 s.mgc.spareRows m).toNat), (8, (sget 0 s.mgc.spareCols m).toNat)]
  else if inTal off 0x100 9 then talRead s (mcBase m) off
  else none

/-- A write in a controller's block. -/
def mcWrite (s : State) (m off : Nat) (v : Word) : WrAns :=
  let x := s.mc m
  if mcListed s m = false then none
  else if off = 8 then
    let i := slice v 16 16
    let en := v.getLsbD 0
    wrOk (s.setMc m { x with scrubEn := en, interval := keepIf (decide (i.toNat < 16)) x.interval i,
                             scrubSince := if en ∧ x.scrubEn = false then s.cycle else x.scrubSince })
  else if off = 0x10 then if x.arm then wrNo s else wrOk (s.setMc m { x with fliplo := v })
  else if off = 0x14 then if x.arm then wrNo s else wrOk (s.setMc m { x with fliphi := v })
  else if off = 0x18 then some (flipCtlWrite s m v)
  else if off = 0 ∨ off = 4 ∨ off = 0xC ∨ off = 0x20 ∨ off = 0x24 ∨ off = 0x28 ∨ inTal off 0x100 9 = true then wrOk s
  else none

/-- A read in the EDC block. -/
def edcRead (s : State) (off : Nat) : RdAns :=
  let e := s.edc
  if off < 0x13000 then mcRead s (off / 0x1000) (off % 0x1000)
  else if off = 0x20000 then rdVal s (e.clrFirst.setWidth 32)
  else if off = 0x20004 then rdVal s 0
  else if off = 0x20008 then rdPack s [(1, b2n (e.clrLeft != 0))]
  else if inTal off 0x20100 2 then talRead s (hubBlk 9) off
  else
    match copyOf off 0x80000 0x20 512 with
    | some (n, o) =>
      let d := s.dbud (BitVec.ofNat 9 n)
      if o = 0 then rdPack s [(1, b2n d.en), (3, d.num.toNat), (5, d.mult.toNat)]
      else if o = 4 then rdVal s (d.lim.setWidth 32)
      else if inTal o 8 2 then talRead s (hubBlk 9) off
      else none
    | none => none

/-- A write in the EDC block. -/
def edcWrite (s : State) (off : Nat) (v : Word) : WrAns :=
  let e := s.edc
  if off < 0x13000 then mcWrite s (off / 0x1000) (off % 0x1000) v
  else if off = 0x20000 then if e.clrLeft ≠ 0 then wrNo s else wrOk { s with edc := { e with clrFirst := slice v 0 23 } }
  else if off = 0x20004 then some (wmapStart s v)
  else if off = 0x20008 ∨ inTal off 0x20100 2 = true then wrOk s
  else
    match copyOf off 0x80000 0x20 512 with
    | some (n, o) =>
      if o = 0 then wrOk (dbudCfgWrite s (BitVec.ofNat 9 n) v)
      else if o = 4 then wrOk (dbudLimWrite s (BitVec.ofNat 9 n) v)
      else if inTal o 8 2 then wrOk s
      else none
    | none => none

/-! ## Meanings -/

/-- BULK_MEMORY_READ (R399, R400, R409). -/
def execBulkMemoryRead (ini : Initiator) (pa : Pa) (len : Nat) (act : ActId) (s : State) : Host.Outcome State Fault Refusal :=
  .next (doBulkRead s ini pa len act)
/-- BULK_MEMORY_WRITE (R401 to R403, R410). -/
def execBulkMemoryWrite (ini : Initiator) (pa : Pa) (bytes : List (Option Byte)) (poison : BitVec 128) (act : ActId) (s : State) :
    Host.Outcome State Fault Refusal := .next (doBulkWrite s ini pa bytes poison act)
/-- SCRUB_READ (R405). -/
def execScrubRead (m : McId) (s : State) : Host.Outcome State Fault Refusal := .next (doScrub s m.toNat)
/-- WMAP_CLEAR_START: a write of EDC_WMAPCLR1 (R412). -/
def execWmapClearStart (who : Initiator) (v : Word) (s : State) : Host.Outcome State Fault Refusal :=
  .next (regCmd s who (edcPkg + 4) (fun t => wrAnswer (wmapStart t v)))
/-- WMAP_CLEAR_DONE (R412). -/
def execWmapClearDone (s : State) : Host.Outcome State Fault Refusal := .next (doWmapDone s)
/-- FLIP_ARM: a write of EDC_MCm_FLIPCTL with ARM = 1 (R415). -/
def execFlipArm (who : Initiator) (m : McId) (v : Word) (s : State) : Host.Outcome State Fault Refusal :=
  .next (regCmd s who (mcBase m.toNat + 0x18) (fun t =>
    if mcListed t m.toNat then wrAnswer (flipCtlWrite t m.toNat (v ||| 0x100)) else t.answerOnly .routeFault))

end Sys2Proof.Machine
end

