-- ==== Sys2Proof/Machine/Scriv.lean ====
section
/-! DEFINITION. The Scrivener: records and their validity, values, appends, compaction, recovery, and the SCV registers (R469 to R481). -/

namespace Sys2Proof.Machine

/-- Base of the SCV block. -/
def scvBase : Nat := hubBlk 8
/-- SCV counter i: 0 APPEND, 1 COMPACT, 2 CRCFAIL, 3 RATEWAIT. -/
def scvTal (s : State) (i n : Nat) : State := tallyAdd s (scvBase + 0x100 + 8 * i) n

/-! ## CRC-32C (RFC 3720; PRESUMED, log 23) -/

/-- One bit of the reflected CRC with the Castagnoli polynomial. -/
def crc32cBit (r : Nat) : Nat := if r % 2 = 1 then (r / 2) ^^^ 0x82F63B78 else r / 2
/-- One byte. -/
def crc32cByte (r : Nat) (b : Byte) : Nat := upTo 8 (fun _ x => crc32cBit x) (r ^^^ b.toNat)
/-- CRC-32C of a byte string. -/
def crc32c (d : List Byte) : Nat := d.foldl crc32cByte 0xFFFFFFFF ^^^ 0xFFFFFFFF

/-! ## Records (R470, R471) -/

/-- The 64 bytes of a record. -/
def recBytes (b : Block64) : List Byte := bytesOfNat 64 b.toNat
/-- SEQ. -/
def recSeq (b : Block64) : Word := slice b 0 32
/-- TYPE. -/
def recType (b : Block64) : Byte := slice b 32 8
/-- LEN. -/
def recLen (b : Block64) : Byte := slice b 40 8
/-- KEY. -/
def recKey (b : Block64) : BitVec 16 := slice b 48 16
/-- Payload byte o, n bytes. -/
def recPay (b : Block64) (o n : Nat) : Nat := bits b.toNat (64 + 8 * o) (8 * n)

/-- Bytes 0x00–0x3B of a record. -/
def recHead (seq : Word) (a : JAppend) : Nat :=
  packLE [(32, seq.toNat), (8, a.typ.toNat), (8, a.len.toNat), (16, a.key.toNat), (384, a.payload.toNat % 2 ^ (8 * a.len.toNat))]

/-- A record with its CRC. -/
def mkRec (seq : Word) (a : JAppend) : Block64 :=
  BitVec.ofNat 512 (recHead seq a + crc32c (bytesOfNat 60 (recHead seq a)) * 2 ^ 480)

/-- A record is valid: its CRC holds, its TYPE and LEN are defined. -/
def recValid (b : Block64) : Bool :=
  bits b.toNat 480 32 == crc32c ((recBytes b).take 60) && recType b != 0 && recType b != 0xFF && decide ((recLen b).toNat ≤ 48)

/-- The ring position of a sequence number. -/
def ringPos (seq : Word) : Nat := 131072 + seq.toNat % 131072
/-- The record at a position of the store. -/
def Scv.recAt (x : Scv) (p : Nat) : Block64 := sget 0 x.store p
/-- The valid record with a sequence number in the ring. -/
def Scv.ringRec (x : Scv) (seq : Word) : Option Block64 :=
  let b := x.recAt (ringPos seq)
  if recValid b ∧ recSeq b = seq then some b else none

/-- The first position of an area. -/
def areaPos (area : Bool) : Nat := if area then 65536 else 0

/-! ## Values (R471, R472) -/

/-- The key of a (TYPE, KEY) pair. -/
def pairKey (typ : Byte) (key : BitVec 16) : Nat := typ.toNat * 65536 + key.toNat

/-- A record acts on the values. -/
def applyRec (m : Sparse Block64) (b : Block64) : Sparse Block64 :=
  if recType b = 2 then m
  else if recType b = 3 then drop m (pairKey (BitVec.ofNat 8 (recPay b 0 1)) (recKey b))
  else insertKey (pairKey (recType b) (recKey b)) b (drop m (pairKey (recType b) (recKey b)))

/-- The values of the snapshot. -/
def Scv.snapshot (x : Scv) : Sparse Block64 := upTo x.count (fun i m => applyRec m (x.recAt (areaPos x.area + i))) []

/-- Ring records that follow CUT. -/
def Scv.fill (x : Scv) : Nat := if x.next = x.cut then 0 else (x.next - 1 - x.cut).toNat

/-- The live set: the snapshot, then every valid ring record with SEQ > CUT in order. -/
def Scv.live (x : Scv) : Sparse Block64 :=
  upTo x.fill (fun i m =>
    match x.ringRec (x.cut + 1 + BitVec.ofNat 32 i) with
    | some b => applyRec m b
    | none => m) x.snapshot

/-- The values once every waiting append is written. -/
def Scv.liveAll (x : Scv) : Sparse Block64 := x.queue.foldl (fun m a => applyRec m (mkRec 0 a)) x.live

/-- A host append would add a pair to a full set (R472). -/
def Scv.noRoom (x : Scv) (a : JAppend) : Bool :=
  let m := x.liveAll
  a.typ != 3 && decide (65535 ≤ m.length) && !m.any (fun p => p.1 == pairKey a.typ a.key)

/-! ## Appends (R473) -/

/-- An append joins the queue. -/
def jPush (s : State) (a : JAppend) : State := { s with scv := { s.scv with queue := s.scv.queue ++ [a] } }

/-- The Assayer's fatal record number n becomes a FAULT record (R430, R471). -/
def jFatal (s : State) (r : Entry) : State :=
  let t := jPush s { cmd := none, typ := 1, len := 32, key := BitVec.ofNat 16 (s.scv.fatalN % 64), payload := r.setWidth 384, waited := false }
  { t with scv := { t.scv with fatalN := t.scv.fatalN + 1 } }

/-- A record is written to the ring; its command completes with SEQ. -/
def jStore (s : State) (a : JAppend) : State :=
  let x := s.scv
  let seq := x.next
  let t := { s with scv := { x with store := sput 0 x.store (ringPos seq) (mkRec seq a), next := seq + 1 } }
  match a.cmd with
  | some (ring, idx) => completeCmd t ring idx .ok 0 seq 0
  | none => t

/-- The units of one record in the bucket. -/
def recordCost : Nat := 3932160000

/-- The Scrivener may write a record now: the store is replayed, CLK_JRN runs, 128 of its cycles have passed since the last one. -/
def scvFree (s : State) : Bool := s.lmp.pkg != .deep && decide (9 ≤ s.mgc.step.toNat) && decide (s.scv.wroteAt + 4096 ≤ s.cycle)

/-- JOURNAL_RECORD_WRITE: the oldest append with a token; without one it waits and is counted once. -/
def doRecordWrite (s : State) : State :=
  let x := s.scv
  match x.queue with
  | [] => s
  | a :: rest =>
    if scvFree s = false then s
    else if x.bucket < recordCost then
      if a.waited then s else scvTal { s with scv := { x with queue := { a with waited := true } :: rest } } 3 1
    else scvTal (jStore { s with scv := { x with queue := rest, bucket := x.bucket - recordCost, wroteAt := s.cycle } } a) 0 1

/-- The bucket gains one root cycle's share. -/
def scvRefill (s : State) : State :=
  { s with scv := { s.scv with bucket := min fullBucket (s.scv.bucket + s.scv.rate.toNat) } }

/-! ## Compaction (R474) -/

/-- Writes values into an area. -/
def writeArea (st : Sparse Block64) (p : Nat) : List (Nat × Block64) → Sparse Block64
  | [] => st
  | v :: rest => writeArea (sput 0 st p v.2) (p + 1) rest

/-- Steps 1 and 2: CUT is the newest SEQ, the live values go to the inactive area. -/
def compactBegin (s : State) (cmd : Option (RingId × Word)) : State :=
  let x := s.scv
  let l := x.live
  let c : Compaction := { cmd := cmd, cut := x.next - 1, area := !x.area, count := l.length, since := s.cycle }
  { s with scv := { x with store := writeArea x.store (areaPos (!x.area)) l, compact := some c } }

/-- The first n records of an area. -/
def areaBytes (x : Scv) (area : Bool) (n : Nat) : List Byte := (List.range n).flatMap (fun i => recBytes (x.recAt (areaPos area + i)))

/-- The COMMIT record of an area (R474 step 3). -/
def commitRec (x : Scv) (area : Bool) (count : Nat) (cut : Word) : JAppend :=
  { cmd := none, typ := 2, len := 16, key := 0, waited := false,
    payload := BitVec.ofNat 384 (packLE [(8, b2n area), (24, 0), (32, count), (32, cut.toNat), (32, crc32c (areaBytes x area count))]) }

/-- A JOURNAL event (R477). -/
def journalEvent (s : State) (reason : Nat) : State :=
  pushEvent s 8 (srcHub 6) 0 0 (packLE [(8, reason), (24, 0), (32, s.scv.cut.toNat)])

/-- COMPACTION_START: fill has reached 98 304. -/
def doCompactStart (s : State) : State :=
  if s.scv.compact.isSome ∨ s.scv.fill < 98304 ∨ s.lmp.pkg = .deep then s else compactBegin s none

/-- COMPACTION_COMMIT: the snapshot is written, the COMMIT is durable, the area becomes active (R474 steps 3 and 4). -/
def doCompactCommit (s : State) : State :=
  match s.scv.compact with
  | none => s
  | some c =>
    if s.cycle < c.since + 4096 * (c.count + 1) ∨ scvFree s = false then s
    else
      let t := jStore s (commitRec s.scv c.area c.count c.cut)
      let x := { t.scv with area := c.area, count := c.count, cut := c.cut, compact := none, lastCommit := some t.cycle, wroteAt := t.cycle }
      let t1 := journalEvent (scvTal { t with scv := x } 1 1) 0
      match c.cmd with
      | some (ring, idx) => completeCmd t1 ring idx .ok 0 (BitVec.ofNat 32 c.count) c.cut
      | none => t1

/-! ## Recovery (R475, R476) -/

/-- The valid records of the ring, each at its position. -/
def ringValids (x : Scv) : List Block64 :=
  (x.store.filter (fun p => decide (131072 ≤ p.1) && recValid p.2 && ringPos (recSeq p.2) == p.1)).map (fun p => p.2)

/-- Written ring positions that hold no valid record. -/
def ringBad (x : Scv) : Nat :=
  (x.store.filter (fun p => decide (131072 ≤ p.1) && !(recValid p.2 && ringPos (recSeq p.2) == p.1))).length

/-- The newest of two sequence numbers modulo 2^32. -/
def seqNewer (a b : Word) : Bool := decide ((a - b).toNat < 2 ^ 31) && a != b

/-- The newest record: no valid record one greater stands at the next position. -/
def newestRec (x : Scv) : Option Block64 :=
  let l := (ringValids x).filter (fun b => (x.ringRec (recSeq b + 1)).isNone)
  l.foldl (fun m b =>
    match m with
    | none => some b
    | some a => if seqNewer (recSeq b) (recSeq a) then some b else m) none

/-- AREA, COUNT, CUT and SNAPCRC of a COMMIT. -/
def commitArea (b : Block64) : Bool := recPay b 0 1 != 0
/-- COUNT of a COMMIT. -/
def commitCount (b : Block64) : Nat := recPay b 4 4
/-- CUT of a COMMIT. -/
def commitCut (b : Block64) : Word := BitVec.ofNat 32 (recPay b 8 4)

/-- The area of a COMMIT passes SNAPCRC. -/
def commitOk (x : Scv) (b : Block64) : Bool :=
  decide (commitCount b ≤ 65536) && crc32c (areaBytes x (commitArea b) (commitCount b)) == recPay b 12 4

/-- The ring still holds every record from a COMMIT's CUT + 1 to the newest. -/
def ringComplete (x : Scv) (newest : Word) (b : Block64) : Bool :=
  decide ((newest - commitCut b).toNat ≤ 131072) &&
    (List.range (newest - commitCut b).toNat).all (fun i => (x.ringRec (commitCut b + 1 + BitVec.ofNat 32 i)).isSome)

/-- The COMMIT that recovery uses, walking back from the newest record. -/
def pickCommit (x : Scv) (newest : Word) : Option Block64 :=
  let l := (ringValids x).filter (fun b => recType b == 2)
  let dist := fun (b : Block64) => (newest - recSeq b).toNat
  let first := (l.map dist).min?
  let ok := l.filter (fun b => commitOk x b && (some (dist b) == first || ringComplete x newest b))
  match (ok.map dist).min? with
  | some d => ok.find? (fun b => dist b == d)
  | none => none

/-- The store is formatted: an empty area A and a COMMIT with CUT = newest SEQ; with no record there is no newest SEQ, and it is a free
value (log 9). -/
def formatStore (s : State) (newest : Option Word) : State :=
  let (n, s1) := match newest with
    | some w => (w, s)
    | none => let (k, t) := takeFree s; (Config.free32 k, t)
  let had := newest.isSome
  let x := { s1.scv with area := false, count := 0, cut := n, next := n + 1, lost := s1.scv.lost || had }
  let s2 := jStore { s1 with scv := x } (commitRec x false 0 n)
  let reason := if had then 2 else 1
  journalEvent (report s2 (srcHub 6) (BitVec.ofNat 32 reason)) reason

/-- Step 8 of the boot: replay (R475, R476). -/
def scvReplay (s : State) : State :=
  let s1 := scvTal s 2 (ringBad s.scv)
  match newestRec s1.scv with
  | none => formatStore s1 none
  | some b =>
    match pickCommit s1.scv (recSeq b) with
    | none => formatStore s1 (some (recSeq b))
    | some c => { s1 with scv := { s1.scv with area := commitArea c, count := commitCount c, cut := commitCut c, next := recSeq b + 1 } }

/-! ## Registers (R481) and the read aperture (R30, R469) -/

/-- A read in the SCV block. -/
def scvRead (s : State) (off : Nat) : RdAns :=
  let x := s.scv
  if off = 0 then rdVal s 0x00010000
  else if off = 4 then rdPack s [(1, b2n x.area), (1, b2n x.compact.isSome), (1, b2n x.lost), (17, min x.fill 131072)]
  else if off = 8 then rdVal s (x.rate.setWidth 32)
  else if off = 0xC then rdVal s x.next
  else if off = 0x10 then rdVal s x.cut
  else if off = 0x14 then rdVal s (BitVec.ofNat 32 x.live.length)
  else if inTal off 0x100 4 then talRead s scvBase off
  else none

/-- A write in the SCV block. -/
def scvWrite (s : State) (off : Nat) (v : Word) : WrAns :=
  let x := s.scv
  if off = 4 then wrOk { s with scv := { x with lost := x.lost && !v.getLsbD 2 } }
  else if off = 8 then
    let r := slice v 0 14
    wrOk { s with scv := { x with rate := keepIf (decide (r.toNat = 0 ∨ 10000 < r.toNat)) x.rate r } }
  else if off = 0 ∨ off = 0xC ∨ off = 0x10 ∨ off = 0x14 ∨ inTal off 0x100 4 = true then wrOk s
  else none

/-- n bytes of the store from an offset of the read aperture. -/
def journalBytes (s : State) (off n : Nat) : List Byte :=
  (List.range n).map (fun i => slice (s.scv.recAt ((off + i) / 64)) (8 * ((off + i) % 64)) 8)

/-! ## Meanings -/

/-- JOURNAL_RECORD_WRITE (R473). -/
def execJournalRecordWrite (s : State) : Host.Outcome State Fault Refusal := .next (doRecordWrite s)
/-- COMPACTION_START (R474). -/
def execCompactionStart (s : State) : Host.Outcome State Fault Refusal := .next (doCompactStart s)
/-- COMPACTION_COMMIT (R474). -/
def execCompactionCommit (s : State) : Host.Outcome State Fault Refusal := .next (doCompactCommit s)

end Sys2Proof.Machine
end

