-- ==== Sys2Proof/Machine/Assayer.lean ====
section
/-! DEFINITION. The Assayer: units, fences and resets, classes, reactions, injection, the log, and the ASY registers (R419 to R433,
R508). -/

namespace Sys2Proof.Machine

/-- Assayer counter i: 0 EVT, 1 LOGLOST, 2 FATALLOST, 3 MERGED, 4 RPF, 5 INJ. -/
def asyTal (s : State) (i : Nat) : State := tallyAdd s (asyBase + 0x100 + 8 * i) 1
/-- A source's counter: 0 TAL_EVT, 1 TAL_INJ. -/
def srcTal (s : State) (n : SourceId) (i : Nat) : State := tallyAdd s (asyBase + 0x10010 + 0x20 * n.toNat + 8 * i) 1

/-! ## Sources and units (R419, R508) -/

/-- A source that the table of R419 lists. -/
def srcListed (n : SourceId) : Bool :=
  let a := n.toNat
  !(decide (0x300 ≤ a ∧ a < 0x3C0 ∧ 9 ≤ (a - 0x300) % 12) || decide (0x3C0 ≤ a ∧ a < 0x3D0 ∧ a % 4 = 3) || decide (0x3E4 ≤ a ∧ a < 0x3FF))

/-- A source whose checker uses check bits (R419, R425). -/
def injectable (n : SourceId) : Bool :=
  let a := n.toNat
  decide (a < 0x200) || decide (a < 0x300 ∧ a % 4 < 2) ||
    decide (0x300 ≤ a ∧ a < 0x3C0 ∧ ((a - 0x300) % 12 = 0 ∨ (a - 0x300) % 12 = 3 ∨ (a - 0x300) % 12 = 4 ∨ (a - 0x300) % 12 = 5)) ||
    decide (0x3C0 ≤ a ∧ a < 0x3D0 ∧ a % 4 = 0) || decide (0x3D0 ≤ a ∧ a ≤ 0x3D8)

/-- The output port that a link detail names; an NI and a hub-bound gateway channel have no router port (R264, R508). -/
def linkUnit (d : Word) : FaultUnit :=
  let el := bits d.toNat 0 8
  let p := slice d 8 3
  if el < 0x40 then .port (.mesh (BitVec.ofNat 6 el)) p
  else if el = 0xA0 then .port .h0 p
  else if el = 0xA1 then .port .h1 p
  else if 0xB0 ≤ el ∧ el < 0xB4 then .port (.gwDie (BitVec.ofNat 2 (el - 0xB0))) p
  else .none

/-- The unit of a source and its detail word (R419). -/
def unitOf (n : SourceId) (d : Word) : FaultUnit :=
  let a := n.toNat
  if a < 0x200 then .core (slice n 0 9)
  else if a < 0x300 then .cluster (BitVec.ofNat 6 ((a - 0x200) / 4))
  else if a < 0x3C0 then
    let r := (a - 0x300) / 12
    let i := (a - 0x300) % 12
    if i = 0 then .engine (BitVec.ofNat 8 (16 * r + bits d.toNat 12 4))
    else if i = 5 then linkUnit d
    else if i < 9 then .region (BitVec.ofNat 4 r)
    else .none
  else if a < 0x3D0 ∧ a % 4 = 0 ∨ a = 0x3D8 then linkUnit d
  else .none

/-! ## Fences and resets (R424) -/

/-- A waiting record keeps no storage of core k any longer. -/
def freeHolder (k : BitVec 3) (w : WaitRec) : WaitRec :=
  match w.holder with
  | .suspended j _ => if j = k then { w with holder := .none } else w
  | .bound j => if j = k then { w with holder := .none } else w
  | .killed j => if j = k then { w with holder := .none } else w
  | _ => w

/-- The tasks of core k that a fence completes: bound, running and suspended ones that have not ended. -/
def fencedTasks (y : SCore) : List Task :=
  let cur := match y.st, y.cur with
    | .running, some t => [t]
    | .bound, some t => if y.dead then [] else [t]
    | _, _ => []
  cur ++ y.next.toList ++ y.susp.filter (fun t => !t.dead)

/-- A fence of a core: it halts at its next bundle boundary, and its tasks complete CANCELLED whatever their class. -/
def fenceCore (s : State) (g : CoreId) : State :=
  let c := s.core g
  let s1 := if c.st = .halted then s
    else if c.held.isSome then s.setCore g { c with haltReq := true }
    else s.setCore g { c with st := .halted, haltReq := false }
  let gc := coreCluster g
  let k := coreIndex g
  let y := (s1.slice gc).score k
  let x0 := { s1.slice gc with waitRecs := (s1.slice gc).waitRecs.map (freeHolder k) }
  let x1 := (fencedTasks y).foldl (fun x t => (emitRecord (returnStolen x t) (taskRecord s1 t .cancelled 0) .none).2) x0
  let y1 := { y with st := .free, cur := none, next := none, resume := false, notice := false, killed := false, noticePend := none,
                     dispatch := none, preempt := none, susp := [], dead := false, ended := false }
  s1.setSlice gc (x1.setScore k y1)

/-- The cores of a cluster are fenced. -/
def fenceCluster (s : State) (gc : ClusterId) : State := upTo 8 (fun k t => fenceCore t (coreOf gc (BitVec.ofNat 3 k))) s

/-- Every cluster and engine of a region is fenced. -/
def fenceRegion (s : State) (r : RegionId) : State :=
  upTo 16 (fun i t => engKill t (BitVec.ofNat 8 (16 * r.toNat + i))) (upTo 4 (fun c t => fenceCluster t (clusterOf r (BitVec.ofNat 2 c))) s)

/-- A unit is fenced for a source. -/
def fenceUnit (s : State) (n : SourceId) (u : FaultUnit) : State :=
  let f : Fence := { src := n, unit := u }
  let s1 := if u = .none ∨ s.asy.fences.contains f then s else { s with asy := { s.asy with fences := s.asy.fences ++ [f] } }
  match u with
  | .core g => fenceCore s1 g
  | .engine e => engKill s1 e
  | .cluster gc => fenceCluster s1 gc
  | .region r => fenceRegion s1 r
  | _ => s1

/-- The RESET reaction of a unit (R141, R178, R424). -/
def resetUnit (s : State) (u : FaultUnit) : State :=
  match u with
  | .core g => unitResetCore s g
  | .engine e => engUnitReset s e
  | .cluster gc => clusterReset s gc
  | .region r => regionReset s r
  | _ => s

/-- A write of ASY_UNFENCE: the fences of the source end, and ports that no cause holds leave their lock (R255, R424). -/
def unfence (s : State) (n : SourceId) : State :=
  let l := s.asy.fences.filter (fun f => f.src == n)
  l.foldl (fun t f => unlockUnit t f.unit) { s with asy := { s.asy with fences := s.asy.fences.filter (fun f => f.src != n) } }

/-! ## Safe state (R427) -/

/-- The source belongs to the Clockmaker: its own, and the root synthesiser's. -/
def cmkSource (n : SourceId) : Bool := n == srcHub 2 || n == 0x3E2

/-- The package enters safe state: every region is fenced, the Crier stops. -/
def enterSafe (s : State) (n : SourceId) : State :=
  if s.asy.safe then s
  else
    let s1 := { s with asy := { s.asy with safe := true, safeByCmk := cmkSource n } }
    criStop (upTo 16 (fun r t => fenceRegion t (BitVec.ofNat 4 r)) s1)

/-! ## Records (R428 to R430) -/

/-- A record is formed: it consumes a SEQ, waits for the log ring with LOG, and a FATAL one enters the fatal log and the journal. -/
def formRecord (s : State) (n : SourceId) (cls flags react : Nat) (cnt : BitVec 16) (d : Word) : State :=
  let a := s.asy
  let e : Entry := BitVec.ofNat 256 (packLE (tsFields s.now ++
    [(16, n.toNat), (8, cls + flags), (8, react), (16, cnt.toNat), (16, 0), (32, d.toNat), (32, a.seq.toNat)]))
  let s1 := { s with asy := { a with seq := a.seq + 1 } }
  let s2 := if react.testBit 0 = false then s1
    else if a.buf.length < 64 then { s1 with asy := { s1.asy with buf := a.buf ++ [e] } }
    else asyTal s1 1
  if cls = 3 then
    let s3 := if a.fatal.length < 8 then { s2 with asy := { s2.asy with fatal := a.fatal ++ [e] } } else asyTal s2 2
    jFatal s3 e
  else s2

/-! ## Reactions (R424) -/

/-- The reactions that have an effect for the unit. -/
def reactsOn (u : FaultUnit) (react : Nat) : Nat :=
  let fence := match u with | .none => 0 | _ => 4
  let reset := match u with | .none => 0 | .port _ _ => 0 | _ => 8
  react &&& (0x33 + fence + reset)

/-- The reactions to an event: record, FAULT event, fence, reset, pin, safe state. -/
def react (s : State) (n : SourceId) (cls flags mask : Nat) (cnt : BitVec 16) (d : Word) : State :=
  let u := unitOf n d
  let m := reactsOn u mask
  let s1 := if m.testBit 0 ∨ cls = 3 then formRecord s n cls flags m cnt d else s
  let s2 := if m.testBit 1 then
      pushEvent s1 1 n 0 0 (packLE [(8, cls), (8, flags), (16, cnt.toNat), (32, d.toNat)])
    else s1
  let s3 := if m.testBit 2 ∨ m.testBit 3 then fenceUnit s2 n u else s2
  let s4 := if m.testBit 3 then resetUnit s3 u else s3
  let s5 := if m.testBit 4 then { s4 with asy := { s4.asy with pin := true } } else s4
  if m.testBit 5 then enterSafe s5 n else s5

/-! ## Events and windows (R420 to R423, R426) -/

/-- The length of a window in root cycles. -/
def winCycles (x : FaultSrc) : Nat :=
  let us := x.winVal.toNat * (if x.winUnit = 0 then 1 else if x.winUnit = 1 then 1000 else 1000000)
  usCycles us

/-- The window closes when its time has come. -/
def closeWindow (s : State) (n : SourceId) : State :=
  let x := s.src n
  if x.wopen ∧ x.windowEnd ≤ s.cycle then s.setSrc n { x with wopen := false, cnt := 0 } else s

/-- A COUNTED event in its window: CNT, and TRANSIENT or SEVERE. The value of CNT past 65 535 is free (log 9). -/
def countEvent (s : State) (n : SourceId) : State :=
  let s1 := closeWindow s n
  let x := s1.src n
  if x.wopen then
    if x.cnt = 0xFFFF then
      let (k, s2) := takeFree s1
      s2.setSrc n { x with cnt := Config.free16 k }
    else s1.setSrc n { x with cnt := x.cnt + 1 }
  else s1.setSrc n { x with wopen := true, cnt := 1, windowEnd := s.cycle + winCycles x }

/-- The class of an event after it has been counted (R422, R423). -/
def classOf (x : FaultSrc) : BitVec 3 :=
  if x.kind = 2 then 3 else if x.kind = 1 then 0 else if x.cnt.toNat < x.thresh.toNat then 1 else 2

/-- A real event: counted, classified, reacted to; with EN = 0 it is counted only (R433). -/
def realEvent (s : State) (n : SourceId) (ev : FaultEv) : State :=
  let s0 := asyTal (srcTal s n 0) 0
  let s1 := s0.setSrc n { s0.src n with lastDet := ev.detail }
  if (s1.src n).en = false then s1
  else
    let s2 := if (s1.src n).kind = 0 then countEvent s1 n else s1
    let x := s2.src n
    let c := classOf x
    let s3 := s2.setSrc n { x with lastClass := c }
    react s3 n c.toNat (16 * b2n ev.durinj + 32 * b2n x.rpf) (if c.toNat < 2 then x.loreact.toNat else x.hireact.toNat) x.cnt ev.detail

/-- An injected evaluation: class INFO, the reactions of ASY_INJMASK (R426). -/
def injEvent (s : State) (n : SourceId) (ev : FaultEv) : State :=
  let s0 := asyTal (srcTal s n 1) 5
  let x := { s0.src n with lastDet := ev.detail, lastClass := 0 }
  react (s0.setSrc n x) n 0 (8 + 32 * b2n x.rpf) s0.asy.injmask.toNat x.cnt ev.detail

/-- FAULT_SOURCE_EVENT: the source presents the oldest event its checkers have queued; with none queued its checker finds one now, with
the detail word of the command. -/
def doSourceEvent (s : State) (n : SourceId) (d : Word) : State :=
  if srcListed n = false ∨ s.mgc.porst = true then s
  else
    let s1 := if sget [] s.asy.queued n.toNat = [] then check s n true d else s
    match sget [] s1.asy.queued n.toNat with
    | [] => s1
    | ev :: rest =>
      let s2 := { s1 with asy := { s1.asy with queued := sput [] s1.asy.queued n.toNat rest } }
      if ev.inj then injEvent s2 n ev else realEvent s2 n ev

/-- REPORT_PATH_FAULT (R421): one report of class REPORT_PATH with the reactions of ASY_RPREACT. -/
def doReportPath (s : State) (n : SourceId) : State :=
  if srcListed n = false ∨ s.mgc.porst = true then s
  else
    let x := { s.src n with rpf := true }
    react (asyTal (s.setSrc n x) 4) n 4 32 s.asy.rpreact.toNat x.cnt x.lastDet

/-! ## Injection (R425, R426) -/

/-- FAULT_INJECT on a source and a count. -/
def injectCmd (s : State) (ring : RingId) (idx : Word) (src cnt : Nat) : State :=
  let n : SourceId := BitVec.ofNat 10 src
  if cnt = 0 then completeOk s ring idx .badDescriptor
  else if 1024 ≤ src ∨ injectable n = false ∨ 16 ≤ s.asy.inj.length then completeOk s ring idx .refused
  else if s.asy.inj.any (fun j => j.src == n) then completeOk s ring idx .conflict
  else
    let j : Injection := { src := n, ring := ring, idx := idx, left := cnt, done := 0, since := s.cycle }
    cmdRunning { s with asy := { s.asy with inj := s.asy.inj ++ [j] } } ring idx

/-- FAULT_INJECT_TIMEOUT: 1 s after the command, with the number done (R426). -/
def doInjTimeout (s : State) (n : SourceId) : State :=
  match s.asy.inj.find? (fun j => j.src == n) with
  | none => s
  | some j =>
    if s.cycle < j.since + 3932160000 then s
    else
      completeCmd { s with asy := { s.asy with inj := s.asy.inj.filter (fun x => x.src != n) } } j.ring j.idx .timeout 0
        (BitVec.ofNat 32 j.done) 0

/-! ## The log ring (R429) -/

/-- LOG_RECORD_WRITE: the oldest record of the buffer goes to its slot, SEQ mod 2^LOG2N. -/
def doLogWrite (s : State) : State :=
  match s.asy.buf with
  | [] => s
  | e :: rest =>
    if s.ready .hub = false ∨ s.lmp.pkg = .deep then s
    else
      let slot := bits e.toNat 192 32 % 2 ^ s.asy.log2n.toNat
      let off := (s.asy.logBase.toNat + 32 * slot) % 0x2000000
      (bulkWrite { s with asy := { s.asy with buf := rest } } (hubBase + off) ((bytesOfNat 32 e.toNat).map some) 0 0).2

/-! ## Registers (R433) -/

/-- ASY_SRCs_CFG. -/
def srcCfgWord (n : SourceId) (x : FaultSrc) : Word :=
  BitVec.ofNat 32 (packLE [(1, b2n x.en), (2, x.kind.toNat), (1, b2n (fatalSource n.toNat)), (6, x.loreact.toNat), (6, x.hireact.toNat),
    (8, x.thresh.toNat)])
/-- ASY_SRCs_WIN. -/
def srcWinWord (x : FaultSrc) : Word := BitVec.ofNat 32 (packLE [(16, x.winVal.toNat), (2, x.winUnit.toNat)])
/-- ASY_SRCs_STAT. -/
def srcStatWord (s : State) (n : SourceId) (x : FaultSrc) : Word :=
  let j := s.asy.inj.find? (fun j => j.src == n)
  BitVec.ofNat 32 (packLE [(16, x.cnt.toNat), (3, x.lastClass.toNat), (1, b2n x.wopen), (1, b2n x.rpf), (1, b2n j.isSome),
    (8, match j with | some i => i.left | none => 0)])

/-- The 32 bytes of FAULT_QUERY for a source (R431). -/
def queryBytes (s : State) (n : SourceId) : List Byte :=
  let x := s.src n
  let t := fun i => (sget 0 s.tally (asyBase + 0x10010 + 0x20 * n.toNat + 8 * i)).toNat
  bytesOfNat 32 (packLE [(32, (srcCfgWord n x).toNat), (32, (srcWinWord x).toNat), (32, (srcStatWord s n x).toNat), (32, x.lastDet.toNat),
    (64, t 0), (64, t 1)])

/-- The fatal log as 256 bytes (R430, R431). -/
def fatalBytes (s : State) : List Byte := fitBytes 256 (s.asy.fatal.flatMap (fun e => bytesOfNat 32 e.toNat))

/-- A read in the ASY block. -/
def asyRead (s : State) (off : Nat) : RdAns :=
  let a := s.asy
  if off = 0 then rdVal s 0x00010000
  else if off = 4 then rdPack s [(1, b2n a.pin), (1, b2n a.safe), (4, a.fatal.length)]
  else if off = 8 then rdVal s (a.rpreact.setWidth 32)
  else if off = 0xC then rdVal s (a.injmask.setWidth 32)
  else if off = 0x10 then rdPack s [(25, a.logBase.toNat), (4, a.log2n.toNat)]
  else if off = 0x14 then rdVal s a.seq
  else if off = 0x18 then rdVal s 0
  else if inTal off 0x100 6 then talRead s asyBase off
  else
    match copyOf off 0x10000 0x20 1024 with
    | some (i, o) =>
      let n : SourceId := BitVec.ofNat 10 i
      let x := s.src n
      if o = 0 then rdVal s (srcCfgWord n x)
      else if o = 4 then rdVal s (srcWinWord x)
      else if o = 8 then rdVal s (srcStatWord s n x)
      else if o = 0xC then rdVal s x.lastDet
      else talRead s asyBase off
    | none => none

/-- ASY_SRCs_CFG written: EN and KIND of a FATAL source and reserved encodings stay (R12, R419). -/
def faultCfgWrite (s : State) (n : SourceId) (v : Word) : State :=
  let x := s.src n
  let fixed := fatalSource n.toNat
  let k : BitVec 2 := slice v 1 2
  let th : BitVec 8 := slice v 16 8
  s.setSrc n { x with en := if fixed then x.en else v.getLsbD 0, kind := keepIf (fixed || k == 3) x.kind k, loreact := slice v 4 6,
                      hireact := slice v 10 6, thresh := keepIf (th == 0) x.thresh th }

/-- ASY_LOGCFG written: BASE is a multiple of 32, LOG2N 4 to 15; a write that makes hub memory ranges overlap is discarded (R484). -/
def logCfgWrite (s : State) (v : Word) : Outc × State :=
  let n : BitVec 4 := slice v 25 4
  let a := { s.asy with logBase := BitVec.ofNat 25 (bits v.toNat 5 20 * 32), log2n := keepIf (decide (n.toNat < 4)) s.asy.log2n n }
  (.ok, { s with asy := a })

/-- A write in the ASY block; `cm` in a commit, which has checked its conflicts. -/
def asyWrite (cm : Bool) (s : State) (off : Nat) (v : Word) : WrAns :=
  let a := s.asy
  let set := fun (y : Asy) => wrOk { s with asy := y }
  if off = 4 then set { a with pin := a.pin && !v.getLsbD 0 }
  else if off = 8 then set { a with rpreact := slice v 0 6 }
  else if off = 0xC then set { a with injmask := slice v 0 6 }
  else if off = 0x10 then some (noConflict cm s (logCfgWrite s v))
  else if off = 0x18 then wrOk (unfence s (slice v 0 10))
  else if off = 0 ∨ off = 0x14 ∨ inTal off 0x100 6 = true then wrOk s
  else
    match copyOf off 0x10000 0x20 1024 with
    | some (i, o) =>
      let n : SourceId := BitVec.ofNat 10 i
      let x := s.src n
      if o = 0 then wrOk (faultCfgWrite s n v)
      else if o = 4 then
        let u : BitVec 2 := slice v 16 2
        let w : BitVec 16 := slice v 0 16
        wrOk (s.setSrc n { x with winVal := keepIf (w == 0) x.winVal w, winUnit := keepIf (u == 3) x.winUnit u })
      else if o = 8 then wrOk (s.setSrc n { x with rpf := x.rpf && !v.getLsbD 20 })
      else wrOk s
    | none => none

/-! ## Meanings -/

/-- FAULT_SOURCE_EVENT (R420, R422 to R424, R426). -/
def execFaultSourceEvent (src : SourceId) (detail : Word) (s : State) : Host.Outcome State Fault Refusal := .next (doSourceEvent s src detail)
/-- REPORT_PATH_FAULT (R421). -/
def execReportPathFault (src : SourceId) (s : State) : Host.Outcome State Fault Refusal := .next (doReportPath s src)
/-- FAULT_WINDOW_CLOSE (R423). -/
def execFaultWindowClose (src : SourceId) (s : State) : Host.Outcome State Fault Refusal := .next (closeWindow s src)
/-- ASY_UNFENCE (R424). -/
def execAsyUnfence (who : Initiator) (v : Word) (s : State) : Host.Outcome State Fault Refusal :=
  .next (regCmd s who (asyBase + 0x18) (fun t => wrAnswer (.ok, unfence t (slice v 0 10))))
/-- FAULT_INJECT_TIMEOUT (R426). -/
def execFaultInjectTimeout (src : SourceId) (s : State) : Host.Outcome State Fault Refusal := .next (doInjTimeout s src)
/-- LOG_RECORD_WRITE (R429). -/
def execLogRecordWrite (s : State) : Host.Outcome State Fault Refusal := .next (doLogWrite s)

end Sys2Proof.Machine
end

