-- ==== Sys2Proof/Machine/Lamp.lean ====
section
/-! DEFINITION. The Lamplighter: POWER_STATE, the two-phase entry, wakes, prediction, brown-out, reconciliation, operating points, the
LMP and agent registers, and doorbells (R272, R434 to R458, R482). -/

namespace Sys2Proof.Machine

/-- Base of the LMP block. -/
def lmpBase : Nat := hubBlk 6

/-! ## Units and codes (R437) -/

/-- The region a unit lies in. -/
def unitRegion : PowerUnit → Option RegionId
  | .package => none
  | .region r => some r
  | .cluster gc => some (clusterRegion gc)

/-- The code of a unit's state; none for DISABLED, FAILED and off. -/
def powerCode (s : State) : PowerUnit → Option (BitVec 8)
  | .package => match s.lmp.pkg with | .run => some 0 | .standby => some 3 | .deep => some 4
  | .region r => match (s.region r).st with | .active => some 0 | .retain => some 2 | _ => none
  | .cluster gc =>
    if powerFailed s gc then none
    else match clusterPower s gc with | .active => some 0 | .nap => some 1 | .retain => some 2 | .off => none

/-- The previous state that a completion names: that of a unit without a code is not stated (free, log 9). -/
def prevCode (s : State) (u : PowerUnit) : BitVec 8 × State :=
  match powerCode s u with
  | some c => (c, s)
  | none => let (n, t) := takeFree s; (Config.free8 n, t)

/-- The unit that LEVEL and TARGET name. -/
def powerUnit (level target : Nat) : Option PowerUnit :=
  if level = 0 then some .package
  else if level = 1 ∧ target < 16 then some (.region (BitVec.ofNat 4 target))
  else if level = 2 ∧ target < 64 then some (.cluster (BitVec.ofNat 6 target))
  else none

/-- STATE is defined for the LEVEL. -/
def powerPair (level st : Nat) : Bool :=
  st == 0 || (level == 0 && (st == 3 || st == 4)) || (level == 1 && st == 2) || (level == 2 && (st == 1 || st == 2))

/-! ## Members (R440, R441) -/

/-- The clusters of a unit that are to stop and run now. -/
def liveClusters (s : State) (u : PowerUnit) : List ClusterId :=
  ((List.range 64).map (fun i => (BitVec.ofNat 6 i : ClusterId))).filter (fun gc =>
    txCovers u gc && (s.region (clusterRegion gc)).st == .active && clusterPower s gc == .active)

/-- The engines behind a cluster's NI (R146). -/
def clusterEngines (gc : ClusterId) : List EngId :=
  (List.range 4).map (fun i => BitVec.ofNat 8 (16 * (clusterRegion gc).toNat + 4 * i + gc.toNat % 4))

/-- Members in member order; the hub members for DEEP. -/
def powerMembers (s : State) (u : PowerUnit) (deep : Bool) : List Member :=
  let l := liveClusters s u
  l.map Member.slice ++ l.flatMap (fun gc => (List.range 8).map (fun k => Member.core (coreOf gc (BitVec.ofNat 3 k)))) ++
    ((List.range 256).map (fun i => (BitVec.ofNat 8 i : EngId))).filterMap (fun e =>
      if l.any (fun gc => (clusterEngines gc).contains e) then some (Member.engine e) else none) ++
    (if deep then [.crier] ++ (List.range 32).map (fun p => Member.port (BitVec.ofNat 5 p)) ++ [.cas, .hif, .scv] else [])

/-- A slice agrees (R216). -/
def sliceAgrees (x : Slice) : Bool :=
  x.cores.all (fun p => p.2.st == .free && p.2.susp.isEmpty) && x.queues.all (fun p => p.2.cons != 0 || p.2.ents.isEmpty) &&
    x.stealSlot.isNone && x.recbuf.isEmpty && x.waitRecs.isEmpty

/-- A member agrees to PREPARE for the transaction t (R177, R216, R394, R441). -/
def agrees (s : State) (t : PowerTx) : Member → Bool
  | .slice gc => sliceAgrees (s.slice gc)
  | .core g => (s.core g).st == .halted || (s.core g).st == .wait
  | .engine e => (s.engine e).st == .disabled || (s.engine e).st == .idle
  | .crier => s.cri.tx.isNone && !criRxBusy s.cri
  | .port p => !(s.port p).rxEn && !(s.port p).txEn
  | .cas => s.cas.slots.all (fun p => p.2.use == .free) && s.cas.xq.all (fun p => !p.2.en)
  | .hif => s.hif.cmds.all (fun c => c.ring == t.ring && c.idx == t.idx)
  | .scv => s.scv.queue.isEmpty && s.scv.compact.isNone

/-- KIND and ID of a member (R439); of the HIF the lowest ring with a command in progress. -/
def memberRef (s : State) (t : PowerTx) : Member → Nat
  | .slice gc => 0x10000 + gc.toNat
  | .core g => 0xA0000 + g.toNat
  | .engine e => 0x20000 + e.toNat
  | .crier => 0x30000
  | .port p => 0x40000 + p.toNat
  | .cas => 0x50000
  | .hif => 0x60000 + (((s.hif.cmds.filter (fun c => !(c.ring == t.ring && c.idx == t.idx))).map (fun c => c.ring.toNat)).min?).getD 0
  | .scv => 0x70000

/-! ## Refusals (R438, R439, R442) -/

/-- A refusal names its unit, in RESULT and in LMP_LASTREF. -/
def powerRefuse (s : State) (ring : RingId) (idx : Word) (ref : Nat) : State :=
  let w : Word := BitVec.ofNat 32 ref
  completeCmd (lmpTal { s with lmp := { s.lmp with lastref := w } } 1) ring idx .refused 0 w 0

/-- Requests that were held for an entry that does not take place may enter. -/
def dropHeld (s : State) (f : PowerUnit → Bool) : State :=
  { s with lmp := { s.lmp with held := s.lmp.held.filter (fun h => !f h.target) } }

/-- The unit lies in another. -/
def unitIn (u v : PowerUnit) : Bool :=
  match v with
  | .package => true
  | .region r => unitRegion u == some r
  | .cluster _ => u == v

/-- ABORT: every member resumes, the command completes REFUSED (R442). -/
def abortTx (s : State) (t : PowerTx) (ref : Nat) : State :=
  let s1 := dropHeld { s with lmp := { s.lmp with tx := none } } (fun u => unitIn u t.target)
  powerRefuse (lmpTal s1 2) t.ring t.idx ref

/-! ## Checks before PREPARE (R443, R451) -/

/-- An enabled level-sensitive WAKE pin is at its active level: the level of a pin is not state (free, log 9). -/
def wakeAsserted (s : State) : Option Nat × State :=
  (List.range 4).foldl (fun (x : Option Nat × State) i =>
    if x.1.isNone ∧ s.lmp.wakeEn.getLsbD i = true ∧ s.lmp.wakeLevel.getLsbD i = true then
      let (n, t) := takeFree x.2
      (if Config.freeBool n then some i else none, t)
    else x) (none, s)

/-- The hottest sensor of a die is read: its value is free (log 9). -/
def sampleTemp (s : State) (d : Nat) : State :=
  let (n, t) := takeFree s
  { t with lmp := { t.lmp with dtemp := sput 0 t.lmp.dtemp d (Config.free16 n) } }

/-- The regions whose regulators enter low-power mode. -/
def lowRegions (s : State) : PowerUnit → List RegionId
  | .package => ((List.range 16).map (fun i => (BitVec.ofNat 4 i : RegionId))).filter (fun r => (s.region r).st == .active)
  | .region r => [r]
  | .cluster _ => []

/-- The prediction of each regulator that will enter low-power mode (R451): the first that exceeds its limit, with the current. -/
def thermalCheck (s : State) (u : PowerUnit) (deep : Bool) : Option (Nat × Nat) × State :=
  let l := lowRegions s u
  let s1 := (List.range 4).foldl (fun t d => if l.any (fun r => r.toNat / 4 == d) then sampleTemp t d else t) s
  let s2 := if deep then sampleTemp s1 4 else s1
  match l.find? (fun r => decide (500 < regionPred s2 r)) with
  | some r => (some (r.toNat, regionPred s2 r), s2)
  | none => if deep ∧ 2000 < aonPred s2 then (some (0xFFFF, aonPred s2), s2) else (none, s2)

/-! ## Entry (R442, R444) -/

/-- PREPARE is sent to every member; with none left the drain begins. -/
def prepare (s : State) (ring : RingId) (idx : Word) (u : PowerUnit) (st : BitVec 8) : State :=
  let m := powerMembers s u (st == 4)
  let t : PowerTx := { ring := ring, idx := idx, target := u, state := st, waiting := m, agreed := [], draining := m.isEmpty,
                       since := s.cycle }
  cmdRunning { s with lmp := { s.lmp with tx := some t } } ring idx

/-- A command that lowers a unit. -/
def powerLower (s : State) (ring : RingId) (idx : Word) (u : PowerUnit) (st : BitVec 8) : State :=
  let (pin, s1) := if u = .package then wakeAsserted s else (none, s)
  match pin with
  | some i => powerRefuse s1 ring idx (0x80000 + i)
  | none =>
    match if st = 1 ∨ (st = 2 ∧ (unitCode u).1 = 2) then (none, s1) else thermalCheck s1 u (st == 4) with
    | (some (i, ma), s2) => completeCmd (lmpTal s2 7) ring idx .thermalRefused 0 (BitVec.ofNat 32 i) (BitVec.ofNat 32 ma)
    | (none, s2) => prepare s2 ring idx u st

/-- A command that raises a unit: a wake, with the LMP_WAKESRC bit COMMAND (R446, R448). -/
def powerRaise (s : State) (ring : RingId) (idx : Word) (u : PowerUnit) (st : BitVec 8) : State :=
  let (c, s1) := prevCode s u
  cmdRunning (startWakeTo s1 u 0x20 (some (ring, idx)) c st) ring idx

/-- POWER_STATE after the checks of R277 (R437, R438). -/
def powerCmd (s : State) (ring : RingId) (idx : Word) (d : Block64) : State :=
  let level := dF d 8 1
  let st := dF d 9 1
  match powerUnit level (dF d 10 2) with
  | none => completeOk s ring idx .badDescriptor
  | some u =>
    let r := (unitRegion u).getD 0
    if powerPair level st = false then completeOk s ring idx .badDescriptor
    else if level ≠ 0 ∧ (s.region r).st = .disabled then completeOk s ring idx .routeFault
    else if powerCode s u = some (BitVec.ofNat 8 st) then completeCmd s ring idx .ok 0 (BitVec.ofNat 32 st) 0
    else if level ≠ 0 ∧ s.lmp.pkg ≠ .run then powerRefuse s ring idx 0x9FFFF
    else if level = 2 ∧ (s.region r).st ≠ .active then powerRefuse s ring idx (0x90000 + r.toNat)
    else
      match powerCode s u with
      | none => if st = 0 then powerRaise s ring idx u 0 else completeOk s ring idx .wakeFailed
      | some c => if st < c.toNat then powerRaise s ring idx u (BitVec.ofNat 8 st) else powerLower s ring idx u (BitVec.ofNat 8 st)

/-- The commands of the Lamplighter are performed one at a time in the order of acceptance (R438). -/
def powerTurn (s : State) (ring : RingId) (idx : Word) : Bool :=
  match s.hif.cmds.find? (fun c => dOp c.desc == 0x10) with
  | some c => c.ring == ring && c.idx == idx
  | none => false

/-- POWER_STATE with a given STATE. -/
def doPowerState (s : State) (ring : RingId) (idx : Word) (st : Nat) : State :=
  if powerTurn s ring idx then runCmd s ring idx (fun d => dOp d == 0x10 && dF d 9 1 == st) (fun t d => powerCmd t ring idx d) else s

/-- The first member in member order that refuses, of those still to answer. -/
def firstRefusal (s : State) (t : PowerTx) : Option Member := t.waiting.find? (fun m => !agrees s t m)

/-- PREPARE_ANSWER: agreement or refusal (R442). -/
def doPrepareAnswer (s : State) (m : Member) : State :=
  match s.lmp.tx with
  | none => s
  | some t =>
    if t.waiting.contains m = false then s
    else if agrees s t m then
      let w := t.waiting.filter (fun x => x != m)
      { s with lmp := { s.lmp with tx := some { t with waiting := w, agreed := t.agreed ++ [m], draining := w.isEmpty } } }
    else
      match firstRefusal s t with
      | some f => abortTx s t (memberRef s t f)
      | none => s

/-- PREPARE_TIMEOUT: 100 µs without an answer; the first silent member is named with NOANS (R439, R442). -/
def doPrepareTimeout (s : State) : State :=
  match s.lmp.tx with
  | none => s
  | some t =>
    match t.waiting with
    | [] => s
    | m :: _ => if s.cycle < t.since + 393216 then s else abortTx s t (memberRef s t m + 0x100000)

/-- The NIs of the domain have no open transaction: for DEEP the hub's too (R442). -/
def drained (s : State) (t : PowerTx) : Bool :=
  s.nis.all (fun p =>
    let cov := if p.1 < 64 then txCovers t.target (BitVec.ofNat 6 p.1) else t.state == 4
    !cov || (openCount p.2 false == 0 && openCount p.2 true == 0))

/-- A region enters RETAIN with its clusters; a cluster that is off stays off. -/
def regionDown (s : State) (r : RegionId) : State :=
  let x := s.region r
  let f := fun (c : ClusterPower) => if c = .off then ClusterPower.off else .retain
  s.setRegion r { x with st := .retain, saved := [x.c0, x.c1, x.c2, x.c3], c0 := f x.c0, c1 := f x.c1, c2 := f x.c2, c3 := f x.c3 }

/-- Every ACTIVE region enters RETAIN. -/
def regionsDown (s : State) : State :=
  upTo 16 (fun i t => if (t.region (BitVec.ofNat 4 i)).st = .active then regionDown t (BitVec.ofNat 4 i) else t) s

/-- The package enters STANDBY or DEEP: the states are recorded; in DEEP the PCIe link and the cascade ports are off (R436, R446, R482). -/
def packageDown (s : State) (deep : Bool) : State :=
  let s1 := if s.lmp.pkg = .run then { s with lmp := { s.lmp with savedRegions := s.lmp.regions } } else s
  let s2 := regionsDown { s1 with lmp := { s1.lmp with pkg := if deep then .deep else .standby } }
  if deep then
    { s2 with hif := { s2.hif with ready := false, linkUp := false },
              cas := { s2.cas with east := { s2.cas.east with lock := false }, west := { s2.cas.west with lock := false } } }
  else s2

/-- Step 6: clocks and supplies are gated and the new state is recorded. -/
def gateUnit (s : State) (u : PowerUnit) (st : BitVec 8) : State :=
  match u with
  | .package => packageDown s (st == 4)
  | .region r => regionDown s r
  | .cluster gc => setClusterPower s gc (if st = 1 then .nap else .retain)

/-- A domain for which a request is held wakes at once (R443, R455). -/
def wakeHeld (s : State) : State := if s.lmp.pkg = .deep then s else s.lmp.held.foldl (fun t h => startWake t h.target 0x40 none 0) s

/-- The entry of a transaction whose command has completed, or completes with it. -/
def finishEntry (s : State) (t : PowerTx) : State :=
  let s1 := gateUnit { s with lmp := { s.lmp with tx := none } } t.target t.state
  wakeHeld (lmpTal s1 0)

/-- ENTRY_DRAIN_COMPLETE: for DEEP the completion entry is written first (R442 steps 4 to 6). -/
def doDrain (s : State) : State :=
  match s.lmp.tx with
  | none => s
  | some t =>
    if t.draining = false ∨ drained s t = false then s
    else
      let (c, s0) := prevCode s t.target
      let done := completeCmd s0 t.ring t.idx .ok 0 (c.setWidth 32) (BitVec.ofNat 32 (usBetween t.since s.cycle))
      if t.state = 4 then
        if (s.cmd t.ring t.idx).isSome then done
        else if (s.ring (s.ring t.ring).cring).waiting = [] then finishEntry s t
        else s
      else finishEntry done t

/-! ## Wakes (R443, R446 to R449) -/

/-- The PCIe link trains: RATE and WIDTH come from the negotiation (free, log 9). -/
def linkTrain (s : State) : State :=
  if s.hif.perst then s
  else
    let (n, t) := takeFree s
    let (k, u) := takeFree t
    { u with hif := { u.hif with linkUp := true, rate := (Config.free8 n).setWidth 3, width := (Config.free8 k).setWidth 5 } }

/-- Timers whose instant passed in DEEP fire at the wake with LATE (R347). -/
def lateTimers (s : State) : State :=
  upTo 64 (fun i t =>
    let n : TimerId := BitVec.ofNat 6 i
    let x := t.tmr n
    if x.armed ∧ x.due < t.units then t.setTmr n { x with skipped := true } else t) s

/-- What a wake from DEEP brings back: link and READY, the Clockmaker in HOLDOVER or FREERUN, late timers, the receiver in SEARCH and a new
noise block (R347, R394, R446). -/
def deepWake (s : State) : State :=
  let s1 := linkTrain { s with hif := { s.hif with ready := true } }
  let s2 := enterState s1 (if s1.cmk.st = .locked then .holdover else .freerun)
  let c := s2.cri
  lateTimers { s2 with cri := { c with rx := if c.rx = .idle then .idle else .search, pkt := CriPkt.reset, nfSum := [], nfCount := 0 } }

/-- A wake is complete; the doorbells that waited for the package act (R446). -/
def wakeDone (s : State) (w : WakeTx) : State :=
  let deep := s.lmp.pkg == .deep
  let s1 := finishWake s w
  if w.target = .package then doorbellsRun (if deep then deepWake s1 else s1) else s1

/-- Replaces a wake. -/
def setWake (s : State) (w : WakeTx) : State :=
  { s with lmp := { s.lmp with wakes := s.lmp.wakes.map (fun x => if x.target = w.target then w else x) } }

/-- The next step of a wake; none after the last: only a wake from DEEP has more than the regulator step (R447). -/
def nextStep (s : State) (w : WakeTx) : Option WakeStep :=
  if w.target = .package ∧ s.lmp.pkg = .deep then
    match w.step with | .regulator => some .oscillator | .oscillator => some .root | .root => none
  else none

/-- WAKE_STEP_READY. -/
def doStepReady (s : State) (u : PowerUnit) : State :=
  match s.lmp.wakes.find? (fun w => w.target == u) with
  | none => s
  | some w =>
    match nextStep s w with
    | some st => setWake s { w with step := st, since := s.cycle }
    | none => wakeDone s w

/-- The timeout of a step in root cycles, and its number. -/
def stepLimit : WakeStep → Nat × Nat
  | .regulator => (786432, 1)
  | .oscillator => (39321600, 2)
  | .root => (19660800, 3)

/-- A package wake failed: the package stays in DEEP with its link down (R448). -/
def packageFailed (s : State) : State := { s with hif := { s.hif with ready := false, linkUp := false } }

/-- WAKE_STEP_TIMEOUT: the step is repeated, or the third retry has failed. -/
def doStepTimeout (s : State) (u : PowerUnit) : State :=
  match s.lmp.wakes.find? (fun w => w.target == u) with
  | none => s
  | some w =>
    if s.cycle < w.since + (stepLimit w.step).1 then s
    else if w.retries < 3 then lmpTal (setWake s { w with retries := w.retries + 1, since := s.cycle }) 4
    else
      let t := failWake s w (stepLimit w.step).2
      if u = .package then packageFailed t else t

/-- A wake source of the package: bit and refusal ID. -/
def packageWake (s : State) (src : BitVec 8) (id : Nat) : State :=
  match s.lmp.tx with
  | some t => if t.target = .package then abortTx s t (0x80000 + id) else s
  | none => if s.lmp.pkg = .run ∨ s.lmp.wfail = true then s else startWake s .package src none 0

/-- WAKE_PIN: an enabled pin meets its polarity and its edge or level (R443, R446). -/
def doWakePin (s : State) (i : BitVec 2) : State :=
  if s.lmp.wakeEn.getLsbD i.toNat then packageWake s (BitVec.ofNat 8 (2 ^ i.toNat)) i.toNat else s

/-- THERMAL_PREDICTION: above 90 % of the limit the region is woken (R452). -/
def doPrediction (s : State) (r : RegionId) : State :=
  if (s.region r).st ≠ .retain ∨ s.lmp.pkg = .deep then s
  else
    let t := sampleTemp s (r.toNat / 4)
    if 450 < regionPred t r then startWake t (.region r) 0x80 none 0 else t

/-- BROWN_OUT of a region in low-power mode (R449). -/
def doBrownOut (s : State) (r : RegionId) : State :=
  let x := s.region r
  if x.st ≠ .retain then s else report (lmpTal (s.setRegion r { x with retlost := true }) 6) (srcRegion r 6) 0

/-! ## Reconciliation (R453) -/

/-- The level of a unit's record in the order off < retain < nap < active; the package's is 0 DEEP, 1 STANDBY, 2 RUN. -/
def recordLevel (s : State) : PowerUnit → Nat
  | .package => match s.lmp.pkg with | .deep => 0 | .standby => 1 | .run => 2
  | .region r => match (s.region r).st with | .retain => 1 | .active => 3 | _ => 0
  | .cluster gc =>
    if (s.region (clusterRegion gc)).st = .disabled ∨ powerFailed s gc = true then 0
    else match clusterPower s gc with | .off => 0 | .retain => 1 | .nap => 2 | .active => 3

/-- The level that the unit's data path reports: clusters 0 off to 3 ACTIVE, regions 0 off, 1 RETAIN, 2 and 3 ACTIVE, the package 0 DEEP to
2 RUN. -/
def reportLevel (u : PowerUnit) (c : BitVec 2) : Nat :=
  match u with
  | .region _ => if c.toNat < 2 then c.toNat else 3
  | .package => min c.toNat 2
  | .cluster _ => c.toNat

/-- The record is lowered to the unit's state. -/
def lowerRecord (s : State) (u : PowerUnit) (lv : Nat) : State :=
  match u with
  | .package => packageDown s (lv == 0)
  | .region r =>
    let x := s.region r
    if lv = 1 then regionDown s r
    else s.setRegion r { x with st := .disabled, c0 := .off, c1 := .off, c2 := .off, c3 := .off, saved := [], failed := [] }
  | .cluster gc => setClusterPower s gc (if lv = 0 then .off else if lv = 1 then .retain else .nap)

/-- The unit is part of a transaction or a wake in progress. -/
def unitBusy (s : State) (u : PowerUnit) : Bool :=
  (match s.lmp.tx with | some t => unitIn u t.target || unitIn t.target u | none => false) ||
    s.lmp.wakes.any (fun w => unitIn u w.target || unitIn w.target u)

/-- RECONCILIATION: the lesser state wins; a mismatch is reported and counted. -/
def doReconcile (s : State) (u : PowerUnit) (c : BitVec 2) : State :=
  let a := recordLevel s u
  let b := reportLevel u c
  if unitBusy s u ∨ a = b then s
  else
    let s1 := if b < a then lowerRecord s u b else s
    let n := match unitRegion u with | some r => srcRegion r 7 | none => srcHub 5
    report (lmpTal s1 8) n (powerDetail 1 u)

/-! ## Operating points and enabling (R435, R454, R458) -/

/-- The region is fused off (R435). -/
def fusedOff (s : State) (r : RegionId) : Bool := s.lmp.fusedOff.getLsbD r.toNat

/-- LMP_AGT_OP written. -/
def opWrite (s : State) (r : RegionId) (v : Word) : Outc × State :=
  let x := s.region r
  let q : BitVec 2 := slice v 0 2
  if fusedOff s r ∨ x.opBusy = true then (.notPermitted, s)
  else
    let y := { x with opReq := keepIf (q == 3) x.opReq q }
    (.ok, s.setRegion r (if x.st = .active then opStart s.cycle y else y))

/-- OPERATING_POINT_DONE: ramp and divider change have ended. -/
def doOpDone (s : State) (r : RegionId) : State :=
  let x := s.region r
  if x.opBusy ∧ x.opEnd ≤ s.cycle then s.setRegion r { x with opBusy := false, opCur := x.opReq } else s

/-- LMP_AGT_CTL.ENABLE = 1 (R435): a DISABLED region becomes ACTIVE at OP0, its memories are initialised, its L ports leave their lock. -/
def regionEnable (s : State) (r : RegionId) : Outc × State :=
  let x := s.region r
  if fusedOff s r then (.notPermitted, s)
  else if x.st ≠ .disabled then (.ok, s)
  else
    let y := { x with st := .active, c0 := .active, c1 := .active, c2 := .active, c3 := .active, opCur := 0, retlost := false }
    (.ok, unlockUnit (regionReset (s.setRegion r (opStart s.cycle y)) r) (.region r))

/-! ## Registers (R457, R458) -/

/-- A read in the LMP block; a read of LMP_DTEMPd reads the sensors. -/
def lmpRead (s : State) (off : Nat) : RdAns :=
  let l := s.lmp
  if off = 0 then rdVal s 0x00010000
  else if off = 4 then
    rdPack s [(2, match l.pkg with | .run => 0 | .standby => 1 | .deep => 2), (1, b2n (l.tx.isSome || !l.wakes.isEmpty)), (1, b2n l.wfail)]
  else if off = 8 then rdPack s [(4, l.wakeEn.toNat), (4, l.wakePol.toNat), (4, l.wakeLevel.toNat)]
  else if off = 0xC then rdVal s (l.wakesrc.setWidth 32)
  else if off = 0x10 then rdVal s (l.wakeonaccr.setWidth 32)
  else if off = 0x14 then rdVal s l.wakeonaccc0
  else if off = 0x18 then rdVal s l.wakeonaccc1
  else if off = 0x1C then rdVal s l.lastref
  else if 0x20 ≤ off ∧ off < 0x34 then
    let t := sampleTemp s ((off - 0x20) / 4)
    some ((sget 0 t.lmp.dtemp ((off - 0x20) / 4)).setWidth 32, t)
  else if off = 0x34 then rdVal s (l.aonleak.setWidth 32)
  else if inTal off 0x100 11 then talRead s lmpBase off
  else none

/-- A write in the LMP block. -/
def lmpWrite (s : State) (off : Nat) (v : Word) : WrAns :=
  let l := s.lmp
  let set := fun (x : Lmp) => wrOk { s with lmp := x }
  if off = 8 then set { l with wakeEn := slice v 0 4, wakePol := slice v 4 4, wakeLevel := slice v 8 4 }
  else if off = 0xC then set { l with wakesrc := l.wakesrc &&& ~~~(slice v 0 8) }
  else if off = 0x10 then set { l with wakeonaccr := slice v 0 16 }
  else if off = 0x14 then set { l with wakeonaccc0 := v }
  else if off = 0x18 then set { l with wakeonaccc1 := v }
  else if off = 0 ∨ off = 4 ∨ (0x1C ≤ off ∧ off ≤ 0x34) ∨ inTal off 0x100 11 = true then wrOk s
  else none

/-- The NIs of a region are fenced: it is in RETAIN, or an entry drains one of its clusters, or one is in RETAIN (R444, R458). -/
def regionFenced (s : State) (r : RegionId) : Bool :=
  let x := s.region r
  x.st == .retain || (x.st == .active && (regionClusters r).any (fun gc => draining s gc || clusterPower s gc == .retain))

/-- LMP_AGT_STAT; that of a fused-off region reads 0. -/
def agentStat (s : State) (r : RegionId) : Word :=
  let x := s.region r
  let c := fun (p : ClusterPower) => match p with | .off => 0 | .retain => 1 | .nap => 2 | .active => 3
  if fusedOff s r then 0
  else
    BitVec.ofNat 32 (packLE [(2, match x.st with | .disabled => 0 | .retain => 1 | .active => 2 | .failed => 3), (2, c x.c0), (2, c x.c1),
      (2, c x.c2), (2, c x.c3), (1, b2n (regionFenced s r)), (1, b2n x.retlost)])

/-- A read in a region's agent block. -/
def agentRead (s : State) (r : RegionId) (off : Nat) : RdAns :=
  let x := s.region r
  if off = 0 then rdVal s (agentStat s r)
  else if off = 4 then rdPack s [(2, x.opReq.toNat), (2, 0), (2, x.opCur.toNat), (1, b2n x.opBusy)]
  else if off = 8 then rdVal s ((sget 0 s.lmp.ileak r.toNat).setWidth 32)
  else if off = 0xC then rdVal s 0
  else none

/-- A write in a region's agent block; all of a fused-off region's complete NOT_PERMITTED (R458). -/
def agentWrite (s : State) (r : RegionId) (off : Nat) (v : Word) : WrAns :=
  let x := s.region r
  if 0xC < off ∨ off % 4 ≠ 0 then none
  else if fusedOff s r then wrNo s
  else if off = 0 then wrOk (s.setRegion r { x with retlost := x.retlost && !v.getLsbD 11 })
  else if off = 4 then some (opWrite s r v)
  else if off = 0xC ∧ v.getLsbD 0 = true then some (regionEnable s r)
  else wrOk s

/-! ## Doorbells (R266, R269, R271, R272, R443, R446) -/

/-- A doorbell write to an offset below 0x8000. -/
def ringWrite (s : State) (fn : BitVec 6) (off : BitVec 17) (size : Nat) (v : BitVec 64) : State :=
  let n : RingId := BitVec.ofNat 12 (off.toNat / 8)
  if doorbellOk s fn off.toNat size = false then hifCount s 2 1
  else if (s.ring n).typ ≠ 0 then
    if s.lmp.pkg = .standby ∧ s.lmp.doorbells ≠ [] then { s with lmp := { s.lmp with doorbells := s.lmp.doorbells ++ [(fn, off, size, v)] } }
    else ringDoorbell s n v
  else if s.lmp.pkg = .standby ∧ s.lmp.tx = none then
    startWake { s with lmp := { s.lmp with doorbells := s.lmp.doorbells ++ [(fn, off, size, v)] } } .package 0x10 none 0
  else ringDoorbell (packageWake s 0x10 4) n v

/-- A write to a VF's MSI-X structures in its BAR2: the table takes aligned writes of 4 and 8 bytes, the PBA discards them (R269). -/
def vfMsixWrite (s : State) (fn : BitVec 6) (o size : Nat) (v : BitVec 64) : State :=
  if o < 0x8000 then
    if size = 4 ∧ o % 4 = 0 then msixTableWrite s fn (o / 4) (slice v 0 32)
    else if size = 8 ∧ o % 8 = 0 then msixTableWrite (msixTableWrite s fn (o / 4) (slice v 0 32)) fn (o / 4 + 1) (slice v 32 32)
    else hifCount s 3 1
  else if o < 0x8100 then s
  else hifCount s 3 1

/-- DOORBELL: a write to BAR2; before READY its offsets are unmapped (R33, R464). -/
def doDoorbell (s : State) (fn : BitVec 6) (off : BitVec 17) (size : Nat) (v : BitVec 64) : State :=
  if hostReach s = false ∨ 32 < fn.toNat then s
  else if s.hif.ready = false then hifCount s 3 1
  else if off.toNat < 0x8000 then ringWrite s fn off size v
  else if fn ≠ 0 ∧ 0x10000 ≤ off.toNat then vfMsixWrite s fn (off.toNat - 0x10000) size v
  else hifCount s 3 1

/-! ## Meanings -/

/-- POWER_STATE_WAKE: STATE 0 (R437 to R439, R446). -/
def execPowerStateWake (ring : RingId) (idx : Word) (s : State) : Host.Outcome State Fault Refusal := .next (doPowerState s ring idx 0)
/-- POWER_STATE_NAP: STATE 1 (R437 to R443). -/
def execPowerStateNap (ring : RingId) (idx : Word) (s : State) : Host.Outcome State Fault Refusal := .next (doPowerState s ring idx 1)
/-- POWER_STATE_RETAIN: STATE 2 (R437 to R443, R451). -/
def execPowerStateRetain (ring : RingId) (idx : Word) (s : State) : Host.Outcome State Fault Refusal := .next (doPowerState s ring idx 2)
/-- POWER_STATE_STANDBY: STATE 3 (R437 to R443, R451). -/
def execPowerStateStandby (ring : RingId) (idx : Word) (s : State) : Host.Outcome State Fault Refusal := .next (doPowerState s ring idx 3)
/-- POWER_STATE_DEEP: STATE 4 (R437 to R443, R451). -/
def execPowerStateDeep (ring : RingId) (idx : Word) (s : State) : Host.Outcome State Fault Refusal := .next (doPowerState s ring idx 4)
/-- PREPARE_ANSWER (R441, R442). -/
def execPrepareAnswer (m : Member) (s : State) : Host.Outcome State Fault Refusal := .next (doPrepareAnswer s m)
/-- PREPARE_TIMEOUT (R442). -/
def execPrepareTimeout (s : State) : Host.Outcome State Fault Refusal := .next (doPrepareTimeout s)
/-- ENTRY_DRAIN_COMPLETE (R442). -/
def execEntryDrainComplete (s : State) : Host.Outcome State Fault Refusal := .next (doDrain s)
/-- WAKE_PIN (R443, R446). -/
def execWakePin (i : BitVec 2) (s : State) : Host.Outcome State Fault Refusal := .next (doWakePin s i)
/-- WAKE_STEP_READY (R447). -/
def execWakeStepReady (u : PowerUnit) (s : State) : Host.Outcome State Fault Refusal := .next (doStepReady s u)
/-- WAKE_STEP_TIMEOUT (R448). -/
def execWakeStepTimeout (u : PowerUnit) (s : State) : Host.Outcome State Fault Refusal := .next (doStepTimeout s u)
/-- THERMAL_PREDICTION (R452). -/
def execThermalPrediction (r : RegionId) (s : State) : Host.Outcome State Fault Refusal := .next (doPrediction s r)
/-- BROWN_OUT (R449). -/
def execBrownOut (r : RegionId) (s : State) : Host.Outcome State Fault Refusal := .next (doBrownOut s r)
/-- RECONCILIATION (R453). -/
def execReconciliation (u : PowerUnit) (reported : BitVec 2) (s : State) : Host.Outcome State Fault Refusal := .next (doReconcile s u reported)
/-- OPERATING_POINT_REQUEST: a write of LMP_AGT_OP (R454). -/
def execOperatingPointRequest (who : Initiator) (r : RegionId) (v : Word) (s : State) : Host.Outcome State Fault Refusal :=
  .next (regCmd s who (budBase r + 0x80004) (fun t => wrAnswer (opWrite t r v)))
/-- OPERATING_POINT_DONE (R454). -/
def execOperatingPointDone (r : RegionId) (s : State) : Host.Outcome State Fault Refusal := .next (doOpDone s r)
/-- REGION_ENABLE: a write of LMP_AGT_CTL with ENABLE = 1 (R435). -/
def execRegionEnable (who : Initiator) (r : RegionId) (s : State) : Host.Outcome State Fault Refusal :=
  .next (regCmd s who (budBase r + 0x8000C) (fun t => wrAnswer (regionEnable t r)))
/-- DOORBELL (R272, R273, R446). -/
def execDoorbell (fn : BitVec 6) (off : BitVec 17) (size : Nat) (v : BitVec 64) (s : State) : Host.Outcome State Fault Refusal :=
  .next (doDoorbell s fn off size v)

end Sys2Proof.Machine
end

