-- ==== Sys2Proof/Machine/Boot.lean ====
section
/-! DEFINITION. Reset pins, straps, the boot sequence, the firmware image and its load, PERST_n, the overcurrent reset and THERMTRIP_n
(R20, R450, R459 to R468, R480, R504). -/

namespace Sys2Proof.Machine

/-! ## Reset (R450, R459; log 1) -/

/-- The package in reset: everything but the journal store, which is non-volatile, and what lies outside the package. -/
def packageReset (s : State) (m : Mgc) : State :=
  { State.reset with
    hif := { Hif.reset with perst := s.hif.perst }, scv := { Scv.reset with store := s.scv.store }, mgc := m, hostMem := s.hostMem,
    fresh := s.fresh, pending := s.pending }

/-- PORST_n is low: the whole package is in reset. -/
def doPorst (s : State) : State := packageReset s Mgc.reset

/-- The strap combinations that R20 calls invalid. -/
def strapBad (role : Bool) (pkg : PkgId) : Bool := role != (pkg == 0)

/-- PORST_n rises: the straps are sampled and step 1 begins (R459, R460, R462). -/
def doPorstRelease (s : State) (role : Bool) (pkg : PkgId) (src : BitVec 2) : State :=
  if s.mgc.porst = false then s
  else
    let e := strapBad role pkg
    { s with cycle := 0, cas := { s.cas with straperr := e },
             mgc := { s.mgc with porst := false, step := 1, straperr := e, src := src, role := role, pkgid := pkg, since := 0 } }

/-- AON_OVERCURRENT: the package resets as PORST_n does and starts again with the straps it has; CAUSE tells it (R450, R459, R480). -/
def doOvercurrent (s : State) : State :=
  if s.mgc.porst then s
  else
    let m := s.mgc
    let t := packageReset s { Mgc.reset with porst := false, step := 1, straperr := m.straperr, src := m.src, role := m.role,
                                             pkgid := m.pkgid, cause := 1 }
    { t with cas := { t.cas with straperr := m.straperr } }

/-! ## Steps (R462, R463) -/

/-- The next step begins now. -/
def bootNext (s : State) : State := { s with mgc := { s.mgc with step := s.mgc.step + 1, retries := 0, since := s.cycle } }

/-- A failed step: FAIL, CODE, ALERT_n and a report of source 0x3E0 with STEP and CODE (R463, R508). -/
def bootFail (s : State) (code : BitVec 4) : State :=
  report { s with mgc := { s.mgc with fail := true, code := code, alert := true } } (srcHub 7)
    (BitVec.ofNat 32 (packLE [(4, s.mgc.step.toNat), (4, code.toNat)]))

/-- The sequence runs. -/
def booting (s : State) : Bool := !s.mgc.porst && !s.mgc.fail && !s.mgc.done

/-- The timeout of a step in µs (R462): of step 7, 1 s from QSPI and 60 s otherwise; step 10 has none. -/
def bootLimit (m : Mgc) : Option Nat :=
  match m.step.toNat with
  | 1 => some 200 | 2 => some 10000 | 3 => some 5000 | 4 => some 1000 | 5 => some 2000 | 6 => some 1000
  | 7 => some (if m.src = 0 then 1000000 else 60000000)
  | 8 => some 50000 | 9 => some 1000
  | _ => none

/-- The failure code of a step that runs over its timeout (R462). -/
def bootCode (step : Nat) : BitVec 4 :=
  if step ≤ 6 then BitVec.ofNat 4 step else if step = 7 then 8 else if step = 8 then 0xE else 0xF

/-- BOOT_STEP_TIMEOUT: steps 1 to 3 repeat up to 3 times, counted as R448 does; any other step fails. -/
def doBootTimeout (s : State) : State :=
  match bootLimit s.mgc with
  | none => s
  | some us =>
    if booting s = false ∨ s.cycle < s.mgc.since + usCycles us then s
    else if s.mgc.step.toNat ≤ 3 ∧ s.mgc.retries < 3 then
      lmpTal { s with mgc := { s.mgc with retries := s.mgc.retries + 1, since := s.cycle } } 4
    else bootFail s (bootCode s.mgc.step.toNat)

/-! ## Step 4: fuses (R413, R414, R435, R457, R458, R462) -/

/-- A list as a table. -/
def listTable {α : Type} [DecidableEq α] (d : α) (l : List α) : Sparse α :=
  l.zipIdx.foldl (fun m p => sput d m p.2 p.1) []

/-- The fuse map takes effect. -/
def loadFuses (s : State) (f : FuseMap) : State :=
  { s with lmp := { s.lmp with ileak := listTable 0 (f.ileak.take 16), aonleak := f.aonleak, fusedOff := f.fusedOff },
           mgc := { s.mgc with minSvn := f.minSvn, keyHash := f.keyHash, spareRows := listTable 0 (f.spareRows.take 19),
                               spareCols := listTable 0 (f.spareCols.take 19) } }

/-! ## Step 5: memories (R139, R407) -/

/-- Every memory with an initialiser. -/
def allMems : List InitMem :=
  (List.range 64).flatMap (fun i => clusterMems (BitVec.ofNat 6 i)) ++ (List.range 16).map (fun i => InitMem.rm (BitVec.ofNat 4 i)) ++ [.hub]

/-- The initialisers start together. -/
def bootInits (s : State) : State := { s with inits := allMems.foldl (fun m x => sput .blank m (initKey x) .busy) s.inits }

/-- Every initialiser is done. -/
def bootInitsDone (s : State) : State := { s with inits := allMems.foldl (fun m x => sput .blank m (initKey x) .done) s.inits }

/-! ## Step 7: the firmware image (R465 to R468) -/

/-- A little-endian field of an image: n bytes from byte o. -/
def imgField (d : List Byte) (o n : Nat) : Nat := natOfBytes ((d.drop o).take n)
/-- BODYLEN. -/
def imgBody (d : List Byte) : Nat := imgField d 8 4

/-- Check 1: MAGIC, HDRVER, BODYLEN, ENTRY and the reserved bytes. -/
def imgHeaderOk (d : List Byte) : Bool :=
  let n := imgBody d
  imgField d 0 4 == 0x46574B4C && imgField d 4 4 == 1 && decide (n % 64 = 0 ∧ 64 ≤ n ∧ n ≤ 8388352) && decide (imgField d 0xC 4 < n) &&
    imgField d 0x14 12 == 0 && imgField d 0xE0 32 == 0

/-- The first check of R466 that an image fails, as its code. -/
def imgCheck (m : Mgc) (d : List Byte) : Option (BitVec 4) :=
  let key := (d.drop 0x20).take 96
  if imgHeaderOk d = false then some 0xA
  else if m.keyHash = 0 ∨ Config.sha384 key ≠ m.keyHash then some 0xB
  else if Config.ecdsaP384 key (Config.sha384 (d.take 0x80 ++ (d.drop 256).take (imgBody d))) ((d.drop 0x80).take 96) = false then some 0xC
  else if imgField d 0x10 4 < m.minSvn.toNat then some 0xD
  else none

/-- The bytes that the ROM reads from flash: the header, and the body that a valid header names. -/
def imgBytes (flash : List Byte) : List Byte :=
  let h := fitBytes 256 flash
  if imgHeaderOk h then fitBytes (256 + imgBody h) flash else h

/-- The image stands at hub memory offset 0. -/
def imgPlace (s : State) (d : List Byte) : State := (bulkWrite s hubBase (d.map some) 0 0).2

/-- The MC starts at ENTRY and step 8 begins. -/
def imgStart (s : State) (d : List Byte) : State :=
  bootNext { s with mgc := { s.mgc with mcRunning := true, mcEntry := BitVec.ofNat 32 (imgField d 0xC 4) } }

/-- A QSPI load: the main image, then the alternate one once (R467). -/
def qspiLoad (s : State) (main alt : Option (List Byte)) : State :=
  match main with
  | none => bootFail s 9
  | some f =>
    let d := imgBytes f
    let s1 := imgPlace s d
    if imgCheck s1.mgc d = none then imgStart s1 d
    else
      let s2 := { s1 with mgc := { s1.mgc with alt := true } }
      match alt with
      | none => bootFail s2 9
      | some g =>
        let e := imgBytes g
        let s3 := imgPlace s2 e
        match imgCheck s3.mgc e with
        | none => imgStart s3 e
        | some c => bootFail s3 c

/-- The address of the load mailbox (R468). -/
def mailboxPa : Nat := hubBase + 0x1FFFFC0

/-- LOAD_MAILBOX_DETECT: MAGIC stands in the mailbox; the image is checked, and the mailbox is cleared before the firmware starts. -/
def doMailbox (s : State) : State :=
  let (m, s1) := bulkRead s mailboxPa 64 0
  if booting s = false ∨ s.mgc.step ≠ 7 ∨ s.mgc.src = 0 ∨ natOfBytes (m.data.take 4) ≠ 0x4C444D42 then s
  else
    let (h, s2) := bulkRead s1 hubBase 256 0
    let (b, s3) := if imgHeaderOk h.data then bulkRead s2 (hubBase + 256) (imgBody h.data) 0 else (Ans.only .ok, s2)
    let d := h.data ++ b.data
    match imgCheck s3.mgc d with
    | some c => bootFail s3 c
    | none => imgStart (bulkWrite s3 mailboxPa (List.replicate 64 (some 0)) 0 0).2 d

/-! ## Completion of a step -/

/-- Step 7 begins: BOOT_SRC 0b11, and a strap fault with BOOT_SRC 0b10, fail it with STRAP; so does a manager with BOOT_SRC
0b10 (R459, R460, R482). -/
def bootLoad (s : State) : State :=
  let t := bootNext s
  if t.mgc.src = 3 ∨ (t.mgc.src = 2 ∧ (t.mgc.straperr = true ∨ t.mgc.role = true)) then bootFail t 7 else t

/-- Step 10: READY and the boot time (R462, R480). -/
def bootDone (s : State) : State :=
  { s with hif := { s.hif with ready := true },
           mgc := { s.mgc with done := true, boottime := BitVec.ofNat 32 (usBetween 0 s.cycle) } }

/-- A step's ready signal, by step. -/
def bootReady (s : State) : State :=
  match s.mgc.step.toNat with
  | 1 | 2 => bootNext s
  | 3 => linkTrain (bootNext s)
  | 5 => bootNext (bootInitsDone s)
  | 6 => bootLoad s
  | 8 => bootNext (scvReplay s)
  | 9 => bootNext s
  | 10 => bootDone s
  | _ => s

/-- BOOT_STEP_COMPLETE. -/
def doBootStep (s : State) (i : BootInput) : State :=
  if booting s = false then s
  else
    match i with
    | .ready => bootReady s
    | .fuses f => if s.mgc.step = 4 then bootNext (bootInits (loadFuses s f)) else s
    | .flash main alt => if s.mgc.step = 7 ∧ s.mgc.src = 0 then qspiLoad s main alt else s
    | .fail c =>
      let n := s.mgc.step.toNat
      if (n = 4 ∨ n = 5 ∨ n = 6 ∨ n = 9) ∧ c = bootCode n then bootFail s c else s

/-! ## PERST_n (R461, R464) -/

/-- PERST_n falls: the endpoint is in reset; after READY it acts as an FLR of the PF. -/
def doPerst (s : State) : State :=
  let t := if s.hif.ready then flr s 0 else s
  { t with hif := { t.hif with perst := true, linkUp := false } }

/-- PERST_n rises: the link trains once CLK_PCIE has its reference. -/
def doPerstRelease (s : State) : State :=
  let t := { s with hif := { s.hif with perst := false } }
  if s.mgc.porst = true ∨ s.mgc.step.toNat < 4 ∨ s.lmp.pkg = .deep then t else linkTrain t

/-! ## THERMTRIP_n (R504) -/

/-- A sensor of a compute die or of the hub (R503). -/
def sensorListed (die sensor : BitVec 3) : Bool := decide (die.toNat < 4 ∧ sensor.toNat < 4) || decide (die.toNat = 4 ∧ sensor.toNat < 2)

/-- THERMTRIP: a sensor reads 125 °C or more, in units of 0.25 °C. -/
def doThermtrip (s : State) (die sensor : BitVec 3) (temp : BitVec 16) : State :=
  if s.mgc.porst = true ∨ sensorListed die sensor = false ∨ temp.toInt < 500 then s
  else
    report { s with mgc := { s.mgc with thermtrip := true } } 0x3E3
      (BitVec.ofNat 32 (packLE [(16, temp.toNat), (3, sensor.toNat), (3, die.toNat)]))

/-! ## Meanings -/

/-- PORST_N_ASSERT (R459). -/
def execPorstNAssert (_role : Bool) (_pkg : PkgId) (_src : BitVec 2) (s : State) : Host.Outcome State Fault Refusal := .next (doPorst s)
/-- PORST_N_RELEASE (R459, R460, R462). -/
def execPorstNRelease (role : Bool) (pkg : PkgId) (src : BitVec 2) (s : State) : Host.Outcome State Fault Refusal :=
  .next (doPorstRelease s role pkg src)
/-- BOOT_STEP_COMPLETE (R462 to R467, R475). -/
def execBootStepComplete (i : BootInput) (s : State) : Host.Outcome State Fault Refusal := .next (doBootStep s i)
/-- BOOT_STEP_TIMEOUT (R462, R463). -/
def execBootStepTimeout (s : State) : Host.Outcome State Fault Refusal := .next (doBootTimeout s)
/-- LOAD_MAILBOX_DETECT (R466 to R468). -/
def execLoadMailboxDetect (s : State) : Host.Outcome State Fault Refusal := .next (doMailbox s)
/-- PERST_N_ASSERT (R461). -/
def execPerstNAssert (s : State) : Host.Outcome State Fault Refusal := .next (doPerst s)
/-- PERST_N_RELEASE (R461, R464). -/
def execPerstNRelease (s : State) : Host.Outcome State Fault Refusal := .next (doPerstRelease s)
/-- AON_OVERCURRENT (R450). -/
def execAonOvercurrent (s : State) : Host.Outcome State Fault Refusal := .next (doOvercurrent s)
/-- THERMTRIP (R504). -/
def execThermtrip (die sensor : BitVec 3) (temp : BitVec 16) (s : State) : Host.Outcome State Fault Refusal :=
  .next (doThermtrip s die sensor temp)

end Sys2Proof.Machine
end

