-- ==== Sys2Proof/Machine/CoreCmds.lean ====
section
/-! DEFINITION. The meanings of the core's commands: one bundle per instruction, the named instruction in its slot (R52, R88, R107,
R116, R509), and the core's events (R72, R73, R80, R81, R84, R91). -/

namespace Sys2Proof.Machine

/-- The answer of every command: the next state. -/
abbrev Out := Host.Outcome State Fault Refusal

/-- The other slots of the bundle with an operation in slot A or B. -/
def inLs (m : Bundle) (sl : LsSlot) (o : Op) : Bundle := match sl with | .a => { m with a := o } | .b => { m with b := o }

/-- The other slots of the bundle with an operation in slot C. -/
def inC (m : Bundle) (o : Op) : Bundle := { m with c := o }

/-- The other slots of the bundle with an operation in slot D. -/
def inD (m : Bundle) (o : Op) : Bundle := { m with d := o }

/-! ## Slots A and B (R70 to R73, R509, R512) -/

/-- LDH: 16-bit load, sign-extended (R70, R71). -/
def execLdh (g : CoreId) (sl : LsSlot) (a : MemArgs) (m : Bundle) (s : State) : Out :=
  .next (runBundle s g (inLs m sl (.ldh a)))

/-- LDW: 32-bit load (R70 to R72). -/
def execLdw (g : CoreId) (sl : LsSlot) (a : MemArgs) (m : Bundle) (s : State) : Out :=
  .next (runBundle s g (inLs m sl (.ldw a)))

/-- STH: 16-bit store (R70, R71). -/
def execSth (g : CoreId) (sl : LsSlot) (a : MemArgs) (m : Bundle) (s : State) : Out :=
  .next (runBundle s g (inLs m sl (.sth a)))

/-- STW: 32-bit store (R70, R71). -/
def execStw (g : CoreId) (sl : LsSlot) (a : MemArgs) (m : Bundle) (s : State) : Out :=
  .next (runBundle s g (inLs m sl (.stw a)))

/-- VLD: 64-byte load (R45, R71). -/
def execVld (g : CoreId) (sl : LsSlot) (a : MemArgs) (m : Bundle) (s : State) : Out :=
  .next (runBundle s g (inLs m sl (.vld a)))

/-- VLDU: 64-byte load at 4-byte alignment (R49, R71). -/
def execVldu (g : CoreId) (sl : LsSlot) (a : MemArgs) (m : Bundle) (s : State) : Out :=
  .next (runBundle s g (inLs m sl (.vldu a)))

/-- VST: 64-byte store (R45, R71). -/
def execVst (g : CoreId) (sl : LsSlot) (a : MemArgs) (m : Bundle) (s : State) : Out :=
  .next (runBundle s g (inLs m sl (.vst a)))

/-- QENQ: enqueue or command at a queue aperture, slot A only (R73, R512). -/
def execQenq (g : CoreId) (sl : LsSlot) (a : MemArgs) (m : Bundle) (s : State) : Out :=
  .next (runBundle s g (inLs m sl (.qenq a)))

/-- QDEQ: dequeue or status read at a queue aperture, slot A only (R73, R512). -/
def execQdeq (g : CoreId) (sl : LsSlot) (a : MemArgs) (m : Bundle) (s : State) : Out :=
  .next (runBundle s g (inLs m sl (.qdeq a)))

/-- VSTA: scaled store of an accumulator (R62 to R64). -/
def execVsta (g : CoreId) (sl : LsSlot) (a : VaArgs) (m : Bundle) (s : State) : Out :=
  .next (runBundle s g (inLs m sl (.vsta a)))

/-- The ADDA operation of an argument (R509). -/
def addaOp (an : BitVec 4) : AddaArg → Op
  | .nm n => .addaN an n
  | .imm i => .addaI an i

/-- ADDA: An += Nm, or An += imm × 4 (R509). -/
def execAdda (g : CoreId) (sl : LsSlot) (an : BitVec 4) (arg : AddaArg) (m : Bundle) (s : State) : Out :=
  .next (runBundle s g (inLs m sl (addaOp an arg)))

/-- MOVA: An ← Sa (R509). -/
def execMova (g : CoreId) (sl : LsSlot) (an : BitVec 4) (sa : BitVec 5) (m : Bundle) (s : State) : Out :=
  .next (runBundle s g (inLs m sl (.mova an sa)))

/-- MOVN: Nm ← Sa (R509). -/
def execMovn (g : CoreId) (sl : LsSlot) (nm : BitVec 4) (sa : BitVec 5) (m : Bundle) (s : State) : Out :=
  .next (runBundle s g (inLs m sl (.movn nm sa)))

/-- MOVAS: Sd ← An (R509). -/
def execMovas (g : CoreId) (sl : LsSlot) (sd : BitVec 5) (an : BitVec 4) (m : Bundle) (s : State) : Out :=
  .next (runBundle s g (inLs m sl (.movas sd an)))

/-! ## Slot C (R58 to R66) -/

/-- CMAC ACd, Va, Vb (R58, R60). -/
def execCmac (g : CoreId) (acd : BitVec 3) (va vb : BitVec 5) (m : Bundle) (s : State) : Out :=
  .next (runBundle s g (inC m (.mac .cmac acd va vb)))

/-- CMACJ ACd, Va, Vb (R58, R60). -/
def execCmacj (g : CoreId) (acd : BitVec 3) (va vb : BitVec 5) (m : Bundle) (s : State) : Out :=
  .next (runBundle s g (inC m (.mac .cmacj acd va vb)))

/-- CMSB ACd, Va, Vb (R58, R60). -/
def execCmsb (g : CoreId) (acd : BitVec 3) (va vb : BitVec 5) (m : Bundle) (s : State) : Out :=
  .next (runBundle s g (inC m (.mac .cmsb acd va vb)))

/-- CMUL ACd, Va, Vb (R58, R60). -/
def execCmul (g : CoreId) (acd : BitVec 3) (va vb : BitVec 5) (m : Bundle) (s : State) : Out :=
  .next (runBundle s g (inC m (.mac .cmul acd va vb)))

/-- CMULJ ACd, Va, Vb (R58, R60). -/
def execCmulj (g : CoreId) (acd : BitVec 3) (va vb : BitVec 5) (m : Bundle) (s : State) : Out :=
  .next (runBundle s g (inC m (.mac .cmulj acd va vb)))

/-- RMAC ACd, Va, Vb (R58, R60). -/
def execRmac (g : CoreId) (acd : BitVec 3) (va vb : BitVec 5) (m : Bundle) (s : State) : Out :=
  .next (runBundle s g (inC m (.mac .rmac acd va vb)))

/-- ACCLR ACd (R59). -/
def execAcclr (g : CoreId) (acd : BitVec 3) (m : Bundle) (s : State) : Out :=
  .next (runBundle s g (inC m (.acclr acd)))

/-- ACSET ACd, Va (R59). -/
def execAcset (g : CoreId) (acd : BitVec 3) (va : BitVec 5) (m : Bundle) (s : State) : Out :=
  .next (runBundle s g (inC m (.acset acd va)))

/-- ACMV Vd, ACs (R62 to R64). -/
def execAcmv (g : CoreId) (vd : BitVec 5) (acs : BitVec 3) (sm : BitVec 2) (sh : BitVec 4) (m : Bundle) (s : State) : Out :=
  .next (runBundle s g (inC m (.acmv vd acs sm sh)))

/-- ACSH Sd, ACs (R65). -/
def execAcsh (g : CoreId) (sd : BitVec 5) (acs : BitVec 3) (m : Bundle) (s : State) : Out :=
  .next (runBundle s g (inC m (.acsh sd acs)))

/-- VADD Vd, Va, Vb (R66). -/
def execVadd (g : CoreId) (vd va vb : BitVec 5) (m : Bundle) (s : State) : Out :=
  .next (runBundle s g (inC m (.vbin .add vd va vb)))

/-- VSUB Vd, Va, Vb (R66). -/
def execVsub (g : CoreId) (vd va vb : BitVec 5) (m : Bundle) (s : State) : Out :=
  .next (runBundle s g (inC m (.vbin .sub vd va vb)))

/-- VADDW Vd, Va, Vb (R66). -/
def execVaddw (g : CoreId) (vd va vb : BitVec 5) (m : Bundle) (s : State) : Out :=
  .next (runBundle s g (inC m (.vbin .addw vd va vb)))

/-- VSUBW Vd, Va, Vb (R66). -/
def execVsubw (g : CoreId) (vd va vb : BitVec 5) (m : Bundle) (s : State) : Out :=
  .next (runBundle s g (inC m (.vbin .subw vd va vb)))

/-- VAND Vd, Va, Vb (R66). -/
def execVand (g : CoreId) (vd va vb : BitVec 5) (m : Bundle) (s : State) : Out :=
  .next (runBundle s g (inC m (.vbin .and vd va vb)))

/-- VOR Vd, Va, Vb (R66). -/
def execVor (g : CoreId) (vd va vb : BitVec 5) (m : Bundle) (s : State) : Out :=
  .next (runBundle s g (inC m (.vbin .or vd va vb)))

/-- VXOR Vd, Va, Vb (R66). -/
def execVxor (g : CoreId) (vd va vb : BitVec 5) (m : Bundle) (s : State) : Out :=
  .next (runBundle s g (inC m (.vbin .xor vd va vb)))

/-- VNEG Vd, Va (R66). -/
def execVneg (g : CoreId) (vd va : BitVec 5) (m : Bundle) (s : State) : Out :=
  .next (runBundle s g (inC m (.vneg vd va)))

/-- VCONJ Vd, Va (R66). -/
def execVconj (g : CoreId) (vd va : BitVec 5) (m : Bundle) (s : State) : Out :=
  .next (runBundle s g (inC m (.vconj vd va)))

/-- VMOV Vd, Va (R66). -/
def execVmov (g : CoreId) (vd va : BitVec 5) (m : Bundle) (s : State) : Out :=
  .next (runBundle s g (inC m (.vmov vd va)))

/-- VSHRR Vd, Va, imm (R66). -/
def execVshrr (g : CoreId) (vd va : BitVec 5) (imm : BitVec 4) (m : Bundle) (s : State) : Out :=
  .next (runBundle s g (inC m (.vshrr vd va imm)))

/-- VBCST Vd, Va, lane (R66). -/
def execVbcst (g : CoreId) (vd va : BitVec 5) (lane : BitVec 4) (m : Bundle) (s : State) : Out :=
  .next (runBundle s g (inC m (.vbcst vd va lane)))

/-! ## Slot D (R67 to R69, R76, R77, R81, R83, R509) -/

/-- ADD Sd, Sa, Sb (R509). -/
def execAdd (g : CoreId) (sd sa sb : BitVec 5) (m : Bundle) (s : State) : Out :=
  .next (runBundle s g (inD m (.alu .add sd sa sb)))

/-- SUB Sd, Sa, Sb (R509). -/
def execSub (g : CoreId) (sd sa sb : BitVec 5) (m : Bundle) (s : State) : Out :=
  .next (runBundle s g (inD m (.alu .sub sd sa sb)))

/-- AND Sd, Sa, Sb (R509). -/
def execAnd (g : CoreId) (sd sa sb : BitVec 5) (m : Bundle) (s : State) : Out :=
  .next (runBundle s g (inD m (.alu .and sd sa sb)))

/-- OR Sd, Sa, Sb (R509). -/
def execOr (g : CoreId) (sd sa sb : BitVec 5) (m : Bundle) (s : State) : Out :=
  .next (runBundle s g (inD m (.alu .or sd sa sb)))

/-- XOR Sd, Sa, Sb (R509). -/
def execXor (g : CoreId) (sd sa sb : BitVec 5) (m : Bundle) (s : State) : Out :=
  .next (runBundle s g (inD m (.alu .xor sd sa sb)))

/-- SHL Sd, Sa, Sb (R509). -/
def execShl (g : CoreId) (sd sa sb : BitVec 5) (m : Bundle) (s : State) : Out :=
  .next (runBundle s g (inD m (.alu .shl sd sa sb)))

/-- SHR Sd, Sa, Sb (R509). -/
def execShr (g : CoreId) (sd sa sb : BitVec 5) (m : Bundle) (s : State) : Out :=
  .next (runBundle s g (inD m (.alu .shr sd sa sb)))

/-- SAR Sd, Sa, Sb (R509). -/
def execSar (g : CoreId) (sd sa sb : BitVec 5) (m : Bundle) (s : State) : Out :=
  .next (runBundle s g (inD m (.alu .sar sd sa sb)))

/-- MUL Sd, Sa, Sb (R509). -/
def execMul (g : CoreId) (sd sa sb : BitVec 5) (m : Bundle) (s : State) : Out :=
  .next (runBundle s g (inD m (.alu .mul sd sa sb)))

/-- CMPLT Sd, Sa, Sb (R509). -/
def execCmplt (g : CoreId) (sd sa sb : BitVec 5) (m : Bundle) (s : State) : Out :=
  .next (runBundle s g (inD m (.alu .cmplt sd sa sb)))

/-- CMPEQ Sd, Sa, Sb (R509). -/
def execCmpeq (g : CoreId) (sd sa sb : BitVec 5) (m : Bundle) (s : State) : Out :=
  .next (runBundle s g (inD m (.alu .cmpeq sd sa sb)))

/-- MOVI Sd, imm (R509). -/
def execMovi (g : CoreId) (sd : BitVec 5) (imm : BitVec 16) (m : Bundle) (s : State) : Out :=
  .next (runBundle s g (inD m (.movi sd imm)))

/-- A conditional branch (R69, R83); the hint changes timing only (R55). -/
def execBr (g : CoreId) (c : BrCond) (hint : Bool) (sa : BitVec 5) (off : BitVec 16) (m : Bundle) (s : State) : Out :=
  .next (runBundle s g (inD m (.br c hint sa off)))

/-- J (R69, R83). -/
def execJ (g : CoreId) (off : BitVec 16) (m : Bundle) (s : State) : Out :=
  .next (runBundle s g (inD m (.j off)))

/-- CALL: S31 receives the address of the next bundle (R69, R83). -/
def execCall (g : CoreId) (off : BitVec 16) (m : Bundle) (s : State) : Out :=
  .next (runBundle s g (inD m (.call off)))

/-- RET: to S31; the offset is ignored (R69, R83). -/
def execRet (g : CoreId) (off : BitVec 16) (m : Bundle) (s : State) : Out :=
  .next (runBundle s g (inD m (.ret off)))

/-- LOOP with an immediate count (R67, R68). -/
def execLoop (g : CoreId) (count : BitVec 12) (fin : BitVec 13) (m : Bundle) (s : State) : Out :=
  .next (runBundle s g (inD m (.loop count fin)))

/-- LOOPS with the count in Sa (R67, R68). -/
def execLoops (g : CoreId) (sa : BitVec 5) (fin : BitVec 13) (m : Bundle) (s : State) : Out :=
  .next (runBundle s g (inD m (.loops sa fin)))

/-- MFC Sd, creg (R48). -/
def execMfc (g : CoreId) (sd : BitVec 5) (cr : BitVec 7) (m : Bundle) (s : State) : Out :=
  .next (runBundle s g (inD m (.mfc sd cr)))

/-- MTC creg, Sa (R48). -/
def execMtc (g : CoreId) (sa : BitVec 5) (cr : BitVec 7) (m : Bundle) (s : State) : Out :=
  .next (runBundle s g (inD m (.mtc sa cr)))

/-- RTI (R77). -/
def execRti (g : CoreId) (m : Bundle) (s : State) : Out := .next (runBundle s g (inD m .rti))

/-- WAIT: the core waits behind the bundle unless an interrupt enabled in CORE_IMASK is pending (R81). -/
def execWait (g : CoreId) (m : Bundle) (s : State) : Out := .next (runBundle s g (inD m .wait))

/-- FENCE: the bundle is held until every posted store of the core has its response (02, Instruction summary). -/
def execFence (g : CoreId) (m : Bundle) (s : State) : Out := .next (runBundle s g (inD m .fence))

/-- NOP, taken in slot A; the other slots run as they are (R52; log 13). -/
def execNop (g : CoreId) (m : Bundle) (s : State) : Out := .next (runBundle s g { m with a := .nop })

/-! ## Coprocessor operations (R88, R107, R116) -/

/-- CPWR (R88, R100). -/
def execCpwr (g : CoreId) (sl : Bool) (f : CpFields) (m : Bundle) (s : State) : Out :=
  .next (runBundle s g (inD m (.cp sl 0 f)))

/-- CPLD (R88, R100). -/
def execCpld (g : CoreId) (sl : Bool) (f : CpFields) (m : Bundle) (s : State) : Out :=
  .next (runBundle s g (inD m (.cp sl 1 f)))

/-- CPRD (R88, R100). -/
def execCprd (g : CoreId) (sl : Bool) (f : CpFields) (m : Bundle) (s : State) : Out :=
  .next (runBundle s g (inD m (.cp sl 2 f)))

/-- CPST (R88, R100). -/
def execCpst (g : CoreId) (sl : Bool) (f : CpFields) (m : Bundle) (s : State) : Out :=
  .next (runBundle s g (inD m (.cp sl 3 f)))

/-- CPRDS (R88, R100). -/
def execCprds (g : CoreId) (sl : Bool) (f : CpFields) (m : Bundle) (s : State) : Out :=
  .next (runBundle s g (inD m (.cp sl 4 f)))

/-- CPWRS (R88, R100). -/
def execCpwrs (g : CoreId) (sl : Bool) (f : CpFields) (m : Bundle) (s : State) : Out :=
  .next (runBundle s g (inD m (.cp sl 5 f)))

/-- CPSAVE (R88, R100). -/
def execCpsave (g : CoreId) (sl : Bool) (f : CpFields) (m : Bundle) (s : State) : Out :=
  .next (runBundle s g (inD m (.cp sl 6 f)))

/-- CPRESTORE (R88, R100). -/
def execCprestore (g : CoreId) (sl : Bool) (f : CpFields) (m : Bundle) (s : State) : Out :=
  .next (runBundle s g (inD m (.cp sl 7 f)))

/-- MMAC (R107). -/
def execMmac (g : CoreId) (f : CpFields) (m : Bundle) (s : State) : Out :=
  .next (runBundle s g (inD m (.cp false 8 f)))

/-- MMAC8 (R107). -/
def execMmac8 (g : CoreId) (f : CpFields) (m : Bundle) (s : State) : Out :=
  .next (runBundle s g (inD m (.cp false 9 f)))

/-- MMV (R107). -/
def execMmv (g : CoreId) (f : CpFields) (m : Bundle) (s : State) : Out :=
  .next (runBundle s g (inD m (.cp false 10 f)))

/-- MMVA (R107). -/
def execMmva (g : CoreId) (f : CpFields) (m : Bundle) (s : State) : Out :=
  .next (runBundle s g (inD m (.cp false 11 f)))

/-- MRSQ (R107). -/
def execMrsq (g : CoreId) (f : CpFields) (m : Bundle) (s : State) : Out :=
  .next (runBundle s g (inD m (.cp false 12 f)))

/-- MCHOL (R107). -/
def execMchol (g : CoreId) (f : CpFields) (m : Bundle) (s : State) : Out :=
  .next (runBundle s g (inD m (.cp false 13 f)))

/-- MTRSV (R107). -/
def execMtrsv (g : CoreId) (f : CpFields) (m : Bundle) (s : State) : Out :=
  .next (runBundle s g (inD m (.cp false 14 f)))

/-- MACLR (R107). -/
def execMaclr (g : CoreId) (f : CpFields) (m : Bundle) (s : State) : Out :=
  .next (runBundle s g (inD m (.cp false 15 f)))

/-- SDMAP (R116). -/
def execSdmap (g : CoreId) (f : CpFields) (m : Bundle) (s : State) : Out :=
  .next (runBundle s g (inD m (.cp true 8 f)))

/-- SSCRB (R116). -/
def execSscrb (g : CoreId) (f : CpFields) (m : Bundle) (s : State) : Out :=
  .next (runBundle s g (inD m (.cp true 9 f)))

/-- SDSCR (R116). -/
def execSdscr (g : CoreId) (f : CpFields) (m : Bundle) (s : State) : Out :=
  .next (runBundle s g (inD m (.cp true 10 f)))

/-- SGINIT (R116). -/
def execSginit (g : CoreId) (f : CpFields) (m : Bundle) (s : State) : Out :=
  .next (runBundle s g (inD m (.cp true 11 f)))

/-- SCRC (R116). -/
def execScrc (g : CoreId) (f : CpFields) (m : Bundle) (s : State) : Out :=
  .next (runBundle s g (inD m (.cp true 12 f)))

/-- SCRCINIT (R116). -/
def execScrcinit (g : CoreId) (f : CpFields) (m : Bundle) (s : State) : Out :=
  .next (runBundle s g (inD m (.cp true 13 f)))

/-- SILV (R116). -/
def execSilv (g : CoreId) (f : CpFields) (m : Bundle) (s : State) : Out :=
  .next (runBundle s g (inD m (.cp true 14 f)))

/-- SDILV (R116). -/
def execSdilv (g : CoreId) (f : CpFields) (m : Bundle) (s : State) : Out :=
  .next (runBundle s g (inD m (.cp true 15 f)))

/-- The oldest operation in flight of a slot finishes: its results enter state, the flags and the dirty bit are set, a late report is
queued (R91, R100, R102 to R104). It waits while the slot's late queue is full. -/
def doCpFinish (s : State) (g : CoreId) (sl : Bool) : State :=
  let p0 := (s.core g).port sl
  match p0.pend with
  | [] => s
  | p :: rest =>
    if 4 ≤ p0.late.length then s
    else
      let n := p.op.toNat
      let (par, s1) := cpParity s g sl (rangeWords (cpReads sl n p.f))
      let c := s1.core g
      let (cm, fd) := if sl then (c.cmu, CmuFound.none) else cmuFinish c.cmu p
      let c1 := { c with cmu := cm, sbu := if sl then sbuFinish c.sbu p else c.sbu }
      let q := clearBad (c1.port sl) (rangeWords (cpWrites sl n p.f))
      let c2 := setDirty (flagPar (c1.setPort sl { q with pend := rest }) sl par) sl true
      let late : CpLate := { baddr := p.baddr, slot := sl, ovf := fd.ovf, divz := fd.divz, par := par, seq := p.seq }
      s1.setCore g (lateReport c2 sl late)

/-- A bundle held in issue may go on. -/
def resumeBusy (s : State) (g : CoreId) : State :=
  match (s.core g).held with
  | some h => if h.kind = .busy then coreResume s g else s
  | none => s

/-- CP_OPERATION_FINISH (R91). -/
def execCpOperationFinish (g : CoreId) (sl : Bool) (s : State) : Out := .next (resumeBusy (doCpFinish s g sl) g)

/-! ## Events of a core -/

/-- The core's QENQ through a far window waits between two attempts (R73, R254). -/
def farRetry (s : State) (g : CoreId) : Bool :=
  (s.ni (clusterNode (coreCluster g))).retries.any (fun h => h.r.ini == .core g && h.r.lane == 4)

/-- The NI makes no further re-send of an abandoned QENQ (R254). -/
def dropRetry (s : State) (g : CoreId) : State :=
  let n := clusterNode (coreCluster g)
  let x := s.ni n
  s.setNi n { x with retries := x.retries.filter (fun h => !(h.r.ini == .core g && h.r.lane == 4)) }

/-- The held QENQ can be abandoned now: it stalls on a full queue, or waits between two attempts (R73). -/
def canAbandon (s : State) (g : CoreId) : Bool :=
  match (s.core g).held with
  | none => false
  | some h =>
    match h.kind with
    | .queueFull => (match nextMove s g h with | .stay _ _ => true | _ => false)
    | .fabric => farRetry s g
    | _ => false

/-- Root cycles of one CLK_CORE cycle at a region's operating point (R323). -/
def coreDiv (s : State) (r : RegionId) : Nat := 2 + (s.region r).opCur.toNat

/-- SCH_ENQTMO of the core's cluster has run out for the held bundle (R73, R193, R512). -/
def enqExpired (s : State) (g : CoreId) (h : Held) : Bool :=
  let t := (s.slice (coreCluster g)).enqtmo.toNat
  t != 0 && decide (t * coreDiv s (clusterRegion (coreCluster g)) ≤ s.cycle - h.since)

/-- Space may have come for a stalled QENQ: it is tried again (R73). -/
def doStallRelease (s : State) (g : CoreId) : State :=
  match (s.core g).held with
  | some h => if h.kind = .queueFull then coreResume s g else s
  | none => s

/-- QENQ_STALL_RELEASE (R73). -/
def execQenqStallRelease (g : CoreId) (s : State) : Out := .next (doStallRelease s g)

/-- The enqueue timeout of a stalled QENQ (R73): the trap, unless the enqueue can be accepted now. -/
def doEnqTimeout (s : State) (g : CoreId) : State :=
  match (s.core g).held with
  | none => s
  | some h =>
    if enqExpired s g h = false then s
    else if canAbandon s g then
      let a := ((effAddr (s.core g).r h.bundle.a).getD 0)
      trap (dropRetry s g) g 8 a (s.core g).pc
    else doStallRelease s g

/-- ENQUEUE_TIMEOUT (R73). -/
def execEnqueueTimeout (g : CoreId) (s : State) : Out := .next (doEnqTimeout s g)

/-- An enabled interrupt is taken at a bundle boundary, out of WAIT, or out of the stall of a QENQ (R73, R80, R81). -/
def doInterrupt (s : State) (g : CoreId) : State :=
  let c := s.core g
  if c.c.ie = false ∨ coreOn s g = false then s
  else
    match intChoice s g with
    | none => s
    | some (code, v) =>
      match c.held with
      | none => if c.st = .running ∨ c.st = .wait then takeInt s g code v else s
      | some _ => if canAbandon s g then takeInt (dropRetry s g) g code v else doStallRelease s g

/-- INTERRUPT_ENTRY (R77, R80). -/
def execInterruptEntry (g : CoreId) (s : State) : Out := .next (doInterrupt s g)

/-- A core in WAIT goes on once an interrupt that CORE_IMASK enables is pending (R81). -/
def doWaitWake (s : State) (g : CoreId) : State :=
  let c := s.core g
  if c.st = .wait ∧ (intChoice s g).isSome = true ∧ coreOn s g = true then s.setCore g { c with st := .running }
  else s

/-- WAIT_WAKE (R81). -/
def execWaitWake (g : CoreId) (s : State) : Out := .next (doWaitWake s g)

/-- The device tick equals CORE_TIMERCMP: TIMER becomes pending (R81). -/
def doTimerRaise (s : State) (g : CoreId) : State :=
  let c := s.core g
  if s.tick = c.c.timercmp then s.setCore g { c with c := { c.c with timerPend := true } } else s

/-- TIMER_RAISE (R81). -/
def execTimerRaise (g : CoreId) (s : State) : Out := .next (doTimerRaise s g)

/-- The oldest posted store of a core in flight: its transaction slot (R72). -/
def postedSlot (s : State) (g : CoreId) : Option Nat :=
  ((s.ni (clusterNode (coreCluster g))).slots.find? (fun p =>
    match p.2.st with
    | .opened r _ => r.ini == .core g && r.lane == 3
    | _ => false)).map (fun p => p.1)

/-- A posted store of the core in flight receives the response o: its transaction closes, and a response other than OK sets STFAULT
(R72). -/
def doStoreFault (s : State) (g : CoreId) (o : Outc) : State :=
  match postedSlot s g with
  | none => s
  | some i =>
    let n := clusterNode (coreCluster g)
    let x := s.ni n
    let t := sget { gen := 0, st := .free } x.slots i
    let x1 := { x with slots := sput { gen := 0, st := .free } x.slots i { t with gen := t.gen + 1, st := .free } }
    resumeBusy (storeFault (s.setNi n x1) g o) g

/-- POSTED_STORE_FAULT (R72). -/
def execPostedStoreFault (g : CoreId) (o : Outc) (s : State) : Out := .next (doStoreFault s g o)

/-! ## CORE_CTL (R84 to R86) -/

/-- CORE_CTL.RUN = 1: the core is released to CORE_BOOTPC at P0; NOT_PERMITTED while the Assayer fences it (R84, R85). -/
def coreRunEff (s : State) (g : CoreId) : State :=
  let c := s.core g
  if coreFenced s g then s.answerOnly .notPermitted
  else if c.st = .halted then
    (s.setCore g { c with st := .running, pc := bundleAlign c.c.bootpc, c := { c.c with priv := 0 } }).answerOnly .ok
  else (s.setCore g { c with haltReq := false }).answerOnly .ok

/-- CORE_CTL.RUN = 0: halt at the next bundle boundary (R84). -/
def coreHaltEff (s : State) (g : CoreId) : State :=
  let c := s.core g
  if c.st = .halted then s.answerOnly .ok
  else if c.held.isSome then (s.setCore g { c with haltReq := true }).answerOnly .ok
  else (s.setCore g { c with st := .halted, haltReq := false }).answerOnly .ok

/-- CORE_CTL.SRESET = 1: architectural state at reset values; memory is kept (R84). -/
def coreSresetEff (s : State) (g : CoreId) : State := (s.setCore g (resetCore (s.core g))).answerOnly .ok

/-- CORE_RUN (R84 to R86). -/
def execCoreRun (who : Initiator) (g : CoreId) (s : State) : Out :=
  .next (regCmd s who (coreRegs g + 4) (fun t => coreRunEff t g))

/-- CORE_HALT (R84). -/
def execCoreHalt (who : Initiator) (g : CoreId) (s : State) : Out :=
  .next (regCmd s who (coreRegs g + 4) (fun t => coreHaltEff t g))

/-- CORE_SRESET (R84). -/
def execCoreSreset (who : Initiator) (g : CoreId) (s : State) : Out :=
  .next (regCmd s who (coreRegs g + 4) (fun t => coreSresetEff t g))

end Sys2Proof.Machine
end

