-- ==== Sys2Proof/Machine/Regs.lean ====
section
/-! DEFINITION. The register space as a whole: MGC, GPO and CORE registers, reads and writes by address, and the meanings of the register
commands (R6 to R12, R27, R29, R31, R38, R84, R85, R480, R487). -/

namespace Sys2Proof.Machine

/-! ## MGC (R480) -/

/-- A read in the MGC block, load window apart. -/
def mgcRead (s : State) (off : Nat) : RdAns :=
  let m := s.mgc
  if off = 0 then rdVal s 0x00010000
  else if off = 0x10 then
    rdPack s [(4, m.step.toNat), (4, m.code.toNat), (1, b2n m.done), (1, b2n m.fail), (1, b2n m.straperr), (1, b2n m.alt), (2, m.src.toNat),
      (1, b2n m.role), (4, m.pkgid.toNat), (2, m.cause.toNat)]
  else if off = 0x14 then rdVal s m.boottime
  else if off = 0x18 then rdVal s (m.loadpage.setWidth 32)
  else none

/-- A write in the MGC block, load window apart. -/
def mgcWrite (s : State) (off : Nat) (v : Word) : WrAns :=
  if off = 0x18 then wrOk { s with mgc := { s.mgc with loadpage := slice v 0 6 } }
  else if off = 0 ∨ off = 0x10 ∨ off = 0x14 then wrOk s
  else none

/-! ## GPO (R427, R486, R487) -/

/-- The level of a PPS output. -/
def ppsPin (p : Pps) : Bool := p.level != p.pol

/-- The level that pin n drives; none for an input. In safe state an output pin with SAFEEN drives SAFEVAL. -/
def pinDrive (s : State) (n : Nat) : Option Bool :=
  let p := s.pin n
  let f := p.func.toNat
  if f = 0 ∨ f = 5 then none
  else if s.asy.safe ∧ p.safeen then some p.safeval
  else if f = 1 then some (s.gpo.dout.getLsbD n)
  else if f = 2 then some (s.gpo.lines.getLsbD n)
  else if f = 3 then some (ppsPin s.cmk.pps0)
  else if f = 4 then some (ppsPin s.cmk.pps1)
  else some !(s.asy.pin || s.asy.safe)

/-- A read of GPO_DIN: outputs read what they drive, the level of an input is free (log 9). -/
def dinRead (s : State) : Word × State :=
  let (k, t) := takeFree s
  let lv := fun (n : Nat) => match pinDrive s n with | some b => b | none => (Config.free16 k).getLsbD n
  (BitVec.ofNat 32 (packLE ((List.range 16).map (fun n => (1, b2n (lv n))))), t)

/-- A read in the GPO block. -/
def gpoRead (s : State) (off : Nat) : RdAns :=
  if off = 0 then rdVal s 0x00010000
  else if off = 4 then some (dinRead s)
  else if off = 8 then rdVal s (s.gpo.dout.setWidth 32)
  else
    match copyOf off 0x100 4 16 with
    | some (n, _) =>
      let p := s.pin n
      rdPack s [(4, p.func.toNat), (2, p.sel.toNat), (1, b2n p.safeval), (1, b2n p.safeen)]
    | none => none

/-- GPO_PINn_CFG written: a reserved FUNC leaves the field (R12). -/
def pinCfgWrite (s : State) (n : Nat) (v : Word) : State :=
  let p := s.pin n
  let f : BitVec 4 := slice v 0 4
  let q : GpoPin := { func := keepIf (decide (6 < f.toNat)) p.func f, sel := slice v 4 2, safeval := v.getLsbD 6, safeen := v.getLsbD 7 }
  { s with gpo := { s.gpo with pins := sput GpoPin.reset s.gpo.pins n q } }

/-- A write in the GPO block; one that would give a wake source two pins is discarded (R484, R485). -/
def gpoWrite (cm : Bool) (s : State) (off : Nat) (v : Word) : WrAns :=
  if off = 8 then wrOk { s with gpo := { s.gpo with dout := slice v 0 16 } }
  else if off = 0 ∨ off = 4 then wrOk s
  else
    match copyOf off 0x100 4 16 with
    | some (n, _) =>
      let t := pinCfgWrite s n v
      some (noConflict cm s (.ok, t))
    | none => none

/-! ## CORE (R84, R85, R97) -/

/-- The code of CORE_STATUS.STATE. -/
def coreStateCode : CoreRunState → Nat
  | .halted => 0 | .running => 1 | .wait => 2 | .stalled => 3

/-- A read in a core's block. -/
def coreRead (s : State) (g : CoreId) (off : Nat) : RdAns :=
  let c := s.core g
  if off = 0 then rdPack s [(9, g.toNat), (7, 0), (4, 1)]
  else if off = 4 then rdVal s (if c.st = .halted ∨ c.haltReq = true then 0 else 1)
  else if off = 8 then
    rdPack s [(2, coreStateCode c.st), (2, c.c.priv.toNat), (3, c.loops.depth.toNat), (1, 0), (8, c.c.acst.toNat), (1, b2n c.c.stfault)]
  else if off = 0xC then rdVal s (c.c.bootpc.setWidth 32)
  else if off = 0x10 then rdVal s (cpenRead c)
  else if inTal off 0x100 5 then talRead s (coreRegs g) off
  else
    match copyOf off 0x20 4 8 with
    | some (n, _) => rdVal s ((sget 0 c.c.farwin n).setWidth 32)
    | none => none

/-- CORE_CTL written: SRESET first, then RUN. -/
def coreCtlWrite (s : State) (g : CoreId) (v : Word) : Outc × State :=
  let t := if v.getLsbD 1 then s.setCore g (resetCore (s.core g)) else s
  let u := if v.getLsbD 0 then coreRunEff t g else coreHaltEff t g
  (u.resp.outc, { u with resp := s.resp })

/-- A write in a core's block. -/
def coreWrite (s : State) (g : CoreId) (off : Nat) (v : Word) : WrAns :=
  let c := s.core g
  if off = 4 then some (coreCtlWrite s g v)
  else if off = 8 then wrOk (if v.getLsbD 16 then s.setCore g { c with c := { c.c with stfault := false } } else s)
  else if off = 0xC then
    if c.st = .halted then wrOk (s.setCore g { c with c := { c.c with bootpc := slice v 0 16 } }) else wrNo s
  else if off = 0x10 then wrOk (s.setCore g { c with c := { c.c with cpen := cpenWrite c.c.cpen v false } })
  else if off = 0 ∨ inTal off 0x100 5 = true then wrOk s
  else
    match copyOf off 0x20 4 8 with
    | some (n, _) =>
      if c.st = .halted then wrOk (s.setCore g { c with c := { c.c with farwin := sput 0 c.c.farwin n (slice v 0 16) } }) else wrNo s
    | none => none

/-! ## All register space (R25 to R27) -/

/-- A read of a register by place. -/
def regRead (s : State) : Place → RdAns
  | .engReg e o => engRead s e o
  | .budReg r o => if o < 0x80000 then budRead s r o else agentRead s r (o - 0x80000)
  | .coreReg g o => coreRead s g o
  | .sch gc o => schRead s gc o
  | .clu gc o => cluRead s gc o
  | .fab gc o => cluFabRead s gc o
  | .hubReg b o =>
    match b with
    | 0 => mgcRead s o | 1 => hifRead s o | 2 => fhpRead s o | 3 => cmkRead s o | 4 => casRead s o | 5 => criRead s o | 6 => lmpRead s o
    | 7 => asyRead s o | 8 => scvRead s o | 9 => edcRead s o | 10 => hubFabRead s o | 11 => gpoRead s o
    | _ => none
  | _ => none

/-- A write of a register by place; `cm` for a write of a commit, whose conflicts have been checked for the whole set (R484). -/
def regWrite (cm : Bool) (s : State) (p : Place) (v : Word) : WrAns :=
  match p with
  | .engReg e o => engWrite s e o v
  | .budReg r o => if o < 0x80000 then budWrite s r o v else agentWrite s r (o - 0x80000) v
  | .coreReg g o => coreWrite s g o v
  | .sch gc o => schWrite s gc o v
  | .clu gc o => cluWrite s gc o v
  | .fab gc o => cluFabWrite s gc o v
  | .hubReg b o =>
    match b with
    | 0 => mgcWrite s o v | 1 => hifWrite cm s o v | 2 => fhpWrite cm s o v | 3 => cmkWrite cm s o v | 4 => casWrite s o v | 5 => criWrite cm s o v
    | 6 => lmpWrite s o v | 7 => asyWrite cm s o v | 8 => scvWrite s o v | 9 => edcWrite s o v | 10 => hubFabWrite s o v
    | 11 => gpoWrite cm s o v
    | _ => none
  | _ => none

/-- The load window of BAR0 onto hub memory (R467, R480): the hub memory address behind an offset of the MGC block. -/
def loadWin (s : State) (pa : Pa) : Option Nat :=
  match place pa with
  | .hubReg 0 o => if 0x80000 ≤ o then some (hubBase + s.mgc.loadpage.toNat * 0x80000 + (o - 0x80000)) else none
  | _ => none

/-- A read of n bytes of register space: an offset without register is ROUTE_FAULT (R29), another width or alignment NOT_PERMITTED
(R7). -/
def regRd (s : State) (pa n : Nat) : Ans × State :=
  match regRead s (place (BitVec.ofNat 44 (pa / 4 * 4))) with
  | none => (Ans.only .routeFault, s)
  | some (v, t) =>
    if n ≠ 4 ∨ pa % 4 ≠ 0 then (Ans.only .notPermitted, s)
    else ({ outc := .ok, flags := 0, data := bytesOfNat 4 v.toNat, poison := [] }, t)

/-- A write of n bytes to register space. -/
def regWr (s : State) (pa n : Nat) (v : Word) : Outc × State :=
  match regWrite false s (place (BitVec.ofNat 44 (pa / 4 * 4))) v with
  | none => (.routeFault, s)
  | some x => if n ≠ 4 ∨ pa % 4 ≠ 0 then (.notPermitted, s) else x

/-- The key of the Tally counter whose low word stands at an address: the register that reads what the counter holds (R37). -/
def counterAt (s : State) (pa : Nat) : Option Nat :=
  let p := place (BitVec.ofNat 44 pa)
  let k := match p with
    | .sch gc o => if qTalOff o then qtalKey (queueOf gc (s.slice gc).qidx) (o / 8 * 8) else pa
    | _ => pa
  let rd := fun (x : BitVec 48) => (regRead { s with tally := sput 0 s.tally k x } p).map (fun (r : Word × State) => r.1)
  if rd 1 == some 1 && rd 2 == some 2 then some k else none

/-- An event of the cycle in which a counter was read counts in the new interval (R11, R38). -/
def lateCount (s : State) (pa : Nat) (ev : BitVec 48) : State :=
  match counterAt s pa with
  | some k => tallyAdd s k ev.toNat
  | none => s

/-! ## Meanings -/

/-- REGISTER_WRITE (R6 to R12). -/
def execRegisterWrite (who : Initiator) (pa : Pa) (size : Nat) (v : Word) (s : State) : Host.Outcome State Fault Refusal :=
  .next (if isRegPa pa ∧ loadWin s pa = none then regCmd s who pa.toNat (fun t => wrAnswer (regWr t pa.toNat size v)) else s)

/-- TALLY_COUNTER_READ (R38). -/
def execTallyCounterRead (who : Initiator) (pa : Pa) (s : State) : Host.Outcome State Fault Refusal :=
  .next (if isRegPa pa ∧ loadWin s pa = none then
    regCmd s who pa.toNat (fun t => let (a, u) := regRd t pa.toNat 4; u.answer a) else s)

/-- RC_FIELD_READ (R11): with an event of the same cycle. -/
def execRcFieldRead (who : Initiator) (pa : Pa) (ev : BitVec 48) (s : State) : Host.Outcome State Fault Refusal :=
  .next (if isRegPa pa ∧ loadWin s pa = none then
    regCmd s who pa.toNat (fun t => let (a, u) := regRd t pa.toNat 4; (if a.outc = .ok then lateCount u pa.toNat ev else u).answer a) else s)

end Sys2Proof.Machine
end

