-- ==== Sys2Proof/Machine/Board.lean ====
section
/-! DEFINITION. The board interfaces: the SMBus target and the JTAG test access port (R498, R499). -/

namespace Sys2Proof.Machine

/-! ## SMBus (R498) -/

/-- The target answers at an address: the package is out of reset and the address is its own. -/
def smbAddressed (s : State) (addr : BitVec 7) : Bool := !s.mgc.porst && addr.toNat == 0x40 + s.mgc.pkgid.toNat

/-- SMBUS_BLOCK_WRITE: command 0x01 with 4 bytes sets the offset; another count is NACKed. -/
def doSmbWrite (s : State) (addr : BitVec 7) (count : Nat) (off : Word) : State :=
  if smbAddressed s addr = false then s
  else if count = 4 then { s with board := { s.board with smbOffset := off, smbNack := false } }
  else { s with board := { s.board with smbNack := true } }

/-- A block of hub register space that the target reads now: MGC from step 4, the others once READY. -/
def smbOpen (s : State) (off : Nat) : Bool :=
  if off < 0x80000 then decide (4 ≤ s.mgc.step.toNat) else decide (0x100000 ≤ off ∧ off < 0xE00000) && s.hif.ready

/-- SMBUS_BLOCK_READ: 4 bytes of the register at the offset, with the effects of a read; another offset is NACKed. -/
def doSmbRead (s : State) (addr : BitVec 7) : State :=
  if smbAddressed s addr = false then s
  else
    let nack : State := { s with board := { s.board with smbNack := true } }
    if smbOpen s s.board.smbOffset.toNat = false then nack
    else
      let (a, t) := regRd s (hubRegs + s.board.smbOffset.toNat) 4
      if a.outc = .ok then { t with board := { t.board with smbData := BitVec.ofNat 32 (natOfBytes a.data), smbNack := false } } else nack

/-- SMBUS_TIMEOUT: the interface resets; what the offset is afterwards is free (log 9). -/
def doSmbTimeout (s : State) : State :=
  let (k, t) := takeFree s
  { t with board := { t.board with smbOffset := Config.free32 k, smbNack := false } }

/-! ## JTAG (R499) -/

/-- An instruction stands in the instruction register: what the boundary register drives, and whether BYPASS is selected. -/
def tapLoad (s : State) (ir : JtagIr) (m : TapMode) (byp : Bool) : State :=
  { s with board := { s.board with tapIr := ir, tapMode := m, tapBypass := byp } }

/-- SAMPLE/PRELOAD: the boundary register holds what it captured or what was shifted in: free (log 9). -/
def doSample (s : State) : State :=
  let (k, t) := takeFree s
  let u := tapLoad t 1 .sample false
  { u with board := { u.board with bsr := Config.freeNat k } }

/-- An instruction value without a function of its own selects BYPASS. -/
def bypassIr (ir : JtagIr) : Bool := decide (6 ≤ ir.toNat)

/-! ## Meanings -/

/-- SMBUS_BLOCK_WRITE (R498). -/
def execSmbusBlockWrite (addr : BitVec 7) (count : Nat) (off : Word) (s : State) : Host.Outcome State Fault Refusal :=
  .next (doSmbWrite s addr count off)
/-- SMBUS_BLOCK_READ (R498). -/
def execSmbusBlockRead (addr : BitVec 7) (s : State) : Host.Outcome State Fault Refusal := .next (doSmbRead s addr)
/-- SMBUS_TIMEOUT (R498). -/
def execSmbusTimeout (s : State) : Host.Outcome State Fault Refusal := .next (doSmbTimeout s)
/-- EXTEST (R499): the boundary register drives the pins. -/
def execExtest (s : State) : Host.Outcome State Fault Refusal := .next (tapLoad s 0 .drive false)
/-- SAMPLE_PRELOAD (R499). -/
def execSamplePreload (s : State) : Host.Outcome State Fault Refusal := .next (doSample s)
/-- EXTEST_PULSE (R499). -/
def execExtestPulse (s : State) : Host.Outcome State Fault Refusal := .next (tapLoad s 2 .pulse false)
/-- EXTEST_TRAIN (R499). -/
def execExtestTrain (s : State) : Host.Outcome State Fault Refusal := .next (tapLoad s 3 .train false)
/-- HIGHZ (R499): the outputs are at high impedance, BYPASS stands between TDI and TDO. -/
def execHighz (s : State) : Host.Outcome State Fault Refusal := .next (tapLoad s 4 .highz true)
/-- CLAMP (R499): the boundary register holds the outputs, BYPASS stands between TDI and TDO. -/
def execClamp (s : State) : Host.Outcome State Fault Refusal := .next (tapLoad s 5 .clamp true)
/-- BYPASS (R499). -/
def execBypass (ir : JtagIr) (s : State) : Host.Outcome State Fault Refusal := .next (if bypassIr ir then tapLoad s ir .normal true else s)
/-- TRST_N_ASSERT (R499): Test-Logic-Reset selects BYPASS. -/
def execTrstNAssert (s : State) : Host.Outcome State Fault Refusal := .next (tapLoad s 0xFF .normal true)

end Sys2Proof.Machine
end

