-- ==== Sys2Proof/Machine/Target.lean ====
section
/-! DEFINITION. The target's side of every request: memory, registers, queue apertures, the journal aperture, remote windows and host
memory; requests at a target NI, host accesses through the BARs, and REQ frames of the cascade (R28 to R33, R188, R191, R230 to R233,
R267, R268, R365, R366, R368, R444, R445). -/

namespace Sys2Proof.Machine

/-! ## Requests (R230, R231) -/

/-- A write. -/
def typIsWrite : PktType → Bool
  | .wr | .wr256 | .wrm | .wrP | .wr256P | .wrmP => true
  | _ => false
/-- A 256-byte access. -/
def typWide : PktType → Bool
  | .rd256 | .wr256 | .wr256P => true
  | _ => false
/-- A write that carries poison. -/
def typPoison : PktType → Bool
  | .wrP | .wr256P | .wrmP => true
  | _ => false

/-- The bytes that a write enables. -/
def reqBytes (typ : PktType) (m : BitVec 64) (d : List Byte) : List (Option Byte) :=
  match typ with
  | .wrm | .wrmP => (fitBytes 64 d).zipIdx.map (fun p => if m.getLsbD p.2 then some p.1 else none)
  | .wr256 | .wr256P => (fitBytes 256 d).map some
  | _ => (fitBytes 64 d).map some

/-- First byte in the block and number of bytes of a request. -/
def reqSpan (k : Packet) : Nat × Nat :=
  if typWide k.typ then (0, 256) else match k.typ with | .rd | .wrm | .wrmP => maskSpan k.mask | _ => (0, 64)

/-- The enabled bytes follow one another. -/
def reqWhole (k : Packet) : Bool :=
  match k.typ with
  | .rd | .wrm | .wrmP => ((List.range 64).filter (fun i => k.mask.getLsbD i)).length == (reqSpan k).2
  | _ => true

/-- A poisoned word among those that the request carries. -/
def reqPoisoned (k : Packet) : Bool := typPoison k.typ && (words16 (reqSpan k).1 (reqSpan k).2).any (fun w => k.poison.getLsbD (w / 2))

/-- What a target makes of a request: an answer, RETRY, nothing yet, or the request is handed on. -/
inductive Tgt where
  | ans (a : Ans) (t : State)
  | retry (t : State)
  | wait
  | taken (t : State)
  deriving DecidableEq, Repr

/-- An answer that may have to wait. -/
def Tgt.of : TgtAns → Tgt
  | some (a, t) => .ans a t
  | none => .wait

/-! ## Plain memory -/

/-- The pieces of a plain access: bulk memories take it whole, the others by 64-byte blocks. -/
def plainPieces (pa n : Nat) : List (Nat × Nat) :=
  if (bulkMc pa).isSome then [(pa, n)] else blocks64 (n / 64 + 2) pa n

/-- Two pieces of a read joined. -/
def joinAns (a b : Ans) : Ans :=
  { outc := if goesOn b.outc then joinOutc a.outc b.outc else b.outc, flags := a.flags ||| b.flags, data := a.data ++ b.data,
    poison := a.poison ++ b.poison }

/-- Pieces one after the other; an outcome without data ends them. -/
def foldPieces (s : State) (f : State → Nat × Nat → TgtAns) (l : List (Nat × Nat)) : TgtAns :=
  l.foldl (fun x p =>
    match x with
    | none => none
    | some (a, t) =>
      if goesOn a.outc = false then some (a, t)
      else match f t p with | some (b, u) => some (joinAns a b, u) | none => none) (some (Ans.only .ok, s))

/-- A read of plain memory. -/
def memRead (s : State) (pa n : Nat) (act : ActId) : TgtAns := foldPieces s (fun t p => plainRead t p.1 p.2 act) (plainPieces pa n)

/-- A write of plain memory; `poison` marks 16-bit words counted from that of pa. -/
def memWrite (s : State) (pa : Nat) (d : List (Option Byte)) (poison : BitVec 128) (act : ActId) : TgtAns :=
  foldPieces s (fun t p => plainWrite t p.1 ((d.drop (p.1 - pa)).take p.2) (poison >>> (p.1 / 2 - pa / 2)) act) (plainPieces pa d.length)

/-- A request to plain memory whose block stands at pa. -/
def tgtMem (s : State) (pa : Nat) (k : Packet) : TgtAns :=
  if typIsWrite k.typ then memWrite s pa (reqBytes k.typ k.mask k.data) (if typPoison k.typ then k.poison else 0) k.act
  else if k.typ = .rd then
    let (lo, n) := maskSpan k.mask
    (memRead s (pa + lo) n k.act).map (fun x => (inBlock k.mask x.1, x.2))
  else memRead s pa 256 k.act

/-! ## Registers -/

/-- A request to register space; the load window is hub memory (R7, R29, R31, R232, R467). -/
def tgtReg (s : State) (pa : Nat) (k : Packet) : TgtAns :=
  match loadWin s (BitVec.ofNat 44 pa) with
  | some a => if k.p2 then some (Ans.only .notPermitted, s) else tgtMem s a k
  | none =>
    let (lo, n) := reqSpan k
    match regRead s (place (BitVec.ofNat 44 ((pa + lo) / 4 * 4))) with
    | none => some (Ans.only .routeFault, s)
    | some _ =>
      if k.p2 = true ∨ n ≠ 4 ∨ reqWhole k = false ∨ lo % 4 ≠ 0 then some (Ans.only .notPermitted, s)
      else if reqPoisoned k then some (Ans.only .uncorrectable, s)
      else if typIsWrite k.typ then
        let (o, t) := regWr s (pa + lo) 4 (BitVec.ofNat 32 (natOfBytes ((k.data.drop lo).take 4)))
        some (Ans.only o, t)
      else
        let (a, t) := regRd s (pa + lo) 4
        some (if goesOn a.outc then inBlock k.mask a else a, t)

/-! ## Queue apertures (R188 to R193, R202, R232, R268) -/

/-- A 32-byte write at the CONTROL port: END is for cores of the cluster, CANCEL acts (R190). -/
def tgtCommand (s : State) (src : EnqFrom) (q : QueueId) (d : Nat) : Ans × State :=
  let rq := (s.slice (queueCluster q)).queue (queueLocal q)
  if bits d 0 4 = 1 then (Ans.only .notPermitted, s)
  else if bits d 0 4 ≠ 2 then (Ans.only .badDescriptor, s)
  else if src = .cascade ∧ rq.remote = false then (Ans.only .notPermitted, s)
  else (Ans.only .ok, cancelCmd s q (BitVec.ofNat 32 (bits d 64 32)))

/-- A 4-byte read of the status by the host. -/
def hostStatusRead (k : Packet) (lo n : Nat) : Bool :=
  (match k.ini with | .host _ => true | _ => false) && n == 4 && lo % 4 == 0 && decide (0x20 ≤ lo)

/-- A request to a queue aperture. -/
def tgtQueue (s : State) (q : QueueId) (k : Packet) : Tgt :=
  let (lo, n) := reqSpan k
  let src : EnqFrom := match k.ini with | .cas _ => .cascade | _ => .fabric
  let st : Ans := { outc := .ok, flags := 0, data := statusRead s .fabric q, poison := [] }
  if reqWhole k = false then .ans (Ans.only .notPermitted) s
  else if typIsWrite k.typ then
    if n ≠ 32 ∨ (lo ≠ 0 ∧ lo ≠ 0x20) then .ans (Ans.only .notPermitted) s
    else if reqPoisoned k then .ans (Ans.only .uncorrectable) (schTal s (queueCluster q) 0x268 1)
    else
      let d := natOfBytes ((k.data.drop lo).take 32)
      if lo = 0 then
        match enqueue s src q (BitVec.ofNat 256 d) with
        | (.accepted, t) => .ans (Ans.only .ok) t
        | (.full, t) => .retry t
        | (.refused o, t) => .ans (Ans.only o) t
      else .ans (tgtCommand s src q d).1 (tgtCommand s src q d).2
  else if n = 32 ∧ lo = 0 then
    let (a, t) := dequeue s q
    .ans (if goesOn a.outc then inBlock k.mask a else a) t
  else if n = 32 ∧ lo = 0x20 then .ans (inBlock k.mask st) s
  else if hostStatusRead k lo n then .ans (inBlock k.mask { st with data := st.data.drop (lo - 0x20) }) s
  else .ans (Ans.only .notPermitted) s

/-! ## The other targets -/

/-- A request to the journal's read aperture (R30). -/
def tgtJournal (s : State) (off : Nat) (k : Packet) : Ans × State :=
  let ok := fun (d : List Byte) => ({ outc := .ok, flags := 0, data := d, poison := [] } : Ans)
  if typIsWrite k.typ then (Ans.only .notPermitted, s)
  else if k.typ = .rd then
    let (lo, n) := maskSpan k.mask
    (inBlock k.mask (ok (journalBytes s (off + lo) n)), s)
  else (ok (journalBytes s off 256), s)

/-- A request to a remote window (R365). -/
def tgtRemote (s : State) (p : PkgId) (off : Nat) (k : Packet) (pkt : Option Packet) : Tgt :=
  match remoteReq s k.ini pkt k.typ p off k.mask k.data k.act with
  | .now o => .ans (Ans.only o) s
  | .sent t => .taken t
  | .wait => .wait

/-- A request to the host range (R291, R292). -/
def tgtHost (s : State) (off : Nat) (k : Packet) (pkt : Option Packet) : Tgt :=
  if hostReach s = false then .wait
  else if typIsWrite k.typ then
    let (o, t) := hostWrite s off (reqBytes k.typ k.mask k.data) k.act
    .ans (Ans.only o) t
  else
    let (lo, n) := reqSpan k
    match hostRead1 s k.ini pkt (off + lo) n k.act with
    | none => .wait
    | some (.ok, t) => .taken t
    | some (o, t) => .ans (Ans.only o) t

/-- A 256-byte request must be aligned (R231). -/
def wideBad (k : Packet) : Bool := typWide k.typ && decide (k.addr.toNat % 256 ≠ 0)

/-- A request at its target: unmapped first, then the target's rules (R29, R35, R231). -/
def tgtAccess (s : State) (k : Packet) (pkt : Option Packet) : Tgt :=
  let pa := k.addr.toNat
  let bad := fun (x : Tgt) => if wideBad k then .ans (Ans.only .badDescriptor) s else x
  match place k.addr with
  | .dram _ | .rm _ _ | .cm _ _ | .ringWin _ _ _ | .dmem _ _ | .imem _ _ | .hubMem _ => bad (Tgt.of (tgtMem s pa k))
  | .engReg _ _ | .budReg _ _ | .coreReg _ _ | .sch _ _ | .clu _ _ | .fab _ _ | .hubReg _ _ => Tgt.of (tgtReg s pa k)
  | .queue gc lq _ => tgtQueue s (queueOf gc lq) k
  | .journal o => if typIsWrite k.typ then .ans (tgtJournal s o k).1 s else bad (.ans (tgtJournal s o k).1 s)
  | .remote p o => tgtRemote s p o k pkt
  | .host o => bad (tgtHost s o k pkt)
  | .gapRegion _ | .gapCluster _ | .gapHub | .nowhere => .ans (Ans.only .routeFault) s

/-! ## REQUEST_AT_TARGET (R231, R255, R444, R445) -/

/-- The index of the request after the first h ones that the NI holds. -/
def reqIndex (l : List Packet) (h : Nat) : Option Nat :=
  ((l.zipIdx.filter (fun p => typIsReq p.1.typ)).map (fun p => p.2))[h]?

/-- Requests held at a node. -/
def heldAt (s : State) (n : NodeId) : Nat := (s.lmp.held.filter (fun h => h.node == n)).length

/-- A request is held for a wake. -/
def holdReq (s : State) (n : NodeId) (u : PowerUnit) : State :=
  if napHold s u then holdWake s u
  else holdWake (lmpTal { s with lmp := { s.lmp with held := s.lmp.held ++ [{ target := u, node := n }] } } 9) u

/-- A request that passed the gate is performed; one that came to a wrong node has no target there. -/
def performReq (s t : State) (n : NodeId) (k : Packet) : State :=
  if nodeOf k.addr ≠ some n then respond t n (answerPkt k (Ans.only .routeFault))
  else
    match tgtAccess t k (some k) with
    | .ans a u => respond u n (answerPkt k a)
    | .retry u => respond u n (retryPkt k)
    | .wait => s
    | .taken u => u

/-- REQUEST_AT_TARGET: the NI discards packets of reserved types and takes in messages; else the oldest request that it does not hold. -/
def doTarget (s : State) (n : NodeId) : State :=
  if inReset s n then s
  else
    match takeArrived s n (fun k => k.typ == .reserved || k.typ == .msg) with
    | some (k, t) => if k.typ = .reserved then tallyAdd t (niBase n + 0x130) 1 else t
    | none =>
      let x := s.ni n
      match reqIndex x.arrived (heldAt s n) with
      | none => s
      | some i =>
        match x.arrived[i]? with
        | none => s
        | some k =>
          let t := s.setNi n { x with arrived := removeAt x.arrived i }
          match nodeGate s n (agentPa k.addr) with
          | .answer o => respond (if o = .domainAsleep then lmpTal t 10 else t) n (answerPkt k (Ans.only o))
          | .hold u => holdReq s n u
          | .pass => performReq s t n k

/-! ## BAR_ACCESS (R32, R33, R267 to R269, R464) -/

/-- A request record of a whole access. -/
def wholeReq (ini : Initiator) (typ : PktType) (pa : Nat) (mask : BitVec 64) (d : List Byte) (act : ActId) (poison : BitVec 128) : Packet :=
  { typ := typ, route := 0, src := iniNode ini, txid := 0, act := act, epoch := false, addr := BitVec.ofNat 44 pa, mask := mask, data := d,
    poison := poison, outc := .ok, synth := false, flags := 0, tc := false, mgt := false, ini := ini, p2 := false, born := 0 }

/-- The region address behind an offset of a region's BAR0 slot (R267). -/
def slotPa (r : RegionId) (o : Nat) : Option Nat :=
  let b := regionBase r
  if o < 0x100000 then some (b + 0x1000000 + o)
  else if o < 0x200000 then some (b + 0x2000000 + (o - 0x100000))
  else if 0x600000 ≤ o then none
  else
    let c := clusterBase (clusterOf r (BitVec.ofNat 2 ((o - 0x200000) / 0x100000)))
    let x := o % 0x100000
    if x < 0x80000 then some (c + 0x1080000 + x / 0x10000 * 0x100000 + x % 0x10000)
    else if x < 0x90000 then some (c + 0x2000000 + (x - 0x80000))
    else if x < 0xA0000 then some (c + 0x2010000 + (x - 0x90000))
    else if x < 0xA4000 then some (c + 0x3000000 + (x - 0xA0000))
    else none

/-- The address behind a BAR0 offset; none where it is unmapped, as all but MGC is before READY. -/
def bar0Pa (s : State) (o : Nat) : Option Nat :=
  if s.hif.ready = false ∧ 0x100000 ≤ o then none
  else if o < 0xE00000 then some (hubRegs + o)
  else if 0x10000000 ≤ o ∧ o < 0x20000000 then slotPa (BitVec.ofNat 4 ((o - 0x10000000) / 0x1000000)) (o % 0x1000000)
  else none

/-- The address behind a BAR4 offset. -/
def bar4Pa (s : State) (o : Nat) : Option Nat :=
  if s.hif.ready = false then none
  else if o < 0x800000000 then some o
  else if o < 0x802000000 then some (hubBase + (o - 0x800000000))
  else none

/-- An unmapped offset: Unsupported Request for a read, a write is discarded; counted (R33). -/
def barUnmapped (s : State) : State := (hifCount s 3 1).answerOnly .routeFault

/-- A BAR0 access to a queue aperture that is handled as unmapped (R268). -/
def barQueueBad (pa size : Nat) (wr : Bool) : Bool :=
  match place (BitVec.ofNat 44 pa) with
  | .queue _ _ o => wr || size != 4 || o % 4 != 0 || decide (o < 0x20)
  | _ => false

/-- One BAR0 access as a whole: a register, a status word or the load window. -/
def bar0One (s : State) (pa size : Nat) (wr : Bool) (d : List Byte) : TgtAns :=
  match loadWin s (BitVec.ofNat 44 pa) with
  | some a => if wr then plainWrite s a ((fitBytes size d).map some) 0 0 else plainRead s a size 0
  | none =>
    match place (BitVec.ofNat 44 pa) with
    | .queue gc lq o =>
      some ({ outc := .ok, flags := 0, data := ((statusRead s .fabric (queueOf gc lq)).drop (o - 0x20)).take size, poison := [] }, s)
    | p =>
      if p.isReg = false then some (Ans.only .routeFault, s)
      else if wr then
        let (o, t) := regWr s pa size (BitVec.ofNat 32 (natOfBytes (d.take 4)))
        some (Ans.only o, t)
      else some (regRd s pa size)

/-- MMIOERR: the outcome and the BAR0 offset of an access that failed (R268). -/
def mmioErr (s : State) (off : Nat) (o : Outc) : State :=
  hifCount { s with hif := { s.hif with errOutc := o.code, errOff := BitVec.ofNat 32 off } } 7 1

/-- A BAR0 access. -/
def doBar0 (s : State) (off size : Nat) (wr : Bool) (d : List Byte) : State :=
  match bar0Pa s off with
  | none => barUnmapped s
  | some pa =>
    if barQueueBad pa size wr then barUnmapped s
    else
      match accPiece s 0x90 pa (fun t => bar0One t pa size wr d) with
      | .wait t => t
      | .done a t => (if a.outc.good then t else mmioErr t off a.outc).answer a

/-- A BAR4 access to DRAM or hub memory. -/
def doBar4 (s : State) (fn : BitVec 6) (off size : Nat) (wr : Bool) (d : List Byte) : State :=
  match bar4Pa s off with
  | none => barUnmapped s
  | some pa =>
    match (if wr then accStore s (.host fn) pa (fitBytes size d) 0 else accRead s (.host fn) pa size 0) with
    | .wait t => t
    | .done a t => t.answer a

/-- A read of a VF's MSI-X structures, or of the doorbell page, which returns 0 and is counted (R269, R272). -/
def doBar2Read (s : State) (fn : BitVec 6) (off size : Nat) : State :=
  let word := fun (v : Word) => s.answer { outc := .ok, flags := 0, data := (bytesOfNat 4 v.toNat).take size, poison := [] }
  if s.hif.ready = false then barUnmapped s
  else if off < 0x8000 then (hifCount s 2 1).answer { outc := .ok, flags := 0, data := List.replicate size 0, poison := [] }
  else if fn ≠ 0 ∧ 0x10000 ≤ off ∧ off < 0x18000 ∧ size = 4 ∧ off % 4 = 0 then
    word (get msixDflt s.hif.msixTable (fn.toNat * 8192 + (off - 0x10000) / 4))
  else if fn ≠ 0 ∧ 0x18000 ≤ off ∧ off < 0x18100 ∧ size = 4 ∧ off % 4 = 0 then word (pbaWord s fn ((off - 0x18000) / 4))
  else barUnmapped s

/-- BAR_ACCESS: only the PF has BAR0 and BAR4; a BAR2 write is a doorbell. -/
def doBar (s : State) (fn : BitVec 6) (bar : Bar) (off : BitVec 36) (wr : Bool) (size : Nat) (d : List Byte) : State :=
  if hostReach s = false ∨ 32 < fn.toNat then s
  else
    match bar with
    | .bar0 => if fn = 0 then doBar0 s off.toNat size wr d else barUnmapped s
    | .bar4 => if fn = 0 then doBar4 s fn off.toNat size wr d else barUnmapped s
    | .bar2 =>
      if wr then doDoorbell s fn (off.setWidth 17) size (BitVec.ofNat 64 (natOfBytes (d.take 8))) else doBar2Read s fn off.toNat size

/-! ## REQ_RECEIVE (R28, R366, R368) -/

/-- The package address behind an offset of a remote window (R28). -/
def windowPa (o : Nat) : Option Nat :=
  if o < 0x800000000 then some o
  else if o < 0xC00000000 then some (hubBase + (o - 0x800000000))
  else if o < 0xC08000000 then some (regionBase (BitVec.ofNat 4 ((o - 0xC00000000) / 0x800000)) + o % 0x800000)
  else none

/-- A worker that boots from the cascade takes only writes of package 0 to its hub memory before its firmware runs (R368). -/
def reqBarred (s : State) (f : CasFrame) (typ : PktType) (pa : Nat) : Bool :=
  !s.mgc.role && s.mgc.src == 2 && !s.mgc.mcRunning &&
    !(f.src == 0 && typIsWrite typ && (match place (BitVec.ofNat 44 pa) with | .hubMem _ => true | _ => false))

/-- The request in a REQ frame; which words of a _P form are poison is not told (free, log 9). -/
def frameReq (s : State) (f : CasFrame) (pa : Nat) : Packet × State :=
  let typ := reqTyp f
  let masked := typ == .rd || typ == .wrm || typ == .wrmP
  let d := f.payload.drop (if typ = .wrm ∨ typ = .wrmP then 16 else 8)
  let m : BitVec 64 := if masked then BitVec.ofNat 64 (pF f.payload 8 8) else 0
  if typPoison typ then
    let (k, t) := takeFree s
    (wholeReq (.cas f.src) typ pa m d f.act ((Config.free512 k).setWidth 128), t)
  else (wholeReq (.cas f.src) typ pa m d f.act 0, s)

/-- The access of a REQ on this package's fabric, from node 0x92; none while it cannot be answered. -/
def reqAnswer (s : State) (f : CasFrame) : Acc :=
  match windowPa (bits (pF f.payload 0 8) 0 36) with
  | none => .done (Ans.only .routeFault) s
  | some pa =>
    let b := pa / 64 * 64
    if reqBarred s f (reqTyp f) b then .done (Ans.only .notPermitted) s
    else
      let (k, s1) := frameReq s f b
      accPiece s1 0x92 b (fun t =>
        match tgtAccess t k none with
        | .ans a u => some (a, u)
        | .retry u => some (Ans.only .queueFull, u)
        | .wait => none
        | .taken u => some (Ans.only .routeFault, u))

/-- The RSP to a REQ: flags, and the data of a read that brought some (R355, R366). -/
def rspFrame (s : State) (f : CasFrame) (a : Ans) : CasFrame :=
  let typ := reqTyp f
  let d := if PktType.isRead typ ∧ goesOn a.outc = true then fitBytes (if typ = .rd256 then 256 else 64) a.data else []
  mkFrame s 3 f.src f.ring false f.tag f.act a.outc.code (bytesOfNat 4 a.flags.toNat ++ List.replicate 4 0 ++ d)

/-- REQ_RECEIVE. -/
def doReq (s : State) (f : CasFrame) : State :=
  if f.typ ≠ 2 ∨ casMine s f = false then s
  else
    match reqAnswer s f with
    | .wait t =>
      if frameBad f ∨ frameOk f = false then casArrive s f (fun u _ => u) else if casListens s f.east then stayWake s t else s
    | .done _ _ =>
      casArrive s f (fun t g =>
        if frameBad g then t
        else
          match reqAnswer t g with
          | .done a u => casQueue u (rspFrame u g a)
          | .wait u => u)

/-! ## Meanings -/

/-- REQUEST_AT_TARGET (R231 to R233, R444, R445). -/
def execRequestAtTarget (node : NodeId) (s : State) : Host.Outcome State Fault Refusal := .next (doTarget s node)
/-- BAR_ACCESS (R32, R33, R267 to R269). -/
def execBarAccess (fn : BitVec 6) (bar : Bar) (off : BitVec 36) (wr : Bool) (size : Nat) (data : List Byte) (s : State) :
    Host.Outcome State Fault Refusal := .next (doBar s fn bar off wr size data)
/-- REQ_RECEIVE (R28, R355, R366, R368). -/
def execReqReceive (f : CasFrame) (s : State) : Host.Outcome State Fault Refusal := .next (doReq s f)

end Sys2Proof.Machine
end

