-- ==== Sys2Proof/Machine/DevAccess.lean ====
section
/-! DEFINITION. Accesses that the HIF, the hub DMA channels and other hub blocks make for a host command, in pieces of at most 64 bytes to any
target, and the hub DMA (R278 to R280, R291, R292, R365, R488). -/

namespace Sys2Proof.Machine

/-- The data of one piece: read by the target's answer, or none for a write. -/
abbrev PieceData := Option (List Byte)

/-- A piece in host memory: what PCIe returns for a read is free (R292; log 9). -/
def hostPiece (s : State) (off n : Nat) (act : ActId) (d : PieceData) : Acc :=
  if hostReach s = false then .wait s
  else
    match d with
    | some b => let (o, t) := hostWrite s off (b.map some) act; .done (Ans.only o) t
    | none =>
      match hostXlate s off act with
      | .error o => .done (Ans.only o) s
      | .ok _ =>
        let (k, t) := takeFree s
        .done { outc := .ok, flags := 0, data := (List.range n).map (Config.freeByte k), poison := [] } t

/-- A piece in another package: its memory is not part of this model, so a read is free and a write leaves nothing here (log 33). -/
def remotePiece (s : State) (p : PkgId) (n : Nat) (d : PieceData) : Acc :=
  match casRoute s p with
  | none => .done (Ans.only .routeFault) s
  | some _ =>
    if memberHolds s .cas then .wait s
    else if d.isSome then .done (Ans.only .ok) s
    else
      let (k, t) := takeFree s
      .done { outc := .ok, flags := 0, data := (List.range n).map (Config.freeByte k), poison := [] } t

/-- What a target makes of a whole access. -/
def Tgt.whole : Tgt → TgtAns
  | .ans a t => some (a, t)
  | .taken t => some (Ans.only .ok, t)
  | .retry _ | .wait => none

/-- One piece of n bytes from pa within a 64-byte block. -/
def devPiece (s : State) (who : Initiator) (pa n : Nat) (act : ActId) (d : PieceData) : Acc :=
  let a : Pa := BitVec.ofNat 44 pa
  match place a with
  | .host off => routed s (iniNode who) a (fun _ t => hostPiece t off n act d)
  | .remote p _ => routed s (iniNode who) a (fun _ t => remotePiece t p n d)
  | _ =>
    let o := pa % 64
    let body := List.replicate o 0 ++ d.getD []
    let k := wholeReq who (if d.isSome then .wrm else .rd) (pa - o) (maskOf o n) (fitBytes 64 body) act 0
    match accPiece s (iniNode who) pa (fun t => (tgtAccess t k none).whole) with
    | .done a t => .done (if d.isNone ∧ goesOn a.outc = true then { a with data := (a.data.drop o).take n } else a) t
    | w => w

/-- A read of n bytes of the device for a command. -/
def devRead (s : State) (who : Initiator) (pa n : Nat) (act : ActId) : Acc :=
  accAll s (fun t p => devPiece t who p.1 p.2 act none) (blocks64 (n / 64 + 2) pa n)

/-- A write of bytes of the device for a command. -/
def devWrite (s : State) (who : Initiator) (pa : Nat) (d : List Byte) (act : ActId) : Acc :=
  accAll s (fun t p => devPiece t who p.1 p.2 act (some ((d.drop (p.1 - pa)).take p.2))) (blocks64 (d.length / 64 + 2) pa d.length)

/-- A command waits: nothing of it happened but the wake it began. -/
def accStays (s t : State) : State := stayWake s t

/-! ## Hub DMA (R280, R486, R488) -/

/-- The pieces that copy n bytes, cut at the 64-byte boundaries of both sides. -/
def dmaPieces : Nat → Nat → Nat → Nat → List (Nat × Nat × Nat)
  | 0, _, _, _ => []
  | fuel + 1, src, dst, n =>
    if n = 0 then []
    else
      let k := min n (min (64 - src % 64) (64 - dst % 64))
      (src, dst, k) :: dmaPieces fuel (src + k) (dst + k) (n - k)

/-- The pieces of sources one after the other into dst. -/
def dmaParts : List (Nat × Nat) → Nat → List (Nat × Nat × Nat)
  | [], _ => []
  | (src, n) :: rest, dst => dmaPieces (n / 32 + 4) src dst n ++ dmaParts rest (dst + n)

/-- The channel that serves a command ring: its own, else the first of the pool (R488). -/
def dmaChannel (s : State) (ring : RingId) : Option Nat :=
  ((List.range 16).find? (fun n => (s.dmaCh n).rsv && (s.dmaCh n).ring == ring)).or ((List.range 16).find? (fun n => !(s.dmaCh n).rsv))

/-- How far a transfer is: bytes written, flags, and the outcome that stopped it. -/
structure DmaRun where
  done : Nat
  flags : Word
  stop : Option Outc
  wait : Bool
  st : State
  deriving DecidableEq, Repr

/-- One piece of a transfer; with overlapping ranges the data are free (R280; log 9). -/
def dmaStep (who : Initiator) (act : ActId) (free : Option Nat) (r : DmaRun) (p : Nat × Nat × Nat) : DmaRun :=
  if r.wait ∨ r.stop.isSome then r
  else
    match devPiece r.st who p.1 p.2.2 act none with
    | .wait t => { r with wait := true, st := t }
    | .done a t =>
      if a.outc.good = false then { r with stop := some a.outc, st := t }
      else
        let d := match free with
          | some k => (List.range p.2.2).map (fun (i : Nat) => Config.freeByte k (r.done + i))
          | none => a.data
        match devPiece t who p.2.1 p.2.2 act (some d) with
        | .wait u => { r with wait := true, st := u }
        | .done b u =>
          if b.outc.good then { r with done := r.done + p.2.2, flags := r.flags ||| a.flags, st := u }
          else { r with stop := some b.outc, st := u }

/-- Some source meets the destination. -/
def dmaOverlaps (segs : List (Nat × Nat)) (dst : Nat) : Bool :=
  let total := segs.foldl (fun a p => a + p.2) 0
  segs.any (fun p => decide (p.1 < dst + total ∧ dst < p.1 + p.2))

/-- A transfer as a whole, and its command's completion (R280). -/
def dmaRun (s : State) (ring : RingId) (idx : Word) (who : Initiator) (act : ActId) (segs : List (Nat × Nat)) (dst : Nat) : State :=
  let f := takeFree s
  let (free, s1) := if dmaOverlaps segs dst then (some f.1, f.2) else (none, s)
  let r := (dmaParts segs dst).foldl (dmaStep who act free) { done := 0, flags := 0, stop := none, wait := false, st := s1 }
  if r.wait then accStays s r.st
  else
    match r.stop with
    | some o => completeCmd r.st ring idx o 0 (BitVec.ofNat 32 r.done) 0
    | none => completeCmd r.st ring idx (if r.flags = 0 then .ok else .okFlagged) r.flags (BitVec.ofNat 32 r.done) 0

/-- A length that a transfer or a list entry may have. -/
def dmaLenOk (n : Nat) : Bool := decide (1 ≤ n ∧ n ≤ 16777216)

/-- DMA_COPY after its checks. -/
def dmaCopyEff (ring : RingId) (idx : Word) (path : PathRes) (s : State) (d : Block64) : State :=
  if dmaLenOk (dF d 0x18 4) = false then completeOk s ring idx .badDescriptor
  else
    match dmaChannel s ring, path with
    | none, _ => s
    | some ch, some o =>
      if o.good then dmaRun s ring idx (.dma (BitVec.ofNat 4 ch)) (dAct d) [(dF d 8 8, dF d 0x18 4)] (dF d 0x10 8) else completeOk s ring idx o
    | some ch, none => dmaRun s ring idx (.dma (BitVec.ofNat 4 ch)) (dAct d) [(dF d 8 8, dF d 0x18 4)] (dF d 0x10 8)

/-- A little-endian number of n bytes at byte o. -/
def leAt (l : List Byte) (o n : Nat) : Nat := natOfBytes ((l.drop o).take n)

/-- DMA_GATHER after its checks: the list is read by the channel, then its sources are copied. -/
def dmaGatherEff (ring : RingId) (idx : Word) (path : PathRes) (s : State) (d : Block64) : State :=
  let lst := dF d 8 8
  let n := dF d 0x18 2
  if lst % 16 ≠ 0 ∨ n = 0 ∨ 1024 < n then completeOk s ring idx .badDescriptor
  else
    match dmaChannel s ring with
    | none => s
    | some ch =>
      let who : Initiator := .dma (BitVec.ofNat 4 ch)
      match viaPath path s (devRead s who lst (16 * n) (dAct d)) with
      | .wait t => accStays s t
      | .done a t =>
        if a.outc.good = false then completeOk t ring idx a.outc
        else
          let segs := (List.range n).map (fun (i : Nat) => (leAt a.data (16 * i) 8 % 2 ^ 44, leAt a.data (16 * i + 8) 4))
          if segs.all (fun p => dmaLenOk p.2) then dmaRun t ring idx who (dAct d) segs (dF d 0x10 8) else completeOk t ring idx .badDescriptor

end Sys2Proof.Machine
end

