-- ==== Sys2Proof/Machine/HostCmds.lean ====
section
/-! DEFINITION. The host commands apart from configuration and POWER_STATE (R278 to R280, R349, R390, R391, R425, R431, R478). -/

namespace Sys2Proof.Machine

/-- A command row by opcode. -/
def rowOp (op : Nat) (d : Block64) : Bool := dOp d == op
/-- A command row by opcode and SUBOP. -/
def rowSubop (op sub : Nat) (d : Block64) : Bool := dOp d == op && dF d 8 1 == sub

/-- Ends a command as a write to its DST ends; with OK it completes with results. -/
def writeThen (s : State) (ring : RingId) (idx : Word) (x : Acc) (result result2 : Word) : State :=
  match x with
  | .wait t => accStays s t
  | .done a t => if a.outc.good then completeCmd t ring idx .ok 0 result result2 else completeOk t ring idx a.outc

/-! ## Tasks (R279, R287) -/

/-- Address of a queue's enqueue port. -/
def queuePa (q : QueueId) : Nat := queueBase (queueCluster q) + 64 * (queueLocal q).toNat
/-- QID of a descriptor. -/
def dQid (d : Block64) : QueueId := slice d 64 16

/-- Marks a command as answered RETRY: it has started and is sent again (R254, R287). -/
def cmdRetried (s : State) (ring : RingId) (idx : Word) : State :=
  { s with hif := { s.hif with cmds := s.hif.cmds.map (fun c =>
      if c.ring = ring ∧ c.idx = idx then { c with phase := .running, retried := true } else c) } }

/-- Another TASK_SUBMIT to the queue was answered RETRY and is sent again first (R254). -/
def submitWaits (s : State) (ring : RingId) (idx : Word) (q : QueueId) : Bool :=
  s.hif.cmds.any (fun c => c.retried && dQid c.desc == q && !(c.ring == ring && c.idx == idx))

/-- TASK_SUBMIT after its checks. -/
def submitEff (ring : RingId) (idx : Word) (path : PathRes) (s : State) (d : Block64) : State :=
  let q := dQid d
  let e : Entry := slice d 128 256
  if (slice d 136 9 : ActId) ≠ dAct d then completeOk s ring idx .badDescriptor
  else if submitWaits s ring idx q then s
  else
    match viaPath path s (accPiece s 0x90 (queuePa q) (fun t =>
        match enqueue t .fabric q e with
        | (.accepted, u) => some (Ans.only .ok, u)
        | (.full, u) => some (Ans.only .queueFull, u)
        | (.refused o, u) => some (Ans.only o, u))) with
    | .wait t => accStays s t
    | .done a t =>
      if a.outc = .queueFull then cmdRetried (tallyAdd t (niBase 0x90 + 0x120) 1) ring idx
      else completeOk t ring idx a.outc

/-- TASK_SUBMIT: a first attempt, or the re-send of one answered RETRY. -/
def doTaskSubmit (s : State) (ring : RingId) (idx : Word) (path : PathRes) : State :=
  match s.cmd ring idx with
  | some c => if c.retried then settleCmds (submitEff ring idx path s c.desc) else runCmd s ring idx (rowOp 0x01) (submitEff ring idx path)
  | none => s

/-- TASK_CANCEL after its checks. -/
def cancelEff (ring : RingId) (idx : Word) (path : PathRes) (s : State) (d : Block64) : State :=
  let q := dQid d
  match viaPath path s (accPiece s 0x90 (queuePa q + 0x20) (fun t => some (tgtCommand t .fabric q (2 + 2 ^ 64 * dF d 0xC 4)))) with
  | .wait t => accStays s t
  | .done a t => completeOk t ring idx a.outc

/-! ## BUDGET_SET (R220, R221, R279) -/

/-- The regions that BUDGET_SET names; 0xFF names every region that is not DISABLED (log 34). -/
def budgetRegions (s : State) (n : Nat) : List RegionId :=
  if n = 0xFF then ((List.range 16).map (fun i => (BitVec.ofNat 4 i : RegionId))).filter (fun r => (s.region r).st != .disabled) else [BitVec.ofNat 4 n]

/-- The budget words that a VALID mask names, written in one region. -/
def budgetWords (s : State) (r : RegionId) (d : Block64) : State :=
  [(BudWord.cyc, 0, 0xC), (.joba, 1, 0x10), (.jobb, 2, 0x14), (.jobc, 3, 0x18), (.bmax, 4, 0x1C)].foldl (fun t p =>
    if bitOf (dF d 9 1) p.2.1 then budWordWrite t r (dAct d) p.1 (BitVec.ofNat 32 (dF d p.2.2 4)) else t) s

/-- BUDGET_SET after its checks. -/
def budgetEff (ring : RingId) (idx : Word) (s : State) (d : Block64) : State :=
  let n := dF d 8 1
  if 15 < n ∧ n ≠ 0xFF then completeOk s ring idx .badDescriptor
  else
    let words := (dF d 9 1) % 32 != 0
    let x := (budgetRegions s n).foldl (fun x r =>
      match x with
      | .wait t => .wait t
      | .done a t =>
        if a.outc.good = false ∨ words = false then .done a t
        else accPiece t 0x90 (budBase r + (dAct d).toNat * 0x40) (fun u => some (Ans.only .ok, budgetWords u r d))) (Acc.done (Ans.only .ok) s)
    match x with
    | .wait t => accStays s t
    | .done a t =>
      if a.outc.good = false then completeOk t ring idx a.outc
      else completeOk (if bitOf (dF d 9 1) 5 then dbudLimWrite t (dAct d) (BitVec.ofNat 32 (dF d 0x20 4)) else t) ring idx .ok

/-! ## Journal (R471 to R474, R478, R479) -/

/-- A type that the host may write. -/
def hostType (t : Nat) : Bool := decide (0x40 ≤ t ∧ t ≤ 0xFE)

/-- JOURNAL_APPEND after its checks. -/
def appendEff (ring : RingId) (idx : Word) (s : State) (d : Block64) : State :=
  let typ := dF d 8 1
  let len := dF d 9 1
  let a : JAppend := { cmd := some (ring, idx), typ := BitVec.ofNat 8 typ, len := BitVec.ofNat 8 len, key := slice d 80 16,
                       payload := BitVec.ofNat 384 (bits d.toNat 128 (8 * len)), waited := false }
  if 48 < len ∨ !(typ == 3 || hostType typ) ∨ (typ = 3 ∧ hostType (bits a.payload.toNat 0 8) = false) then completeOk s ring idx .badDescriptor
  else if s.scv.noRoom a then completeOk s ring idx .refused
  else cmdRunning (jPush s a) ring idx

/-- The last commit is less than 60 s old. -/
def commitFresh (s : State) : Bool :=
  match s.scv.lastCommit with
  | some t => decide (s.cycle < t + 60 * rootHz)
  | none => false

/-- JOURNAL_COMPACT after its checks. -/
def compactEff (ring : RingId) (idx : Word) (s : State) (_ : Block64) : State :=
  if s.scv.compact.isSome ∨ commitFresh s = true then completeOk s ring idx .refused
  else cmdRunning (compactBegin s (some (ring, idx))) ring idx

/-- JOURNAL_READ after its checks. -/
def journalReadEff (ring : RingId) (idx : Word) (path : PathRes) (s : State) (d : Block64) : State :=
  if dF d 0x18 4 < 64 then completeOk s ring idx .badDescriptor
  else
    match (s.scv.live.find? (fun p => p.1 == pairKey (slice d 80 8) (slice d 64 16))).map (fun p => p.2) with
    | none => completeCmd s ring idx .ok 0 0xFFFFFFFF 0
    | some b =>
      writeThen s ring idx (viaPath path s (devWrite s .scv (dF d 0x10 8) (recBytes b) (dAct d))) ((recLen b).setWidth 32) (recSeq b)

/-! ## TIME_CMD (R330, R342, R343, R349) -/

/-- The TS96 of a descriptor, in the order of R284. -/
def dTs (d : Block64) : Ts := { frac := slice d 128 16, ns := slice d 144 32, sec := slice d 176 48 }
/-- VALUE of TIME_CMD. -/
def dVal (d : Block64) : Word := slice d 224 32
/-- TIMER of TIME_CMD is one of the 64 (R278). -/
def dTmrOk (d : Block64) : Bool := decide (dF d 9 1 < 64)
/-- TIMER of TIME_CMD. -/
def dTmr (d : Block64) : TimerId := slice d 72 6

/-- A TS96 read as signed, in units (R349). -/
def tsSigned (t : Ts) : Int := (t.sec.toInt * 1000000000 + (t.ns.toNat : Int)) * 65536 + (t.frac.toNat : Int)

/-- TIME_CMD subop 0 after its checks. -/
def timeReadEff (ring : RingId) (idx : Word) (path : PathRes) (s : State) (d : Block64) : State :=
  if dTmrOk d = false then completeOk s ring idx .badDescriptor
  else writeThen s ring idx (viaPath path s (devWrite s .hif (dF d 0x20 8) (timeBytes s) (dAct d))) s.tick 0

/-- TIME_CMD subop 1 after its checks; another VALUE than 0 and 1 is BAD_DESCRIPTOR (log 34). -/
def timeStepEff (ring : RingId) (idx : Word) (s : State) (d : Block64) : State :=
  let whole : Int := 2 ^ 48 * 1000000000 * 65536
  if dTmrOk d = false ∨ 1 < (dVal d).toNat then completeOk s ring idx .badDescriptor
  else
    let u := if dVal d = 0 then tsUnits (dTs d) else (((s.units : Int) + tsSigned (dTs d)) % whole).toNat
    let t := stepTime s u
    completeCmd t ring idx .ok 0 t.tick 0

/-- The selected frequency source is of TYPE HOST. -/
def hostFreq (s : State) : Bool :=
  match s.cmk.fsrc with
  | some i => (s.csrc i).typ == 7
  | none => false

/-- TIME_CMD subop 2 after its checks. -/
def timeFreqEff (ring : RingId) (idx : Word) (s : State) (d : Block64) : State :=
  let v := (dVal d).toInt
  if dTmrOk d = false ∨ v < -50000000 ∨ 50000000 < v then completeOk s ring idx .badDescriptor
  else if hostFreq s = false then completeOk s ring idx .refused
  else completeOk { s with cmk := { s.cmk with foff := dVal d } } ring idx .ok

/-- CONFLICT with a timer in RESULT (R343). -/
def timerConflict (s : State) (ring : RingId) (idx : Word) (t : Nat) : State := completeCmd s ring idx .conflict 0 (BitVec.ofNat 32 t) 0

/-- TIME_CMD subop 3 after its checks; EVT, OUTSEL and LINE stay as CMK_TMRt_CFG holds them (log 34). -/
def timeArmEff (ring : RingId) (idx : Word) (s : State) (d : Block64) : State :=
  if dTmrOk d = false then completeOk s ring idx .badDescriptor
  else
    let x := { s.tmr (dTmr d) with inst := dTs d, period := dVal d, periodic := dVal d != 0 }
    match armTimer false s (dTmr d) .host x with
    | some t => completeOk t ring idx .ok
    | none => timerConflict s ring idx (dTmr d).toNat

/-- TIME_CMD subop 4 after its checks. -/
def timeCancelEff (ring : RingId) (idx : Word) (s : State) (d : Block64) : State :=
  if dTmrOk d = false then completeOk s ring idx .badDescriptor
  else
    let o := (s.tmr (dTmr d)).owner
    if o ≠ .free ∧ o ≠ .host then timerConflict s ring idx (dTmr d).toNat else completeOk (freeTimer s (dTmr d)) ring idx .ok

/-! ## BEACON_CMD (R386, R387, R390, R391) -/

/-- BUF of a descriptor. -/
def dBuf (d : Block64) : Nat := dF d 0x10 8
/-- LEN of BEACON_CMD. -/
def dLen (d : Block64) : Nat := dF d 0x18 4
/-- STREAM of BEACON_CMD. -/
def dStream (d : Block64) : Nat := dF d 0xA 2
/-- A place of plain memory (R42). -/
def isPlain (pa : Nat) : Bool :=
  match place (BitVec.ofNat 44 pa) with
  | .dram _ | .hubMem _ | .rm _ _ | .cm _ _ | .ringWin _ _ _ | .dmem _ _ | .imem _ _ => true
  | _ => false
/-- n bytes from pa lie in plain memory. -/
def plainExtent (pa n : Nat) : Bool := (extentBlocks pa n).all isPlain

/-- The checks that BEACON_CMD makes for every SUBOP in the order of R391: the stream, BUF (n bytes of it), CRI_CTL.EN. -/
def beaconCheck (s : State) (d : Block64) (stream : Option StreamId) (n : Nat) (needEn : Bool) : Option Outc :=
  if (match stream with | some x => decide (x.toNat ≠ dStream d) | none => false) then some .badDescriptor
  else if plainExtent (dBuf d) n = false then some .notPermitted
  else if needEn ∧ s.cri.en = false then some .refused
  else none

/-- The tick from which a timer's transmission may start: the first at or after the fire (R390). -/
def fireTick (s : State) (inst : Ts) : Word := BitVec.ofNat 32 ((max (tsUnits inst) s.units * 3 + 399999) / 400000)

/-- A transmission is held, its timer armed for the Crier; none where the timer has another owner (R343, R390). -/
def holdTx (s : State) (ring : RingId) (idx : Word) (d : Block64) (table : BitVec 256) (payload : List Byte) : Option State :=
  let timer := dF d 0x1C 1
  let m := bandOf s s.cri.txstrm
  let tx : CriTx := { ring := ring, idx := idx, table := slice d 72 4, payload := payload, timer := BitVec.ofNat 8 timer, fireAt := 0, started := false,
                      firstTick := 0, used := 0, total := txTotal (chirpLen s.cri) m payload.length (tblBits table s.cri.txpilot),
                      header := mkHeader (dF d 9 1) payload.length s.cri.txpilot (refBit s) }
  if timer = 0xFF then some { s with cri := { s.cri with tx := some tx } }
  else
    let t : TimerId := BitVec.ofNat 6 timer
    (armTimer false s t .crier (s.tmr t)).map (fun u =>
      { u with cri := { u.cri with tx := some { tx with fireAt := fireTick s (s.tmr t).inst } } })

/-- BEACON_CMD transmit after its checks; TIMER other than 0 to 63 and 0xFF is BAD_DESCRIPTOR (log 34). -/
def beaconTxEff (ring : RingId) (idx : Word) (path : PathRes) (s : State) (d : Block64) : State :=
  let n := dLen d
  let timer := dF d 0x1C 1
  match beaconCheck s d (some s.cri.txstrm) (min n 1023) true with
  | some o => completeOk s ring idx o
  | none =>
    match s.cri.table (slice d 72 4) with
    | none => completeOk s ring idx .badDescriptor
    | some tb =>
      if n = 0 ∨ 1023 < n ∨ 15 < dF d 9 1 ∨ tblOk tb = false ∨ tblBits tb s.cri.txpilot = 0 ∨ (63 < timer ∧ timer ≠ 0xFF) then
        completeOk s ring idx .badDescriptor
      else if s.cri.tx.isSome then completeOk s ring idx .refused
      else
        match viaPath path s (devRead s .hma (dBuf d) n (dAct d)) with
        | .wait t => accStays s t
        | .done a t =>
          if a.outc.good = false then completeOk t ring idx a.outc
          else
            match holdTx t ring idx d tb (fitBytes n a.data) with
            | some u => cmdRunning u ring idx
            | none => timerConflict t ring idx timer

/-- BEACON_CMD receive on after its checks. -/
def beaconOnEff (ring : RingId) (idx : Word) (s : State) (d : Block64) : State :=
  let n := dLen d
  let slots := min (n / 1088) 256
  match beaconCheck s d (some s.cri.rxstrm) (slots * 1088) true with
  | some o => completeOk s ring idx o
  | none =>
    if n < 1088 then completeOk s ring idx .badDescriptor
    else if s.cri.rx ≠ .idle then completeOk s ring idx .refused
    else
      let c := { s.cri with buf := BitVec.ofNat 44 (dBuf d), nslots := slots, used := [], nextSlot := 0, written := 0, rx := .search,
                            pkt := CriPkt.reset, act := dAct d }
      completeCmd { s with cri := c } ring idx .ok 0 (BitVec.ofNat 32 slots) 0

/-- BEACON_CMD receive off after its checks. -/
def beaconOffEff (ring : RingId) (idx : Word) (s : State) (_ : Block64) : State :=
  if s.cri.en = false then completeOk s ring idx .refused else completeCmd (criRxTo s .idle) ring idx .ok 0 s.cri.written 0

/-- BEACON_CMD load table after its checks. -/
def beaconTableEff (ring : RingId) (idx : Word) (path : PathRes) (s : State) (d : Block64) : State :=
  match beaconCheck s d none 32 false with
  | some o => completeOk s ring idx o
  | none =>
    if dLen d < 32 ∨ 15 < dF d 9 1 then completeOk s ring idx .badDescriptor
    else
      match viaPath path s (devRead s .hma (dBuf d) 32 (dAct d)) with
      | .wait t => accStays s t
      | .done a t =>
        let tb : BitVec 256 := BitVec.ofNat 256 (natOfBytes (a.data.take 32))
        if a.outc.good = false then completeOk t ring idx a.outc
        else if tblOk tb = false then completeOk t ring idx .badDescriptor
        else
          let c := { t.cri with tables := sput 0 t.cri.tables (dF d 9 1) tb, tblstat := t.cri.tblstat ||| BitVec.ofNat 16 (2 ^ dF d 9 1) }
          completeOk { t with cri := c } ring idx .ok

/-- The 128 bytes of the noise floors; −32 768 before the first block (R387, R391). -/
def floorBytes (c : Cri) : List Byte :=
  (List.range 64).flatMap (fun i => bytesOfNat 2 (if c.nfValid then (sget 0 c.nfVal i).toNat else 0x8000))

/-- BEACON_CMD read noise floor after its checks. -/
def beaconFloorEff (ring : RingId) (idx : Word) (path : PathRes) (s : State) (d : Block64) : State :=
  match beaconCheck s d none 128 true with
  | some o => completeOk s ring idx o
  | none =>
    if dLen d < 128 then completeOk s ring idx .badDescriptor
    else
      writeThen s ring idx (viaPath path s (devWrite s .hma (dBuf d) (floorBytes s.cri) (dAct d)))
        (if s.cri.nfValid then BitVec.ofNat 32 (2 ^ s.cri.log2n.toNat) else 0) 0

/-! ## Faults (R425, R431) -/

/-- FAULT_QUERY after its checks. -/
def queryEff (ring : RingId) (idx : Word) (path : PathRes) (s : State) (d : Block64) : State :=
  let n := dF d 8 2
  let put := fun (b : List Byte) (r : Word) => writeThen s ring idx (viaPath path s (devWrite s .hif (dF d 0x10 8) b (dAct d))) r 0
  if n = 0xFFFF then put (fatalBytes s) (BitVec.ofNat 32 s.asy.fatal.length)
  else if n < 1024 then put (queryBytes s (BitVec.ofNat 10 n)) ((s.src (BitVec.ofNat 10 n)).cnt.setWidth 32)
  else completeOk s ring idx .badDescriptor

/-! ## Meanings -/

/-- TASK_SUBMIT (R193, R254, R279, R287). -/
def execTaskSubmit (ring : RingId) (idx : Word) (path : PathRes) (s : State) : Host.Outcome State Fault Refusal := .next (doTaskSubmit s ring idx path)
/-- TASK_CANCEL (R190, R279). -/
def execTaskCancel (ring : RingId) (idx : Word) (path : PathRes) (s : State) : Host.Outcome State Fault Refusal :=
  .next (runCmd s ring idx (rowOp 0x02) (cancelEff ring idx path))
/-- DMA_COPY (R280, R488). -/
def execDmaCopy (ring : RingId) (idx : Word) (path : PathRes) (s : State) : Host.Outcome State Fault Refusal :=
  .next (runCmd s ring idx (rowOp 0x03) (dmaCopyEff ring idx path))
/-- DMA_GATHER (R280, R488). -/
def execDmaGather (ring : RingId) (idx : Word) (path : PathRes) (s : State) : Host.Outcome State Fault Refusal :=
  .next (runCmd s ring idx (rowOp 0x04) (dmaGatherEff ring idx path))
/-- BUDGET_SET (R279). -/
def execBudgetSet (ring : RingId) (idx : Word) (s : State) : Host.Outcome State Fault Refusal :=
  .next (runCmd s ring idx (rowOp 0x11) (budgetEff ring idx))
/-- JOURNAL_APPEND (R473, R478). -/
def execJournalAppend (ring : RingId) (idx : Word) (s : State) : Host.Outcome State Fault Refusal :=
  .next (runCmd s ring idx (rowOp 0x18) (appendEff ring idx))
/-- JOURNAL_COMPACT (R474, R478). -/
def execJournalCompact (ring : RingId) (idx : Word) (s : State) : Host.Outcome State Fault Refusal :=
  .next (runCmd s ring idx (rowOp 0x19) (compactEff ring idx))
/-- JOURNAL_READ (R478, R479). -/
def execJournalRead (ring : RingId) (idx : Word) (path : PathRes) (s : State) : Host.Outcome State Fault Refusal :=
  .next (runCmd s ring idx (rowOp 0x1A) (journalReadEff ring idx path))
/-- TIME_CMD_READ (R349). -/
def execTimeCmdRead (ring : RingId) (idx : Word) (path : PathRes) (s : State) : Host.Outcome State Fault Refusal :=
  .next (runCmd s ring idx (rowSubop 0x20 0) (timeReadEff ring idx path))
/-- TIME_CMD_STEP (R330, R349). -/
def execTimeCmdStep (ring : RingId) (idx : Word) (s : State) : Host.Outcome State Fault Refusal :=
  .next (runCmd s ring idx (rowSubop 0x20 1) (timeStepEff ring idx))
/-- TIME_CMD_FREQUENCY_ADJUST (R349). -/
def execTimeCmdFrequencyAdjust (ring : RingId) (idx : Word) (s : State) : Host.Outcome State Fault Refusal :=
  .next (runCmd s ring idx (rowSubop 0x20 2) (timeFreqEff ring idx))
/-- TIME_CMD_ARM_TIMER (R342, R343, R349). -/
def execTimeCmdArmTimer (ring : RingId) (idx : Word) (s : State) : Host.Outcome State Fault Refusal :=
  .next (runCmd s ring idx (rowSubop 0x20 3) (timeArmEff ring idx))
/-- TIME_CMD_CANCEL_TIMER (R343, R349). -/
def execTimeCmdCancelTimer (ring : RingId) (idx : Word) (s : State) : Host.Outcome State Fault Refusal :=
  .next (runCmd s ring idx (rowSubop 0x20 4) (timeCancelEff ring idx))
/-- BEACON_TRANSMIT (R390, R391). -/
def execBeaconTransmit (ring : RingId) (idx : Word) (path : PathRes) (s : State) : Host.Outcome State Fault Refusal :=
  .next (runCmd s ring idx (rowSubop 0x28 0) (beaconTxEff ring idx path))
/-- BEACON_RECEIVE_ON (R384, R386, R391). -/
def execBeaconReceiveOn (ring : RingId) (idx : Word) (s : State) : Host.Outcome State Fault Refusal :=
  .next (runCmd s ring idx (rowSubop 0x28 1) (beaconOnEff ring idx))
/-- BEACON_RECEIVE_OFF (R384, R391). -/
def execBeaconReceiveOff (ring : RingId) (idx : Word) (s : State) : Host.Outcome State Fault Refusal :=
  .next (runCmd s ring idx (rowSubop 0x28 2) (beaconOffEff ring idx))
/-- BEACON_LOAD_TABLE (R379, R391). -/
def execBeaconLoadTable (ring : RingId) (idx : Word) (path : PathRes) (s : State) : Host.Outcome State Fault Refusal :=
  .next (runCmd s ring idx (rowSubop 0x28 3) (beaconTableEff ring idx path))
/-- BEACON_READ_NOISE_FLOOR (R387, R391). -/
def execBeaconReadNoiseFloor (ring : RingId) (idx : Word) (path : PathRes) (s : State) : Host.Outcome State Fault Refusal :=
  .next (runCmd s ring idx (rowSubop 0x28 4) (beaconFloorEff ring idx path))
/-- FAULT_INJECT (R425, R426). -/
def execFaultInject (ring : RingId) (idx : Word) (s : State) : Host.Outcome State Fault Refusal :=
  .next (runCmd s ring idx (rowOp 0x30) (fun t d => injectCmd t ring idx (dF d 8 2) (dF d 0xA 1)))
/-- FAULT_QUERY (R431). -/
def execFaultQuery (ring : RingId) (idx : Word) (path : PathRes) (s : State) : Host.Outcome State Fault Refusal :=
  .next (runCmd s ring idx (rowOp 0x31) (queryEff ring idx path))

end Sys2Proof.Machine
end

