-- ==== Sys2Proof/Machine/ConfigCmds.lean ====
section
/-! DEFINITION. Atomic configuration: stage sets, commits and their boundaries (R288 to R290, R484, R485). -/

namespace Sys2Proof.Machine

/-! ## Staging (R288) -/

/-- A register of a hub block whose write has a side effect, or that the HIF keeps for itself, by block and offset. -/
def hubSideEffect (b o : Nat) : Bool :=
  match b with
  | 1 => o == 8 || decide (0x100 ≤ o ∧ o < 0x208) || decide (0x10000 ≤ o ∧ o < 0x50000) || decide (0x80000 ≤ o ∧ o < 0x90200)
  | 2 => o == 0x18 || (match copyOf o 0x2000 0x400 32 with | some (_, x) => x == 0x20 | none => false)
  | 3 => o == 8 || o == 0x30 || (match copyOf o 0x1000 0x20 64 with | some (_, x) => x == 0x14 | none => false)
  | 4 => o == 4
  | 5 => o == 0x38
  | 6 => o == 0xC
  | 7 => o == 4 || o == 0x18 || (match copyOf o 0x10000 0x20 1024 with | some (_, x) => x == 8 | none => false)
  | 8 => o == 4
  | 9 => o == 0x20004
  | _ => false

/-- A register whose write has a side effect: wo or w1c. -/
def sideEffect : Place → Bool
  | .coreReg _ o => o == 4 || o == 8 || o == 0x10
  | .engReg _ o => o == 4
  | .clu _ o => o == 4
  | .fab _ o => o == 0xC
  | .budReg _ o => o == 0x80000 || o == 0x8000C
  | .hubReg b o => if b = 10 then o % 0x4000 == 0xC && decide (o < 0x58000) else hubSideEffect b o
  | _ => false

/-- A word of a Tally counter. -/
def isTally (s : State) (pa : Nat) : Bool := (counterAt s pa).isSome || (counterAt s (pa - 4)).isSome

/-- An address that a stage set may name. -/
def stageable (s : State) (pa : Nat) : Bool :=
  let p := place (BitVec.ofNat 44 pa)
  pa % 4 == 0 && decide (pa < 2 ^ 44) && (regRead s p).isSome && !sideEffect p && !isTally s pa && (loadWin s (BitVec.ofNat 44 pa)).isNone

/-- An address in a remote window. -/
def isRemote (pa : Nat) : Bool := match place (BitVec.ofNat 44 pa) with | .remote _ _ => true | _ => false

/-- Address of entry i of a stage set in hub memory (R483). -/
def stagePa (set i : Nat) : Nat := hubBase + 0x1E00000 + set * 0x10000 + 16 * i

/-- Entry i of a list in the layout of R278. -/
def listEnt (l : List Byte) (i : Nat) : StageEnt :=
  { pa := BitVec.ofNat 44 (leAt l (16 * i) 8), value := BitVec.ofNat 32 (leAt l (16 * i + 8) 4), mask := BitVec.ofNat 32 (leAt l (16 * i + 12) 4) }

/-- CFG_STAGE once its list is read. -/
def stageList (s : State) (ring : RingId) (idx : Word) (d : Block64) (l : List Byte) : State :=
  let set := dF d 8 1
  let n := dF d 0xA 2
  let old := if d.getLsbD 72 then sget 0 s.hif.stages set else 0
  let pas := (List.range n).map (fun (i : Nat) => leAt l (16 * i) 8 % 2 ^ 44)
  if pas.any isRemote then completeOk s ring idx .notPermitted
  else if 4096 < old + n ∨ pas.all (stageable s) = false then completeOk s ring idx .badDescriptor
  else
    match devWrite s .hif (stagePa set old) l (dAct d) with
    | .wait t => accStays s t
    | .done a t =>
      if a.outc.good then completeOk { t with hif := { t.hif with stages := sput 0 t.hif.stages set (old + n) } } ring idx .ok
      else completeOk t ring idx a.outc

/-- CFG_STAGE after its checks. -/
def stageEff (ring : RingId) (idx : Word) (path : PathRes) (s : State) (d : Block64) : State :=
  let n := dF d 0xA 2
  let lst := dF d 0x10 8
  if 15 < dF d 8 1 ∨ n = 0 ∨ 4096 < n ∨ lst % 16 ≠ 0 then completeOk s ring idx .badDescriptor
  else
    match viaPath path s (devRead s .hif lst (16 * n) (dAct d)) with
    | .wait t => accStays s t
    | .done a t => if a.outc.good then stageList t ring idx d (fitBytes (16 * n) a.data) else completeOk t ring idx a.outc

/-! ## Boundaries (R289) -/

/-- Units of 2^−16 ns in one SFN cycle of 10.24 s. -/
def sfnCycle : Int := 10240000000 * 65536

/-- The slot start of SFN and slot that lies nearest a time: later than 5.12 s before it and no later than 5.12 s after it. -/
def nearSlot (s : State) (num sfn slot : Nat) : Int :=
  let o : Int := ((((sfn + 1024 - s.cmk.sfnoff.toNat % 1024) % 1024) * 10000000 + slot * slotNs num) * 65536 : Nat)
  let x := (o - s.units) % sfnCycle
  if x ≤ sfnCycle / 2 then s.units + x else s.units + x - sfnCycle

/-- The next numerology-0 slot start more than CFGLEAD µs ahead. -/
def leadSlot (s : State) : Nat :=
  let ms := 1000000 * 65536
  ((s.units + s.hif.cfglead.toNat * 1000 * 65536) / ms + 1) * ms

/-- A boundary: numerology, SFN, slot and time in units. -/
structure Boundary where
  num : BitVec 3
  sfn : BitVec 10
  slot : BitVec 8
  at0 : Int
  deriving DecidableEq, Repr

/-- The boundary that a CFG_COMMIT names; none where its fields are out of range. -/
def commitBoundaryOf (s : State) (d : Block64) : Option Boundary :=
  let num := bits d.toNat 72 3
  let sfn := dF d 0xA 2
  let slot := dF d 0xC 1
  if 15 < dF d 8 1 ∨ 4 < num then none
  else if d.getLsbD 79 then
    let u := leadSlot s
    some { num := 0, sfn := BitVec.ofNat 10 (sfnOf s (frameAt u)), slot := BitVec.ofNat 8 (u / 65536 % 10000000 / 1000000), at0 := u }
  else if 1023 < sfn ∨ 10 * 2 ^ num ≤ slot then none
  else some { num := BitVec.ofNat 3 num, sfn := BitVec.ofNat 10 sfn, slot := BitVec.ofNat 8 slot,
              at0 := nearSlot s num sfn slot + (if d.getLsbD 104 then sfnCycle else 0) }

/-! ## Validation (R289, R290, R484, R485) -/

/-- One write of a set: the masked value by the register's own rule. -/
def stageWrite (s : State) (e : StageEnt) : WrAns :=
  let p := place e.pa
  match regRead s p with
  | none => none
  | some (old, _) => regWrite true s p ((old &&& ~~~e.mask) ||| (e.value &&& e.mask))

/-- What the writes of a set come to: a write refused, a timer of another owner armed, and the state after them. -/
structure SetRun where
  refused : Bool
  timer : Option Nat
  st : State
  deriving DecidableEq, Repr

/-- The event timer of a CMK register. -/
def timerOfPa (pa : Pa) : Nat := match place pa with | .hubReg _ o => (o - 0x1000) / 0x20 % 64 | _ => 0

/-- The writes of a set in its order, a refused one left out. -/
def runSet (s : State) (l : List StageEnt) : SetRun :=
  l.foldl (fun r e =>
    match stageWrite r.st e with
    | some (o, t) =>
      if o.good then { r with st := t }
      else if o = .conflict then { r with timer := r.timer.or (some (timerOfPa e.pa)) }
      else { r with refused := true }
    | none => { r with refused := true }) { refused := false, timer := none, st := s }

/-- The first entry of a set whose register a pending commit of the same boundary writes. -/
def sharedEnt (s : State) (tick : Nat) (l : List StageEnt) : Option Nat :=
  let held := (s.hif.commits.filter (fun c => c.tick == tick)).flatMap (fun c => c.writes.map (fun e => e.pa))
  l.findIdx? (fun e => held.contains e.pa)

/-- CLASS and INDEX of the first conflict of a set in the order of R485. -/
def setConflict (s : State) (r : SetRun) (tick : Nat) (l : List StageEnt) : Option (Nat × Nat) :=
  let own := r.timer.map (fun t => (3, t))
  let shared := (sharedEnt s tick l).map (fun i => (7, i))
  match conflictOf r.st with
  | some (c, i) => if c < 3 then some (c, i) else own.or (some (c, i))
  | none => own.or shared

/-- The configuration in force with every pending commit. -/
def withCommits (s : State) : State := s.hif.commits.foldl (fun t c => (runSet t c.writes).st) s

/-- The gates that the writes of a set meet on their way to the targets (R35, R444). -/
def setGates (s : State) (l : List StageEnt) : Acc :=
  accAll s (fun t p => accPiece t 0x90 p.1 (fun u => some (Ans.only .ok, u))) (l.map (fun e => (e.pa.toNat, 4)))

/-- A valid set is delivered, and its command waits for the boundary; delivery takes no time of its own (log 35). -/
def commitSet (s : State) (ring : RingId) (idx : Word) (b : Boundary) (l : List StageEnt) : State :=
  let tick := ticksAt b.at0.toNat
  let r := runSet (withCommits s) l
  if r.refused then completeOk s ring idx .notPermitted
  else
    match setConflict s r tick l with
    | some (c, i) => completeCmd s ring idx .conflict 0 (BitVec.ofNat 32 (c * 2 ^ 24 + i)) 0
    | none =>
      if b.at0 ≤ s.units then completeOk s ring idx .deadlineMissed
      else
        let c : Commit := { ring := ring, idx := idx, num := b.num, sfn := b.sfn, slot := b.slot, tick := tick, writes := l }
        cmdRunning { s with hif := { s.hif with commits := s.hif.commits ++ [c] } } ring idx

/-- CFG_COMMIT after its checks: the set is read from the stage area. -/
def commitEff (ring : RingId) (idx : Word) (s : State) (d : Block64) : State :=
  match commitBoundaryOf s d with
  | none => completeOk s ring idx .badDescriptor
  | some b =>
    let set := dF d 8 1
    let n := sget 0 s.hif.stages set
    match devRead s .hif (stagePa set 0) (16 * n) (dAct d) with
    | .wait t => accStays s t
    | .done a t =>
      let l := (List.range n).map (listEnt a.data)
      if a.outc.good = false then completeOk t ring idx a.outc
      else
        match setGates t l with
        | .wait u => accStays s u
        | .done g u => if g.outc.good then commitSet u ring idx b l else completeOk u ring idx g.outc

/-! ## The boundary (R289, R290, R294) -/

/-- The slot pulse of a numerology with an SFN and a slot is delivered to the hub in this tick. -/
def hubPulse (s : State) (num sfn slot : Nat) : Bool :=
  decide (s.cmk.ns % slotNs num * 65536 + s.cmk.frac < 133334) && s.lmp.pkg != .deep && sfnNow s == sfn && slotIndex s num == slot

/-- A commit takes effect whole, or, where its writes are refused by now, not at all (log 35). -/
def commitFires (s : State) (c : Commit) : State :=
  let r := runSet s c.writes
  if r.refused ∨ r.timer.isSome then completeOk s c.ring c.idx .notPermitted else completeOk r.st c.ring c.idx .ok

/-- COMMIT_BOUNDARY: every commit that waits for this slot pulse takes effect, in the order of acceptance. -/
def doBoundary (s : State) (num : BitVec 3) (sfn : BitVec 10) (slot : BitVec 8) : State :=
  if hubPulse s num.toNat sfn.toNat slot.toNat = false then s
  else
    let now := ticksAt s.units
    let due := fun (c : Commit) => c.num == num && c.sfn == sfn && c.slot == slot && decide (c.tick ≤ now)
    let l := s.hif.commits.filter due
    settleCmds (l.foldl commitFires { s with hif := { s.hif with commits := s.hif.commits.filter (fun c => !due c) } })

/-! ## Meanings -/

/-- CFG_STAGE (R288). -/
def execCfgStage (ring : RingId) (idx : Word) (path : PathRes) (s : State) : Host.Outcome State Fault Refusal :=
  .next (runCmd s ring idx (rowOp 0x08) (stageEff ring idx path))
/-- CFG_COMMIT (R289, R290, R484, R485). -/
def execCfgCommit (ring : RingId) (idx : Word) (s : State) : Host.Outcome State Fault Refusal :=
  .next (runCmd s ring idx (rowOp 0x09) (commitEff ring idx))
/-- COMMIT_BOUNDARY (R289, R290, R294). -/
def execCommitBoundary (num : BitVec 3) (sfn : BitVec 10) (slot : BitVec 8) (s : State) : Host.Outcome State Fault Refusal :=
  .next (doBoundary s num sfn slot)

end Sys2Proof.Machine
end

