-- ==== Sys2Proof/Machine/Dispatch.lean ====
section
/-! DEFINITION. One arm per command of the table: each calls its meaning. -/

namespace Sys2Proof.Machine

def exec (i : Instr) (s : State) : Host.Outcome State Fault Refusal :=
  match i with
  | .porstNAssert role pkgId bootSrc => Sys2Proof.Machine.execPorstNAssert role pkgId bootSrc s
  | .porstNRelease role pkgId bootSrc => Sys2Proof.Machine.execPorstNRelease role pkgId bootSrc s
  | .bootStepComplete step => Sys2Proof.Machine.execBootStepComplete step s
  | .bootStepTimeout => Sys2Proof.Machine.execBootStepTimeout s
  | .loadMailboxDetect => Sys2Proof.Machine.execLoadMailboxDetect s
  | .perstNAssert => Sys2Proof.Machine.execPerstNAssert s
  | .registerWrite who pa size v => Sys2Proof.Machine.execRegisterWrite who pa size v s
  | .tallyCounterRead who pa => Sys2Proof.Machine.execTallyCounterRead who pa s
  | .rcFieldRead who pa ev => Sys2Proof.Machine.execRcFieldRead who pa ev s
  | .ldh g sl a m => Sys2Proof.Machine.execLdh g sl a m s
  | .ldw g sl a m => Sys2Proof.Machine.execLdw g sl a m s
  | .sth g sl a m => Sys2Proof.Machine.execSth g sl a m s
  | .stw g sl a m => Sys2Proof.Machine.execStw g sl a m s
  | .vld g sl a m => Sys2Proof.Machine.execVld g sl a m s
  | .vldu g sl a m => Sys2Proof.Machine.execVldu g sl a m s
  | .vst g sl a m => Sys2Proof.Machine.execVst g sl a m s
  | .vsta g sl a m => Sys2Proof.Machine.execVsta g sl a m s
  | .qenq g sl a m => Sys2Proof.Machine.execQenq g sl a m s
  | .qenqStallRelease g => Sys2Proof.Machine.execQenqStallRelease g s
  | .enqueueTimeout g => Sys2Proof.Machine.execEnqueueTimeout g s
  | .qdeq g sl a m => Sys2Proof.Machine.execQdeq g sl a m s
  | .adda g sl an arg m => Sys2Proof.Machine.execAdda g sl an arg m s
  | .mova g sl an sa m => Sys2Proof.Machine.execMova g sl an sa m s
  | .movn g sl nm sa m => Sys2Proof.Machine.execMovn g sl nm sa m s
  | .movas g sl sd an m => Sys2Proof.Machine.execMovas g sl sd an m s
  | .cmac g acd va vb m => Sys2Proof.Machine.execCmac g acd va vb m s
  | .cmacj g acd va vb m => Sys2Proof.Machine.execCmacj g acd va vb m s
  | .cmsb g acd va vb m => Sys2Proof.Machine.execCmsb g acd va vb m s
  | .cmul g acd va vb m => Sys2Proof.Machine.execCmul g acd va vb m s
  | .cmulj g acd va vb m => Sys2Proof.Machine.execCmulj g acd va vb m s
  | .rmac g acd va vb m => Sys2Proof.Machine.execRmac g acd va vb m s
  | .acclr g acd m => Sys2Proof.Machine.execAcclr g acd m s
  | .acset g acd va m => Sys2Proof.Machine.execAcset g acd va m s
  | .acmv g vd acs sm sh m => Sys2Proof.Machine.execAcmv g vd acs sm sh m s
  | .acsh g sd acs m => Sys2Proof.Machine.execAcsh g sd acs m s
  | .vadd g vd va vb m => Sys2Proof.Machine.execVadd g vd va vb m s
  | .vsub g vd va vb m => Sys2Proof.Machine.execVsub g vd va vb m s
  | .vaddw g vd va vb m => Sys2Proof.Machine.execVaddw g vd va vb m s
  | .vsubw g vd va vb m => Sys2Proof.Machine.execVsubw g vd va vb m s
  | .vneg g vd va m => Sys2Proof.Machine.execVneg g vd va m s
  | .vconj g vd va m => Sys2Proof.Machine.execVconj g vd va m s
  | .vshrr g vd va imm m => Sys2Proof.Machine.execVshrr g vd va imm m s
  | .vmov g vd va m => Sys2Proof.Machine.execVmov g vd va m s
  | .vbcst g vd va lane m => Sys2Proof.Machine.execVbcst g vd va lane m s
  | .vand g vd va vb m => Sys2Proof.Machine.execVand g vd va vb m s
  | .vor g vd va vb m => Sys2Proof.Machine.execVor g vd va vb m s
  | .vxor g vd va vb m => Sys2Proof.Machine.execVxor g vd va vb m s
  | .add g sd sa sb m => Sys2Proof.Machine.execAdd g sd sa sb m s
  | .sub g sd sa sb m => Sys2Proof.Machine.execSub g sd sa sb m s
  | .and g sd sa sb m => Sys2Proof.Machine.execAnd g sd sa sb m s
  | .or g sd sa sb m => Sys2Proof.Machine.execOr g sd sa sb m s
  | .xor g sd sa sb m => Sys2Proof.Machine.execXor g sd sa sb m s
  | .shl g sd sa sb m => Sys2Proof.Machine.execShl g sd sa sb m s
  | .shr g sd sa sb m => Sys2Proof.Machine.execShr g sd sa sb m s
  | .sar g sd sa sb m => Sys2Proof.Machine.execSar g sd sa sb m s
  | .mul g sd sa sb m => Sys2Proof.Machine.execMul g sd sa sb m s
  | .cmplt g sd sa sb m => Sys2Proof.Machine.execCmplt g sd sa sb m s
  | .cmpeq g sd sa sb m => Sys2Proof.Machine.execCmpeq g sd sa sb m s
  | .movi g sd imm m => Sys2Proof.Machine.execMovi g sd imm m s
  | .br g c hint sa off m => Sys2Proof.Machine.execBr g c hint sa off m s
  | .j g off m => Sys2Proof.Machine.execJ g off m s
  | .call g off m => Sys2Proof.Machine.execCall g off m s
  | .ret g off m => Sys2Proof.Machine.execRet g off m s
  | .loop g count fin m => Sys2Proof.Machine.execLoop g count fin m s
  | .loops g sa fin m => Sys2Proof.Machine.execLoops g sa fin m s
  | .mfc g sd cr m => Sys2Proof.Machine.execMfc g sd cr m s
  | .mtc g sa cr m => Sys2Proof.Machine.execMtc g sa cr m s
  | .rti g m => Sys2Proof.Machine.execRti g m s
  | .wait g m => Sys2Proof.Machine.execWait g m s
  | .waitWake g => Sys2Proof.Machine.execWaitWake g s
  | .fence g m => Sys2Proof.Machine.execFence g m s
  | .nop g m => Sys2Proof.Machine.execNop g m s
  | .interruptEntry g => Sys2Proof.Machine.execInterruptEntry g s
  | .timerRaise g => Sys2Proof.Machine.execTimerRaise g s
  | .postedStoreFault g o => Sys2Proof.Machine.execPostedStoreFault g o s
  | .coreRun who g => Sys2Proof.Machine.execCoreRun who g s
  | .coreHalt who g => Sys2Proof.Machine.execCoreHalt who g s
  | .coreSreset who g => Sys2Proof.Machine.execCoreSreset who g s
  | .cpwr g sl f m => Sys2Proof.Machine.execCpwr g sl f m s
  | .cpld g sl f m => Sys2Proof.Machine.execCpld g sl f m s
  | .cprd g sl f m => Sys2Proof.Machine.execCprd g sl f m s
  | .cpst g sl f m => Sys2Proof.Machine.execCpst g sl f m s
  | .cprds g sl f m => Sys2Proof.Machine.execCprds g sl f m s
  | .cpwrs g sl f m => Sys2Proof.Machine.execCpwrs g sl f m s
  | .cpsave g sl f m => Sys2Proof.Machine.execCpsave g sl f m s
  | .cprestore g sl f m => Sys2Proof.Machine.execCprestore g sl f m s
  | .cpOperationFinish g sl => Sys2Proof.Machine.execCpOperationFinish g sl s
  | .mmac g f m => Sys2Proof.Machine.execMmac g f m s
  | .mmac8 g f m => Sys2Proof.Machine.execMmac8 g f m s
  | .mmv g f m => Sys2Proof.Machine.execMmv g f m s
  | .mmva g f m => Sys2Proof.Machine.execMmva g f m s
  | .mrsq g f m => Sys2Proof.Machine.execMrsq g f m s
  | .mchol g f m => Sys2Proof.Machine.execMchol g f m s
  | .mtrsv g f m => Sys2Proof.Machine.execMtrsv g f m s
  | .maclr g f m => Sys2Proof.Machine.execMaclr g f m s
  | .sdmap g f m => Sys2Proof.Machine.execSdmap g f m s
  | .sscrb g f m => Sys2Proof.Machine.execSscrb g f m s
  | .sdscr g f m => Sys2Proof.Machine.execSdscr g f m s
  | .sginit g f m => Sys2Proof.Machine.execSginit g f m s
  | .scrc g f m => Sys2Proof.Machine.execScrc g f m s
  | .scrcinit g f m => Sys2Proof.Machine.execScrcinit g f m s
  | .silv g f m => Sys2Proof.Machine.execSilv g f m s
  | .sdilv g f m => Sys2Proof.Machine.execSdilv g f m s
  | .cluWbaseWrite who gc n v => Sys2Proof.Machine.execCluWbaseWrite who gc n v s
  | .cluWlenWrite who gc n v => Sys2Proof.Machine.execCluWlenWrite who gc n v s
  | .cmInitStart who gc => Sys2Proof.Machine.execCmInitStart who gc s
  | .memoryInitDone mem => Sys2Proof.Machine.execMemoryInitDone mem s
  | .requestAtTarget node => Sys2Proof.Machine.execRequestAtTarget node s
  | .jobDequeue e => Sys2Proof.Machine.execJobDequeue e s
  | .jobSetupReadResponse e path => Sys2Proof.Machine.execJobSetupReadResponse e path s
  | .jobBorrowAnswer e => Sys2Proof.Machine.execJobBorrowAnswer e s
  | .jobRunDone e => Sys2Proof.Machine.execJobRunDone e s
  | .jobWritebackDone e path => Sys2Proof.Machine.execJobWritebackDone e path s
  | .jobAccessError e write o => Sys2Proof.Machine.execJobAccessError e write o s
  | .jobInternalError e => Sys2Proof.Machine.execJobInternalError e s
  | .jobDeadline e => Sys2Proof.Machine.execJobDeadline e s
  | .jobAbortComplete e => Sys2Proof.Machine.execJobAbortComplete e s
  | .jobRecordEnqueue e path => Sys2Proof.Machine.execJobRecordEnqueue e path s
  | .engineEnable who e => Sys2Proof.Machine.execEngineEnable who e s
  | .engineDisable who e => Sys2Proof.Machine.execEngineDisable who e s
  | .engineSreset who e => Sys2Proof.Machine.execEngineSreset who e s
  | .accQselWrite who e v => Sys2Proof.Machine.execAccQselWrite who e v s
  | .queueEnqueue src q entry => Sys2Proof.Machine.execQueueEnqueue src q entry s
  | .queueDequeue src q => Sys2Proof.Machine.execQueueDequeue src q s
  | .queueStatusRead src q => Sys2Proof.Machine.execQueueStatusRead src q s
  | .endTask g lq result => Sys2Proof.Machine.execEndTask g lq result s
  | .cancel src q tag => Sys2Proof.Machine.execCancel src q tag s
  | .taskBind gc => Sys2Proof.Machine.execTaskBind gc s
  | .preemptBind gc => Sys2Proof.Machine.execPreemptBind gc s
  | .taskDeadline gc sel => Sys2Proof.Machine.execTaskDeadline gc sel s
  | .taskRecordEnqueue gc path => Sys2Proof.Machine.execTaskRecordEnqueue gc path s
  | .chunkRequest gc act => Sys2Proof.Machine.execChunkRequest gc act s
  | .chunkAnswer gc act => Sys2Proof.Machine.execChunkAnswer gc act s
  | .budgetPeriodEdge r act => Sys2Proof.Machine.execBudgetPeriodEdge r act s
  | .reservePeriodEdge r => Sys2Proof.Machine.execReservePeriodEdge r s
  | .budgetEnable who r act v => Sys2Proof.Machine.execBudgetEnable who r act v s
  | .budgetDisable who r act v => Sys2Proof.Machine.execBudgetDisable who r act v s
  | .reserveEnable who r v => Sys2Proof.Machine.execReserveEnable who r v s
  | .budBudgetWrite who r act w v => Sys2Proof.Machine.execBudBudgetWrite who r act w v s
  | .dramBudgetPeriodEdge act => Sys2Proof.Machine.execDramBudgetPeriodEdge act s
  | .loadPeriodEdge gc => Sys2Proof.Machine.execLoadPeriodEdge gc s
  | .queueEnable who gc v => Sys2Proof.Machine.execQueueEnable who gc v s
  | .queueDisable who gc v => Sys2Proof.Machine.execQueueDisable who gc v s
  | .stealStart gc => Sys2Proof.Machine.execStealStart gc s
  | .stealRequest victim thief => Sys2Proof.Machine.execStealRequest victim thief s
  | .stealReceive thief => Sys2Proof.Machine.execStealReceive thief s
  | .stealRefusal thief => Sys2Proof.Machine.execStealRefusal thief s
  | .stealRecordReturn thief => Sys2Proof.Machine.execStealRecordReturn thief s
  | .stealCancelForward victim => Sys2Proof.Machine.execStealCancelForward victim s
  | .niRequest ini typ pa mask data act => Sys2Proof.Machine.execNiRequest ini typ pa mask data act s
  | .regulatorInject node n => Sys2Proof.Machine.execRegulatorInject node n s
  | .regulatorRefill node => Sys2Proof.Machine.execRegulatorRefill node s
  | .regulatorConfigWrite who node n v => Sys2Proof.Machine.execRegulatorConfigWrite who node n v s
  | .routerForward el inCode => Sys2Proof.Machine.execRouterForward el inCode s
  | .responseArrival node => Sys2Proof.Machine.execResponseArrival node s
  | .requestTimeout node slot => Sys2Proof.Machine.execRequestTimeout node slot s
  | .txidQuarantineEnd node slot => Sys2Proof.Machine.execTxidQuarantineEnd node slot s
  | .responseLifetimeExpiry el inCode => Sys2Proof.Machine.execResponseLifetimeExpiry el inCode s
  | .retryArrival node => Sys2Proof.Machine.execRetryArrival node s
  | .retryResend node ini => Sys2Proof.Machine.execRetryResend node ini s
  | .linkFlitError el port flit => Sys2Proof.Machine.execLinkFlitError el port flit s
  | .portDrain who el port depoch => Sys2Proof.Machine.execPortDrain who el port depoch s
  | .portDisable who el port => Sys2Proof.Machine.execPortDisable who el port s
  | .portEnable who el port => Sys2Proof.Machine.execPortEnable who el port s
  | .portDrainComplete el port => Sys2Proof.Machine.execPortDrainComplete el port s
  | .routeTableSwap who node => Sys2Proof.Machine.execRouteTableSwap who node s
  | .doorbell fn off size v => Sys2Proof.Machine.execDoorbell fn off size v s
  | .descriptorFetch ring cpl => Sys2Proof.Machine.execDescriptorFetch ring cpl s
  | .taskSubmit ring idx path => Sys2Proof.Machine.execTaskSubmit ring idx path s
  | .taskCancel ring idx path => Sys2Proof.Machine.execTaskCancel ring idx path s
  | .dmaCopy ring idx path => Sys2Proof.Machine.execDmaCopy ring idx path s
  | .dmaGather ring idx path => Sys2Proof.Machine.execDmaGather ring idx path s
  | .cfgStage ring idx path => Sys2Proof.Machine.execCfgStage ring idx path s
  | .cfgCommit ring idx => Sys2Proof.Machine.execCfgCommit ring idx s
  | .commitBoundary num sfn slot => Sys2Proof.Machine.execCommitBoundary num sfn slot s
  | .powerStateWake ring idx => Sys2Proof.Machine.execPowerStateWake ring idx s
  | .powerStateNap ring idx => Sys2Proof.Machine.execPowerStateNap ring idx s
  | .powerStateRetain ring idx => Sys2Proof.Machine.execPowerStateRetain ring idx s
  | .powerStateStandby ring idx => Sys2Proof.Machine.execPowerStateStandby ring idx s
  | .powerStateDeep ring idx => Sys2Proof.Machine.execPowerStateDeep ring idx s
  | .budgetSet ring idx => Sys2Proof.Machine.execBudgetSet ring idx s
  | .journalAppend ring idx => Sys2Proof.Machine.execJournalAppend ring idx s
  | .journalCompact ring idx => Sys2Proof.Machine.execJournalCompact ring idx s
  | .journalRead ring idx path => Sys2Proof.Machine.execJournalRead ring idx path s
  | .timeCmdRead ring idx path => Sys2Proof.Machine.execTimeCmdRead ring idx path s
  | .timeCmdStep ring idx => Sys2Proof.Machine.execTimeCmdStep ring idx s
  | .timeCmdFrequencyAdjust ring idx => Sys2Proof.Machine.execTimeCmdFrequencyAdjust ring idx s
  | .timeCmdArmTimer ring idx => Sys2Proof.Machine.execTimeCmdArmTimer ring idx s
  | .timeCmdCancelTimer ring idx => Sys2Proof.Machine.execTimeCmdCancelTimer ring idx s
  | .beaconTransmit ring idx path => Sys2Proof.Machine.execBeaconTransmit ring idx path s
  | .beaconReceiveOn ring idx => Sys2Proof.Machine.execBeaconReceiveOn ring idx s
  | .beaconReceiveOff ring idx => Sys2Proof.Machine.execBeaconReceiveOff ring idx s
  | .beaconLoadTable ring idx path => Sys2Proof.Machine.execBeaconLoadTable ring idx path s
  | .beaconReadNoiseFloor ring idx path => Sys2Proof.Machine.execBeaconReadNoiseFloor ring idx path s
  | .faultInject ring idx => Sys2Proof.Machine.execFaultInject ring idx s
  | .faultQuery ring idx path => Sys2Proof.Machine.execFaultQuery ring idx path s
  | .hostFence ring idx => Sys2Proof.Machine.execHostFence ring idx s
  | .completionWrite ring ok => Sys2Proof.Machine.execCompletionWrite ring ok s
  | .sourceQueueForward ring ok => Sys2Proof.Machine.execSourceQueueForward ring ok s
  | .eventWrite ring ok => Sys2Proof.Machine.execEventWrite ring ok s
  | .ringEnable who ring v => Sys2Proof.Machine.execRingEnable who ring v s
  | .ringDisable who ring v => Sys2Proof.Machine.execRingDisable who ring v s
  | .functionLevelReset fn => Sys2Proof.Machine.execFunctionLevelReset fn s
  | .barAccess fn bar off wr size data => Sys2Proof.Machine.execBarAccess fn bar off wr size data s
  | .hostMemoryAccess ini pa wr len data act => Sys2Proof.Machine.execHostMemoryAccess ini pa wr len data act s
  | .hostReadCompletion tag cpl => Sys2Proof.Machine.execHostReadCompletion tag cpl s
  | .dmaChannelConfigWrite who n v => Sys2Proof.Machine.execDmaChannelConfigWrite who n v s
  | .frameReceive port frame fcsBad stamp => Sys2Proof.Machine.execFrameReceive port frame fcsBad stamp s
  | .iqPacketReceive port => Sys2Proof.Machine.execIqPacketReceive port s
  | .type2MessageReceive port => Sys2Proof.Machine.execType2MessageReceive port s
  | .ptpFrameReceive port msg => Sys2Proof.Machine.execPtpFrameReceive port msg s
  | .esmcFrameReceive port ssm => Sys2Proof.Machine.execEsmcFrameReceive port ssm s
  | .delayRequestReceive port twoStep measId => Sys2Proof.Machine.execDelayRequestReceive port twoStep measId s
  | .delayFollowUpReceive port measId => Sys2Proof.Machine.execDelayFollowUpReceive port measId s
  | .remoteDelayRequestReceive port measId => Sys2Proof.Machine.execRemoteDelayRequestReceive port measId s
  | .delayResponseReceive port measId peerRx comp => Sys2Proof.Machine.execDelayResponseReceive port measId peerRx comp s
  | .delayMeasurementStart who port v => Sys2Proof.Machine.execDelayMeasurementStart who port v s
  | .delayMeasurementTimeout port => Sys2Proof.Machine.execDelayMeasurementTimeout port s
  | .symbolCloseTimeout strm inst => Sys2Proof.Machine.execSymbolCloseTimeout strm inst s
  | .symbolDescriptorEnqueue strm path => Sys2Proof.Machine.execSymbolDescriptorEnqueue strm path s
  | .exceptionBufferFree who v => Sys2Proof.Machine.execExceptionBufferFree who v s
  | .txEntryDequeue strm => Sys2Proof.Machine.execTxEntryDequeue strm s
  | .txSend strm path => Sys2Proof.Machine.execTxSend strm path s
  | .txRecordEnqueue strm path => Sys2Proof.Machine.execTxRecordEnqueue strm path s
  | .quadModeWrite who q v => Sys2Proof.Machine.execQuadModeWrite who q v s
  | .streamEnable who strm v => Sys2Proof.Machine.execStreamEnable who strm v s
  | .streamDisable who strm v => Sys2Proof.Machine.execStreamDisable who strm v s
  | .laneLockChange q locked => Sys2Proof.Machine.execLaneLockChange q locked s
  | .sourceSelection => Sys2Proof.Machine.execSourceSelection s
  | .sourceValidityChange c => Sys2Proof.Machine.execSourceValidityChange c s
  | .phaseMeasurement slot phase freqPpb => Sys2Proof.Machine.execPhaseMeasurement slot phase freqPpb s
  | .holdoverSpecExpiry => Sys2Proof.Machine.execHoldoverSpecExpiry s
  | .eventTimerFire t => Sys2Proof.Machine.execEventTimerFire t s
  | .timerArm who t v => Sys2Proof.Machine.execTimerArm who t v s
  | .timerDisarm who t v => Sys2Proof.Machine.execTimerDisarm who t v s
  | .ppsEnable who n v => Sys2Proof.Machine.execPpsEnable who n v s
  | .timeSnapshot who v => Sys2Proof.Machine.execTimeSnapshot who v s
  | .slotPulse num => Sys2Proof.Machine.execSlotPulse num s
  | .ppsInEdge at96 => Sys2Proof.Machine.execPpsInEdge at96 s
  | .todMessageReceive isTime badSum sec => Sys2Proof.Machine.execTodMessageReceive isTime badSum sec s
  | .ptpMessageTransmit port k => Sys2Proof.Machine.execPtpMessageTransmit port k s
  | .tokenReceive f => Sys2Proof.Machine.execTokenReceive f s
  | .tokenRegenerate ring => Sys2Proof.Machine.execTokenRegenerate ring s
  | .frameTransit f => Sys2Proof.Machine.execFrameTransit f s
  | .reqReceive f => Sys2Proof.Machine.execReqReceive f s
  | .rspReceive f => Sys2Proof.Machine.execRspReceive f s
  | .enqReceive f => Sys2Proof.Machine.execEnqReceive f s
  | .enqrspReceive f => Sys2Proof.Machine.execEnqrspReceive f s
  | .pollSend => Sys2Proof.Machine.execPollSend s
  | .pollReceive f => Sys2Proof.Machine.execPollReceive f s
  | .replyReceive f => Sys2Proof.Machine.execReplyReceive f s
  | .joinTimeout => Sys2Proof.Machine.execJoinTimeout s
  | .remoteAccess ini typ pa mask data act => Sys2Proof.Machine.execRemoteAccess ini typ pa mask data act s
  | .remoteSlotTimeout slot => Sys2Proof.Machine.execRemoteSlotTimeout slot s
  | .exportDequeue n => Sys2Proof.Machine.execExportDequeue n s
  | .linkLockLoss east => Sys2Proof.Machine.execLinkLockLoss east s
  | .wrapIndicationReceive east => Sys2Proof.Machine.execWrapIndicationReceive east s
  | .wrapHoldExpiry east => Sys2Proof.Machine.execWrapHoldExpiry east s
  | .unwrap who v => Sys2Proof.Machine.execUnwrap who v s
  | .beaconSymbolReceive power obs => Sys2Proof.Machine.execBeaconSymbolReceive power obs s
  | .beaconSymbolTransmit => Sys2Proof.Machine.execBeaconSymbolTransmit s
  | .receiveSlotFree who v => Sys2Proof.Machine.execReceiveSlotFree who v s
  | .crierEnable who v => Sys2Proof.Machine.execCrierEnable who v s
  | .crierDisable who v => Sys2Proof.Machine.execCrierDisable who v s
  | .referenceHoldExpiry => Sys2Proof.Machine.execReferenceHoldExpiry s
  | .bulkMemoryRead ini pa len act => Sys2Proof.Machine.execBulkMemoryRead ini pa len act s
  | .bulkMemoryWrite ini pa bytes poison act => Sys2Proof.Machine.execBulkMemoryWrite ini pa bytes poison act s
  | .scrubRead m => Sys2Proof.Machine.execScrubRead m s
  | .wmapClearStart who v => Sys2Proof.Machine.execWmapClearStart who v s
  | .wmapClearDone => Sys2Proof.Machine.execWmapClearDone s
  | .flipArm who m v => Sys2Proof.Machine.execFlipArm who m v s
  | .faultSourceEvent src detail => Sys2Proof.Machine.execFaultSourceEvent src detail s
  | .reportPathFault src => Sys2Proof.Machine.execReportPathFault src s
  | .faultWindowClose src => Sys2Proof.Machine.execFaultWindowClose src s
  | .asyUnfence who v => Sys2Proof.Machine.execAsyUnfence who v s
  | .faultInjectTimeout src => Sys2Proof.Machine.execFaultInjectTimeout src s
  | .logRecordWrite => Sys2Proof.Machine.execLogRecordWrite s
  | .prepareAnswer m => Sys2Proof.Machine.execPrepareAnswer m s
  | .prepareTimeout => Sys2Proof.Machine.execPrepareTimeout s
  | .entryDrainComplete => Sys2Proof.Machine.execEntryDrainComplete s
  | .wakePin pin => Sys2Proof.Machine.execWakePin pin s
  | .wakeStepReady u => Sys2Proof.Machine.execWakeStepReady u s
  | .wakeStepTimeout u => Sys2Proof.Machine.execWakeStepTimeout u s
  | .thermalPrediction r => Sys2Proof.Machine.execThermalPrediction r s
  | .brownOut r => Sys2Proof.Machine.execBrownOut r s
  | .aonOvercurrent => Sys2Proof.Machine.execAonOvercurrent s
  | .reconciliation u reported => Sys2Proof.Machine.execReconciliation u reported s
  | .operatingPointRequest who r v => Sys2Proof.Machine.execOperatingPointRequest who r v s
  | .operatingPointDone r => Sys2Proof.Machine.execOperatingPointDone r s
  | .regionEnable who r => Sys2Proof.Machine.execRegionEnable who r s
  | .journalRecordWrite => Sys2Proof.Machine.execJournalRecordWrite s
  | .compactionStart => Sys2Proof.Machine.execCompactionStart s
  | .compactionCommit => Sys2Proof.Machine.execCompactionCommit s
  | .thermtrip die sensor temp => Sys2Proof.Machine.execThermtrip die sensor temp s
  | .smbusBlockWrite addr count offset => Sys2Proof.Machine.execSmbusBlockWrite addr count offset s
  | .smbusBlockRead addr => Sys2Proof.Machine.execSmbusBlockRead addr s
  | .smbusTimeout => Sys2Proof.Machine.execSmbusTimeout s
  | .extest => Sys2Proof.Machine.execExtest s
  | .samplePreload => Sys2Proof.Machine.execSamplePreload s
  | .extestPulse => Sys2Proof.Machine.execExtestPulse s
  | .extestTrain => Sys2Proof.Machine.execExtestTrain s
  | .highz => Sys2Proof.Machine.execHighz s
  | .clamp => Sys2Proof.Machine.execClamp s
  | .bypass ir => Sys2Proof.Machine.execBypass ir s
  | .trstNAssert => Sys2Proof.Machine.execTrstNAssert s
  | .perstNRelease => Sys2Proof.Machine.execPerstNRelease s
  | .busMasterEnableChange fn on => Sys2Proof.Machine.execBusMasterEnableChange fn on s
  | .cascadeRxLockGain east => Sys2Proof.Machine.execCascadeRxLockGain east s
  | .fronthaulLinkChange port up => Sys2Proof.Machine.execFronthaulLinkChange port up s

end Sys2Proof.Machine
end

