-- ==== Sys2Proof/Machine/Tick.lean ====
section
/-! DEFINITION. One root cycle: what step does when no command waits (R209, R217, R218, R322 to R328, R347, R507; log 2). -/

namespace Sys2Proof.Machine

/-! ## Device time (R327, R328, R347) -/

/-- One CLK_TIM cycle of device time: 66 667, 66 667 and 66 666 units of 2^−16 ns in every group of three. -/
def timeCycle (s : State) : State :=
  { s with cmk := s.cmk.atUnits (s.units + (if s.cmk.phase3 = 2 then 66666 else 66667)) ((s.cmk.phase3 + 1) % 3) }

/-- The divided clock of divider d begins a cycle in this root cycle (R507). -/
def clkEdge (s : State) (d : Nat) : Bool := s.cycle % d == 0

/-- Step 3 of the boot sequence has locked the root: the dividers run (R462, R507). -/
def rootRuns (s : State) : Bool := s.mgc.done || decide (4 ≤ s.mgc.step.toNat)

/-! ## A cluster (R140, R209, R214, R218) -/

/-- A core that may do work goes on with the bundle that it holds. -/
def heldCycle (s : State) (g : CoreId) : State := if coreOn s g then coreProgress s g else s

/-- One CLK_CORE cycle of a core: CORE_CYCLE, the stall counters, and a held bundle goes on. -/
def coreCycle (s : State) (g : CoreId) : State :=
  let c := s.core g
  let s1 := s.setCore g { c with c := { c.c with cycle := c.c.cycle + 1 } }
  match c.held with
  | none => s1
  | some h =>
    let s2 := tallyAdd s1 (coreRegs g + 0x108) 1
    heldCycle (if h.kind = .init ∨ h.kind = .fetch then tallyAdd s2 (cluBase (coreCluster g) + 0x220) 1 else s2) g

/-- One CLK_CORE cycle of a core in the slice: busy cycles, RECLAIM cycles, and the charge of a running task. -/
def scoreCycle (s : State) (gc : ClusterId) (k : BitVec 3) : State :=
  let x := s.slice gc
  let y := x.score k
  if y.st = .running ∨ y.st = .reclaim then
    let s1 := schTal (s.setSlice gc (x.setScore k { y with busy := y.busy + 1 })) gc (0x600 + 8 * k.toNat) 1
    if y.st = .reclaim then schTal s1 gc 0x238 1 else chargeCycle s1 gc k
  else s

/-- The stretch of idle cycles after which a slice becomes a thief. -/
def idleCycle (s : State) (gc : ClusterId) : State :=
  let x := s.slice gc
  let now := if x.stealen ∧ stealIdle s gc = true then x.thief.idleSince.or (some s.cycle) else none
  if now = x.thief.idleSince then s else s.setSlice gc { x with thief := { x.thief with idleSince := now } }

/-- The eight core numbers of a cluster. -/
def allCores : List (BitVec 3) := (List.range 8).map (fun k => BitVec.ofNat 3 k)

/-- One CLK_CORE cycle of a cluster. -/
def clusterCycle (s : State) (gc : ClusterId) : State :=
  idleCycle (allCores.foldl (fun t k => scoreCycle (coreCycle t (coreOf gc k)) gc k) s) gc

/-- The depth integrals of a cluster's queues, once per tick (R217). -/
def depthCycle (s : State) (gc : ClusterId) : State :=
  (s.slice gc).queues.foldl (fun t p =>
    if p.2.ents = [] then t else qTal t (queueOf gc (BitVec.ofNat 10 p.1)) 0x410 p.2.ents.length) s

/-! ## Engines (R145, R154, R507) -/

/-- The region's clock enable passes CLK_ACC cycle a. -/
def accPasses (op : BitVec 2) (a : Nat) : Bool := if op = 0 then true else if op = 1 then a % 3 != 2 else a % 2 == 0

/-- One enabled CLK_ACC cycle of an engine: ACC_TAL_BUSY, and ACC_TAL_CQSTALL while its completion queue is full. -/
def engineCycle (s : State) (e : EngId) : State :=
  let x := s.engine e
  match x.st, x.job with
  | .disabled, _ | .idle, _ => s
  | .complete, some j =>
    let s1 := engTal s e 0x138 1
    let q := eCqid j.entry
    if eNoCompl j.entry = false ∧ queueFull ((s.slice (queueCluster q)).queue (queueLocal q)) = true then engTal s1 e 0x148 1 else s1
  | _, _ => engTal s e 0x138 1

/-! ## Regions -/

/-- The clusters of a region whose clocks run. -/
def runningClusters (s : State) (r : RegionId) : List ClusterId := (regionClusters r).filter (clkOn s)

/-- The engines of a region. -/
def regionEngines (r : RegionId) : List EngId := (List.range 16).map (fun i => BitVec.ofNat 8 (16 * r.toNat + i))

/-- One root cycle of a region. -/
def regionCycle (s : State) (r : RegionId) : State :=
  let cl := runningClusters s r
  let s1 := if clkEdge s (coreDiv s r) then cl.foldl clusterCycle s else s
  let s2 := if clkEdge s 8 then cl.foldl depthCycle s1 else s1
  if clkEdge s 3 ∧ accPasses (s.region r).opCur (s.cycle / 3) = true ∧ cl ≠ [] then (regionEngines r).foldl engineCycle s2 else s2

/-- The regions that are ACTIVE. -/
def activeRegions (s : State) : List RegionId :=
  (s.lmp.regions.filter (fun p => p.2.st == .active)).map (fun p => BitVec.ofNat 4 p.1)

/-! ## The hub -/

/-- A PPS pulse ends (R344). -/
def ppsEnd (s : State) (n : Bool) : State :=
  let p := s.pps n
  if p.level ∧ p.offAt ≤ s.cycle then s.setPps n { p with level := false } else s

/-- Completions that wait for their ring, one count for each in a CLK_MGT cycle (R287). -/
def stallCount (s : State) : Nat := (s.hif.rings.map (fun p => if ringHeld s (BitVec.ofNat 12 p.1) then p.2.waiting.length else 0)).foldl (· + ·) 0

/-- One CLK_MGT cycle of the hub: HIF_TAL_CQSTALL and the clearing of the written map (R287, R412). -/
def mgtCycle (s : State) : State :=
  let s1 := hifCount s 5 (stallCount s)
  if 1 < s1.edc.clrLeft then wmapStep s1 else s1

/-- The routing element with a key. -/
def elemOfKey (k : Nat) : Option Elem :=
  if k < 64 then some (.mesh (BitVec.ofNat 6 k))
  else if k < 68 then some (.gwDie (BitVec.ofNat 2 k))
  else if k < 72 then some (.gwHub (BitVec.ofNat 2 k))
  else if k = 72 then some .h0
  else if k = 73 then some .h1
  else if 128 ≤ k then some (.ni (BitVec.ofNat 8 (k - 128))) else none

/-- Output buffers of draining ports pass on their packets (R256). -/
def flushAll (s : State) : State :=
  s.elems.foldl (fun t p =>
    p.2.outq.foldl (fun u q => match elemOfKey p.1 with | some e => flushPort u e q.1 | none => u) t) s

/-- One root cycle of the hub in RUN or STANDBY. -/
def hubCycle (s : State) : State :=
  let s1 := ppsEnd (ppsEnd s false) true
  let s2 := if clkEdge s 16 then mgtCycle s1 else s1
  let s3 := if clkEdge s 4 then { flushAll s2 with fhp := { s2.fhp with egress := s2.fhp.egress.drop 1 } } else s2
  settleCmds (tripRepair (scvRefill s3))

/-! ## The cycle -/

/-- One root cycle passes; nothing does while PORST_n is low. In DEEP the root stops and device time moves by 16 ticks in each OSC_IN
cycle (R347). -/
def rootCycle (s : State) : State :=
  if s.mgc.porst then s
  else
    let t := { s with cycle := s.cycle + 1 }
    if rootRuns t = false then t
    else if t.lmp.pkg = .deep then (if clkEdge t 128 then upTo 32 (fun _ u => timeCycle u) t else t)
    else
      let u := if clkEdge t 4 then timeCycle t else t
      hubCycle ((activeRegions u).foldl regionCycle u)

end Sys2Proof.Machine
end

