-- ==== Sys2Proof/WellFormed.lean ====
section
/-! DEFINITION. Well-formed commands: operands that name something the specification has (R21, R52, R222, R224, R230, R266, R289, R354, R417).
A command that is not well formed names no event of the package. -/

namespace Sys2Proof

/-- The listed fabric nodes: clusters, memory controllers and hub nodes (R222). -/
def listedNode (n : NodeId) : Bool :=
  decide (n.toNat < 0x40) || decide (0x80 ≤ n.toNat ∧ n.toNat ≤ 0x82) || decide (0x90 ≤ n.toNat ∧ n.toNat ≤ 0x95)

/-- An initiator that exists: functions are 0 to 32 (R266, R271). -/
def Initiator.wf : Initiator → Bool
  | .host fn => decide (fn.toNat ≤ 32)
  | _ => true

/-- A routing element that exists. -/
def Elem.wf : Elem → Bool
  | .ni n => listedNode n
  | _ => true

/-- What arose on the way is no success: that is the answer of the target itself. -/
def pathWf (p : PathRes) : Bool := p != some .ok

/-- The operations of slots A and B (R52). -/
def Op.inLs : Op → Bool
  | .nop | .undef _ | .ldh _ | .ldw _ | .sth _ | .stw _ | .vld _ | .vldu _ | .vst _ | .vsta _ | .qenq _ | .qdeq _
  | .addaN _ _ | .addaI _ _ | .mova _ _ | .movn _ _ | .movas _ _ => true
  | _ => false
/-- The operations of slot C (R52). -/
def Op.inC : Op → Bool
  | .nop | .undef _ | .mac _ _ _ _ | .acclr _ | .acset _ _ | .vbin _ _ _ _ | .vneg _ _ | .vconj _ _ | .vshrr _ _ _ | .vmov _ _
  | .vbcst _ _ _ | .acmv _ _ _ _ | .acsh _ _ => true
  | _ => false
/-- The operations of slot D (R52). -/
def Op.inD : Op → Bool
  | .nop | .undef _ | .alu _ _ _ _ | .movi _ _ | .br _ _ _ _ | .j _ | .call _ | .ret _ | .loop _ _ | .loops _ _ | .mfc _ _ | .mtc _ _
  | .rti | .wait | .fence | .cp _ _ _ => true
  | _ => false

/-- Each slot of a bundle holds an operation of that slot (R52). -/
def Bundle.wf (m : Bundle) : Bool := m.a.inLs && m.b.inLs && m.c.inC && m.d.inD

/-- A cascade frame carries LEN payload bytes (R354). -/
def CasFrame.wf (f : CasFrame) : Bool := f.payload.length == f.len.toNat

/-- The data that a request type carries (R230). -/
def dataWf (t : PktType) (d : List Byte) : Bool :=
  match t with
  | .wr | .wrm | .wrP | .wrmP => d.length == 64
  | .wr256 | .wr256P => d.length == 256
  | _ => d.isEmpty

/-- A command is well formed. -/
def Instr.wf : Instr → Bool
  | .porstNAssert _ _ _ => true
  | .porstNRelease _ _ _ => true
  | .bootStepComplete _ => true
  | .bootStepTimeout => true
  | .loadMailboxDetect => true
  | .perstNAssert => true
  | .registerWrite who _ _ _ => who.wf
  | .tallyCounterRead who _ => who.wf
  | .rcFieldRead who _ _ => who.wf
  | .ldh _ _ _ m => m.wf
  | .ldw _ _ _ m => m.wf
  | .sth _ _ _ m => m.wf
  | .stw _ _ _ m => m.wf
  | .vld _ _ _ m => m.wf
  | .vldu _ _ _ m => m.wf
  | .vst _ _ _ m => m.wf
  | .vsta _ _ _ m => m.wf
  | .qenq _ _ _ m => m.wf
  | .qenqStallRelease _ => true
  | .enqueueTimeout _ => true
  | .qdeq _ _ _ m => m.wf
  | .adda _ _ _ _ m => m.wf
  | .mova _ _ _ _ m => m.wf
  | .movn _ _ _ _ m => m.wf
  | .movas _ _ _ _ m => m.wf
  | .cmac _ _ _ _ m => m.wf
  | .cmacj _ _ _ _ m => m.wf
  | .cmsb _ _ _ _ m => m.wf
  | .cmul _ _ _ _ m => m.wf
  | .cmulj _ _ _ _ m => m.wf
  | .rmac _ _ _ _ m => m.wf
  | .acclr _ _ m => m.wf
  | .acset _ _ _ m => m.wf
  | .acmv _ _ _ _ _ m => m.wf
  | .acsh _ _ _ m => m.wf
  | .vadd _ _ _ _ m => m.wf
  | .vsub _ _ _ _ m => m.wf
  | .vaddw _ _ _ _ m => m.wf
  | .vsubw _ _ _ _ m => m.wf
  | .vneg _ _ _ m => m.wf
  | .vconj _ _ _ m => m.wf
  | .vshrr _ _ _ _ m => m.wf
  | .vmov _ _ _ m => m.wf
  | .vbcst _ _ _ _ m => m.wf
  | .vand _ _ _ _ m => m.wf
  | .vor _ _ _ _ m => m.wf
  | .vxor _ _ _ _ m => m.wf
  | .add _ _ _ _ m => m.wf
  | .sub _ _ _ _ m => m.wf
  | .and _ _ _ _ m => m.wf
  | .or _ _ _ _ m => m.wf
  | .xor _ _ _ _ m => m.wf
  | .shl _ _ _ _ m => m.wf
  | .shr _ _ _ _ m => m.wf
  | .sar _ _ _ _ m => m.wf
  | .mul _ _ _ _ m => m.wf
  | .cmplt _ _ _ _ m => m.wf
  | .cmpeq _ _ _ _ m => m.wf
  | .movi _ _ _ m => m.wf
  | .br _ _ _ _ _ m => m.wf
  | .j _ _ m => m.wf
  | .call _ _ m => m.wf
  | .ret _ _ m => m.wf
  | .loop _ _ _ m => m.wf
  | .loops _ _ _ m => m.wf
  | .mfc _ _ _ m => m.wf
  | .mtc _ _ _ m => m.wf
  | .rti _ m => m.wf
  | .wait _ m => m.wf
  | .waitWake _ => true
  | .fence _ m => m.wf
  | .nop _ m => m.wf
  | .interruptEntry _ => true
  | .timerRaise _ => true
  | .postedStoreFault _ _ => true
  | .coreRun who _ => who.wf
  | .coreHalt who _ => who.wf
  | .coreSreset who _ => who.wf
  | .cpwr _ _ _ m => m.wf
  | .cpld _ _ _ m => m.wf
  | .cprd _ _ _ m => m.wf
  | .cpst _ _ _ m => m.wf
  | .cprds _ _ _ m => m.wf
  | .cpwrs _ _ _ m => m.wf
  | .cpsave _ _ _ m => m.wf
  | .cprestore _ _ _ m => m.wf
  | .cpOperationFinish _ _ => true
  | .mmac _ _ m => m.wf
  | .mmac8 _ _ m => m.wf
  | .mmv _ _ m => m.wf
  | .mmva _ _ m => m.wf
  | .mrsq _ _ m => m.wf
  | .mchol _ _ m => m.wf
  | .mtrsv _ _ m => m.wf
  | .maclr _ _ m => m.wf
  | .sdmap _ _ m => m.wf
  | .sscrb _ _ m => m.wf
  | .sdscr _ _ m => m.wf
  | .sginit _ _ m => m.wf
  | .scrc _ _ m => m.wf
  | .scrcinit _ _ m => m.wf
  | .silv _ _ m => m.wf
  | .sdilv _ _ m => m.wf
  | .cluWbaseWrite who _ _ _ => who.wf
  | .cluWlenWrite who _ _ _ => who.wf
  | .cmInitStart who _ => who.wf
  | .memoryInitDone _ => true
  | .requestAtTarget node => listedNode node
  | .jobDequeue _ => true
  | .jobSetupReadResponse _ path => pathWf path
  | .jobBorrowAnswer _ => true
  | .jobRunDone _ => true
  | .jobWritebackDone _ path => pathWf path
  | .jobAccessError _ _ _ => true
  | .jobInternalError _ => true
  | .jobDeadline _ => true
  | .jobAbortComplete _ => true
  | .jobRecordEnqueue _ path => pathWf path
  | .engineEnable who _ => who.wf
  | .engineDisable who _ => who.wf
  | .engineSreset who _ => who.wf
  | .accQselWrite who _ _ => who.wf
  | .queueEnqueue src _ _ => src.wf
  | .queueDequeue src _ => src.wf
  | .queueStatusRead src _ => src.wf
  | .endTask _ _ _ => true
  | .cancel src _ _ => src.wf
  | .taskBind _ => true
  | .preemptBind _ => true
  | .taskDeadline _ _ => true
  | .taskRecordEnqueue _ path => pathWf path
  | .chunkRequest _ _ => true
  | .chunkAnswer _ _ => true
  | .budgetPeriodEdge _ _ => true
  | .reservePeriodEdge _ => true
  | .budgetEnable who _ _ _ => who.wf
  | .budgetDisable who _ _ _ => who.wf
  | .reserveEnable who _ _ => who.wf
  | .budBudgetWrite who _ _ _ _ => who.wf
  | .dramBudgetPeriodEdge _ => true
  | .loadPeriodEdge _ => true
  | .queueEnable who _ _ => who.wf
  | .queueDisable who _ _ => who.wf
  | .stealStart _ => true
  | .stealRequest _ _ => true
  | .stealReceive _ => true
  | .stealRefusal _ => true
  | .stealRecordReturn _ => true
  | .stealCancelForward _ => true
  | .niRequest ini typ _ _ data _ => ini.wf && dataWf typ data
  | .regulatorInject node n => listedNode node && decide (n.toNat ≤ 65)
  | .regulatorRefill node => listedNode node
  | .regulatorConfigWrite who node _ _ => who.wf && listedNode node
  | .routerForward el _ => el.wf
  | .responseArrival node => listedNode node
  | .requestTimeout node _ => listedNode node
  | .txidQuarantineEnd node _ => listedNode node
  | .responseLifetimeExpiry el _ => el.wf
  | .retryArrival node => listedNode node
  | .retryResend node ini => listedNode node && ini.wf
  | .linkFlitError el _ _ => el.wf
  | .portDrain who el _ _ => who.wf && el.wf
  | .portDisable who el _ => who.wf && el.wf
  | .portEnable who el _ => who.wf && el.wf
  | .portDrainComplete el _ => el.wf
  | .routeTableSwap who node => who.wf && listedNode node
  | .doorbell fn _ _ _ => decide (fn.toNat ≤ 32)
  | .descriptorFetch _ _ => true
  | .taskSubmit _ _ path => pathWf path
  | .taskCancel _ _ path => pathWf path
  | .dmaCopy _ _ path => pathWf path
  | .dmaGather _ _ path => pathWf path
  | .cfgStage _ _ path => pathWf path
  | .cfgCommit _ _ => true
  | .commitBoundary num _ slot => decide (num.toNat ≤ 4) && decide (slot.toNat < 10 * 2 ^ num.toNat)
  | .powerStateWake _ _ => true
  | .powerStateNap _ _ => true
  | .powerStateRetain _ _ => true
  | .powerStateStandby _ _ => true
  | .powerStateDeep _ _ => true
  | .budgetSet _ _ => true
  | .journalAppend _ _ => true
  | .journalCompact _ _ => true
  | .journalRead _ _ path => pathWf path
  | .timeCmdRead _ _ path => pathWf path
  | .timeCmdStep _ _ => true
  | .timeCmdFrequencyAdjust _ _ => true
  | .timeCmdArmTimer _ _ => true
  | .timeCmdCancelTimer _ _ => true
  | .beaconTransmit _ _ path => pathWf path
  | .beaconReceiveOn _ _ => true
  | .beaconReceiveOff _ _ => true
  | .beaconLoadTable _ _ path => pathWf path
  | .beaconReadNoiseFloor _ _ path => pathWf path
  | .faultInject _ _ => true
  | .faultQuery _ _ path => pathWf path
  | .hostFence _ _ => true
  | .completionWrite _ _ => true
  | .sourceQueueForward _ _ => true
  | .eventWrite _ _ => true
  | .ringEnable who _ _ => who.wf
  | .ringDisable who _ _ => who.wf
  | .functionLevelReset fn => decide (fn.toNat ≤ 32)
  | .barAccess fn _ _ wr size data => decide (fn.toNat ≤ 32) && (!wr || data.length == size)
  | .hostMemoryAccess ini _ wr len data _ => ini.wf && (if wr then data.length == len else true)
  | .hostReadCompletion _ _ => true
  | .dmaChannelConfigWrite who _ _ => who.wf
  | .frameReceive _ _ _ _ => true
  | .iqPacketReceive _ => true
  | .type2MessageReceive _ => true
  | .ptpFrameReceive _ _ => true
  | .esmcFrameReceive _ _ => true
  | .delayRequestReceive _ _ _ => true
  | .delayFollowUpReceive _ _ => true
  | .remoteDelayRequestReceive _ _ => true
  | .delayResponseReceive _ _ _ _ => true
  | .delayMeasurementStart who _ _ => who.wf
  | .delayMeasurementTimeout _ => true
  | .symbolCloseTimeout _ _ => true
  | .symbolDescriptorEnqueue _ path => pathWf path
  | .exceptionBufferFree who _ => who.wf
  | .txEntryDequeue _ => true
  | .txSend _ path => pathWf path
  | .txRecordEnqueue _ path => pathWf path
  | .quadModeWrite who _ _ => who.wf
  | .streamEnable who _ _ => who.wf
  | .streamDisable who _ _ => who.wf
  | .laneLockChange _ _ => true
  | .sourceSelection => true
  | .sourceValidityChange _ => true
  | .phaseMeasurement _ _ _ => true
  | .holdoverSpecExpiry => true
  | .eventTimerFire _ => true
  | .timerArm who _ _ => who.wf
  | .timerDisarm who _ _ => who.wf
  | .ppsEnable who _ _ => who.wf
  | .timeSnapshot who _ => who.wf
  | .slotPulse num => decide (num.toNat ≤ 4)
  | .ppsInEdge _ => true
  | .todMessageReceive _ _ _ => true
  | .ptpMessageTransmit _ _ => true
  | .tokenReceive f => f.wf
  | .tokenRegenerate _ => true
  | .frameTransit f => f.wf
  | .reqReceive f => f.wf
  | .rspReceive f => f.wf
  | .enqReceive f => f.wf
  | .enqrspReceive f => f.wf
  | .pollSend => true
  | .pollReceive f => f.wf
  | .replyReceive f => f.wf
  | .joinTimeout => true
  | .remoteAccess ini typ _ _ data _ => ini.wf && dataWf typ data
  | .remoteSlotTimeout _ => true
  | .exportDequeue _ => true
  | .linkLockLoss _ => true
  | .wrapIndicationReceive _ => true
  | .wrapHoldExpiry _ => true
  | .unwrap who _ => who.wf
  | .beaconSymbolReceive _ _ => true
  | .beaconSymbolTransmit => true
  | .receiveSlotFree who _ => who.wf
  | .crierEnable who _ => who.wf
  | .crierDisable who _ => who.wf
  | .referenceHoldExpiry => true
  | .bulkMemoryRead ini _ len _ => ini.wf && decide (len ≤ 256)
  | .bulkMemoryWrite ini _ bytes _ _ => ini.wf && decide (bytes.length ≤ 256)
  | .scrubRead m => decide (m.toNat < 19)
  | .wmapClearStart who _ => who.wf
  | .wmapClearDone => true
  | .flipArm who m _ => who.wf && decide (m.toNat < 19)
  | .faultSourceEvent _ _ => true
  | .reportPathFault _ => true
  | .faultWindowClose _ => true
  | .asyUnfence who _ => who.wf
  | .faultInjectTimeout _ => true
  | .logRecordWrite => true
  | .prepareAnswer _ => true
  | .prepareTimeout => true
  | .entryDrainComplete => true
  | .wakePin _ => true
  | .wakeStepReady _ => true
  | .wakeStepTimeout _ => true
  | .thermalPrediction _ => true
  | .brownOut _ => true
  | .aonOvercurrent => true
  | .reconciliation _ _ => true
  | .operatingPointRequest who _ _ => who.wf
  | .operatingPointDone _ => true
  | .regionEnable who _ => who.wf
  | .journalRecordWrite => true
  | .compactionStart => true
  | .compactionCommit => true
  | .thermtrip die _ _ => decide (die.toNat ≤ 4)
  | .smbusBlockWrite _ count _ => decide (count ≤ 255)
  | .smbusBlockRead _ => true
  | .smbusTimeout => true
  | .extest => true
  | .samplePreload => true
  | .extestPulse => true
  | .extestTrain => true
  | .highz => true
  | .clamp => true
  | .bypass _ => true
  | .trstNAssert => true
  | .perstNRelease => true
  | .busMasterEnableChange fn _ => decide (fn.toNat ≤ 32)
  | .cascadeRxLockGain _ => true
  | .fronthaulLinkChange _ _ => true

end Sys2Proof
end

