-- ==== Sys2Proof/Safety.lean ====
section
/-! DEFINITION. What claims about a run are stated with: the canonical form of the memories, the queue of a state, and runs (R23, R42; log 1). -/

namespace Sys2Proof.Machine

/-- The package memory and the record of host memory are in canonical form: addresses strictly rising, no byte listed that an unlisted
address would read as. -/
def State.memOk (s : State) : Prop := Memory.wf s.mem = true ∧ Memory.wf s.hostMem = true

/-- A loop register set as the control registers can hold it: at most four levels, begin and end addresses of bundles (R44, R48). -/
def LoopsOk (l : Loops) : Prop :=
  l.depth.toNat ≤ 4 ∧ (∀ n : Nat, (sget 0 l.lb n).toNat % 16 = 0) ∧ ∀ n : Nat, (sget 0 l.le n).toNat % 16 = 0

/-- A trap register set as the control registers can hold it: no reserved privilege saved, an entry address of a bundle (R48). -/
def TrapOk (t : TrapRegs) : Prop := bits t.estat.toNat 0 2 ≠ 3 ∧ t.tvec.toNat % 16 = 0 ∧ LoopsOk t.lsh

/-- A core in a state that the specification allows: the pc is a bundle address (R51), the privilege is 0, 1 or 2 and the reserved bits of
CORE_DELEG and SCF read as R47 and R48 say. -/
def CoreOk (c : Core) : Prop :=
  c.pc.toNat % 16 = 0 ∧ c.c.priv ≠ 3 ∧ c.c.deleg &&& 0xFFC0FC01 = 0 ∧ bits c.r.scf.toNat 8 8 = 0 ∧ bits c.r.scf.toNat 4 2 < 2 ∧
    LoopsOk c.loops ∧ TrapOk c.t0 ∧ TrapOk c.t1

/-- Every core is in a state that the specification allows. -/
def State.coresOk (s : State) : Prop := ∀ g : CoreId, CoreOk (s.core g)

/-- The tick counter is that of device time, whose nanoseconds and fraction stand in their ranges (R327, R328). -/
def State.timeOk (s : State) : Prop :=
  s.cmk.tick = BitVec.ofNat 32 (ticksAt s.units) ∧ s.cmk.ns < 1000000000 ∧ s.cmk.frac < 65536

/-- The invariant that every step keeps. -/
def State.Inv (s : State) : Prop := s.memOk ∧ s.timeOk ∧ s.coresOk

/-- The command completes in a state with an outcome and no data for its initiator. -/
def State.ends (t : State) (o : Outc) : Host.Outcome State Fault Refusal := .next (t.answerOnly o)

/-- The low word of a Tally counter stands at a, its high word behind it (R37); the counters that SCH_QIDX selects apart. -/
def isCounter (a : Nat) : Prop :=
  a % 8 = 0 ∧ a + 4 < 2 ^ 44 ∧ (∀ gc o, place (BitVec.ofNat 44 a) = .sch gc o → qTalOff o = false) ∧
    ∀ t : State, regRead t (place (BitVec.ofNat 44 a)) = tallyRead t a false ∧
      regRead t (place (BitVec.ofNat 44 (a + 4))) = tallyRead t a true

/-- A run of n steps, as long as each answers a next state. -/
def run : Nat → State → Option State
  | 0, s => some s
  | n + 1, s =>
    match step s with
    | .next t => run n t
    | .fault _ | .refused _ => none

/-- A state with a command in front of its queue. -/
def State.push (s : State) (c : Instr) : State := { s with pending := c :: s.pending }

/-! ## One bundle (R52, R53, R79) -/

/-- The operations of a bundle in slot order. -/
def bundleOps (b : Bundle) : List Op := [b.a, b.b, b.c, b.d]

/-- The registers that a bundle names as destinations or updates as a base. -/
def bundleWrites (b : Bundle) : List RegName := (bundleOps b).flatMap opWrites

/-- The value of a data register, as a number. -/
def RegName.value (r : CoreRegs) : RegName → Nat
  | .s i => (r.getS i).toNat
  | .a i => (r.getA i).toNat
  | .n i => (r.getN i).toNat
  | .v i => (r.getV i).toNat
  | .ac i => (r.getAc i).toNat

/-- A 64-byte block of the core's addresses lies in an initialised memory of its own cluster that it may use. -/
def ownBlock (s : State) (g : CoreId) (blk : Word) : Bool :=
  match blkAt s g blk with
  | .own m _ => s.ready m
  | .fab _ | .bad _ _ => false

/-- The package address of a core address in a memory of the core's cluster (R49). -/
def ownAddr (s : State) (g : CoreId) (a : Word) : Nat :=
  match blkAt s g (a &&& 0xFFFFFFC0) with
  | .own _ pa => pa + a.toNat % 64
  | .fab _ | .bad _ _ => 0

/-- A queue access of slot A. -/
def isQueueOp : Op → Bool
  | .qenq _ | .qdeq _ => true
  | .nop | .undef _ | .ldh _ | .ldw _ | .sth _ | .stw _ | .vld _ | .vldu _ | .vst _ | .vsta _ | .addaN _ _ | .addaI _ _
  | .mova _ _ | .movn _ _ | .movas _ _ | .mac _ _ _ _ | .acclr _ | .acset _ _ | .vbin _ _ _ _ | .vneg _ _ | .vconj _ _
  | .vshrr _ _ _ | .vmov _ _ | .vbcst _ _ _ | .acmv _ _ _ _ | .acsh _ _ | .alu _ _ _ _ | .movi _ _ | .br _ _ _ _ | .j _ | .call _
  | .ret _ | .loop _ _ | .loops _ _ | .mfc _ _ | .mtc _ _ | .rti | .wait | .fence | .cp _ _ _ => false

/-- Core g can execute bundle b now without a wait or a trap: it runs with no bundle held and no halt asked for; instruction memory is
ready, nothing stored holds a parity error and no checker waits for an injected one; the bundle is defined, allowed and aligned; a FENCE
has no store to wait for; every block it touches is an initialised memory of the cluster; and it makes no queue access (R52, R71, R72,
R74, R76, R79, R86, R104, R135). -/
def executes (s : State) (g : CoreId) (b : Bundle) : Bool :=
  let c := s.core g
  (decide (c.st = .running) && decide (c.held = none) && coreOn s g && !c.haltReq) &&
    (s.ready (.imem g) && decide (s.par = []) && decide (s.asy.inj = []) && decide (c.cp0.bad = []) && decide (c.cp1.bad = [])) &&
    (decide ((undefFind c b).1 = .fine) && !privFind c b.d && !(decide (b.d = .fence) && postedOpen s g) && (misFind c b).isNone) &&
    (memSlots.all (fun n => (opBlocks c (slotOp b n)).all (ownBlock s g) && (staticFault s g (slotOp b n)).isNone) &&
      !(bundleOps b).any isQueueOp && !scfGte c.r.scf)

/-- The stores of a bundle to memories of the cluster: package address and bytes, in slot order. -/
def bundleStores (s : State) (g : CoreId) (b : Bundle) : List (Nat × List Byte) :=
  let c := s.core g
  ((opStores c b.a ++ opStores c b.b) ++ opStores c b.d).map (fun p => (ownAddr s g p.1, p.2))

/-- A byte of memory after stores. -/
def byteAfter (s : State) (l : List (Nat × List Byte)) (a : Nat) : Byte := (l.foldl (fun u p => u.setBytes p.1 p.2) s).byte a

/-- The number whose little-endian bytes a core reads from a in its cluster's memories (R13, R49). -/
def loaded (s : State) (g : CoreId) (a : Word) (n : Nat) : Nat :=
  natOfBytes ((List.range n).map (fun i => s.byte (ownAddr s g (a + BitVec.ofNat 32 i))))

/-- An operation of slot C that changes the sticky bits of CORE_ACST, or a store that saturates (R60, R62). -/
def touchesAcst : Op → Bool
  | .mac _ _ _ _ | .acclr _ | .acset _ _ | .vbin _ _ _ _ | .vneg _ _ | .vconj _ _ | .acmv _ _ _ _ | .vsta _ => true
  | .nop | .undef _ | .ldh _ | .ldw _ | .sth _ | .stw _ | .vld _ | .vldu _ | .vst _ | .qenq _ | .qdeq _ | .addaN _ _ | .addaI _ _
  | .mova _ _ | .movn _ _ | .movas _ _ | .vshrr _ _ _ | .vmov _ _ | .vbcst _ _ _ | .acsh _ _ | .alu _ _ _ _ | .movi _ _
  | .br _ _ _ _ | .j _ | .call _ | .ret _ | .loop _ _ | .loops _ _ | .mfc _ _ | .mtc _ _ | .rti | .wait | .fence | .cp _ _ _ => false

/-- An operation of slot D that changes control registers or coprocessor state. -/
def touchesCtl : Op → Bool
  | .mtc _ _ | .rti | .cp _ _ _ => true
  | .nop | .undef _ | .ldh _ | .ldw _ | .sth _ | .stw _ | .vld _ | .vldu _ | .vst _ | .qenq _ | .qdeq _ | .vsta _ | .addaN _ _
  | .addaI _ _ | .mova _ _ | .movn _ _ | .movas _ _ | .mac _ _ _ _ | .acclr _ | .acset _ _ | .vbin _ _ _ _ | .vneg _ _
  | .vconj _ _ | .vshrr _ _ _ | .vmov _ _ | .vbcst _ _ _ | .acmv _ _ _ _ | .acsh _ _ | .alu _ _ _ _ | .movi _ _ | .br _ _ _ _
  | .j _ | .call _ | .ret _ | .loop _ _ | .loops _ _ | .mfc _ _ | .wait | .fence => false

/-- An operation of slot D that decides where execution goes on. -/
def touchesFlow : Op → Bool
  | .br _ _ _ _ | .j _ | .call _ | .ret _ | .loop _ _ | .loops _ _ | .rti | .mtc _ _ => true
  | .nop | .undef _ | .ldh _ | .ldw _ | .sth _ | .stw _ | .vld _ | .vldu _ | .vst _ | .qenq _ | .qdeq _ | .vsta _ | .addaN _ _
  | .addaI _ _ | .mova _ _ | .movn _ _ | .movas _ _ | .mac _ _ _ _ | .acclr _ | .acset _ _ | .vbin _ _ _ _ | .vneg _ _
  | .vconj _ _ | .vshrr _ _ _ | .vmov _ _ | .vbcst _ _ _ | .acmv _ _ _ _ | .acsh _ _ | .alu _ _ _ _ | .movi _ _ | .mfc _ _
  | .wait | .fence | .cp _ _ _ => false

/-- What a bundle leaves unchanged when it has executed: every register no slot names, SCF but for AUTO and MTC, CORE_ACST but for its
writers, every other control, trap and coprocessor register but for those of slot D; every byte of memory outside its stores; the other
cores; every counter but CORE_TAL_BUNDLES and CORE_TAL_GOVF; and every other part of the package. -/
structure BundleFrame (s : State) (g : CoreId) (b : Bundle) (t : State) : Prop where
  regs : ∀ r : RegName, r ∉ bundleWrites b → r.value (t.core g).r = r.value (s.core g).r
  scf : touchesCtl b.d = false → (bundleOps b).any (usesAuto (s.core g).r.scf) = false → (t.core g).r.scf = (s.core g).r.scf
  acst : touchesCtl b.d = false → (bundleOps b).any touchesAcst = false → (t.core g).c.acst = (s.core g).c.acst
  ctl : touchesCtl b.d = false → (t.core g).c = { (s.core g).c with acst := (t.core g).c.acst }
  traps : touchesCtl b.d = false → (t.core g).t0 = (s.core g).t0 ∧ (t.core g).t1 = (s.core g).t1
  cps : touchesCtl b.d = false → (t.core g).cmu = (s.core g).cmu ∧ (t.core g).sbu = (s.core g).sbu ∧
    (t.core g).cp0 = (s.core g).cp0 ∧ (t.core g).cp1 = (s.core g).cp1
  flow : touchesFlow b.d = false → (t.core g).pc = (fallThrough (s.core g)).pc ∧ (t.core g).loops = (fallThrough (s.core g)).loops
  idle : (t.core g).held = none ∧ (t.core g).haltReq = false ∧ (b.d ≠ .wait → (t.core g).st = .running)
  others : ∀ g' : CoreId, g' ≠ g → t.core g' = s.core g'
  mem : ∀ a : Nat, t.byte a = byteAfter s (bundleStores s g b) a
  tally : ∀ a : Nat, a ≠ coreRegs g + 0x100 → a ≠ coreRegs g + 0x120 → sget 0 t.tally a = sget 0 s.tally a
  rest : t = { s with cores := t.cores, mem := t.mem, tally := t.tally, fresh := t.fresh }

/-- The command answers a next state behind the bundle, with the bundle's frame and the property named. -/
def Does (s : State) (g : CoreId) (b : Bundle) (o : Host.Outcome State Fault Refusal) (P : State → Prop) : Prop :=
  ∃ t : State, o = .next t ∧ BundleFrame s g b t ∧ P t

/-- The address that a load or store of slot A or B accesses (R70). -/
def addrOf (r : CoreRegs) (m : MemArgs) (size : Nat) : Word :=
  match m.mode with
  | .off i => r.getA m.an + BitVec.ofInt 32 (i.toInt * size)
  | .postN _ | .postI _ => r.getA m.an

/-- The access moves its base register in t to the value of R70: An + Nm, or An + immediate × size; without post-modification nothing is
claimed (the frame says what stays). -/
def baseMoved (r : CoreRegs) (m : MemArgs) (size : Nat) (t : CoreRegs) : Prop :=
  match m.mode with
  | .off _ => True
  | .postN n => t.getA m.an = r.getA m.an + r.getN n
  | .postI i => t.getA m.an = r.getA m.an + BitVec.ofInt 32 (i.toInt * size)

/-- The n bytes at a core address in the cluster hold v, lowest byte first (R13). -/
def bytesAre (s t : State) (g : CoreId) (a : Word) (n v : Nat) : Prop :=
  ∀ i < n, t.byte (ownAddr s g a + i) = BitVec.ofNat 8 (v / 256 ^ i)

/-- A number limited to 16 bits with sign (R62, R66). -/
def clamp16 (x : Int) : Int := max (-32768) (min 32767 x)

/-- CORE_ACST behind a bundle: bit n is set when x says so, cleared when k says so, else as it was; the other bits are as they were (R10,
R60, R62). -/
def acstBit (s t : State) (g : CoreId) (n : Nat) (k x : Bool) : Prop :=
  ∀ i < 9, (t.core g).c.acst.getLsbD i =
    if i = n then ((s.core g).c.acst.getLsbD i && !k) || x else (s.core g).c.acst.getLsbD i

/-- Slots A and B store no scaled accumulator, so CORE_ACST.QSAT depends on slot C alone. -/
def noScaledStore (m : Bundle) : Bool := !touchesAcst m.a && !touchesAcst m.b

/-- The condition of a BR, from the registers and slots before the bundle (R83). -/
def brHolds (c : Core) (k : BrCond) (sa : BitVec 5) : Prop :=
  let x := (c.r.getS sa).toInt
  match k with
  | .eq => x = 0
  | .ne => x ≠ 0
  | .lt => x < 0
  | .ge => 0 ≤ x
  | .le => x ≤ 0
  | .gt => 0 < x
  | .cp0busy => c.cp0.pend ≠ []
  | .cp1busy => c.cp1.pend ≠ []

/-- A bundle whose slots A to C change no sticky bit and no block exponent. -/
def noMarks (m : Bundle) : Bool := !touchesAcst m.a && !touchesAcst m.b && !touchesAcst m.c

/-- The registers of a coprocessor slot and of its unit are as before. -/
def portSame (c d : Core) (sl : Bool) : Prop := d.port sl = c.port sl ∧ (if sl then d.sbu = c.sbu else d.cmu = c.cmu)

/-- Core g has entered the handler of a trap or interrupt taken with the given cause and value, to return to its pc (R77): level 1 when the
cause is delegated and the core did not run at P0; the saved address, status and loop registers; the new pc, privilege, IE and depth. -/
def entered (s t : State) (g : CoreId) (cause : Nat) (tval : Word) : Prop :=
  let c := s.core g
  let d := t.core g
  let n := if c.c.deleg.getLsbD cause = true ∧ c.c.priv ≠ 0 then 1 else 0
  let old := if n = 0 then c.t0 else c.t1
  let saved : TrapRegs := { epc := c.pc, estat := BitVec.ofNat 3 (c.c.priv.toNat + if c.c.ie then 4 else 0), tcause := BitVec.ofNat 8 cause,
                            tval := tval, tvec := old.tvec, lsh := c.loops }
  (if n = 0 then d.t0 else d.t1) = saved ∧ (if n = 0 then d.t1 else d.t0) = (if n = 0 then c.t1 else c.t0) ∧ d.pc = old.tvec ∧
    d.loops = { c.loops with depth := 0 } ∧ d.c.priv = BitVec.ofNat 2 n ∧ d.c.ie = false ∧ d.r = c.r ∧ d.held = none ∧ d.st = .running ∧
    ∀ g' : CoreId, g' ≠ g → t.core g' = s.core g'

/-- A queue access of slot A can be made: the rest of the bundle executes, the bundle is defined and aligned, and the address is that of
queue lq of the core's cluster at the offset (R49, R71, R73). -/
def queueAccess (s : State) (g : CoreId) (b : Bundle) (lq : BitVec 10) (off : Nat) : Prop :=
  executes s g { b with a := .nop } = true ∧ (undefFind (s.core g) b).1 = .fine ∧ misFind (s.core g) b = none ∧ isQueueOp b.a = true ∧
    ∃ a : Word, effAddr (s.core g).r b.a = some a ∧ coreMap (s.core g).c a = .queue lq off

/-- The queue takes an entry from a core of its cluster: enabled, its activity check passed, the entry well formed, and space free (R186,
R192, R193). -/
def queueTakes (s : State) (q : QueueId) (e : Entry) : Prop :=
  let x := (s.slice (queueCluster q)).queue (queueLocal q)
  x.en = true ∧ (x.actchk = true → eAct e = x.act) ∧ badEntry x.cons e = false ∧ queueFull x = false

/-- Queue q in t is that of s with the entry behind the others (R186). -/
def queueGained (s t : State) (q : QueueId) (e : Entry) : Prop :=
  let x := s.slice (queueCluster q)
  (t.slice (queueCluster q)).queue (queueLocal q) =
      { x.queue (queueLocal q) with ents := (x.queue (queueLocal q)).ents ++ [{ e := e, seq := x.seq, at0 := s.tick, dead := false, bad := false }] } ∧
    ∀ lq' : BitVec 10, lq' ≠ queueLocal q → (t.slice (queueCluster q)).queue lq' = x.queue lq'

/-- Command idx of a command ring carries descriptor d, is accepted and may start now, and passes the checks of R277 (R275, R427). -/
def starts (s : State) (ring : RingId) (idx : Word) (d : Block64) : Prop :=
  ∃ c, s.cmd ring idx = some c ∧ c.desc = d ∧ c.phase = .accepted ∧ c.retried = false ∧ startable s c = true ∧ cmdCheck s c = none

/-- The state behind a command of a command ring, the commands that no row takes completed (R277). -/
def State.settled (t : State) : Host.Outcome State Fault Refusal := .next (settleCmds t)

/-- What a queue's enqueue port answers a TASK_SUBMIT; QUEUE_FULL stands for RETRY (R193, R230, R279). -/
def queueTo (q : QueueId) (e : Entry) (t : State) : TgtAns :=
  match enqueue t .fabric q e with
  | (.accepted, u) => some (Ans.only .ok, u)
  | (.full, u) => some (Ans.only .queueFull, u)
  | (.refused o, u) => some (Ans.only o, u)

end Sys2Proof.Machine
end

