-- ==== Sys2Proof/Certificates/Slice0/Obligations.lean ====
section
/-! DEFINITION. The statements for the provers, each for one rule or a group of rules of the specification. -/

open Sys2Proof Sys2Proof.Machine

/-! ## Cores: one bundle (R45 to R83) -/

/-- R509: the scalar operations give Sd their value and change nothing else; shift counts are the low 5 bits of Sb.
R509: the address-register operations in either slot: An + Nm, An + 4 × the signed immediate, and the three moves. -/
def Obligations.ScalarAndAddressOperations : Prop :=
  (∀ (s : State) (g : CoreId) (sd sa sb : BitVec 5) (imm : BitVec 16) (m : Bundle),
     let x := (s.core g).r.getS sa
     let y := (s.core g).r.getS sb
     let n := y.toNat % 32
     let gives := fun (k : AluKind) (c : Instr) (v : Word) => executes s g (inD m (.alu k sd sa sb)) = true →
       Does s g (inD m (.alu k sd sa sb)) (exec c s) (fun t => (t.core g).r.getS sd = v)
     gives .add (.add g sd sa sb m) (x + y) ∧ gives .sub (.sub g sd sa sb m) (x - y) ∧ gives .and (.and g sd sa sb m) (x &&& y) ∧
     gives .or (.or g sd sa sb m) (x ||| y) ∧ gives .xor (.xor g sd sa sb m) (x ^^^ y) ∧ gives .shl (.shl g sd sa sb m) (x <<< n) ∧
     gives .shr (.shr g sd sa sb m) (x >>> n) ∧ gives .sar (.sar g sd sa sb m) (x.sshiftRight n) ∧ gives .mul (.mul g sd sa sb m) (x * y) ∧
     gives .cmplt (.cmplt g sd sa sb m) (if x.toInt < y.toInt then 1 else 0) ∧
     gives .cmpeq (.cmpeq g sd sa sb m) (if x = y then 1 else 0) ∧
     (executes s g (inD m (.movi sd imm)) = true →
       Does s g (inD m (.movi sd imm)) (exec (.movi g sd imm m) s) (fun t => (t.core g).r.getS sd = imm.signExtend 32))) ∧
  (∀ (s : State) (g : CoreId) (sl : LsSlot) (an nm : BitVec 4) (imm : BitVec 13) (sa sd : BitVec 5) (m : Bundle),
     let r := (s.core g).r
     (executes s g (inLs m sl (.addaN an nm)) = true →
       Does s g (inLs m sl (.addaN an nm)) (exec (.adda g sl an (.nm nm) m) s) (fun t => (t.core g).r.getA an = r.getA an + r.getN nm)) ∧
     (executes s g (inLs m sl (.addaI an imm)) = true →
       Does s g (inLs m sl (.addaI an imm)) (exec (.adda g sl an (.imm imm) m) s)
         (fun t => (t.core g).r.getA an = r.getA an + BitVec.ofInt 32 (imm.toInt * 4))) ∧
     (executes s g (inLs m sl (.mova an sa)) = true →
       Does s g (inLs m sl (.mova an sa)) (exec (.mova g sl an sa m) s) (fun t => (t.core g).r.getA an = r.getS sa)) ∧
     (executes s g (inLs m sl (.movn nm sa)) = true →
       Does s g (inLs m sl (.movn nm sa)) (exec (.movn g sl nm sa m) s) (fun t => (t.core g).r.getN nm = r.getS sa)) ∧
     (executes s g (inLs m sl (.movas sd an)) = true →
       Does s g (inLs m sl (.movas sd an)) (exec (.movas g sl sd an m) s) (fun t => (t.core g).r.getS sd = r.getA an)))

/-- R45, R49, R70, R71: a load in either slot brings the little-endian bytes at its address, 16 bits sign-extended, and moves its base. -/
def Obligations.LoadsFromOwnMemory : Prop :=
  ∀ (s : State) (g : CoreId) (sl : LsSlot) (a : MemArgs) (m : Bundle),
    let r := (s.core g).r
    (executes s g (inLs m sl (.ldh a)) = true →
      Does s g (inLs m sl (.ldh a)) (exec (.ldh g sl a m) s) (fun t =>
        (t.core g).r.getS a.d = (BitVec.ofNat 16 (loaded s g (addrOf r a 2) 2)).signExtend 32 ∧ baseMoved r a 2 (t.core g).r)) ∧
    (executes s g (inLs m sl (.ldw a)) = true →
      Does s g (inLs m sl (.ldw a)) (exec (.ldw g sl a m) s) (fun t =>
        (t.core g).r.getS a.d = BitVec.ofNat 32 (loaded s g (addrOf r a 4) 4) ∧ baseMoved r a 4 (t.core g).r)) ∧
    (executes s g (inLs m sl (.vld a)) = true →
      Does s g (inLs m sl (.vld a)) (exec (.vld g sl a m) s) (fun t =>
        (t.core g).r.getV a.d = BitVec.ofNat 512 (loaded s g (addrOf r a 64) 64) ∧ baseMoved r a 64 (t.core g).r)) ∧
    (executes s g (inLs m sl (.vldu a)) = true →
      Does s g (inLs m sl (.vldu a)) (exec (.vldu g sl a m) s) (fun t =>
        (t.core g).r.getV a.d = BitVec.ofNat 512 (loaded s g (addrOf r a 64) 64) ∧ baseMoved r a 64 (t.core g).r))

/-- R70, R71, R13: a store in either slot puts the low bytes of its register, lowest byte first, at its address, and moves its base;
`bundleStores … = []` says that no other slot stores. -/
def Obligations.StoresToOwnMemory : Prop :=
  ∀ (s : State) (g : CoreId) (sl : LsSlot) (a : MemArgs) (m : Bundle), bundleStores s g (inLs m sl .nop) = [] →
    let r := (s.core g).r
    (executes s g (inLs m sl (.sth a)) = true →
      Does s g (inLs m sl (.sth a)) (exec (.sth g sl a m) s) (fun t =>
        bytesAre s t g (addrOf r a 2) 2 (r.getS a.d).toNat ∧ baseMoved r a 2 (t.core g).r)) ∧
    (executes s g (inLs m sl (.stw a)) = true →
      Does s g (inLs m sl (.stw a)) (exec (.stw g sl a m) s) (fun t =>
        bytesAre s t g (addrOf r a 4) 4 (r.getS a.d).toNat ∧ baseMoved r a 4 (t.core g).r)) ∧
    (executes s g (inLs m sl (.vst a)) = true →
      Does s g (inLs m sl (.vst a)) (exec (.vst g sl a m) s) (fun t =>
        bytesAre s t g (addrOf r a 64) 64 (r.getV a.d).toNat ∧ baseMoved r a 64 (t.core g).r))

/-- R62 to R65: ACMV and VSTA scale each element by 2^−(15+s), halves away from zero, and limit it; s comes from the word (SM 0), from SCF
(SM 1) or is the smallest that limits nothing (SM 2, or SM 1 with SCF.MODE AUTO), and then EXP grows by it; ACSH gives that shift. -/
def Obligations.ScaledMoves : Prop :=
  ∀ (s : State) (g : CoreId) (m : Bundle),
    let r := (s.core g).r
    (∀ (vd : BitVec 5) (acs : BitVec 3) (sm : BitVec 2) (sh : BitVec 4),
      let k := smShift r.scf sm sh (r.getAc acs)
      executes s g (inC m (.acmv vd acs sm sh)) = true →
      Does s g (inC m (.acmv vd acs sm sh)) (exec (.acmv g vd acs sm sh m) s) (fun t =>
        (∀ i < 32, lane ((t.core g).r.getV vd) i = clamp16 (rnd (accEl (r.getAc acs) i) (15 + k).toNat)) ∧
        (touchesCtl m.d = false → noScaledStore m = true → smAuto r.scf sm = true →
          scfExp (t.core g).r.scf = clamp16 (scfExp r.scf + k) ∧ acstBit s t g 8 false false) ∧
        (touchesCtl m.d = false → noScaledStore m = true → smAuto r.scf sm = false →
          acstBit s t g 8 false ((List.range 32).any (fun i =>
            decide (clamp16 (rnd (accEl (r.getAc acs) i) (15 + k).toNat) ≠ rnd (accEl (r.getAc acs) i) (15 + k).toNat)))))) ∧
    (∀ (sl : LsSlot) (v : VaArgs), bundleStores s g (inLs m sl .nop) = [] → executes s g (inLs m sl (.vsta v)) = true →
      let k := smShift r.scf v.sm v.sh (r.getAc v.acs)
      Does s g (inLs m sl (.vsta v)) (exec (.vsta g sl v m) s) (fun t =>
        bytesAre s t g (match v.mode with | .off i => r.getA v.an + BitVec.ofInt 32 (i.toInt * 64) | .postN _ | .postI _ => r.getA v.an) 64
          (mkLanes (fun i => clamp16 (rnd (accEl (r.getAc v.acs) i) (15 + k).toNat))).toNat ∧
        (match v.mode with
          | .off _ => True
          | .postN n => (t.core g).r.getA v.an = r.getA v.an + r.getN n
          | .postI i => (t.core g).r.getA v.an = r.getA v.an + BitVec.ofInt 32 (i.toInt * 64)))) ∧
    (∀ (sd : BitVec 5) (acs : BitVec 3), executes s g (inC m (.acsh sd acs)) = true →
      Does s g (inC m (.acsh sd acs)) (exec (.acsh g sd acs m) s) (fun t =>
        (t.core g).r.getS sd = BitVec.ofInt 32 (autoShift (accEls (r.getAc acs)))))

/-- R58 to R60: what the multiply-accumulate operations, ACCLR and ACSET leave in their accumulator and in its GOVF bit. -/
def Obligations.AccumulatorOperations : Prop :=
  ∀ (s : State) (g : CoreId) (acd : BitVec 3) (va vb : BitVec 5) (m : Bundle),
    let r := (s.core g).r
    let re := fun (v : BitVec 5) (j : Nat) => lane (r.getV v) (2 * j)
    let im := fun (v : BitVec 5) (j : Nat) => lane (r.getV v) (2 * j + 1)
    let acc := fun (e : Nat) => accEl (r.getAc acd) e
    let sum := fun (k : MacKind) (c : Instr) (x : Nat → Int) => executes s g (inC m (.mac k acd va vb)) = true →
      Does s g (inC m (.mac k acd va vb)) (exec c s) (fun t =>
        (∀ e < 32, accEl ((t.core g).r.getAc acd) e = (guard40 (scfSat r.scf) (x e)).1) ∧
        (touchesCtl m.d = false → noScaledStore m = true →
          acstBit s t g acd.toNat false ((List.range 32).any (fun e => (guard40 (scfSat r.scf) (x e)).2))))
    let cplx := fun (f : Nat → Int) (h : Nat → Int) (e : Nat) => if e % 2 = 0 then f (e / 2) else h (e / 2)
    let pr := cplx (fun j => re va j * re vb j - im va j * im vb j) (fun j => re va j * im vb j + im va j * re vb j)
    let pj := cplx (fun j => re va j * re vb j + im va j * im vb j) (fun j => im va j * re vb j - re va j * im vb j)
    sum .cmac (.cmac g acd va vb m) (fun e => acc e + pr e) ∧ sum .cmacj (.cmacj g acd va vb m) (fun e => acc e + pj e) ∧
    sum .cmsb (.cmsb g acd va vb m) (fun e => acc e - pr e) ∧ sum .cmul (.cmul g acd va vb m) pr ∧
    sum .cmulj (.cmulj g acd va vb m) pj ∧
    sum .rmac (.rmac g acd va vb m) (fun e => acc e + lane (r.getV va) e * lane (r.getV vb) e) ∧
    (executes s g (inC m (.acclr acd)) = true →
      Does s g (inC m (.acclr acd)) (exec (.acclr g acd m) s) (fun t =>
        (t.core g).r.getAc acd = 0 ∧ (touchesCtl m.d = false → noScaledStore m = true → acstBit s t g acd.toNat true false))) ∧
    (executes s g (inC m (.acset acd va)) = true →
      Does s g (inC m (.acset acd va)) (exec (.acset g acd va m) s) (fun t =>
        (∀ e < 32, accEl ((t.core g).r.getAc acd) e = lane (r.getV va) e * 32768) ∧
        (touchesCtl m.d = false → noScaledStore m = true → acstBit s t g acd.toNat true false)))

/-- R66: the vector operations lane by lane, with QSAT set where a lane was limited. -/
def Obligations.VectorOperations : Prop :=
  ∀ (s : State) (g : CoreId) (vd va vb : BitVec 5) (imm n : BitVec 4) (m : Bundle),
    let r := (s.core g).r
    let x := fun (i : Nat) => lane (r.getV va) i
    let y := fun (i : Nat) => lane (r.getV vb) i
    let limited := fun (o : Op) (c : Instr) (f : Nat → Int) => executes s g (inC m o) = true →
      Does s g (inC m o) (exec c s) (fun t =>
        (∀ i < 32, lane ((t.core g).r.getV vd) i = clamp16 (f i)) ∧
        (touchesCtl m.d = false → noScaledStore m = true →
          acstBit s t g 8 false ((List.range 32).any (fun i => decide (clamp16 (f i) ≠ f i)))))
    let plain := fun (o : Op) (c : Instr) (f : Nat → Int) => executes s g (inC m o) = true →
      Does s g (inC m o) (exec c s) (fun t =>
        (∀ i < 32, lane ((t.core g).r.getV vd) i = (BitVec.ofInt 16 (f i)).toInt) ∧
        (touchesCtl m.d = false → noScaledStore m = true → acstBit s t g 8 false false))
    let whole := fun (o : Op) (c : Instr) (v : BitVec 512) => executes s g (inC m o) = true →
      Does s g (inC m o) (exec c s) (fun t =>
        (t.core g).r.getV vd = v ∧ (touchesCtl m.d = false → noScaledStore m = true → acstBit s t g 8 false false))
    limited (.vbin .add vd va vb) (.vadd g vd va vb m) (fun i => x i + y i) ∧
    limited (.vbin .sub vd va vb) (.vsub g vd va vb m) (fun i => x i - y i) ∧
    limited (.vneg vd va) (.vneg g vd va m) (fun i => -x i) ∧
    limited (.vconj vd va) (.vconj g vd va m) (fun i => if i % 2 = 0 then x i else -x i) ∧
    plain (.vbin .addw vd va vb) (.vaddw g vd va vb m) (fun i => x i + y i) ∧
    plain (.vbin .subw vd va vb) (.vsubw g vd va vb m) (fun i => x i - y i) ∧
    plain (.vshrr vd va imm) (.vshrr g vd va imm m) (fun i => rnd (x i) imm.toNat) ∧
    plain (.vbcst vd va n) (.vbcst g vd va n m) (fun i => x (2 * n.toNat + i % 2)) ∧
    whole (.vmov vd va) (.vmov g vd va m) (r.getV va) ∧
    whole (.vbin .and vd va vb) (.vand g vd va vb m) (r.getV va &&& r.getV vb) ∧
    whole (.vbin .or vd va vb) (.vor g vd va vb m) (r.getV va ||| r.getV vb) ∧
    whole (.vbin .xor vd va vb) (.vxor g vd va vb m) (r.getV va ^^^ r.getV vb)

/-- R69, R83: where BR, J, CALL and RET go on, from the registers before the bundle; a taken branch keeps the outermost levels that hold
its target; CALL leaves the address of the next bundle in S31; a condition that fails goes on by the loop test. -/
def Obligations.BranchesAndCalls : Prop :=
  ∀ (s : State) (g : CoreId) (m : Bundle) (k : BrCond) (hint : Bool) (sa : BitVec 5) (off : BitVec 16),
    let c := s.core g
    let target := c.pc + 16 * off
    let back : BitVec 16 := slice (c.r.getS 31) 0 16 &&& 0xFFF0
    let taken := fun (a : BitVec 16) (t : State) =>
      (t.core g).pc = a ∧ (t.core g).loops = { c.loops with depth := BitVec.ofNat 3 (depthFor c.loops a 4 0) }
    (executes s g (inD m (.br k hint sa off)) = true →
      Does s g (inD m (.br k hint sa off)) (exec (.br g k hint sa off m) s) (fun t =>
        (brHolds c k sa → taken target t) ∧
        (¬brHolds c k sa → (t.core g).pc = (fallThrough c).pc ∧ (t.core g).loops = (fallThrough c).loops))) ∧
    (executes s g (inD m (.j off)) = true → Does s g (inD m (.j off)) (exec (.j g off m) s) (taken target)) ∧
    (executes s g (inD m (.call off)) = true →
      Does s g (inD m (.call off)) (exec (.call g off m) s) (fun t => taken target t ∧ (t.core g).r.getS 31 = (c.pc + 16).setWidth 32)) ∧
    (executes s g (inD m (.ret off)) = true → Does s g (inD m (.ret off)) (exec (.ret g off m) s) (taken back))

/-- R67, R68: LOOP and LOOPS open a level whose body begins behind the bundle and ends at the given offset, with the count of the word or of
Sa, and go on by the loop test; a LOOPS with count 0 goes on behind the body and opens none. -/
def Obligations.HardwareLoops : Prop :=
  ∀ (s : State) (g : CoreId) (m : Bundle) (count : BitVec 12) (fin : BitVec 13) (sa : BitVec 5),
    let c := s.core g
    let d := c.loops.depth.toNat
    let last := c.pc + 16 * fin.setWidth 16
    let opened := fun (n : BitVec 16) => fallThrough { c with loops := { depth := c.loops.depth + 1, lc := sput 0 c.loops.lc d n,
                                                                          lb := sput 0 c.loops.lb d (c.pc + 16), le := sput 0 c.loops.le d last } }
    let n : BitVec 16 := slice (c.r.getS sa) 0 16
    (executes s g (inD m (.loop count fin)) = true →
      Does s g (inD m (.loop count fin)) (exec (.loop g count fin m) s) (fun t =>
        (t.core g).pc = (opened (count.setWidth 16)).pc ∧ (t.core g).loops = (opened (count.setWidth 16)).loops)) ∧
    (executes s g (inD m (.loops sa fin)) = true →
      Does s g (inD m (.loops sa fin)) (exec (.loops g sa fin m) s) (fun t =>
        if n = 0 then (t.core g).pc = last + 16 ∧ (t.core g).loops = c.loops
        else (t.core g).pc = (opened n).pc ∧ (t.core g).loops = (opened n).loops))

/-- R48, R76, R97: MFC gives a control register's value before the bundle; MTC writes it by the rules of its register, when no other slot
sets a sticky bit or the block exponent. -/
def Obligations.ControlRegisterMoves : Prop :=
  ∀ (s : State) (g : CoreId) (m : Bundle) (sd sa : BitVec 5) (cr : BitVec 7),
    let c := s.core g
    let d := cregWrite c cr.toNat (c.r.getS sa)
    (executes s g (inD m (.mfc sd cr)) = true →
      Does s g (inD m (.mfc sd cr)) (exec (.mfc g sd cr m) s) (fun t => (t.core g).r.getS sd = cregRead c cr.toNat)) ∧
    (noMarks m = true → executes s g (inD m (.mtc sa cr)) = true →
      Does s g (inD m (.mtc sa cr)) (exec (.mtc g sa cr m) s) (fun t =>
        (t.core g).r.scf = d.r.scf ∧ (t.core g).c = d.c ∧ (t.core g).t0 = d.t0 ∧ (t.core g).t1 = d.t1 ∧
        (t.core g).pc = (fallThrough d).pc ∧ (t.core g).loops = (fallThrough d).loops ∧ portSame c (t.core g) false ∧
        portSame c (t.core g) true))

/-- R77, R81 and the Instruction summary of 02: RTI returns to its level's saved address, status and loop registers; WAIT leaves the core
waiting unless an enabled interrupt is pending; FENCE is held while a posted store is open and else, like NOP, has no further effect. -/
def Obligations.ReturnWaitFenceNop : Prop :=
  ∀ (s : State) (g : CoreId) (m : Bundle),
    let c := s.core g
    let lv := if c.c.priv = 0 then c.t0 else c.t1
    (noMarks m = true → executes s g (inD m .rti) = true →
      Does s g (inD m .rti) (exec (.rti g m) s) (fun t =>
        (t.core g).pc = lv.epc &&& 0xFFF0 ∧ (t.core g).loops = lv.lsh ∧
        (t.core g).c = { c.c with priv := slice lv.estat 0 2, ie := lv.estat.getLsbD 2 } ∧ (t.core g).r.scf = c.r.scf ∧
        (t.core g).t0 = c.t0 ∧ (t.core g).t1 = c.t1 ∧ portSame c (t.core g) false ∧ portSame c (t.core g) true)) ∧
    (executes s g (inD m .wait) = true →
      Does s g (inD m .wait) (exec (.wait g m) s) (fun t =>
        (t.core g).st = if (intChoice s g).isNone then .wait else .running)) ∧
    (executes s g (inD m .fence) = true → Does s g (inD m .fence) (exec (.fence g m) s) (fun _ => True)) ∧
    (executes s g (inD m .nop) = true → c.c.priv ≠ 2 → postedOpen s g = true →
      exec (.fence g m) s = .next (s.setCore g { c with held := some { kind := .busy, bundle := inD m .fence, asked := [], got := [], since := s.cycle } })) ∧
    (executes s g { m with a := .nop } = true → Does s g { m with a := .nop } (exec (.nop g m) s) (fun _ => True))

/-- R91, R94, R100: the operations that are done when their bundle commits: CPRD and CPRDS give a register of the unit; CPST stores one, CPSAVE
stores the state image and CPRESTORE loads it, and both clear the dirty bit; SEQ counts each.
R91, R94: the other operations of both units join the operations in flight with what they read from the core at their bundle: V and S
registers, the 64 bytes of a CPLD, the bytes a SILV or SDILV gathers; the unit's state waits for the finish; SEQ counts each. -/
def Obligations.CoprocessorIssue : Prop :=
  (∀ (s : State) (g : CoreId) (sl : Bool) (f : CpFields) (m : Bundle),
     let c := s.core g
     let p := c.port sl
     let reg : BitVec 512 := if sl then c.sbu.getWb f.srca.toNat else c.cmu.getMx f.srca.toNat
     let word : Word := if sl then c.sbu.getCtl f.srca.toNat else cmuCtl c.cmu f.srca.toNat
     let size := if sl then 256 else 2048
     let at0 := fun (x : BitVec 5) => dmemBase g + (c.r.getA (slice x 0 4)).toNat
     let counted := fun (t : State) => (t.core g).port sl = { p with seq := p.seq + 1 } ∧ portSame c (t.core g) !sl
     let does := fun (op : BitVec 5) (i : Instr) (P : State → Prop) => executes s g (inD m (.cp sl op f)) = true →
       Does s g (inD m (.cp sl op f)) (exec i s) (fun t => counted t ∧ P t)
     does 2 (.cprd g sl f m) (fun t => (t.core g).r.getV f.dst = reg ∧ (t.core g).cmu = c.cmu ∧ (t.core g).sbu = c.sbu) ∧
     does 4 (.cprds g sl f m) (fun t => (t.core g).r.getS f.dst = word ∧ (t.core g).cmu = c.cmu ∧ (t.core g).sbu = c.sbu) ∧
     (bundleStores s g (inD m .nop) = [] →
       does 3 (.cpst g sl f m) (fun t => bytesAre s t g (c.r.getA (slice f.dst 0 4)) 64 reg.toNat) ∧
       does 6 (.cpsave g sl f m) (fun t => (t.core g).c.cpen.getLsbD (8 + b2n sl) = false ∧
         ∀ i < size, t.byte (at0 f.srca + i) = (if sl then sbuImage c.sbu else cmuImage c.cmu).getD i 0)) ∧
     does 7 (.cprestore g sl f m) (fun t => (t.core g).c.cpen.getLsbD (8 + b2n sl) = false ∧
       if sl then (t.core g).sbu = sbuOfImage (s.bytes (at0 f.srca) size) else (t.core g).cmu = cmuOfImage (s.bytes (at0 f.srca) size))) ∧
  (∀ (s : State) (g : CoreId) (f : CpFields) (m : Bundle),
     let c := s.core g
     let joins := fun (sl : Bool) (op : BitVec 5) (i : Instr) (data : List Byte) => executes s g (inD m (.cp sl op f)) = true →
       Does s g (inD m (.cp sl op f)) (exec i s) (fun t =>
         (t.core g).port sl = { c.port sl with
           seq := (c.port sl).seq + 1,
           pend := (c.port sl).pend ++ [{ op := op, f := f, baddr := c.pc, seq := (c.port sl).seq + 1, vsrc := c.r.getV f.srca,
                                          ssrc := c.r.getS f.srca, ssrc2 := c.r.getS f.srcb, data := data }] } ∧
         (t.core g).cmu = c.cmu ∧ (t.core g).sbu = c.sbu ∧ portSame c (t.core g) !sl)
     let a := c.r.getA (slice f.srca 0 4)
     let row := (List.range 64).map (fun i => s.byte (ownAddr s g (a + BitVec.ofNat 32 i)))
     let gather := fun (op : Nat) => (gatherOffs op c.sbu).map (fun o => s.byte (ownAddr s g (a + BitVec.ofNat 32 o)))
     (∀ sl : Bool, joins sl 0 (.cpwr g sl f m) [] ∧ joins sl 1 (.cpld g sl f m) row ∧ joins sl 5 (.cpwrs g sl f m) []) ∧
     joins false 8 (.mmac g f m) [] ∧ joins false 9 (.mmac8 g f m) [] ∧ joins false 10 (.mmv g f m) [] ∧ joins false 11 (.mmva g f m) [] ∧
     joins false 12 (.mrsq g f m) [] ∧ joins false 13 (.mchol g f m) [] ∧ joins false 14 (.mtrsv g f m) [] ∧ joins false 15 (.maclr g f m) [] ∧
     joins true 8 (.sdmap g f m) [] ∧ joins true 9 (.sscrb g f m) [] ∧ joins true 10 (.sdscr g f m) [] ∧ joins true 11 (.sginit g f m) [] ∧
     joins true 12 (.scrc g f m) [] ∧ joins true 13 (.scrcinit g f m) [] ∧ joins true 14 (.silv g f m) (gather 14) ∧
     joins true 15 (.sdilv g f m) (gather 15))

/-- R73, R186, R188, R191: QENQ at an ENTRY port appends the low half of its V register to a queue of the cluster that takes it; QDEQ at an
ENTRY port brings what the queue answers, and at a CONTROL port the status bytes; the bundle's other effects are those of its frame.
R73: a QENQ that stalls on a full queue goes on when the queue takes its entry, and its bundle commits; when the enqueue timeout has run
out and the queue still takes nothing, ENQ_TIMEOUT is taken with the QENQ's address. -/
def Obligations.QueueAccesses : Prop :=
  (∀ (s : State) (g : CoreId) (a : MemArgs) (m : Bundle) (lq : BitVec 10) (off : Nat),
     let q := queueOf (coreCluster g) lq
     let e : Entry := slice ((s.core g).r.getV a.d) 0 256
     (queueAccess s g (inLs m .a (.qenq a)) lq 0 → queueTakes s q e →
       ∃ t, exec (.qenq g .a a m) s = .next t ∧ BundleFrame (enqueue s (.core g) q e).2 g (inLs m .a (.qenq a)) t ∧
         queueGained s t q e ∧ baseMoved (s.core g).r a 32 (t.core g).r) ∧
     (queueAccess s g (inLs m .a (.qdeq a)) lq 0 → (dequeue s q).1.outc = .ok →
       ∃ t, exec (.qdeq g .a a m) s = .next t ∧ BundleFrame (dequeue s q).2 g (inLs m .a (.qdeq a)) t ∧
         (t.core g).r.getV a.d = BitVec.ofNat 512 (natOfBytes (dequeue s q).1.data)) ∧
     (queueAccess s g (inLs m .a (.qdeq a)) lq off → off ≠ 0 →
       ∃ t, exec (.qdeq g .a a m) s = .next t ∧ BundleFrame s g (inLs m .a (.qdeq a)) t ∧
         (t.core g).r.getV a.d = BitVec.ofNat 512 (natOfBytes (statusRead s (.core g) q)))) ∧
  (∀ (s : State) (g : CoreId) (a : MemArgs) (m : Bundle) (lq : BitVec 10) (h : Held),
     let q := queueOf (coreCluster g) lq
     let e : Entry := slice ((s.core g).r.getV a.d) 0 256
     let b := inLs m .a (.qenq a)
     let stalled := s.setCore g { s.core g with st := .stalled, held := some h }
     h.kind = .queueFull → h.bundle = b → h.got = [] → h.asked = [] → queueAccess s g b lq 0 →
     (queueTakes s q e →
       ∃ t, exec (.qenqStallRelease g) stalled = .next t ∧ BundleFrame (enqueue s (.core g) q e).2 g b t ∧ queueGained s t q e) ∧
     (enqExpired stalled g h = true → (enqueue s (.core g) q e).1 = .full →
       ∃ t, exec (.enqueueTimeout g) stalled = .next t ∧ entered stalled t g 8 (addrOf (s.core g).r a 32) ∧ t.slices = s.slices))

/-- R72, R77, R80, R81: an enabled interrupt that is chosen is entered from a bundle boundary or WAIT; WAIT ends on a chosen interrupt; the timer
becomes pending at its tick; a posted store's bad response closes its transaction and is kept once. -/
def Obligations.CoreEvents : Prop :=
  ∀ (s : State) (g : CoreId),
    let c := s.core g
    (∀ (code : Nat) (v : Word), coreOn s g = true → c.c.ie = true → c.held = none → c.haltReq = false → (c.st = .running ∨ c.st = .wait) →
      intChoice s g = some (code, v) → ∃ t, exec (.interruptEntry g) s = .next t ∧ entered s t g code v) ∧
    (coreOn s g = true → c.st = .wait → (intChoice s g).isSome = true → exec (.waitWake g) s = .next (s.setCore g { c with st := .running })) ∧
    (s.tick = c.c.timercmp → exec (.timerRaise g) s = .next (s.setCore g { c with c := { c.c with timerPend := true } })) ∧
    (∀ (i : Nat) (o : Outc), c.held = none → postedSlot s g = some i → o ≠ .ok →
      let n := clusterNode (coreCluster g)
      let old := sget { gen := 0, st := .free } (s.ni n).slots i
      ∃ t, exec (.postedStoreFault g o) s = .next t ∧ (t.core g).c.stfault = true ∧
        (c.c.stfault = false → (t.core g).c.stOutc = o.code) ∧ (c.c.stfault = true → t.core g = c) ∧
        sget { gen := 0, st := .free } (t.ni n).slots i = { old with gen := old.gen + 1, st := .free } ∧
        t = { s with cores := t.cores, nis := t.nis })

/-- R84, R85: CORE_CTL from the fabric: RUN = 1 starts a halted core at CORE_BOOTPC and P0, and is refused to a fenced one; RUN = 0 halts at the
bundle boundary; SRESET brings the registers to their reset values and keeps CORE_BOOTPC and memory. -/
def Obligations.CoreControl : Prop :=
  ∀ (s : State) (who : Initiator) (g : CoreId), regOpen s who (coreRegs g + 4) = true →
    let c := s.core g
    (coreFenced s g = false → c.st = .halted → exec (.coreRun who g) s =
      .next ((s.setCore g { c with st := .running, pc := c.c.bootpc &&& 0xFFF0, c := { c.c with priv := 0 } }).answerOnly .ok)) ∧
    (coreFenced s g = false → c.st ≠ .halted → exec (.coreRun who g) s = .next ((s.setCore g { c with haltReq := false }).answerOnly .ok)) ∧
    (coreFenced s g = true → exec (.coreRun who g) s = .next (s.answerOnly .notPermitted)) ∧
    (c.held = none → c.st ≠ .halted → exec (.coreHalt who g) s =
      .next ((s.setCore g { c with st := .halted, haltReq := false }).answerOnly .ok)) ∧
    (c.held ≠ none → c.st ≠ .halted → exec (.coreHalt who g) s = .next ((s.setCore g { c with haltReq := true }).answerOnly .ok)) ∧
    exec (.coreSreset who g) s =
      .next ((s.setCore g { Core.reset with c := { CoreCtl.reset with bootpc := c.c.bootpc } }).answerOnly .ok)

/-- R76, R77, R79: RTI, WAIT and FENCE at P2 take a privilege violation before any effect; their bundle changes no data register. -/
def Obligations.PrivilegeViolations : Prop :=
  ∀ (s : State) (g : CoreId) (m : Bundle), executes s g (inD m .nop) = true → (s.core g).c.priv = 2 →
    (∃ t, exec (.rti g m) s = .next t ∧ entered s t g 4 (opWord .rti) ∧ t.mem = s.mem) ∧
    (∃ t, exec (.wait g m) s = .next t ∧ entered s t g 4 (opWord .wait) ∧ t.mem = s.mem) ∧
    (∃ t, exec (.fence g m) s = .next t ∧ entered s t g 4 (opWord .fence) ∧ t.mem = s.mem)

/-- R91, R100, R102: the oldest operation in flight of a slot finishes: it leaves the queue, the unit takes its result, the dirty bit is set, and a
guard overflow or bad divisor is noted as a late report where LATEN asks for it.
R105, R107, R108: what MACLR, CPWR, CPWRS and MMAC give when they finish: MMAC adds, subtracts or writes the four-term products of A or its
Hermitian transpose and B or its, each part limited once to the guard range. -/
def Obligations.CoprocessorResults : Prop :=
  (∀ (s : State) (g : CoreId) (sl : Bool) (p : CpPend) (rest : List CpPend),
     let c := s.core g
     let fd := if sl then CmuFound.none else (cmuFinish c.cmu p).2
     s.asy.inj = [] → (c.port sl).bad = [] → c.held = none → (c.port sl).pend = p :: rest → (c.port sl).late.length < 4 →
       ∃ t, exec (.cpOperationFinish g sl) s = .next t ∧ ((t.core g).port sl).pend = rest ∧ ((t.core g).port sl).seq = (c.port sl).seq ∧
         (if sl then (t.core g).sbu = sbuFinish c.sbu p else (t.core g).cmu = (cmuFinish c.cmu p).1) ∧ portSame c (t.core g) !sl ∧
         (t.core g).c = { c.c with cpen := c.c.cpen ||| (if sl then 0x200 else 0x100) } ∧ (t.core g).r = c.r ∧ (t.core g).pc = c.pc ∧
         ((t.core g).port sl).late = (c.port sl).late ++
           (if c.c.cpen.getLsbD (if sl then 13 else 12) = true ∧ (fd.ovf || fd.divz) = true then
             [{ baddr := p.baddr, slot := sl, ovf := fd.ovf, divz := fd.divz, par := false, seq := p.seq }] else []) ∧
         t = { s with cores := t.cores }) ∧
  (∀ (c : Cmu) (p : CpPend),
     let d := p.f.dst.toNat
     let a := fun (i k : Nat) => if p.f.var.toNat.testBit 1 then (mxEl (c.getMx p.f.srca.toNat) k i).conj else mxEl (c.getMx p.f.srca.toNat) i k
     let b := fun (i k : Nat) => if p.f.var.toNat.testBit 0 then (mxEl (c.getMx p.f.srcb.toNat) k i).conj else mxEl (c.getMx p.f.srcb.toNat) i k
     let dot := fun (i k : Nat) => (((a i 0).mul (b 0 k)).add ((a i 1).mul (b 1 k))).add (((a i 2).mul (b 2 k)).add ((a i 3).mul (b 3 k)))
     let old := fun (e : Nat) => accEl (c.getMa d) e
     let new := fun (old x : Int) => if p.f.var.toNat / 4 = 0 then old + x else if p.f.var.toNat / 4 = 1 then old - x else x
     (p.op = 0 → (cmuFinish c p).1.getMx d = p.vsrc) ∧ (p.op = 15 → (cmuFinish c p).1.getMa d = 0) ∧
     (p.op = 5 → d = 1 → (cmuFinish c p).1.exp = slice p.ssrc 0 16) ∧
     (p.op = 8 → ∀ i < 4, ∀ k < 4,
       accEl ((cmuFinish c p).1.getMa d) (2 * (4 * i + k)) = (guard40 true (new (old (2 * (4 * i + k))) (dot i k).re)).1 ∧
       accEl ((cmuFinish c p).1.getMa d) (2 * (4 * i + k) + 1) = (guard40 true (new (old (2 * (4 * i + k) + 1)) (dot i k).im)).1))

/-! ## The block as a whole -/

/-- A step runs the command at the front of the queue on the state with the rest of the queue (the row's own rule; log 2). -/
def Obligations.StepRunsTheFrontCommand : Prop :=
  ∀ (s : State) (c : Instr), step (s.push c) = exec c s

/-- What reset leaves (R37, R84, R97, R114, R143, R179, R219, R220, R264, R276, R295, R417, R433, R435, R457, R459, R480, R481, R487): PORST_n low, no
core running, no queue enabled, no window, no ring, every counter 0, and the stated reset values of the register tables. -/
def Obligations.ResetValues : Prop :=
  let s := State.reset
  (s.mgc.porst = true ∧ s.mgc.step = 0 ∧ s.mgc.done = false ∧ s.mgc.fail = false ∧ s.mgc.loadpage = 0 ∧ s.hif.ready = false ∧ s.pending = []) ∧
    (∀ g, (s.core g).st = .halted ∧ (s.core g).c.bootpc = 0 ∧ (s.core g).loops.depth = 0 ∧ (s.core g).c.stfault = false) ∧
    (∀ gc, (s.clu gc).wpend = 0 ∧ (s.slice gc).coreen = 0 ∧ (s.slice gc).enqtmo = 0x100000 ∧ (s.slice gc).stealidle = 256 ∧
      (s.slice gc).histScale = 6 ∧ ∀ lq : BitVec 10, ((s.slice gc).queue lq).en = false ∧ ((s.slice gc).queue lq).recAff = 0xFF ∧
        (((s.slice gc).queue lq).cons = if 1020 ≤ lq.toNat then 1 else 0)) ∧
    (∀ e, (s.engine e).st = .disabled ∧ (s.engine e).qsel = queueOf (clusterOf (engRegion e) (slice (engSlot e) 0 2)) (BitVec.ofNat 10 (1020 + (engSlot e).toNat / 4))) ∧
    (∀ a, sget 0 s.tally a = 0 ∧ sget 0 s.shadow a = 0) ∧ (∀ a, s.byte a = 0) ∧
    (∀ r, (s.region r).st = .disabled) ∧ (∀ n : SourceId, (s.src n).en = true ∧ (s.src n).thresh = 4) ∧ s.hif.cto = 5 ∧ s.hif.cfglead = 100 ∧
    s.scv.rate = 10000 ∧ s.asy.log2n = 8 ∧ s.asy.injmask = 3 ∧ (∀ n, (s.pin n).func = 0 ∧ (s.pin n).safeen = true)

/-- Reset satisfies the invariant that steps keep. -/
def Obligations.ResetHasTheInvariant : Prop :=
 State.reset.Inv

/-- Every command completes, and every step keeps the invariant: from a state that satisfies it exec answers a next state with the same queue, for
every command and every operand, and so does step; no command faults or is refused (R29, R34, R35: what cannot be done completes with an
outcome). The invariant: memories in canonical form (R23; log 6), device time and tick (R327, R328), cores that the specification allows
(R47, R48, R51). -/
def Obligations.EveryCommandCompletes : Prop :=
  (∀ (c : Instr) (s : State), s.Inv → ∃ t, exec c s = .next t ∧ t.pending = s.pending ∧ t.Inv) ∧
    ∀ s : State, s.Inv → ∃ t, step s = .next t ∧ t.Inv

/-- R328: however the machine runs, the tick counter is floor(t × 0.491 52) mod 2^32 of device time. -/
def Obligations.TickIsDeviceTime : Prop :=
  ∀ (n : Nat) (s t : State), s.Inv → run n s = some t →
    t.tick = BitVec.ofNat 32 ((t.cmk.sec * 1000000000 * 65536 + t.cmk.ns * 65536 + t.cmk.frac) * 49152 / 100000 / 65536)

/-- R48, R51: however the machine runs, no core has a loop depth above 4, the reserved privilege, or a pc that is no bundle address, and no trap
register set would restore one. -/
def Obligations.CoresStayLegal : Prop :=
  ∀ (n : Nat) (s t : State) (g : CoreId), s.Inv → run n s = some t →
    (t.core g).loops.depth.toNat ≤ 4 ∧ (t.core g).t0.lsh.depth.toNat ≤ 4 ∧ (t.core g).t1.lsh.depth.toNat ≤ 4 ∧ (t.core g).c.priv ≠ 3 ∧
      (t.core g).pc.toNat % 16 = 0

/-- Reading memory after a write gives the bytes written, and every other byte as before (R13, R23).
R139 to R142, R407: START begins the initialisation of CM, whose bytes then read 0, unless a memory of the cluster is being initialised; the end
of an initialisation makes the memory ready, and the bundles that wait for it go on. -/
def Obligations.MemoryContents : Prop :=
  (∀ (s : State) (a b : Nat) (d : List Byte), s.memOk →
     (s.setBytes a d).memOk ∧ (s.setBytes a d).byte b = if a ≤ b ∧ b < a + d.length then d.getD (b - a) 0 else s.byte b) ∧
  (∀ (s : State) (who : Initiator) (gc : ClusterId) (m : InitMem),
     (regOpen s who (cluBase gc + 4) = true → initDone s gc = false → exec (.cmInitStart who gc) s = s.ends .ok) ∧
     (regOpen s who (cluBase gc + 4) = true → initDone s gc = true →
       ∃ t, exec (.cmInitStart who gc) s = .next t ∧ t.initOf (.cm gc) = .busy ∧ initDone t gc = false ∧
         (∀ m', m' ≠ .cm gc → t.initOf m' = s.initOf m') ∧
         (∀ a, t.byte a = if clusterBase gc ≤ a ∧ a < clusterBase gc + 0x100000 then 0 else s.byte a) ∧
         t = { s with inits := t.inits, mem := t.mem, par := t.par, edc := t.edc, resp := t.resp }) ∧
     ((∀ g ∈ initWaiters m, (s.core g).held = none) →
       exec (.memoryInitDone m) s = .next (if s.initOf m = .busy then s.setInit m .done else s)))

/-! ## Registers in general (R6 to R12, R29, R31, R37 to R39) -/

/-- R37, R38, R11: a read of a Tally counter's low word answers bits 31 to 0, copies the others to the shadow and clears the counter; the high
word answers the shadow; an event of the clearing cycle counts in the new interval; counting saturates. The
counters of the core, cluster, slice, budget and engine blocks and of the hub blocks are such counters (R85, R143, R179, R219, R220, R295, R349,
R376, R417, R433, R458, R481). -/
def Obligations.TallyCounters : Prop :=
  (∀ (s : State) (who : Initiator) (a : Nat), isCounter a →
    let c := sget 0 s.tally a
    (regOpen s who a = true → exec (.tallyCounterRead who (BitVec.ofNat 44 a)) s = .next
      ({ s with tally := sput 0 s.tally a 0, shadow := sput 0 s.shadow a (slice c 32 16) }.answer
        { outc := .ok, flags := 0, data := bytesOfNat 4 (c.toNat % 2 ^ 32), poison := [] })) ∧
    (regOpen s who (a + 4) = true → exec (.tallyCounterRead who (BitVec.ofNat 44 (a + 4))) s = .next
      (s.answer { outc := .ok, flags := 0, data := bytesOfNat 4 (sget 0 s.shadow a).toNat, poison := [] })) ∧
    (∀ ev : BitVec 48, regOpen s who a = true → exec (.rcFieldRead who (BitVec.ofNat 44 a) ev) s = .next
      ({ s with tally := sput 0 s.tally a ev, shadow := sput 0 s.shadow a (slice c 32 16) }.answer
        { outc := .ok, flags := 0, data := bytesOfNat 4 (c.toNat % 2 ^ 32), poison := [] })) ∧
    (∀ n : Nat, sget 0 (tallyAdd s a n).tally a = BitVec.ofNat 48 (min (c.toNat + n) (2 ^ 48 - 1))) ∧ sget 0 State.reset.tally a = 0) ∧
  (∀ (g : CoreId), ∀ i < 5, isCounter (coreRegs g + 0x100 + 8 * i)) ∧ (∀ (gc : ClusterId), ∀ i < 5, isCounter (cluBase gc + 0x200 + 8 * i)) ∧
  (∀ (gc : ClusterId), ∀ i < 14, isCounter (schBase gc + 0x200 + 8 * i)) ∧ (∀ (gc : ClusterId), ∀ i < 16, isCounter (schBase gc + 0x600 + 8 * i)) ∧
  (∀ (e : EngId), ∀ i < 11, isCounter (engBase e + 0x100 + 8 * i)) ∧ (∀ (r : RegionId), ∀ i < 2, isCounter (budBase r + 0x8100 + 8 * i)) ∧
  (∀ i < 8, isCounter (hubBlk 1 + 0xF0000 + 8 * i)) ∧ (∀ i < 6, isCounter (hubBlk 3 + 0x2000 + 8 * i)) ∧
  (∀ i < 12, isCounter (hubBlk 4 + 0x200 + 8 * i)) ∧ (∀ i < 11, isCounter (hubBlk 5 + 0x100 + 8 * i)) ∧
  (∀ i < 11, isCounter (hubBlk 6 + 0x100 + 8 * i)) ∧ (∀ i < 6, isCounter (hubBlk 7 + 0x100 + 8 * i)) ∧
  (∀ i < 4, isCounter (hubBlk 8 + 0x100 + 8 * i))

/-- R7, R9, R12, R29, R31: a register write acts through its block; one of another width or alignment changes no register and completes
NOT_PERMITTED; an offset without register completes ROUTE_FAULT; one by a task at P2 completes NOT_PERMITTED. What a
write leaves in the registers that software writes as plain fields, block by block (R84, R97, R219, R480, R487). -/
def Obligations.RegisterAccessRules : Prop :=
  (∀ (s : State) (who : Initiator) (pa : Pa) (size : Nat) (v : Word), isRegPa pa = true → loadWin s pa = none →
    let at0 : Pa := BitVec.ofNat 44 (pa.toNat / 4 * 4)
    let res := regWrite false s (place at0) v
    (regOpen s who pa.toNat = true →
      (res = none → exec (.registerWrite who pa size v) s = s.ends .routeFault) ∧
      (res ≠ none → (size ≠ 4 ∨ pa.toNat % 4 ≠ 0) → exec (.registerWrite who pa size v) s = s.ends .notPermitted) ∧
      (∀ o t, res = some (o, t) → size = 4 → pa.toNat % 4 = 0 → exec (.registerWrite who pa size v) s = t.ends o)) ∧
    (∀ (g : CoreId) (n : NodeId) (back : List (Elem × Nat)), who = .core g → (s.core g).c.priv = 2 →
      routeCheck s (iniNode who) pa = (some n, s) → inReset s n = false → pathTo s (iniNode who) n (agentPa pa) = .reached n back →
      nodeGate s n (agentPa pa) = .pass → exec (.registerWrite who pa size v) s = s.ends .notPermitted)) ∧
  ∀ (s : State) (cm : Bool) (gc : ClusterId) (g : CoreId) (v : Word),
    let x := s.slice gc
    let c := s.core g
    (regWrite cm s (.sch gc 0) v = some (.ok, s.setSlice gc { x with coreen := slice v 0 8, stealen := v.getLsbD 8, giveen := v.getLsbD 9 })) ∧
    (regWrite cm s (.sch gc 4) v = some (.ok, s.setSlice gc { x with enqtmo := slice v 0 24 })) ∧
    (regWrite cm s (.sch gc 0x14) v = some (.ok, s.setSlice gc { x with qidx := slice v 0 10 })) ∧
    (∀ n < 16, regWrite cm s (.sch gc (0x40 + 4 * n)) v = some (.ok, s.setSlice gc { x with cls := sput 0 x.cls n (slice v 0 2) })) ∧
    ((x.queue x.qidx).en = true → regWrite cm s (.sch gc 0x1C) v = some (.notPermitted, s)) ∧
    ((x.queue x.qidx).en = false → regWrite cm s (.sch gc 0x1C) v =
      some (.ok, s.setSlice gc (x.setQueue x.qidx { x.queue x.qidx with base := slice v 5 15 }))) ∧
    (c.st ≠ .halted → regWrite cm s (.coreReg g 0xC) v = some (.notPermitted, s)) ∧
    (c.st = .halted → regWrite cm s (.coreReg g 0xC) v = some (.ok, s.setCore g { c with c := { c.c with bootpc := slice v 0 16 } })) ∧
    (∀ n < 8, c.st = .halted → regWrite cm s (.coreReg g (0x20 + 4 * n)) v =
      some (.ok, s.setCore g { c with c := { c.c with farwin := sput 0 c.c.farwin n (slice v 0 16) } })) ∧
    (regWrite cm s (.hubReg 0 0x18) v = some (.ok, { s with mgc := { s.mgc with loadpage := slice v 0 6 } })) ∧
    (regWrite cm s (.hubReg 11 8) v = some (.ok, { s with gpo := { s.gpo with dout := slice v 0 16 } })) ∧
    (regWrite cm s (.coreReg g 8) v = some (.ok, if v.getLsbD 16 then s.setCore g { c with c := { c.c with stfault := false } } else s))

/-! ## Cluster memory (R137 to R143) -/

/-- R137: CLU_WBASEn stages a base and sets PEND bit n; CLU_WLENn sets the effective length and, with PEND set, the effective base, and clears the
bit; a reserved length changes nothing; CLU_WBASEn reads the effective base. -/
def Obligations.ClusterWindows : Prop :=
  ∀ (s : State) (who : Initiator) (gc : ClusterId) (n : BitVec 4) (v : Word),
    let c := s.clu gc
    let i := n.toNat
    (regOpen s who (cluBase gc + 0x100 + 8 * i) = true →
      ∃ t : State, exec (.cluWbaseWrite who gc n v) s = t.ends .ok ∧ t = s.setClu gc (t.clu gc) ∧
        sget 0 (t.clu gc).wstage i = slice v 6 14 ∧ (t.clu gc).wbase = c.wbase ∧ (t.clu gc).wlen = c.wlen ∧
        (∀ j < 16, sget 0 (t.clu gc).wstage j = if j = i then slice v 6 14 else sget 0 c.wstage j) ∧
        ∀ j < 16, (t.clu gc).wpend.getLsbD j = (decide (j = i) || c.wpend.getLsbD j)) ∧
    (regOpen s who (cluBase gc + 0x104 + 8 * i) = true →
      (1024 < bits v.toNat 0 11 → exec (.cluWlenWrite who gc n v) s = s.ends .ok) ∧
      (bits v.toNat 0 11 ≤ 1024 →
        ∃ t : State, exec (.cluWlenWrite who gc n v) s = t.ends .ok ∧ t = s.setClu gc (t.clu gc) ∧ (t.clu gc).wstage = c.wstage ∧
          (∀ j < 16, sget 0 (t.clu gc).wlen j = if j = i then slice v 0 11 else sget 0 c.wlen j) ∧
          (∀ j < 16, sget 0 (t.clu gc).wbase j = if j = i ∧ c.wpend.getLsbD i = true then sget 0 c.wstage i else sget 0 c.wbase j) ∧
          ∀ j < 16, (t.clu gc).wpend.getLsbD j = (!decide (j = i) && c.wpend.getLsbD j))) ∧
    regRead s (.clu gc (0x100 + 8 * i)) = some ((sget 0 c.wbase i).setWidth 32 <<< 6, s)

/-! ## Reset, boot and the board's pins (R450, R459 to R468, R504) -/

/-- R20, R450, R459 to R461, R464, R504: what PORST_n, PERST_n, an overcurrent of the always-on regulator and a sensor at 125 °C do.
R462, R463, R465 to R468: the boot steps in order, what steps 4, 5, 6, 8 and 10 leave, the images of step 7, and where the sequence stops; a
failed step sets FAIL and CODE, drives ALERT_n and reports source 0x3E0. With its magic in the load mailbox, the image that stands in hub memory is checked; one that passes
starts the firmware at ENTRY with the mailbox cleared, one that fails stops the sequence with its code.
With no command waiting a step is one root cycle: nothing while PORST_n is low (R459); the cycle number alone until step 3 has locked the
root (R462, R507); and the rest of the package's clocks then (log 2). -/
def Obligations.ResetAndBoot : Prop :=
  (∀ (s : State) (role : Bool) (pkg : PkgId) (src : BitVec 2),
     let kept := { State.reset with hif := { Hif.reset with perst := s.hif.perst }, scv := { Scv.reset with store := s.scv.store },
                                    hostMem := s.hostMem, fresh := s.fresh, pending := s.pending }
     let bad := role != decide (pkg = 0)
     let m := s.mgc
     exec (.porstNAssert role pkg src) s = .next kept ∧
     (m.porst = true → exec (.porstNRelease role pkg src) s = .next
       { s with cycle := 0, cas := { s.cas with straperr := bad },
                mgc := { m with porst := false, step := 1, since := 0, straperr := bad, role := role, pkgid := pkg, src := src } }) ∧
     (m.porst = false → exec .aonOvercurrent s = .next
       { kept with cas := { kept.cas with straperr := m.straperr },
                   mgc := { Mgc.reset with porst := false, step := 1, cause := 1, straperr := m.straperr, src := m.src, role := m.role,
                                           pkgid := m.pkgid } }) ∧
     (s.hif.ready = false → exec .perstNAssert s = .next { s with hif := { s.hif with perst := true, linkUp := false } }) ∧
     (s.hif.ready = true →
       exec .perstNAssert s = .next { flr s 0 with hif := { (flr s 0).hif with perst := true, linkUp := false } }) ∧
     (m.porst = false → 4 ≤ m.step.toNat → s.lmp.pkg ≠ .deep →
       ∃ t, exec .perstNRelease s = .next t ∧ t.hif.perst = false ∧ t.hif.linkUp = true ∧
         t = { s with fresh := t.fresh, hif := { s.hif with perst := false, linkUp := true, rate := t.hif.rate, width := t.hif.width } }) ∧
     (∀ (die sensor : BitVec 3) (temp : BitVec 16), m.porst = false → 500 ≤ temp.toInt →
       ((die.toNat < 4 ∧ sensor.toNat < 4) ∨ (die.toNat = 4 ∧ sensor.toNat < 2)) →
       exec (.thermtrip die sensor temp) s = .next (report { s with mgc := { m with thermtrip := true } } 0x3E3
         (BitVec.ofNat 32 (temp.toNat + 2 ^ 16 * sensor.toNat + 2 ^ 19 * die.toNat))))) ∧
  ((∀ s : State, booting s = true →
     let m := s.mgc
     let next := { s with mgc := { m with step := m.step + 1, retries := 0, since := s.cycle } }
     let failed := fun (c : BitVec 4) => report { s with mgc := { m with fail := true, code := c, alert := true } } 0x3E0
       (BitVec.ofNat 32 (m.step.toNat + 16 * c.toNat))
     (m.step = 1 ∨ m.step = 2 ∨ m.step = 9 → exec (.bootStepComplete .ready) s = .next next) ∧
     (m.step = 3 → s.hif.perst = true → exec (.bootStepComplete .ready) s = .next next) ∧
     (∀ f : FuseMap, m.step = 4 →
       ∃ t, exec (.bootStepComplete (.fuses f)) s = .next t ∧ t.mgc.step = 5 ∧ t.mgc.minSvn = f.minSvn ∧ t.mgc.keyHash = f.keyHash ∧
         t.lmp.fusedOff = f.fusedOff ∧ t.lmp.aonleak = f.aonleak ∧ (∀ x ∈ allMems, t.initOf x = .busy) ∧ t.mem = s.mem) ∧
     (m.step = 5 → ∃ t, exec (.bootStepComplete .ready) s = .next t ∧ t.mgc.step = 6 ∧ (∀ x ∈ allMems, t.ready x = true)) ∧
     (m.step = 6 → m.src ≠ 3 → ¬(m.src = 2 ∧ (m.straperr = true ∨ m.role = true)) → exec (.bootStepComplete .ready) s = .next next) ∧
     (m.step = 6 → m.src = 3 ∨ (m.src = 2 ∧ m.straperr = true) →
       ∃ t, exec (.bootStepComplete .ready) s = .next t ∧ t.mgc.step = 7 ∧ t.mgc.fail = true ∧ t.mgc.code = 7 ∧ t.mgc.alert = true) ∧
     (∀ img : List Byte, m.step = 7 → m.src = 0 →
       let d := imgBytes img
       imgCheck (imgPlace s d).mgc d = none →
       ∃ t, exec (.bootStepComplete (.flash (some img) none)) s = .next t ∧ t.mgc.step = 8 ∧ t.mgc.mcRunning = true ∧
         t.mgc.mcEntry = BitVec.ofNat 32 (natOfBytes ((d.drop 12).take 4)) ∧ t.mem = (imgPlace s d).mem) ∧
     (m.step = 7 → m.src = 0 → exec (.bootStepComplete (.flash none none)) s = .next (failed 9)) ∧
     (m.step = 8 → exec (.bootStepComplete .ready) s = .next (scvReplay next)) ∧
     (m.step = 10 → exec (.bootStepComplete .ready) s = .next
       { s with hif := { s.hif with ready := true }, mgc := { m with done := true, boottime := BitVec.ofNat 32 (usBetween 0 s.cycle) } }) ∧
     (m.step = 4 → exec (.bootStepComplete (.fail 4)) s = .next (failed 4)) ∧
     (∀ us, bootLimit m = some us → m.since + usCycles us ≤ s.cycle →
       (m.step.toNat ≤ 3 → m.retries < 3 → exec .bootStepTimeout s = .next
         (tallyAdd { s with mgc := { m with retries := m.retries + 1, since := s.cycle } } (hubBlk 6 + 0x120) 1)) ∧
       (¬(m.step.toNat ≤ 3 ∧ m.retries < 3) → exec .bootStepTimeout s = .next (failed (bootCode m.step.toNat)))) ∧
     (∀ us, bootLimit m = some us → s.cycle < m.since + usCycles us → exec .bootStepTimeout s = .next s)) ∧
   ∀ s : State, booting s = true → s.mgc.step = 7 → s.mgc.src ≠ 0 →
     let box := bulkRead s (hubBase + 0x1FFFFC0) 64 0
     let head := bulkRead box.2 hubBase 256 0
     natOfBytes (box.1.data.take 4) = 0x4C444D42 → imgHeaderOk head.1.data = true →
     let body := bulkRead head.2 (hubBase + 256) (imgBody head.1.data) 0
     let d := head.1.data ++ body.1.data
     (imgCheck body.2.mgc d = none →
       ∃ t, exec .loadMailboxDetect s = .next t ∧ t.mgc.step = 8 ∧ t.mgc.mcRunning = true ∧
         t.mgc.mcEntry = BitVec.ofNat 32 (natOfBytes ((d.drop 12).take 4)) ∧
         ((s.mc 2).arm = false → ∀ i < 64, t.byte (hubBase + 0x1FFFFC0 + i) = 0)) ∧
     (∀ c, imgCheck body.2.mgc d = some c →
       ∃ t, exec .loadMailboxDetect s = .next t ∧ t.mgc.step = 7 ∧ t.mgc.fail = true ∧ t.mgc.code = c ∧ t.mgc.alert = true ∧
         t.mgc.mcRunning = s.mgc.mcRunning)) ∧
  (∀ s : State, s.pending = [] →
     (s.mgc.porst = true → step s = .next s) ∧
     (s.mgc.porst = false → s.mgc.done = false → s.mgc.step.toNat < 4 → step s = .next { s with cycle := s.cycle + 1 }))

/-! ## Engines (R148 to R163, R177 to R180) -/

/-- R154, R177 to R180: ACC_CTL.EN takes an engine from DISABLED to IDLE and back, and lets a job that runs go on; SRESET brings an engine without a
job to its reset registers and marks a running job CANCELLED; ACC_QSEL is written while DISABLED, with a queue of the engine's region.
R151, R153, R210: an idle engine takes a job entry into SETUP and discards another kind; the descriptor that agrees with its entry lets it read
the parameter block; valid parameters and a budget take it to RUN; a borrow is granted from the reserve or ends the job with STEP 6. -/
def Obligations.EngineRegistersAndStart : Prop :=
  (∀ (s : State) (who : Initiator) (e : EngId) (v : Word),
     let x := s.engine e
     let q : QueueId := slice v 0 16
     let sets := fun (y : Engine) => (s.setEngine e y).ends .ok
     (regOpen s who (engBase e + 4) = true →
       exec (.engineEnable who e) s = sets { x with en := true, st := if x.st = .disabled then .idle else x.st } ∧
       exec (.engineDisable who e) s = sets { x with en := false, st := if x.st = .idle then .disabled else x.st } ∧
       (x.job = none → exec (.engineSreset who e) s = sets (Engine.reset e.toNat)) ∧
       (∀ j, x.job = some j → x.st ≠ .complete → j.abort = none →
         exec (.engineSreset who e) s = sets { x with rst := true, job := some { j with abort := some .cancelled, abortAt := s.cycle } })) ∧
     (regOpen s who (engBase e + 0xC) = true →
       (x.st = .disabled → clusterRegion (queueCluster q) = engRegion e → exec (.accQselWrite who e v) s = sets { x with qsel := q }) ∧
       (x.st ≠ .disabled ∨ clusterRegion (queueCluster q) ≠ engRegion e →
         exec (.accQselWrite who e v) s = s.ends .notPermitted))) ∧
  (∀ (s : State) (e : EngId),
     let x := s.engine e
     (∀ h t, engTakes s e = true → lowerTakes s e = false → takeFrom s x.qsel = (some h, t) →
       (eKind h.e ≠ 2 → exec (.jobDequeue e) s = .next (tallyAdd t (engBase e + 0x118) 1)) ∧
       (eKind h.e = 2 → extentCheck (jobDesc (newJob h.e) % 2 ^ 44) 64 = none → jobDesc (newJob h.e) % 64 = 0 →
         exec (.jobDequeue e) s = .next (t.setEngine e { t.engine e with st := .setup, curtag := slice h.e 128 32, job := some (newJob h.e) }))) ∧
     (∀ j, x.st = .setup → x.job = some j → j.abort = none →
       (∀ a t, j.wait = .descriptor → accRead s (.engine e) (jobDesc j) 64 (jobAct j) = .done a t →
         let d : Block64 := BitVec.ofNat 512 (natOfBytes a.data)
         (a.outc.good = false → exec (.jobSetupReadResponse e none) s = .next (finishJob t e a.outc 1)) ∧
         let u := t.setEngine e { t.engine e with job := some { j with desc := d, hasDesc := true, flags := j.flags ||| a.flags, wait := .params } }
         (a.outc.good = true → descExtents d = none → descAgrees (engType e) j.entry d = true →
           exec (.jobSetupReadResponse e none) s = .next u) ∧
         (a.outc.good = true → descExtents d = none → descAgrees (engType e) j.entry d = false →
           exec (.jobSetupReadResponse e none) s = .next (finishJob u e .badDescriptor 2)) ∧
         (∀ o, a.outc.good = true → descExtents d = some o → exec (.jobSetupReadResponse e none) s = .next (finishJob u e o 2))) ∧
       (let pa := dField j.desc 0x28 8
        let head := min (dField j.desc 0x3C 2) (headLen (engType e))
        let fn := bits j.desc.toNat 4 4
        ∀ a t, j.wait = .params → accRead s (.engine e) pa head (jobAct j) = .done a t →
         (a.outc.good = false → exec (.jobSetupReadResponse e none) s = .next (finishJob t e a.outc 3)) ∧
         (∀ b u, a.outc.good = true → b.outc.good = true →
           accRead t (.engine e) (pa + head) (min (dField j.desc 0x3C 2) (blockLen (engType e) fn a.data) - head) (jobAct j) = .done b u →
           let par := a.data ++ b.data
           let need := needLens (engType e) fn par
           let j1 := { j with params := par, flags := j.flags ||| (a.flags ||| b.flags), wait := .borrow }
           let good := blockLen (engType e) fn par ≤ par.length ∧ paramOk (engType e) fn par = true ∧ need.1 ≤ dField j.desc 0x18 4 ∧
             need.2.1 ≤ dField j.desc 0x1C 4 ∧ need.2.2 ≤ dField j.desc 0x38 4
           (¬good → exec (.jobSetupReadResponse e none) s =
             .next (finishJob (u.setEngine e { u.engine e with job := some j1 }) e .badDescriptor 4)) ∧
           (good → jobHasDl j = true → (u.tick - slice j.entry 32 32).toNat < 2 ^ 31 → exec (.jobSetupReadResponse e none) s =
             .next (finishJob (u.setEngine e { u.engine e with job := some j1 }) e .deadlineMissed 5)) ∧
           (good → jobHasDl j = false → ((u.bud (engRegion e)).act (jobAct j)).en = false → exec (.jobSetupReadResponse e none) s =
             .next (u.setEngine e { u.engine e with st := .run, job := some { j1 with ran := true } })))) ∧
       (∀ o p, j.wait = .params ∨ j.wait = .descriptor → p = some o → o.good = false →
         exec (.jobSetupReadResponse e p) s = .next (finishJob s e o (if j.wait = .params then 3 else 1))) ∧
       (j.wait = .borrow →
         let b := s.bud (engRegion e)
         let y := b.act (jobAct j)
         let c := engType e
         let rsv := sget 0 b.rsvJobs c
         let n := sget 0 y.jobsBorrowed c
         let grant := y.borrow = true ∧ n.toNat < bits y.cur.bmax.toNat 16 16 ∧ b.rsvEn = true ∧ rsv ≠ 0
         (grant → ∃ t, exec (.jobBorrowAnswer e) s = .next t ∧ t.engine e = { x with st := .run, job := some { j with ran := true } } ∧
           sget 0 (t.bud (engRegion e)).rsvJobs c = rsv - 1 ∧ sget 0 ((t.bud (engRegion e)).act (jobAct j)).jobsBorrowed c = n + 1) ∧
         (¬grant → exec (.jobBorrowAnswer e) s = .next (finishJob s e .budgetExhausted 6)))))

/-- R155, R158, R162, R179: the end of a job: its outcome, STEP and tick stand in the engine, ACC_LASTERR holds an outcome other than OK, the
outcome's counter counts and, where a record is formed, so does ACC_TAL_JOBS.
R154, R155, R157, R158, R163, R168: what ends a job: its computation, its write-back, a failed access, an internal error; a deadline marks it, and
the abort ends it; the record enters the completion queue and frees the engine. -/
def Obligations.JobOutcomes : Prop :=
  (∀ (s : State) (e : EngId) (o : Outc) (step : BitVec 4) (j : Job), (s.engine e).job = some j →
     let x := s.engine e
     let t := finishJob s e o step
     let o1 := if o = .ok ∧ j.flags ≠ 0 then .okFlagged else o
     let j1 := { j with outc := o1, step := if o1.good then 0 else step, tend := s.tick, abort := none }
     t.engine e = (if o1.good then { x with st := .complete, job := some j1 }
       else { x with st := .complete, job := some j1, errOutc := o1.code, errStep := step, etag := eTag j.entry }) ∧
     (∀ e' : EngId, e' ≠ e → t.engine e' = s.engine e') ∧ t.mem = s.mem ∧ t.slices = s.slices ∧
     (let plus1 := fun (a : Nat) => BitVec.ofNat 48 (min ((sget 0 s.tally a).toNat + 1) (2 ^ 48 - 1))
      sget 0 t.tally (engBase e + outcTal o1) = plus1 (engBase e + outcTal o1) ∧
       sget 0 t.tally (engBase e + 0x100) = (if eNoCompl j.entry then sget 0 s.tally (engBase e + 0x100) else plus1 (engBase e + 0x100))) ∧
     (∀ a, a ≠ engBase e + outcTal o1 → a ≠ engBase e + 0x100 → a ≠ asyBase + 0x118 → sget 0 t.tally a = sget 0 s.tally a)) ∧
  (∀ (s : State) (e : EngId) (j : Job), (s.engine e).job = some j →
     let x := s.engine e
     let b := j.params
     let act := jobAct j
     let fn := bits j.desc.toNat 4 4
     (∀ a t, x.st = .run → j.abort = none → engClk s e = true → engType e ≠ 1 →
       accReads s (.engine e) act (inputExtents (engType e) fn j.desc b) = .done a t →
       (a.outc.good = false → exec (.jobRunDone e) s = .next (finishJob t e a.outc 7)) ∧
       (a.outc.good = true →
         let out := compute t.fresh (engType e) fn b a.data []
         let t1 := { t with fresh := t.fresh + 1 }
         let u := engReport (t1.setEngine e { t.engine e with job := some { j with flags := j.flags ||| a.flags } }) e false
         (out.fail = true → exec (.jobRunDone e) s = .next (finishJob u e .engineError 10)) ∧
         (∀ k w, out.fail = false → out.aux = [] → out.wb = none →
           accStores u (.engine e) act (out.dst.map (fun p => (dField j.desc 0x20 8 + p.1, p.2))) = (some (none, k), w) →
           exec (.jobRunDone e) s = .next (finishJob (tallyAdd (w.setEngine e { w.engine e with job := (w.engine e).job.map (fun z =>
             { z with outlen := BitVec.ofNat 32 k, result := BitVec.ofNat 32 out.result }) }) (engBase e + 0x140) out.iters) e .ok 0)))) ∧
     (∀ a t, x.st = .writeback → j.abort = none → accStore s (.engine e) (dField j.desc 0x30 8) j.wb act = .done a t →
       (a.outc.good = false → exec (.jobWritebackDone e none) s = .next (finishJob t e a.outc 8)) ∧
       (a.outc.good = true → exec (.jobWritebackDone e none) s = .next (finishJob (t.setEngine e
         { t.engine e with job := (t.engine e).job.map (fun z => { z with result := z.result ||| 0x80 }) }) e .ok 0))) ∧
     (∀ (w : Bool) (o : Outc), o.good = false → x.st = .run → j.abort = none →
       exec (.jobAccessError e w o) s = .next (finishJob s e o (if w then 8 else 7))) ∧
     (x.st = .run → j.abort = none → exec (.jobInternalError e) s = .next (engReport (finishJob s e .engineError 10) e true)) ∧
     ((x.st = .setup ∨ x.st = .run ∨ x.st = .writeback) → j.abort = none → j.hasDesc = true → j.desc.getLsbD 8 = false →
       (s.tick - slice j.entry 32 32).toNat < 2 ^ 31 →
       exec (.jobDeadline e) s = .next (s.setEngine e { x with job := some { j with abort := some .deadlineMissed, abortAt := s.cycle } })) ∧
     ((x.st = .setup ∨ x.st = .run) →
       (j.abort = some .deadlineMissed → exec (.jobAbortComplete e) s = .next (finishJob s e .deadlineMissed 5)) ∧
       (j.abort = some .cancelled → exec (.jobAbortComplete e) s = .next (finishJob s e .cancelled 0))) ∧
     (x.st = .complete → (j.hasDesc = false ∨ j.desc.getLsbD 10 = false ∨ j.wbDone = true) →
       let freed := if x.rst then Engine.reset e.toNat else { x with job := none, st := if x.en then .idle else .disabled }
       (eNoCompl j.entry = true → ∃ t, exec (.jobRecordEnqueue e none) s = .next t ∧ t.engine e = freed ∧ t.slices = s.slices) ∧
       (eNoCompl j.entry = false →
         (queueWay (s.setEngine e { x with job := some { j with wbDone := true } }) (engNode e) (eCqid j.entry)).1 = .pass →
         queueTakes s (eCqid j.entry) (jobRecord e j) →
         ∃ t, exec (.jobRecordEnqueue e none) s = .next t ∧ t.engine e = freed ∧ queueGained s t (eCqid j.entry) (jobRecord e j))))

/-! ## Hardware queues (R181 to R193, R200 to R204) -/

/-- R186, R188, R189, R191 to R193: an enqueue appends an entry that passes the checks, which are made in R186's order; a full queue takes none; a
dequeue answers the head or 32 zero bytes; a status read answers the status bytes and changes nothing. -/
def Obligations.QueueAccess : Prop :=
  ∀ (s : State) (src : Initiator) (q : QueueId) (e : Entry),
    let gc := queueCluster q
    let x := (s.slice gc).queue (queueLocal q)
    let f := enqFrom src q
    let refused := fun (o : Outc) => (tallyAdd s (schBase gc + 0x218) 1).ends o
    (∀ g, f ≠ .core g) → f ≠ .cascade → (queueWay s (iniNode src) q).1 = .pass →
    (queueTakes s q e → ∃ t, exec (.queueEnqueue src q e) s = .next t ∧ queueGained s t q e ∧ t.resp = { outc := .ok, flags := 0, data := [] } ∧
      t = { s with slices := t.slices, tally := t.tally, resp := t.resp } ∧ ∀ a, a ≠ qtalKey q 0x400 → sget 0 t.tally a = sget 0 s.tally a) ∧
    (x.en = false → exec (.queueEnqueue src q e) s = refused .notPermitted) ∧
    (x.en = true → x.actchk = true → eAct e ≠ x.act → exec (.queueEnqueue src q e) s = refused .notPermitted) ∧
    (x.en = true → ¬(x.actchk = true ∧ eAct e ≠ x.act) → badEntry x.cons e = true → exec (.queueEnqueue src q e) s = refused .badDescriptor) ∧
    (x.en = true → ¬(x.actchk = true ∧ eAct e ≠ x.act) → badEntry x.cons e = false → queueFull x = true →
      exec (.queueEnqueue src q e) s = .next (tallyAdd s (schBase gc + 0x210) 1)) ∧
    (x.en = false ∨ x.cons ≠ 2 → exec (.queueDequeue src q) s = s.ends .notPermitted) ∧
    (x.en = true → x.cons = 2 → x.ents = [] →
      exec (.queueDequeue src q) s = .next (s.answer { outc := .ok, flags := 0, data := List.replicate 32 0, poison := [] })) ∧
    (∀ h rest, x.en = true → x.cons = 2 → x.typ = 0 → x.ents = h :: rest → h.dead = false → h.bad = false → (∀ y ∈ rest, h.seq < y.seq) →
      ∃ t, exec (.queueDequeue src q) s = .next t ∧ t.resp = { outc := .ok, flags := 0, data := bytesOfNat 32 h.e.toNat } ∧
        (t.slice gc).queue (queueLocal q) = { x with ents := rest } ∧ t = { s with slices := t.slices, tally := t.tally, resp := t.resp }) ∧
    exec (.queueStatusRead src q) s = .next (s.answer { outc := .ok, flags := 0, data := statusRead s .fabric q, poison := [] })

/-- R184: SCH_QCFG enables a queue whose capacity is 1 to 4 096 and whose store lies in CM, disables an empty one, and is refused otherwise.
R190, R200 to R203: END frees the core of its running task and, unless the task forms none, places its record in the buffer; an END of a core
without a task is counted; CANCEL removes a queued entry with a CANCELLED record; one that finds nothing is counted as a miss. -/
def Obligations.QueueConfigurationAndEnd : Prop :=
  (∀ (s : State) (who : Initiator) (gc : ClusterId) (v : Word), regOpen s who (schBase gc + 0x18) = true →
     let x := s.slice gc
     let q := x.queue x.qidx
     let set := fun (en : Bool) => { q with
       en := en, typ := if (slice v 1 2 : BitVec 2) = 3 then q.typ else slice v 1 2, cons := if (slice v 3 2 : BitVec 2) = 3 then q.cons else slice v 3 2,
       qprio := slice v 5 3, actchk := v.getLsbD 8, remote := v.getLsbD 9, act := slice v 16 9 }
     let fits := 1 ≤ q.cap.toNat ∧ q.cap.toNat ≤ 4096 ∧ q.base.toNat * 32 + q.cap.toNat * 32 ≤ 0x100000
     (q.en = false → fits → exec (.queueEnable who gc v) s = .next ((s.setSlice gc (x.setQueue x.qidx (set true))).answerOnly .ok)) ∧
     (q.en = false → ¬fits → exec (.queueEnable who gc v) s = s.ends .notPermitted) ∧
     (q.en = true → set true ≠ q → exec (.queueEnable who gc v) s = s.ends .notPermitted ∧
       exec (.queueDisable who gc v) s = s.ends .notPermitted) ∧
     (q.en = true → set true = q → q.ents = [] →
       exec (.queueDisable who gc v) s = .next ((s.setSlice gc (x.setQueue x.qidx { q with en := false })).answerOnly .ok)) ∧
     (q.en = true → q.ents ≠ [] → exec (.queueDisable who gc v) s = s.ends .notPermitted)) ∧
  ((∀ (s : State) (g : CoreId) (lq : BitVec 10) (result : Word) (t : Task),
     let gc := coreCluster g
     let k := coreIndex g
     let x := s.slice gc
     let y := x.score k
     (y.st = .free → exec (.endTask g lq result) s = .next ((tallyAdd s (schBase gc + 0x258) 1).answerOnly .ok)) ∧
     (y.st = .running → y.cur = some t → t.stolen = false → eNoCompl t.raw = true ∨ (x.recbuf.length < 16 ∧ x.waitRecs = []) →
       ∃ u, exec (.endTask g lq result) s = .next u ∧
         (u.slice gc).recbuf = x.recbuf ++ (taskRecord s t (if t.missed then .deadlineMissed else .ok) result).toList ∧
         (u.slice gc).queues = x.queues ∧
         (y.next = none → ((u.slice gc).score k).st = .free ∧ ((u.slice gc).score k).cur = none) ∧
         (∀ n, y.next = some n → ((u.slice gc).score k).st = .bound ∧ ((u.slice gc).score k).cur = some n ∧ (u.core g).c.tdesc = n.raw ∧
           ((u.slice gc).score k).dispatch = some (dispatchTval n y.resume false))) ∧
     (y.st = .running → y.cur = some t → eNoCompl t.raw = false → 16 ≤ x.recbuf.length → exec (.endTask g lq result) s = .next s)) ∧
   (∀ (s : State) (src : Initiator) (q : QueueId) (tag : Word),
     let gc := queueCluster q
     let x := s.slice gc
     let z := x.queue (queueLocal q)
     (∀ g, enqFrom src q ≠ .core g) → enqFrom src q ≠ .cascade → (queueWay s (iniNode src) q).1 = .pass → x.cores = [] → x.stolen = [] → z.cons ≠ 1 →
     (z.ents = [] → exec (.cancel src q tag) s = .next ((tallyAdd (s.setSlice gc x) (schBase gc + 0x228) 1).answerOnly .ok)) ∧
     (∀ h, z.ents = [h] → eTag h.e = tag → h.dead = false → eKind h.e = 1 → eNoCompl h.e = false → x.recbuf.length < 16 → x.waitRecs = [] →
       ∃ t, exec (.cancel src q tag) s = .next t ∧ ((t.slice gc).queue (queueLocal q)) = { z with ents := [] } ∧
         (t.slice gc).recbuf = x.recbuf ++ [{ cqid := eCqid h.e, record := mkRecord h.e .cancelled 0 0 1 0 0 0 s.tick }] ∧
         t.resp.outc = .ok)))

/-! ## Tasks (R194 to R207, R214 to R218) -/

/-- R195, R197, R198: the first dispatchable candidate is bound to its core with DISPATCH, and the first that pre-empts is bound to the core of the
lowest level with PREEMPT; a bound queue entry leaves its queue, and CORE_TDESC holds the descriptor of a bound task. What is picked is a candidate of
the slice whose activity is not exhausted, for an idle core that its AFF allows, and no dispatchable candidate has a higher level. -/
def Obligations.TaskBinding : Prop :=
  (∀ (s : State) (gc : ClusterId) (c : Cand) (k : BitVec 3), clkOn s gc = true → memberHolds s (.slice gc) = false →
    candBad s gc c = false → taskLate s c.task = false → (∀ j, c.src = .susp j → j = k) →
    let x := s.slice gc
    let back := decide (c.src = .susp k)
    let y := if back then { x.score k with susp := (x.score k).susp.filter (fun v => v.seq != c.task.seq) } else x.score k
    let left := fun (t : State) =>
      (∀ lq, (t.slice gc).queue lq = if c.src = .queue lq then removeSeq (x.queue lq) c.task.seq else x.queue lq) ∧
      (t.slice gc).stealSlot = if c.src = .steal then none else x.stealSlot
    (pickBind s gc = some (c, k) →
      ∃ t, exec (.taskBind gc) s = .next t ∧ left t ∧ (t.core (coreOf gc k)).c.tdesc = c.task.raw ∧
        (t.slice gc).score k = { y with st := .bound, cur := some c.task, next := none, resume := back, preempt := none,
                                        dispatch := some (dispatchTval c.task back false) } ∧
        (∀ k', k' ≠ k → (t.slice gc).score k' = x.score k') ∧ t = { s with slices := t.slices, cores := t.cores, tally := t.tally }) ∧
    (pickPreempt s gc = some (c, k) →
      ∃ t, exec (.preemptBind gc) s = .next t ∧ left t ∧
        (t.slice gc).score k = { y with next := some c.task, resume := back, preempt := some (dispatchTval c.task back false) } ∧
        (∀ k', k' ≠ k → (t.slice gc).score k' = x.score k') ∧ t = { s with slices := t.slices, tally := t.tally })) ∧
  ∀ (s : State) (gc : ClusterId) (c : Cand) (k : BitVec 3), pickBind s gc = some (c, k) →
    c ∈ candidates (s.slice gc) gc ∧ candExh (s.slice gc) c = false ∧ c.aff.getLsbD k.toNat = true ∧ coreIdle s gc k = true ∧
      (∀ j, c.src = .susp j → j = k) ∧
      ∀ d ∈ candidates (s.slice gc) gc, candExh (s.slice gc) d = false → (eligibleCore s gc d).isSome = true →
        d.task.level.toNat ≤ c.task.level.toNat

/-- R205, R206, R211: a reached deadline of the head of a queue removes it with a DEADLINE_MISSED record; of a bound task withdraws DISPATCH and frees
the core; of a suspended task removes it; of a running task kills a killable one and notices another once; each is reported and counted.
R201, R218: the slice's oldest record enters its queue and leaves the buffer, stays before a full queue, and is dropped, counted and reported on
another outcome; at a load period's edge SCH_COREk_LOAD takes the busy cycles of the period that ends, which count from 0. -/
def Obligations.TaskDeadlinesAndRecords : Prop :=
  (∀ (s : State) (gc : ClusterId) (k i : BitVec 3) (lq : BitVec 10) (t : Task),
     let x := s.slice gc
     let y := x.score k
     let late := fun (e : Entry) => eHasDl e = true ∧ (s.tick - slice e 32 32).toNat < 2 ^ 31
     let room := x.recbuf.length < 16 ∧ x.waitRecs = []
     let out := fun (u : State) (e : Entry) (n : Nat) => (u.slice gc).recbuf = x.recbuf ++
       (if eNoCompl e then [] else [{ cqid := eCqid e, record := mkRecord e .deadlineMissed 0 0 1 0 (BitVec.ofNat 32 (min n 0xFFFFFFFF)) 0 s.tick }])
     (∀ h, headOf (x.queue lq) = some h → (x.queue lq).en = true → late h.e → eKind h.e = 1 → room →
       ∃ u, exec (.taskDeadline gc (.queueHead lq)) s = .next u ∧ (u.slice gc).queue lq = removeSeq (x.queue lq) h.seq ∧ out u h.e 0) ∧
     (y.st = .bound → y.cur = some t → y.dead = false → late t.raw → t.stolen = false → room →
       ∃ u, exec (.taskDeadline gc (.bound k)) s = .next u ∧ out u t.raw t.charged ∧
         (u.slice gc).score k = { y with st := .free, cur := none, dispatch := none, resume := false }) ∧
     (y.st = .running → y.next = some t → late t.raw → t.stolen = false → room →
       ∃ u, exec (.taskDeadline gc (.bound k)) s = .next u ∧ out u t.raw t.charged ∧
         (u.slice gc).score k = { y with next := none, preempt := none, resume := false }) ∧
     (y.susp[i.toNat]? = some t → t.dead = false → late t.raw → t.stolen = false → room →
       ∃ u, exec (.taskDeadline gc (.suspended k i)) s = .next u ∧ out u t.raw t.charged ∧
         (u.slice gc).score k = { y with susp := y.susp.filter (fun v => v.seq != t.seq) }) ∧
     (y.st = .running → y.cur = some t → t.missed = false → late t.raw → t.stolen = false → room →
       ∃ u, exec (.taskDeadline gc (.running k)) s = .next u ∧
         (clsKill x t.cls = true → out u t.raw t.charged ∧
           (u.slice gc).score k = { y with st := .reclaim, notice := true, killed := true, noticePend := some (eTag t.raw), preempt := none,
                                           dead := false, ended := false }) ∧
         (clsKill x t.cls = false → (u.slice gc).recbuf = x.recbuf ∧
           (u.slice gc).score k = { y with notice := true, noticePend := some (eTag t.raw), cur := some { t with missed := true } }))) ∧
  (∀ (s : State) (gc : ClusterId),
     let x := s.slice gc
     (∀ (r : RecOut) (rest : List RecOut) (o : Outc), x.recbuf = r :: rest → x.waitRecs = [] →
       let w := queueWay s (clusterNode gc) r.cqid
       let popped := s.setSlice gc { x with recbuf := rest }
       (w.1 = .pass → queueTakes s r.cqid r.record →
         ∃ t, exec (.taskRecordEnqueue gc none) s = .next t ∧ queueGained s t r.cqid r.record ∧ (t.slice gc).recbuf = rest) ∧
       (w.1 = .pass → (enqueue s .fabric r.cqid r.record).1 = .full → ∃ t, exec (.taskRecordEnqueue gc none) s = .next t ∧ t.slices = s.slices) ∧
       (o.good = false → exec (.taskRecordEnqueue gc (some o)) s = .next (report (tallyAdd popped (schBase gc + 0x260) 1) (srcCluster gc 2)
         (BitVec.ofNat 32 (r.cqid.toNat + 2 ^ 16 + 2 ^ 20 * o.code.toNat))))) ∧
     (periodNow s x.loadNum.toNat x.loadMult.toNat = true →
       ∃ t, exec (.loadPeriodEdge gc) s = .next t ∧ t = s.setSlice gc (t.slice gc) ∧
         ∀ k : BitVec 3, (t.slice gc).score k = { x.score k with load := BitVec.ofNat 32 (x.score k).busy, busy := 0 }))

/-- R214, R215: a slice that has been idle for SCH_STEALIDLE asks the first victims in order; a victim gives its oldest stealable head and keeps a record,
or refuses; the task enters the thief's slot; refusals go on to the next victim; the record returns, and a cancel is forwarded. -/
def Obligations.WorkStealing : Prop :=
  ∀ (s : State) (victim thief : ClusterId),
    let x := s.slice thief
    let v := s.slice victim
    let none0 : Thief := { idleSince := none, victims := [], refusals := 0, asking := none, coming := none, refused := false }
    (∀ t0 first rest, clkOn s thief = true → memberHolds s (.slice thief) = false → x.thief.idleSince = some t0 → x.stealen = true →
      stealIdle s thief = true → x.stealSlot = none → x.thief.asking = none → x.stealidle.toNat * clusterDiv s thief ≤ s.cycle - t0 →
      ((victimOrder thief).filter (fun g => signalsWork s g)).take 3 = first :: rest →
      exec (.stealStart thief) s = .next (s.setSlice thief { x with thief :=
        { idleSince := x.thief.idleSince, victims := rest, refusals := 0, asking := some first, coming := none, refused := false } })) ∧
    (victim ≠ thief → x.thief.asking = some victim → x.thief.coming = none → x.thief.refused = false →
      (v.giveen = false ∨ oldestSteal s victim thief = none →
        exec (.stealRequest victim thief) s = .next (s.setSlice thief { x with thief := { x.thief with refused := true } })) ∧
      (∀ c lq, v.giveen = true → v.stolen.length < 16 → clkOn s victim = true → memberHolds s (.slice victim) = false →
        oldestSteal s victim thief = some c → candBad s victim c = false → c.src = .queue lq →
        ∃ t, exec (.stealRequest victim thief) s = .next t ∧ (t.slice victim).queue lq = removeSeq (v.queue lq) c.task.seq ∧
          (t.slice victim).stolen = v.stolen ++ [{ tag := eTag c.task.raw, qid := c.task.qid, thief := thief, cancelled := false }] ∧
          t.slice thief = { x with thief := { x.thief with coming := some { c.task with stolen := true, home := victim } } })) ∧
    (∀ t, x.thief.coming = some t → exec (.stealReceive thief) s = .next (tallyAdd
      (s.setSlice thief { x with thief := none0, stealSlot := some { t with seq := x.seq }, seq := x.seq + 1 }) (schBase thief + 0x240) 1)) ∧
    (∀ next rest, x.thief.refused = true → x.thief.victims = next :: rest → x.thief.refusals < 2 → exec (.stealRefusal thief) s = .next
      (s.setSlice thief { x with thief := { x.thief with victims := rest, refusals := x.thief.refusals + 1, asking := some next, refused := false } })) ∧
    (x.thief.refused = true → x.thief.victims = [] → exec (.stealRefusal thief) s = .next
      (tallyAdd (s.setSlice thief { x with thief := { none0 with idleSince := some s.cycle } }) (schBase thief + 0x250) 1)) ∧
    (∀ tag q rest, x.back = (victim, tag, q) :: rest → victim ≠ thief →
      ∃ t, exec (.stealRecordReturn thief) s = .next t ∧ (t.slice thief).back = rest ∧ t.slice victim = { v with stolen := dropStolen v.stolen tag q }) ∧
    (∀ r t, v.stolen = [r] → r.cancelled = true → r.thief = thief → victim ≠ thief → x.thief.coming = none → x.stealSlot = some t → x.cores = [] →
      matchTask r.qid r.tag t = true → t.stolen = true → eNoCompl t.raw = false → x.recbuf.length < 16 → x.waitRecs = [] →
      ∃ u, exec (.stealCancelForward victim) s = .next u ∧ (u.slice victim).stolen = [{ r with cancelled := false }] ∧
        (u.slice thief).stealSlot = none ∧ (u.slice thief).back = x.back ++ [(t.home, eTag t.raw, t.qid)] ∧
        (u.slice thief).recbuf = x.recbuf ++ (taskRecord s t .cancelled 0).toList)

/-! ## Budgets (R208 to R213, R220, R221) -/

/-- R208, R212, R213, R220, R221: the enables and words of the budgets: EN rising starts a period, EN falling releases exhaustion, a word is staged while
EN = 1; at a period's edge the staged words apply, the counts start again and holdings are discarded. -/
def Obligations.BudgetPeriods : Prop :=
  ∀ (s : State) (who : Initiator) (r : RegionId) (a : ActId) (v : Word) (w : BudWord),
    let b := s.bud r
    let x := b.act a
    let num : BitVec 3 := slice v 1 3
    let mult : BitVec 5 := slice v 4 5
    let started := fun (t : State) (n : BitVec 3) (m : BitVec 5) (br : Bool) =>
      let y := x.staged.getD x.cur
      (t.bud r).act a = { en := true, num := n, mult := m, borrow := br, cur := y, staged := none, left := y.cyc, jobsLeft := jobTable y.jobs,
                          jobsBorrowed := [], borrowed := 0, exh := false, ovr := false, parity := !x.parity } ∧
        (∀ gc, clusterRegion gc = r → (t.slice gc).hold a = { (s.slice gc).hold a with held := 0, exh := false, parity := !x.parity }) ∧
        (∀ a' : ActId, a' ≠ a → (t.bud r).act a' = b.act a')
    let filled := fun (n : BitVec 3) (m : BitVec 5) => s.setBud r { b with
      rsvEn := true, rsvNum := n, rsvMult := m, rsvLeft := b.rsvCyc,
      rsvJobs := jobTable ({ cyc := b.rsvCyc, joba := b.rsvJobA, jobb := b.rsvJobB, jobc := b.rsvJobC, bmax := 0 } : BudWords).jobs }
    (regOpen s who (budBase r + a.toNat * 0x40) = true →
      (x.en = false → num.toNat ≤ 4 → multOk num.toNat mult.toNat = true →
        ∃ t : State, exec (.budgetEnable who r a v) s = t.ends .ok ∧ started t num mult (v.getLsbD 9)) ∧
      (x.en = true → num ≠ x.num ∨ mult ≠ x.mult ∨ v.getLsbD 9 ≠ x.borrow →
        exec (.budgetEnable who r a v) s = s.ends .notPermitted ∧ exec (.budgetDisable who r a v) s = s.ends .notPermitted) ∧
      (x.en = true → num = x.num → mult = x.mult → v.getLsbD 9 = x.borrow →
        ∃ t : State, exec (.budgetDisable who r a v) s = t.ends .ok ∧ ((t.bud r).act a).en = false ∧
          ∀ gc, clusterRegion gc = r → (t.slice gc).hold a = { (s.slice gc).hold a with exh := false })) ∧
    (regOpen s who (budBase r + 0x8000) = true → b.rsvEn = false → num.toNat ≤ 4 → multOk num.toNat mult.toNat = true →
      ∃ t : State, exec (.reserveEnable who r v) s = t.ends .ok ∧ t.bud r = (filled num mult).bud r) ∧
    (regOpen s who (budBase r + a.toNat * 0x40 + budWordOff w) = true →
      let y := (x.staged.getD x.cur).set w v
      exec (.budBudgetWrite who r a w v) s =
        .next ((s.setBud r (b.setAct a (if x.en then { x with staged := some y } else { x with cur := y }))).answerOnly .ok)) ∧
    (x.en = true → periodNow s x.num.toNat x.mult.toNat = true → ∃ t, exec (.budgetPeriodEdge r a) s = .next t ∧ started t x.num x.mult x.borrow) ∧
    (b.rsvEn = true → periodNow s b.rsvNum.toNat b.rsvMult.toNat = true → exec (.reservePeriodEdge r) s = .next (filled b.rsvNum b.rsvMult)) ∧
    (let d := s.dbud a
     d.en = true → periodNow s d.num.toNat d.mult.toNat = true →
      exec (.dramBudgetPeriodEdge a) s = .next (s.setDbud a { d with lim := d.staged.getD d.lim, staged := none, units := 0 }))

/-- R209 to R211: a slice asks for a chunk when it holds fewer than 4 096 cycles for a running activity; the BUD answers 4 096, what is left, a borrow or a
refusal; a grant adds to the holding, a refusal exhausts the activity in the cluster and asks its pre-emptible tasks to yield. -/
def Obligations.BudgetChunks : Prop :=
  ∀ (s : State) (gc : ClusterId) (a : ActId),
    let r := clusterRegion gc
    let b := s.bud r
    let y := b.act a
    let x := s.slice gc
    let h := x.hold a
    let asks := h.asked = false ∧ h.exh = false ∧ h.held < 4096 ∧ coresRunning x a ≠ []
    let answered := fun (t : State) (n : Option Nat) => ((t.slice gc).hold a) = { h with asked := true } ∧
      (t.bud r).msgs = b.msgs ++ [{ gc := gc, act := a, amount := n, parity := y.parity }]
    (asks → y.en = false → ∃ t, exec (.chunkRequest gc a) s = .next t ∧ answered t (some 4096) ∧ (t.bud r).act a = y) ∧
    (asks → y.en = true → y.left ≠ 0 → ∃ t, exec (.chunkRequest gc a) s = .next t ∧ answered t (some (min 4096 y.left.toNat)) ∧
      (t.bud r).act a = { y with left := BitVec.ofNat 32 (y.left.toNat - min 4096 y.left.toNat) }) ∧
    (asks → y.en = true → y.left = 0 → y.borrow = true → y.borrowed.toNat < bits y.cur.bmax.toNat 0 16 → b.rsvEn = true → b.rsvLeft ≠ 0 →
      ∃ t, exec (.chunkRequest gc a) s = .next t ∧ answered t (some (min 4096 b.rsvLeft.toNat)) ∧
        (t.bud r).rsvLeft = BitVec.ofNat 32 (b.rsvLeft.toNat - min 4096 b.rsvLeft.toNat) ∧ ((t.bud r).act a).borrowed = y.borrowed + 1) ∧
    (asks → y.en = true → y.left = 0 → y.borrow = false →
      ∃ t, exec (.chunkRequest gc a) s = .next t ∧ answered t none ∧ (t.bud r).act a = { y with exh := true }) ∧
    (∀ m rest, takeMsg b.msgs gc a = some (m, rest) →
      (m.parity ≠ y.parity → exec (.chunkAnswer gc a) s =
        .next ((s.setBud r { b with msgs := rest }).setSlice gc (x.setHold a { h with asked := false }))) ∧
      (∀ n, m.parity = y.parity → m.amount = some n → exec (.chunkAnswer gc a) s =
        .next ((s.setBud r { b with msgs := rest }).setSlice gc (x.setHold a { h with held := h.held + n, asked := false, parity := m.parity }))) ∧
      (m.parity = y.parity → m.amount = none → y.en = true →
        ∃ t, exec (.chunkAnswer gc a) s = .next t ∧ (t.slice gc).hold a = { h with held := 0, exh := true, asked := false } ∧
          ∀ k u, (x.score k).st = .running → (x.score k).cur = some u → eAct u.raw = a → clsPreempt x u.cls = true → (x.score k).susp.length < 8 →
            (x.score k).next = none → (x.score k).preempt = none → ((t.slice gc).score k).preempt = some (dispatchTval u false true)))

/-! ## The on-package fabric (R222 to R264) -/

/-- R238, R239, R245 to R247, R250 to R252, R254: a request waits in its NI by its activity's regulator or in the queue of its space, and completes
ROUTE_FAULT where no route is valid; injection opens a TXID slot, takes the charge from the bucket and counts the flits; a response with the slot's
generation completes the transaction, a late one is dropped; a timeout quarantines the slot, which returns with the next generation; RETRY waits
for its gap and is sent again. -/
def Obligations.NiTransactions : Prop :=
  ∀ (s : State) (n : NodeId) (ini : Initiator),
    let x := s.ni n
    (∀ (typ : PktType) (pa : Pa) (mask : BitVec 64) (data : List Byte) (act : ActId), reqShape typ pa = true → iniNode ini = n →
      let c := exec (.niRequest ini typ pa mask data act) s
      (nodeOf pa = none → (∀ g, ini ≠ .core g) → c = s.ends .routeFault) ∧
      (∀ dst, nodeOf pa = some dst →
        let rt := activeRt s n dst
        let q : NiReq := { ini := ini, lane := 5, typ := typ, addr := pa, mask := mask, data := data, poison := 0, act := act, node := dst,
                           route := rt.route, epoch := rt.epoch, enqueue := isEnqueue typ pa, p2 := whoP2 s ini, again := false }
        (rt.valid = false → (∀ g, ini ≠ .core g) → c = (tallyAdd s (niBase n + 0x128) 1).ends .routeFault) ∧
        (rt.valid = true → isRegPa pa = true → c = .next (s.setNi n { x with mgt := x.mgt ++ [q] })) ∧
        (rt.valid = true → isRegPa pa = false → regFor x act = none → c = .next (s.setNi n { x with free := x.free ++ [q] })) ∧
        (∀ i, rt.valid = true → isRegPa pa = false → regFor x act = some i →
          c = .next (s.setNi n (x.setReg i { x.reg i with fifo := (x.reg i).fifo ++ [q] }))))) ∧
    (∀ r rest k, x.free = r :: rest → x.freeSlot = some k → heldByRetry x r = false →
      ∃ t, exec (.regulatorInject n 64) s = .next t ∧ (t.ni n).free = rest ∧
        (t.ni n).slot k = { gen := (x.slot k).gen, st := .opened r s.cycle } ∧ ∀ j, j ≠ k → (t.ni n).slot j = x.slot j) ∧
    (∀ (i : BitVec 7) r rest k, i.toNat < 64 → (x.reg i.toNat).fifo = r :: rest → x.freeSlot = some k → heldByRetry x r = false →
      (regCharge r.typ * 4096 ≤ (x.reg i.toNat).bucket →
        ∃ t, exec (.regulatorInject n i) s = .next t ∧ (t.ni n).slot k = { gen := (x.slot k).gen, st := .opened r s.cycle } ∧
          (t.ni n).reg i.toNat = { x.reg i.toNat with fifo := rest, bucket := (x.reg i.toNat).bucket - regCharge r.typ * 4096 }) ∧
      ((x.reg i.toNat).bucket < regCharge r.typ * 4096 → exec (.regulatorInject n i) s = .next s)) ∧
    ((x.regs.map (fun p => p.1)).Nodup →
      ∃ t, exec (.regulatorRefill n) s = .next t ∧ t = s.setNi n (t.ni n) ∧
        ∀ i, (t.ni n).reg i = { x.reg i with bucket := min ((x.reg i).bucket + 25 * (x.reg i).rate.toNat) ((x.reg i).burst.toNat * 4096) }) ∧
    (∀ (k : Packet) rest, x.arrived = k :: rest → typIsRsp k.typ = true →
      (openReq x k = none → exec (if k.typ = .retry then .retryArrival n else .responseArrival n) s = .next (tallyAdd (tallyAdd (s.setNi n { x with arrived := rest }) (niBase n + 0x108) (flitsOf k.typ)) (niBase n + 0x118) 1)) ∧
      (∀ i r since, k.typ ≠ .retry → openReq x k = some (i, r, since) → (∀ g, r.ini ≠ .core g) →
        ∃ t, exec (.responseArrival n) s = .next t ∧ ((t.ni n).slot i).st = .free ∧ ((t.ni n).slot i).gen = (x.slot i).gen ∧
          (t.ni n).arrived = rest ∧ t.resp = { outc := k.outc, flags := k.flags.setWidth 32, data := k.data }) ∧
      (∀ i r since, k.typ = .retry → openReq x k = some (i, r, since) →
        ∃ t, exec (.retryArrival n) s = .next t ∧ ((t.ni n).slot i).st = .free ∧ (t.ni n).retries = x.retries ++ [{ r := r, since := s.cycle }] ∧
          (t.ni n).arrived = rest ∧ t.resp = s.resp)) ∧
    (∀ (slot : BitVec 9) r since, (x.slot slot.toNat).st = .opened r since → (∀ g, r.ini ≠ .core g) →
      cdiv (x.tmo.toNat * 98304) 100 * 4 ≤ s.cycle - since → exec (.requestTimeout n slot) s =
        (tallyAdd (s.setNi n (x.setSlot slot.toNat { x.slot slot.toNat with st := .quarantine s.cycle })) (niBase n + 0x110) 1).ends .timeout) ∧
    (∀ (slot : BitVec 9) since, (x.slot slot.toNat).st = .quarantine since → 983040 * 4 ≤ s.cycle - since →
      exec (.txidQuarantineEnd n slot) s = .next (s.setNi n (x.setSlot slot.toNat { gen := (x.slot slot.toNat).gen + 1, st := .free }))) ∧
    (∀ h k, x.retries = [h] → h.r.ini = ini → x.retrygap.toNat * 4 ≤ s.cycle - h.since → x.freeSlot = some k → canPay x (payer x h.r) h.r = true →
      ∃ t, exec (.retryResend n ini) s = .next t ∧ (t.ni n).retries = [] ∧
        (t.ni n).slot k = { gen := (x.slot k).gen, st := .opened { h.r with again := true } s.cycle })

/-- R235, R240, R241, R248, R249, R253, R255 to R257: an element sends the packet of the first virtual channel that waits to the far end of the port its
route names, with the port of entry put behind the route; a closed port answers ROUTE_FAULT to a request and drops a response; flit errors
are replayed three times and then abort the packet; old responses are dropped. -/
def Obligations.Forwarding : Prop :=
  ∀ (s : State) (e : Elem) (c : BitVec 3) (k : Packet) (rest : List Packet),
    let x := s.elem e
    let taken := s.setElem e { x with inq := sput [] x.inq c.toNat rest }
    let p := outPort e k
    let k1 := { k with route := BitVec.ofNat 24 (k.route.toNat / 8 + c.toNat * 2 ^ 21) }
    sget [] x.inq c.toNat = k :: rest → (∀ q ∈ rest, vcOf k ≤ vcOf q) →
    (forAgent e p k = true → exec (.routerForward e c) s = .next (sendTo (portCount taken e p 0 (flitsOf k.typ)) (hop e 0) k1)) ∧
    (forAgent e p k = false → portPasses s e p k.epoch = true → exec (.routerForward e c) s = .next (sendOut taken e p k1)) ∧
    (forAgent e p k = false → portPasses s e p k.epoch = false → typIsReq k.typ = false →
      exec (.routerForward e c) s = .next (portCount taken e p 4 1)) ∧
    (forAgent e p k = false → portPasses s e p k.epoch = false → typIsReq k.typ = true →
      exec (.routerForward e c) s = .next (sendSynth (portCount taken e p 3 1) e c.toNat k .routeFault)) ∧
    (typIsReq k.typ = false → 65536 * 4 ≤ s.cycle - k.born →
      exec (.responseLifetimeExpiry e c) s = .next (portCount taken e p 5 1)) ∧
    (∀ (port : BitVec 3) (flit : BitVec 2), s.asy.inj = [] → onLink s e port.toNat = some (e, c.toNat, 0, k) → (∀ n, e ≠ .ni n) →
      flit.toNat < flitsOf k.typ →
      let n := sget 0 x.fails (4 * port.toNat + flit.toNat)
      let failed := fun (m : Nat) => s.setElem e { x with fails := sput 0 x.fails (4 * port.toNat + flit.toNat) m }
      (n < 3 → exec (.linkFlitError e port flit) s = .next
        (report (portCount (failed (n + 1)) e port.toNat 1 1) (linkSrc e) (linkDetail e port.toNat 1))) ∧
      (3 ≤ n →
        let u := report (portCount (s.setElem e { x with
          fails := sput 0 x.fails (4 * port.toNat + flit.toNat) 0, inq := sput [] x.inq c.toNat rest }) e port.toNat 2 1)
          (linkSrc e) (linkDetail e port.toNat 2)
        exec (.linkFlitError e port flit) s =
          .next (if typIsReq k.typ then sendSynth u e c.toNat k .replayExhausted else portCount u e port.toNat 4 1)))

/-- R244, R245, R255, R256, R259: the regulator entry, port and table commands: a second enabled entry for an activity is refused, enabling fills the
bucket; ENABLED, DRAIN and DISABLED follow one another as R256 lists, never on a locked port; the swap exchanges the tables. -/
def Obligations.FabricControl : Prop :=
  ∀ (s : State) (who : Initiator) (n : NodeId) (i : BitVec 6) (v : Word) (e : Elem) (p : BitVec 3) (d : Bool),
    let x := s.ni n
    let r := x.reg i.toNat
    let act : ActId := slice v 0 9
    let clash := v.getLsbD 9 = true ∧ i.toNat < 63 ∧ ∃ j < 63, j ≠ i.toNat ∧ (x.reg j).en = true ∧ (x.reg j).act = act
    let y := (s.elem e).port p.toNat
    let set := fun (z : RPort) => (s.setRPort e p.toNat z).ends .ok
    let refused := s.ends .notPermitted
    (nodeInitiates n = true → regOpen s who (niBase n + 0x1000 + 0x10 * i.toNat) = true →
      (clash → exec (.regulatorConfigWrite who n i v) s = refused) ∧
      (¬clash → exec (.regulatorConfigWrite who n i v) s = (s.setNi n (x.setReg i.toNat
        { r with act := act, en := v.getLsbD 9, tc := v.getLsbD 10,
                 bucket := if v.getLsbD 9 = true ∧ r.en = false then r.burst.toNat * 4096 else r.bucket })).ends .ok)) ∧
    (nodeInitiates n = true → regOpen s who (niBase n + 0xC) = true →
      exec (.routeTableSwap who n) s = (s.setNi n { x with staging := x.active, active := x.staging }).ends .ok) ∧
    (hasPortBlock e = true → regOpen s who (elemBase e + 0x40 * p.toNat) = true → portPresent e p.toNat = true →
      (portLocked s e p.toNat = true → exec (.portDrain who e p d) s = refused ∧ exec (.portDisable who e p) s = refused ∧
        exec (.portEnable who e p) s = refused) ∧
      (portLocked s e p.toNat = false →
        (y.state = 0 → exec (.portDrain who e p d) s = set { y with state := 1, depoch := d, pend := false }) ∧
        (y.state ≠ 0 → exec (.portDrain who e p d) s = refused) ∧
        (y.state = 1 → sget [] (s.elem e).outq p.toNat = [] → exec (.portDisable who e p) s = set { y with state := 2, pend := false }) ∧
        (y.state = 1 → sget [] (s.elem e).outq p.toNat ≠ [] → exec (.portDisable who e p) s = set { y with pend := true }) ∧
        (y.state ≠ 1 → exec (.portDisable who e p) s = refused) ∧
        (y.state = 1 → exec (.portEnable who e p) s = set { y with state := 0, pend := false }) ∧
        (y.state = 2 → exec (.portEnable who e p) s = set { y with state := 0 }))) ∧
    (y.state = 1 → y.pend = true →
      ∃ t, exec (.portDrainComplete e p) s = .next t ∧ (t.elem e).port p.toNat = { y with state := 2, pend := false } ∧
        sget [] (t.elem e).outq p.toNat = [])

/-! ## Requests at their targets and host memory (R29 to R33, R230 to R233, R265 to R269, R291, R292, R444) -/

/-- R29, R230 to R233, R255, R444: an NI discards a packet of a reserved type, takes in a message, and serves the oldest request that it does not hold:
the gate's answer, ROUTE_FAULT where another node serves the address, else the target's answer or RETRY. What the targets answer: an unmapped offset
ROUTE_FAULT, a register request of a P2 task NOT_PERMITTED, a data memory its enabled bytes. -/
def Obligations.TargetRequests : Prop :=
  (∀ (s : State) (n : NodeId) (k : Packet) (rest : List Packet) (o : Outc) (a : Ans) (u : State),
    let t := s.setNi n { s.ni n with arrived := rest }
    let c := exec (.requestAtTarget n) s
    let gate := nodeGate s n (agentPa k.addr)
    inReset s n = false → (s.ni n).arrived = k :: rest →
    (k.typ = .reserved → c = .next (tallyAdd t (niBase n + 0x130) 1)) ∧ (k.typ = .msg → c = .next t) ∧
    (typIsReq k.typ = true → heldAt s n = 0 → (∀ q ∈ rest, q.typ ≠ .reserved ∧ q.typ ≠ .msg) →
      (gate = .answer o → o ≠ .domainAsleep → c = .next (respond t n (answerPkt k (Ans.only o)))) ∧
      (gate = .answer .domainAsleep → c = .next (respond (tallyAdd t (lmpBase + 0x150) 1) n (answerPkt k (Ans.only .domainAsleep)))) ∧
      (∀ gc : ClusterId, gate = .hold (.cluster gc) → clusterPower s gc ≠ .nap → s.lmp.tx = none →
        ∃ v, c = .next v ∧ v.lmp.held = s.lmp.held ++ [{ target := .cluster gc, node := n }] ∧ v.ni n = s.ni n ∧
          (v.lmp.wakes.any (fun w => w.target == .cluster gc)) = true ∧ v.lmp.wakesrc = s.lmp.wakesrc ||| 0x40) ∧
      (gate = .pass → nodeOf k.addr ≠ some n → c = .next (respond t n (answerPkt k (Ans.only .routeFault)))) ∧
      (gate = .pass → nodeOf k.addr = some n →
        (tgtAccess t k (some k) = .ans a u → c = .next (respond u n (answerPkt k a))) ∧
        (tgtAccess t k (some k) = .retry u → c = .next (respond u n (retryPkt k))) ∧
        (tgtAccess t k (some k) = .taken u → c = .next u) ∧ (tgtAccess t k (some k) = .wait → c = .next s)))) ∧
  ∀ (s : State) (k : Packet) (pkt : Option Packet),
    let no := fun (o : Outc) => tgtAccess s k pkt = .ans (Ans.only o) s
    (place k.addr = .nowhere ∨ place k.addr = .gapHub ∨ (∃ r, place k.addr = .gapRegion r) ∨ (∃ gc, place k.addr = .gapCluster gc) → no .routeFault) ∧
    (isRegPa k.addr = true → loadWin s k.addr = none →
      let word := regRead s (place (BitVec.ofNat 44 ((k.addr.toNat + (reqSpan k).1) / 4 * 4)))
      (word = none → no .routeFault) ∧ (word.isSome = true → k.p2 = true → no .notPermitted) ∧
      (word.isSome = true → k.typ = .wr → no .notPermitted)) ∧
    (∀ g off, place k.addr = .dmem g off → off % 64 = 0 → s.ready (.dmem g) = true → s.par = [] → s.asy.inj = [] →
      (k.typ = .wr ∨ k.typ = .wrm → ∃ u, tgtAccess s k pkt = .ans (Ans.only .ok) u ∧ ∀ b, u.byte b =
        if k.addr.toNat ≤ b ∧ b < k.addr.toNat + 64 ∧ (k.typ = .wr ∨ k.mask.getLsbD (b - k.addr.toNat) = true) then
          (fitBytes 64 k.data).getD (b - k.addr.toNat) 0 else s.byte b) ∧
      (k.typ = .rd → ∃ a u, tgtAccess s k pkt = .ans a u ∧ a.outc = .ok ∧ (∀ b, u.byte b = s.byte b) ∧
        a.data = (List.range 64).map (fun i => if k.mask.getLsbD i then s.byte (k.addr.toNat + i) else 0)))

/-- R33, R266 to R269, R272, R464: a BAR offset that is unmapped, all of BAR4, BAR2 and BAR0 but MGC before READY, and BAR0 and BAR4 of a VF, answer Unsupported
Request or discard the write, counted; a BAR2 write is a doorbell; a BAR0 access answers what its target answers, a failed one is noted in
HIF_MMIOERR; BAR4 reads and writes memory. -/
def Obligations.BarAccesses : Prop :=
  ∀ (s : State) (fn : BitVec 6) (off : BitVec 36) (wr : Bool) (size : Nat) (d : List Byte) (pa : Nat) (a : Ans) (t : State),
    let unmapped := (tallyAdd s (hifBase + 0xF0018) 1).ends .routeFault
    hostReach s = true → fn.toNat ≤ 32 →
    (fn ≠ 0 → exec (.barAccess fn .bar0 off wr size d) s = unmapped ∧ exec (.barAccess fn .bar4 off wr size d) s = unmapped) ∧
    (bar0Pa s off.toNat = none → exec (.barAccess 0 .bar0 off wr size d) s = unmapped) ∧
    (s.hif.ready = false → (0x100000 ≤ off.toNat → bar0Pa s off.toNat = none) ∧ exec (.barAccess 0 .bar4 off wr size d) s = unmapped ∧
      exec (.barAccess fn .bar2 off false size d) s = unmapped) ∧
    (exec (.barAccess fn .bar2 off true size d) s = exec (.doorbell fn (off.setWidth 17) size (BitVec.ofNat 64 (natOfBytes (d.take 8)))) s) ∧
    (s.hif.ready = true → off.toNat < 0x8000 → exec (.barAccess fn .bar2 off false size d) s =
      .next ((tallyAdd s (hifBase + 0xF0010) 1).answer { outc := .ok, flags := 0, data := List.replicate size 0, poison := [] })) ∧
    (bar0Pa s off.toNat = some pa →
      (barQueueBad pa size wr = true → exec (.barAccess 0 .bar0 off wr size d) s = unmapped) ∧
      (barQueueBad pa size wr = false → accPiece s 0x90 pa (fun u => bar0One u pa size wr d) = .done a t →
        (a.outc.good = true → exec (.barAccess 0 .bar0 off wr size d) s = .next (t.answer a)) ∧
        (a.outc.good = false →
          let u := { t with hif := { t.hif with errOutc := a.outc.code, errOff := BitVec.ofNat 32 off.toNat } }
          exec (.barAccess 0 .bar0 off wr size d) s = .next ((tallyAdd u (hifBase + 0xF0038) 1).answer a)))) ∧
    (s.hif.ready = true → off.toNat < 0x800000000 →
      (accStore s (.host 0) off.toNat (fitBytes size d) 0 = .done a t → exec (.barAccess 0 .bar4 off true size d) s = .next (t.answer a)) ∧
      (accRead s (.host 0) off.toNat size 0 = .done a t → exec (.barAccess 0 .bar4 off false size d) s = .next (t.answer a)))

/-- R265, R266, R291, R292: an access to the host range is translated by HIF_OTT: ROUTE_FAULT where the entry is not valid, NOT_PERMITTED for an
activity outside the function's range or with Bus Master Enable 0; a write changes the record of host memory, a read is outstanding under a tag until
its PCIe completion, which maps to an outcome, or the timeout of HIF_CTL.CTO. -/
def Obligations.HostMemory : Prop :=
  ∀ (s : State) (ini : Initiator) (pa : Pa) (off len : Nat) (d : List Byte) (act : ActId) (tag : BitVec 10) (cpl : PcieCpl),
    let e := sget Ott.reset s.hif.ott (off / 0x40000000)
    let f := s.hostFn e.fn
    let mine := f.actlo.toNat ≤ act.toNat ∧ act.toNat ≤ f.acthi.toNat ∧ f.bme = true
    let a := e.haddr.toNat % 2 ^ 32 * 2 ^ 30 + off % 0x40000000
    let w := exec (.hostMemoryAccess ini pa true len d act) s
    let r := exec (.hostMemoryAccess ini pa false len d act) s
    (place pa = .host off → hostReach s = true → 0 < len → 0 < d.length → off % 0x40000000 + len ≤ 0x40000000 →
      off % 0x40000000 + d.length ≤ 0x40000000 →
      (e.valid = false → w = s.ends .routeFault ∧ r = s.ends .routeFault) ∧
      (e.valid = true → ¬mine → w = s.ends .notPermitted ∧ r = s.ends .notPermitted) ∧
      (e.valid = true → mine →
        (∃ t : State, w = t.ends .ok ∧ t = { s with hostMem := t.hostMem } ∧
          ∀ b, sget 0 t.hostMem b = if a ≤ b ∧ b < a + d.length then d.getD (b - a) 0 else sget 0 s.hostMem b) ∧
        (∀ k, freeTag s = some k →
          let h : HostRead := { ini := ini, pkt := none, haddr := a, len := len, since := s.cycle }
          r = .next { s with hif := { s.hif with reads := sput none s.hif.reads k (some h) } }))) ∧
    (∀ h : HostRead, sget none s.hif.reads tag.toNat = some h → h.pkt = none →
      let c := exec (.hostReadCompletion tag cpl) s
      let t := { s with hif := { s.hif with reads := sput none s.hif.reads tag.toNat none } }
      let cto := (if s.hif.cto = 3 then 1 else if s.hif.cto = 7 then 50 else 10) * 3932160
      (∀ b, cpl = .success b → c = .next (t.answer { outc := .ok, flags := 0, data := fitBytes h.len b, poison := [] })) ∧
      (cpl = .unsupported → c = t.ends .routeFault) ∧ (cpl = .abort → c = t.ends .notPermitted) ∧
      (∀ b, cpl = .poisoned b → c = .next (t.answer { outc := .uncorrectable, flags := 0, data := fitBytes h.len b, poison := [] })) ∧
      (cpl = .timeout → cto ≤ s.cycle - h.since → c = t.ends .timeout))

/-! ## Host rings (R266, R270 to R275, R281 to R287, R292 to R294, R488) -/

/-- R266, R270 to R275, R281 to R287, R292 to R294, R488: the doorbell checks its index; the ring whose turn it is gives its next descriptor; completions,
entries of the source queue and events are written with PHASE, one ring at a time; a failed transfer puts the ring in ERROR; a ring is enabled
with its indices at START and leaves ACTIVE with its commands as orphans; an FLR disables the function's rings. -/
def Obligations.HostRings : Prop :=
  ∀ (s : State) (n : RingId) (fn : BitVec 6) (v : BitVec 64) (e : Entry) (rest : List Entry) (who : Initiator) (cfg : Word),
    let r := s.ring n
    let i : Word := slice v 0 32
    let off : BitVec 17 := BitVec.ofNat 17 (8 * n.toNat)
    let bell := exec (.doorbell fn off 8 v) s
    let entry := fun (x : Entry) => bytesOfNat 32 (x.toNat - bits x.toNat 7 1 * 128 + if (r.pi - r.p0).toNat / 2 ^ r.logsz.toNat % 2 = 0 then 128 else 0)
    let wrote := fun (t : State) (x : Entry) => t.ring n = { r with pi := r.pi + 1, waiting := (t.ring n).waiting, lost := (t.ring n).lost } ∧
      ∀ b, sget 0 t.hostMem b =
        let lo := r.base + r.pi.toNat % 2 ^ r.logsz.toNat * 32
        if lo ≤ b ∧ b < lo + 32 then (entry x).getD (b - lo) 0 else sget 0 s.hostMem b
    let quiet := (r.inten && r.armed) = false
    (hostReach s = true → fn.toNat ≤ 32 → s.hif.ready = true → s.lmp.pkg = .run → s.lmp.tx = none →
      (r.st ≠ .active ∨ (fn ≠ 0 ∧ r.fn ≠ fn) → bell = .next (tallyAdd s (hifBase + 0xF0010) 1)) ∧
      (r.st = .active → fn = 0 ∨ r.fn = fn → r.typ = 0 →
        ((i - r.ci).toNat ≤ 2 ^ r.logsz.toNat → (i - r.pi).toNat < 2 ^ 31 → bell = .next (s.setRing n { r with pi := i })) ∧
        (2 ^ r.logsz.toNat < (i - r.ci).toNat → ∃ t, bell = .next t ∧ (t.ring n).st = .error ∧ (t.ring n).cause = 1)) ∧
      (r.st = .active → fn = 0 ∨ r.fn = fn → r.typ ≠ 0 → (i - r.ci).toNat < 2 ^ 31 → (r.pi - i).toNat < 2 ^ 31 → v.getLsbD 32 = false →
        bell = .next (s.setRing n { r with ci := i }))) ∧
    (∀ d : List Byte, s.hif.ringen = true → s.hif.ready = true → hostReach s = true → s.lmp.tx = none → nextRing s = some n →
      (∀ cpl, (s.hostFn r.fn).bme = false → ∃ t, exec (.descriptorFetch n cpl) s = .next t ∧ (t.ring n).st = .error ∧ (t.ring n).cause = 2) ∧
      ((s.hostFn r.fn).bme = true → exec (.descriptorFetch n (.success d)) s = .next (settleCmds
        (let t := s.setRing n { r with ci := r.ci + 1 }
         let c : Cmd := { ring := n, idx := r.ci, desc := BitVec.ofNat 512 (natOfBytes (d.take 64)), phase := .accepted, retried := false,
                          orphan := false }
         { t with hif := { t.hif with rr := n, cmds := t.hif.cmds ++ [c] } })))) ∧
    (hostReach s = true → s.ringTakes n = true → quiet →
      (r.typ = 1 → r.waiting = e :: rest →
        (∃ t, exec (.completionWrite n true) s = .next t ∧ wrote t e ∧ (t.ring n).waiting = rest) ∧
        ∃ t, exec (.completionWrite n false) s = .next t ∧ (t.ring n).st = .error ∧ (t.ring n).cause = 3) ∧
      (∀ (o : Ans) (u : State), r.typ = 1 → r.srcq ≠ 0 → r.waiting = [] → (queueWay s 0x90 r.srcq).1 = .pass → dequeue s r.srcq = (o, u) →
        u.hif = s.hif → o.outc = .ok → (o.data.any (fun b => b != 0)) = true → u.hostMem = s.hostMem →
        ∃ t, exec (.sourceQueueForward n true) s = .next t ∧ wrote t (BitVec.ofNat 256 (natOfBytes o.data)) ∧ t.slices = u.slices) ∧
      (∀ l, r.typ = 2 → s.hif.events = { ring := n, e := e } :: l → r.lost = 0 →
        ∃ t, exec (.eventWrite n true) s = .next t ∧ wrote t e ∧ t.hif.events = l)) ∧
    (regOpen s who (hifBase + 0x10008 + 0x20 * n.toNat) = true →
      (r.st = .disabled → bits cfg.toNat 1 2 < 3 → 6 ≤ bits cfg.toNat 3 5 → bits cfg.toNat 3 5 ≤ 16 → bits cfg.toNat 9 6 ≤ 32 →
        let x : Ring := { r with typ := slice cfg 1 2, logsz := slice cfg 3 5, inten := cfg.getLsbD 8, fn := slice cfg 9 6, vec := slice cfg 16 11 }
        (ringValid s x = true → exec (.ringEnable who n cfg) s =
          (s.setRing n { x with en := true, st := .active, pi := r.start, ci := r.start, p0 := r.start, cause := 0 }).ends .ok) ∧
        (ringValid s x = false → exec (.ringEnable who n cfg) s = s.ends .notPermitted)) ∧
      (r.st = .active → cfg &&& 0x7FF7EFE = BitVec.ofNat 32 (r.typ.toNat * 2 + r.logsz.toNat * 8 + r.fn.toNat * 512 + r.vec.toNat * 65536) →
        ∃ t : State, exec (.ringDisable who n cfg) s = t.ends .ok ∧ (t.ring n).en = false ∧ (t.ring n).st = .disabled ∧
          ∀ c ∈ t.hif.cmds, c.ring = n → c.orphan = true)) ∧
    (∃ t, exec (.functionLevelReset fn) s = .next t ∧ (fn = 0 ∨ r.fn = fn → (t.ring n).st = .disabled) ∧
      (fn ≠ 0 → r.fn ≠ fn → (t.ring n).st = r.st ∧ (t.ring n).en = r.en)) ∧
    (∀ on : Bool, fn.toNat ≤ 32 → s.hif.pba = [] →
      let u := s.setHostFn fn { s.hostFn fn with bme := on }
      exec (.busMasterEnableChange fn on) s = .next { u with hif := { u.hif with msixerr := u.hif.msixerr || (on && msixBad u fn) } }) ∧
    ∀ m : BitVec 4, regOpen s who (hifBase + 0x400 + 4 * m.toNat) = true →
      let u := { s with hif := { s.hif with dma := sput DmaCh.reset s.hif.dma m.toNat { rsv := cfg.getLsbD 0, ring := slice cfg 1 12 } } }
      (conflictOf u = none → exec (.dmaChannelConfigWrite who m cfg) s = u.ends .ok) ∧
      (conflictOf s = none → (∀ j < 16, (u.dmaCh j).rsv = true) → exec (.dmaChannelConfigWrite who m cfg) s = s.ends .notPermitted)

/-! ## Commands of the host (R274 to R281, R288 to R290, R427, R484, R485) -/

/-- R254, R275, R277, R279, R280, R281, R427, R488: a command that a check ends completes with that check's outcome; TASK_SUBMIT enqueues its
task and waits on RETRY; TASK_CANCEL cancels; DMA_COPY and DMA_GATHER move bytes through the ring's channel and answer their number; BUDGET_SET writes its words;
FENCE completes when it may start. -/
def Obligations.WorkCommands : Prop :=
  ∀ (s : State) (ring : RingId) (idx : Word) (d : Block64) (a b : Ans) (t u : State),
    let q : QueueId := slice d 64 16
    let e : Entry := slice d 128 256
    let src := dF d 8 8
    let dst := dF d 0x10 8
    let len := dF d 0x18 4
    let done := fun (x : State) (o : Outc) => (completeCmd x ring idx o 0 0 0).settled
    (∀ p ∈ [(1, Instr.taskSubmit ring idx none), (2, .taskCancel ring idx none), (3, .dmaCopy ring idx none), (4, .dmaGather ring idx none),
        (8, .cfgStage ring idx none), (9, .cfgCommit ring idx), (0x11, .budgetSet ring idx), (0x18, .journalAppend ring idx),
        (0x19, .journalCompact ring idx), (0x1A, .journalRead ring idx none), (0x30, .faultInject ring idx), (0x31, .faultQuery ring idx none),
        (0x3F, .hostFence ring idx)],
      ∀ c o, s.cmd ring idx = some c → dOp c.desc = p.1 → c.phase = .accepted → c.retried = false → startable s c = true →
        cmdCheck s c = some o → exec p.2 s = done s o) ∧
    (starts s ring idx d →
      (dOp d = 1 → (slice d 136 9 : ActId) ≠ dAct d → exec (.taskSubmit ring idx none) s = done s .badDescriptor) ∧
      (dOp d = 1 → (slice d 136 9 : ActId) = dAct d → (∀ c ∈ s.hif.cmds, c.retried = false) →
        accPiece s 0x90 (queueBase (queueCluster q) + 64 * (queueLocal q).toNat) (queueTo q e) = .done a t →
        (a.outc ≠ .queueFull → exec (.taskSubmit ring idx none) s = done t a.outc) ∧
        (a.outc = .queueFull → exec (.taskSubmit ring idx none) s = (cmdRetried (tallyAdd t (niBase 0x90 + 0x120) 1) ring idx).settled)) ∧
      (dOp d = 2 → accPiece s 0x90 (queueBase (queueCluster q) + 64 * (queueLocal q).toNat + 0x20)
          (fun x => some (tgtCommand x .fabric q (2 + 2 ^ 64 * dF d 0xC 4))) = .done a t → exec (.taskCancel ring idx none) s = done t a.outc) ∧
      (∀ o, o.good = false → (dOp d = 1 → (slice d 136 9 : ActId) = dAct d → (∀ c ∈ s.hif.cmds, c.retried = false) →
        o ≠ .queueFull → exec (.taskSubmit ring idx (some o)) s = done s o) ∧ (dOp d = 2 → exec (.taskCancel ring idx (some o)) s = done s o)) ∧
      (dOp d = 3 → len = 0 ∨ 16777216 < len → exec (.dmaCopy ring idx none) s = done s .badDescriptor) ∧
      (∀ ch, dOp d = 3 → 0 < len → src % 64 + len ≤ 64 → dst % 64 + len ≤ 64 → src + len ≤ dst ∨ dst + len ≤ src → dmaChannel s ring = some ch →
        devPiece s (.dma (BitVec.ofNat 4 ch)) src len (dAct d) none = .done a t → a.outc = .ok → a.flags = 0 →
        devPiece t (.dma (BitVec.ofNat 4 ch)) dst len (dAct d) (some a.data) = .done b u → b.outc = .ok →
        exec (.dmaCopy ring idx none) s = (completeCmd u ring idx .ok 0 (BitVec.ofNat 32 len) 0).settled) ∧
      (dOp d = 4 → src % 16 ≠ 0 ∨ dF d 0x18 2 = 0 ∨ 1024 < dF d 0x18 2 → exec (.dmaGather ring idx none) s = done s .badDescriptor) ∧
      (∀ ch o, dOp d = 4 → src % 16 = 0 → 0 < dF d 0x18 2 → dF d 0x18 2 ≤ 1024 → dmaChannel s ring = some ch →
        devRead s (.dma (BitVec.ofNat 4 ch)) src (16 * dF d 0x18 2) (dAct d) = .done a t → a.outc = o → o.good = false →
        exec (.dmaGather ring idx none) s = done t o) ∧
      (∀ ch v, let n := leAt a.data 8 4
        dOp d = 4 → src % 16 = 0 → dF d 0x18 2 = 1 → dmaChannel s ring = some ch →
        devRead s (.dma (BitVec.ofNat 4 ch)) src 16 (dAct d) = .done a t → a.outc = .ok → 0 < n → (leAt a.data 0 8 % 2 ^ 44) % 64 + n ≤ 64 →
        dst % 64 + n ≤ 64 → (leAt a.data 0 8 % 2 ^ 44) + n ≤ dst ∨ dst + n ≤ leAt a.data 0 8 % 2 ^ 44 →
        devPiece t (.dma (BitVec.ofNat 4 ch)) (leAt a.data 0 8 % 2 ^ 44) n (dAct d) none = .done b u → b.outc = .ok → b.flags = 0 →
        devPiece u (.dma (BitVec.ofNat 4 ch)) dst n (dAct d) (some b.data) = .done (Ans.only .ok) v →
        exec (.dmaGather ring idx none) s = (completeCmd v ring idx .ok 0 (BitVec.ofNat 32 n) 0).settled) ∧
      (dOp d = 0x11 → 15 < dF d 8 1 → dF d 8 1 ≠ 0xFF → exec (.budgetSet ring idx) s = done s .badDescriptor) ∧
      (dOp d = 0x11 → dF d 8 1 ≤ 15 → dF d 9 1 % 32 ≠ 0 →
        let r : RegionId := BitVec.ofNat 4 (dF d 8 1)
        accPiece s 0x90 (budBase r + (dAct d).toNat * 0x40) (fun x => some (Ans.only .ok, budgetWords x r d)) = .done a t →
        (a.outc = .ok → exec (.budgetSet ring idx) s =
          done (if bitOf (dF d 9 1) 5 then dbudLimWrite t (dAct d) (BitVec.ofNat 32 (dF d 0x20 4)) else t) .ok) ∧
        (a.outc.good = false → exec (.budgetSet ring idx) s = done t a.outc)) ∧
      (dOp d = 0x3F → exec (.hostFence ring idx) s = done s .ok))

/-- R288 to R290, R425, R426, R431, R473, R474, R478, R479, R484, R485: JOURNAL_APPEND waits for its record, JOURNAL_COMPACT for its commit,
JOURNAL_READ writes a live record; FAULT_INJECT waits for its checks, FAULT_QUERY writes what a source holds; CFG_STAGE appends writes to a set, CFG_COMMIT
checks the set as a whole and waits, and at the boundary it takes effect whole. -/
def Obligations.ConfigurationCommands : Prop :=
  ∀ (s : State) (ring : RingId) (idx : Word) (d : Block64) (a g : Ans) (t u : State) (bd : Boundary),
    let typ := dF d 8 1
    let n := dF d 9 1
    let done := fun (x : State) (o : Outc) => (completeCmd x ring idx o 0 0 0).settled
    let app : JAppend := { cmd := some (ring, idx), typ := BitVec.ofNat 8 typ, len := BitVec.ofNat 8 n, key := slice d 80 16,
                           payload := BitVec.ofNat 384 (bits d.toNat 128 (8 * n)), waited := false }
    let isFree := typ = 3 ∨ (0x40 ≤ typ ∧ typ ≤ 0xFE)
    let src := dF d 8 2
    let sid : SourceId := BitVec.ofNat 10 src
    let cnt := dF d 0xA 1
    let set := dF d 8 1
    let num := dF d 0xA 2
    let lst := dF d 0x10 8
    (starts s ring idx d →
      (dOp d = 0x18 → 48 < n ∨ ¬isFree → exec (.journalAppend ring idx) s = done s .badDescriptor) ∧
      (dOp d = 0x18 → n ≤ 48 → 0x40 ≤ typ → typ ≤ 0xFE →
        (s.scv.noRoom app = true → exec (.journalAppend ring idx) s = done s .refused) ∧
        (s.scv.noRoom app = false → exec (.journalAppend ring idx) s =
          (cmdRunning { s with scv := { s.scv with queue := s.scv.queue ++ [app] } } ring idx).settled)) ∧
      (dOp d = 0x19 →
        (s.scv.compact.isSome = true ∨ (∃ c, s.scv.lastCommit = some c ∧ s.cycle < c + 60 * 3932160000) →
          exec (.journalCompact ring idx) s = done s .refused) ∧
        (s.scv.compact = none → (∀ c, s.scv.lastCommit = some c → c + 60 * 3932160000 ≤ s.cycle) →
          exec (.journalCompact ring idx) s = (cmdRunning (compactBegin s (some (ring, idx))) ring idx).settled)) ∧
      (dOp d = 0x1A → dF d 0x18 4 < 64 → exec (.journalRead ring idx none) s = done s .badDescriptor) ∧
      (dOp d = 0x1A → 64 ≤ dF d 0x18 4 →
        let k := pairKey (slice d 80 8) (slice d 64 16)
        ((∀ p ∈ s.scv.live, p.1 ≠ k) → exec (.journalRead ring idx none) s = (completeCmd s ring idx .ok 0 0xFFFFFFFF 0).settled) ∧
        (∀ b, s.scv.live.find? (fun p => p.1 == k) = some (k, b) →
          (devWrite s .scv (dF d 0x10 8) (bytesOfNat 64 b.toNat) (dAct d) = .done a t → a.outc.good = true →
            exec (.journalRead ring idx none) s = (completeCmd t ring idx .ok 0 ((slice b 40 8).setWidth 32) (slice b 0 32)).settled) ∧
          ∀ o, o.good = false → exec (.journalRead ring idx (some o)) s = done s o)) ∧
      (dOp d = 0x30 →
        (cnt = 0 → exec (.faultInject ring idx) s = done s .badDescriptor) ∧
        (cnt ≠ 0 → 1024 ≤ src ∨ injectable sid = false ∨ 16 ≤ s.asy.inj.length → exec (.faultInject ring idx) s = done s .refused) ∧
        (cnt ≠ 0 → src < 1024 → injectable sid = true → s.asy.inj.length < 16 → (∃ j ∈ s.asy.inj, j.src = sid) →
          exec (.faultInject ring idx) s = done s .conflict) ∧
        (cnt ≠ 0 → src < 1024 → injectable sid = true → s.asy.inj.length < 16 → (∀ j ∈ s.asy.inj, j.src ≠ sid) →
          let j : Injection := { src := sid, ring := ring, idx := idx, left := cnt, done := 0, since := s.cycle }
          exec (.faultInject ring idx) s = (cmdRunning { s with asy := { s.asy with inj := s.asy.inj ++ [j] } } ring idx).settled)) ∧
      (dOp d = 0x31 → 1024 ≤ src → src ≠ 0xFFFF → exec (.faultQuery ring idx none) s = done s .badDescriptor) ∧
      (dOp d = 0x31 → src < 1024 → devWrite s .hif (dF d 0x10 8) (queryBytes s sid) (dAct d) = .done a t → a.outc.good = true →
        exec (.faultQuery ring idx none) s = (completeCmd t ring idx .ok 0 ((s.src sid).cnt.setWidth 32) 0).settled) ∧
      (dOp d = 0x31 → src = 0xFFFF → devWrite s .hif (dF d 0x10 8) (fitBytes 256 (s.asy.fatal.flatMap (fun e => bytesOfNat 32 e.toNat))) (dAct d) =
          .done a t → a.outc.good = true →
        exec (.faultQuery ring idx none) s = (completeCmd t ring idx .ok 0 (BitVec.ofNat 32 s.asy.fatal.length) 0).settled) ∧
      (dOp d = 0x08 → 15 < set ∨ num = 0 ∨ 4096 < num ∨ lst % 16 ≠ 0 → exec (.cfgStage ring idx none) s = done s .badDescriptor) ∧
      (dOp d = 0x08 → set ≤ 15 → 0 < num → num ≤ 4096 → lst % 16 = 0 → devRead s .hif lst (16 * num) (dAct d) = .done a t → a.outc = .ok →
        let old := if d.getLsbD 72 then sget 0 t.hif.stages set else 0
        let l := fitBytes (16 * num) a.data
        let pas := (List.range num).map (fun (i : Nat) => leAt l (16 * i) 8 % 2 ^ 44)
        ((∃ pa ∈ pas, isRemote pa = true) → exec (.cfgStage ring idx none) s = done t .notPermitted) ∧
        ((∀ pa ∈ pas, isRemote pa = false) → 4096 < old + num ∨ (∃ pa ∈ pas, stageable t pa = false) →
          exec (.cfgStage ring idx none) s = done t .badDescriptor) ∧
        ((∀ pa ∈ pas, isRemote pa = false ∧ stageable t pa = true) → old + num ≤ 4096 →
          devWrite t .hif (stagePa set old) l (dAct d) = .done g u → g.outc = .ok →
          exec (.cfgStage ring idx none) s = done { u with hif := { u.hif with stages := sput 0 u.hif.stages set (old + num) } } .ok)) ∧
      (dOp d = 0x09 → commitBoundaryOf s d = none → exec (.cfgCommit ring idx) s = done s .badDescriptor) ∧
      (dOp d = 0x09 → commitBoundaryOf s d = some bd → devRead s .hif (stagePa set 0) (16 * sget 0 s.hif.stages set) (dAct d) = .done a t →
        a.outc = .ok →
        let l := (List.range (sget 0 s.hif.stages set)).map (listEnt a.data)
        setGates t l = .done g u → g.outc = .ok →
        let r := runSet (withCommits u) l
        let tick := ticksAt bd.at0.toNat
        (r.refused = true → exec (.cfgCommit ring idx) s = done u .notPermitted) ∧
        (∀ c i, r.refused = false → setConflict u r tick l = some (c, i) →
          exec (.cfgCommit ring idx) s = (completeCmd u ring idx .conflict 0 (BitVec.ofNat 32 (c * 2 ^ 24 + i)) 0).settled) ∧
        (r.refused = false → setConflict u r tick l = none →
          (bd.at0 ≤ u.units → exec (.cfgCommit ring idx) s = done u .deadlineMissed) ∧
          ((u.units : Int) < bd.at0 →
            let c : Commit := { ring := ring, idx := idx, num := bd.num, sfn := bd.sfn, slot := bd.slot, tick := tick, writes := l }
            exec (.cfgCommit ring idx) s = (cmdRunning { u with hif := { u.hif with commits := u.hif.commits ++ [c] } } ring idx).settled)))) ∧
    (∀ (num : BitVec 3) (sfn : BitVec 10) (slot : BitVec 8) (c : Commit), hubPulse s num.toNat sfn.toNat slot.toNat = true → s.hif.commits = [c] →
      c.num = num → c.sfn = sfn → c.slot = slot →
      let v := { s with hif := { s.hif with commits := [] } }
      let r := runSet v c.writes
      (c.tick ≤ ticksAt s.units → r.refused = false → r.timer = none →
        exec (.commitBoundary num sfn slot) s = (completeCmd r.st c.ring c.idx .ok 0 0 0).settled) ∧
      (c.tick ≤ ticksAt s.units → r.refused = true → exec (.commitBoundary num sfn slot) s = (completeCmd v c.ring c.idx .notPermitted 0 0 0).settled) ∧
      (ticksAt s.units < c.tick → exec (.commitBoundary num sfn slot) s = s.settled))

/-- R330, R342, R343, R349, R379, R384, R386, R387, R390, R391: the TIME_CMD and BEACON_CMD commands: read, step, frequency, arm and cancel a timer;
transmit, receive on and off, load a table, read the noise floors, with the checks of each in their order. -/
def Obligations.TimeAndBeaconCommands : Prop :=
  ∀ (s : State) (ring : RingId) (idx : Word) (d : Block64) (a : Ans) (t : State) (o : Outc),
    let done := fun (x : State) (o : Outc) => (completeCmd x ring idx o 0 0 0).settled
    let val : Word := slice d 224 32
    let ts : Ts := { frac := slice d 128 16, ns := slice d 144 32, sec := slice d 176 48 }
    let tm : TimerId := slice d 72 6
    let timers := dF d 9 1 < 64
    let x := s.tmr tm
    let len := dF d 0x18 4
    let slots := min (len / 1088) 256
    let tbl := dF d 9 1
    let floors := (List.range 64).flatMap (fun i => bytesOfNat 2 (if s.cri.nfValid then (sget 0 s.cri.nfVal i).toNat else 0x8000))
    let off : Cri := { s.cri with rx := .idle, pkt := CriPkt.reset }
    starts s ring idx d →
    (dOp d = 0x20 →
      (¬timers → ∀ p ∈ [(0, Instr.timeCmdRead ring idx none), (1, .timeCmdStep ring idx), (2, .timeCmdFrequencyAdjust ring idx),
        (3, .timeCmdArmTimer ring idx), (4, .timeCmdCancelTimer ring idx)], dF d 8 1 = p.1 → exec p.2 s = done s .badDescriptor) ∧
      (dF d 8 1 = 0 → timers → devWrite s .hif (dF d 0x20 8) (timeBytes s) (dAct d) = .done a t → a.outc.good = true →
        exec (.timeCmdRead ring idx none) s = (completeCmd t ring idx .ok 0 s.tick 0).settled) ∧
      (dF d 8 1 = 1 → timers →
        (1 < val.toNat → exec (.timeCmdStep ring idx) s = done s .badDescriptor) ∧
        (val = 0 → let v := stepTime s (tsUnits ts)
          exec (.timeCmdStep ring idx) s = (completeCmd v ring idx .ok 0 v.tick 0).settled) ∧
        (val = 1 → let v := stepTime s (((s.units : Int) + tsSigned ts) % (2 ^ 48 * 1000000000 * 65536)).toNat
          exec (.timeCmdStep ring idx) s = (completeCmd v ring idx .ok 0 v.tick 0).settled)) ∧
      (dF d 8 1 = 2 → timers →
        (val.toInt < -50000000 ∨ 50000000 < val.toInt → exec (.timeCmdFrequencyAdjust ring idx) s = done s .badDescriptor) ∧
        (-50000000 ≤ val.toInt → val.toInt ≤ 50000000 →
          (hostFreq s = false → exec (.timeCmdFrequencyAdjust ring idx) s = done s .refused) ∧
          (hostFreq s = true → exec (.timeCmdFrequencyAdjust ring idx) s = done { s with cmk := { s.cmk with foff := val } } .ok))) ∧
      (dF d 8 1 = 3 → timers →
        (x.owner ≠ .free → x.owner ≠ .host →
          exec (.timeCmdArmTimer ring idx) s = (completeCmd s ring idx .conflict 0 (BitVec.ofNat 32 tm.toNat) 0).settled) ∧
        (x.owner = .free ∨ x.owner = .host →
          let v := s.setTmr tm { x with inst := ts, period := val, periodic := val != 0, armBit := true, armed := true, owner := .host,
                                        skipped := decide (tsUnits ts < s.units) }
          lineClash v = none → exec (.timeCmdArmTimer ring idx) s = done v .ok)) ∧
      (dF d 8 1 = 4 → timers →
        (x.owner ≠ .free → x.owner ≠ .host →
          exec (.timeCmdCancelTimer ring idx) s = (completeCmd s ring idx .conflict 0 (BitVec.ofNat 32 tm.toNat) 0).settled) ∧
        (x.owner = .free ∨ x.owner = .host → exec (.timeCmdCancelTimer ring idx) s =
          done (s.setTmr tm { x with armed := false, owner := .free, armBit := false, skipped := false }) .ok))) ∧
    (dOp d = 0x28 →
      (dF d 8 1 = 0 →
        (beaconCheck s d (some s.cri.txstrm) (min len 1023) true = some o → exec (.beaconTransmit ring idx none) s = done s o) ∧
        (beaconCheck s d (some s.cri.txstrm) (min len 1023) true = none →
          (s.cri.table (slice d 72 4) = none ∨ len = 0 ∨ 1023 < len ∨ 15 < tbl → exec (.beaconTransmit ring idx none) s = done s .badDescriptor) ∧
          ∀ tb, s.cri.table (slice d 72 4) = some tb → 0 < len → len ≤ 1023 → tbl ≤ 15 → tblOk tb = true → tblBits tb s.cri.txpilot ≠ 0 →
            dF d 0x1C 1 = 0xFF →
            (s.cri.tx.isSome = true → exec (.beaconTransmit ring idx none) s = done s .refused) ∧
            (s.cri.tx = none → devRead s .hma (dF d 0x10 8) len (dAct d) = .done a t → a.outc = .ok →
              ∃ w, exec (.beaconTransmit ring idx none) s = (cmdRunning w ring idx).settled ∧ w = { t with cri := w.cri } ∧
                ∃ y, w.cri = { t.cri with tx := some y } ∧ y.payload = fitBytes len a.data ∧ y.table = slice d 72 4 ∧ y.started = false ∧
                  y.ring = ring ∧ y.idx = idx))) ∧
      (dF d 8 1 = 1 →
        (beaconCheck s d (some s.cri.rxstrm) (slots * 1088) true = some o → exec (.beaconReceiveOn ring idx) s = done s o) ∧
        (beaconCheck s d (some s.cri.rxstrm) (slots * 1088) true = none →
          (len < 1088 → exec (.beaconReceiveOn ring idx) s = done s .badDescriptor) ∧
          (1088 ≤ len → s.cri.rx ≠ .idle → exec (.beaconReceiveOn ring idx) s = done s .refused) ∧
          (1088 ≤ len → s.cri.rx = .idle → exec (.beaconReceiveOn ring idx) s =
            let c : Cri := { s.cri with buf := BitVec.ofNat 44 (dF d 0x10 8), nslots := slots, used := [], nextSlot := 0, written := 0,
                                        rx := .search, pkt := CriPkt.reset, act := dAct d }
            (completeCmd { s with cri := c } ring idx .ok 0 (BitVec.ofNat 32 slots) 0).settled))) ∧
      (dF d 8 1 = 2 →
        (s.cri.en = false → exec (.beaconReceiveOff ring idx) s = done s .refused) ∧
        (s.cri.en = true → s.cri.rx = .idle ∨ s.cri.rx = .search →
          exec (.beaconReceiveOff ring idx) s = (completeCmd { s with cri := off } ring idx .ok 0 s.cri.written 0).settled)) ∧
      (dF d 8 1 = 3 →
        (beaconCheck s d none 32 false = some o → exec (.beaconLoadTable ring idx none) s = done s o) ∧
        (beaconCheck s d none 32 false = none →
          (len < 32 ∨ 15 < tbl → exec (.beaconLoadTable ring idx none) s = done s .badDescriptor) ∧
          (32 ≤ len → tbl ≤ 15 → devRead s .hma (dF d 0x10 8) 32 (dAct d) = .done a t → a.outc = .ok →
            let tb : BitVec 256 := BitVec.ofNat 256 (natOfBytes (a.data.take 32))
            ((∃ i < 64, 6 < bits tb.toNat (4 * i) 4) → exec (.beaconLoadTable ring idx none) s = done t .badDescriptor) ∧
            ((∀ i < 64, bits tb.toNat (4 * i) 4 ≤ 6) → exec (.beaconLoadTable ring idx none) s =
              let c : Cri := { t.cri with tables := sput 0 t.cri.tables tbl tb, tblstat := t.cri.tblstat ||| BitVec.ofNat 16 (2 ^ tbl) }
              done { t with cri := c } .ok)))) ∧
      (dF d 8 1 = 4 →
        (beaconCheck s d none 128 true = some o → exec (.beaconReadNoiseFloor ring idx none) s = done s o) ∧
        (beaconCheck s d none 128 true = none →
          (len < 128 → exec (.beaconReadNoiseFloor ring idx none) s = done s .badDescriptor) ∧
          (128 ≤ len → devWrite s .hma (dF d 0x10 8) floors (dAct d) = .done a t → a.outc.good = true →
            exec (.beaconReadNoiseFloor ring idx none) s =
              (completeCmd t ring idx .ok 0 (if s.cri.nfValid then BitVec.ofNat 32 (2 ^ s.cri.log2n.toNat) else 0) 0).settled))))

/-! ## Power (R434 to R456) -/

/-- R437 to R439, R443, R448, R451: POWER_STATE: an undefined TARGET or STATE is BAD_DESCRIPTOR, a DISABLED region ROUTE_FAULT, a unit that is in the state already completes OK;
a refusal names its unit; lowering sends PREPARE to the members, with the thermal check where a regulator goes low; raising starts a wake. -/
def Obligations.PowerCommands : Prop :=
  ∀ (s : State) (ring : RingId) (idx : Word) (d : Block64) (u : PowerUnit),
    let level := dF d 8 1
    let st := dF d 9 1
    let r := (unitRegion u).getD 0
    let done := fun (x : State) (o : Outc) => (completeCmd x ring idx o 0 0 0).settled
    let refuse := fun (ref : Nat) => (completeCmd (tallyAdd { s with lmp := { s.lmp with lastref := BitVec.ofNat 32 ref } } (lmpBase + 0x108) 1)
      ring idx .refused 0 (BitVec.ofNat 32 ref) 0).settled
    let tx := fun (deep : Bool) =>
      let m := powerMembers s u deep
      ({ ring := ring, idx := idx, target := u, state := BitVec.ofNat 8 st, waiting := m, agreed := [], draining := m.isEmpty, since := s.cycle } : PowerTx)
    let held := fun (deep : Bool) => (cmdRunning { s with lmp := { s.lmp with tx := some (tx deep) } } ring idx).settled
    ∀ p ∈ [(0, Instr.powerStateWake ring idx), (1, .powerStateNap ring idx), (2, .powerStateRetain ring idx), (3, .powerStateStandby ring idx),
        (4, .powerStateDeep ring idx)],
      starts s ring idx d → dOp d = 0x10 → st = p.1 → powerTurn s ring idx = true →
      (powerUnit level (dF d 10 2) = none → exec p.2 s = done s .badDescriptor) ∧
      (powerUnit level (dF d 10 2) = some u →
        (powerPair level st = false → exec p.2 s = done s .badDescriptor) ∧
        (powerPair level st = true →
          (level ≠ 0 → (s.region r).st = .disabled → exec p.2 s = done s .routeFault) ∧
          (level = 0 ∨ (s.region r).st ≠ .disabled →
            (powerCode s u = some (BitVec.ofNat 8 st) → exec p.2 s = (completeCmd s ring idx .ok 0 (BitVec.ofNat 32 st) 0).settled) ∧
            (powerCode s u ≠ some (BitVec.ofNat 8 st) →
              (level ≠ 0 → s.lmp.pkg ≠ .run → exec p.2 s = refuse 0x9FFFF) ∧
              (level = 2 → s.lmp.pkg = .run → (s.region r).st ≠ .active → exec p.2 s = refuse (0x90000 + r.toNat)) ∧
              (level = 0 ∨ s.lmp.pkg = .run → level ≠ 2 ∨ (s.region r).st = .active →
                (powerCode s u = none → st ≠ 0 → exec p.2 s = done s .wakeFailed) ∧
                (∀ c, powerCode s u = some c → st < c.toNat → s.lmp.wakes = [] →
                  let w : WakeTx := { target := u, step := .regulator, retries := 0, since := s.cycle, start := s.cycle, cmd := some (ring, idx),
                                      prev := c, goal := BitVec.ofNat 8 st, src := 0x20 }
                  exec p.2 s =
                    (cmdRunning { s with lmp := { s.lmp with wakesrc := s.lmp.wakesrc ||| 0x20, wakes := [w] } } ring idx).settled) ∧
                (∀ c, powerCode s u = some c → c.toNat < st → level = 2 → exec p.2 s = held false) ∧
                (∀ c, powerCode s u = some c → c.toNat < st → level = 1 →
                  let v := sampleTemp s (r.toNat / 4)
                  (regionPred v r ≤ 500 → exec p.2 s = (prepare v ring idx u (BitVec.ofNat 8 st)).settled) ∧
                  (500 < regionPred v r → exec p.2 s = (completeCmd (tallyAdd v (lmpBase + 0x138) 1) ring idx .thermalRefused 0
                    (BitVec.ofNat 32 r.toNat) (BitVec.ofNat 32 (regionPred v r))).settled)) ∧
                (∀ c, powerCode s u = some c → c.toNat < st → level = 0 → s.lmp.wakeEn = 0 → (∀ r, (s.region r).st ≠ .active) →
                  (st = 3 → exec p.2 s = held false) ∧
                  (st = 4 → let v := sampleTemp s 4
                    (aonPred v ≤ 2000 → exec p.2 s = (prepare v ring idx u 4).settled) ∧
                    (2000 < aonPred v → exec p.2 s = (completeCmd (tallyAdd v (lmpBase + 0x138) 1) ring idx .thermalRefused 0 0xFFFF
                      (BitVec.ofNat 32 (aonPred v))).settled))))))))

/-- R435, R436, R439, R441 to R449, R452 to R454: what a power transaction and a wake do step by step: answers, refusal, timeout, the drain, the
entered state; the wake's steps, timeouts and end; predictions, brown-out, reconciliation, operating points and the enabling of a region. -/
def Obligations.PowerTransitions : Prop :=
  ∀ (s : State) (m : Member) (tx : PowerTx) (w : WakeTx) (gc : ClusterId) (r : RegionId) (i : BitVec 2) (who : Initiator) (v : Word) (lv : BitVec 2),
    let x := s.region r
    let c := clusterPower s gc
    let abort := fun (ref : Nat) => (.next (abortTx s tx ref) : Host.Outcome State Fault Refusal)
    let lim := stepLimit w.step
    (s.lmp.tx = some tx →
      (m ∈ tx.waiting → agrees s tx m = true →
        let rest := tx.waiting.filter (fun y => y != m)
        exec (.prepareAnswer m) s = .next { s with lmp :=
          { s.lmp with tx := some { tx with waiting := rest, agreed := tx.agreed ++ [m], draining := rest.isEmpty } } }) ∧
      (∀ pre rest, tx.waiting = pre ++ m :: rest → (∀ y ∈ pre, agrees s tx y = true) → agrees s tx m = false →
        exec (.prepareAnswer m) s = abort (memberRef s tx m)) ∧
      (∀ rest, tx.waiting = m :: rest → tx.since + 393216 ≤ s.cycle → exec .prepareTimeout s = abort (memberRef s tx m + 0x100000)) ∧
      (tx.draining = true → drained s tx = true → s.lmp.held = [] → tx.target = .cluster gc → tx.state = 1 ∨ tx.state = 2 →
        c = .active → powerFailed s gc = false →
        let done := completeCmd s tx.ring tx.idx .ok 0 0 (BitVec.ofNat 32 ((s.cycle - tx.since) * 100 / 393216))
        exec .entryDrainComplete s = .next (tallyAdd (setClusterPower { done with lmp := { done.lmp with tx := none } } gc
          (if tx.state = 1 then .nap else .retain)) (lmpBase + 0x100) 1))) ∧
    (s.lmp.wakeEn.getLsbD i.toNat = true → s.lmp.tx = none → s.lmp.wakes = [] → s.lmp.wfail = false →
      (s.lmp.pkg = .run → exec (.wakePin i) s = .next s) ∧
      (s.lmp.pkg ≠ .run →
        let b : BitVec 8 := BitVec.ofNat 8 (2 ^ i.toNat)
        let y : WakeTx := { target := .package, step := .regulator, retries := 0, since := s.cycle, start := s.cycle, cmd := none, prev := 0,
                            goal := 0, src := b }
        exec (.wakePin i) s = .next { s with lmp := { s.lmp with wakesrc := s.lmp.wakesrc ||| b, wakes := [y] } })) ∧
    (s.lmp.wakeEn.getLsbD i.toNat = true → s.lmp.tx = some tx → tx.target = .package → exec (.wakePin i) s = abort (0x80000 + i.toNat)) ∧
    (s.lmp.wakes = [w] →
      (w.target = .cluster gc → w.cmd = none → c = .nap ∨ c = .retain → w.goal = 0 →
        let y := s.region (clusterRegion gc)
        let u := { s with lmp := { s.lmp with wakes := [], held := s.lmp.held.filter (fun h => h.target != PowerUnit.cluster gc) } }
        let z := u.setRegion (clusterRegion gc) { y.setCl (clusterIndex gc) .active with failed := y.failed.filter (fun k => k != clusterIndex gc) }
        exec (.wakeStepReady w.target) s = .next (powerEvent (tallyAdd z (lmpBase + 0x118) 1) w .ok)) ∧
      (w.target = .package → s.lmp.pkg = .deep → w.step = .regulator →
        exec (.wakeStepReady .package) s = .next { s with lmp := { s.lmp with wakes := [{ w with step := .oscillator, since := s.cycle }] } }) ∧
      (w.since + lim.1 ≤ s.cycle → w.retries < 3 → exec (.wakeStepTimeout w.target) s = .next
        (tallyAdd { s with lmp := { s.lmp with wakes := [{ w with retries := w.retries + 1, since := s.cycle }] } } (lmpBase + 0x120) 1)) ∧
      (w.since + lim.1 ≤ s.cycle → 3 ≤ w.retries → w.target = .region r →
        ∃ t, exec (.wakeStepTimeout w.target) s = .next t ∧ (t.region r).st = .failed ∧ t.lmp.wakes = [])) ∧
    (x.st = .retain → s.lmp.pkg ≠ .deep →
      let t := sampleTemp s (r.toNat / 4)
      (regionPred t r ≤ 450 → exec (.thermalPrediction r) s = .next t) ∧
      (450 < regionPred t r → exec (.thermalPrediction r) s = .next (startWake t (.region r) 0x80 none 0))) ∧
    (x.st = .retain → exec (.brownOut r) s =
      .next (report (tallyAdd (s.setRegion r { x with retlost := true }) (lmpBase + 0x130) 1) (srcRegion r 6) 0)) ∧
    (s.lmp.tx = none → s.lmp.wakes = [] → x.st = .active →
      (2 ≤ lv.toNat → exec (.reconciliation (.region r) lv) s = .next s) ∧
      (lv = 0 → exec (.reconciliation (.region r) lv) s =
        let y : RegionState := { x with st := .disabled, c0 := .off, c1 := .off, c2 := .off, c3 := .off, saved := [], failed := [] }
        .next (report (tallyAdd (s.setRegion r y) (lmpBase + 0x140) 1) (srcRegion r 7) 1)) ∧
      (lv = 1 → exec (.reconciliation (.region r) lv) s =
        .next (report (tallyAdd (regionDown s r) (lmpBase + 0x140) 1) (srcRegion r 7) 1))) ∧
    (regOpen s who (budBase r + 0x80004) = true →
      (fusedOff s r = true ∨ x.opBusy = true → exec (.operatingPointRequest who r v) s = s.ends .notPermitted) ∧
      (fusedOff s r = false → x.opBusy = false → (slice v 0 2 : BitVec 2) ≠ 3 →
        let y := { x with opReq := slice v 0 2 }
        exec (.operatingPointRequest who r v) s = (s.setRegion r (if x.st = .active then opStart s.cycle y else y)).ends .ok)) ∧
    (x.opBusy = true → (x.opEnd ≤ s.cycle → exec (.operatingPointDone r) s = .next (s.setRegion r { x with opBusy := false, opCur := x.opReq })) ∧
      (s.cycle < x.opEnd → exec (.operatingPointDone r) s = .next s)) ∧
    (regOpen s who (budBase r + 0x8000C) = true →
      (fusedOff s r = true → exec (.regionEnable who r) s = s.ends .notPermitted) ∧
      (fusedOff s r = false → x.st ≠ .disabled → exec (.regionEnable who r) s = s.ends .ok) ∧
      (fusedOff s r = false → x.st = .disabled → ∃ t : State, exec (.regionEnable who r) s = t.ends .ok ∧ (t.region r).st = .active ∧
        (t.region r).c0 = .active ∧ (t.region r).c1 = .active ∧ (t.region r).c2 = .active ∧ (t.region r).c3 = .active ∧
        (∀ gc, clusterRegion gc = r → t.initOf (.cm gc) = .busy)))

/-! ## Fronthaul (R296 to R321) -/

/-- R297, R299, R300, R303 to R314, R320: a frame is counted and goes by steps 1 to 8 to the counters, the exception path, the Clockmaker or its stream's
buffer; an IQ packet or type 2 message is classified, counted, and written or dropped; an instance closes at its window's end or with EXPPRB;
the stream's oldest descriptor is enqueued, or waits where the queue is full. -/
def Obligations.FronthaulReceive : Prop :=
  ∀ (s : State) (n : PortId) (f : List Byte) (bad : Bool) (stamp : Ts) (k : StreamId) (who : Initiator) (v : Word) (j : BitVec 2),
    let p := s.port n
    let x := s.strm k
    let count := fun (t : State) (i : Nat) => tallyAdd t (fhpBase + 0x2100 + n.toNat * 0x400 + 8 * i) 1
    let scount := fun (t : State) (i : Nat) => tallyAdd t (fhpBase + 0x80000 + k.toNat * 0x80 + 8 * i) 1
    let c := exec (.frameReceive n f bad stamp) s
    let fits := 64 ≤ f.length ∧ f.length ≤ 9216
    (p.rxEn = true → portExists s n = true → s.lmp.pkg ≠ .deep →
      (f.length < 64 ∨ 9216 < f.length → c = .next (count s 1)) ∧
      (fits → dstOk p f = false → c = .next (count (count s 0) 3)) ∧
      (fits → dstOk p f = true → be16 f 12 = 0x88F7 → c = .next (count s 0)) ∧
      (∀ m, frameTo s n f = .exc m →
        (bad = true → c = .next (count (count s 0) 2)) ∧ (bad = false → p.unkHost = false → c = .next (count (count s 0) 4)) ∧
        (bad = false → p.unkHost = true → (∀ i < s.fhp.exccnt.toNat, sget false s.fhp.excused i = true) →
          c = .next (count (count (count s 0) 4) 7))) ∧
      (∀ typ2 off, frameTo s n f = .strm k typ2 off →
        let m := mkRxMsg k x typ2 bad stamp f off
        (4 ≤ x.pendq.length → c = .next (report (scount (count s 0) 7) (srcHub 1) (BitVec.ofNat 32 (k.toNat + x.port.toNat * 2 ^ 16 + 2 ^ 24)))) ∧
        (x.pendq.length < 4 → bad = false → hdrCheck x typ2 f off = false → c = .next (count (count s 0) 5)) ∧
        (x.pendq.length < 4 → bad = true ∨ hdrCheck x typ2 f off = true →
          (1048576 < rxFill p + m.body.length + m.hdr.length → c = .next (count (count s 0) 6)) ∧
          (rxFill p + m.body.length + m.hdr.length ≤ 1048576 → c = .next ((count s 0).setPort n { p with rx := p.rx ++ [m] })))) ∧
      (frameTo s n f = .size ↔ ¬fits)) ∧
    (∀ (m : RxMsg) (rest : List RxMsg), p.rx = m :: rest → m.strm = k →
      let s0 := s.setPort n { p with rx := rest }
      let id := symId m.hdr
      let u := tsUnits m.stamp
      let fr := nearFrame s u id.frame
      let sTick := symStart x.num.toNat fr id
      let map := prbMap (hdrStart m.hdr) (hdrNum m.hdr)
      let tick : Word := BitVec.ofNat 32 (ticksAt u)
      (x.en = false → exec (if m.typ2 then .type2MessageReceive n else .iqPacketReceive n) s = .next (count s0 4)) ∧
      (m.typ2 = false → x.en = true → x.tx = false → criOwns s s.cri.rxstrm k fr id = false →
        let cl := pktClass x m.fcsBad id.ident map sTick tick
        let s1 := scount s0 cl.tal
        (m.fcsBad = false → tickReached tick (sTick + ticks8 x.wopen) = false → cl = .early) ∧
        (m.fcsBad = false → tickReached tick (sTick + ticks8 x.wopen) = true → tickReached tick (sTick + ticks8 x.wclose) = true → cl = .late) ∧
        (cl ≠ .onTime → p.deliverBad = false → x.deliverBad = false → exec (.iqPacketReceive n) s = .next s1) ∧
        (∀ o fl a t, cl = .onTime → id.ok x.num.toNat = true → hdrFmt m.hdr = x.fmt.toNat → hdrStart m.hdr + hdrNum m.hdr ≤ 273 →
          m.body.length = hdrNum m.hdr * prbSize x.fmt.toNat →
          fhpStores s1 x.act ((List.range (hdrNum m.hdr)).map (fun i => (bufAddr x id + hdrStart m.hdr * 48 + 48 * i,
            partBytes (prbParts x.fmt.toNat ((m.body.drop (prbSize x.fmt.toNat * i)).take (prbSize x.fmt.toNat)))))) = (o, fl, 0, .done a t) →
          exec (.iqPacketReceive n) s = .next (settleIq (strmTalN t k 6 0) k .onTime sTick id.ident map (hdrNum m.hdr) (0 ||| fl) o))) ∧
      (m.typ2 = true → x.en = true → x.tx = false →
        let cl := if m.fcsBad then .fcsBad else windowClass x sTick tick
        let s1 := scount s0 cl.tal
        (cl ≠ .onTime → p.deliverBad = false → x.deliverBad = false → exec (.type2MessageReceive n) s = .next s1) ∧
        (∀ o fl a t, cl = .onTime → id.ok x.num.toNat = true →
          fhpStores s1 x.act [(bufAddr x id, m.body.take (x.stride.toNat * 64))] = (o, fl, 0, .done a t) →
          exec (.type2MessageReceive n) s =
            .next (ownDesc (strmTalN t k 6 0) k sTick id.ident 0 false (cdiv m.body.length 8) (0 ||| fl) o)))) ∧
    (∀ i, x.insts[j.toNat]? = some i → i.opened = true →
      let form := 0 < marked i.map ∨ x.emptyDesc = true
      let y := { x with insts := x.insts.map (fun z => if z.seq = i.seq then { i with opened := false, formed := decide form } else z) }
      (tickReached s.tick (i.s + ticks8 x.wclose + 512) = false → exec (.symbolCloseTimeout k j) s = .next s) ∧
      (tickReached s.tick (i.s + ticks8 x.wclose + 512) = true → x.expprb.toNat ≤ marked i.map →
        (form → exec (.symbolCloseTimeout k j) s = .next (s.setStrm k { y with closing := x.closing ++
          [strmDesc k x i.s i.ident (marked i.map) false 0 i.flags i.outc] })) ∧
        (¬form → exec (.symbolCloseTimeout k j) s = .next (s.setStrm k y)))) ∧
    (∀ d rest, x.pendq = [] → x.closing = d :: rest →
      ((queueWay s 0x91 d.q).1 = .pass → queueTakes s d.q d.e →
        ∃ t, exec (.symbolDescriptorEnqueue k none) s = .next t ∧ queueGained s t d.q d.e ∧ (t.strm k).closing = rest) ∧
      ((queueWay s 0x91 d.q).1 = .pass → (enqueue s .fabric d.q d.e).1 = .full →
        ∃ t, exec (.symbolDescriptorEnqueue k none) s = .next t ∧ (t.strm k).pendq = [d] ∧ (t.strm k).closing = rest) ∧
      (∀ o, o.good = false → exec (.symbolDescriptorEnqueue k (some o)) s = .next (s.setStrm k { x with closing := rest }))) ∧
    (regOpen s who (fhpBase + 0x18) = true → exec (.exceptionBufferFree who v) s =
      ({ s with fhp := { s.fhp with excused := sput false s.fhp.excused (bits v.toNat 0 8) false } }).ends .ok)

/-- R303, R315, R316, R320, R374: a transmit stream takes an entry while it holds fewer than four; at the send tick it reads the samples and sends them, or the entry is
done with its outcome: BAD_DESCRIPTOR, DEADLINE_MISSED past TXSLACK, or the read's; each gives a record unless NOCOMPL, which is enqueued. -/
def Obligations.FronthaulTransmit : Prop :=
  ∀ (s : State) (n : StreamId) (e : Entry) (a : Ans) (t : State),
    let x := s.strm n
    let due := tickReached s.tick (eDeadline e) = true
    let slack := (s.tick - eDeadline e).toNat ≤ s.fhp.txslack.toNat
    let len := if x.type2 then txNum e else 48 * txNum e
    let pa := bits e.toNat 64 44
    let held := fun (u : State) => (u.strm n).held = []
    let recd := fun (u : State) (o : Outc) => (u.strm n).recs = x.recs ++ (if e.getLsbD 176 then [] else
      [{ q := slice e 160 16, e := mkRecord (BitVec.ofNat 256 (e.toNat / 16 * 16 + 2)) o 0 0 2 0 0 0 s.tick }])
    (x.en = true → x.tx = true → x.held.length < 4 → ((s.slice (queueCluster x.qid)).queue (queueLocal x.qid)).typ = 2 →
      clusterGate s (queueCluster x.qid) false = .pass → dequeue s x.qid = (a, t) → a.outc.good = true → natOfBytes a.data % 2 ^ 256 ≠ 0 →
      let h : Entry := BitVec.ofNat 256 (natOfBytes a.data)
      criOwns s s.cri.txstrm n (txFrame s h) (txIdent h) = false →
      exec (.txEntryDequeue n) s = .next (t.setStrm n { t.strm n with held := (t.strm n).held ++ [{ e := h }] })) ∧
    (x.held = [{ e := e }] → ∀ path,
      (txEntryOk s x e = false → ∃ u, exec (.txSend n path) s = .next u ∧ held u ∧ recd u .badDescriptor ∧ u.fhp.sent = s.fhp.sent) ∧
      (txEntryOk s x e = true → ¬due → exec (.txSend n path) s = .next s) ∧
      (txEntryOk s x e = true → due → s.asy.safe = true ∨ ¬slack →
        ∃ u, exec (.txSend n path) s = .next u ∧ held u ∧ recd u .deadlineMissed ∧ u.fhp.sent = s.fhp.sent ∧
          u.tally = (tallyAdd s (fhpBase + 0x80000 + n.toNat * 0x80 + 72) 1).tally) ∧
      (txEntryOk s x e = true → due → slack → s.asy.safe = false → (s.port x.port).txEn = true → path = none →
        (∀ o, extentCheck pa len = some o → ∃ u, exec (.txSend n path) s = .next u ∧ held u ∧ recd u o ∧ u.fhp.sent = s.fhp.sent) ∧
        (extentCheck pa len = none → accRead s .fhp pa len x.act = .done a t → a.outc.good = true → t.fhp = s.fhp → t.cmk = s.cmk →
          ∃ u, exec (.txSend n path) s = .next u ∧ held u ∧ recd u .ok ∧ (u.strm n).seqId = x.seqId + 1 ∧
            u.fhp.sent = some { strm := n, at0 := s.tick, seqId := x.seqId, hdr := txHeader x (txIdent e) (txStart e) (txNum e),
                                body := txBody x (txNum e) a.data }))) ∧
    ∀ d rest, x.recs = d :: rest →
      ((queueWay s 0x91 d.q).1 = .pass → queueTakes s d.q d.e →
        ∃ u, exec (.txRecordEnqueue n none) s = .next u ∧ queueGained s u d.q d.e ∧ (u.strm n).recs = rest) ∧
      (∀ o, o.good = false → exec (.txRecordEnqueue n (some o)) s = .next (s.setStrm n { x with recs := rest }))

/-- R296, R298, R305, R311, R317, R319, R320, R482: delay measurement: a request is answered with its stamp, a two-step one at its follow-up, a response places the
delay, none within 10 ms times out; a quad's mode changes only with its ports disabled; a stream is enabled over buffer memory and without a conflict;
lanes lose lock and links change. -/
def Obligations.FronthaulPorts : Prop :=
  ∀ (s : State) (n : PortId) (id : BitVec 8) (peer comp : BitVec 64) (who : Initiator) (v : Word) (q : BitVec 3) (k : StreamId) (b : Bool),
    let p := s.port n
    let x := s.strm k
    let y := strmCfgSet x (v ||| 1)
    let z := strmCfgSet x (v &&& ~~~1)
    let mode : BitVec 3 := slice v 0 3
    let lane : BitVec 2 := slice v 4 2
    let msg := fun (action : BitVec 8) (stamp : Ts) (c : Word) => ({ action := action, measId := id, stamp := stamp, comp := c } : OwdSent)
    let sends := fun (t : State) (action : BitVec 8) (stamp : Ts) (c : Word) =>
      tallyAdd (t.setPort n { t.port n with owdOut := some (msg action stamp c) }) (fhpBase + 0x2140 + n.toNat * 0x400) 1
    (p.rxEn = true → portExists s n = true → s.lmp.pkg ≠ .deep → p.txEn = true → s.asy.safe = false →
      exec (.delayRequestReceive n false id) s = .next (sends s 2 s.now p.owdcomp) ∧
      (let l := p.owdReqs.filter (fun r => r.measId != id) ++ [{ measId := id, stamp := s.now }]
       exec (.delayRequestReceive n true id) s = .next (s.setPort n { p with owdReqs := l })) ∧
      ((∀ r ∈ p.owdReqs, r.measId ≠ id) → exec (.delayFollowUpReceive n id) s = .next (tallyAdd s (fhpBase + 0x2120 + n.toNat * 0x400) 1)) ∧
      (∀ stamp, p.owdReqs = [{ measId := id, stamp := stamp }] →
        exec (.delayFollowUpReceive n id) s = .next (sends (s.setPort n { p with owdReqs := [] }) 2 stamp p.owdcomp)) ∧
      (p.busy = true → exec (.remoteDelayRequestReceive n id) s = .next (sends s 0 s.now 0)) ∧
      (p.busy = false → exec (.remoteDelayRequestReceive n id) s = .next
        (sends (s.setPort n { p with busy := true, tmo := false, owdSince := s.cycle, owdId := id, owdTx := s.now }) 0 s.now 0))) ∧
    (p.rxEn = true → portExists s n = true → s.lmp.pkg ≠ .deep →
      (p.busy = true → p.owdId = id →
        let d : BitVec 31 := BitVec.ofInt 31 (((peer.toNat : Int) * 65536 - tsUnits p.owdTx - comp.toInt) / 65536)
        exec (.delayResponseReceive n id peer comp) s = .next (s.setPort n { p with busy := false, valid := true, delay := d })) ∧
      (p.busy = false ∨ p.owdId ≠ id → exec (.delayResponseReceive n id peer comp) s = .next s)) ∧
    (portExists s n = true → regOpen s who (fhpBase + 0x2020 + n.toNat * 0x400) = true →
      (p.busy = true → exec (.delayMeasurementStart who n v) s = s.ends .notPermitted) ∧
      (p.busy = false → slice v 8 8 = id → p.txEn = true → s.asy.safe = false → v.getLsbD 1 = false →
        let u := s.setPort n { p with followup := false, measId := id, valid := false, busy := true, tmo := false, owdSince := s.cycle, owdId := id,
                                      owdTx := s.now }
        ∃ t : State, exec (.delayMeasurementStart who n v) s = t.ends .ok ∧ t.port n = (sends u 0 s.now 0).port n ∧ t.tally = (sends u 0 s.now 0).tally)) ∧
    (p.busy = true →
      (39321600 ≤ s.cycle - p.owdSince → exec (.delayMeasurementTimeout n) s = .next (s.setPort n { p with busy := false, tmo := true })) ∧
      (s.cycle - p.owdSince < 39321600 → exec (.delayMeasurementTimeout n) s = .next s)) ∧
    (regOpen s who (fhpBase + 0x1000 + 0x10 * q.toNat) = true → mode.toNat ≤ 4 →
      let h := s.quad q.toNat
      (mode = h.mode → exec (.quadModeWrite who q v) s = (s.setQuad q.toNat { h with reclane := lane }).ends .ok) ∧
      (mode ≠ h.mode → (∃ i < 4, (s.port (BitVec.ofNat 5 (4 * q.toNat + i))).rxEn = true ∨ (s.port (BitVec.ofNat 5 (4 * q.toNat + i))).txEn = true) →
        exec (.quadModeWrite who q v) s = s.ends .notPermitted) ∧
      (mode ≠ h.mode → (∀ i < 4, (s.port (BitVec.ofNat 5 (4 * q.toNat + i))).rxEn = false ∧ (s.port (BitVec.ofNat 5 (4 * q.toNat + i))).txEn = false) →
        ∃ t : State, exec (.quadModeWrite who q v) s = t.ends .ok ∧ t.quad q.toNat = { h with mode := mode, reclane := lane, link := 0 } ∧
          ∀ i < 4, (t.ptpPort (BitVec.ofNat 5 (4 * q.toNat + i))).st = .disabled)) ∧
    (regOpen s who (fhpBase + 0x40004 + 0x40 * k.toNat) = true →
      (y.tx = false → x.en = false → isBuffer y.dst = false → exec (.streamEnable who k v) s = s.ends .notPermitted) ∧
      (y.tx = true ∨ x.en = true ∨ isBuffer y.dst = true → conflictOf (s.setStrm k y) = none →
        exec (.streamEnable who k v) s = (s.setStrm k y).ends .ok) ∧
      (y.tx = true ∨ x.en = true ∨ isBuffer y.dst = true → (conflictOf (s.setStrm k y)).isSome = true → conflictOf s = none →
        exec (.streamEnable who k v) s = s.ends .notPermitted) ∧
      (x.insts = [] → exec (.streamDisable who k v) s = (s.setStrm k z).ends .ok)) ∧
    (exec (.laneLockChange q true) s = .next (s.setQuad q.toNat { s.quad q.toNat with reclos := false })) ∧
    (∃ t, exec (.laneLockChange q false) s = .next t ∧ t.quad q.toNat = { s.quad q.toNat with reclos := true } ∧
      ∀ i, (s.csrc i).typ = 4 → (s.csrc i).inst.toNat = q.toNat → (t.csrc i).valid = false) ∧
    (portExists s n = true →
      let h := s.quad (n.toNat / 4)
      let w : BitVec 4 := BitVec.ofNat 4 (2 ^ (n.toNat % 4))
      exec (.fronthaulLinkChange n b) s = .next (s.setQuad (n.toNat / 4) { h with link := if b then h.link ||| w else h.link &&& ~~~w })) ∧
    (portExists s n = false → exec (.fronthaulLinkChange n b) s = .next s)

/-! ## The Clockmaker (R327 to R351) -/

/-- R332 to R339, R342 to R344, R347, R348, R351: selections and the states that follow; measurements; the end of HOSPEC; timers that fire, arm and
disarm; PPS; snapshots and slot pulses. -/
def Obligations.ClockCommands : Prop :=
  ∀ (s : State) (i : BitVec 3) (phase : BitVec 64) (ppb : BitVec 32) (c : SrcChange) (t : TimerId) (who : Initiator) (v : Word) (n : Bool),
    let k := s.cmk
    let tsel := bestSrc s true k.tsrc
    let fsel := bestSrc s false k.fsrc
    let s1 := { s with cmk := { k with tsrc := tsel, fsrc := fsel } }
    let switched := timeEvent (tallyAdd s1 (cmkBase + 0x2000) 1) 4 k.st.code
    let x := s.tmr t
    let e := phaseError s i phase
    let y := s.csrc c.slot
    let set : Tmr := { x with periodic := v.getLsbD 1, evt := v.getLsbD 2, line := slice v 8 4,
                              outsel := keepIf (decide (5 < bits v.toNat 3 3)) x.outsel (slice v 3 3) }
    (k.en = false → exec .sourceSelection s = .next s) ∧
    (k.en = true → tsel = k.tsrc → fsel = k.fsrc → k.st = .locked ∨ k.st = .acquiring → tsel.isSome = true ∨ fsel.isSome = true →
      exec .sourceSelection s = .next s1) ∧
    (k.en = true → tsel ≠ k.tsrc ∨ fsel ≠ k.fsrc → tsel.isSome = true ∨ fsel.isSome = true → k.st = .freerun ∨ k.st = .locked ∨ k.st = .holdover →
      exec .sourceSelection s = .next { switched with cmk := { switched.cmk with st := .acquiring, good := 0 } }) ∧
    (k.en = true → k.tsrc.isSome = true → tsel = none → fsel = none → k.st = .locked →
      ∃ u, exec .sourceSelection s = .next u ∧ u.cmk.st = .holdover ∧ u.cmk.hospec = true ∧ u.cmk.hoSince = s.cycle ∧ u.cmk.hoFromTime = true ∧
        u.cmk.tsrc = none ∧ u.cmk.fsrc = none) ∧
    (k.en = true → k.tsrc.isSome = true ∨ k.fsrc.isSome = true → tsel = none → fsel = none → k.st = .acquiring →
      exec .sourceSelection s = .next { switched with cmk := { switched.cmk with st := .freerun, good := 0, foff := 0 } }) ∧
    (y.en = true → y.typ = 1 ∨ y.typ = 2 ∨ y.typ = 5 →
      let since := if c.valid = true ∧ y.valid = false then s.cycle else y.since
      exec (.sourceValidityChange c) s =
        .next (s.setCsrc c.slot { y with valid := c.valid, since := since, ql := if y.typ = 5 then c.ql else y.qlcfg })) ∧
    (y.en = false → exec (.sourceValidityChange c) s = .next s) ∧
    (k.en = true → k.tsrc = some i →
      (k.st = .acquiring → k.autostep = true → 4 * k.stepthr.toNat < e.natAbs →
        let u := stepTime { s with cmk := { k with pherr := BitVec.ofInt 32 e } } ((s.units : Int) + e * 16384).toNat
        exec (.phaseMeasurement i phase ppb) s = .next { u with cmk := { u.cmk with pherr := 0, good := 0 } }) ∧
      (k.st ≠ .acquiring → ∃ u, exec (.phaseMeasurement i phase ppb) s = .next u ∧ u.cmk.pherr = BitVec.ofInt 32 e ∧ u.cmk.st = k.st ∧
        u.units = s.units) ∧
      (k.st = .acquiring → e.natAbs ≤ 4 * k.stepthr.toNat → e.natAbs < k.lockthr.toNat →
        ∃ u, exec (.phaseMeasurement i phase ppb) s = .next u ∧ u.cmk.pherr = BitVec.ofInt 32 e ∧ u.units = s.units ∧
          (k.good + 1 < 16 → u.cmk.good = k.good + 1 ∧ u.cmk.st = .acquiring) ∧ (16 ≤ k.good + 1 → u.cmk.st = .locked))) ∧
    (k.st = .holdover → k.hospec = true →
      (k.spec.toNat * rootHz ≤ s.cycle - k.hoSince →
        exec .holdoverSpecExpiry s = .next (timeEvent { s with cmk := { k with hospec := false } } 6 3)) ∧
      (s.cycle - k.hoSince < k.spec.toNat * rootHz → exec .holdoverSpecExpiry s = .next s)) ∧
    (x.armed = true → x.due ≤ s.units → s.lmp.pkg ≠ .deep → x.skipped = false → x.evt = false →
      (x.periodic = false → x.owner ≠ .pps → x.outsel = 0 →
        exec (.eventTimerFire t) s = .next (s.setTmr t { x with armed := false, owner := .free, skipped := false, late := x.late })) ∧
      (x.periodic = true → x.period ≠ 0 → x.owner ≠ .pps → x.outsel = 3 →
        let d := x.due + x.period.toNat * 65536
        let u := { s with gpo := { s.gpo with lines := s.gpo.lines ^^^ BitVec.ofNat 16 (2 ^ x.line.toNat) } }
        exec (.eventTimerFire t) s = .next (u.setTmr t { x with inst := unitsTs d, skipped := decide (d < s.units), late := x.late }))) ∧
    (x.armed = false ∨ s.units < x.due → exec (.eventTimerFire t) s = .next s) ∧
    (regOpen s who (cmkBase + 0x1000 + 0x20 * t.toNat) = true →
      (x.owner ≠ .free → x.owner ≠ .host → exec (.timerArm who t v) s = s.ends .conflict ∧ exec (.timerDisarm who t v) s = s.ends .conflict) ∧
      (x.owner = .free ∨ x.owner = .host →
        let u := s.setTmr t { set with armBit := true, armed := true, owner := .host, skipped := decide (tsUnits x.inst < s.units) }
        (lineClash u = none → exec (.timerArm who t v) s = u.ends .ok) ∧
        ((lineClash u).isSome = true → lineClash s = none → exec (.timerArm who t v) s = s.ends .conflict) ∧
        ∃ w : State, exec (.timerDisarm who t v) s = w.ends .ok ∧ w.tmr t = { set with armBit := false, armed := false, owner := .free, skipped := false })) ∧
    (let p := s.pps n
     regOpen s who (cmkBase + 0x200 + 0x10 * (if n then 1 else 0)) = true →
      ((s.pps (!n)).en = true → (s.pps (!n)).timer = slice v 1 6 → exec (.ppsEnable who n v) s = s.ends .notPermitted) ∧
      (p.en = false → (s.pps (!n)).en = false → (s.tmr (slice v 1 6)).owner = .free →
        let q : Pps := { p with en := true, timer := slice v 1 6, pol := v.getLsbD 7,
                                width := keepIf (slice v 8 16 == (0 : BitVec 16)) p.width (slice v 8 16) }
        let u := s.setPps n q
        let z : Tmr := { s.tmr (slice v 1 6) with armBit := true, armed := true, periodic := true, period := 1000000000, owner := .pps,
                                                  skipped := false, inst := unitsTs (ppsInstant p.off s.units) }
        exec (.ppsEnable who n v) s = (u.setTmr (slice v 1 6) z).ends .ok)) ∧
    (regOpen s who (cmkBase + 0x30) = true →
      (v.getLsbD 0 = false → exec (.timeSnapshot who v) s = s.ends .ok) ∧
      (v.getLsbD 0 = true → ∃ u : State, exec (.timeSnapshot who v) s = u.ends .ok ∧ u.cmk.snap0.toNat = k.sec % 2 ^ 32 ∧
        u.cmk.snap1.toNat = k.sec / 2 ^ 32 % 2 ^ 16 + 2 ^ 16 * (k.frac % 2 ^ 16) ∧ u.cmk.snap2.toNat = k.ns % 2 ^ 32 ∧ u.cmk.snap3 = s.tick ∧
        u = { s with cmk := u.cmk })) ∧
    (let num : BitVec 3 := i
     num.toNat ≤ 4 → s.lmp.pkg = .run → k.ns % (1000000 / 2 ^ num.toNat) * 65536 + k.frac < 133334 →
      let w : Word := BitVec.ofNat 32 (2 ^ 31 + sfnNow s * 65536 + k.ns % 10000000 / (1000000 / 2 ^ num.toNat))
      exec (.slotPulse num) s = .next { s with cmk := { k with pulses := sput 0 k.pulses num.toNat w } })

/-- R318, R319, R333, R334, R337, R340, R341, R351: an edge of PPS_IN is noted, a time-of-day message labels it, and an edge off its instant or
without a label makes the GNSS slots invalid; PTP and ESMC frames give their slots rank and validity; a PTP message leaves in the states that send it, with the
clockClass of the Clockmaker's state and a two-step stamp. -/
def Obligations.ClockMessages : Prop :=
  ∀ (s : State) (edge : Ts) (isTime badSum : Bool) (sec : BitVec 48) (n : PortId) (m : PtpMsg) (ssm : BitVec 4) (o rx : Ts) (seq : BitVec 16),
    let k := s.cmk
    let p := s.ptpPort n
    let count := fun (u : State) (i j : Nat) => tallyAdd u (cmkBase + 0x2000 + 8 * i) j
    let noted := { s with cmk := { k with ppsIn := some edge, ppsLabel := none } }
    let gnssOff := fun (u : State) => ∀ i, (s.csrc i).typ = 1 → (u.csrc i).valid = false
    let live := (s.port n).rxEn = true ∧ portExists s n = true ∧ s.lmp.pkg ≠ .deep ∧ p.en = true
    let stamp := corrected s.now (s.port n).tscorr.toInt
    let out := corrected s.now (-(s.port n).tscorr.toInt)
    let cls := if k.st = .locked ∧ k.timeok = true then (6 : BitVec 8)
      else if k.st = .holdover ∧ k.role = 2 then (if k.hospec then 7 else 140)
      else if k.st = .holdover ∧ k.role ≠ 0 then (if k.hospec then 135 else 165) else 248
    let after := fun (kind : PtpSend) => s.setPtpPort n { p with seq := p.seq + 1, sent := some (kind, cls, out) }
    let sent := fun (kind : PtpSend) => tallyAdd (after kind) (fhpBase + 0x2140 + n.toNat * 0x400) 1
    (k.ppsIn = none → exec (.ppsInEdge edge) s = .next noted) ∧
    (∀ old, k.ppsIn = some old →
      (tsUnits edge = tsUnits old + 1000000000 * 65536 → k.ppsLabel ≠ none → exec (.ppsInEdge edge) s = .next noted) ∧
      (tsUnits edge = tsUnits old + 1000000000 * 65536 → k.ppsLabel = none → ∃ u, exec (.ppsInEdge edge) s = .next u ∧ gnssOff u) ∧
      (∀ j, 2 ≤ j → tsUnits edge = tsUnits old + j * (1000000000 * 65536) →
        ∃ u, exec (.ppsInEdge edge) s = .next u ∧ gnssOff u ∧ u.tally = (count s 3 (j - 1)).tally)) ∧
    (isTime = false ∨ badSum = true → exec (.todMessageReceive isTime badSum sec) s = .next (count s 4 1)) ∧
    (∀ old, isTime = true → badSum = false → k.ppsIn = some old → tsUnits old ≤ s.units → s.units ≤ tsUnits old + 500000000 * 65536 →
      exec (.todMessageReceive isTime badSum sec) s = .next { s with cmk := { k with ppsLabel := some sec } }) ∧
    (¬live → exec (.ptpFrameReceive n m) s = .next s) ∧
    (live →
      (∀ c d, d ≠ k.domain → exec (.ptpFrameReceive n (.announce c d)) s = .next s) ∧
      (∀ c, ∃ u, exec (.ptpFrameReceive n (.announce c k.domain)) s = .next u ∧ (u.ptpPort n).clockClass = c ∧
        (u.ptpPort n).st ∈ [PtpState.master, .passive, .uncalibrated, .slave] ∧ (k.role = 2 → (u.ptpPort n).st ∈ [PtpState.master, .passive])) ∧
      (∀ b, p.st = .slave ∨ p.st = .uncalibrated →
        exec (.ptpFrameReceive n (.sync o b seq)) s = .next (s.setPtpPort n { p with lastSync := some (o, stamp), seq := seq })) ∧
      (p.seq = seq → (∃ z, p.lastSync = some (z, rx)) →
        exec (.ptpFrameReceive n (.followUp o seq)) s = .next (s.setPtpPort n { p with lastSync := some (o, rx) }))) ∧
    ((s.port n).rxEn = true → portExists s n = true → s.lmp.pkg ≠ .deep → ∃ u, exec (.esmcFrameReceive n ssm) s = .next u ∧
      ∀ i, (u.csrc i) = if (s.csrc i).en = true ∧ (s.csrc i).typ = 4 ∧ (s.csrc i).inst.toNat = n.toNat / 4 then
        { (s.csrc i).setValid s.cycle (ssm != 15 && !(s.quad (n.toNat / 4)).reclos) with ql := ssmRank ssm } else s.csrc i) ∧
    (∀ kind, p.en = true → (s.port n).txEn = true → s.asy.safe = false → s.lmp.pkg ≠ .deep →
      (ptpMaySend p.st kind = false → exec (.ptpMessageTransmit n kind) s = .next s) ∧
      (kind = .announce → p.st = .master → exec (.ptpMessageTransmit n kind) s = .next (sent kind)) ∧
      (kind = .sync ∧ p.st = .master ∧ (s.port n).oneStep = false ∨ kind = .delayReq ∧ p.st = .slave →
        (s.fhp.egress.length < 16 → exec (.ptpMessageTransmit n kind) s =
          let u := sent kind
          .next { u with fhp := { u.fhp with egress := u.fhp.egress ++ [{ port := n, seqId := p.seq, stamp := out }] } }) ∧
        (16 ≤ s.fhp.egress.length → exec (.ptpMessageTransmit n kind) s = .next (count (sent kind) 5 1))))

/-! ## The cascade (R352 to R371) -/

/-- R353 to R359, R365 to R368: a frame is taken by a listening port, counted, and dropped when malformed or corrupt; a token's visit sends up to QUOTA waiting frames and the token;
the manager strips duplicates and regenerates a lost token; frames of others go on, own ones are stripped; requests, responses, enqueues and their
answers act and are answered; a remote access takes a slot, which closes with its response or after 2 ms. -/
def Obligations.CascadeFrames : Prop :=
  ∀ (s : State) (f : CasFrame) (ini : Initiator) (typ : PktType) (pa : Pa) (mask : BitVec 64) (d : List Byte) (act : ActId) (slot : BitVec 8)
    (n : BitVec 4) (a a0 : Ans) (u u0 : State),
    let count := fun (t : State) (i : Nat) => tallyAdd t (casBase + 0x200 + 8 * i) 1
    let got := count (casQuiet s) 1
    let g := { f with hops := f.hops + 1 }
    let clean := f.crcBad = false ∧ f.stomped = false
    let x := s.casRing f.east
    let visit := fun (t : State) => (t.casRing f.east).outq = x.outq.drop s.cas.quota.toNat ∧
      (t.casRing f.east).sent = x.outq.take s.cas.quota.toNat ++ [mkFrame s 1 0 f.east false f.tag 0 0 []]
    let y := s.casSlot slot.toNat
    let z := s.xq n.toNat
    let dropped := fun (t : State) (o : Nat) =>
      report (count (t.setXq n.toNat { z with entry := none }) 9) (srcHub 3) (BitVec.ofNat 32 (1 + 16 * n.toNat + 256 * o))
    (casListens s f.east = false →
      (f.typ = 1 → exec (.tokenReceive f) s = .next s) ∧ (f.typ = 3 → exec (.rspReceive f) s = .next s) ∧
      (f.typ = 5 → exec (.enqrspReceive f) s = .next s) ∧ exec (.frameTransit f) s = .next s) ∧
    (casListens s f.east = true → casMine s f = false → f.typ ≠ 1 → f.typ ≠ 6 →
      (frameOk f = false → clean → exec (.frameTransit f) s = .next (count got 2)) ∧
      (frameOk f = true → clean → f.src = s.mgc.pkgid ∨ f.hops = 30 → exec (.frameTransit f) s = .next (count got 5)) ∧
      (frameOk f = true → f.src ≠ s.mgc.pkgid → f.hops ≠ 30 → f.typ ≠ 7 →
        (clean → exec (.frameTransit f) s = .next (casSend got f.east g)) ∧
        (f.crcBad = true → f.stomped = false → exec (.frameTransit f) s =
          .next (casSend (count got 3) f.east { g with crcBad := false, stomped := true })))) ∧
    (casListens s f.east = true → frameOk f = true → f.crcBad = true → f.stomped = false →
      (f.typ = 1 → exec (.tokenReceive f) s = .next (count got 3)) ∧ (f.typ = 5 → casMine s f = true → exec (.enqrspReceive f) s = .next (count got 3)) ∧
      (f.typ = 3 → casMine s f = true → s.cas.deliverBad = false → exec (.rspReceive f) s = .next (count got 3))) ∧
    (casListens s f.east = true → frameOk f = true → clean →
      (f.typ = 1 → s.asy.safe = false → casMaySend s = true → (s.casPort (!f.east)).wrap = false →
        (isManager s = false → ∃ t, exec (.tokenReceive f) s = .next t ∧ visit t) ∧
        (isManager s = true → x.seen = true → s.cycle - x.lastAt ≤ usCycles s.cas.toktmo.toNat → laterGen f.tag x.lastGen = true →
          exec (.tokenReceive f) s = .next (count got 7)) ∧
        (isManager s = true → x.seen = false ∨ laterGen f.tag x.lastGen = false →
          ∃ t, exec (.tokenReceive f) s = .next t ∧ visit t ∧ (t.casRing f.east).lastGen = f.tag ∧ (t.casRing f.east).lastAt = s.cycle)) ∧
      (f.typ = 2 → casMine s f = true →
        (windowPa (bits (pF f.payload 0 8) 0 36) = none → exec (.reqReceive f) s = .next (casQueue got (rspFrame got g (Ans.only .routeFault)))) ∧
        (reqAnswer s f = .done a0 u0 → reqAnswer got g = .done a u → exec (.reqReceive f) s = .next (casQueue u (rspFrame u g a)))) ∧
      (f.typ = 3 → casMine s f = true →
        (casOpen s f.tag = none → exec (.rspReceive f) s = .next (count got 8)) ∧
        (∀ i k, casOpen s f.tag = some (i, .access ini none k) → outcOf f.outcome ≠ .uncorrectable → exec (.rspReceive f) s =
          .next ((got.setCasSlot i { s.casSlot i with use := .free }).answer
            { outc := outcOf f.outcome, flags := BitVec.ofNat 32 (pF f.payload 0 4), data := f.payload.drop 8, poison := [] }))) ∧
      (f.typ = 4 → casMine s f = true →
        let q : QueueId := BitVec.ofNat 16 (pF f.payload 0 2)
        let e : Entry := BitVec.ofNat 256 (pF f.payload 8 32)
        let answer := fun (t : State) (o : Outc) => casQueue t (mkFrame t 5 f.src f.ring false f.tag f.act o.code [])
        (queueWay s 0x92 q).1 = .pass →
        (enqueue got .cascade q e = (.accepted, u) → exec (.enqReceive f) s = .next (answer u .ok)) ∧
        (enqueue got .cascade q e = (.full, u) → exec (.enqReceive f) s = .next (answer u .queueFull)) ∧
        (∀ o, enqueue got .cascade q e = (.refused o, u) → exec (.enqReceive f) s = .next (answer u o))) ∧
      (f.typ = 5 → casMine s f = true → ∀ i e, casOpen s f.tag = some (i, .xq n) → z.entry = some e →
        (f.outcome = 0 → exec (.enqrspReceive f) s =
          .next ((got.setCasSlot i { s.casSlot i with use := .free }).setXq n.toNat { z with entry := none })) ∧
        (f.outcome ≠ 0 → f.outcome ≠ Outc.queueFull.code →
          exec (.enqrspReceive f) s = .next (dropped (got.setCasSlot i { s.casSlot i with use := .free }) f.outcome.toNat)) ∧
        (f.outcome = Outc.queueFull.code →
          ∃ t, exec (.enqrspReceive f) s = .next t ∧ (t.xq n.toNat).entry = some e ∧ (t.casSlot i).use = .xq n))) ∧
    (isManager s = true → casRuns s = true → ∀ r : Bool,
      let w := s.casRing r
      (s.cycle - w.lastAt < usCycles s.cas.toktmo.toNat → exec (.tokenRegenerate r) s = .next s) ∧
      (usCycles s.cas.toktmo.toNat ≤ s.cycle - w.lastAt → s.asy.safe = false → (s.casPort (!r)).wrap = false →
        ∃ t, exec (.tokenRegenerate r) s = .next t ∧ (t.casRing r).sent = [mkFrame s 1 0 r false (w.lastGen + 1) 0 0 []] ∧
          (t.casRing r).lastGen = w.lastGen + 1 ∧ (t.casRing r).lastAt = s.cycle)) ∧
    (∀ p off, place pa = .remote p off → reqShape typ pa = true →
      (casRoute s p = none → exec (.remoteAccess ini typ pa mask d act) s = s.ends .routeFault) ∧
      (∀ r i, casRoute s p = some r → memberHolds s .cas = false → freeCasSlot s = some i →
        let t := s.setCasSlot i { s.casSlot i with use := .access ini none typ, since := s.cycle }
        exec (.remoteAccess ini typ pa mask d act) s =
          .next (casQueue t (mkFrame s 2 p r false (BitVec.ofNat 16 (i + 256 * (s.casSlot i).gen.toNat)) act 0 (reqPayload typ off mask d))))) ∧
    (∀ p k, y.use = .access ini p k →
      (s.cycle - y.since < usCycles 2000 → exec (.remoteSlotTimeout slot) s = .next s) ∧
      (usCycles 2000 ≤ s.cycle - y.since →
        exec (.remoteSlotTimeout slot) s = .next (s.setCasSlot slot.toNat { y with use := .free, gen := y.gen + 1 }))) ∧
    (y.use = .xq n → usCycles 2000 ≤ s.cycle - y.since →
      exec (.remoteSlotTimeout slot) s = .next (dropped (s.setCasSlot slot.toNat { y with use := .free, gen := y.gen + 1 }) 3)) ∧
    (∀ r i, z.en = true → z.entry = none → memberHolds s .cas = false → casRoute s z.pkg = some r → freeCasSlot s = some i →
      (queueWay s 0x92 z.lqid).1 = .pass → dequeue s z.lqid = (a, u) → u.cas = s.cas → a.outc = .ok → (a.data.any (fun b => b != 0)) = true →
      ∃ t, exec (.exportDequeue n) s = .next t ∧ (t.xq n.toNat).entry = some (BitVec.ofNat 256 (natOfBytes a.data)) ∧
        (t.casSlot i).use = .xq n ∧ (t.casRing r).outq.length = (s.casRing r).outq.length + 1)

/-- R334, R361 to R364, R369, R370: the manager polls on both rings every POLLPER and clears a package after three missed polls; a worker forwards a poll,
joins and replies; replies mark presence; a worker without polls leaves; a port that loses lock wraps, gains lock, takes a wrap indication, reports LINKOK after the hold,
and passes again after UNWRAP. -/
def Obligations.CascadePolling : Prop :=
  ∀ (s : State) (f : CasFrame) (e : Bool) (who : Initiator) (v : Word) (k : PkgId),
    let c := s.cas
    let p := s.casPort e
    let clean := f.crcBad = false ∧ f.stomped = false
    let bit := fun (i : Nat) => (BitVec.ofNat 16 (2 ^ i) : BitVec 16)
    (isManager s = true → casRuns s = true →
      (s.cycle - c.lastPoll < usCycles c.pollper.toNat → exec .pollSend s = .next s) ∧
      (usCycles c.pollper.toNat ≤ s.cycle - c.lastPoll →
        ∃ t, exec .pollSend s = .next t ∧ t.cas.pollSeq = c.pollSeq + 1 ∧ t.cas.lastPoll = s.cycle ∧ t.cas.unwrapReq = false ∧
          t.cas.present.getLsbD 0 = true ∧
          (k ≠ 0 → c.pollmask.getLsbD k.toNat = true → (s.peer k).answered = false → 3 ≤ (s.peer k).missed + 1 →
            t.cas.present.getLsbD k.toNat = false) ∧
          (k ≠ 0 → c.pollmask.getLsbD k.toNat = false ∨ (s.peer k).answered = true ∨ (s.peer k).missed + 1 < 3 →
            t.cas.present.getLsbD k.toNat = c.present.getLsbD k.toNat) ∧
          (s.asy.safe = false → c.east.wrap = false → c.west.wrap = false → ∀ r : Bool, ∃ m, (t.casRing r).sent = [m] ∧ m.typ = 6 ∧ m.src = s.mgc.pkgid ∧
            m.bcast = true ∧ m.ring = r ∧ m.tag = c.pollSeq + 1))) ∧
    (f.typ = 6 → f.src ≠ s.mgc.pkgid → casListens s f.east = true → frameOk f = true → clean → f.hops ≠ 30 → s.asy.safe = false →
      c.east.wrap = false → c.west.wrap = false → isManager s = false →
      ∃ t, exec (.pollReceive f) s = .next t ∧ t.cas.joined = true ∧ t.cas.present = BitVec.ofNat 16 (pF f.payload 0x14 2) ∧ t.cas.lastPoll = s.cycle ∧
        (∃ m, (t.casRing f.east).sent = [m] ∧ m.typ = 6 ∧ m.hops = f.hops + 1 ∧ m.src = f.src ∧ m.tag = f.tag) ∧
        ((pF f.payload 4 4).testBit s.mgc.pkgid.toNat = true → ∃ m, (t.casRing (!f.east)).sent = [m] ∧ m.typ = 7 ∧ m.dst = 0 ∧ m.tag = f.tag) ∧
        ((pF f.payload 4 4).testBit s.mgc.pkgid.toNat = false → (t.casRing (!f.east)).sent = [])) ∧
    (f.typ = 7 → casMine s f = true → isManager s = true → casListens s f.east = true → frameOk f = true → clean →
      let got := tallyAdd (casQuiet s) (casBase + 0x208) 1
      (pF f.payload 0 2 ≠ c.pollSeq.toNat → exec (.replyReceive f) s = .next got) ∧
      (pF f.payload 0 2 = c.pollSeq.toNat → ∃ t, exec (.replyReceive f) s = .next t ∧ (t.peer f.src).answered = true ∧ (t.peer f.src).missed = 0 ∧
        (t.peer f.src).mailbox = (f.payload.drop 0x30).take 16 ∧ t.cas.present = c.present ||| bit f.src.toNat ∧
        (f.ring = true → (t.peer f.src).hops = f.hops + 1 ∧ (t.peer f.src).hopsValid = true))) ∧
    (isManager s = false → c.joined = true →
      (s.cycle - c.lastPoll < 4 * usCycles c.pollper.toNat → exec .joinTimeout s = .next s) ∧
      (4 * usCycles c.pollper.toNat ≤ s.cycle - c.lastPoll → ∃ t, exec .joinTimeout s = .next t ∧ t.cas = { c with joined := false, present := 0 } ∧
        ∀ i, (s.csrc i).typ = 5 → (t.csrc i).valid = false)) ∧
    (p.lock = true → p.wrap = false →
      let d : Word := BitVec.ofNat 32 (2 + if e then 0 else 16)
      let wrapped := fun (q : CasPort) => report (tallyAdd (s.setCasPort e q) (casBase + 0x258) 1) (srcHub 3) d
      (casRuns s = false → exec (.linkLockLoss e) s = .next (s.setCasPort e { p with lock := false, linkok := false, indication := false })) ∧
      (casRuns s = true →
        (∃ t, exec (.linkLockLoss e) s = .next t ∧ t.casPort e = { p with lock := false, linkok := false, indication := false, wrap := true, since := s.cycle } ∧
          t.tally = (wrapped p).tally) ∧
        (p.unwrapAt = none →
          ∃ t, exec (.wrapIndicationReceive e) s = .next t ∧ (t.casPort e).wrap = true ∧ (t.casPort e).indication = true ∧
            (t.casPort e).linkok = false ∧ (t.casPort e).lock = true ∧ (p.indication = false → (t.casPort e).since = s.cycle)) ∧
        (∀ at0, p.unwrapAt = some at0 → s.cycle - at0 < usCycles 1000 → exec (.wrapIndicationReceive e) s = .next s))) ∧
    (p.lock = false → c.straperr = false → exec (.cascadeRxLockGain e) s = .next (s.setCasPort e { p with lock := true, since := s.cycle })) ∧
    (p.lock = true → exec (.cascadeRxLockGain e) s = .next s) ∧
    (p.wrap = true → p.lock = true → p.indication = true →
      (usCycles 100000 ≤ s.cycle - p.since → exec (.wrapHoldExpiry e) s = .next (s.setCasPort e { p with linkok := true })) ∧
      (s.cycle - p.since < usCycles 100000 → exec (.wrapHoldExpiry e) s = .next s)) ∧
    (regOpen s who (casBase + 4) = true →
      exec (.unwrap who v) s = ({ s with cas := { c with en := v.getLsbD 0, unwrapReq := c.unwrapReq || isManager s } }).ends .ok)

/-! ## The Crier (R372 to R395) -/

/-- R372, R377, R382, R384 to R389, R390: what the receiver makes of a symbol in each state; one masked symbol of a transmission at a time, the last of which completes the command;
receive slots are freed; EN needs streams that fit the band, and its end stops the Crier; REFVALID falls after HOLD. -/
def Obligations.CrierCommands : Prop :=
  ∀ (s : State) (p : List (BitVec 32)) (o : CriObs) (m gain : BitVec 16) (at0 : Ts) (h foff : Word) (b : List Bool) (who : Initiator) (v : Word),
    let c := s.cri
    let count := fun (t : State) (i : Nat) => tallyAdd t (criBase + 0x100 + 8 * i) 1
    let fresh : CriPkt := { CriPkt.reset with metric := m, gain := gain, start := at0, nco0 := c.nco }
    let begun := fun (t : State) => (.next { t with cri := { t.cri with rx := .sync, agcGain := slice gain 0 8, pkt := fresh } } :
      Host.Outcome State Fault Refusal)
    let failed := fun (i : Nat) =>
      let t := count s i
      (.next { t with cri := { c with rx := .search, pkt := CriPkt.reset } } : Host.Outcome State Fault Refusal)
    let hd := c.pkt.header
    let d := tblBits (c.pkt.table.getD 0) (hd.getLsbD 14)
    let all := c.pkt.stream ++ (List.range d).map (fun i => (b[i]?).getD false)
    let rcv := fun (x : CriObs) => exec (.beaconSymbolReceive p x) s
    (c.en = false ∨ c.rx = .idle → rcv o = .next s) ∧
    (c.en = true → c.rx = .search → rcv .quiet = .next { s with cri := noiseAdd c p }) ∧
    (c.en = true → c.rx = .search →
      (m.toNat < c.detthr.toNat → rcv (.preamble m gain at0) = .next { s with cri := noiseAdd c p }) ∧
      (c.detthr.toNat ≤ m.toNat → ∃ t, rcv (.preamble m gain at0) = .next t ∧ t.cri.rx = .sync ∧ t.cri.pkt = { fresh with nco0 := t.cri.nco } ∧
        t.cri.agcGain = slice gain 0 8 ∧ t.cri.nfVal = (noiseAdd c p).nfVal ∧ t.tally = (count s 0).tally)) ∧
    (c.en = true → c.evfail = false → c.rx = .sync ∨ c.rx = .header →
      (c.pkt.metric.toNat + c.capmargin.toNat < m.toNat → rcv (.preamble m gain at0) = begun (count s 1)) ∧
      (m.toNat ≤ c.pkt.metric.toNat + c.capmargin.toNat → rcv (.preamble m gain at0) = .next s)) ∧
    (c.en = true → c.rx = .sync →
      rcv (.chirps true foff) = .next { s with cri := { c with rx := .header, pkt := { c.pkt with residual := foff } } } ∧ rcv (.chirps false foff) = failed 7) ∧
    (c.en = true → c.evfail = false → c.rx = .header →
      (hcrcOk h = false → ∃ t, rcv (.header h) = .next t ∧ t.cri.rx = .search ∧ t.cri.pkt = CriPkt.reset ∧ t.tally = (count s 2).tally) ∧
      (hcrcOk h = true → hdrTable c h = none → ∃ t, rcv (.header h) = .next t ∧ t.cri.rx = .search ∧ t.tally = (count s 3).tally) ∧
      (∀ tb, hcrcOk h = true → hdrTable c h = some tb → rcv (.header h) =
        let y : CriPkt := { c.pkt with header := h, table := some tb }
        .next { s with cri := { c with rx := .payload, pkt := y, nco := if c.fmode then c.nco + c.pkt.residual else c.nco } })) ∧
    (c.en = true → c.evfail = false → c.rx = .payload →
      (c.pkt.syms + 1 < cdiv (8 * (hdrLen hd + 2)) d → ∃ t, rcv (.payload b foff) = .next t ∧ t.cri.pkt.stream = all ∧
        t.cri.pkt.syms = c.pkt.syms + 1 ∧ t.cri.rx = .payload ∧ t.cri.pkt.residual = if c.fmode = false ∧ hd.getLsbD 14 = true then foff else c.pkt.residual) ∧
      (cdiv (8 * (hdrLen hd + 2)) d ≤ c.pkt.syms + 1 → payloadOk all (hdrLen hd) = false →
        ∃ t, rcv (.payload b foff) = .next t ∧ t.cri.rx = .search ∧ t.tally = (count s 4).tally) ∧
      (cdiv (8 * (hdrLen hd + 2)) d ≤ c.pkt.syms + 1 → payloadOk all (hdrLen hd) = true → c.refEn = false → (∀ i < c.nslots, sget false c.used i = true) →
        ∃ t, rcv (.payload b foff) = .next t ∧ t.cri.rx = .search ∧ t.tally = (count s 6).tally)) ∧
    (c.tx = none ∨ maskedNow s = none → exec .beaconSymbolTransmit s = .next s) ∧
    (∀ t0 k i, c.tx = some t0 → maskedNow s = some (k, i) → c.en = true → s.lmp.pkg ≠ .deep → t0.started = true ∨ t0.timer = 0xFF →
      let x := s.strm c.txstrm
      let first := if t0.started then t0.firstTick else symStart x.num.toNat k i
      ∃ u, exec .beaconSymbolTransmit s = .next u ∧
        (∃ y, u.fhp.sent = some y ∧ y.strm = c.txstrm ∧ y.at0 = s.tick ∧
          y.hdr = txHeader x i c.startprb.toNat (bandOf s c.txstrm / 12)) ∧
        (t0.used + 1 < t0.total → ∃ z, u.cri.tx = some z ∧ z.used = t0.used + 1 ∧ z.started = true ∧ z.firstTick = first ∧ z.payload = t0.payload) ∧
        (t0.total ≤ t0.used + 1 → u.cri.tx = none ∧ (u.cmd t0.ring t0.idx) = none)) ∧
    (regOpen s who (criBase + 0x38) = true → exec (.receiveSlotFree who v) s =
      ({ s with cri := { c with used := sput false c.used (bits v.toNat 0 8) false } }).ends .ok) ∧
    (regOpen s who (criBase + 4) = true →
      let on : Cri := { c with en := true, fmode := v.getLsbD 1, txpilot := v.getLsbD 2, evfail := v.getLsbD 3 }
      let off : Cri := { c with en := false, fmode := v.getLsbD 1, txpilot := v.getLsbD 2, evfail := v.getLsbD 3 }
      (c.en = false → criStreamOk s c.rxstrm = false ∨ criStreamOk s c.txstrm = false → exec (.crierEnable who v) s = s.ends .notPermitted) ∧
      (c.en = true ∨ (criStreamOk s c.rxstrm = true ∧ criStreamOk s c.txstrm = true) → conflictOf { s with cri := on } = none →
        exec (.crierEnable who v) s = ({ s with cri := on }).ends .ok) ∧
      (c.tx = none → c.rx = .idle ∨ c.rx = .search →
        exec (.crierDisable who v) s = ({ s with cri := { off with rx := .idle, pkt := CriPkt.reset } }).ends .ok)) ∧
    (c.refvalid = true →
      (s.cycle - c.refAt < c.hold.toNat * rootHz → exec .referenceHoldExpiry s = .next s) ∧
      (c.hold.toNat * rootHz ≤ s.cycle - c.refAt → ∃ t, exec .referenceHoldExpiry s = .next t ∧ t.cri = { c with refvalid := false } ∧
        ∀ i, (s.csrc i).en = true → (s.csrc i).typ = 6 → (t.csrc i).valid = false)) ∧
    (c.refvalid = false → exec .referenceHoldExpiry s = .next s)

/-! ## Stored data (R396 to R418) -/

/-- R397, R399, R400, R405, R410, R412, R415: a bulk access answers what its controller reads or writes: an 8-byte word as stored, corrected, or UNCORRECTABLE;
a due scrub read passes 8 words; the clear of the written-block map; the flip mask. -/
def Obligations.StoredData : Prop :=
  ∀ (s : State) (ini : Initiator) (pa : Pa) (len : Nat) (d : List (Option Byte)) (poison : BitVec 128) (act : ActId) (who : Initiator) (m : McId) (v : Word)
    (a : Ans) (t : State),
    let e := s.edc
    let x := s.mc m.toNat
    let blocks := bits v.toNat 0 24
    ((bulkMc pa.toNat).isSome = true →
      (accRead s ini pa.toNat len act = .done a t → exec (.bulkMemoryRead ini pa len act) s = .next (t.answer a)) ∧
      (accWrite s ini pa.toNat d ((List.range 128).map (fun i => poison.getLsbD i)) act = .done a t →
        exec (.bulkMemoryWrite ini pa d poison act) s = .next (t.answer a))) ∧
    (∀ k w, bulkMc w = some k → 2 ≤ k → w % 8 = 0 → s.asy.inj = [] →
      let syn := (s.synOf w).toNat
      let r := bulkRead1 s w 8 act
      (syn = 0 → r = ({ outc := .ok, flags := 0, data := s.bytes w 8, poison := List.replicate 4 false }, s)) ∧
      (∀ i, eccClass syn = .single (some i) →
        r.1 = { outc := .okFlagged, flags := 0x80, data := flipBit (s.bytes w 8) i, poison := List.replicate 4 false }) ∧
      (eccClass syn = .bad ∨ eccClass syn = .poison → r.1.outc = .uncorrectable ∧ r.1.poison = List.replicate 4 true) ∧
      (∀ b, r.2.byte b = s.byte b)) ∧
    (m.toNat < 19 → 2 ≤ m.toNat → x.scrubEn = true → mcReady s m.toNat = true → mcOn s m.toNat = true →
      (s.cycle - x.scrubSince < x.interval.toNat * 16 → exec (.scrubRead m) s = .next s) ∧
      (x.interval.toNat * 16 ≤ s.cycle - x.scrubSince → (∀ w, s.synOf w = 0) → s.asy.inj = [] →
        (x.scrubpos.toNat + 8 < mcWords m.toNat → exec (.scrubRead m) s =
          .next (s.setMc m.toNat { x with scrubpos := BitVec.ofNat 31 (x.scrubpos.toNat + 8), scrubSince := s.cycle })) ∧
        (mcWords m.toNat ≤ x.scrubpos.toNat + 8 → exec (.scrubRead m) s =
          .next (tallyAdd (s.setMc m.toNat { x with scrubpos := 0, scrubSince := s.cycle }) (mcBase m.toNat + 0x138) 1)))) ∧
    (regOpen s who (edcPkg + 4) = true →
      (e.clrLeft ≠ 0 → exec (.wmapClearStart who v) s = s.ends .notPermitted) ∧
      (e.clrLeft = 0 → blocks = 0 ∨ 8388608 < e.clrFirst.toNat + blocks → exec (.wmapClearStart who v) s = s.ends .ok) ∧
      (e.clrLeft = 0 → 0 < blocks → e.clrFirst.toNat + blocks ≤ 8388608 →
        exec (.wmapClearStart who v) s = ({ s with edc := { e with clrLeft := blocks, clrNext := e.clrFirst.toNat } }).ends .ok)) ∧
    (s.lmp.pkg ≠ .deep →
      (e.clrLeft = 1 → exec .wmapClearDone s =
        .next { s with edc := { e with written := sput false e.written e.clrNext false, clrNext := e.clrNext + 1, clrLeft := 0 } }) ∧
      (e.clrLeft ≠ 1 → exec .wmapClearDone s = .next s)) ∧
    (regOpen s who (mcBase m.toNat + 0x18) = true → mcListed s m.toNat = true →
      (x.arm = true → exec (.flipArm who m v) s = s.ends .notPermitted) ∧
      (x.arm = false → exec (.flipArm who m v) s = (s.setMc m.toNat { x with chk := slice v 0 8, arm := true }).ends .ok))

/-! ## The Assayer (R419 to R433) -/

/-- R420 to R426, R429, R433: the oldest event of a source is counted, classified in its window, and reacted to; a source that is disabled only counts;
REPORT_PATH faults are marked; a window closes at its end; ASY_UNFENCE ends the fences of a source; an injection times out after 1 s; the log takes its
oldest record. -/
def Obligations.AssayerCommands : Prop :=
  ∀ (s : State) (n : SourceId) (det : Word) (ev : FaultEv) (rest : List FaultEv) (who : Initiator) (v : Word) (r : Entry) (l : List Entry),
    let x := s.src n
    let count := fun (t : State) (i : Nat) => tallyAdd t (asyBase + 0x100 + 8 * i) 1
    let queue := { s with asy := { s.asy with queued := sput [] s.asy.queued n.toNat rest } }
    let counted := count (tallyAdd queue (asyBase + 0x10010 + 0x20 * n.toNat) 1) 0
    let seen : FaultSrc := { x with lastDet := ev.detail }
    let open0 := x.wopen = false ∨ x.windowEnd ≤ s.cycle
    let cls := fun (k : Nat) => if k < x.thresh.toNat then (1 : BitVec 3) else 2
    let flags := 16 * (if ev.durinj then 1 else 0) + 32 * (if x.rpf then 1 else 0)
    let done := fun (y : FaultSrc) => react (counted.setSrc n y) n y.lastClass.toNat flags
      (if y.lastClass.toNat < 2 then x.loreact.toNat else x.hireact.toNat) y.cnt ev.detail
    (srcListed n = false ∨ s.mgc.porst = true → exec (.faultSourceEvent n det) s = .next s ∧ exec (.reportPathFault n) s = .next s) ∧
    (srcListed n = true → s.mgc.porst = false → sget [] s.asy.queued n.toNat = ev :: rest → ev.inj = false →
      (x.en = false → exec (.faultSourceEvent n det) s = .next (counted.setSrc n seen)) ∧
      (x.en = true → x.kind = 2 → exec (.faultSourceEvent n det) s = .next (done { seen with lastClass := 3 })) ∧
      (x.en = true → x.kind = 1 → exec (.faultSourceEvent n det) s = .next (done { seen with lastClass := 0 })) ∧
      (x.en = true → x.kind = 0 → open0 → exec (.faultSourceEvent n det) s =
        .next (done { seen with wopen := true, cnt := 1, windowEnd := s.cycle + winCycles x, lastClass := cls 1 })) ∧
      (x.en = true → x.kind = 0 → ¬open0 → x.cnt ≠ 0xFFFF → exec (.faultSourceEvent n det) s =
        .next (done { seen with cnt := x.cnt + 1, lastClass := cls (x.cnt.toNat + 1) }))) ∧
    (srcListed n = true → s.mgc.porst = false → exec (.reportPathFault n) s =
      .next (react (count (s.setSrc n { x with rpf := true }) 4) n 4 32 s.asy.rpreact.toNat x.cnt x.lastDet)) ∧
    (x.wopen = true →
      (x.windowEnd ≤ s.cycle → exec (.faultWindowClose n) s = .next (s.setSrc n { x with wopen := false, cnt := 0 })) ∧
      (s.cycle < x.windowEnd → exec (.faultWindowClose n) s = .next s)) ∧
    (regOpen s who (asyBase + 0x18) = true → ∃ t : State, exec (.asyUnfence who v) s = t.ends .ok ∧
      t.asy = { s.asy with fences := s.asy.fences.filter (fun f => f.src != slice v 0 10) } ∧ t = { s with asy := t.asy, elems := t.elems }) ∧
    (∀ j, s.asy.inj = [j] → j.src = n →
      (s.cycle < j.since + 3932160000 → exec (.faultInjectTimeout n) s = .next s) ∧
      (j.since + 3932160000 ≤ s.cycle → exec (.faultInjectTimeout n) s =
        .next (completeCmd { s with asy := { s.asy with inj := [] } } j.ring j.idx .timeout 0 (BitVec.ofNat 32 j.done) 0))) ∧
    (s.asy.buf = r :: l →
      (s.ready .hub = false ∨ s.lmp.pkg = .deep → exec .logRecordWrite s = .next s) ∧
      (s.ready .hub = true → s.lmp.pkg ≠ .deep → (s.mc 2).arm = false →
        let lo := hubBase + (s.asy.logBase.toNat + 32 * (bits r.toNat 192 32 % 2 ^ s.asy.log2n.toNat)) % 0x2000000
        lo % 32 = 0 → ∃ t, exec .logRecordWrite s = .next t ∧ t.asy = { s.asy with buf := l } ∧
          ∀ b, t.byte b = if lo ≤ b ∧ b < lo + 32 then (bytesOfNat 32 r.toNat).getD (b - lo) 0 else s.byte b))

/-! ## The Scrivener and the board (R469 to R481, R498, R499) -/

/-- R471, R473, R474: the oldest append is written with the next SEQ at its ring position when there is a token, and its command completes with SEQ; without a token it waits,
counted once; compaction starts at the fill limit and commits when the snapshot has been written. -/
def Obligations.JournalCommands : Prop :=
  ∀ (s : State) (a : JAppend) (rest : List JAppend) (c : Compaction),
    let x := s.scv
    let count := fun (t : State) (i : Nat) => tallyAdd t (scvBase + 0x100 + 8 * i) 1
    let rec0 := mkRec x.next a
    let free := s.lmp.pkg ≠ .deep ∧ 9 ≤ s.mgc.step.toNat ∧ x.wroteAt + 4096 ≤ s.cycle
    let wrote := { s with scv := { x with queue := rest, bucket := x.bucket - 3932160000, wroteAt := s.cycle, next := x.next + 1,
                                          store := sput 0 x.store (131072 + x.next.toNat % 131072) rec0 } }
    (x.queue = a :: rest →
      (¬free → exec .journalRecordWrite s = .next s) ∧
      (free → x.bucket < 3932160000 →
        (a.waited = true → exec .journalRecordWrite s = .next s) ∧
        (a.waited = false → exec .journalRecordWrite s =
          .next (count { s with scv := { x with queue := { a with waited := true } :: rest } } 3))) ∧
      (free → 3932160000 ≤ x.bucket →
        (a.cmd = none → exec .journalRecordWrite s = .next (count wrote 0)) ∧
        (∀ ring idx, a.cmd = some (ring, idx) → exec .journalRecordWrite s = .next (count (completeCmd wrote ring idx .ok 0 x.next 0) 0)))) ∧
    (slice rec0 0 32 = x.next ∧ slice rec0 32 8 = a.typ ∧ slice rec0 40 8 = a.len ∧ slice rec0 48 16 = a.key ∧
      (a.len.toNat ≤ 48 → bits rec0.toNat 64 (8 * a.len.toNat) = a.payload.toNat % 2 ^ (8 * a.len.toNat)) ∧
      (a.len.toNat ≤ 48 → a.typ ≠ 0 → a.typ ≠ 0xFF → recValid rec0 = true)) ∧
    (x.compact = none → s.lmp.pkg ≠ .deep →
      (x.fill < 98304 → exec .compactionStart s = .next s) ∧
      (98304 ≤ x.fill → ∃ t, exec .compactionStart s = .next t ∧ t = { s with scv := t.scv } ∧
        t.scv.compact = some { cmd := none, cut := x.next - 1, area := !x.area, count := x.live.length, since := s.cycle } ∧
        ∀ p, p < (if x.area then 0 else 65536) ∨ (if x.area then 0 else 65536) + x.live.length ≤ p → sget 0 t.scv.store p = sget 0 x.store p)) ∧
    (x.compact = some c →
      exec .compactionStart s = .next s ∧
      (s.cycle < c.since + 4096 * (c.count + 1) ∨ ¬free → exec .compactionCommit s = .next s) ∧
      (c.since + 4096 * (c.count + 1) ≤ s.cycle → free → ∃ t, exec .compactionCommit s = .next t ∧ t.scv.compact = none ∧ t.scv.area = c.area ∧
        t.scv.count = c.count ∧ t.scv.cut = c.cut ∧ t.scv.next = x.next + 1 ∧ t.scv.lastCommit = some s.cycle ∧
        t.scv.store = sput 0 x.store (131072 + x.next.toNat % 131072) (mkRec x.next (commitRec x c.area c.count c.cut))))

/-- R498, R499: the SMBus target at 0x40 + package ID sets its offset with a 4-byte block write and reads the register there, or refuses; JTAG instructions select what the boundary register drives and whether
BYPASS stands between TDI and TDO. -/
def Obligations.BoardInterfaces : Prop :=
  ∀ (s : State) (addr : BitVec 7) (count : Nat) (off : Word) (ir : JtagIr),
    let b := s.board
    let mine := s.mgc.porst = false ∧ addr.toNat = 0x40 + s.mgc.pkgid.toNat
    let o := b.smbOffset.toNat
    let nack := (.next { s with board := { b with smbNack := true } } : Host.Outcome State Fault Refusal)
    let tap := fun (t : State) (i : JtagIr) (m : TapMode) (byp : Bool) =>
      (.next { t with board := { t.board with tapIr := i, tapMode := m, tapBypass := byp } } : Host.Outcome State Fault Refusal)
    (¬mine → exec (.smbusBlockWrite addr count off) s = .next s ∧ exec (.smbusBlockRead addr) s = .next s) ∧
    (mine →
      exec (.smbusBlockWrite addr 4 off) s = .next { s with board := { b with smbOffset := off, smbNack := false } } ∧
      (count ≠ 4 → exec (.smbusBlockWrite addr count off) s = nack) ∧
      ((0x80000 ≤ o ∧ o < 0x100000) ∨ 0xE00000 ≤ o ∨ (o < 0x80000 ∧ s.mgc.step.toNat < 4) ∨ (0x100000 ≤ o ∧ s.hif.ready = false) ∨ o % 4 ≠ 0 →
        exec (.smbusBlockRead addr) s = nack) ∧
      (∀ v t, o % 4 = 0 → (o < 0x80000 ∧ 4 ≤ s.mgc.step.toNat) ∨ (0x100000 ≤ o ∧ o < 0xE00000 ∧ s.hif.ready = true) →
        regRead s (place (BitVec.ofNat 44 (hubRegs + o))) = some (v, t) → exec (.smbusBlockRead addr) s =
          .next { t with board := { t.board with smbData := v, smbNack := false } })) ∧
    (∃ w, exec .smbusTimeout s = .next { s with fresh := s.fresh + 1, board := { b with smbOffset := w, smbNack := false } }) ∧
    exec .extest s = tap s 0 .drive false ∧
    (∃ w, exec .samplePreload s = tap { s with fresh := s.fresh + 1, board := { b with bsr := w } } 1 .sample false) ∧
    exec .extestPulse s = tap s 2 .pulse false ∧ exec .extestTrain s = tap s 3 .train false ∧ exec .highz s = tap s 4 .highz true ∧
    exec .clamp s = tap s 5 .clamp true ∧
    (6 ≤ ir.toNat → exec (.bypass ir) s = tap s ir .normal true) ∧ (ir.toNat < 6 → exec (.bypass ir) s = .next s) ∧
    exec .trstNAssert s = tap s 0xFF .normal true
end

