-- ==== Sys2Proof/Laws/Map.lean ====
section
/-! SUPPORT. Laws of sparse tables: reading after writing, and the canonical form. -/

namespace Sys2Proof.Machine

variable {α : Type}

@[simp] theorem get_nil (d : Nat → α) (i : Nat) : get d [] i = d i := rfl

theorem get_drop (d : Nat → α) (m : Sparse α) (i j : Nat) : get d (drop m i) j = if j = i then d j else get d m j := by
  induction m with
  | nil => simp [drop]
  | cons p rest ih =>
    obtain ⟨k, v⟩ := p
    by_cases h : k = i
    · subst h
      by_cases hj : j = k
      · simp [drop, hj] at ih ⊢
        simpa using ih
      · simp [drop, get, ih, hj, Ne.symm hj]
    · by_cases hj : j = i
      · subst hj
        simp [drop, h, get] at ih ⊢
        simpa using ih
      · simp [drop, h, get, ih, hj]

theorem get_insertKey (d : Nat → α) (m : Sparse α) (i j : Nat) (v : α) (h : ∀ p ∈ m, p.1 ≠ i) :
    get d (insertKey i v m) j = if j = i then v else get d m j := by
  induction m with
  | nil => by_cases hj : i = j <;> simp [insertKey, get, hj, eq_comm]
  | cons p rest ih =>
    obtain ⟨k, w⟩ := p
    have hk : k ≠ i := h (k, w) (by simp)
    have hr := ih (fun q hq => h q (by simp [hq]))
    by_cases hlt : i < k
    · by_cases hj : j = i
      · subst hj
        simp [insertKey, hlt, get]
      · simp [insertKey, hlt, get, hj, Ne.symm hj]
    · by_cases hj : j = i
      · subst hj
        simp [insertKey, hlt, get, hk, hr]
      · by_cases hkj : k = j
        · subst hkj
          simp [insertKey, hlt, get, hk]
        · simp [insertKey, hlt, get, hkj, hr, hj]

theorem drop_keys (m : Sparse α) (i : Nat) : ∀ p ∈ drop m i, p.1 ≠ i := by
  induction m with
  | nil => simp [drop]
  | cons p rest ih =>
    obtain ⟨k, v⟩ := p
    by_cases h : k = i
    · simpa [drop, h] using ih
    · intro q hq
      simp [drop, h] at hq
      rcases hq with rfl | hq
      · exact h
      · exact ih q hq

/-- Reading after writing one key. -/
theorem get_put [DecidableEq α] (d : Nat → α) (m : Sparse α) (i j : Nat) (v : α) :
    get d (put d m i v) j = if j = i then v else get d m j := by
  unfold put
  split
  · rename_i h
    rw [get_drop]
    split
    · subst_vars; rfl
    · rfl
  · rw [get_insertKey d _ i j v (drop_keys m i), get_drop]
    split <;> rfl

@[simp] theorem sget_sput [DecidableEq α] (d : α) (m : Sparse α) (i j : Nat) (v : α) :
    sget d (sput d m i v) j = if j = i then v else sget d m j := get_put _ m i j v

@[simp] theorem sget_sput_same [DecidableEq α] (d : α) (m : Sparse α) (i : Nat) (v : α) : sget d (sput d m i v) i = v := by
  simp

@[simp] theorem get_put_same [DecidableEq α] (d : Nat → α) (m : Sparse α) (i : Nat) (v : α) : get d (put d m i v) i = v := by
  simp [get_put]

theorem drop_drop (m : Sparse α) (i : Nat) : drop (drop m i) i = drop m i := by
  induction m with
  | nil => rfl
  | cons p rest ih =>
    obtain ⟨k, v⟩ := p
    by_cases h : k = i
    · simp [drop, h, ih]
    · simp [drop, h, ih]

theorem drop_insertKey (m : Sparse α) (i : Nat) (v : α) : drop (insertKey i v m) i = drop m i := by
  induction m with
  | nil => simp [insertKey, drop]
  | cons p rest ih =>
    obtain ⟨k, w⟩ := p
    by_cases hlt : i < k
    · have hk : k ≠ i := Nat.ne_of_gt hlt
      simp [insertKey, hlt, drop, hk]
    · by_cases h : k = i <;> simp [insertKey, hlt, drop, h, ih]

/-- The second of two writes of one key stands. -/
@[simp] theorem put_put [DecidableEq α] (d : Nat → α) (m : Sparse α) (i : Nat) (v w : α) : put d (put d m i v) i w = put d m i w := by
  have h : drop (put d m i v) i = drop m i := by
    unfold put
    split
    · exact drop_drop m i
    · rw [drop_insertKey, drop_drop]
  simp only [put.eq_1 d (put d m i v), h, put.eq_1 d m i w]

@[simp] theorem sput_sput [DecidableEq α] (d : α) (m : Sparse α) (i : Nat) (v w : α) : sput d (sput d m i v) i w = sput d m i w :=
  put_put _ m i v w

/-! ## The canonical form -/

theorem canonFrom_mono [DecidableEq α] (d : Nat → α) {lo lo' : Nat} {m : Sparse α} (h : canonFrom d lo m = true) (hl : lo' ≤ lo) :
    canonFrom d lo' m = true := by
  cases m with
  | nil => rfl
  | cons p rest =>
    obtain ⟨k, v⟩ := p
    simp [canonFrom] at h ⊢
    exact ⟨⟨by omega, h.1.2⟩, h.2⟩

theorem canonFrom_drop [DecidableEq α] (d : Nat → α) (i : Nat) {lo : Nat} {m : Sparse α} (h : canonFrom d lo m = true) :
    canonFrom d lo (drop m i) = true := by
  induction m generalizing lo with
  | nil => rfl
  | cons p rest ih =>
    obtain ⟨k, v⟩ := p
    simp [canonFrom] at h
    have := ih h.2
    by_cases hk : k = i
    · simp only [drop, hk, if_true]
      exact canonFrom_mono d this (by omega)
    · simp [drop, hk, canonFrom, h.1, this]

theorem canonFrom_insertKey [DecidableEq α] (d : Nat → α) (i : Nat) (v : α) {lo : Nat} {m : Sparse α} (hv : v ≠ d i)
    (hm : ∀ p ∈ m, p.1 ≠ i) (hi : lo ≤ i) (h : canonFrom d lo m = true) : canonFrom d lo (insertKey i v m) = true := by
  induction m generalizing lo with
  | nil => simp [insertKey, canonFrom, hi, hv]
  | cons p rest ih =>
    obtain ⟨k, w⟩ := p
    simp [canonFrom] at h
    have hk : k ≠ i := hm (k, w) (by simp)
    by_cases hlt : i < k
    · simp [insertKey, hlt, canonFrom, hi, hv, h] <;> omega
    · simp only [insertKey, hlt, if_false, canonFrom]
      have := ih (fun q hq => hm q (by simp [hq])) (by omega) h.2
      simp [h.1, this]

/-- A write keeps the canonical form. -/
theorem canon_put [DecidableEq α] (d : Nat → α) (m : Sparse α) (i : Nat) (v : α) (h : canon d m = true) : canon d (put d m i v) = true := by
  unfold canon at *
  unfold put
  split
  · exact canonFrom_drop d i h
  · rename_i hv
    exact canonFrom_insertKey d i v hv (drop_keys m i) (Nat.zero_le _) (canonFrom_drop d i h)

/-- A write to a table with one default keeps the canonical form. -/
theorem canon_sput [DecidableEq α] (d : α) (m : Sparse α) (i : Nat) (v : α) (h : canon (fun _ => d) m = true) :
    canon (fun _ => d) (sput d m i v) = true := canon_put _ m i v h

/-- A table in canonical form that reads as its default everywhere is empty. -/
theorem get_of_lt [DecidableEq α] (d : Nat → α) {lo : Nat} {m : Sparse α} (h : canonFrom d lo m = true) (j : Nat) (hj : j < lo) :
    get d m j = d j := by
  induction m generalizing lo with
  | nil => rfl
  | cons p rest ih =>
    obtain ⟨k, v⟩ := p
    simp [canonFrom] at h
    have hk : k ≠ j := by omega
    simp [get, hk, ih h.2 (by omega)]

/-- Tables in canonical form that read alike are one table. -/
theorem canon_ext [DecidableEq α] (d : Nat → α) {lo : Nat} {m n : Sparse α} (hm : canonFrom d lo m = true) (hn : canonFrom d lo n = true)
    (h : ∀ j, get d m j = get d n j) : m = n := by
  induction m generalizing n lo with
  | nil =>
    cases n with
    | nil => rfl
    | cons p rest =>
      obtain ⟨k, v⟩ := p
      simp [canonFrom] at hn
      have := h k
      simp [get] at this
      exact absurd this.symm hn.1.2
  | cons p rest ih =>
    obtain ⟨k, v⟩ := p
    cases n with
    | nil =>
      simp [canonFrom] at hm
      have := h k
      simp [get] at this
      exact absurd this hm.1.2
    | cons q rest' =>
      obtain ⟨k', v'⟩ := q
      simp [canonFrom] at hm hn
      rcases Nat.lt_trichotomy k k' with hk | hk | hk
      · have h1 := h k
        simp only [get, if_true] at h1
        rw [if_neg (by omega), get_of_lt d hn.2 k (by omega)] at h1
        exact absurd h1 hm.1.2
      · subst hk
        have h1 := h k
        simp [get] at h1
        subst h1
        have : rest = rest' := ih hm.2 hn.2 (fun j => by
          by_cases hj : k = j
          · subst hj
            rw [get_of_lt d hm.2 k (by omega), get_of_lt d hn.2 k (by omega)]
          · have := h j
            simpa [get, hj] using this)
        rw [this]
      · have h1 := h k'
        simp only [get, if_true] at h1
        rw [if_neg (by omega), get_of_lt d hm.2 k' (by omega)] at h1
        exact absurd h1.symm hn.1.2

end Sys2Proof.Machine
end

