-- ==== Sys2Proof/Laws/State.lean ====
section
/-! SUPPORT. What each update of the state leaves as it was, field by field, and what it puts in its own place. -/

namespace Sys2Proof.Machine

/-! ### State.setCore -/
@[simp] theorem State.setCore_cycle (s : State) (g : CoreId) (x : Core) : (s.setCore g x).cycle = s.cycle := rfl
@[simp] theorem State.setCore_clus (s : State) (g : CoreId) (x : Core) : (s.setCore g x).clus = s.clus := rfl
@[simp] theorem State.setCore_inits (s : State) (g : CoreId) (x : Core) : (s.setCore g x).inits = s.inits := rfl
@[simp] theorem State.setCore_slices (s : State) (g : CoreId) (x : Core) : (s.setCore g x).slices = s.slices := rfl
@[simp] theorem State.setCore_buds (s : State) (g : CoreId) (x : Core) : (s.setCore g x).buds = s.buds := rfl
@[simp] theorem State.setCore_engines (s : State) (g : CoreId) (x : Core) : (s.setCore g x).engines = s.engines := rfl
@[simp] theorem State.setCore_nis (s : State) (g : CoreId) (x : Core) : (s.setCore g x).nis = s.nis := rfl
@[simp] theorem State.setCore_elems (s : State) (g : CoreId) (x : Core) : (s.setCore g x).elems = s.elems := rfl
@[simp] theorem State.setCore_hif (s : State) (g : CoreId) (x : Core) : (s.setCore g x).hif = s.hif := rfl
@[simp] theorem State.setCore_fhp (s : State) (g : CoreId) (x : Core) : (s.setCore g x).fhp = s.fhp := rfl
@[simp] theorem State.setCore_cmk (s : State) (g : CoreId) (x : Core) : (s.setCore g x).cmk = s.cmk := rfl
@[simp] theorem State.setCore_cas (s : State) (g : CoreId) (x : Core) : (s.setCore g x).cas = s.cas := rfl
@[simp] theorem State.setCore_cri (s : State) (g : CoreId) (x : Core) : (s.setCore g x).cri = s.cri := rfl
@[simp] theorem State.setCore_edc (s : State) (g : CoreId) (x : Core) : (s.setCore g x).edc = s.edc := rfl
@[simp] theorem State.setCore_asy (s : State) (g : CoreId) (x : Core) : (s.setCore g x).asy = s.asy := rfl
@[simp] theorem State.setCore_lmp (s : State) (g : CoreId) (x : Core) : (s.setCore g x).lmp = s.lmp := rfl
@[simp] theorem State.setCore_scv (s : State) (g : CoreId) (x : Core) : (s.setCore g x).scv = s.scv := rfl
@[simp] theorem State.setCore_mgc (s : State) (g : CoreId) (x : Core) : (s.setCore g x).mgc = s.mgc := rfl
@[simp] theorem State.setCore_gpo (s : State) (g : CoreId) (x : Core) : (s.setCore g x).gpo = s.gpo := rfl
@[simp] theorem State.setCore_board (s : State) (g : CoreId) (x : Core) : (s.setCore g x).board = s.board := rfl
@[simp] theorem State.setCore_mem (s : State) (g : CoreId) (x : Core) : (s.setCore g x).mem = s.mem := rfl
@[simp] theorem State.setCore_par (s : State) (g : CoreId) (x : Core) : (s.setCore g x).par = s.par := rfl
@[simp] theorem State.setCore_hostMem (s : State) (g : CoreId) (x : Core) : (s.setCore g x).hostMem = s.hostMem := rfl
@[simp] theorem State.setCore_tally (s : State) (g : CoreId) (x : Core) : (s.setCore g x).tally = s.tally := rfl
@[simp] theorem State.setCore_shadow (s : State) (g : CoreId) (x : Core) : (s.setCore g x).shadow = s.shadow := rfl
@[simp] theorem State.setCore_resp (s : State) (g : CoreId) (x : Core) : (s.setCore g x).resp = s.resp := rfl
@[simp] theorem State.setCore_fresh (s : State) (g : CoreId) (x : Core) : (s.setCore g x).fresh = s.fresh := rfl
@[simp] theorem State.setCore_pending (s : State) (g : CoreId) (x : Core) : (s.setCore g x).pending = s.pending := rfl
/-! ### State.setClu -/
@[simp] theorem State.setClu_cycle (s : State) (gc : ClusterId) (x : Clu) : (s.setClu gc x).cycle = s.cycle := rfl
@[simp] theorem State.setClu_cores (s : State) (gc : ClusterId) (x : Clu) : (s.setClu gc x).cores = s.cores := rfl
@[simp] theorem State.setClu_inits (s : State) (gc : ClusterId) (x : Clu) : (s.setClu gc x).inits = s.inits := rfl
@[simp] theorem State.setClu_slices (s : State) (gc : ClusterId) (x : Clu) : (s.setClu gc x).slices = s.slices := rfl
@[simp] theorem State.setClu_buds (s : State) (gc : ClusterId) (x : Clu) : (s.setClu gc x).buds = s.buds := rfl
@[simp] theorem State.setClu_engines (s : State) (gc : ClusterId) (x : Clu) : (s.setClu gc x).engines = s.engines := rfl
@[simp] theorem State.setClu_nis (s : State) (gc : ClusterId) (x : Clu) : (s.setClu gc x).nis = s.nis := rfl
@[simp] theorem State.setClu_elems (s : State) (gc : ClusterId) (x : Clu) : (s.setClu gc x).elems = s.elems := rfl
@[simp] theorem State.setClu_hif (s : State) (gc : ClusterId) (x : Clu) : (s.setClu gc x).hif = s.hif := rfl
@[simp] theorem State.setClu_fhp (s : State) (gc : ClusterId) (x : Clu) : (s.setClu gc x).fhp = s.fhp := rfl
@[simp] theorem State.setClu_cmk (s : State) (gc : ClusterId) (x : Clu) : (s.setClu gc x).cmk = s.cmk := rfl
@[simp] theorem State.setClu_cas (s : State) (gc : ClusterId) (x : Clu) : (s.setClu gc x).cas = s.cas := rfl
@[simp] theorem State.setClu_cri (s : State) (gc : ClusterId) (x : Clu) : (s.setClu gc x).cri = s.cri := rfl
@[simp] theorem State.setClu_edc (s : State) (gc : ClusterId) (x : Clu) : (s.setClu gc x).edc = s.edc := rfl
@[simp] theorem State.setClu_asy (s : State) (gc : ClusterId) (x : Clu) : (s.setClu gc x).asy = s.asy := rfl
@[simp] theorem State.setClu_lmp (s : State) (gc : ClusterId) (x : Clu) : (s.setClu gc x).lmp = s.lmp := rfl
@[simp] theorem State.setClu_scv (s : State) (gc : ClusterId) (x : Clu) : (s.setClu gc x).scv = s.scv := rfl
@[simp] theorem State.setClu_mgc (s : State) (gc : ClusterId) (x : Clu) : (s.setClu gc x).mgc = s.mgc := rfl
@[simp] theorem State.setClu_gpo (s : State) (gc : ClusterId) (x : Clu) : (s.setClu gc x).gpo = s.gpo := rfl
@[simp] theorem State.setClu_board (s : State) (gc : ClusterId) (x : Clu) : (s.setClu gc x).board = s.board := rfl
@[simp] theorem State.setClu_mem (s : State) (gc : ClusterId) (x : Clu) : (s.setClu gc x).mem = s.mem := rfl
@[simp] theorem State.setClu_par (s : State) (gc : ClusterId) (x : Clu) : (s.setClu gc x).par = s.par := rfl
@[simp] theorem State.setClu_hostMem (s : State) (gc : ClusterId) (x : Clu) : (s.setClu gc x).hostMem = s.hostMem := rfl
@[simp] theorem State.setClu_tally (s : State) (gc : ClusterId) (x : Clu) : (s.setClu gc x).tally = s.tally := rfl
@[simp] theorem State.setClu_shadow (s : State) (gc : ClusterId) (x : Clu) : (s.setClu gc x).shadow = s.shadow := rfl
@[simp] theorem State.setClu_resp (s : State) (gc : ClusterId) (x : Clu) : (s.setClu gc x).resp = s.resp := rfl
@[simp] theorem State.setClu_fresh (s : State) (gc : ClusterId) (x : Clu) : (s.setClu gc x).fresh = s.fresh := rfl
@[simp] theorem State.setClu_pending (s : State) (gc : ClusterId) (x : Clu) : (s.setClu gc x).pending = s.pending := rfl
/-! ### State.setSlice -/
@[simp] theorem State.setSlice_cycle (s : State) (gc : ClusterId) (x : Slice) : (s.setSlice gc x).cycle = s.cycle := rfl
@[simp] theorem State.setSlice_cores (s : State) (gc : ClusterId) (x : Slice) : (s.setSlice gc x).cores = s.cores := rfl
@[simp] theorem State.setSlice_clus (s : State) (gc : ClusterId) (x : Slice) : (s.setSlice gc x).clus = s.clus := rfl
@[simp] theorem State.setSlice_inits (s : State) (gc : ClusterId) (x : Slice) : (s.setSlice gc x).inits = s.inits := rfl
@[simp] theorem State.setSlice_buds (s : State) (gc : ClusterId) (x : Slice) : (s.setSlice gc x).buds = s.buds := rfl
@[simp] theorem State.setSlice_engines (s : State) (gc : ClusterId) (x : Slice) : (s.setSlice gc x).engines = s.engines := rfl
@[simp] theorem State.setSlice_nis (s : State) (gc : ClusterId) (x : Slice) : (s.setSlice gc x).nis = s.nis := rfl
@[simp] theorem State.setSlice_elems (s : State) (gc : ClusterId) (x : Slice) : (s.setSlice gc x).elems = s.elems := rfl
@[simp] theorem State.setSlice_hif (s : State) (gc : ClusterId) (x : Slice) : (s.setSlice gc x).hif = s.hif := rfl
@[simp] theorem State.setSlice_fhp (s : State) (gc : ClusterId) (x : Slice) : (s.setSlice gc x).fhp = s.fhp := rfl
@[simp] theorem State.setSlice_cmk (s : State) (gc : ClusterId) (x : Slice) : (s.setSlice gc x).cmk = s.cmk := rfl
@[simp] theorem State.setSlice_cas (s : State) (gc : ClusterId) (x : Slice) : (s.setSlice gc x).cas = s.cas := rfl
@[simp] theorem State.setSlice_cri (s : State) (gc : ClusterId) (x : Slice) : (s.setSlice gc x).cri = s.cri := rfl
@[simp] theorem State.setSlice_edc (s : State) (gc : ClusterId) (x : Slice) : (s.setSlice gc x).edc = s.edc := rfl
@[simp] theorem State.setSlice_asy (s : State) (gc : ClusterId) (x : Slice) : (s.setSlice gc x).asy = s.asy := rfl
@[simp] theorem State.setSlice_lmp (s : State) (gc : ClusterId) (x : Slice) : (s.setSlice gc x).lmp = s.lmp := rfl
@[simp] theorem State.setSlice_scv (s : State) (gc : ClusterId) (x : Slice) : (s.setSlice gc x).scv = s.scv := rfl
@[simp] theorem State.setSlice_mgc (s : State) (gc : ClusterId) (x : Slice) : (s.setSlice gc x).mgc = s.mgc := rfl
@[simp] theorem State.setSlice_gpo (s : State) (gc : ClusterId) (x : Slice) : (s.setSlice gc x).gpo = s.gpo := rfl
@[simp] theorem State.setSlice_board (s : State) (gc : ClusterId) (x : Slice) : (s.setSlice gc x).board = s.board := rfl
@[simp] theorem State.setSlice_mem (s : State) (gc : ClusterId) (x : Slice) : (s.setSlice gc x).mem = s.mem := rfl
@[simp] theorem State.setSlice_par (s : State) (gc : ClusterId) (x : Slice) : (s.setSlice gc x).par = s.par := rfl
@[simp] theorem State.setSlice_hostMem (s : State) (gc : ClusterId) (x : Slice) : (s.setSlice gc x).hostMem = s.hostMem := rfl
@[simp] theorem State.setSlice_tally (s : State) (gc : ClusterId) (x : Slice) : (s.setSlice gc x).tally = s.tally := rfl
@[simp] theorem State.setSlice_shadow (s : State) (gc : ClusterId) (x : Slice) : (s.setSlice gc x).shadow = s.shadow := rfl
@[simp] theorem State.setSlice_resp (s : State) (gc : ClusterId) (x : Slice) : (s.setSlice gc x).resp = s.resp := rfl
@[simp] theorem State.setSlice_fresh (s : State) (gc : ClusterId) (x : Slice) : (s.setSlice gc x).fresh = s.fresh := rfl
@[simp] theorem State.setSlice_pending (s : State) (gc : ClusterId) (x : Slice) : (s.setSlice gc x).pending = s.pending := rfl
/-! ### State.setBud -/
@[simp] theorem State.setBud_cycle (s : State) (r : RegionId) (x : Bud) : (s.setBud r x).cycle = s.cycle := rfl
@[simp] theorem State.setBud_cores (s : State) (r : RegionId) (x : Bud) : (s.setBud r x).cores = s.cores := rfl
@[simp] theorem State.setBud_clus (s : State) (r : RegionId) (x : Bud) : (s.setBud r x).clus = s.clus := rfl
@[simp] theorem State.setBud_inits (s : State) (r : RegionId) (x : Bud) : (s.setBud r x).inits = s.inits := rfl
@[simp] theorem State.setBud_slices (s : State) (r : RegionId) (x : Bud) : (s.setBud r x).slices = s.slices := rfl
@[simp] theorem State.setBud_engines (s : State) (r : RegionId) (x : Bud) : (s.setBud r x).engines = s.engines := rfl
@[simp] theorem State.setBud_nis (s : State) (r : RegionId) (x : Bud) : (s.setBud r x).nis = s.nis := rfl
@[simp] theorem State.setBud_elems (s : State) (r : RegionId) (x : Bud) : (s.setBud r x).elems = s.elems := rfl
@[simp] theorem State.setBud_hif (s : State) (r : RegionId) (x : Bud) : (s.setBud r x).hif = s.hif := rfl
@[simp] theorem State.setBud_fhp (s : State) (r : RegionId) (x : Bud) : (s.setBud r x).fhp = s.fhp := rfl
@[simp] theorem State.setBud_cmk (s : State) (r : RegionId) (x : Bud) : (s.setBud r x).cmk = s.cmk := rfl
@[simp] theorem State.setBud_cas (s : State) (r : RegionId) (x : Bud) : (s.setBud r x).cas = s.cas := rfl
@[simp] theorem State.setBud_cri (s : State) (r : RegionId) (x : Bud) : (s.setBud r x).cri = s.cri := rfl
@[simp] theorem State.setBud_edc (s : State) (r : RegionId) (x : Bud) : (s.setBud r x).edc = s.edc := rfl
@[simp] theorem State.setBud_asy (s : State) (r : RegionId) (x : Bud) : (s.setBud r x).asy = s.asy := rfl
@[simp] theorem State.setBud_lmp (s : State) (r : RegionId) (x : Bud) : (s.setBud r x).lmp = s.lmp := rfl
@[simp] theorem State.setBud_scv (s : State) (r : RegionId) (x : Bud) : (s.setBud r x).scv = s.scv := rfl
@[simp] theorem State.setBud_mgc (s : State) (r : RegionId) (x : Bud) : (s.setBud r x).mgc = s.mgc := rfl
@[simp] theorem State.setBud_gpo (s : State) (r : RegionId) (x : Bud) : (s.setBud r x).gpo = s.gpo := rfl
@[simp] theorem State.setBud_board (s : State) (r : RegionId) (x : Bud) : (s.setBud r x).board = s.board := rfl
@[simp] theorem State.setBud_mem (s : State) (r : RegionId) (x : Bud) : (s.setBud r x).mem = s.mem := rfl
@[simp] theorem State.setBud_par (s : State) (r : RegionId) (x : Bud) : (s.setBud r x).par = s.par := rfl
@[simp] theorem State.setBud_hostMem (s : State) (r : RegionId) (x : Bud) : (s.setBud r x).hostMem = s.hostMem := rfl
@[simp] theorem State.setBud_tally (s : State) (r : RegionId) (x : Bud) : (s.setBud r x).tally = s.tally := rfl
@[simp] theorem State.setBud_shadow (s : State) (r : RegionId) (x : Bud) : (s.setBud r x).shadow = s.shadow := rfl
@[simp] theorem State.setBud_resp (s : State) (r : RegionId) (x : Bud) : (s.setBud r x).resp = s.resp := rfl
@[simp] theorem State.setBud_fresh (s : State) (r : RegionId) (x : Bud) : (s.setBud r x).fresh = s.fresh := rfl
@[simp] theorem State.setBud_pending (s : State) (r : RegionId) (x : Bud) : (s.setBud r x).pending = s.pending := rfl
/-! ### State.setEngine -/
@[simp] theorem State.setEngine_cycle (s : State) (e : EngId) (x : Engine) : (s.setEngine e x).cycle = s.cycle := rfl
@[simp] theorem State.setEngine_cores (s : State) (e : EngId) (x : Engine) : (s.setEngine e x).cores = s.cores := rfl
@[simp] theorem State.setEngine_clus (s : State) (e : EngId) (x : Engine) : (s.setEngine e x).clus = s.clus := rfl
@[simp] theorem State.setEngine_inits (s : State) (e : EngId) (x : Engine) : (s.setEngine e x).inits = s.inits := rfl
@[simp] theorem State.setEngine_slices (s : State) (e : EngId) (x : Engine) : (s.setEngine e x).slices = s.slices := rfl
@[simp] theorem State.setEngine_buds (s : State) (e : EngId) (x : Engine) : (s.setEngine e x).buds = s.buds := rfl
@[simp] theorem State.setEngine_nis (s : State) (e : EngId) (x : Engine) : (s.setEngine e x).nis = s.nis := rfl
@[simp] theorem State.setEngine_elems (s : State) (e : EngId) (x : Engine) : (s.setEngine e x).elems = s.elems := rfl
@[simp] theorem State.setEngine_hif (s : State) (e : EngId) (x : Engine) : (s.setEngine e x).hif = s.hif := rfl
@[simp] theorem State.setEngine_fhp (s : State) (e : EngId) (x : Engine) : (s.setEngine e x).fhp = s.fhp := rfl
@[simp] theorem State.setEngine_cmk (s : State) (e : EngId) (x : Engine) : (s.setEngine e x).cmk = s.cmk := rfl
@[simp] theorem State.setEngine_cas (s : State) (e : EngId) (x : Engine) : (s.setEngine e x).cas = s.cas := rfl
@[simp] theorem State.setEngine_cri (s : State) (e : EngId) (x : Engine) : (s.setEngine e x).cri = s.cri := rfl
@[simp] theorem State.setEngine_edc (s : State) (e : EngId) (x : Engine) : (s.setEngine e x).edc = s.edc := rfl
@[simp] theorem State.setEngine_asy (s : State) (e : EngId) (x : Engine) : (s.setEngine e x).asy = s.asy := rfl
@[simp] theorem State.setEngine_lmp (s : State) (e : EngId) (x : Engine) : (s.setEngine e x).lmp = s.lmp := rfl
@[simp] theorem State.setEngine_scv (s : State) (e : EngId) (x : Engine) : (s.setEngine e x).scv = s.scv := rfl
@[simp] theorem State.setEngine_mgc (s : State) (e : EngId) (x : Engine) : (s.setEngine e x).mgc = s.mgc := rfl
@[simp] theorem State.setEngine_gpo (s : State) (e : EngId) (x : Engine) : (s.setEngine e x).gpo = s.gpo := rfl
@[simp] theorem State.setEngine_board (s : State) (e : EngId) (x : Engine) : (s.setEngine e x).board = s.board := rfl
@[simp] theorem State.setEngine_mem (s : State) (e : EngId) (x : Engine) : (s.setEngine e x).mem = s.mem := rfl
@[simp] theorem State.setEngine_par (s : State) (e : EngId) (x : Engine) : (s.setEngine e x).par = s.par := rfl
@[simp] theorem State.setEngine_hostMem (s : State) (e : EngId) (x : Engine) : (s.setEngine e x).hostMem = s.hostMem := rfl
@[simp] theorem State.setEngine_tally (s : State) (e : EngId) (x : Engine) : (s.setEngine e x).tally = s.tally := rfl
@[simp] theorem State.setEngine_shadow (s : State) (e : EngId) (x : Engine) : (s.setEngine e x).shadow = s.shadow := rfl
@[simp] theorem State.setEngine_resp (s : State) (e : EngId) (x : Engine) : (s.setEngine e x).resp = s.resp := rfl
@[simp] theorem State.setEngine_fresh (s : State) (e : EngId) (x : Engine) : (s.setEngine e x).fresh = s.fresh := rfl
@[simp] theorem State.setEngine_pending (s : State) (e : EngId) (x : Engine) : (s.setEngine e x).pending = s.pending := rfl
/-! ### State.setNi -/
@[simp] theorem State.setNi_cycle (s : State) (n : NodeId) (x : Ni) : (s.setNi n x).cycle = s.cycle := rfl
@[simp] theorem State.setNi_cores (s : State) (n : NodeId) (x : Ni) : (s.setNi n x).cores = s.cores := rfl
@[simp] theorem State.setNi_clus (s : State) (n : NodeId) (x : Ni) : (s.setNi n x).clus = s.clus := rfl
@[simp] theorem State.setNi_inits (s : State) (n : NodeId) (x : Ni) : (s.setNi n x).inits = s.inits := rfl
@[simp] theorem State.setNi_slices (s : State) (n : NodeId) (x : Ni) : (s.setNi n x).slices = s.slices := rfl
@[simp] theorem State.setNi_buds (s : State) (n : NodeId) (x : Ni) : (s.setNi n x).buds = s.buds := rfl
@[simp] theorem State.setNi_engines (s : State) (n : NodeId) (x : Ni) : (s.setNi n x).engines = s.engines := rfl
@[simp] theorem State.setNi_elems (s : State) (n : NodeId) (x : Ni) : (s.setNi n x).elems = s.elems := rfl
@[simp] theorem State.setNi_hif (s : State) (n : NodeId) (x : Ni) : (s.setNi n x).hif = s.hif := rfl
@[simp] theorem State.setNi_fhp (s : State) (n : NodeId) (x : Ni) : (s.setNi n x).fhp = s.fhp := rfl
@[simp] theorem State.setNi_cmk (s : State) (n : NodeId) (x : Ni) : (s.setNi n x).cmk = s.cmk := rfl
@[simp] theorem State.setNi_cas (s : State) (n : NodeId) (x : Ni) : (s.setNi n x).cas = s.cas := rfl
@[simp] theorem State.setNi_cri (s : State) (n : NodeId) (x : Ni) : (s.setNi n x).cri = s.cri := rfl
@[simp] theorem State.setNi_edc (s : State) (n : NodeId) (x : Ni) : (s.setNi n x).edc = s.edc := rfl
@[simp] theorem State.setNi_asy (s : State) (n : NodeId) (x : Ni) : (s.setNi n x).asy = s.asy := rfl
@[simp] theorem State.setNi_lmp (s : State) (n : NodeId) (x : Ni) : (s.setNi n x).lmp = s.lmp := rfl
@[simp] theorem State.setNi_scv (s : State) (n : NodeId) (x : Ni) : (s.setNi n x).scv = s.scv := rfl
@[simp] theorem State.setNi_mgc (s : State) (n : NodeId) (x : Ni) : (s.setNi n x).mgc = s.mgc := rfl
@[simp] theorem State.setNi_gpo (s : State) (n : NodeId) (x : Ni) : (s.setNi n x).gpo = s.gpo := rfl
@[simp] theorem State.setNi_board (s : State) (n : NodeId) (x : Ni) : (s.setNi n x).board = s.board := rfl
@[simp] theorem State.setNi_mem (s : State) (n : NodeId) (x : Ni) : (s.setNi n x).mem = s.mem := rfl
@[simp] theorem State.setNi_par (s : State) (n : NodeId) (x : Ni) : (s.setNi n x).par = s.par := rfl
@[simp] theorem State.setNi_hostMem (s : State) (n : NodeId) (x : Ni) : (s.setNi n x).hostMem = s.hostMem := rfl
@[simp] theorem State.setNi_tally (s : State) (n : NodeId) (x : Ni) : (s.setNi n x).tally = s.tally := rfl
@[simp] theorem State.setNi_shadow (s : State) (n : NodeId) (x : Ni) : (s.setNi n x).shadow = s.shadow := rfl
@[simp] theorem State.setNi_resp (s : State) (n : NodeId) (x : Ni) : (s.setNi n x).resp = s.resp := rfl
@[simp] theorem State.setNi_fresh (s : State) (n : NodeId) (x : Ni) : (s.setNi n x).fresh = s.fresh := rfl
@[simp] theorem State.setNi_pending (s : State) (n : NodeId) (x : Ni) : (s.setNi n x).pending = s.pending := rfl
/-! ### State.setElem -/
@[simp] theorem State.setElem_cycle (s : State) (e : Elem) (x : ElemState) : (s.setElem e x).cycle = s.cycle := rfl
@[simp] theorem State.setElem_cores (s : State) (e : Elem) (x : ElemState) : (s.setElem e x).cores = s.cores := rfl
@[simp] theorem State.setElem_clus (s : State) (e : Elem) (x : ElemState) : (s.setElem e x).clus = s.clus := rfl
@[simp] theorem State.setElem_inits (s : State) (e : Elem) (x : ElemState) : (s.setElem e x).inits = s.inits := rfl
@[simp] theorem State.setElem_slices (s : State) (e : Elem) (x : ElemState) : (s.setElem e x).slices = s.slices := rfl
@[simp] theorem State.setElem_buds (s : State) (e : Elem) (x : ElemState) : (s.setElem e x).buds = s.buds := rfl
@[simp] theorem State.setElem_engines (s : State) (e : Elem) (x : ElemState) : (s.setElem e x).engines = s.engines := rfl
@[simp] theorem State.setElem_nis (s : State) (e : Elem) (x : ElemState) : (s.setElem e x).nis = s.nis := rfl
@[simp] theorem State.setElem_hif (s : State) (e : Elem) (x : ElemState) : (s.setElem e x).hif = s.hif := rfl
@[simp] theorem State.setElem_fhp (s : State) (e : Elem) (x : ElemState) : (s.setElem e x).fhp = s.fhp := rfl
@[simp] theorem State.setElem_cmk (s : State) (e : Elem) (x : ElemState) : (s.setElem e x).cmk = s.cmk := rfl
@[simp] theorem State.setElem_cas (s : State) (e : Elem) (x : ElemState) : (s.setElem e x).cas = s.cas := rfl
@[simp] theorem State.setElem_cri (s : State) (e : Elem) (x : ElemState) : (s.setElem e x).cri = s.cri := rfl
@[simp] theorem State.setElem_edc (s : State) (e : Elem) (x : ElemState) : (s.setElem e x).edc = s.edc := rfl
@[simp] theorem State.setElem_asy (s : State) (e : Elem) (x : ElemState) : (s.setElem e x).asy = s.asy := rfl
@[simp] theorem State.setElem_lmp (s : State) (e : Elem) (x : ElemState) : (s.setElem e x).lmp = s.lmp := rfl
@[simp] theorem State.setElem_scv (s : State) (e : Elem) (x : ElemState) : (s.setElem e x).scv = s.scv := rfl
@[simp] theorem State.setElem_mgc (s : State) (e : Elem) (x : ElemState) : (s.setElem e x).mgc = s.mgc := rfl
@[simp] theorem State.setElem_gpo (s : State) (e : Elem) (x : ElemState) : (s.setElem e x).gpo = s.gpo := rfl
@[simp] theorem State.setElem_board (s : State) (e : Elem) (x : ElemState) : (s.setElem e x).board = s.board := rfl
@[simp] theorem State.setElem_mem (s : State) (e : Elem) (x : ElemState) : (s.setElem e x).mem = s.mem := rfl
@[simp] theorem State.setElem_par (s : State) (e : Elem) (x : ElemState) : (s.setElem e x).par = s.par := rfl
@[simp] theorem State.setElem_hostMem (s : State) (e : Elem) (x : ElemState) : (s.setElem e x).hostMem = s.hostMem := rfl
@[simp] theorem State.setElem_tally (s : State) (e : Elem) (x : ElemState) : (s.setElem e x).tally = s.tally := rfl
@[simp] theorem State.setElem_shadow (s : State) (e : Elem) (x : ElemState) : (s.setElem e x).shadow = s.shadow := rfl
@[simp] theorem State.setElem_resp (s : State) (e : Elem) (x : ElemState) : (s.setElem e x).resp = s.resp := rfl
@[simp] theorem State.setElem_fresh (s : State) (e : Elem) (x : ElemState) : (s.setElem e x).fresh = s.fresh := rfl
@[simp] theorem State.setElem_pending (s : State) (e : Elem) (x : ElemState) : (s.setElem e x).pending = s.pending := rfl
/-! ### State.setRing -/
@[simp] theorem State.setRing_cycle (s : State) (n : RingId) (x : Ring) : (s.setRing n x).cycle = s.cycle := rfl
@[simp] theorem State.setRing_cores (s : State) (n : RingId) (x : Ring) : (s.setRing n x).cores = s.cores := rfl
@[simp] theorem State.setRing_clus (s : State) (n : RingId) (x : Ring) : (s.setRing n x).clus = s.clus := rfl
@[simp] theorem State.setRing_inits (s : State) (n : RingId) (x : Ring) : (s.setRing n x).inits = s.inits := rfl
@[simp] theorem State.setRing_slices (s : State) (n : RingId) (x : Ring) : (s.setRing n x).slices = s.slices := rfl
@[simp] theorem State.setRing_buds (s : State) (n : RingId) (x : Ring) : (s.setRing n x).buds = s.buds := rfl
@[simp] theorem State.setRing_engines (s : State) (n : RingId) (x : Ring) : (s.setRing n x).engines = s.engines := rfl
@[simp] theorem State.setRing_nis (s : State) (n : RingId) (x : Ring) : (s.setRing n x).nis = s.nis := rfl
@[simp] theorem State.setRing_elems (s : State) (n : RingId) (x : Ring) : (s.setRing n x).elems = s.elems := rfl
@[simp] theorem State.setRing_fhp (s : State) (n : RingId) (x : Ring) : (s.setRing n x).fhp = s.fhp := rfl
@[simp] theorem State.setRing_cmk (s : State) (n : RingId) (x : Ring) : (s.setRing n x).cmk = s.cmk := rfl
@[simp] theorem State.setRing_cas (s : State) (n : RingId) (x : Ring) : (s.setRing n x).cas = s.cas := rfl
@[simp] theorem State.setRing_cri (s : State) (n : RingId) (x : Ring) : (s.setRing n x).cri = s.cri := rfl
@[simp] theorem State.setRing_edc (s : State) (n : RingId) (x : Ring) : (s.setRing n x).edc = s.edc := rfl
@[simp] theorem State.setRing_asy (s : State) (n : RingId) (x : Ring) : (s.setRing n x).asy = s.asy := rfl
@[simp] theorem State.setRing_lmp (s : State) (n : RingId) (x : Ring) : (s.setRing n x).lmp = s.lmp := rfl
@[simp] theorem State.setRing_scv (s : State) (n : RingId) (x : Ring) : (s.setRing n x).scv = s.scv := rfl
@[simp] theorem State.setRing_mgc (s : State) (n : RingId) (x : Ring) : (s.setRing n x).mgc = s.mgc := rfl
@[simp] theorem State.setRing_gpo (s : State) (n : RingId) (x : Ring) : (s.setRing n x).gpo = s.gpo := rfl
@[simp] theorem State.setRing_board (s : State) (n : RingId) (x : Ring) : (s.setRing n x).board = s.board := rfl
@[simp] theorem State.setRing_mem (s : State) (n : RingId) (x : Ring) : (s.setRing n x).mem = s.mem := rfl
@[simp] theorem State.setRing_par (s : State) (n : RingId) (x : Ring) : (s.setRing n x).par = s.par := rfl
@[simp] theorem State.setRing_hostMem (s : State) (n : RingId) (x : Ring) : (s.setRing n x).hostMem = s.hostMem := rfl
@[simp] theorem State.setRing_tally (s : State) (n : RingId) (x : Ring) : (s.setRing n x).tally = s.tally := rfl
@[simp] theorem State.setRing_shadow (s : State) (n : RingId) (x : Ring) : (s.setRing n x).shadow = s.shadow := rfl
@[simp] theorem State.setRing_resp (s : State) (n : RingId) (x : Ring) : (s.setRing n x).resp = s.resp := rfl
@[simp] theorem State.setRing_fresh (s : State) (n : RingId) (x : Ring) : (s.setRing n x).fresh = s.fresh := rfl
@[simp] theorem State.setRing_pending (s : State) (n : RingId) (x : Ring) : (s.setRing n x).pending = s.pending := rfl
/-! ### State.setHostFn -/
@[simp] theorem State.setHostFn_cycle (s : State) (n : BitVec 6) (x : HostFn) : (s.setHostFn n x).cycle = s.cycle := rfl
@[simp] theorem State.setHostFn_cores (s : State) (n : BitVec 6) (x : HostFn) : (s.setHostFn n x).cores = s.cores := rfl
@[simp] theorem State.setHostFn_clus (s : State) (n : BitVec 6) (x : HostFn) : (s.setHostFn n x).clus = s.clus := rfl
@[simp] theorem State.setHostFn_inits (s : State) (n : BitVec 6) (x : HostFn) : (s.setHostFn n x).inits = s.inits := rfl
@[simp] theorem State.setHostFn_slices (s : State) (n : BitVec 6) (x : HostFn) : (s.setHostFn n x).slices = s.slices := rfl
@[simp] theorem State.setHostFn_buds (s : State) (n : BitVec 6) (x : HostFn) : (s.setHostFn n x).buds = s.buds := rfl
@[simp] theorem State.setHostFn_engines (s : State) (n : BitVec 6) (x : HostFn) : (s.setHostFn n x).engines = s.engines := rfl
@[simp] theorem State.setHostFn_nis (s : State) (n : BitVec 6) (x : HostFn) : (s.setHostFn n x).nis = s.nis := rfl
@[simp] theorem State.setHostFn_elems (s : State) (n : BitVec 6) (x : HostFn) : (s.setHostFn n x).elems = s.elems := rfl
@[simp] theorem State.setHostFn_fhp (s : State) (n : BitVec 6) (x : HostFn) : (s.setHostFn n x).fhp = s.fhp := rfl
@[simp] theorem State.setHostFn_cmk (s : State) (n : BitVec 6) (x : HostFn) : (s.setHostFn n x).cmk = s.cmk := rfl
@[simp] theorem State.setHostFn_cas (s : State) (n : BitVec 6) (x : HostFn) : (s.setHostFn n x).cas = s.cas := rfl
@[simp] theorem State.setHostFn_cri (s : State) (n : BitVec 6) (x : HostFn) : (s.setHostFn n x).cri = s.cri := rfl
@[simp] theorem State.setHostFn_edc (s : State) (n : BitVec 6) (x : HostFn) : (s.setHostFn n x).edc = s.edc := rfl
@[simp] theorem State.setHostFn_asy (s : State) (n : BitVec 6) (x : HostFn) : (s.setHostFn n x).asy = s.asy := rfl
@[simp] theorem State.setHostFn_lmp (s : State) (n : BitVec 6) (x : HostFn) : (s.setHostFn n x).lmp = s.lmp := rfl
@[simp] theorem State.setHostFn_scv (s : State) (n : BitVec 6) (x : HostFn) : (s.setHostFn n x).scv = s.scv := rfl
@[simp] theorem State.setHostFn_mgc (s : State) (n : BitVec 6) (x : HostFn) : (s.setHostFn n x).mgc = s.mgc := rfl
@[simp] theorem State.setHostFn_gpo (s : State) (n : BitVec 6) (x : HostFn) : (s.setHostFn n x).gpo = s.gpo := rfl
@[simp] theorem State.setHostFn_board (s : State) (n : BitVec 6) (x : HostFn) : (s.setHostFn n x).board = s.board := rfl
@[simp] theorem State.setHostFn_mem (s : State) (n : BitVec 6) (x : HostFn) : (s.setHostFn n x).mem = s.mem := rfl
@[simp] theorem State.setHostFn_par (s : State) (n : BitVec 6) (x : HostFn) : (s.setHostFn n x).par = s.par := rfl
@[simp] theorem State.setHostFn_hostMem (s : State) (n : BitVec 6) (x : HostFn) : (s.setHostFn n x).hostMem = s.hostMem := rfl
@[simp] theorem State.setHostFn_tally (s : State) (n : BitVec 6) (x : HostFn) : (s.setHostFn n x).tally = s.tally := rfl
@[simp] theorem State.setHostFn_shadow (s : State) (n : BitVec 6) (x : HostFn) : (s.setHostFn n x).shadow = s.shadow := rfl
@[simp] theorem State.setHostFn_resp (s : State) (n : BitVec 6) (x : HostFn) : (s.setHostFn n x).resp = s.resp := rfl
@[simp] theorem State.setHostFn_fresh (s : State) (n : BitVec 6) (x : HostFn) : (s.setHostFn n x).fresh = s.fresh := rfl
@[simp] theorem State.setHostFn_pending (s : State) (n : BitVec 6) (x : HostFn) : (s.setHostFn n x).pending = s.pending := rfl
/-! ### State.setStrm -/
@[simp] theorem State.setStrm_cycle (s : State) (n : StreamId) (x : Strm) : (s.setStrm n x).cycle = s.cycle := rfl
@[simp] theorem State.setStrm_cores (s : State) (n : StreamId) (x : Strm) : (s.setStrm n x).cores = s.cores := rfl
@[simp] theorem State.setStrm_clus (s : State) (n : StreamId) (x : Strm) : (s.setStrm n x).clus = s.clus := rfl
@[simp] theorem State.setStrm_inits (s : State) (n : StreamId) (x : Strm) : (s.setStrm n x).inits = s.inits := rfl
@[simp] theorem State.setStrm_slices (s : State) (n : StreamId) (x : Strm) : (s.setStrm n x).slices = s.slices := rfl
@[simp] theorem State.setStrm_buds (s : State) (n : StreamId) (x : Strm) : (s.setStrm n x).buds = s.buds := rfl
@[simp] theorem State.setStrm_engines (s : State) (n : StreamId) (x : Strm) : (s.setStrm n x).engines = s.engines := rfl
@[simp] theorem State.setStrm_nis (s : State) (n : StreamId) (x : Strm) : (s.setStrm n x).nis = s.nis := rfl
@[simp] theorem State.setStrm_elems (s : State) (n : StreamId) (x : Strm) : (s.setStrm n x).elems = s.elems := rfl
@[simp] theorem State.setStrm_hif (s : State) (n : StreamId) (x : Strm) : (s.setStrm n x).hif = s.hif := rfl
@[simp] theorem State.setStrm_cmk (s : State) (n : StreamId) (x : Strm) : (s.setStrm n x).cmk = s.cmk := rfl
@[simp] theorem State.setStrm_cas (s : State) (n : StreamId) (x : Strm) : (s.setStrm n x).cas = s.cas := rfl
@[simp] theorem State.setStrm_cri (s : State) (n : StreamId) (x : Strm) : (s.setStrm n x).cri = s.cri := rfl
@[simp] theorem State.setStrm_edc (s : State) (n : StreamId) (x : Strm) : (s.setStrm n x).edc = s.edc := rfl
@[simp] theorem State.setStrm_asy (s : State) (n : StreamId) (x : Strm) : (s.setStrm n x).asy = s.asy := rfl
@[simp] theorem State.setStrm_lmp (s : State) (n : StreamId) (x : Strm) : (s.setStrm n x).lmp = s.lmp := rfl
@[simp] theorem State.setStrm_scv (s : State) (n : StreamId) (x : Strm) : (s.setStrm n x).scv = s.scv := rfl
@[simp] theorem State.setStrm_mgc (s : State) (n : StreamId) (x : Strm) : (s.setStrm n x).mgc = s.mgc := rfl
@[simp] theorem State.setStrm_gpo (s : State) (n : StreamId) (x : Strm) : (s.setStrm n x).gpo = s.gpo := rfl
@[simp] theorem State.setStrm_board (s : State) (n : StreamId) (x : Strm) : (s.setStrm n x).board = s.board := rfl
@[simp] theorem State.setStrm_mem (s : State) (n : StreamId) (x : Strm) : (s.setStrm n x).mem = s.mem := rfl
@[simp] theorem State.setStrm_par (s : State) (n : StreamId) (x : Strm) : (s.setStrm n x).par = s.par := rfl
@[simp] theorem State.setStrm_hostMem (s : State) (n : StreamId) (x : Strm) : (s.setStrm n x).hostMem = s.hostMem := rfl
@[simp] theorem State.setStrm_tally (s : State) (n : StreamId) (x : Strm) : (s.setStrm n x).tally = s.tally := rfl
@[simp] theorem State.setStrm_shadow (s : State) (n : StreamId) (x : Strm) : (s.setStrm n x).shadow = s.shadow := rfl
@[simp] theorem State.setStrm_resp (s : State) (n : StreamId) (x : Strm) : (s.setStrm n x).resp = s.resp := rfl
@[simp] theorem State.setStrm_fresh (s : State) (n : StreamId) (x : Strm) : (s.setStrm n x).fresh = s.fresh := rfl
@[simp] theorem State.setStrm_pending (s : State) (n : StreamId) (x : Strm) : (s.setStrm n x).pending = s.pending := rfl
/-! ### State.setPort -/
@[simp] theorem State.setPort_cycle (s : State) (n : PortId) (x : Port) : (s.setPort n x).cycle = s.cycle := rfl
@[simp] theorem State.setPort_cores (s : State) (n : PortId) (x : Port) : (s.setPort n x).cores = s.cores := rfl
@[simp] theorem State.setPort_clus (s : State) (n : PortId) (x : Port) : (s.setPort n x).clus = s.clus := rfl
@[simp] theorem State.setPort_inits (s : State) (n : PortId) (x : Port) : (s.setPort n x).inits = s.inits := rfl
@[simp] theorem State.setPort_slices (s : State) (n : PortId) (x : Port) : (s.setPort n x).slices = s.slices := rfl
@[simp] theorem State.setPort_buds (s : State) (n : PortId) (x : Port) : (s.setPort n x).buds = s.buds := rfl
@[simp] theorem State.setPort_engines (s : State) (n : PortId) (x : Port) : (s.setPort n x).engines = s.engines := rfl
@[simp] theorem State.setPort_nis (s : State) (n : PortId) (x : Port) : (s.setPort n x).nis = s.nis := rfl
@[simp] theorem State.setPort_elems (s : State) (n : PortId) (x : Port) : (s.setPort n x).elems = s.elems := rfl
@[simp] theorem State.setPort_hif (s : State) (n : PortId) (x : Port) : (s.setPort n x).hif = s.hif := rfl
@[simp] theorem State.setPort_cmk (s : State) (n : PortId) (x : Port) : (s.setPort n x).cmk = s.cmk := rfl
@[simp] theorem State.setPort_cas (s : State) (n : PortId) (x : Port) : (s.setPort n x).cas = s.cas := rfl
@[simp] theorem State.setPort_cri (s : State) (n : PortId) (x : Port) : (s.setPort n x).cri = s.cri := rfl
@[simp] theorem State.setPort_edc (s : State) (n : PortId) (x : Port) : (s.setPort n x).edc = s.edc := rfl
@[simp] theorem State.setPort_asy (s : State) (n : PortId) (x : Port) : (s.setPort n x).asy = s.asy := rfl
@[simp] theorem State.setPort_lmp (s : State) (n : PortId) (x : Port) : (s.setPort n x).lmp = s.lmp := rfl
@[simp] theorem State.setPort_scv (s : State) (n : PortId) (x : Port) : (s.setPort n x).scv = s.scv := rfl
@[simp] theorem State.setPort_mgc (s : State) (n : PortId) (x : Port) : (s.setPort n x).mgc = s.mgc := rfl
@[simp] theorem State.setPort_gpo (s : State) (n : PortId) (x : Port) : (s.setPort n x).gpo = s.gpo := rfl
@[simp] theorem State.setPort_board (s : State) (n : PortId) (x : Port) : (s.setPort n x).board = s.board := rfl
@[simp] theorem State.setPort_mem (s : State) (n : PortId) (x : Port) : (s.setPort n x).mem = s.mem := rfl
@[simp] theorem State.setPort_par (s : State) (n : PortId) (x : Port) : (s.setPort n x).par = s.par := rfl
@[simp] theorem State.setPort_hostMem (s : State) (n : PortId) (x : Port) : (s.setPort n x).hostMem = s.hostMem := rfl
@[simp] theorem State.setPort_tally (s : State) (n : PortId) (x : Port) : (s.setPort n x).tally = s.tally := rfl
@[simp] theorem State.setPort_shadow (s : State) (n : PortId) (x : Port) : (s.setPort n x).shadow = s.shadow := rfl
@[simp] theorem State.setPort_resp (s : State) (n : PortId) (x : Port) : (s.setPort n x).resp = s.resp := rfl
@[simp] theorem State.setPort_fresh (s : State) (n : PortId) (x : Port) : (s.setPort n x).fresh = s.fresh := rfl
@[simp] theorem State.setPort_pending (s : State) (n : PortId) (x : Port) : (s.setPort n x).pending = s.pending := rfl
/-! ### State.setTmr -/
@[simp] theorem State.setTmr_cycle (s : State) (n : TimerId) (x : Tmr) : (s.setTmr n x).cycle = s.cycle := rfl
@[simp] theorem State.setTmr_cores (s : State) (n : TimerId) (x : Tmr) : (s.setTmr n x).cores = s.cores := rfl
@[simp] theorem State.setTmr_clus (s : State) (n : TimerId) (x : Tmr) : (s.setTmr n x).clus = s.clus := rfl
@[simp] theorem State.setTmr_inits (s : State) (n : TimerId) (x : Tmr) : (s.setTmr n x).inits = s.inits := rfl
@[simp] theorem State.setTmr_slices (s : State) (n : TimerId) (x : Tmr) : (s.setTmr n x).slices = s.slices := rfl
@[simp] theorem State.setTmr_buds (s : State) (n : TimerId) (x : Tmr) : (s.setTmr n x).buds = s.buds := rfl
@[simp] theorem State.setTmr_engines (s : State) (n : TimerId) (x : Tmr) : (s.setTmr n x).engines = s.engines := rfl
@[simp] theorem State.setTmr_nis (s : State) (n : TimerId) (x : Tmr) : (s.setTmr n x).nis = s.nis := rfl
@[simp] theorem State.setTmr_elems (s : State) (n : TimerId) (x : Tmr) : (s.setTmr n x).elems = s.elems := rfl
@[simp] theorem State.setTmr_hif (s : State) (n : TimerId) (x : Tmr) : (s.setTmr n x).hif = s.hif := rfl
@[simp] theorem State.setTmr_fhp (s : State) (n : TimerId) (x : Tmr) : (s.setTmr n x).fhp = s.fhp := rfl
@[simp] theorem State.setTmr_cas (s : State) (n : TimerId) (x : Tmr) : (s.setTmr n x).cas = s.cas := rfl
@[simp] theorem State.setTmr_cri (s : State) (n : TimerId) (x : Tmr) : (s.setTmr n x).cri = s.cri := rfl
@[simp] theorem State.setTmr_edc (s : State) (n : TimerId) (x : Tmr) : (s.setTmr n x).edc = s.edc := rfl
@[simp] theorem State.setTmr_asy (s : State) (n : TimerId) (x : Tmr) : (s.setTmr n x).asy = s.asy := rfl
@[simp] theorem State.setTmr_lmp (s : State) (n : TimerId) (x : Tmr) : (s.setTmr n x).lmp = s.lmp := rfl
@[simp] theorem State.setTmr_scv (s : State) (n : TimerId) (x : Tmr) : (s.setTmr n x).scv = s.scv := rfl
@[simp] theorem State.setTmr_mgc (s : State) (n : TimerId) (x : Tmr) : (s.setTmr n x).mgc = s.mgc := rfl
@[simp] theorem State.setTmr_gpo (s : State) (n : TimerId) (x : Tmr) : (s.setTmr n x).gpo = s.gpo := rfl
@[simp] theorem State.setTmr_board (s : State) (n : TimerId) (x : Tmr) : (s.setTmr n x).board = s.board := rfl
@[simp] theorem State.setTmr_mem (s : State) (n : TimerId) (x : Tmr) : (s.setTmr n x).mem = s.mem := rfl
@[simp] theorem State.setTmr_par (s : State) (n : TimerId) (x : Tmr) : (s.setTmr n x).par = s.par := rfl
@[simp] theorem State.setTmr_hostMem (s : State) (n : TimerId) (x : Tmr) : (s.setTmr n x).hostMem = s.hostMem := rfl
@[simp] theorem State.setTmr_tally (s : State) (n : TimerId) (x : Tmr) : (s.setTmr n x).tally = s.tally := rfl
@[simp] theorem State.setTmr_shadow (s : State) (n : TimerId) (x : Tmr) : (s.setTmr n x).shadow = s.shadow := rfl
@[simp] theorem State.setTmr_resp (s : State) (n : TimerId) (x : Tmr) : (s.setTmr n x).resp = s.resp := rfl
@[simp] theorem State.setTmr_fresh (s : State) (n : TimerId) (x : Tmr) : (s.setTmr n x).fresh = s.fresh := rfl
@[simp] theorem State.setTmr_pending (s : State) (n : TimerId) (x : Tmr) : (s.setTmr n x).pending = s.pending := rfl
/-! ### State.setMc -/
@[simp] theorem State.setMc_cycle (s : State) (m : Nat) (x : Mc) : (s.setMc m x).cycle = s.cycle := rfl
@[simp] theorem State.setMc_cores (s : State) (m : Nat) (x : Mc) : (s.setMc m x).cores = s.cores := rfl
@[simp] theorem State.setMc_clus (s : State) (m : Nat) (x : Mc) : (s.setMc m x).clus = s.clus := rfl
@[simp] theorem State.setMc_inits (s : State) (m : Nat) (x : Mc) : (s.setMc m x).inits = s.inits := rfl
@[simp] theorem State.setMc_slices (s : State) (m : Nat) (x : Mc) : (s.setMc m x).slices = s.slices := rfl
@[simp] theorem State.setMc_buds (s : State) (m : Nat) (x : Mc) : (s.setMc m x).buds = s.buds := rfl
@[simp] theorem State.setMc_engines (s : State) (m : Nat) (x : Mc) : (s.setMc m x).engines = s.engines := rfl
@[simp] theorem State.setMc_nis (s : State) (m : Nat) (x : Mc) : (s.setMc m x).nis = s.nis := rfl
@[simp] theorem State.setMc_elems (s : State) (m : Nat) (x : Mc) : (s.setMc m x).elems = s.elems := rfl
@[simp] theorem State.setMc_hif (s : State) (m : Nat) (x : Mc) : (s.setMc m x).hif = s.hif := rfl
@[simp] theorem State.setMc_fhp (s : State) (m : Nat) (x : Mc) : (s.setMc m x).fhp = s.fhp := rfl
@[simp] theorem State.setMc_cmk (s : State) (m : Nat) (x : Mc) : (s.setMc m x).cmk = s.cmk := rfl
@[simp] theorem State.setMc_cas (s : State) (m : Nat) (x : Mc) : (s.setMc m x).cas = s.cas := rfl
@[simp] theorem State.setMc_cri (s : State) (m : Nat) (x : Mc) : (s.setMc m x).cri = s.cri := rfl
@[simp] theorem State.setMc_asy (s : State) (m : Nat) (x : Mc) : (s.setMc m x).asy = s.asy := rfl
@[simp] theorem State.setMc_lmp (s : State) (m : Nat) (x : Mc) : (s.setMc m x).lmp = s.lmp := rfl
@[simp] theorem State.setMc_scv (s : State) (m : Nat) (x : Mc) : (s.setMc m x).scv = s.scv := rfl
@[simp] theorem State.setMc_mgc (s : State) (m : Nat) (x : Mc) : (s.setMc m x).mgc = s.mgc := rfl
@[simp] theorem State.setMc_gpo (s : State) (m : Nat) (x : Mc) : (s.setMc m x).gpo = s.gpo := rfl
@[simp] theorem State.setMc_board (s : State) (m : Nat) (x : Mc) : (s.setMc m x).board = s.board := rfl
@[simp] theorem State.setMc_mem (s : State) (m : Nat) (x : Mc) : (s.setMc m x).mem = s.mem := rfl
@[simp] theorem State.setMc_par (s : State) (m : Nat) (x : Mc) : (s.setMc m x).par = s.par := rfl
@[simp] theorem State.setMc_hostMem (s : State) (m : Nat) (x : Mc) : (s.setMc m x).hostMem = s.hostMem := rfl
@[simp] theorem State.setMc_tally (s : State) (m : Nat) (x : Mc) : (s.setMc m x).tally = s.tally := rfl
@[simp] theorem State.setMc_shadow (s : State) (m : Nat) (x : Mc) : (s.setMc m x).shadow = s.shadow := rfl
@[simp] theorem State.setMc_resp (s : State) (m : Nat) (x : Mc) : (s.setMc m x).resp = s.resp := rfl
@[simp] theorem State.setMc_fresh (s : State) (m : Nat) (x : Mc) : (s.setMc m x).fresh = s.fresh := rfl
@[simp] theorem State.setMc_pending (s : State) (m : Nat) (x : Mc) : (s.setMc m x).pending = s.pending := rfl
/-! ### State.setSrc -/
@[simp] theorem State.setSrc_cycle (s : State) (n : SourceId) (x : FaultSrc) : (s.setSrc n x).cycle = s.cycle := rfl
@[simp] theorem State.setSrc_cores (s : State) (n : SourceId) (x : FaultSrc) : (s.setSrc n x).cores = s.cores := rfl
@[simp] theorem State.setSrc_clus (s : State) (n : SourceId) (x : FaultSrc) : (s.setSrc n x).clus = s.clus := rfl
@[simp] theorem State.setSrc_inits (s : State) (n : SourceId) (x : FaultSrc) : (s.setSrc n x).inits = s.inits := rfl
@[simp] theorem State.setSrc_slices (s : State) (n : SourceId) (x : FaultSrc) : (s.setSrc n x).slices = s.slices := rfl
@[simp] theorem State.setSrc_buds (s : State) (n : SourceId) (x : FaultSrc) : (s.setSrc n x).buds = s.buds := rfl
@[simp] theorem State.setSrc_engines (s : State) (n : SourceId) (x : FaultSrc) : (s.setSrc n x).engines = s.engines := rfl
@[simp] theorem State.setSrc_nis (s : State) (n : SourceId) (x : FaultSrc) : (s.setSrc n x).nis = s.nis := rfl
@[simp] theorem State.setSrc_elems (s : State) (n : SourceId) (x : FaultSrc) : (s.setSrc n x).elems = s.elems := rfl
@[simp] theorem State.setSrc_hif (s : State) (n : SourceId) (x : FaultSrc) : (s.setSrc n x).hif = s.hif := rfl
@[simp] theorem State.setSrc_fhp (s : State) (n : SourceId) (x : FaultSrc) : (s.setSrc n x).fhp = s.fhp := rfl
@[simp] theorem State.setSrc_cmk (s : State) (n : SourceId) (x : FaultSrc) : (s.setSrc n x).cmk = s.cmk := rfl
@[simp] theorem State.setSrc_cas (s : State) (n : SourceId) (x : FaultSrc) : (s.setSrc n x).cas = s.cas := rfl
@[simp] theorem State.setSrc_cri (s : State) (n : SourceId) (x : FaultSrc) : (s.setSrc n x).cri = s.cri := rfl
@[simp] theorem State.setSrc_edc (s : State) (n : SourceId) (x : FaultSrc) : (s.setSrc n x).edc = s.edc := rfl
@[simp] theorem State.setSrc_lmp (s : State) (n : SourceId) (x : FaultSrc) : (s.setSrc n x).lmp = s.lmp := rfl
@[simp] theorem State.setSrc_scv (s : State) (n : SourceId) (x : FaultSrc) : (s.setSrc n x).scv = s.scv := rfl
@[simp] theorem State.setSrc_mgc (s : State) (n : SourceId) (x : FaultSrc) : (s.setSrc n x).mgc = s.mgc := rfl
@[simp] theorem State.setSrc_gpo (s : State) (n : SourceId) (x : FaultSrc) : (s.setSrc n x).gpo = s.gpo := rfl
@[simp] theorem State.setSrc_board (s : State) (n : SourceId) (x : FaultSrc) : (s.setSrc n x).board = s.board := rfl
@[simp] theorem State.setSrc_mem (s : State) (n : SourceId) (x : FaultSrc) : (s.setSrc n x).mem = s.mem := rfl
@[simp] theorem State.setSrc_par (s : State) (n : SourceId) (x : FaultSrc) : (s.setSrc n x).par = s.par := rfl
@[simp] theorem State.setSrc_hostMem (s : State) (n : SourceId) (x : FaultSrc) : (s.setSrc n x).hostMem = s.hostMem := rfl
@[simp] theorem State.setSrc_tally (s : State) (n : SourceId) (x : FaultSrc) : (s.setSrc n x).tally = s.tally := rfl
@[simp] theorem State.setSrc_shadow (s : State) (n : SourceId) (x : FaultSrc) : (s.setSrc n x).shadow = s.shadow := rfl
@[simp] theorem State.setSrc_resp (s : State) (n : SourceId) (x : FaultSrc) : (s.setSrc n x).resp = s.resp := rfl
@[simp] theorem State.setSrc_fresh (s : State) (n : SourceId) (x : FaultSrc) : (s.setSrc n x).fresh = s.fresh := rfl
@[simp] theorem State.setSrc_pending (s : State) (n : SourceId) (x : FaultSrc) : (s.setSrc n x).pending = s.pending := rfl
/-! ### State.setRegion -/
@[simp] theorem State.setRegion_cycle (s : State) (r : RegionId) (x : RegionState) : (s.setRegion r x).cycle = s.cycle := rfl
@[simp] theorem State.setRegion_cores (s : State) (r : RegionId) (x : RegionState) : (s.setRegion r x).cores = s.cores := rfl
@[simp] theorem State.setRegion_clus (s : State) (r : RegionId) (x : RegionState) : (s.setRegion r x).clus = s.clus := rfl
@[simp] theorem State.setRegion_inits (s : State) (r : RegionId) (x : RegionState) : (s.setRegion r x).inits = s.inits := rfl
@[simp] theorem State.setRegion_slices (s : State) (r : RegionId) (x : RegionState) : (s.setRegion r x).slices = s.slices := rfl
@[simp] theorem State.setRegion_buds (s : State) (r : RegionId) (x : RegionState) : (s.setRegion r x).buds = s.buds := rfl
@[simp] theorem State.setRegion_engines (s : State) (r : RegionId) (x : RegionState) : (s.setRegion r x).engines = s.engines := rfl
@[simp] theorem State.setRegion_nis (s : State) (r : RegionId) (x : RegionState) : (s.setRegion r x).nis = s.nis := rfl
@[simp] theorem State.setRegion_elems (s : State) (r : RegionId) (x : RegionState) : (s.setRegion r x).elems = s.elems := rfl
@[simp] theorem State.setRegion_hif (s : State) (r : RegionId) (x : RegionState) : (s.setRegion r x).hif = s.hif := rfl
@[simp] theorem State.setRegion_fhp (s : State) (r : RegionId) (x : RegionState) : (s.setRegion r x).fhp = s.fhp := rfl
@[simp] theorem State.setRegion_cmk (s : State) (r : RegionId) (x : RegionState) : (s.setRegion r x).cmk = s.cmk := rfl
@[simp] theorem State.setRegion_cas (s : State) (r : RegionId) (x : RegionState) : (s.setRegion r x).cas = s.cas := rfl
@[simp] theorem State.setRegion_cri (s : State) (r : RegionId) (x : RegionState) : (s.setRegion r x).cri = s.cri := rfl
@[simp] theorem State.setRegion_edc (s : State) (r : RegionId) (x : RegionState) : (s.setRegion r x).edc = s.edc := rfl
@[simp] theorem State.setRegion_asy (s : State) (r : RegionId) (x : RegionState) : (s.setRegion r x).asy = s.asy := rfl
@[simp] theorem State.setRegion_scv (s : State) (r : RegionId) (x : RegionState) : (s.setRegion r x).scv = s.scv := rfl
@[simp] theorem State.setRegion_mgc (s : State) (r : RegionId) (x : RegionState) : (s.setRegion r x).mgc = s.mgc := rfl
@[simp] theorem State.setRegion_gpo (s : State) (r : RegionId) (x : RegionState) : (s.setRegion r x).gpo = s.gpo := rfl
@[simp] theorem State.setRegion_board (s : State) (r : RegionId) (x : RegionState) : (s.setRegion r x).board = s.board := rfl
@[simp] theorem State.setRegion_mem (s : State) (r : RegionId) (x : RegionState) : (s.setRegion r x).mem = s.mem := rfl
@[simp] theorem State.setRegion_par (s : State) (r : RegionId) (x : RegionState) : (s.setRegion r x).par = s.par := rfl
@[simp] theorem State.setRegion_hostMem (s : State) (r : RegionId) (x : RegionState) : (s.setRegion r x).hostMem = s.hostMem := rfl
@[simp] theorem State.setRegion_tally (s : State) (r : RegionId) (x : RegionState) : (s.setRegion r x).tally = s.tally := rfl
@[simp] theorem State.setRegion_shadow (s : State) (r : RegionId) (x : RegionState) : (s.setRegion r x).shadow = s.shadow := rfl
@[simp] theorem State.setRegion_resp (s : State) (r : RegionId) (x : RegionState) : (s.setRegion r x).resp = s.resp := rfl
@[simp] theorem State.setRegion_fresh (s : State) (r : RegionId) (x : RegionState) : (s.setRegion r x).fresh = s.fresh := rfl
@[simp] theorem State.setRegion_pending (s : State) (r : RegionId) (x : RegionState) : (s.setRegion r x).pending = s.pending := rfl
/-! ### State.setInit -/
@[simp] theorem State.setInit_cycle (s : State) (m : InitMem) (x : InitState) : (s.setInit m x).cycle = s.cycle := rfl
@[simp] theorem State.setInit_cores (s : State) (m : InitMem) (x : InitState) : (s.setInit m x).cores = s.cores := rfl
@[simp] theorem State.setInit_clus (s : State) (m : InitMem) (x : InitState) : (s.setInit m x).clus = s.clus := rfl
@[simp] theorem State.setInit_slices (s : State) (m : InitMem) (x : InitState) : (s.setInit m x).slices = s.slices := rfl
@[simp] theorem State.setInit_buds (s : State) (m : InitMem) (x : InitState) : (s.setInit m x).buds = s.buds := rfl
@[simp] theorem State.setInit_engines (s : State) (m : InitMem) (x : InitState) : (s.setInit m x).engines = s.engines := rfl
@[simp] theorem State.setInit_nis (s : State) (m : InitMem) (x : InitState) : (s.setInit m x).nis = s.nis := rfl
@[simp] theorem State.setInit_elems (s : State) (m : InitMem) (x : InitState) : (s.setInit m x).elems = s.elems := rfl
@[simp] theorem State.setInit_hif (s : State) (m : InitMem) (x : InitState) : (s.setInit m x).hif = s.hif := rfl
@[simp] theorem State.setInit_fhp (s : State) (m : InitMem) (x : InitState) : (s.setInit m x).fhp = s.fhp := rfl
@[simp] theorem State.setInit_cmk (s : State) (m : InitMem) (x : InitState) : (s.setInit m x).cmk = s.cmk := rfl
@[simp] theorem State.setInit_cas (s : State) (m : InitMem) (x : InitState) : (s.setInit m x).cas = s.cas := rfl
@[simp] theorem State.setInit_cri (s : State) (m : InitMem) (x : InitState) : (s.setInit m x).cri = s.cri := rfl
@[simp] theorem State.setInit_edc (s : State) (m : InitMem) (x : InitState) : (s.setInit m x).edc = s.edc := rfl
@[simp] theorem State.setInit_asy (s : State) (m : InitMem) (x : InitState) : (s.setInit m x).asy = s.asy := rfl
@[simp] theorem State.setInit_lmp (s : State) (m : InitMem) (x : InitState) : (s.setInit m x).lmp = s.lmp := rfl
@[simp] theorem State.setInit_scv (s : State) (m : InitMem) (x : InitState) : (s.setInit m x).scv = s.scv := rfl
@[simp] theorem State.setInit_mgc (s : State) (m : InitMem) (x : InitState) : (s.setInit m x).mgc = s.mgc := rfl
@[simp] theorem State.setInit_gpo (s : State) (m : InitMem) (x : InitState) : (s.setInit m x).gpo = s.gpo := rfl
@[simp] theorem State.setInit_board (s : State) (m : InitMem) (x : InitState) : (s.setInit m x).board = s.board := rfl
@[simp] theorem State.setInit_mem (s : State) (m : InitMem) (x : InitState) : (s.setInit m x).mem = s.mem := rfl
@[simp] theorem State.setInit_par (s : State) (m : InitMem) (x : InitState) : (s.setInit m x).par = s.par := rfl
@[simp] theorem State.setInit_hostMem (s : State) (m : InitMem) (x : InitState) : (s.setInit m x).hostMem = s.hostMem := rfl
@[simp] theorem State.setInit_tally (s : State) (m : InitMem) (x : InitState) : (s.setInit m x).tally = s.tally := rfl
@[simp] theorem State.setInit_shadow (s : State) (m : InitMem) (x : InitState) : (s.setInit m x).shadow = s.shadow := rfl
@[simp] theorem State.setInit_resp (s : State) (m : InitMem) (x : InitState) : (s.setInit m x).resp = s.resp := rfl
@[simp] theorem State.setInit_fresh (s : State) (m : InitMem) (x : InitState) : (s.setInit m x).fresh = s.fresh := rfl
@[simp] theorem State.setInit_pending (s : State) (m : InitMem) (x : InitState) : (s.setInit m x).pending = s.pending := rfl
/-! ### State.setByte -/
@[simp] theorem State.setByte_cycle (s : State) (a : Nat) (b : Byte) : (s.setByte a b).cycle = s.cycle := rfl
@[simp] theorem State.setByte_cores (s : State) (a : Nat) (b : Byte) : (s.setByte a b).cores = s.cores := rfl
@[simp] theorem State.setByte_clus (s : State) (a : Nat) (b : Byte) : (s.setByte a b).clus = s.clus := rfl
@[simp] theorem State.setByte_inits (s : State) (a : Nat) (b : Byte) : (s.setByte a b).inits = s.inits := rfl
@[simp] theorem State.setByte_slices (s : State) (a : Nat) (b : Byte) : (s.setByte a b).slices = s.slices := rfl
@[simp] theorem State.setByte_buds (s : State) (a : Nat) (b : Byte) : (s.setByte a b).buds = s.buds := rfl
@[simp] theorem State.setByte_engines (s : State) (a : Nat) (b : Byte) : (s.setByte a b).engines = s.engines := rfl
@[simp] theorem State.setByte_nis (s : State) (a : Nat) (b : Byte) : (s.setByte a b).nis = s.nis := rfl
@[simp] theorem State.setByte_elems (s : State) (a : Nat) (b : Byte) : (s.setByte a b).elems = s.elems := rfl
@[simp] theorem State.setByte_hif (s : State) (a : Nat) (b : Byte) : (s.setByte a b).hif = s.hif := rfl
@[simp] theorem State.setByte_fhp (s : State) (a : Nat) (b : Byte) : (s.setByte a b).fhp = s.fhp := rfl
@[simp] theorem State.setByte_cmk (s : State) (a : Nat) (b : Byte) : (s.setByte a b).cmk = s.cmk := rfl
@[simp] theorem State.setByte_cas (s : State) (a : Nat) (b : Byte) : (s.setByte a b).cas = s.cas := rfl
@[simp] theorem State.setByte_cri (s : State) (a : Nat) (b : Byte) : (s.setByte a b).cri = s.cri := rfl
@[simp] theorem State.setByte_edc (s : State) (a : Nat) (b : Byte) : (s.setByte a b).edc = s.edc := rfl
@[simp] theorem State.setByte_asy (s : State) (a : Nat) (b : Byte) : (s.setByte a b).asy = s.asy := rfl
@[simp] theorem State.setByte_lmp (s : State) (a : Nat) (b : Byte) : (s.setByte a b).lmp = s.lmp := rfl
@[simp] theorem State.setByte_scv (s : State) (a : Nat) (b : Byte) : (s.setByte a b).scv = s.scv := rfl
@[simp] theorem State.setByte_mgc (s : State) (a : Nat) (b : Byte) : (s.setByte a b).mgc = s.mgc := rfl
@[simp] theorem State.setByte_gpo (s : State) (a : Nat) (b : Byte) : (s.setByte a b).gpo = s.gpo := rfl
@[simp] theorem State.setByte_board (s : State) (a : Nat) (b : Byte) : (s.setByte a b).board = s.board := rfl
@[simp] theorem State.setByte_par (s : State) (a : Nat) (b : Byte) : (s.setByte a b).par = s.par := rfl
@[simp] theorem State.setByte_hostMem (s : State) (a : Nat) (b : Byte) : (s.setByte a b).hostMem = s.hostMem := rfl
@[simp] theorem State.setByte_tally (s : State) (a : Nat) (b : Byte) : (s.setByte a b).tally = s.tally := rfl
@[simp] theorem State.setByte_shadow (s : State) (a : Nat) (b : Byte) : (s.setByte a b).shadow = s.shadow := rfl
@[simp] theorem State.setByte_resp (s : State) (a : Nat) (b : Byte) : (s.setByte a b).resp = s.resp := rfl
@[simp] theorem State.setByte_fresh (s : State) (a : Nat) (b : Byte) : (s.setByte a b).fresh = s.fresh := rfl
@[simp] theorem State.setByte_pending (s : State) (a : Nat) (b : Byte) : (s.setByte a b).pending = s.pending := rfl
/-! ### State.answer -/
@[simp] theorem State.answer_cycle (s : State) (a : Ans) : (s.answer a).cycle = s.cycle := rfl
@[simp] theorem State.answer_cores (s : State) (a : Ans) : (s.answer a).cores = s.cores := rfl
@[simp] theorem State.answer_clus (s : State) (a : Ans) : (s.answer a).clus = s.clus := rfl
@[simp] theorem State.answer_inits (s : State) (a : Ans) : (s.answer a).inits = s.inits := rfl
@[simp] theorem State.answer_slices (s : State) (a : Ans) : (s.answer a).slices = s.slices := rfl
@[simp] theorem State.answer_buds (s : State) (a : Ans) : (s.answer a).buds = s.buds := rfl
@[simp] theorem State.answer_engines (s : State) (a : Ans) : (s.answer a).engines = s.engines := rfl
@[simp] theorem State.answer_nis (s : State) (a : Ans) : (s.answer a).nis = s.nis := rfl
@[simp] theorem State.answer_elems (s : State) (a : Ans) : (s.answer a).elems = s.elems := rfl
@[simp] theorem State.answer_hif (s : State) (a : Ans) : (s.answer a).hif = s.hif := rfl
@[simp] theorem State.answer_fhp (s : State) (a : Ans) : (s.answer a).fhp = s.fhp := rfl
@[simp] theorem State.answer_cmk (s : State) (a : Ans) : (s.answer a).cmk = s.cmk := rfl
@[simp] theorem State.answer_cas (s : State) (a : Ans) : (s.answer a).cas = s.cas := rfl
@[simp] theorem State.answer_cri (s : State) (a : Ans) : (s.answer a).cri = s.cri := rfl
@[simp] theorem State.answer_edc (s : State) (a : Ans) : (s.answer a).edc = s.edc := rfl
@[simp] theorem State.answer_asy (s : State) (a : Ans) : (s.answer a).asy = s.asy := rfl
@[simp] theorem State.answer_lmp (s : State) (a : Ans) : (s.answer a).lmp = s.lmp := rfl
@[simp] theorem State.answer_scv (s : State) (a : Ans) : (s.answer a).scv = s.scv := rfl
@[simp] theorem State.answer_mgc (s : State) (a : Ans) : (s.answer a).mgc = s.mgc := rfl
@[simp] theorem State.answer_gpo (s : State) (a : Ans) : (s.answer a).gpo = s.gpo := rfl
@[simp] theorem State.answer_board (s : State) (a : Ans) : (s.answer a).board = s.board := rfl
@[simp] theorem State.answer_mem (s : State) (a : Ans) : (s.answer a).mem = s.mem := rfl
@[simp] theorem State.answer_par (s : State) (a : Ans) : (s.answer a).par = s.par := rfl
@[simp] theorem State.answer_hostMem (s : State) (a : Ans) : (s.answer a).hostMem = s.hostMem := rfl
@[simp] theorem State.answer_tally (s : State) (a : Ans) : (s.answer a).tally = s.tally := rfl
@[simp] theorem State.answer_shadow (s : State) (a : Ans) : (s.answer a).shadow = s.shadow := rfl
@[simp] theorem State.answer_fresh (s : State) (a : Ans) : (s.answer a).fresh = s.fresh := rfl
@[simp] theorem State.answer_pending (s : State) (a : Ans) : (s.answer a).pending = s.pending := rfl
/-! ### State.answerOnly -/
@[simp] theorem State.answerOnly_cycle (s : State) (o : Outc) : (s.answerOnly o).cycle = s.cycle := rfl
@[simp] theorem State.answerOnly_cores (s : State) (o : Outc) : (s.answerOnly o).cores = s.cores := rfl
@[simp] theorem State.answerOnly_clus (s : State) (o : Outc) : (s.answerOnly o).clus = s.clus := rfl
@[simp] theorem State.answerOnly_inits (s : State) (o : Outc) : (s.answerOnly o).inits = s.inits := rfl
@[simp] theorem State.answerOnly_slices (s : State) (o : Outc) : (s.answerOnly o).slices = s.slices := rfl
@[simp] theorem State.answerOnly_buds (s : State) (o : Outc) : (s.answerOnly o).buds = s.buds := rfl
@[simp] theorem State.answerOnly_engines (s : State) (o : Outc) : (s.answerOnly o).engines = s.engines := rfl
@[simp] theorem State.answerOnly_nis (s : State) (o : Outc) : (s.answerOnly o).nis = s.nis := rfl
@[simp] theorem State.answerOnly_elems (s : State) (o : Outc) : (s.answerOnly o).elems = s.elems := rfl
@[simp] theorem State.answerOnly_hif (s : State) (o : Outc) : (s.answerOnly o).hif = s.hif := rfl
@[simp] theorem State.answerOnly_fhp (s : State) (o : Outc) : (s.answerOnly o).fhp = s.fhp := rfl
@[simp] theorem State.answerOnly_cmk (s : State) (o : Outc) : (s.answerOnly o).cmk = s.cmk := rfl
@[simp] theorem State.answerOnly_cas (s : State) (o : Outc) : (s.answerOnly o).cas = s.cas := rfl
@[simp] theorem State.answerOnly_cri (s : State) (o : Outc) : (s.answerOnly o).cri = s.cri := rfl
@[simp] theorem State.answerOnly_edc (s : State) (o : Outc) : (s.answerOnly o).edc = s.edc := rfl
@[simp] theorem State.answerOnly_asy (s : State) (o : Outc) : (s.answerOnly o).asy = s.asy := rfl
@[simp] theorem State.answerOnly_lmp (s : State) (o : Outc) : (s.answerOnly o).lmp = s.lmp := rfl
@[simp] theorem State.answerOnly_scv (s : State) (o : Outc) : (s.answerOnly o).scv = s.scv := rfl
@[simp] theorem State.answerOnly_mgc (s : State) (o : Outc) : (s.answerOnly o).mgc = s.mgc := rfl
@[simp] theorem State.answerOnly_gpo (s : State) (o : Outc) : (s.answerOnly o).gpo = s.gpo := rfl
@[simp] theorem State.answerOnly_board (s : State) (o : Outc) : (s.answerOnly o).board = s.board := rfl
@[simp] theorem State.answerOnly_mem (s : State) (o : Outc) : (s.answerOnly o).mem = s.mem := rfl
@[simp] theorem State.answerOnly_par (s : State) (o : Outc) : (s.answerOnly o).par = s.par := rfl
@[simp] theorem State.answerOnly_hostMem (s : State) (o : Outc) : (s.answerOnly o).hostMem = s.hostMem := rfl
@[simp] theorem State.answerOnly_tally (s : State) (o : Outc) : (s.answerOnly o).tally = s.tally := rfl
@[simp] theorem State.answerOnly_shadow (s : State) (o : Outc) : (s.answerOnly o).shadow = s.shadow := rfl
@[simp] theorem State.answerOnly_fresh (s : State) (o : Outc) : (s.answerOnly o).fresh = s.fresh := rfl
@[simp] theorem State.answerOnly_pending (s : State) (o : Outc) : (s.answerOnly o).pending = s.pending := rfl
/-! ### tallyAdd and takeFree -/
@[simp] theorem tallyAdd_cycle (s : State) (a n : Nat) : (tallyAdd s a n).cycle = s.cycle := rfl
@[simp] theorem tallyAdd_cores (s : State) (a n : Nat) : (tallyAdd s a n).cores = s.cores := rfl
@[simp] theorem tallyAdd_clus (s : State) (a n : Nat) : (tallyAdd s a n).clus = s.clus := rfl
@[simp] theorem tallyAdd_inits (s : State) (a n : Nat) : (tallyAdd s a n).inits = s.inits := rfl
@[simp] theorem tallyAdd_slices (s : State) (a n : Nat) : (tallyAdd s a n).slices = s.slices := rfl
@[simp] theorem tallyAdd_buds (s : State) (a n : Nat) : (tallyAdd s a n).buds = s.buds := rfl
@[simp] theorem tallyAdd_engines (s : State) (a n : Nat) : (tallyAdd s a n).engines = s.engines := rfl
@[simp] theorem tallyAdd_nis (s : State) (a n : Nat) : (tallyAdd s a n).nis = s.nis := rfl
@[simp] theorem tallyAdd_elems (s : State) (a n : Nat) : (tallyAdd s a n).elems = s.elems := rfl
@[simp] theorem tallyAdd_hif (s : State) (a n : Nat) : (tallyAdd s a n).hif = s.hif := rfl
@[simp] theorem tallyAdd_fhp (s : State) (a n : Nat) : (tallyAdd s a n).fhp = s.fhp := rfl
@[simp] theorem tallyAdd_cmk (s : State) (a n : Nat) : (tallyAdd s a n).cmk = s.cmk := rfl
@[simp] theorem tallyAdd_cas (s : State) (a n : Nat) : (tallyAdd s a n).cas = s.cas := rfl
@[simp] theorem tallyAdd_cri (s : State) (a n : Nat) : (tallyAdd s a n).cri = s.cri := rfl
@[simp] theorem tallyAdd_edc (s : State) (a n : Nat) : (tallyAdd s a n).edc = s.edc := rfl
@[simp] theorem tallyAdd_asy (s : State) (a n : Nat) : (tallyAdd s a n).asy = s.asy := rfl
@[simp] theorem tallyAdd_lmp (s : State) (a n : Nat) : (tallyAdd s a n).lmp = s.lmp := rfl
@[simp] theorem tallyAdd_scv (s : State) (a n : Nat) : (tallyAdd s a n).scv = s.scv := rfl
@[simp] theorem tallyAdd_mgc (s : State) (a n : Nat) : (tallyAdd s a n).mgc = s.mgc := rfl
@[simp] theorem tallyAdd_gpo (s : State) (a n : Nat) : (tallyAdd s a n).gpo = s.gpo := rfl
@[simp] theorem tallyAdd_board (s : State) (a n : Nat) : (tallyAdd s a n).board = s.board := rfl
@[simp] theorem tallyAdd_mem (s : State) (a n : Nat) : (tallyAdd s a n).mem = s.mem := rfl
@[simp] theorem tallyAdd_par (s : State) (a n : Nat) : (tallyAdd s a n).par = s.par := rfl
@[simp] theorem tallyAdd_hostMem (s : State) (a n : Nat) : (tallyAdd s a n).hostMem = s.hostMem := rfl
@[simp] theorem tallyAdd_shadow (s : State) (a n : Nat) : (tallyAdd s a n).shadow = s.shadow := rfl
@[simp] theorem tallyAdd_resp (s : State) (a n : Nat) : (tallyAdd s a n).resp = s.resp := rfl
@[simp] theorem tallyAdd_fresh (s : State) (a n : Nat) : (tallyAdd s a n).fresh = s.fresh := rfl
@[simp] theorem tallyAdd_pending (s : State) (a n : Nat) : (tallyAdd s a n).pending = s.pending := rfl
@[simp] theorem takeFree_cycle (s : State) : (takeFree s).2.cycle = s.cycle := rfl
@[simp] theorem takeFree_cores (s : State) : (takeFree s).2.cores = s.cores := rfl
@[simp] theorem takeFree_clus (s : State) : (takeFree s).2.clus = s.clus := rfl
@[simp] theorem takeFree_inits (s : State) : (takeFree s).2.inits = s.inits := rfl
@[simp] theorem takeFree_slices (s : State) : (takeFree s).2.slices = s.slices := rfl
@[simp] theorem takeFree_buds (s : State) : (takeFree s).2.buds = s.buds := rfl
@[simp] theorem takeFree_engines (s : State) : (takeFree s).2.engines = s.engines := rfl
@[simp] theorem takeFree_nis (s : State) : (takeFree s).2.nis = s.nis := rfl
@[simp] theorem takeFree_elems (s : State) : (takeFree s).2.elems = s.elems := rfl
@[simp] theorem takeFree_hif (s : State) : (takeFree s).2.hif = s.hif := rfl
@[simp] theorem takeFree_fhp (s : State) : (takeFree s).2.fhp = s.fhp := rfl
@[simp] theorem takeFree_cmk (s : State) : (takeFree s).2.cmk = s.cmk := rfl
@[simp] theorem takeFree_cas (s : State) : (takeFree s).2.cas = s.cas := rfl
@[simp] theorem takeFree_cri (s : State) : (takeFree s).2.cri = s.cri := rfl
@[simp] theorem takeFree_edc (s : State) : (takeFree s).2.edc = s.edc := rfl
@[simp] theorem takeFree_asy (s : State) : (takeFree s).2.asy = s.asy := rfl
@[simp] theorem takeFree_lmp (s : State) : (takeFree s).2.lmp = s.lmp := rfl
@[simp] theorem takeFree_scv (s : State) : (takeFree s).2.scv = s.scv := rfl
@[simp] theorem takeFree_mgc (s : State) : (takeFree s).2.mgc = s.mgc := rfl
@[simp] theorem takeFree_gpo (s : State) : (takeFree s).2.gpo = s.gpo := rfl
@[simp] theorem takeFree_board (s : State) : (takeFree s).2.board = s.board := rfl
@[simp] theorem takeFree_mem (s : State) : (takeFree s).2.mem = s.mem := rfl
@[simp] theorem takeFree_par (s : State) : (takeFree s).2.par = s.par := rfl
@[simp] theorem takeFree_hostMem (s : State) : (takeFree s).2.hostMem = s.hostMem := rfl
@[simp] theorem takeFree_tally (s : State) : (takeFree s).2.tally = s.tally := rfl
@[simp] theorem takeFree_shadow (s : State) : (takeFree s).2.shadow = s.shadow := rfl
@[simp] theorem takeFree_resp (s : State) : (takeFree s).2.resp = s.resp := rfl
@[simp] theorem takeFree_pending (s : State) : (takeFree s).2.pending = s.pending := rfl

/-! ### Reading what was written -/

@[simp] theorem State.setByte_byte (s : State) (a c : Nat) (b : Byte) : (s.setByte a b).byte c = if c = a then b else s.byte c := by
  simp [State.byte, State.setByte]
@[simp] theorem State.answer_resp (s : State) (a : Ans) : (s.answer a).resp = { outc := a.outc, flags := a.flags, data := a.data } := rfl
@[simp] theorem State.answerOnly_resp (s : State) (o : Outc) : (s.answerOnly o).resp = { outc := o, flags := 0, data := [] } := rfl

@[simp] theorem State.setCore_core (s : State) (i j : CoreId) (x : Core) : (s.setCore i x).core j = if j = i then x else s.core j := by
  simp [State.core, State.setCore, BitVec.toNat_inj]
@[simp] theorem State.setClu_clu (s : State) (i j : ClusterId) (x : Clu) : (s.setClu i x).clu j = if j = i then x else s.clu j := by
  simp [State.clu, State.setClu, BitVec.toNat_inj]
@[simp] theorem State.setSlice_slice (s : State) (i j : ClusterId) (x : Slice) : (s.setSlice i x).slice j = if j = i then x else s.slice j := by
  simp [State.slice, State.setSlice, BitVec.toNat_inj]
@[simp] theorem State.setBud_bud (s : State) (i j : RegionId) (x : Bud) : (s.setBud i x).bud j = if j = i then x else s.bud j := by
  simp [State.bud, State.setBud, BitVec.toNat_inj]
@[simp] theorem State.setEngine_engine (s : State) (i j : EngId) (x : Engine) : (s.setEngine i x).engine j = if j = i then x else s.engine j := by
  simp [State.engine, State.setEngine, get_put, BitVec.toNat_inj]
@[simp] theorem State.setNi_ni (s : State) (i j : NodeId) (x : Ni) : (s.setNi i x).ni j = if j = i then x else s.ni j := by
  simp [State.ni, State.setNi, BitVec.toNat_inj]
@[simp] theorem State.setRing_ring (s : State) (i j : RingId) (x : Ring) : (s.setRing i x).ring j = if j = i then x else s.ring j := by
  simp [State.ring, State.setRing, BitVec.toNat_inj]
@[simp] theorem State.setHostFn_hostFn (s : State) (i j : BitVec 6) (x : HostFn) : (s.setHostFn i x).hostFn j = if j = i then x else s.hostFn j := by
  simp [State.hostFn, State.setHostFn, get_put, BitVec.toNat_inj]
@[simp] theorem State.setStrm_strm (s : State) (i j : StreamId) (x : Strm) : (s.setStrm i x).strm j = if j = i then x else s.strm j := by
  simp [State.strm, State.setStrm, BitVec.toNat_inj]
@[simp] theorem State.setPort_port (s : State) (i j : PortId) (x : Port) : (s.setPort i x).port j = if j = i then x else s.port j := by
  simp [State.port, State.setPort, BitVec.toNat_inj]
@[simp] theorem State.setTmr_tmr (s : State) (i j : TimerId) (x : Tmr) : (s.setTmr i x).tmr j = if j = i then x else s.tmr j := by
  simp [State.tmr, State.setTmr, BitVec.toNat_inj]
@[simp] theorem State.setSrc_src (s : State) (i j : SourceId) (x : FaultSrc) : (s.setSrc i x).src j = if j = i then x else s.src j := by
  simp [State.src, State.setSrc, get_put, BitVec.toNat_inj]
@[simp] theorem State.setRegion_region (s : State) (i j : RegionId) (x : RegionState) : (s.setRegion i x).region j = if j = i then x else s.region j := by
  simp [State.region, State.setRegion, BitVec.toNat_inj]
/-! ### The second of two updates of one unit stands -/
@[simp] theorem State.setCore_setCore (s : State) (i : CoreId) (x y : Core) : (s.setCore i x).setCore i y = s.setCore i y := by simp [State.setCore]
@[simp] theorem State.setClu_setClu (s : State) (i : ClusterId) (x y : Clu) : (s.setClu i x).setClu i y = s.setClu i y := by simp [State.setClu]
@[simp] theorem State.setSlice_setSlice (s : State) (i : ClusterId) (x y : Slice) : (s.setSlice i x).setSlice i y = s.setSlice i y := by simp [State.setSlice]
@[simp] theorem State.setBud_setBud (s : State) (i : RegionId) (x y : Bud) : (s.setBud i x).setBud i y = s.setBud i y := by simp [State.setBud]
@[simp] theorem State.setEngine_setEngine (s : State) (i : EngId) (x y : Engine) : (s.setEngine i x).setEngine i y = s.setEngine i y := by simp [State.setEngine]
@[simp] theorem State.setNi_setNi (s : State) (i : NodeId) (x y : Ni) : (s.setNi i x).setNi i y = s.setNi i y := by simp [State.setNi]
@[simp] theorem State.setElem_setElem (s : State) (i : Elem) (x y : ElemState) : (s.setElem i x).setElem i y = s.setElem i y := by simp [State.setElem]
@[simp] theorem State.setRing_setRing (s : State) (i : RingId) (x y : Ring) : (s.setRing i x).setRing i y = s.setRing i y := by simp [State.setRing]
@[simp] theorem State.setHostFn_setHostFn (s : State) (i : BitVec 6) (x y : HostFn) : (s.setHostFn i x).setHostFn i y = s.setHostFn i y := by simp [State.setHostFn]
@[simp] theorem State.setStrm_setStrm (s : State) (i : StreamId) (x y : Strm) : (s.setStrm i x).setStrm i y = s.setStrm i y := by simp [State.setStrm]
@[simp] theorem State.setPort_setPort (s : State) (i : PortId) (x y : Port) : (s.setPort i x).setPort i y = s.setPort i y := by simp [State.setPort]
@[simp] theorem State.setTmr_setTmr (s : State) (i : TimerId) (x y : Tmr) : (s.setTmr i x).setTmr i y = s.setTmr i y := by simp [State.setTmr]
@[simp] theorem State.setSrc_setSrc (s : State) (i : SourceId) (x y : FaultSrc) : (s.setSrc i x).setSrc i y = s.setSrc i y := by simp [State.setSrc]
@[simp] theorem State.setRegion_setRegion (s : State) (i : RegionId) (x y : RegionState) : (s.setRegion i x).setRegion i y = s.setRegion i y := by simp [State.setRegion]

/-! ### Units that another update leaves as they were -/
@[simp] theorem State.setClu_core (s : State) (gc : ClusterId) (x : Clu) (j : CoreId) : (s.setClu gc x).core j = s.core j := rfl
@[simp] theorem State.setSlice_core (s : State) (gc : ClusterId) (x : Slice) (j : CoreId) : (s.setSlice gc x).core j = s.core j := rfl
@[simp] theorem State.setBud_core (s : State) (r : RegionId) (x : Bud) (j : CoreId) : (s.setBud r x).core j = s.core j := rfl
@[simp] theorem State.setEngine_core (s : State) (e : EngId) (x : Engine) (j : CoreId) : (s.setEngine e x).core j = s.core j := rfl
@[simp] theorem State.setNi_core (s : State) (n : NodeId) (x : Ni) (j : CoreId) : (s.setNi n x).core j = s.core j := rfl
@[simp] theorem State.setElem_core (s : State) (e : Elem) (x : ElemState) (j : CoreId) : (s.setElem e x).core j = s.core j := rfl
@[simp] theorem State.setRing_core (s : State) (n : RingId) (x : Ring) (j : CoreId) : (s.setRing n x).core j = s.core j := rfl
@[simp] theorem State.setHostFn_core (s : State) (n : BitVec 6) (x : HostFn) (j : CoreId) : (s.setHostFn n x).core j = s.core j := rfl
@[simp] theorem State.setStrm_core (s : State) (n : StreamId) (x : Strm) (j : CoreId) : (s.setStrm n x).core j = s.core j := rfl
@[simp] theorem State.setPort_core (s : State) (n : PortId) (x : Port) (j : CoreId) : (s.setPort n x).core j = s.core j := rfl
@[simp] theorem State.setTmr_core (s : State) (n : TimerId) (x : Tmr) (j : CoreId) : (s.setTmr n x).core j = s.core j := rfl
@[simp] theorem State.setMc_core (s : State) (m : Nat) (x : Mc) (j : CoreId) : (s.setMc m x).core j = s.core j := rfl
@[simp] theorem State.setSrc_core (s : State) (n : SourceId) (x : FaultSrc) (j : CoreId) : (s.setSrc n x).core j = s.core j := rfl
@[simp] theorem State.setRegion_core (s : State) (r : RegionId) (x : RegionState) (j : CoreId) : (s.setRegion r x).core j = s.core j := rfl
@[simp] theorem State.setInit_core (s : State) (m : InitMem) (x : InitState) (j : CoreId) : (s.setInit m x).core j = s.core j := rfl
@[simp] theorem State.setByte_core (s : State) (a : Nat) (b : Byte) (j : CoreId) : (s.setByte a b).core j = s.core j := rfl
@[simp] theorem State.answer_core (s : State) (a : Ans) (j : CoreId) : (s.answer a).core j = s.core j := rfl
@[simp] theorem State.answerOnly_core (s : State) (o : Outc) (j : CoreId) : (s.answerOnly o).core j = s.core j := rfl
@[simp] theorem tallyAdd_core (s : State) (a n : Nat) (j : CoreId) : (tallyAdd s a n).core j = s.core j := rfl
@[simp] theorem State.setCore_clu (s : State) (g : CoreId) (x : Core) (j : ClusterId) : (s.setCore g x).clu j = s.clu j := rfl
@[simp] theorem State.setSlice_clu (s : State) (gc : ClusterId) (x : Slice) (j : ClusterId) : (s.setSlice gc x).clu j = s.clu j := rfl
@[simp] theorem State.setBud_clu (s : State) (r : RegionId) (x : Bud) (j : ClusterId) : (s.setBud r x).clu j = s.clu j := rfl
@[simp] theorem State.setEngine_clu (s : State) (e : EngId) (x : Engine) (j : ClusterId) : (s.setEngine e x).clu j = s.clu j := rfl
@[simp] theorem State.setNi_clu (s : State) (n : NodeId) (x : Ni) (j : ClusterId) : (s.setNi n x).clu j = s.clu j := rfl
@[simp] theorem State.setElem_clu (s : State) (e : Elem) (x : ElemState) (j : ClusterId) : (s.setElem e x).clu j = s.clu j := rfl
@[simp] theorem State.setRing_clu (s : State) (n : RingId) (x : Ring) (j : ClusterId) : (s.setRing n x).clu j = s.clu j := rfl
@[simp] theorem State.setHostFn_clu (s : State) (n : BitVec 6) (x : HostFn) (j : ClusterId) : (s.setHostFn n x).clu j = s.clu j := rfl
@[simp] theorem State.setStrm_clu (s : State) (n : StreamId) (x : Strm) (j : ClusterId) : (s.setStrm n x).clu j = s.clu j := rfl
@[simp] theorem State.setPort_clu (s : State) (n : PortId) (x : Port) (j : ClusterId) : (s.setPort n x).clu j = s.clu j := rfl
@[simp] theorem State.setTmr_clu (s : State) (n : TimerId) (x : Tmr) (j : ClusterId) : (s.setTmr n x).clu j = s.clu j := rfl
@[simp] theorem State.setMc_clu (s : State) (m : Nat) (x : Mc) (j : ClusterId) : (s.setMc m x).clu j = s.clu j := rfl
@[simp] theorem State.setSrc_clu (s : State) (n : SourceId) (x : FaultSrc) (j : ClusterId) : (s.setSrc n x).clu j = s.clu j := rfl
@[simp] theorem State.setRegion_clu (s : State) (r : RegionId) (x : RegionState) (j : ClusterId) : (s.setRegion r x).clu j = s.clu j := rfl
@[simp] theorem State.setInit_clu (s : State) (m : InitMem) (x : InitState) (j : ClusterId) : (s.setInit m x).clu j = s.clu j := rfl
@[simp] theorem State.setByte_clu (s : State) (a : Nat) (b : Byte) (j : ClusterId) : (s.setByte a b).clu j = s.clu j := rfl
@[simp] theorem State.answer_clu (s : State) (a : Ans) (j : ClusterId) : (s.answer a).clu j = s.clu j := rfl
@[simp] theorem State.answerOnly_clu (s : State) (o : Outc) (j : ClusterId) : (s.answerOnly o).clu j = s.clu j := rfl
@[simp] theorem tallyAdd_clu (s : State) (a n : Nat) (j : ClusterId) : (tallyAdd s a n).clu j = s.clu j := rfl
@[simp] theorem State.setCore_slice (s : State) (g : CoreId) (x : Core) (j : ClusterId) : (s.setCore g x).slice j = s.slice j := rfl
@[simp] theorem State.setClu_slice (s : State) (gc : ClusterId) (x : Clu) (j : ClusterId) : (s.setClu gc x).slice j = s.slice j := rfl
@[simp] theorem State.setBud_slice (s : State) (r : RegionId) (x : Bud) (j : ClusterId) : (s.setBud r x).slice j = s.slice j := rfl
@[simp] theorem State.setEngine_slice (s : State) (e : EngId) (x : Engine) (j : ClusterId) : (s.setEngine e x).slice j = s.slice j := rfl
@[simp] theorem State.setNi_slice (s : State) (n : NodeId) (x : Ni) (j : ClusterId) : (s.setNi n x).slice j = s.slice j := rfl
@[simp] theorem State.setElem_slice (s : State) (e : Elem) (x : ElemState) (j : ClusterId) : (s.setElem e x).slice j = s.slice j := rfl
@[simp] theorem State.setRing_slice (s : State) (n : RingId) (x : Ring) (j : ClusterId) : (s.setRing n x).slice j = s.slice j := rfl
@[simp] theorem State.setHostFn_slice (s : State) (n : BitVec 6) (x : HostFn) (j : ClusterId) : (s.setHostFn n x).slice j = s.slice j := rfl
@[simp] theorem State.setStrm_slice (s : State) (n : StreamId) (x : Strm) (j : ClusterId) : (s.setStrm n x).slice j = s.slice j := rfl
@[simp] theorem State.setPort_slice (s : State) (n : PortId) (x : Port) (j : ClusterId) : (s.setPort n x).slice j = s.slice j := rfl
@[simp] theorem State.setTmr_slice (s : State) (n : TimerId) (x : Tmr) (j : ClusterId) : (s.setTmr n x).slice j = s.slice j := rfl
@[simp] theorem State.setMc_slice (s : State) (m : Nat) (x : Mc) (j : ClusterId) : (s.setMc m x).slice j = s.slice j := rfl
@[simp] theorem State.setSrc_slice (s : State) (n : SourceId) (x : FaultSrc) (j : ClusterId) : (s.setSrc n x).slice j = s.slice j := rfl
@[simp] theorem State.setRegion_slice (s : State) (r : RegionId) (x : RegionState) (j : ClusterId) : (s.setRegion r x).slice j = s.slice j := rfl
@[simp] theorem State.setInit_slice (s : State) (m : InitMem) (x : InitState) (j : ClusterId) : (s.setInit m x).slice j = s.slice j := rfl
@[simp] theorem State.setByte_slice (s : State) (a : Nat) (b : Byte) (j : ClusterId) : (s.setByte a b).slice j = s.slice j := rfl
@[simp] theorem State.answer_slice (s : State) (a : Ans) (j : ClusterId) : (s.answer a).slice j = s.slice j := rfl
@[simp] theorem State.answerOnly_slice (s : State) (o : Outc) (j : ClusterId) : (s.answerOnly o).slice j = s.slice j := rfl
@[simp] theorem tallyAdd_slice (s : State) (a n : Nat) (j : ClusterId) : (tallyAdd s a n).slice j = s.slice j := rfl
@[simp] theorem State.setCore_bud (s : State) (g : CoreId) (x : Core) (j : RegionId) : (s.setCore g x).bud j = s.bud j := rfl
@[simp] theorem State.setClu_bud (s : State) (gc : ClusterId) (x : Clu) (j : RegionId) : (s.setClu gc x).bud j = s.bud j := rfl
@[simp] theorem State.setSlice_bud (s : State) (gc : ClusterId) (x : Slice) (j : RegionId) : (s.setSlice gc x).bud j = s.bud j := rfl
@[simp] theorem State.setEngine_bud (s : State) (e : EngId) (x : Engine) (j : RegionId) : (s.setEngine e x).bud j = s.bud j := rfl
@[simp] theorem State.setNi_bud (s : State) (n : NodeId) (x : Ni) (j : RegionId) : (s.setNi n x).bud j = s.bud j := rfl
@[simp] theorem State.setElem_bud (s : State) (e : Elem) (x : ElemState) (j : RegionId) : (s.setElem e x).bud j = s.bud j := rfl
@[simp] theorem State.setRing_bud (s : State) (n : RingId) (x : Ring) (j : RegionId) : (s.setRing n x).bud j = s.bud j := rfl
@[simp] theorem State.setHostFn_bud (s : State) (n : BitVec 6) (x : HostFn) (j : RegionId) : (s.setHostFn n x).bud j = s.bud j := rfl
@[simp] theorem State.setStrm_bud (s : State) (n : StreamId) (x : Strm) (j : RegionId) : (s.setStrm n x).bud j = s.bud j := rfl
@[simp] theorem State.setPort_bud (s : State) (n : PortId) (x : Port) (j : RegionId) : (s.setPort n x).bud j = s.bud j := rfl
@[simp] theorem State.setTmr_bud (s : State) (n : TimerId) (x : Tmr) (j : RegionId) : (s.setTmr n x).bud j = s.bud j := rfl
@[simp] theorem State.setMc_bud (s : State) (m : Nat) (x : Mc) (j : RegionId) : (s.setMc m x).bud j = s.bud j := rfl
@[simp] theorem State.setSrc_bud (s : State) (n : SourceId) (x : FaultSrc) (j : RegionId) : (s.setSrc n x).bud j = s.bud j := rfl
@[simp] theorem State.setRegion_bud (s : State) (r : RegionId) (x : RegionState) (j : RegionId) : (s.setRegion r x).bud j = s.bud j := rfl
@[simp] theorem State.setInit_bud (s : State) (m : InitMem) (x : InitState) (j : RegionId) : (s.setInit m x).bud j = s.bud j := rfl
@[simp] theorem State.setByte_bud (s : State) (a : Nat) (b : Byte) (j : RegionId) : (s.setByte a b).bud j = s.bud j := rfl
@[simp] theorem State.answer_bud (s : State) (a : Ans) (j : RegionId) : (s.answer a).bud j = s.bud j := rfl
@[simp] theorem State.answerOnly_bud (s : State) (o : Outc) (j : RegionId) : (s.answerOnly o).bud j = s.bud j := rfl
@[simp] theorem tallyAdd_bud (s : State) (a n : Nat) (j : RegionId) : (tallyAdd s a n).bud j = s.bud j := rfl
@[simp] theorem State.setCore_engine (s : State) (g : CoreId) (x : Core) (j : EngId) : (s.setCore g x).engine j = s.engine j := rfl
@[simp] theorem State.setClu_engine (s : State) (gc : ClusterId) (x : Clu) (j : EngId) : (s.setClu gc x).engine j = s.engine j := rfl
@[simp] theorem State.setSlice_engine (s : State) (gc : ClusterId) (x : Slice) (j : EngId) : (s.setSlice gc x).engine j = s.engine j := rfl
@[simp] theorem State.setBud_engine (s : State) (r : RegionId) (x : Bud) (j : EngId) : (s.setBud r x).engine j = s.engine j := rfl
@[simp] theorem State.setNi_engine (s : State) (n : NodeId) (x : Ni) (j : EngId) : (s.setNi n x).engine j = s.engine j := rfl
@[simp] theorem State.setElem_engine (s : State) (e : Elem) (x : ElemState) (j : EngId) : (s.setElem e x).engine j = s.engine j := rfl
@[simp] theorem State.setRing_engine (s : State) (n : RingId) (x : Ring) (j : EngId) : (s.setRing n x).engine j = s.engine j := rfl
@[simp] theorem State.setHostFn_engine (s : State) (n : BitVec 6) (x : HostFn) (j : EngId) : (s.setHostFn n x).engine j = s.engine j := rfl
@[simp] theorem State.setStrm_engine (s : State) (n : StreamId) (x : Strm) (j : EngId) : (s.setStrm n x).engine j = s.engine j := rfl
@[simp] theorem State.setPort_engine (s : State) (n : PortId) (x : Port) (j : EngId) : (s.setPort n x).engine j = s.engine j := rfl
@[simp] theorem State.setTmr_engine (s : State) (n : TimerId) (x : Tmr) (j : EngId) : (s.setTmr n x).engine j = s.engine j := rfl
@[simp] theorem State.setMc_engine (s : State) (m : Nat) (x : Mc) (j : EngId) : (s.setMc m x).engine j = s.engine j := rfl
@[simp] theorem State.setSrc_engine (s : State) (n : SourceId) (x : FaultSrc) (j : EngId) : (s.setSrc n x).engine j = s.engine j := rfl
@[simp] theorem State.setRegion_engine (s : State) (r : RegionId) (x : RegionState) (j : EngId) : (s.setRegion r x).engine j = s.engine j := rfl
@[simp] theorem State.setInit_engine (s : State) (m : InitMem) (x : InitState) (j : EngId) : (s.setInit m x).engine j = s.engine j := rfl
@[simp] theorem State.setByte_engine (s : State) (a : Nat) (b : Byte) (j : EngId) : (s.setByte a b).engine j = s.engine j := rfl
@[simp] theorem State.answer_engine (s : State) (a : Ans) (j : EngId) : (s.answer a).engine j = s.engine j := rfl
@[simp] theorem State.answerOnly_engine (s : State) (o : Outc) (j : EngId) : (s.answerOnly o).engine j = s.engine j := rfl
@[simp] theorem tallyAdd_engine (s : State) (a n : Nat) (j : EngId) : (tallyAdd s a n).engine j = s.engine j := rfl
@[simp] theorem State.setCore_ni (s : State) (g : CoreId) (x : Core) (j : NodeId) : (s.setCore g x).ni j = s.ni j := rfl
@[simp] theorem State.setClu_ni (s : State) (gc : ClusterId) (x : Clu) (j : NodeId) : (s.setClu gc x).ni j = s.ni j := rfl
@[simp] theorem State.setSlice_ni (s : State) (gc : ClusterId) (x : Slice) (j : NodeId) : (s.setSlice gc x).ni j = s.ni j := rfl
@[simp] theorem State.setBud_ni (s : State) (r : RegionId) (x : Bud) (j : NodeId) : (s.setBud r x).ni j = s.ni j := rfl
@[simp] theorem State.setEngine_ni (s : State) (e : EngId) (x : Engine) (j : NodeId) : (s.setEngine e x).ni j = s.ni j := rfl
@[simp] theorem State.setElem_ni (s : State) (e : Elem) (x : ElemState) (j : NodeId) : (s.setElem e x).ni j = s.ni j := rfl
@[simp] theorem State.setRing_ni (s : State) (n : RingId) (x : Ring) (j : NodeId) : (s.setRing n x).ni j = s.ni j := rfl
@[simp] theorem State.setHostFn_ni (s : State) (n : BitVec 6) (x : HostFn) (j : NodeId) : (s.setHostFn n x).ni j = s.ni j := rfl
@[simp] theorem State.setStrm_ni (s : State) (n : StreamId) (x : Strm) (j : NodeId) : (s.setStrm n x).ni j = s.ni j := rfl
@[simp] theorem State.setPort_ni (s : State) (n : PortId) (x : Port) (j : NodeId) : (s.setPort n x).ni j = s.ni j := rfl
@[simp] theorem State.setTmr_ni (s : State) (n : TimerId) (x : Tmr) (j : NodeId) : (s.setTmr n x).ni j = s.ni j := rfl
@[simp] theorem State.setMc_ni (s : State) (m : Nat) (x : Mc) (j : NodeId) : (s.setMc m x).ni j = s.ni j := rfl
@[simp] theorem State.setSrc_ni (s : State) (n : SourceId) (x : FaultSrc) (j : NodeId) : (s.setSrc n x).ni j = s.ni j := rfl
@[simp] theorem State.setRegion_ni (s : State) (r : RegionId) (x : RegionState) (j : NodeId) : (s.setRegion r x).ni j = s.ni j := rfl
@[simp] theorem State.setInit_ni (s : State) (m : InitMem) (x : InitState) (j : NodeId) : (s.setInit m x).ni j = s.ni j := rfl
@[simp] theorem State.setByte_ni (s : State) (a : Nat) (b : Byte) (j : NodeId) : (s.setByte a b).ni j = s.ni j := rfl
@[simp] theorem State.answer_ni (s : State) (a : Ans) (j : NodeId) : (s.answer a).ni j = s.ni j := rfl
@[simp] theorem State.answerOnly_ni (s : State) (o : Outc) (j : NodeId) : (s.answerOnly o).ni j = s.ni j := rfl
@[simp] theorem tallyAdd_ni (s : State) (a n : Nat) (j : NodeId) : (tallyAdd s a n).ni j = s.ni j := rfl
@[simp] theorem State.setCore_ring (s : State) (g : CoreId) (x : Core) (j : RingId) : (s.setCore g x).ring j = s.ring j := rfl
@[simp] theorem State.setClu_ring (s : State) (gc : ClusterId) (x : Clu) (j : RingId) : (s.setClu gc x).ring j = s.ring j := rfl
@[simp] theorem State.setSlice_ring (s : State) (gc : ClusterId) (x : Slice) (j : RingId) : (s.setSlice gc x).ring j = s.ring j := rfl
@[simp] theorem State.setBud_ring (s : State) (r : RegionId) (x : Bud) (j : RingId) : (s.setBud r x).ring j = s.ring j := rfl
@[simp] theorem State.setEngine_ring (s : State) (e : EngId) (x : Engine) (j : RingId) : (s.setEngine e x).ring j = s.ring j := rfl
@[simp] theorem State.setNi_ring (s : State) (n : NodeId) (x : Ni) (j : RingId) : (s.setNi n x).ring j = s.ring j := rfl
@[simp] theorem State.setElem_ring (s : State) (e : Elem) (x : ElemState) (j : RingId) : (s.setElem e x).ring j = s.ring j := rfl
@[simp] theorem State.setHostFn_ring (s : State) (n : BitVec 6) (x : HostFn) (j : RingId) : (s.setHostFn n x).ring j = s.ring j := rfl
@[simp] theorem State.setStrm_ring (s : State) (n : StreamId) (x : Strm) (j : RingId) : (s.setStrm n x).ring j = s.ring j := rfl
@[simp] theorem State.setPort_ring (s : State) (n : PortId) (x : Port) (j : RingId) : (s.setPort n x).ring j = s.ring j := rfl
@[simp] theorem State.setTmr_ring (s : State) (n : TimerId) (x : Tmr) (j : RingId) : (s.setTmr n x).ring j = s.ring j := rfl
@[simp] theorem State.setMc_ring (s : State) (m : Nat) (x : Mc) (j : RingId) : (s.setMc m x).ring j = s.ring j := rfl
@[simp] theorem State.setSrc_ring (s : State) (n : SourceId) (x : FaultSrc) (j : RingId) : (s.setSrc n x).ring j = s.ring j := rfl
@[simp] theorem State.setRegion_ring (s : State) (r : RegionId) (x : RegionState) (j : RingId) : (s.setRegion r x).ring j = s.ring j := rfl
@[simp] theorem State.setInit_ring (s : State) (m : InitMem) (x : InitState) (j : RingId) : (s.setInit m x).ring j = s.ring j := rfl
@[simp] theorem State.setByte_ring (s : State) (a : Nat) (b : Byte) (j : RingId) : (s.setByte a b).ring j = s.ring j := rfl
@[simp] theorem State.answer_ring (s : State) (a : Ans) (j : RingId) : (s.answer a).ring j = s.ring j := rfl
@[simp] theorem State.answerOnly_ring (s : State) (o : Outc) (j : RingId) : (s.answerOnly o).ring j = s.ring j := rfl
@[simp] theorem tallyAdd_ring (s : State) (a n : Nat) (j : RingId) : (tallyAdd s a n).ring j = s.ring j := rfl
@[simp] theorem State.setCore_hostFn (s : State) (g : CoreId) (x : Core) (j : BitVec 6) : (s.setCore g x).hostFn j = s.hostFn j := rfl
@[simp] theorem State.setClu_hostFn (s : State) (gc : ClusterId) (x : Clu) (j : BitVec 6) : (s.setClu gc x).hostFn j = s.hostFn j := rfl
@[simp] theorem State.setSlice_hostFn (s : State) (gc : ClusterId) (x : Slice) (j : BitVec 6) : (s.setSlice gc x).hostFn j = s.hostFn j := rfl
@[simp] theorem State.setBud_hostFn (s : State) (r : RegionId) (x : Bud) (j : BitVec 6) : (s.setBud r x).hostFn j = s.hostFn j := rfl
@[simp] theorem State.setEngine_hostFn (s : State) (e : EngId) (x : Engine) (j : BitVec 6) : (s.setEngine e x).hostFn j = s.hostFn j := rfl
@[simp] theorem State.setNi_hostFn (s : State) (n : NodeId) (x : Ni) (j : BitVec 6) : (s.setNi n x).hostFn j = s.hostFn j := rfl
@[simp] theorem State.setElem_hostFn (s : State) (e : Elem) (x : ElemState) (j : BitVec 6) : (s.setElem e x).hostFn j = s.hostFn j := rfl
@[simp] theorem State.setRing_hostFn (s : State) (n : RingId) (x : Ring) (j : BitVec 6) : (s.setRing n x).hostFn j = s.hostFn j := rfl
@[simp] theorem State.setStrm_hostFn (s : State) (n : StreamId) (x : Strm) (j : BitVec 6) : (s.setStrm n x).hostFn j = s.hostFn j := rfl
@[simp] theorem State.setPort_hostFn (s : State) (n : PortId) (x : Port) (j : BitVec 6) : (s.setPort n x).hostFn j = s.hostFn j := rfl
@[simp] theorem State.setTmr_hostFn (s : State) (n : TimerId) (x : Tmr) (j : BitVec 6) : (s.setTmr n x).hostFn j = s.hostFn j := rfl
@[simp] theorem State.setMc_hostFn (s : State) (m : Nat) (x : Mc) (j : BitVec 6) : (s.setMc m x).hostFn j = s.hostFn j := rfl
@[simp] theorem State.setSrc_hostFn (s : State) (n : SourceId) (x : FaultSrc) (j : BitVec 6) : (s.setSrc n x).hostFn j = s.hostFn j := rfl
@[simp] theorem State.setRegion_hostFn (s : State) (r : RegionId) (x : RegionState) (j : BitVec 6) : (s.setRegion r x).hostFn j = s.hostFn j := rfl
@[simp] theorem State.setInit_hostFn (s : State) (m : InitMem) (x : InitState) (j : BitVec 6) : (s.setInit m x).hostFn j = s.hostFn j := rfl
@[simp] theorem State.setByte_hostFn (s : State) (a : Nat) (b : Byte) (j : BitVec 6) : (s.setByte a b).hostFn j = s.hostFn j := rfl
@[simp] theorem State.answer_hostFn (s : State) (a : Ans) (j : BitVec 6) : (s.answer a).hostFn j = s.hostFn j := rfl
@[simp] theorem State.answerOnly_hostFn (s : State) (o : Outc) (j : BitVec 6) : (s.answerOnly o).hostFn j = s.hostFn j := rfl
@[simp] theorem tallyAdd_hostFn (s : State) (a n : Nat) (j : BitVec 6) : (tallyAdd s a n).hostFn j = s.hostFn j := rfl
@[simp] theorem State.setCore_strm (s : State) (g : CoreId) (x : Core) (j : StreamId) : (s.setCore g x).strm j = s.strm j := rfl
@[simp] theorem State.setClu_strm (s : State) (gc : ClusterId) (x : Clu) (j : StreamId) : (s.setClu gc x).strm j = s.strm j := rfl
@[simp] theorem State.setSlice_strm (s : State) (gc : ClusterId) (x : Slice) (j : StreamId) : (s.setSlice gc x).strm j = s.strm j := rfl
@[simp] theorem State.setBud_strm (s : State) (r : RegionId) (x : Bud) (j : StreamId) : (s.setBud r x).strm j = s.strm j := rfl
@[simp] theorem State.setEngine_strm (s : State) (e : EngId) (x : Engine) (j : StreamId) : (s.setEngine e x).strm j = s.strm j := rfl
@[simp] theorem State.setNi_strm (s : State) (n : NodeId) (x : Ni) (j : StreamId) : (s.setNi n x).strm j = s.strm j := rfl
@[simp] theorem State.setElem_strm (s : State) (e : Elem) (x : ElemState) (j : StreamId) : (s.setElem e x).strm j = s.strm j := rfl
@[simp] theorem State.setRing_strm (s : State) (n : RingId) (x : Ring) (j : StreamId) : (s.setRing n x).strm j = s.strm j := rfl
@[simp] theorem State.setHostFn_strm (s : State) (n : BitVec 6) (x : HostFn) (j : StreamId) : (s.setHostFn n x).strm j = s.strm j := rfl
@[simp] theorem State.setPort_strm (s : State) (n : PortId) (x : Port) (j : StreamId) : (s.setPort n x).strm j = s.strm j := rfl
@[simp] theorem State.setTmr_strm (s : State) (n : TimerId) (x : Tmr) (j : StreamId) : (s.setTmr n x).strm j = s.strm j := rfl
@[simp] theorem State.setMc_strm (s : State) (m : Nat) (x : Mc) (j : StreamId) : (s.setMc m x).strm j = s.strm j := rfl
@[simp] theorem State.setSrc_strm (s : State) (n : SourceId) (x : FaultSrc) (j : StreamId) : (s.setSrc n x).strm j = s.strm j := rfl
@[simp] theorem State.setRegion_strm (s : State) (r : RegionId) (x : RegionState) (j : StreamId) : (s.setRegion r x).strm j = s.strm j := rfl
@[simp] theorem State.setInit_strm (s : State) (m : InitMem) (x : InitState) (j : StreamId) : (s.setInit m x).strm j = s.strm j := rfl
@[simp] theorem State.setByte_strm (s : State) (a : Nat) (b : Byte) (j : StreamId) : (s.setByte a b).strm j = s.strm j := rfl
@[simp] theorem State.answer_strm (s : State) (a : Ans) (j : StreamId) : (s.answer a).strm j = s.strm j := rfl
@[simp] theorem State.answerOnly_strm (s : State) (o : Outc) (j : StreamId) : (s.answerOnly o).strm j = s.strm j := rfl
@[simp] theorem tallyAdd_strm (s : State) (a n : Nat) (j : StreamId) : (tallyAdd s a n).strm j = s.strm j := rfl
@[simp] theorem State.setCore_port (s : State) (g : CoreId) (x : Core) (j : PortId) : (s.setCore g x).port j = s.port j := rfl
@[simp] theorem State.setClu_port (s : State) (gc : ClusterId) (x : Clu) (j : PortId) : (s.setClu gc x).port j = s.port j := rfl
@[simp] theorem State.setSlice_port (s : State) (gc : ClusterId) (x : Slice) (j : PortId) : (s.setSlice gc x).port j = s.port j := rfl
@[simp] theorem State.setBud_port (s : State) (r : RegionId) (x : Bud) (j : PortId) : (s.setBud r x).port j = s.port j := rfl
@[simp] theorem State.setEngine_port (s : State) (e : EngId) (x : Engine) (j : PortId) : (s.setEngine e x).port j = s.port j := rfl
@[simp] theorem State.setNi_port (s : State) (n : NodeId) (x : Ni) (j : PortId) : (s.setNi n x).port j = s.port j := rfl
@[simp] theorem State.setElem_port (s : State) (e : Elem) (x : ElemState) (j : PortId) : (s.setElem e x).port j = s.port j := rfl
@[simp] theorem State.setRing_port (s : State) (n : RingId) (x : Ring) (j : PortId) : (s.setRing n x).port j = s.port j := rfl
@[simp] theorem State.setHostFn_port (s : State) (n : BitVec 6) (x : HostFn) (j : PortId) : (s.setHostFn n x).port j = s.port j := rfl
@[simp] theorem State.setStrm_port (s : State) (n : StreamId) (x : Strm) (j : PortId) : (s.setStrm n x).port j = s.port j := rfl
@[simp] theorem State.setTmr_port (s : State) (n : TimerId) (x : Tmr) (j : PortId) : (s.setTmr n x).port j = s.port j := rfl
@[simp] theorem State.setMc_port (s : State) (m : Nat) (x : Mc) (j : PortId) : (s.setMc m x).port j = s.port j := rfl
@[simp] theorem State.setSrc_port (s : State) (n : SourceId) (x : FaultSrc) (j : PortId) : (s.setSrc n x).port j = s.port j := rfl
@[simp] theorem State.setRegion_port (s : State) (r : RegionId) (x : RegionState) (j : PortId) : (s.setRegion r x).port j = s.port j := rfl
@[simp] theorem State.setInit_port (s : State) (m : InitMem) (x : InitState) (j : PortId) : (s.setInit m x).port j = s.port j := rfl
@[simp] theorem State.setByte_port (s : State) (a : Nat) (b : Byte) (j : PortId) : (s.setByte a b).port j = s.port j := rfl
@[simp] theorem State.answer_port (s : State) (a : Ans) (j : PortId) : (s.answer a).port j = s.port j := rfl
@[simp] theorem State.answerOnly_port (s : State) (o : Outc) (j : PortId) : (s.answerOnly o).port j = s.port j := rfl
@[simp] theorem tallyAdd_port (s : State) (a n : Nat) (j : PortId) : (tallyAdd s a n).port j = s.port j := rfl
@[simp] theorem State.setCore_tmr (s : State) (g : CoreId) (x : Core) (j : TimerId) : (s.setCore g x).tmr j = s.tmr j := rfl
@[simp] theorem State.setClu_tmr (s : State) (gc : ClusterId) (x : Clu) (j : TimerId) : (s.setClu gc x).tmr j = s.tmr j := rfl
@[simp] theorem State.setSlice_tmr (s : State) (gc : ClusterId) (x : Slice) (j : TimerId) : (s.setSlice gc x).tmr j = s.tmr j := rfl
@[simp] theorem State.setBud_tmr (s : State) (r : RegionId) (x : Bud) (j : TimerId) : (s.setBud r x).tmr j = s.tmr j := rfl
@[simp] theorem State.setEngine_tmr (s : State) (e : EngId) (x : Engine) (j : TimerId) : (s.setEngine e x).tmr j = s.tmr j := rfl
@[simp] theorem State.setNi_tmr (s : State) (n : NodeId) (x : Ni) (j : TimerId) : (s.setNi n x).tmr j = s.tmr j := rfl
@[simp] theorem State.setElem_tmr (s : State) (e : Elem) (x : ElemState) (j : TimerId) : (s.setElem e x).tmr j = s.tmr j := rfl
@[simp] theorem State.setRing_tmr (s : State) (n : RingId) (x : Ring) (j : TimerId) : (s.setRing n x).tmr j = s.tmr j := rfl
@[simp] theorem State.setHostFn_tmr (s : State) (n : BitVec 6) (x : HostFn) (j : TimerId) : (s.setHostFn n x).tmr j = s.tmr j := rfl
@[simp] theorem State.setStrm_tmr (s : State) (n : StreamId) (x : Strm) (j : TimerId) : (s.setStrm n x).tmr j = s.tmr j := rfl
@[simp] theorem State.setPort_tmr (s : State) (n : PortId) (x : Port) (j : TimerId) : (s.setPort n x).tmr j = s.tmr j := rfl
@[simp] theorem State.setMc_tmr (s : State) (m : Nat) (x : Mc) (j : TimerId) : (s.setMc m x).tmr j = s.tmr j := rfl
@[simp] theorem State.setSrc_tmr (s : State) (n : SourceId) (x : FaultSrc) (j : TimerId) : (s.setSrc n x).tmr j = s.tmr j := rfl
@[simp] theorem State.setRegion_tmr (s : State) (r : RegionId) (x : RegionState) (j : TimerId) : (s.setRegion r x).tmr j = s.tmr j := rfl
@[simp] theorem State.setInit_tmr (s : State) (m : InitMem) (x : InitState) (j : TimerId) : (s.setInit m x).tmr j = s.tmr j := rfl
@[simp] theorem State.setByte_tmr (s : State) (a : Nat) (b : Byte) (j : TimerId) : (s.setByte a b).tmr j = s.tmr j := rfl
@[simp] theorem State.answer_tmr (s : State) (a : Ans) (j : TimerId) : (s.answer a).tmr j = s.tmr j := rfl
@[simp] theorem State.answerOnly_tmr (s : State) (o : Outc) (j : TimerId) : (s.answerOnly o).tmr j = s.tmr j := rfl
@[simp] theorem tallyAdd_tmr (s : State) (a n : Nat) (j : TimerId) : (tallyAdd s a n).tmr j = s.tmr j := rfl
@[simp] theorem State.setCore_src (s : State) (g : CoreId) (x : Core) (j : SourceId) : (s.setCore g x).src j = s.src j := rfl
@[simp] theorem State.setClu_src (s : State) (gc : ClusterId) (x : Clu) (j : SourceId) : (s.setClu gc x).src j = s.src j := rfl
@[simp] theorem State.setSlice_src (s : State) (gc : ClusterId) (x : Slice) (j : SourceId) : (s.setSlice gc x).src j = s.src j := rfl
@[simp] theorem State.setBud_src (s : State) (r : RegionId) (x : Bud) (j : SourceId) : (s.setBud r x).src j = s.src j := rfl
@[simp] theorem State.setEngine_src (s : State) (e : EngId) (x : Engine) (j : SourceId) : (s.setEngine e x).src j = s.src j := rfl
@[simp] theorem State.setNi_src (s : State) (n : NodeId) (x : Ni) (j : SourceId) : (s.setNi n x).src j = s.src j := rfl
@[simp] theorem State.setElem_src (s : State) (e : Elem) (x : ElemState) (j : SourceId) : (s.setElem e x).src j = s.src j := rfl
@[simp] theorem State.setRing_src (s : State) (n : RingId) (x : Ring) (j : SourceId) : (s.setRing n x).src j = s.src j := rfl
@[simp] theorem State.setHostFn_src (s : State) (n : BitVec 6) (x : HostFn) (j : SourceId) : (s.setHostFn n x).src j = s.src j := rfl
@[simp] theorem State.setStrm_src (s : State) (n : StreamId) (x : Strm) (j : SourceId) : (s.setStrm n x).src j = s.src j := rfl
@[simp] theorem State.setPort_src (s : State) (n : PortId) (x : Port) (j : SourceId) : (s.setPort n x).src j = s.src j := rfl
@[simp] theorem State.setTmr_src (s : State) (n : TimerId) (x : Tmr) (j : SourceId) : (s.setTmr n x).src j = s.src j := rfl
@[simp] theorem State.setMc_src (s : State) (m : Nat) (x : Mc) (j : SourceId) : (s.setMc m x).src j = s.src j := rfl
@[simp] theorem State.setRegion_src (s : State) (r : RegionId) (x : RegionState) (j : SourceId) : (s.setRegion r x).src j = s.src j := rfl
@[simp] theorem State.setInit_src (s : State) (m : InitMem) (x : InitState) (j : SourceId) : (s.setInit m x).src j = s.src j := rfl
@[simp] theorem State.setByte_src (s : State) (a : Nat) (b : Byte) (j : SourceId) : (s.setByte a b).src j = s.src j := rfl
@[simp] theorem State.answer_src (s : State) (a : Ans) (j : SourceId) : (s.answer a).src j = s.src j := rfl
@[simp] theorem State.answerOnly_src (s : State) (o : Outc) (j : SourceId) : (s.answerOnly o).src j = s.src j := rfl
@[simp] theorem tallyAdd_src (s : State) (a n : Nat) (j : SourceId) : (tallyAdd s a n).src j = s.src j := rfl
@[simp] theorem State.setCore_region (s : State) (g : CoreId) (x : Core) (j : RegionId) : (s.setCore g x).region j = s.region j := rfl
@[simp] theorem State.setClu_region (s : State) (gc : ClusterId) (x : Clu) (j : RegionId) : (s.setClu gc x).region j = s.region j := rfl
@[simp] theorem State.setSlice_region (s : State) (gc : ClusterId) (x : Slice) (j : RegionId) : (s.setSlice gc x).region j = s.region j := rfl
@[simp] theorem State.setBud_region (s : State) (r : RegionId) (x : Bud) (j : RegionId) : (s.setBud r x).region j = s.region j := rfl
@[simp] theorem State.setEngine_region (s : State) (e : EngId) (x : Engine) (j : RegionId) : (s.setEngine e x).region j = s.region j := rfl
@[simp] theorem State.setNi_region (s : State) (n : NodeId) (x : Ni) (j : RegionId) : (s.setNi n x).region j = s.region j := rfl
@[simp] theorem State.setElem_region (s : State) (e : Elem) (x : ElemState) (j : RegionId) : (s.setElem e x).region j = s.region j := rfl
@[simp] theorem State.setRing_region (s : State) (n : RingId) (x : Ring) (j : RegionId) : (s.setRing n x).region j = s.region j := rfl
@[simp] theorem State.setHostFn_region (s : State) (n : BitVec 6) (x : HostFn) (j : RegionId) : (s.setHostFn n x).region j = s.region j := rfl
@[simp] theorem State.setStrm_region (s : State) (n : StreamId) (x : Strm) (j : RegionId) : (s.setStrm n x).region j = s.region j := rfl
@[simp] theorem State.setPort_region (s : State) (n : PortId) (x : Port) (j : RegionId) : (s.setPort n x).region j = s.region j := rfl
@[simp] theorem State.setTmr_region (s : State) (n : TimerId) (x : Tmr) (j : RegionId) : (s.setTmr n x).region j = s.region j := rfl
@[simp] theorem State.setMc_region (s : State) (m : Nat) (x : Mc) (j : RegionId) : (s.setMc m x).region j = s.region j := rfl
@[simp] theorem State.setSrc_region (s : State) (n : SourceId) (x : FaultSrc) (j : RegionId) : (s.setSrc n x).region j = s.region j := rfl
@[simp] theorem State.setInit_region (s : State) (m : InitMem) (x : InitState) (j : RegionId) : (s.setInit m x).region j = s.region j := rfl
@[simp] theorem State.setByte_region (s : State) (a : Nat) (b : Byte) (j : RegionId) : (s.setByte a b).region j = s.region j := rfl
@[simp] theorem State.answer_region (s : State) (a : Ans) (j : RegionId) : (s.answer a).region j = s.region j := rfl
@[simp] theorem State.answerOnly_region (s : State) (o : Outc) (j : RegionId) : (s.answerOnly o).region j = s.region j := rfl
@[simp] theorem tallyAdd_region (s : State) (a n : Nat) (j : RegionId) : (tallyAdd s a n).region j = s.region j := rfl

end Sys2Proof.Machine
end

