-- ==== Sys2Proof/Laws/Commit.lean ====
section
/-! SUPPORT. One bundle that executes without a wait or a trap: the state it leaves (R53, R54, R79), under `executes` of Safety.lean. -/

namespace Sys2Proof.Machine

variable {s t : State} {g : CoreId} {b : Bundle}

/-! ### Parity reads where no word holds an error -/

theorem check_quiet (h : s.asy.inj = []) (n : SourceId) (d : Word) : check s n false d = s := by
  simp [check, h]

theorem parityWord_clean (u : ParityUse) (hp : s.par = []) (hi : s.asy.inj = []) (a : Nat) : parityWord u s a = (false, s) := by
  have h0 : ({ s with par := sput .none s.par a .none } : State) = s := by
    cases s
    subst hp
    rfl
  unfold parityWord
  simp only [hp, sget, get, replay] at h0 ⊢
  simp only [h0, Bool.false_and, Bool.or_false, if_true, Bool.false_eq_true, if_false, decide_false, ne_eq, not_true_eq_false, check_quiet hi, ite_self]

theorem parityWords_clean (u : ParityUse) (hp : s.par = []) (hi : s.asy.inj = []) (l : List Nat) :
    parityWords u s l = (l.map (fun _ => false), s) := by
  induction l with
  | nil => rfl
  | cons a l ih => simp [parityWords, parityWord_clean u hp hi, ih]

theorem parityRead_clean (u : ParityUse) (hp : s.par = []) (hi : s.asy.inj = []) (a n : Nat) :
    parityRead u s a n = ({ outc := .ok, flags := 0, data := s.bytes a n, poison := (words16 a n).map (fun _ => false) }, s) := by
  simp [parityRead, parityWords_clean u hp hi]

theorem clearPar_clean (hp : s.par = []) (a : Nat) : clearPar s a = s := by
  cases s
  subst hp
  rfl

theorem clearPars_clean (hp : s.par = []) (l : List Nat) : l.foldl clearPar s = s := by
  induction l with
  | nil => rfl
  | cons a l ih => simp [clearPar_clean hp, ih]

theorem parityWrite_clean (hp : s.par = []) (a : Nat) (d : List Byte) : parityWrite s a d = s.setBytes a d := by
  simp [parityWrite, clearPars_clean hp]

/-! ### What depends on the control registers only -/

theorem blkAt_congr (hc : (t.core g).c = (s.core g).c) (hu : t.clus = s.clus) (blk : Word) : blkAt t g blk = blkAt s g blk := by
  unfold blkAt State.clu
  simp only [hc, hu]

theorem ownAddr_congr (hc : (t.core g).c = (s.core g).c) (hu : t.clus = s.clus) (a : Word) : ownAddr t g a = ownAddr s g a := by
  unfold ownAddr
  rw [blkAt_congr hc hu]

theorem ownBlock_congr (hc : (t.core g).c = (s.core g).c) (hu : t.clus = s.clus) (hi : t.inits = s.inits) (a : Word) :
    ownBlock t g a = ownBlock s g a := by
  unfold ownBlock State.ready State.initOf
  rw [blkAt_congr hc hu, hi]

/-! ### Reads of own memories -/

/-- The bytes that pieces in own memories bring. -/
def pieceBytes (s : State) (g : CoreId) (ps : List ReadPiece) : List (Nat × Byte) :=
  ps.flatMap (fun p => p.offs.map (fun o => (p.blk.toNat + o, s.byte ((match blkAt s g p.blk with | .own _ pa => pa | _ => 0) + o))))

/-- What reads in own memories bring. -/
def gotOwn (s : State) (g : CoreId) (ps : List ReadPiece) : Got := { bytes := pieceBytes s g ps, bad := none, outc := none, flags := 0 }

theorem readOwn_clean (u : ParityUse) (hp : s.par = []) (hi : s.asy.inj = []) (pa : Nat) (p : ReadPiece) :
    readOwn u s pa p = ({ bytes := p.offs.map (fun o => (p.blk.toNat + o, s.byte (pa + o))), bad := none, outc := none, flags := 0 }, s) := by
  have hz : ∀ l : List Nat, (l.zip (l.map (fun _ => false))).find? (fun x => x.2) = none := by
    intro l
    induction l with
    | nil => rfl
    | cons a l ih => simpa using ih
  simp only [readOwn, parityWords_clean u hp hi, hz, Option.map_none]

theorem readPiece_own (hp : s.par = []) (hi : s.asy.inj = []) (h : Held) (slot i : Nat) (p : ReadPiece) (ho : ownBlock s g p.blk = true) :
    readPiece s g h slot i p = (gotOwn s g [p], s) := by
  unfold readPiece gotOwn pieceBytes
  unfold ownBlock at ho
  cases hk : blkAt s g p.blk with
  | own m pa => simp [readOwn_clean _ hp hi, hk]
  | fab pa => simp [hk] at ho
  | bad o w => simp [hk] at ho

theorem gotOwn_join (l m : List ReadPiece) : (gotOwn s g l).join (gotOwn s g m) = gotOwn s g (l ++ m) := by
  simp [gotOwn, Got.join, pieceBytes, worstOf]

theorem readSlot_own (hp : s.par = []) (hi : s.asy.inj = []) (h : Held) (slot : Nat)
    (ho : ∀ p ∈ opReads (s.core g) (slotOp h.bundle slot), ownBlock s g p.blk = true) :
    readSlot s g h slot = (gotOwn s g (opReads (s.core g) (slotOp h.bundle slot)), s) := by
  unfold readSlot
  generalize opReads (s.core g) (slotOp h.bundle slot) = l at ho ⊢
  have key : ∀ (l : List ReadPiece) (k : Nat) (m : List ReadPiece), (∀ p ∈ l, ownBlock s g p.blk = true) →
      (l.zipIdx k).foldl (fun (x : Got × State) p =>
        let (r, t) := readPiece x.2 g h slot p.2 p.1
        (x.1.join r, t)) (gotOwn s g m, s) = (gotOwn s g (m ++ l), s) := by
    intro l
    induction l with
    | nil => intro k m _; simp
    | cons p l ih =>
      intro k m hl
      simp only [List.zipIdx_cons, List.foldl_cons, readPiece_own hp hi h slot k p (hl p (by simp)), gotOwn_join]
      rw [ih (k + 1) (m ++ [p]) (fun q hq => hl q (by simp [hq]))]
      simp
  have := key l 0 [] ho
  simpa [gotOwn, pieceBytes, Got.nothing] using this

theorem core_setCore (s : State) (g : CoreId) (c : Core) : (s.setCore g c).core g = c := by
  simp [State.core, State.setCore]

theorem core_setCore_other (s : State) (g g' : CoreId) (c : Core) (h : g' ≠ g) : (s.setCore g c).core g' = s.core g' := by
  have : g'.toNat ≠ g.toNat := fun e => h (BitVec.eq_of_toNat_eq e)
  simp [State.core, State.setCore, this]

/-! ### From the fetch to the commit -/

/-- The state in which the bundle has issued and is held. -/
def heldState (s : State) (g : CoreId) (b : Bundle) : State :=
  s.setCore g { s.core g with held := some { newHeld s b with kind := .busy } }

theorem heldState_c : ((heldState s g b).core g).c = (s.core g).c := by simp [heldState]
theorem heldState_blkAt (blk : Word) : blkAt (heldState s g b) g blk = blkAt s g blk := blkAt_congr heldState_c rfl blk
theorem heldState_reads (o : Op) : opReads ((heldState s g b).core g) o = opReads (s.core g) o := by
  rw [heldState, State.setCore_core, if_pos rfl]
  rfl
theorem heldState_stores (o : Op) : opStores ((heldState s g b).core g) o = opStores (s.core g) o := by
  rw [heldState, State.setCore_core, if_pos rfl]
  rfl
theorem heldState_blocks (o : Op) : opBlocks ((heldState s g b).core g) o = opBlocks (s.core g) o := by
  rw [heldState, State.setCore_core, if_pos rfl]
  rfl
theorem heldState_core : (heldState s g b).core g = { s.core g with held := some { newHeld s b with kind := .busy } } := by
  simp [heldState]
theorem blocks_held (c : Core) (x : Option Held) (o : Op) : opBlocks { c with held := x } o = opBlocks c o := rfl
theorem cpAddr_held (c : Core) (x : Option Held) (sl : Bool) (op : Nat) (f : CpFields) :
    cpAddr { c with held := x } sl op f = cpAddr c sl op f := rfl
theorem heldState_blkFault : blkFault (heldState s g b) g = blkFault s g := by
  funext o blk
  unfold blkFault
  rw [heldState_blkAt]
theorem heldState_fault (o : Op) : staticFault (heldState s g b) g o = staticFault s g o := by
  unfold staticFault
  rw [heldState_core, heldState_blkFault]
  cases o <;> dsimp only [blocks_held, cpAddr_held]

/-- `executes` taken apart. -/
structure Ready (s : State) (g : CoreId) (b : Bundle) : Prop where
  st : (s.core g).st = .running
  held : (s.core g).held = none
  on : coreOn s g = true
  noHalt : (s.core g).haltReq = false
  imem : s.ready (.imem g) = true
  par : s.par = []
  inj : s.asy.inj = []
  bad0 : (s.core g).cp0.bad = []
  bad1 : (s.core g).cp1.bad = []
  fine : (undefFind (s.core g) b).1 = .fine
  priv : privFind (s.core g) b.d = false
  fence : ¬(b.d = .fence ∧ postedOpen s g = true)
  mis : misFind (s.core g) b = none
  own : ∀ n ∈ memSlots, ∀ blk ∈ opBlocks (s.core g) (slotOp b n), ownBlock s g blk = true
  noFault : ∀ n ∈ memSlots, staticFault s g (slotOp b n) = none
  noQueue : ∀ o ∈ bundleOps b, isQueueOp o = false
  gte : scfGte (s.core g).r.scf = false

theorem executes_ready (h : executes s g b = true) : Ready s g b := by
  simp only [executes, Bool.and_eq_true, decide_eq_true_eq, Bool.not_eq_true', List.all_eq_true, Option.isNone_iff_eq_none,
    Bool.and_eq_false_iff, decide_eq_false_iff_not] at h
  obtain ⟨⟨⟨⟨⟨⟨h1, h2⟩, h3⟩, h4⟩, ⟨⟨⟨h5, h6⟩, h7⟩, h8⟩, h9⟩, ⟨⟨h10, h11⟩, h12⟩, h13⟩, ⟨h14, h15⟩, h16⟩ := h
  refine ⟨h1, h2, h3, h4, h5, h6, h7, h8, h9, h10, h11, ?_, h13, fun n hn => (h14 n hn).1, fun n hn => (h14 n hn).2, ?_, h16⟩
  · rintro ⟨ha, hb⟩
    rcases h12 with h | h
    · exact h ha
    · rw [h] at hb
      cases hb
  · intro o ho
    rw [List.any_eq_false] at h15
    simpa using h15 o ho

theorem heldState_own (r : Ready s g b) {n : Nat} (hn : n ∈ memSlots) :
    ∀ p ∈ opReads ((heldState s g b).core g) (slotOp b n), ownBlock (heldState s g b) g p.blk = true := by
  intro p hp
  rw [heldState_reads] at hp
  rw [ownBlock_congr heldState_c rfl rfl]
  exact r.own n hn p.blk (by simp only [opBlocks, List.mem_append, List.mem_map]; exact Or.inl ⟨p, hp, rfl⟩)

/-- What the reads of slot n bring. -/
def slotGot (s : State) (g : CoreId) (b : Bundle) (n : Nat) : Got := gotOwn s g (opReads (s.core g) (slotOp b n))

theorem gotOwn_held (l : List ReadPiece) : gotOwn (heldState s g b) g l = gotOwn s g l := by
  unfold gotOwn pieceBytes
  simp only [heldState_blkAt]
  rfl

/-- The held bundle. -/
def heldOf (s : State) (b : Bundle) : Held := { newHeld s b with kind := .busy }

theorem readSlot_held (r : Ready s g b) {n : Nat} (hn : n ∈ memSlots) :
    readSlot (heldState s g b) g (heldOf s b) n = (slotGot s g b n, heldState s g b) := by
  rw [readSlot_own (s := heldState s g b) r.par r.inj (heldOf s b) n (heldState_own r hn)]
  rw [slotGot, heldState_reads, gotOwn_held]
  rfl

/-- The state behind the reads. -/
def readState (s : State) (g : CoreId) (b : Bundle) : State :=
  if opReads (s.core g) b.d = [] then heldState s g b else { heldState s g b with fresh := s.fresh + 1 }

theorem readAll_held (r : Ready s g b) :
    readAll (heldState s g b) g (heldOf s b) = (slotGot s g b 0, slotGot s g b 1, slotGot s g b 3, readState s g b) := by
  unfold readAll
  simp only [readSlot_held r (show 0 ∈ memSlots by decide), readSlot_held r (show 1 ∈ memSlots by decide),
    readSlot_held r (show 3 ∈ memSlots by decide)]
  unfold readState
  rw [show (heldOf s b).bundle = b from rfl, heldState_reads]
  rfl

theorem fabReads_own (r : Ready s g b) : fabReads (heldState s g b) g b = [] := by
  unfold fabReads
  rw [List.flatMap_eq_nil_iff]
  intro n hn
  rw [List.filterMap_eq_nil_iff]
  rintro ⟨p, i⟩ hp
  have h1 := heldState_own r hn p (by
    rw [(List.mem_zipIdx hp).2.2]
    exact List.getElem_mem _)
  unfold ownBlock at h1
  dsimp only
  cases hk : blkAt (heldState s g b) g p.blk <;> simp [hk] at h1 ⊢

theorem nextMove_ready (r : Ready s g b) : nextMove (heldState s g b) g (heldOf s b) = .go [] 0 (heldState s g b) := by
  have h1 : needsInit (heldState s g b) g b = false := by
    unfold needsInit
    rw [List.any_eq_false]
    intro n hn
    rw [Bool.not_eq_true, List.any_eq_false]
    intro blk hb
    rw [heldState_blocks] at hb
    have := r.own n hn blk hb
    rw [heldState_blkAt]
    unfold ownBlock at this
    split at this
    · rename_i m pa he
      rw [he]
      show (!s.ready m) ≠ true
      simp [this]
    · cases this
    · cases this
  have h2 : staticTrap (heldState s g b) g b = none := by
    unfold staticTrap
    have : memSlots.find? (fun n => (staticFault (heldState s g b) g (slotOp b n)).isSome) = none := by
      rw [List.find?_eq_none]
      intro n hn
      rw [heldState_fault, r.noFault n hn]
      simp
    rw [this]
  have h3 : queueMove (heldState s g b) g (heldOf s b) = .go [] 0 (heldState s g b) := by
    have := r.noQueue b.a (by simp [bundleOps])
    unfold queueMove
    rw [show (heldOf s b).bundle = b from rfl]
    cases ha : b.a <;> simp [ha, isQueueOp] at this ⊢
  unfold nextMove
  rw [show (heldOf s b).bundle = b from rfl, h1, readAll_held r]
  simp only [slotGot, gotOwn, h2, fabReads_own r, Bool.false_eq_true, if_false]
  simpa [firstFault] using h3

/-- A bundle that `executes` comes to its commit. -/
theorem runBundle_commit (h : executes s g b = true) : runBundle s g b = commit (heldState s g b) g (heldOf s b) [] 0 := by
  have r := executes_ready h
  have h1 : undefFind (s.core g) b = (.fine, (undefFind (s.core g) b).2) := by rw [← r.fine]
  have hr : (heldState s g b).core g = { s.core g with held := some (heldOf s b) } := by simp [heldState, heldOf]
  have h2 : settle settleFuel (heldState s g b) g = commit (heldState s g b) g (heldOf s b) [] 0 := by
    show settle (199 + 1) _ _ = _
    unfold settle
    rw [hr]
    simp only [nextMove_ready r]
  have h3 : issue s g (heldOf s b) = commit (heldState s g b) g (heldOf s b) [] 0 := by
    unfold issue
    rw [show (heldOf s b).bundle = b from rfl]
    dsimp only
    rw [h1]
    simp only [r.priv, r.mis, Bool.false_eq_true, if_false, if_neg r.fence]
    exact h2
  unfold runBundle
  rw [if_pos ⟨r.st, r.held, r.on⟩]
  unfold fetch
  rw [r.imem, if_neg (by simp), parityRead_clean _ r.par r.inj]
  unfold fetched
  rw [if_neg (by simp)]
  exact h3

end Sys2Proof.Machine
end

