-- ==== Sys2Proof/Laws/Bundle.lean ====
section
/-! SUPPORT. What the operations of a bundle do to a core's registers (R53), and the state behind a bundle that executes. -/

namespace Sys2Proof.Machine

variable {s t u : State} {g : CoreId} {b : Bundle} {c old : Core} {e : Eff} {o : Op} {got : Got} {q : List Byte}

/-! ### Data registers by name -/

@[simp] theorem getS_putS (r : CoreRegs) (i j : BitVec 5) (v : Word) : (r.putS i v).getS j = if j = i then v else r.getS j := by
  simp [CoreRegs.getS, CoreRegs.putS, BitVec.toNat_inj]
@[simp] theorem getA_putA (r : CoreRegs) (i j : BitVec 4) (v : Word) : (r.putA i v).getA j = if j = i then v else r.getA j := by
  simp [CoreRegs.getA, CoreRegs.putA, BitVec.toNat_inj]
@[simp] theorem getN_putN (r : CoreRegs) (i j : BitVec 4) (v : Word) : (r.putN i v).getN j = if j = i then v else r.getN j := by
  simp [CoreRegs.getN, CoreRegs.putN, BitVec.toNat_inj]
@[simp] theorem getV_putV (r : CoreRegs) (i j : BitVec 5) (v : BitVec 512) : (r.putV i v).getV j = if j = i then v else r.getV j := by
  simp [CoreRegs.getV, CoreRegs.putV, BitVec.toNat_inj]
@[simp] theorem getAc_putAc (r : CoreRegs) (i j : BitVec 3) (v : BitVec 1280) :
    (r.putAc i v).getAc j = if j = i then v else r.getAc j := by
  simp [CoreRegs.getAc, CoreRegs.putAc, BitVec.toNat_inj]

theorem value_putS (r : CoreRegs) (i : BitVec 5) (v : Word) (n : RegName) :
    n.value (r.putS i v) = if n = .s i then v.toNat else n.value r := by
  cases n <;> simp [RegName.value, CoreRegs.getA, CoreRegs.getN, CoreRegs.getV, CoreRegs.getAc] <;> first | rfl | (split <;> rfl)
theorem value_putA (r : CoreRegs) (i : BitVec 4) (v : Word) (n : RegName) :
    n.value (r.putA i v) = if n = .a i then v.toNat else n.value r := by
  cases n <;> simp [RegName.value, CoreRegs.getS, CoreRegs.getN, CoreRegs.getV, CoreRegs.getAc] <;> first | rfl | (split <;> rfl)
theorem value_putN (r : CoreRegs) (i : BitVec 4) (v : Word) (n : RegName) :
    n.value (r.putN i v) = if n = .n i then v.toNat else n.value r := by
  cases n <;> simp [RegName.value, CoreRegs.getA, CoreRegs.getS, CoreRegs.getV, CoreRegs.getAc] <;> first | rfl | (split <;> rfl)
theorem value_putV (r : CoreRegs) (i : BitVec 5) (v : BitVec 512) (n : RegName) :
    n.value (r.putV i v) = if n = .v i then v.toNat else n.value r := by
  cases n <;> simp [RegName.value, CoreRegs.getA, CoreRegs.getN, CoreRegs.getS, CoreRegs.getAc] <;> first | rfl | (split <;> rfl)
theorem value_putAc (r : CoreRegs) (i : BitVec 3) (v : BitVec 1280) (n : RegName) :
    n.value (r.putAc i v) = if n = .ac i then v.toNat else n.value r := by
  cases n <;> simp [RegName.value, CoreRegs.getA, CoreRegs.getN, CoreRegs.getV, CoreRegs.getS] <;> first | rfl | (split <;> rfl)
theorem value_scf (r : CoreRegs) (x : Word) (n : RegName) : n.value { r with scf := x } = n.value r := by cases n <;> rfl

theorem putS_scf (r : CoreRegs) (i : BitVec 5) (v : Word) : (r.putS i v).scf = r.scf := rfl
theorem putA_scf (r : CoreRegs) (i : BitVec 4) (v : Word) : (r.putA i v).scf = r.scf := rfl
theorem putN_scf (r : CoreRegs) (i : BitVec 4) (v : Word) : (r.putN i v).scf = r.scf := rfl
theorem putV_scf (r : CoreRegs) (i : BitVec 5) (v : BitVec 512) : (r.putV i v).scf = r.scf := rfl
theorem putAc_scf (r : CoreRegs) (i : BitVec 3) (v : BitVec 1280) : (r.putAc i v).scf = r.scf := rfl

/-! ### Control register writes -/

/-- d is c but for SCF, the control registers, the loops and the trap registers. -/
def CtlOnly (c d : Core) : Prop := ∃ scf cc l x y, d = { c with r := { c.r with scf := scf }, c := cc, loops := l, t0 := x, t1 := y }

theorem CtlOnly.ite {p : Prop} [Decidable p] {c d d' : Core} (h : CtlOnly c d) (h' : CtlOnly c d') : CtlOnly c (if p then d else d') := by
  split <;> assumption

theorem CtlOnly.setTrap (c : Core) (n : Nat) (t : TrapRegs) : CtlOnly c (c.setTrap n t) := by
  unfold Core.setTrap
  exact .ite ⟨_, _, _, _, _, rfl⟩ ⟨_, _, _, _, _, rfl⟩

theorem cregWrite_shape (c : Core) (n : Nat) (v : Word) : CtlOnly c (cregWrite c n v) := by
  unfold cregWrite
  dsimp only
  refine .ite ⟨_, _, _, _, _, rfl⟩ (.ite ⟨_, _, _, _, _, rfl⟩ (.ite ⟨_, _, _, _, _, rfl⟩ (.ite ⟨_, _, _, _, _, rfl⟩ (.ite ⟨_, _, _, _, _, rfl⟩
    (.ite ⟨_, _, _, _, _, rfl⟩ (.ite (.setTrap ..) (.ite (.setTrap ..) (.ite (.setTrap ..) (.ite (.setTrap ..) (.ite (.setTrap ..)
    (.ite ⟨_, _, _, _, _, rfl⟩ (.ite ⟨_, _, _, _, _, rfl⟩ (.ite ⟨_, _, _, _, _, rfl⟩ (.ite ⟨_, _, _, _, _, rfl⟩
    ⟨_, _, _, _, _, rfl⟩))))))))))))))

/-! ### One operation -/

/-- The registers that the operation changes, as a function of the core's registers. -/
theorem effPost_shape (old : Core) (o : Op) (e : Eff) : effPost old o e = { e with c := { e.c with r := (effPost old o e).c.r } } := by
  unfold effPost Eff.regs
  split <;> rfl

theorem effPost_value (old : Core) (o : Op) (e : Eff) (n : RegName) : n.value (effPost old o e).c.r =
    match postMod old.r o with
    | some (an, v) => if n = .a an then v.toNat else n.value e.c.r
    | none => n.value e.c.r := by
  unfold effPost Eff.regs
  split
  · rename_i an v h
    simp only [h]
    exact value_putA ..
  · rename_i h
    simp only [h]

theorem effPost_scf (old : Core) (o : Op) (e : Eff) : (effPost old o e).c.r.scf = e.c.r.scf := by
  unfold effPost Eff.regs
  split <;> rfl

/-- The operation is MTC. -/
def isMtc : Op → Bool
  | .mtc _ _ => true
  | _ => false

theorem addAuto_c (e : Eff) (x : Option Int) : (addAuto e x).c = e.c := by cases x <;> rfl
theorem addAuto_gov (e : Eff) (x : Option Int) : (addAuto e x).govSet = e.govSet ∧ (addAuto e x).govClr = e.govClr ∧
    (addAuto e x).qsat = e.qsat ∧ (addAuto e x).flags = e.flags := by cases x <;> exact ⟨rfl, rfl, rfl, rfl⟩

/-- d is c but for data registers other than SCF. -/
def RegsOnly (c d : Core) : Prop := ∃ r, d = { c with r := r } ∧ r.scf = c.r.scf

theorem RegsOnly.put {d : Core} (h : RegsOnly c d) (r : CoreRegs) (hr : r.scf = d.r.scf) : RegsOnly c { d with r := r } := by
  obtain ⟨r', h1, h2⟩ := h
  exact ⟨r, by rw [h1], by rw [hr, h1]; exact h2⟩

theorem effPost_only (old : Core) (o : Op) (e : Eff) : RegsOnly e.c (effPost old o e).c :=
  ⟨(effPost old o e).c.r, congrArg Eff.c (effPost_shape old o e), effPost_scf old o e⟩

/-- An operation other than MTC changes data registers only. -/
theorem opEff_only (h : isMtc o = false) : RegsOnly e.c (opEff old got q o e).c := by
  have hp : RegsOnly e.c (effPost old o { e with flags := e.flags ||| got.flags }).c := effPost_only ..
  unfold opEff
  generalize effPost old o { e with flags := e.flags ||| got.flags } = x at hp ⊢
  have hS := fun i v => hp.put (x.c.r.putS i v) (putS_scf ..)
  have hA := fun i v => hp.put (x.c.r.putA i v) (putA_scf ..)
  have hN := fun i v => hp.put (x.c.r.putN i v) (putN_scf ..)
  have hV := fun i v => hp.put (x.c.r.putV i v) (putV_scf ..)
  have hAc := fun i v => hp.put (x.c.r.putAc i v) (putAc_scf ..)
  cases o
  case mtc => cases h
  case cp sl op f =>
    dsimp only [Eff.regs]
    split
    · exact hV _ _
    · split
      · exact hS _ _
      · exact hp
  all_goals
    simp only [Eff.regs, Eff.vec, addAuto_c]
    first
      | with_reducible exact hp
      | with_reducible exact hS _ _
      | with_reducible exact hA _ _
      | with_reducible exact hN _ _
      | with_reducible exact hV _ _
      | with_reducible exact hAc _ _

theorem opEff_core (h : isMtc o = false) : (opEff old got q o e).c = { e.c with r := (opEff old got q o e).c.r } := by
  obtain ⟨r, h1, _⟩ := opEff_only (e := e) (old := old) (got := got) (q := q) h
  rw [h1]
theorem opEff_scf (h : isMtc o = false) : (opEff old got q o e).c.r.scf = e.c.r.scf := by
  obtain ⟨r, h1, h2⟩ := opEff_only (e := e) (old := old) (got := got) (q := q) h
  rw [h1]
  exact h2

/-- Control and trap registers, loops and data registers apart, nothing changes. -/
theorem opEff_keeps : (opEff old got q o e).c.haltReq = e.c.haltReq ∧ (opEff old got q o e).c.pc = e.c.pc ∧
    (opEff old got q o e).c.cmu = e.c.cmu ∧ (opEff old got q o e).c.sbu = e.c.sbu ∧ (opEff old got q o e).c.cp0 = e.c.cp0 ∧
    (opEff old got q o e).c.cp1 = e.c.cp1 := by
  by_cases h : isMtc o = false
  · rw [opEff_core h]
    exact ⟨rfl, rfl, rfl, rfl, rfl, rfl⟩
  · cases o <;> simp [isMtc] at h
    rename_i sa cr
    obtain ⟨scf, cc, l, x, y, hw⟩ := cregWrite_shape e.c cr.toNat (old.r.getS sa)
    have : (opEff old got q (.mtc sa cr) e).c = cregWrite e.c cr.toNat (old.r.getS sa) := rfl
    rw [this, hw]
    exact ⟨rfl, rfl, rfl, rfl, rfl, rfl⟩

/-- A register that the operation does not name keeps its value. -/
theorem opEff_other {n : RegName} (h : n ∉ opWrites o) : n.value (opEff old got q o e).c.r = n.value e.c.r := by
  have hp := effPost_value old o { e with flags := e.flags ||| got.flags } n
  have hq : ∀ (an : BitVec 4) (w : Word), postMod old.r o = some (an, w) → n ≠ .a an := by
    intro an w hm he
    subst he
    apply h
    cases o <;> simp [postMod, memArgs] at hm
    case vsta v =>
      obtain ⟨acs, an', sm, sh, mode⟩ := v
      cases mode <;> simp [opWrites] at hm ⊢
      all_goals exact hm.1.symm
    all_goals
      rename_i m
      obtain ⟨d, an', mode⟩ := m
      cases mode <;> simp [opWrites, postWrites] at hm ⊢
      all_goals exact hm.1.symm
  have hv : n.value (effPost old o { e with flags := e.flags ||| got.flags }).c.r = n.value e.c.r := by
    rw [hp]
    split
    · rename_i an w hm
      rw [if_neg (hq an w hm)]
    · rfl
  unfold opEff
  cases o
  case mtc sa cr =>
    obtain ⟨scf, cc, l, x, y, hw⟩ := cregWrite_shape (effPost old (.mtc sa cr) { e with flags := e.flags ||| got.flags }).c cr.toNat (old.r.getS sa)
    dsimp only
    rw [hw]
    exact (value_scf _ _ _).trans hv
  case cp sl op f =>
    dsimp only
    simp only [opWrites] at h
    split
    · rename_i h2
      rw [if_pos h2] at h
      simp only [Eff.regs, value_putV]
      rw [if_neg (by simpa using h)]
      exact hv
    · rename_i h2
      rw [if_neg h2] at h
      split
      · rename_i h3
        rw [if_pos h3] at h
        simp only [Eff.regs, value_putS]
        rw [if_neg (by simpa using h)]
        exact hv
      · exact hv
  all_goals
    simp only [opWrites, List.mem_cons, not_or] at h
    simp only [Eff.regs, Eff.vec, addAuto_c, value_putV, value_putS, value_putA, value_putN, value_putAc]
    first
      | exact hv
      | (rw [if_neg h.1]; exact hv)

theorem effPost_marks (old : Core) (o : Op) (e : Eff) : (effPost old o e).govSet = e.govSet ∧ (effPost old o e).govClr = e.govClr ∧
    (effPost old o e).qsat = e.qsat ∧ (effPost old o e).auto = e.auto ∧ (effPost old o e).flags = e.flags := by
  unfold effPost Eff.regs
  split <;> exact ⟨rfl, rfl, rfl, rfl, rfl⟩

theorem opEff_flags : (opEff old got q o e).flags = e.flags ||| got.flags := by
  have hp := (effPost_marks old o { e with flags := e.flags ||| got.flags }).2.2.2.2
  unfold opEff
  cases o
  case cp sl op f =>
    dsimp only [Eff.regs]
    split
    · exact hp
    · split <;> exact hp
  all_goals
    simp only [Eff.regs, Eff.vec, addAuto_gov]
    exact hp

theorem opEff_acst (h : touchesAcst o = false) : (opEff old got q o e).govSet = e.govSet ∧ (opEff old got q o e).govClr = e.govClr ∧
    (opEff old got q o e).qsat = e.qsat := by
  obtain ⟨h1, h2, h3, _⟩ := effPost_marks old o { e with flags := e.flags ||| got.flags }
  unfold opEff
  cases o
  case cp sl op f =>
    dsimp only [Eff.regs]
    split
    · exact ⟨h1, h2, h3⟩
    · split <;> exact ⟨h1, h2, h3⟩
  all_goals first
    | with_reducible exact ⟨h1, h2, h3⟩
    | (simp only [Eff.regs, Eff.vec, Bool.or_false]; with_reducible exact ⟨h1, h2, h3⟩)
    | (simp only [touchesAcst, Bool.true_eq_false] at h)

theorem scaledMove_noAuto {scf : Word} {sm : BitVec 2} {sh : BitVec 4} {acc : BitVec 1280} (h : smAuto scf sm = false) :
    (scaledMove scf sm sh acc).2.2 = none := by
  simp [scaledMove, h]

theorem opEff_auto (h : usesAuto old.r.scf o = false) : (opEff old got q o e).auto = e.auto := by
  have h1 := (effPost_marks old o { e with flags := e.flags ||| got.flags }).2.2.2.1
  unfold opEff
  cases o
  case vsta v =>
    dsimp only
    rw [show vstaMove old v = scaledMove old.r.scf v.sm v.sh (old.r.getAc v.acs) from rfl, scaledMove_noAuto h]
    exact h1
  case acmv vd acs sm sh =>
    dsimp only
    rw [scaledMove_noAuto h]
    exact h1
  case cp sl op f =>
    dsimp only [Eff.regs]
    split
    · exact h1
    · split <;> exact h1
  all_goals first
    | with_reducible exact h1
    | (simp only [Eff.regs, Eff.vec]; with_reducible exact h1)

/-! ### The four slots -/

/-- The core that commits the bundle. -/
def heldCore (s : State) (g : CoreId) (b : Bundle) : Core := { s.core g with held := some (heldOf s b) }

/-- What the reads of a slot bring, nothing in slot C. -/
def gotAt (s : State) (g : CoreId) (b : Bundle) (n : Nat) : Got := if n = 2 then Got.nothing else slotGot s g b n

/-- No effect yet. -/
def effStart (s : State) (g : CoreId) (b : Bundle) : Eff :=
  { c := heldCore s g b, govSet := 0, govClr := 0, qsat := false, auto := none, flags := 0 }

/-- The effect of slot n on top of another. -/
def slotEff (s : State) (g : CoreId) (b : Bundle) (n : Nat) (e : Eff) : Eff := opEff (heldCore s g b) (gotAt s g b n) [] (slotOp b n) e

/-- The effect of the bundle. -/
def bundleEff (s : State) (g : CoreId) (b : Bundle) : Eff :=
  slotEff s g b 3 (slotEff s g b 2 (slotEff s g b 1 (slotEff s g b 0 (effStart s g b))))

/-- The core behind the bundle, but for the coprocessor operation and WAIT. -/
def newCore (s : State) (g : CoreId) (b : Bundle) : Core :=
  { flow (heldCore s g b) (effCore (bundleEff s g b)) b.d with held := none, st := .running }

theorem noConflict_of (r : Ready s g b) : slotHas 0 b.a = true ∧ slotHas 1 b.b = true ∧ slotHas 2 b.c = true ∧ slotHas 3 b.d = true ∧
    ∀ n < 4, writeConflict b n = false ∧ reservedField (slotOp b n) = false := by
  have h := r.fine
  unfold undefFind at h
  dsimp only at h
  generalize hf : (List.range 4).find? (fun n => !slotHas n (slotOp b n) || reservedField (slotOp b n) || writeConflict b n) = x at h
  cases x with
  | some n => cases h
  | none =>
    rw [List.find?_eq_none] at hf
    have key : ∀ n < 4, slotHas n (slotOp b n) = true ∧ reservedField (slotOp b n) = false ∧ writeConflict b n = false := by
      intro n hn
      have := hf n (List.mem_range.mpr hn)
      simp only [Bool.not_eq_true, Bool.or_eq_false_iff, Bool.not_eq_false'] at this
      exact ⟨this.1.1, this.1.2, this.2⟩
    exact ⟨(key 0 (by omega)).1, (key 1 (by omega)).1, (key 2 (by omega)).1, (key 3 (by omega)).1, fun n hn => ⟨(key n hn).2.2, (key n hn).2.1⟩⟩

theorem disjoint_of (r : Ready s g b) {i n : Nat} (hi : i < n) (hn : n < 4) {x : RegName} (hx : x ∈ opWrites (slotOp b n)) :
    x ∉ opWrites (slotOp b i) := by
  have h := ((noConflict_of r).2.2.2.2 n hn).1
  unfold writeConflict at h
  rw [List.any_eq_false] at h
  have := h x hx
  simp only [List.any_eq_true, List.mem_range, not_exists, not_and] at this
  intro hc
  exact this i hi (by simpa using hc)

/-- What a register that the operation names becomes does not depend on the effects before it. -/
theorem opEff_own (e e' : Eff) {n : RegName} (h : n ∈ opWrites o) :
    n.value (opEff old got q o e).c.r = n.value (opEff old got q o e').c.r := by
  have hp : ∀ e'' : Eff, n.value (effPost old o { e'' with flags := e''.flags ||| got.flags }).c.r = _ :=
    fun e'' => effPost_value old o { e'' with flags := e''.flags ||| got.flags } n
  have hq : (∃ an w, postMod old.r o = some (an, w) ∧ n = .a an) →
      n.value (effPost old o { e with flags := e.flags ||| got.flags }).c.r =
        n.value (effPost old o { e' with flags := e'.flags ||| got.flags }).c.r := by
    rintro ⟨an, w, hm, he⟩
    rw [hp, hp, hm]
    simp only [if_pos he]
  unfold opEff
  generalize effPost old o { e with flags := e.flags ||| got.flags } = x at hq ⊢
  generalize effPost old o { e' with flags := e'.flags ||| got.flags } = x' at hq ⊢
  cases o
  case cp sl op f =>
    dsimp only
    simp only [opWrites] at h
    split
    · rename_i h2
      rw [if_pos h2] at h
      rw [List.mem_singleton] at h
      simp only [Eff.regs, value_putV, if_pos h]
    · rename_i h2
      rw [if_neg h2] at h
      split
      · rename_i h3
        rw [if_pos h3, List.mem_singleton] at h
        simp only [Eff.regs, value_putS, if_pos h]
      · rename_i h3
        rw [if_neg h3] at h
        cases h
  case vsta v =>
    dsimp only
    rw [addAuto_c, addAuto_c]
    apply hq
    obtain ⟨acs, sm, sh, an, mode⟩ := v
    cases mode <;> simp [opWrites, postMod] at h ⊢ <;> exact h
  all_goals
    simp only [opWrites] at h
    first
      | with_reducible exact absurd h List.not_mem_nil
      | (simp only [List.mem_singleton] at h
         simp only [Eff.regs, Eff.vec, addAuto_c, value_putV, value_putS, value_putA, value_putN, value_putAc, if_pos h])
      | (rename_i m
         obtain ⟨d, an, mode⟩ := m
         simp only [Eff.regs, value_putV, value_putS]
         split
         · rfl
         · rename_i hne
           apply hq
           cases mode <;> simp [postWrites, postMod, memArgs] at h ⊢ <;> first | exact h | (first | exact absurd h hne | exact h.resolve_left hne))
      | (rename_i m
         obtain ⟨d, an, mode⟩ := m
         apply hq
         cases mode <;> simp [postWrites, postMod, memArgs] at h ⊢ <;> exact h)

end Sys2Proof.Machine
end

