-- ==== Sys2Proof/Laws/Done.lean ====
section
/-! SUPPORT. The state behind a bundle that executes, and its frame (R53, R54): the lemmas that statements about single instructions
cite. -/

namespace Sys2Proof.Machine

variable {s t u : State} {g : CoreId} {b : Bundle} {c old : Core} {e : Eff} {o : Op}

/-! ### Where execution goes on -/

theorem fallThrough_shape (c : Core) : fallThrough c = { c with pc := (fallThrough c).pc, loops := (fallThrough c).loops } := rfl

/-- Only the pc, the loops and, for RTI, the privilege and IE change. -/
theorem flow_shape (old c : Core) (o : Op) : ∃ pc l cc, flow old c o = { c with pc := pc, loops := l, c := cc } := by
  unfold flow
  split
  · exact ⟨_, _, _, rfl⟩
  · split
    · exact ⟨_, _, _, rfl⟩
    · exact ⟨_, _, _, rfl⟩
    · dsimp only
      split <;> exact ⟨_, _, _, rfl⟩
    · exact ⟨_, _, _, rfl⟩

theorem branchTo_plain (h : touchesFlow o = false) (old : Core) : branchTo old o = none := by
  unfold branchTo
  split <;> first | exact Bool.noConfusion (h : true = false) | rfl

theorem flow_plain (h : touchesFlow o = false) (old c : Core) : flow old c o = fallThrough c := by
  unfold flow
  rw [branchTo_plain h]
  dsimp only
  split <;> first | exact Bool.noConfusion (h : true = false) | rfl

/-- RTI is the only operation whose flow changes control registers. -/
theorem flow_ctl (h : o ≠ .rti) (old c : Core) : (flow old c o).c = c.c := by
  unfold flow
  split
  · rfl
  · split
    · exact absurd rfl h
    · rfl
    · dsimp only
      split <;> rfl
    · rfl

/-! ### Registers behind the bundle -/

theorem bundleEff_other {n : RegName} (h : n ∉ bundleWrites b) : n.value (bundleEff s g b).c.r = n.value (s.core g).r := by
  simp only [bundleWrites, bundleOps, List.flatMap_cons, List.flatMap_nil, List.mem_append, not_or] at h
  unfold bundleEff slotEff
  rw [opEff_other (o := slotOp b 3) h.2.2.2.1, opEff_other (o := slotOp b 2) h.2.2.1, opEff_other (o := slotOp b 1) h.2.1,
    opEff_other (o := slotOp b 0) h.1]
  rfl

/-- A register that slot k names holds what that slot's operation gives it. -/
theorem bundleEff_value (r : Ready s g b) {k : Nat} (hk : k < 4) {n : RegName} (h : n ∈ opWrites (slotOp b k)) :
    n.value (bundleEff s g b).c.r = n.value (slotEff s g b k (effStart s g b)).c.r := by
  have key : ∀ e, n.value (slotEff s g b k e).c.r = n.value (slotEff s g b k (effStart s g b)).c.r := fun e => opEff_own e _ h
  have pass : ∀ j e, k < j → j < 4 → n.value (slotEff s g b j e).c.r = n.value e.c.r := by
    intro j e hj h4
    apply opEff_other
    intro hc
    exact disjoint_of r hj h4 hc h
  unfold bundleEff
  have : k = 0 ∨ k = 1 ∨ k = 2 ∨ k = 3 := by omega
  rcases this with rfl | rfl | rfl | rfl
  · rw [pass 3 _ (by omega) (by omega), pass 2 _ (by omega) (by omega), pass 1 _ (by omega) (by omega)]
  · rw [pass 3 _ (by omega) (by omega), pass 2 _ (by omega) (by omega), key]
  · rw [pass 3 _ (by omega) (by omega), key]
  · rw [key]

theorem effCore_shape (e : Eff) : ∃ scf a f, effCore e = { e.c with r := { e.c.r with scf := scf }, c := { e.c.c with acst := a, ldflags := f } } :=
  ⟨_, _, _, rfl⟩

theorem newCore_value (n : RegName) : n.value (newCore s g b).r = n.value (bundleEff s g b).c.r := by
  unfold newCore
  obtain ⟨pc, l, cc, h⟩ := flow_shape (heldCore s g b) (effCore (bundleEff s g b)) b.d
  rw [h]
  exact value_scf _ _ _

theorem newCore_keeps : (newCore s g b).haltReq = (s.core g).haltReq ∧ (newCore s g b).cmu = (s.core g).cmu ∧
    (newCore s g b).sbu = (s.core g).sbu ∧ (newCore s g b).cp0 = (s.core g).cp0 ∧ (newCore s g b).cp1 = (s.core g).cp1 := by
  unfold newCore
  obtain ⟨pc, l, cc, h⟩ := flow_shape (heldCore s g b) (effCore (bundleEff s g b)) b.d
  rw [h]
  obtain ⟨k1, _, k2, k3, k4, k5⟩ : _ := opEff_keeps (old := heldCore s g b) (got := gotAt s g b 3) (q := []) (o := slotOp b 3)
    (e := slotEff s g b 2 (slotEff s g b 1 (slotEff s g b 0 (effStart s g b))))
  obtain ⟨m1, _, m2, m3, m4, m5⟩ : _ := opEff_keeps (old := heldCore s g b) (got := gotAt s g b 2) (q := []) (o := slotOp b 2)
    (e := slotEff s g b 1 (slotEff s g b 0 (effStart s g b)))
  obtain ⟨n1, _, n2, n3, n4, n5⟩ : _ := opEff_keeps (old := heldCore s g b) (got := gotAt s g b 1) (q := []) (o := slotOp b 1)
    (e := slotEff s g b 0 (effStart s g b))
  obtain ⟨p1, _, p2, p3, p4, p5⟩ : _ := opEff_keeps (old := heldCore s g b) (got := gotAt s g b 0) (q := []) (o := slotOp b 0)
    (e := effStart s g b)
  exact ⟨k1.trans (m1.trans (n1.trans p1)), k2.trans (m2.trans (n2.trans p2)), k3.trans (m3.trans (n3.trans p3)),
    k4.trans (m4.trans (n4.trans p4)), k5.trans (m5.trans (n5.trans p5))⟩

/-! ### Stores -/

theorem setBytes_shape (s : State) (a : Nat) (d : List Byte) : s.setBytes a d = { s with mem := (s.setBytes a d).mem } := by
  induction d generalizing s a with
  | nil => rfl
  | cons x d ih =>
    unfold State.setBytes
    rw [ih]
    rfl

theorem stores_shape (s : State) (l : List (Nat × List Byte)) :
    l.foldl (fun u p => u.setBytes p.1 p.2) s = { s with mem := (l.foldl (fun u p => u.setBytes p.1 p.2) s).mem } := by
  induction l generalizing s with
  | nil => rfl
  | cons p l ih =>
    rw [List.foldl_cons, ih, setBytes_shape]

/-- What memory holds after stores depends on the memory before only. -/
theorem setBytes_mem (h : s.mem = t.mem) (a : Nat) (d : List Byte) : (s.setBytes a d).mem = (t.setBytes a d).mem := by
  induction d generalizing s t a with
  | nil => exact h
  | cons x d ih =>
    unfold State.setBytes
    exact ih (by simp [State.setByte, h]) (a + 1)

theorem stores_mem (h : s.mem = t.mem) (l : List (Nat × List Byte)) :
    (l.foldl (fun u p => u.setBytes p.1 p.2) s).mem = (l.foldl (fun u p => u.setBytes p.1 p.2) t).mem := by
  induction l generalizing s t with
  | nil => exact h
  | cons p l ih => exact ih (setBytes_mem h p.1 p.2)

theorem coreStores_own (hp : u.par = []) (hc : (u.core g).c = (s.core g).c) (hu : u.clus = s.clus) (l : List (Word × List Byte))
    (ho : ∀ p ∈ l, ownBlock s g (p.1 &&& 0xFFFFFFC0) = true) :
    coreStores u g l = (l.map (fun p => (ownAddr s g p.1, p.2))).foldl (fun u p => u.setBytes p.1 p.2) u := by
  induction l generalizing u with
  | nil => rfl
  | cons p l ih =>
    have h1 : coreStore u g p.1 p.2 = u.setBytes (ownAddr s g p.1) p.2 := by
      have := ho p (by simp)
      unfold coreStore ownAddr
      unfold ownBlock at this
      rw [blkAt_congr hc hu]
      dsimp only
      cases hk : blkAt s g (p.1 &&& 0xFFFFFFC0) with
      | own m pa => exact parityWrite_clean hp _ _
      | fab pa => rw [hk] at this; cases this
      | bad o w => rw [hk] at this; cases this
    have h2 := setBytes_shape u (ownAddr s g p.1) p.2
    show coreStores (coreStore u g p.1 p.2) g l = _
    rw [h1, ih (by rw [h2]; exact hp) (by rw [h2]; exact hc) (by rw [h2]; exact hu) (fun q hq => ho q (by simp [hq]))]
    rfl

/-! ### Coprocessor operations at commit -/

theorem cpParity_clean (hi : s.asy.inj = []) (sl : Bool) (hb : ((s.core g).port sl).bad = []) (ws : List Nat) :
    cpParity s g sl ws = (false, s) := by
  unfold cpParity
  induction ws with
  | nil => rfl
  | cons w ws ih =>
    rw [List.foldl_cons]
    dsimp only
    rw [hb]
    rw [show (sget false ([] : Sparse Bool) w) = false from rfl, check_quiet hi]
    simpa using ih

theorem port_setPort (c : Core) (sl : Bool) (p : CpPort) : (c.setPort sl p).port sl = p := by
  unfold Core.setPort Core.port
  cases sl <;> rfl

theorem clearBad_nil (p : CpPort) (h : p.bad = []) (ws : List Nat) : clearBad p ws = p := by
  have : ws.foldl (fun b w => sput false b w false) ([] : Sparse Bool) = [] := by
    induction ws with
    | nil => rfl
    | cons w ws ih => simpa [sput, put, drop] using ih
  unfold clearBad
  rw [h, this, ← h]

/-- What a coprocessor operation at its commit leaves of a core. -/
structure CpKeeps (c d : Core) : Prop where
  r : d.r = c.r
  haltReq : d.haltReq = c.haltReq
  held : d.held = c.held
  st : d.st = c.st
  pc : d.pc = c.pc
  loops : d.loops = c.loops
  t0 : d.t0 = c.t0
  t1 : d.t1 = c.t1
  ctl : d.c = { c.c with cpen := d.c.cpen }

theorem CpKeeps.setPort {c d : Core} (h : CpKeeps c d) (sl : Bool) (p : CpPort) : CpKeeps c (d.setPort sl p) := by
  obtain ⟨h1, h2, h3, h4, h5, h6, h7, h8, h9⟩ := h
  unfold Core.setPort
  cases sl <;> exact ⟨h1, h2, h3, h4, h5, h6, h7, h8, h9⟩

theorem CpKeeps.setDirty {c d : Core} (h : CpKeeps c d) (sl x : Bool) : CpKeeps c (setDirty d sl x) := by
  obtain ⟨h1, h2, h3, h4, h5, h6, h7, h8, h9⟩ := h
  unfold Sys2Proof.Machine.setDirty
  exact ⟨h1, h2, h3, h4, h5, h6, h7, h8, by dsimp only; rw [h9]⟩

theorem CpKeeps.refl (c : Core) : CpKeeps c c := ⟨rfl, rfl, rfl, rfl, rfl, rfl, rfl, rfl, rfl⟩

/-- The operation that joins those in flight (R91). -/
def cpPendOf (c old : Core) (sl : Bool) (op : BitVec 5) (f : CpFields) (got : Got) : CpPend :=
  { op := op, f := f, baddr := old.pc, seq := (c.port sl).seq + 1, vsrc := old.r.getV f.srca, ssrc := old.r.getS f.srca,
    ssrc2 := old.r.getS f.srcb, data := cpData old sl op.toNat f got }

/-- The core behind a coprocessor operation at its commit, when no state word it reads holds a parity error (R91, R100). -/
def cpNext (c old : Core) (sl : Bool) (op : BitVec 5) (f : CpFields) (got : Got) : Core :=
  let p0 := c.port sl
  let n := op.toNat
  if n = 2 ∨ n = 3 ∨ n = 4 ∨ n = 6 ∨ n = 7 then
    let c1 := c.setPort sl { p0 with seq := p0.seq + 1 }
    if n = 6 then setDirty c1 sl false
    else if n = 7 then
      let d := cpData old sl n f got
      setDirty (if sl then { c1 with sbu := sbuOfImage d } else { c1 with cmu := cmuOfImage d }) sl false
    else c1
  else
    c.setPort sl { p0 with seq := p0.seq + 1, pend := p0.pend ++ [cpPendOf c old sl op f got] }

theorem cpNext_keeps (c old : Core) (sl : Bool) (op : BitVec 5) (f : CpFields) (got : Got) : CpKeeps c (cpNext c old sl op f got) := by
  have h1 := fun p => (CpKeeps.refl c).setPort sl p
  unfold cpNext
  dsimp only
  split
  · split
    · exact (h1 _).setDirty _ _
    · split
      · apply CpKeeps.setDirty
        split
        · obtain ⟨k1, k2, k3, k4, k5, k6, k7, k8, k9⟩ := h1 { c.port sl with seq := (c.port sl).seq + 1 }
          exact ⟨k1, k2, k3, k4, k5, k6, k7, k8, k9⟩
        · obtain ⟨k1, k2, k3, k4, k5, k6, k7, k8, k9⟩ := h1 { c.port sl with seq := (c.port sl).seq + 1 }
          exact ⟨k1, k2, k3, k4, k5, k6, k7, k8, k9⟩
      · exact h1 _
  · exact h1 _

theorem flagPar_false (c : Core) (sl : Bool) : flagPar c sl false = c := rfl
theorem lateReport_false (c : Core) (sl : Bool) (l : CpLate) (h : (l.ovf || l.divz || l.par) = false) : lateReport c sl l = c := by
  unfold lateReport
  rw [h]
  simp

theorem setCore_setCore_core (c d : Core) : ((s.setCore g c).setCore g d).core g = d := by simp
theorem cores_shape (c : Core) : s.setCore g c = { s with cores := (s.setCore g c).cores } := rfl

theorem cpCommit_clean (hi : s.asy.inj = []) (old : Core) (sl : Bool) (op : BitVec 5) (f : CpFields) (got : Got)
    (hb : ((s.core g).port sl).bad = []) :
    (cpCommit s old g sl op f got).core g = cpNext (s.core g) old sl op f got ∧
    (∀ g' : CoreId, g' ≠ g → (cpCommit s old g sl op f got).core g' = s.core g') ∧
    cpCommit s old g sl op f got = { s with cores := (cpCommit s old g sl op f got).cores } := by
  have hp : ∀ ws, cpParity (s.setCore g ((s.core g).setPort sl { (s.core g).port sl with seq := ((s.core g).port sl).seq + 1 })) g sl ws =
      (false, s.setCore g ((s.core g).setPort sl { (s.core g).port sl with seq := ((s.core g).port sl).seq + 1 })) :=
    fun ws => cpParity_clean (s := s.setCore g _) hi sl (by simp [port_setPort, hb]) ws
  unfold cpCommit cpNext
  dsimp only
  split
  · rw [hp]
    dsimp only
    rw [State.setCore_core, if_pos rfl, flagPar_false, lateReport_false _ _ _ rfl]
    refine ⟨?_, ?_, ?_⟩
    · rw [State.setCore_core, if_pos rfl]
      split
      · rfl
      · split
        · congr 1
          cases sl
          · simp only [Bool.false_eq_true, if_false]
            simp only [Core.port, Core.setPort, Bool.false_eq_true, if_false] at hb ⊢
            rw [clearBad_nil { (s.core g).cp0 with seq := (s.core g).cp0.seq + 1 } hb]
          · simp only [if_true]
            simp only [Core.port, Core.setPort, if_true] at hb ⊢
            rw [clearBad_nil { (s.core g).cp1 with seq := (s.core g).cp1.seq + 1 } hb]
        · rfl
    · intro g' hg
      simp [hg]
    · rfl
  · refine ⟨?_, ?_, ?_⟩
    · rw [State.setCore_core, if_pos rfl]
      rfl
    · intro g' hg
      simp [hg]
    · rfl

/-! ### The state behind the bundle -/

/-- The core behind the bundle, but for WAIT. -/
def afterCore (s : State) (g : CoreId) (b : Bundle) : Core :=
  match b.d with
  | .cp sl op f => cpNext (newCore s g b) (heldCore s g b) sl op f (slotGot s g b 3)
  | _ => newCore s g b

/-- What the commit of a bundle that executes answers. -/
structure Committed (s : State) (g : CoreId) (b : Bundle) (t : State) : Prop where
  core : t.core g = afterCore s g b ∨ (b.d = .wait ∧ (intChoice t g).isNone = true ∧ t.core g = { afterCore s g b with st := .wait })
  woken : b.d = .wait → (intChoice t g).isNone = true → (t.core g).st = .wait
  others : ∀ g' : CoreId, g' ≠ g → t.core g' = s.core g'
  mem : ∀ a : Nat, t.byte a = byteAfter s (bundleStores s g b) a
  tally : ∀ a : Nat, a ≠ coreRegs g + 0x100 → a ≠ coreRegs g + 0x120 → sget 0 t.tally a = sget 0 s.tally a
  rest : t = { s with cores := t.cores, mem := t.mem, tally := t.tally, fresh := t.fresh }

/-- Two states agree but for the cores, memory, the Tally counters and the count of free values. -/
def SameRest (s t : State) : Prop := t = { s with cores := t.cores, mem := t.mem, tally := t.tally, fresh := t.fresh }

theorem SameRest.trans {s t u : State} (h : SameRest s t) (h' : SameRest t u) : SameRest s u := by
  unfold SameRest at *
  rw [h', h]

theorem tally_other (s : State) (a n k : Nat) (h : k ≠ a) : sget 0 (tallyAdd s a n).tally k = sget 0 s.tally k := by
  simp [tallyAdd, h]

/-- The stores of the bundle done. -/
def storedState (s : State) (g : CoreId) (b : Bundle) : State :=
  (bundleStores s g b).foldl (fun u p => u.setBytes p.1 p.2) (readState s g b)

theorem readState_shape : readState s g b = { s with cores := (heldState s g b).cores, fresh := (readState s g b).fresh } := by
  unfold readState
  split <;> rfl

theorem readState_core (g' : CoreId) : (readState s g b).core g' = if g' = g then heldCore s g b else s.core g' := by
  unfold readState
  split <;> exact State.setCore_core ..

theorem storedState_shape : storedState s g b =
    { s with cores := (heldState s g b).cores, fresh := (readState s g b).fresh, mem := (storedState s g b).mem } := by
  unfold storedState
  generalize hx : (bundleStores s g b).foldl (fun u p => u.setBytes p.1 p.2) (readState s g b) = x
  have h1 : x = { readState s g b with mem := x.mem } := by
    rw [← hx]
    exact stores_shape ..
  generalize x.mem = m at h1
  rw [h1]
  rw [readState_shape]

theorem storedState_core (g' : CoreId) : (storedState s g b).core g' = if g' = g then heldCore s g b else s.core g' := by
  rw [← readState_core]
  unfold storedState
  rw [stores_shape]
  rfl

theorem storedState_byte (a : Nat) : (storedState s g b).byte a = byteAfter s (bundleStores s g b) a := by
  unfold storedState byteAfter State.byte
  rw [stores_mem (s := readState s g b) (t := s) (by rw [readState_shape])]

theorem coreStores_bundle (r : Ready s g b) : coreStores (readState s g b) g
    ((opStores (heldCore s g b) b.a ++ opStores (heldCore s g b) b.b) ++ opStores (heldCore s g b) b.d) = storedState s g b := by
  have hs : ∀ o, opStores (heldCore s g b) o = opStores (s.core g) o := fun o => rfl
  rw [hs, hs, hs]
  refine coreStores_own (s := s) (by rw [readState_shape]; exact r.par) (by rw [readState_core, if_pos rfl]; rfl)
    (by rw [readState_shape]) _ ?_
  intro p hp
  have mem : ∀ n ∈ memSlots, p ∈ opStores (s.core g) (slotOp b n) → ownBlock s g (p.1 &&& 0xFFFFFFC0) = true := by
    intro n hn hq
    refine r.own n hn _ ?_
    unfold opBlocks
    exact List.mem_append.mpr (Or.inr (List.mem_map.mpr ⟨p, hq, rfl⟩))
  rw [List.mem_append, List.mem_append] at hp
  rcases hp with (hp | hp) | hp
  · exact mem 0 (by decide) hp
  · exact mem 1 (by decide) hp
  · exact mem 3 (by decide) hp

/-- Counters, the coprocessor operation and the core done. -/
theorem slotD_done (r : Ready s g b) (s3 : State) (h3 : s3 = tallyAdd ((storedState s g b).setCore g (newCore s g b)) (coreRegs g + 0x100) 1)
    (s4 : State) (h4 : s4 = match b.d with
      | .cp sl op f => cpCommit s3 (heldCore s g b) g sl op f (slotGot s g b 3)
      | _ => s3) :
    s4.core g = afterCore s g b ∧ (∀ g' : CoreId, g' ≠ g → s4.core g' = s.core g') ∧ s4.mem = (storedState s g b).mem ∧
      (∀ a : Nat, a ≠ coreRegs g + 0x100 → sget 0 s4.tally a = sget 0 s.tally a) ∧ SameRest s s4 := by
  have c3 : s3.core g = newCore s g b := by rw [h3, tallyAdd_core, State.setCore_core, if_pos rfl]
  have o3 : ∀ g' : CoreId, g' ≠ g → s3.core g' = s.core g' := by
    intro g' hg
    rw [h3, tallyAdd_core, State.setCore_core, if_neg hg, storedState_core, if_neg hg]
  have m3 : s3.mem = (storedState s g b).mem := by rw [h3]; rfl
  have t3 : ∀ a : Nat, a ≠ coreRegs g + 0x100 → sget 0 s3.tally a = sget 0 s.tally a := by
    intro a ha
    rw [h3, tally_other _ _ _ _ ha]
    show sget 0 (storedState s g b).tally a = _
    rw [storedState_shape]
  have r3 : SameRest s s3 := by
    have h0 : SameRest s (storedState s g b) := by
      have h := storedState_shape (s := s) (g := g) (b := b)
      unfold SameRest
      generalize storedState s g b = x at h
      generalize (heldState s g b).cores = c, (readState s g b).fresh = f, x.mem = m at h
      rw [h]
    rw [h3]
    exact h0.trans rfl
  have fin : s3.asy.inj = [] := by
    rw [r3]
    exact r.inj
  obtain ⟨_, k1, k2, k3, k4⟩ := newCore_keeps (s := s) (g := g) (b := b)
  unfold afterCore
  split at h4
  · rename_i sl op f hd
    have hbad : ((s3.core g).port sl).bad = [] := by
      rw [c3]
      unfold Core.port
      rw [k3, k4]
      cases sl
      · exact r.bad0
      · exact r.bad1
    obtain ⟨p1, p2, p3⟩ := cpCommit_clean fin (heldCore s g b) sl op f (slotGot s g b 3) hbad
    subst h4
    refine ⟨by rw [p1, c3], fun g' hg => by rw [p2 g' hg, o3 g' hg], by rw [p3]; exact m3, ?_, ?_⟩
    · intro a ha
      rw [p3]
      exact t3 a ha
    · refine r3.trans ?_
      unfold SameRest
      conv => lhs; rw [p3]
      rw [p3]
  · rename_i hd
    subst h4
    refine ⟨?_, o3, m3, t3, r3⟩
    rw [c3]

/-- The counters of guard overflow, WAIT and the boundary behind the commit. -/
theorem tail_done (r : Ready s g b) (s3 : State)
    (h3 : s3 = tallyAdd ((storedState s g b).setCore g (newCore s g b)) (coreRegs g + 0x100) 1) (s4 : State)
    (h4 : s4 = match b.d with
      | .cp sl op f => cpCommit s3 (heldCore s g b) g sl op f (slotGot s g b 3)
      | _ => s3) (nw : BitVec 8) (w : Nat) (s5 : State) (h5 : s5 = if nw = 0 then s4 else tallyAdd s4 (coreRegs g + 0x120) w) :
    Committed s g b (boundary (if b.d = .wait ∧ (intChoice s5 g).isNone = true then s5.updCore g (fun c => { c with st := .wait }) else s5) g) := by
  obtain ⟨q1, q2, q3, q4, q5⟩ := slotD_done r s3 h3 s4 h4
  have f1 : s5.core g = afterCore s g b := by rw [h5]; split <;> exact q1
  have f2 : ∀ g' : CoreId, g' ≠ g → s5.core g' = s.core g' := by rw [h5]; split <;> exact q2
  have f3 : s5.mem = (storedState s g b).mem := by rw [h5]; split <;> exact q3
  have f4 : ∀ a : Nat, a ≠ coreRegs g + 0x100 → a ≠ coreRegs g + 0x120 → sget 0 s5.tally a = sget 0 s.tally a := by
    intro a ha hb
    rw [h5]
    split
    · exact q4 a ha
    · rw [tally_other _ _ _ _ hb]
      exact q4 a ha
  have f5 : SameRest s s5 := by
    rw [h5]
    split
    · exact q5
    · exact q5.trans rfl
  have fh : (s5.core g).haltReq = false := by
    rw [f1]
    have := (newCore_keeps (s := s) (g := g) (b := b)).1
    unfold afterCore
    split
    · rw [(cpNext_keeps ..).haltReq, this, r.noHalt]
    · rw [this, r.noHalt]
  have fb : ∀ a, s5.byte a = byteAfter s (bundleStores s g b) a := by
    intro a
    rw [← storedState_byte]
    unfold State.byte
    rw [f3]
  by_cases hw : b.d = .wait ∧ (intChoice s5 g).isNone = true
  · rw [if_pos hw]
    have hi : intChoice (s5.updCore g (fun c => { c with st := .wait })) g = intChoice s5 g := by
      unfold intChoice intPending faultTval
      simp only [State.updCore, State.setCore_core, if_true]
      rfl
    have hbd : boundary (s5.updCore g (fun c => { c with st := .wait })) g = s5.updCore g (fun c => { c with st := .wait }) := by
      unfold boundary
      simp only [State.updCore, State.setCore_core, if_true]
      rw [if_neg (by simp [fh])]
    rw [hbd]
    refine ⟨Or.inr ⟨hw.1, by rw [hi]; exact hw.2, ?_⟩, ?_, ?_, fb, f4, f5.trans rfl⟩
    · simp only [State.updCore, State.setCore_core, if_true]
      rw [f1]
    · intro _ _
      simp only [State.updCore, State.setCore_core, if_true]
    · intro g' hg'
      simp only [State.updCore, State.setCore_core, if_neg hg']
      exact f2 g' hg'
  · rw [if_neg hw]
    have hbd : boundary s5 g = s5 := by
      unfold boundary
      dsimp only
      rw [if_neg (by simp [fh])]
    rw [hbd]
    exact ⟨Or.inl f1, fun ha hb => absurd ⟨ha, hb⟩ hw, f2, fb, f4, f5⟩

theorem runBundle_committed (h : executes s g b = true) : Committed s g b (runBundle s g b) := by
  have r := executes_ready h
  rw [runBundle_commit h]
  have hb : (heldOf s b).bundle = b := rfl
  have hc : (heldState s g b).core g = heldCore s g b := heldState_core
  have h2 : (storedState s g b).core g = heldCore s g b := by rw [storedState_core, if_pos rfl]
  have hg : scfGte (heldCore s g b).r.scf = false := r.gte
  unfold commit
  dsimp only
  rw [readAll_held r, hb, hc]
  dsimp only
  rw [coreStores_bundle r, h2, hg]
  rw [if_neg (by simp)]
  exact tail_done r _ rfl _ rfl _ _ _ rfl

/-! ### The frame -/

theorem notMtc_of (r : Ready s g b) (h : isMtc b.d = false) : ∀ k < 4, isMtc (slotOp b k) = false := by
  obtain ⟨ha, hb, hc, _, _⟩ := noConflict_of r
  intro k hk
  have : k = 0 ∨ k = 1 ∨ k = 2 ∨ k = 3 := by omega
  rcases this with rfl | rfl | rfl | rfl
  · show isMtc b.a = false
    cases hx : b.a <;> first | rfl | (rw [hx] at ha; exact Bool.noConfusion (ha : false = true))
  · show isMtc b.b = false
    cases hx : b.b <;> first | rfl | (rw [hx] at hb; exact Bool.noConfusion (hb : false = true))
  · show isMtc b.c = false
    cases hx : b.c <;> first | rfl | (rw [hx] at hc; exact Bool.noConfusion (hc : false = true))
  · exact h

/-- Without MTC the effects of a bundle on the core are on data registers other than SCF. -/
theorem bundleEff_only (r : Ready s g b) (h : isMtc b.d = false) : RegsOnly (heldCore s g b) (bundleEff s g b).c := by
  have hm := notMtc_of r h
  have step : ∀ k < 4, ∀ e : Eff, RegsOnly (heldCore s g b) e.c → RegsOnly (heldCore s g b) (slotEff s g b k e).c := by
    intro k hk e ⟨r1, h1, h2⟩
    obtain ⟨r2, h3, h4⟩ := opEff_only (e := e) (old := heldCore s g b) (got := gotAt s g b k) (q := []) (hm k hk)
    refine ⟨r2, ?_, ?_⟩
    · unfold slotEff
      rw [h3, h1]
    · rw [h4, h1]
      exact h2
  exact step 3 (by omega) _ (step 2 (by omega) _ (step 1 (by omega) _ (step 0 (by omega) _ ⟨_, rfl, rfl⟩)))

theorem bundleEff_flags : (bundleEff s g b).flags = 0 := by
  have hg : ∀ k, (gotAt s g b k).flags = 0 := by
    intro k
    unfold gotAt
    split <;> rfl
  unfold bundleEff slotEff
  rw [opEff_flags, opEff_flags, opEff_flags, opEff_flags, hg, hg, hg, hg]
  show (0 : Word) ||| 0 ||| 0 ||| 0 ||| 0 = 0
  decide

theorem bundleEff_auto (h : (bundleOps b).any (usesAuto (s.core g).r.scf) = false) : (bundleEff s g b).auto = none := by
  simp only [bundleOps, List.any_cons, List.any_nil, Bool.or_false, Bool.or_eq_false_iff] at h
  unfold bundleEff slotEff
  have ha := fun k (hk : usesAuto (heldCore s g b).r.scf (slotOp b k) = false) e =>
    opEff_auto (old := heldCore s g b) (got := gotAt s g b k) (q := []) (e := e) hk
  rw [ha 3 h.2.2.2, ha 2 h.2.2.1, ha 1 h.2.1, ha 0 h.1]
  rfl

theorem bundleEff_acst (h : (bundleOps b).any touchesAcst = false) : (bundleEff s g b).govSet = 0 ∧ (bundleEff s g b).govClr = 0 ∧
    (bundleEff s g b).qsat = false := by
  simp only [bundleOps, List.any_cons, List.any_nil, Bool.or_false, Bool.or_eq_false_iff] at h
  unfold bundleEff slotEff
  obtain ⟨a1, a2, a3⟩ := opEff_acst (old := heldCore s g b) (got := gotAt s g b 0) (q := []) (o := slotOp b 0) (e := effStart s g b) h.1
  obtain ⟨b1, b2, b3⟩ := opEff_acst (old := heldCore s g b) (got := gotAt s g b 1) (q := []) (o := slotOp b 1)
    (e := opEff (heldCore s g b) (gotAt s g b 0) [] (slotOp b 0) (effStart s g b)) h.2.1
  obtain ⟨c1, c2, c3⟩ := opEff_acst (old := heldCore s g b) (got := gotAt s g b 2) (q := []) (o := slotOp b 2)
    (e := opEff (heldCore s g b) (gotAt s g b 1) [] (slotOp b 1) (opEff (heldCore s g b) (gotAt s g b 0) [] (slotOp b 0) (effStart s g b)))
    h.2.2.1
  rw [(opEff_acst (o := slotOp b 3) h.2.2.2).1, (opEff_acst (o := slotOp b 3) h.2.2.2).2.1, (opEff_acst (o := slotOp b 3) h.2.2.2).2.2,
    c1, c2, c3, b1, b2, b3, a1, a2, a3]
  exact ⟨rfl, rfl, rfl⟩

theorem notMtc_of_ctl (h : touchesCtl o = false) : isMtc o = false ∧ o ≠ .rti ∧ ∀ sl op f, o ≠ .cp sl op f := by
  cases o <;> first
    | exact Bool.noConfusion (h : true = false)
    | exact ⟨rfl, nofun, nofun⟩

theorem notMtc_of_flow (h : touchesFlow o = false) : isMtc o = false := by
  cases o <;> first
    | exact Bool.noConfusion (h : true = false)
    | rfl

theorem afterCore_value (n : RegName) : n.value (afterCore s g b).r = n.value (bundleEff s g b).c.r := by
  rw [← newCore_value]
  unfold afterCore
  split
  · rw [(cpNext_keeps ..).r]
  · rfl

theorem afterCore_plain (h : ∀ sl op f, b.d ≠ .cp sl op f) : afterCore s g b = newCore s g b := by
  unfold afterCore
  split
  · rename_i hd
    exact absurd hd (h _ _ _)
  · rfl

/-- The core behind a bundle whose slot D changes no control register and no coprocessor. -/
theorem newCore_ctl (r : Ready s g b) (h : touchesCtl b.d = false) : (newCore s g b).c = { (s.core g).c with acst := (newCore s g b).c.acst } ∧
    (newCore s g b).t0 = (s.core g).t0 ∧ (newCore s g b).t1 = (s.core g).t1 := by
  obtain ⟨hm, hr, _⟩ := notMtc_of_ctl h
  obtain ⟨x, h1, _⟩ := bundleEff_only r hm
  have hc : (newCore s g b).c = (effCore (bundleEff s g b)).c := flow_ctl hr _ _
  obtain ⟨pc, l, cc, hf⟩ := flow_shape (heldCore s g b) (effCore (bundleEff s g b)) b.d
  refine ⟨?_, ?_, ?_⟩
  · rw [hc]
    unfold effCore
    dsimp only
    rw [h1, bundleEff_flags]
    simp [heldCore]
  · unfold newCore
    rw [hf]
    show (bundleEff s g b).c.t0 = _
    rw [h1]
    rfl
  · unfold newCore
    rw [hf]
    show (bundleEff s g b).c.t1 = _
    rw [h1]
    rfl

theorem newCore_flow (r : Ready s g b) (h : touchesFlow b.d = false) :
    (newCore s g b).pc = (fallThrough (s.core g)).pc ∧ (newCore s g b).loops = (fallThrough (s.core g)).loops := by
  obtain ⟨x, h1, _⟩ := bundleEff_only r (notMtc_of_flow h)
  unfold newCore
  rw [flow_plain h]
  have hp : (effCore (bundleEff s g b)).pc = (s.core g).pc := by
    show (bundleEff s g b).c.pc = _
    rw [h1]
    rfl
  have hl : (effCore (bundleEff s g b)).loops = (s.core g).loops := by
    show (bundleEff s g b).c.loops = _
    rw [h1]
    rfl
  unfold fallThrough
  dsimp only
  rw [hp, hl]
  exact ⟨rfl, rfl⟩

theorem newCore_scf (r : Ready s g b) (h : touchesCtl b.d = false) (ha : (bundleOps b).any (usesAuto (s.core g).r.scf) = false) :
    (newCore s g b).r.scf = (s.core g).r.scf := by
  obtain ⟨x, h1, h2⟩ := bundleEff_only r (notMtc_of_ctl h).1
  unfold newCore
  obtain ⟨pc, l, cc, hf⟩ := flow_shape (heldCore s g b) (effCore (bundleEff s g b)) b.d
  rw [hf]
  show (effCore (bundleEff s g b)).r.scf = _
  unfold effCore
  dsimp only
  rw [bundleEff_auto ha, h1]
  exact h2

theorem newCore_acst (r : Ready s g b) (h : touchesCtl b.d = false) (ha : (bundleOps b).any touchesAcst = false) :
    (newCore s g b).c.acst = (s.core g).c.acst := by
  obtain ⟨hm, hr, _⟩ := notMtc_of_ctl h
  obtain ⟨x, h1, _⟩ := bundleEff_only r hm
  have hc : (newCore s g b).c = (effCore (bundleEff s g b)).c := flow_ctl hr _ _
  obtain ⟨a1, a2, a3⟩ := bundleEff_acst (s := s) (g := g) ha
  rw [hc]
  unfold effCore
  dsimp only
  rw [a1, a2, a3, h1]
  simp only [heldCore, Bool.false_eq_true, if_false, Nat.add_zero, BitVec.or_zero, BitVec.not_zero, BitVec.and_allOnes]

/-- A bundle that executes keeps to its frame. -/
theorem executes_frame (h : executes s g b = true) : BundleFrame s g b (runBundle s g b) := by
  have r := executes_ready h
  obtain ⟨q1, q2, q3, q4, q5, q6⟩ := runBundle_committed h
  generalize runBundle s g b = t at *
  have hx : ∃ st, t.core g = { afterCore s g b with st := st } ∧ (b.d ≠ .wait → st = .running) := by
    have hst : (afterCore s g b).st = .running := by
      unfold afterCore
      split
      · rw [(cpNext_keeps ..).st]
        rfl
      · rfl
    rcases q1 with q | ⟨hw, _, q⟩
    · exact ⟨(afterCore s g b).st, by rw [q], fun _ => hst⟩
    · exact ⟨.wait, q, fun hn => absurd hw hn⟩
  obtain ⟨st, hc, hst⟩ := hx
  have hcp : ∀ P : Core → Prop, (∀ d, CpKeeps (newCore s g b) d → P d) → P (afterCore s g b) := by
    intro P hP
    unfold afterCore
    split
    · exact hP _ (cpNext_keeps ..)
    · exact hP _ (CpKeeps.refl _)
  refine ⟨?_, ?_, ?_, ?_, ?_, ?_, ?_, ?_, q3, q4, q5, q6⟩
  · intro n hn
    rw [hc]
    exact (afterCore_value n).trans (bundleEff_other hn)
  · intro hd ha
    rw [hc, afterCore_plain (notMtc_of_ctl hd).2.2]
    exact newCore_scf r hd ha
  · intro hd ha
    rw [hc, afterCore_plain (notMtc_of_ctl hd).2.2]
    exact newCore_acst r hd ha
  · intro hd
    rw [hc, afterCore_plain (notMtc_of_ctl hd).2.2]
    exact (newCore_ctl r hd).1
  · intro hd
    rw [hc, afterCore_plain (notMtc_of_ctl hd).2.2]
    exact (newCore_ctl r hd).2
  · intro hd
    rw [hc, afterCore_plain (notMtc_of_ctl hd).2.2]
    exact newCore_keeps.2
  · intro hd
    rw [hc]
    obtain ⟨n1, n2⟩ := newCore_flow r hd
    exact hcp (fun d => d.pc = _ ∧ d.loops = _) (fun d k => ⟨k.pc.trans n1, k.loops.trans n2⟩)
  · rw [hc]
    refine ⟨?_, ?_, hst⟩
    · exact hcp (fun d => d.held = none) (fun d k => k.held)
    · exact hcp (fun d => d.haltReq = false) (fun d k => k.haltReq.trans (newCore_keeps.1.trans r.noHalt))

/-- What the operation of slot k gives to a register it names, from the registers before the bundle. -/
def slotValue (s : State) (g : CoreId) (b : Bundle) (k : Nat) (n : RegName) : Nat := n.value (slotEff s g b k (effStart s g b)).c.r

theorem executes_value (h : executes s g b = true) {k : Nat} (hk : k < 4) {n : RegName} (hn : n ∈ opWrites (slotOp b k)) :
    n.value ((runBundle s g b).core g).r = slotValue s g b k n := by
  have r := executes_ready h
  unfold slotValue
  rw [← bundleEff_value r hk hn, ← afterCore_value]
  rcases (runBundle_committed h).core with q | ⟨_, _, q⟩
  · rw [q]
  · rw [q]

theorem does_of {P : State → Prop} (h : executes s g b = true) (hP : P (runBundle s g b)) : Does s g b (.next (runBundle s g b)) P :=
  ⟨_, rfl, executes_frame h, hP⟩

/-- The core behind the bundle. -/
theorem executes_core (h : executes s g b = true) (hw : b.d ≠ .wait) : (runBundle s g b).core g = afterCore s g b := by
  rcases (runBundle_committed h).core with q | ⟨q, _⟩
  · exact q
  · exact absurd q hw

/-- A named register behind the bundle: what the operation of its slot gives. -/
theorem executes_getS (h : executes s g b = true) {k : Nat} (hk : k < 4) {i : BitVec 5} (hn : RegName.s i ∈ opWrites (slotOp b k)) :
    ((runBundle s g b).core g).r.getS i = (slotEff s g b k (effStart s g b)).c.r.getS i :=
  BitVec.eq_of_toNat_eq (executes_value h hk hn)
theorem executes_getA (h : executes s g b = true) {k : Nat} (hk : k < 4) {i : BitVec 4} (hn : RegName.a i ∈ opWrites (slotOp b k)) :
    ((runBundle s g b).core g).r.getA i = (slotEff s g b k (effStart s g b)).c.r.getA i :=
  BitVec.eq_of_toNat_eq (executes_value h hk hn)
theorem executes_getN (h : executes s g b = true) {k : Nat} (hk : k < 4) {i : BitVec 4} (hn : RegName.n i ∈ opWrites (slotOp b k)) :
    ((runBundle s g b).core g).r.getN i = (slotEff s g b k (effStart s g b)).c.r.getN i :=
  BitVec.eq_of_toNat_eq (executes_value h hk hn)
theorem executes_getV (h : executes s g b = true) {k : Nat} (hk : k < 4) {i : BitVec 5} (hn : RegName.v i ∈ opWrites (slotOp b k)) :
    ((runBundle s g b).core g).r.getV i = (slotEff s g b k (effStart s g b)).c.r.getV i :=
  BitVec.eq_of_toNat_eq (executes_value h hk hn)
theorem executes_getAc (h : executes s g b = true) {k : Nat} (hk : k < 4) {i : BitVec 3} (hn : RegName.ac i ∈ opWrites (slotOp b k)) :
    ((runBundle s g b).core g).r.getAc i = (slotEff s g b k (effStart s g b)).c.r.getAc i :=
  BitVec.eq_of_toNat_eq (executes_value h hk hn)

/-! ### Sticky bits and the block exponent -/

/-- What an effect marks besides registers. -/
def marks (e : Eff) : Nat × Nat × Bool × Option Int := (e.govSet, e.govClr, e.qsat, e.auto)

theorem marks_effPost (old : Core) (o : Op) (e : Eff) : marks (effPost old o e) = marks e := by
  obtain ⟨h1, h2, h3, h4, _⟩ := effPost_marks old o e
  unfold marks
  rw [h1, h2, h3, h4]

theorem opEff_marks_congr {e e' : Eff} {got : Got} {q : List Byte} (h : marks e = marks e') :
    marks (opEff old got q o e) = marks (opEff old got q o e') := by
  have hm : ∀ x : Eff, marks x = marks e' → marks (effPost old o { x with flags := x.flags ||| got.flags }) = marks e' :=
    fun x hx => (marks_effPost ..).trans hx
  have h1 := (hm e h).trans (hm e' rfl).symm
  unfold opEff
  generalize effPost old o { e with flags := e.flags ||| got.flags } = x at h1 ⊢
  generalize effPost old o { e' with flags := e'.flags ||| got.flags } = y at h1 ⊢
  simp only [marks, Prod.mk.injEq] at h1 ⊢
  obtain ⟨a1, a2, a3, a4⟩ := h1
  cases o
  case cp sl op f =>
    dsimp only [Eff.regs]
    split
    · exact ⟨a1, a2, a3, a4⟩
    · split <;> exact ⟨a1, a2, a3, a4⟩
  case vsta v =>
    dsimp only
    generalize (vstaMove old v).2.2 = z
    cases z <;> simp only [addAuto, a1, a2, a3, a4, and_self]
  case acmv vd acs sm sh =>
    dsimp only [Eff.vec, Eff.regs]
    generalize (scaledMove old.r.scf sm sh (old.r.getAc acs)).2.2 = z
    cases z <;> simp only [addAuto, a1, a2, a3, a4, and_self]
  all_goals
    simp only [Eff.regs, Eff.vec, a1, a2, a3, a4, and_self]

/-- Operations of slot D change no sticky bit and no block exponent. -/
theorem slotD_marks (h : slotHas 3 o = true) : touchesAcst o = false ∧ ∀ scf, usesAuto scf o = false := by
  cases o <;> first
    | exact Bool.noConfusion (h : false = true)
    | exact ⟨rfl, fun _ => rfl⟩

theorem usesAuto_touches (scf : Word) (h : touchesAcst o = false) : usesAuto scf o = false := by
  cases o <;> first
    | exact Bool.noConfusion (h : true = false)
    | rfl

theorem opEff_noMarks {got : Got} {q : List Byte} (h : touchesAcst o = false) : marks (opEff old got q o e) = marks e := by
  obtain ⟨h1, h2, h3⟩ := opEff_acst (old := old) (got := got) (q := q) (e := e) h
  unfold marks
  rw [h1, h2, h3, opEff_auto (usesAuto_touches old.r.scf h)]

/-- Without scaled stores slot C alone decides the sticky bits and the block exponent. -/
theorem bundleEff_slotC (r : Ready s g b) (ha : touchesAcst b.a = false) (hb : touchesAcst b.b = false) :
    marks (bundleEff s g b) = marks (slotEff s g b 2 (effStart s g b)) := by
  have hd := (slotD_marks (noConflict_of r).2.2.2.1).1
  unfold bundleEff
  unfold slotEff
  rw [opEff_noMarks (o := slotOp b 3) hd]
  apply opEff_marks_congr
  rw [opEff_noMarks (o := slotOp b 1) hb, opEff_noMarks (o := slotOp b 0) ha]

theorem acst_word (r : Ready s g b) (h : touchesCtl b.d = false) : (newCore s g b).c.acst =
    ((s.core g).c.acst &&& ~~~(BitVec.ofNat 9 (bundleEff s g b).govClr)) |||
      BitVec.ofNat 9 ((bundleEff s g b).govSet + if (bundleEff s g b).qsat then 256 else 0) := by
  obtain ⟨hm, hr, _⟩ := notMtc_of_ctl h
  obtain ⟨x, h1, _⟩ := bundleEff_only r hm
  have hc : (newCore s g b).c = (effCore (bundleEff s g b)).c := flow_ctl hr _ _
  rw [hc]
  unfold effCore
  dsimp only
  rw [h1]
  rfl

/-- CORE_ACST behind a bundle without scaled stores, from what slot C marks. -/
theorem executes_acst (h : executes s g b = true) (hd : touchesCtl b.d = false) (ha : touchesAcst b.a = false) (hb : touchesAcst b.b = false)
    (n : Nat) (hn : n < 9) (k x : Bool) (hm : BitVec.ofNat 9 (slotEff s g b 2 (effStart s g b)).govClr = if k then BitVec.twoPow 9 n else 0)
    (hx : BitVec.ofNat 9 ((slotEff s g b 2 (effStart s g b)).govSet + if (slotEff s g b 2 (effStart s g b)).qsat then 256 else 0) =
      if x then BitVec.twoPow 9 n else 0) : acstBit s (runBundle s g b) g n k x := by
  have r := executes_ready h
  have hq : ((runBundle s g b).core g).c.acst = (newCore s g b).c.acst := by
    have := afterCore_plain (s := s) (g := g) (notMtc_of_ctl hd).2.2
    rcases (runBundle_committed h).core with q | ⟨_, _, q⟩ <;> rw [q, this]
  have hs := bundleEff_slotC r ha hb
  simp only [marks, Prod.mk.injEq] at hs
  intro i hi
  rw [hq, acst_word r hd, hs.1, hs.2.1, hs.2.2.1, hm, hx]
  have h9 : ∀ j : Nat, (hj : j < 9) → (511#9)[j] = true := by decide
  have h9i := h9 i hi
  by_cases hin : i = n
  · subst hin
    cases k <;> cases x <;> simp [hi, h9i]
  · cases k <;> cases x <;> simp [hi, hin, h9i]

/-- The block exponent behind a bundle without scaled stores whose slot C applies AUTO. -/
theorem executes_exp (h : executes s g b = true) (hd : touchesCtl b.d = false) (ha : touchesAcst b.a = false) (hb : touchesAcst b.b = false)
    (d : Int) (hm : (slotEff s g b 2 (effStart s g b)).auto = some d) :
    ((runBundle s g b).core g).r.scf = scfWithExp (s.core g).r.scf (addExp (scfExp (s.core g).r.scf) d) := by
  have r := executes_ready h
  have hq : ((runBundle s g b).core g).r = (newCore s g b).r := by
    have := afterCore_plain (s := s) (g := g) (notMtc_of_ctl hd).2.2
    rcases (runBundle_committed h).core with q | ⟨_, _, q⟩ <;> rw [q, this]
  have hs := bundleEff_slotC r ha hb
  simp only [marks, Prod.mk.injEq] at hs
  obtain ⟨x, h1, h2⟩ := bundleEff_only r (notMtc_of_ctl hd).1
  rw [hq]
  unfold newCore
  obtain ⟨pc, l, cc, hf⟩ := flow_shape (heldCore s g b) (effCore (bundleEff s g b)) b.d
  rw [hf]
  show (effCore (bundleEff s g b)).r.scf = _
  unfold effCore
  dsimp only
  rw [hs.2.2.2, hm, h1]
  dsimp only
  rw [h2]
  rfl

theorem scfExp_with (scf : Word) (e : Int) : scfExp (scfWithExp scf e) = (BitVec.ofInt 16 e).toInt := by
  unfold scfExp scfWithExp
  congr 1
  have hw : wrapTo 16 e % 2 ^ 16 = wrapTo 16 e := by
    unfold wrapTo
    omega
  apply BitVec.eq_of_toNat_eq
  simp only [slice, packLE, BitVec.toNat_ofNat, BitVec.toNat_ofInt]
  have : (e % ((2 ^ 16 : Nat) : Int)).toNat = wrapTo 16 e := by unfold wrapTo; norm_cast
  rw [this]
  omega

/-! ### Loads and stores -/

theorem mask_toNat (x : Word) : (x &&& 0xFFFFFFC0).toNat = x.toNat / 64 * 64 := by
  have hm : ∀ i : Nat, i < 32 → (0xFFFFFFC0#32).getLsbD i = decide (6 ≤ i) := by decide
  have h : x &&& 0xFFFFFFC0#32 = (x >>> 6) <<< 6 := by
    apply BitVec.eq_of_getLsbD_eq
    intro i hi
    rw [BitVec.getLsbD_and, hm i hi, BitVec.getLsbD_shiftLeft, BitVec.getLsbD_ushiftRight]
    by_cases h6 : i < 6
    · have : ¬ 6 ≤ i := by omega
      simp [h6, this]
    · have h7 : 6 ≤ i := by omega
      have h8 : 6 + (i - 6) = i := by omega
      simp [h6, h7, h8, hi]
  show (x &&& 0xFFFFFFC0#32).toNat = _
  rw [h, BitVec.toNat_shiftLeft, BitVec.toNat_ushiftRight, Nat.shiftLeft_eq, Nat.shiftRight_eq_div_pow]
  have := x.isLt
  omega

/-- Byte i from an address, in the block that the address begins in. -/
theorem ownAddr_first (a : Word) (i : Nat) (h : a.toNat % 64 + i < 64) :
    (a + BitVec.ofNat 32 i) &&& 0xFFFFFFC0 = BitVec.ofNat 32 (a.toNat - a.toNat % 64) ∧ (a + BitVec.ofNat 32 i).toNat % 64 = i + a.toNat % 64 := by
  have ha := a.isLt
  have hn : (a + BitVec.ofNat 32 i).toNat = a.toNat + i := by
    rw [BitVec.toNat_add, BitVec.toNat_ofNat]
    omega
  refine ⟨?_, by rw [hn]; omega⟩
  apply BitVec.eq_of_toNat_eq
  rw [mask_toNat, hn, BitVec.toNat_ofNat]
  omega

/-- Byte i from an address, in the block behind the one that the address begins in. -/
theorem ownAddr_second (a : Word) (i : Nat) (h : 64 ≤ a.toNat % 64 + i) (h' : i < 64) :
    (a + BitVec.ofNat 32 i) &&& 0xFFFFFFC0 = BitVec.ofNat 32 (a.toNat - a.toNat % 64) + 64 ∧
      (a + BitVec.ofNat 32 i).toNat % 64 = a.toNat % 64 + i - 64 := by
  have ha := a.isLt
  have hn : (a + BitVec.ofNat 32 i).toNat = (a.toNat + i) % 2 ^ 32 := by
    rw [BitVec.toNat_add, BitVec.toNat_ofNat]
    omega
  have h64 : (64 : Word).toNat = 64 := rfl
  refine ⟨?_, by rw [hn]; omega⟩
  apply BitVec.eq_of_toNat_eq
  rw [mask_toNat, hn, BitVec.toNat_add, BitVec.toNat_ofNat, h64]
  omega

theorem ownAddr_eq (s : State) (g : CoreId) (a blk : Word) (o : Nat) (h : a &&& 0xFFFFFFC0 = blk ∧ a.toNat % 64 = o)
    (ho : ownBlock s g blk = true) : ownAddr s g a = (match blkAt s g blk with | .own _ pa => pa | _ => 0) + o := by
  unfold ownAddr
  unfold ownBlock at ho
  rw [h.1, h.2]
  cases hk : blkAt s g blk with
  | own m pa => rfl
  | fab pa => rw [hk] at ho; cases ho
  | bad o w => rw [hk] at ho; cases ho

/-- Reads of the pieces of n bytes bring the bytes from the address, in order (R13, R49). -/
theorem gotNat_span (s : State) (g : CoreId) (a : Word) (n : Nat) (hn : n ≤ 64)
    (ho : ∀ p ∈ spanPieces a n, ownBlock s g p.blk = true) : gotNat (gotOwn s g (spanPieces a n)) = loaded s g a n := by
  unfold gotNat loaded gotOwn pieceBytes
  congr 1
  unfold spanPieces at ho ⊢
  dsimp only at ho ⊢
  by_cases h : a.toNat % 64 + n ≤ 64
  · rw [if_pos h] at ho ⊢
    have ho1 := ho _ (List.mem_singleton.mpr rfl)
    simp only [List.flatMap_cons, List.flatMap_nil, List.append_nil, List.map_map]
    apply List.map_congr_left
    intro i hi
    have hi' := List.mem_range.mp hi
    rw [ownAddr_eq s g _ _ _ (ownAddr_first a i (by omega)) ho1]
    rfl
  · rw [if_neg h] at ho ⊢
    have ho1 := ho _ (List.mem_cons_self ..)
    have ho2 := ho _ (List.mem_cons_of_mem _ (List.mem_singleton.mpr rfl))
    simp only [List.flatMap_cons, List.flatMap_nil, List.append_nil, List.map_append, List.map_map]
    have hsplit : List.range n = List.range (64 - a.toNat % 64) ++ (List.range (a.toNat % 64 + n - 64)).map (fun i => 64 - a.toNat % 64 + i) := by
      have : n = (64 - a.toNat % 64) + (a.toNat % 64 + n - 64) := by omega
      conv => lhs; rw [this, List.range_add]
    rw [hsplit, List.map_append, List.map_map]
    congr 1
    · apply List.map_congr_left
      intro i hi
      have hi' := List.mem_range.mp hi
      rw [ownAddr_eq s g _ _ _ (ownAddr_first a i (by omega)) ho1]
      rfl
    · apply List.map_congr_left
      intro i hi
      have hi' := List.mem_range.mp hi
      have hx : a.toNat % 64 + (64 - a.toNat % 64 + i) - 64 = i := by omega
      have := ownAddr_second a (64 - a.toNat % 64 + i) (by omega) (by omega)
      rw [hx] at this
      simp only [Function.comp]
      rw [ownAddr_eq s g _ _ _ this ho2]
      all_goals rfl

/-- What a load of slot k brings, as a number. -/
theorem gotNat_load (r : Ready s g b) {k : Nat} (hk : k ∈ memSlots) {a : Word} {n : Nat} (hn : n ≤ 64)
    (hr : opReads (s.core g) (slotOp b k) = spanPieces a n) : gotNat (gotAt s g b k) = loaded s g a n := by
  have h2 : k ≠ 2 := by rintro rfl; exact absurd hk (by decide)
  unfold gotAt
  rw [if_neg h2]
  unfold slotGot
  rw [hr]
  apply gotNat_span s g a n hn
  intro p hp
  apply r.own k hk
  unfold opBlocks
  rw [hr]
  exact List.mem_append.mpr (Or.inl (List.mem_map.mpr ⟨p, hp, rfl⟩))

/-! ### Bytes stored -/

theorem setBytes_byte (s : State) (p : Nat) (d : List Byte) (a : Nat) :
    (s.setBytes p d).byte a = if p ≤ a ∧ a < p + d.length then d.getD (a - p) 0 else s.byte a := by
  induction d generalizing s p with
  | nil => simp only [State.setBytes, List.length_nil]; rw [if_neg (by omega)]
  | cons x d ih =>
    unfold State.setBytes
    rw [ih]
    simp only [List.length_cons]
    by_cases h0 : a = p
    · subst h0
      rw [if_neg (by omega), if_pos (by omega)]
      simp [State.byte, State.setByte]
    · have hb : (s.setByte p x).byte a = s.byte a := by simp [State.byte, State.setByte, h0]
      rw [hb]
      by_cases h1 : p + 1 ≤ a ∧ a < p + 1 + d.length
      · rw [if_pos h1, if_pos (by omega)]
        have : a - p = (a - (p + 1)) + 1 := by omega
        rw [this, List.getD_cons_succ]
      · rw [if_neg h1, if_neg (by omega)]

theorem bytesOfNat_length (n v : Nat) : (bytesOfNat n v).length = n := by
  induction n generalizing v with
  | zero => rfl
  | succ n ih => simp [bytesOfNat, ih]

theorem bytesOfNat_getD (n v i : Nat) (h : i < n) : (bytesOfNat n v).getD i 0 = BitVec.ofNat 8 (v / 256 ^ i) := by
  induction n generalizing v i with
  | zero => omega
  | succ n ih =>
    cases i with
    | zero => simp [bytesOfNat]
    | succ i =>
      unfold bytesOfNat
      rw [List.getD_cons_succ, ih _ _ (by omega), Nat.div_div_eq_div_mul, Nat.pow_succ, Nat.mul_comm]

/-- A bundle that stores one value of n bytes leaves its bytes at the address. -/
theorem executes_stored (h : executes s g b = true) (a : Word) (n v : Nat)
    (hb : bundleStores s g b = [(ownAddr s g a, bytesOfNat n v)]) : bytesAre s (runBundle s g b) g a n v := by
  intro i hi
  rw [(runBundle_committed h).mem, hb]
  show (s.setBytes (ownAddr s g a) (bytesOfNat n v)).byte _ = _
  rw [setBytes_byte, bytesOfNat_length, if_pos (by omega), Nat.add_sub_cancel_left, bytesOfNat_getD _ _ _ hi]

end Sys2Proof.Machine
end

