-- ==== Sys2Proof/Laws/Lanes.lean ====
section
/-! SUPPORT. Lanes of vectors and elements of accumulators read back what they were built from (R45, R46), and the ranges of the
limiting operations (R60, R62). -/

namespace Sys2Proof.Machine

theorem packLE_field (w : Nat) (l : List Nat) (k : Nat) (h : k < l.length) :
    packLE (l.map (fun v => (w, v))) / 2 ^ (w * k) % 2 ^ w = l[k] % 2 ^ w := by
  have hw : 0 < 2 ^ w := Nat.two_pow_pos w
  induction l generalizing k with
  | nil => cases h
  | cons v l ih =>
    cases k with
    | zero =>
      simp only [List.map_cons, packLE, Nat.mul_zero, Nat.pow_zero, Nat.div_one, List.getElem_cons_zero, Nat.add_mul_mod_self_left, Nat.mod_mod]
    | succ k =>
      have hk : k < l.length := by simpa using h
      simp only [List.map_cons, packLE, List.getElem_cons_succ]
      rw [Nat.mul_succ, Nat.add_comm (w * k) w, Nat.pow_add, ← Nat.div_div_eq_div_mul, Nat.add_mul_div_left _ _ hw,
        Nat.div_eq_of_lt (Nat.mod_lt _ hw), Nat.zero_add]
      exact ih k hk

theorem packLE_range (w n : Nat) (f : Nat → Nat) (k : Nat) (h : k < n) :
    packLE ((List.range n).map (fun i => (w, f i))) / 2 ^ (w * k) % 2 ^ w = f k % 2 ^ w := by
  have := packLE_field w ((List.range n).map f) k (by simpa using h)
  simpa [List.map_map, Function.comp_def] using this

/-- Field k of a vector built from n fields of w bits. -/
theorem slice_packLE (w n W : Nat) (hW : W = w * n) (f : Nat → Nat) (k : Nat) (h : k < n) :
    (slice (BitVec.ofNat W (packLE ((List.range n).map (fun i => (w, f i))))) (w * k) w) = BitVec.ofNat w (f k) := by
  subst hW
  apply BitVec.eq_of_toNat_eq
  simp only [slice, BitVec.toNat_ofNat]
  have hle : w * k + w ≤ w * n := by
    rw [← Nat.mul_succ]
    exact Nat.mul_le_mul_left w h
  rw [← packLE_range w n f k h]
  obtain ⟨d, hd⟩ : ∃ d, w * n = w * k + (w + d) := ⟨w * n - (w * k + w), by omega⟩
  generalize packLE ((List.range n).map (fun i => (w, f i))) = x
  rw [hd, Nat.pow_add, Nat.mod_mul_right_div_self, Nat.pow_add, Nat.mod_mul_right_mod]

theorem wrapTo_ofInt (w : Nat) (x : Int) : BitVec.ofNat w (wrapTo w x) = BitVec.ofInt w x := by
  apply BitVec.eq_of_toNat_eq
  have hp : (0 : Int) < 2 ^ w := Int.pow_pos (by omega)
  have h0 := Int.emod_nonneg x (Int.ne_of_gt hp)
  have h1 := Int.emod_lt_of_pos x hp
  have hc : ((2 ^ w : Nat) : Int) = (2 : Int) ^ w := by simp
  simp only [wrapTo, BitVec.toNat_ofNat, BitVec.toNat_ofInt, hc]
  rw [Nat.mod_eq_of_lt]
  rw [← Int.toNat_of_nonneg h0, ← hc] at h1
  exact_mod_cast h1

/-- A lane reads back what it was built from, in 16 bits. -/
theorem lane_mkLanes (f : Nat → Int) (i : Nat) (h : i < 32) : lane (mkLanes f) i = (BitVec.ofInt 16 (f i)).toInt := by
  unfold lane mkLanes
  rw [slice_packLE 16 32 512 rfl (fun i => wrapTo 16 (f i)) i h, wrapTo_ofInt]

/-- An element reads back what it was built from, in 40 bits. -/
theorem accEl_mkAcc (f : Nat → Int) (e : Nat) (h : e < 32) : accEl (mkAcc f) e = (BitVec.ofInt 40 (f e)).toInt := by
  unfold accEl mkAcc
  rw [slice_packLE 40 32 1280 rfl (fun i => wrapTo 40 (f i)) e h, wrapTo_ofInt]

theorem toInt_ofInt16 (x : Int) (h : -32768 ≤ x) (h' : x ≤ 32767) : (BitVec.ofInt 16 x).toInt = x := by
  rw [BitVec.toInt_ofInt, Int.bmod_eq_of_le] <;> omega
theorem toInt_ofInt40 (x : Int) (h : -(2 ^ 39) ≤ x) (h' : x ≤ 2 ^ 39 - 1) : (BitVec.ofInt 40 x).toInt = x := by
  rw [BitVec.toInt_ofInt, Int.bmod_eq_of_le] <;> omega

theorem lane_range (v : BitVec 512) (i : Nat) : -32768 ≤ lane v i ∧ lane v i ≤ 32767 := by
  unfold lane
  have h1 := BitVec.le_toInt (slice v (16 * i) 16)
  have h2 := BitVec.toInt_le (x := slice v (16 * i) 16)
  omega

theorem sat16_range (x : Int) : -32768 ≤ (sat16 x).1 ∧ (sat16 x).1 ≤ 32767 := by
  unfold sat16
  split
  · simp
  · split
    · simp
    · simp only; omega

theorem sat16_value (x : Int) : (sat16 x).1 = max (-32768) (min 32767 x) := by
  unfold sat16
  split
  · simp only; omega
  · split <;> simp only <;> omega

theorem sat16_mark (x : Int) : (sat16 x).2 = decide (max (-32768) (min 32767 x) ≠ x) := by
  unfold sat16
  split
  · simp only [Bool.true_eq, decide_eq_true_eq]; omega
  · split
    · simp only [Bool.true_eq, decide_eq_true_eq]; omega
    · simp only [Bool.false_eq, decide_eq_false_iff_not]; omega

theorem guard40_range (sat : Bool) (x : Int) : -(2 ^ 39) ≤ (guard40 sat x).1 ∧ (guard40 sat x).1 ≤ 2 ^ 39 - 1 := by
  unfold guard40
  split
  · cases sat <;> simp only [Bool.false_eq_true, if_false, if_true] <;> omega
  · split
    · cases sat <;> simp only [Bool.false_eq_true, if_false, if_true] <;> omega
    · simp only; omega

/-- Lane i of a limited lane-wise result. -/
theorem lane_laneMap (f : Nat → Int) (i : Nat) (h : i < 32) : lane (laneMap (fun i => sat16 (f i))).1 i = max (-32768) (min 32767 (f i)) := by
  have hr := sat16_range (f i)
  unfold laneMap
  rw [lane_mkLanes _ _ h, toInt_ofInt16 _ hr.1 hr.2, sat16_value]

end Sys2Proof.Machine
end

