-- ==== Sys2Proof/Laws/Ok.lean ====
section
/-! SUPPORT. What every operation of the model keeps: the queue it was given, both memories in canonical form (R23, R42), the tick
counter with device time (R328), and every core in a state that R48 and R51 allow; and how results of each form carry it. -/

namespace Sys2Proof.Machine

/-- A state whose queue is q and which satisfies the invariants of Safety.lean. -/
structure Ok (q : List Instr) (s : State) : Prop where
  queue : s.pending = q
  mem : s.memOk
  time : s.timeOk
  cores : s.coresOk

/-- Of an optional state. -/
def OkS (q : List Instr) (r : Option State) : Prop := ∀ t, r = some t → Ok q t
/-- Of an optional pair with a state. -/
def OkO {α : Type} (q : List Instr) (r : Option (α × State)) : Prop := ∀ a t, r = some (a, t) → Ok q t
/-- Of a pair with a state. -/
def OkP {α : Type} (q : List Instr) (r : α × State) : Prop := Ok q r.2
/-- Of three values, the last a state. -/
def OkP3 {α β : Type} (q : List Instr) (r : α × β × State) : Prop := Ok q r.2.2
/-- Of four values, the last a state. -/
def OkP4 {α β γ : Type} (q : List Instr) (r : α × β × γ × State) : Prop := Ok q r.2.2.2
/-- Of five values, the last a state. -/
def OkP5 {α β γ δ : Type} (q : List Instr) (r : α × β × γ × δ × State) : Prop := Ok q r.2.2.2.2
/-- Of the outcome of a command: a next state. -/
def OkN (q : List Instr) (r : Host.Outcome State Fault Refusal) : Prop := ∃ t, r = .next t ∧ Ok q t

variable {q : List Instr} {s t : State} {α β γ δ : Type}

/-! ### Results -/

theorem OkS.none : OkS q none := fun _ h => by cases h
theorem OkS.some (h : Ok q s) : OkS q (some s) := fun _ e => by cases e; exact h
theorem OkS.get {r : Option State} (h : OkS q r) (e : r = .some t) : Ok q t := h t e
theorem OkO.none : OkO (α := α) q none := fun _ _ h => by cases h
theorem OkO.some {p : α × State} (h : OkP q p) : OkO q (some p) := fun _ _ e => by cases e; exact h
theorem OkO.get {r : Option (α × State)} {a : α} (h : OkO q r) (e : r = .some (a, t)) : Ok q t := h a t e
theorem OkO.get' {r : Option (α × State)} {p : α × State} (h : OkO q r) (e : r = .some p) : OkP q p := h p.1 p.2 e
theorem OkP.mk {a : α} (h : Ok q s) : OkP q (a, s) := h
theorem OkP.snd {r : α × State} (h : OkP q r) : Ok q r.2 := h
theorem OkP.of {r : α × State} (h : Ok q r.2) : OkP q r := h
theorem OkP.get {r : α × State} {a : α} (h : OkP q r) (e : r = (a, t)) : Ok q t := by rw [e] at h; exact h
theorem OkP3.mk {a : α} {b : β} (h : Ok q s) : OkP3 q (a, b, s) := h
theorem OkP3.snd {r : α × β × State} (h : OkP3 q r) : Ok q r.2.2 := h
theorem OkP3.get {r : α × β × State} {a : α} {b : β} (h : OkP3 q r) (e : r = (a, b, t)) : Ok q t := by rw [e] at h; exact h
theorem OkP4.mk {a : α} {b : β} {c : γ} (h : Ok q s) : OkP4 q (a, b, c, s) := h
theorem OkP4.snd {r : α × β × γ × State} (h : OkP4 q r) : Ok q r.2.2.2 := h
theorem OkP4.get {r : α × β × γ × State} {a : α} {b : β} {c : γ} (h : OkP4 q r) (e : r = (a, b, c, t)) : Ok q t := by
  rw [e] at h; exact h
theorem OkP5.mk {a : α} {b : β} {c : γ} {d : δ} (h : Ok q s) : OkP5 q (a, b, c, d, s) := h
theorem OkP5.snd {r : α × β × γ × δ × State} (h : OkP5 q r) : Ok q r.2.2.2.2 := h
theorem OkP5.get {r : α × β × γ × δ × State} {a : α} {b : β} {c : γ} {d : δ} (h : OkP5 q r) (e : r = (a, b, c, d, t)) : Ok q t := by
  rw [e] at h; exact h
theorem OkN.next (h : Ok q s) : OkN q (.next s) := ⟨s, rfl, h⟩
/-! ### Branches and folds -/

theorem okIte {c : Prop} [Decidable c] {a b : State} (h : Ok q a) (h' : Ok q b) : Ok q (if c then a else b) := by
  split <;> assumption
theorem okIte2 {c : Prop} [Decidable c] {a b : α × State} (h : OkP q a) (h' : OkP q b) : OkP q (if c then a else b) := by
  split <;> assumption
theorem okIte3 {c : Prop} [Decidable c] {a b : α × β × State} (h : OkP3 q a) (h' : OkP3 q b) : OkP3 q (if c then a else b) := by
  split <;> assumption
theorem okIte4 {c : Prop} [Decidable c] {a b : α × β × γ × State} (h : OkP4 q a) (h' : OkP4 q b) : OkP4 q (if c then a else b) := by
  split <;> assumption
theorem okIteS {c : Prop} [Decidable c] {a b : Option State} (h : OkS q a) (h' : OkS q b) : OkS q (if c then a else b) := by
  split <;> assumption
theorem okIteO {c : Prop} [Decidable c] {a b : Option (α × State)} (h : OkO q a) (h' : OkO q b) : OkO q (if c then a else b) := by
  split <;> assumption
theorem okIteN {c : Prop} [Decidable c] {a b : Host.Outcome State Fault Refusal} (h : OkN q a) (h' : OkN q b) :
    OkN q (if c then a else b) := by
  split <;> assumption

theorem okFold {l : List α} {f : State → α → State} (hf : ∀ t a, Ok q t → Ok q (f t a)) (h : Ok q s) : Ok q (l.foldl f s) := by
  induction l generalizing s with
  | nil => exact h
  | cons a l ih => exact ih (hf s a h)
theorem okFold2 {l : List α} {f : β × State → α → β × State} {x : β × State} (hf : ∀ y a, OkP q y → OkP q (f y a))
    (h : OkP q x) : OkP q (l.foldl f x) := by
  induction l generalizing x with
  | nil => exact h
  | cons a l ih => exact ih (hf x a h)
theorem okFold5 {ε : Type} {l : List α} {f : β × γ × δ × ε × State → α → β × γ × δ × ε × State} {x : β × γ × δ × ε × State}
    (hf : ∀ y a, OkP5 q y → OkP5 q (f y a)) (h : OkP5 q x) : OkP5 q (l.foldl f x) := by
  induction l generalizing x with
  | nil => exact h
  | cons a l ih => exact ih (hf x a h)
theorem okFoldO {l : List α} {f : Option (β × State) → α → Option (β × State)} {x : Option (β × State)}
    (hf : ∀ y a, OkO q y → OkO q (f y a)) (h : OkO q x) : OkO q (l.foldl f x) := by
  induction l generalizing x with
  | nil => exact h
  | cons a l ih => exact ih (hf x a h)
theorem okUpTo {n : Nat} {f : Nat → State → State} (hf : ∀ i t, Ok q t → Ok q (f i t)) (h : Ok q s) : Ok q (upTo n f s) :=
  okFold (fun t i => hf i t) h
theorem OkO.map {f : α × State → β × State} {r : Option (α × State)} (hf : ∀ x, OkP q x → OkP q (f x)) (h : OkO q r) :
    OkO q (r.map f) := by
  cases r with
  | none => exact OkO.none
  | some p => exact OkO.some (hf p (h.get' rfl))

theorem okMapV {r : Option α} (h : Ok q s) : OkO q (r.map (fun v => (v, s))) := by
  cases r with
  | none => exact OkO.none
  | some v => exact OkO.some h

/-! ### Updates of the state -/

/-- Any update that leaves the queue, the memories, the hub clock and the cores. -/
theorem okUpd {a0 a2 a3 a4 a5 a6 a7 a8 a9 a10 a12 a13 a14 a15 a16 a17 a18 a19 a20 a22 a24 a25 a26 a27} : Ok q (State.mk a0 s.cores a2 a3 a4 a5 a6 a7 a8 a9 a10 s.cmk a12 a13 a14 a15 a16 a17 a18 a19 a20 s.mem a22 s.hostMem a24 a25 a26 a27 s.pending) ↔ Ok q s :=
  ⟨fun h => ⟨h.queue, h.mem, h.time, h.cores⟩, fun h => ⟨h.queue, h.mem, h.time, h.cores⟩⟩

/-- An update of the hub clock that leaves device time and the tick counter. -/
theorem okCmk {x : Cmk} {a0 a2 a3 a4 a5 a6 a7 a8 a9 a10 a12 a13 a14 a15 a16 a17 a18 a19 a20 a22 a24 a25 a26 a27} (h : Ok q s) (h1 : x.sec = s.cmk.sec) (h2 : x.ns = s.cmk.ns)
    (h3 : x.frac = s.cmk.frac) (h4 : x.tick = s.cmk.tick) :
    Ok q (State.mk a0 s.cores a2 a3 a4 a5 a6 a7 a8 a9 a10 x a12 a13 a14 a15 a16 a17 a18 a19 a20 s.mem a22 s.hostMem a24 a25 a26 a27 s.pending) := by
  refine ⟨h.queue, h.mem, ?_, h.cores⟩
  have := h.time
  simp only [State.timeOk, State.units, State.nowNs, h1, h2, h3, h4] at this ⊢
  exact this

/-- Splitting units into seconds, nanoseconds and fraction and putting them together again. -/
theorem unitsSplit (u : Nat) : (u / 65536 / 1000000000 * 1000000000 + u / 65536 % 1000000000) * 65536 + u % 65536 = u := by omega

theorem Cmk.atUnits_sec (c : Cmk) (u p : Nat) : (c.atUnits u p).sec = u / 65536 / 1000000000 := rfl
theorem Cmk.atUnits_ns (c : Cmk) (u p : Nat) : (c.atUnits u p).ns = u / 65536 % 1000000000 := rfl
theorem Cmk.atUnits_frac (c : Cmk) (u p : Nat) : (c.atUnits u p).frac = u % 65536 := rfl
theorem Cmk.atUnits_tick (c : Cmk) (u p : Nat) : (c.atUnits u p).tick = BitVec.ofNat 32 (ticksAt u) := rfl

/-- The clock at u units (R327, R328). -/
theorem timeOk_atUnits (s : State) (c : Cmk) (u p : Nat) : ({ s with cmk := c.atUnits u p } : State).timeOk := by
  have h : ({ s with cmk := c.atUnits u p } : State).units = u := by
    show ((c.atUnits u p).sec * 1000000000 + (c.atUnits u p).ns) * 65536 + (c.atUnits u p).frac = u
    rw [Cmk.atUnits_sec, Cmk.atUnits_ns, Cmk.atUnits_frac, unitsSplit]
  refine ⟨?_, ?_, ?_⟩
  · rw [h]
    exact Cmk.atUnits_tick c u p
  · exact Nat.mod_lt _ (by decide)
  · exact Nat.mod_lt _ (by decide)

theorem okAtUnits {u p : Nat} (h : Ok q s) : Ok q { s with cmk := s.cmk.atUnits u p } :=
  ⟨h.queue, h.mem, timeOk_atUnits s s.cmk u p, h.cores⟩

end Sys2Proof.Machine
end

