-- ==== Sys2Proof/Laws/OkForms.lean ====
section
/-! SUPPORT. The invariant of Laws/Ok.lean in the results of accesses, moves of a bundle and enqueues. -/

namespace Sys2Proof.Machine

variable {q : List Instr} {t : State}

/-- The state in an access. -/
def OkA (q : List Instr) (r : Acc) : Prop :=
  (∀ t, r = .wait t → Ok q t) ∧ (∀ a t, r = .done a t → Ok q t)

theorem OkA.wait  (h : Ok q t) : OkA q (.wait t) := by
  simp [OkA]
  try (intros; subst_vars; exact h)
theorem OkA.wait_get {r : Acc}  (h : OkA q r) (e : r = .wait t) : Ok q t := h.1 _ e
theorem OkA.done {a : Ans}  (h : Ok q t) : OkA q (.done a t) := by
  simp [OkA]
  try (intros; subst_vars; exact h)
theorem OkA.done_get {r : Acc} {a : Ans}  (h : OkA q r) (e : r = .done a t) : Ok q t := h.2 _ _ e
theorem OkA.ite {c : Prop} [Decidable c] {a b : Acc} (h : OkA q a) (h' : OkA q b) : OkA q (if c then a else b) := by
  split <;> assumption

/-- The state in an answer of a target. -/
def OkT (q : List Instr) (r : Tgt) : Prop :=
  (∀ a t, r = .ans a t → Ok q t) ∧ (∀ t, r = .retry t → Ok q t) ∧ (∀ t, r = .taken t → Ok q t)

theorem OkT.ans {a : Ans}  (h : Ok q t) : OkT q (.ans a t) := by
  simp [OkT]
  try (intros; subst_vars; exact h)
theorem OkT.ans_get {r : Tgt} {a : Ans}  (h : OkT q r) (e : r = .ans a t) : Ok q t := h.1 _ _ e
theorem OkT.retry  (h : Ok q t) : OkT q (.retry t) := by
  simp [OkT]
  try (intros; subst_vars; exact h)
theorem OkT.retry_get {r : Tgt}  (h : OkT q r) (e : r = .retry t) : Ok q t := h.2.1 _ e
theorem OkT.wait   : OkT q (.wait ) := by
  simp [OkT]
theorem OkT.taken  (h : Ok q t) : OkT q (.taken t) := by
  simp [OkT]
  try (intros; subst_vars; exact h)
theorem OkT.taken_get {r : Tgt}  (h : OkT q r) (e : r = .taken t) : Ok q t := h.2.2 _ e
theorem OkT.ite {c : Prop} [Decidable c] {a b : Tgt} (h : OkT q a) (h' : OkT q b) : OkT q (if c then a else b) := by
  split <;> assumption

/-- The state in a move of a bundle. -/
def OkM (q : List Instr) (r : Move) : Prop :=
  (∀ k t, r = .stay k t → Ok q t) ∧ (∀ c v t, r = .trap c v t → Ok q t) ∧ (∀ l w t, r = .go l w t → Ok q t)

theorem OkM.stay {k : HeldKind}  (h : Ok q t) : OkM q (.stay k t) := by
  simp [OkM]
  try (intros; subst_vars; exact h)
theorem OkM.stay_get {r : Move} {k : HeldKind}  (h : OkM q r) (e : r = .stay k t) : Ok q t := h.1 _ _ e
theorem OkM.trap {c : Nat} {v : Word}  (h : Ok q t) : OkM q (.trap c v t) := by
  simp [OkM]
  try (intros; subst_vars; exact h)
theorem OkM.trap_get {r : Move} {c : Nat} {v : Word}  (h : OkM q r) (e : r = .trap c v t) : Ok q t := h.2.1 _ _ _ e
theorem OkM.ask {n : Nat} {r : NiReq}  : OkM q (.ask n r) := by
  simp [OkM]
theorem OkM.go {l : List Byte} {w : Word}  (h : Ok q t) : OkM q (.go l w t) := by
  simp [OkM]
  try (intros; subst_vars; exact h)
theorem OkM.go_get {r : Move} {l : List Byte} {w : Word}  (h : OkM q r) (e : r = .go l w t) : Ok q t := h.2.2 _ _ _ e
theorem OkM.ite {c : Prop} [Decidable c] {a b : Move} (h : OkM q a) (h' : OkM q b) : OkM q (if c then a else b) := by
  split <;> assumption

/-- The state in an enqueue over the fabric. -/
def OkF (q : List Instr) (r : FabEnq) : Prop :=
  (∀ t, r = .taken t → Ok q t) ∧ (∀ t, r = .full t → Ok q t) ∧ (∀ o t, r = .lost o t → Ok q t) ∧ (∀ t, r = .wait t → Ok q t)

theorem OkF.taken  (h : Ok q t) : OkF q (.taken t) := by
  simp [OkF]
  try (intros; subst_vars; exact h)
theorem OkF.taken_get {r : FabEnq}  (h : OkF q r) (e : r = .taken t) : Ok q t := h.1 _ e
theorem OkF.full  (h : Ok q t) : OkF q (.full t) := by
  simp [OkF]
  try (intros; subst_vars; exact h)
theorem OkF.full_get {r : FabEnq}  (h : OkF q r) (e : r = .full t) : Ok q t := h.2.1 _ e
theorem OkF.lost {o : Outc}  (h : Ok q t) : OkF q (.lost o t) := by
  simp [OkF]
  try (intros; subst_vars; exact h)
theorem OkF.lost_get {r : FabEnq} {o : Outc}  (h : OkF q r) (e : r = .lost o t) : Ok q t := h.2.2.1 _ _ e
theorem OkF.wait  (h : Ok q t) : OkF q (.wait t) := by
  simp [OkF]
  try (intros; subst_vars; exact h)
theorem OkF.wait_get {r : FabEnq}  (h : OkF q r) (e : r = .wait t) : Ok q t := h.2.2.2 _ e
theorem OkF.ite {c : Prop} [Decidable c] {a b : FabEnq} (h : OkF q a) (h' : OkF q b) : OkF q (if c then a else b) := by
  split <;> assumption

/-- The state in a request to another package. -/
def OkR (q : List Instr) (r : RemoteAns) : Prop :=
  (∀ t, r = .sent t → Ok q t)

theorem OkR.now {o : Outc}  : OkR q (.now o) := by
  simp [OkR]
theorem OkR.sent  (h : Ok q t) : OkR q (.sent t) := by
  simp [OkR]
  try (intros; subst_vars; exact h)
theorem OkR.sent_get {r : RemoteAns}  (h : OkR q r) (e : r = .sent t) : Ok q t := h _ e
theorem OkR.wait   : OkR q (.wait ) := by
  simp [OkR]
theorem OkR.ite {c : Prop} [Decidable c] {a b : RemoteAns} (h : OkR q a) (h' : OkR q b) : OkR q (if c then a else b) := by
  split <;> assumption

theorem okFoldA {α : Type} {l : List α} {f : Acc → α → Acc} {x : Acc} (hf : ∀ y a, OkA q y → OkA q (f y a)) (h : OkA q x) :
    OkA q (l.foldl f x) := by
  induction l generalizing x with
  | nil => exact h
  | cons a l ih => exact ih (hf x a h)

/-- Of four values, the last an access. -/
def OkA4 {α β γ : Type} (q : List Instr) (r : α × β × γ × Acc) : Prop := OkA q r.2.2.2
theorem OkA4.mk {α β γ : Type} {a : α} {b : β} {c : γ} {x : Acc} (h : OkA q x) : OkA4 q (a, b, c, x) := h
theorem OkA4.snd {α β γ : Type} {r : α × β × γ × Acc} (h : OkA4 q r) : OkA q r.2.2.2 := h
theorem OkA4.get {α β γ : Type} {r : α × β × γ × Acc} {a : α} {b : β} {c : γ} {x : Acc} (h : OkA4 q r) (e : r = (a, b, c, x)) :
    OkA q x := by
  rw [e] at h; exact h
theorem okFoldA4 {α β γ δ : Type} {l : List α} {f : β × γ × δ × Acc → α → β × γ × δ × Acc} {x : β × γ × δ × Acc}
    (hf : ∀ y a, OkA4 q y → OkA4 q (f y a)) (h : OkA4 q x) : OkA4 q (l.foldl f x) := by
  induction l generalizing x with
  | nil => exact h
  | cons a l ih => exact ih (hf x a h)

theorem okFoldD {α : Type} {l : List α} {f : DmaRun → α → DmaRun} {x : DmaRun} (hf : ∀ y a, Ok q y.st → Ok q (f y a).st)
    (h : Ok q x.st) : Ok q (l.foldl f x).st := by
  induction l generalizing x with
  | nil => exact h
  | cons a l ih => exact ih (hf x a h)

theorem okFoldC {α : Type} {l : List α} {f : SetRun → α → SetRun} {x : SetRun} (hf : ∀ y a, Ok q y.st → Ok q (f y a).st)
    (h : Ok q x.st) : Ok q (l.foldl f x).st := by
  induction l generalizing x with
  | nil => exact h
  | cons a l ih => exact ih (hf x a h)

end Sys2Proof.Machine
end

