-- ==== Sys2Proof/Laws/OkBase.lean ====
section
/-! SUPPORT. The leaves of the invariant: the memory operations, the updates of one core, and the state after reset. -/

namespace Sys2Proof.Machine

variable {q : List Instr} {s t : State}

/-! ### Memories -/

/-- Leaving entries out keeps the canonical form. -/
theorem canonFrom_filter {α : Type} [DecidableEq α] (d : Nat → α) (p : Nat × α → Bool) {lo : Nat} {m : Sparse α}
    (h : canonFrom d lo m = true) : canonFrom d lo (m.filter p) = true := by
  induction m generalizing lo with
  | nil => rfl
  | cons x rest ih =>
    obtain ⟨k, v⟩ := x
    simp only [canonFrom, Bool.and_eq_true, decide_eq_true_eq] at h
    have hr := ih h.2
    by_cases hp : p (k, v) = true
    · simp [List.filter_cons, hp, canonFrom, h.1.1, h.1.2, hr]
    · simp only [List.filter_cons, hp]
      exact canonFrom_mono d hr (by omega)

/-- Writing a byte keeps the canonical form of a memory. -/
theorem Memory.wf_sput {m : List Host.Cell} (a : Nat) (b : Byte) (h : Memory.wf m = true) : Memory.wf (sput 0 m a b) = true :=
  canon_sput 0 m a b h

/-- Clearing a range keeps the canonical form of a memory. -/
theorem Memory.wf_filter {m : List Host.Cell} (p : Host.Cell → Bool) (h : Memory.wf m = true) : Memory.wf (m.filter p) = true :=
  canonFrom_filter _ p h

theorem State.setByte_ok {a : Nat} {b : Byte} (h : Ok q s) : Ok q (s.setByte a b) :=
  ⟨h.queue, ⟨Memory.wf_sput a b h.mem.1, h.mem.2⟩, h.time, h.cores⟩

theorem State.setBytes_ok {a : Nat} {l : List Byte} (h : Ok q s) : Ok q (s.setBytes a l) := by
  induction l generalizing s a with
  | nil => exact h
  | cons b rest ih => exact ih (State.setByte_ok h)

theorem State.hostBytes_ok {a : Nat} {l : List Byte} (h : Ok q s) : Ok q (s.hostBytes a l) := by
  induction l generalizing s a with
  | nil => exact h
  | cons b rest ih => exact ih ⟨h.queue, ⟨h.mem.1, Memory.wf_sput a b h.mem.2⟩, h.time, h.cores⟩

theorem zeroRange_ok {lo n : Nat} (h : Ok q s) : Ok q (zeroRange s lo n) :=
  ⟨h.queue, ⟨Memory.wf_filter _ h.mem.1, h.mem.2⟩, h.time, h.cores⟩

/-! ### Cores -/

/-- Core g of a state that satisfies the invariant. -/
theorem Ok.core (h : Ok q s) (g : CoreId) : CoreOk (s.core g) := h.cores g

theorem State.setCore_ok {g : CoreId} {c : Core} (h : Ok q s) (hc : CoreOk c) : Ok q (s.setCore g c) := by
  refine ⟨h.queue, h.mem, h.time, fun g' => ?_⟩
  have := h.cores g'
  simp only [State.core, State.setCore, sget_sput] at this ⊢
  split
  · exact hc
  · exact this

theorem State.updCore_ok {g : CoreId} {f : Core → Core} (h : Ok q s) (hf : ∀ c, CoreOk c → CoreOk (f c)) :
    Ok q (s.updCore g f) := State.setCore_ok h (hf _ (h.cores g))

/-- An update of a core that leaves what its invariant speaks of. -/
theorem CoreOk.keep {c d : Core} (h : CoreOk c) (h1 : d.pc = c.pc) (h2 : d.c.priv = c.c.priv) (h3 : d.c.deleg = c.c.deleg)
    (h4 : d.r.scf = c.r.scf) (h5 : d.loops = c.loops) (h6 : d.t0 = c.t0) (h7 : d.t1 = c.t1) : CoreOk d := by
  simpa only [CoreOk, h1, h2, h3, h4, h5, h6, h7] using h

theorem LoopsOk.reset : LoopsOk Loops.reset := ⟨by decide, fun n => by simp [Loops.reset, sget], fun n => by simp [Loops.reset, sget]⟩
theorem TrapOk.reset : TrapOk TrapRegs.reset := ⟨by decide, by decide, LoopsOk.reset⟩
theorem CoreOk.reset : CoreOk Core.reset :=
  ⟨by decide, by decide, by decide, by decide, by decide, LoopsOk.reset, TrapOk.reset, TrapOk.reset⟩

theorem CoreOk.ite {c : Prop} [Decidable c] {a b : Core} (h : CoreOk a) (h' : CoreOk b) : CoreOk (if c then a else b) := by
  split <;> assumption

/-- Another privilege, another interrupt enable, no held bundle, another run state. -/
theorem CoreOk.setPc {c d : Core} (h : CoreOk c) (hp : d.pc.toNat % 16 = 0) (h2 : d.c.priv ≠ 3) (h3 : d.c.deleg = c.c.deleg)
    (h4 : d.r.scf = c.r.scf) (h5 : LoopsOk d.loops) (h6 : TrapOk d.t0) (h7 : TrapOk d.t1) : CoreOk d := by
  obtain ⟨_, _, b3, b4, b5, _, _, _⟩ := h
  exact ⟨hp, h2, h3 ▸ b3, h4 ▸ b4, h4 ▸ b5, h5, h6, h7⟩

theorem CoreOk.loops {c : Core} (h : CoreOk c) : LoopsOk c.loops := h.2.2.2.2.2.1
theorem CoreOk.t0 {c : Core} (h : CoreOk c) : TrapOk c.t0 := h.2.2.2.2.2.2.1
theorem CoreOk.t1 {c : Core} (h : CoreOk c) : TrapOk c.t1 := h.2.2.2.2.2.2.2
theorem CoreOk.trapSet {c : Core} (h : CoreOk c) (n : Nat) : TrapOk (c.trapSet n) := by
  unfold Core.trapSet
  split
  · exact h.t0
  · exact h.t1

theorem bundleAlign_mod (a : BitVec 16) : (bundleAlign a).toNat % 16 = 0 := by
  have h : (bundleAlign a).toNat % 16 = ((bundleAlign a) &&& 15#16).toNat := by
    rw [BitVec.toNat_and]
    exact (Nat.and_two_pow_sub_one_eq_mod _ 4).symm
  rw [h]
  have : bundleAlign a &&& 15#16 = 0 := by
    unfold bundleAlign
    rw [BitVec.and_assoc]
    simp
  rw [this]
  rfl

theorem CoreOk.setTrap {c : Core} (h : CoreOk c) (n : Nat) {x : TrapRegs} (hx : TrapOk x) : CoreOk (c.setTrap n x) := by
  unfold Core.setTrap
  split
  · exact h.setPc h.1 h.2.1 rfl rfl h.loops hx h.t1
  · exact h.setPc h.1 h.2.1 rfl rfl h.loops h.t0 hx

/-- Entry of a trap or an interrupt (R77). -/
theorem enterCore_ok {c : Core} {cause : Nat} {tval : Word} {epc : BitVec 16} (h : CoreOk c) : CoreOk (enterCore c cause tval epc) := by
  have hs : bits (pstat c).toNat 0 2 ≠ 3 := by
    have := h.2.1
    have hb : ∀ (p : BitVec 2) (b : Bool), p ≠ 3 → bits (BitVec.ofNat 3 (p.toNat + 4 * b2n b)).toNat 0 2 ≠ 3 := by decide
    exact hb _ _ this
  have ht := h.trapSet (entryLevel c cause)
  have h1 : CoreOk (c.setTrap (entryLevel c cause)
      { c.trapSet (entryLevel c cause) with epc := epc, estat := pstat c, tcause := BitVec.ofNat 8 cause, tval := tval, lsh := c.loops }) :=
    h.setTrap _ ⟨hs, ht.2.1, h.loops⟩
  have hp : BitVec.ofNat 2 (entryLevel c cause) ≠ 3 := by
    unfold entryLevel
    split <;> decide
  have hd : ∀ n x, (c.setTrap n x).c = c.c ∧ (c.setTrap n x).r = c.r := by
    intro n x
    unfold Core.setTrap
    split <;> exact ⟨rfl, rfl⟩
  unfold enterCore
  refine CoreOk.setPc (c := c) h ht.2.1 hp ?_ ?_ ⟨by simp, h.loops.2.1, h.loops.2.2⟩ h1.t0 h1.t1
  · rfl
  · exact congrArg CoreRegs.scf (hd _ _).2

theorem slice_and_ne3 (e : BitVec 3) (h : bits e.toNat 0 2 ≠ 3) : slice (w := 2) e 0 ≠ 3 := by
  revert h
  have : ∀ e : BitVec 3, bits e.toNat 0 2 ≠ 3 → slice (w := 2) e 0 ≠ 3 := by decide
  exact this e

/-- Return from a trap or an interrupt (R77). -/
theorem rtiCore_ok {c : Core} (h : CoreOk c) : CoreOk (rtiCore c) := by
  have ht := h.trapSet c.c.priv.toNat
  exact h.setPc (bundleAlign_mod _) (slice_and_ne3 _ ht.1) rfl rfl ht.2.2 h.t0 h.t1

theorem resetCore_ok {c : Core} : CoreOk (resetCore c) :=
  CoreOk.reset.keep rfl rfl rfl rfl rfl rfl rfl

end Sys2Proof.Machine
end

