-- ==== Sys2Proof/Laws/OkCore.lean ====
section
/-! SUPPORT. The invariant of one core (R44, R47, R48, R51): register writes, control registers, branches and loops keep it. -/

namespace Sys2Proof.Machine

/-! ### Addresses of bundles -/

/-- A bundle address plus a multiple of 16 is a bundle address. -/
theorem add_mod16 (a b : BitVec 16) (h : a.toNat % 16 = 0) (h' : b.toNat % 16 = 0) : (a + b).toNat % 16 = 0 := by
  rw [BitVec.toNat_add]
  omega

theorem mul16_mod (a : BitVec 16) : (16 * a).toNat % 16 = 0 := by
  have h : (16 : BitVec 16).toNat = 16 := rfl
  rw [BitVec.toNat_mul, h]
  omega

theorem sput_mod16 (t : Sparse (BitVec 16)) (i : Nat) (v : BitVec 16) (h : ∀ n : Nat, (sget 0 t n).toNat % 16 = 0) (hv : v.toNat % 16 = 0)
    (n : Nat) : (sget 0 (sput 0 t i v) n).toNat % 16 = 0 := by
  rw [sget_sput]
  split
  · exact hv
  · exact h n

/-! ### Fields of packed words -/

theorem packLE_lt (l : List (Nat × Nat)) : packLE l < 2 ^ (l.map (fun p => p.1)).sum := by
  induction l with
  | nil => simp [packLE]
  | cons p rest ih =>
    obtain ⟨w, v⟩ := p
    simp only [packLE, List.map_cons, List.sum_cons, Nat.pow_add]
    have h1 : v % 2 ^ w < 2 ^ w := Nat.mod_lt _ (Nat.two_pow_pos w)
    calc v % 2 ^ w + 2 ^ w * packLE rest < 2 ^ w + 2 ^ w * packLE rest := by omega
      _ = 2 ^ w * (packLE rest + 1) := by rw [Nat.mul_add, Nat.mul_one, Nat.add_comm]
      _ ≤ 2 ^ w * 2 ^ (rest.map (fun p => p.1)).sum := Nat.mul_le_mul_left _ ih

/-- SCF after a write keeps its reserved bits (R12, R47). -/
theorem scfWrite_ok (old v : Word) (h : bits old.toNat 4 2 < 2) :
    bits (scfWrite old v).toNat 8 8 = 0 ∧ bits (scfWrite old v).toNat 4 2 < 2 := by
  unfold scfWrite
  generalize hm : (if 2 ≤ bits v.toNat 4 2 then bits old.toNat 4 2 else bits v.toNat 4 2) = m
  have hm2 : m < 2 := by
    subst hm
    split <;> omega
  simp only [packLE, bits, BitVec.toNat_ofNat]
  constructor <;> omega

/-- SCF with another exponent keeps its low half. -/
theorem scfWithExp_ok (scf : Word) (e : Int) (h8 : bits scf.toNat 8 8 = 0) (h4 : bits scf.toNat 4 2 < 2) :
    bits (scfWithExp scf e).toNat 8 8 = 0 ∧ bits (scfWithExp scf e).toNat 4 2 < 2 := by
  unfold scfWithExp
  simp only [packLE, bits, BitVec.toNat_ofNat] at *
  generalize (wrapTo 16 e) % 2 ^ 16 = x at *
  constructor <;> omega

/-! ### Loops -/

theorem depthWrite_ok (old d : BitVec 3) (h : old.toNat ≤ 4) : (depthWrite old d).toNat ≤ 4 := by
  unfold depthWrite
  split <;> omega

theorem lshWrite_ok {l : Loops} (i : Nat) (v : Word) (h : LoopsOk l) : LoopsOk (lshWrite l i v) := by
  obtain ⟨h1, h2, h3⟩ := h
  unfold lshWrite
  split
  · exact ⟨h1, h2, h3⟩
  · split
    · refine ⟨?_, ?_, h3⟩
      · dsimp only
        split
        · exact depthWrite_ok _ _ h1
        · exact h1
      · exact sput_mod16 _ _ _ (sput_mod16 _ _ _ h2 (bundleAlign_mod _)) (bundleAlign_mod _)
    · exact ⟨h1, h2, sput_mod16 _ _ _ (sput_mod16 _ _ _ h3 (bundleAlign_mod _)) (bundleAlign_mod _)⟩

theorem loopRegWrite_ok {l : Loops} (i : Nat) (v : Word) (h : LoopsOk l) : LoopsOk (loopRegWrite l i v) := by
  obtain ⟨h1, h2, h3⟩ := h
  unfold loopRegWrite
  repeat' split
  · exact ⟨h1, h2, h3⟩
  · exact ⟨h1, sput_mod16 _ _ _ h2 (bundleAlign_mod _), h3⟩
  · exact ⟨h1, h2, sput_mod16 _ _ _ h3 (bundleAlign_mod _)⟩
  · exact ⟨depthWrite_ok _ _ h1, h2, h3⟩

theorem openLoop_ok {l : Loops} {pc count fin : BitVec 16} (h : LoopsOk l) (hp : pc.toNat % 16 = 0) (hf : fin.toNat % 16 = 0) :
    LoopsOk (openLoop l pc count fin) := by
  obtain ⟨h1, h2, h3⟩ := h
  unfold openLoop
  dsimp only
  split
  · exact ⟨h1, h2, h3⟩
  · rename_i hd
    refine ⟨?_, sput_mod16 _ _ _ h2 (add_mod16 _ _ hp (by decide)), sput_mod16 _ _ _ h3 hf⟩
    have : (l.depth + 1).toNat = l.depth.toNat + 1 := by
      rw [BitVec.toNat_add]
      simp
      omega
    simp only [this]
    omega

theorem loopTest_ok {l : Loops} {pc : BitVec 16} (n : Nat) (h : LoopsOk l) (hp : pc.toNat % 16 = 0) (hn : n ≤ 5) :
    LoopsOk (loopTest l pc n).1 ∧ (loopTest l pc n).2.toNat % 16 = 0 := by
  induction n generalizing l with
  | zero => exact ⟨h, add_mod16 _ _ hp (by decide)⟩
  | succ n ih =>
    unfold loopTest
    split
    · dsimp only
      split
      · exact ⟨⟨h.1, h.2.1, h.2.2⟩, h.2.1 n⟩
      · refine ih ⟨?_, h.2.1, h.2.2⟩ (by omega)
        simp
        omega
    · exact ⟨h, add_mod16 _ _ hp (by decide)⟩

theorem fallThrough_ok {c : Core} (h : CoreOk c) : CoreOk (fallThrough c) := by
  have := loopTest_ok (pc := c.pc) c.loops.depth.toNat h.loops h.1 (by have := h.loops.1; omega)
  unfold fallThrough
  exact h.setPc this.2 h.2.1 rfl rfl this.1 h.t0 h.t1

theorem depthFor_le (l : Loops) (t : BitVec 16) (k m : Nat) : depthFor l t k m ≤ m + k := by
  induction k generalizing m with
  | zero => simp [depthFor]
  | succ k ih =>
    unfold depthFor
    split
    · have := ih (m + 1)
      omega
    · omega

theorem loopEnd_mod (pc : BitVec 16) (fin : BitVec 13) (h : pc.toNat % 16 = 0) : (loopEnd pc fin).toNat % 16 = 0 :=
  add_mod16 _ _ h (mul16_mod _)

theorem branchTo_mod {c : Core} {o : Op} {t : BitVec 16} (h : c.pc.toNat % 16 = 0) (e : branchTo c o = some t) : t.toNat % 16 = 0 := by
  have hi : ∀ {b : Bool} {x : BitVec 16}, x.toNat % 16 = 0 → (if b = true then some x else none) = some t → t.toNat % 16 = 0 := by
    intro b x hx he
    cases b
    · simp at he
    · simp at he
      exact he ▸ hx
  have ht : ∀ off : BitVec 16, (c.pc + 16 * off).toNat % 16 = 0 := fun off => add_mod16 _ _ h (mul16_mod _)
  cases o <;> first
    | exact hi (ht _) e
    | (simp only [branchTo, Option.some.injEq] at e; rw [← e]; exact ht _)
    | (simp only [branchTo, Option.some.injEq] at e; rw [← e]; exact bundleAlign_mod _)
    | (simp [branchTo] at e; done)

/-- Where execution goes on keeps the core's invariant (R67 to R69, R77). -/
theorem flow_ok {old c : Core} {o : Op} (ho : CoreOk old) (h : CoreOk c) : CoreOk (flow old c o) := by
  have hop : ∀ {cnt fin : BitVec 16}, fin.toNat % 16 = 0 → CoreOk { c with loops := openLoop c.loops c.pc cnt fin } := by
    intro cnt fin hf
    exact h.setPc h.1 h.2.1 rfl rfl (openLoop_ok h.loops h.1 hf) h.t0 h.t1
  unfold flow
  split
  · rename_i t e
    refine h.setPc (branchTo_mod ho.1 e) h.2.1 rfl rfl ⟨?_, h.loops.2.1, h.loops.2.2⟩ h.t0 h.t1
    have := depthFor_le c.loops t 4 0
    simp
    omega
  · split
    · exact rtiCore_ok h
    · exact fallThrough_ok (hop (loopEnd_mod _ _ h.1))
    · dsimp only
      split
      · exact h.setPc (add_mod16 _ _ (loopEnd_mod _ _ h.1) (by decide)) h.2.1 rfl rfl h.loops h.t0 h.t1
      · exact fallThrough_ok (hop (loopEnd_mod _ _ h.1))
    · exact fallThrough_ok h

/-! ### Control registers -/

theorem pstatWrite_priv (c : CoreCtl) (v : Word) (h : c.priv ≠ 3) : (pstatWrite c v).priv ≠ 3 := by
  unfold pstatWrite
  dsimp only
  split
  · exact h
  · rename_i hn
    have hb : bits v.toNat 0 2 < 4 := Nat.mod_lt _ (by decide)
    intro he
    have := congrArg BitVec.toNat he
    simp at this
    omega

theorem estatWrite_ok (old : BitVec 3) (v : Word) (h : bits old.toNat 0 2 ≠ 3) : bits (estatWrite old v).toNat 0 2 ≠ 3 := by
  unfold estatWrite
  generalize hp : (if bits v.toNat 0 2 = 3 then bits old.toNat 0 2 else bits v.toNat 0 2) = p
  have h3 : p ≠ 3 := by
    subst hp
    split
    · exact h
    · assumption
  have h4 : p < 4 := by
    subst hp
    split <;> exact Nat.mod_lt _ (by decide)
  have hb : ∀ b : Bool, b2n b < 2 := by decide
  have := hb (v.getLsbD 2)
  simp only [bits, BitVec.toNat_ofNat]
  omega

/-- A write of a control register keeps the core's invariant (R12, R48). -/
theorem cregWrite_ok {c : Core} {n : Nat} {v : Word} (h : CoreOk c) : CoreOk (cregWrite c n v) := by
  have ht := h.trapSet (n % 2)
  have hk : ∀ x : CoreCtl, x.priv = c.c.priv → x.deleg = c.c.deleg → CoreOk { c with c := x } :=
    fun x h1 h2 => h.keep rfl h1 h2 rfl rfl rfl rfl
  obtain ⟨a1, a2, a3, a4, a5, a6, a7, a8⟩ := id h
  unfold cregWrite
  dsimp only
  refine .ite ?_ (.ite (hk _ rfl rfl) (.ite (hk _ rfl rfl) (.ite ?_ (.ite (hk _ rfl rfl) (.ite ?_ (.ite ?_ (.ite ?_ (.ite ?_ (.ite ?_
    (.ite ?_ (.ite ?_ (.ite (hk _ rfl rfl) (.ite (hk _ rfl rfl) (.ite (hk _ rfl rfl) h))))))))))))))
  · exact ⟨a1, a2, a3, (scfWrite_ok c.r.scf v a5).1, (scfWrite_ok c.r.scf v a5).2, a6, a7, a8⟩
  · exact ⟨a1, pstatWrite_priv _ _ a2, a3, a4, a5, a6, a7, a8⟩
  · refine ⟨a1, a2, ?_, a4, a5, a6, a7, a8⟩
    show (v &&& 0x3F03FE) &&& 0xFFC0FC01 = 0
    rw [BitVec.and_assoc]
    simp
  · exact h.setTrap _ ⟨ht.1, ht.2.1, ht.2.2⟩
  · exact h.setTrap _ ⟨estatWrite_ok _ _ ht.1, ht.2.1, ht.2.2⟩
  · exact h.setTrap _ ⟨ht.1, bundleAlign_mod _, ht.2.2⟩
  · exact h.setTrap _ ⟨a7.1, a7.2.1, lshWrite_ok _ _ a7.2.2⟩
  · exact h.setTrap _ ⟨a8.1, a8.2.1, lshWrite_ok _ _ a8.2.2⟩
  · exact h.setPc a1 a2 rfl rfl (loopRegWrite_ok _ _ a6) a7 a8

/-! ### Commit -/

theorem Core.setPort_ok {c : Core} {sl : Bool} {p : CpPort} (h : CoreOk c) : CoreOk (c.setPort sl p) := by
  unfold Core.setPort
  split <;> exact h.keep rfl rfl rfl rfl rfl rfl rfl

theorem lateReport_ok {c : Core} {sl : Bool} {l : CpLate} (h : CoreOk c) : CoreOk (lateReport c sl l) := by
  unfold lateReport
  split
  · exact Core.setPort_ok h
  · exact h

theorem flagPar_ok {c : Core} {sl par : Bool} (h : CoreOk c) : CoreOk (flagPar c sl par) := by
  unfold flagPar
  repeat' split
  all_goals first
    | exact h
    | exact h.keep rfl rfl rfl rfl rfl rfl rfl

theorem setDirty_ok {c : Core} {sl d : Bool} (h : CoreOk c) : CoreOk (setDirty c sl d) :=
  h.keep rfl rfl rfl rfl rfl rfl rfl

theorem Eff.regs_ok {e : Eff} {f : CoreRegs → CoreRegs} (h : CoreOk e.c) (hf : (f e.c.r).scf = e.c.r.scf) :
    CoreOk (e.regs f).c :=
  h.keep rfl rfl rfl hf rfl rfl rfl

theorem Eff.vec_ok {e : Eff} {vd : BitVec 5} {x : BitVec 512 × Bool} (h : CoreOk e.c) : CoreOk (e.vec vd x).c :=
  h.keep rfl rfl rfl rfl rfl rfl rfl

theorem addAuto_ok {e : Eff} {x : Option Int} (h : CoreOk e.c) : CoreOk (addAuto e x).c := by
  cases x <;> exact h

theorem effPost_ok {old : Core} {o : Op} {e : Eff} (h : CoreOk e.c) : CoreOk (effPost old o e).c := by
  unfold effPost
  split
  · exact Eff.regs_ok h rfl
  · exact h

/-- One operation of a bundle keeps the core's invariant. -/
theorem opEff_ok {old : Core} {got : Got} {l : List Byte} {o : Op} {e : Eff} (h : CoreOk e.c) : CoreOk (opEff old got l o e).c := by
  have hp : CoreOk (effPost old o { e with flags := e.flags ||| got.flags }).c := effPost_ok h
  unfold opEff
  generalize effPost old o { e with flags := e.flags ||| got.flags } = e1 at hp
  cases o
  case mtc => exact cregWrite_ok hp
  case mac k acd va vb =>
    dsimp only
    generalize macOp _ _ _ _ _ = z
    exact Eff.regs_ok (f := fun x => x.putAc acd z.1) hp (Eq.refl e1.c.r.scf)
  case acclr acd =>
    dsimp only
    generalize (0 : BitVec 1280) = z
    exact Eff.regs_ok (f := fun x => x.putAc acd z) hp (Eq.refl e1.c.r.scf)
  case acset acd va =>
    dsimp only
    generalize acsetOp _ = z
    exact Eff.regs_ok (f := fun x => x.putAc acd z) hp (Eq.refl e1.c.r.scf)
  case vsta => exact addAuto_ok hp
  case acmv => exact addAuto_ok (Eff.vec_ok hp)
  case cp sl op f =>
    dsimp only
    split
    · exact Eff.regs_ok hp rfl
    · split
      · exact Eff.regs_ok hp rfl
      · exact hp
  all_goals first
    | with_reducible exact hp
    | with_reducible exact Eff.vec_ok hp
    | exact Eff.regs_ok hp (Eq.refl e1.c.r.scf)

theorem effCore_ok {e : Eff} (h : CoreOk e.c) : CoreOk (effCore e) := by
  obtain ⟨a1, a2, a3, a4, a5, a6, a7, a8⟩ := h
  unfold effCore
  have hs : ∀ x : Option Int, bits (match x with
      | none => e.c.r.scf
      | some d => scfWithExp e.c.r.scf (addExp (scfExp e.c.r.scf) d)).toNat 8 8 = 0 ∧
      bits (match x with
      | none => e.c.r.scf
      | some d => scfWithExp e.c.r.scf (addExp (scfExp e.c.r.scf) d)).toNat 4 2 < 2 := by
    intro x
    cases x with
    | none => exact ⟨a4, a5⟩
    | some d => exact scfWithExp_ok _ _ a4 a5
  exact ⟨a1, a2, a3, (hs e.auto).1, (hs e.auto).2, a6, a7, a8⟩

end Sys2Proof.Machine
end

