-- ==== Sys2Proof/Laws/OkOps.lean ====
section
/-! SUPPORT. Machine/Ops.lean keeps the invariant of Laws/Ok.lean: one lemma for each operation. -/

namespace Sys2Proof.Machine

set_option linter.unusedVariables false
set_option linter.unusedSimpArgs false

theorem State.setClu_ok {q : List Instr} {s : State} {gc : ClusterId} {c : Clu} (h : Ok q s) :
    Ok q (State.setClu s gc c) := by
  unfold State.setClu
  repeat' first
    | with_reducible assumption | with_reducible simp only [↓okUpd]

theorem State.setSlice_ok {q : List Instr} {s : State} {gc : ClusterId} {x : Slice} (h : Ok q s) :
    Ok q (State.setSlice s gc x) := by
  unfold State.setSlice
  repeat' first
    | with_reducible assumption | with_reducible simp only [↓okUpd]

theorem State.updSlice_ok {q : List Instr} {s : State} {gc : ClusterId} {f : Slice → Slice} (h : Ok q s) :
    Ok q (State.updSlice s gc f) := by
  unfold State.updSlice
  repeat' first
    | with_reducible assumption | with_reducible apply State.setSlice_ok

theorem State.setBud_ok {q : List Instr} {s : State} {r : RegionId} {b : Bud} (h : Ok q s) :
    Ok q (State.setBud s r b) := by
  unfold State.setBud
  repeat' first
    | with_reducible assumption | with_reducible simp only [↓okUpd]

theorem State.setEngine_ok {q : List Instr} {s : State} {e : EngId} {x : Engine} (h : Ok q s) :
    Ok q (State.setEngine s e x) := by
  unfold State.setEngine
  repeat' first
    | with_reducible assumption | with_reducible simp only [↓okUpd]

theorem State.setNi_ok {q : List Instr} {s : State} {n : NodeId} {x : Ni} (h : Ok q s) :
    Ok q (State.setNi s n x) := by
  unfold State.setNi
  repeat' first
    | with_reducible assumption | with_reducible simp only [↓okUpd]

theorem State.setElem_ok {q : List Instr} {s : State} {e : Elem} {x : ElemState} (h : Ok q s) :
    Ok q (State.setElem s e x) := by
  unfold State.setElem
  repeat' first
    | with_reducible assumption | with_reducible simp only [↓okUpd]

theorem State.setRing_ok {q : List Instr} {s : State} {n : RingId} {r : Ring} (h : Ok q s) :
    Ok q (State.setRing s n r) := by
  unfold State.setRing
  repeat' first
    | with_reducible assumption | with_reducible simp only [↓okUpd]

theorem State.setHostFn_ok {q : List Instr} {s : State} {n : BitVec 6} {x : HostFn} (h : Ok q s) :
    Ok q (State.setHostFn s n x) := by
  unfold State.setHostFn
  repeat' first
    | with_reducible assumption | with_reducible simp only [↓okUpd]

theorem State.setStrm_ok {q : List Instr} {s : State} {n : StreamId} {x : Strm} (h : Ok q s) :
    Ok q (State.setStrm s n x) := by
  unfold State.setStrm
  repeat' first
    | with_reducible assumption | with_reducible simp only [↓okUpd]

theorem State.setPort_ok {q : List Instr} {s : State} {n : PortId} {x : Port} (h : Ok q s) :
    Ok q (State.setPort s n x) := by
  unfold State.setPort
  repeat' first
    | with_reducible assumption | with_reducible simp only [↓okUpd]

theorem State.setTmr_ok {q : List Instr} {s : State} {n : TimerId} {t : Tmr} (h : Ok q s) :
    Ok q (State.setTmr s n t) := by
  unfold State.setTmr
  repeat' first
    | with_reducible assumption | with_reducible refine okCmk ?_ rfl rfl rfl rfl

theorem State.setMc_ok {q : List Instr} {s : State} {m : Nat} {x : Mc} (h : Ok q s) :
    Ok q (State.setMc s m x) := by
  unfold State.setMc
  repeat' first
    | with_reducible assumption | with_reducible simp only [↓okUpd]

theorem State.setSrc_ok {q : List Instr} {s : State} {n : SourceId} {x : FaultSrc} (h : Ok q s) :
    Ok q (State.setSrc s n x) := by
  unfold State.setSrc
  repeat' first
    | with_reducible assumption | with_reducible simp only [↓okUpd]

theorem State.setRegion_ok {q : List Instr} {s : State} {r : RegionId} {x : RegionState} (h : Ok q s) :
    Ok q (State.setRegion s r x) := by
  unfold State.setRegion
  repeat' first
    | with_reducible assumption | with_reducible simp only [↓okUpd]

theorem tallyAdd_ok {q : List Instr} {s : State} {a : Nat} {n : Nat} (h : Ok q s) :
    Ok q (tallyAdd s a n) := by
  unfold tallyAdd
  repeat' first
    | with_reducible assumption | with_reducible simp only [↓okUpd]

theorem tallyReadLow_ok {q : List Instr} {s : State} {a : Nat} (h : Ok q s) :
    OkP q (tallyReadLow s a) := by
  unfold tallyReadLow
  repeat' first
    | with_reducible assumption | with_reducible apply OkP.mk | with_reducible simp only [↓okUpd]

theorem takeFree_ok {q : List Instr} {s : State} (h : Ok q s) :
    OkP q (takeFree s) := by
  unfold takeFree
  repeat' first
    | with_reducible assumption | with_reducible apply OkP.mk | with_reducible simp only [↓okUpd]

theorem pushEvent_ok {q : List Instr} {s : State} {typ : Nat} {source : SourceId} {act : ActId} {outc : BitVec 5} {detail : Nat} (h : Ok q s) :
    Ok q (pushEvent s typ source act outc detail) := by
  unfold pushEvent
  repeat' first
    | with_reducible assumption | with_reducible apply tallyAdd_ok | with_reducible apply State.setRing_ok | with_reducible apply okIte
    | with_reducible simp only [↓okUpd]

theorem completeCmd_ok {q : List Instr} {s : State} {ring : RingId} {idx : Word} {o : Outc} {flags : Word} {result : Word} {result2 : Word} (h : Ok q s) :
    Ok q (completeCmd s ring idx o flags result result2) := by
  unfold completeCmd
  repeat' first
    | with_reducible assumption | with_reducible apply tallyAdd_ok | with_reducible apply State.setRing_ok | with_reducible apply okIte
    | split | with_reducible simp only [↓okUpd]

theorem completeOk_ok {q : List Instr} {s : State} {ring : RingId} {idx : Word} {o : Outc} (h : Ok q s) :
    Ok q (completeOk s ring idx o) := by
  unfold completeOk
  repeat' first
    | with_reducible assumption | with_reducible apply completeCmd_ok

theorem queueEvent_ok {q : List Instr} {s : State} {n : SourceId} {ev : FaultEv} (h : Ok q s) :
    Ok q (queueEvent s n ev) := by
  unfold queueEvent
  repeat' first
    | with_reducible assumption | with_reducible apply tallyAdd_ok | with_reducible apply okIte | with_reducible simp only [↓okUpd]

theorem report_ok {q : List Instr} {s : State} {n : SourceId} {detail : Word} (h : Ok q s) :
    Ok q (report s n detail) := by
  unfold report
  repeat' first
    | with_reducible assumption | with_reducible apply queueEvent_ok

theorem check_ok {q : List Instr} {s : State} {n : SourceId} {found : Bool} {detail : Word} (h : Ok q s) :
    Ok q (check s n found detail) := by
  unfold check
  repeat' first
    | with_reducible assumption | with_reducible apply report_ok | with_reducible apply queueEvent_ok | with_reducible apply completeCmd_ok
    | with_reducible apply okIte | split | with_reducible simp only [↓okUpd]

theorem State.answer_ok {q : List Instr} {s : State} {a : Ans} (h : Ok q s) :
    Ok q (State.answer s a) := by
  unfold State.answer
  repeat' first
    | with_reducible assumption | with_reducible simp only [↓okUpd]

theorem State.answerOnly_ok {q : List Instr} {s : State} {o : Outc} (h : Ok q s) :
    Ok q (State.answerOnly s o) := by
  unfold State.answerOnly
  repeat' first
    | with_reducible assumption | with_reducible apply State.answer_ok

end Sys2Proof.Machine
end

