-- ==== Sys2Proof/Laws/OkMemory.lean ====
section
/-! SUPPORT. Machine/Memory.lean keeps the invariant of Laws/Ok.lean: one lemma for each operation. -/

namespace Sys2Proof.Machine

set_option linter.unusedVariables false
set_option linter.unusedSimpArgs false

theorem State.setInit_ok {q : List Instr} {s : State} {m : InitMem} {x : InitState} (h : Ok q s) :
    Ok q (State.setInit s m x) := by
  unfold State.setInit
  repeat' first
    | with_reducible assumption | with_reducible simp only [↓okUpd]

theorem startInit_ok {q : List Instr} {s : State} {m : InitMem} (h : Ok q s) :
    Ok q (startInit s m) := by
  unfold startInit
  repeat' first
    | with_reducible assumption | with_reducible apply zeroRange_ok | with_reducible apply State.setInit_ok

theorem startInits_ok {q : List Instr} {s : State} {l : List InitMem} (h : Ok q s) :
    Ok q (startInits s l) := by
  unfold startInits
  repeat' first
    | with_reducible assumption | with_reducible intro _ | with_reducible apply startInit_ok | with_reducible apply okFold

theorem parityWord_ok {q : List Instr} {u : ParityUse} {s : State} {a : Nat} (h : Ok q s) :
    OkP q (parityWord u s a) := by
  unfold parityWord
  repeat' first
    | with_reducible assumption | with_reducible apply tallyAdd_ok | with_reducible apply check_ok | with_reducible apply okIte2 | split
    | with_reducible apply OkP.mk | with_reducible simp only [↓okUpd]

theorem parityWords_ok {q : List Instr} {u : ParityUse} {s : State} {l : List Nat} (h : Ok q s) :
    OkP q (parityWords u s l) := by
  induction l generalizing s with
  | nil => exact h
  | cons a rest ih => exact ih (parityWord_ok h)

theorem parityRead_ok {q : List Instr} {u : ParityUse} {s : State} {a : Nat} {n : Nat} (h : Ok q s) :
    OkP q (parityRead u s a n) := by
  unfold parityRead
  repeat' first
    | with_reducible assumption | with_reducible apply parityWords_ok | with_reducible refine OkP.get ?_ ‹_ = (_, _)› | split
    | with_reducible apply OkP.mk

theorem clearPar_ok {q : List Instr} {s : State} {a : Nat} (h : Ok q s) :
    Ok q (clearPar s a) := by
  unfold clearPar
  repeat' first
    | with_reducible assumption | with_reducible simp only [↓okUpd]

theorem poisonPar_ok {q : List Instr} {s : State} {a : Nat} (h : Ok q s) :
    Ok q (poisonPar s a) := by
  unfold poisonPar
  repeat' first
    | with_reducible assumption | with_reducible simp only [↓okUpd]

theorem parityWrite_ok {q : List Instr} {s : State} {a : Nat} {d : List Byte} (h : Ok q s) :
    Ok q (parityWrite s a d) := by
  unfold parityWrite
  repeat' first
    | with_reducible assumption | with_reducible intro _ | with_reducible apply State.setBytes_ok | with_reducible apply clearPar_ok
    | with_reducible apply okFold

theorem setByteOpt_ok {q : List Instr} {s : State} {a : Nat} {y2 : Option Byte} (h : Ok q s) :
    Ok q (setByteOpt s a y2) := by
  unfold setByteOpt
  repeat' first
    | with_reducible assumption | with_reducible apply State.setByte_ok | split

theorem mergeWord_ok {q : List Instr} {u : ParityUse} {s : State} {a : Nat} {b0 : Option Byte} {b1 : Option Byte} {poisoned : Bool} (h : Ok q s) :
    OkP q (mergeWord u s a b0 b1 poisoned) := by
  unfold mergeWord
  repeat' first
    | with_reducible assumption | with_reducible apply State.setByte_ok | with_reducible apply poisonPar_ok
    | with_reducible apply clearPar_ok | with_reducible apply parityWord_ok | with_reducible apply setByteOpt_ok
    | with_reducible apply okIte2 | with_reducible apply OkP.snd | split | with_reducible apply OkP.mk

theorem parityMerge_ok {q : List Instr} {u : ParityUse} {s : State} {a : Nat} {d : List (Option Byte)} {poison : BitVec 128} (h : Ok q s) :
    OkP q (parityMerge u s a d poison) := by
  unfold parityMerge
  repeat' first
    | with_reducible assumption | with_reducible intro _ | with_reducible apply mergeWord_ok | with_reducible apply okFold2
    | with_reducible refine OkP.get ?_ ‹_ = (_, _)› | with_reducible exact OkP.snd ‹OkP q (_, _)› | with_reducible apply OkP.snd | split
    | with_reducible apply OkP.mk

theorem lastErr_ok {q : List Instr} {s : State} {m : Nat} {word : Nat} {syn : Nat} {typ : Nat} {scrub : Bool} (h : Ok q s) :
    Ok q (lastErr s m word syn typ scrub) := by
  unfold lastErr
  repeat' first
    | with_reducible assumption | with_reducible apply State.setMc_ok

theorem State.setSyn_ok {q : List Instr} {s : State} {a : Nat} {v : BitVec 8} (h : Ok q s) :
    Ok q (State.setSyn s a v) := by
  unfold State.setSyn
  repeat' first
    | with_reducible assumption | with_reducible simp only [↓okUpd]

theorem bulkCheck_ok {q : List Instr} {s : State} {m : Nat} {a : Nat} {scrub : Bool} (h : Ok q s) :
    Ok q (bulkCheck s m a scrub) := by
  unfold bulkCheck
  repeat' first
    | with_reducible assumption | with_reducible apply check_ok

theorem bulkReadWord_ok {q : List Instr} {s : State} {m : Nat} {a : Nat} (h : Ok q s) :
    OkP3 q (bulkReadWord s m a) := by
  unfold bulkReadWord
  repeat' first
    | with_reducible assumption | with_reducible apply bulkCheck_ok | with_reducible apply tallyAdd_ok | with_reducible apply lastErr_ok
    | with_reducible apply OkP.snd | split | with_reducible apply OkP.mk | with_reducible apply OkP3.mk

theorem mapRead_ok {q : List Instr} {s : State} {b : Nat} (h : Ok q s) :
    Ok q (mapRead s b) := by
  unfold mapRead
  repeat' first
    | with_reducible assumption | with_reducible apply check_ok | with_reducible apply tallyAdd_ok | split
    | with_reducible simp only [↓okUpd]

theorem dramCharge_ok {q : List Instr} {s : State} {act : ActId} {n : Nat} (h : Ok q s) :
    Ok q (dramCharge s act n) := by
  unfold dramCharge
  repeat' first
    | with_reducible assumption | with_reducible apply tallyAdd_ok | with_reducible apply okIte | with_reducible simp only [↓okUpd]

theorem bulkRead1_ok {q : List Instr} {s : State} {a n : Nat} {act : ActId} (h : Ok q s) : OkP q (bulkRead1 s a n act) := by
  have hd : Ok q (dramCharge (mapRead s (dramBlk a)) act n) := dramCharge_ok (mapRead_ok h)
  unfold bulkRead1
  split
  · exact OkP.mk h
  · rename_i m _
    have h0 : Ok q (if m < 2 then dramCharge (mapRead s (dramBlk a)) act n else s) := okIte hd h
    dsimp only
    generalize (if m < 2 then dramCharge (mapRead s (dramBlk a)) act n else s) = s0 at h0
    refine okIte2 (OkP.mk (tallyAdd_ok h0)) ?_
    have hf := okFold5 (l := words64 a n) (f := fun (x : List Byte × Outc × Word × List Bool × State) w =>
          let (d, c, t) := bulkReadWord x.2.2.2.2 m w
          let o : Outc := match c with | .clean => .ok | .single _ => .okFlagged | _ => .uncorrectable
          let p := c == .poison || c == .bad
          (x.1 ++ d, joinOutc x.2.1 o, if o = .okFlagged then x.2.2.1 ||| 0x80 else x.2.2.1,
            x.2.2.2.1 ++ List.replicate 4 p, t)) (x := ([], .ok, 0, [], s0))
      (fun y a hy => OkP5.mk (bulkReadWord_ok hy).snd) (OkP5.mk h0)
    exact OkP.mk hf.snd

theorem bulkRead_ok {q : List Instr} {s : State} {a : Nat} {n : Nat} {act : ActId} (h : Ok q s) :
    OkP q (bulkRead s a n act) := by
  unfold bulkRead
  repeat' first
    | with_reducible assumption | with_reducible intro _ | with_reducible apply bulkRead1_ok | with_reducible apply okFold2
    | with_reducible refine OkP.get ?_ ‹_ = (_, _)› | with_reducible exact OkP.snd ‹OkP q (_, _)› | split | with_reducible apply OkP.mk

theorem storeWord_ok {q : List Instr} {s : State} {a : Nat} {d : List Byte} {syn : Nat} {flip : Nat} {chk : Nat} (h : Ok q s) :
    Ok q (storeWord s a d syn flip chk) := by
  unfold storeWord
  repeat' first
    | with_reducible assumption | with_reducible apply State.setSyn_ok | with_reducible apply State.setBytes_ok

theorem bulkWriteWord_ok {q : List Instr} {s : State} {m : Nat} {a : Nat} {w : List (Option Byte)} {poisoned : Bool} {flip : Nat} {chk : Nat} (h : Ok q s) :
    OkP q (bulkWriteWord s m a w poisoned flip chk) := by
  unfold bulkWriteWord
  repeat' first
    | with_reducible assumption | with_reducible apply storeWord_ok | with_reducible apply bulkCheck_ok | with_reducible apply tallyAdd_ok
    | with_reducible apply lastErr_ok | with_reducible apply okIte2 | with_reducible apply OkP.snd | split | with_reducible apply OkP.mk

theorem firstWrite_ok {q : List Instr} {s : State} {a : Nat} (h : Ok q s) :
    Ok q (firstWrite s a) := by
  unfold firstWrite
  repeat' first
    | with_reducible assumption | with_reducible apply zeroRange_ok | with_reducible apply okIte | with_reducible simp only [↓okUpd]

theorem bulkWrite1_ok {q : List Instr} {s : State} {a : Nat} {d : List (Option Byte)} {poison : Nat} {act : ActId} (h : Ok q s) :
    OkP q (bulkWrite1 s a d poison act) := by
  unfold bulkWrite1
  repeat' first
    | with_reducible assumption | with_reducible intro _ | with_reducible apply firstWrite_ok | with_reducible apply dramCharge_ok
    | with_reducible apply mapRead_ok | with_reducible apply State.setMc_ok | with_reducible apply bulkWriteWord_ok
    | with_reducible apply okFold2 | with_reducible exact OkP.snd ‹OkP q (_, _)› | with_reducible apply OkP.snd | split
    | with_reducible apply OkP.mk

theorem bulkWrite_ok {q : List Instr} {s : State} {a : Nat} {d : List (Option Byte)} {poison : BitVec 128} {act : ActId} (h : Ok q s) :
    OkP q (bulkWrite s a d poison act) := by
  unfold bulkWrite
  repeat' first
    | with_reducible assumption | with_reducible intro _ | with_reducible apply bulkWrite1_ok | with_reducible apply okFold2
    | with_reducible exact OkP.snd ‹OkP q (_, _)› | with_reducible apply OkP.snd | with_reducible apply OkP.mk

end Sys2Proof.Machine
end

