-- ==== Sys2Proof/Laws/OkFabricOps.lean ====
section
/-! SUPPORT. Machine/FabricOps.lean keeps the invariant of Laws/Ok.lean: one lemma for each operation. -/

namespace Sys2Proof.Machine

set_option linter.unusedVariables false
set_option linter.unusedSimpArgs false

theorem storeFault_ok {q : List Instr} {s : State} {g : CoreId} {o : Outc} (h : Ok q s) :
    Ok q (storeFault s g o) := by
  unfold storeFault
  repeat' first
    | with_reducible assumption | with_reducible apply State.setCore_ok | with_reducible apply okIte
    | exact CoreOk.keep (Ok.core ‹Ok q _› _) rfl rfl rfl rfl rfl rfl rfl

theorem deliver_ok {q : List Instr} {s : State} {r : NiReq} {a : Ans} (h : Ok q s) :
    Ok q (deliver s r a) := by
  unfold deliver
  repeat' first
    | with_reducible assumption | with_reducible apply storeFault_ok | with_reducible apply State.answer_ok
    | with_reducible apply State.setCore_ok | with_reducible apply okIte
    | exact CoreOk.keep (Ok.core ‹Ok q _› _) rfl rfl rfl rfl rfl rfl rfl | split | with_reducible simp only [↓okUpd]

theorem niIssue_ok {q : List Instr} {s : State} {r : NiReq} (h : Ok q s) :
    Ok q (niIssue s r) := by
  unfold niIssue
  repeat' first
    | with_reducible assumption | with_reducible apply deliver_ok | with_reducible apply tallyAdd_ok | with_reducible apply State.setNi_ok
    | with_reducible apply okIte | split

end Sys2Proof.Machine
end

