-- ==== Sys2Proof/Laws/OkSched.lean ====
section
/-! SUPPORT. Machine/Sched.lean keeps the invariant of Laws/Ok.lean: one lemma for each operation. -/

namespace Sys2Proof.Machine

set_option linter.unusedVariables false
set_option linter.unusedSimpArgs false

theorem schTal_ok {q : List Instr} {s : State} {gc : ClusterId} {off : Nat} {n : Nat} (h : Ok q s) :
    Ok q (schTal s gc off n) := by
  unfold schTal
  repeat' first
    | with_reducible assumption | with_reducible apply tallyAdd_ok

theorem qTal_ok {q : List Instr} {s : State} {qq : QueueId} {off : Nat} {n : Nat} (h : Ok q s) :
    Ok q (qTal s qq off n) := by
  unfold qTal
  repeat' first
    | with_reducible assumption | with_reducible apply tallyAdd_ok

theorem countOut_ok {q : List Instr} {s : State} {qq : QueueId} {at0 : Word} (h : Ok q s) :
    Ok q (countOut s qq at0) := by
  unfold countOut
  repeat' first
    | with_reducible assumption | with_reducible apply qTal_ok

theorem takeHead_ok {q : List Instr} {s : State} {qid : QueueId} {y2 : Nat} (h : Ok q s) :
    OkP q (takeHead s qid y2) := by
  induction y2 generalizing s with
  | zero =>
    unfold takeHead
    repeat' first
      | with_reducible assumption
      | with_reducible intro _
      | with_reducible exact ‹Ok q _›
      | with_reducible apply State.setSlice_ok
      | with_reducible apply report_ok
      | with_reducible apply schTal_ok
      | with_reducible apply okIte
      | with_reducible apply okIte2
      | with_reducible apply okFold
      | with_reducible apply okUpTo
      | with_reducible apply okFold2
      | with_reducible refine OkP.get ?_ ‹_ = (_, _)›
      | with_reducible exact OkP.snd ‹OkP q (_, _)›
      | with_reducible apply OkP.snd
      | split
      | with_reducible apply OkP.mk
      | with_reducible simp only [↓okUpd]
      | dsimp only
  | succ n ih =>
    unfold takeHead
    repeat' first
      | with_reducible assumption
      | with_reducible intro _
      | with_reducible apply ih
      | with_reducible exact ‹Ok q _›
      | with_reducible apply State.setSlice_ok
      | with_reducible apply report_ok
      | with_reducible apply schTal_ok
      | with_reducible apply okIte
      | with_reducible apply okIte2
      | with_reducible apply okFold
      | with_reducible apply okUpTo
      | with_reducible apply okFold2
      | with_reducible refine OkP.get ?_ ‹_ = (_, _)›
      | with_reducible exact OkP.snd ‹OkP q (_, _)›
      | with_reducible apply OkP.snd
      | split
      | with_reducible apply OkP.mk
      | with_reducible simp only [↓okUpd]
      | dsimp only

theorem takeFrom_ok {q : List Instr} {s : State} {qid : QueueId} (h : Ok q s) :
    OkP q (takeFrom s qid) := by
  unfold takeFrom
  repeat' first
    | with_reducible assumption | with_reducible apply takeHead_ok

theorem enqueue_ok {q : List Instr} {s : State} {src : EnqFrom} {qid : QueueId} {e : Entry} (h : Ok q s) :
    OkP q (enqueue s src qid e) := by
  unfold enqueue
  repeat' first
    | with_reducible assumption | with_reducible apply schTal_ok | with_reducible apply qTal_ok | with_reducible apply State.setSlice_ok
    | with_reducible apply okIte2 | split | with_reducible apply OkP.mk

theorem dequeue_ok {q : List Instr} {s : State} {qid : QueueId} (h : Ok q s) :
    OkP q (dequeue s qid) := by
  unfold dequeue
  repeat' first
    | with_reducible assumption | with_reducible apply takeFrom_ok | with_reducible apply countOut_ok | with_reducible apply okIte2
    | with_reducible refine OkP.get ?_ ‹_ = (_, _)› | split | with_reducible apply OkP.mk

theorem takeCand_ok {q : List Instr} {s : State} {gc : ClusterId} {c : Cand} (h : Ok q s) :
    Ok q (takeCand s gc c) := by
  unfold takeCand
  repeat' first
    | with_reducible assumption | with_reducible apply countOut_ok | with_reducible apply State.setSlice_ok | split

theorem setTdesc_ok {q : List Instr} {s : State} {g : CoreId} {e : Entry} (h : Ok q s) :
    Ok q (setTdesc s g e) := by
  unfold setTdesc
  repeat' first
    | with_reducible assumption | with_reducible intro _ | with_reducible apply State.updCore_ok
    | exact CoreOk.keep ‹CoreOk _› rfl rfl rfl rfl rfl rfl rfl

theorem bindTask_ok {q : List Instr} {s : State} {gc : ClusterId} {c : Cand} {k : BitVec 3} (h : Ok q s) :
    Ok q (bindTask s gc c k) := by
  unfold bindTask
  repeat' first
    | with_reducible assumption | with_reducible apply takeCand_ok | with_reducible apply setTdesc_ok | with_reducible apply schTal_ok
    | with_reducible apply State.setSlice_ok

theorem bindPreempt_ok {q : List Instr} {s : State} {gc : ClusterId} {c : Cand} {k : BitVec 3} (h : Ok q s) :
    Ok q (bindPreempt s gc c k) := by
  unfold bindPreempt
  repeat' first
    | with_reducible assumption | with_reducible apply takeCand_ok | with_reducible apply schTal_ok | with_reducible apply State.setSlice_ok

theorem afterEnd_ok {q : List Instr} {s : State} {gc : ClusterId} {k : BitVec 3} {x : Slice} {y : SCore} (h : Ok q s) :
    Ok q (afterEnd s gc k x y) := by
  unfold afterEnd
  repeat' first
    | with_reducible assumption | with_reducible apply setTdesc_ok | with_reducible apply State.setSlice_ok | split

theorem endCmd_ok {q : List Instr} {s : State} {gc : ClusterId} {k : BitVec 3} {result : Word} (h : Ok q s) :
    OkP q (endCmd s gc k result) := by
  unfold endCmd
  repeat' first
    | with_reducible assumption | with_reducible apply afterEnd_ok | with_reducible apply State.setSlice_ok | with_reducible apply schTal_ok
    | with_reducible apply okIte2 | with_reducible apply OkP.snd | split | with_reducible apply OkP.mk

theorem killRunning_ok {q : List Instr} {s : State} {gc : ClusterId} {k : BitVec 3} {t : Task} {o : Outc} (h : Ok q s) :
    Ok q (killRunning s gc k t o) := by
  unfold killRunning
  repeat' first
    | with_reducible assumption | with_reducible apply State.setSlice_ok

theorem dropBound_ok {q : List Instr} {s : State} {gc : ClusterId} {k : BitVec 3} {t : Task} {o : Outc} (h : Ok q s) :
    Ok q (dropBound s gc k t o) := by
  unfold dropBound
  repeat' first
    | with_reducible assumption | with_reducible apply State.setSlice_ok

theorem dropNext_ok {q : List Instr} {s : State} {gc : ClusterId} {k : BitVec 3} {t : Task} {o : Outc} (h : Ok q s) :
    Ok q (dropNext s gc k t o) := by
  unfold dropNext
  repeat' first
    | with_reducible assumption | with_reducible apply State.setSlice_ok

theorem dropSusp_ok {q : List Instr} {s : State} {gc : ClusterId} {k : BitVec 3} {t : Task} {o : Outc} (h : Ok q s) :
    Ok q (dropSusp s gc k t o) := by
  unfold dropSusp
  repeat' first
    | with_reducible assumption | with_reducible apply State.setSlice_ok

theorem queuedRecord_ok {q : List Instr} {s : State} {gc : ClusterId} {lq : BitVec 10} {hh : QEnt} {o : Outc} (h : Ok q s) :
    OkP q (queuedRecord s gc lq hh o) := by
  unfold queuedRecord
  repeat' first
    | with_reducible assumption | with_reducible apply takeFree_ok | with_reducible apply okIte2
    | with_reducible refine OkP.get ?_ ‹_ = (_, _)› | split | with_reducible apply OkP.mk

theorem dropQueued_ok {q : List Instr} {s : State} {gc : ClusterId} {lq : BitVec 10} {hh : QEnt} {o : Outc} (h : Ok q s) :
    Ok q (dropQueued s gc lq hh o) := by
  unfold dropQueued
  repeat' first
    | with_reducible assumption | with_reducible apply queuedRecord_ok | with_reducible apply State.setSlice_ok
    | with_reducible apply OkP.snd

theorem noticeRunning_ok {q : List Instr} {s : State} {gc : ClusterId} {k : BitVec 3} {t : Task} {missed : Bool} (h : Ok q s) :
    Ok q (noticeRunning s gc k t missed) := by
  unfold noticeRunning
  repeat' first
    | with_reducible assumption | with_reducible apply State.setSlice_ok

theorem cancelCore_ok {q : List Instr} {s : State} {gc : ClusterId} {qq : QueueId} {tag : Word} {k : BitVec 3} (h : Ok q s) :
    OkP q (cancelCore s gc qq tag k) := by
  unfold cancelCore
  repeat' first
    | with_reducible assumption | with_reducible intro _ | with_reducible apply dropBound_ok | with_reducible apply killRunning_ok
    | with_reducible apply noticeRunning_ok | with_reducible apply dropNext_ok | with_reducible apply dropSusp_ok
    | with_reducible apply State.setSlice_ok | with_reducible apply okIte2 | with_reducible apply okFold2
    | with_reducible exact OkP.snd ‹OkP q (_, _)› | split | with_reducible apply OkP.mk

theorem cancelEngines_ok {q : List Instr} {s : State} {qq : QueueId} {tag : Word} (h : Ok q s) :
    OkP q (cancelEngines s qq tag) := by
  unfold cancelEngines
  repeat' first
    | with_reducible assumption | with_reducible intro _ | with_reducible apply State.setEngine_ok | with_reducible apply okIte2
    | with_reducible apply okFold2 | with_reducible exact OkP.snd ‹OkP q (_, _)› | with_reducible apply OkP.snd | split
    | with_reducible apply OkP.mk

theorem cancelCmd_ok {q : List Instr} {s : State} {qq : QueueId} {tag : Word} (h : Ok q s) :
    Ok q (cancelCmd s qq tag) := by
  unfold cancelCmd
  repeat' first
    | with_reducible assumption | with_reducible intro _ | with_reducible apply dropQueued_ok | with_reducible apply cancelCore_ok
    | with_reducible apply State.setSlice_ok | with_reducible apply cancelEngines_ok | with_reducible apply schTal_ok
    | with_reducible apply qTal_ok | with_reducible apply okIte | with_reducible apply okIte2 | with_reducible apply okFold2
    | with_reducible refine OkP.get ?_ ‹_ = (_, _)› | with_reducible exact OkP.snd ‹OkP q (_, _)› | with_reducible apply OkP.snd | split
    | with_reducible apply OkP.mk

theorem controlWrite_ok {q : List Instr} {s : State} {src : EnqFrom} {qid : QueueId} {e : Entry} (h : Ok q s) :
    OkP q (controlWrite s src qid e) := by
  unfold controlWrite
  repeat' first
    | with_reducible assumption | with_reducible apply endCmd_ok | with_reducible apply cancelCmd_ok | with_reducible apply okIte2 | split
    | with_reducible apply OkP.mk

theorem missReport_ok {q : List Instr} {s : State} {gc : ClusterId} {qq : QueueId} {k : Option (BitVec 3)} (h : Ok q s) :
    Ok q (missReport s gc qq k) := by
  unfold missReport
  repeat' first
    | with_reducible assumption | with_reducible apply qTal_ok | with_reducible apply schTal_ok | with_reducible apply report_ok

theorem lateQueued_ok {q : List Instr} {s : State} {gc : ClusterId} {lq : BitVec 10} (h : Ok q s) :
    Ok q (lateQueued s gc lq) := by
  unfold lateQueued
  repeat' first
    | with_reducible assumption | with_reducible apply missReport_ok | with_reducible apply dropQueued_ok | with_reducible apply okIte
    | split | with_reducible simp only [↓okUpd]

theorem lateBound_ok {q : List Instr} {s : State} {gc : ClusterId} {k : BitVec 3} (h : Ok q s) :
    Ok q (lateBound s gc k) := by
  unfold lateBound
  repeat' first
    | with_reducible assumption | with_reducible apply missReport_ok | with_reducible apply dropBound_ok | with_reducible apply dropNext_ok
    | with_reducible apply okIte | split | with_reducible simp only [↓okUpd]

theorem lateSusp_ok {q : List Instr} {s : State} {gc : ClusterId} {k : BitVec 3} {i : BitVec 3} (h : Ok q s) :
    Ok q (lateSusp s gc k i) := by
  unfold lateSusp
  repeat' first
    | with_reducible assumption | with_reducible apply missReport_ok | with_reducible apply dropSusp_ok | with_reducible apply okIte | split

theorem lateRunning_ok {q : List Instr} {s : State} {gc : ClusterId} {k : BitVec 3} (h : Ok q s) :
    Ok q (lateRunning s gc k) := by
  unfold lateRunning
  repeat' first
    | with_reducible assumption | with_reducible apply missReport_ok | with_reducible apply killRunning_ok
    | with_reducible apply noticeRunning_ok | with_reducible apply okIte | split | with_reducible simp only [↓okUpd]

theorem takeDispatch_ok {q : List Instr} {s : State} {g : CoreId} (h : Ok q s) :
    Ok q (takeDispatch s g) := by
  unfold takeDispatch
  repeat' first
    | with_reducible assumption | with_reducible apply schTal_ok | with_reducible apply State.setSlice_ok | split
    | with_reducible simp only [↓okUpd]

theorem takePreempt_ok {q : List Instr} {s : State} {g : CoreId} (h : Ok q s) :
    Ok q (takePreempt s g) := by
  unfold takePreempt
  repeat' first
    | with_reducible assumption | with_reducible apply schTal_ok | with_reducible apply setTdesc_ok | with_reducible apply State.setSlice_ok
    | split | with_reducible simp only [↓okUpd]

end Sys2Proof.Machine
end

