-- ==== Sys2Proof/Laws/OkPower.lean ====
section
/-! SUPPORT. Machine/Power.lean keeps the invariant of Laws/Ok.lean: one lemma for each operation. -/

namespace Sys2Proof.Machine

set_option linter.unusedVariables false
set_option linter.unusedSimpArgs false

theorem setClusterPower_ok {q : List Instr} {s : State} {gc : ClusterId} {p : ClusterPower} (h : Ok q s) :
    Ok q (setClusterPower s gc p) := by
  unfold setClusterPower
  repeat' first
    | with_reducible assumption | with_reducible apply State.setRegion_ok

theorem lmpTal_ok {q : List Instr} {s : State} {i : Nat} (h : Ok q s) :
    Ok q (lmpTal s i) := by
  unfold lmpTal
  repeat' first
    | with_reducible assumption | with_reducible apply tallyAdd_ok

theorem startWakeTo_ok {q : List Instr} {s : State} {u : PowerUnit} {src : BitVec 8} {cmd : Option (RingId × Word)} {prev : BitVec 8} {goal : BitVec 8} (h : Ok q s) :
    Ok q (startWakeTo s u src cmd prev goal) := by
  unfold startWakeTo
  repeat' first
    | with_reducible assumption | with_reducible apply okIte | split | with_reducible simp only [↓okUpd]

theorem startWake_ok {q : List Instr} {s : State} {u : PowerUnit} {src : BitVec 8} {cmd : Option (RingId × Word)} {prev : BitVec 8} (h : Ok q s) :
    Ok q (startWake s u src cmd prev) := by
  unfold startWake
  repeat' first
    | with_reducible assumption | with_reducible apply startWakeTo_ok

theorem holdWake_ok {q : List Instr} {s : State} {u : PowerUnit} (h : Ok q s) :
    Ok q (holdWake s u) := by
  unfold holdWake
  repeat' first
    | with_reducible assumption | with_reducible apply startWake_ok | split

theorem stayWake_ok {q : List Instr} {s : State} {t : State} (h : Ok q s) (h2 : Ok q t) :
    Ok q (stayWake s t) := by
  unfold stayWake
  repeat' first
    | with_reducible assumption | with_reducible apply lmpTal_ok | with_reducible apply okIte | with_reducible simp only [↓okUpd]

theorem holdWhole_ok {q : List Instr} {s : State} {u : PowerUnit} (h : Ok q s) :
    Ok q (holdWhole s u) := by
  unfold holdWhole
  repeat' first
    | with_reducible assumption | with_reducible apply stayWake_ok | with_reducible apply holdWake_ok

theorem unitResetCore_ok {q : List Instr} {s : State} {g : CoreId} (h : Ok q s) :
    Ok q (unitResetCore s g) := by
  unfold unitResetCore
  repeat' first
    | with_reducible assumption | with_reducible apply startInits_ok | with_reducible apply State.setCore_ok
    | with_reducible exact CoreOk.reset

theorem unitResetEngine_ok {q : List Instr} {s : State} {e : EngId} (h : Ok q s) :
    Ok q (unitResetEngine s e) := by
  unfold unitResetEngine
  repeat' first
    | with_reducible assumption | with_reducible apply State.setEngine_ok

theorem clusterReset_ok {q : List Instr} {s : State} {gc : ClusterId} (h : Ok q s) :
    Ok q (clusterReset s gc) := by
  unfold clusterReset
  repeat' first
    | with_reducible assumption | with_reducible intro _ | with_reducible apply State.setCore_ok | with_reducible apply startInits_ok
    | with_reducible apply State.setClu_ok | with_reducible apply State.setSlice_ok | with_reducible apply okFold
    | with_reducible exact CoreOk.reset

theorem regionReset_ok {q : List Instr} {s : State} {r : RegionId} (h : Ok q s) :
    Ok q (regionReset s r) := by
  unfold regionReset
  repeat' first
    | with_reducible assumption | with_reducible intro _ | with_reducible apply clusterReset_ok | with_reducible apply unitResetEngine_ok
    | with_reducible apply startInit_ok | with_reducible apply State.setBud_ok | with_reducible apply okFold

theorem powerEvent_ok {q : List Instr} {s : State} {w : WakeTx} {o : Outc} (h : Ok q s) :
    Ok q (powerEvent s w o) := by
  unfold powerEvent
  repeat' first
    | with_reducible assumption | with_reducible apply pushEvent_ok

theorem regionUp_ok {q : List Instr} {s : State} {r : RegionId} (h : Ok q s) :
    Ok q (regionUp s r) := by
  unfold regionUp
  repeat' first
    | with_reducible assumption | with_reducible apply State.setRegion_ok | with_reducible apply regionReset_ok | with_reducible apply okIte

theorem packageUp_ok {q : List Instr} {s : State} (h : Ok q s) :
    Ok q (packageUp s) := by
  unfold packageUp
  repeat' first
    | with_reducible assumption | with_reducible intro _ | with_reducible apply regionUp_ok | with_reducible apply okIte
    | with_reducible apply okFold | with_reducible simp only [↓okUpd]

theorem unitUp_ok {q : List Instr} {s : State} {goal : BitVec 8} {y2 : PowerUnit} (h : Ok q s) :
    Ok q (unitUp s goal y2) := by
  unfold unitUp
  repeat' first
    | with_reducible assumption | with_reducible apply packageUp_ok | with_reducible apply regionUp_ok
    | with_reducible apply State.setRegion_ok | with_reducible apply clusterReset_ok | with_reducible apply okIte | split

theorem dropWake_ok {q : List Instr} {s : State} {u : PowerUnit} (h : Ok q s) :
    Ok q (dropWake s u) := by
  unfold dropWake
  repeat' first
    | with_reducible assumption | with_reducible simp only [↓okUpd]

theorem finishWake_ok {q : List Instr} {s : State} {w : WakeTx} (h : Ok q s) :
    Ok q (finishWake s w) := by
  unfold finishWake
  repeat' first
    | with_reducible assumption | with_reducible apply lmpTal_ok | with_reducible apply unitUp_ok | with_reducible apply dropWake_ok
    | with_reducible apply powerEvent_ok | with_reducible apply completeCmd_ok | split

theorem failWake_ok {q : List Instr} {s : State} {w : WakeTx} {step : Nat} (h : Ok q s) :
    Ok q (failWake s w step) := by
  unfold failWake
  repeat' first
    | with_reducible assumption | with_reducible apply lmpTal_ok | with_reducible apply dropWake_ok | with_reducible apply report_ok
    | with_reducible apply State.setRegion_ok | with_reducible apply completeOk_ok | split | with_reducible simp only [↓okUpd]

end Sys2Proof.Machine
end

