-- ==== Sys2Proof/Laws/OkPath.lean ====
section
/-! SUPPORT. Machine/Path.lean keeps the invariant of Laws/Ok.lean: one lemma for each operation. -/

namespace Sys2Proof.Machine

set_option linter.unusedVariables false
set_option linter.unusedSimpArgs false

theorem State.setRPort_ok {q : List Instr} {s : State} {e : Elem} {p : Nat} {x : RPort} (h : Ok q s) :
    Ok q (State.setRPort s e p x) := by
  unfold State.setRPort
  repeat' first
    | with_reducible assumption | with_reducible apply State.setElem_ok

theorem portCount_ok {q : List Instr} {s : State} {e : Elem} {p : Nat} {i : Nat} {n : Nat} (h : Ok q s) :
    Ok q (portCount s e p i n) := by
  unfold portCount
  repeat' first
    | with_reducible assumption | with_reducible apply tallyAdd_ok | split

theorem routeCheck_ok {q : List Instr} {s : State} {n : NodeId} {pa : Pa} (h : Ok q s) :
    OkP q (routeCheck s n pa) := by
  unfold routeCheck
  repeat' first
    | with_reducible assumption | with_reducible apply tallyAdd_ok | with_reducible apply okIte2 | split | with_reducible apply OkP.mk

theorem queueAt_ok {q : List Instr} {qq : QueueId} {t : State} (h : Ok q t) :
    OkP q (queueAt qq t) := by
  unfold queueAt
  repeat' first
    | with_reducible assumption | with_reducible apply lmpTal_ok | split | with_reducible apply OkP.mk

theorem queueWalked_ok {q : List Instr} {n : NodeId} {d : NodeId} {qq : QueueId} {t : State} {y4 : Walk} (h : Ok q t) :
    OkP q (queueWalked n d qq t y4) := by
  unfold queueWalked
  repeat' first
    | with_reducible assumption | with_reducible apply portCount_ok | with_reducible apply tallyAdd_ok | with_reducible apply queueAt_ok
    | with_reducible apply okIte2 | split | with_reducible apply OkP.mk

theorem queueRouted_ok {q : List Instr} {n : NodeId} {qq : QueueId} {y2 : Option NodeId × State} (h : OkP q (y2)) :
    OkP q (queueRouted n qq y2) := by
  unfold queueRouted
  repeat' first
    | with_reducible apply queueWalked_ok | with_reducible exact OkP.snd ‹OkP q (_, _)› | split | with_reducible apply OkP.mk

theorem queueWay_ok {q : List Instr} {s : State} {n : NodeId} {qq : QueueId} (h : Ok q s) :
    OkP q (queueWay s n qq) := by
  unfold queueWay
  repeat' first
    | with_reducible assumption | with_reducible apply queueRouted_ok | with_reducible apply routeCheck_ok

theorem regShut_ok {q : List Instr} {s : State} {who : Initiator} {pa : Nat} (h : Ok q s) :
    Ok q (regShut s who pa) := by
  unfold regShut
  repeat' first
    | with_reducible assumption | with_reducible apply routeCheck_ok | with_reducible apply State.answerOnly_ok
    | with_reducible apply portCount_ok | with_reducible apply tallyAdd_ok | with_reducible apply lmpTal_ok
    | with_reducible apply holdWhole_ok | with_reducible apply okIte | with_reducible refine OkP.get ?_ ‹_ = (_, _)› | split
    | with_reducible simp only [↓okUpd]

theorem regCmd_ok {q : List Instr} {s : State} {who : Initiator} {pa : Nat} {eff : State → State} (h : Ok q s) (h2 : ∀ x0, Ok q x0 → Ok q (eff x0)) :
    Ok q (regCmd s who pa eff) := by
  unfold regCmd
  repeat' first
    | with_reducible assumption | with_reducible apply h2 | with_reducible apply regShut_ok | with_reducible apply okIte

end Sys2Proof.Machine
end

