-- ==== Sys2Proof/Laws/OkRegTools.lean ====
section
/-! SUPPORT. Machine/RegTools.lean keeps the invariant of Laws/Ok.lean: one lemma for each operation. -/

namespace Sys2Proof.Machine

set_option linter.unusedVariables false
set_option linter.unusedSimpArgs false

theorem rdVal_ok {q : List Instr} {s : State} {v : Word} (h : Ok q s) :
    OkO q (rdVal s v) := by
  unfold rdVal
  repeat' first
    | with_reducible assumption | with_reducible apply OkO.some | with_reducible apply OkP.mk

theorem rdPack_ok {q : List Instr} {s : State} {l : List (Nat × Nat)} (h : Ok q s) :
    OkO q (rdPack s l) := by
  unfold rdPack
  repeat' first
    | with_reducible assumption | with_reducible apply OkO.some | with_reducible apply OkP.mk

theorem wrOk_ok {q : List Instr} {s : State} (h : Ok q s) :
    OkO q (wrOk s) := by
  unfold wrOk
  repeat' first
    | with_reducible assumption | with_reducible apply OkO.some | with_reducible apply OkP.mk

theorem wrNo_ok {q : List Instr} {s : State} (h : Ok q s) :
    OkO q (wrNo s) := by
  unfold wrNo
  repeat' first
    | with_reducible assumption | with_reducible apply OkO.some | with_reducible apply OkP.mk

theorem tallyRead_ok {q : List Instr} {s : State} {lowPa : Nat} {high : Bool} (h : Ok q s) :
    OkO q (tallyRead s lowPa high) := by
  unfold tallyRead
  repeat' first
    | with_reducible assumption | with_reducible apply tallyReadLow_ok | with_reducible apply okIteO | with_reducible apply OkO.some
    | with_reducible apply OkP.mk

theorem talRead_ok {q : List Instr} {s : State} {base : Nat} {off : Nat} (h : Ok q s) :
    OkO q (talRead s base off) := by
  unfold talRead
  repeat' first
    | with_reducible assumption | with_reducible apply tallyRead_ok

end Sys2Proof.Machine
end

