-- ==== Sys2Proof/Laws/OkBudget.lean ====
section
/-! SUPPORT. Machine/Budget.lean keeps the invariant of Laws/Ok.lean: one lemma for each operation. -/

namespace Sys2Proof.Machine

set_option linter.unusedVariables false
set_option linter.unusedSimpArgs false

theorem budTal_ok {q : List Instr} {s : State} {r : RegionId} {a : ActId} {off : Nat} {n : Nat} (h : Ok q s) :
    Ok q (budTal s r a off n) := by
  unfold budTal
  repeat' first
    | with_reducible assumption | with_reducible apply tallyAdd_ok

theorem budAllTal_ok {q : List Instr} {s : State} {r : RegionId} {off : Nat} (h : Ok q s) :
    Ok q (budAllTal s r off) := by
  unfold budAllTal
  repeat' first
    | with_reducible assumption | with_reducible apply tallyAdd_ok

theorem overrun_ok {q : List Instr} {s : State} {gc : ClusterId} {a : ActId} {n : Nat} (h : Ok q s) :
    Ok q (overrun s gc a n) := by
  unfold overrun
  repeat' first
    | with_reducible assumption | with_reducible apply schTal_ok | with_reducible apply budTal_ok | with_reducible apply report_ok
    | with_reducible apply State.setBud_ok | with_reducible apply okIte

theorem chargeCycle_ok {q : List Instr} {s : State} {gc : ClusterId} {k : BitVec 3} (h : Ok q s) :
    Ok q (chargeCycle s gc k) := by
  unfold chargeCycle
  repeat' first
    | with_reducible assumption | with_reducible apply budTal_ok | with_reducible apply State.setSlice_ok | with_reducible apply overrun_ok
    | with_reducible apply okIte | split | with_reducible simp only [↓okUpd]

theorem budAnswer_ok {q : List Instr} {s : State} {r : RegionId} {a : ActId} (h : Ok q s) :
    OkP q (budAnswer s r a) := by
  unfold budAnswer
  repeat' first
    | with_reducible assumption | with_reducible apply budAllTal_ok | with_reducible apply State.setBud_ok | with_reducible apply budTal_ok
    | with_reducible apply okIte2 | split | with_reducible apply OkP.mk

theorem doChunkRequest_ok {q : List Instr} {s : State} {gc : ClusterId} {a : ActId} (h : Ok q s) :
    Ok q (doChunkRequest s gc a) := by
  unfold doChunkRequest
  repeat' first
    | with_reducible assumption | with_reducible apply budAnswer_ok | with_reducible apply State.setBud_ok
    | with_reducible apply State.setSlice_ok | with_reducible apply okIte | with_reducible apply OkP.snd

theorem budgetPreempt_ok {q : List Instr} {s : State} {gc : ClusterId} {k : BitVec 3} (h : Ok q s) :
    Ok q (budgetPreempt s gc k) := by
  unfold budgetPreempt
  repeat' first
    | with_reducible assumption | with_reducible apply schTal_ok | with_reducible apply State.setSlice_ok | with_reducible apply okIte
    | split | with_reducible simp only [↓okUpd]

theorem exhaust_ok {q : List Instr} {s : State} {gc : ClusterId} {a : ActId} (h : Ok q s) :
    Ok q (exhaust s gc a) := by
  unfold exhaust
  repeat' first
    | with_reducible assumption | with_reducible intro _ | with_reducible apply State.setSlice_ok | with_reducible apply overrun_ok
    | with_reducible apply budgetPreempt_ok | with_reducible apply okFold

theorem doChunkAnswer_ok {q : List Instr} {s : State} {gc : ClusterId} {a : ActId} (h : Ok q s) :
    Ok q (doChunkAnswer s gc a) := by
  unfold doChunkAnswer
  repeat' first
    | with_reducible assumption | with_reducible apply State.setBud_ok | with_reducible apply State.setSlice_ok
    | with_reducible apply exhaust_ok | with_reducible apply okIte | split | with_reducible simp only [↓okUpd]

theorem jobCheck_ok {q : List Instr} {s : State} {r : RegionId} {a : ActId} {c : Nat} (h : Ok q s) :
    OkP q (jobCheck s r a c) := by
  unfold jobCheck
  repeat' first
    | with_reducible assumption | with_reducible apply State.setBud_ok | with_reducible apply okIte2 | split | with_reducible apply OkP.mk

theorem jobBorrow_ok {q : List Instr} {s : State} {r : RegionId} {a : ActId} {c : Nat} (h : Ok q s) :
    OkP q (jobBorrow s r a c) := by
  unfold jobBorrow
  repeat' first
    | with_reducible assumption | with_reducible apply budTal_ok | with_reducible apply State.setBud_ok | with_reducible apply okIte2
    | with_reducible apply OkP.mk

theorem clearHolds_ok {q : List Instr} {s : State} {r : RegionId} {a : ActId} {par : Bool} (h : Ok q s) :
    Ok q (clearHolds s r a par) := by
  unfold clearHolds
  repeat' first
    | with_reducible assumption | with_reducible intro _ | with_reducible apply State.setSlice_ok | with_reducible apply okFold

theorem budEdge_ok {q : List Instr} {s : State} {r : RegionId} {a : ActId} (h : Ok q s) :
    Ok q (budEdge s r a) := by
  unfold budEdge
  repeat' first
    | with_reducible assumption | with_reducible apply clearHolds_ok | with_reducible apply State.setBud_ok

theorem reserveFill_ok {q : List Instr} {s : State} {r : RegionId} (h : Ok q s) :
    Ok q (reserveFill s r) := by
  unfold reserveFill
  repeat' first
    | with_reducible assumption | with_reducible apply State.setBud_ok

theorem doBudgetEdge_ok {q : List Instr} {s : State} {r : RegionId} {a : ActId} (h : Ok q s) :
    Ok q (doBudgetEdge s r a) := by
  unfold doBudgetEdge
  repeat' first
    | with_reducible assumption | with_reducible apply budEdge_ok | with_reducible apply okIte

theorem doReserveEdge_ok {q : List Instr} {s : State} {r : RegionId} (h : Ok q s) :
    Ok q (doReserveEdge s r) := by
  unfold doReserveEdge
  repeat' first
    | with_reducible assumption | with_reducible apply reserveFill_ok | with_reducible apply okIte

theorem State.setDbud_ok {q : List Instr} {s : State} {a : ActId} {d : DBud} (h : Ok q s) :
    Ok q (State.setDbud s a d) := by
  unfold State.setDbud
  repeat' first
    | with_reducible assumption | with_reducible simp only [↓okUpd]

theorem dbudEdge_ok {q : List Instr} {s : State} {a : ActId} (h : Ok q s) :
    Ok q (dbudEdge s a) := by
  unfold dbudEdge
  repeat' first
    | with_reducible assumption | with_reducible apply State.setDbud_ok

theorem doDramEdge_ok {q : List Instr} {s : State} {a : ActId} (h : Ok q s) :
    Ok q (doDramEdge s a) := by
  unfold doDramEdge
  repeat' first
    | with_reducible assumption | with_reducible apply dbudEdge_ok | with_reducible apply okIte

theorem budCfgWrite_ok {q : List Instr} {s : State} {r : RegionId} {a : ActId} {v : Word} (h : Ok q s) :
    OkP q (budCfgWrite s r a v) := by
  unfold budCfgWrite
  repeat' first
    | with_reducible assumption | with_reducible intro _ | with_reducible apply State.setBud_ok | with_reducible apply budEdge_ok
    | with_reducible apply State.setSlice_ok | with_reducible apply okIte2 | with_reducible apply okFold | with_reducible apply OkP.mk

theorem budWordWrite_ok {q : List Instr} {s : State} {r : RegionId} {a : ActId} {i : BudWord} {v : Word} (h : Ok q s) :
    Ok q (budWordWrite s r a i v) := by
  unfold budWordWrite
  repeat' first
    | with_reducible assumption | with_reducible apply State.setBud_ok

theorem rsvCfgWrite_ok {q : List Instr} {s : State} {r : RegionId} {v : Word} (h : Ok q s) :
    Ok q (rsvCfgWrite s r v) := by
  unfold rsvCfgWrite
  repeat' first
    | with_reducible assumption | with_reducible apply State.setBud_ok | with_reducible apply reserveFill_ok | with_reducible apply okIte

theorem dbudCfgWrite_ok {q : List Instr} {s : State} {a : ActId} {v : Word} (h : Ok q s) :
    Ok q (dbudCfgWrite s a v) := by
  unfold dbudCfgWrite
  repeat' first
    | with_reducible assumption | with_reducible apply State.setDbud_ok | with_reducible apply dbudEdge_ok | with_reducible apply okIte

theorem dbudLimWrite_ok {q : List Instr} {s : State} {a : ActId} {v : Word} (h : Ok q s) :
    Ok q (dbudLimWrite s a v) := by
  unfold dbudLimWrite
  repeat' first
    | with_reducible assumption | with_reducible apply State.setDbud_ok

theorem budRead_ok {q : List Instr} {s : State} {r : RegionId} {off : Nat} (h : Ok q s) :
    OkO q (budRead s r off) := by
  unfold budRead
  repeat' first
    | with_reducible assumption | with_reducible apply rdPack_ok | with_reducible apply rdVal_ok | with_reducible apply talRead_ok
    | with_reducible apply okIteO | with_reducible exact OkO.none | split

theorem budWrite_ok {q : List Instr} {s : State} {r : RegionId} {off : Nat} {v : Word} (h : Ok q s) :
    OkO q (budWrite s r off v) := by
  unfold budWrite
  repeat' first
    | with_reducible assumption | with_reducible apply budCfgWrite_ok | with_reducible apply wrOk_ok | with_reducible apply budWordWrite_ok
    | with_reducible apply rsvCfgWrite_ok | with_reducible apply State.setBud_ok | with_reducible apply okIteO
    | with_reducible apply OkO.some | with_reducible exact OkO.none | split

theorem execChunkRequest_ok {q : List Instr} {gc : ClusterId} {act : ActId} {s : State} (h : Ok q s) :
    OkN q (execChunkRequest gc act s) := by
  unfold execChunkRequest
  repeat' first
    | with_reducible assumption | with_reducible apply doChunkRequest_ok | with_reducible apply OkN.next

theorem execChunkAnswer_ok {q : List Instr} {gc : ClusterId} {act : ActId} {s : State} (h : Ok q s) :
    OkN q (execChunkAnswer gc act s) := by
  unfold execChunkAnswer
  repeat' first
    | with_reducible assumption | with_reducible apply doChunkAnswer_ok | with_reducible apply OkN.next

theorem execBudgetPeriodEdge_ok {q : List Instr} {r : RegionId} {act : ActId} {s : State} (h : Ok q s) :
    OkN q (execBudgetPeriodEdge r act s) := by
  unfold execBudgetPeriodEdge
  repeat' first
    | with_reducible assumption | with_reducible apply doBudgetEdge_ok | with_reducible apply OkN.next

theorem execReservePeriodEdge_ok {q : List Instr} {r : RegionId} {s : State} (h : Ok q s) :
    OkN q (execReservePeriodEdge r s) := by
  unfold execReservePeriodEdge
  repeat' first
    | with_reducible assumption | with_reducible apply doReserveEdge_ok | with_reducible apply OkN.next

theorem execDramBudgetPeriodEdge_ok {q : List Instr} {act : ActId} {s : State} (h : Ok q s) :
    OkN q (execDramBudgetPeriodEdge act s) := by
  unfold execDramBudgetPeriodEdge
  repeat' first
    | with_reducible assumption | with_reducible apply doDramEdge_ok | with_reducible apply OkN.next

theorem wrAnswer_ok {q : List Instr} {x : Outc × State} (h : OkP q (x)) :
    Ok q (wrAnswer x) := by
  unfold wrAnswer
  repeat' first
    | with_reducible apply State.answerOnly_ok | with_reducible exact OkP.snd ‹OkP q (_, _)›

theorem execBudgetEnable_ok {q : List Instr} {who : Initiator} {r : RegionId} {act : ActId} {v : Word} {s : State} (h : Ok q s) :
    OkN q (execBudgetEnable who r act v s) := by
  unfold execBudgetEnable
  repeat' first
    | with_reducible assumption | with_reducible intro _ | with_reducible apply regCmd_ok | with_reducible apply wrAnswer_ok
    | with_reducible apply budCfgWrite_ok | with_reducible apply OkN.next

theorem execBudgetDisable_ok {q : List Instr} {who : Initiator} {r : RegionId} {act : ActId} {v : Word} {s : State} (h : Ok q s) :
    OkN q (execBudgetDisable who r act v s) := by
  unfold execBudgetDisable
  repeat' first
    | with_reducible assumption | with_reducible intro _ | with_reducible apply regCmd_ok | with_reducible apply wrAnswer_ok
    | with_reducible apply budCfgWrite_ok | with_reducible apply OkN.next

theorem execReserveEnable_ok {q : List Instr} {who : Initiator} {r : RegionId} {v : Word} {s : State} (h : Ok q s) :
    OkN q (execReserveEnable who r v s) := by
  unfold execReserveEnable
  repeat' first
    | with_reducible assumption | with_reducible intro _ | with_reducible apply regCmd_ok | with_reducible apply wrAnswer_ok
    | with_reducible apply rsvCfgWrite_ok | with_reducible apply OkN.next | with_reducible apply OkP.mk

theorem execBudBudgetWrite_ok {q : List Instr} {who : Initiator} {r : RegionId} {act : ActId} {w : BudWord} {v : Word} {s : State} (h : Ok q s) :
    OkN q (execBudBudgetWrite who r act w v s) := by
  unfold execBudBudgetWrite
  repeat' first
    | with_reducible assumption | with_reducible intro _ | with_reducible apply regCmd_ok | with_reducible apply wrAnswer_ok
    | with_reducible apply budWordWrite_ok | with_reducible apply OkN.next | with_reducible apply OkP.mk

end Sys2Proof.Machine
end

