-- ==== Sys2Proof/Laws/OkSchedRegs.lean ====
section
/-! SUPPORT. Machine/SchedRegs.lean keeps the invariant of Laws/Ok.lean: one lemma for each operation. -/

namespace Sys2Proof.Machine

set_option linter.unusedVariables false
set_option linter.unusedSimpArgs false

theorem cluWbaseEff_ok {q : List Instr} {s : State} {gc : ClusterId} {n : BitVec 4} {v : Word} (h : Ok q s) :
    Ok q (cluWbaseEff s gc n v) := by
  unfold cluWbaseEff
  repeat' first
    | with_reducible assumption | with_reducible apply State.setClu_ok

theorem cluWlenEff_ok {q : List Instr} {s : State} {gc : ClusterId} {n : BitVec 4} {v : Word} (h : Ok q s) :
    Ok q (cluWlenEff s gc n v) := by
  unfold cluWlenEff
  repeat' first
    | with_reducible assumption | with_reducible apply State.setClu_ok | with_reducible apply okIte

theorem cmInitEff_ok {q : List Instr} {s : State} {gc : ClusterId} (h : Ok q s) :
    Ok q (cmInitEff s gc) := by
  unfold cmInitEff
  repeat' first
    | with_reducible assumption | with_reducible apply startInit_ok | with_reducible apply okIte

theorem doInitDone_ok {q : List Instr} {s : State} {m : InitMem} (h : Ok q s) :
    Ok q (doInitDone s m) := by
  unfold doInitDone
  repeat' first
    | with_reducible assumption | with_reducible apply State.setInit_ok | with_reducible apply okIte

theorem cluRead_ok {q : List Instr} {s : State} {gc : ClusterId} {off : Nat} (h : Ok q s) :
    OkO q (cluRead s gc off) := by
  unfold cluRead
  repeat' first
    | with_reducible assumption | with_reducible apply rdPack_ok | with_reducible apply rdVal_ok | with_reducible apply talRead_ok
    | with_reducible apply okIteO | with_reducible exact OkO.none | split

theorem cluWrite_ok {q : List Instr} {s : State} {gc : ClusterId} {off : Nat} {v : Word} (h : Ok q s) :
    OkO q (cluWrite s gc off v) := by
  unfold cluWrite
  repeat' first
    | with_reducible assumption | with_reducible apply wrOk_ok | with_reducible apply cmInitEff_ok | with_reducible apply cluWbaseEff_ok
    | with_reducible apply cluWlenEff_ok | with_reducible apply okIte | with_reducible apply okIteO | with_reducible exact OkO.none | split

theorem qcfgWrite_ok {q : List Instr} {s : State} {gc : ClusterId} {v : Word} (h : Ok q s) :
    OkP q (qcfgWrite s gc v) := by
  unfold qcfgWrite
  repeat' first
    | with_reducible assumption | with_reducible apply State.setSlice_ok | with_reducible apply OkP.snd | split
    | with_reducible apply OkP.mk

theorem schRead_ok {q : List Instr} {s : State} {gc : ClusterId} {off : Nat} (h : Ok q s) :
    OkO q (schRead s gc off) := by
  unfold schRead
  repeat' first
    | with_reducible assumption | with_reducible apply rdPack_ok | with_reducible apply rdVal_ok | with_reducible apply talRead_ok
    | with_reducible apply tallyRead_ok | with_reducible apply okIteO | with_reducible exact OkO.none | split

theorem schWrite_ok {q : List Instr} {s : State} {gc : ClusterId} {off : Nat} {v : Word} (h : Ok q s) :
    OkO q (schWrite s gc off v) := by
  unfold schWrite
  repeat' first
    | with_reducible assumption | with_reducible apply wrOk_ok | with_reducible apply State.setSlice_ok | with_reducible apply wrNo_ok
    | with_reducible apply qcfgWrite_ok | with_reducible apply okIteO | with_reducible apply OkO.some | with_reducible exact OkO.none
    | split

end Sys2Proof.Machine
end

