-- ==== Sys2Proof/Laws/OkCoreCtl.lean ====
section
/-! SUPPORT. Machine/CoreCtl.lean keeps the invariant of Laws/Ok.lean: one lemma for each operation. -/

namespace Sys2Proof.Machine

set_option linter.unusedVariables false
set_option linter.unusedSimpArgs false

theorem boundary_ok {q : List Instr} {s : State} {g : CoreId} (h : Ok q s) :
    Ok q (boundary s g) := by
  unfold boundary
  repeat' first
    | with_reducible assumption | with_reducible apply State.setCore_ok | with_reducible apply okIte
    | exact CoreOk.keep (Ok.core ‹Ok q _› _) rfl rfl rfl rfl rfl rfl rfl

theorem trap_ok {q : List Instr} {s : State} {g : CoreId} {cause : Nat} {tval : Word} {epc : BitVec 16} (h : Ok q s) :
    Ok q (trap s g cause tval epc) := by
  unfold trap
  repeat' first
    | with_reducible assumption | with_reducible apply boundary_ok | with_reducible apply tallyAdd_ok
    | with_reducible apply State.setCore_ok | exact CoreOk.keep (Ok.core ‹Ok q _› _) rfl rfl rfl rfl rfl rfl rfl
    | with_reducible apply enterCore_ok

theorem intTaken_ok {q : List Instr} {s : State} {g : CoreId} {code : Nat} (h : Ok q s) :
    Ok q (intTaken s g code) := by
  unfold intTaken
  repeat' first
    | with_reducible assumption | with_reducible intro _ | with_reducible apply State.updCore_ok | with_reducible apply takePreempt_ok
    | with_reducible apply State.updSlice_ok | with_reducible apply takeDispatch_ok | with_reducible apply okIte
    | exact CoreOk.keep ‹CoreOk _› rfl rfl rfl rfl rfl rfl rfl | split

theorem takeInt_ok {q : List Instr} {s : State} {g : CoreId} {code : Nat} {tval : Word} (h : Ok q s) :
    Ok q (takeInt s g code tval) := by
  unfold takeInt
  repeat' first
    | with_reducible assumption | with_reducible apply State.setCore_ok | with_reducible apply boundary_ok
    | with_reducible apply intTaken_ok | exact CoreOk.keep (Ok.core ‹Ok q _› _) rfl rfl rfl rfl rfl rfl rfl
    | with_reducible apply enterCore_ok

end Sys2Proof.Machine
end

