-- ==== Sys2Proof/Laws/OkCoreExec.lean ====
section
/-! SUPPORT. Machine/CoreExec.lean keeps the invariant of Laws/Ok.lean: one lemma for each operation. -/

namespace Sys2Proof.Machine

set_option linter.unusedVariables false
set_option linter.unusedSimpArgs false

theorem readOwn_ok {q : List Instr} {u : ParityUse} {s : State} {pa : Nat} {p : ReadPiece} (h : Ok q s) :
    OkP q (readOwn u s pa p) := by
  unfold readOwn
  repeat' first
    | with_reducible assumption | with_reducible apply parityWords_ok | with_reducible apply OkP.snd | with_reducible apply OkP.mk

theorem readPiece_ok {q : List Instr} {s : State} {g : CoreId} {hh : Held} {slot : Nat} {i : Nat} {p : ReadPiece} (h : Ok q s) :
    OkP q (readPiece s g hh slot i p) := by
  unfold readPiece
  repeat' first
    | with_reducible assumption | with_reducible apply readOwn_ok | split | with_reducible apply OkP.mk

theorem readSlot_ok {q : List Instr} {s : State} {g : CoreId} {hh : Held} {slot : Nat} (h : Ok q s) :
    OkP q (readSlot s g hh slot) := by
  unfold readSlot
  repeat' first
    | with_reducible assumption | with_reducible intro _ | with_reducible apply readPiece_ok | with_reducible apply okFold2
    | with_reducible refine OkP.get ?_ ‹_ = (_, _)› | with_reducible exact OkP.snd ‹OkP q (_, _)› | split | with_reducible apply OkP.mk

theorem readAll_ok {q : List Instr} {s : State} {g : CoreId} {hh : Held} (h : Ok q s) :
    OkP4 q (readAll s g hh) := by
  unfold readAll
  repeat' first
    | with_reducible assumption | with_reducible apply readSlot_ok | with_reducible refine OkP.get ?_ ‹_ = (_, _)› | split
    | with_reducible apply OkP4.mk | with_reducible simp only [↓okUpd]

theorem staticTrap_ok {q : List Instr} {s : State} {g : CoreId} {b : Bundle} (h : Ok q s) :
    OkO q (staticTrap s g b) := by
  unfold staticTrap
  repeat' first
    | with_reducible assumption | with_reducible apply tallyAdd_ok | with_reducible apply OkO.some | with_reducible exact OkO.none | split
    | with_reducible apply OkP.mk

theorem queueOwn_ok {q : List Instr} {s : State} {g : CoreId} {hh : Held} {o : Op} {lq : BitVec 10} {off : Nat} (h : Ok q s) :
    OkM q (queueOwn s g hh o lq off) := by
  unfold queueOwn
  repeat' first
    | with_reducible assumption | with_reducible apply enqueue_ok | with_reducible apply controlWrite_ok | with_reducible apply dequeue_ok
    | with_reducible apply OkM.ite | with_reducible apply OkM.stay | with_reducible apply OkM.trap | with_reducible apply OkM.go
    | with_reducible refine OkP.get ?_ ‹_ = (_, _)› | with_reducible apply OkP.snd | split

theorem queueMove_ok {q : List Instr} {s : State} {g : CoreId} {hh : Held} (h : Ok q s) :
    OkM q (queueMove s g hh) := by
  unfold queueMove
  repeat' first
    | with_reducible assumption | with_reducible apply queueOwn_ok | with_reducible apply OkM.stay | with_reducible apply OkM.trap
    | with_reducible apply OkM.ask | with_reducible apply OkM.go | split | with_reducible simp only [↓okUpd]

theorem nextMove_ok {q : List Instr} {s : State} {g : CoreId} {hh : Held} (h : Ok q s) :
    OkM q (nextMove s g hh) := by
  unfold nextMove
  repeat' first
    | with_reducible assumption | with_reducible apply readAll_ok | with_reducible apply staticTrap_ok | with_reducible apply queueMove_ok
    | with_reducible apply OkM.ite | with_reducible apply OkM.stay | with_reducible apply OkM.trap | with_reducible apply OkM.ask
    | with_reducible refine OkP4.get ?_ ‹_› | with_reducible refine OkO.get ?_ ‹_ = some (_, _)› | split | with_reducible simp only [↓okUpd]

theorem cpParity_ok {q : List Instr} {s : State} {g : CoreId} {sl : Bool} {ws : List Nat} (h : Ok q s) :
    OkP q (cpParity s g sl ws) := by
  unfold cpParity
  repeat' first
    | with_reducible assumption | with_reducible intro _ | with_reducible apply check_ok | with_reducible apply okFold2
    | with_reducible exact OkP.snd ‹OkP q (_, _)› | with_reducible apply OkP.mk

theorem cpCommit_ok {q : List Instr} {s : State} {old : Core} {g : CoreId} {sl : Bool} {op : BitVec 5} {f : CpFields} {got : Got}
    (h : Ok q s) : Ok q (cpCommit s old g sl op f got) := by
  have hc := h.core g
  unfold cpCommit
  dsimp only
  split
  · have hp : Ok q (cpParity (s.setCore g ((s.core g).setPort sl { (s.core g).port sl with seq := ((s.core g).port sl).seq + 1 })) g sl
        (rangeWords (cpReads sl op.toNat f))).2 := cpParity_ok (State.setCore_ok h (Core.setPort_ok hc))
    generalize cpParity _ g sl _ = p at hp
    obtain ⟨par, s1⟩ := p
    have h1 := lateReport_ok (sl := sl) (l :=
      { baddr := old.pc, slot := sl, ovf := false, divz := false, par := par, seq := ((s.core g).port sl).seq + 1 }) (flagPar_ok (sl := sl) (par := par) (Ok.core hp g))
    dsimp only at h1 ⊢
    generalize lateReport _ sl _ = c1 at h1
    refine State.setCore_ok hp (CoreOk.ite (setDirty_ok h1) (CoreOk.ite (setDirty_ok (Core.setPort_ok ?_)) h1))
    exact CoreOk.ite (h1.keep rfl rfl rfl rfl rfl rfl rfl) (h1.keep rfl rfl rfl rfl rfl rfl rfl)
  · exact State.setCore_ok h (Core.setPort_ok hc)

theorem coreStore_ok {q : List Instr} {s : State} {g : CoreId} {a : Word} {d : List Byte} (h : Ok q s) :
    Ok q (coreStore s g a d) := by
  unfold coreStore
  repeat' first
    | with_reducible assumption | with_reducible apply parityWrite_ok | with_reducible apply niIssue_ok | split

theorem coreStores_ok {q : List Instr} {s : State} {g : CoreId} {l : List (Word × List Byte)} (h : Ok q s) :
    Ok q (coreStores s g l) := by
  unfold coreStores
  repeat' first
    | with_reducible assumption | with_reducible intro _ | with_reducible apply coreStore_ok | with_reducible apply okFold

theorem commit_ok {q : List Instr} {s : State} {g : CoreId} {hh : Held} {l : List Byte} {fl : Word} (h : Ok q s) :
    Ok q (commit s g hh l fl) := by
  unfold commit
  generalize e : readAll s g hh = p
  obtain ⟨ga, gb, gd, s1⟩ := p
  have hr : Ok q s1 := (readAll_ok h).get e
  dsimp only
  have h2 : Ok q (coreStores s1 g (opStores (s.core g) hh.bundle.a ++ opStores (s.core g) hh.bundle.b ++ opStores (s.core g) hh.bundle.d)) :=
    coreStores_ok hr
  generalize coreStores s1 g _ = s2 at h2
  have hc : CoreOk (effCore (opEff (s.core g) gd [] hh.bundle.d (opEff (s.core g) Got.nothing [] hh.bundle.c
      (opEff (s.core g) gb [] hh.bundle.b (opEff (s.core g) ga l hh.bundle.a
        { c := s2.core g, govSet := 0, govClr := 0, qsat := false, auto := none, flags := fl }))))) :=
    effCore_ok (opEff_ok (opEff_ok (opEff_ok (opEff_ok (h2.core g)))))
  generalize effCore _ = c1 at hc
  have hf := flow_ok (o := hh.bundle.d) (h.core g) hc
  generalize flow (s.core g) c1 hh.bundle.d = c2 at hf
  have h3 : Ok q (tallyAdd (s2.setCore g { c2 with held := none, st := .running }) (coreRegs g + 0x100) 1) :=
    tallyAdd_ok (State.setCore_ok h2 (hf.keep rfl rfl rfl rfl rfl rfl rfl))
  generalize tallyAdd _ (coreRegs g + 0x100) 1 = s3 at h3
  have h4 : ∀ {t : State}, t = (match hh.bundle.d with
      | .cp sl op f => cpCommit s3 (s.core g) g sl op f gd
      | _ => s3) → Ok q t := by
    intro t ht
    subst ht
    split
    · exact cpCommit_ok h3
    · exact h3
  have h5 : ∀ {c : Prop} [Decidable c] {n : Nat} {t : State}, t = (match hh.bundle.d with
      | .cp sl op f => cpCommit s3 (s.core g) g sl op f gd
      | _ => s3) → Ok q (if c then t else tallyAdd t (coreRegs g + 0x120) n) :=
    fun ht => okIte (h4 ht) (tallyAdd_ok (h4 ht))
  refine okIte (trap_ok (h5 rfl)) (boundary_ok (okIte (State.updCore_ok (h5 rfl) ?_) (h5 rfl)))
  exact fun c hc => hc.keep rfl rfl rfl rfl rfl rfl rfl

theorem stay_ok {q : List Instr} {s : State} {g : CoreId} {hh : Held} {k : HeldKind} (h : Ok q s) :
    Ok q (stay s g hh k) := by
  unfold stay
  repeat' first
    | with_reducible assumption | with_reducible apply State.setCore_ok | exact CoreOk.keep (Ok.core ‹Ok q _› _) rfl rfl rfl rfl rfl rfl rfl

theorem settle_ok {q : List Instr} {n : Nat} {s : State} {g : CoreId} (h : Ok q s) : Ok q (settle n s g) := by
  induction n generalizing s with
  | zero => exact h
  | succ n ih =>
    unfold settle
    split
    · exact h
    · rename_i hd _
      have hm : OkM q (nextMove s g hd) := nextMove_ok h
      split
      · rename_i e
        exact stay_ok (hm.stay_get e)
      · rename_i e
        exact trap_ok (hm.trap_get e)
      · exact ih (niIssue_ok (State.setCore_ok h ((h.core g).keep rfl rfl rfl rfl rfl rfl rfl)))
      · rename_i e
        exact commit_ok (hm.go_get e)

theorem issue_ok {q : List Instr} {s : State} {g : CoreId} {hh : Held} (h : Ok q s) :
    Ok q (issue s g hh) := by
  unfold issue
  repeat' first
    | with_reducible assumption | with_reducible apply trap_ok | with_reducible apply stay_ok | with_reducible apply settle_ok
    | with_reducible apply State.setCore_ok | with_reducible apply okIte
    | exact CoreOk.keep (Ok.core ‹Ok q _› _) rfl rfl rfl rfl rfl rfl rfl | split | with_reducible simp only [↓okUpd]

theorem fetched_ok {q : List Instr} {g : CoreId} {pc : BitVec 16} {hh : Held} {r : Ans × State} (h : OkP q (r)) :
    Ok q (fetched g pc hh r) := by
  unfold fetched
  repeat' first
    | with_reducible apply trap_ok | with_reducible apply issue_ok | with_reducible apply okIte
    | with_reducible exact OkP.snd ‹OkP q (_, _)›

theorem fetch_ok {q : List Instr} {s : State} {g : CoreId} {hh : Held} (h : Ok q s) :
    Ok q (fetch s g hh) := by
  unfold fetch
  repeat' first
    | with_reducible assumption | with_reducible apply stay_ok | with_reducible apply fetched_ok | with_reducible apply parityRead_ok
    | with_reducible apply okIte

theorem runBundle_ok {q : List Instr} {s : State} {g : CoreId} {b : Bundle} (h : Ok q s) :
    Ok q (runBundle s g b) := by
  unfold runBundle
  repeat' first
    | with_reducible assumption | with_reducible apply fetch_ok | with_reducible apply okIte

theorem coreResume_ok {q : List Instr} {s : State} {g : CoreId} (h : Ok q s) :
    Ok q (coreResume s g) := by
  unfold coreResume
  repeat' first
    | with_reducible assumption | with_reducible apply fetch_ok | with_reducible apply issue_ok | with_reducible apply settle_ok | split

theorem coreProgress_ok {q : List Instr} {s : State} {g : CoreId} (h : Ok q s) :
    Ok q (coreProgress s g) := by
  unfold coreProgress
  repeat' first
    | with_reducible assumption | with_reducible apply coreResume_ok | with_reducible apply okIte | split

theorem iniProgress_ok {q : List Instr} {s : State} {i : Initiator} (h : Ok q s) :
    Ok q (iniProgress s i) := by
  unfold iniProgress
  repeat' first
    | with_reducible assumption | with_reducible apply coreProgress_ok | split

end Sys2Proof.Machine
end

