-- ==== Sys2Proof/Laws/OkSchedCmds.lean ====
section
/-! SUPPORT. Machine/SchedCmds.lean keeps the invariant of Laws/Ok.lean: one lemma for each operation. -/

namespace Sys2Proof.Machine

set_option linter.unusedVariables false
set_option linter.unusedSimpArgs false

theorem execCluWbaseWrite_ok {q : List Instr} {who : Initiator} {gc : ClusterId} {n : BitVec 4} {v : Word} {s : State} (h : Ok q s) :
    OkN q (execCluWbaseWrite who gc n v s) := by
  unfold execCluWbaseWrite
  repeat' first
    | with_reducible assumption | with_reducible intro _ | with_reducible apply regCmd_ok | with_reducible apply wrAnswer_ok
    | with_reducible apply cluWbaseEff_ok | with_reducible apply OkN.next | with_reducible apply OkP.mk

theorem execCluWlenWrite_ok {q : List Instr} {who : Initiator} {gc : ClusterId} {n : BitVec 4} {v : Word} {s : State} (h : Ok q s) :
    OkN q (execCluWlenWrite who gc n v s) := by
  unfold execCluWlenWrite
  repeat' first
    | with_reducible assumption | with_reducible intro _ | with_reducible apply regCmd_ok | with_reducible apply wrAnswer_ok
    | with_reducible apply cluWlenEff_ok | with_reducible apply OkN.next | with_reducible apply OkP.mk

theorem execCmInitStart_ok {q : List Instr} {who : Initiator} {gc : ClusterId} {s : State} (h : Ok q s) :
    OkN q (execCmInitStart who gc s) := by
  unfold execCmInitStart
  repeat' first
    | with_reducible assumption | with_reducible intro _ | with_reducible apply regCmd_ok | with_reducible apply wrAnswer_ok
    | with_reducible apply cmInitEff_ok | with_reducible apply OkN.next | with_reducible apply OkP.mk

theorem execMemoryInitDone_ok {q : List Instr} {mem : InitMem} {s : State} (h : Ok q s) :
    OkN q (execMemoryInitDone mem s) := by
  unfold execMemoryInitDone
  repeat' first
    | with_reducible assumption | with_reducible intro _ | with_reducible apply coreProgress_ok | with_reducible apply doInitDone_ok
    | with_reducible apply OkN.next | with_reducible apply okFold

theorem queueGate_ok {q : List Instr} {s : State} {who : Initiator} {qq : QueueId} {eff : State} (h : Ok q s) (h2 : Ok q eff) :
    Ok q (queueGate s who qq eff) := by
  unfold queueGate
  repeat' first
    | with_reducible assumption | with_reducible apply queueWay_ok | with_reducible apply State.answerOnly_ok
    | with_reducible apply holdWhole_ok | with_reducible refine OkP.get ?_ ‹_ = (_, _)› | split

theorem doEnqueue_ok {q : List Instr} {s : State} {src : EnqFrom} {qq : QueueId} {e : Entry} (h : Ok q s) :
    Ok q (doEnqueue s src qq e) := by
  unfold doEnqueue
  repeat' first
    | with_reducible assumption | with_reducible apply enqueue_ok | with_reducible apply State.answerOnly_ok
    | with_reducible refine OkP.get ?_ ‹_ = (_, _)› | split

theorem execQueueEnqueue_ok {q : List Instr} {src : Initiator} {qq : QueueId} {entry : Entry} {s : State} (h : Ok q s) :
    OkN q (execQueueEnqueue src qq entry s) := by
  unfold execQueueEnqueue
  repeat' first
    | with_reducible assumption | with_reducible apply queueGate_ok | with_reducible apply doEnqueue_ok | with_reducible apply OkN.next

theorem execQueueDequeue_ok {q : List Instr} {src : Initiator} {qq : QueueId} {s : State} (h : Ok q s) :
    OkN q (execQueueDequeue src qq s) := by
  unfold execQueueDequeue
  repeat' first
    | with_reducible assumption | with_reducible apply queueGate_ok | with_reducible apply State.answer_ok | with_reducible apply dequeue_ok
    | with_reducible apply OkN.next | with_reducible apply OkP.snd

theorem execQueueStatusRead_ok {q : List Instr} {src : Initiator} {qq : QueueId} {s : State} (h : Ok q s) :
    OkN q (execQueueStatusRead src qq s) := by
  unfold execQueueStatusRead
  repeat' first
    | with_reducible assumption | with_reducible apply queueGate_ok | with_reducible apply State.answer_ok | with_reducible apply OkN.next

theorem doEnd_ok {q : List Instr} {s : State} {g : CoreId} {result : Word} (h : Ok q s) :
    Ok q (doEnd s g result) := by
  unfold doEnd
  repeat' first
    | with_reducible assumption | with_reducible apply endCmd_ok | with_reducible apply State.answerOnly_ok
    | with_reducible refine OkP.get ?_ ‹_ = (_, _)› | split

theorem execEndTask_ok {q : List Instr} {g : CoreId} {_lq : BitVec 10} {result : Word} {s : State} (h : Ok q s) :
    OkN q (execEndTask g _lq result s) := by
  unfold execEndTask
  repeat' first
    | with_reducible assumption | with_reducible apply doEnd_ok | with_reducible apply OkN.next

theorem doCancel_ok {q : List Instr} {s : State} {src : EnqFrom} {qq : QueueId} {tag : Word} (h : Ok q s) :
    Ok q (doCancel s src qq tag) := by
  unfold doCancel
  repeat' first
    | with_reducible assumption | with_reducible apply State.answerOnly_ok | with_reducible apply cancelCmd_ok | with_reducible apply okIte

theorem execCancel_ok {q : List Instr} {src : Initiator} {qq : QueueId} {tag : Word} {s : State} (h : Ok q s) :
    OkN q (execCancel src qq tag s) := by
  unfold execCancel
  repeat' first
    | with_reducible assumption | with_reducible apply queueGate_ok | with_reducible apply doCancel_ok | with_reducible apply OkN.next

theorem execQueueEnable_ok {q : List Instr} {who : Initiator} {gc : ClusterId} {v : Word} {s : State} (h : Ok q s) :
    OkN q (execQueueEnable who gc v s) := by
  unfold execQueueEnable
  repeat' first
    | with_reducible assumption | with_reducible intro _ | with_reducible apply regCmd_ok | with_reducible apply wrAnswer_ok
    | with_reducible apply qcfgWrite_ok | with_reducible apply OkN.next

theorem execQueueDisable_ok {q : List Instr} {who : Initiator} {gc : ClusterId} {v : Word} {s : State} (h : Ok q s) :
    OkN q (execQueueDisable who gc v s) := by
  unfold execQueueDisable
  repeat' first
    | with_reducible assumption | with_reducible intro _ | with_reducible apply regCmd_ok | with_reducible apply wrAnswer_ok
    | with_reducible apply qcfgWrite_ok | with_reducible apply OkN.next

theorem dropSteal_ok {q : List Instr} {s : State} {gc : ClusterId} {t : Task} {o : Outc} (h : Ok q s) :
    Ok q (dropSteal s gc t o) := by
  unfold dropSteal
  repeat' first
    | with_reducible assumption | with_reducible apply State.setSlice_ok

theorem dropLate_ok {q : List Instr} {s : State} {gc : ClusterId} {c : Cand} (h : Ok q s) :
    Ok q (dropLate s gc c) := by
  unfold dropLate
  repeat' first
    | with_reducible assumption | with_reducible apply lateQueued_ok | with_reducible apply missReport_ok | with_reducible apply dropSusp_ok
    | with_reducible apply dropSteal_ok | split

theorem dropBad_ok {q : List Instr} {s : State} {gc : ClusterId} {c : Cand} (h : Ok q s) :
    Ok q (dropBad s gc c) := by
  unfold dropBad
  repeat' first
    | with_reducible assumption | with_reducible apply report_ok | with_reducible apply schTal_ok | with_reducible apply State.setSlice_ok
    | split

theorem bindLoop_ok {q : List Instr} {gc : ClusterId} {y1 : Nat} {y2 : State} (h : Ok q y2) :
    Ok q (bindLoop gc y1 y2) := by
  induction y1 generalizing y2 with
  | zero =>
    unfold bindLoop
    repeat' first
      | with_reducible assumption
      | with_reducible intro _
      | with_reducible exact ‹Ok q _›
      | with_reducible apply bindTask_ok
      | with_reducible apply dropLate_ok
      | with_reducible apply dropBad_ok
      | with_reducible apply okIte
      | with_reducible apply okFold
      | with_reducible apply okUpTo
      | split
      | with_reducible apply OkP.mk
      | with_reducible simp only [↓okUpd]
      | dsimp only
  | succ n ih =>
    unfold bindLoop
    repeat' first
      | with_reducible assumption
      | with_reducible intro _
      | with_reducible apply ih
      | with_reducible exact ‹Ok q _›
      | with_reducible apply bindTask_ok
      | with_reducible apply dropLate_ok
      | with_reducible apply dropBad_ok
      | with_reducible apply okIte
      | with_reducible apply okFold
      | with_reducible apply okUpTo
      | split
      | with_reducible apply OkP.mk
      | with_reducible simp only [↓okUpd]
      | dsimp only

theorem preemptLoop_ok {q : List Instr} {gc : ClusterId} {y1 : Nat} {y2 : State} (h : Ok q y2) :
    Ok q (preemptLoop gc y1 y2) := by
  induction y1 generalizing y2 with
  | zero =>
    unfold preemptLoop
    repeat' first
      | with_reducible assumption
      | with_reducible intro _
      | with_reducible exact ‹Ok q _›
      | with_reducible apply bindPreempt_ok
      | with_reducible apply dropLate_ok
      | with_reducible apply dropBad_ok
      | with_reducible apply okIte
      | with_reducible apply okFold
      | with_reducible apply okUpTo
      | split
      | with_reducible apply OkP.mk
      | with_reducible simp only [↓okUpd]
      | dsimp only
  | succ n ih =>
    unfold preemptLoop
    repeat' first
      | with_reducible assumption
      | with_reducible intro _
      | with_reducible apply ih
      | with_reducible exact ‹Ok q _›
      | with_reducible apply bindPreempt_ok
      | with_reducible apply dropLate_ok
      | with_reducible apply dropBad_ok
      | with_reducible apply okIte
      | with_reducible apply okFold
      | with_reducible apply okUpTo
      | split
      | with_reducible apply OkP.mk
      | with_reducible simp only [↓okUpd]
      | dsimp only

theorem execTaskBind_ok {q : List Instr} {gc : ClusterId} {s : State} (h : Ok q s) :
    OkN q (execTaskBind gc s) := by
  unfold execTaskBind
  repeat' first
    | with_reducible assumption | with_reducible apply bindLoop_ok | with_reducible apply okIte | with_reducible apply OkN.next

theorem execPreemptBind_ok {q : List Instr} {gc : ClusterId} {s : State} (h : Ok q s) :
    OkN q (execPreemptBind gc s) := by
  unfold execPreemptBind
  repeat' first
    | with_reducible assumption | with_reducible apply preemptLoop_ok | with_reducible apply okIte | with_reducible apply OkN.next

theorem doTaskDeadline_ok {q : List Instr} {s : State} {gc : ClusterId} {y2 : DlSel} (h : Ok q s) :
    Ok q (doTaskDeadline s gc y2) := by
  unfold doTaskDeadline
  repeat' first
    | with_reducible assumption | with_reducible apply lateQueued_ok | with_reducible apply lateBound_ok | with_reducible apply lateSusp_ok
    | with_reducible apply lateRunning_ok | split

theorem execTaskDeadline_ok {q : List Instr} {gc : ClusterId} {sel : DlSel} {s : State} (h : Ok q s) :
    OkN q (execTaskDeadline gc sel s) := by
  unfold execTaskDeadline
  repeat' first
    | with_reducible assumption | with_reducible apply doTaskDeadline_ok | with_reducible apply OkN.next

theorem recordLost_ok {q : List Instr} {s : State} {gc : ClusterId} {qq : QueueId} {o : Outc} (h : Ok q s) :
    Ok q (recordLost s gc qq o) := by
  unfold recordLost
  repeat' first
    | with_reducible assumption | with_reducible apply report_ok | with_reducible apply schTal_ok

theorem popRecord_ok {q : List Instr} {s : State} {gc : ClusterId} (h : Ok q s) :
    Ok q (popRecord s gc) := by
  unfold popRecord
  repeat' first
    | with_reducible assumption | with_reducible apply State.updSlice_ok

theorem recordEntered_ok {q : List Instr} {gc : ClusterId} {r : RecOut} {y2 : EnqAns × State} (h : OkP q (y2)) :
    Ok q (recordEntered gc r y2) := by
  unfold recordEntered
  repeat' first
    | with_reducible apply popRecord_ok | with_reducible apply recordLost_ok | with_reducible exact OkP.snd ‹OkP q (_, _)› | split

theorem recordVia_ok {q : List Instr} {s : State} {gc : ClusterId} {r : RecOut} {y3 : Gate × State} (h : Ok q s) (h2 : OkP q (y3)) :
    Ok q (recordVia s gc r y3) := by
  unfold recordVia
  repeat' first
    | with_reducible assumption | with_reducible apply recordLost_ok | with_reducible apply popRecord_ok | with_reducible apply holdWhole_ok
    | with_reducible apply recordEntered_ok | with_reducible apply enqueue_ok | with_reducible exact OkP.snd ‹OkP q (_, _)› | split

theorem doRecordEnqueue_ok {q : List Instr} {s : State} {gc : ClusterId} {path : PathRes} (h : Ok q s) :
    Ok q (doRecordEnqueue s gc path) := by
  unfold doRecordEnqueue
  repeat' first
    | with_reducible assumption | with_reducible apply recordLost_ok | with_reducible apply popRecord_ok | with_reducible apply recordVia_ok
    | with_reducible apply queueWay_ok | with_reducible apply okIte | split

theorem execTaskRecordEnqueue_ok {q : List Instr} {gc : ClusterId} {path : PathRes} {s : State} (h : Ok q s) :
    OkN q (execTaskRecordEnqueue gc path s) := by
  unfold execTaskRecordEnqueue
  repeat' first
    | with_reducible assumption | with_reducible apply doRecordEnqueue_ok | with_reducible apply OkN.next

theorem doLoadEdge_ok {q : List Instr} {s : State} {gc : ClusterId} (h : Ok q s) :
    Ok q (doLoadEdge s gc) := by
  unfold doLoadEdge
  repeat' first
    | with_reducible assumption | with_reducible apply State.setSlice_ok | with_reducible apply okIte

theorem execLoadPeriodEdge_ok {q : List Instr} {gc : ClusterId} {s : State} (h : Ok q s) :
    OkN q (execLoadPeriodEdge gc s) := by
  unfold execLoadPeriodEdge
  repeat' first
    | with_reducible assumption | with_reducible apply doLoadEdge_ok | with_reducible apply OkN.next

theorem stealFail_ok {q : List Instr} {s : State} {gc : ClusterId} (h : Ok q s) :
    Ok q (stealFail s gc) := by
  unfold stealFail
  repeat' first
    | with_reducible assumption | with_reducible apply schTal_ok | with_reducible apply State.setSlice_ok

theorem doStealStart_ok {q : List Instr} {s : State} {gc : ClusterId} (h : Ok q s) :
    Ok q (doStealStart s gc) := by
  unfold doStealStart
  repeat' first
    | with_reducible assumption | with_reducible apply stealFail_ok | with_reducible apply State.setSlice_ok | with_reducible apply okIte
    | split | with_reducible simp only [↓okUpd]

theorem execStealStart_ok {q : List Instr} {gc : ClusterId} {s : State} (h : Ok q s) :
    OkN q (execStealStart gc s) := by
  unfold execStealStart
  repeat' first
    | with_reducible assumption | with_reducible apply doStealStart_ok | with_reducible apply okIte | with_reducible apply OkN.next

theorem refuseThief_ok {q : List Instr} {s : State} {thief : ClusterId} (h : Ok q s) :
    Ok q (refuseThief s thief) := by
  unfold refuseThief
  repeat' first
    | with_reducible assumption | with_reducible apply State.updSlice_ok

theorem doStealRequest_ok {q : List Instr} {s : State} {victim : ClusterId} {thief : ClusterId} (h : Ok q s) :
    Ok q (doStealRequest s victim thief) := by
  unfold doStealRequest
  repeat' first
    | with_reducible assumption | with_reducible apply refuseThief_ok | with_reducible apply dropBad_ok | with_reducible apply schTal_ok
    | with_reducible apply State.setSlice_ok | with_reducible apply State.updSlice_ok | with_reducible apply okIte | split

theorem execStealRequest_ok {q : List Instr} {victim : ClusterId} {thief : ClusterId} {s : State} (h : Ok q s) :
    OkN q (execStealRequest victim thief s) := by
  unfold execStealRequest
  repeat' first
    | with_reducible assumption | with_reducible apply doStealRequest_ok | with_reducible apply OkN.next

theorem doStealReceive_ok {q : List Instr} {s : State} {gc : ClusterId} (h : Ok q s) :
    Ok q (doStealReceive s gc) := by
  unfold doStealReceive
  repeat' first
    | with_reducible assumption | with_reducible apply schTal_ok | with_reducible apply State.setSlice_ok | split
    | with_reducible simp only [↓okUpd]

theorem execStealReceive_ok {q : List Instr} {thief : ClusterId} {s : State} (h : Ok q s) :
    OkN q (execStealReceive thief s) := by
  unfold execStealReceive
  repeat' first
    | with_reducible assumption | with_reducible apply doStealReceive_ok | with_reducible apply OkN.next

theorem doStealRefusal_ok {q : List Instr} {s : State} {gc : ClusterId} (h : Ok q s) :
    Ok q (doStealRefusal s gc) := by
  unfold doStealRefusal
  repeat' first
    | with_reducible assumption | with_reducible apply State.setSlice_ok | with_reducible apply stealFail_ok | with_reducible apply okIte
    | split

theorem execStealRefusal_ok {q : List Instr} {thief : ClusterId} {s : State} (h : Ok q s) :
    OkN q (execStealRefusal thief s) := by
  unfold execStealRefusal
  repeat' first
    | with_reducible assumption | with_reducible apply doStealRefusal_ok | with_reducible apply OkN.next

theorem doRecordReturn_ok {q : List Instr} {s : State} {gc : ClusterId} (h : Ok q s) :
    Ok q (doRecordReturn s gc) := by
  unfold doRecordReturn
  repeat' first
    | with_reducible assumption | with_reducible apply State.updSlice_ok | with_reducible apply State.setSlice_ok | split
    | with_reducible simp only [↓okUpd]

theorem execStealRecordReturn_ok {q : List Instr} {thief : ClusterId} {s : State} (h : Ok q s) :
    OkN q (execStealRecordReturn thief s) := by
  unfold execStealRecordReturn
  repeat' first
    | with_reducible assumption | with_reducible apply doRecordReturn_ok | with_reducible apply OkN.next

theorem cancelAtThief_ok {q : List Instr} {s : State} {thief : ClusterId} {qq : QueueId} {tag : Word} (h : Ok q s) :
    Ok q (cancelAtThief s thief qq tag) := by
  unfold cancelAtThief
  repeat' first
    | with_reducible assumption | with_reducible intro _ | with_reducible apply dropSteal_ok | with_reducible apply cancelCore_ok
    | with_reducible apply okIte | with_reducible apply okFold | with_reducible apply OkP.snd | split

theorem doCancelForward_ok {q : List Instr} {s : State} {victim : ClusterId} (h : Ok q s) :
    Ok q (doCancelForward s victim) := by
  unfold doCancelForward
  repeat' first
    | with_reducible assumption | with_reducible apply State.setSlice_ok | with_reducible apply cancelAtThief_ok
    | with_reducible apply okIte | split | with_reducible simp only [↓okUpd]

theorem execStealCancelForward_ok {q : List Instr} {victim : ClusterId} {s : State} (h : Ok q s) :
    OkN q (execStealCancelForward victim s) := by
  unfold execStealCancelForward
  repeat' first
    | with_reducible assumption | with_reducible apply doCancelForward_ok | with_reducible apply OkN.next

end Sys2Proof.Machine
end

