-- ==== Sys2Proof/Laws/OkPlain.lean ====
section
/-! SUPPORT. Machine/Plain.lean keeps the invariant of Laws/Ok.lean: one lemma for each operation. -/

namespace Sys2Proof.Machine

set_option linter.unusedVariables false
set_option linter.unusedSimpArgs false

theorem winFault_ok {q : List Instr} {s : State} {gc : ClusterId} (h : Ok q s) :
    OkP q (winFault s gc) := by
  unfold winFault
  repeat' first
    | with_reducible assumption | with_reducible apply tallyAdd_ok | with_reducible apply OkP.mk

theorem plainRead_ok {q : List Instr} {s : State} {pa : Nat} {n : Nat} {act : ActId} (h : Ok q s) :
    OkO q (plainRead s pa n act) := by
  unfold plainRead
  repeat' first
    | with_reducible assumption | with_reducible apply bulkRead_ok | with_reducible apply parityRead_ok | with_reducible apply winFault_ok
    | with_reducible apply okIteO | with_reducible apply OkO.some | with_reducible exact OkO.none | split | with_reducible apply OkP.mk

theorem plainWrite_ok {q : List Instr} {s : State} {pa : Nat} {d : List (Option Byte)} {poison : BitVec 128} {act : ActId} (h : Ok q s) :
    OkO q (plainWrite s pa d poison act) := by
  unfold plainWrite
  repeat' first
    | with_reducible assumption | with_reducible apply bulkWrite_ok | with_reducible apply parityMerge_ok | with_reducible apply winFault_ok
    | with_reducible apply okIteO | with_reducible apply OkO.some | with_reducible exact OkO.none | split | with_reducible apply OkP.mk

theorem routed_ok {q : List Instr} {s : State} {n : NodeId} {pa : Pa} {f : NodeId → State → Acc} (h : Ok q s) (h2 : ∀ x0 x1, Ok q x1 → OkA q (f x0 x1)) :
    OkA q (routed s n pa f) := by
  unfold routed
  repeat' first
    | with_reducible assumption | with_reducible apply h2 | with_reducible apply routeCheck_ok | with_reducible apply portCount_ok
    | with_reducible apply tallyAdd_ok | with_reducible apply OkA.ite | with_reducible apply OkA.wait | with_reducible apply OkA.done
    | with_reducible refine OkP.get ?_ ‹_ = (_, _)› | with_reducible refine OkA.wait_get ?_ ‹_› | with_reducible refine OkA.done_get ?_ ‹_›
    | split

theorem accPiece_ok {q : List Instr} {s : State} {n : NodeId} {pa : Nat} {f : State → TgtAns} (h : Ok q s) (h2 : ∀ x0, Ok q x0 → OkO q (f x0)) :
    OkA q (accPiece s n pa f) := by
  unfold accPiece
  repeat' first
    | with_reducible assumption | with_reducible intro _ | with_reducible apply h2 | with_reducible apply routed_ok
    | with_reducible apply lmpTal_ok | with_reducible apply holdWhole_ok | with_reducible apply okIte | with_reducible apply OkA.ite
    | with_reducible apply OkA.wait | with_reducible apply OkA.done | with_reducible refine OkO.get ?_ ‹_ = some (_, _)› | split

theorem accAll_ok {q : List Instr} {s0 : State} {f : State → Nat × Nat → Acc} {y2 : List (Nat × Nat)} (h : Ok q s0) (h2 : ∀ x0 x1, Ok q x0 → OkA q (f x0 x1)) :
    OkA q (accAll s0 f y2) := by
  unfold accAll
  repeat' first
    | with_reducible assumption | with_reducible intro _ | with_reducible apply h2 | with_reducible apply stayWake_ok
    | with_reducible apply OkA.ite | with_reducible apply OkA.wait | with_reducible apply OkA.done | with_reducible apply okFoldA
    | with_reducible refine OkA.wait_get ?_ ‹_› | with_reducible refine OkA.done_get ?_ ‹_›
    | with_reducible exact OkA.done_get ‹OkA q (.done _ _)› rfl | split

theorem accRead_ok {q : List Instr} {s : State} {who : Initiator} {pa : Nat} {n : Nat} {act : ActId} (h : Ok q s) :
    OkA q (accRead s who pa n act) := by
  unfold accRead
  repeat' first
    | with_reducible assumption | with_reducible intro _ | with_reducible apply accAll_ok | with_reducible apply accPiece_ok
    | with_reducible apply plainRead_ok

theorem accWrite_ok {q : List Instr} {s : State} {who : Initiator} {pa : Nat} {d : List (Option Byte)} {poison : List Bool} {act : ActId} (h : Ok q s) :
    OkA q (accWrite s who pa d poison act) := by
  unfold accWrite
  repeat' first
    | with_reducible assumption | with_reducible intro _ | with_reducible apply accAll_ok | with_reducible apply accPiece_ok
    | with_reducible apply plainWrite_ok

theorem accStore_ok {q : List Instr} {s : State} {who : Initiator} {pa : Nat} {d : List Byte} {act : ActId} (h : Ok q s) :
    OkA q (accStore s who pa d act) := by
  unfold accStore
  repeat' first
    | with_reducible assumption | with_reducible apply accWrite_ok

theorem viaPath_ok {q : List Instr} {path : PathRes} {s : State} {f : Acc} (h : Ok q s) (h2 : OkA q (f)) :
    OkA q (viaPath path s f) := by
  unfold viaPath
  repeat' first
    | with_reducible assumption | with_reducible apply OkA.ite | with_reducible apply OkA.done | split

end Sys2Proof.Machine
end

