-- ==== Sys2Proof/Laws/OkEngineCmds.lean ====
section
/-! SUPPORT. Machine/EngineCmds.lean keeps the invariant of Laws/Ok.lean: one lemma for each operation. -/

namespace Sys2Proof.Machine

set_option linter.unusedVariables false
set_option linter.unusedSimpArgs false

theorem State.updEngine_ok {q : List Instr} {s : State} {e : EngId} {f : Engine → Engine} (h : Ok q s) :
    Ok q (State.updEngine s e f) := by
  unfold State.updEngine
  repeat' first
    | with_reducible assumption | with_reducible apply State.setEngine_ok

theorem engTal_ok {q : List Instr} {s : State} {e : EngId} {off : Nat} {n : Nat} (h : Ok q s) :
    Ok q (engTal s e off n) := by
  unfold engTal
  repeat' first
    | with_reducible assumption | with_reducible apply tallyAdd_ok

theorem engReport_ok {q : List Instr} {s : State} {e : EngId} {found : Bool} (h : Ok q s) :
    Ok q (engReport s e found) := by
  unfold engReport
  repeat' first
    | with_reducible assumption | with_reducible apply check_ok

theorem finishJob_ok {q : List Instr} {s : State} {e : EngId} {o : Outc} {step : BitVec 4} (h : Ok q s) :
    Ok q (finishJob s e o step) := by
  unfold finishJob
  repeat' first
    | with_reducible assumption | with_reducible apply engTal_ok | with_reducible apply State.setEngine_ok | with_reducible apply report_ok
    | with_reducible apply okIte | split | with_reducible simp only [↓okUpd]

theorem releaseEngine_ok {q : List Instr} {s : State} {e : EngId} (h : Ok q s) :
    Ok q (releaseEngine s e) := by
  unfold releaseEngine
  repeat' first
    | with_reducible assumption | with_reducible apply State.setEngine_ok | with_reducible apply okIte

theorem doDequeue_ok {q : List Instr} {s : State} {e : EngId} (h : Ok q s) :
    Ok q (doDequeue s e) := by
  unfold doDequeue
  repeat' first
    | with_reducible assumption | with_reducible apply takeFrom_ok | with_reducible apply engTal_ok
    | with_reducible apply State.setEngine_ok | with_reducible apply finishJob_ok | with_reducible apply okIte
    | with_reducible refine OkP.get ?_ ‹_ = (_, _)› | split | with_reducible simp only [↓okUpd]

theorem gotDescriptor_ok {q : List Instr} {s : State} {e : EngId} {j : Job} {d : Block64} {fl : Word} (h : Ok q s) :
    Ok q (gotDescriptor s e j d fl) := by
  unfold gotDescriptor
  repeat' first
    | with_reducible assumption | with_reducible apply State.updEngine_ok | with_reducible apply finishJob_ok | with_reducible apply okIte
    | split

theorem enterRun_ok {q : List Instr} {s : State} {e : EngId} (h : Ok q s) :
    Ok q (enterRun s e) := by
  unfold enterRun
  repeat' first
    | with_reducible assumption | with_reducible apply State.updEngine_ok

theorem gotParams_ok {q : List Instr} {s : State} {e : EngId} {j : Job} {b : List Byte} {fl : Word} (h : Ok q s) :
    Ok q (gotParams s e j b fl) := by
  unfold gotParams
  repeat' first
    | with_reducible assumption | with_reducible apply State.updEngine_ok | with_reducible apply finishJob_ok
    | with_reducible apply jobCheck_ok | with_reducible apply enterRun_ok | with_reducible apply okIte
    | with_reducible refine OkP.get ?_ ‹_ = (_, _)› | split

theorem withRead_ok {q : List Instr} {e : EngId} {step : BitVec 4} {r : Acc} {k : State → Ans → State} (h : OkA q (r)) (h2 : ∀ x0 x1, Ok q x0 → Ok q (k x0 x1)) :
    Ok q (withRead e step r k) := by
  unfold withRead
  repeat' first
    | with_reducible apply h2 | with_reducible apply finishJob_ok | with_reducible apply okIte
    | with_reducible exact OkA.wait_get ‹OkA q (.wait _)› rfl | with_reducible exact OkA.done_get ‹OkA q (.done _ _)› rfl | split

theorem doSetupRead_ok {q : List Instr} {s : State} {e : EngId} {path : PathRes} (h : Ok q s) :
    Ok q (doSetupRead s e path) := by
  unfold doSetupRead
  repeat' first
    | with_reducible assumption | with_reducible intro _ | with_reducible apply withRead_ok | with_reducible apply viaPath_ok
    | with_reducible apply accRead_ok | with_reducible apply gotDescriptor_ok | with_reducible apply stayWake_ok
    | with_reducible apply gotParams_ok | with_reducible apply finishJob_ok | with_reducible apply okIte
    | with_reducible refine OkA.wait_get ?_ ‹_› | with_reducible refine OkA.done_get ?_ ‹_› | split | with_reducible simp only [↓okUpd]

theorem doBorrowAnswer_ok {q : List Instr} {s : State} {e : EngId} (h : Ok q s) :
    Ok q (doBorrowAnswer s e) := by
  unfold doBorrowAnswer
  repeat' first
    | with_reducible assumption | with_reducible apply jobBorrow_ok | with_reducible apply enterRun_ok | with_reducible apply finishJob_ok
    | with_reducible apply okIte | with_reducible refine OkP.get ?_ ‹_ = (_, _)› | split | with_reducible simp only [↓okUpd]

theorem accReads_ok {q : List Instr} {s : State} {who : Initiator} {act : ActId} {l : List (Nat × Nat)} (h : Ok q s) :
    OkA q (accReads s who act l) := by
  unfold accReads
  repeat' first
    | with_reducible assumption | with_reducible intro _ | with_reducible apply accAll_ok | with_reducible apply accRead_ok

theorem accStores_ok {q : List Instr} {s : State} {who : Initiator} {act : ActId} {l : List (Nat × List Byte)} (h : Ok q s) :
    OkP q (accStores s who act l) := by
  unfold accStores
  repeat' first
    | with_reducible assumption | with_reducible intro _ | with_reducible apply accStore_ok | with_reducible apply okIte2
    | with_reducible apply okFold2 | with_reducible exact OkP.snd ‹OkP q (_, _)› | with_reducible refine OkA.wait_get ?_ ‹_›
    | with_reducible refine OkA.done_get ?_ ‹_› | split | with_reducible apply OkP.mk

theorem outputDone_ok {q : List Instr} {s : State} {e : EngId} {out : JobOut} {n : Nat} (h : Ok q s) :
    Ok q (outputDone s e out n) := by
  unfold outputDone
  repeat' first
    | with_reducible assumption | with_reducible apply engTal_ok | with_reducible apply State.updEngine_ok
    | with_reducible apply finishJob_ok | split

theorem doRunDone_ok {q : List Instr} {s : State} {e : EngId} (h : Ok q s) :
    Ok q (doRunDone s e) := by
  unfold doRunDone
  repeat' first
    | with_reducible assumption | with_reducible apply accReads_ok | with_reducible apply stayWake_ok | with_reducible apply finishJob_ok
    | with_reducible apply takeFree_ok | with_reducible apply State.updEngine_ok | with_reducible apply engReport_ok
    | with_reducible apply accStores_ok | with_reducible apply outputDone_ok | with_reducible apply okIte
    | with_reducible refine OkP.get ?_ ‹_ = (_, _)› | with_reducible apply OkP.snd | with_reducible refine OkA.wait_get ?_ ‹_›
    | with_reducible refine OkA.done_get ?_ ‹_› | split | with_reducible simp only [↓okUpd]

theorem doWritebackDone_ok {q : List Instr} {s : State} {e : EngId} {path : PathRes} (h : Ok q s) :
    Ok q (doWritebackDone s e path) := by
  unfold doWritebackDone
  repeat' first
    | with_reducible assumption | with_reducible apply viaPath_ok | with_reducible apply accStore_ok | with_reducible apply finishJob_ok
    | with_reducible apply State.updEngine_ok | with_reducible apply okIte | with_reducible refine OkA.wait_get ?_ ‹_›
    | with_reducible refine OkA.done_get ?_ ‹_› | split | with_reducible simp only [↓okUpd]

theorem doAccessError_ok {q : List Instr} {s : State} {e : EngId} {write : Bool} {o : Outc} (h : Ok q s) :
    Ok q (doAccessError s e write o) := by
  unfold doAccessError
  repeat' first
    | with_reducible assumption | with_reducible apply finishJob_ok | with_reducible apply okIte | split | with_reducible simp only [↓okUpd]

theorem doInternalError_ok {q : List Instr} {s : State} {e : EngId} (h : Ok q s) :
    Ok q (doInternalError s e) := by
  unfold doInternalError
  repeat' first
    | with_reducible assumption | with_reducible apply engReport_ok | with_reducible apply finishJob_ok | with_reducible apply okIte | split
    | with_reducible simp only [↓okUpd]

theorem doJobDeadline_ok {q : List Instr} {s : State} {e : EngId} (h : Ok q s) :
    Ok q (doJobDeadline s e) := by
  unfold doJobDeadline
  repeat' first
    | with_reducible assumption | with_reducible apply State.setEngine_ok | with_reducible apply okIte | split
    | with_reducible simp only [↓okUpd]

theorem doAbortComplete_ok {q : List Instr} {s : State} {e : EngId} (h : Ok q s) :
    Ok q (doAbortComplete s e) := by
  unfold doAbortComplete
  repeat' first
    | with_reducible assumption | with_reducible apply finishJob_ok | with_reducible apply okIte | split | with_reducible simp only [↓okUpd]

theorem recordDropped_ok {q : List Instr} {s : State} {e : EngId} {j : Job} {o : Outc} (h : Ok q s) :
    Ok q (recordDropped s e j o) := by
  unfold recordDropped
  repeat' first
    | with_reducible assumption | with_reducible apply engTal_ok | with_reducible apply State.updEngine_ok
    | with_reducible apply releaseEngine_ok | with_reducible apply engReport_ok

theorem writeOutcome_ok {q : List Instr} {s : State} {e : EngId} {j : Job} (h : Ok q s) :
    OkA q (writeOutcome s e j) := by
  unfold writeOutcome
  repeat' first
    | with_reducible assumption | with_reducible apply accStore_ok | with_reducible apply OkA.ite | with_reducible apply OkA.done

theorem jobEntered_ok {q : List Instr} {e : EngId} {j : Job} {y2 : EnqAns × State} (h : OkP q (y2)) :
    Ok q (jobEntered e j y2) := by
  unfold jobEntered
  repeat' first
    | with_reducible apply releaseEngine_ok | with_reducible apply recordDropped_ok | with_reducible exact OkP.snd ‹OkP q (_, _)› | split

theorem jobVia_ok {q : List Instr} {e : EngId} {j : Job} {y2 : Gate × State} (h : OkP q (y2)) :
    Ok q (jobVia e j y2) := by
  unfold jobVia
  repeat' first
    | with_reducible apply recordDropped_ok | with_reducible apply holdWhole_ok | with_reducible apply jobEntered_ok
    | with_reducible apply enqueue_ok | with_reducible exact OkP.snd ‹OkP q (_, _)› | split

theorem doJobRecord_ok {q : List Instr} {s : State} {e : EngId} {path : PathRes} (h : Ok q s) :
    Ok q (doJobRecord s e path) := by
  unfold doJobRecord
  repeat' first
    | with_reducible assumption | with_reducible apply writeOutcome_ok | with_reducible apply State.updEngine_ok
    | with_reducible apply releaseEngine_ok | with_reducible apply recordDropped_ok | with_reducible apply jobVia_ok
    | with_reducible apply queueWay_ok | with_reducible apply okIte | with_reducible refine OkA.wait_get ?_ ‹_›
    | with_reducible refine OkA.done_get ?_ ‹_› | split | with_reducible simp only [↓okUpd]

theorem engSetEn_ok {q : List Instr} {s : State} {e : EngId} {en : Bool} (h : Ok q s) :
    Ok q (engSetEn s e en) := by
  unfold engSetEn
  repeat' first
    | with_reducible assumption | with_reducible apply State.setEngine_ok

theorem engSreset_ok {q : List Instr} {s : State} {e : EngId} (h : Ok q s) :
    Ok q (engSreset s e) := by
  unfold engSreset
  repeat' first
    | with_reducible assumption | with_reducible apply State.setEngine_ok | split | with_reducible simp only [↓okUpd]

theorem engKill_ok {q : List Instr} {s : State} {e : EngId} (h : Ok q s) :
    Ok q (engKill s e) := by
  unfold engKill
  repeat' first
    | with_reducible assumption | with_reducible apply finishJob_ok | with_reducible apply okIte

theorem engUnitReset_ok {q : List Instr} {s : State} {e : EngId} (h : Ok q s) :
    Ok q (engUnitReset s e) := by
  unfold engUnitReset
  repeat' first
    | with_reducible assumption | with_reducible apply engKill_ok | with_reducible apply State.setEngine_ok
    | with_reducible apply State.updEngine_ok | split | with_reducible simp only [↓okUpd]

theorem qselWrite_ok {q : List Instr} {s : State} {e : EngId} {v : Word} (h : Ok q s) :
    OkP q (qselWrite s e v) := by
  unfold qselWrite
  repeat' first
    | with_reducible assumption | with_reducible apply State.setEngine_ok | with_reducible apply okIte2 | with_reducible apply OkP.mk

theorem engRead_ok {q : List Instr} {s : State} {e : EngId} {off : Nat} (h : Ok q s) :
    OkO q (engRead s e off) := by
  unfold engRead
  repeat' first
    | with_reducible assumption | with_reducible apply rdPack_ok | with_reducible apply rdVal_ok | with_reducible apply talRead_ok
    | with_reducible apply okIteO | with_reducible exact OkO.none

theorem engWrite_ok {q : List Instr} {s : State} {e : EngId} {off : Nat} {v : Word} (h : Ok q s) :
    OkO q (engWrite s e off v) := by
  unfold engWrite
  repeat' first
    | with_reducible assumption | with_reducible apply engSetEn_ok | with_reducible apply wrOk_ok | with_reducible apply engSreset_ok
    | with_reducible apply qselWrite_ok | with_reducible apply okIte | with_reducible apply okIteO | with_reducible apply OkO.some
    | with_reducible exact OkO.none

theorem execJobDequeue_ok {q : List Instr} {e : EngId} {s : State} (h : Ok q s) :
    OkN q (execJobDequeue e s) := by
  unfold execJobDequeue
  repeat' first
    | with_reducible assumption | with_reducible apply doDequeue_ok | with_reducible apply OkN.next

theorem execJobSetupReadResponse_ok {q : List Instr} {e : EngId} {path : PathRes} {s : State} (h : Ok q s) :
    OkN q (execJobSetupReadResponse e path s) := by
  unfold execJobSetupReadResponse
  repeat' first
    | with_reducible assumption | with_reducible apply doSetupRead_ok | with_reducible apply OkN.next

theorem execJobBorrowAnswer_ok {q : List Instr} {e : EngId} {s : State} (h : Ok q s) :
    OkN q (execJobBorrowAnswer e s) := by
  unfold execJobBorrowAnswer
  repeat' first
    | with_reducible assumption | with_reducible apply doBorrowAnswer_ok | with_reducible apply OkN.next

theorem execJobRunDone_ok {q : List Instr} {e : EngId} {s : State} (h : Ok q s) :
    OkN q (execJobRunDone e s) := by
  unfold execJobRunDone
  repeat' first
    | with_reducible assumption | with_reducible apply doRunDone_ok | with_reducible apply OkN.next

theorem execJobWritebackDone_ok {q : List Instr} {e : EngId} {path : PathRes} {s : State} (h : Ok q s) :
    OkN q (execJobWritebackDone e path s) := by
  unfold execJobWritebackDone
  repeat' first
    | with_reducible assumption | with_reducible apply doWritebackDone_ok | with_reducible apply OkN.next

theorem execJobAccessError_ok {q : List Instr} {e : EngId} {write : Bool} {o : Outc} {s : State} (h : Ok q s) :
    OkN q (execJobAccessError e write o s) := by
  unfold execJobAccessError
  repeat' first
    | with_reducible assumption | with_reducible apply doAccessError_ok | with_reducible apply OkN.next

theorem execJobInternalError_ok {q : List Instr} {e : EngId} {s : State} (h : Ok q s) :
    OkN q (execJobInternalError e s) := by
  unfold execJobInternalError
  repeat' first
    | with_reducible assumption | with_reducible apply doInternalError_ok | with_reducible apply OkN.next

theorem execJobDeadline_ok {q : List Instr} {e : EngId} {s : State} (h : Ok q s) :
    OkN q (execJobDeadline e s) := by
  unfold execJobDeadline
  repeat' first
    | with_reducible assumption | with_reducible apply doJobDeadline_ok | with_reducible apply OkN.next

theorem execJobAbortComplete_ok {q : List Instr} {e : EngId} {s : State} (h : Ok q s) :
    OkN q (execJobAbortComplete e s) := by
  unfold execJobAbortComplete
  repeat' first
    | with_reducible assumption | with_reducible apply doAbortComplete_ok | with_reducible apply OkN.next

theorem execJobRecordEnqueue_ok {q : List Instr} {e : EngId} {path : PathRes} {s : State} (h : Ok q s) :
    OkN q (execJobRecordEnqueue e path s) := by
  unfold execJobRecordEnqueue
  repeat' first
    | with_reducible assumption | with_reducible apply doJobRecord_ok | with_reducible apply OkN.next

theorem execEngineEnable_ok {q : List Instr} {who : Initiator} {e : EngId} {s : State} (h : Ok q s) :
    OkN q (execEngineEnable who e s) := by
  unfold execEngineEnable
  repeat' first
    | with_reducible assumption | with_reducible intro _ | with_reducible apply regCmd_ok | with_reducible apply wrAnswer_ok
    | with_reducible apply engSetEn_ok | with_reducible apply OkN.next | with_reducible apply OkP.mk

theorem execEngineDisable_ok {q : List Instr} {who : Initiator} {e : EngId} {s : State} (h : Ok q s) :
    OkN q (execEngineDisable who e s) := by
  unfold execEngineDisable
  repeat' first
    | with_reducible assumption | with_reducible intro _ | with_reducible apply regCmd_ok | with_reducible apply wrAnswer_ok
    | with_reducible apply engSetEn_ok | with_reducible apply OkN.next | with_reducible apply OkP.mk

theorem execEngineSreset_ok {q : List Instr} {who : Initiator} {e : EngId} {s : State} (h : Ok q s) :
    OkN q (execEngineSreset who e s) := by
  unfold execEngineSreset
  repeat' first
    | with_reducible assumption | with_reducible intro _ | with_reducible apply regCmd_ok | with_reducible apply wrAnswer_ok
    | with_reducible apply engSreset_ok | with_reducible apply OkN.next | with_reducible apply OkP.mk

theorem execAccQselWrite_ok {q : List Instr} {who : Initiator} {e : EngId} {v : Word} {s : State} (h : Ok q s) :
    OkN q (execAccQselWrite who e v s) := by
  unfold execAccQselWrite
  repeat' first
    | with_reducible assumption | with_reducible intro _ | with_reducible apply regCmd_ok | with_reducible apply wrAnswer_ok
    | with_reducible apply qselWrite_ok | with_reducible apply OkN.next

end Sys2Proof.Machine
end

