-- ==== Sys2Proof/Laws/OkConflict.lean ====
section
/-! SUPPORT. Machine/Conflict.lean keeps the invariant of Laws/Ok.lean: one lemma for each operation. -/

namespace Sys2Proof.Machine

set_option linter.unusedVariables false
set_option linter.unusedSimpArgs false

theorem noConflict_ok {q : List Instr} {cm : Bool} {s : State} {x : Outc × State} (h : Ok q s) (h2 : OkP q (x)) :
    OkP q (noConflict cm s x) := by
  unfold noConflict
  repeat' first
    | with_reducible assumption | with_reducible apply okIte2 | with_reducible apply OkP.mk

end Sys2Proof.Machine
end

