-- ==== Sys2Proof/Laws/OkCrierCore.lean ====
section
/-! SUPPORT. Machine/CrierCore.lean keeps the invariant of Laws/Ok.lean: one lemma for each operation. -/

namespace Sys2Proof.Machine

set_option linter.unusedVariables false
set_option linter.unusedSimpArgs false

theorem criTal_ok {q : List Instr} {s : State} {i : Nat} (h : Ok q s) :
    Ok q (criTal s i) := by
  unfold criTal
  repeat' first
    | with_reducible assumption | with_reducible apply tallyAdd_ok

theorem criEvent_ok {q : List Instr} {s : State} {reason : Nat} {slot : Nat} {len : Nat} {metric : Nat} {table : Nat} (h : Ok q s) :
    Ok q (criEvent s reason slot len metric table) := by
  unfold criEvent
  repeat' first
    | with_reducible assumption | with_reducible apply pushEvent_ok | with_reducible apply okIte

theorem criPktEvent_ok {q : List Instr} {s : State} {reason : Nat} (h : Ok q s) :
    Ok q (criPktEvent s reason) := by
  unfold criPktEvent
  repeat' first
    | with_reducible assumption | with_reducible apply criEvent_ok

theorem criRxTo_ok {q : List Instr} {s : State} {st : CriRx} (h : Ok q s) :
    Ok q (criRxTo s st) := by
  unfold criRxTo
  repeat' first
    | with_reducible assumption | with_reducible apply criPktEvent_ok | with_reducible apply criTal_ok | split
    | with_reducible simp only [↓okUpd]

theorem criCancelTx_ok {q : List Instr} {s : State} (h : Ok q s) :
    Ok q (criCancelTx s) := by
  unfold criCancelTx
  repeat' first
    | with_reducible assumption | with_reducible apply completeOk_ok | with_reducible apply criTal_ok | split
    | with_reducible simp only [↓okUpd]

theorem criAbort_ok {q : List Instr} {s : State} (h : Ok q s) :
    Ok q (criAbort s) := by
  unfold criAbort
  repeat' first
    | with_reducible assumption | with_reducible apply criCancelTx_ok | with_reducible apply criRxTo_ok

theorem criStop_ok {q : List Instr} {s : State} (h : Ok q s) :
    Ok q (criStop s) := by
  unfold criStop
  repeat' first
    | with_reducible assumption | with_reducible apply criCancelTx_ok | with_reducible apply criRxTo_ok

end Sys2Proof.Machine
end

