-- ==== Sys2Proof/Laws/OkFhpCore.lean ====
section
/-! SUPPORT. Machine/FhpCore.lean keeps the invariant of Laws/Ok.lean: one lemma for each operation. -/

namespace Sys2Proof.Machine

set_option linter.unusedVariables false
set_option linter.unusedSimpArgs false

theorem portTal_ok {q : List Instr} {s : State} {n : PortId} {i : Nat} (h : Ok q s) :
    Ok q (portTal s n i) := by
  unfold portTal
  repeat' first
    | with_reducible assumption | with_reducible apply tallyAdd_ok

theorem strmTal_ok {q : List Instr} {s : State} {n : StreamId} {i : Nat} (h : Ok q s) :
    Ok q (strmTal s n i) := by
  unfold strmTal
  repeat' first
    | with_reducible assumption | with_reducible apply tallyAdd_ok

theorem strmTalN_ok {q : List Instr} {s : State} {n : StreamId} {i : Nat} {k : Nat} (h : Ok q s) :
    Ok q (strmTalN s n i k) := by
  unfold strmTalN
  repeat' first
    | with_reducible assumption | with_reducible apply tallyAdd_ok

theorem fhpReport_ok {q : List Instr} {s : State} {n : StreamId} (h : Ok q s) :
    Ok q (fhpReport s n) := by
  unfold fhpReport
  repeat' first
    | with_reducible assumption | with_reducible apply report_ok

theorem closeInst_ok {q : List Instr} {s : State} {n : StreamId} {i : SymInst} (h : Ok q s) :
    Ok q (closeInst s n i) := by
  unfold closeInst
  repeat' first
    | with_reducible assumption | with_reducible apply State.setStrm_ok | with_reducible apply strmTal_ok | with_reducible apply okIte

theorem closeAll_ok {q : List Instr} {s : State} {n : StreamId} (h : Ok q s) :
    Ok q (closeAll s n) := by
  unfold closeAll
  repeat' first
    | with_reducible assumption | with_reducible intro _ | with_reducible apply closeInst_ok | with_reducible apply okFold

theorem openInst_ok {q : List Instr} {s : State} {n : StreamId} {ident : BitVec 24} {sTick : Word} (h : Ok q s) :
    OkP q (openInst s n ident sTick) := by
  unfold openInst
  repeat' first
    | with_reducible assumption | with_reducible apply closeInst_ok | with_reducible apply State.setStrm_ok | split
    | with_reducible apply OkP.mk

theorem fhpStore_ok {q : List Instr} {s : State} {pa : Nat} {d : List Byte} {act : ActId} (h : Ok q s) :
    OkA q (fhpStore s pa d act) := by
  unfold fhpStore
  repeat' first
    | with_reducible assumption | with_reducible apply accStore_ok | with_reducible apply OkA.done | split

theorem fhpStores_ok {q : List Instr} {s0 : State} {act : ActId} {l : List (Nat × List Byte)} (h : Ok q s0) :
    OkA4 q (fhpStores s0 act l) := by
  unfold fhpStores
  repeat' first
    | with_reducible assumption | with_reducible intro _ | with_reducible apply fhpStore_ok | with_reducible apply stayWake_ok
    | with_reducible apply OkA.wait | with_reducible apply OkA.done | with_reducible apply OkA4.snd
    | with_reducible refine OkA.wait_get ?_ ‹_› | with_reducible refine OkA.done_get ?_ ‹_› | with_reducible apply okFoldA4 | split
    | with_reducible apply OkA4.mk

theorem State.setQuad_ok {q : List Instr} {s : State} {qq : Nat} {x : Quad} (h : Ok q s) :
    Ok q (State.setQuad s qq x) := by
  unfold State.setQuad
  repeat' first
    | with_reducible assumption | with_reducible simp only [↓okUpd]

theorem txDone_ok {q : List Instr} {s : State} {n : StreamId} {e : Entry} {o : Outc} (h : Ok q s) :
    Ok q (txDone s n e o) := by
  unfold txDone
  repeat' first
    | with_reducible assumption | with_reducible apply State.setStrm_ok

theorem fhpStep_ok {q : List Instr} {s : State} {old : Word} {fwd : Option Nat} (h : Ok q s) :
    Ok q (fhpStep s old fwd) := by
  unfold fhpStep
  repeat' first
    | with_reducible assumption | with_reducible intro _ | with_reducible apply closeAll_ok | with_reducible apply strmTal_ok
    | with_reducible apply txDone_ok | with_reducible apply okIte | with_reducible apply okFold | split

end Sys2Proof.Machine
end

