-- ==== Sys2Proof/Laws/OkClock.lean ====
section
/-! SUPPORT. Machine/Clock.lean keeps the invariant of Laws/Ok.lean: one lemma for each operation. -/

namespace Sys2Proof.Machine

set_option linter.unusedVariables false
set_option linter.unusedSimpArgs false

theorem cmkTal_ok {q : List Instr} {s : State} {i : Nat} {n : Nat} (h : Ok q s) :
    Ok q (cmkTal s i n) := by
  unfold cmkTal
  repeat' first
    | with_reducible assumption | with_reducible apply tallyAdd_ok

theorem timeEvent_ok {q : List Instr} {s : State} {reason : Nat} {b1 : Nat} (h : Ok q s) :
    Ok q (timeEvent s reason b1) := by
  unfold timeEvent
  repeat' first
    | with_reducible assumption | with_reducible apply pushEvent_ok

theorem State.setPps_ok {q : List Instr} {s : State} {n : Bool} {p : Pps} (h : Ok q s) :
    Ok q (State.setPps s n p) := by
  unfold State.setPps
  repeat' first
    | with_reducible assumption | with_reducible apply okIte | with_reducible refine okCmk ?_ rfl rfl rfl rfl

theorem ppsPulse_ok {q : List Instr} {s : State} {n : Bool} (h : Ok q s) :
    Ok q (ppsPulse s n) := by
  unfold ppsPulse
  repeat' first
    | with_reducible assumption | with_reducible apply State.setPps_ok | with_reducible apply okIte

theorem timerOut_ok {q : List Instr} {s : State} {t : TimerId} {x : Tmr} (h : Ok q s) :
    Ok q (timerOut s t x) := by
  unfold timerOut
  repeat' first
    | with_reducible assumption | with_reducible apply ppsPulse_ok | with_reducible apply okIte | split | with_reducible simp only [↓okUpd]

theorem fireTimer_ok {q : List Instr} {s : State} {t : TimerId} {skip : Bool} (h : Ok q s) :
    Ok q (fireTimer s t skip) := by
  unfold fireTimer
  repeat' first
    | with_reducible assumption | with_reducible apply cmkTal_ok | with_reducible apply timerOut_ok | with_reducible apply State.setTmr_ok
    | with_reducible apply timeEvent_ok | with_reducible apply okIte

theorem freeTimer_ok {q : List Instr} {s : State} {t : TimerId} (h : Ok q s) :
    Ok q (freeTimer s t) := by
  unfold freeTimer
  repeat' first
    | with_reducible assumption | with_reducible apply State.setTmr_ok

theorem armTimer_ok {q : List Instr} {cm : Bool} {s : State} {t : TimerId} {o : TmrOwner} {x : Tmr} (h : Ok q s) :
    OkS q (armTimer cm s t o x) := by
  unfold armTimer
  repeat' first
    | with_reducible assumption | with_reducible apply State.setTmr_ok | with_reducible apply okIteS | with_reducible apply OkS.some
    | with_reducible exact OkS.none

theorem ppsTake_ok {q : List Instr} {s : State} {n : Bool} (h : Ok q s) :
    Ok q (ppsTake s n) := by
  unfold ppsTake
  repeat' first
    | with_reducible assumption | with_reducible apply criCancelTx_ok | with_reducible apply State.setTmr_ok
    | with_reducible apply timeEvent_ok | with_reducible apply okIte

theorem stepTimer_ok {q : List Instr} {old : Nat} {s : State} {t : TimerId} (h : Ok q s) :
    Ok q (stepTimer old s t) := by
  unfold stepTimer
  repeat' first
    | with_reducible assumption | with_reducible apply fireTimer_ok | with_reducible apply State.setTmr_ok | with_reducible apply okIte

theorem setTime_ok {q : List Instr} {s : State} {u : Nat} (h : Ok q s) : Ok q (setTime s u) :=
  okCmk (s := { s with cmk := s.cmk.atUnits u 0 }) (okAtUnits h) rfl rfl rfl rfl

theorem stepTime_ok {q : List Instr} {s : State} {u0 : Nat} (h : Ok q s) :
    Ok q (stepTime s u0) := by
  unfold stepTime
  repeat' first
    | with_reducible assumption | with_reducible intro _ | with_reducible apply cmkTal_ok | with_reducible apply setTime_ok
    | with_reducible apply timeEvent_ok | with_reducible apply fhpStep_ok | with_reducible apply criAbort_ok
    | with_reducible apply stepTimer_ok | with_reducible apply okIte | with_reducible apply okFold
    | with_reducible refine okCmk ?_ rfl rfl rfl rfl

theorem State.setCsrc_ok {q : List Instr} {s : State} {i : BitVec 3} {x : ClkSrc} (h : Ok q s) :
    Ok q (State.setCsrc s i x) := by
  unfold State.setCsrc
  repeat' first
    | with_reducible assumption | with_reducible refine okCmk ?_ rfl rfl rfl rfl

theorem freeFoff_ok {q : List Instr} {s : State} (h : Ok q s) : Ok q (freeFoff s) := by
  unfold freeFoff
  generalize e : takeFree s = p
  obtain ⟨n, t⟩ := p
  have ht : Ok q t := (takeFree_ok h).get e
  dsimp only
  generalize BitVec.ofInt 32 _ = v
  exact okCmk ht rfl rfl rfl rfl

theorem enterState_ok {q : List Instr} {s : State} {x : ClockState} (h : Ok q s) : Ok q (enterState s x) := by
  have h1 : Ok q { s with cmk := { s.cmk with st := x, good := 0 } } := okCmk h rfl rfl rfl rfl
  cases x with
  | freerun => exact okCmk h1 rfl rfl rfl rfl
  | acquiring => exact h1
  | locked => exact timeEvent_ok h1
  | holdover => exact timeEvent_ok h1

theorem stateAfterSel_ok {q : List Instr} {s : State} {b c : Bool} (h : Ok q s) : Ok q (stateAfterSel s b c) := by
  unfold stateAfterSel
  dsimp only
  split
  · exact okIte (enterState_ok h) h
  · exact okIte h (enterState_ok h)
  · refine okIte (enterState_ok ?_) (okIte (enterState_ok h) h)
    exact okCmk (freeFoff_ok h) rfl rfl rfl rfl
  · exact okIte (enterState_ok h) h

theorem selectSources_ok {q : List Instr} {s : State} (h : Ok q s) :
    Ok q (selectSources s) := by
  unfold selectSources
  repeat' first
    | with_reducible assumption | with_reducible apply stateAfterSel_ok | with_reducible apply timeEvent_ok | with_reducible apply cmkTal_ok
    | with_reducible apply okIte | with_reducible refine okCmk ?_ rfl rfl rfl rfl

theorem goodMeasure_ok {q : List Instr} {s : State} {ok : Bool} (h : Ok q s) :
    Ok q (goodMeasure s ok) := by
  unfold goodMeasure
  repeat' first
    | with_reducible assumption | with_reducible apply enterState_ok | with_reducible apply okIte
    | with_reducible refine okCmk ?_ rfl rfl rfl rfl

theorem measureStep_ok {q : List Instr} {s : State} {i : BitVec 3} {phase : BitVec 64} {ppb : BitVec 32} (h : Ok q s) :
    Ok q (measureStep s i phase ppb) := by
  unfold measureStep
  repeat' first
    | with_reducible assumption | with_reducible apply stepTime_ok | with_reducible apply freeFoff_ok | with_reducible apply goodMeasure_ok
    | with_reducible apply okIte | with_reducible refine okCmk ?_ rfl rfl rfl rfl

end Sys2Proof.Machine
end

