-- ==== Sys2Proof/Laws/OkFhpCmds.lean ====
section
/-! SUPPORT. Machine/FhpCmds.lean keeps the invariant of Laws/Ok.lean: one lemma for each operation. -/

namespace Sys2Proof.Machine

set_option linter.unusedVariables false
set_option linter.unusedSimpArgs false

theorem excPath_ok {q : List Instr} {s : State} {n : PortId} {f : List Byte} {bad : Bool} {step : Nat} (h : Ok q s) :
    Ok q (excPath s n f bad step) := by
  unfold excPath
  repeat' first
    | with_reducible assumption | with_reducible apply portTal_ok | with_reducible apply accStore_ok | with_reducible apply pushEvent_ok
    | with_reducible apply okIte | with_reducible refine OkA.done_get ?_ ‹_› | split | with_reducible simp only [↓okUpd]

theorem doFrameReceive_ok {q : List Instr} {s : State} {n : PortId} {f : List Byte} {bad : Bool} {stamp : Ts} (h : Ok q s) :
    Ok q (doFrameReceive s n f bad stamp) := by
  unfold doFrameReceive
  repeat' first
    | with_reducible assumption | with_reducible apply portTal_ok | with_reducible apply excPath_ok | with_reducible apply fhpReport_ok
    | with_reducible apply strmTal_ok | with_reducible apply State.setPort_ok | with_reducible apply okIte | split

theorem execFrameReceive_ok {q : List Instr} {port : PortId} {frame : List Byte} {fcsBad : Bool} {stamp : Ts} {s : State} (h : Ok q s) :
    OkN q (execFrameReceive port frame fcsBad stamp s) := by
  unfold execFrameReceive
  repeat' first
    | with_reducible assumption | with_reducible apply doFrameReceive_ok | with_reducible apply OkN.next

theorem joinInst_ok {q : List Instr} {s : State} {n : StreamId} {i : SymInst} {map : BitVec 273} {flags : Word} {o : Outc} (h : Ok q s) :
    Ok q (joinInst s n i map flags o) := by
  unfold joinInst
  repeat' first
    | with_reducible assumption | with_reducible apply State.setStrm_ok | with_reducible apply closeInst_ok | with_reducible apply okIte

theorem ownDesc_ok {q : List Instr} {s : State} {n : StreamId} {sTick : Word} {ident : BitVec 24} {prbs : Nat} {late : Bool} {len : Nat} {flags : Word} {o : Outc} (h : Ok q s) :
    Ok q (ownDesc s n sTick ident prbs late len flags o) := by
  unfold ownDesc
  repeat' first
    | with_reducible assumption | with_reducible apply State.setStrm_ok

theorem settleIq_ok {q : List Instr} {s : State} {n : StreamId} {c : PktClass} {sTick : Word} {ident : BitVec 24} {map : BitVec 273} {num : Nat} {flags : Word} {o : Outc} (h : Ok q s) :
    Ok q (settleIq s n c sTick ident map num flags o) := by
  unfold settleIq
  repeat' first
    | with_reducible assumption | with_reducible apply ownDesc_ok | with_reducible apply joinInst_ok | with_reducible apply openInst_ok
    | with_reducible apply okIte | with_reducible apply OkP.snd | split

theorem rxFront_ok {q : List Instr} {s : State} {n : PortId} {typ2 : Bool} (h : Ok q s) :
    OkO q (rxFront s n typ2) := by
  unfold rxFront
  repeat' first
    | with_reducible assumption | with_reducible apply State.setPort_ok | with_reducible apply okIteO | with_reducible apply OkO.some
    | with_reducible exact OkO.none | split | with_reducible apply OkP.mk

theorem doIqPacket_ok {q : List Instr} {s : State} {n : PortId} (h : Ok q s) :
    Ok q (doIqPacket s n) := by
  unfold doIqPacket
  repeat' first
    | with_reducible assumption | with_reducible apply rxFront_ok | with_reducible apply portTal_ok | with_reducible apply strmTal_ok
    | with_reducible apply fhpStores_ok | with_reducible apply stayWake_ok | with_reducible apply settleIq_ok
    | with_reducible apply strmTalN_ok | with_reducible apply okIte | with_reducible refine OkO.get ?_ ‹_ = some (_, _)›
    | with_reducible refine OkA.wait_get (OkA4.get ?_ ‹_ = (_, _, _, Acc.wait _)›) rfl
    | with_reducible refine OkA.done_get (OkA4.get ?_ ‹_ = (_, _, _, Acc.done _ _)›) rfl | split | with_reducible simp only [↓okUpd]

theorem execIqPacketReceive_ok {q : List Instr} {port : PortId} {s : State} (h : Ok q s) :
    OkN q (execIqPacketReceive port s) := by
  unfold execIqPacketReceive
  repeat' first
    | with_reducible assumption | with_reducible apply doIqPacket_ok | with_reducible apply OkN.next

theorem doType2_ok {q : List Instr} {s : State} {n : PortId} (h : Ok q s) :
    Ok q (doType2 s n) := by
  unfold doType2
  repeat' first
    | with_reducible assumption | with_reducible apply rxFront_ok | with_reducible apply portTal_ok | with_reducible apply strmTal_ok
    | with_reducible apply fhpStores_ok | with_reducible apply stayWake_ok | with_reducible apply ownDesc_ok
    | with_reducible apply strmTalN_ok | with_reducible apply okIte | with_reducible refine OkO.get ?_ ‹_ = some (_, _)›
    | with_reducible refine OkA.wait_get (OkA4.get ?_ ‹_ = (_, _, _, Acc.wait _)›) rfl
    | with_reducible refine OkA.done_get (OkA4.get ?_ ‹_ = (_, _, _, Acc.done _ _)›) rfl | split

theorem execType2MessageReceive_ok {q : List Instr} {port : PortId} {s : State} (h : Ok q s) :
    OkN q (execType2MessageReceive port s) := by
  unfold execType2MessageReceive
  repeat' first
    | with_reducible assumption | with_reducible apply doType2_ok | with_reducible apply OkN.next

theorem doSymbolClose_ok {q : List Instr} {s : State} {n : StreamId} {k : BitVec 2} (h : Ok q s) :
    Ok q (doSymbolClose s n k) := by
  unfold doSymbolClose
  repeat' first
    | with_reducible assumption | with_reducible apply closeInst_ok | with_reducible apply okIte | split

theorem execSymbolCloseTimeout_ok {q : List Instr} {strm : StreamId} {inst : BitVec 2} {s : State} (h : Ok q s) :
    OkN q (execSymbolCloseTimeout strm inst s) := by
  unfold execSymbolCloseTimeout
  repeat' first
    | with_reducible assumption | with_reducible apply doSymbolClose_ok | with_reducible apply OkN.next

theorem fabEntered_ok {q : List Instr} {y0 : EnqAns × State} (h : OkP q (y0)) :
    OkF q (fabEntered y0) := by
  unfold fabEntered
  repeat' first
    | with_reducible apply OkF.taken | with_reducible apply OkF.full | with_reducible apply OkF.lost
    | with_reducible exact OkP.snd ‹OkP q (_, _)› | split

theorem fabVia_ok {q : List Instr} {s : State} {qq : QueueId} {e : Entry} {y3 : Gate × State} (h : Ok q s) (h2 : OkP q (y3)) :
    OkF q (fabVia s qq e y3) := by
  unfold fabVia
  repeat' first
    | with_reducible assumption | with_reducible apply holdWhole_ok | with_reducible apply fabEntered_ok | with_reducible apply enqueue_ok
    | with_reducible apply OkF.lost | with_reducible apply OkF.wait | with_reducible exact OkP.snd ‹OkP q (_, _)› | split

theorem fabEnqueue_ok {q : List Instr} {s : State} {qq : QueueId} {e : Entry} {path : PathRes} (h : Ok q s) :
    OkF q (fabEnqueue s qq e path) := by
  unfold fabEnqueue
  repeat' first
    | with_reducible assumption | with_reducible apply fabVia_ok | with_reducible apply queueWay_ok | with_reducible apply OkF.ite
    | with_reducible apply OkF.lost | with_reducible apply OkF.wait | split

theorem doDescEnqueue_ok {q : List Instr} {s : State} {n : StreamId} {path : PathRes} (h : Ok q s) :
    Ok q (doDescEnqueue s n path) := by
  unfold doDescEnqueue
  repeat' first
    | with_reducible assumption | with_reducible apply fabEnqueue_ok | with_reducible apply State.setStrm_ok | with_reducible apply okIte
    | with_reducible refine OkF.taken_get ?_ ‹_› | with_reducible refine OkF.full_get ?_ ‹_› | with_reducible refine OkF.lost_get ?_ ‹_›
    | with_reducible refine OkF.wait_get ?_ ‹_› | split | with_reducible simp only [↓okUpd]

theorem execSymbolDescriptorEnqueue_ok {q : List Instr} {strm : StreamId} {path : PathRes} {s : State} (h : Ok q s) :
    OkN q (execSymbolDescriptorEnqueue strm path s) := by
  unfold execSymbolDescriptorEnqueue
  repeat' first
    | with_reducible assumption | with_reducible apply doDescEnqueue_ok | with_reducible apply OkN.next

theorem excFree_ok {q : List Instr} {s : State} {v : Word} (h : Ok q s) :
    Ok q (excFree s v) := by
  unfold excFree
  repeat' first
    | with_reducible assumption | with_reducible simp only [↓okUpd]

theorem execExceptionBufferFree_ok {q : List Instr} {who : Initiator} {v : Word} {s : State} (h : Ok q s) :
    OkN q (execExceptionBufferFree who v s) := by
  unfold execExceptionBufferFree
  repeat' first
    | with_reducible assumption | with_reducible intro _ | with_reducible apply regCmd_ok | with_reducible apply wrAnswer_ok
    | with_reducible apply excFree_ok | with_reducible apply OkN.next | with_reducible apply OkP.mk

theorem doTxDequeue_ok {q : List Instr} {s : State} {n : StreamId} (h : Ok q s) :
    Ok q (doTxDequeue s n) := by
  unfold doTxDequeue
  repeat' first
    | with_reducible assumption | with_reducible apply dequeue_ok | with_reducible apply State.setStrm_ok | with_reducible apply criTal_ok
    | with_reducible apply txDone_ok | with_reducible apply okIte | with_reducible apply OkP.snd

theorem execTxEntryDequeue_ok {q : List Instr} {strm : StreamId} {s : State} (h : Ok q s) :
    OkN q (execTxEntryDequeue strm s) := by
  unfold execTxEntryDequeue
  repeat' first
    | with_reducible assumption | with_reducible apply doTxDequeue_ok | with_reducible apply OkN.next

theorem txOut_ok {q : List Instr} {s : State} {n : StreamId} {hdr : List Byte} {body : List Byte} (h : Ok q s) :
    Ok q (txOut s n hdr body) := by
  unfold txOut
  repeat' first
    | with_reducible assumption | with_reducible apply strmTal_ok | with_reducible apply portTal_ok | with_reducible apply State.setStrm_ok
    | with_reducible simp only [↓okUpd]

theorem doTxSend_ok {q : List Instr} {s : State} {n : StreamId} {path : PathRes} (h : Ok q s) :
    Ok q (doTxSend s n path) := by
  unfold doTxSend
  repeat' first
    | with_reducible assumption | with_reducible apply txDone_ok | with_reducible apply strmTal_ok | with_reducible apply viaPath_ok
    | with_reducible apply accRead_ok | with_reducible apply stayWake_ok | with_reducible apply txOut_ok | with_reducible apply okIte
    | with_reducible apply OkA.done | with_reducible refine OkA.wait_get ?_ ‹_› | with_reducible refine OkA.done_get ?_ ‹_› | split
    | with_reducible simp only [↓okUpd]

theorem execTxSend_ok {q : List Instr} {strm : StreamId} {path : PathRes} {s : State} (h : Ok q s) :
    OkN q (execTxSend strm path s) := by
  unfold execTxSend
  repeat' first
    | with_reducible assumption | with_reducible apply doTxSend_ok | with_reducible apply OkN.next

theorem doTxRecord_ok {q : List Instr} {s : State} {n : StreamId} {path : PathRes} (h : Ok q s) :
    Ok q (doTxRecord s n path) := by
  unfold doTxRecord
  repeat' first
    | with_reducible assumption | with_reducible apply fabEnqueue_ok | with_reducible apply State.setStrm_ok
    | with_reducible refine OkF.taken_get ?_ ‹_› | with_reducible refine OkF.full_get ?_ ‹_› | with_reducible refine OkF.lost_get ?_ ‹_›
    | with_reducible refine OkF.wait_get ?_ ‹_› | split

theorem execTxRecordEnqueue_ok {q : List Instr} {strm : StreamId} {path : PathRes} {s : State} (h : Ok q s) :
    OkN q (execTxRecordEnqueue strm path s) := by
  unfold execTxRecordEnqueue
  repeat' first
    | with_reducible assumption | with_reducible apply doTxRecord_ok | with_reducible apply OkN.next

theorem owdSend_ok {q : List Instr} {s : State} {n : PortId} {action : BitVec 8} {id : BitVec 8} {stamp : Ts} {comp : Word} (h : Ok q s) :
    Ok q (owdSend s n action id stamp comp) := by
  unfold owdSend
  repeat' first
    | with_reducible assumption | with_reducible apply portTal_ok | with_reducible apply State.setPort_ok | with_reducible apply okIte

theorem doDelayRequest_ok {q : List Instr} {s : State} {n : PortId} {twoStep : Bool} {id : BitVec 8} (h : Ok q s) :
    Ok q (doDelayRequest s n twoStep id) := by
  unfold doDelayRequest
  repeat' first
    | with_reducible assumption | with_reducible apply State.setPort_ok | with_reducible apply owdSend_ok | with_reducible apply okIte

theorem execDelayRequestReceive_ok {q : List Instr} {port : PortId} {twoStep : Bool} {measId : BitVec 8} {s : State} (h : Ok q s) :
    OkN q (execDelayRequestReceive port twoStep measId s) := by
  unfold execDelayRequestReceive
  repeat' first
    | with_reducible assumption | with_reducible apply doDelayRequest_ok | with_reducible apply OkN.next

theorem doDelayFollowUp_ok {q : List Instr} {s : State} {n : PortId} {id : BitVec 8} (h : Ok q s) :
    Ok q (doDelayFollowUp s n id) := by
  unfold doDelayFollowUp
  repeat' first
    | with_reducible assumption | with_reducible apply portTal_ok | with_reducible apply owdSend_ok | with_reducible apply State.setPort_ok
    | with_reducible apply okIte | split

theorem execDelayFollowUpReceive_ok {q : List Instr} {port : PortId} {measId : BitVec 8} {s : State} (h : Ok q s) :
    OkN q (execDelayFollowUpReceive port measId s) := by
  unfold execDelayFollowUpReceive
  repeat' first
    | with_reducible assumption | with_reducible apply doDelayFollowUp_ok | with_reducible apply OkN.next

theorem owdStart_ok {q : List Instr} {s : State} {n : PortId} {id : BitVec 8} {followup : Bool} (h : Ok q s) :
    Ok q (owdStart s n id followup) := by
  unfold owdStart
  repeat' first
    | with_reducible assumption | with_reducible apply State.setPort_ok | with_reducible apply owdSend_ok | with_reducible apply okIte

theorem doRemoteDelay_ok {q : List Instr} {s : State} {n : PortId} {id : BitVec 8} (h : Ok q s) :
    Ok q (doRemoteDelay s n id) := by
  unfold doRemoteDelay
  repeat' first
    | with_reducible assumption | with_reducible apply owdSend_ok | with_reducible apply owdStart_ok | with_reducible apply okIte

theorem execRemoteDelayRequestReceive_ok {q : List Instr} {port : PortId} {measId : BitVec 8} {s : State} (h : Ok q s) :
    OkN q (execRemoteDelayRequestReceive port measId s) := by
  unfold execRemoteDelayRequestReceive
  repeat' first
    | with_reducible assumption | with_reducible apply doRemoteDelay_ok | with_reducible apply OkN.next

theorem doDelayResponse_ok {q : List Instr} {s : State} {n : PortId} {id : BitVec 8} {peerRx : BitVec 64} {comp : BitVec 64} (h : Ok q s) :
    Ok q (doDelayResponse s n id peerRx comp) := by
  unfold doDelayResponse
  repeat' first
    | with_reducible assumption | with_reducible apply State.setPort_ok | with_reducible apply okIte

theorem execDelayResponseReceive_ok {q : List Instr} {port : PortId} {measId : BitVec 8} {peerRx : BitVec 64} {comp : BitVec 64} {s : State} (h : Ok q s) :
    OkN q (execDelayResponseReceive port measId peerRx comp s) := by
  unfold execDelayResponseReceive
  repeat' first
    | with_reducible assumption | with_reducible apply doDelayResponse_ok | with_reducible apply OkN.next

theorem owdctlWrite_ok {q : List Instr} {s : State} {n : PortId} {v : Word} (h : Ok q s) :
    OkP q (owdctlWrite s n v) := by
  unfold owdctlWrite
  repeat' first
    | with_reducible assumption | with_reducible apply owdStart_ok | with_reducible apply State.setPort_ok | with_reducible apply okIte2
    | with_reducible apply OkP.mk

theorem portAns_ok {q : List Instr} {s : State} {n : PortId} {x : Outc × State} (h : Ok q s) (h2 : OkP q (x)) :
    OkP q (portAns s n x) := by
  unfold portAns
  repeat' first
    | with_reducible assumption | with_reducible apply okIte2 | with_reducible apply OkP.mk

theorem execDelayMeasurementStart_ok {q : List Instr} {who : Initiator} {port : PortId} {v : Word} {s : State} (h : Ok q s) :
    OkN q (execDelayMeasurementStart who port v s) := by
  unfold execDelayMeasurementStart
  repeat' first
    | with_reducible assumption | with_reducible intro _ | with_reducible apply regCmd_ok | with_reducible apply wrAnswer_ok
    | with_reducible apply portAns_ok | with_reducible apply owdctlWrite_ok | with_reducible apply OkN.next

theorem doDelayTimeout_ok {q : List Instr} {s : State} {n : PortId} (h : Ok q s) :
    Ok q (doDelayTimeout s n) := by
  unfold doDelayTimeout
  repeat' first
    | with_reducible assumption | with_reducible apply State.setPort_ok | with_reducible apply okIte

theorem execDelayMeasurementTimeout_ok {q : List Instr} {port : PortId} {s : State} (h : Ok q s) :
    OkN q (execDelayMeasurementTimeout port s) := by
  unfold execDelayMeasurementTimeout
  repeat' first
    | with_reducible assumption | with_reducible apply doDelayTimeout_ok | with_reducible apply OkN.next

theorem State.setPtpPort_ok {q : List Instr} {s : State} {n : PortId} {x : PtpPort} (h : Ok q s) :
    Ok q (State.setPtpPort s n x) := by
  unfold State.setPtpPort
  repeat' first
    | with_reducible assumption | with_reducible refine okCmk ?_ rfl rfl rfl rfl

theorem quadWrite_ok {q : List Instr} {s : State} {qq : BitVec 3} {v : Word} (h : Ok q s) :
    OkP q (quadWrite s qq v) := by
  unfold quadWrite
  repeat' first
    | with_reducible assumption | with_reducible intro _ | with_reducible apply State.setQuad_ok | with_reducible apply State.setPtpPort_ok
    | with_reducible apply okIte2 | with_reducible apply okFold | with_reducible apply OkP.mk

theorem execQuadModeWrite_ok {q : List Instr} {who : Initiator} {qq : BitVec 3} {v : Word} {s : State} (h : Ok q s) :
    OkN q (execQuadModeWrite who qq v s) := by
  unfold execQuadModeWrite
  repeat' first
    | with_reducible assumption | with_reducible intro _ | with_reducible apply regCmd_ok | with_reducible apply wrAnswer_ok
    | with_reducible apply quadWrite_ok | with_reducible apply OkN.next

theorem doLaneLock_ok {q : List Instr} {s : State} {qq : BitVec 3} {locked : Bool} (h : Ok q s) :
    Ok q (doLaneLock s qq locked) := by
  unfold doLaneLock
  repeat' first
    | with_reducible assumption | with_reducible intro _ | with_reducible apply State.setQuad_ok | with_reducible apply State.setCsrc_ok
    | with_reducible apply okIte | with_reducible apply okFold

theorem execLaneLockChange_ok {q : List Instr} {qq : BitVec 3} {locked : Bool} {s : State} (h : Ok q s) :
    OkN q (execLaneLockChange qq locked s) := by
  unfold execLaneLockChange
  repeat' first
    | with_reducible assumption | with_reducible apply doLaneLock_ok | with_reducible apply OkN.next

theorem doLinkChange_ok {q : List Instr} {s : State} {n : PortId} {up : Bool} (h : Ok q s) :
    Ok q (doLinkChange s n up) := by
  unfold doLinkChange
  repeat' first
    | with_reducible assumption | with_reducible apply State.setQuad_ok | with_reducible apply okIte

theorem execFronthaulLinkChange_ok {q : List Instr} {port : PortId} {up : Bool} {s : State} (h : Ok q s) :
    OkN q (execFronthaulLinkChange port up s) := by
  unfold execFronthaulLinkChange
  repeat' first
    | with_reducible assumption | with_reducible apply doLinkChange_ok | with_reducible apply OkN.next

theorem strmCfgWrite_ok {q : List Instr} {cm : Bool} {s : State} {n : StreamId} {v : Word} (h : Ok q s) :
    OkP q (strmCfgWrite cm s n v) := by
  unfold strmCfgWrite
  repeat' first
    | with_reducible assumption | with_reducible apply noConflict_ok | with_reducible apply State.setStrm_ok
    | with_reducible apply closeAll_ok | with_reducible apply okIte2 | split | with_reducible apply OkP.mk

theorem execStreamEnable_ok {q : List Instr} {who : Initiator} {strm : StreamId} {v : Word} {s : State} (h : Ok q s) :
    OkN q (execStreamEnable who strm v s) := by
  unfold execStreamEnable
  repeat' first
    | with_reducible assumption | with_reducible intro _ | with_reducible apply regCmd_ok | with_reducible apply wrAnswer_ok
    | with_reducible apply strmCfgWrite_ok | with_reducible apply OkN.next

theorem execStreamDisable_ok {q : List Instr} {who : Initiator} {strm : StreamId} {v : Word} {s : State} (h : Ok q s) :
    OkN q (execStreamDisable who strm v s) := by
  unfold execStreamDisable
  repeat' first
    | with_reducible assumption | with_reducible intro _ | with_reducible apply regCmd_ok | with_reducible apply wrAnswer_ok
    | with_reducible apply strmCfgWrite_ok | with_reducible apply OkN.next

theorem strmWrite_ok {q : List Instr} {cm : Bool} {s : State} {n : StreamId} {o : Nat} {v : Word} (h : Ok q s) :
    OkO q (strmWrite cm s n o v) := by
  unfold strmWrite
  repeat' first
    | with_reducible assumption | with_reducible apply strmCfgWrite_ok | with_reducible apply wrNo_ok | with_reducible apply wrOk_ok
    | with_reducible apply State.setStrm_ok | with_reducible apply okIteO | with_reducible apply OkO.some | with_reducible exact OkO.none
    | split

theorem portRead_ok {q : List Instr} {s : State} {n : PortId} {o : Nat} (h : Ok q s) :
    OkO q (portRead s n o) := by
  unfold portRead
  repeat' first
    | with_reducible assumption | with_reducible apply rdPack_ok | with_reducible apply rdVal_ok | with_reducible apply talRead_ok
    | with_reducible apply okIteO | with_reducible exact OkO.none

theorem portWrite_ok {q : List Instr} {cm : Bool} {s : State} {n : PortId} {o : Nat} {v : Word} (h : Ok q s) :
    OkO q (portWrite cm s n o v) := by
  unfold portWrite
  repeat' first
    | with_reducible assumption | with_reducible apply portAns_ok | with_reducible apply noConflict_ok
    | with_reducible apply State.setPort_ok | with_reducible apply owdctlWrite_ok | with_reducible apply okIteO
    | with_reducible apply OkO.some | with_reducible exact OkO.none | with_reducible apply OkP.mk

theorem fhpRead_ok {q : List Instr} {s : State} {off : Nat} (h : Ok q s) :
    OkO q (fhpRead s off) := by
  unfold fhpRead
  repeat' first
    | with_reducible assumption | with_reducible apply rdVal_ok | with_reducible apply rdPack_ok | with_reducible apply portRead_ok
    | with_reducible apply talRead_ok | with_reducible apply okIteO | with_reducible exact OkO.none | with_reducible apply okMapV | split

theorem fhpWrite_ok {q : List Instr} {cm : Bool} {s : State} {off : Nat} {v : Word} (h : Ok q s) :
    OkO q (fhpWrite cm s off v) := by
  unfold fhpWrite
  repeat' first
    | with_reducible assumption | with_reducible apply noConflict_ok | with_reducible apply wrOk_ok | with_reducible apply excFree_ok
    | with_reducible apply quadWrite_ok | with_reducible apply portWrite_ok | with_reducible apply strmWrite_ok
    | with_reducible apply okIteO | with_reducible apply OkO.some | with_reducible exact OkO.none | split | with_reducible apply OkP.mk
    | with_reducible simp only [↓okUpd]

end Sys2Proof.Machine
end

