-- ==== Sys2Proof/Laws/OkClockCmds.lean ====
section
/-! SUPPORT. Machine/ClockCmds.lean keeps the invariant of Laws/Ok.lean: one lemma for each operation. -/

namespace Sys2Proof.Machine

set_option linter.unusedVariables false
set_option linter.unusedSimpArgs false

theorem execSourceSelection_ok {q : List Instr} {s : State} (h : Ok q s) :
    OkN q (execSourceSelection s) := by
  unfold execSourceSelection
  repeat' first
    | with_reducible assumption | with_reducible apply selectSources_ok | with_reducible apply OkN.next

theorem doValidity_ok {q : List Instr} {s : State} {c : SrcChange} (h : Ok q s) :
    Ok q (doValidity s c) := by
  unfold doValidity
  repeat' first
    | with_reducible assumption | with_reducible apply State.setCsrc_ok | with_reducible apply okIte

theorem execSourceValidityChange_ok {q : List Instr} {c : SrcChange} {s : State} (h : Ok q s) :
    OkN q (execSourceValidityChange c s) := by
  unfold execSourceValidityChange
  repeat' first
    | with_reducible assumption | with_reducible apply doValidity_ok | with_reducible apply OkN.next

theorem execPhaseMeasurement_ok {q : List Instr} {slot : BitVec 3} {phase : BitVec 64} {freqPpb : BitVec 32} {s : State} (h : Ok q s) :
    OkN q (execPhaseMeasurement slot phase freqPpb s) := by
  unfold execPhaseMeasurement
  repeat' first
    | with_reducible assumption | with_reducible apply measureStep_ok | with_reducible apply OkN.next

theorem doHospec_ok {q : List Instr} {s : State} (h : Ok q s) :
    Ok q (doHospec s) := by
  unfold doHospec
  repeat' first
    | with_reducible assumption | with_reducible apply timeEvent_ok | with_reducible apply okIte
    | with_reducible refine okCmk ?_ rfl rfl rfl rfl

theorem execHoldoverSpecExpiry_ok {q : List Instr} {s : State} (h : Ok q s) :
    OkN q (execHoldoverSpecExpiry s) := by
  unfold execHoldoverSpecExpiry
  repeat' first
    | with_reducible assumption | with_reducible apply doHospec_ok | with_reducible apply OkN.next

theorem doTimerFire_ok {q : List Instr} {s : State} {t : TimerId} (h : Ok q s) :
    Ok q (doTimerFire s t) := by
  unfold doTimerFire
  repeat' first
    | with_reducible assumption | with_reducible apply fireTimer_ok | with_reducible apply okIte

theorem execEventTimerFire_ok {q : List Instr} {t : TimerId} {s : State} (h : Ok q s) :
    OkN q (execEventTimerFire t s) := by
  unfold execEventTimerFire
  repeat' first
    | with_reducible assumption | with_reducible apply doTimerFire_ok | with_reducible apply OkN.next

theorem tmrCfgWrite_ok {q : List Instr} {cm : Bool} {s : State} {t : TimerId} {v : Word} (h : Ok q s) :
    OkP q (tmrCfgWrite cm s t v) := by
  unfold tmrCfgWrite
  repeat' first
    | with_reducible assumption | with_reducible apply armTimer_ok | with_reducible apply freeTimer_ok
    | with_reducible apply State.setTmr_ok | with_reducible apply okIte2 | with_reducible refine OkS.get ?_ ‹_› | split
    | with_reducible apply OkP.mk

theorem execTimerArm_ok {q : List Instr} {who : Initiator} {t : TimerId} {v : Word} {s : State} (h : Ok q s) :
    OkN q (execTimerArm who t v s) := by
  unfold execTimerArm
  repeat' first
    | with_reducible assumption | with_reducible intro _ | with_reducible apply regCmd_ok | with_reducible apply wrAnswer_ok
    | with_reducible apply tmrCfgWrite_ok | with_reducible apply OkN.next

theorem execTimerDisarm_ok {q : List Instr} {who : Initiator} {t : TimerId} {v : Word} {s : State} (h : Ok q s) :
    OkN q (execTimerDisarm who t v s) := by
  unfold execTimerDisarm
  repeat' first
    | with_reducible assumption | with_reducible intro _ | with_reducible apply regCmd_ok | with_reducible apply wrAnswer_ok
    | with_reducible apply tmrCfgWrite_ok | with_reducible apply OkN.next

theorem ppsWrite_ok {q : List Instr} {cm : Bool} {s : State} {n : Bool} {v : Word} (h : Ok q s) :
    OkP q (ppsWrite cm s n v) := by
  unfold ppsWrite
  repeat' first
    | with_reducible assumption | with_reducible apply freeTimer_ok | with_reducible apply State.setPps_ok | with_reducible apply ppsTake_ok
    | with_reducible apply okIte2 | split | with_reducible apply OkP.mk

theorem execPpsEnable_ok {q : List Instr} {who : Initiator} {n : Bool} {v : Word} {s : State} (h : Ok q s) :
    OkN q (execPpsEnable who n v s) := by
  unfold execPpsEnable
  repeat' first
    | with_reducible assumption | with_reducible intro _ | with_reducible apply regCmd_ok | with_reducible apply wrAnswer_ok
    | with_reducible apply ppsWrite_ok | with_reducible apply OkN.next

theorem ppsOffWrite_ok {q : List Instr} {s : State} {n : Bool} {v : Word} (h : Ok q s) :
    Ok q (ppsOffWrite s n v) := by
  unfold ppsOffWrite
  repeat' first
    | with_reducible assumption | with_reducible apply State.setPps_ok | with_reducible apply ppsTake_ok | with_reducible apply okIte

theorem snapWrite_ok {q : List Instr} {s : State} {v : Word} (h : Ok q s) :
    Ok q (snapWrite s v) := by
  unfold snapWrite
  repeat' first
    | with_reducible assumption | with_reducible apply okIte | with_reducible refine okCmk ?_ rfl rfl rfl rfl

theorem execTimeSnapshot_ok {q : List Instr} {who : Initiator} {v : Word} {s : State} (h : Ok q s) :
    OkN q (execTimeSnapshot who v s) := by
  unfold execTimeSnapshot
  repeat' first
    | with_reducible assumption | with_reducible intro _ | with_reducible apply regCmd_ok | with_reducible apply wrAnswer_ok
    | with_reducible apply snapWrite_ok | with_reducible apply OkN.next | with_reducible apply OkP.mk

theorem doSlotPulse_ok {q : List Instr} {s : State} {num : BitVec 3} (h : Ok q s) :
    Ok q (doSlotPulse s num) := by
  unfold doSlotPulse
  repeat' first
    | with_reducible assumption | with_reducible apply okIte | with_reducible refine okCmk ?_ rfl rfl rfl rfl

theorem execSlotPulse_ok {q : List Instr} {num : BitVec 3} {s : State} (h : Ok q s) :
    OkN q (execSlotPulse num s) := by
  unfold execSlotPulse
  repeat' first
    | with_reducible assumption | with_reducible apply doSlotPulse_ok | with_reducible apply OkN.next

theorem dropGnss_ok {q : List Instr} {s : State} (h : Ok q s) :
    Ok q (dropGnss s) := by
  unfold dropGnss
  repeat' first
    | with_reducible assumption | with_reducible intro _ | with_reducible apply State.setCsrc_ok | with_reducible apply okIte
    | with_reducible apply okFold

theorem doPpsIn_ok {q : List Instr} {s : State} {edge : Ts} (h : Ok q s) : Ok q (doPpsIn s edge) := by
  have h1 : Ok q { s with cmk := { s.cmk with ppsIn := some edge, ppsLabel := none } } := okCmk h rfl rfl rfl rfl
  unfold doPpsIn
  dsimp only
  split
  · exact h1
  · exact okIte (dropGnss_ok (okIte (cmkTal_ok h1) h1)) (okIte (cmkTal_ok h1) h1)

theorem execPpsInEdge_ok {q : List Instr} {at96 : Ts} {s : State} (h : Ok q s) :
    OkN q (execPpsInEdge at96 s) := by
  unfold execPpsInEdge
  repeat' first
    | with_reducible assumption | with_reducible apply doPpsIn_ok | with_reducible apply OkN.next

theorem doTod_ok {q : List Instr} {s : State} {b c : Bool} {sec : BitVec 48} (h : Ok q s) : Ok q (doTod s b c sec) := by
  unfold doTod
  refine okIte (cmkTal_ok h) ?_
  split
  · exact okIte (okCmk h rfl rfl rfl rfl) h
  · exact h

theorem execTodMessageReceive_ok {q : List Instr} {isTime : Bool} {badSum : Bool} {sec : BitVec 48} {s : State} (h : Ok q s) :
    OkN q (execTodMessageReceive isTime badSum sec s) := by
  unfold execTodMessageReceive
  repeat' first
    | with_reducible assumption | with_reducible apply doTod_ok | with_reducible apply OkN.next

theorem bmca_ok {q : List Instr} {s : State} {n : PortId} (h : Ok q s) :
    Ok q (bmca s n) := by
  unfold bmca
  repeat' first
    | with_reducible assumption | with_reducible apply takeFree_ok | with_reducible apply State.setPtpPort_ok | with_reducible apply OkP.snd

theorem ptpRank_ok {q : List Instr} {s : State} {n : PortId} {c : BitVec 8} (h : Ok q s) :
    Ok q (ptpRank s n c) := by
  unfold ptpRank
  repeat' first
    | with_reducible assumption | with_reducible intro _ | with_reducible apply State.setCsrc_ok | with_reducible apply okIte
    | with_reducible apply okFold

theorem doPtpReceive_ok {q : List Instr} {s : State} {n : PortId} {m : PtpMsg} (h : Ok q s) :
    Ok q (doPtpReceive s n m) := by
  unfold doPtpReceive
  repeat' first
    | with_reducible assumption | with_reducible apply bmca_ok | with_reducible apply ptpRank_ok | with_reducible apply State.setPtpPort_ok
    | with_reducible apply portTal_ok | with_reducible apply okIte | split

theorem execPtpFrameReceive_ok {q : List Instr} {port : PortId} {msg : PtpMsg} {s : State} (h : Ok q s) :
    OkN q (execPtpFrameReceive port msg s) := by
  unfold execPtpFrameReceive
  repeat' first
    | with_reducible assumption | with_reducible apply doPtpReceive_ok | with_reducible apply OkN.next

theorem doEsmc_ok {q : List Instr} {s : State} {n : PortId} {ssm : BitVec 4} (h : Ok q s) :
    Ok q (doEsmc s n ssm) := by
  unfold doEsmc
  repeat' first
    | with_reducible assumption | with_reducible intro _ | with_reducible apply State.setCsrc_ok | with_reducible apply okIte
    | with_reducible apply okFold

theorem execEsmcFrameReceive_ok {q : List Instr} {port : PortId} {ssm : BitVec 4} {s : State} (h : Ok q s) :
    OkN q (execEsmcFrameReceive port ssm s) := by
  unfold execEsmcFrameReceive
  repeat' first
    | with_reducible assumption | with_reducible apply doEsmc_ok | with_reducible apply OkN.next

theorem doPtpSend_ok {q : List Instr} {s : State} {n : PortId} {k : PtpSend} (h : Ok q s) :
    Ok q (doPtpSend s n k) := by
  unfold doPtpSend
  repeat' first
    | with_reducible assumption | with_reducible apply portTal_ok | with_reducible apply State.setPtpPort_ok
    | with_reducible apply cmkTal_ok | with_reducible apply okIte | with_reducible simp only [↓okUpd]

theorem execPtpMessageTransmit_ok {q : List Instr} {port : PortId} {k : PtpSend} {s : State} (h : Ok q s) :
    OkN q (execPtpMessageTransmit port k s) := by
  unfold execPtpMessageTransmit
  repeat' first
    | with_reducible assumption | with_reducible apply doPtpSend_ok | with_reducible apply OkN.next

theorem cmkCtlWrite_ok {q : List Instr} {s : State} {v : Word} (h : Ok q s) :
    Ok q (cmkCtlWrite s v) := by
  unfold cmkCtlWrite
  repeat' first
    | with_reducible assumption | with_reducible refine okCmk ?_ rfl rfl rfl rfl | split | with_reducible simp only [↓okUpd]

theorem srcCfgWrite_ok {q : List Instr} {s : State} {i : BitVec 3} {v : Word} (h : Ok q s) :
    Ok q (srcCfgWrite s i v) := by
  unfold srcCfgWrite
  repeat' first
    | with_reducible assumption | with_reducible apply State.setCsrc_ok

theorem ptpWrite_ok {q : List Instr} {s : State} {n : PortId} {v : Word} (h : Ok q s) :
    OkP q (ptpWrite s n v) := by
  unfold ptpWrite
  repeat' first
    | with_reducible assumption | with_reducible apply State.setPtpPort_ok | with_reducible apply okIte2 | split
    | with_reducible apply OkP.mk

theorem tmrWrite_ok {q : List Instr} {cm : Bool} {s : State} {t : TimerId} {o : Nat} {v : Word} (h : Ok q s) :
    OkO q (tmrWrite cm s t o v) := by
  unfold tmrWrite
  repeat' first
    | with_reducible assumption | with_reducible apply wrOk_ok | with_reducible apply State.setTmr_ok | with_reducible apply tmrCfgWrite_ok
    | with_reducible apply OkO.some | with_reducible exact OkO.none | split

theorem cmkRead_ok {q : List Instr} {s : State} {off : Nat} (h : Ok q s) :
    OkO q (cmkRead s off) := by
  unfold cmkRead
  repeat' first
    | with_reducible assumption | with_reducible apply rdPack_ok | with_reducible apply rdVal_ok | with_reducible apply talRead_ok
    | with_reducible apply okIteO | with_reducible exact OkO.none | with_reducible apply okMapV | split

theorem cmkWrite_ok {q : List Instr} {cm : Bool} {s : State} {off : Nat} {v : Word} (h : Ok q s) :
    OkO q (cmkWrite cm s off v) := by
  unfold cmkWrite
  repeat' first
    | with_reducible assumption | with_reducible apply wrOk_ok | with_reducible apply srcCfgWrite_ok | with_reducible apply State.setCsrc_ok
    | with_reducible apply ppsWrite_ok | with_reducible apply ppsOffWrite_ok | with_reducible apply ptpWrite_ok
    | with_reducible apply tmrWrite_ok | with_reducible apply cmkCtlWrite_ok | with_reducible apply snapWrite_ok
    | with_reducible apply okIteO | with_reducible apply OkO.some | with_reducible exact OkO.none
    | with_reducible refine okCmk ?_ rfl rfl rfl rfl | split

end Sys2Proof.Machine
end

