-- ==== Sys2Proof/Laws/OkCrierCmds.lean ====
section
/-! SUPPORT. Machine/CrierCmds.lean keeps the invariant of Laws/Ok.lean: one lemma for each operation. -/

namespace Sys2Proof.Machine

set_option linter.unusedVariables false
set_option linter.unusedSimpArgs false

theorem startPkt_ok {q : List Instr} {s : State} {metric : BitVec 16} {gain : BitVec 16} {start : Ts} (h : Ok q s) :
    Ok q (startPkt s metric gain start) := by
  unfold startPkt
  repeat' first
    | with_reducible assumption | with_reducible simp only [↓okUpd]

theorem capture_ok {q : List Instr} {s : State} {metric : BitVec 16} {gain : BitVec 16} {start : Ts} (h : Ok q s) :
    Ok q (capture s metric gain start) := by
  unfold capture
  repeat' first
    | with_reducible assumption | with_reducible apply startPkt_ok | with_reducible apply criPktEvent_ok | with_reducible apply criTal_ok

theorem failPkt_ok {q : List Instr} {s : State} {tal : Nat} {reason : Nat} (h : Ok q s) :
    Ok q (failPkt s tal reason) := by
  unfold failPkt
  repeat' first
    | with_reducible assumption | with_reducible apply criPktEvent_ok | with_reducible apply criTal_ok | with_reducible simp only [↓okUpd]

theorem takeHeader_ok {q : List Instr} {s : State} {hh : Word} (h : Ok q s) :
    Ok q (takeHeader s hh) := by
  unfold takeHeader
  repeat' first
    | with_reducible assumption | with_reducible apply failPkt_ok | with_reducible apply okIte | split | with_reducible simp only [↓okUpd]

theorem refSlots_ok {q : List Instr} {s : State} (h : Ok q s) :
    Ok q (refSlots s) := by
  unfold refSlots
  repeat' first
    | with_reducible assumption | with_reducible intro _ | with_reducible apply State.setCsrc_ok | with_reducible apply okIte
    | with_reducible apply okFold

theorem measureOf_ok {q : List Instr} {s : State} {foff : Word} (h : Ok q s) :
    OkP q (measureOf s foff) := by
  unfold measureOf
  repeat' first
    | with_reducible assumption | with_reducible apply takeFree_ok | with_reducible apply okIte2
    | with_reducible refine OkP.get ?_ ‹_ = (_, _)› | split | with_reducible apply OkP.mk

theorem offerRef_ok {q : List Instr} {s : State} {foff : Word} (h : Ok q s) :
    Ok q (offerRef s foff) := by
  unfold offerRef
  repeat' first
    | with_reducible assumption | with_reducible apply measureOf_ok | with_reducible apply refSlots_ok | with_reducible apply criEvent_ok
    | with_reducible apply okIte | with_reducible apply OkP.snd | with_reducible simp only [↓okUpd]

theorem goodPkt_ok {q : List Instr} {s : State} {bits1 : List Bool} (h : Ok q s) :
    Ok q (goodPkt s bits1) := by
  unfold goodPkt
  repeat' first
    | with_reducible assumption | with_reducible apply offerRef_ok | with_reducible apply failPkt_ok | with_reducible apply accStore_ok
    | with_reducible apply stayWake_ok | with_reducible apply criEvent_ok | with_reducible apply criTal_ok
    | with_reducible refine OkA.wait_get ?_ ‹_› | with_reducible refine OkA.done_get ?_ ‹_› | split | with_reducible simp only [↓okUpd]

theorem takePayload_ok {q : List Instr} {s : State} {b : List Bool} {residual : Word} (h : Ok q s) :
    Ok q (takePayload s b residual) := by
  unfold takePayload
  repeat' first
    | with_reducible assumption | with_reducible apply failPkt_ok | with_reducible apply goodPkt_ok | with_reducible apply stayWake_ok
    | with_reducible apply okIte | split | with_reducible simp only [↓okUpd]

theorem doSymbolRx_ok {q : List Instr} {s : State} {p : List (BitVec 32)} {o : CriObs} (h : Ok q s) :
    Ok q (doSymbolRx s p o) := by
  unfold doSymbolRx
  repeat' first
    | with_reducible assumption | with_reducible apply startPkt_ok | with_reducible apply criTal_ok | with_reducible apply capture_ok
    | with_reducible apply takeHeader_ok | with_reducible apply takePayload_ok | with_reducible apply okIte | split
    | with_reducible simp only [↓okUpd]

theorem execBeaconSymbolReceive_ok {q : List Instr} {power : List (BitVec 32)} {obs : CriObs} {s : State} (h : Ok q s) :
    OkN q (execBeaconSymbolReceive power obs s) := by
  unfold execBeaconSymbolReceive
  repeat' first
    | with_reducible assumption | with_reducible apply doSymbolRx_ok | with_reducible apply OkN.next

theorem doSymbolTx_ok {q : List Instr} {s : State} (h : Ok q s) :
    Ok q (doSymbolTx s) := by
  unfold doSymbolTx
  repeat' first
    | with_reducible assumption | with_reducible apply takeFree_ok | with_reducible apply txOut_ok | with_reducible apply completeCmd_ok
    | with_reducible apply criTal_ok | with_reducible apply okIte | with_reducible apply OkP.snd | split | with_reducible simp only [↓okUpd]

theorem execBeaconSymbolTransmit_ok {q : List Instr} {s : State} (h : Ok q s) :
    OkN q (execBeaconSymbolTransmit s) := by
  unfold execBeaconSymbolTransmit
  repeat' first
    | with_reducible assumption | with_reducible apply doSymbolTx_ok | with_reducible apply OkN.next

theorem rxFreeWrite_ok {q : List Instr} {s : State} {v : Word} (h : Ok q s) :
    Ok q (rxFreeWrite s v) := by
  unfold rxFreeWrite
  repeat' first
    | with_reducible assumption | with_reducible simp only [↓okUpd]

theorem execReceiveSlotFree_ok {q : List Instr} {who : Initiator} {v : Word} {s : State} (h : Ok q s) :
    OkN q (execReceiveSlotFree who v s) := by
  unfold execReceiveSlotFree
  repeat' first
    | with_reducible assumption | with_reducible intro _ | with_reducible apply regCmd_ok | with_reducible apply wrAnswer_ok
    | with_reducible apply rxFreeWrite_ok | with_reducible apply OkN.next | with_reducible apply OkP.mk

theorem criCtlWrite_ok {q : List Instr} {cm : Bool} {s : State} {v : Word} (h : Ok q s) :
    OkP q (criCtlWrite cm s v) := by
  unfold criCtlWrite
  repeat' first
    | with_reducible assumption | with_reducible apply noConflict_ok | with_reducible apply criStop_ok | with_reducible apply okIte2
    | with_reducible apply OkP.mk | with_reducible simp only [↓okUpd]

theorem execCrierEnable_ok {q : List Instr} {who : Initiator} {v : Word} {s : State} (h : Ok q s) :
    OkN q (execCrierEnable who v s) := by
  unfold execCrierEnable
  repeat' first
    | with_reducible assumption | with_reducible intro _ | with_reducible apply regCmd_ok | with_reducible apply wrAnswer_ok
    | with_reducible apply criCtlWrite_ok | with_reducible apply OkN.next

theorem execCrierDisable_ok {q : List Instr} {who : Initiator} {v : Word} {s : State} (h : Ok q s) :
    OkN q (execCrierDisable who v s) := by
  unfold execCrierDisable
  repeat' first
    | with_reducible assumption | with_reducible intro _ | with_reducible apply regCmd_ok | with_reducible apply wrAnswer_ok
    | with_reducible apply criCtlWrite_ok | with_reducible apply OkN.next

theorem doRefExpiry_ok {q : List Instr} {s : State} (h : Ok q s) :
    Ok q (doRefExpiry s) := by
  unfold doRefExpiry
  repeat' first
    | with_reducible assumption | with_reducible apply criEvent_ok | with_reducible apply refSlots_ok | with_reducible apply okIte
    | with_reducible simp only [↓okUpd]

theorem execReferenceHoldExpiry_ok {q : List Instr} {s : State} (h : Ok q s) :
    OkN q (execReferenceHoldExpiry s) := by
  unfold execReferenceHoldExpiry
  repeat' first
    | with_reducible assumption | with_reducible apply doRefExpiry_ok | with_reducible apply OkN.next

theorem criRead_ok {q : List Instr} {s : State} {off : Nat} (h : Ok q s) :
    OkO q (criRead s off) := by
  unfold criRead
  repeat' first
    | with_reducible assumption | with_reducible apply rdVal_ok | with_reducible apply rdPack_ok | with_reducible apply talRead_ok
    | with_reducible apply okIteO | with_reducible exact OkO.none | split

theorem criWrite_ok {q : List Instr} {cm : Bool} {s : State} {off : Nat} {v : Word} (h : Ok q s) :
    OkO q (criWrite cm s off v) := by
  unfold criWrite
  repeat' first
    | with_reducible assumption | with_reducible apply wrOk_ok | with_reducible apply wrNo_ok | with_reducible apply criAbort_ok
    | with_reducible apply criCtlWrite_ok | with_reducible apply rxFreeWrite_ok | with_reducible apply okIteO
    | with_reducible apply OkO.some | with_reducible exact OkO.none | split | with_reducible simp only [↓okUpd]

end Sys2Proof.Machine
end

