-- ==== Sys2Proof/Laws/OkFabricCmds.lean ====
section
/-! SUPPORT. Machine/FabricCmds.lean keeps the invariant of Laws/Ok.lean: one lemma for each operation. -/

namespace Sys2Proof.Machine

set_option linter.unusedVariables false
set_option linter.unusedSimpArgs false

theorem unlockPort_ok {q : List Instr} {s : State} {e : Elem} {p : Nat} (h : Ok q s) :
    Ok q (unlockPort s e p) := by
  unfold unlockPort
  repeat' first
    | with_reducible assumption | with_reducible apply State.setRPort_ok | with_reducible apply okIte

theorem unlockUnit_ok {q : List Instr} {s : State} {u : FaultUnit} (h : Ok q s) :
    Ok q (unlockUnit s u) := by
  unfold unlockUnit
  repeat' first
    | with_reducible assumption | with_reducible intro _ | with_reducible apply unlockPort_ok | with_reducible apply okFold | split

theorem linkChecks_ok {q : List Instr} {s : State} {e : Elem} {p : Nat} {n : Nat} (h : Ok q s) :
    Ok q (linkChecks s e p n) := by
  unfold linkChecks
  repeat' first
    | with_reducible assumption | with_reducible intro _ | with_reducible apply check_ok | with_reducible apply okUpTo

theorem sendTo_ok {q : List Instr} {s : State} {x : Next} {p : Packet} (h : Ok q s) :
    Ok q (sendTo s x p) := by
  unfold sendTo
  repeat' first
    | with_reducible assumption | with_reducible apply State.setElem_ok | with_reducible apply State.setNi_ok | split

theorem sendOut_ok {q : List Instr} {s : State} {e : Elem} {p : Nat} {k : Packet} (h : Ok q s) :
    Ok q (sendOut s e p k) := by
  unfold sendOut
  repeat' first
    | with_reducible assumption | with_reducible apply linkChecks_ok | with_reducible apply portCount_ok
    | with_reducible apply State.setElem_ok | with_reducible apply sendTo_ok | with_reducible apply okIte

theorem sendSynth_ok {q : List Instr} {s : State} {e : Elem} {inCode : Nat} {k : Packet} {o : Outc} (h : Ok q s) :
    Ok q (sendSynth s e inCode k o) := by
  unfold sendSynth
  repeat' first
    | with_reducible assumption | with_reducible apply sendTo_ok | with_reducible apply sendOut_ok | with_reducible apply portCount_ok
    | with_reducible apply okIte | split

theorem forward_ok {q : List Instr} {s : State} {e : Elem} {inCode : Nat} {k : Packet} (h : Ok q s) :
    Ok q (forward s e inCode k) := by
  unfold forward
  repeat' first
    | with_reducible assumption | with_reducible apply sendTo_ok | with_reducible apply portCount_ok | with_reducible apply sendOut_ok
    | with_reducible apply sendSynth_ok | with_reducible apply okIte

theorem doForward_ok {q : List Instr} {s : State} {e : Elem} {inCode : BitVec 3} (h : Ok q s) :
    Ok q (doForward s e inCode) := by
  unfold doForward
  repeat' first
    | with_reducible assumption | with_reducible apply forward_ok | with_reducible apply State.setElem_ok | split
    | with_reducible simp only [↓okUpd]

theorem execRouterForward_ok {q : List Instr} {el : Elem} {inCode : BitVec 3} {s : State} (h : Ok q s) :
    OkN q (execRouterForward el inCode s) := by
  unfold execRouterForward
  repeat' first
    | with_reducible assumption | with_reducible apply doForward_ok | with_reducible apply OkN.next

theorem doLifetime_ok {q : List Instr} {s : State} {e : Elem} {inCode : BitVec 3} (h : Ok q s) :
    Ok q (doLifetime s e inCode) := by
  unfold doLifetime
  repeat' first
    | with_reducible assumption | with_reducible apply portCount_ok | with_reducible apply State.setElem_ok | split
    | with_reducible simp only [↓okUpd]

theorem execResponseLifetimeExpiry_ok {q : List Instr} {el : Elem} {inCode : BitVec 3} {s : State} (h : Ok q s) :
    OkN q (execResponseLifetimeExpiry el inCode s) := by
  unfold execResponseLifetimeExpiry
  repeat' first
    | with_reducible assumption | with_reducible apply doLifetime_ok | with_reducible apply OkN.next

theorem doNiRequest_ok {q : List Instr} {s : State} {ini : Initiator} {typ : PktType} {pa : Pa} {mask : BitVec 64} {data : List Byte} {act : ActId} (h : Ok q s) :
    Ok q (doNiRequest s ini typ pa mask data act) := by
  unfold doNiRequest
  repeat' first
    | with_reducible assumption | with_reducible apply niIssue_ok | with_reducible apply okIte

theorem execNiRequest_ok {q : List Instr} {ini : Initiator} {typ : PktType} {pa : Pa} {mask : BitVec 64} {data : List Byte} {act : ActId} {s : State} (h : Ok q s) :
    OkN q (execNiRequest ini typ pa mask data act s) := by
  unfold execNiRequest
  repeat' first
    | with_reducible assumption | with_reducible apply doNiRequest_ok | with_reducible apply OkN.next

theorem inject_ok {q : List Instr} {s : State} {n : NodeId} {reg : Option Nat} {slot : Nat} {r : NiReq} (h : Ok q s) :
    Ok q (inject s n reg slot r) := by
  unfold inject
  repeat' first
    | with_reducible assumption | with_reducible apply tallyAdd_ok | with_reducible apply State.setNi_ok | with_reducible apply sendTo_ok
    | with_reducible apply linkChecks_ok | with_reducible apply State.setElem_ok | split

theorem doInject_ok {q : List Instr} {s : State} {node : NodeId} {n : Nat} (h : Ok q s) :
    Ok q (doInject s node n) := by
  unfold doInject
  repeat' first
    | with_reducible assumption | with_reducible apply inject_ok | with_reducible apply State.setNi_ok | with_reducible apply okIte | split
    | with_reducible simp only [↓okUpd]

theorem execRegulatorInject_ok {q : List Instr} {node : NodeId} {n : BitVec 7} {s : State} (h : Ok q s) :
    OkN q (execRegulatorInject node n s) := by
  unfold execRegulatorInject
  repeat' first
    | with_reducible assumption | with_reducible apply doInject_ok | with_reducible apply OkN.next

theorem doRefill_ok {q : List Instr} {s : State} {node : NodeId} (h : Ok q s) :
    Ok q (doRefill s node) := by
  unfold doRefill
  repeat' first
    | with_reducible assumption | with_reducible apply State.setNi_ok

theorem execRegulatorRefill_ok {q : List Instr} {node : NodeId} {s : State} (h : Ok q s) :
    OkN q (execRegulatorRefill node s) := by
  unfold execRegulatorRefill
  repeat' first
    | with_reducible assumption | with_reducible apply doRefill_ok | with_reducible apply OkN.next

theorem regCfgWrite_ok {q : List Instr} {s : State} {node : NodeId} {n : Nat} {v : Word} (h : Ok q s) :
    OkP q (regCfgWrite s node n v) := by
  unfold regCfgWrite
  repeat' first
    | with_reducible assumption | with_reducible apply State.setNi_ok | with_reducible apply okIte2 | split | with_reducible apply OkP.mk

theorem execRegulatorConfigWrite_ok {q : List Instr} {who : Initiator} {node : NodeId} {n : BitVec 6} {v : Word} {s : State} (h : Ok q s) :
    OkN q (execRegulatorConfigWrite who node n v s) := by
  unfold execRegulatorConfigWrite
  repeat' first
    | with_reducible assumption | with_reducible intro _ | with_reducible apply regCmd_ok | with_reducible apply wrAnswer_ok
    | with_reducible apply regCfgWrite_ok | with_reducible apply okIte | with_reducible apply OkN.next

theorem takeArrived_ok {q : List Instr} {s : State} {n : NodeId} {f : Packet → Bool} (h : Ok q s) :
    OkO q (takeArrived s n f) := by
  unfold takeArrived
  repeat' first
    | with_reducible assumption | with_reducible apply State.setNi_ok | with_reducible apply OkO.some | with_reducible exact OkO.none
    | split | with_reducible apply OkP.mk | with_reducible simp only [↓okUpd]

theorem closeSlot_ok {q : List Instr} {s : State} {n : NodeId} {i : Nat} (h : Ok q s) :
    Ok q (closeSlot s n i) := by
  unfold closeSlot
  repeat' first
    | with_reducible assumption | with_reducible apply State.setNi_ok

theorem countResponse_ok {q : List Instr} {s : State} {n : NodeId} {k : Packet} {r : NiReq} {since : Nat} (h : Ok q s) :
    Ok q (countResponse s n k r since) := by
  unfold countResponse
  repeat' first
    | with_reducible assumption | with_reducible apply tallyAdd_ok | with_reducible apply okIte

theorem doResponse_ok {q : List Instr} {s : State} {n : NodeId} (h : Ok q s) :
    Ok q (doResponse s n) := by
  unfold doResponse
  repeat' first
    | with_reducible assumption | with_reducible apply takeArrived_ok | with_reducible apply tallyAdd_ok
    | with_reducible apply iniProgress_ok | with_reducible apply deliver_ok | with_reducible apply countResponse_ok
    | with_reducible apply closeSlot_ok | with_reducible refine OkO.get ?_ ‹_ = some (_, _)› | split | with_reducible simp only [↓okUpd]

theorem execResponseArrival_ok {q : List Instr} {node : NodeId} {s : State} (h : Ok q s) :
    OkN q (execResponseArrival node s) := by
  unfold execResponseArrival
  repeat' first
    | with_reducible assumption | with_reducible apply doResponse_ok | with_reducible apply OkN.next

theorem doTimeout_ok {q : List Instr} {s : State} {n : NodeId} {slot : Nat} (h : Ok q s) :
    Ok q (doTimeout s n slot) := by
  unfold doTimeout
  repeat' first
    | with_reducible assumption | with_reducible apply iniProgress_ok | with_reducible apply deliver_ok | with_reducible apply tallyAdd_ok
    | with_reducible apply State.setNi_ok | with_reducible apply okIte | split | with_reducible simp only [↓okUpd]

theorem execRequestTimeout_ok {q : List Instr} {node : NodeId} {slot : BitVec 9} {s : State} (h : Ok q s) :
    OkN q (execRequestTimeout node slot s) := by
  unfold execRequestTimeout
  repeat' first
    | with_reducible assumption | with_reducible apply doTimeout_ok | with_reducible apply OkN.next

theorem doQuarantineEnd_ok {q : List Instr} {s : State} {n : NodeId} {slot : Nat} (h : Ok q s) :
    Ok q (doQuarantineEnd s n slot) := by
  unfold doQuarantineEnd
  repeat' first
    | with_reducible assumption | with_reducible apply State.setNi_ok | with_reducible apply okIte | split
    | with_reducible simp only [↓okUpd]

theorem execTxidQuarantineEnd_ok {q : List Instr} {node : NodeId} {slot : BitVec 9} {s : State} (h : Ok q s) :
    OkN q (execTxidQuarantineEnd node slot s) := by
  unfold execTxidQuarantineEnd
  repeat' first
    | with_reducible assumption | with_reducible apply doQuarantineEnd_ok | with_reducible apply OkN.next

theorem doRetryArrival_ok {q : List Instr} {s : State} {n : NodeId} (h : Ok q s) :
    Ok q (doRetryArrival s n) := by
  unfold doRetryArrival
  repeat' first
    | with_reducible assumption | with_reducible apply takeArrived_ok | with_reducible apply tallyAdd_ok | with_reducible apply closeSlot_ok
    | with_reducible apply State.setNi_ok | with_reducible refine OkO.get ?_ ‹_ = some (_, _)› | split | with_reducible simp only [↓okUpd]

theorem execRetryArrival_ok {q : List Instr} {node : NodeId} {s : State} (h : Ok q s) :
    OkN q (execRetryArrival node s) := by
  unfold execRetryArrival
  repeat' first
    | with_reducible assumption | with_reducible apply doRetryArrival_ok | with_reducible apply OkN.next

theorem doResend_ok {q : List Instr} {s : State} {n : NodeId} {ini : Initiator} (h : Ok q s) :
    Ok q (doResend s n ini) := by
  unfold doResend
  repeat' first
    | with_reducible assumption | with_reducible apply inject_ok | with_reducible apply State.setNi_ok | with_reducible apply okIte | split
    | with_reducible simp only [↓okUpd]

theorem execRetryResend_ok {q : List Instr} {node : NodeId} {ini : Initiator} {s : State} (h : Ok q s) :
    OkN q (execRetryResend node ini s) := by
  unfold execRetryResend
  repeat' first
    | with_reducible assumption | with_reducible apply doResend_ok | with_reducible apply OkN.next

theorem doFlitError_ok {q : List Instr} {s : State} {e : Elem} {p : Nat} {flit : Nat} (h : Ok q s) :
    Ok q (doFlitError s e p flit) := by
  unfold doFlitError
  repeat' first
    | with_reducible assumption | with_reducible apply check_ok | with_reducible apply portCount_ok | with_reducible apply State.setElem_ok
    | with_reducible apply iniProgress_ok | with_reducible apply deliver_ok | with_reducible apply closeSlot_ok
    | with_reducible apply sendSynth_ok | with_reducible apply okIte | split

theorem execLinkFlitError_ok {q : List Instr} {el : Elem} {port : BitVec 3} {flit : BitVec 2} {s : State} (h : Ok q s) :
    OkN q (execLinkFlitError el port flit s) := by
  unfold execLinkFlitError
  repeat' first
    | with_reducible assumption | with_reducible apply doFlitError_ok | with_reducible apply OkN.next

theorem rpCtlWrite_ok {q : List Instr} {s : State} {e : Elem} {p : Nat} {v : Word} (h : Ok q s) :
    OkP q (rpCtlWrite s e p v) := by
  unfold rpCtlWrite
  repeat' first
    | with_reducible assumption | with_reducible apply State.setRPort_ok | with_reducible apply okIte2 | split | with_reducible apply OkP.mk

theorem rpCmd_ok {q : List Instr} {s : State} {who : Initiator} {e : Elem} {p : BitVec 3} {v : Word} (h : Ok q s) :
    Ok q (rpCmd s who e p v) := by
  unfold rpCmd
  repeat' first
    | with_reducible assumption | with_reducible intro _ | with_reducible apply regCmd_ok | with_reducible apply wrAnswer_ok
    | with_reducible apply rpCtlWrite_ok | with_reducible apply okIte

theorem execPortDrain_ok {q : List Instr} {who : Initiator} {el : Elem} {port : BitVec 3} {depoch : Bool} {s : State} (h : Ok q s) :
    OkN q (execPortDrain who el port depoch s) := by
  unfold execPortDrain
  repeat' first
    | with_reducible assumption | with_reducible apply rpCmd_ok | with_reducible apply OkN.next

theorem execPortDisable_ok {q : List Instr} {who : Initiator} {el : Elem} {port : BitVec 3} {s : State} (h : Ok q s) :
    OkN q (execPortDisable who el port s) := by
  unfold execPortDisable
  repeat' first
    | with_reducible assumption | with_reducible apply rpCmd_ok | with_reducible apply OkN.next

theorem execPortEnable_ok {q : List Instr} {who : Initiator} {el : Elem} {port : BitVec 3} {s : State} (h : Ok q s) :
    OkN q (execPortEnable who el port s) := by
  unfold execPortEnable
  repeat' first
    | with_reducible assumption | with_reducible apply rpCmd_ok | with_reducible apply OkN.next

theorem flushPort_ok {q : List Instr} {s : State} {e : Elem} {p : Nat} (h : Ok q s) :
    Ok q (flushPort s e p) := by
  unfold flushPort
  repeat' first
    | with_reducible assumption | with_reducible intro _ | with_reducible apply sendTo_ok | with_reducible apply State.setElem_ok
    | with_reducible apply okFold

theorem doDrainDone_ok {q : List Instr} {s : State} {e : Elem} {p : Nat} (h : Ok q s) :
    Ok q (doDrainDone s e p) := by
  unfold doDrainDone
  repeat' first
    | with_reducible assumption | with_reducible apply State.setRPort_ok | with_reducible apply flushPort_ok | with_reducible apply okIte

theorem execPortDrainComplete_ok {q : List Instr} {el : Elem} {port : BitVec 3} {s : State} (h : Ok q s) :
    OkN q (execPortDrainComplete el port s) := by
  unfold execPortDrainComplete
  repeat' first
    | with_reducible assumption | with_reducible apply doDrainDone_ok | with_reducible apply OkN.next

theorem swapTables_ok {q : List Instr} {s : State} {n : NodeId} {v : Word} (h : Ok q s) :
    Ok q (swapTables s n v) := by
  unfold swapTables
  repeat' first
    | with_reducible assumption | with_reducible apply State.setNi_ok | with_reducible apply okIte

theorem execRouteTableSwap_ok {q : List Instr} {who : Initiator} {node : NodeId} {s : State} (h : Ok q s) :
    OkN q (execRouteTableSwap who node s) := by
  unfold execRouteTableSwap
  repeat' first
    | with_reducible assumption | with_reducible intro _ | with_reducible apply regCmd_ok | with_reducible apply wrAnswer_ok
    | with_reducible apply swapTables_ok | with_reducible apply okIte | with_reducible apply OkN.next | with_reducible apply OkP.mk

theorem niRead_ok {q : List Instr} {s : State} {n : NodeId} {off : Nat} (h : Ok q s) :
    OkO q (niRead s n off) := by
  unfold niRead
  repeat' first
    | with_reducible assumption | with_reducible apply rdPack_ok | with_reducible apply rdVal_ok | with_reducible apply talRead_ok
    | with_reducible apply tallyRead_ok | with_reducible apply okIteO | with_reducible exact OkO.none | split

theorem niWrite_ok {q : List Instr} {s : State} {n : NodeId} {off : Nat} {v : Word} (h : Ok q s) :
    OkO q (niWrite s n off v) := by
  unfold niWrite
  repeat' first
    | with_reducible assumption | with_reducible apply wrOk_ok | with_reducible apply State.setNi_ok | with_reducible apply swapTables_ok
    | with_reducible apply regCfgWrite_ok | with_reducible apply okIteO | with_reducible apply OkO.some | with_reducible exact OkO.none
    | split

theorem rpRead_ok {q : List Instr} {s : State} {e : Elem} {off : Nat} (h : Ok q s) :
    OkO q (rpRead s e off) := by
  unfold rpRead
  repeat' first
    | with_reducible assumption | with_reducible apply rdPack_ok | with_reducible apply rdVal_ok | with_reducible apply talRead_ok
    | with_reducible apply okIteO | with_reducible exact OkO.none

theorem rpWrite_ok {q : List Instr} {s : State} {e : Elem} {off : Nat} {v : Word} (h : Ok q s) :
    OkO q (rpWrite s e off v) := by
  unfold rpWrite
  repeat' first
    | with_reducible assumption | with_reducible apply wrNo_ok | with_reducible apply rpCtlWrite_ok | with_reducible apply wrOk_ok
    | with_reducible apply okIteO | with_reducible apply OkO.some | with_reducible exact OkO.none

theorem hubFabRead_ok {q : List Instr} {s : State} {off : Nat} (h : Ok q s) :
    OkO q (hubFabRead s off) := by
  unfold hubFabRead
  repeat' first
    | with_reducible assumption | with_reducible apply niRead_ok | with_reducible apply rpRead_ok | with_reducible apply rdVal_ok
    | with_reducible exact OkO.none | split

theorem hubFabWrite_ok {q : List Instr} {s : State} {off : Nat} {v : Word} (h : Ok q s) :
    OkO q (hubFabWrite s off v) := by
  unfold hubFabWrite
  repeat' first
    | with_reducible assumption | with_reducible apply niWrite_ok | with_reducible apply rpWrite_ok | with_reducible apply wrOk_ok
    | with_reducible exact OkO.none | split

theorem cluFabRead_ok {q : List Instr} {s : State} {gc : ClusterId} {off : Nat} (h : Ok q s) :
    OkO q (cluFabRead s gc off) := by
  unfold cluFabRead
  repeat' first
    | with_reducible assumption | with_reducible apply niRead_ok | with_reducible apply rpRead_ok | with_reducible apply okIteO
    | with_reducible exact OkO.none

theorem cluFabWrite_ok {q : List Instr} {s : State} {gc : ClusterId} {off : Nat} {v : Word} (h : Ok q s) :
    OkO q (cluFabWrite s gc off v) := by
  unfold cluFabWrite
  repeat' first
    | with_reducible assumption | with_reducible apply niWrite_ok | with_reducible apply rpWrite_ok | with_reducible apply okIteO
    | with_reducible exact OkO.none

end Sys2Proof.Machine
end

