-- ==== Sys2Proof/Laws/OkHostCore.lean ====
section
/-! SUPPORT. Machine/HostCore.lean keeps the invariant of Laws/Ok.lean: one lemma for each operation. -/

namespace Sys2Proof.Machine

set_option linter.unusedVariables false
set_option linter.unusedSimpArgs false

theorem hifCount_ok {q : List Instr} {s : State} {i : Nat} {n : Nat} (h : Ok q s) :
    Ok q (hifCount s i n) := by
  unfold hifCount
  repeat' first
    | with_reducible assumption | with_reducible apply tallyAdd_ok

theorem msixSend_ok {q : List Instr} {s : State} {fn : BitVec 6} {vec : Nat} (h : Ok q s) :
    Ok q (msixSend s fn vec) := by
  unfold msixSend
  repeat' first
    | with_reducible assumption | with_reducible apply State.hostBytes_ok | with_reducible simp only [↓okUpd]

theorem msixSignal_ok {q : List Instr} {s : State} {fn : BitVec 6} {vec : Nat} (h : Ok q s) :
    Ok q (msixSignal s fn vec) := by
  unfold msixSignal
  repeat' first
    | with_reducible assumption | with_reducible apply msixSend_ok | with_reducible apply okIte | with_reducible simp only [↓okUpd]

theorem msixRelease_ok {q : List Instr} {s : State} (h : Ok q s) :
    Ok q (msixRelease s) := by
  unfold msixRelease
  repeat' first
    | with_reducible assumption | with_reducible intro _ | with_reducible apply msixSend_ok | with_reducible apply okIte
    | with_reducible apply okFold | with_reducible simp only [↓okUpd]

theorem msixTableWrite_ok {q : List Instr} {s : State} {fn : BitVec 6} {word : Nat} {v : Word} (h : Ok q s) :
    Ok q (msixTableWrite s fn word v) := by
  unfold msixTableWrite
  repeat' first
    | with_reducible assumption | with_reducible apply msixRelease_ok | with_reducible simp only [↓okUpd]

theorem ringSignal_ok {q : List Instr} {s : State} {n : RingId} (h : Ok q s) :
    Ok q (ringSignal s n) := by
  unfold ringSignal
  repeat' first
    | with_reducible assumption | with_reducible apply msixSignal_ok | with_reducible apply State.setRing_ok | with_reducible apply okIte

theorem putEntry_ok {q : List Instr} {s : State} {n : RingId} {e : Entry} (h : Ok q s) :
    Ok q (putEntry s n e) := by
  unfold putEntry
  repeat' first
    | with_reducible assumption | with_reducible apply ringSignal_ok | with_reducible apply State.setRing_ok
    | with_reducible apply State.hostBytes_ok

theorem ringLeave_ok {q : List Instr} {s : State} {n : RingId} (h : Ok q s) : Ok q (ringLeave s n) := by
  unfold ringLeave
  dsimp only
  refine hifCount_ok (okUpd.2 ?_)
  have : ∀ (l : List (Nat × Ring)) (p : State × Nat), Ok q p.1 → Ok q (l.foldl (fun (t : State × Nat) p =>
      (t.1.setRing (BitVec.ofNat 12 p.1) { t.1.ring (BitVec.ofNat 12 p.1) with
        waiting := (t.1.ring (BitVec.ofNat 12 p.1)).waiting.filter (fun e => entryRing e != n) },
        t.2 + ((t.1.ring (BitVec.ofNat 12 p.1)).waiting.length -
          ((t.1.ring (BitVec.ofNat 12 p.1)).waiting.filter (fun e => entryRing e != n)).length))) p).1 := by
    intro l
    induction l with
    | nil => exact fun p hp => hp
    | cons a l ih => exact fun p hp => ih _ (State.setRing_ok hp)
  exact this _ _ (State.setRing_ok h)

theorem ringError_ok {q : List Instr} {s : State} {n : RingId} {c : BitVec 3} (h : Ok q s) :
    Ok q (ringError s n c) := by
  unfold ringError
  repeat' first
    | with_reducible assumption | with_reducible apply ringLeave_ok | with_reducible apply takeFree_ok
    | with_reducible apply State.setRing_ok | with_reducible apply report_ok | with_reducible apply pushEvent_ok
    | with_reducible apply okIte | with_reducible apply OkP.snd

theorem ringOn_ok {q : List Instr} {s : State} {n : RingId} (h : Ok q s) :
    Ok q (ringOn s n) := by
  unfold ringOn
  repeat' first
    | with_reducible assumption | with_reducible apply State.setRing_ok

theorem ringOff_ok {q : List Instr} {s : State} {n : RingId} (h : Ok q s) :
    Ok q (ringOff s n) := by
  unfold ringOff
  repeat' first
    | with_reducible assumption | with_reducible apply ringLeave_ok | with_reducible apply State.setRing_ok | with_reducible apply okIte

theorem hifRsv_ok {q : List Instr} {bad : Bool} {s : State} (h : Ok q s) :
    Ok q (hifRsv bad s) := by
  unfold hifRsv
  repeat' first
    | with_reducible assumption | with_reducible apply hifCount_ok | with_reducible apply okIte

theorem ringCfgWrite_ok {q : List Instr} {s : State} {n : RingId} {v : Word} (h : Ok q s) :
    OkP q (ringCfgWrite s n v) := by
  unfold ringCfgWrite
  repeat' first
    | with_reducible assumption | with_reducible apply hifRsv_ok | with_reducible apply State.setRing_ok | with_reducible apply ringOff_ok
    | with_reducible apply ringOn_ok | with_reducible apply okIte2 | split | with_reducible apply OkP.mk

theorem ringDoorbell_ok {q : List Instr} {s : State} {n : RingId} {v : BitVec 64} (h : Ok q s) :
    Ok q (ringDoorbell s n v) := by
  unfold ringDoorbell
  repeat' first
    | with_reducible assumption | with_reducible apply hifCount_ok | with_reducible apply ringError_ok
    | with_reducible apply State.setRing_ok | with_reducible apply ringSignal_ok | with_reducible apply okIte

theorem doorbellsRun_ok {q : List Instr} {s : State} (h : Ok q s) :
    Ok q (doorbellsRun s) := by
  unfold doorbellsRun
  repeat' first
    | with_reducible assumption | with_reducible intro _ | with_reducible apply ringDoorbell_ok | with_reducible apply hifCount_ok
    | with_reducible apply okIte | with_reducible apply okFold | with_reducible simp only [↓okUpd]

theorem settleCmds_ok {q : List Instr} {s : State} (h : Ok q s) :
    Ok q (settleCmds s) := by
  unfold settleCmds
  repeat' first
    | with_reducible assumption | with_reducible intro _ | with_reducible apply completeOk_ok | with_reducible apply okIte
    | with_reducible apply okFold

theorem doFetch_ok {q : List Instr} {s : State} {n : RingId} {cpl : PcieCpl} (h : Ok q s) :
    Ok q (doFetch s n cpl) := by
  unfold doFetch
  repeat' first
    | with_reducible assumption | with_reducible apply ringError_ok | with_reducible apply State.setRing_ok
    | with_reducible apply settleCmds_ok | with_reducible apply okIte | split | with_reducible simp only [↓okUpd]

theorem runCmd_ok {q : List Instr} {s : State} {ring : RingId} {idx : Word} {row : Block64 → Bool} {eff : State → Block64 → State} (h : Ok q s) (h2 : ∀ x0 x1, Ok q x0 → Ok q (eff x0 x1)) :
    Ok q (runCmd s ring idx row eff) := by
  unfold runCmd
  repeat' first
    | with_reducible assumption | with_reducible apply h2 | with_reducible apply settleCmds_ok | with_reducible apply completeOk_ok
    | with_reducible apply okIte | split

theorem cmdRunning_ok {q : List Instr} {s : State} {ring : RingId} {idx : Word} (h : Ok q s) :
    Ok q (cmdRunning s ring idx) := by
  unfold cmdRunning
  repeat' first
    | with_reducible assumption | with_reducible simp only [↓okUpd]

theorem doComplWrite_ok {q : List Instr} {s : State} {n : RingId} {ok : Bool} (h : Ok q s) :
    Ok q (doComplWrite s n ok) := by
  unfold doComplWrite
  repeat' first
    | with_reducible assumption | with_reducible apply putEntry_ok | with_reducible apply State.setRing_ok
    | with_reducible apply ringError_ok | with_reducible apply okIte | split | with_reducible simp only [↓okUpd]

theorem doSrcForward_ok {q : List Instr} {s : State} {n : RingId} {ok : Bool} (h : Ok q s) :
    Ok q (doSrcForward s n ok) := by
  unfold doSrcForward
  repeat' first
    | with_reducible assumption | with_reducible apply holdWhole_ok | with_reducible apply dequeue_ok | with_reducible apply putEntry_ok
    | with_reducible apply hifCount_ok | with_reducible apply ringError_ok | with_reducible apply okIte | with_reducible apply OkP.snd
    | split

theorem doEventWrite_ok {q : List Instr} {s : State} {n : RingId} {ok : Bool} (h : Ok q s) :
    Ok q (doEventWrite s n ok) := by
  unfold doEventWrite
  repeat' first
    | with_reducible assumption | with_reducible apply State.setRing_ok | with_reducible apply putEntry_ok
    | with_reducible apply ringError_ok | with_reducible apply okIte | split | with_reducible simp only [↓okUpd]

theorem flr_ok {q : List Instr} {s : State} {fn : BitVec 6} (h : Ok q s) :
    Ok q (flr s fn) := by
  unfold flr
  repeat' first
    | with_reducible assumption | with_reducible intro _ | with_reducible apply ringOff_ok | with_reducible apply okIte
    | with_reducible apply okFold

theorem setBme_ok {q : List Instr} {s : State} {fn : BitVec 6} {on : Bool} (h : Ok q s) :
    Ok q (setBme s fn on) := by
  unfold setBme
  repeat' first
    | with_reducible assumption | with_reducible apply State.setHostFn_ok | with_reducible apply msixRelease_ok | with_reducible apply okIte
    | with_reducible simp only [↓okUpd]

theorem hostWrite1_ok {q : List Instr} {s : State} {off : Nat} {d : List (Option Byte)} {act : ActId} (h : Ok q s) :
    OkP q (hostWrite1 s off d act) := by
  unfold hostWrite1
  repeat' first
    | with_reducible assumption | with_reducible intro _ | with_reducible apply State.hostBytes_ok | with_reducible apply okFold | split
    | with_reducible apply OkP.mk

theorem hostWrite_ok {q : List Instr} {s : State} {off : Nat} {d : List (Option Byte)} {act : ActId} (h : Ok q s) :
    OkP q (hostWrite s off d act) := by
  unfold hostWrite
  repeat' first
    | with_reducible assumption | with_reducible intro _ | with_reducible apply hostWrite1_ok | with_reducible apply okFold2
    | with_reducible exact OkP.snd ‹OkP q (_, _)› | with_reducible apply OkP.snd | split | with_reducible apply OkP.mk

theorem hostRead1_ok {q : List Instr} {s : State} {ini : Initiator} {pkt : Option Packet} {off : Nat} {n : Nat} {act : ActId} (h : Ok q s) :
    OkO q (hostRead1 s ini pkt off n act) := by
  unfold hostRead1
  repeat' first
    | with_reducible assumption | with_reducible apply OkO.some | with_reducible exact OkO.none | split | with_reducible apply OkP.mk
    | with_reducible simp only [↓okUpd]

theorem hifRead_ok {q : List Instr} {s : State} {off : Nat} (h : Ok q s) :
    OkO q (hifRead s off) := by
  unfold hifRead
  repeat' first
    | with_reducible assumption | with_reducible apply rdVal_ok | with_reducible apply rdPack_ok | with_reducible apply talRead_ok
    | with_reducible apply okIteO | with_reducible exact OkO.none | split

theorem dmaCfgWrite_ok {q : List Instr} {s : State} {n : Nat} {v : Word} (h : Ok q s) :
    Ok q (dmaCfgWrite s n v) := by
  unfold dmaCfgWrite
  repeat' first
    | with_reducible assumption | with_reducible simp only [↓okUpd]

theorem hifWrite_ok {q : List Instr} {cm : Bool} {s : State} {off : Nat} {v : Word} (h : Ok q s) :
    OkO q (hifWrite cm s off v) := by
  unfold hifWrite
  repeat' first
    | with_reducible assumption | with_reducible apply wrOk_ok | with_reducible apply hifRsv_ok | with_reducible apply msixTableWrite_ok
    | with_reducible apply State.setHostFn_ok | with_reducible apply noConflict_ok | with_reducible apply dmaCfgWrite_ok
    | with_reducible apply State.setRing_ok | with_reducible apply wrNo_ok | with_reducible apply ringCfgWrite_ok
    | with_reducible apply okIte | with_reducible apply okIteO | with_reducible apply OkO.some | with_reducible exact OkO.none | split
    | with_reducible apply OkP.mk | with_reducible simp only [↓okUpd]

theorem execDescriptorFetch_ok {q : List Instr} {ring : RingId} {cpl : PcieCpl} {s : State} (h : Ok q s) :
    OkN q (execDescriptorFetch ring cpl s) := by
  unfold execDescriptorFetch
  repeat' first
    | with_reducible assumption | with_reducible apply doFetch_ok | with_reducible apply OkN.next

theorem execCompletionWrite_ok {q : List Instr} {ring : RingId} {ok : Bool} {s : State} (h : Ok q s) :
    OkN q (execCompletionWrite ring ok s) := by
  unfold execCompletionWrite
  repeat' first
    | with_reducible assumption | with_reducible apply doComplWrite_ok | with_reducible apply OkN.next

theorem execSourceQueueForward_ok {q : List Instr} {ring : RingId} {ok : Bool} {s : State} (h : Ok q s) :
    OkN q (execSourceQueueForward ring ok s) := by
  unfold execSourceQueueForward
  repeat' first
    | with_reducible assumption | with_reducible apply doSrcForward_ok | with_reducible apply OkN.next

theorem execEventWrite_ok {q : List Instr} {ring : RingId} {ok : Bool} {s : State} (h : Ok q s) :
    OkN q (execEventWrite ring ok s) := by
  unfold execEventWrite
  repeat' first
    | with_reducible assumption | with_reducible apply doEventWrite_ok | with_reducible apply OkN.next

theorem execRingEnable_ok {q : List Instr} {who : Initiator} {ring : RingId} {v : Word} {s : State} (h : Ok q s) :
    OkN q (execRingEnable who ring v s) := by
  unfold execRingEnable
  repeat' first
    | with_reducible assumption | with_reducible intro _ | with_reducible apply regCmd_ok | with_reducible apply wrAnswer_ok
    | with_reducible apply ringCfgWrite_ok | with_reducible apply OkN.next

theorem execRingDisable_ok {q : List Instr} {who : Initiator} {ring : RingId} {v : Word} {s : State} (h : Ok q s) :
    OkN q (execRingDisable who ring v s) := by
  unfold execRingDisable
  repeat' first
    | with_reducible assumption | with_reducible intro _ | with_reducible apply regCmd_ok | with_reducible apply wrAnswer_ok
    | with_reducible apply ringCfgWrite_ok | with_reducible apply OkN.next

theorem execFunctionLevelReset_ok {q : List Instr} {fn : BitVec 6} {s : State} (h : Ok q s) :
    OkN q (execFunctionLevelReset fn s) := by
  unfold execFunctionLevelReset
  repeat' first
    | with_reducible assumption | with_reducible apply flr_ok | with_reducible apply OkN.next

theorem execBusMasterEnableChange_ok {q : List Instr} {fn : BitVec 6} {on : Bool} {s : State} (h : Ok q s) :
    OkN q (execBusMasterEnableChange fn on s) := by
  unfold execBusMasterEnableChange
  repeat' first
    | with_reducible assumption | with_reducible apply setBme_ok | with_reducible apply OkN.next

theorem execDmaChannelConfigWrite_ok {q : List Instr} {who : Initiator} {n : BitVec 4} {v : Word} {s : State} (h : Ok q s) :
    OkN q (execDmaChannelConfigWrite who n v s) := by
  unfold execDmaChannelConfigWrite
  repeat' first
    | with_reducible assumption | with_reducible intro _ | with_reducible apply regCmd_ok | with_reducible apply wrAnswer_ok
    | with_reducible apply noConflict_ok | with_reducible apply dmaCfgWrite_ok | with_reducible apply OkN.next | with_reducible apply OkP.mk

theorem execHostFence_ok {q : List Instr} {ring : RingId} {idx : Word} {s : State} (h : Ok q s) :
    OkN q (execHostFence ring idx s) := by
  unfold execHostFence
  repeat' first
    | with_reducible assumption | with_reducible intro _ | with_reducible apply runCmd_ok | with_reducible apply completeOk_ok
    | with_reducible apply OkN.next

end Sys2Proof.Machine
end

