-- ==== Sys2Proof/Laws/OkRespond.lean ====
section
/-! SUPPORT. Machine/Respond.lean keeps the invariant of Laws/Ok.lean: one lemma for each operation. -/

namespace Sys2Proof.Machine

set_option linter.unusedVariables false
set_option linter.unusedSimpArgs false

theorem respond_ok {q : List Instr} {s : State} {n : NodeId} {r : Packet} (h : Ok q s) :
    Ok q (respond s n r) := by
  unfold respond
  repeat' first
    | with_reducible assumption | with_reducible apply sendTo_ok | with_reducible apply linkChecks_ok

theorem answerTo_ok {q : List Instr} {s : State} {n : NodeId} {pkt : Option Packet} {a : Ans} (h : Ok q s) :
    Ok q (answerTo s n pkt a) := by
  unfold answerTo
  repeat' first
    | with_reducible assumption | with_reducible apply respond_ok | with_reducible apply State.answer_ok | split

theorem doHostCpl_ok {q : List Instr} {s : State} {tag : Nat} {cpl : PcieCpl} (h : Ok q s) :
    Ok q (doHostCpl s tag cpl) := by
  unfold doHostCpl
  repeat' first
    | with_reducible assumption | with_reducible apply answerTo_ok | with_reducible apply okIte | split | with_reducible simp only [↓okUpd]

theorem execHostReadCompletion_ok {q : List Instr} {tag : BitVec 10} {cpl : PcieCpl} {s : State} (h : Ok q s) :
    OkN q (execHostReadCompletion tag cpl s) := by
  unfold execHostReadCompletion
  repeat' first
    | with_reducible assumption | with_reducible apply doHostCpl_ok | with_reducible apply OkN.next

theorem hostReadAll_ok {q : List Instr} {s : State} {ini : Initiator} {off n : Nat} {act : ActId} (h : Ok q s) :
    OkO q (hostReadAll s ini off n act) := by
  unfold hostReadAll
  refine okFoldO (fun y a hy => ?_) (OkO.some h)
  split
  · exact hostRead1_ok (hy.get rfl)
  · exact hy

theorem doHostAccess_ok {q : List Instr} {s : State} {ini : Initiator} {pa : Pa} {wr : Bool} {len : Nat} {data : List Byte} {act : ActId} (h : Ok q s) :
    Ok q (doHostAccess s ini pa wr len data act) := by
  unfold doHostAccess
  repeat' first
    | with_reducible assumption | with_reducible apply hostWrite_ok | with_reducible apply State.answerOnly_ok
    | with_reducible apply hostReadAll_ok | with_reducible apply okIte | with_reducible apply OkP.snd
    | with_reducible refine OkO.get ?_ ‹_ = some (_, _)› | split

theorem execHostMemoryAccess_ok {q : List Instr} {ini : Initiator} {pa : Pa} {wr : Bool} {len : Nat} {data : List Byte} {act : ActId} {s : State} (h : Ok q s) :
    OkN q (execHostMemoryAccess ini pa wr len data act s) := by
  unfold execHostMemoryAccess
  repeat' first
    | with_reducible assumption | with_reducible apply doHostAccess_ok | with_reducible apply OkN.next

end Sys2Proof.Machine
end

