-- ==== Sys2Proof/Laws/OkCasc.lean ====
section
/-! SUPPORT. Machine/Casc.lean keeps the invariant of Laws/Ok.lean: one lemma for each operation. -/

namespace Sys2Proof.Machine

set_option linter.unusedVariables false
set_option linter.unusedSimpArgs false

theorem casTal_ok {q : List Instr} {s : State} {i : Nat} (h : Ok q s) :
    Ok q (casTal s i) := by
  unfold casTal
  repeat' first
    | with_reducible assumption | with_reducible apply tallyAdd_ok

theorem State.setCasRing_ok {q : List Instr} {s : State} {r : Bool} {x : CasRing} (h : Ok q s) :
    Ok q (State.setCasRing s r x) := by
  unfold State.setCasRing
  repeat' first
    | with_reducible assumption | with_reducible apply okIte | with_reducible simp only [↓okUpd]

theorem State.setCasPort_ok {q : List Instr} {s : State} {east : Bool} {x : CasPort} (h : Ok q s) :
    Ok q (State.setCasPort s east x) := by
  unfold State.setCasPort
  repeat' first
    | with_reducible assumption | with_reducible apply okIte | with_reducible simp only [↓okUpd]

theorem State.setCasSlot_ok {q : List Instr} {s : State} {i : Nat} {x : CasSlot} (h : Ok q s) :
    Ok q (State.setCasSlot s i x) := by
  unfold State.setCasSlot
  repeat' first
    | with_reducible assumption | with_reducible simp only [↓okUpd]

theorem State.setXq_ok {q : List Instr} {s : State} {n : Nat} {x : XQueue} (h : Ok q s) :
    Ok q (State.setXq s n x) := by
  unfold State.setXq
  repeat' first
    | with_reducible assumption | with_reducible simp only [↓okUpd]

theorem State.setPeer_ok {q : List Instr} {s : State} {k : PkgId} {x : Peer} (h : Ok q s) :
    Ok q (State.setPeer s k x) := by
  unfold State.setPeer
  repeat' first
    | with_reducible assumption | with_reducible simp only [↓okUpd]

theorem casQuiet_ok {q : List Instr} {s : State} (h : Ok q s) :
    Ok q (casQuiet s) := by
  unfold casQuiet
  repeat' first
    | with_reducible assumption | with_reducible simp only [↓okUpd]

theorem casSend_ok {q : List Instr} {s : State} {ring : Bool} {f : CasFrame} (h : Ok q s) :
    Ok q (casSend s ring f) := by
  unfold casSend
  repeat' first
    | with_reducible assumption | with_reducible apply casTal_ok | with_reducible apply State.setCasRing_ok | with_reducible apply okIte

theorem casQueue_ok {q : List Instr} {s : State} {f : CasFrame} (h : Ok q s) :
    Ok q (casQueue s f) := by
  unfold casQueue
  repeat' first
    | with_reducible assumption | with_reducible apply State.setCasRing_ok

theorem casArrive_ok {q : List Instr} {s : State} {f : CasFrame} {k : State → CasFrame → State} (h : Ok q s) (h2 : ∀ x0 x1, Ok q x0 → Ok q (k x0 x1)) :
    Ok q (casArrive s f k) := by
  unfold casArrive
  repeat' first
    | with_reducible assumption | with_reducible apply h2 | with_reducible apply casTal_ok | with_reducible apply casQuiet_ok
    | with_reducible apply okIte

theorem residence_ok {q : List Instr} {s : State} (h : Ok q s) :
    OkP q (residence s) := by
  unfold residence
  repeat' first
    | with_reducible assumption | with_reducible apply takeFree_ok | with_reducible refine OkP.get ?_ ‹_ = (_, _)› | split
    | with_reducible apply OkP.mk

theorem casForward_ok {q : List Instr} {s : State} {f : CasFrame} (h : Ok q s) :
    Ok q (casForward s f) := by
  unfold casForward
  repeat' first
    | with_reducible assumption | with_reducible apply residence_ok | with_reducible apply casSend_ok | with_reducible apply okIte
    | with_reducible apply OkP.snd

theorem casUnwrap_ok {q : List Instr} {s : State} (h : Ok q s) :
    Ok q (casUnwrap s) := by
  unfold casUnwrap
  repeat' first
    | with_reducible assumption | with_reducible intro _ | with_reducible apply State.setCasPort_ok | with_reducible apply okIte
    | with_reducible apply okFold

theorem doTransit_ok {q : List Instr} {s : State} {f : CasFrame} (h : Ok q s) :
    Ok q (doTransit s f) := by
  unfold doTransit
  repeat' first
    | with_reducible assumption | with_reducible intro _ | with_reducible apply casArrive_ok | with_reducible apply casUnwrap_ok
    | with_reducible apply casTal_ok | with_reducible apply casForward_ok | with_reducible apply okIte

theorem casToken_ok {q : List Instr} {s : State} {ring : Bool} {gen : BitVec 16} (h : Ok q s) :
    Ok q (casToken s ring gen) := by
  unfold casToken
  repeat' first
    | with_reducible assumption | with_reducible apply casSend_ok

theorem tokenVisit_ok {q : List Instr} {s : State} {ring : Bool} {gen : BitVec 16} (h : Ok q s) :
    Ok q (tokenVisit s ring gen) := by
  unfold tokenVisit
  repeat' first
    | with_reducible assumption | with_reducible intro _ | with_reducible apply State.setCasRing_ok | with_reducible apply casToken_ok
    | with_reducible apply casSend_ok | with_reducible apply okFold

theorem doToken_ok {q : List Instr} {s : State} {f : CasFrame} (h : Ok q s) :
    Ok q (doToken s f) := by
  unfold doToken
  repeat' first
    | with_reducible assumption | with_reducible intro _ | with_reducible apply casArrive_ok | with_reducible apply casTal_ok
    | with_reducible apply tokenVisit_ok | with_reducible apply State.setCasRing_ok | with_reducible apply okIte

theorem doRegen_ok {q : List Instr} {s : State} {r : Bool} (h : Ok q s) :
    Ok q (doRegen s r) := by
  unfold doRegen
  repeat' first
    | with_reducible assumption | with_reducible apply casTal_ok | with_reducible apply casQuiet_ok | with_reducible apply casToken_ok
    | with_reducible apply State.setCasRing_ok | with_reducible apply okIte

theorem remoteReq_ok {q : List Instr} {s : State} {ini : Initiator} {pkt : Option Packet} {typ : PktType} {p : PkgId} {off : Nat} {mask : BitVec 64} {d : List Byte} {act : ActId} (h : Ok q s) :
    OkR q (remoteReq s ini pkt typ p off mask d act) := by
  unfold remoteReq
  repeat' first
    | with_reducible assumption | with_reducible apply State.setCasSlot_ok | with_reducible apply casQueue_ok | with_reducible apply OkR.ite
    | with_reducible apply OkR.now | with_reducible apply OkR.sent | with_reducible apply OkR.wait | split

theorem doRemote_ok {q : List Instr} {s : State} {ini : Initiator} {typ : PktType} {pa : Pa} {mask : BitVec 64} {d : List Byte} {act : ActId} (h : Ok q s) :
    Ok q (doRemote s ini typ pa mask d act) := by
  unfold doRemote
  repeat' first
    | with_reducible assumption | with_reducible apply remoteReq_ok | with_reducible apply State.answerOnly_ok | with_reducible apply okIte
    | with_reducible refine OkR.sent_get ?_ ‹_› | split

theorem rspAns_ok {q : List Instr} {s : State} {f : CasFrame} (h : Ok q s) :
    OkP q (rspAns s f) := by
  unfold rspAns
  repeat' first
    | with_reducible assumption | with_reducible apply takeFree_ok | with_reducible apply okIte2
    | with_reducible refine OkP.get ?_ ‹_ = (_, _)› | split | with_reducible apply OkP.mk

theorem doRsp_ok {q : List Instr} {s : State} {f : CasFrame} (h : Ok q s) :
    Ok q (doRsp s f) := by
  unfold doRsp
  repeat' first
    | with_reducible assumption | with_reducible intro _ | with_reducible apply casArrive_ok | with_reducible apply rspAns_ok
    | with_reducible apply State.setCasSlot_ok | with_reducible apply answerTo_ok | with_reducible apply casTal_ok
    | with_reducible apply okIte | with_reducible apply OkP.snd | split

theorem xqDrop_ok {q : List Instr} {s : State} {n : BitVec 4} {o : BitVec 5} (h : Ok q s) :
    Ok q (xqDrop s n o) := by
  unfold xqDrop
  repeat' first
    | with_reducible assumption | with_reducible apply report_ok | with_reducible apply casTal_ok | with_reducible apply State.setXq_ok

theorem doSlotTimeout_ok {q : List Instr} {s : State} {i : Nat} (h : Ok q s) :
    Ok q (doSlotTimeout s i) := by
  unfold doSlotTimeout
  repeat' first
    | with_reducible assumption | with_reducible apply State.setCasSlot_ok | with_reducible apply xqDrop_ok | with_reducible apply okIte
    | split

theorem exportTaken_ok {q : List Instr} {n : Nat} {i : Nat} {ring : Bool} {r : Ans × State} (h : OkP q (r)) :
    Ok q (exportTaken n i ring r) := by
  unfold exportTaken
  repeat' first
    | with_reducible apply State.setCasSlot_ok | with_reducible apply State.setXq_ok | with_reducible apply casQueue_ok
    | with_reducible apply okIte | with_reducible exact OkP.snd ‹OkP q (_, _)›

theorem exportVia_ok {q : List Instr} {s : State} {n : Nat} {i : Nat} {ring : Bool} {y4 : Gate × State} (h : Ok q s) (h2 : OkP q (y4)) :
    Ok q (exportVia s n i ring y4) := by
  unfold exportVia
  repeat' first
    | with_reducible assumption | with_reducible apply holdWhole_ok | with_reducible apply exportTaken_ok | with_reducible apply dequeue_ok
    | split

theorem doExport_ok {q : List Instr} {s : State} {n : Nat} (h : Ok q s) :
    Ok q (doExport s n) := by
  unfold doExport
  repeat' first
    | with_reducible assumption | with_reducible apply exportVia_ok | with_reducible apply queueWay_ok | with_reducible apply okIte | split

theorem doEnqrsp_ok {q : List Instr} {s : State} {f : CasFrame} (h : Ok q s) :
    Ok q (doEnqrsp s f) := by
  unfold doEnqrsp
  repeat' first
    | with_reducible assumption | with_reducible intro _ | with_reducible apply casArrive_ok | with_reducible apply casQueue_ok
    | with_reducible apply State.setCasSlot_ok | with_reducible apply State.setXq_ok | with_reducible apply xqDrop_ok
    | with_reducible apply casTal_ok | with_reducible apply okIte | split | with_reducible simp only [↓okUpd]

theorem doEnq_ok {q : List Instr} {s : State} {f : CasFrame} (h : Ok q s) :
    Ok q (doEnq s f) := by
  unfold doEnq
  repeat' first
    | with_reducible assumption | with_reducible intro _ | with_reducible apply casQueue_ok | with_reducible apply queueWay_ok
    | with_reducible apply casArrive_ok | with_reducible apply holdWhole_ok | with_reducible apply enqueue_ok | with_reducible apply okIte
    | with_reducible refine OkP.get ?_ ‹_ = (_, _)› | with_reducible apply OkP.snd | split | with_reducible simp only [↓okUpd]

theorem pollMisses_ok {q : List Instr} {s : State} (h : Ok q s) :
    Ok q (pollMisses s) := by
  unfold pollMisses
  repeat' first
    | with_reducible assumption | with_reducible intro _ | with_reducible apply State.setPeer_ok | with_reducible apply casTal_ok
    | with_reducible apply okIte | with_reducible apply okFold | with_reducible simp only [↓okUpd]

theorem doPollSend_ok {q : List Instr} {s : State} (h : Ok q s) :
    Ok q (doPollSend s) := by
  unfold doPollSend
  repeat' first
    | with_reducible assumption | with_reducible apply casQuiet_ok | with_reducible apply pollMisses_ok | with_reducible apply takeFree_ok
    | with_reducible apply casSend_ok | with_reducible apply okIte | with_reducible apply OkP.snd | with_reducible simp only [↓okUpd]

theorem pollSources_ok {q : List Instr} {s : State} {east : Bool} {rank : BitVec 4} {ok : Bool} (h : Ok q s) :
    Ok q (pollSources s east rank ok) := by
  unfold pollSources
  repeat' first
    | with_reducible assumption | with_reducible intro _ | with_reducible apply State.setCsrc_ok | with_reducible apply okIte
    | with_reducible apply okFold

theorem doPoll_ok {q : List Instr} {s : State} {f : CasFrame} (h : Ok q s) :
    Ok q (doPoll s f) := by
  unfold doPoll
  repeat' first
    | with_reducible assumption | with_reducible intro _ | with_reducible apply casArrive_ok | with_reducible apply casTal_ok
    | with_reducible apply casForward_ok | with_reducible apply pollSources_ok | with_reducible apply casUnwrap_ok
    | with_reducible apply takeFree_ok | with_reducible apply casSend_ok | with_reducible apply okIte | with_reducible apply OkP.snd | split
    | with_reducible simp only [↓okUpd]

theorem doReply_ok {q : List Instr} {s : State} {f : CasFrame} (h : Ok q s) :
    Ok q (doReply s f) := by
  unfold doReply
  repeat' first
    | with_reducible assumption | with_reducible intro _ | with_reducible apply casArrive_ok | with_reducible apply State.setPeer_ok
    | with_reducible apply okIte | split | with_reducible simp only [↓okUpd]

theorem doJoinTimeout_ok {q : List Instr} {s : State} (h : Ok q s) :
    Ok q (doJoinTimeout s) := by
  unfold doJoinTimeout
  repeat' first
    | with_reducible assumption | with_reducible intro _ | with_reducible apply State.setCsrc_ok | with_reducible apply okIte
    | with_reducible apply okFold | with_reducible simp only [↓okUpd]

theorem casWrap_ok {q : List Instr} {s : State} {east : Bool} (h : Ok q s) :
    Ok q (casWrap s east) := by
  unfold casWrap
  repeat' first
    | with_reducible assumption | with_reducible apply report_ok | with_reducible apply casTal_ok | with_reducible apply State.setCasPort_ok
    | with_reducible apply okIte

theorem doLockLoss_ok {q : List Instr} {s : State} {east : Bool} (h : Ok q s) :
    Ok q (doLockLoss s east) := by
  unfold doLockLoss
  repeat' first
    | with_reducible assumption | with_reducible apply State.setCasPort_ok | with_reducible apply casWrap_ok | with_reducible apply okIte

theorem doLockGain_ok {q : List Instr} {s : State} {east : Bool} (h : Ok q s) :
    Ok q (doLockGain s east) := by
  unfold doLockGain
  repeat' first
    | with_reducible assumption | with_reducible apply State.setCasPort_ok | with_reducible apply okIte

theorem doIndication_ok {q : List Instr} {s : State} {east : Bool} (h : Ok q s) :
    Ok q (doIndication s east) := by
  unfold doIndication
  repeat' first
    | with_reducible assumption | with_reducible apply casWrap_ok | with_reducible apply State.setCasPort_ok | with_reducible apply okIte

theorem doWrapHold_ok {q : List Instr} {s : State} {east : Bool} (h : Ok q s) :
    Ok q (doWrapHold s east) := by
  unfold doWrapHold
  repeat' first
    | with_reducible assumption | with_reducible apply State.setCasPort_ok | with_reducible apply okIte

theorem casCtlWrite_ok {q : List Instr} {s : State} {v : Word} (h : Ok q s) :
    Ok q (casCtlWrite s v) := by
  unfold casCtlWrite
  repeat' first
    | with_reducible assumption | with_reducible simp only [↓okUpd]

theorem casRead_ok {q : List Instr} {s : State} {off : Nat} (h : Ok q s) :
    OkO q (casRead s off) := by
  unfold casRead
  repeat' first
    | with_reducible assumption | with_reducible apply rdVal_ok | with_reducible apply rdPack_ok | with_reducible apply talRead_ok
    | with_reducible apply okIteO | with_reducible exact OkO.none | split

theorem casWrite_ok {q : List Instr} {s : State} {off : Nat} {v : Word} (h : Ok q s) :
    OkO q (casWrite s off v) := by
  unfold casWrite
  repeat' first
    | with_reducible assumption | with_reducible apply wrOk_ok | with_reducible apply casCtlWrite_ok | with_reducible apply State.setXq_ok
    | with_reducible apply okIteO | with_reducible exact OkO.none | split | with_reducible simp only [↓okUpd]

theorem execTokenReceive_ok {q : List Instr} {f : CasFrame} {s : State} (h : Ok q s) :
    OkN q (execTokenReceive f s) := by
  unfold execTokenReceive
  repeat' first
    | with_reducible assumption | with_reducible apply doToken_ok | with_reducible apply OkN.next

theorem execTokenRegenerate_ok {q : List Instr} {ring : Bool} {s : State} (h : Ok q s) :
    OkN q (execTokenRegenerate ring s) := by
  unfold execTokenRegenerate
  repeat' first
    | with_reducible assumption | with_reducible apply doRegen_ok | with_reducible apply OkN.next

theorem execFrameTransit_ok {q : List Instr} {f : CasFrame} {s : State} (h : Ok q s) :
    OkN q (execFrameTransit f s) := by
  unfold execFrameTransit
  repeat' first
    | with_reducible assumption | with_reducible apply doTransit_ok | with_reducible apply OkN.next

theorem execRspReceive_ok {q : List Instr} {f : CasFrame} {s : State} (h : Ok q s) :
    OkN q (execRspReceive f s) := by
  unfold execRspReceive
  repeat' first
    | with_reducible assumption | with_reducible apply doRsp_ok | with_reducible apply OkN.next

theorem execEnqReceive_ok {q : List Instr} {f : CasFrame} {s : State} (h : Ok q s) :
    OkN q (execEnqReceive f s) := by
  unfold execEnqReceive
  repeat' first
    | with_reducible assumption | with_reducible apply doEnq_ok | with_reducible apply OkN.next

theorem execEnqrspReceive_ok {q : List Instr} {f : CasFrame} {s : State} (h : Ok q s) :
    OkN q (execEnqrspReceive f s) := by
  unfold execEnqrspReceive
  repeat' first
    | with_reducible assumption | with_reducible apply doEnqrsp_ok | with_reducible apply OkN.next

theorem execPollSend_ok {q : List Instr} {s : State} (h : Ok q s) :
    OkN q (execPollSend s) := by
  unfold execPollSend
  repeat' first
    | with_reducible assumption | with_reducible apply doPollSend_ok | with_reducible apply OkN.next

theorem execPollReceive_ok {q : List Instr} {f : CasFrame} {s : State} (h : Ok q s) :
    OkN q (execPollReceive f s) := by
  unfold execPollReceive
  repeat' first
    | with_reducible assumption | with_reducible apply doPoll_ok | with_reducible apply OkN.next

theorem execReplyReceive_ok {q : List Instr} {f : CasFrame} {s : State} (h : Ok q s) :
    OkN q (execReplyReceive f s) := by
  unfold execReplyReceive
  repeat' first
    | with_reducible assumption | with_reducible apply doReply_ok | with_reducible apply OkN.next

theorem execJoinTimeout_ok {q : List Instr} {s : State} (h : Ok q s) :
    OkN q (execJoinTimeout s) := by
  unfold execJoinTimeout
  repeat' first
    | with_reducible assumption | with_reducible apply doJoinTimeout_ok | with_reducible apply OkN.next

theorem execRemoteAccess_ok {q : List Instr} {ini : Initiator} {typ : PktType} {pa : Pa} {mask : BitVec 64} {data : List Byte} {act : ActId} {s : State} (h : Ok q s) :
    OkN q (execRemoteAccess ini typ pa mask data act s) := by
  unfold execRemoteAccess
  repeat' first
    | with_reducible assumption | with_reducible apply doRemote_ok | with_reducible apply OkN.next

theorem execRemoteSlotTimeout_ok {q : List Instr} {slot : BitVec 8} {s : State} (h : Ok q s) :
    OkN q (execRemoteSlotTimeout slot s) := by
  unfold execRemoteSlotTimeout
  repeat' first
    | with_reducible assumption | with_reducible apply doSlotTimeout_ok | with_reducible apply OkN.next

theorem execExportDequeue_ok {q : List Instr} {n : BitVec 4} {s : State} (h : Ok q s) :
    OkN q (execExportDequeue n s) := by
  unfold execExportDequeue
  repeat' first
    | with_reducible assumption | with_reducible apply doExport_ok | with_reducible apply OkN.next

theorem execLinkLockLoss_ok {q : List Instr} {east : Bool} {s : State} (h : Ok q s) :
    OkN q (execLinkLockLoss east s) := by
  unfold execLinkLockLoss
  repeat' first
    | with_reducible assumption | with_reducible apply doLockLoss_ok | with_reducible apply OkN.next

theorem execCascadeRxLockGain_ok {q : List Instr} {east : Bool} {s : State} (h : Ok q s) :
    OkN q (execCascadeRxLockGain east s) := by
  unfold execCascadeRxLockGain
  repeat' first
    | with_reducible assumption | with_reducible apply doLockGain_ok | with_reducible apply OkN.next

theorem execWrapIndicationReceive_ok {q : List Instr} {east : Bool} {s : State} (h : Ok q s) :
    OkN q (execWrapIndicationReceive east s) := by
  unfold execWrapIndicationReceive
  repeat' first
    | with_reducible assumption | with_reducible apply doIndication_ok | with_reducible apply OkN.next

theorem execWrapHoldExpiry_ok {q : List Instr} {east : Bool} {s : State} (h : Ok q s) :
    OkN q (execWrapHoldExpiry east s) := by
  unfold execWrapHoldExpiry
  repeat' first
    | with_reducible assumption | with_reducible apply doWrapHold_ok | with_reducible apply OkN.next

theorem execUnwrap_ok {q : List Instr} {who : Initiator} {v : Word} {s : State} (h : Ok q s) :
    OkN q (execUnwrap who v s) := by
  unfold execUnwrap
  repeat' first
    | with_reducible assumption | with_reducible intro _ | with_reducible apply regCmd_ok | with_reducible apply wrAnswer_ok
    | with_reducible apply casCtlWrite_ok | with_reducible apply OkN.next | with_reducible apply OkP.mk

end Sys2Proof.Machine
end

