-- ==== Sys2Proof/Laws/OkStored.lean ====
section
/-! SUPPORT. Machine/Stored.lean keeps the invariant of Laws/Ok.lean: one lemma for each operation. -/

namespace Sys2Proof.Machine

set_option linter.unusedVariables false
set_option linter.unusedSimpArgs false

theorem settleAcc_ok {q : List Instr} {x : Acc} (h : OkA q (x)) :
    Ok q (settleAcc x) := by
  unfold settleAcc
  repeat' first
    | with_reducible apply State.answer_ok | with_reducible exact OkA.wait_get ‹OkA q (.wait _)› rfl
    | with_reducible exact OkA.done_get ‹OkA q (.done _ _)› rfl | split

theorem doBulkRead_ok {q : List Instr} {s : State} {ini : Initiator} {pa : Pa} {len : Nat} {act : ActId} (h : Ok q s) :
    Ok q (doBulkRead s ini pa len act) := by
  unfold doBulkRead
  repeat' first
    | with_reducible assumption | with_reducible apply settleAcc_ok | with_reducible apply accRead_ok | with_reducible apply okIte

theorem doBulkWrite_ok {q : List Instr} {s : State} {ini : Initiator} {pa : Pa} {d : List (Option Byte)} {poison : BitVec 128} {act : ActId} (h : Ok q s) :
    Ok q (doBulkWrite s ini pa d poison act) := by
  unfold doBulkWrite
  repeat' first
    | with_reducible assumption | with_reducible apply settleAcc_ok | with_reducible apply accWrite_ok | with_reducible apply okIte

theorem scrubWord_ok {q : List Instr} {s : State} {m : Nat} {w : Nat} (h : Ok q s) :
    Ok q (scrubWord s m w) := by
  unfold scrubWord
  repeat' first
    | with_reducible assumption | with_reducible apply bulkCheck_ok | with_reducible apply tallyAdd_ok | with_reducible apply lastErr_ok
    | split | with_reducible simp only [↓okUpd]

theorem scrubBlock_ok {q : List Instr} {s : State} {m : Nat} {w : Nat} (h : Ok q s) :
    Ok q (scrubBlock s m w) := by
  unfold scrubBlock
  repeat' first
    | with_reducible assumption | with_reducible intro _ | with_reducible apply mapRead_ok | with_reducible apply scrubWord_ok
    | with_reducible apply okIte | with_reducible apply okUpTo

theorem doScrub_ok {q : List Instr} {s : State} {m : Nat} (h : Ok q s) :
    Ok q (doScrub s m) := by
  unfold doScrub
  repeat' first
    | with_reducible assumption | with_reducible apply scrubBlock_ok | with_reducible apply State.setMc_ok
    | with_reducible apply tallyAdd_ok | with_reducible apply okIte

theorem wmapStart_ok {q : List Instr} {s : State} {v : Word} (h : Ok q s) :
    OkP q (wmapStart s v) := by
  unfold wmapStart
  repeat' first
    | with_reducible assumption | with_reducible apply okIte2 | with_reducible apply OkP.mk | with_reducible simp only [↓okUpd]

theorem wmapStep_ok {q : List Instr} {s : State} (h : Ok q s) :
    Ok q (wmapStep s) := by
  unfold wmapStep
  repeat' first
    | with_reducible assumption | with_reducible apply okIte | with_reducible simp only [↓okUpd]

theorem doWmapDone_ok {q : List Instr} {s : State} (h : Ok q s) :
    Ok q (doWmapDone s) := by
  unfold doWmapDone
  repeat' first
    | with_reducible assumption | with_reducible apply wmapStep_ok | with_reducible apply okIte

theorem tripRepair_ok {q : List Instr} {s : State} (h : Ok q s) :
    Ok q (tripRepair s) := by
  unfold tripRepair
  repeat' first
    | with_reducible assumption | with_reducible intro _ | with_reducible apply check_ok | with_reducible apply tallyAdd_ok
    | with_reducible apply okFold | with_reducible simp only [↓okUpd]

theorem flipCtlWrite_ok {q : List Instr} {s : State} {m : Nat} {v : Word} (h : Ok q s) :
    OkP q (flipCtlWrite s m v) := by
  unfold flipCtlWrite
  repeat' first
    | with_reducible assumption | with_reducible apply State.setMc_ok | with_reducible apply okIte2 | with_reducible apply OkP.mk

theorem mcRead_ok {q : List Instr} {s : State} {m : Nat} {off : Nat} (h : Ok q s) :
    OkO q (mcRead s m off) := by
  unfold mcRead
  repeat' first
    | with_reducible assumption | with_reducible apply rdPack_ok | with_reducible apply rdVal_ok | with_reducible apply talRead_ok
    | with_reducible apply okIteO | with_reducible exact OkO.none

theorem mcWrite_ok {q : List Instr} {s : State} {m : Nat} {off : Nat} {v : Word} (h : Ok q s) :
    OkO q (mcWrite s m off v) := by
  unfold mcWrite
  repeat' first
    | with_reducible assumption | with_reducible apply wrOk_ok | with_reducible apply State.setMc_ok | with_reducible apply wrNo_ok
    | with_reducible apply flipCtlWrite_ok | with_reducible apply okIteO | with_reducible apply OkO.some | with_reducible exact OkO.none

theorem edcRead_ok {q : List Instr} {s : State} {off : Nat} (h : Ok q s) :
    OkO q (edcRead s off) := by
  unfold edcRead
  repeat' first
    | with_reducible assumption | with_reducible apply mcRead_ok | with_reducible apply rdVal_ok | with_reducible apply rdPack_ok
    | with_reducible apply talRead_ok | with_reducible apply okIteO | with_reducible exact OkO.none | split

theorem edcWrite_ok {q : List Instr} {s : State} {off : Nat} {v : Word} (h : Ok q s) :
    OkO q (edcWrite s off v) := by
  unfold edcWrite
  repeat' first
    | with_reducible assumption | with_reducible apply mcWrite_ok | with_reducible apply wrNo_ok | with_reducible apply wrOk_ok
    | with_reducible apply wmapStart_ok | with_reducible apply dbudCfgWrite_ok | with_reducible apply dbudLimWrite_ok
    | with_reducible apply okIteO | with_reducible apply OkO.some | with_reducible exact OkO.none | split
    | with_reducible simp only [↓okUpd]

theorem execBulkMemoryRead_ok {q : List Instr} {ini : Initiator} {pa : Pa} {len : Nat} {act : ActId} {s : State} (h : Ok q s) :
    OkN q (execBulkMemoryRead ini pa len act s) := by
  unfold execBulkMemoryRead
  repeat' first
    | with_reducible assumption | with_reducible apply doBulkRead_ok | with_reducible apply OkN.next

theorem execBulkMemoryWrite_ok {q : List Instr} {ini : Initiator} {pa : Pa} {bytes : List (Option Byte)} {poison : BitVec 128} {act : ActId} {s : State} (h : Ok q s) :
    OkN q (execBulkMemoryWrite ini pa bytes poison act s) := by
  unfold execBulkMemoryWrite
  repeat' first
    | with_reducible assumption | with_reducible apply doBulkWrite_ok | with_reducible apply OkN.next

theorem execScrubRead_ok {q : List Instr} {m : McId} {s : State} (h : Ok q s) :
    OkN q (execScrubRead m s) := by
  unfold execScrubRead
  repeat' first
    | with_reducible assumption | with_reducible apply doScrub_ok | with_reducible apply OkN.next

theorem execWmapClearStart_ok {q : List Instr} {who : Initiator} {v : Word} {s : State} (h : Ok q s) :
    OkN q (execWmapClearStart who v s) := by
  unfold execWmapClearStart
  repeat' first
    | with_reducible assumption | with_reducible intro _ | with_reducible apply regCmd_ok | with_reducible apply wrAnswer_ok
    | with_reducible apply wmapStart_ok | with_reducible apply OkN.next

theorem execWmapClearDone_ok {q : List Instr} {s : State} (h : Ok q s) :
    OkN q (execWmapClearDone s) := by
  unfold execWmapClearDone
  repeat' first
    | with_reducible assumption | with_reducible apply doWmapDone_ok | with_reducible apply OkN.next

theorem execFlipArm_ok {q : List Instr} {who : Initiator} {m : McId} {v : Word} {s : State} (h : Ok q s) :
    OkN q (execFlipArm who m v s) := by
  unfold execFlipArm
  repeat' first
    | with_reducible assumption | with_reducible intro _ | with_reducible apply regCmd_ok | with_reducible apply wrAnswer_ok
    | with_reducible apply flipCtlWrite_ok | with_reducible apply State.answerOnly_ok | with_reducible apply okIte
    | with_reducible apply OkN.next

end Sys2Proof.Machine
end

