-- ==== Sys2Proof/Laws/OkScriv.lean ====
section
/-! SUPPORT. Machine/Scriv.lean keeps the invariant of Laws/Ok.lean: one lemma for each operation. -/

namespace Sys2Proof.Machine

set_option linter.unusedVariables false
set_option linter.unusedSimpArgs false

theorem scvTal_ok {q : List Instr} {s : State} {i : Nat} {n : Nat} (h : Ok q s) :
    Ok q (scvTal s i n) := by
  unfold scvTal
  repeat' first
    | with_reducible assumption | with_reducible apply tallyAdd_ok

theorem jPush_ok {q : List Instr} {s : State} {a : JAppend} (h : Ok q s) :
    Ok q (jPush s a) := by
  unfold jPush
  repeat' first
    | with_reducible assumption | with_reducible simp only [↓okUpd]

theorem jFatal_ok {q : List Instr} {s : State} {r : Entry} (h : Ok q s) :
    Ok q (jFatal s r) := by
  unfold jFatal
  repeat' first
    | with_reducible assumption | with_reducible apply jPush_ok | with_reducible simp only [↓okUpd]

theorem jStore_ok {q : List Instr} {s : State} {a : JAppend} (h : Ok q s) :
    Ok q (jStore s a) := by
  unfold jStore
  repeat' first
    | with_reducible assumption | with_reducible apply completeCmd_ok | split | with_reducible simp only [↓okUpd]

theorem doRecordWrite_ok {q : List Instr} {s : State} (h : Ok q s) :
    Ok q (doRecordWrite s) := by
  unfold doRecordWrite
  repeat' first
    | with_reducible assumption | with_reducible apply scvTal_ok | with_reducible apply jStore_ok | with_reducible apply okIte | split
    | with_reducible simp only [↓okUpd]

theorem scvRefill_ok {q : List Instr} {s : State} (h : Ok q s) :
    Ok q (scvRefill s) := by
  unfold scvRefill
  repeat' first
    | with_reducible assumption | with_reducible simp only [↓okUpd]

theorem compactBegin_ok {q : List Instr} {s : State} {cmd : Option (RingId × Word)} (h : Ok q s) :
    Ok q (compactBegin s cmd) := by
  unfold compactBegin
  repeat' first
    | with_reducible assumption | with_reducible simp only [↓okUpd]

theorem journalEvent_ok {q : List Instr} {s : State} {reason : Nat} (h : Ok q s) :
    Ok q (journalEvent s reason) := by
  unfold journalEvent
  repeat' first
    | with_reducible assumption | with_reducible apply pushEvent_ok

theorem doCompactStart_ok {q : List Instr} {s : State} (h : Ok q s) :
    Ok q (doCompactStart s) := by
  unfold doCompactStart
  repeat' first
    | with_reducible assumption | with_reducible apply compactBegin_ok | with_reducible apply okIte

theorem doCompactCommit_ok {q : List Instr} {s : State} (h : Ok q s) :
    Ok q (doCompactCommit s) := by
  unfold doCompactCommit
  repeat' first
    | with_reducible assumption | with_reducible apply jStore_ok | with_reducible apply journalEvent_ok | with_reducible apply scvTal_ok
    | with_reducible apply completeCmd_ok | with_reducible apply okIte | split | with_reducible simp only [↓okUpd]

theorem formatStore_ok {q : List Instr} {s : State} {newest : Option Word} (h : Ok q s) :
    Ok q (formatStore s newest) := by
  unfold formatStore
  repeat' first
    | with_reducible assumption | with_reducible apply takeFree_ok | with_reducible apply jStore_ok | with_reducible apply journalEvent_ok
    | with_reducible apply report_ok | with_reducible refine OkP.get ?_ ‹_ = (_, _)› | split | with_reducible simp only [↓okUpd]

theorem scvReplay_ok {q : List Instr} {s : State} (h : Ok q s) :
    Ok q (scvReplay s) := by
  unfold scvReplay
  repeat' first
    | with_reducible assumption | with_reducible apply scvTal_ok | with_reducible apply formatStore_ok | split
    | with_reducible simp only [↓okUpd]

theorem scvRead_ok {q : List Instr} {s : State} {off : Nat} (h : Ok q s) :
    OkO q (scvRead s off) := by
  unfold scvRead
  repeat' first
    | with_reducible assumption | with_reducible apply rdVal_ok | with_reducible apply rdPack_ok | with_reducible apply talRead_ok
    | with_reducible apply okIteO | with_reducible exact OkO.none

theorem scvWrite_ok {q : List Instr} {s : State} {off : Nat} {v : Word} (h : Ok q s) :
    OkO q (scvWrite s off v) := by
  unfold scvWrite
  repeat' first
    | with_reducible assumption | with_reducible apply wrOk_ok | with_reducible apply okIteO | with_reducible exact OkO.none
    | with_reducible simp only [↓okUpd]

theorem execJournalRecordWrite_ok {q : List Instr} {s : State} (h : Ok q s) :
    OkN q (execJournalRecordWrite s) := by
  unfold execJournalRecordWrite
  repeat' first
    | with_reducible assumption | with_reducible apply doRecordWrite_ok | with_reducible apply OkN.next

theorem execCompactionStart_ok {q : List Instr} {s : State} (h : Ok q s) :
    OkN q (execCompactionStart s) := by
  unfold execCompactionStart
  repeat' first
    | with_reducible assumption | with_reducible apply doCompactStart_ok | with_reducible apply OkN.next

theorem execCompactionCommit_ok {q : List Instr} {s : State} (h : Ok q s) :
    OkN q (execCompactionCommit s) := by
  unfold execCompactionCommit
  repeat' first
    | with_reducible assumption | with_reducible apply doCompactCommit_ok | with_reducible apply OkN.next

end Sys2Proof.Machine
end

