-- ==== Sys2Proof/Laws/OkAssayer.lean ====
section
/-! SUPPORT. Machine/Assayer.lean keeps the invariant of Laws/Ok.lean: one lemma for each operation. -/

namespace Sys2Proof.Machine

set_option linter.unusedVariables false
set_option linter.unusedSimpArgs false

theorem asyTal_ok {q : List Instr} {s : State} {i : Nat} (h : Ok q s) :
    Ok q (asyTal s i) := by
  unfold asyTal
  repeat' first
    | with_reducible assumption | with_reducible apply tallyAdd_ok

theorem srcTal_ok {q : List Instr} {s : State} {n : SourceId} {i : Nat} (h : Ok q s) :
    Ok q (srcTal s n i) := by
  unfold srcTal
  repeat' first
    | with_reducible assumption | with_reducible apply tallyAdd_ok

theorem fenceCore_ok {q : List Instr} {s : State} {g : CoreId} (h : Ok q s) :
    Ok q (fenceCore s g) := by
  unfold fenceCore
  repeat' first
    | with_reducible assumption | with_reducible apply State.setCore_ok | with_reducible apply State.setSlice_ok
    | with_reducible apply okIte | exact CoreOk.keep (Ok.core ‹Ok q _› _) rfl rfl rfl rfl rfl rfl rfl

theorem fenceCluster_ok {q : List Instr} {s : State} {gc : ClusterId} (h : Ok q s) :
    Ok q (fenceCluster s gc) := by
  unfold fenceCluster
  repeat' first
    | with_reducible assumption | with_reducible intro _ | with_reducible apply fenceCore_ok | with_reducible apply okUpTo

theorem fenceRegion_ok {q : List Instr} {s : State} {r : RegionId} (h : Ok q s) :
    Ok q (fenceRegion s r) := by
  unfold fenceRegion
  repeat' first
    | with_reducible assumption | with_reducible intro _ | with_reducible apply engKill_ok | with_reducible apply fenceCluster_ok
    | with_reducible apply okUpTo

theorem fenceUnit_ok {q : List Instr} {s : State} {n : SourceId} {u : FaultUnit} (h : Ok q s) :
    Ok q (fenceUnit s n u) := by
  unfold fenceUnit
  repeat' first
    | with_reducible assumption | with_reducible apply fenceCore_ok | with_reducible apply engKill_ok | with_reducible apply fenceCluster_ok
    | with_reducible apply fenceRegion_ok | with_reducible apply okIte | split | with_reducible simp only [↓okUpd]

theorem resetUnit_ok {q : List Instr} {s : State} {u : FaultUnit} (h : Ok q s) :
    Ok q (resetUnit s u) := by
  unfold resetUnit
  repeat' first
    | with_reducible assumption | with_reducible apply unitResetCore_ok | with_reducible apply engUnitReset_ok
    | with_reducible apply clusterReset_ok | with_reducible apply regionReset_ok | split

theorem unfence_ok {q : List Instr} {s : State} {n : SourceId} (h : Ok q s) :
    Ok q (unfence s n) := by
  unfold unfence
  repeat' first
    | with_reducible assumption | with_reducible intro _ | with_reducible apply unlockUnit_ok | with_reducible apply okFold
    | with_reducible simp only [↓okUpd]

theorem enterSafe_ok {q : List Instr} {s : State} {n : SourceId} (h : Ok q s) :
    Ok q (enterSafe s n) := by
  unfold enterSafe
  repeat' first
    | with_reducible assumption | with_reducible intro _ | with_reducible apply criStop_ok | with_reducible apply fenceRegion_ok
    | with_reducible apply okIte | with_reducible apply okUpTo | with_reducible simp only [↓okUpd]

theorem formRecord_ok {q : List Instr} {s : State} {n : SourceId} {cls : Nat} {flags : Nat} {react : Nat} {cnt : BitVec 16} {d : Word} (h : Ok q s) :
    Ok q (formRecord s n cls flags react cnt d) := by
  unfold formRecord
  repeat' first
    | with_reducible assumption | with_reducible apply asyTal_ok | with_reducible apply jFatal_ok | with_reducible apply okIte | split
    | with_reducible simp only [↓okUpd]

theorem react_ok {q : List Instr} {s : State} {n : SourceId} {cls : Nat} {flags : Nat} {mask : Nat} {cnt : BitVec 16} {d : Word} (h : Ok q s) :
    Ok q (react s n cls flags mask cnt d) := by
  unfold react
  repeat' first
    | with_reducible assumption | with_reducible apply formRecord_ok | with_reducible apply pushEvent_ok | with_reducible apply fenceUnit_ok
    | with_reducible apply resetUnit_ok | with_reducible apply enterSafe_ok | with_reducible apply okIte | split
    | with_reducible simp only [↓okUpd]

theorem closeWindow_ok {q : List Instr} {s : State} {n : SourceId} (h : Ok q s) :
    Ok q (closeWindow s n) := by
  unfold closeWindow
  repeat' first
    | with_reducible assumption | with_reducible apply State.setSrc_ok | with_reducible apply okIte

theorem countEvent_ok {q : List Instr} {s : State} {n : SourceId} (h : Ok q s) :
    Ok q (countEvent s n) := by
  unfold countEvent
  repeat' first
    | with_reducible assumption | with_reducible apply closeWindow_ok | with_reducible apply takeFree_ok
    | with_reducible apply State.setSrc_ok | with_reducible apply okIte | with_reducible apply OkP.snd

theorem realEvent_ok {q : List Instr} {s : State} {n : SourceId} {ev : FaultEv} (h : Ok q s) :
    Ok q (realEvent s n ev) := by
  unfold realEvent
  repeat' first
    | with_reducible assumption | with_reducible apply asyTal_ok | with_reducible apply srcTal_ok | with_reducible apply State.setSrc_ok
    | with_reducible apply countEvent_ok | with_reducible apply react_ok | with_reducible apply okIte

theorem injEvent_ok {q : List Instr} {s : State} {n : SourceId} {ev : FaultEv} (h : Ok q s) :
    Ok q (injEvent s n ev) := by
  unfold injEvent
  repeat' first
    | with_reducible assumption | with_reducible apply asyTal_ok | with_reducible apply srcTal_ok | with_reducible apply react_ok
    | with_reducible apply State.setSrc_ok

theorem doSourceEvent_ok {q : List Instr} {s : State} {n : SourceId} {d : Word} (h : Ok q s) :
    Ok q (doSourceEvent s n d) := by
  unfold doSourceEvent
  repeat' first
    | with_reducible assumption | with_reducible apply check_ok | with_reducible apply injEvent_ok | with_reducible apply realEvent_ok
    | with_reducible apply okIte | split | with_reducible simp only [↓okUpd]

theorem doReportPath_ok {q : List Instr} {s : State} {n : SourceId} (h : Ok q s) :
    Ok q (doReportPath s n) := by
  unfold doReportPath
  repeat' first
    | with_reducible assumption | with_reducible apply react_ok | with_reducible apply asyTal_ok | with_reducible apply State.setSrc_ok
    | with_reducible apply okIte

theorem injectCmd_ok {q : List Instr} {s : State} {ring : RingId} {idx : Word} {src : Nat} {cnt : Nat} (h : Ok q s) :
    Ok q (injectCmd s ring idx src cnt) := by
  unfold injectCmd
  repeat' first
    | with_reducible assumption | with_reducible apply completeOk_ok | with_reducible apply cmdRunning_ok | with_reducible apply okIte
    | with_reducible simp only [↓okUpd]

theorem doInjTimeout_ok {q : List Instr} {s : State} {n : SourceId} (h : Ok q s) :
    Ok q (doInjTimeout s n) := by
  unfold doInjTimeout
  repeat' first
    | with_reducible assumption | with_reducible apply completeCmd_ok | with_reducible apply okIte | split
    | with_reducible simp only [↓okUpd]

theorem doLogWrite_ok {q : List Instr} {s : State} (h : Ok q s) :
    Ok q (doLogWrite s) := by
  unfold doLogWrite
  repeat' first
    | with_reducible assumption | with_reducible apply bulkWrite_ok | with_reducible apply okIte | with_reducible apply OkP.snd | split
    | with_reducible simp only [↓okUpd]

theorem asyRead_ok {q : List Instr} {s : State} {off : Nat} (h : Ok q s) :
    OkO q (asyRead s off) := by
  unfold asyRead
  repeat' first
    | with_reducible assumption | with_reducible apply rdVal_ok | with_reducible apply rdPack_ok | with_reducible apply talRead_ok
    | with_reducible apply okIteO | with_reducible exact OkO.none | split

theorem faultCfgWrite_ok {q : List Instr} {s : State} {n : SourceId} {v : Word} (h : Ok q s) :
    Ok q (faultCfgWrite s n v) := by
  unfold faultCfgWrite
  repeat' first
    | with_reducible assumption | with_reducible apply State.setSrc_ok

theorem logCfgWrite_ok {q : List Instr} {s : State} {v : Word} (h : Ok q s) :
    OkP q (logCfgWrite s v) := by
  unfold logCfgWrite
  repeat' first
    | with_reducible assumption | with_reducible apply OkP.mk | with_reducible simp only [↓okUpd]

theorem asyWrite_ok {q : List Instr} {cm : Bool} {s : State} {off : Nat} {v : Word} (h : Ok q s) :
    OkO q (asyWrite cm s off v) := by
  unfold asyWrite
  repeat' first
    | with_reducible assumption | with_reducible apply wrOk_ok | with_reducible apply noConflict_ok | with_reducible apply logCfgWrite_ok
    | with_reducible apply unfence_ok | with_reducible apply faultCfgWrite_ok | with_reducible apply State.setSrc_ok
    | with_reducible apply okIteO | with_reducible apply OkO.some | with_reducible exact OkO.none | split
    | with_reducible simp only [↓okUpd]

theorem execFaultSourceEvent_ok {q : List Instr} {src : SourceId} {detail : Word} {s : State} (h : Ok q s) :
    OkN q (execFaultSourceEvent src detail s) := by
  unfold execFaultSourceEvent
  repeat' first
    | with_reducible assumption | with_reducible apply doSourceEvent_ok | with_reducible apply OkN.next

theorem execReportPathFault_ok {q : List Instr} {src : SourceId} {s : State} (h : Ok q s) :
    OkN q (execReportPathFault src s) := by
  unfold execReportPathFault
  repeat' first
    | with_reducible assumption | with_reducible apply doReportPath_ok | with_reducible apply OkN.next

theorem execFaultWindowClose_ok {q : List Instr} {src : SourceId} {s : State} (h : Ok q s) :
    OkN q (execFaultWindowClose src s) := by
  unfold execFaultWindowClose
  repeat' first
    | with_reducible assumption | with_reducible apply closeWindow_ok | with_reducible apply OkN.next

theorem execAsyUnfence_ok {q : List Instr} {who : Initiator} {v : Word} {s : State} (h : Ok q s) :
    OkN q (execAsyUnfence who v s) := by
  unfold execAsyUnfence
  repeat' first
    | with_reducible assumption | with_reducible intro _ | with_reducible apply regCmd_ok | with_reducible apply wrAnswer_ok
    | with_reducible apply unfence_ok | with_reducible apply OkN.next | with_reducible apply OkP.mk

theorem execFaultInjectTimeout_ok {q : List Instr} {src : SourceId} {s : State} (h : Ok q s) :
    OkN q (execFaultInjectTimeout src s) := by
  unfold execFaultInjectTimeout
  repeat' first
    | with_reducible assumption | with_reducible apply doInjTimeout_ok | with_reducible apply OkN.next

theorem execLogRecordWrite_ok {q : List Instr} {s : State} (h : Ok q s) :
    OkN q (execLogRecordWrite s) := by
  unfold execLogRecordWrite
  repeat' first
    | with_reducible assumption | with_reducible apply doLogWrite_ok | with_reducible apply OkN.next

end Sys2Proof.Machine
end

