-- ==== Sys2Proof/Laws/OkLamp.lean ====
section
/-! SUPPORT. Machine/Lamp.lean keeps the invariant of Laws/Ok.lean: one lemma for each operation. -/

namespace Sys2Proof.Machine

set_option linter.unusedVariables false
set_option linter.unusedSimpArgs false

theorem prevCode_ok {q : List Instr} {s : State} {u : PowerUnit} (h : Ok q s) :
    OkP q (prevCode s u) := by
  unfold prevCode
  repeat' first
    | with_reducible assumption | with_reducible apply takeFree_ok | with_reducible refine OkP.get ?_ ‹_ = (_, _)› | split
    | with_reducible apply OkP.mk

theorem powerRefuse_ok {q : List Instr} {s : State} {ring : RingId} {idx : Word} {ref : Nat} (h : Ok q s) :
    Ok q (powerRefuse s ring idx ref) := by
  unfold powerRefuse
  repeat' first
    | with_reducible assumption | with_reducible apply completeCmd_ok | with_reducible apply lmpTal_ok | with_reducible simp only [↓okUpd]

theorem dropHeld_ok {q : List Instr} {s : State} {f : PowerUnit → Bool} (h : Ok q s) :
    Ok q (dropHeld s f) := by
  unfold dropHeld
  repeat' first
    | with_reducible assumption | with_reducible simp only [↓okUpd]

theorem abortTx_ok {q : List Instr} {s : State} {t : PowerTx} {ref : Nat} (h : Ok q s) :
    Ok q (abortTx s t ref) := by
  unfold abortTx
  repeat' first
    | with_reducible assumption | with_reducible apply dropHeld_ok | with_reducible apply powerRefuse_ok | with_reducible apply lmpTal_ok
    | with_reducible simp only [↓okUpd]

theorem wakeAsserted_ok {q : List Instr} {s : State} (h : Ok q s) :
    OkP q (wakeAsserted s) := by
  unfold wakeAsserted
  repeat' first
    | with_reducible assumption | with_reducible intro _ | with_reducible apply takeFree_ok | with_reducible apply okIte2
    | with_reducible apply okFold2 | with_reducible refine OkP.get ?_ ‹_ = (_, _)› | with_reducible exact OkP.snd ‹OkP q (_, _)› | split
    | with_reducible apply OkP.mk

theorem sampleTemp_ok {q : List Instr} {s : State} {d : Nat} (h : Ok q s) :
    Ok q (sampleTemp s d) := by
  unfold sampleTemp
  repeat' first
    | with_reducible assumption | with_reducible apply takeFree_ok | with_reducible refine OkP.get ?_ ‹_ = (_, _)› | split
    | with_reducible simp only [↓okUpd]

theorem thermalCheck_ok {q : List Instr} {s : State} {u : PowerUnit} {deep : Bool} (h : Ok q s) :
    OkP q (thermalCheck s u deep) := by
  unfold thermalCheck
  repeat' first
    | with_reducible assumption | with_reducible intro _ | with_reducible apply sampleTemp_ok | with_reducible apply okIte
    | with_reducible apply okIte2 | with_reducible apply okFold | with_reducible apply OkP.snd | split | with_reducible apply OkP.mk

theorem prepare_ok {q : List Instr} {s : State} {ring : RingId} {idx : Word} {u : PowerUnit} {st : BitVec 8} (h : Ok q s) :
    Ok q (prepare s ring idx u st) := by
  unfold prepare
  repeat' first
    | with_reducible assumption | with_reducible apply cmdRunning_ok | with_reducible simp only [↓okUpd]

theorem powerLower_ok {q : List Instr} {s : State} {ring : RingId} {idx : Word} {u : PowerUnit} {st : BitVec 8} (h : Ok q s) :
    Ok q (powerLower s ring idx u st) := by
  unfold powerLower
  repeat' first
    | with_reducible assumption | with_reducible apply wakeAsserted_ok | with_reducible apply powerRefuse_ok
    | with_reducible apply thermalCheck_ok | with_reducible apply completeCmd_ok | with_reducible apply lmpTal_ok
    | with_reducible apply prepare_ok | with_reducible apply okIte2 | with_reducible refine OkP.get ?_ ‹_ = (_, _)› | split
    | with_reducible apply OkP.mk

theorem powerRaise_ok {q : List Instr} {s : State} {ring : RingId} {idx : Word} {u : PowerUnit} {st : BitVec 8} (h : Ok q s) :
    Ok q (powerRaise s ring idx u st) := by
  unfold powerRaise
  repeat' first
    | with_reducible assumption | with_reducible apply prevCode_ok | with_reducible apply cmdRunning_ok
    | with_reducible apply startWakeTo_ok | with_reducible apply OkP.snd

theorem powerCmd_ok {q : List Instr} {s : State} {ring : RingId} {idx : Word} {d : Block64} (h : Ok q s) :
    Ok q (powerCmd s ring idx d) := by
  unfold powerCmd
  repeat' first
    | with_reducible assumption | with_reducible apply completeOk_ok | with_reducible apply completeCmd_ok
    | with_reducible apply powerRefuse_ok | with_reducible apply powerRaise_ok | with_reducible apply powerLower_ok
    | with_reducible apply okIte | split | with_reducible simp only [↓okUpd]

theorem doPowerState_ok {q : List Instr} {s : State} {ring : RingId} {idx : Word} {st : Nat} (h : Ok q s) :
    Ok q (doPowerState s ring idx st) := by
  unfold doPowerState
  repeat' first
    | with_reducible assumption | with_reducible intro _ | with_reducible apply runCmd_ok | with_reducible apply powerCmd_ok
    | with_reducible apply okIte

theorem doPrepareAnswer_ok {q : List Instr} {s : State} {m : Member} (h : Ok q s) :
    Ok q (doPrepareAnswer s m) := by
  unfold doPrepareAnswer
  repeat' first
    | with_reducible assumption | with_reducible apply abortTx_ok | with_reducible apply okIte | split | with_reducible simp only [↓okUpd]

theorem doPrepareTimeout_ok {q : List Instr} {s : State} (h : Ok q s) :
    Ok q (doPrepareTimeout s) := by
  unfold doPrepareTimeout
  repeat' first
    | with_reducible assumption | with_reducible apply abortTx_ok | with_reducible apply okIte | split

theorem regionDown_ok {q : List Instr} {s : State} {r : RegionId} (h : Ok q s) :
    Ok q (regionDown s r) := by
  unfold regionDown
  repeat' first
    | with_reducible assumption | with_reducible apply State.setRegion_ok

theorem regionsDown_ok {q : List Instr} {s : State} (h : Ok q s) :
    Ok q (regionsDown s) := by
  unfold regionsDown
  repeat' first
    | with_reducible assumption | with_reducible intro _ | with_reducible apply regionDown_ok | with_reducible apply okIte
    | with_reducible apply okUpTo

theorem packageDown_ok {q : List Instr} {s : State} {deep : Bool} (h : Ok q s) :
    Ok q (packageDown s deep) := by
  unfold packageDown
  repeat' first
    | with_reducible assumption | with_reducible apply regionsDown_ok | with_reducible apply okIte | split
    | with_reducible simp only [↓okUpd]

theorem gateUnit_ok {q : List Instr} {s : State} {u : PowerUnit} {st : BitVec 8} (h : Ok q s) :
    Ok q (gateUnit s u st) := by
  unfold gateUnit
  repeat' first
    | with_reducible assumption | with_reducible apply packageDown_ok | with_reducible apply regionDown_ok
    | with_reducible apply setClusterPower_ok | split

theorem wakeHeld_ok {q : List Instr} {s : State} (h : Ok q s) :
    Ok q (wakeHeld s) := by
  unfold wakeHeld
  repeat' first
    | with_reducible assumption | with_reducible intro _ | with_reducible apply startWake_ok | with_reducible apply okIte
    | with_reducible apply okFold

theorem finishEntry_ok {q : List Instr} {s : State} {t : PowerTx} (h : Ok q s) :
    Ok q (finishEntry s t) := by
  unfold finishEntry
  repeat' first
    | with_reducible assumption | with_reducible apply gateUnit_ok | with_reducible apply wakeHeld_ok | with_reducible apply lmpTal_ok
    | with_reducible simp only [↓okUpd]

theorem doDrain_ok {q : List Instr} {s : State} (h : Ok q s) :
    Ok q (doDrain s) := by
  unfold doDrain
  repeat' first
    | with_reducible assumption | with_reducible apply prevCode_ok | with_reducible apply completeCmd_ok
    | with_reducible apply finishEntry_ok | with_reducible apply okIte | with_reducible apply OkP.snd | split

theorem linkTrain_ok {q : List Instr} {s : State} (h : Ok q s) :
    Ok q (linkTrain s) := by
  unfold linkTrain
  repeat' first
    | with_reducible assumption | with_reducible apply takeFree_ok | with_reducible apply okIte
    | with_reducible refine OkP.get ?_ ‹_ = (_, _)› | split | with_reducible simp only [↓okUpd]

theorem lateTimers_ok {q : List Instr} {s : State} (h : Ok q s) :
    Ok q (lateTimers s) := by
  unfold lateTimers
  repeat' first
    | with_reducible assumption | with_reducible intro _ | with_reducible apply State.setTmr_ok | with_reducible apply okIte
    | with_reducible apply okUpTo

theorem deepWake_ok {q : List Instr} {s : State} (h : Ok q s) :
    Ok q (deepWake s) := by
  unfold deepWake
  repeat' first
    | with_reducible assumption | with_reducible apply linkTrain_ok | with_reducible apply enterState_ok
    | with_reducible apply lateTimers_ok | split | with_reducible simp only [↓okUpd]

theorem wakeDone_ok {q : List Instr} {s : State} {w : WakeTx} (h : Ok q s) :
    Ok q (wakeDone s w) := by
  unfold wakeDone
  repeat' first
    | with_reducible assumption | with_reducible apply finishWake_ok | with_reducible apply doorbellsRun_ok
    | with_reducible apply deepWake_ok | with_reducible apply okIte

theorem setWake_ok {q : List Instr} {s : State} {w : WakeTx} (h : Ok q s) :
    Ok q (setWake s w) := by
  unfold setWake
  repeat' first
    | with_reducible assumption | with_reducible simp only [↓okUpd]

theorem doStepReady_ok {q : List Instr} {s : State} {u : PowerUnit} (h : Ok q s) :
    Ok q (doStepReady s u) := by
  unfold doStepReady
  repeat' first
    | with_reducible assumption | with_reducible apply setWake_ok | with_reducible apply wakeDone_ok | split

theorem packageFailed_ok {q : List Instr} {s : State} (h : Ok q s) :
    Ok q (packageFailed s) := by
  unfold packageFailed
  repeat' first
    | with_reducible assumption | with_reducible simp only [↓okUpd]

theorem doStepTimeout_ok {q : List Instr} {s : State} {u : PowerUnit} (h : Ok q s) :
    Ok q (doStepTimeout s u) := by
  unfold doStepTimeout
  repeat' first
    | with_reducible assumption | with_reducible apply lmpTal_ok | with_reducible apply setWake_ok | with_reducible apply failWake_ok
    | with_reducible apply packageFailed_ok | with_reducible apply okIte | split

theorem packageWake_ok {q : List Instr} {s : State} {src : BitVec 8} {id : Nat} (h : Ok q s) :
    Ok q (packageWake s src id) := by
  unfold packageWake
  repeat' first
    | with_reducible assumption | with_reducible apply abortTx_ok | with_reducible apply startWake_ok | with_reducible apply okIte | split

theorem doWakePin_ok {q : List Instr} {s : State} {i : BitVec 2} (h : Ok q s) :
    Ok q (doWakePin s i) := by
  unfold doWakePin
  repeat' first
    | with_reducible assumption | with_reducible apply packageWake_ok | with_reducible apply okIte

theorem doPrediction_ok {q : List Instr} {s : State} {r : RegionId} (h : Ok q s) :
    Ok q (doPrediction s r) := by
  unfold doPrediction
  repeat' first
    | with_reducible assumption | with_reducible apply sampleTemp_ok | with_reducible apply startWake_ok | with_reducible apply okIte

theorem doBrownOut_ok {q : List Instr} {s : State} {r : RegionId} (h : Ok q s) :
    Ok q (doBrownOut s r) := by
  unfold doBrownOut
  repeat' first
    | with_reducible assumption | with_reducible apply report_ok | with_reducible apply lmpTal_ok | with_reducible apply State.setRegion_ok
    | with_reducible apply okIte

theorem lowerRecord_ok {q : List Instr} {s : State} {u : PowerUnit} {lv : Nat} (h : Ok q s) :
    Ok q (lowerRecord s u lv) := by
  unfold lowerRecord
  repeat' first
    | with_reducible assumption | with_reducible apply packageDown_ok | with_reducible apply regionDown_ok
    | with_reducible apply State.setRegion_ok | with_reducible apply setClusterPower_ok | with_reducible apply okIte | split

theorem doReconcile_ok {q : List Instr} {s : State} {u : PowerUnit} {c : BitVec 2} (h : Ok q s) :
    Ok q (doReconcile s u c) := by
  unfold doReconcile
  repeat' first
    | with_reducible assumption | with_reducible apply lowerRecord_ok | with_reducible apply report_ok | with_reducible apply lmpTal_ok
    | with_reducible apply okIte

theorem opWrite_ok {q : List Instr} {s : State} {r : RegionId} {v : Word} (h : Ok q s) :
    OkP q (opWrite s r v) := by
  unfold opWrite
  repeat' first
    | with_reducible assumption | with_reducible apply State.setRegion_ok | with_reducible apply okIte2 | split
    | with_reducible apply OkP.mk

theorem doOpDone_ok {q : List Instr} {s : State} {r : RegionId} (h : Ok q s) :
    Ok q (doOpDone s r) := by
  unfold doOpDone
  repeat' first
    | with_reducible assumption | with_reducible apply State.setRegion_ok | with_reducible apply okIte

theorem regionEnable_ok {q : List Instr} {s : State} {r : RegionId} (h : Ok q s) :
    OkP q (regionEnable s r) := by
  unfold regionEnable
  repeat' first
    | with_reducible assumption | with_reducible apply unlockUnit_ok | with_reducible apply regionReset_ok
    | with_reducible apply State.setRegion_ok | with_reducible apply okIte2 | with_reducible apply OkP.mk

theorem lmpRead_ok {q : List Instr} {s : State} {off : Nat} (h : Ok q s) :
    OkO q (lmpRead s off) := by
  unfold lmpRead
  repeat' first
    | with_reducible assumption | with_reducible apply rdVal_ok | with_reducible apply rdPack_ok | with_reducible apply sampleTemp_ok
    | with_reducible apply talRead_ok | with_reducible apply okIteO | with_reducible apply OkO.some | with_reducible exact OkO.none
    | with_reducible apply OkP.mk

theorem lmpWrite_ok {q : List Instr} {s : State} {off : Nat} {v : Word} (h : Ok q s) :
    OkO q (lmpWrite s off v) := by
  unfold lmpWrite
  repeat' first
    | with_reducible assumption | with_reducible apply wrOk_ok | with_reducible apply okIteO | with_reducible exact OkO.none
    | with_reducible simp only [↓okUpd]

theorem agentRead_ok {q : List Instr} {s : State} {r : RegionId} {off : Nat} (h : Ok q s) :
    OkO q (agentRead s r off) := by
  unfold agentRead
  repeat' first
    | with_reducible assumption | with_reducible apply rdVal_ok | with_reducible apply rdPack_ok | with_reducible apply okIteO
    | with_reducible exact OkO.none

theorem agentWrite_ok {q : List Instr} {s : State} {r : RegionId} {off : Nat} {v : Word} (h : Ok q s) :
    OkO q (agentWrite s r off v) := by
  unfold agentWrite
  repeat' first
    | with_reducible assumption | with_reducible apply wrNo_ok | with_reducible apply wrOk_ok | with_reducible apply State.setRegion_ok
    | with_reducible apply opWrite_ok | with_reducible apply regionEnable_ok | with_reducible apply okIteO | with_reducible apply OkO.some
    | with_reducible exact OkO.none

theorem ringWrite_ok {q : List Instr} {s : State} {fn : BitVec 6} {off : BitVec 17} {size : Nat} {v : BitVec 64} (h : Ok q s) :
    Ok q (ringWrite s fn off size v) := by
  unfold ringWrite
  repeat' first
    | with_reducible assumption | with_reducible apply hifCount_ok | with_reducible apply ringDoorbell_ok
    | with_reducible apply startWake_ok | with_reducible apply packageWake_ok | with_reducible apply okIte
    | with_reducible simp only [↓okUpd]

theorem vfMsixWrite_ok {q : List Instr} {s : State} {fn : BitVec 6} {o : Nat} {size : Nat} {v : BitVec 64} (h : Ok q s) :
    Ok q (vfMsixWrite s fn o size v) := by
  unfold vfMsixWrite
  repeat' first
    | with_reducible assumption | with_reducible apply msixTableWrite_ok | with_reducible apply hifCount_ok | with_reducible apply okIte

theorem doDoorbell_ok {q : List Instr} {s : State} {fn : BitVec 6} {off : BitVec 17} {size : Nat} {v : BitVec 64} (h : Ok q s) :
    Ok q (doDoorbell s fn off size v) := by
  unfold doDoorbell
  repeat' first
    | with_reducible assumption | with_reducible apply hifCount_ok | with_reducible apply ringWrite_ok | with_reducible apply vfMsixWrite_ok
    | with_reducible apply okIte

theorem execPowerStateWake_ok {q : List Instr} {ring : RingId} {idx : Word} {s : State} (h : Ok q s) :
    OkN q (execPowerStateWake ring idx s) := by
  unfold execPowerStateWake
  repeat' first
    | with_reducible assumption | with_reducible apply doPowerState_ok | with_reducible apply OkN.next

theorem execPowerStateNap_ok {q : List Instr} {ring : RingId} {idx : Word} {s : State} (h : Ok q s) :
    OkN q (execPowerStateNap ring idx s) := by
  unfold execPowerStateNap
  repeat' first
    | with_reducible assumption | with_reducible apply doPowerState_ok | with_reducible apply OkN.next

theorem execPowerStateRetain_ok {q : List Instr} {ring : RingId} {idx : Word} {s : State} (h : Ok q s) :
    OkN q (execPowerStateRetain ring idx s) := by
  unfold execPowerStateRetain
  repeat' first
    | with_reducible assumption | with_reducible apply doPowerState_ok | with_reducible apply OkN.next

theorem execPowerStateStandby_ok {q : List Instr} {ring : RingId} {idx : Word} {s : State} (h : Ok q s) :
    OkN q (execPowerStateStandby ring idx s) := by
  unfold execPowerStateStandby
  repeat' first
    | with_reducible assumption | with_reducible apply doPowerState_ok | with_reducible apply OkN.next

theorem execPowerStateDeep_ok {q : List Instr} {ring : RingId} {idx : Word} {s : State} (h : Ok q s) :
    OkN q (execPowerStateDeep ring idx s) := by
  unfold execPowerStateDeep
  repeat' first
    | with_reducible assumption | with_reducible apply doPowerState_ok | with_reducible apply OkN.next

theorem execPrepareAnswer_ok {q : List Instr} {m : Member} {s : State} (h : Ok q s) :
    OkN q (execPrepareAnswer m s) := by
  unfold execPrepareAnswer
  repeat' first
    | with_reducible assumption | with_reducible apply doPrepareAnswer_ok | with_reducible apply OkN.next

theorem execPrepareTimeout_ok {q : List Instr} {s : State} (h : Ok q s) :
    OkN q (execPrepareTimeout s) := by
  unfold execPrepareTimeout
  repeat' first
    | with_reducible assumption | with_reducible apply doPrepareTimeout_ok | with_reducible apply OkN.next

theorem execEntryDrainComplete_ok {q : List Instr} {s : State} (h : Ok q s) :
    OkN q (execEntryDrainComplete s) := by
  unfold execEntryDrainComplete
  repeat' first
    | with_reducible assumption | with_reducible apply doDrain_ok | with_reducible apply OkN.next

theorem execWakePin_ok {q : List Instr} {i : BitVec 2} {s : State} (h : Ok q s) :
    OkN q (execWakePin i s) := by
  unfold execWakePin
  repeat' first
    | with_reducible assumption | with_reducible apply doWakePin_ok | with_reducible apply OkN.next

theorem execWakeStepReady_ok {q : List Instr} {u : PowerUnit} {s : State} (h : Ok q s) :
    OkN q (execWakeStepReady u s) := by
  unfold execWakeStepReady
  repeat' first
    | with_reducible assumption | with_reducible apply doStepReady_ok | with_reducible apply OkN.next

theorem execWakeStepTimeout_ok {q : List Instr} {u : PowerUnit} {s : State} (h : Ok q s) :
    OkN q (execWakeStepTimeout u s) := by
  unfold execWakeStepTimeout
  repeat' first
    | with_reducible assumption | with_reducible apply doStepTimeout_ok | with_reducible apply OkN.next

theorem execThermalPrediction_ok {q : List Instr} {r : RegionId} {s : State} (h : Ok q s) :
    OkN q (execThermalPrediction r s) := by
  unfold execThermalPrediction
  repeat' first
    | with_reducible assumption | with_reducible apply doPrediction_ok | with_reducible apply OkN.next

theorem execBrownOut_ok {q : List Instr} {r : RegionId} {s : State} (h : Ok q s) :
    OkN q (execBrownOut r s) := by
  unfold execBrownOut
  repeat' first
    | with_reducible assumption | with_reducible apply doBrownOut_ok | with_reducible apply OkN.next

theorem execReconciliation_ok {q : List Instr} {u : PowerUnit} {reported : BitVec 2} {s : State} (h : Ok q s) :
    OkN q (execReconciliation u reported s) := by
  unfold execReconciliation
  repeat' first
    | with_reducible assumption | with_reducible apply doReconcile_ok | with_reducible apply OkN.next

theorem execOperatingPointRequest_ok {q : List Instr} {who : Initiator} {r : RegionId} {v : Word} {s : State} (h : Ok q s) :
    OkN q (execOperatingPointRequest who r v s) := by
  unfold execOperatingPointRequest
  repeat' first
    | with_reducible assumption | with_reducible intro _ | with_reducible apply regCmd_ok | with_reducible apply wrAnswer_ok
    | with_reducible apply opWrite_ok | with_reducible apply OkN.next

theorem execOperatingPointDone_ok {q : List Instr} {r : RegionId} {s : State} (h : Ok q s) :
    OkN q (execOperatingPointDone r s) := by
  unfold execOperatingPointDone
  repeat' first
    | with_reducible assumption | with_reducible apply doOpDone_ok | with_reducible apply OkN.next

theorem execRegionEnable_ok {q : List Instr} {who : Initiator} {r : RegionId} {s : State} (h : Ok q s) :
    OkN q (execRegionEnable who r s) := by
  unfold execRegionEnable
  repeat' first
    | with_reducible assumption | with_reducible intro _ | with_reducible apply regCmd_ok | with_reducible apply wrAnswer_ok
    | with_reducible apply regionEnable_ok | with_reducible apply OkN.next

theorem execDoorbell_ok {q : List Instr} {fn : BitVec 6} {off : BitVec 17} {size : Nat} {v : BitVec 64} {s : State} (h : Ok q s) :
    OkN q (execDoorbell fn off size v s) := by
  unfold execDoorbell
  repeat' first
    | with_reducible assumption | with_reducible apply doDoorbell_ok | with_reducible apply OkN.next

end Sys2Proof.Machine
end

