-- ==== Sys2Proof/Laws/OkBoot.lean ====
section
/-! SUPPORT. Machine/Boot.lean keeps the invariant of Laws/Ok.lean: one lemma for each operation. -/

namespace Sys2Proof.Machine

set_option linter.unusedVariables false
set_option linter.unusedSimpArgs false

theorem packageReset_ok {q : List Instr} {s : State} {m : Mgc} (h : Ok q s) : Ok q (packageReset s m) :=
  by
  have ht : State.reset.timeOk := by unfold State.timeOk; decide
  exact ⟨h.queue, ⟨rfl, h.mem.2⟩, ht, fun _ => CoreOk.reset⟩

theorem doPorst_ok {q : List Instr} {s : State} (h : Ok q s) :
    Ok q (doPorst s) := by
  unfold doPorst
  repeat' first
    | with_reducible assumption | with_reducible apply packageReset_ok

theorem doPorstRelease_ok {q : List Instr} {s : State} {role : Bool} {pkg : PkgId} {src : BitVec 2} (h : Ok q s) :
    Ok q (doPorstRelease s role pkg src) := by
  unfold doPorstRelease
  repeat' first
    | with_reducible assumption | with_reducible apply okIte | with_reducible simp only [↓okUpd]

theorem doOvercurrent_ok {q : List Instr} {s : State} (h : Ok q s) :
    Ok q (doOvercurrent s) := by
  unfold doOvercurrent
  repeat' first
    | with_reducible assumption | with_reducible apply packageReset_ok | with_reducible apply okIte | with_reducible simp only [↓okUpd]

theorem bootNext_ok {q : List Instr} {s : State} (h : Ok q s) :
    Ok q (bootNext s) := by
  unfold bootNext
  repeat' first
    | with_reducible assumption | with_reducible simp only [↓okUpd]

theorem bootFail_ok {q : List Instr} {s : State} {code : BitVec 4} (h : Ok q s) :
    Ok q (bootFail s code) := by
  unfold bootFail
  repeat' first
    | with_reducible assumption | with_reducible apply report_ok | with_reducible simp only [↓okUpd]

theorem doBootTimeout_ok {q : List Instr} {s : State} (h : Ok q s) :
    Ok q (doBootTimeout s) := by
  unfold doBootTimeout
  repeat' first
    | with_reducible assumption | with_reducible apply lmpTal_ok | with_reducible apply bootFail_ok | with_reducible apply okIte | split
    | with_reducible simp only [↓okUpd]

theorem loadFuses_ok {q : List Instr} {s : State} {f : FuseMap} (h : Ok q s) :
    Ok q (loadFuses s f) := by
  unfold loadFuses
  repeat' first
    | with_reducible assumption | with_reducible simp only [↓okUpd]

theorem bootInits_ok {q : List Instr} {s : State} (h : Ok q s) :
    Ok q (bootInits s) := by
  unfold bootInits
  repeat' first
    | with_reducible assumption | with_reducible simp only [↓okUpd]

theorem bootInitsDone_ok {q : List Instr} {s : State} (h : Ok q s) :
    Ok q (bootInitsDone s) := by
  unfold bootInitsDone
  repeat' first
    | with_reducible assumption | with_reducible simp only [↓okUpd]

theorem imgPlace_ok {q : List Instr} {s : State} {d : List Byte} (h : Ok q s) :
    Ok q (imgPlace s d) := by
  unfold imgPlace
  repeat' first
    | with_reducible assumption | with_reducible apply bulkWrite_ok | with_reducible apply OkP.snd

theorem imgStart_ok {q : List Instr} {s : State} {d : List Byte} (h : Ok q s) :
    Ok q (imgStart s d) := by
  unfold imgStart
  repeat' first
    | with_reducible assumption | with_reducible apply bootNext_ok | with_reducible simp only [↓okUpd]

theorem qspiLoad_ok {q : List Instr} {s : State} {main : Option (List Byte)} {alt : Option (List Byte)} (h : Ok q s) :
    Ok q (qspiLoad s main alt) := by
  unfold qspiLoad
  repeat' first
    | with_reducible assumption | with_reducible apply bootFail_ok | with_reducible apply imgPlace_ok | with_reducible apply imgStart_ok
    | with_reducible apply okIte | split | with_reducible simp only [↓okUpd]

theorem doMailbox_ok {q : List Instr} {s : State} (h : Ok q s) :
    Ok q (doMailbox s) := by
  unfold doMailbox
  repeat' first
    | with_reducible assumption | with_reducible apply bulkRead_ok | with_reducible apply bootFail_ok | with_reducible apply imgStart_ok
    | with_reducible apply bulkWrite_ok | with_reducible apply okIte | with_reducible apply okIte2
    | with_reducible refine OkP.get ?_ ‹_ = (_, _)› | with_reducible apply OkP.snd | split | with_reducible apply OkP.mk
    | with_reducible simp only [↓okUpd]

theorem bootLoad_ok {q : List Instr} {s : State} (h : Ok q s) :
    Ok q (bootLoad s) := by
  unfold bootLoad
  repeat' first
    | with_reducible assumption | with_reducible apply bootNext_ok | with_reducible apply bootFail_ok | with_reducible apply okIte

theorem bootDone_ok {q : List Instr} {s : State} (h : Ok q s) :
    Ok q (bootDone s) := by
  unfold bootDone
  repeat' first
    | with_reducible assumption | with_reducible simp only [↓okUpd]

theorem bootReady_ok {q : List Instr} {s : State} (h : Ok q s) :
    Ok q (bootReady s) := by
  unfold bootReady
  repeat' first
    | with_reducible assumption | with_reducible apply bootNext_ok | with_reducible apply linkTrain_ok
    | with_reducible apply bootInitsDone_ok | with_reducible apply bootLoad_ok | with_reducible apply scvReplay_ok
    | with_reducible apply bootDone_ok | split

theorem doBootStep_ok {q : List Instr} {s : State} {i : BootInput} (h : Ok q s) :
    Ok q (doBootStep s i) := by
  unfold doBootStep
  repeat' first
    | with_reducible assumption | with_reducible apply bootReady_ok | with_reducible apply bootNext_ok | with_reducible apply bootInits_ok
    | with_reducible apply loadFuses_ok | with_reducible apply qspiLoad_ok | with_reducible apply bootFail_ok | with_reducible apply okIte
    | split

theorem doPerst_ok {q : List Instr} {s : State} (h : Ok q s) :
    Ok q (doPerst s) := by
  unfold doPerst
  repeat' first
    | with_reducible assumption | with_reducible apply flr_ok | split | with_reducible simp only [↓okUpd]

theorem doPerstRelease_ok {q : List Instr} {s : State} (h : Ok q s) :
    Ok q (doPerstRelease s) := by
  unfold doPerstRelease
  repeat' first
    | with_reducible assumption | with_reducible apply linkTrain_ok | with_reducible apply okIte | with_reducible simp only [↓okUpd]

theorem doThermtrip_ok {q : List Instr} {s : State} {die : BitVec 3} {sensor : BitVec 3} {temp : BitVec 16} (h : Ok q s) :
    Ok q (doThermtrip s die sensor temp) := by
  unfold doThermtrip
  repeat' first
    | with_reducible assumption | with_reducible apply report_ok | with_reducible apply okIte | with_reducible simp only [↓okUpd]

theorem execPorstNAssert_ok {q : List Instr} {_role : Bool} {_pkg : PkgId} {_src : BitVec 2} {s : State} (h : Ok q s) :
    OkN q (execPorstNAssert _role _pkg _src s) := by
  unfold execPorstNAssert
  repeat' first
    | with_reducible assumption | with_reducible apply doPorst_ok | with_reducible apply OkN.next

theorem execPorstNRelease_ok {q : List Instr} {role : Bool} {pkg : PkgId} {src : BitVec 2} {s : State} (h : Ok q s) :
    OkN q (execPorstNRelease role pkg src s) := by
  unfold execPorstNRelease
  repeat' first
    | with_reducible assumption | with_reducible apply doPorstRelease_ok | with_reducible apply OkN.next

theorem execBootStepComplete_ok {q : List Instr} {i : BootInput} {s : State} (h : Ok q s) :
    OkN q (execBootStepComplete i s) := by
  unfold execBootStepComplete
  repeat' first
    | with_reducible assumption | with_reducible apply doBootStep_ok | with_reducible apply OkN.next

theorem execBootStepTimeout_ok {q : List Instr} {s : State} (h : Ok q s) :
    OkN q (execBootStepTimeout s) := by
  unfold execBootStepTimeout
  repeat' first
    | with_reducible assumption | with_reducible apply doBootTimeout_ok | with_reducible apply OkN.next

theorem execLoadMailboxDetect_ok {q : List Instr} {s : State} (h : Ok q s) :
    OkN q (execLoadMailboxDetect s) := by
  unfold execLoadMailboxDetect
  repeat' first
    | with_reducible assumption | with_reducible apply doMailbox_ok | with_reducible apply OkN.next

theorem execPerstNAssert_ok {q : List Instr} {s : State} (h : Ok q s) :
    OkN q (execPerstNAssert s) := by
  unfold execPerstNAssert
  repeat' first
    | with_reducible assumption | with_reducible apply doPerst_ok | with_reducible apply OkN.next

theorem execPerstNRelease_ok {q : List Instr} {s : State} (h : Ok q s) :
    OkN q (execPerstNRelease s) := by
  unfold execPerstNRelease
  repeat' first
    | with_reducible assumption | with_reducible apply doPerstRelease_ok | with_reducible apply OkN.next

theorem execAonOvercurrent_ok {q : List Instr} {s : State} (h : Ok q s) :
    OkN q (execAonOvercurrent s) := by
  unfold execAonOvercurrent
  repeat' first
    | with_reducible assumption | with_reducible apply doOvercurrent_ok | with_reducible apply OkN.next

theorem execThermtrip_ok {q : List Instr} {die : BitVec 3} {sensor : BitVec 3} {temp : BitVec 16} {s : State} (h : Ok q s) :
    OkN q (execThermtrip die sensor temp s) := by
  unfold execThermtrip
  repeat' first
    | with_reducible assumption | with_reducible apply doThermtrip_ok | with_reducible apply OkN.next

end Sys2Proof.Machine
end

