-- ==== Sys2Proof/Laws/OkCoreCmds.lean ====
section
/-! SUPPORT. Machine/CoreCmds.lean keeps the invariant of Laws/Ok.lean: one lemma for each operation. -/

namespace Sys2Proof.Machine

set_option linter.unusedVariables false
set_option linter.unusedSimpArgs false

theorem execLdh_ok {q : List Instr} {g : CoreId} {sl : LsSlot} {a : MemArgs} {m : Bundle} {s : State} (h : Ok q s) :
    OkN q (execLdh g sl a m s) := by
  unfold execLdh
  repeat' first
    | with_reducible assumption | with_reducible apply runBundle_ok | with_reducible apply OkN.next

theorem execLdw_ok {q : List Instr} {g : CoreId} {sl : LsSlot} {a : MemArgs} {m : Bundle} {s : State} (h : Ok q s) :
    OkN q (execLdw g sl a m s) := by
  unfold execLdw
  repeat' first
    | with_reducible assumption | with_reducible apply runBundle_ok | with_reducible apply OkN.next

theorem execSth_ok {q : List Instr} {g : CoreId} {sl : LsSlot} {a : MemArgs} {m : Bundle} {s : State} (h : Ok q s) :
    OkN q (execSth g sl a m s) := by
  unfold execSth
  repeat' first
    | with_reducible assumption | with_reducible apply runBundle_ok | with_reducible apply OkN.next

theorem execStw_ok {q : List Instr} {g : CoreId} {sl : LsSlot} {a : MemArgs} {m : Bundle} {s : State} (h : Ok q s) :
    OkN q (execStw g sl a m s) := by
  unfold execStw
  repeat' first
    | with_reducible assumption | with_reducible apply runBundle_ok | with_reducible apply OkN.next

theorem execVld_ok {q : List Instr} {g : CoreId} {sl : LsSlot} {a : MemArgs} {m : Bundle} {s : State} (h : Ok q s) :
    OkN q (execVld g sl a m s) := by
  unfold execVld
  repeat' first
    | with_reducible assumption | with_reducible apply runBundle_ok | with_reducible apply OkN.next

theorem execVldu_ok {q : List Instr} {g : CoreId} {sl : LsSlot} {a : MemArgs} {m : Bundle} {s : State} (h : Ok q s) :
    OkN q (execVldu g sl a m s) := by
  unfold execVldu
  repeat' first
    | with_reducible assumption | with_reducible apply runBundle_ok | with_reducible apply OkN.next

theorem execVst_ok {q : List Instr} {g : CoreId} {sl : LsSlot} {a : MemArgs} {m : Bundle} {s : State} (h : Ok q s) :
    OkN q (execVst g sl a m s) := by
  unfold execVst
  repeat' first
    | with_reducible assumption | with_reducible apply runBundle_ok | with_reducible apply OkN.next

theorem execQenq_ok {q : List Instr} {g : CoreId} {sl : LsSlot} {a : MemArgs} {m : Bundle} {s : State} (h : Ok q s) :
    OkN q (execQenq g sl a m s) := by
  unfold execQenq
  repeat' first
    | with_reducible assumption | with_reducible apply runBundle_ok | with_reducible apply OkN.next

theorem execQdeq_ok {q : List Instr} {g : CoreId} {sl : LsSlot} {a : MemArgs} {m : Bundle} {s : State} (h : Ok q s) :
    OkN q (execQdeq g sl a m s) := by
  unfold execQdeq
  repeat' first
    | with_reducible assumption | with_reducible apply runBundle_ok | with_reducible apply OkN.next

theorem execVsta_ok {q : List Instr} {g : CoreId} {sl : LsSlot} {a : VaArgs} {m : Bundle} {s : State} (h : Ok q s) :
    OkN q (execVsta g sl a m s) := by
  unfold execVsta
  repeat' first
    | with_reducible assumption | with_reducible apply runBundle_ok | with_reducible apply OkN.next

theorem execAdda_ok {q : List Instr} {g : CoreId} {sl : LsSlot} {an : BitVec 4} {arg : AddaArg} {m : Bundle} {s : State} (h : Ok q s) :
    OkN q (execAdda g sl an arg m s) := by
  unfold execAdda
  repeat' first
    | with_reducible assumption | with_reducible apply runBundle_ok | with_reducible apply OkN.next

theorem execMova_ok {q : List Instr} {g : CoreId} {sl : LsSlot} {an : BitVec 4} {sa : BitVec 5} {m : Bundle} {s : State} (h : Ok q s) :
    OkN q (execMova g sl an sa m s) := by
  unfold execMova
  repeat' first
    | with_reducible assumption | with_reducible apply runBundle_ok | with_reducible apply OkN.next

theorem execMovn_ok {q : List Instr} {g : CoreId} {sl : LsSlot} {nm : BitVec 4} {sa : BitVec 5} {m : Bundle} {s : State} (h : Ok q s) :
    OkN q (execMovn g sl nm sa m s) := by
  unfold execMovn
  repeat' first
    | with_reducible assumption | with_reducible apply runBundle_ok | with_reducible apply OkN.next

theorem execMovas_ok {q : List Instr} {g : CoreId} {sl : LsSlot} {sd : BitVec 5} {an : BitVec 4} {m : Bundle} {s : State} (h : Ok q s) :
    OkN q (execMovas g sl sd an m s) := by
  unfold execMovas
  repeat' first
    | with_reducible assumption | with_reducible apply runBundle_ok | with_reducible apply OkN.next

theorem execCmac_ok {q : List Instr} {g : CoreId} {acd : BitVec 3} {va : BitVec 5} {vb : BitVec 5} {m : Bundle} {s : State} (h : Ok q s) :
    OkN q (execCmac g acd va vb m s) := by
  unfold execCmac
  repeat' first
    | with_reducible assumption | with_reducible apply runBundle_ok | with_reducible apply OkN.next

theorem execCmacj_ok {q : List Instr} {g : CoreId} {acd : BitVec 3} {va : BitVec 5} {vb : BitVec 5} {m : Bundle} {s : State} (h : Ok q s) :
    OkN q (execCmacj g acd va vb m s) := by
  unfold execCmacj
  repeat' first
    | with_reducible assumption | with_reducible apply runBundle_ok | with_reducible apply OkN.next

theorem execCmsb_ok {q : List Instr} {g : CoreId} {acd : BitVec 3} {va : BitVec 5} {vb : BitVec 5} {m : Bundle} {s : State} (h : Ok q s) :
    OkN q (execCmsb g acd va vb m s) := by
  unfold execCmsb
  repeat' first
    | with_reducible assumption | with_reducible apply runBundle_ok | with_reducible apply OkN.next

theorem execCmul_ok {q : List Instr} {g : CoreId} {acd : BitVec 3} {va : BitVec 5} {vb : BitVec 5} {m : Bundle} {s : State} (h : Ok q s) :
    OkN q (execCmul g acd va vb m s) := by
  unfold execCmul
  repeat' first
    | with_reducible assumption | with_reducible apply runBundle_ok | with_reducible apply OkN.next

theorem execCmulj_ok {q : List Instr} {g : CoreId} {acd : BitVec 3} {va : BitVec 5} {vb : BitVec 5} {m : Bundle} {s : State} (h : Ok q s) :
    OkN q (execCmulj g acd va vb m s) := by
  unfold execCmulj
  repeat' first
    | with_reducible assumption | with_reducible apply runBundle_ok | with_reducible apply OkN.next

theorem execRmac_ok {q : List Instr} {g : CoreId} {acd : BitVec 3} {va : BitVec 5} {vb : BitVec 5} {m : Bundle} {s : State} (h : Ok q s) :
    OkN q (execRmac g acd va vb m s) := by
  unfold execRmac
  repeat' first
    | with_reducible assumption | with_reducible apply runBundle_ok | with_reducible apply OkN.next

theorem execAcclr_ok {q : List Instr} {g : CoreId} {acd : BitVec 3} {m : Bundle} {s : State} (h : Ok q s) :
    OkN q (execAcclr g acd m s) := by
  unfold execAcclr
  repeat' first
    | with_reducible assumption | with_reducible apply runBundle_ok | with_reducible apply OkN.next

theorem execAcset_ok {q : List Instr} {g : CoreId} {acd : BitVec 3} {va : BitVec 5} {m : Bundle} {s : State} (h : Ok q s) :
    OkN q (execAcset g acd va m s) := by
  unfold execAcset
  repeat' first
    | with_reducible assumption | with_reducible apply runBundle_ok | with_reducible apply OkN.next

theorem execAcmv_ok {q : List Instr} {g : CoreId} {vd : BitVec 5} {acs : BitVec 3} {sm : BitVec 2} {sh : BitVec 4} {m : Bundle} {s : State} (h : Ok q s) :
    OkN q (execAcmv g vd acs sm sh m s) := by
  unfold execAcmv
  repeat' first
    | with_reducible assumption | with_reducible apply runBundle_ok | with_reducible apply OkN.next

theorem execAcsh_ok {q : List Instr} {g : CoreId} {sd : BitVec 5} {acs : BitVec 3} {m : Bundle} {s : State} (h : Ok q s) :
    OkN q (execAcsh g sd acs m s) := by
  unfold execAcsh
  repeat' first
    | with_reducible assumption | with_reducible apply runBundle_ok | with_reducible apply OkN.next

theorem execVadd_ok {q : List Instr} {g : CoreId} {vd : BitVec 5} {va : BitVec 5} {vb : BitVec 5} {m : Bundle} {s : State} (h : Ok q s) :
    OkN q (execVadd g vd va vb m s) := by
  unfold execVadd
  repeat' first
    | with_reducible assumption | with_reducible apply runBundle_ok | with_reducible apply OkN.next

theorem execVsub_ok {q : List Instr} {g : CoreId} {vd : BitVec 5} {va : BitVec 5} {vb : BitVec 5} {m : Bundle} {s : State} (h : Ok q s) :
    OkN q (execVsub g vd va vb m s) := by
  unfold execVsub
  repeat' first
    | with_reducible assumption | with_reducible apply runBundle_ok | with_reducible apply OkN.next

theorem execVaddw_ok {q : List Instr} {g : CoreId} {vd : BitVec 5} {va : BitVec 5} {vb : BitVec 5} {m : Bundle} {s : State} (h : Ok q s) :
    OkN q (execVaddw g vd va vb m s) := by
  unfold execVaddw
  repeat' first
    | with_reducible assumption | with_reducible apply runBundle_ok | with_reducible apply OkN.next

theorem execVsubw_ok {q : List Instr} {g : CoreId} {vd : BitVec 5} {va : BitVec 5} {vb : BitVec 5} {m : Bundle} {s : State} (h : Ok q s) :
    OkN q (execVsubw g vd va vb m s) := by
  unfold execVsubw
  repeat' first
    | with_reducible assumption | with_reducible apply runBundle_ok | with_reducible apply OkN.next

theorem execVand_ok {q : List Instr} {g : CoreId} {vd : BitVec 5} {va : BitVec 5} {vb : BitVec 5} {m : Bundle} {s : State} (h : Ok q s) :
    OkN q (execVand g vd va vb m s) := by
  unfold execVand
  repeat' first
    | with_reducible assumption | with_reducible apply runBundle_ok | with_reducible apply OkN.next

theorem execVor_ok {q : List Instr} {g : CoreId} {vd : BitVec 5} {va : BitVec 5} {vb : BitVec 5} {m : Bundle} {s : State} (h : Ok q s) :
    OkN q (execVor g vd va vb m s) := by
  unfold execVor
  repeat' first
    | with_reducible assumption | with_reducible apply runBundle_ok | with_reducible apply OkN.next

theorem execVxor_ok {q : List Instr} {g : CoreId} {vd : BitVec 5} {va : BitVec 5} {vb : BitVec 5} {m : Bundle} {s : State} (h : Ok q s) :
    OkN q (execVxor g vd va vb m s) := by
  unfold execVxor
  repeat' first
    | with_reducible assumption | with_reducible apply runBundle_ok | with_reducible apply OkN.next

theorem execVneg_ok {q : List Instr} {g : CoreId} {vd : BitVec 5} {va : BitVec 5} {m : Bundle} {s : State} (h : Ok q s) :
    OkN q (execVneg g vd va m s) := by
  unfold execVneg
  repeat' first
    | with_reducible assumption | with_reducible apply runBundle_ok | with_reducible apply OkN.next

theorem execVconj_ok {q : List Instr} {g : CoreId} {vd : BitVec 5} {va : BitVec 5} {m : Bundle} {s : State} (h : Ok q s) :
    OkN q (execVconj g vd va m s) := by
  unfold execVconj
  repeat' first
    | with_reducible assumption | with_reducible apply runBundle_ok | with_reducible apply OkN.next

theorem execVmov_ok {q : List Instr} {g : CoreId} {vd : BitVec 5} {va : BitVec 5} {m : Bundle} {s : State} (h : Ok q s) :
    OkN q (execVmov g vd va m s) := by
  unfold execVmov
  repeat' first
    | with_reducible assumption | with_reducible apply runBundle_ok | with_reducible apply OkN.next

theorem execVshrr_ok {q : List Instr} {g : CoreId} {vd : BitVec 5} {va : BitVec 5} {imm : BitVec 4} {m : Bundle} {s : State} (h : Ok q s) :
    OkN q (execVshrr g vd va imm m s) := by
  unfold execVshrr
  repeat' first
    | with_reducible assumption | with_reducible apply runBundle_ok | with_reducible apply OkN.next

theorem execVbcst_ok {q : List Instr} {g : CoreId} {vd : BitVec 5} {va : BitVec 5} {lane : BitVec 4} {m : Bundle} {s : State} (h : Ok q s) :
    OkN q (execVbcst g vd va lane m s) := by
  unfold execVbcst
  repeat' first
    | with_reducible assumption | with_reducible apply runBundle_ok | with_reducible apply OkN.next

theorem execAdd_ok {q : List Instr} {g : CoreId} {sd : BitVec 5} {sa : BitVec 5} {sb : BitVec 5} {m : Bundle} {s : State} (h : Ok q s) :
    OkN q (execAdd g sd sa sb m s) := by
  unfold execAdd
  repeat' first
    | with_reducible assumption | with_reducible apply runBundle_ok | with_reducible apply OkN.next

theorem execSub_ok {q : List Instr} {g : CoreId} {sd : BitVec 5} {sa : BitVec 5} {sb : BitVec 5} {m : Bundle} {s : State} (h : Ok q s) :
    OkN q (execSub g sd sa sb m s) := by
  unfold execSub
  repeat' first
    | with_reducible assumption | with_reducible apply runBundle_ok | with_reducible apply OkN.next

theorem execAnd_ok {q : List Instr} {g : CoreId} {sd : BitVec 5} {sa : BitVec 5} {sb : BitVec 5} {m : Bundle} {s : State} (h : Ok q s) :
    OkN q (execAnd g sd sa sb m s) := by
  unfold execAnd
  repeat' first
    | with_reducible assumption | with_reducible apply runBundle_ok | with_reducible apply OkN.next

theorem execOr_ok {q : List Instr} {g : CoreId} {sd : BitVec 5} {sa : BitVec 5} {sb : BitVec 5} {m : Bundle} {s : State} (h : Ok q s) :
    OkN q (execOr g sd sa sb m s) := by
  unfold execOr
  repeat' first
    | with_reducible assumption | with_reducible apply runBundle_ok | with_reducible apply OkN.next

theorem execXor_ok {q : List Instr} {g : CoreId} {sd : BitVec 5} {sa : BitVec 5} {sb : BitVec 5} {m : Bundle} {s : State} (h : Ok q s) :
    OkN q (execXor g sd sa sb m s) := by
  unfold execXor
  repeat' first
    | with_reducible assumption | with_reducible apply runBundle_ok | with_reducible apply OkN.next

theorem execShl_ok {q : List Instr} {g : CoreId} {sd : BitVec 5} {sa : BitVec 5} {sb : BitVec 5} {m : Bundle} {s : State} (h : Ok q s) :
    OkN q (execShl g sd sa sb m s) := by
  unfold execShl
  repeat' first
    | with_reducible assumption | with_reducible apply runBundle_ok | with_reducible apply OkN.next

theorem execShr_ok {q : List Instr} {g : CoreId} {sd : BitVec 5} {sa : BitVec 5} {sb : BitVec 5} {m : Bundle} {s : State} (h : Ok q s) :
    OkN q (execShr g sd sa sb m s) := by
  unfold execShr
  repeat' first
    | with_reducible assumption | with_reducible apply runBundle_ok | with_reducible apply OkN.next

theorem execSar_ok {q : List Instr} {g : CoreId} {sd : BitVec 5} {sa : BitVec 5} {sb : BitVec 5} {m : Bundle} {s : State} (h : Ok q s) :
    OkN q (execSar g sd sa sb m s) := by
  unfold execSar
  repeat' first
    | with_reducible assumption | with_reducible apply runBundle_ok | with_reducible apply OkN.next

theorem execMul_ok {q : List Instr} {g : CoreId} {sd : BitVec 5} {sa : BitVec 5} {sb : BitVec 5} {m : Bundle} {s : State} (h : Ok q s) :
    OkN q (execMul g sd sa sb m s) := by
  unfold execMul
  repeat' first
    | with_reducible assumption | with_reducible apply runBundle_ok | with_reducible apply OkN.next

theorem execCmplt_ok {q : List Instr} {g : CoreId} {sd : BitVec 5} {sa : BitVec 5} {sb : BitVec 5} {m : Bundle} {s : State} (h : Ok q s) :
    OkN q (execCmplt g sd sa sb m s) := by
  unfold execCmplt
  repeat' first
    | with_reducible assumption | with_reducible apply runBundle_ok | with_reducible apply OkN.next

theorem execCmpeq_ok {q : List Instr} {g : CoreId} {sd : BitVec 5} {sa : BitVec 5} {sb : BitVec 5} {m : Bundle} {s : State} (h : Ok q s) :
    OkN q (execCmpeq g sd sa sb m s) := by
  unfold execCmpeq
  repeat' first
    | with_reducible assumption | with_reducible apply runBundle_ok | with_reducible apply OkN.next

theorem execMovi_ok {q : List Instr} {g : CoreId} {sd : BitVec 5} {imm : BitVec 16} {m : Bundle} {s : State} (h : Ok q s) :
    OkN q (execMovi g sd imm m s) := by
  unfold execMovi
  repeat' first
    | with_reducible assumption | with_reducible apply runBundle_ok | with_reducible apply OkN.next

theorem execBr_ok {q : List Instr} {g : CoreId} {c : BrCond} {hint : Bool} {sa : BitVec 5} {off : BitVec 16} {m : Bundle} {s : State} (h : Ok q s) :
    OkN q (execBr g c hint sa off m s) := by
  unfold execBr
  repeat' first
    | with_reducible assumption | with_reducible apply runBundle_ok | with_reducible apply OkN.next

theorem execJ_ok {q : List Instr} {g : CoreId} {off : BitVec 16} {m : Bundle} {s : State} (h : Ok q s) :
    OkN q (execJ g off m s) := by
  unfold execJ
  repeat' first
    | with_reducible assumption | with_reducible apply runBundle_ok | with_reducible apply OkN.next

theorem execCall_ok {q : List Instr} {g : CoreId} {off : BitVec 16} {m : Bundle} {s : State} (h : Ok q s) :
    OkN q (execCall g off m s) := by
  unfold execCall
  repeat' first
    | with_reducible assumption | with_reducible apply runBundle_ok | with_reducible apply OkN.next

theorem execRet_ok {q : List Instr} {g : CoreId} {off : BitVec 16} {m : Bundle} {s : State} (h : Ok q s) :
    OkN q (execRet g off m s) := by
  unfold execRet
  repeat' first
    | with_reducible assumption | with_reducible apply runBundle_ok | with_reducible apply OkN.next

theorem execLoop_ok {q : List Instr} {g : CoreId} {count : BitVec 12} {fin : BitVec 13} {m : Bundle} {s : State} (h : Ok q s) :
    OkN q (execLoop g count fin m s) := by
  unfold execLoop
  repeat' first
    | with_reducible assumption | with_reducible apply runBundle_ok | with_reducible apply OkN.next

theorem execLoops_ok {q : List Instr} {g : CoreId} {sa : BitVec 5} {fin : BitVec 13} {m : Bundle} {s : State} (h : Ok q s) :
    OkN q (execLoops g sa fin m s) := by
  unfold execLoops
  repeat' first
    | with_reducible assumption | with_reducible apply runBundle_ok | with_reducible apply OkN.next

theorem execMfc_ok {q : List Instr} {g : CoreId} {sd : BitVec 5} {cr : BitVec 7} {m : Bundle} {s : State} (h : Ok q s) :
    OkN q (execMfc g sd cr m s) := by
  unfold execMfc
  repeat' first
    | with_reducible assumption | with_reducible apply runBundle_ok | with_reducible apply OkN.next

theorem execMtc_ok {q : List Instr} {g : CoreId} {sa : BitVec 5} {cr : BitVec 7} {m : Bundle} {s : State} (h : Ok q s) :
    OkN q (execMtc g sa cr m s) := by
  unfold execMtc
  repeat' first
    | with_reducible assumption | with_reducible apply runBundle_ok | with_reducible apply OkN.next

theorem execRti_ok {q : List Instr} {g : CoreId} {m : Bundle} {s : State} (h : Ok q s) :
    OkN q (execRti g m s) := by
  unfold execRti
  repeat' first
    | with_reducible assumption | with_reducible apply runBundle_ok | with_reducible apply OkN.next

theorem execWait_ok {q : List Instr} {g : CoreId} {m : Bundle} {s : State} (h : Ok q s) :
    OkN q (execWait g m s) := by
  unfold execWait
  repeat' first
    | with_reducible assumption | with_reducible apply runBundle_ok | with_reducible apply OkN.next

theorem execFence_ok {q : List Instr} {g : CoreId} {m : Bundle} {s : State} (h : Ok q s) :
    OkN q (execFence g m s) := by
  unfold execFence
  repeat' first
    | with_reducible assumption | with_reducible apply runBundle_ok | with_reducible apply OkN.next

theorem execNop_ok {q : List Instr} {g : CoreId} {m : Bundle} {s : State} (h : Ok q s) :
    OkN q (execNop g m s) := by
  unfold execNop
  repeat' first
    | with_reducible assumption | with_reducible apply runBundle_ok | with_reducible apply OkN.next

theorem execCpwr_ok {q : List Instr} {g : CoreId} {sl : Bool} {f : CpFields} {m : Bundle} {s : State} (h : Ok q s) :
    OkN q (execCpwr g sl f m s) := by
  unfold execCpwr
  repeat' first
    | with_reducible assumption | with_reducible apply runBundle_ok | with_reducible apply OkN.next

theorem execCpld_ok {q : List Instr} {g : CoreId} {sl : Bool} {f : CpFields} {m : Bundle} {s : State} (h : Ok q s) :
    OkN q (execCpld g sl f m s) := by
  unfold execCpld
  repeat' first
    | with_reducible assumption | with_reducible apply runBundle_ok | with_reducible apply OkN.next

theorem execCprd_ok {q : List Instr} {g : CoreId} {sl : Bool} {f : CpFields} {m : Bundle} {s : State} (h : Ok q s) :
    OkN q (execCprd g sl f m s) := by
  unfold execCprd
  repeat' first
    | with_reducible assumption | with_reducible apply runBundle_ok | with_reducible apply OkN.next

theorem execCpst_ok {q : List Instr} {g : CoreId} {sl : Bool} {f : CpFields} {m : Bundle} {s : State} (h : Ok q s) :
    OkN q (execCpst g sl f m s) := by
  unfold execCpst
  repeat' first
    | with_reducible assumption | with_reducible apply runBundle_ok | with_reducible apply OkN.next

theorem execCprds_ok {q : List Instr} {g : CoreId} {sl : Bool} {f : CpFields} {m : Bundle} {s : State} (h : Ok q s) :
    OkN q (execCprds g sl f m s) := by
  unfold execCprds
  repeat' first
    | with_reducible assumption | with_reducible apply runBundle_ok | with_reducible apply OkN.next

theorem execCpwrs_ok {q : List Instr} {g : CoreId} {sl : Bool} {f : CpFields} {m : Bundle} {s : State} (h : Ok q s) :
    OkN q (execCpwrs g sl f m s) := by
  unfold execCpwrs
  repeat' first
    | with_reducible assumption | with_reducible apply runBundle_ok | with_reducible apply OkN.next

theorem execCpsave_ok {q : List Instr} {g : CoreId} {sl : Bool} {f : CpFields} {m : Bundle} {s : State} (h : Ok q s) :
    OkN q (execCpsave g sl f m s) := by
  unfold execCpsave
  repeat' first
    | with_reducible assumption | with_reducible apply runBundle_ok | with_reducible apply OkN.next

theorem execCprestore_ok {q : List Instr} {g : CoreId} {sl : Bool} {f : CpFields} {m : Bundle} {s : State} (h : Ok q s) :
    OkN q (execCprestore g sl f m s) := by
  unfold execCprestore
  repeat' first
    | with_reducible assumption | with_reducible apply runBundle_ok | with_reducible apply OkN.next

theorem execMmac_ok {q : List Instr} {g : CoreId} {f : CpFields} {m : Bundle} {s : State} (h : Ok q s) :
    OkN q (execMmac g f m s) := by
  unfold execMmac
  repeat' first
    | with_reducible assumption | with_reducible apply runBundle_ok | with_reducible apply OkN.next

theorem execMmac8_ok {q : List Instr} {g : CoreId} {f : CpFields} {m : Bundle} {s : State} (h : Ok q s) :
    OkN q (execMmac8 g f m s) := by
  unfold execMmac8
  repeat' first
    | with_reducible assumption | with_reducible apply runBundle_ok | with_reducible apply OkN.next

theorem execMmv_ok {q : List Instr} {g : CoreId} {f : CpFields} {m : Bundle} {s : State} (h : Ok q s) :
    OkN q (execMmv g f m s) := by
  unfold execMmv
  repeat' first
    | with_reducible assumption | with_reducible apply runBundle_ok | with_reducible apply OkN.next

theorem execMmva_ok {q : List Instr} {g : CoreId} {f : CpFields} {m : Bundle} {s : State} (h : Ok q s) :
    OkN q (execMmva g f m s) := by
  unfold execMmva
  repeat' first
    | with_reducible assumption | with_reducible apply runBundle_ok | with_reducible apply OkN.next

theorem execMrsq_ok {q : List Instr} {g : CoreId} {f : CpFields} {m : Bundle} {s : State} (h : Ok q s) :
    OkN q (execMrsq g f m s) := by
  unfold execMrsq
  repeat' first
    | with_reducible assumption | with_reducible apply runBundle_ok | with_reducible apply OkN.next

theorem execMchol_ok {q : List Instr} {g : CoreId} {f : CpFields} {m : Bundle} {s : State} (h : Ok q s) :
    OkN q (execMchol g f m s) := by
  unfold execMchol
  repeat' first
    | with_reducible assumption | with_reducible apply runBundle_ok | with_reducible apply OkN.next

theorem execMtrsv_ok {q : List Instr} {g : CoreId} {f : CpFields} {m : Bundle} {s : State} (h : Ok q s) :
    OkN q (execMtrsv g f m s) := by
  unfold execMtrsv
  repeat' first
    | with_reducible assumption | with_reducible apply runBundle_ok | with_reducible apply OkN.next

theorem execMaclr_ok {q : List Instr} {g : CoreId} {f : CpFields} {m : Bundle} {s : State} (h : Ok q s) :
    OkN q (execMaclr g f m s) := by
  unfold execMaclr
  repeat' first
    | with_reducible assumption | with_reducible apply runBundle_ok | with_reducible apply OkN.next

theorem execSdmap_ok {q : List Instr} {g : CoreId} {f : CpFields} {m : Bundle} {s : State} (h : Ok q s) :
    OkN q (execSdmap g f m s) := by
  unfold execSdmap
  repeat' first
    | with_reducible assumption | with_reducible apply runBundle_ok | with_reducible apply OkN.next

theorem execSscrb_ok {q : List Instr} {g : CoreId} {f : CpFields} {m : Bundle} {s : State} (h : Ok q s) :
    OkN q (execSscrb g f m s) := by
  unfold execSscrb
  repeat' first
    | with_reducible assumption | with_reducible apply runBundle_ok | with_reducible apply OkN.next

theorem execSdscr_ok {q : List Instr} {g : CoreId} {f : CpFields} {m : Bundle} {s : State} (h : Ok q s) :
    OkN q (execSdscr g f m s) := by
  unfold execSdscr
  repeat' first
    | with_reducible assumption | with_reducible apply runBundle_ok | with_reducible apply OkN.next

theorem execSginit_ok {q : List Instr} {g : CoreId} {f : CpFields} {m : Bundle} {s : State} (h : Ok q s) :
    OkN q (execSginit g f m s) := by
  unfold execSginit
  repeat' first
    | with_reducible assumption | with_reducible apply runBundle_ok | with_reducible apply OkN.next

theorem execScrc_ok {q : List Instr} {g : CoreId} {f : CpFields} {m : Bundle} {s : State} (h : Ok q s) :
    OkN q (execScrc g f m s) := by
  unfold execScrc
  repeat' first
    | with_reducible assumption | with_reducible apply runBundle_ok | with_reducible apply OkN.next

theorem execScrcinit_ok {q : List Instr} {g : CoreId} {f : CpFields} {m : Bundle} {s : State} (h : Ok q s) :
    OkN q (execScrcinit g f m s) := by
  unfold execScrcinit
  repeat' first
    | with_reducible assumption | with_reducible apply runBundle_ok | with_reducible apply OkN.next

theorem execSilv_ok {q : List Instr} {g : CoreId} {f : CpFields} {m : Bundle} {s : State} (h : Ok q s) :
    OkN q (execSilv g f m s) := by
  unfold execSilv
  repeat' first
    | with_reducible assumption | with_reducible apply runBundle_ok | with_reducible apply OkN.next

theorem execSdilv_ok {q : List Instr} {g : CoreId} {f : CpFields} {m : Bundle} {s : State} (h : Ok q s) :
    OkN q (execSdilv g f m s) := by
  unfold execSdilv
  repeat' first
    | with_reducible assumption | with_reducible apply runBundle_ok | with_reducible apply OkN.next

theorem doCpFinish_ok {q : List Instr} {s : State} {g : CoreId} {sl : Bool} (h : Ok q s) : Ok q (doCpFinish s g sl) := by
  unfold doCpFinish
  dsimp only
  split
  · exact h
  · rename_i p rest _
    refine okIte h ?_
    generalize e : cpParity s g sl _ = x
    obtain ⟨par, s1⟩ := x
    have hp : Ok q s1 := (cpParity_ok h).get e
    dsimp only
    exact State.setCore_ok hp (lateReport_ok (setDirty_ok (flagPar_ok (Core.setPort_ok ((Ok.core hp g).keep rfl rfl rfl rfl rfl rfl rfl)))))

theorem resumeBusy_ok {q : List Instr} {s : State} {g : CoreId} (h : Ok q s) :
    Ok q (resumeBusy s g) := by
  unfold resumeBusy
  repeat' first
    | with_reducible assumption | with_reducible apply coreResume_ok | with_reducible apply okIte | split

theorem execCpOperationFinish_ok {q : List Instr} {g : CoreId} {sl : Bool} {s : State} (h : Ok q s) :
    OkN q (execCpOperationFinish g sl s) := by
  unfold execCpOperationFinish
  repeat' first
    | with_reducible assumption | with_reducible apply resumeBusy_ok | with_reducible apply doCpFinish_ok | with_reducible apply OkN.next

theorem dropRetry_ok {q : List Instr} {s : State} {g : CoreId} (h : Ok q s) :
    Ok q (dropRetry s g) := by
  unfold dropRetry
  repeat' first
    | with_reducible assumption | with_reducible apply State.setNi_ok

theorem doStallRelease_ok {q : List Instr} {s : State} {g : CoreId} (h : Ok q s) :
    Ok q (doStallRelease s g) := by
  unfold doStallRelease
  repeat' first
    | with_reducible assumption | with_reducible apply coreResume_ok | with_reducible apply okIte | split

theorem execQenqStallRelease_ok {q : List Instr} {g : CoreId} {s : State} (h : Ok q s) :
    OkN q (execQenqStallRelease g s) := by
  unfold execQenqStallRelease
  repeat' first
    | with_reducible assumption | with_reducible apply doStallRelease_ok | with_reducible apply OkN.next

theorem doEnqTimeout_ok {q : List Instr} {s : State} {g : CoreId} (h : Ok q s) :
    Ok q (doEnqTimeout s g) := by
  unfold doEnqTimeout
  repeat' first
    | with_reducible assumption | with_reducible apply trap_ok | with_reducible apply dropRetry_ok | with_reducible apply doStallRelease_ok
    | with_reducible apply okIte | split

theorem execEnqueueTimeout_ok {q : List Instr} {g : CoreId} {s : State} (h : Ok q s) :
    OkN q (execEnqueueTimeout g s) := by
  unfold execEnqueueTimeout
  repeat' first
    | with_reducible assumption | with_reducible apply doEnqTimeout_ok | with_reducible apply OkN.next

theorem doInterrupt_ok {q : List Instr} {s : State} {g : CoreId} (h : Ok q s) :
    Ok q (doInterrupt s g) := by
  unfold doInterrupt
  repeat' first
    | with_reducible assumption | with_reducible apply takeInt_ok | with_reducible apply dropRetry_ok
    | with_reducible apply doStallRelease_ok | with_reducible apply okIte | split

theorem execInterruptEntry_ok {q : List Instr} {g : CoreId} {s : State} (h : Ok q s) :
    OkN q (execInterruptEntry g s) := by
  unfold execInterruptEntry
  repeat' first
    | with_reducible assumption | with_reducible apply doInterrupt_ok | with_reducible apply OkN.next

theorem doWaitWake_ok {q : List Instr} {s : State} {g : CoreId} (h : Ok q s) :
    Ok q (doWaitWake s g) := by
  unfold doWaitWake
  repeat' first
    | with_reducible assumption | with_reducible apply State.setCore_ok | with_reducible apply okIte
    | exact CoreOk.keep (Ok.core ‹Ok q _› _) rfl rfl rfl rfl rfl rfl rfl

theorem execWaitWake_ok {q : List Instr} {g : CoreId} {s : State} (h : Ok q s) :
    OkN q (execWaitWake g s) := by
  unfold execWaitWake
  repeat' first
    | with_reducible assumption | with_reducible apply doWaitWake_ok | with_reducible apply OkN.next

theorem doTimerRaise_ok {q : List Instr} {s : State} {g : CoreId} (h : Ok q s) :
    Ok q (doTimerRaise s g) := by
  unfold doTimerRaise
  repeat' first
    | with_reducible assumption | with_reducible apply State.setCore_ok | with_reducible apply okIte
    | exact CoreOk.keep (Ok.core ‹Ok q _› _) rfl rfl rfl rfl rfl rfl rfl

theorem execTimerRaise_ok {q : List Instr} {g : CoreId} {s : State} (h : Ok q s) :
    OkN q (execTimerRaise g s) := by
  unfold execTimerRaise
  repeat' first
    | with_reducible assumption | with_reducible apply doTimerRaise_ok | with_reducible apply OkN.next

theorem doStoreFault_ok {q : List Instr} {s : State} {g : CoreId} {o : Outc} (h : Ok q s) :
    Ok q (doStoreFault s g o) := by
  unfold doStoreFault
  repeat' first
    | with_reducible assumption | with_reducible apply resumeBusy_ok | with_reducible apply storeFault_ok
    | with_reducible apply State.setNi_ok | split

theorem execPostedStoreFault_ok {q : List Instr} {g : CoreId} {o : Outc} {s : State} (h : Ok q s) :
    OkN q (execPostedStoreFault g o s) := by
  unfold execPostedStoreFault
  repeat' first
    | with_reducible assumption | with_reducible apply doStoreFault_ok | with_reducible apply OkN.next

theorem coreRunEff_ok {q : List Instr} {s : State} {g : CoreId} (h : Ok q s) : Ok q (coreRunEff s g) := by
  have hc := h.core g
  unfold coreRunEff
  dsimp only
  repeat' (with_reducible apply okIte)
  all_goals first
    | exact State.answerOnly_ok h
    | exact State.answerOnly_ok (State.setCore_ok h (hc.setPc (bundleAlign_mod _) (by simp) rfl rfl hc.loops hc.t0 hc.t1))
    | exact State.answerOnly_ok (State.setCore_ok h (hc.keep rfl rfl rfl rfl rfl rfl rfl))

theorem coreHaltEff_ok {q : List Instr} {s : State} {g : CoreId} (h : Ok q s) :
    Ok q (coreHaltEff s g) := by
  unfold coreHaltEff
  repeat' first
    | with_reducible assumption | with_reducible apply State.answerOnly_ok | with_reducible apply State.setCore_ok
    | with_reducible apply okIte | exact CoreOk.keep (Ok.core ‹Ok q _› _) rfl rfl rfl rfl rfl rfl rfl

theorem coreSresetEff_ok {q : List Instr} {s : State} {g : CoreId} (h : Ok q s) :
    Ok q (coreSresetEff s g) := by
  unfold coreSresetEff
  repeat' first
    | with_reducible assumption | with_reducible apply State.answerOnly_ok | with_reducible apply State.setCore_ok
    | with_reducible apply resetCore_ok

theorem execCoreRun_ok {q : List Instr} {who : Initiator} {g : CoreId} {s : State} (h : Ok q s) :
    OkN q (execCoreRun who g s) := by
  unfold execCoreRun
  repeat' first
    | with_reducible assumption | with_reducible intro _ | with_reducible apply regCmd_ok | with_reducible apply coreRunEff_ok
    | with_reducible apply OkN.next

theorem execCoreHalt_ok {q : List Instr} {who : Initiator} {g : CoreId} {s : State} (h : Ok q s) :
    OkN q (execCoreHalt who g s) := by
  unfold execCoreHalt
  repeat' first
    | with_reducible assumption | with_reducible intro _ | with_reducible apply regCmd_ok | with_reducible apply coreHaltEff_ok
    | with_reducible apply OkN.next

theorem execCoreSreset_ok {q : List Instr} {who : Initiator} {g : CoreId} {s : State} (h : Ok q s) :
    OkN q (execCoreSreset who g s) := by
  unfold execCoreSreset
  repeat' first
    | with_reducible assumption | with_reducible intro _ | with_reducible apply regCmd_ok | with_reducible apply coreSresetEff_ok
    | with_reducible apply OkN.next

end Sys2Proof.Machine
end

