-- ==== Sys2Proof/Laws/OkRegs.lean ====
section
/-! SUPPORT. Machine/Regs.lean keeps the invariant of Laws/Ok.lean: one lemma for each operation. -/

namespace Sys2Proof.Machine

set_option linter.unusedVariables false
set_option linter.unusedSimpArgs false

theorem mgcRead_ok {q : List Instr} {s : State} {off : Nat} (h : Ok q s) :
    OkO q (mgcRead s off) := by
  unfold mgcRead
  repeat' first
    | with_reducible assumption | with_reducible apply rdVal_ok | with_reducible apply rdPack_ok | with_reducible apply okIteO
    | with_reducible exact OkO.none

theorem mgcWrite_ok {q : List Instr} {s : State} {off : Nat} {v : Word} (h : Ok q s) :
    OkO q (mgcWrite s off v) := by
  unfold mgcWrite
  repeat' first
    | with_reducible assumption | with_reducible apply wrOk_ok | with_reducible apply okIteO | with_reducible exact OkO.none
    | with_reducible simp only [↓okUpd]

theorem dinRead_ok {q : List Instr} {s : State} (h : Ok q s) :
    OkP q (dinRead s) := by
  unfold dinRead
  repeat' first
    | with_reducible assumption | with_reducible apply takeFree_ok | with_reducible refine OkP.get ?_ ‹_ = (_, _)› | split
    | with_reducible apply OkP.mk

theorem gpoRead_ok {q : List Instr} {s : State} {off : Nat} (h : Ok q s) :
    OkO q (gpoRead s off) := by
  unfold gpoRead
  repeat' first
    | with_reducible assumption | with_reducible apply rdVal_ok | with_reducible apply dinRead_ok | with_reducible apply rdPack_ok
    | with_reducible apply okIteO | with_reducible apply OkO.some | with_reducible exact OkO.none | split

theorem pinCfgWrite_ok {q : List Instr} {s : State} {n : Nat} {v : Word} (h : Ok q s) :
    Ok q (pinCfgWrite s n v) := by
  unfold pinCfgWrite
  repeat' first
    | with_reducible assumption | with_reducible simp only [↓okUpd]

theorem gpoWrite_ok {q : List Instr} {cm : Bool} {s : State} {off : Nat} {v : Word} (h : Ok q s) :
    OkO q (gpoWrite cm s off v) := by
  unfold gpoWrite
  repeat' first
    | with_reducible assumption | with_reducible apply wrOk_ok | with_reducible apply pinCfgWrite_ok | with_reducible apply noConflict_ok
    | with_reducible apply okIteO | with_reducible apply OkO.some | with_reducible exact OkO.none | split | with_reducible apply OkP.mk
    | with_reducible simp only [↓okUpd]

theorem coreRead_ok {q : List Instr} {s : State} {g : CoreId} {off : Nat} (h : Ok q s) :
    OkO q (coreRead s g off) := by
  unfold coreRead
  repeat' first
    | with_reducible assumption | with_reducible apply rdPack_ok | with_reducible apply rdVal_ok | with_reducible apply talRead_ok
    | with_reducible apply okIteO | with_reducible exact OkO.none | split

theorem coreCtlWrite_ok {q : List Instr} {s : State} {g : CoreId} {v : Word} (h : Ok q s) :
    OkP q (coreCtlWrite s g v) := by
  unfold coreCtlWrite
  repeat' first
    | with_reducible assumption | with_reducible apply State.setCore_ok | with_reducible apply coreRunEff_ok
    | with_reducible apply coreHaltEff_ok | with_reducible apply resetCore_ok | split | with_reducible apply OkP.mk
    | with_reducible simp only [↓okUpd]

theorem coreWrite_ok {q : List Instr} {s : State} {g : CoreId} {off : Nat} {v : Word} (h : Ok q s) :
    OkO q (coreWrite s g off v) := by
  unfold coreWrite
  repeat' first
    | with_reducible assumption | with_reducible apply coreCtlWrite_ok | with_reducible apply wrOk_ok
    | with_reducible apply State.setCore_ok | with_reducible apply wrNo_ok | with_reducible apply okIte | with_reducible apply okIteO
    | with_reducible apply OkO.some | with_reducible exact OkO.none | exact CoreOk.keep (Ok.core ‹Ok q _› _) rfl rfl rfl rfl rfl rfl rfl
    | split

theorem regRead_ok {q : List Instr} {s : State} {y1 : Place} (h : Ok q s) :
    OkO q (regRead s y1) := by
  unfold regRead
  repeat' first
    | with_reducible assumption | with_reducible apply engRead_ok | with_reducible apply budRead_ok | with_reducible apply agentRead_ok
    | with_reducible apply coreRead_ok | with_reducible apply schRead_ok | with_reducible apply cluRead_ok
    | with_reducible apply cluFabRead_ok | with_reducible apply mgcRead_ok | with_reducible apply hifRead_ok
    | with_reducible apply fhpRead_ok | with_reducible apply cmkRead_ok | with_reducible apply casRead_ok | with_reducible apply criRead_ok
    | with_reducible apply lmpRead_ok | with_reducible apply asyRead_ok | with_reducible apply scvRead_ok | with_reducible apply edcRead_ok
    | with_reducible apply hubFabRead_ok | with_reducible apply gpoRead_ok | with_reducible apply okIteO | with_reducible exact OkO.none
    | split

theorem regWrite_ok {q : List Instr} {cm : Bool} {s : State} {p : Place} {v : Word} (h : Ok q s) :
    OkO q (regWrite cm s p v) := by
  unfold regWrite
  repeat' first
    | with_reducible assumption | with_reducible apply engWrite_ok | with_reducible apply budWrite_ok | with_reducible apply agentWrite_ok
    | with_reducible apply coreWrite_ok | with_reducible apply schWrite_ok | with_reducible apply cluWrite_ok
    | with_reducible apply cluFabWrite_ok | with_reducible apply mgcWrite_ok | with_reducible apply hifWrite_ok
    | with_reducible apply fhpWrite_ok | with_reducible apply cmkWrite_ok | with_reducible apply casWrite_ok
    | with_reducible apply criWrite_ok | with_reducible apply lmpWrite_ok | with_reducible apply asyWrite_ok
    | with_reducible apply scvWrite_ok | with_reducible apply edcWrite_ok | with_reducible apply hubFabWrite_ok
    | with_reducible apply gpoWrite_ok | with_reducible apply okIteO | with_reducible exact OkO.none | split

theorem regRd_ok {q : List Instr} {s : State} {pa : Nat} {n : Nat} (h : Ok q s) :
    OkP q (regRd s pa n) := by
  unfold regRd
  repeat' first
    | with_reducible assumption | with_reducible apply regRead_ok | with_reducible apply okIte2
    | with_reducible refine OkO.get ?_ ‹_ = some (_, _)› | split | with_reducible apply OkP.mk

theorem regWr_ok {q : List Instr} {s : State} {pa : Nat} {n : Nat} {v : Word} (h : Ok q s) :
    OkP q (regWr s pa n v) := by
  unfold regWr
  repeat' first
    | with_reducible assumption | with_reducible apply regWrite_ok | with_reducible apply okIte2 | with_reducible refine OkO.get' ?_ ‹_›
    | split | with_reducible apply OkP.mk

theorem lateCount_ok {q : List Instr} {s : State} {pa : Nat} {ev : BitVec 48} (h : Ok q s) :
    Ok q (lateCount s pa ev) := by
  unfold lateCount
  repeat' first
    | with_reducible assumption | with_reducible apply tallyAdd_ok | split

theorem execRegisterWrite_ok {q : List Instr} {who : Initiator} {pa : Pa} {size : Nat} {v : Word} {s : State} (h : Ok q s) :
    OkN q (execRegisterWrite who pa size v s) := by
  unfold execRegisterWrite
  repeat' first
    | with_reducible assumption | with_reducible intro _ | with_reducible apply regCmd_ok | with_reducible apply wrAnswer_ok
    | with_reducible apply regWr_ok | with_reducible apply okIte | with_reducible apply OkN.next

theorem execTallyCounterRead_ok {q : List Instr} {who : Initiator} {pa : Pa} {s : State} (h : Ok q s) :
    OkN q (execTallyCounterRead who pa s) := by
  unfold execTallyCounterRead
  repeat' first
    | with_reducible assumption | with_reducible intro _ | with_reducible apply regCmd_ok | with_reducible apply regRd_ok
    | with_reducible apply State.answer_ok | with_reducible apply okIte | with_reducible apply OkN.next | with_reducible apply OkP.snd

theorem execRcFieldRead_ok {q : List Instr} {who : Initiator} {pa : Pa} {ev : BitVec 48} {s : State} (h : Ok q s) :
    OkN q (execRcFieldRead who pa ev s) := by
  unfold execRcFieldRead
  repeat' first
    | with_reducible assumption | with_reducible intro _ | with_reducible apply regCmd_ok | with_reducible apply regRd_ok
    | with_reducible apply State.answer_ok | with_reducible apply lateCount_ok | with_reducible apply okIte | with_reducible apply OkN.next
    | with_reducible apply OkP.snd

end Sys2Proof.Machine
end

