-- ==== Sys2Proof/Laws/OkBoard.lean ====
section
/-! SUPPORT. Machine/Board.lean keeps the invariant of Laws/Ok.lean: one lemma for each operation. -/

namespace Sys2Proof.Machine

set_option linter.unusedVariables false
set_option linter.unusedSimpArgs false

theorem doSmbWrite_ok {q : List Instr} {s : State} {addr : BitVec 7} {count : Nat} {off : Word} (h : Ok q s) :
    Ok q (doSmbWrite s addr count off) := by
  unfold doSmbWrite
  repeat' first
    | with_reducible assumption | with_reducible apply okIte | with_reducible simp only [↓okUpd]

theorem doSmbRead_ok {q : List Instr} {s : State} {addr : BitVec 7} (h : Ok q s) :
    Ok q (doSmbRead s addr) := by
  unfold doSmbRead
  repeat' first
    | with_reducible assumption | with_reducible apply regRd_ok | with_reducible apply okIte | with_reducible apply OkP.snd
    | with_reducible simp only [↓okUpd]

theorem doSmbTimeout_ok {q : List Instr} {s : State} (h : Ok q s) :
    Ok q (doSmbTimeout s) := by
  unfold doSmbTimeout
  repeat' first
    | with_reducible assumption | with_reducible apply takeFree_ok | with_reducible refine OkP.get ?_ ‹_ = (_, _)› | split
    | with_reducible simp only [↓okUpd]

theorem tapLoad_ok {q : List Instr} {s : State} {ir : JtagIr} {m : TapMode} {byp : Bool} (h : Ok q s) :
    Ok q (tapLoad s ir m byp) := by
  unfold tapLoad
  repeat' first
    | with_reducible assumption | with_reducible simp only [↓okUpd]

theorem doSample_ok {q : List Instr} {s : State} (h : Ok q s) :
    Ok q (doSample s) := by
  unfold doSample
  repeat' first
    | with_reducible assumption | with_reducible apply takeFree_ok | with_reducible apply tapLoad_ok
    | with_reducible refine OkP.get ?_ ‹_ = (_, _)› | split | with_reducible simp only [↓okUpd]

theorem execSmbusBlockWrite_ok {q : List Instr} {addr : BitVec 7} {count : Nat} {off : Word} {s : State} (h : Ok q s) :
    OkN q (execSmbusBlockWrite addr count off s) := by
  unfold execSmbusBlockWrite
  repeat' first
    | with_reducible assumption | with_reducible apply doSmbWrite_ok | with_reducible apply OkN.next

theorem execSmbusBlockRead_ok {q : List Instr} {addr : BitVec 7} {s : State} (h : Ok q s) :
    OkN q (execSmbusBlockRead addr s) := by
  unfold execSmbusBlockRead
  repeat' first
    | with_reducible assumption | with_reducible apply doSmbRead_ok | with_reducible apply OkN.next

theorem execSmbusTimeout_ok {q : List Instr} {s : State} (h : Ok q s) :
    OkN q (execSmbusTimeout s) := by
  unfold execSmbusTimeout
  repeat' first
    | with_reducible assumption | with_reducible apply doSmbTimeout_ok | with_reducible apply OkN.next

theorem execExtest_ok {q : List Instr} {s : State} (h : Ok q s) :
    OkN q (execExtest s) := by
  unfold execExtest
  repeat' first
    | with_reducible assumption | with_reducible apply tapLoad_ok | with_reducible apply OkN.next

theorem execSamplePreload_ok {q : List Instr} {s : State} (h : Ok q s) :
    OkN q (execSamplePreload s) := by
  unfold execSamplePreload
  repeat' first
    | with_reducible assumption | with_reducible apply doSample_ok | with_reducible apply OkN.next

theorem execExtestPulse_ok {q : List Instr} {s : State} (h : Ok q s) :
    OkN q (execExtestPulse s) := by
  unfold execExtestPulse
  repeat' first
    | with_reducible assumption | with_reducible apply tapLoad_ok | with_reducible apply OkN.next

theorem execExtestTrain_ok {q : List Instr} {s : State} (h : Ok q s) :
    OkN q (execExtestTrain s) := by
  unfold execExtestTrain
  repeat' first
    | with_reducible assumption | with_reducible apply tapLoad_ok | with_reducible apply OkN.next

theorem execHighz_ok {q : List Instr} {s : State} (h : Ok q s) :
    OkN q (execHighz s) := by
  unfold execHighz
  repeat' first
    | with_reducible assumption | with_reducible apply tapLoad_ok | with_reducible apply OkN.next

theorem execClamp_ok {q : List Instr} {s : State} (h : Ok q s) :
    OkN q (execClamp s) := by
  unfold execClamp
  repeat' first
    | with_reducible assumption | with_reducible apply tapLoad_ok | with_reducible apply OkN.next

theorem execBypass_ok {q : List Instr} {ir : JtagIr} {s : State} (h : Ok q s) :
    OkN q (execBypass ir s) := by
  unfold execBypass
  repeat' first
    | with_reducible assumption | with_reducible apply tapLoad_ok | with_reducible apply okIte | with_reducible apply OkN.next

theorem execTrstNAssert_ok {q : List Instr} {s : State} (h : Ok q s) :
    OkN q (execTrstNAssert s) := by
  unfold execTrstNAssert
  repeat' first
    | with_reducible assumption | with_reducible apply tapLoad_ok | with_reducible apply OkN.next

end Sys2Proof.Machine
end

