-- ==== Sys2Proof/Laws/OkTarget.lean ====
section
/-! SUPPORT. Machine/Target.lean keeps the invariant of Laws/Ok.lean: one lemma for each operation. -/

namespace Sys2Proof.Machine

set_option linter.unusedVariables false
set_option linter.unusedSimpArgs false

theorem Tgt.of_ok {q : List Instr} {r : TgtAns} (h : OkO q r) : OkT q (Tgt.of r) := by
  cases r with
  | none => exact OkT.wait
  | some p => exact OkT.ans (h.get' rfl)

theorem foldPieces_ok {q : List Instr} {s : State} {f : State → Nat × Nat → TgtAns} {l : List (Nat × Nat)} (h : Ok q s)
    (h2 : ∀ t p, Ok q t → OkO q (f t p)) : OkO q (foldPieces s f l) := by
  unfold foldPieces
  refine okFoldO (fun y a hy => ?_) (OkO.some h)
  cases y with
  | none => exact OkO.none
  | some p =>
    obtain ⟨a1, t⟩ := p
    have ht : Ok q t := hy.get rfl
    dsimp only
    refine okIteO hy ?_
    split
    · rename_i e
      exact OkO.some ((h2 _ _ ht).get e)
    · exact OkO.none

theorem memRead_ok {q : List Instr} {s : State} {pa : Nat} {n : Nat} {act : ActId} (h : Ok q s) :
    OkO q (memRead s pa n act) := by
  unfold memRead
  repeat' first
    | with_reducible assumption | with_reducible intro _ | with_reducible apply foldPieces_ok | with_reducible apply plainRead_ok

theorem memWrite_ok {q : List Instr} {s : State} {pa : Nat} {d : List (Option Byte)} {poison : BitVec 128} {act : ActId} (h : Ok q s) :
    OkO q (memWrite s pa d poison act) := by
  unfold memWrite
  repeat' first
    | with_reducible assumption | with_reducible intro _ | with_reducible apply foldPieces_ok | with_reducible apply plainWrite_ok

theorem tgtMem_ok {q : List Instr} {s : State} {pa : Nat} {k : Packet} (h : Ok q s) :
    OkO q (tgtMem s pa k) := by
  unfold tgtMem
  repeat' first
    | with_reducible assumption | with_reducible intro _ | with_reducible apply memWrite_ok | with_reducible apply memRead_ok
    | with_reducible apply okIteO | with_reducible apply OkO.map | with_reducible exact OkP.snd ‹OkP q (_, _)› | with_reducible apply OkP.mk

theorem tgtReg_ok {q : List Instr} {s : State} {pa : Nat} {k : Packet} (h : Ok q s) :
    OkO q (tgtReg s pa k) := by
  unfold tgtReg
  repeat' first
    | with_reducible assumption | with_reducible apply tgtMem_ok | with_reducible apply regWr_ok | with_reducible apply regRd_ok
    | with_reducible apply okIteO | with_reducible apply OkO.some | with_reducible apply OkP.snd | split | with_reducible apply OkP.mk

theorem tgtCommand_ok {q : List Instr} {s : State} {src : EnqFrom} {qq : QueueId} {d : Nat} (h : Ok q s) :
    OkP q (tgtCommand s src qq d) := by
  unfold tgtCommand
  repeat' first
    | with_reducible assumption | with_reducible apply cancelCmd_ok | with_reducible apply okIte2 | with_reducible apply OkP.mk

theorem tgtQueue_ok {q : List Instr} {s : State} {qq : QueueId} {k : Packet} (h : Ok q s) :
    OkT q (tgtQueue s qq k) := by
  unfold tgtQueue
  repeat' first
    | with_reducible assumption | with_reducible apply schTal_ok | with_reducible apply enqueue_ok | with_reducible apply tgtCommand_ok
    | with_reducible apply dequeue_ok | with_reducible apply OkT.ite | with_reducible apply OkT.ans | with_reducible apply OkT.retry
    | with_reducible refine OkP.get ?_ ‹_ = (_, _)› | with_reducible apply OkP.snd | split

theorem tgtJournal_ok {q : List Instr} {s : State} {off : Nat} {k : Packet} (h : Ok q s) :
    OkP q (tgtJournal s off k) := by
  unfold tgtJournal
  repeat' first
    | with_reducible assumption | with_reducible apply okIte2 | split | with_reducible apply OkP.mk

theorem tgtRemote_ok {q : List Instr} {s : State} {p : PkgId} {off : Nat} {k : Packet} {pkt : Option Packet} (h : Ok q s) :
    OkT q (tgtRemote s p off k pkt) := by
  unfold tgtRemote
  repeat' first
    | with_reducible assumption | with_reducible apply remoteReq_ok | with_reducible apply OkT.ans | with_reducible apply OkT.wait
    | with_reducible apply OkT.taken | with_reducible refine OkR.sent_get ?_ ‹_› | split

theorem tgtHost_ok {q : List Instr} {s : State} {off : Nat} {k : Packet} {pkt : Option Packet} (h : Ok q s) :
    OkT q (tgtHost s off k pkt) := by
  unfold tgtHost
  repeat' first
    | with_reducible assumption | with_reducible apply hostWrite_ok | with_reducible apply hostRead1_ok | with_reducible apply OkT.ite
    | with_reducible apply OkT.ans | with_reducible apply OkT.wait | with_reducible apply OkT.taken | with_reducible apply OkP.snd
    | with_reducible refine OkO.get ?_ ‹_ = some (_, _)› | split

theorem tgtAccess_ok {q : List Instr} {s : State} {k : Packet} {pkt : Option Packet} (h : Ok q s) :
    OkT q (tgtAccess s k pkt) := by
  unfold tgtAccess
  repeat' first
    | with_reducible assumption | with_reducible apply Tgt.of_ok | with_reducible apply tgtMem_ok | with_reducible apply tgtReg_ok
    | with_reducible apply tgtQueue_ok | with_reducible apply tgtRemote_ok | with_reducible apply tgtHost_ok | with_reducible apply OkT.ite
    | with_reducible apply OkT.ans | split

theorem holdReq_ok {q : List Instr} {s : State} {n : NodeId} {u : PowerUnit} (h : Ok q s) :
    Ok q (holdReq s n u) := by
  unfold holdReq
  repeat' first
    | with_reducible assumption | with_reducible apply holdWake_ok | with_reducible apply lmpTal_ok | with_reducible apply okIte
    | with_reducible simp only [↓okUpd]

theorem performReq_ok {q : List Instr} {s : State} {t : State} {n : NodeId} {k : Packet} (h : Ok q s) (h2 : Ok q t) :
    Ok q (performReq s t n k) := by
  unfold performReq
  repeat' first
    | with_reducible assumption | with_reducible apply respond_ok | with_reducible apply tgtAccess_ok | with_reducible apply okIte
    | with_reducible refine OkT.ans_get ?_ ‹_› | with_reducible refine OkT.retry_get ?_ ‹_› | with_reducible refine OkT.taken_get ?_ ‹_›
    | split

theorem doTarget_ok {q : List Instr} {s : State} {n : NodeId} (h : Ok q s) :
    Ok q (doTarget s n) := by
  unfold doTarget
  repeat' first
    | with_reducible assumption | with_reducible apply takeArrived_ok | with_reducible apply tallyAdd_ok
    | with_reducible apply State.setNi_ok | with_reducible apply respond_ok | with_reducible apply lmpTal_ok
    | with_reducible apply holdReq_ok | with_reducible apply performReq_ok | with_reducible apply okIte
    | with_reducible refine OkO.get ?_ ‹_ = some (_, _)› | split | with_reducible simp only [↓okUpd]

theorem barUnmapped_ok {q : List Instr} {s : State} (h : Ok q s) :
    Ok q (barUnmapped s) := by
  unfold barUnmapped
  repeat' first
    | with_reducible assumption | with_reducible apply State.answerOnly_ok | with_reducible apply hifCount_ok

theorem bar0One_ok {q : List Instr} {s : State} {pa : Nat} {size : Nat} {wr : Bool} {d : List Byte} (h : Ok q s) :
    OkO q (bar0One s pa size wr d) := by
  unfold bar0One
  repeat' first
    | with_reducible assumption | with_reducible apply plainWrite_ok | with_reducible apply plainRead_ok | with_reducible apply regWr_ok
    | with_reducible apply regRd_ok | with_reducible apply okIteO | with_reducible apply OkO.some | with_reducible apply OkP.snd | split
    | with_reducible apply OkP.mk

theorem mmioErr_ok {q : List Instr} {s : State} {off : Nat} {o : Outc} (h : Ok q s) :
    Ok q (mmioErr s off o) := by
  unfold mmioErr
  repeat' first
    | with_reducible assumption | with_reducible apply hifCount_ok | with_reducible simp only [↓okUpd]

theorem doBar0_ok {q : List Instr} {s : State} {off : Nat} {size : Nat} {wr : Bool} {d : List Byte} (h : Ok q s) :
    Ok q (doBar0 s off size wr d) := by
  unfold doBar0
  repeat' first
    | with_reducible assumption | with_reducible intro _ | with_reducible apply barUnmapped_ok | with_reducible apply accPiece_ok
    | with_reducible apply bar0One_ok | with_reducible apply State.answer_ok | with_reducible apply mmioErr_ok | with_reducible apply okIte
    | with_reducible refine OkA.wait_get ?_ ‹_› | with_reducible refine OkA.done_get ?_ ‹_› | split

theorem doBar4_ok {q : List Instr} {s : State} {fn : BitVec 6} {off : Nat} {size : Nat} {wr : Bool} {d : List Byte} (h : Ok q s) :
    Ok q (doBar4 s fn off size wr d) := by
  unfold doBar4
  repeat' first
    | with_reducible assumption | with_reducible apply barUnmapped_ok | with_reducible apply accStore_ok | with_reducible apply accRead_ok
    | with_reducible apply State.answer_ok | with_reducible apply OkA.ite | with_reducible refine OkA.wait_get ?_ ‹_›
    | with_reducible refine OkA.done_get ?_ ‹_› | split

theorem doBar2Read_ok {q : List Instr} {s : State} {fn : BitVec 6} {off : Nat} {size : Nat} (h : Ok q s) :
    Ok q (doBar2Read s fn off size) := by
  unfold doBar2Read
  repeat' first
    | with_reducible assumption | with_reducible apply State.answer_ok | with_reducible apply barUnmapped_ok
    | with_reducible apply hifCount_ok | with_reducible apply okIte

theorem doBar_ok {q : List Instr} {s : State} {fn : BitVec 6} {bar : Bar} {off : BitVec 36} {wr : Bool} {size : Nat} {d : List Byte} (h : Ok q s) :
    Ok q (doBar s fn bar off wr size d) := by
  unfold doBar
  repeat' first
    | with_reducible assumption | with_reducible apply doBar0_ok | with_reducible apply barUnmapped_ok | with_reducible apply doBar4_ok
    | with_reducible apply doDoorbell_ok | with_reducible apply doBar2Read_ok | with_reducible apply okIte | split

theorem frameReq_ok {q : List Instr} {s : State} {f : CasFrame} {pa : Nat} (h : Ok q s) :
    OkP q (frameReq s f pa) := by
  unfold frameReq
  repeat' first
    | with_reducible assumption | with_reducible apply takeFree_ok | with_reducible apply okIte2
    | with_reducible refine OkP.get ?_ ‹_ = (_, _)› | split | with_reducible apply OkP.mk

theorem reqAnswer_ok {q : List Instr} {s : State} {f : CasFrame} (h : Ok q s) : OkA q (reqAnswer s f) := by
  unfold reqAnswer
  split
  · exact OkA.done h
  · dsimp only
    refine OkA.ite (OkA.done h) ?_
    refine accPiece_ok (frameReq_ok h) (fun t ht => ?_)
    split
    · rename_i e
      exact OkO.some ((tgtAccess_ok ht).ans_get e)
    · rename_i e
      exact OkO.some ((tgtAccess_ok ht).retry_get e)
    · exact OkO.none
    · rename_i e
      exact OkO.some ((tgtAccess_ok ht).taken_get e)

theorem doReq_ok {q : List Instr} {s : State} {f : CasFrame} (h : Ok q s) :
    Ok q (doReq s f) := by
  unfold doReq
  repeat' first
    | with_reducible assumption | with_reducible intro _ | with_reducible apply reqAnswer_ok | with_reducible apply casArrive_ok
    | with_reducible apply stayWake_ok | with_reducible apply casQueue_ok | with_reducible apply okIte
    | with_reducible refine OkA.wait_get ?_ ‹_› | with_reducible refine OkA.done_get ?_ ‹_› | split

theorem execRequestAtTarget_ok {q : List Instr} {node : NodeId} {s : State} (h : Ok q s) :
    OkN q (execRequestAtTarget node s) := by
  unfold execRequestAtTarget
  repeat' first
    | with_reducible assumption | with_reducible apply doTarget_ok | with_reducible apply OkN.next

theorem execBarAccess_ok {q : List Instr} {fn : BitVec 6} {bar : Bar} {off : BitVec 36} {wr : Bool} {size : Nat} {data : List Byte} {s : State} (h : Ok q s) :
    OkN q (execBarAccess fn bar off wr size data s) := by
  unfold execBarAccess
  repeat' first
    | with_reducible assumption | with_reducible apply doBar_ok | with_reducible apply OkN.next

theorem execReqReceive_ok {q : List Instr} {f : CasFrame} {s : State} (h : Ok q s) :
    OkN q (execReqReceive f s) := by
  unfold execReqReceive
  repeat' first
    | with_reducible assumption | with_reducible apply doReq_ok | with_reducible apply OkN.next

end Sys2Proof.Machine
end

