-- ==== Sys2Proof/Laws/OkDevAccess.lean ====
section
/-! SUPPORT. Machine/DevAccess.lean keeps the invariant of Laws/Ok.lean: one lemma for each operation. -/

namespace Sys2Proof.Machine

set_option linter.unusedVariables false
set_option linter.unusedSimpArgs false

theorem hostPiece_ok {q : List Instr} {s : State} {off : Nat} {n : Nat} {act : ActId} {d : PieceData} (h : Ok q s) :
    OkA q (hostPiece s off n act d) := by
  unfold hostPiece
  repeat' first
    | with_reducible assumption | with_reducible apply hostWrite_ok | with_reducible apply takeFree_ok | with_reducible apply OkA.ite
    | with_reducible apply OkA.wait | with_reducible apply OkA.done | with_reducible apply OkP.snd | split

theorem remotePiece_ok {q : List Instr} {s : State} {p : PkgId} {n : Nat} {d : PieceData} (h : Ok q s) :
    OkA q (remotePiece s p n d) := by
  unfold remotePiece
  repeat' first
    | with_reducible assumption | with_reducible apply takeFree_ok | with_reducible apply OkA.ite | with_reducible apply OkA.wait
    | with_reducible apply OkA.done | with_reducible apply OkP.snd | split

theorem Tgt.whole_ok {q : List Instr} {y0 : Tgt} (h : OkT q (y0)) :
    OkO q (Tgt.whole y0) := by
  unfold Tgt.whole
  repeat' first
    | with_reducible apply OkO.some | with_reducible exact OkO.none | with_reducible exact OkT.ans_get ‹OkT q (.ans _ _)› rfl
    | with_reducible exact OkT.taken_get ‹OkT q (.taken _)› rfl | split | with_reducible apply OkP.mk

theorem devPiece_ok {q : List Instr} {s : State} {who : Initiator} {pa : Nat} {n : Nat} {act : ActId} {d : PieceData} (h : Ok q s) :
    OkA q (devPiece s who pa n act d) := by
  unfold devPiece
  repeat' first
    | with_reducible assumption | with_reducible intro _ | with_reducible apply routed_ok | with_reducible apply hostPiece_ok
    | with_reducible apply remotePiece_ok | with_reducible apply accPiece_ok | with_reducible apply Tgt.whole_ok
    | with_reducible apply tgtAccess_ok | with_reducible apply OkA.done | with_reducible refine OkA.done_get ?_ ‹_› | split
    | with_reducible simp only [↓okUpd]

theorem devRead_ok {q : List Instr} {s : State} {who : Initiator} {pa : Nat} {n : Nat} {act : ActId} (h : Ok q s) :
    OkA q (devRead s who pa n act) := by
  unfold devRead
  repeat' first
    | with_reducible assumption | with_reducible intro _ | with_reducible apply accAll_ok | with_reducible apply devPiece_ok

theorem devWrite_ok {q : List Instr} {s : State} {who : Initiator} {pa : Nat} {d : List Byte} {act : ActId} (h : Ok q s) :
    OkA q (devWrite s who pa d act) := by
  unfold devWrite
  repeat' first
    | with_reducible assumption | with_reducible intro _ | with_reducible apply accAll_ok | with_reducible apply devPiece_ok

theorem accStays_ok {q : List Instr} {s : State} {t : State} (h : Ok q s) (h2 : Ok q t) :
    Ok q (accStays s t) := by
  unfold accStays
  repeat' first
    | with_reducible assumption | with_reducible apply stayWake_ok

theorem dmaStep_ok {q : List Instr} {who : Initiator} {act : ActId} {free : Option Nat} {r : DmaRun} {p : Nat × Nat × Nat} (h : Ok q (r).st) :
    Ok q (dmaStep who act free r p).st := by
  unfold dmaStep
  repeat' first
    | with_reducible assumption | with_reducible apply devPiece_ok | with_reducible refine OkA.wait_get ?_ ‹_›
    | with_reducible refine OkA.done_get ?_ ‹_› | split | with_reducible simp only [↓okUpd]

theorem dmaRun_ok {q : List Instr} {s : State} {ring : RingId} {idx : Word} {who : Initiator} {act : ActId} {segs : List (Nat × Nat)}
    {dst : Nat} (h : Ok q s) : Ok q (dmaRun s ring idx who act segs dst) := by
  unfold dmaRun
  dsimp only
  have h1 : OkP q (if dmaOverlaps segs dst then (some (takeFree s).1, (takeFree s).2) else (none, s)) := okIte2 (takeFree_ok h) h
  generalize (if dmaOverlaps segs dst then (some (takeFree s).1, (takeFree s).2) else (none, s)) = p at h1
  have hr := okFoldD (l := dmaParts segs dst) (f := dmaStep who act p.1)
    (x := { done := 0, flags := 0, stop := none, wait := false, st := p.2 }) (fun y a hy => dmaStep_ok hy) h1
  generalize List.foldl (dmaStep who act p.1) _ _ = r at hr
  refine okIte (accStays_ok h hr) ?_
  split
  · exact completeCmd_ok hr
  · exact completeCmd_ok hr

theorem dmaCopyEff_ok {q : List Instr} {ring : RingId} {idx : Word} {path : PathRes} {s : State} {d : Block64} (h : Ok q s) :
    Ok q (dmaCopyEff ring idx path s d) := by
  unfold dmaCopyEff
  repeat' first
    | with_reducible assumption | with_reducible apply completeOk_ok | with_reducible apply dmaRun_ok | with_reducible apply okIte | split

theorem dmaGatherEff_ok {q : List Instr} {ring : RingId} {idx : Word} {path : PathRes} {s : State} {d : Block64} (h : Ok q s) :
    Ok q (dmaGatherEff ring idx path s d) := by
  unfold dmaGatherEff
  repeat' first
    | with_reducible assumption | with_reducible apply completeOk_ok | with_reducible apply viaPath_ok | with_reducible apply devRead_ok
    | with_reducible apply accStays_ok | with_reducible apply dmaRun_ok | with_reducible apply okIte
    | with_reducible refine OkA.wait_get ?_ ‹_› | with_reducible refine OkA.done_get ?_ ‹_› | split | with_reducible simp only [↓okUpd]

end Sys2Proof.Machine
end

