-- ==== Sys2Proof/Laws/OkHostCmds.lean ====
section
/-! SUPPORT. Machine/HostCmds.lean keeps the invariant of Laws/Ok.lean: one lemma for each operation. -/

namespace Sys2Proof.Machine

set_option linter.unusedVariables false
set_option linter.unusedSimpArgs false

theorem writeThen_ok {q : List Instr} {s : State} {ring : RingId} {idx : Word} {x : Acc} {result : Word} {result2 : Word} (h : Ok q s) (h2 : OkA q (x)) :
    Ok q (writeThen s ring idx x result result2) := by
  unfold writeThen
  repeat' first
    | with_reducible assumption | with_reducible apply accStays_ok | with_reducible apply completeCmd_ok
    | with_reducible apply completeOk_ok | with_reducible apply okIte | with_reducible exact OkA.wait_get ‹OkA q (.wait _)› rfl
    | with_reducible exact OkA.done_get ‹OkA q (.done _ _)› rfl | split

theorem cmdRetried_ok {q : List Instr} {s : State} {ring : RingId} {idx : Word} (h : Ok q s) :
    Ok q (cmdRetried s ring idx) := by
  unfold cmdRetried
  repeat' first
    | with_reducible assumption | with_reducible simp only [↓okUpd]

theorem submitEff_ok {q : List Instr} {ring : RingId} {idx : Word} {path : PathRes} {s : State} {d : Block64} (h : Ok q s) :
    Ok q (submitEff ring idx path s d) := by
  unfold submitEff
  repeat' first
    | with_reducible assumption | with_reducible intro _ | with_reducible apply completeOk_ok | with_reducible apply viaPath_ok
    | with_reducible apply accPiece_ok | with_reducible apply enqueue_ok | with_reducible apply accStays_ok
    | with_reducible apply cmdRetried_ok | with_reducible apply tallyAdd_ok | with_reducible apply okIte | with_reducible apply OkO.some
    | with_reducible refine OkP.get ?_ ‹_ = (_, _)› | with_reducible refine OkA.wait_get ?_ ‹_› | with_reducible refine OkA.done_get ?_ ‹_›
    | split | with_reducible apply OkP.mk

theorem doTaskSubmit_ok {q : List Instr} {s : State} {ring : RingId} {idx : Word} {path : PathRes} (h : Ok q s) :
    Ok q (doTaskSubmit s ring idx path) := by
  unfold doTaskSubmit
  repeat' first
    | with_reducible assumption | with_reducible intro _ | with_reducible apply settleCmds_ok | with_reducible apply submitEff_ok
    | with_reducible apply runCmd_ok | with_reducible apply okIte | split

theorem cancelEff_ok {q : List Instr} {ring : RingId} {idx : Word} {path : PathRes} {s : State} {d : Block64} (h : Ok q s) :
    Ok q (cancelEff ring idx path s d) := by
  unfold cancelEff
  repeat' first
    | with_reducible assumption | with_reducible intro _ | with_reducible apply viaPath_ok | with_reducible apply accPiece_ok
    | with_reducible apply tgtCommand_ok | with_reducible apply accStays_ok | with_reducible apply completeOk_ok
    | with_reducible apply OkO.some | with_reducible refine OkA.wait_get ?_ ‹_› | with_reducible refine OkA.done_get ?_ ‹_› | split
    | with_reducible simp only [↓okUpd]

theorem budgetWords_ok {q : List Instr} {s : State} {r : RegionId} {d : Block64} (h : Ok q s) :
    Ok q (budgetWords s r d) := by
  unfold budgetWords
  repeat' first
    | with_reducible assumption | with_reducible intro _ | with_reducible apply budWordWrite_ok | with_reducible apply okIte
    | with_reducible apply okFold

theorem budgetEff_ok {q : List Instr} {ring : RingId} {idx : Word} {s : State} {d : Block64} (h : Ok q s) : Ok q (budgetEff ring idx s d) := by
  unfold budgetEff
  dsimp only
  refine okIte (completeOk_ok h) ?_
  have hx := okFoldA (l := budgetRegions s (dF d 8 1)) (f := fun x r =>
      match x with
      | .wait t => .wait t
      | .done a t =>
        if a.outc.good = false ∨ ((dF d 9 1) % 32 != 0) = false then .done a t
        else accPiece t 0x90 (budBase r + (dAct d).toNat * 0x40) (fun u => some (Ans.only .ok, budgetWords u r d)))
    (x := Acc.done (Ans.only .ok) s) (fun y r hy => by
      cases y with
      | wait t => exact hy
      | done a t =>
        have ht : Ok q t := hy.done_get rfl
        exact OkA.ite hy (accPiece_ok ht (fun u hu => OkO.some (budgetWords_ok hu)))) (OkA.done h)
  split
  · rename_i t e
    exact accStays_ok h (hx.wait_get e)
  · rename_i a t e
    have ht := hx.done_get e
    exact okIte (completeOk_ok ht) (completeOk_ok (okIte (dbudLimWrite_ok ht) ht))

theorem appendEff_ok {q : List Instr} {ring : RingId} {idx : Word} {s : State} {d : Block64} (h : Ok q s) :
    Ok q (appendEff ring idx s d) := by
  unfold appendEff
  repeat' first
    | with_reducible assumption | with_reducible apply completeOk_ok | with_reducible apply cmdRunning_ok | with_reducible apply jPush_ok
    | with_reducible apply okIte

theorem compactEff_ok {q : List Instr} {ring : RingId} {idx : Word} {s : State} {y3 : Block64} (h : Ok q s) :
    Ok q (compactEff ring idx s y3) := by
  unfold compactEff
  repeat' first
    | with_reducible assumption | with_reducible apply completeOk_ok | with_reducible apply cmdRunning_ok
    | with_reducible apply compactBegin_ok | with_reducible apply okIte

theorem journalReadEff_ok {q : List Instr} {ring : RingId} {idx : Word} {path : PathRes} {s : State} {d : Block64} (h : Ok q s) :
    Ok q (journalReadEff ring idx path s d) := by
  unfold journalReadEff
  repeat' first
    | with_reducible assumption | with_reducible apply completeOk_ok | with_reducible apply completeCmd_ok
    | with_reducible apply writeThen_ok | with_reducible apply viaPath_ok | with_reducible apply devWrite_ok | with_reducible apply okIte
    | split

theorem timeReadEff_ok {q : List Instr} {ring : RingId} {idx : Word} {path : PathRes} {s : State} {d : Block64} (h : Ok q s) :
    Ok q (timeReadEff ring idx path s d) := by
  unfold timeReadEff
  repeat' first
    | with_reducible assumption | with_reducible apply completeOk_ok | with_reducible apply writeThen_ok | with_reducible apply viaPath_ok
    | with_reducible apply devWrite_ok | with_reducible apply okIte

theorem timeStepEff_ok {q : List Instr} {ring : RingId} {idx : Word} {s : State} {d : Block64} (h : Ok q s) :
    Ok q (timeStepEff ring idx s d) := by
  unfold timeStepEff
  repeat' first
    | with_reducible assumption | with_reducible apply completeOk_ok | with_reducible apply stepTime_ok
    | with_reducible apply completeCmd_ok | with_reducible apply okIte

theorem timeFreqEff_ok {q : List Instr} {ring : RingId} {idx : Word} {s : State} {d : Block64} (h : Ok q s) :
    Ok q (timeFreqEff ring idx s d) := by
  unfold timeFreqEff
  repeat' first
    | with_reducible assumption | with_reducible apply completeOk_ok | with_reducible apply okIte
    | with_reducible refine okCmk ?_ rfl rfl rfl rfl

theorem timerConflict_ok {q : List Instr} {s : State} {ring : RingId} {idx : Word} {t : Nat} (h : Ok q s) :
    Ok q (timerConflict s ring idx t) := by
  unfold timerConflict
  repeat' first
    | with_reducible assumption | with_reducible apply completeCmd_ok

theorem timeArmEff_ok {q : List Instr} {ring : RingId} {idx : Word} {s : State} {d : Block64} (h : Ok q s) :
    Ok q (timeArmEff ring idx s d) := by
  unfold timeArmEff
  repeat' first
    | with_reducible assumption | with_reducible apply completeOk_ok | with_reducible apply armTimer_ok
    | with_reducible apply timerConflict_ok | with_reducible apply okIte | with_reducible refine OkS.get ?_ ‹_› | split
    | with_reducible simp only [↓okUpd]

theorem timeCancelEff_ok {q : List Instr} {ring : RingId} {idx : Word} {s : State} {d : Block64} (h : Ok q s) :
    Ok q (timeCancelEff ring idx s d) := by
  unfold timeCancelEff
  repeat' first
    | with_reducible assumption | with_reducible apply completeOk_ok | with_reducible apply timerConflict_ok
    | with_reducible apply freeTimer_ok | with_reducible apply okIte

theorem holdTx_ok {q : List Instr} {s : State} {ring : RingId} {idx : Word} {d : Block64} {table : BitVec 256} {payload : List Byte}
    (h : Ok q s) : OkS q (holdTx s ring idx d table payload) := by
  unfold holdTx
  dsimp only
  refine okIteS (OkS.some (okUpd.2 h)) ?_
  intro t e
  obtain ⟨u, hu, rfl⟩ := Option.map_eq_some_iff.1 e
  exact okUpd.2 (armTimer_ok h u hu)

theorem beaconTxEff_ok {q : List Instr} {ring : RingId} {idx : Word} {path : PathRes} {s : State} {d : Block64} (h : Ok q s) :
    Ok q (beaconTxEff ring idx path s d) := by
  unfold beaconTxEff
  repeat' first
    | with_reducible assumption | with_reducible apply completeOk_ok | with_reducible apply viaPath_ok | with_reducible apply devRead_ok
    | with_reducible apply accStays_ok | with_reducible apply holdTx_ok | with_reducible apply cmdRunning_ok
    | with_reducible apply timerConflict_ok | with_reducible apply okIte | with_reducible refine OkS.get ?_ ‹_›
    | with_reducible refine OkA.wait_get ?_ ‹_› | with_reducible refine OkA.done_get ?_ ‹_› | split | with_reducible simp only [↓okUpd]

theorem beaconOnEff_ok {q : List Instr} {ring : RingId} {idx : Word} {s : State} {d : Block64} (h : Ok q s) :
    Ok q (beaconOnEff ring idx s d) := by
  unfold beaconOnEff
  repeat' first
    | with_reducible assumption | with_reducible apply completeOk_ok | with_reducible apply completeCmd_ok | with_reducible apply okIte
    | split | with_reducible simp only [↓okUpd]

theorem beaconOffEff_ok {q : List Instr} {ring : RingId} {idx : Word} {s : State} {y3 : Block64} (h : Ok q s) :
    Ok q (beaconOffEff ring idx s y3) := by
  unfold beaconOffEff
  repeat' first
    | with_reducible assumption | with_reducible apply completeOk_ok | with_reducible apply completeCmd_ok | with_reducible apply criRxTo_ok
    | with_reducible apply okIte

theorem beaconTableEff_ok {q : List Instr} {ring : RingId} {idx : Word} {path : PathRes} {s : State} {d : Block64} (h : Ok q s) :
    Ok q (beaconTableEff ring idx path s d) := by
  unfold beaconTableEff
  repeat' first
    | with_reducible assumption | with_reducible apply completeOk_ok | with_reducible apply viaPath_ok | with_reducible apply devRead_ok
    | with_reducible apply accStays_ok | with_reducible apply okIte | with_reducible refine OkA.wait_get ?_ ‹_›
    | with_reducible refine OkA.done_get ?_ ‹_› | split | with_reducible simp only [↓okUpd]

theorem beaconFloorEff_ok {q : List Instr} {ring : RingId} {idx : Word} {path : PathRes} {s : State} {d : Block64} (h : Ok q s) :
    Ok q (beaconFloorEff ring idx path s d) := by
  unfold beaconFloorEff
  repeat' first
    | with_reducible assumption | with_reducible apply completeOk_ok | with_reducible apply writeThen_ok | with_reducible apply viaPath_ok
    | with_reducible apply devWrite_ok | with_reducible apply okIte | split

theorem queryEff_ok {q : List Instr} {ring : RingId} {idx : Word} {path : PathRes} {s : State} {d : Block64} (h : Ok q s) :
    Ok q (queryEff ring idx path s d) := by
  unfold queryEff
  repeat' first
    | with_reducible assumption | with_reducible apply writeThen_ok | with_reducible apply viaPath_ok | with_reducible apply devWrite_ok
    | with_reducible apply completeOk_ok | with_reducible apply okIte

theorem execTaskSubmit_ok {q : List Instr} {ring : RingId} {idx : Word} {path : PathRes} {s : State} (h : Ok q s) :
    OkN q (execTaskSubmit ring idx path s) := by
  unfold execTaskSubmit
  repeat' first
    | with_reducible assumption | with_reducible apply doTaskSubmit_ok | with_reducible apply OkN.next

theorem execTaskCancel_ok {q : List Instr} {ring : RingId} {idx : Word} {path : PathRes} {s : State} (h : Ok q s) :
    OkN q (execTaskCancel ring idx path s) := by
  unfold execTaskCancel
  repeat' first
    | with_reducible assumption | with_reducible intro _ | with_reducible apply runCmd_ok | with_reducible apply cancelEff_ok
    | with_reducible apply OkN.next

theorem execDmaCopy_ok {q : List Instr} {ring : RingId} {idx : Word} {path : PathRes} {s : State} (h : Ok q s) :
    OkN q (execDmaCopy ring idx path s) := by
  unfold execDmaCopy
  repeat' first
    | with_reducible assumption | with_reducible intro _ | with_reducible apply runCmd_ok | with_reducible apply dmaCopyEff_ok
    | with_reducible apply OkN.next

theorem execDmaGather_ok {q : List Instr} {ring : RingId} {idx : Word} {path : PathRes} {s : State} (h : Ok q s) :
    OkN q (execDmaGather ring idx path s) := by
  unfold execDmaGather
  repeat' first
    | with_reducible assumption | with_reducible intro _ | with_reducible apply runCmd_ok | with_reducible apply dmaGatherEff_ok
    | with_reducible apply OkN.next

theorem execBudgetSet_ok {q : List Instr} {ring : RingId} {idx : Word} {s : State} (h : Ok q s) :
    OkN q (execBudgetSet ring idx s) := by
  unfold execBudgetSet
  repeat' first
    | with_reducible assumption | with_reducible intro _ | with_reducible apply runCmd_ok | with_reducible apply budgetEff_ok
    | with_reducible apply OkN.next

theorem execJournalAppend_ok {q : List Instr} {ring : RingId} {idx : Word} {s : State} (h : Ok q s) :
    OkN q (execJournalAppend ring idx s) := by
  unfold execJournalAppend
  repeat' first
    | with_reducible assumption | with_reducible intro _ | with_reducible apply runCmd_ok | with_reducible apply appendEff_ok
    | with_reducible apply OkN.next

theorem execJournalCompact_ok {q : List Instr} {ring : RingId} {idx : Word} {s : State} (h : Ok q s) :
    OkN q (execJournalCompact ring idx s) := by
  unfold execJournalCompact
  repeat' first
    | with_reducible assumption | with_reducible intro _ | with_reducible apply runCmd_ok | with_reducible apply compactEff_ok
    | with_reducible apply OkN.next

theorem execJournalRead_ok {q : List Instr} {ring : RingId} {idx : Word} {path : PathRes} {s : State} (h : Ok q s) :
    OkN q (execJournalRead ring idx path s) := by
  unfold execJournalRead
  repeat' first
    | with_reducible assumption | with_reducible intro _ | with_reducible apply runCmd_ok | with_reducible apply journalReadEff_ok
    | with_reducible apply OkN.next

theorem execTimeCmdRead_ok {q : List Instr} {ring : RingId} {idx : Word} {path : PathRes} {s : State} (h : Ok q s) :
    OkN q (execTimeCmdRead ring idx path s) := by
  unfold execTimeCmdRead
  repeat' first
    | with_reducible assumption | with_reducible intro _ | with_reducible apply runCmd_ok | with_reducible apply timeReadEff_ok
    | with_reducible apply OkN.next

theorem execTimeCmdStep_ok {q : List Instr} {ring : RingId} {idx : Word} {s : State} (h : Ok q s) :
    OkN q (execTimeCmdStep ring idx s) := by
  unfold execTimeCmdStep
  repeat' first
    | with_reducible assumption | with_reducible intro _ | with_reducible apply runCmd_ok | with_reducible apply timeStepEff_ok
    | with_reducible apply OkN.next

theorem execTimeCmdFrequencyAdjust_ok {q : List Instr} {ring : RingId} {idx : Word} {s : State} (h : Ok q s) :
    OkN q (execTimeCmdFrequencyAdjust ring idx s) := by
  unfold execTimeCmdFrequencyAdjust
  repeat' first
    | with_reducible assumption | with_reducible intro _ | with_reducible apply runCmd_ok | with_reducible apply timeFreqEff_ok
    | with_reducible apply OkN.next

theorem execTimeCmdArmTimer_ok {q : List Instr} {ring : RingId} {idx : Word} {s : State} (h : Ok q s) :
    OkN q (execTimeCmdArmTimer ring idx s) := by
  unfold execTimeCmdArmTimer
  repeat' first
    | with_reducible assumption | with_reducible intro _ | with_reducible apply runCmd_ok | with_reducible apply timeArmEff_ok
    | with_reducible apply OkN.next

theorem execTimeCmdCancelTimer_ok {q : List Instr} {ring : RingId} {idx : Word} {s : State} (h : Ok q s) :
    OkN q (execTimeCmdCancelTimer ring idx s) := by
  unfold execTimeCmdCancelTimer
  repeat' first
    | with_reducible assumption | with_reducible intro _ | with_reducible apply runCmd_ok | with_reducible apply timeCancelEff_ok
    | with_reducible apply OkN.next

theorem execBeaconTransmit_ok {q : List Instr} {ring : RingId} {idx : Word} {path : PathRes} {s : State} (h : Ok q s) :
    OkN q (execBeaconTransmit ring idx path s) := by
  unfold execBeaconTransmit
  repeat' first
    | with_reducible assumption | with_reducible intro _ | with_reducible apply runCmd_ok | with_reducible apply beaconTxEff_ok
    | with_reducible apply OkN.next

theorem execBeaconReceiveOn_ok {q : List Instr} {ring : RingId} {idx : Word} {s : State} (h : Ok q s) :
    OkN q (execBeaconReceiveOn ring idx s) := by
  unfold execBeaconReceiveOn
  repeat' first
    | with_reducible assumption | with_reducible intro _ | with_reducible apply runCmd_ok | with_reducible apply beaconOnEff_ok
    | with_reducible apply OkN.next

theorem execBeaconReceiveOff_ok {q : List Instr} {ring : RingId} {idx : Word} {s : State} (h : Ok q s) :
    OkN q (execBeaconReceiveOff ring idx s) := by
  unfold execBeaconReceiveOff
  repeat' first
    | with_reducible assumption | with_reducible intro _ | with_reducible apply runCmd_ok | with_reducible apply beaconOffEff_ok
    | with_reducible apply OkN.next

theorem execBeaconLoadTable_ok {q : List Instr} {ring : RingId} {idx : Word} {path : PathRes} {s : State} (h : Ok q s) :
    OkN q (execBeaconLoadTable ring idx path s) := by
  unfold execBeaconLoadTable
  repeat' first
    | with_reducible assumption | with_reducible intro _ | with_reducible apply runCmd_ok | with_reducible apply beaconTableEff_ok
    | with_reducible apply OkN.next

theorem execBeaconReadNoiseFloor_ok {q : List Instr} {ring : RingId} {idx : Word} {path : PathRes} {s : State} (h : Ok q s) :
    OkN q (execBeaconReadNoiseFloor ring idx path s) := by
  unfold execBeaconReadNoiseFloor
  repeat' first
    | with_reducible assumption | with_reducible intro _ | with_reducible apply runCmd_ok | with_reducible apply beaconFloorEff_ok
    | with_reducible apply OkN.next

theorem execFaultInject_ok {q : List Instr} {ring : RingId} {idx : Word} {s : State} (h : Ok q s) :
    OkN q (execFaultInject ring idx s) := by
  unfold execFaultInject
  repeat' first
    | with_reducible assumption | with_reducible intro _ | with_reducible apply runCmd_ok | with_reducible apply injectCmd_ok
    | with_reducible apply OkN.next

theorem execFaultQuery_ok {q : List Instr} {ring : RingId} {idx : Word} {path : PathRes} {s : State} (h : Ok q s) :
    OkN q (execFaultQuery ring idx path s) := by
  unfold execFaultQuery
  repeat' first
    | with_reducible assumption | with_reducible intro _ | with_reducible apply runCmd_ok | with_reducible apply queryEff_ok
    | with_reducible apply OkN.next

end Sys2Proof.Machine
end

