-- ==== Sys2Proof/Laws/OkConfigCmds.lean ====
section
/-! SUPPORT. Machine/ConfigCmds.lean keeps the invariant of Laws/Ok.lean: one lemma for each operation. -/

namespace Sys2Proof.Machine

set_option linter.unusedVariables false
set_option linter.unusedSimpArgs false

theorem stageList_ok {q : List Instr} {s : State} {ring : RingId} {idx : Word} {d : Block64} {l : List Byte} (h : Ok q s) :
    Ok q (stageList s ring idx d l) := by
  unfold stageList
  repeat' first
    | with_reducible assumption | with_reducible apply completeOk_ok | with_reducible apply devWrite_ok | with_reducible apply accStays_ok
    | with_reducible apply okIte | with_reducible refine OkA.wait_get ?_ ‹_› | with_reducible refine OkA.done_get ?_ ‹_› | split
    | with_reducible simp only [↓okUpd]

theorem stageEff_ok {q : List Instr} {ring : RingId} {idx : Word} {path : PathRes} {s : State} {d : Block64} (h : Ok q s) :
    Ok q (stageEff ring idx path s d) := by
  unfold stageEff
  repeat' first
    | with_reducible assumption | with_reducible apply completeOk_ok | with_reducible apply viaPath_ok | with_reducible apply devRead_ok
    | with_reducible apply accStays_ok | with_reducible apply stageList_ok | with_reducible apply okIte
    | with_reducible refine OkA.wait_get ?_ ‹_› | with_reducible refine OkA.done_get ?_ ‹_› | split

theorem stageWrite_ok {q : List Instr} {s : State} {e : StageEnt} (h : Ok q s) :
    OkO q (stageWrite s e) := by
  unfold stageWrite
  repeat' first
    | with_reducible assumption | with_reducible apply regWrite_ok | with_reducible exact OkO.none | split
    | with_reducible simp only [↓okUpd]

theorem runSet_ok {q : List Instr} {s : State} {l : List StageEnt} (h : Ok q s) : Ok q (runSet s l).st := by
  unfold runSet
  refine okFoldC (fun y a hy => ?_) h
  split
  · rename_i e
    have ht := (stageWrite_ok hy).get e
    split
    · exact ht
    · split <;> exact hy
  · exact hy

theorem withCommits_ok {q : List Instr} {s : State} (h : Ok q s) : Ok q (withCommits s) :=
  okFold (fun _ _ ht => runSet_ok ht) h

theorem setGates_ok {q : List Instr} {s : State} {l : List StageEnt} (h : Ok q s) : OkA q (setGates s l) :=
  accAll_ok h (fun _ _ ht => accPiece_ok ht (fun _ hu => OkO.some hu))

theorem commitSet_ok {q : List Instr} {s : State} {ring : RingId} {idx : Word} {b : Boundary} {l : List StageEnt} (h : Ok q s) :
    Ok q (commitSet s ring idx b l) := by
  unfold commitSet
  repeat' first
    | with_reducible assumption | with_reducible apply completeOk_ok | with_reducible apply completeCmd_ok
    | with_reducible apply cmdRunning_ok | with_reducible apply okIte | split | with_reducible simp only [↓okUpd]

theorem commitEff_ok {q : List Instr} {ring : RingId} {idx : Word} {s : State} {d : Block64} (h : Ok q s) :
    Ok q (commitEff ring idx s d) := by
  unfold commitEff
  repeat' first
    | with_reducible assumption | with_reducible apply completeOk_ok | with_reducible apply devRead_ok | with_reducible apply accStays_ok
    | with_reducible apply setGates_ok | with_reducible apply commitSet_ok | with_reducible apply okIte
    | with_reducible refine OkA.wait_get ?_ ‹_› | with_reducible refine OkA.done_get ?_ ‹_› | split | with_reducible simp only [↓okUpd]

theorem commitFires_ok {q : List Instr} {s : State} {c : Commit} (h : Ok q s) : Ok q (commitFires s c) :=
  okIte (completeOk_ok h) (completeOk_ok (runSet_ok h))

theorem doBoundary_ok {q : List Instr} {s : State} {num : BitVec 3} {sfn : BitVec 10} {slot : BitVec 8} (h : Ok q s) :
    Ok q (doBoundary s num sfn slot) := by
  unfold doBoundary
  repeat' first
    | with_reducible assumption | with_reducible intro _ | with_reducible apply settleCmds_ok | with_reducible apply commitFires_ok
    | with_reducible apply okIte | with_reducible apply okFold | with_reducible simp only [↓okUpd]

theorem execCfgStage_ok {q : List Instr} {ring : RingId} {idx : Word} {path : PathRes} {s : State} (h : Ok q s) :
    OkN q (execCfgStage ring idx path s) := by
  unfold execCfgStage
  repeat' first
    | with_reducible assumption | with_reducible intro _ | with_reducible apply runCmd_ok | with_reducible apply stageEff_ok
    | with_reducible apply OkN.next

theorem execCfgCommit_ok {q : List Instr} {ring : RingId} {idx : Word} {s : State} (h : Ok q s) :
    OkN q (execCfgCommit ring idx s) := by
  unfold execCfgCommit
  repeat' first
    | with_reducible assumption | with_reducible intro _ | with_reducible apply runCmd_ok | with_reducible apply commitEff_ok
    | with_reducible apply OkN.next

theorem execCommitBoundary_ok {q : List Instr} {num : BitVec 3} {sfn : BitVec 10} {slot : BitVec 8} {s : State} (h : Ok q s) :
    OkN q (execCommitBoundary num sfn slot s) := by
  unfold execCommitBoundary
  repeat' first
    | with_reducible assumption | with_reducible apply doBoundary_ok | with_reducible apply OkN.next

end Sys2Proof.Machine
end

