-- ==== Sys2Proof/Laws/OkTick.lean ====
section
/-! SUPPORT. Machine/Tick.lean keeps the invariant of Laws/Ok.lean: one lemma for each operation. -/

namespace Sys2Proof.Machine

set_option linter.unusedVariables false
set_option linter.unusedSimpArgs false

theorem timeCycle_ok {q : List Instr} {s : State} (h : Ok q s) : Ok q (timeCycle s) :=
  okAtUnits h

theorem heldCycle_ok {q : List Instr} {s : State} {g : CoreId} (h : Ok q s) :
    Ok q (heldCycle s g) := by
  unfold heldCycle
  repeat' first
    | with_reducible assumption | with_reducible apply coreProgress_ok | with_reducible apply okIte

theorem coreCycle_ok {q : List Instr} {s : State} {g : CoreId} (h : Ok q s) :
    Ok q (coreCycle s g) := by
  unfold coreCycle
  repeat' first
    | with_reducible assumption | with_reducible apply State.setCore_ok | with_reducible apply tallyAdd_ok
    | with_reducible apply heldCycle_ok | with_reducible apply okIte | exact CoreOk.keep (Ok.core ‹Ok q _› _) rfl rfl rfl rfl rfl rfl rfl
    | split | with_reducible simp only [↓okUpd]

theorem scoreCycle_ok {q : List Instr} {s : State} {gc : ClusterId} {k : BitVec 3} (h : Ok q s) :
    Ok q (scoreCycle s gc k) := by
  unfold scoreCycle
  repeat' first
    | with_reducible assumption | with_reducible apply schTal_ok | with_reducible apply State.setSlice_ok
    | with_reducible apply chargeCycle_ok | with_reducible apply okIte

theorem idleCycle_ok {q : List Instr} {s : State} {gc : ClusterId} (h : Ok q s) :
    Ok q (idleCycle s gc) := by
  unfold idleCycle
  repeat' first
    | with_reducible assumption | with_reducible apply State.setSlice_ok | with_reducible apply okIte

theorem clusterCycle_ok {q : List Instr} {s : State} {gc : ClusterId} (h : Ok q s) :
    Ok q (clusterCycle s gc) := by
  unfold clusterCycle
  repeat' first
    | with_reducible assumption | with_reducible intro _ | with_reducible apply idleCycle_ok | with_reducible apply scoreCycle_ok
    | with_reducible apply coreCycle_ok | with_reducible apply okFold

theorem depthCycle_ok {q : List Instr} {s : State} {gc : ClusterId} (h : Ok q s) :
    Ok q (depthCycle s gc) := by
  unfold depthCycle
  repeat' first
    | with_reducible assumption | with_reducible intro _ | with_reducible apply qTal_ok | with_reducible apply okIte
    | with_reducible apply okFold

theorem engineCycle_ok {q : List Instr} {s : State} {e : EngId} (h : Ok q s) :
    Ok q (engineCycle s e) := by
  unfold engineCycle
  repeat' first
    | with_reducible assumption | with_reducible apply engTal_ok | with_reducible apply okIte | split | with_reducible simp only [↓okUpd]

theorem regionCycle_ok {q : List Instr} {s : State} {r : RegionId} (h : Ok q s) :
    Ok q (regionCycle s r) := by
  unfold regionCycle
  repeat' first
    | with_reducible assumption | with_reducible intro _ | with_reducible apply clusterCycle_ok | with_reducible apply depthCycle_ok
    | with_reducible apply engineCycle_ok | with_reducible apply okIte | with_reducible apply okFold

theorem ppsEnd_ok {q : List Instr} {s : State} {n : Bool} (h : Ok q s) :
    Ok q (ppsEnd s n) := by
  unfold ppsEnd
  repeat' first
    | with_reducible assumption | with_reducible apply State.setPps_ok | with_reducible apply okIte

theorem mgtCycle_ok {q : List Instr} {s : State} (h : Ok q s) :
    Ok q (mgtCycle s) := by
  unfold mgtCycle
  repeat' first
    | with_reducible assumption | with_reducible apply hifCount_ok | with_reducible apply wmapStep_ok | with_reducible apply okIte

theorem flushAll_ok {q : List Instr} {s : State} (h : Ok q s) :
    Ok q (flushAll s) := by
  unfold flushAll
  repeat' first
    | with_reducible assumption | with_reducible intro _ | with_reducible apply flushPort_ok | with_reducible apply okFold | split

theorem hubCycle_ok {q : List Instr} {s : State} (h : Ok q s) :
    Ok q (hubCycle s) := by
  unfold hubCycle
  repeat' first
    | with_reducible assumption | with_reducible apply ppsEnd_ok | with_reducible apply mgtCycle_ok | with_reducible apply flushAll_ok
    | with_reducible apply settleCmds_ok | with_reducible apply tripRepair_ok | with_reducible apply scvRefill_ok
    | with_reducible apply okIte | split | with_reducible simp only [↓okUpd]

theorem rootCycle_ok {q : List Instr} {s : State} (h : Ok q s) :
    Ok q (rootCycle s) := by
  unfold rootCycle
  repeat' first
    | with_reducible assumption | with_reducible intro _ | with_reducible apply timeCycle_ok | with_reducible apply hubCycle_ok
    | with_reducible apply regionCycle_ok | with_reducible apply okIte | with_reducible apply okFold | with_reducible apply okUpTo
    | with_reducible simp only [↓okUpd]

end Sys2Proof.Machine
end

