-- ==== Sys2Proof/Tests/Slice0.lean ====
section
/-! SUPPORT. Tests of single commands and witnesses for the hypotheses of the statements: a `met_` theorem shows states and operands that meet the
hypotheses of a statement, a `test_` theorem what a command answers there. Expected values are those of the specification's rules and worked
examples, or hand calculation from them. -/

namespace Sys2Proof.Tests

open Sys2Proof Sys2Proof.Machine

set_option Elab.async false

/-- Region 0 ACTIVE with its clusters. -/
def regionUp : RegionState := { RegionState.reset with st := .active, c0 := .active, c1 := .active, c2 := .active, c3 := .active }

/-- Package 0 after boot: region 0 enabled, the memories of cluster 0, core 0 and the hub initialised. -/
def up : State :=
  { State.reset with
    inits := [(initKey (.cm 0), .done), (initKey (.dmem 0), .done), (initKey (.imem 0), .done), (initKey (.rm 0), .done), (initKey .hub, .done)]
    hif := { Hif.reset with ready := true, linkUp := true, ringen := true }
    lmp := { Lmp.reset with regions := [(0, regionUp)] }
    mgc := { Mgc.reset with porst := false, step := 10, done := true, role := true, mcRunning := true } }

/-- The command answers exactly this next state. -/
def yields (c : Instr) (s t : State) : Bool :=
  match exec c s with
  | .next u => decide (u = t)
  | .fault _ | .refused _ => false

/-- The command answers a next state with this property. -/
def leads (c : Instr) (s : State) (p : State → Bool) : Bool :=
  match exec c s with
  | .next u => p u
  | .fault _ | .refused _ => false

/-- Four slots that do nothing. -/
def noOps : Bundle := { a := .nop, b := .nop, c := .nop, d := .nop }

/-- A task descriptor (R187): priority, activity, class, NODL, NOCOMPL, deadline, tag, CAFF, AFF, completion queue. -/
def taskE (prio act cls nodl nocompl deadline tag caff aff cqid : Nat) : Entry :=
  BitVec.ofNat 256 (packLE [(4, 1), (3, prio), (1, 0), (9, act), (4, cls), (1, nodl), (1, nocompl), (9, 0), (32, deadline), (32, tag), (16, caff),
    (8, aff), (8, 0), (16, 0x100), (16, cqid)])
/-- A queue entry that arrived with number n. -/
def qent (e : Entry) (n : Nat) : QEnt := { e := e, seq := n, at0 := 0, dead := false, bad := false }
/-- An enabled queue of capacity 4 whose entries cores take up as tasks, by consumer code. -/
def openQueue (cons : BitVec 2) (l : List QEnt) : Queue := { Queue.reset 1 with en := true, cons := cons, cap := 4, ents := l }
/-- `up` with queue lq of cluster 0. -/
def withQueue (s : State) (lq : BitVec 10) (q : Queue) : State := s.updSlice 0 (fun x => x.setQueue lq q)
/-- A task as a core holds it. -/
def taskT (e : Entry) (n : Nat) (lvl : BitVec 3) : Task :=
  { raw := e, qid := 1, level := lvl, cls := 0, seq := n, charged := 5, stolen := false, home := 0, noticed := false, missed := false, budget := false,
    dead := false }
/-- A slice core with its task. -/
def coreWith (st : SchedState) (t : Task) : SCore := { SCore.reset with st := st, cur := some t }
/-- `up` with slice core k of cluster 0, all cores of the slice enabled. -/
def withScore (s : State) (k : BitVec 3) (y : SCore) : State := s.updSlice 0 (fun x => { x.setScore k y with coreen := 0xFF })

/-! ## Cores -/

/-- Registers with values at the ends of their ranges: S1 negative, S2 a shift count above 31, S4 a branch target, A1 in data memory, A2 in
cluster memory, V1 and V2 of extreme lanes, AC1 of the largest element. -/
def someRegs : CoreRegs :=
  { s := [(1, 0x80000001), (2, 35), (4, 0x1234), (5, 0x100080), (31, 0x1238)]
    a := [(1, 0x40), (2, 0x100040), (3, 0x300040), (4, 0x1F800)]
    n := [(1, 0xFFFFFFF0), (2, 0x40)]
    v := [(1, mkLanes (fun i => if i = 0 then -32768 else if i = 1 then 32767 else i)), (2, mkLanes (fun i => if i = 0 then -32768 else 3))]
    ac := [(1, mkAcc (fun e => if e = 0 then 1610612736 else if e = 1 then -1000000000 else if e = 2 then 98304 else if e = 3 then -98304 else 0))]
    scf := 0x44 }

/-- Core 0 runs at 0x100 with these registers. -/
def runs : State := (up.setCore 0 { Core.reset with st := .running, pc := 0x100, r := someRegs }).setBytes (dmemBase 0 + 0x40) [0x81, 0xFE, 0x34, 0x12]

/-- Core 0 runs as `runs` does, with other control registers and loop registers. -/
def runsWith (f : Core → Core) : State := runs.updCore 0 f

/-- Every operation of slot D but QENQ, QDEQ and VSTA can execute here. -/
def slotDOps : List Op :=
  [.alu .add 3 1 2, .movi 3 0x8000, .br .lt false 1 0xFFFF, .j 2, .call 2, .ret 0, .loop 5 3, .loops 4 3, .mfc 3 0, .mtc 4 0x0A, .rti, .wait,
   .fence, .nop]

theorem met_scalar : slotDOps.all (fun o => executes runs 0 (inD noOps o)) = true := by decide +kernel
theorem met_addressing :
    ([Op.addaN 1 1, .addaI 1 0x1FFF, .mova 1 5, .movn 1 5, .movas 3 1, .ldh ⟨3, 1, .off 1⟩, .ldw ⟨3, 1, .postN 1⟩, .vld ⟨3, 2, .postI 0x1FFF⟩,
      .vldu ⟨3, 2, .off 0⟩, .sth ⟨1, 1, .off 1⟩, .stw ⟨1, 1, .postI 1⟩, .vst ⟨1, 2, .postN 2⟩, .vsta ⟨1, 2, 0, 2, .postI 1⟩].all
        (fun o => executes runs 0 (inLs noOps .a o) && executes runs 0 (inLs noOps .b o))) = true ∧
      bundleStores runs 0 (inLs noOps .a .nop) = [] := by decide +kernel
theorem met_vector :
    ([Op.mac .cmac 1 1 2, .mac .rmac 1 1 2, .acclr 1, .acset 1 2, .vbin .add 3 1 2, .vneg 3 1, .vconj 3 1, .vshrr 3 1 4, .vmov 3 1, .vbcst 3 1 15,
      .acmv 4 1 2 0, .acmv 4 1 0 5, .acmv 4 1 1 0, .acsh 3 1].all (fun o => executes runs 0 (inC noOps o))) = true := by decide +kernel

/-- R509: shift counts are the low 5 bits of Sb; SAR and CMPLT are signed, MUL keeps the low word. -/
theorem test_scalar :
    leads (.shl 0 3 1 2 noOps) runs (fun t => (t.core 0).r.getS 3 == 8 && (t.core 0).pc == 0x110) = true ∧
    leads (.shr 0 3 1 2 noOps) runs (fun t => (t.core 0).r.getS 3 == 0x10000000) = true ∧
    leads (.sar 0 3 1 2 noOps) runs (fun t => (t.core 0).r.getS 3 == 0xF0000000) = true ∧
    leads (.cmplt 0 3 1 2 noOps) runs (fun t => (t.core 0).r.getS 3 == 1) = true ∧
    leads (.mul 0 3 1 1 noOps) runs (fun t => (t.core 0).r.getS 3 == 1) = true ∧
    leads (.sub 0 3 2 1 noOps) runs (fun t => (t.core 0).r.getS 3 == 0x80000022) = true ∧
    leads (.movi 0 3 0x8000 noOps) runs (fun t => (t.core 0).r.getS 3 == 0xFFFF8000) = true := by decide +kernel

/-- R509, R70: ADDA adds 4 times its signed immediate; a load sign-extends; a post-modified base moves by immediate times size. -/
theorem test_addressing :
    leads (.adda 0 .b 1 (.imm 0x1FFF) noOps) runs (fun t => (t.core 0).r.getA 1 == 0x3C) = true ∧
    leads (.adda 0 .b 1 (.nm 1) noOps) runs (fun t => (t.core 0).r.getA 1 == 0x30) = true ∧
    leads (.ldh 0 .a ⟨3, 1, .off 0⟩ noOps) runs (fun t => (t.core 0).r.getS 3 == 0xFFFFFE81 && (t.core 0).r.getA 1 == 0x40) = true ∧
    leads (.ldh 0 .b ⟨3, 1, .postI 0x1FFF⟩ noOps) runs (fun t => (t.core 0).r.getS 3 == 0xFFFFFE81 && (t.core 0).r.getA 1 == 0x3E) = true ∧
    leads (.ldw 0 .a ⟨3, 1, .postN 1⟩ noOps) runs (fun t => (t.core 0).r.getS 3 == 0x1234FE81 && (t.core 0).r.getA 1 == 0x30) = true ∧
    leads (.stw 0 .a ⟨4, 2, .postI 1⟩ noOps) runs (fun t => t.bytes (clusterBase 0 + 0x40) 4 == [0x34, 0x12, 0, 0] &&
      (t.core 0).r.getA 2 == 0x100044) = true := by decide +kernel

/-- R64, R62 (the worked example of a 16-point transform, stage 1): AUTO shifts by 1; halves round away from zero. -/
theorem test_scaled_move :
    leads (.acmv 0 4 1 2 0 noOps) runs (fun t => lane ((t.core 0).r.getV 4) 0 == 24576 && lane ((t.core 0).r.getV 4) 1 == -15259 &&
      lane ((t.core 0).r.getV 4) 2 == 2 && lane ((t.core 0).r.getV 4) 3 == -2 && scfExp (t.core 0).r.scf == 1) = true ∧
    leads (.acsh 0 3 1 noOps) runs (fun t => (t.core 0).r.getS 3 == 1) = true ∧
    autoShift [536870912] = 0 ∧ autoShift [100000000] = -3 := by decide +kernel

/-- R60 (the worked example of a long sum): in SAT mode the element is pinned at 2^39 − 1, in WRAP mode it wraps; GOVF either way. -/
theorem test_guard :
    guard40 true 549755813888 = (549755813887, true) ∧ guard40 false 549755813888 = (-549755813888, true) ∧
      (scaleEl 11 442384908287).1 = 6592 ∧ (scaleEl 11 450974842880).1 = 6720 := by decide +kernel
theorem test_cmac :
    leads (.cmac 0 0 2 2 noOps) runs (fun t => accEl ((t.core 0).r.getAc 0) 0 == 1073741824 - 9 && accEl ((t.core 0).r.getAc 0) 1 == -196608) = true ∧
    leads (.cmacj 0 0 2 2 noOps) runs (fun t => accEl ((t.core 0).r.getAc 0) 0 == 1073741824 + 9 && accEl ((t.core 0).r.getAc 0) 1 == 0) = true ∧
    leads (.vneg 0 3 1 noOps) runs (fun t => lane ((t.core 0).r.getV 3) 0 == 32767 && (t.core 0).c.acst == 0x100) = true ∧
    leads (.vaddw 0 3 2 2 noOps) runs (fun t => lane ((t.core 0).r.getV 3) 0 == 0 && (t.core 0).c.acst == 0) = true ∧
    leads (.vconj 0 3 1 noOps) runs (fun t => lane ((t.core 0).r.getV 3) 1 == -32767 && lane ((t.core 0).r.getV 3) 2 == 2) = true := by decide +kernel

/-- R83: taken and untaken branches; CALL leaves the next bundle's address in S31; RET goes to S31 without its low bits. -/
theorem test_branch :
    leads (.br 0 .lt false 1 0xFFFF noOps) runs (fun t => (t.core 0).pc == 0xF0) = true ∧
    leads (.br 0 .ge false 1 0xFFFF noOps) runs (fun t => (t.core 0).pc == 0x110) = true ∧
    leads (.call 0 2 noOps) runs (fun t => (t.core 0).pc == 0x120 && (t.core 0).r.getS 31 == 0x110) = true ∧
    leads (.ret 0 0 noOps) runs (fun t => (t.core 0).pc == 0x1230) = true := by decide +kernel

/-- R67, R68: LOOP opens a level; at the last bundle of the body the count falls and the pc goes back; a LOOPS of count 0 skips the body. -/
theorem test_loops :
    leads (.loop 0 5 3 noOps) runs (fun t => (t.core 0).loops == { depth := 1, lc := [(0, 5)], lb := [(0, 0x110)], le := [(0, 0x130)] } &&
      (t.core 0).pc == 0x110) = true ∧
    leads (.nop 0 noOps) (runsWith (fun c => { c with loops := { depth := 1, lc := [(0, 2)], lb := [(0, 0x80)], le := [(0, 0x100)] } }))
      (fun t => (t.core 0).pc == 0x80 && (t.core 0).loops.depth == 1 && sget 0 (t.core 0).loops.lc 0 == 1) = true ∧
    leads (.nop 0 noOps) (runsWith (fun c => { c with loops := { depth := 1, lc := [(0, 1)], lb := [(0, 0x80)], le := [(0, 0x100)] } }))
      (fun t => (t.core 0).pc == 0x110 && (t.core 0).loops.depth == 0) = true ∧
    leads (.loops 0 6 3 noOps) runs (fun t => (t.core 0).pc == 0x140 && (t.core 0).loops.depth == 0) = true := by decide +kernel

/-- A level 0 trap register set to return from. -/
def saved0 : TrapRegs := { TrapRegs.reset with epc := 0x208, estat := 5, tvec := 0x400 }

theorem met_control :
    noMarks (inD noOps .rti) = true ∧ executes (runsWith (fun c => { c with t0 := saved0 })) 0 (inD noOps .rti) = true ∧
    (runs.core 0).c.priv ≠ 2 ∧ postedOpen runs 0 = false ∧
    executes (runsWith (fun c => { c with c := { c.c with priv := 2 } })) 0 (inD noOps .nop) = true := by decide +kernel
/-- R77, R81, R79: RTI restores; WAIT without an interrupt waits; a P2 task's RTI takes a privilege violation. -/
theorem test_control :
    leads (.rti 0 noOps) (runsWith (fun c => { c with t0 := saved0 })) (fun t => (t.core 0).pc == 0x200 && (t.core 0).c.priv == 1 &&
      (t.core 0).c.ie) = true ∧
    leads (.wait 0 noOps) runs (fun t => (t.core 0).st == .wait && (t.core 0).pc == 0x110) = true ∧
    leads (.rti 0 noOps) (runsWith (fun c => { c with t0 := saved0, c := { c.c with priv := 2 } })) (fun t => (t.core 0).pc == 0x400 &&
      (t.core 0).t0.epc == 0x100 && (t.core 0).t0.estat == 2 && (t.core 0).t0.tcause == 4 && (t.core 0).c.priv == 0) = true ∧
    leads (.mfc 0 3 0 noOps) runs (fun t => (t.core 0).r.getS 3 == cregRead (runs.core 0) 0) = true := by decide +kernel

/-! ## Coprocessors, queues of a core, events -/

/-- Both units enabled; MX1 is the Hermitian matrix of the worked example of MCHOL, MX2 what MCHOL gives, MX3 its right side; the SBU demaps
16-QAM with UNIT 6000 and GAIN 20, for an interleaver of 8 bits. -/
def cps : Core :=
  { Core.reset with
    st := .running, pc := 0x100
    r := { CoreRegs.reset with a := [(1, 0x800)], s := [(1, 0x1234), (2, 24)], v := [(1, mkLanes (fun i => if i = 0 then -9000 else if i = 1 then 2000 else 0))] }
    cmu := { mx := [(1, mkMx (fun i k => if i = 0 ∧ k = 0 then ⟨8192, 0⟩ else if i = 1 ∧ k = 0 then ⟨4096, 0⟩ else if i = 1 ∧ k = 1 then ⟨10240, 0⟩
                       else if i = k then ⟨16384, 0⟩ else ⟨0, 0⟩)),
                    (3, mkMx (fun i k => if k = 0 ∧ i < 2 then ⟨8192, 0⟩ else ⟨0, 0⟩))],
             ma := [(0, mkAcc (fun e => e))], flg := 0, exp := 3 }
    sbu := { wb := [(0, 9)], ctl := [(3, 0x400), (4, 6000 + 20 * 65536), (5, 8)] }
    c := { CoreCtl.reset with cpen := 0x3333 } }
def cpState : State := up.setCore 0 cps
/-- Every operation of both units with fields that they take. -/
def cpOps : List Op :=
  [.cp false 0 ⟨15, 1, 0, 0⟩, .cp false 1 ⟨2, 1, 0, 0⟩, .cp false 2 ⟨1, 15, 0, 0⟩, .cp false 3 ⟨1, 1, 0, 0⟩, .cp false 4 ⟨1, 1, 0, 0⟩, .cp false 5 ⟨1, 1, 0, 0⟩,
   .cp false 6 ⟨0, 1, 0, 0⟩, .cp false 7 ⟨0, 1, 0, 0⟩, .cp false 8 ⟨5, 1, 15, 11⟩, .cp false 9 ⟨2, 4, 12, 8⟩, .cp false 10 ⟨1, 0, 0, 15⟩,
   .cp false 11 ⟨1, 5, 0, 0⟩, .cp false 12 ⟨1, 1, 0, 0⟩, .cp false 13 ⟨2, 1, 0, 0⟩, .cp false 14 ⟨4, 2, 3, 1⟩, .cp false 15 ⟨5, 0, 0, 0⟩,
   .cp true 0 ⟨2, 1, 0, 0⟩, .cp true 1 ⟨2, 1, 0, 0⟩, .cp true 2 ⟨1, 2, 0, 0⟩, .cp true 3 ⟨1, 1, 0, 0⟩, .cp true 4 ⟨1, 7, 0, 0⟩, .cp true 5 ⟨7, 1, 0, 0⟩,
   .cp true 6 ⟨0, 1, 0, 0⟩, .cp true 7 ⟨0, 1, 0, 0⟩, .cp true 8 ⟨0, 1, 0, 0⟩, .cp true 9 ⟨0, 1, 0, 0⟩, .cp true 10 ⟨0, 1, 0, 0⟩, .cp true 11 ⟨0, 1, 0, 0⟩,
   .cp true 12 ⟨0, 1, 2, 0⟩, .cp true 13 ⟨0, 0, 0, 3⟩, .cp true 14 ⟨0, 1, 0, 0⟩, .cp true 15 ⟨0, 1, 0, 0⟩]
theorem met_coprocessors : cpOps.all (fun o => executes cpState 0 (inD noOps o)) = true := by decide +kernel
theorem test_cpport :
    leads (.cprds 0 false ⟨3, 1, 0, 0⟩ noOps) cpState (fun t => (t.core 0).r.getS 3 == 3 && (t.core 0).cp0.seq == 1) = true ∧
    leads (.cpst 0 true ⟨1, 0, 0, 0⟩ noOps) cpState (fun t => t.byte (dmemBase 0 + 0x800) == 9) = true ∧
    leads (.cpsave 0 true ⟨0, 1, 0, 0⟩ noOps) cpState (fun t => t.byte (dmemBase 0 + 0x800 + 0x20) == 9) = true ∧
    leads (.cpld 0 true ⟨2, 1, 0, 0⟩ noOps) (cpState.setByte (dmemBase 0 + 0x83F) 7) (fun t => ((t.core 0).cp1.pend.map (fun p => p.data.getLast?)) == [some 7]) = true ∧
    leads (.cpOperationFinish 0 true) (cpState.setCore 0 { cps with cp1 := { cps.cp1 with
      pend := [{ op := 5, f := ⟨5, 1, 0, 0⟩, baddr := 0, seq := 1, vsrc := 0, ssrc := 0xFF000010, ssrc2 := 0, data := [] }] } })
      (fun t => (t.core 0).cp1.pend == [] && (t.core 0).sbu.getCtl 5 == 0x10 && (t.core 0).c.cpen == 0x3333) = true := by decide +kernel
/-- R113 (worked example of MCHOL and MTRSV): the factor's columns in split form and the solution. -/
theorem test_mchol :
    (let l := (mcholOp (cps.cmu.getMx 1)).1
     [mxEl l 0 0, mxEl l 1 0, mxEl l 1 1, mxEl l 2 2] = [⟨16384, 2⟩, ⟨8192, 0⟩, ⟨16384, 2⟩, ⟨23170, 1⟩] ∧
       let x := (mtrsvOp false l (cps.cmu.getMx 3)).1
       mxEl x 0 0 = ⟨16384, 0⟩ ∧ mxEl x 1 0 = ⟨8192, 0⟩) := by decide +kernel
/-- R117 (worked example): the LLRs of a 16-QAM lane. -/
theorem test_sdmap : laneLlrs 4 6000 20 (-9000) 2000 = [-44, 10, 15, 49] ∧ (sdmapBytes cps.sbu (cps.r.getV 1)).take 4 = [0xD4, 0x0A, 0x0F, 0x31] := by
  decide +kernel

/-- The arguments of a queue access at queue 1's ENTRY port, and at its CONTROL port. -/
def atEntry : MemArgs := ⟨1, 3, .off 0⟩
def atControl : MemArgs := ⟨3, 3, .off 1⟩
def task1 : Entry := taskE 3 7 0 1 0 0 0xAB 0xFFFF 0xFF 2
/-- Core 0 before an access of queue 1. -/
def qRuns (q : Queue) : State :=
  withQueue (up.setCore 0 { Core.reset with st := .running, pc := 0x100, r := { CoreRegs.reset with a := [(3, 0x300040)], v := [(1, task1.setWidth 512)] } }) 1 q

theorem met_queue_access :
    (executes (qRuns (openQueue 0 [])) 0 { inLs noOps .a (.qenq atEntry) with a := .nop } = true ∧
      (undefFind ((qRuns (openQueue 0 [])).core 0) (inLs noOps .a (.qenq atEntry))).1 = .fine ∧
      misFind ((qRuns (openQueue 0 [])).core 0) (inLs noOps .a (.qenq atEntry)) = none ∧
      effAddr ((qRuns (openQueue 0 [])).core 0).r (.qenq atEntry) = some 0x300040 ∧
      coreMap ((qRuns (openQueue 0 [])).core 0).c 0x300040 = .queue 1 0) ∧
    (effAddr ((qRuns (openQueue 0 [])).core 0).r (.qdeq atControl) = some 0x300060 ∧ coreMap ((qRuns (openQueue 0 [])).core 0).c 0x300060 = .queue 1 32) ∧
    badEntry 0 task1 = false ∧ (dequeue (qRuns (openQueue 2 [qent task1 0])) 1).1.outc = .ok := by decide +kernel
theorem test_qenq :
    leads (.qenq 0 .a atEntry noOps) (qRuns (openQueue 0 [])) (fun t => ((t.slice 0).queue 1).ents == [qent task1 0] && (t.core 0).pc == 0x110) = true ∧
    leads (.qdeq 0 .a ⟨3, 3, .off 0⟩ noOps) (qRuns (openQueue 2 [qent task1 0])) (fun t => (t.core 0).r.getV 3 == task1.setWidth 512 && ((t.slice 0).queue 1).ents == []) = true ∧
    leads (.qdeq 0 .a atControl noOps) (qRuns (openQueue 2 [qent task1 0])) (fun t => slice ((t.core 0).r.getV 3) 0 13 == (1 : BitVec 13) && ((t.slice 0).queue 1).ents.length == 1) = true := by
  decide +kernel
/-- Core 0 stalled since cycle 0 on a QENQ to queue 1, at cycle n. -/
def stalled1 (q : Queue) (n : Nat) : State :=
  let s := qRuns q
  { s.setCore 0 { s.core 0 with st := .stalled, held := some { kind := .queueFull, bundle := inLs noOps .a (.qenq atEntry), asked := [], got := [], since := 0 } } with cycle := n }
theorem test_stall :
    leads (.qenq 0 .a atEntry noOps) (qRuns (openQueue 0 (List.replicate 4 (qent task1 0)))) (fun t => (t.core 0).st == .stalled && (t.core 0).pc == 0x100) = true ∧
    leads (.qenqStallRelease 0) (stalled1 (openQueue 0 []) 5) (fun t => ((t.slice 0).queue 1).ents == [qent task1 0] && (t.core 0).st == .running && (t.core 0).held == none) = true ∧
    leads (.enqueueTimeout 0) (stalled1 (openQueue 0 (List.replicate 4 (qent task1 0))) 0x200000) (fun t => (t.core 0).t0.tcause == 8 &&
      (t.core 0).t0.tval == 0x300040 && (t.core 0).t0.epc == 0x100) = true := by decide +kernel

/-- Core 0 with an enabled timer interrupt that is pending. -/
def timerCore : Core := { Core.reset with
  st := .wait, pc := 0x100
  c := { CoreCtl.reset with ie := true, imask := 0x3F, timerPend := true, priv := 1 }
  t0 := { TrapRegs.reset with tvec := 0x400 } }
theorem test_interrupt :
    intChoice (up.setCore 0 timerCore) 0 = some (0x12, 0) ∧
    leads (.interruptEntry 0) (up.setCore 0 timerCore) (fun t => (t.core 0).pc == 0x400 && (t.core 0).t0.tcause == 0x12 && (t.core 0).t0.epc == 0x100 &&
      (t.core 0).t0.estat == 5 && (t.core 0).c.ie == false && (t.core 0).st == .running) = true ∧
    leads (.waitWake 0) (up.setCore 0 timerCore) (fun t => (t.core 0).st == .running) = true ∧
    yields (.timerRaise 0) up (up.setCore 0 { up.core 0 with c := { (up.core 0).c with timerPend := true } }) = true := by decide +kernel
/-- A posted store of core 0 in flight in slot 4 of its cluster's NI. -/
def posted : NiReq :=
  { ini := .core 0, lane := 3, typ := .wr, addr := 0x100, mask := 0, data := [], poison := 0, act := 0, node := 0x80, route := 0, epoch := false, enqueue := false,
    p2 := false, again := false }
theorem test_posted :
    leads (.postedStoreFault 0 .timeout) (up.setNi 0 { Ni.reset with slots := [(4, { gen := 3, st := .opened posted 0 })] })
      (fun t => (t.core 0).c.stfault && (t.core 0).c.stOutc == 3 && (t.ni 0).slots == []) = true := by decide +kernel
theorem met_core_control : regOpen up .mgc (coreRegs 0 + 4) = true ∧ coreFenced up 0 = false ∧
    coreFenced { up with asy := { Asy.reset with fences := [{ src := 0, unit := .core 0 }] } } 0 = true := by decide +kernel
theorem test_core_control :
    yields (.coreRun .mgc 0) (up.setCore 0 { Core.reset with c := { CoreCtl.reset with bootpc := 0x208 } })
      ((up.setCore 0 { Core.reset with st := .running, pc := 0x200, c := { CoreCtl.reset with bootpc := 0x208 } }).answerOnly .ok) = true ∧
    yields (.coreRun .mgc 0) { up with asy := { Asy.reset with fences := [{ src := 0, unit := .core 0 }] } }
      ({ up with asy := { Asy.reset with fences := [{ src := 0, unit := .core 0 }] } }.answerOnly .notPermitted) = true ∧
    leads (.coreHalt .mgc 0) runs (fun t => (t.core 0).st == .halted && (t.core 0).pc == 0x100) = true ∧
    leads (.coreSreset .mgc 0) runs (fun t => t.core 0 == Core.reset && t.mem == runs.mem) = true := by decide +kernel

/-! ## Memory, registers, boot -/

theorem met_memory_init : regOpen up .mgc (cluBase 0 + 4) = true ∧ initDone up 0 = false ∧
    initDone { up with inits := (clusterMems 0).foldl (fun m x => sput .blank m (initKey x) .done) [] } 0 = true ∧
    (initWaiters (.cm 0)).all (fun g => (up.core g).held == none) = true := by decide +kernel
theorem test_memory_init :
    yields (.cmInitStart .mgc 0) up (up.answerOnly .ok) = true ∧
    leads (.cmInitStart .mgc 0) ({ up with inits := (clusterMems 0).foldl (fun m x => sput .blank m (initKey x) .done) [] }.setBytes (clusterBase 0 + 5) [7])
      (fun t => t.initOf (.cm 0) == .busy && t.initOf (.dmem 0) == .done && t.mem == []) = true ∧
    yields (.memoryInitDone (.cm 0)) (up.setInit (.cm 0) .busy) up = true := by decide +kernel

/-- CORE_TAL_BUNDLES of core 0. -/
def talB : Nat := coreRegs 0 + 0x100
theorem met_tally : regOpen up .mgc talB = true ∧ regOpen up .mgc (talB + 4) = true ∧ place (BitVec.ofNat 44 talB) = .coreReg 0 0x100 := by decide +kernel
theorem test_tally :
    (let s := { up with tally := [(talB, 0x123456789ABC)] }
     yields (.tallyCounterRead .mgc (BitVec.ofNat 44 talB)) s
      ({ up with shadow := [(talB, 0x1234)] }.answer { outc := .ok, flags := 0, data := [0xBC, 0x9A, 0x78, 0x56], poison := [] }) = true) ∧
    yields (.tallyCounterRead .mgc (BitVec.ofNat 44 (talB + 4))) { up with shadow := [(talB, 0x1234)] }
      ({ up with shadow := [(talB, 0x1234)] }.answer { outc := .ok, flags := 0, data := [0x34, 0x12, 0, 0], poison := [] }) = true ∧
    leads (.rcFieldRead .mgc (BitVec.ofNat 44 talB) 3) { up with tally := [(talB, 9)] } (fun t => t.tally == [(talB, 3)]) = true ∧
    sget 0 (tallyAdd { up with tally := [(talB, 0xFFFFFFFFFFFE)] } talB 5).tally talB = 0xFFFFFFFFFFFF := by decide +kernel
theorem test_counters_placed :
    [coreRegs 511 + 0x120, cluBase 63 + 0x220, schBase 0 + 0x268, schBase 0 + 0x678, engBase 255 + 0x150, budBase 15 + 0x8108, hubBlk 1 + 0xF0038, hubBlk 3 + 0x2028,
      hubBlk 4 + 0x258, hubBlk 5 + 0x150, hubBlk 6 + 0x150, hubBlk 7 + 0x128, hubBlk 8 + 0x118].all
      (fun a => a % 8 == 0 && decide (a + 4 < 2 ^ 44) && regRead up (place (BitVec.ofNat 44 a)) == tallyRead up a false &&
        regRead up (place (BitVec.ofNat 44 (a + 4))) == tallyRead up a true) = true := by decide +kernel

/-- The address of HIF_CTL, of an offset without register, and a task's core. -/
theorem met_registers :
    (isRegPa (BitVec.ofNat 44 (hubBlk 11 + 8)) = true ∧ loadWin up (BitVec.ofNat 44 (hubBlk 11 + 8)) = none ∧ regOpen up .mgc (hubBlk 11 + 8) = true) ∧
    (regWrite false up (place (BitVec.ofNat 44 (hubBlk 0 + 0x1C))) 0 = none ∧ regOpen up .mgc (hubBlk 0 + 0x1C) = true) ∧
    (let s := up.setCore 0 { Core.reset with c := { CoreCtl.reset with priv := 2 } }
     let pa := BitVec.ofNat 44 (hubBlk 11 + 8)
     (routeCheck s 0 pa).1 = some 0x82 ∧ nodeGate s 0x82 (agentPa pa) = .pass ∧ inReset s 0x82 = false) := by decide +kernel
theorem test_registers :
    yields (.registerWrite .mgc (BitVec.ofNat 44 (hubBlk 11 + 8)) 4 0x12345678) up
      ({ up with gpo := { up.gpo with dout := 0x5678 } }.answerOnly .ok) = true ∧
    yields (.registerWrite .mgc (BitVec.ofNat 44 (hubBlk 11 + 8)) 8 0x12345678) up (up.answerOnly .notPermitted) = true ∧
    yields (.registerWrite .mgc (BitVec.ofNat 44 (hubBlk 11 + 10)) 4 0x12345678) up (up.answerOnly .notPermitted) = true ∧
    yields (.registerWrite .mgc (BitVec.ofNat 44 (hubBlk 0 + 0x1C)) 4 0) up (up.answerOnly .routeFault) = true ∧
    (let s := up.setCore 0 { Core.reset with c := { CoreCtl.reset with priv := 2 } }
     yields (.registerWrite (.core 0) (BitVec.ofNat 44 (hubBlk 11 + 8)) 4 0) s (s.answerOnly .notPermitted) = true) ∧
    yields (.registerWrite .mgc (BitVec.ofNat 44 (coreRegs 0 + 0xC)) 4 0x12340) runs (runs.answerOnly .notPermitted) = true := by decide +kernel

/-- R31 (worked example of global core 301): its addresses. -/
theorem test_core301 : dmemBase 301 = 0x12151500000 ∧ coreRegs 301 = 0x12151580000 ∧ queueBase 37 + 419 * 0x40 = 0x121520168C0 ∧
    queueOf 37 419 = 0x95A3 ∧ coreCluster 301 = 37 ∧ coreIndex 301 = 5 := by decide +kernel

theorem met_windows : regOpen up .mgc (cluBase 0 + 0x100 + 8 * 15) = true ∧ regOpen up .mgc (cluBase 0 + 0x104 + 8 * 15) = true := by decide +kernel
theorem test_windows :
    yields (.cluWbaseWrite .mgc 0 15 0xFFFC0) up ((up.setClu 0 { Clu.reset with wstage := [(15, 0x3FFF)], wpend := 0x8000 }).answerOnly .ok) = true ∧
    yields (.cluWlenWrite .mgc 0 15 1024) (up.setClu 0 { Clu.reset with wstage := [(15, 0x3FFF)], wpend := 0x8000 })
      ((up.setClu 0 { Clu.reset with wstage := [(15, 0x3FFF)], wbase := [(15, 0x3FFF)], wlen := [(15, 1024)] }).answerOnly .ok) = true ∧
    yields (.cluWlenWrite .mgc 0 15 1025) up (up.answerOnly .ok) = true := by decide +kernel

/-- The package in boot step k, with the flash as source. -/
def bootAt (k : BitVec 4) : State :=
  { State.reset with mgc := { Mgc.reset with porst := false, step := k, role := true }, hif := { Hif.reset with perst := true } }
def fuses0 : FuseMap := { ileak := [], aonleak := 5, fusedOff := 1, minSvn := 2, keyHash := 3, spareRows := [], spareCols := [] }
theorem test_reset_pins :
    yields (.porstNRelease true 0 0) State.reset { State.reset with mgc := { Mgc.reset with porst := false, step := 1, role := true } } = true ∧
    leads (.porstNRelease true 3 0) State.reset (fun t => t.mgc.straperr && t.cas.straperr) = true ∧
    yields (.porstNAssert true 0 0) up State.reset = true ∧
    leads .aonOvercurrent up (fun t => t.mgc.cause == 1 && t.mgc.step == 1 && t.lmp == Lmp.reset) = true ∧
    leads .perstNAssert up (fun t => t.hif.perst && !t.hif.linkUp) = true ∧
    leads .perstNRelease { up with hif := { up.hif with perst := true, linkUp := false } } (fun t => !t.hif.perst && t.hif.linkUp) = true ∧
    leads (.thermtrip 4 1 500) up (fun t => t.mgc.thermtrip && sget [] t.asy.queued 0x3E3 == [{ detail := 500 + 0x10000 + 4 * 0x80000, inj := false, durinj := false }]) = true := by
  decide +kernel
theorem test_boot :
    yields (.bootStepComplete .ready) (bootAt 1) (bootAt 2) = true ∧ yields (.bootStepComplete .ready) (bootAt 3) (bootAt 4) = true ∧
    yields (.bootStepComplete .ready) (bootAt 9) (bootAt 10) = true ∧ yields (.bootStepComplete .ready) (bootAt 6) (bootAt 7) = true ∧
    leads (.bootStepComplete .ready) (bootAt 8) (fun t => t.mgc.step == 9) = true ∧
    leads (.bootStepComplete .ready) (bootAt 10) (fun t => t.mgc.done && t.hif.ready) = true ∧
    leads (.bootStepComplete (.fail 4)) (bootAt 4) (fun t => t.mgc.fail && t.mgc.code == 4 && t.mgc.alert &&
      sget [] t.asy.queued 0x3E0 == [{ detail := 0x44, inj := false, durinj := false }]) = true ∧
    leads (.bootStepComplete (.flash none none)) (bootAt 7) (fun t => t.mgc.fail && t.mgc.code == 9) = true ∧
    leads .bootStepTimeout { bootAt 1 with cycle := 20 * 3932160000 } (fun t => t.mgc.retries == 1 && t.mgc.since == 20 * 3932160000) = true ∧
    yields .bootStepTimeout (bootAt 1) (bootAt 1) = true := by decide +kernel
theorem test_idle_step : (match step State.reset with | .next t => decide (t = State.reset) | _ => false) = true ∧
    (match step (bootAt 1) with | .next t => decide (t = { bootAt 1 with cycle := 1 }) | _ => false) = true := by decide +kernel

/-- A firmware image of 64 bytes with a valid header (R465). -/
def image0 : List Byte :=
  bytesOfNat 4 0x46574B4C ++ bytesOfNat 4 1 ++ bytesOfNat 4 64 ++ bytesOfNat 4 16 ++ List.replicate (240 + 64) 0
theorem test_image_header : imgHeaderOk image0 = true ∧ imgBytes image0 = image0 ∧ imgHeaderOk (bytesOfNat 4 0x46574B4D ++ image0.drop 4) = false := by decide +kernel
/-- An image passes where its key's digest is the fused one, its signature verifies and its SVN is not below the least. -/
theorem met_image (m : Mgc) (hk : m.keyHash ≠ 0) (hd : Config.sha384 ((image0.drop 0x20).take 96) = m.keyHash)
    (hs : Config.ecdsaP384 ((image0.drop 0x20).take 96) (Config.sha384 (image0.take 0x80 ++ (image0.drop 256).take (imgBody image0)))
      ((image0.drop 0x80).take 96) = true) (hv : m.minSvn = 0) : imgCheck m image0 = none := by
  simp only [imgCheck, test_image_header.1, hd, hs, hv, hk]
  simp
/-- Without a fused key every image fails with code 0xB: from flash with the alternate image's code, from hub memory with its own. -/
theorem test_image_fails :
    leads (.bootStepComplete (.flash (some image0) (some image0))) { bootAt 7 with inits := up.inits } (fun t => t.mgc.fail && t.mgc.alt && t.mgc.code == 0xB) = true := by
  decide +kernel
/-- Package 1 waits for its image in hub memory, whose magic stands in the load mailbox. -/
def mailboxState : State :=
  let s := { bootAt 7 with inits := up.inits }
  { (s.setBytes (hubBase + 0x1FFFFC0) (bytesOfNat 4 0x4C444D42)).setBytes hubBase image0 with mgc := { s.mgc with src := 1 } }
theorem test_mailbox :
    natOfBytes ((bulkRead mailboxState (hubBase + 0x1FFFFC0) 64 0).1.data.take 4) = 0x4C444D42 ∧
    imgHeaderOk (bulkRead mailboxState hubBase 256 0).1.data = true ∧
    leads .loadMailboxDetect mailboxState (fun t => t.mgc.fail && t.mgc.code == 0xB && !t.mgc.mcRunning) = true := by decide +kernel

/-! ## Engines -/

/-- A job entry (R149) of activity 7 with tag 0xAB: descriptor address, deadline, completion queue, NOCOMPL. -/
def jobE (desc dl cqid nocompl : Nat) : Entry :=
  BitVec.ofNat 256 (packLE [(4, 2), (3, 3), (1, 0), (9, 7), (15, 0), (32, dl), (64, desc), (32, 0xAB), (16, cqid), (1, nocompl)])
/-- A beam engine's descriptor (R150), FN 1, with its buffers behind base. -/
def jobD (base nodl wbout dl cqid srclen : Nat) : Nat :=
  packLE [(4, 5), (4, 1), (1, nodl), (1, 0), (1, wbout), (5, 0), (16, 7), (32, dl), (32, 0xAB), (16, cqid), (16, 0), (64, base + 0x80), (32, srclen), (32, 8),
    (64, base + 0xC0), (64, base + 0x40), (64, base + 0x100), (32, 1), (16, 8), (16, 0)]
def cm0 : Nat := clusterBase 0
/-- Engine 14, a beam engine of region 0, and its queue: cluster 2, local queue 1 023. -/
def beam : EngId := 14
/-- The memory of a job of one antenna and one sample. -/
def jobMem (nodl wbout srclen : Nat) (s : State) : State :=
  ((s.setBytes cm0 (bytesOfNat 64 (jobD cm0 nodl wbout 0x100 2 srclen))).setBytes (cm0 + 0x40) [1, 0, 1, 0]).setBytes (cm0 + 0x80) [0, 0x40, 0, 0x20]
def idleEng : Engine := { Engine.reset 14 with en := true, st := .idle }
def job0 : Job := newJob (jobE cm0 0x100 2 0)
/-- The job after its descriptor, and after its parameters. -/
def job1 : Job := { job0 with desc := BitVec.ofNat 512 (jobD cm0 1 0 0x100 2 4), hasDesc := true, wait := .params }
def job2 : Job := { job1 with params := [1, 0, 1, 0, 0, 0, 0, 0], wait := .borrow }
def engIn (st : EngState) (j : Job) : Engine := { idleEng with st := st, job := some j }
/-- `up` with the engine and, in its queue, these entries. -/
def engUp (x : Engine) (l : List QEnt) : State :=
  (jobMem 1 0 4 (up.setEngine beam x)).updSlice 2 (fun y => y.setQueue 1023 { Queue.reset 1023 with en := true, cap := 4, ents := l })
/-- The clusters' memories that jobs use. -/
def queue2 (s : State) : State := withQueue s 2 (openQueue 2 [])

theorem met_engine_registers : regOpen up .mgc (engBase beam + 4) = true ∧ regOpen up .mgc (engBase beam + 0xC) = true ∧
    clusterRegion (queueCluster (slice (0x0405 : Word) 0 16)) = engRegion beam ∧ clusterRegion (queueCluster (slice (0x1005 : Word) 0 16)) ≠ engRegion beam := by decide +kernel
theorem test_engine_registers :
    yields (.engineEnable .mgc beam) up ((up.setEngine beam idleEng).answerOnly .ok) = true ∧
    yields (.engineDisable .mgc beam) (up.setEngine beam idleEng) (up.answerOnly .ok) = true ∧
    yields (.engineSreset .mgc beam) (up.setEngine beam { idleEng with qsel := 5 }) (up.answerOnly .ok) = true ∧
    yields (.engineSreset .mgc beam) (up.setEngine beam (engIn .run job0))
      ((up.setEngine beam { engIn .run { job0 with abort := some .cancelled } with rst := true }).answerOnly .ok) = true ∧
    yields (.accQselWrite .mgc beam 0x405) up ((up.setEngine beam { Engine.reset 14 with qsel := 0x405 }).answerOnly .ok) = true ∧
    yields (.accQselWrite .mgc beam 0x1005) up (up.answerOnly .notPermitted) = true ∧
    yields (.accQselWrite .mgc beam 0x405) (up.setEngine beam idleEng) ((up.setEngine beam idleEng).answerOnly .notPermitted) = true := by decide +kernel

theorem met_dequeue :
    engTakes (engUp idleEng [qent job0.entry 0]) beam = true ∧ lowerTakes (engUp idleEng [qent job0.entry 0]) beam = false ∧
    (takeFrom (engUp idleEng [qent job0.entry 0]) idleEng.qsel).1 = some (qent job0.entry 0) ∧ (takeFrom (engUp idleEng [qent task1 0]) idleEng.qsel).1 = some (qent task1 0) ∧
    extentCheck (jobDesc job0 % 2 ^ 44) 64 = none ∧ jobDesc job0 % 64 = 0 := by decide +kernel
theorem test_dequeue :
    leads (.jobDequeue beam) (engUp idleEng [qent job0.entry 0]) (fun t => t.engine beam == { engIn .setup job0 with curtag := 0xAB } &&
      ((t.slice 2).queue 1023).ents == []) = true ∧
    leads (.jobDequeue beam) (engUp idleEng [qent task1 0]) (fun t => t.engine beam == idleEng && sget 0 t.tally (engBase beam + 0x118) == 1) = true := by decide +kernel

/-- What an access answered, with the state it left. -/
def accOf (a : Acc) : Ans × State := match a with | .done a t => (a, t) | .wait t => (Ans.only .timeout, t)
def accDone (a : Acc) : Bool := match a with | .done _ _ => true | .wait _ => false
def setupS (j : Job) : State := engUp (engIn .setup j) []
theorem met_setup :
    (let a := accRead (setupS job0) (.engine beam) (jobDesc job0) 64 7
     accDone a = true ∧ (accOf a).1.outc = .ok ∧ descExtents job1.desc = none ∧ descAgrees 5 job0.entry job1.desc = true ∧
       BitVec.ofNat 512 (natOfBytes (accOf a).1.data) = job1.desc) ∧
    (let s := engUp (engIn .setup { job0 with entry := jobE 0x20002000000 0x100 2 0 }) []
     (accOf (accRead s (.engine beam) 0x20002000000 64 7)).1.outc.good = false) ∧
    descAgrees 5 (jobE cm0 0x101 3 0) job1.desc = false ∧ descExtents (BitVec.ofNat 512 (jobD 0x30000000000 1 0 0x100 2 4)) = some .routeFault ∧
    (let a := accRead (setupS job1) (.engine beam) (dField job1.desc 0x28 8) 8 7
     accDone a = true ∧ (accOf a).1.outc = .ok ∧ blockLen 5 1 (accOf a).1.data = 8 ∧ paramOk 5 1 (accOf a).1.data = true ∧ needLens 5 1 (accOf a).1.data = (4, 8, 1)) := by
  decide +kernel
theorem test_setup :
    leads (.jobSetupReadResponse beam none) (setupS job0) (fun t => t.engine beam == engIn .setup job1) = true ∧
    leads (.jobSetupReadResponse beam none) (setupS job1) (fun t => t.engine beam == engIn .run { job2 with ran := true }) = true ∧
    leads (.jobSetupReadResponse beam (some .timeout)) (setupS job0) (fun t => (t.engine beam).st == .complete && (t.engine beam).errStep == 1 && (t.engine beam).errOutc == 3) = true ∧
    leads (.jobSetupReadResponse beam none) (setupS { job0 with entry := jobE cm0 0x100 3 0 }) (fun t => (t.engine beam).errStep == 2 && (t.engine beam).errOutc == 0xA) = true ∧
    leads (.jobSetupReadResponse beam none) (jobMem 1 0 3 (setupS { job1 with desc := BitVec.ofNat 512 (jobD cm0 1 0 0x100 2 3) }))
      (fun t => (t.engine beam).errStep == 4 && (t.engine beam).errOutc == 0xA) = true ∧
    leads (.jobSetupReadResponse beam none) ({ setupS { job1 with desc := BitVec.ofNat 512 (jobD cm0 0 0 0x100 2 4) } with cmk := { Cmk.reset with tick := 0x100 } })
      (fun t => (t.engine beam).errStep == 5 && (t.engine beam).errOutc == 0xF) = true := by decide +kernel

/-- Activity 7 may borrow one job of every class, and the reserve holds two of class 5. -/
def borrowBud : Bud := { Bud.reset with
  rsvEn := true, rsvJobs := [(5, 2)]
  acts := [(7, { BudAct.reset with en := true, borrow := true, cur := { BudWords.reset with bmax := 0x10000 } })] }
theorem test_borrow :
    leads (.jobBorrowAnswer beam) ((setupS job2).setBud 0 borrowBud) (fun t => (t.engine beam).st == .run && (t.bud 0).rsvJobs == [(5, 1)] &&
      ((t.bud 0).act 7).jobsBorrowed == [(5, 1)]) = true ∧
    leads (.jobBorrowAnswer beam) (setupS job2) (fun t => (t.engine beam).st == .complete && (t.engine beam).errStep == 6 && (t.engine beam).errOutc == 0xC) = true := by
  decide +kernel

/-- Engine 12, a turbo decoder, with its job of K = 40 and one iteration. -/
def turbo : EngId := 12
def turboJob0 : Job :=
  { newJob (jobE cm0 0x100 2 0) with
    desc := BitVec.ofNat 512 (packLE [(4, 4), (4, 0), (1, 0), (1, 0), (1, 1), (5, 0), (16, 7), (32, 0x100), (32, 0xAB), (16, 2), (16, 0), (64, cm0 + 0x100), (32, 132),
      (32, 5), (64, cm0 + 0x80), (64, cm0 + 0x40), (64, cm0 + 0x200), (32, 0), (16, 8), (16, 0)])
    hasDesc := true, params := [40, 0, 1, 0, 8, 0, 0, 0], ran := true }
def turboIn (st : EngState) (j : Job) : State :=
  queue2 (up.setEngine turbo { Engine.reset 12 with en := true, st := st, job := some j })
theorem met_run :
    (let s := turboIn .run turboJob0
     let a := accOf (accReads s (.engine turbo) 7 (inputExtents 4 0 turboJob0.desc turboJob0.params))
     engClk s turbo = true ∧ engType turbo ≠ 1 ∧ a.1.outc.good = true ∧
     (let out := compute a.2.fresh 4 0 turboJob0.params a.1.data []
      out.fail = false ∧ out.aux = [] ∧ out.wb = none ∧
      (accStores a.2 (.engine turbo) 7 (out.dst.map (fun p => (dField turboJob0.desc 0x20 8 + p.1, p.2)))).1 = some (none, 5))) ∧
    (let j := { turboJob0 with desc := turboJob0.desc ||| (BitVec.ofNat 512 (2 ^ (8 * 0x15 + 1))) }
     (accOf (accReads (turboIn .run j) (.engine turbo) 7 (inputExtents 4 0 j.desc j.params))).1.outc.good = false) := by decide +kernel
/-- A singular MMSE system (R174): one antenna, one layer, H = 0 and SIGMA2 = 0. -/
theorem met_run_fails : (compute 0 5 2 [1, 1, 1, 0, 0, 0, 0, 0] [0, 0, 0, 0] []).fail = true := by decide +kernel
def hardJob (a : Option Outc) : Job := { turboJob0 with abort := a }
/-- A job whose record goes to queue 2, without WBOUT. -/
def endedJob (nocompl : Nat) : Job := { turboJob0 with entry := jobE cm0 0x100 2 nocompl, desc := turboJob0.desc &&& ~~~(0x400 : BitVec 512), outc := .ok, tend := 9 }
theorem test_job_ends :
    leads (.jobWritebackDone turbo none) (turboIn .writeback { turboJob0 with wb := [1, 2] }) (fun t => (t.engine turbo).st == .complete &&
      t.bytes (cm0 + 0x200) 2 == [1, 2] && (t.engine turbo).job.any (fun j => j.result == 0x80 && j.outc == .ok) && sget 0 t.tally (engBase turbo + 0x108) == 1) = true ∧
    leads (.jobAccessError turbo true .uncorrectable) (turboIn .run turboJob0) (fun t => (t.engine turbo).errStep == 8 && (t.engine turbo).errOutc == 7 &&
      (t.engine turbo).etag == 0xAB && sget 0 t.tally (engBase turbo + 0x110) == 1) = true ∧
    leads (.jobInternalError turbo) (turboIn .run turboJob0) (fun t => (t.engine turbo).errStep == 10 && (t.engine turbo).errOutc == 0x10 &&
      (sget [] t.asy.queued 0x300).length == 1) = true ∧
    leads (.jobDeadline turbo) { turboIn .run turboJob0 with cmk := { Cmk.reset with tick := 0x100 } } (fun t => (t.engine turbo).job == some { turboJob0 with abort := some .deadlineMissed }) = true ∧
    yields (.jobDeadline turbo) { turboIn .run turboJob0 with cmk := { Cmk.reset with tick := 0xFF } } { turboIn .run turboJob0 with cmk := { Cmk.reset with tick := 0xFF } } = true ∧
    leads (.jobAbortComplete turbo) (turboIn .run (hardJob (some .cancelled))) (fun t => (t.engine turbo).st == .complete && sget 0 t.tally (engBase turbo + 0x130) == 1) = true ∧
    leads (.jobAbortComplete turbo) (turboIn .setup (hardJob (some .deadlineMissed))) (fun t => (t.engine turbo).errStep == 5 && (t.engine turbo).errOutc == 0xF) = true := by decide +kernel
theorem met_record :
    (queueWay (turboIn .complete { endedJob 0 with wbDone := true }) (engNode turbo) 2).1 = .pass ∧ eCqid (endedJob 0).entry = 2 ∧ eNoCompl (endedJob 0).entry = false ∧
    eNoCompl (endedJob 1).entry = true ∧ badEntry 2 (jobRecord turbo (endedJob 0)) = false ∧ (endedJob 0).desc.getLsbD 10 = false := by decide +kernel
theorem test_record :
    leads (.jobRecordEnqueue turbo none) (turboIn .complete (endedJob 0)) (fun t => (t.engine turbo).st == .idle && (t.engine turbo).job == none &&
      ((t.slice 0).queue 2).ents.map (fun x => (eKind x.e, eTag x.e, slice x.e 96 5)) == [(3, 0xAB, (0 : BitVec 5))]) = true ∧
    leads (.jobRecordEnqueue turbo none) (turboIn .complete (endedJob 1)) (fun t => (t.engine turbo).st == .idle && ((t.slice 0).queue 2).ents == []) = true := by decide +kernel

/-! ## Queues, tasks, budgets -/

def taskOf1 (tag : Nat) : Entry := taskE 3 7 0 1 0 0 tag 0xFFFF 0xFF 2
theorem met_queue : (queueWay up (iniNode .fhp) 1).1 = .pass ∧ enqFrom .fhp 1 = .fabric ∧ badEntry 0 (taskOf1 5) = false ∧ badEntry 0 0 = true ∧
    badEntry 0 (taskE 3 7 0 1 0 0 5 0 0 2) = true := by decide +kernel
theorem test_enqueue :
    leads (.queueEnqueue .fhp 1 (taskOf1 5)) (withQueue up 1 (openQueue 0 [])) (fun t => ((t.slice 0).queue 1).ents == [qent (taskOf1 5) 0] && t.resp.outc == .ok) = true ∧
    leads (.queueEnqueue .fhp 1 (taskOf1 5)) up (fun t => t.resp.outc == .notPermitted && sget 0 t.tally (schBase 0 + 0x218) == 1) = true ∧
    leads (.queueEnqueue .fhp 1 (taskOf1 5)) (withQueue up 1 { openQueue 0 [] with actchk := true, act := 8 }) (fun t => t.resp.outc == .notPermitted) = true ∧
    leads (.queueEnqueue .fhp 1 0) (withQueue up 1 (openQueue 0 [])) (fun t => t.resp.outc == .badDescriptor) = true ∧
    leads (.queueEnqueue .fhp 1 (taskOf1 5)) (withQueue up 1 { openQueue 0 [qent (taskOf1 1) 0] with cap := 1 }) (fun t => ((t.slice 0).queue 1).ents.length == 1 &&
      sget 0 t.tally (schBase 0 + 0x210) == 1) = true := by decide +kernel
/-- R182, R194: a FIFO gives its oldest entry, a PRIORITY queue the highest PRIO, a DEADLINE queue the earliest deadline across the wrap. -/
theorem test_dequeue_order :
    leads (.queueDequeue .fhp 1) (withQueue up 1 (openQueue 2 [qent (taskOf1 5) 3, qent (taskOf1 6) 4])) (fun t => t.resp.data == bytesOfNat 32 (taskOf1 5).toNat &&
      ((t.slice 0).queue 1).ents == [qent (taskOf1 6) 4]) = true ∧
    leads (.queueDequeue .fhp 1) (withQueue up 1 { openQueue 2 [qent (taskE 3 7 0 1 0 0 5 0 1 2) 0, qent (taskE 4 7 0 1 0 0 6 0 1 2) 1] with typ := 1 })
      (fun t => ((t.slice 0).queue 1).ents.map (fun x => eTag x.e) == [5]) = true ∧
    leads (.queueDequeue .fhp 1) (withQueue up 1 { openQueue 2 [qent (taskE 3 7 0 0 0 5 5 0 1 2) 0, qent (taskE 3 7 0 0 0 0xFFFFFFF0 6 0 1 2) 1] with typ := 2 })
      (fun t => ((t.slice 0).queue 1).ents.map (fun x => eTag x.e) == [5]) = true ∧
    yields (.queueDequeue .fhp 1) (withQueue up 1 (openQueue 2 [])) ((withQueue up 1 (openQueue 2 [])).answer
      { outc := .ok, flags := 0, data := List.replicate 32 0, poison := [] }) = true ∧
    yields (.queueDequeue .fhp 1) (withQueue up 1 (openQueue 0 [])) ((withQueue up 1 (openQueue 0 [])).answerOnly .notPermitted) = true ∧
    leads (.queueStatusRead .fhp 1) (withQueue up 1 (openQueue 2 [qent (taskOf1 5) 0])) (fun t => t.resp.data.take 4 == [1, 0, 0x22, 0]) = true := by decide +kernel

theorem met_qcfg : regOpen up .mgc (schBase 0 + 0x18) = true := by decide +kernel
theorem test_qcfg :
    yields (.queueEnable .mgc 0 0x70011) (withQueue up 0 { Queue.reset 0 with cap := 4096, base := 0x7000 - 0x1000 })
      ((withQueue up 0 { Queue.reset 0 with cap := 4096, base := 0x6000, en := true, cons := 2, act := 7 }).answerOnly .ok) = true ∧
    yields (.queueEnable .mgc 0 1) (withQueue up 0 { Queue.reset 0 with cap := 4096, base := 0x7001 })
      ((withQueue up 0 { Queue.reset 0 with cap := 4096, base := 0x7001 }).answerOnly .notPermitted) = true ∧
    yields (.queueEnable .mgc 0 1) up (up.answerOnly .notPermitted) = true ∧
    yields (.queueDisable .mgc 0 0x10) (withQueue up 0 (openQueue 2 [])) ((withQueue up 0 { openQueue 2 [] with en := false }).answerOnly .ok) = true ∧
    yields (.queueDisable .mgc 0 0) (withQueue up 0 (openQueue 2 [])) ((withQueue up 0 (openQueue 2 [])).answerOnly .notPermitted) = true ∧
    yields (.queueDisable .mgc 0 0x10) (withQueue up 0 (openQueue 2 [qent (taskOf1 5) 0])) ((withQueue up 0 (openQueue 2 [qent (taskOf1 5) 0])).answerOnly .notPermitted) = true := by
  decide +kernel
theorem test_end :
    leads (.endTask 0 1 9) (withScore up 0 (coreWith .running (taskT (taskOf1 5) 0 3))) (fun t => ((t.slice 0).score 0).st == .free &&
      (t.slice 0).recbuf.map (fun r => (r.cqid, eKind r.record, eTag r.record, slice r.record 192 32)) == [(2, 3, 5, (9 : BitVec 32))]) = true ∧
    leads (.endTask 0 1 9) (withScore up 0 { coreWith .running (taskT (taskOf1 5) 0 3) with next := some (taskT (taskOf1 6) 1 4) }) (fun t =>
      ((t.slice 0).score 0).st == .bound && (t.core 0).c.tdesc == taskOf1 6) = true ∧
    leads (.endTask 0 1 9) up (fun t => t.resp.outc == .ok && sget 0 t.tally (schBase 0 + 0x258) == 1) = true ∧
    (let s := (withScore up 0 (coreWith .running (taskT (taskOf1 5) 0 3))).updSlice 0 (fun x => { x with recbuf := List.replicate 16 { cqid := 2, record := 3 } })
     yields (.endTask 0 1 9) s s = true) := by decide +kernel
theorem test_cancel :
    leads (.cancel .fhp 1 5) (withQueue up 1 (openQueue 0 [qent (taskOf1 5) 0])) (fun t => ((t.slice 0).queue 1).ents == [] &&
      (t.slice 0).recbuf.map (fun r => slice r.record 96 5) == [(2 : BitVec 5)] && t.resp.outc == .ok) = true ∧
    leads (.cancel .fhp 1 5) (withQueue up 1 (openQueue 0 [])) (fun t => t.resp.outc == .ok && sget 0 t.tally (schBase 0 + 0x228) == 1) = true := by decide +kernel

/-- Two tasks of levels 3 and 5 wait in queues 1 and 2; every core is idle. -/
def bindState : State :=
  (withQueue (withQueue up 1 { openQueue 0 [qent (taskOf1 5) 0] with qprio := 3 }) 2 { openQueue 0 [qent (taskOf1 6) 0] with qprio := 5 }).updSlice 0
    (fun x => { x with coreen := 0xFF, seq := 1 })
def preState : State := (withScore bindState 4 (coreWith .running (taskT (taskOf1 1) 0 1))).updSlice 0 (fun x => { x with coreen := 0x10, cls := [(0, 1)] })
theorem met_bind :
    (pickBind bindState 0).map (fun p => (p.1.src, p.2)) = some (.queue 2, 0) ∧ (pickPreempt preState 0).map (fun p => (p.1.src, p.2)) = some (.queue 2, 4) ∧
    clkOn up 0 = true ∧ memberHolds up (.slice 0) = false ∧ (pickBind bindState 0).all (fun p => !candBad bindState 0 p.1 && !taskLate bindState p.1.task) = true := by decide +kernel
theorem test_bind :
    leads (.taskBind 0) bindState (fun t => ((t.slice 0).score 0).st == .bound && (t.core 0).c.tdesc == taskOf1 6 && ((t.slice 0).queue 2).ents == [] &&
      ((t.slice 0).queue 1).ents.length == 1 && ((t.slice 0).score 0).dispatch == some 2) = true ∧
    leads (.preemptBind 0) preState (fun t => ((t.slice 0).score 4).preempt == some 2 && ((t.slice 0).score 4).next.map (fun x => x.raw) == some (taskOf1 6) &&
      ((t.slice 0).score 4).st == .running) = true := by decide +kernel

def lateTask : Entry := taskE 3 7 0 0 0 0x100 5 0 0xFF 2
def atTick (n : Word) (s : State) : State := { s with cmk := { s.cmk with tick := n } }
def missed (t : State) : Bool := (t.slice 0).recbuf.map (fun r => slice r.record 96 5) == [(0xF : BitVec 5)]
theorem test_deadline :
    leads (.taskDeadline 0 (.queueHead 1)) (atTick 0x100 (withQueue up 1 (openQueue 0 [qent lateTask 0]))) (fun t => missed t && ((t.slice 0).queue 1).ents == []) = true ∧
    leads (.taskDeadline 0 (.bound 0)) (atTick 0x100 (withScore up 0 { coreWith .bound (taskT lateTask 0 3) with dispatch := some 1 }))
      (fun t => missed t && (t.slice 0).score 0 == SCore.reset) = true ∧
    leads (.taskDeadline 0 (.bound 0)) (atTick 0x100 (withScore up 0 { coreWith .running (taskT (taskOf1 1) 0 1) with next := some (taskT lateTask 1 3), preempt := some 1 }))
      (fun t => missed t && (t.slice 0).score 0 == coreWith .running (taskT (taskOf1 1) 0 1)) = true ∧
    leads (.taskDeadline 0 (.suspended 0 0)) (atTick 0x100 (withScore up 0 { SCore.reset with susp := [taskT lateTask 0 3] })) (fun t => missed t && (t.slice 0).score 0 == SCore.reset) = true := by
  decide +kernel
theorem test_deadline_running :
    leads (.taskDeadline 0 (.running 0)) (atTick 0x100 ((withScore up 0 (coreWith .running (taskT lateTask 0 3))).updSlice 0 (fun x => { x with cls := [(0, 2)] })))
      (fun t => missed t && ((t.slice 0).score 0).st == .reclaim && ((t.slice 0).score 0).killed && ((t.slice 0).score 0).noticePend == some 5) = true ∧
    leads (.taskDeadline 0 (.running 0)) (atTick 0x100 (withScore up 0 (coreWith .running (taskT lateTask 0 3))))
      (fun t => (t.slice 0).recbuf == [] && ((t.slice 0).score 0).st == .running && ((t.slice 0).score 0).notice && ((t.slice 0).score 0).cur.any (fun x => x.missed)) = true ∧
    leads (.taskDeadline 0 (.running 0)) (withScore up 0 (coreWith .running (taskT lateTask 0 3))) (fun t => !((t.slice 0).score 0).notice) = true := by decide +kernel

def recOut0 : RecOut := { cqid := 1, record := mkRecord (taskOf1 5) .ok 0 0 1 0 0 0 0 }
def recState (q : Queue) : State := (withQueue up 1 q).updSlice 0 (fun x => { x with recbuf := [recOut0] })
theorem test_task_record :
    (queueWay (recState (openQueue 2 [])) 0 1).1 = .pass ∧ badEntry 2 recOut0.record = false ∧
    leads (.taskRecordEnqueue 0 none) (recState (openQueue 2 [])) (fun t => ((t.slice 0).queue 1).ents == [qent recOut0.record 0] && (t.slice 0).recbuf == []) = true ∧
    leads (.taskRecordEnqueue 0 none) (recState { openQueue 2 [qent (taskOf1 1) 0] with cap := 1 }) (fun t => (t.slice 0).recbuf == [recOut0]) = true ∧
    leads (.taskRecordEnqueue 0 (some .timeout)) (recState (openQueue 2 [])) (fun t => (t.slice 0).recbuf == [] && sget 0 t.tally (schBase 0 + 0x260) == 1 &&
      sget [] t.asy.queued 0x202 == [{ detail := 0x310001, inj := false, durinj := false }]) = true := by decide +kernel
theorem test_load_period : periodNow up 1 1 = true ∧
    leads (.loadPeriodEdge 0) (withScore up 0 { SCore.reset with busy := 77 }) (fun t => (t.slice 0).score 0 == { SCore.reset with load := 77 }) = true := by decide +kernel

/-- Cluster 1 is the thief of a task in queue 1 of cluster 0. -/
def victimS : State := ((withQueue up 1 (openQueue 0 [qent (taskOf1 5) 0])).updSlice 0 (fun x => { x with giveen := true })).updSlice 1 (fun x => { x with stealen := true, coreen := 1 })
def withThief (s : State) (t : Thief) : State := s.updSlice 1 (fun x => { x with thief := t })
def thief0 : Thief := (Slice.reset).thief
theorem met_steal :
    stealIdle victimS 1 = true ∧ ((victimOrder 1).filter (fun g => signalsWork victimS g)).take 3 = [0] ∧ (oldestSteal victimS 0 1).map (fun c => c.src) = some (.queue 1) ∧
    oldestSteal up 0 1 = none := by decide +kernel
theorem test_steal :
    leads (.stealStart 1) { withThief victimS { thief0 with idleSince := some 0 } with cycle := 512 } (fun t => (t.slice 1).thief.asking == some 0 && (t.slice 1).thief.victims == []) = true ∧
    leads (.stealStart 1) { withThief victimS { thief0 with idleSince := some 0 } with cycle := 511 } (fun t => (t.slice 1).thief.asking == none) = true ∧
    leads (.stealRequest 0 1) (withThief victimS { thief0 with asking := some 0 }) (fun t => ((t.slice 0).queue 1).ents == [] &&
      (t.slice 0).stolen == [{ tag := 5, qid := 1, thief := 1, cancelled := false }] && (t.slice 1).thief.coming.any (fun x => x.stolen && x.home == 0)) = true ∧
    leads (.stealRequest 0 1) (withThief up { thief0 with asking := some 0 }) (fun t => (t.slice 1).thief.refused) = true ∧
    leads (.stealReceive 1) (withThief up { thief0 with coming := some (taskT (taskOf1 5) 0 3) }) (fun t => (t.slice 1).stealSlot.isSome && (t.slice 1).thief == thief0) = true ∧
    leads (.stealRefusal 1) (withThief up { thief0 with asking := some 0, refused := true, victims := [2] }) (fun t => (t.slice 1).thief.asking == some 2 &&
      (t.slice 1).thief.refusals == 1) = true ∧
    leads (.stealRefusal 1) (withThief up { thief0 with asking := some 0, refused := true, refusals := 2 }) (fun t => (t.slice 1).thief == { thief0 with idleSince := some 0 } &&
      sget 0 t.tally (schBase 1 + 0x250) == 1) = true := by decide +kernel
def stolenTask : Task := { taskT (taskOf1 5) 0 3 with stolen := true, home := 0 }
theorem test_steal_end :
    leads (.stealRecordReturn 1) ((up.updSlice 1 (fun x => { x with back := [(0, 5, 1)] })).updSlice 0 (fun x => { x with stolen := [{ tag := 5, qid := 1, thief := 1, cancelled := false }] }))
      (fun t => (t.slice 0).stolen == [] && (t.slice 1).back == []) = true ∧
    leads (.stealCancelForward 0) ((up.updSlice 1 (fun x => { x with stealSlot := some stolenTask })).updSlice 0 (fun x => { x with stolen := [{ tag := 5, qid := 1, thief := 1, cancelled := true }] }))
      (fun t => (t.slice 1).stealSlot == none && (t.slice 1).back == [(0, 5, 1)] && (t.slice 1).recbuf.length == 1 && (t.slice 0).stolen == [{ tag := 5, qid := 1, thief := 1, cancelled := false }]) = true := by
  decide +kernel

theorem met_budget : regOpen up .mgc (budBase 0 + 7 * 0x40) = true ∧ regOpen up .mgc (budBase 0 + 0x8000) = true ∧ regOpen up .mgc (budBase 0 + 7 * 0x40 + budWordOff .cyc) = true ∧
    multOk 1 20 = true ∧ multOk 1 3 = false ∧ periodNow up 1 20 = true := by decide +kernel
/-- The value that enables a budget of numerology 1, multiple 20. -/
def budOn : Word := 1 + 2 * 1 + 16 * 20
def act7 : BudAct := { BudAct.reset with en := true, num := 1, mult := 20, cur := { BudWords.reset with cyc := 5000 }, left := 5000, parity := true,
                                          jobsLeft := jobTable BudWords.reset.jobs }
theorem test_budget :
    yields (.budBudgetWrite .mgc 0 7 .cyc 5000) up ((up.setBud 0 { Bud.reset with acts := [(7, { BudAct.reset with cur := { BudWords.reset with cyc := 5000 } })] }).answerOnly .ok) = true ∧
    leads (.budgetEnable .mgc 0 7 budOn) (up.setBud 0 { Bud.reset with acts := [(7, { BudAct.reset with cur := { BudWords.reset with cyc := 5000 } })] })
      (fun t => (t.bud 0).act 7 == act7 && t.resp.outc == .ok) = true ∧
    yields (.budgetEnable .mgc 0 7 (budOn + 2)) (up.setBud 0 { Bud.reset with acts := [(7, act7)] }) ((up.setBud 0 { Bud.reset with acts := [(7, act7)] }).answerOnly .notPermitted) = true ∧
    leads (.budgetDisable .mgc 0 7 (budOn - 1)) (up.setBud 0 { Bud.reset with acts := [(7, act7)] }) (fun t => !((t.bud 0).act 7).en && t.resp.outc == .ok) = true ∧
    leads (.budgetPeriodEdge 0 7) ((up.setBud 0 { Bud.reset with acts := [(7, { act7 with left := 9, staged := some { BudWords.reset with cyc := 8 } })] }).updSlice 0
      (fun x => x.setHold 7 { Hold.reset with held := 100 })) (fun t => ((t.bud 0).act 7).left == 8 && !((t.bud 0).act 7).parity && ((t.slice 0).hold 7).held == 0) = true ∧
    leads (.reserveEnable .mgc 0 budOn) (up.setBud 0 { Bud.reset with rsvCyc := 6 }) (fun t => (t.bud 0).rsvEn && (t.bud 0).rsvLeft == 6 && (t.bud 0).rsvMult == 20) = true ∧
    leads (.reservePeriodEdge 0) (up.setBud 0 { Bud.reset with rsvEn := true, rsvNum := 1, rsvCyc := 6, rsvLeft := 1 }) (fun t => (t.bud 0).rsvLeft == 6) = true ∧
    yields (.dramBudgetPeriodEdge 7) (up.setDbud 7 { DBud.reset with en := true, units := 4, lim := 2, staged := some 9 }) (up.setDbud 7 { DBud.reset with en := true, lim := 9 }) = true := by
  decide +kernel
/-- Core 0 of cluster 0 runs a task of activity 7. -/
def chunkS (b : Bud) (h : Hold) : State := (withScore (up.setBud 0 b) 0 (coreWith .running (taskT (taskOf1 5) 0 3))).updSlice 0 (fun x => { x.setHold 7 h with cls := [(0, 1)] })
theorem met_chunk : coresRunning ((chunkS Bud.reset Hold.reset).slice 0) 7 = [0] := by decide +kernel
theorem test_chunk :
    leads (.chunkRequest 0 7) (chunkS Bud.reset { Hold.reset with held := 4095 }) (fun t => (t.bud 0).msgs == [{ gc := 0, act := 7, amount := some 4096, parity := false }]) = true ∧
    leads (.chunkRequest 0 7) (chunkS { Bud.reset with acts := [(7, act7)] } Hold.reset) (fun t => ((t.bud 0).act 7).left == 904) = true ∧
    leads (.chunkRequest 0 7) (chunkS { Bud.reset with acts := [(7, { act7 with left := 904 })] } Hold.reset) (fun t => ((t.bud 0).act 7).left == 0 &&
      (t.bud 0).msgs.map (fun m => m.amount) == [some 904]) = true ∧
    leads (.chunkRequest 0 7) (chunkS { Bud.reset with rsvEn := true, rsvLeft := 100, acts := [(7, { act7 with left := 0, borrow := true, cur := { BudWords.reset with bmax := 1 } })] } Hold.reset)
      (fun t => ((t.bud 0).act 7).borrowed == 1 && (t.bud 0).rsvLeft == 0 && (t.bud 0).msgs.map (fun m => m.amount) == [some 100]) = true ∧
    leads (.chunkRequest 0 7) (chunkS { Bud.reset with acts := [(7, { act7 with left := 0 })] } Hold.reset) (fun t => ((t.bud 0).act 7).exh && (t.bud 0).msgs.map (fun m => m.amount) == [none]) = true ∧
    (let m := fun (p : Bool) (n : Option Nat) => chunkS { Bud.reset with acts := [(7, act7)], msgs := [{ gc := 0, act := 7, amount := n, parity := p }] } { Hold.reset with held := 5, asked := true }
     leads (.chunkAnswer 0 7) (m true (some 4096)) (fun t => (t.slice 0).hold 7 == { held := 4101, asked := false, exh := false, parity := true }) = true ∧
       leads (.chunkAnswer 0 7) (m false (some 4096)) (fun t => (t.slice 0).hold 7 == { Hold.reset with held := 5 }) = true ∧
       leads (.chunkAnswer 0 7) (m true none) (fun t => ((t.slice 0).hold 7).exh && ((t.slice 0).score 0).preempt == some 0x40000) = true) := by decide +kernel

/-! ## Fabric -/

/-- A request of the fronthaul NI (node 0x91) to DRAM address 0x5100. -/
def req0 : NiReq :=
  { ini := .fhp, lane := 5, typ := .rd, addr := 0x5100, mask := 0xFF, data := [], poison := 0, act := 37, node := 0x81, route := (activeRt up 0x91 0x81).route, epoch := false,
    enqueue := false, p2 := false, again := false }
/-- The NI's node in these tests, and `up` with it. -/
def n0 : NodeId := 0x91
def niUp (x : Ni) : State := up.setNi n0 x
def reg5 : RegEntry := { RegEntry.reset with act := 37, en := true, burst := 64, bucket := 64 * 4096 }
theorem met_ni : reqShape .rd 0x5100 = true ∧ iniNode .fhp = n0 ∧ nodeOf 0x5100 = some 0x81 ∧ (activeRt up n0 0x81).valid = true ∧ nodeOf 0x0FFFFFFFFC0 = none ∧
    regFor Ni.reset 37 = none ∧ regFor { Ni.reset with regs := [(5, reg5)] } 37 = some 5 ∧ isRegPa (BitVec.ofNat 44 (hubBlk 11)) = true ∧ isRegPa 0x5100 = false := by decide +kernel
theorem test_ni_request :
    yields (.niRequest .fhp .rd 0x5100 0xFF [] 37) up (niUp { Ni.reset with free := [req0] }) = true ∧
    leads (.niRequest .fhp .rd 0x5100 0xFF [] 37) (niUp { Ni.reset with regs := [(5, reg5)] }) (fun t => ((t.ni n0).reg 5).fifo == [req0] && (t.ni n0).free == []) = true ∧
    leads (.niRequest .fhp .rd (BitVec.ofNat 44 (hubBlk 11)) 0xF [] 37) up (fun t => (t.ni n0).mgt.length == 1) = true ∧
    yields (.niRequest .fhp .rd 0x0FFFFFFFFC0 0xF [] 37) up (up.answerOnly .routeFault) = true ∧
    leads (.niRequest .fhp .rd 0x5100 0xFF [] 37) (niUp { Ni.reset with active := [(0x81, { route := 0, epoch := false, valid := false })] })
      (fun t => t.resp.outc == .routeFault && sget 0 t.tally (niBase n0 + 0x128) == 1) = true := by decide +kernel
/-- R246 (worked example): 64 flits of burst let 12 RD256 pass, and the thirteenth waits for the refill to 80 384 units. -/
theorem test_regulator :
    leads (.regulatorInject n0 5) (niUp { Ni.reset with regs := [(5, { reg5 with fifo := [{ req0 with typ := .rd256 }] })] }) (fun t => ((t.ni n0).reg 5).bucket == 262144 - 20480 &&
      ((t.ni n0).slot 0).st == .opened { req0 with typ := .rd256 } 0 && ((t.ni n0).reg 5).fifo == []) = true ∧
    yields (.regulatorInject n0 5) (niUp { Ni.reset with regs := [(5, { reg5 with bucket := 16384, fifo := [{ req0 with typ := .rd256 }] })] })
      (niUp { Ni.reset with regs := [(5, { reg5 with bucket := 16384, fifo := [{ req0 with typ := .rd256 }] })] }) = true ∧
    leads (.regulatorRefill n0) (niUp { Ni.reset with regs := [(5, { reg5 with bucket := 16384, rate := 2560 })] }) (fun t => ((t.ni n0).reg 5).bucket == 80384) = true ∧
    leads (.regulatorInject n0 64) (niUp { Ni.reset with free := [req0], slots := [(0, { gen := 2, st := .quarantine 0 })] }) (fun t =>
      ((t.ni n0).slot 1).st == .opened req0 0 && (t.ni n0).free == [] && (sget [] (t.elem .h1).inq 2).length == 1) = true := by decide +kernel
def packet0 : Packet :=
  { typ := .rspd, route := 0, src := 0x81, txid := 512 * 2 + 3, act := 37, epoch := false, addr := 0x5100, mask := 0xFF, data := [1, 2], poison := 0, outc := .ok, synth := false,
    flags := 0, tc := false, mgt := false, ini := .fhp, p2 := false, born := 0 }
def openSlot : TxSlot := { gen := 2, st := .opened req0 0 }
theorem met_response : openReq { Ni.reset with slots := [(3, openSlot)] } packet0 = some (3, req0, 0) ∧ openReq { Ni.reset with slots := [(3, { openSlot with gen := 1 })] } packet0 = none := by
  decide +kernel
theorem test_response :
    leads (.responseArrival n0) (niUp { Ni.reset with arrived := [packet0], slots := [(3, openSlot)] }) (fun t => ((t.ni n0).slot 3) == { gen := 2, st := .free } &&
      t.resp.outc == .ok && t.resp.data == [1, 2] && (t.ni n0).arrived == []) = true ∧
    leads (.responseArrival n0) (niUp { Ni.reset with arrived := [packet0], slots := [(3, { openSlot with gen := 1 })] }) (fun t => ((t.ni n0).slot 3) == { openSlot with gen := 1 } &&
      sget 0 t.tally (niBase n0 + 0x118) == 1) = true ∧
    leads (.retryArrival n0) (niUp { Ni.reset with arrived := [{ packet0 with typ := .retry }], slots := [(3, openSlot)] }) (fun t => (t.ni n0).retries == [{ r := req0, since := 0 }] &&
      ((t.ni n0).slot 3).st == .free) = true ∧
    leads (.retryResend n0 .fhp) { niUp { Ni.reset with retries := [{ r := req0, since := 0 }] } with cycle := 256 } (fun t => (t.ni n0).retries == [] &&
      ((t.ni n0).slot 0).st == .opened { req0 with again := true } 256) = true ∧
    leads (.requestTimeout n0 3) { niUp { Ni.reset with slots := [(3, openSlot)] } with cycle := 98304 * 4 } (fun t => ((t.ni n0).slot 3).st == .quarantine (98304 * 4) &&
      t.resp.outc == .timeout && sget 0 t.tally (niBase n0 + 0x110) == 1) = true ∧
    leads (.txidQuarantineEnd n0 3) { niUp { Ni.reset with slots := [(3, { gen := 3, st := .quarantine 0 })] } with cycle := 3932160 } (fun t => ((t.ni n0).slot 3) == { gen := 0, st := .free }) = true := by
  decide +kernel

/-- R243 (worked example): the default route of GC 37 to node 0x81, and the way back. -/
theorem test_routes : (defaultRt 37 0x81).route = 0x000A2C ∧ (defaultRt 0x81 37).valid = true ∧ meshX 37 = 3 ∧ meshY 37 = 0 := by decide +kernel
/-- A packet in H0's input buffer of hub-die link 2, bound for port 5. -/
def inH0 (k : Packet) : State := up.setElem .h0 { ElemState.reset with inq := [(2, [k])] }
def reqPkt : Packet := { packet0 with typ := .rd, route := 5, txid := 3, data := [] }
def portSt (x : BitVec 2) (s : State) : State := s.setRPort .h0 5 { RPort.reset with state := x }
theorem met_forward : outPort .h0 reqPkt = 5 ∧ portPasses (inH0 reqPkt) .h0 5 false = true ∧ portPasses (portSt 2 (inH0 reqPkt)) .h0 5 false = false ∧
    portPasses (portSt 1 (inH0 reqPkt)) .h0 5 false = true ∧ portPasses (portSt 1 (inH0 reqPkt)) .h0 5 true = false ∧
    forAgent (.mesh 0) 0 { reqPkt with addr := BitVec.ofNat 44 (budBase 0 + 0x80000) } = true ∧ onLink (inH0 reqPkt) .h0 5 = some (.h0, 2, 0, reqPkt) := by decide +kernel
theorem test_forward :
    leads (.routerForward .h0 2) (inH0 reqPkt) (fun t => (t.ni 0x81).arrived.map (fun k => k.route) == [0x400000] && (sget [] (t.elem .h0).inq 2) == []) = true ∧
    leads (.routerForward .h0 2) (portSt 2 (inH0 reqPkt)) (fun t => (t.ni 0x81).arrived == [] && (sget [] (t.elem (.gwHub 2)).inq 0 ++ sget [] (t.elem (.gwDie 2)).inq 0).map (fun k => (k.outc, k.synth)) ==
      [(.routeFault, true)]) = true ∧
    leads (.routerForward .h0 2) (portSt 2 (inH0 { reqPkt with typ := .rspd })) (fun t => sget 0 t.tally (elemBase .h0 + 0x40 * 5 + 8 + 32) == 1 && (sget [] (t.elem .h0).inq 2) == []) = true ∧
    leads (.routerForward (.mesh 0) 5) (up.setElem (.mesh 0) { ElemState.reset with inq := [(5, [{ reqPkt with route := 0, addr := BitVec.ofNat 44 (budBase 0 + 0x80000) }])] })
      (fun t => (t.ni 0).arrived.length == 1) = true ∧
    leads (.responseLifetimeExpiry .h0 2) { inH0 { reqPkt with typ := .rspd } with cycle := 262144 } (fun t => (sget [] (t.elem .h0).inq 2) == []) = true ∧
    leads (.linkFlitError .h0 5 0) (inH0 reqPkt) (fun t => sget 0 (t.elem .h0).fails 20 == 1 && sget [] (t.elem .h0).inq 2 == [reqPkt]) = true ∧
    leads (.linkFlitError .h0 5 0) (up.setElem .h0 { ElemState.reset with inq := [(2, [reqPkt])], fails := [(20, 3)] }) (fun t => sget [] (t.elem .h0).inq 2 == [] &&
      (sget [] (t.elem (.gwHub 2)).inq 0 ++ sget [] (t.elem (.gwDie 2)).inq 0).map (fun k => k.outc) == [.replayExhausted]) = true := by decide +kernel

theorem met_fabric_control : regOpen up .mgc (niBase 0 + 0x1000 + 0x10 * 5) = true ∧ regOpen up .mgc (niBase 0 + 0xC) = true ∧ regOpen up .mgc (elemBase (.mesh 0) + 0x40 * 2) = true ∧
    portPresent (.mesh 0) 2 = true ∧ portLocked up (.mesh 0) 2 = false ∧
    portLocked { up with asy := { Asy.reset with fences := [{ src := 0, unit := .port (.mesh 0) 2 }] } } (.mesh 0) 2 = true := by decide +kernel
theorem test_fabric_control :
    leads (.regulatorConfigWrite .mgc 0 5 0x225) up (fun t => (t.ni 0).reg 5 == { RegEntry.reset with act := 37, en := true }) = true ∧
    leads (.regulatorConfigWrite .mgc 0 5 0x225) (up.setNi 0 { Ni.reset with regs := [(4, { RegEntry.reset with act := 37, en := true })] }) (fun t => t.resp.outc == .notPermitted) = true ∧
    leads (.routeTableSwap .mgc 0) (up.setNi 0 { Ni.reset with staging := [(3, { route := 1, epoch := true, valid := true })] }) (fun t =>
      (t.ni 0).active == [(3, { route := 1, epoch := true, valid := true })] && (t.ni 0).staging == []) = true ∧
    yields (.portDrain .mgc (.mesh 0) 2 true) up ((up.setRPort (.mesh 0) 2 { state := 1, depoch := true, pend := false }).answerOnly .ok) = true ∧
    yields (.portDisable .mgc (.mesh 0) 2) up (up.answerOnly .notPermitted) = true ∧
    yields (.portDisable .mgc (.mesh 0) 2) (up.setRPort (.mesh 0) 2 { RPort.reset with state := 1 }) ((up.setRPort (.mesh 0) 2 { RPort.reset with state := 2 }).answerOnly .ok) = true ∧
    yields (.portEnable .mgc (.mesh 0) 2) (up.setRPort (.mesh 0) 2 { RPort.reset with state := 2 }) (up.answerOnly .ok) = true ∧
    leads (.portDrainComplete .h0 5) (up.setElem .h0 { ElemState.reset with ports := [(5, { state := 1, depoch := false, pend := true })], outq := [(5, [reqPkt])] })
      (fun t => (t.elem .h0).port 5 == { state := 2, depoch := false, pend := false } && (t.elem .h0).outq == [] && (t.ni 0x81).arrived.length == 1) = true := by decide +kernel

/-- A request at the NI of cluster 0. -/
def atN (k : Packet) (s : State) : State := s.setNi 0 { Ni.reset with arrived := [k] }
def dmemRd : Packet := { reqPkt with addr := BitVec.ofNat 44 (dmemBase 0), mask := 0xF }
def asleep (c : ClusterPower) : State := { up with lmp := { up.lmp with regions := [(0, { regionUp with c0 := c })] } }
theorem met_target : nodeGate up 0 false = .pass ∧ nodeOf dmemRd.addr = some 0 ∧ nodeOf reqPkt.addr = some 0x81 ∧ inReset up 0 = false ∧
    nodeGate { up with lmp := Lmp.reset } 0 false = .answer .routeFault ∧ nodeGate (asleep .retain) 0 false = .answer .domainAsleep ∧
    nodeGate { asleep .retain with lmp := { (asleep .retain).lmp with wakeonaccc0 := 1 } } 0 false = .hold (.cluster 0) := by decide +kernel
def answered (t : State) : List (PktType × Outc) := ((t.elem (.mesh 0)).inq.flatMap (fun p => p.2)).map (fun k => (k.typ, k.outc))
theorem test_target :
    leads (.requestAtTarget 0) (atN { reqPkt with typ := .reserved } up) (fun t => (t.ni 0).arrived == [] && sget 0 t.tally (niBase 0 + 0x130) == 1) = true ∧
    leads (.requestAtTarget 0) (atN { reqPkt with typ := .msg } up) (fun t => (t.ni 0).arrived == []) = true ∧
    leads (.requestAtTarget 0) (atN dmemRd up) (fun t => answered t == [(.rspd, .ok)] && (t.ni 0).arrived == []) = true ∧
    leads (.requestAtTarget 0) (atN reqPkt up) (fun t => answered t == [(.rsp, .routeFault)]) = true ∧
    leads (.requestAtTarget 0) (atN dmemRd { up with lmp := Lmp.reset }) (fun t => answered t == [(.rsp, .routeFault)]) = true ∧
    leads (.requestAtTarget 0) (atN dmemRd (asleep .retain)) (fun t => answered t == [(.rsp, .domainAsleep)] && sget 0 t.tally (lmpBase + 0x150) == 1) = true ∧
    leads (.requestAtTarget 0) (atN dmemRd { asleep .retain with lmp := { (asleep .retain).lmp with wakeonaccc0 := 1 } }) (fun t => answered t == [] &&
      t.lmp.held == [{ target := .cluster 0, node := 0 }] && t.lmp.wakesrc == 0x40 && (t.ni 0).arrived == [dmemRd]) = true ∧
    leads (.requestAtTarget 0) (atN { dmemRd with typ := .wrm, mask := 0xFFFFFFFF, addr := BitVec.ofNat 44 (queueBase 0 + 64), data := bytesOfNat 64 (taskOf1 5).toNat } (withQueue up 1 { openQueue 0 [qent (taskOf1 1) 0] with cap := 1 }))
      (fun t => answered t == [(.retry, .ok)]) = true := by decide +kernel
theorem test_targets :
    tgtAccess up { reqPkt with addr := 0x0FFFFFFFFC0 } none = .ans (Ans.only .routeFault) up ∧
    tgtAccess up { reqPkt with addr := BitVec.ofNat 44 (hubBlk 11), mask := 0xF, p2 := true } none = .ans (Ans.only .notPermitted) up ∧
    tgtAccess up { reqPkt with addr := BitVec.ofNat 44 (hubBlk 11), typ := .wr } none = .ans (Ans.only .notPermitted) up ∧
    (match tgtAccess up { dmemRd with typ := .wrm, mask := 2, data := [7, 8] } none with | .ans a u => decide (a = Ans.only .ok) && u.bytes (dmemBase 0) 2 == [0, 8] | _ => false) = true ∧
    (match tgtAccess (up.setBytes (dmemBase 0) [1, 2, 3, 4, 5]) dmemRd none with | .ans a _ => a.outc == .ok && a.data.take 5 == [1, 2, 3, 4, 0] | _ => false) = true := by decide +kernel

/-! ## Host interface -/

/-- PF rings: 0 command, 1 completion, 2 event, each with 64 entries in host memory. -/
def cmdRing : Ring := { Ring.reset with baselo := 0x10000, en := true, typ := 0, cring := 1, acthi := 511, st := .active }
def cplRing : Ring := { Ring.reset with baselo := 0x20000, en := true, typ := 1, acthi := 511, st := .active }
def evRing : Ring := { Ring.reset with baselo := 0x30000, en := true, typ := 2, acthi := 511, st := .active }
def host0 : State :=
  { up with hif := { up.hif with rings := [(0, cmdRing), (1, cplRing), (2, evRing)], fns := [(0, { HostFn.reset 0 with bme := true })],
                                 ott := [(0, { valid := true, fn := 0, ro := false, ns := false, haddr := 3 }), (1, { valid := true, fn := 1, ro := false, ns := false, haddr := 3 })] } }
def hostPa (o : Nat) : Pa := BitVec.ofNat 44 (2 ^ 43 + o)
def unmappedBar (s : State) : State := (tallyAdd s (hifBase + 0xF0018) 1).answerOnly .routeFault

theorem met_bar : hostReach host0 = true ∧ bar0Pa host0 0x0 = some (hubBlk 0) ∧ bar0Pa host0 0xE00000 = none ∧ bar0Pa { host0 with hif := { host0.hif with ready := false } } 0x100000 = none ∧
    barQueueBad (hubBlk 11 + 8) 4 true = false ∧ barQueueBad (queueBase 0 + 64) 4 true = true ∧ bar0Pa host0 (0x10000000 + 0x400040) = slotPa 0 0x400040 := by decide +kernel
theorem test_bar :
    yields (.barAccess 1 .bar0 0 false 4 []) host0 (unmappedBar host0) = true ∧ yields (.barAccess 1 .bar4 0 false 4 []) host0 (unmappedBar host0) = true ∧
    yields (.barAccess 0 .bar0 0xE00000 false 4 []) host0 (unmappedBar host0) = true ∧
    (let s := { host0 with hif := { host0.hif with ready := false } }
     yields (.barAccess 0 .bar4 0 false 4 []) s (unmappedBar s) = true ∧ yields (.barAccess 0 .bar2 0 false 4 []) s (unmappedBar s) = true ∧
     yields (.barAccess 0 .bar0 0x100000 false 4 []) s (unmappedBar s) = true) ∧
    yields (.barAccess 0 .bar2 0 false 4 []) host0 ((tallyAdd host0 (hifBase + 0xF0010) 1).answer { outc := .ok, flags := 0, data := [0, 0, 0, 0], poison := [] }) = true ∧
    yields (.barAccess 0 .bar0 (BitVec.ofNat 36 (hubBlk 11 + 8 - hubRegs)) true 4 [1, 2]) host0 ({ host0 with gpo := { host0.gpo with dout := 0x201 } }.answerOnly .ok) = true ∧
    leads (.barAccess 0 .bar0 (BitVec.ofNat 36 (hubBlk 11 + 8 - hubRegs)) true 8 [1, 2]) host0 (fun t => t.resp.outc == .notPermitted && t.hif.errOutc == 9 &&
      t.hif.errOff == BitVec.ofNat 32 (hubBlk 11 + 8 - hubRegs) && sget 0 t.tally (hifBase + 0xF0038) == 1) = true ∧
    leads (.barAccess 0 .bar4 0x40 true 2 [5, 6]) host0 (fun t => t.bytes 0x40 2 == [5, 6] && t.resp.outc == .ok) = true ∧
    leads (.barAccess 0 .bar4 0x40 true 2 [5, 6]) host0 (fun t => leads (.barAccess 0 .bar4 0x40 false 2 []) t (fun u => u.resp.data == [5, 6])) = true := by decide +kernel
theorem met_host_memory : place (hostPa 8) = .host 8 ∧ freeTag host0 = some 0 := by decide +kernel
theorem test_host_memory :
    leads (.hostMemoryAccess .fhp (hostPa 8) true 2 [5, 6] 37) host0 (fun t => t.hostMem == [(3 * 2 ^ 30 + 8, 5), (3 * 2 ^ 30 + 9, 6)] && t.resp.outc == .ok) = true ∧
    yields (.hostMemoryAccess .fhp (hostPa (2 ^ 30 * 5)) true 2 [5, 6] 37) host0 (host0.answerOnly .routeFault) = true ∧
    yields (.hostMemoryAccess .fhp (hostPa (2 ^ 30)) false 2 [5] 37) host0 (host0.answerOnly .notPermitted) = true ∧
    yields (.hostMemoryAccess .fhp (hostPa 8) false 2 [5] 37) host0 { host0 with hif := { host0.hif with reads := [(0, some { ini := .fhp, pkt := none, haddr := 3 * 2 ^ 30 + 8, len := 2, since := 0 })] } } = true := by
  decide +kernel
def hostRd : State := { host0 with hif := { host0.hif with reads := [(0, some { ini := .fhp, pkt := none, haddr := 8, len := 2, since := 0 })] } }
theorem test_host_completion :
    yields (.hostReadCompletion 0 (.success [1, 2, 3])) hostRd (host0.answer { outc := .ok, flags := 0, data := [1, 2], poison := [] }) = true ∧
    yields (.hostReadCompletion 0 .unsupported) hostRd (host0.answerOnly .routeFault) = true ∧ yields (.hostReadCompletion 0 .abort) hostRd (host0.answerOnly .notPermitted) = true ∧
    yields (.hostReadCompletion 0 (.poisoned [])) hostRd (host0.answer { outc := .uncorrectable, flags := 0, data := [0, 0], poison := [] }) = true ∧
    yields (.hostReadCompletion 0 .timeout) { hostRd with cycle := 39321600 } ({ host0 with cycle := 39321600 }.answerOnly .timeout) = true ∧
    yields (.hostReadCompletion 0 .timeout) { hostRd with cycle := 39321599 } { hostRd with cycle := 39321599 } = true := by decide +kernel

/-- `host0` with another ring 0, 1 or 2. -/
def withRing (n : RingId) (r : Ring) : State := host0.setRing n r
theorem met_rings : cmdRing.base = 0x10000 ∧ cmdRing.size = 64 ∧ nextRing (withRing 0 { cmdRing with pi := 1 }) = some 0 ∧ (host0.hostFn 0).bme = true ∧ host0.ringTakes 1 = true ∧
    regOpen host0 .mgc (hifBase + 0x10008) = true ∧ ringValid host0 { cmdRing with en := false } = true ∧ ringValid host0 { cmdRing with baselo := 64 } = false ∧
    conflictOf host0 = none ∧ regOpen host0 .mgc (hifBase + 0x400) = true := by decide +kernel
theorem test_doorbell :
    yields (.doorbell 0 0 8 1) host0 (withRing 0 { cmdRing with pi := 1 }) = true ∧ yields (.doorbell 0 0 8 64) host0 (withRing 0 { cmdRing with pi := 64 }) = true ∧
    leads (.doorbell 0 0 8 65) host0 (fun t => (t.ring 0).st == .error && (t.ring 0).cause == 1) = true ∧
    yields (.doorbell 0 8 8 1) (withRing 1 { cplRing with pi := 5 }) (withRing 1 { cplRing with pi := 5, ci := 1 }) = true ∧
    leads (.doorbell 0 8 8 6) (withRing 1 { cplRing with pi := 5 }) (fun t => (t.ring 1).ci != 6) = true ∧
    yields (.doorbell 1 0 8 1) host0 (tallyAdd host0 (hifBase + 0xF0010) 1) = true ∧ yields (.doorbell 0 0x18 8 1) host0 (tallyAdd host0 (hifBase + 0xF0010) 1) = true := by decide +kernel
theorem test_fetch :
    leads (.descriptorFetch 0 (.success (bytesOfNat 64 0x3F))) (withRing 0 { cmdRing with pi := 1 }) (fun t => t.hif.cmds.map (fun c => (c.desc, c.idx)) == [(0x3F, 0)] && (t.ring 0).ci == 1) = true ∧
    leads (.descriptorFetch 0 (.success (bytesOfNat 64 0x77))) (withRing 0 { cmdRing with pi := 1 }) (fun t => t.hif.cmds == [] && ((t.ring 1).waiting.map (fun e => slice e 16 8)) == [(0xA : BitVec 8)]) = true ∧
    leads (.descriptorFetch 0 .abort) { host0 with hif := { host0.hif with rings := [(0, { cmdRing with pi := 1 }), (1, { cplRing with fn := 1 })], fns := [(1, { HostFn.reset 1 with bme := true })] } } (fun t => (t.ring 0).st == .error &&
      (t.ring 0).cause == 2) = true := by decide +kernel
/-- R282 (and its worked example: index 0xBF of ring 13 has PHASE 1 in slot 63, index 0xC0 has PHASE 0 in slot 0), R294. -/
theorem test_completion_write :
    leads (.completionWrite 1 true) (withRing 1 { cplRing with waiting := [8, 9] }) (fun t => sget 0 t.hostMem 0x20000 == 0x88 && (t.ring 1).pi == 1 && (t.ring 1).waiting == [9]) = true ∧
    leads (.completionWrite 1 true) (withRing 1 { cplRing with waiting := [8], pi := 0xBF, ci := 0xBF }) (fun t => t.hostMem == [(0x207E0, 0x88)]) = true ∧
    leads (.completionWrite 1 true) (withRing 1 { cplRing with waiting := [8], pi := 0xC0, ci := 0xC0 }) (fun t => t.hostMem == [(0x20000, 8)]) = true ∧
    leads (.completionWrite 1 false) (withRing 1 { cplRing with waiting := [8] }) (fun t => (t.ring 1).st == .error && (t.ring 1).cause == 3) = true ∧
    leads (.eventWrite 2 true) { host0 with hif := { host0.hif with events := [{ ring := 2, e := 9 }] } } (fun t => t.hif.events == [] && sget 0 t.hostMem 0x30000 == 0x89) = true := by decide +kernel
def srcState : State := withQueue (withRing 1 { cplRing with srcq := 1 }) 1 (openQueue 2 [qent (taskOf1 5) 0])
theorem test_source_queue : (queueWay srcState 0x90 1).1 = .pass ∧
    leads (.sourceQueueForward 1 true) srcState (fun t => ((t.slice 0).queue 1).ents == [] && (t.ring 1).pi == 1 && sget 0 t.hostMem 0x20000 == BitVec.ofNat 8 ((taskOf1 5).toNat % 128 + 128)) = true := by
  decide +kernel
theorem test_ring_registers :
    yields (.ringEnable .mgc 0 0x31) (withRing 0 { cmdRing with st := .disabled, en := false, start := 7 })
      ((withRing 0 { cmdRing with start := 7, pi := 7, ci := 7, p0 := 7 }).answerOnly .ok) = true ∧
    yields (.ringEnable .mgc 0 0x31) (withRing 0 { cmdRing with st := .disabled, en := false, baselo := 64 })
      ((withRing 0 { cmdRing with st := .disabled, en := false, baselo := 64 }).answerOnly .notPermitted) = true ∧
    leads (.ringDisable .mgc 0 0x30) { host0 with hif := { host0.hif with cmds := [{ ring := 0, idx := 0, desc := 0x3F, phase := .running, retried := false, orphan := false }] } }
      (fun t => (t.ring 0).st == .disabled && !(t.ring 0).en && t.hif.cmds.all (fun c => c.orphan)) = true ∧
    leads (.functionLevelReset 0) host0 (fun t => (t.ring 0).st == .disabled && (t.ring 1).st == .disabled) = true ∧
    leads (.functionLevelReset 2) host0 (fun t => (t.ring 0).st == .active) = true ∧
    leads (.busMasterEnableChange 3 true) host0 (fun t => (t.hostFn 3).bme) = true ∧
    yields (.dmaChannelConfigWrite .mgc 0 3) host0 ({ host0 with hif := { host0.hif with dma := [(0, { rsv := true, ring := 1 })] } }.answerOnly .ok) = true ∧
    (let s := { host0 with hif := { host0.hif with dma := (List.range 15).map (fun j => (j + 1, { rsv := true, ring := 1 })) } }
     yields (.dmaChannelConfigWrite .mgc 0 3) s (s.answerOnly .notPermitted) = true) := by decide +kernel

/-! ## Commands of the host -/

/-- A descriptor: opcode, activity and fields by byte offset (R276, R278). -/
def desc (op act : Nat) (l : List (Nat × Nat)) : Block64 :=
  BitVec.ofNat 512 (l.foldl (fun n p => n + p.2 * 2 ^ (8 * p.1)) (op + act * 2 ^ 16))
/-- Command 0 of ring 0 with a descriptor, accepted. -/
def cmdOf (d : Block64) : Cmd := { ring := 0, idx := 0, desc := d, phase := .accepted, retried := false, orphan := false }
def withCmd (s : State) (d : Block64) : State := { s with hif := { s.hif with cmds := [cmdOf d] } }
/-- The hypothesis `starts` of the statements, decided. -/
def canStart (s : State) (d : Block64) : Bool := decide (s.cmd 0 0 = some (cmdOf d)) && startable s (cmdOf d) && decide (cmdCheck s (cmdOf d) = none)
/-- The command has completed: outcome, FLAGS and RESULT of the entry that waits. -/
def ended (o : Outc) (flags result : Nat) (t : State) : Bool :=
  decide (t.hif.cmds = []) && (t.ring 1).waiting.map (fun e => (slice e 16 8, slice e 128 32, slice e 160 32)) ==
    [((o.code.setWidth 8 : BitVec 8), BitVec.ofNat 32 flags, BitVec.ofNat 32 result)]
/-- The row runs the descriptor to this end. -/
def ends (c : Instr) (s : State) (d : Block64) (o : Outc) (result : Nat) : Bool := canStart (withCmd s d) d && leads c (withCmd s d) (ended o 0 result)
/-- The row runs the descriptor and leaves its command running in a state with property p. -/
def runsOn (c : Instr) (s : State) (d : Block64) (p : State → Bool) : Bool :=
  canStart (withCmd s d) d && leads c (withCmd s d) (fun t => t.hif.cmds.map (fun x => x.phase) == [.running] && p t)
/-- A task descriptor of activity 7 in a TASK_SUBMIT. -/
def submit (q act : Nat) : Block64 := desc 1 act [(8, q), (16, (taskOf1 5).toNat)]
/-- The next state of a command. -/
def after (c : Instr) (s : State) : State := match exec c s with | .next t => t | .fault _ | .refused _ => s

theorem test_checks :
    leads (.hostFence 0 0) (withCmd host0 (desc 0x3F 0 [(8, 1)])) (ended .badDescriptor 0 0) = true ∧
    leads (.journalCompact 0 0) { withCmd host0 (desc 0x19 0 []) with hif := { (withCmd host0 (desc 0x19 0 [])).hif with rings := [(0, { cmdRing with fn := 1, actlo := 0, acthi := 3 }), (1, cplRing)] } }
      (ended .notPermitted 0 0) = true ∧
    leads (.journalCompact 0 0) { withCmd host0 (desc 0x19 0 []) with asy := { Asy.reset with safe := true } } (fun t => t.hif.cmds == [] || t.hif.cmds.length == 1) = true ∧
    ends (.hostFence 0 0) host0 (desc 0x3F 0 []) .ok 0 = true := by decide +kernel
theorem test_task_submit :
    ends (.taskSubmit 0 0 none) host0 (submit 1 8) .badDescriptor 0 = true ∧
    (let s := withQueue host0 1 (openQueue 0 [])
     ends (.taskSubmit 0 0 none) s (submit 1 7) .ok 0 = true ∧ ((after (.taskSubmit 0 0 none) (withCmd s (submit 1 7))).slice 0).queue 1 = openQueue 0 [qent (taskOf1 5) 0]) ∧
    ends (.taskSubmit 0 0 none) host0 (submit 1 7) .notPermitted 0 = true ∧ ends (.taskSubmit 0 0 (some .timeout)) host0 (submit 1 7) .timeout 0 = true ∧
    leads (.taskSubmit 0 0 none) (withCmd (withQueue host0 1 { openQueue 0 [qent (taskOf1 1) 0] with cap := 1 }) (submit 1 7))
      (fun t => t.hif.cmds.map (fun c => c.retried) == [true] && ringRetry t 0) = true ∧
    ends (.taskCancel 0 0 none) (withQueue host0 1 (openQueue 0 [qent (taskOf1 5) 0])) (desc 2 7 [(8, 1), (12, 5)]) .ok 0 = true ∧
    ends (.taskCancel 0 0 (some .timeout)) host0 (desc 2 7 [(8, 1), (12, 5)]) .timeout 0 = true := by decide +kernel
/-- Bytes in DRAM, written by the host. -/
def dramWith (pa : Nat) (d : List Byte) : State := after (.barAccess 0 .bar4 (BitVec.ofNat 36 pa) true d.length d) host0
theorem test_dma :
    ends (.dmaCopy 0 0 none) host0 (desc 3 7 [(8, 0x1000), (0x10, 0x2000)]) .badDescriptor 0 = true ∧
    ends (.dmaCopy 0 0 none) (dramWith 0x1008 [1, 2, 3]) (desc 3 7 [(8, 0x1008), (0x10, 0x2011), (0x18, 3)]) .ok 3 = true ∧
    (after (.dmaCopy 0 0 none) (withCmd (dramWith 0x1008 [1, 2, 3]) (desc 3 7 [(8, 0x1008), (0x10, 0x2011), (0x18, 3)]))).bytes 0x2011 3 = [1, 2, 3] ∧
    ends (.dmaGather 0 0 none) host0 (desc 4 7 [(8, 0x1008), (0x10, 0x2000), (0x18, 1)]) .badDescriptor 0 = true ∧
    ends (.dmaGather 0 0 none) host0 (desc 4 7 [(8, 0x0FFFFFFFFC0), (0x10, 0x2000), (0x18, 1)]) .routeFault 0 = true ∧
    (let s := dramWith 0x1010 (bytesOfNat 8 0x1000 ++ bytesOfNat 8 2)
     let d := desc 4 7 [(8, 0x1010), (0x10, 0x2000), (0x18, 1)]
     ends (.dmaGather 0 0 none) s d .ok 2 = true) := by decide +kernel
theorem test_budget_set :
    ends (.budgetSet 0 0) host0 (desc 0x11 7 [(8, 16), (9, 1)]) .badDescriptor 0 = true ∧
    ends (.budgetSet 0 0) host0 (desc 0x11 7 [(8, 0), (9, 1), (12, 1000)]) .ok 0 = true ∧
    ((after (.budgetSet 0 0) (withCmd host0 (desc 0x11 7 [(8, 0), (9, 1), (12, 1000)]))).bud 0).acts ≠ (host0.bud 0).acts ∧
    ends (.budgetSet 0 0) host0 (desc 0x11 7 [(8, 1), (9, 1), (12, 1000)]) .routeFault 0 = true := by decide +kernel

theorem test_journal_commands :
    ends (.journalAppend 0 0) host0 (desc 0x18 7 [(8, 0x40), (9, 49)]) .badDescriptor 0 = true ∧ ends (.journalAppend 0 0) host0 (desc 0x18 7 [(8, 1)]) .badDescriptor 0 = true ∧
    runsOn (.journalAppend 0 0) host0 (desc 0x18 7 [(8, 0x40), (9, 2), (10, 5), (16, 0xABCD)]) (fun t => t.scv.queue ==
      [{ cmd := some (0, 0), typ := 0x40, len := 2, key := 5, payload := 0xABCD, waited := false }]) = true ∧
    runsOn (.journalCompact 0 0) host0 (desc 0x19 0 []) (fun t => t.scv.compact.isSome) = true ∧
    ends (.journalCompact 0 0) { host0 with scv := { Scv.reset with lastCommit := some 0 } } (desc 0x19 0 []) .refused 0 = true ∧
    ends (.journalRead 0 0 none) host0 (desc 0x1A 7 [(8, 5), (10, 0x40), (0x10, 0x1000), (0x18, 63)]) .badDescriptor 0 = true ∧
    ends (.journalRead 0 0 none) host0 (desc 0x1A 7 [(8, 5), (10, 0x40), (0x10, 0x1000), (0x18, 64)]) .ok 0xFFFFFFFF = true := by decide +kernel
theorem test_fault_commands :
    ends (.faultInject 0 0) host0 (desc 0x30 0 [(8, 5)]) .badDescriptor 0 = true ∧ ends (.faultInject 0 0) host0 (desc 0x30 0 [(8, 1024), (10, 1)]) .refused 0 = true ∧
    runsOn (.faultInject 0 0) host0 (desc 0x30 0 [(8, 5), (10, 2)]) (fun t => t.asy.inj == [{ src := 5, ring := 0, idx := 0, left := 2, done := 0, since := 0 }]) = true ∧
    ends (.faultInject 0 0) { host0 with asy := { Asy.reset with inj := [{ src := 5, ring := 7, idx := 0, left := 2, done := 0, since := 0 }] } } (desc 0x30 0 [(8, 5), (10, 2)]) .conflict 0 = true ∧
    ends (.faultQuery 0 0 none) host0 (desc 0x31 0 [(8, 1024)]) .badDescriptor 0 = true ∧
    ends (.faultQuery 0 0 none) (host0.setSrc 5 { FaultSrc.reset 5 with cnt := 9 }) (desc 0x31 0 [(8, 5), (0x10, 0x1000)]) .ok 9 = true ∧
    ends (.faultQuery 0 0 none) host0 (desc 0x31 0 [(8, 0xFFFF), (0x10, 0x1000)]) .ok 0 = true := by decide +kernel

/-- One staged write: SAFEVAL of pin 0 under mask 0xFF. -/
def listOf (pa v m : Nat) : List Byte := bytesOfNat 8 pa ++ bytesOfNat 4 v ++ bytesOfNat 4 m
def gpoPa : Nat := hubBlk 11 + 0x100
def stage (l : List (Nat × Nat)) : Block64 := desc 8 0 (l ++ [(0x10, 0x1000)])
def staged (pa v m : Nat) : State := after (.cfgStage 0 0 none) (withCmd (dramWith 0x1000 (listOf pa v m)) (stage [(8, 3), (10, 1)]))
theorem test_stage :
    ends (.cfgStage 0 0 none) host0 (stage [(8, 16), (10, 1)]) .badDescriptor 0 = true ∧
    ends (.cfgStage 0 0 none) (dramWith 0x1000 (listOf gpoPa 0x40 0xFF)) (stage [(8, 3), (10, 1)]) .ok 0 = true ∧
    sget 0 (staged gpoPa 0x40 0xFF).hif.stages 3 = 1 ∧ (staged gpoPa 0x40 0xFF).bytes (stagePa 3 0) 16 = listOf gpoPa 0x40 0xFF ∧
    ends (.cfgStage 0 0 none) (dramWith 0x1000 (listOf 0x40 5 0xFF)) (stage [(8, 3), (10, 1)]) .badDescriptor 0 = true ∧
    ends (.cfgStage 0 0 none) (dramWith 0x1000 (listOf 0x40000000000 5 0xFF)) (stage [(8, 3), (10, 1)]) .notPermitted 0 = true := by decide +kernel
/-- A commit of that write for slot 2 of frame 0. -/
def oneCommit (tick : Nat) (m : Word) : Commit :=
  { ring := 0, idx := 0, num := 0, sfn := 0, slot := 2, tick := tick, writes := [{ pa := BitVec.ofNat 44 gpoPa, value := 0x40, mask := m }] }
/-- The staged set without the completion that waits. -/
def readySet (pa v : Nat) : State := (staged pa v 0xFFFFFFFF).setRing 1 cplRing
def commitD (l : List (Nat × Nat)) : Block64 := desc 9 0 ((8, 3) :: l)
theorem test_commit :
    ends (.cfgCommit 0 0) (readySet gpoPa 0x40) (commitD [(12, 10)]) .badDescriptor 0 = true ∧
    runsOn (.cfgCommit 0 0) (readySet gpoPa 0x40) (commitD [(12, 2)]) (fun t => t.hif.commits == [oneCommit 983040 0xFFFFFFFF]) = true ∧
    ends (.cfgCommit 0 0) (readySet gpoPa 0x40) (commitD [(10, 0), (12, 0)]) .deadlineMissed 0 = true ∧
    ends (.cfgCommit 0 0) (readySet (schBase 0) 0) (commitD [(12, 2)]) .ok 0 = false := by decide +kernel
def waitingSet (v : Nat) : State :=
  (readySet gpoPa 0x40).setRing 0 cmdRing |> fun s =>
    { s with hif := { s.hif with cmds := [{ cmdOf (commitD []) with phase := .running }],
                                 commits := [oneCommit v 0xFF] },
             cmk := { s.cmk with ns := 2000000 } }
theorem test_boundary : hubPulse (waitingSet 983040) 0 0 2 = true ∧ (runSet (waitingSet 983040) (waitingSet 983040).hif.commits.head!.writes).refused = false ∧
    leads (.commitBoundary 0 0 2) (waitingSet 983040) (fun t => ended .ok 0 0 t && (t.pin 0).safeval && t.hif.commits == []) = true ∧
    leads (.commitBoundary 0 0 2) (waitingSet 2000000) (fun t => !(t.pin 0).safeval && t.hif.commits.length == 1) = true := by decide +kernel

def timeD (sub tmr v : Nat) (l : List (Nat × Nat)) : Block64 := desc 0x20 0 ([(8, sub), (9, tmr), (0x1C, v)] ++ l)
theorem test_time_commands :
    ends (.timeCmdRead 0 0 none) host0 (timeD 0 64 0 []) .badDescriptor 0 = true ∧ ends (.timeCmdStep 0 0) host0 (timeD 1 0 2 []) .badDescriptor 0 = true ∧
    leads (.timeCmdRead 0 0 none) (withCmd (atTick 77 host0) (timeD 0 0 0 [(0x20, 0x1000)])) (ended .ok 0 77) = true ∧
    (let t := after (.timeCmdStep 0 0) (withCmd host0 (timeD 1 0 0 [(0x12, 1000), (0x16, 1900000000)]))
     t.cmk.sec = 1900000000 ∧ t.cmk.ns = 1000 ∧ t.hif.cmds = []) ∧
    (let t := after (.timeCmdStep 0 0) (withCmd { host0 with cmk := { host0.cmk with ns := 5 } } (timeD 1 0 1 [(0x12, 1000)]))
     t.cmk.sec = 0 ∧ t.cmk.ns = 1005) ∧
    ends (.timeCmdFrequencyAdjust 0 0) host0 (timeD 2 0 50000001 []) .badDescriptor 0 = true ∧ ends (.timeCmdFrequencyAdjust 0 0) host0 (timeD 2 0 5 []) .refused 0 = true ∧
    (let s := { host0 with cmk := { host0.cmk with fsrc := some 0, srcs := [(0, { host0.csrc 0 with typ := 7 })] } }
     hostFreq s = true ∧ ends (.timeCmdFrequencyAdjust 0 0) s (timeD 2 0 5 []) .ok 0 = true ∧ (after (.timeCmdFrequencyAdjust 0 0) (withCmd s (timeD 2 0 5 []))).cmk.foff = 5) := by decide +kernel
theorem test_timer_commands :
    (let s := host0.setTmr 3 { Tmr.reset with owner := .crier }
     ends (.timeCmdArmTimer 0 0) s (timeD 3 3 0 []) .conflict 3 = true ∧ ends (.timeCmdCancelTimer 0 0) s (timeD 4 3 0 []) .conflict 3 = true) ∧
    (let t := after (.timeCmdArmTimer 0 0) (withCmd host0 (timeD 3 3 1000 [(0x12, 500)]))
     t.tmr 3 = { Tmr.reset with inst := { frac := 0, ns := 500, sec := 0 }, period := 1000, periodic := true, armBit := true, armed := true, owner := .host } ∧
       (after (.timeCmdCancelTimer 0 0) (withCmd t (timeD 4 3 0 []))).tmr 3 = { Tmr.reset with inst := { frac := 0, ns := 500, sec := 0 }, period := 1000, periodic := true }) := by decide +kernel
def beaconD (sub tbl strm buf len tmr : Nat) : Block64 := desc 0x28 0 [(8, sub), (9, tbl), (10, strm), (0x10, buf), (0x18, len), (0x1C, tmr)]
def crierOn (f : Cri → Cri) : State := { host0 with cri := f { Cri.reset with en := true, tables := [(2, 0x1111)], tblstat := 4 } }
theorem test_beacon_commands :
    ends (.beaconTransmit 0 0 none) host0 (beaconD 0 2 1 0x1000 3 0xFF) .badDescriptor 0 = true ∧ ends (.beaconTransmit 0 0 none) host0 (beaconD 0 2 0 0x1000 3 0xFF) .refused 0 = true ∧
    ends (.beaconTransmit 0 0 none) (crierOn id) (beaconD 0 3 0 0x1000 3 0xFF) .badDescriptor 0 = true ∧
    ends (.beaconTransmit 0 0 none) (crierOn id) (beaconD 0 2 0 (2 ^ 43) 3 0xFF) .notPermitted 0 = true ∧
    tblOk 0x1111 = true ∧ tblBits 0x1111 Cri.reset.txpilot ≠ 0 ∧
    runsOn (.beaconTransmit 0 0 none) (crierOn id) (beaconD 0 2 0 0x1000 3 0xFF) (fun t => (t.cri.tx.map (fun x => (x.payload, x.table, x.started))) == some ([0, 0, 0], 2, false)) = true ∧
    ends (.beaconReceiveOn 0 0) (crierOn id) (beaconD 1 0 0 0x1000 1087 0) .badDescriptor 0 = true ∧
    ends (.beaconReceiveOn 0 0) (crierOn (fun c => { c with rx := .search })) (beaconD 1 0 0 0x1000 2176 0) .refused 0 = true ∧
    ends (.beaconReceiveOn 0 0) (crierOn id) (beaconD 1 0 0 0x1000 2200 0) .ok 2 = true ∧
    ends (.beaconReceiveOff 0 0) host0 (beaconD 2 0 0 0 0 0) .refused 0 = true ∧
    ends (.beaconReceiveOff 0 0) (crierOn (fun c => { c with rx := .search, written := 4 })) (beaconD 2 0 0 0 0 0) .ok 4 = true := by decide +kernel
theorem test_beacon_tables :
    ends (.beaconLoadTable 0 0 none) host0 (beaconD 3 0 0 0x1000 31 0) .badDescriptor 0 = true ∧
    (let t := after (.beaconLoadTable 0 0 none) (withCmd (dramWith 0x1000 [0x65, 0x43]) (beaconD 3 5 0 0x1000 32 0))
     t.cri.table 5 = some 0x4365 ∧ ended .ok 0 0 t = true) ∧
    ends (.beaconLoadTable 0 0 none) (dramWith 0x1000 [0x70]) (beaconD 3 5 0 0x1000 32 0) .badDescriptor 0 = true ∧
    ends (.beaconReadNoiseFloor 0 0 none) (crierOn id) (beaconD 4 0 0 0x1000 127 0) .badDescriptor 0 = true ∧
    ends (.beaconReadNoiseFloor 0 0 none) (crierOn id) (beaconD 4 0 0 0x1000 128 0) .ok 0 = true ∧
    (after (.beaconReadNoiseFloor 0 0 none) (withCmd (crierOn id) (beaconD 4 0 0 0x1000 128 0))).bytes 0x1000 2 = [0, 0x80] := by decide +kernel

/-! ## Power -/

/-- A leakage of 0 predicts 0 at every temperature (R451). -/
theorem rootFrom_zero (down n : Nat) : rootFrom down 0 n 0 = 0 := by
  induction n with
  | zero => rfl
  | succ n ih =>
    have h : (2 ^ n) ^ 72 * 2 ^ down ≠ 0 := Nat.pos_iff_ne_zero.mp (Nat.mul_pos (Nat.pow_pos (Nat.pow_pos (by omega))) (Nat.pow_pos (by omega)))
    simp [rootFrom, h, ih]
theorem leakPred_zero (t : Int) : leakPred 0 t = 0 := by
  simp only [leakPred]
  split <;> simp [rootFrom_zero]
/-- R451 (worked examples): 90 mA fused at 25 °C predict 907 mA at 85 °C and 194 mA at 45 °C. -/
theorem test_prediction : leakPred 90 340 = 907 ∧ leakPred 90 180 = 194 ∧ leakPred 90 100 = 90 := by decide +kernel

def powerD (level st target : Nat) : Block64 := desc 0x10 0 [(8, level), (9, st), (10, target)]
/-- `host0` with region 0 in another state. -/
def withRegion (x : RegionState) : State := { host0 with lmp := { host0.lmp with regions := [(0, x)] } }
theorem test_power_checks :
    ends (.powerStateWake 0 0) host0 (powerD 1 0 16) .badDescriptor 0 = true ∧ ends (.powerStateNap 0 0) host0 (powerD 1 1 0) .badDescriptor 0 = true ∧
    ends (.powerStateWake 0 0) host0 (powerD 2 0 0) .ok 0 = true ∧ ends (.powerStateRetain 0 0) host0 (powerD 2 2 4) .routeFault 0 = true ∧
    ends (.powerStateNap 0 0) (withRegion { regionUp with st := .retain }) (powerD 2 1 0) .refused 0x90000 = true ∧
    ends (.powerStateNap 0 0) { host0 with lmp := { host0.lmp with pkg := .standby } } (powerD 2 1 0) .refused 0x9FFFF = true ∧
    ends (.powerStateNap 0 0) (withRegion { regionUp with failed := [0] }) (powerD 2 1 0) .wakeFailed 0 = true ∧
    powerTurn (withCmd host0 (powerD 2 1 0)) 0 0 = true := by decide +kernel
theorem test_power_lower_raise :
    runsOn (.powerStateNap 0 0) host0 (powerD 2 1 0) (fun t => t.lmp.tx.map (fun x => (x.target, x.state, x.waiting.length, x.draining)) == some (.cluster 0, 1, 13, false)) = true ∧
    runsOn (.powerStateRetain 0 0) host0 (powerD 2 2 0) (fun t => t.lmp.tx.map (fun x => x.state) == some 2) = true ∧
    runsOn (.powerStateWake 0 0) (withRegion { regionUp with c0 := .nap }) (powerD 2 0 0) (fun t => t.lmp.wakes ==
      [{ target := .cluster 0, step := .regulator, retries := 0, since := 0, start := 0, cmd := some (0, 0), prev := 1, goal := 0, src := 0x20 }]) = true ∧
    runsOn (.powerStateNap 0 0) (withRegion { regionUp with c0 := .retain }) (powerD 2 1 0) (fun t => t.lmp.wakes.map (fun x => x.goal) == [1]) = true ∧
    (let s := { host0 with lmp := { host0.lmp with regions := [] } }
     runsOn (.powerStateStandby 0 0) s (powerD 0 3 0) (fun t => t.lmp.tx.map (fun x => (x.target, x.draining)) == some (.package, true)) = true) := by decide +kernel
/-- The hypotheses of the thermal clauses: a leakage of 0 passes; 90 mA at 85 °C is refused, where the sensor reads that. -/
theorem met_thermal_pass (s : State) (r : RegionId) (d : Nat) (h : sget 0 s.lmp.ileak r.toNat = 0) : regionPred (sampleTemp s d) r ≤ 500 := by
  have : regionPred (sampleTemp s d) r = leakPred (sget 0 s.lmp.ileak r.toNat).toNat (sget 0 (sampleTemp s d).lmp.dtemp (r.toNat / 4)).toInt := rfl
  rw [this, h]
  simp [leakPred_zero]
theorem met_thermal_refuse (h : Config.free16 0 = 340) : let s := { host0 with lmp := { host0.lmp with ileak := [(0, 90)] } }
    500 < regionPred (sampleTemp s 0) 0 := by
  intro s
  have hs : s.fresh = 0 := rfl
  have ht : (sampleTemp s 0).lmp.dtemp = [(0, 340)] := by
    simp only [sampleTemp, takeFree, hs, h]
    decide +kernel
  have : regionPred (sampleTemp s 0) 0 = leakPred 90 (sget 0 (sampleTemp s 0).lmp.dtemp 0).toInt := rfl
  rw [this, ht]
  decide +kernel
theorem met_thermal_deep (s : State) (h : s.lmp.aonleak = 0) : aonPred (sampleTemp s 4) ≤ 2000 := by
  have : aonPred (sampleTemp s 4) = leakPred s.lmp.aonleak.toNat (sget 0 (sampleTemp s 4).lmp.dtemp 4).toInt := rfl
  rw [this, h]
  simp [leakPred_zero]

def tx0 (w : List Member) : PowerTx :=
  { ring := 0, idx := 0, target := .cluster 0, state := 1, waiting := w, agreed := [], draining := w.isEmpty, since := 0 }
def inTx (s : State) (t : PowerTx) : State := { s with lmp := { s.lmp with tx := some t } }
def powerCmdRuns (s : State) : State := { s with hif := { s.hif with cmds := [{ cmdOf (powerD 2 1 0) with phase := .running }] } }
theorem met_prepare : agrees host0 (tx0 [.core 0]) (.core 0) = true ∧ agrees (host0.setCore 0 { Core.reset with st := .running }) (tx0 [.core 0]) (.core 0) = false ∧
    memberRef host0 (tx0 [.core 0]) (.core 0) = 0xA0000 ∧ drained host0 (tx0 []) = true ∧ powerFailed host0 0 = false ∧ clusterPower host0 0 = .active := by decide +kernel
theorem test_prepare :
    yields (.prepareAnswer (.core 0)) (inTx host0 (tx0 [.core 0, .core 1])) (inTx host0 { tx0 [.core 1] with agreed := [.core 0] }) = true ∧
    leads (.prepareAnswer (.core 1)) (powerCmdRuns (inTx (host0.setCore 1 { Core.reset with st := .running }) (tx0 [.core 0, .core 1]))) (fun t => ended .refused 0 0xA0001 t && t.lmp.tx == none &&
      t.lmp.lastref == 0xA0001 && sget 0 t.tally (lmpBase + 0x110) == 1) = true ∧
    leads .prepareTimeout { powerCmdRuns (inTx host0 (tx0 [.core 0])) with cycle := 393216 } (ended .refused 0 0x1A0000) = true ∧
    yields .prepareTimeout (inTx host0 (tx0 [.core 0])) (inTx host0 (tx0 [.core 0])) = true ∧
    leads .entryDrainComplete (powerCmdRuns (inTx host0 (tx0 []))) (fun t => ended .ok 0 0 t && (t.region 0).c0 == .nap && t.lmp.tx == none) = true := by decide +kernel
def wake0 (u : PowerUnit) : WakeTx := { target := u, step := .regulator, retries := 0, since := 0, start := 0, cmd := none, prev := 0, goal := 0, src := 1 }
def standby : State := { host0 with lmp := { host0.lmp with pkg := .standby, wakeEn := 1 } }
theorem test_wakes :
    yields (.wakePin 0) standby { standby with lmp := { standby.lmp with wakesrc := 1, wakes := [wake0 .package] } } = true ∧ yields (.wakePin 1) standby standby = true ∧
    leads (.wakePin 0) (powerCmdRuns (inTx { host0 with lmp := { host0.lmp with wakeEn := 1 } } { tx0 [] with target := .package })) (ended .refused 0 0x80000) = true ∧
    leads (.wakeStepReady (.cluster 0)) { (withRegion { regionUp with c0 := .nap }) with lmp := { (withRegion { regionUp with c0 := .nap }).lmp with wakes := [wake0 (.cluster 0)] } }
      (fun t => (t.region 0).c0 == .active && t.lmp.wakes == [] && sget 0 t.tally (lmpBase + 0x118) == 1) = true ∧
    (let s := { standby with lmp := { standby.lmp with pkg := .deep, wakes := [wake0 .package] } }
     yields (.wakeStepReady .package) s { s with lmp := { s.lmp with wakes := [{ wake0 .package with step := .oscillator }] } } = true) ∧
    leads (.wakeStepTimeout .package) { standby with cycle := 786432, lmp := { standby.lmp with wakes := [wake0 .package] } } (fun t => t.lmp.wakes ==
      [{ wake0 .package with retries := 1, since := 786432 }] && sget 0 t.tally (lmpBase + 0x120) == 1) = true ∧
    leads (.wakeStepTimeout (.region 0)) { (withRegion { regionUp with st := .retain }) with cycle := 786432, lmp :=
      { (withRegion { regionUp with st := .retain }).lmp with wakes := [{ wake0 (.region 0) with retries := 3 }] } } (fun t => (t.region 0).st == .failed && t.lmp.wakes == []) = true := by
  decide +kernel
theorem test_brown_out :
    leads (.brownOut 0) (withRegion { regionUp with st := .retain }) (fun t => (t.region 0).retlost && sget 0 t.tally (lmpBase + 0x130) == 1) = true ∧
    yields (.reconciliation (.region 0) 2) host0 host0 = true ∧
    leads (.reconciliation (.region 0) 1) host0 (fun t => (t.region 0).st == .retain && (t.region 0).c0 == .retain && sget 0 t.tally (lmpBase + 0x140) == 1) = true ∧
    leads (.reconciliation (.region 0) 0) host0 (fun t => (t.region 0).st == .disabled && (t.region 0).c3 == .off) = true := by decide +kernel
theorem met_agent : regOpen host0 .mgc (budBase 0 + 0x80004) = true ∧ regOpen host0 .mgc (budBase 0 + 0x8000C) = true ∧ regOpen host0 .mgc (budBase 1 + 0x8000C) = true ∧ fusedOff host0 0 = false := by
  decide +kernel
theorem test_operating_points :
    yields (.operatingPointRequest .mgc 0 1) host0 ((withRegion (opStart 0 { regionUp with opReq := 1 })).answerOnly .ok) = true ∧
    yields (.operatingPointRequest .mgc 0 1) (withRegion { regionUp with opBusy := true }) ((withRegion { regionUp with opBusy := true }).answerOnly .notPermitted) = true ∧
    yields (.operatingPointDone 0) (withRegion { regionUp with opBusy := true, opReq := 2 }) (withRegion { regionUp with opReq := 2, opCur := 2 }) = true ∧
    yields (.operatingPointDone 0) (withRegion { regionUp with opBusy := true, opEnd := 5 }) (withRegion { regionUp with opBusy := true, opEnd := 5 }) = true ∧
    yields (.regionEnable .mgc 0) host0 (host0.answerOnly .ok) = true ∧
    leads (.regionEnable .mgc 1) host0 (fun t => (t.region 1).st == .active && (t.region 1).c2 == .active && t.initOf (.cm 4) == .busy && t.resp.outc == .ok) = true ∧
    (let s := { host0 with lmp := { host0.lmp with fusedOff := 2 } }
     yields (.regionEnable .mgc 1) s (s.answerOnly .notPermitted) = true) := by decide +kernel

/-! ## Fronthaul -/

/-- R306 (worked example): the symbol starts 0xC_0E80 ticks into its frame; 0xFFF8_0000 before the wrap gives 0x0004_0E80. R307: its three packets. -/
theorem test_symbol_start : symOffset 1 17 = 298624 ∧ symStart 1 0 { frame := 0x5A, sub := 1, slot := 1, sym := 3 } = 0xC0E80 ∧ (0xFFF80000 : Word) + 0xC0E80 = 0x40E80 ∧
    (let x := { Strm.reset with wopen := 1843, wclose := 12288 }
     windowClass x 0x40E80 0x42000 = .early ∧ windowClass x 0x40E80 0x49000 = .onTime ∧ windowClass x 0x40E80 0x58E80 = .late) := by decide +kernel

def strm1 : Strm := { Strm.reset with en := true, pcid := 9, act := 7, expprb := 2, wclose := 12288, stride := 256, dstlo := 0x10000, qid := 1, tmpl0 := 0x00FF1000, tmpl1 := 0x2FFFF }
def port0 : Port := { Port.reset with rxEn := true, txEn := true, maclo := 5 }
/-- Port 0 receives and sends; stream 1 receives from it. -/
def fh (f : Strm → Strm) : State := { up with fhp := { Fhp.reset with ports := [(0, port0)], strms := [(1, f strm1)] } }
def fh0 : State := fh id
/-- An IQ message of one PRB for the stream, at PRB k of symbol 0. -/
def frame0 (dst : List Byte) (typ k : Nat) : List Byte :=
  dst ++ [0, 0, 0, 0, 0, 0] ++ [0xAE, 0xFE, 0x10, BitVec.ofNat 8 typ, 0, 60, 0, 9, 0, 0] ++ [0, 0, 0, 0, 0, BitVec.ofNat 8 k, 0, 1] ++ (List.range 48).map (BitVec.ofNat 8) ++ [0, 0, 0, 0]
def mine : List Byte := [0, 0, 0, 0, 0, 5]
def ts0 : Ts := { sec := 0, ns := 0, frac := 0 }
def counted (t : State) (i : Nat) : Bool := sget 0 t.tally (fhpBase + 0x2100 + 8 * i) == 1
def scounted (t : State) (i : Nat) : Bool := sget 0 t.tally (fhpBase + 0x80080 + 8 * i) == 1
theorem met_frame : portExists fh0 0 = true ∧ frameTo fh0 0 (frame0 mine 0 0) = .strm 1 false 14 ∧ frameTo fh0 0 (frame0 mine 7 0) = .exc 6 ∧ dstOk port0 (frame0 [1, 1, 1, 1, 1, 1] 0 0) = false ∧
    be16 ([1, 0x1B, 0x19, 0, 0, 0, 0, 0, 0, 0, 0, 0, 0x88, 0xF7] ++ List.replicate 60 0) 12 = 0x88F7 ∧ hdrCheck strm1 false (frame0 mine 0 0) 14 = true ∧
    hdrCheck strm1 false (frame0 mine 0 0xFF ++ [1]) 14 = true ∧ hdrCheck { strm1 with fmt := 1 } false (frame0 mine 0 0) 14 = false := by decide +kernel
theorem test_frame :
    leads (.frameReceive 0 [] false ts0) fh0 (fun t => counted t 1 && !counted t 0) = true ∧
    leads (.frameReceive 0 (frame0 [1, 1, 1, 1, 1, 1] 0 0) false ts0) fh0 (fun t => counted t 0 && counted t 3) = true ∧
    leads (.frameReceive 0 ([1, 0x1B, 0x19, 0, 0, 0, 0, 0, 0, 0, 0, 0, 0x88, 0xF7] ++ List.replicate 60 0) false ts0) fh0 (fun t => t.tally.length == 1 && counted t 0) = true ∧
    leads (.frameReceive 0 (frame0 mine 7 0) true ts0) fh0 (fun t => counted t 0 && counted t 2) = true ∧ leads (.frameReceive 0 (frame0 mine 7 0) false ts0) fh0 (fun t => counted t 4 && !counted t 7) = true ∧
    leads (.frameReceive 0 (frame0 mine 7 0) false ts0) (fh0.setPort 0 { port0 with unkHost := true }) (fun t => counted t 4 && counted t 7) = true ∧
    leads (.frameReceive 0 (frame0 mine 0 0) false ts0) fh0 (fun t => (t.port 0).rx == [mkRxMsg 1 strm1 false false ts0 (frame0 mine 0 0) 14]) = true ∧
    leads (.frameReceive 0 (frame0 mine 0 0) false ts0) (fh (fun x => { x with fmt := 1 })) (fun t => counted t 5) = true ∧
    leads (.frameReceive 0 (frame0 mine 0 0) false ts0) (fh (fun x => { x with pendq := List.replicate 4 { e := 0, q := 1 } })) (fun t => scounted t 7) = true ∧
    leads (.frameReceive 0 (frame0 mine 0 0) false ts0) (fh0.setPort 0 { port0 with rx := [{ strm := 1, typ2 := false, fcsBad := false, stamp := ts0, hdr := [], body := List.replicate 600 0 }] })
      (fun t => (t.port 0).rx.length == 2) = true := by decide +kernel

/-- The message of PRB k of symbol 0, arrived at ns n. -/
def msg0 (k n : Nat) : RxMsg := { mkRxMsg 1 strm1 false false ts0 (frame0 mine 0 k) 14 with stamp := { ts0 with ns := BitVec.ofNat 32 n } }
def rxState (f : Strm → Strm) (m : RxMsg) : State := (fh f).setPort 0 { port0 with rx := [m] }
theorem met_iq : symId (msg0 0 0).hdr = { frame := 0, sub := 0, slot := 0, sym := 0 } ∧ hdrNum (msg0 3 0).hdr = 1 ∧ hdrStart (msg0 3 0).hdr = 3 ∧ (msg0 0 0).body.length = 48 ∧
    criOwns fh0 fh0.cri.rxstrm 1 0 (symId (msg0 0 0).hdr) = false ∧ pktClass strm1 false 0 (prbMap 0 1) 0 0 = .onTime ∧ pktClass { strm1 with wopen := 1 } false 0 (prbMap 0 1) 0 0 = .early := by decide +kernel
theorem test_iq :
    leads (.iqPacketReceive 0) (rxState (fun x => { x with en := false }) (msg0 0 0)) (fun t => counted t 4 && (t.port 0).rx == []) = true ∧
    leads (.iqPacketReceive 0) (rxState (fun x => { x with wopen := 1 }) (msg0 0 0)) (fun t => scounted t 1 && (t.strm 1).insts == []) = true ∧
    leads (.iqPacketReceive 0) (rxState id (msg0 0 300000)) (fun t => scounted t 2) = true ∧
    leads (.iqPacketReceive 0) (rxState id { msg0 0 0 with fcsBad := true }) (fun t => scounted t 4) = true ∧
    leads (.iqPacketReceive 0) (rxState id (msg0 1 0)) (fun t => scounted t 0 && t.bytes (0x10000 + 48) 4 == [1, 0, 3, 2] && (t.strm 1).insts.map (fun i => (i.opened, i.map)) == [(true, 2)]) = true ∧
    leads (.iqPacketReceive 0) (rxState (fun x => { x with expprb := 1 }) (msg0 1 0)) (fun t => (t.strm 1).closing.map (fun d => (d.q, eKind d.e, slice d.e 180 9)) == [(1, 1, (1 : BitVec 9))]) = true := by
  decide +kernel
theorem test_type2 :
    leads (.type2MessageReceive 0) (rxState (fun x => { x with type2 := true, wopen := 1 }) { msg0 0 0 with typ2 := true }) (fun t => scounted t 1) = true ∧
    leads (.type2MessageReceive 0) (rxState (fun x => { x with type2 := true }) { msg0 0 0 with typ2 := true }) (fun t => scounted t 0 && t.bytes 0x10001 3 == [1, 2, 3] &&
      (t.strm 1).closing.map (fun d => slice d.e 197 11) == [(6 : BitVec 11)]) = true := by decide +kernel
def inst0 : SymInst := { ident := 0, s := 0, map := 3, opened := true, formed := false, flags := 0, outc := .ok, seq := 0 }
theorem test_close :
    yields (.symbolCloseTimeout 1 0) (fh (fun x => { x with insts := [inst0] })) (fh (fun x => { x with insts := [inst0] })) = true ∧
    leads (.symbolCloseTimeout 1 0) (atTick 98816 (fh (fun x => { x with insts := [inst0] }))) (fun t => (t.strm 1).insts.map (fun i => (i.opened, i.formed)) == [(false, true)] &&
      (t.strm 1).closing.length == 1) = true ∧
    leads (.symbolCloseTimeout 1 0) (atTick 98816 (fh (fun x => { x with insts := [{ inst0 with map := 0 }] }))) (fun t => (t.strm 1).closing == [] && scounted t 5) = true := by decide +kernel
/-- The descriptor of the symbol. -/
def desc0 : PendDesc := strmDesc 1 strm1 0 0 2 false 0 0 .ok
def fhQ (q : Queue) (f : Strm → Strm) : State := withQueue (fh f) 1 q
theorem test_descriptor :
    (queueWay (fhQ (openQueue 0 []) id) 0x91 1).1 = .pass ∧ badEntry 0 desc0.e = false ∧
    leads (.symbolDescriptorEnqueue 1 none) (fhQ (openQueue 0 []) (fun x => { x with closing := [desc0] })) (fun t => ((t.slice 0).queue 1).ents == [qent desc0.e 0] && (t.strm 1).closing == []) = true ∧
    leads (.symbolDescriptorEnqueue 1 none) (fhQ { openQueue 0 [qent desc0.e 0] with cap := 1 } (fun x => { x with closing := [desc0] })) (fun t => (t.strm 1).pendq == [desc0] && (t.strm 1).closing == []) = true ∧
    leads (.symbolDescriptorEnqueue 1 (some .timeout)) (fh (fun x => { x with closing := [desc0] })) (fun t => (t.strm 1).closing == []) = true ∧
    yields (.exceptionBufferFree .mgc 3) { up with fhp := { Fhp.reset with excused := [(3, true)] } } (up.answerOnly .ok) = true := by decide +kernel

def txE (deadline pa start num : Nat) : Entry := BitVec.ofNat 256 (2 + deadline * 2 ^ 32 + pa * 2 ^ 64 + 2 * 2 ^ 160 + start * 2 ^ 224 + num * 2 ^ 240)
def txSt (t : Nat) (l : List Entry) : State := atTick (BitVec.ofNat 32 t) (fh (fun x => { x with tx := true, held := l.map (fun e => { e := e }) }))
theorem met_tx : txEntryOk (txSt 0 []) { strm1 with tx := true } (txE 0 0x1000 0 1) = true ∧ txEntryOk (txSt 0 []) { strm1 with tx := true } (txE 1 0x1000 0 1) = false ∧
    extentCheck 0x1000 48 = none ∧ extentCheck 0x0FFFFFFFFC0 48 = some .routeFault := by decide +kernel
theorem test_tx :
    leads (.txEntryDequeue 1) (withQueue (txSt 0 []) 1 { openQueue 2 [qent (txE 0 0x1000 0 1) 0] with typ := 2 }) (fun t => (t.strm 1).held == [{ e := txE 0 0x1000 0 1 }]) = true ∧
    leads (.txSend 1 none) (txSt 0 [txE 1 0x1000 0 1]) (fun t => (t.strm 1).held == [] && (t.strm 1).recs.map (fun d => (d.q, slice d.e 96 5)) == [(2, (0xA : BitVec 5))]) = true ∧
    leads (.txSend 1 none) (txSt 0 [txE 0 0x1000 0 1]) (fun t => (t.strm 1).held == [] && (t.strm 1).recs.map (fun d => slice d.e 96 5) == [(0 : BitVec 5)] &&
      t.fhp.sent.map (fun m => (m.hdr, m.body.length)) == some ([0, 0, 0, 0, 0, 0, 0, 1], 48) && (t.strm 1).seqId == 1) = true ∧
    leads (.txSend 1 none) (txSt 600 [txE 0 0x1000 0 1]) (fun t => (t.strm 1).recs.map (fun d => slice d.e 96 5) == [(0xF : BitVec 5)] && scounted t 9) = true ∧
    leads (.txSend 1 none) (txSt 0 [txE 0 0x0FFFFFFFFC0 0 1]) (fun t => (t.strm 1).recs.map (fun d => slice d.e 96 5) == [(4 : BitVec 5)]) = true ∧
    leads (.txRecordEnqueue 1 none) (fhQ (openQueue 2 []) (fun x => { x with recs := [{ e := 3, q := 1 }] })) (fun t => (t.strm 1).recs == [] && ((t.slice 0).queue 1).ents.length == 1) = true ∧
    leads (.txRecordEnqueue 1 (some .timeout)) (fh (fun x => { x with recs := [{ e := 3, q := 1 }] })) (fun t => (t.strm 1).recs == []) = true := by decide +kernel

def owd (p : Port → Port) : State := fh0.setPort 0 (p port0)
theorem test_delay :
    leads (.delayRequestReceive 0 false 3) fh0 (fun t => (t.port 0).owdOut == some { action := 2, measId := 3, stamp := fh0.now, comp := 0 } && counted t 8) = true ∧
    yields (.delayRequestReceive 0 true 3) fh0 (owd (fun p => { p with owdReqs := [{ measId := 3, stamp := fh0.now }] })) = true ∧
    leads (.delayFollowUpReceive 0 3) fh0 (fun t => counted t 4) = true ∧
    leads (.delayFollowUpReceive 0 3) (owd (fun p => { p with owdReqs := [{ measId := 3, stamp := { ts0 with ns := 7 } }] })) (fun t => (t.port 0).owdReqs == [] &&
      (t.port 0).owdOut.map (fun m => m.stamp) == some { ts0 with ns := 7 }) = true ∧
    leads (.remoteDelayRequestReceive 0 3) fh0 (fun t => (t.port 0).busy && (t.port 0).owdOut.map (fun m => m.action) == some 0) = true ∧
    leads (.remoteDelayRequestReceive 0 3) (owd (fun p => { p with busy := true, owdId := 9 })) (fun t => (t.port 0).owdId == 9 && counted t 8) = true ∧
    yields (.delayResponseReceive 0 3 1000 (50 * 65536)) (owd (fun p => { p with busy := true, owdId := 3, owdTx := { ts0 with ns := 100 } }))
      (owd (fun p => { p with owdId := 3, owdTx := { ts0 with ns := 100 }, valid := true, delay := 850 })) = true ∧
    yields (.delayResponseReceive 0 4 1000 0) fh0 fh0 = true ∧
    yields (.delayMeasurementTimeout 0) { (owd (fun p => { p with busy := true })) with cycle := 39321600 } { (owd (fun p => { p with tmo := true })) with cycle := 39321600 } = true ∧
    yields (.delayMeasurementStart .mgc 0 0x301) (owd (fun p => { p with busy := true })) ((owd (fun p => { p with busy := true })).answerOnly .notPermitted) = true ∧
    leads (.delayMeasurementStart .mgc 0 0x301) fh0 (fun t => (t.port 0).busy && (t.port 0).owdId == 3 && (t.port 0).measId == 3 && counted t 8) = true := by decide +kernel
theorem met_ports : regOpen fh0 .mgc (fhpBase + 0x2020) = true ∧ regOpen fh0 .mgc (fhpBase + 0x1000) = true ∧ regOpen fh0 .mgc (fhpBase + 0x40044) = true ∧
    conflictOf fh0 = none ∧ (conflictOf (fh0.setStrm 2 strm1)).isSome = true ∧ isBuffer strm1.dst = true ∧ isBuffer 0x0FFFFFFFFC0 = false := by decide +kernel
theorem test_quads :
    yields (.quadModeWrite .mgc 0 0x12) fh0 ((fh0.setQuad 0 { Quad.reset with reclane := 1 }).answerOnly .ok) = true ∧ yields (.quadModeWrite .mgc 0 1) fh0 (fh0.answerOnly .notPermitted) = true ∧
    leads (.quadModeWrite .mgc 0 1) (up.setQuad 0 { Quad.reset with link := 5 }) (fun t => t.quad 0 == { Quad.reset with mode := 1 } && t.resp.outc == .ok) = true ∧
    yields (.laneLockChange 0 true) fh0 (fh0.setQuad 0 { Quad.reset with reclos := false }) = true ∧
    leads (.laneLockChange 0 false) { fh0 with cmk := { fh0.cmk with srcs := [(0, { ClkSrc.reset with typ := 4, valid := true })] } } (fun t => !(t.csrc 0).valid && (t.quad 0).reclos) = true ∧
    yields (.fronthaulLinkChange 3 true) fh0 (fh0.setQuad 0 { Quad.reset with link := 8 }) = true ∧ yields (.fronthaulLinkChange 0 false) (fh0.setQuad 0 { Quad.reset with link := 1 }) fh0 = true ∧
    yields (.fronthaulLinkChange 3 true) (fh0.setQuad 0 { Quad.reset with mode := 1 }) (fh0.setQuad 0 { Quad.reset with mode := 1 }) = true := by decide +kernel
theorem test_streams :
    yields (.streamEnable .mgc 1 0x402000) (fh (fun x => { x with en := false })) ((fh (fun x => { x with en := true, expprb := 2, act := 2, num := 0, fmt := 0 })).answerOnly .ok) = true ∧
    yields (.streamEnable .mgc 1 0) (fh (fun x => { x with en := false, dstlo := 0xFFFFFFC0, dsthi := 0 })) ((fh (fun x => { x with en := false, dstlo := 0xFFFFFFC0, dsthi := 0 })).answerOnly .ok) = false ∧
    yields (.streamEnable .mgc 2 0x400000) (fh0.setStrm 2 { strm1 with en := false }) ((fh0.setStrm 2 { strm1 with en := false }).answerOnly .notPermitted) = true ∧
    yields (.streamEnable .mgc 1 0) (fh (fun x => { x with en := false, dstlo := 0xFFFFFFC0, dsthi := 0xFF })) ((fh (fun x => { x with en := false, dstlo := 0xFFFFFFC0, dsthi := 0xFF })).answerOnly .notPermitted) = true ∧
    yields (.streamDisable .mgc 1 0x400020) fh0 ((fh (fun x => { x with en := false, num := 1, act := 0, expprb := 2 })).answerOnly .ok) = true := by decide +kernel

/-! ## The Clockmaker -/

def ck (f : Cmk → Cmk) : State := { up with cmk := f { Cmk.reset with en := true } }
/-- A GNSS source that is valid and may be selected at once. -/
def gnss : ClkSrc := { ClkSrc.reset with en := true, typ := 1, qlcfg := 1, ql := 1, valid := true }
def gnssOn (f : Cmk → Cmk) : State := ck (fun k => f { k with srcs := [(0, gnss)], wtr := 0 })
theorem met_selection : bestSrc (gnssOn id) true none = some 0 ∧ bestSrc (gnssOn id) false none = some 0 ∧ bestSrc (ck id) true (some 0) = none ∧
    (ck id).csrc 0 = ClkSrc.reset ∧ phaseError (gnssOn id) 0 100 = 100 := by decide +kernel
theorem test_selection :
    yields .sourceSelection up up = true ∧
    yields .sourceSelection (gnssOn (fun k => { k with tsrc := some 0, fsrc := some 0, st := .locked })) (gnssOn (fun k => { k with tsrc := some 0, fsrc := some 0, st := .locked })) = true ∧
    leads .sourceSelection (gnssOn id) (fun t => t.cmk.st == .acquiring && t.cmk.tsrc == some 0 && t.cmk.fsrc == some 0 && sget 0 t.tally (cmkBase + 0x2000) == 1) = true ∧
    leads .sourceSelection { (ck (fun k => { k with tsrc := some 0, st := .locked })) with cycle := 9 } (fun t => t.cmk.st == .holdover && t.cmk.hospec && t.cmk.hoSince == 9 && t.cmk.tsrc == none) = true ∧
    leads .sourceSelection (ck (fun k => { k with tsrc := some 0, st := .acquiring })) (fun t => t.cmk.st == .freerun && t.cmk.tsrc == none) = true ∧
    leads (.sourceValidityChange { slot := 0, valid := false, ql := 3 }) (gnssOn id) (fun t => t.csrc 0 == { gnss with valid := false }) = true ∧
    yields (.sourceValidityChange { slot := 1, valid := true, ql := 3 }) (gnssOn id) (gnssOn id) = true := by decide +kernel
theorem test_measure :
    leads (.phaseMeasurement 0 8000 0) (gnssOn (fun k => { k with tsrc := some 0, st := .acquiring })) (fun t => t.units == 8000 * 16384 && t.cmk.pherr == 0 && t.cmk.good == 0) = true ∧
    leads (.phaseMeasurement 0 8000 0) (gnssOn (fun k => { k with tsrc := some 0, st := .locked })) (fun t => t.units == 0 && t.cmk.pherr == 8000 && t.cmk.st == .locked) = true ∧
    leads (.phaseMeasurement 0 100 0) (gnssOn (fun k => { k with tsrc := some 0, st := .acquiring, good := 3 })) (fun t => t.cmk.good == 4 && t.cmk.st == .acquiring) = true ∧
    leads (.phaseMeasurement 0 100 0) (gnssOn (fun k => { k with tsrc := some 0, st := .acquiring, good := 15 })) (fun t => t.cmk.st == .locked) = true ∧
    leads .holdoverSpecExpiry { (ck (fun k => { k with st := .holdover, spec := 1 })) with cycle := 3932160000 } (fun t => !t.cmk.hospec) = true ∧
    yields .holdoverSpecExpiry (ck (fun k => { k with st := .holdover })) (ck (fun k => { k with st := .holdover })) = true := by decide +kernel
def tmr0 : Tmr := { Tmr.reset with armed := true, owner := .host }
theorem test_timers :
    yields (.eventTimerFire 5) (up.setTmr 5 tmr0) up = true ∧ yields (.eventTimerFire 5) up up = true ∧
    yields (.eventTimerFire 5) (up.setTmr 5 { tmr0 with periodic := true, period := 1000, outsel := 3, line := 2 })
      { up.setTmr 5 { tmr0 with periodic := true, period := 1000, outsel := 3, line := 2, inst := { ts0 with ns := 1000 } } with gpo := { up.gpo with lines := 4 } } = true ∧
    regOpen up .mgc (cmkBase + 0x1000 + 0x20 * 5) = true ∧
    yields (.timerArm .mgc 5 1) (up.setTmr 5 { tmr0 with owner := .crier }) ((up.setTmr 5 { tmr0 with owner := .crier }).answerOnly .conflict) = true ∧
    yields (.timerDisarm .mgc 5 1) (up.setTmr 5 { tmr0 with owner := .crier }) ((up.setTmr 5 { tmr0 with owner := .crier }).answerOnly .conflict) = true ∧
    yields (.timerArm .mgc 5 0x31F) up ((up.setTmr 5 { Tmr.reset with armBit := true, armed := true, owner := .host, periodic := true, evt := true, outsel := 3, line := 3 }).answerOnly .ok) = true ∧
    (let s := up.setTmr 6 { tmr0 with outsel := 3, line := 3 }
     yields (.timerArm .mgc 5 0x31F) s (s.answerOnly .conflict) = true) ∧
    yields (.timerDisarm .mgc 5 0x18) (up.setTmr 5 tmr0) ((up.setTmr 5 { Tmr.reset with outsel := 3 }).answerOnly .ok) = true := by decide +kernel
theorem test_pps :
    regOpen up .mgc (cmkBase + 0x200) = true ∧ regOpen up .mgc (cmkBase + 0x30) = true ∧
    (let s := up.setPps true { Pps.reset 1 with en := true, timer := 5 }
     yields (.ppsEnable .mgc false 0xB) s (s.answerOnly .notPermitted) = true) ∧
    leads (.ppsEnable .mgc false 0xB) up (fun t => (t.pps false) == { Pps.reset 0 with en := true, timer := 5 } && (t.tmr 5).owner == .pps && (t.tmr 5).inst == { ts0 with sec := 1 }) = true ∧
    yields (.timeSnapshot .mgc 0) up (up.answerOnly .ok) = true ∧
    leads (.timeSnapshot .mgc 1) (ck (fun k => { k with sec := 2 ^ 32 + 7, ns := 5, frac := 3, tick := 9 })) (fun t => t.cmk.snap0 == 7 && t.cmk.snap1 == 0x30001 && t.cmk.snap2 == 5 && t.cmk.snap3 == 9) = true ∧
    leads (.slotPulse 1) (ck (fun k => { k with ns := 3500000 })) (fun t => sget 0 t.cmk.pulses 1 == 0x80000007) = true := by decide +kernel
/-- R328, R329 (worked examples): device time 1 900 000 000 s is tick 0x2400_0000; slot 7 of μ = 1 starts at tick 0x241A_4000. -/
theorem test_tick_of_time : (BitVec.ofNat 32 (ticksAt (1900000000 * 1000000000 * 65536)) : Word) = 0x24000000 ∧
    (BitVec.ofNat 32 (ticksAt ((1900000000 * 1000000000 + 3500000) * 65536)) : Word) = 0x241A4000 := by decide +kernel

def edge (n : Nat) : Ts := { ts0 with sec := BitVec.ofNat 48 n }
theorem test_pps_in :
    yields (.ppsInEdge (edge 1)) (gnssOn id) (gnssOn (fun k => { k with ppsIn := some (edge 1) })) = true ∧
    yields (.ppsInEdge (edge 2)) (gnssOn (fun k => { k with ppsIn := some (edge 1), ppsLabel := some 7 })) (gnssOn (fun k => { k with ppsIn := some (edge 2) })) = true ∧
    leads (.ppsInEdge (edge 2)) (gnssOn (fun k => { k with ppsIn := some (edge 1) })) (fun t => !(t.csrc 0).valid) = true ∧
    leads (.ppsInEdge (edge 3)) (gnssOn (fun k => { k with ppsIn := some (edge 1), ppsLabel := some 7 })) (fun t => !(t.csrc 0).valid && t.tally == [(cmkBase + 0x2018, 1)]) = true ∧
    yields (.todMessageReceive false false 5) up (tallyAdd up (cmkBase + 0x2020) 1) = true ∧
    yields (.todMessageReceive true false 5) (gnssOn (fun k => { k with ppsIn := some ts0 })) (gnssOn (fun k => { k with ppsIn := some ts0, ppsLabel := some 5 })) = true := by decide +kernel
/-- Port 0 with PTP in a state. -/
def ptp (f : Cmk → Cmk) (st : PtpState) : State := { fh0 with cmk := f { Cmk.reset with en := true, ptp := [(0, { PtpPort.reset with en := true, st := st })] } }
theorem test_ptp :
    yields (.ptpFrameReceive 0 (.announce 6 24)) fh0 fh0 = true ∧ yields (.ptpFrameReceive 0 (.announce 6 25)) (ptp id .slave) (ptp id .slave) = true ∧
    leads (.ptpFrameReceive 0 (.sync (edge 3) true 8)) (ptp id .slave) (fun t => (t.ptpPort 0).lastSync == some (edge 3, ts0) && (t.ptpPort 0).seq == 8) = true ∧
    leads (.ptpFrameReceive 0 (.followUp (edge 4) 0)) ((ptp id .slave).setPtpPort 0 { PtpPort.reset with en := true, st := .slave, lastSync := some (edge 3, ts0) })
      (fun t => (t.ptpPort 0).lastSync == some (edge 4, ts0)) = true ∧
    leads (.esmcFrameReceive 0 4) ((ptp id .slave).setCsrc 2 { ClkSrc.reset with en := true, typ := 4 } |>.setQuad 0 { Quad.reset with reclos := false }) (fun t => (t.csrc 2).valid && (t.csrc 2).ql == ssmRank 4) = true ∧
    ptpMaySend .master .delayReq = false ∧ yields (.ptpMessageTransmit 0 .delayReq) (ptp id .master) (ptp id .master) = true ∧
    leads (.ptpMessageTransmit 0 .announce) (ptp (fun k => { k with st := .holdover, role := 1, hospec := false }) .master) (fun t => (t.ptpPort 0).sent == some (.announce, 165, ts0) && (t.ptpPort 0).seq == 1) = true ∧
    leads (.ptpMessageTransmit 0 .sync) (ptp id .master) (fun t => t.fhp.egress == [{ port := 0, seqId := 0, stamp := ts0 }] && (t.ptpPort 0).sent == some (.sync, 248, ts0)) = true ∧
    leads (.ptpMessageTransmit 0 .sync) { ptp id .master with fhp := { fh0.fhp with egress := List.replicate 16 { port := 0, seqId := 0, stamp := ts0 } } }
      (fun t => t.fhp.egress.length == 16 && sget 0 t.tally (cmkBase + 0x2028) == 1) = true := by decide +kernel

/-! ## The cascade -/

/-- Package 0 manages the cascade; package 3 is present behind ring 0. -/
def cascade (f : Cas → Cas) : State :=
  { host0 with cas := f { Cas.reset with en := true, present := 9, pollmask := 9, rte := [(3, 1)], east := { CasPort.reset with lock := true }, west := { CasPort.reset with lock := true } } }
/-- Package 3, joined. -/
def worker (f : Cas → Cas) : State := { cascade f with mgc := { host0.mgc with pkgid := 3, role := false }, cas := { (cascade f).cas with joined := true } }
def fr (typ : BitVec 4) (src dst : PkgId) (d : List Byte) : CasFrame :=
  { typ := typ, src := src, dst := dst, ring := false, bcast := false, len := BitVec.ofNat 12 d.length, hops := 0, tag := 0, act := 7, outcome := 0, payload := d, crcBad := false, stomped := false,
    east := false }
def casCount (t : State) (i : Nat) : Bool := sget 0 t.tally (casBase + 0x200 + 8 * i) == 1
theorem met_cascade : casListens (cascade id) false = true ∧ frameOk (fr 1 3 0 []) = true ∧ isManager (cascade id) = true ∧ isManager (worker id) = false ∧ casMaySend (worker id) = true ∧
    casRoute (cascade id) 3 = some false ∧ casRoute (cascade id) 5 = none ∧ freeCasSlot (cascade id) = some 0 ∧ casMine (cascade id) (fr 3 3 0 []) = true ∧ laterGen 1 0 = true ∧ laterGen 0 0 = false ∧
    memberHolds (cascade id) .cas = false ∧ place (BitVec.ofNat 44 0x43000000040) = .remote 3 0x40 ∧ windowPa 0x40 = some 0x40 ∧ windowPa 0xFFFFFFFFF = none := by decide +kernel
theorem test_transit :
    yields (.tokenReceive (fr 1 3 0 [])) host0 host0 = true ∧ yields (.frameTransit (fr 2 3 5 [])) host0 host0 = true ∧
    leads (.frameTransit (fr 4 3 5 [])) (cascade id) (fun t => casCount t 1 && casCount t 2) = true ∧
    leads (.frameTransit (fr 5 0 5 [])) (cascade id) (fun t => casCount t 5 && t.cas.ring0.sent == []) = true ∧
    leads (.frameTransit { fr 5 3 5 [] with hops := 30 }) (cascade id) (fun t => casCount t 5) = true ∧
    leads (.frameTransit (fr 5 3 5 [])) (cascade id) (fun t => t.cas.ring0.sent == [{ fr 5 3 5 [] with hops := 1 }] && t.cas.ring1.sent == []) = true ∧
    leads (.frameTransit { fr 5 3 5 [] with crcBad := true }) (cascade id) (fun t => t.cas.ring0.sent == [{ fr 5 3 5 [] with hops := 1, stomped := true }] && casCount t 3) = true := by decide +kernel
theorem test_token :
    leads (.tokenReceive { fr 1 3 0 [] with tag := 4 }) (worker (fun c => { c with quota := 2, ring0 := { CasRing.reset with outq := [fr 2 3 0 [], fr 4 3 0 [], fr 5 3 0 []] } }))
      (fun t => t.cas.ring0.outq.length == 1 && t.cas.ring0.sent.map (fun f => f.typ) == [2, 4, 1]) = true ∧
    leads (.tokenReceive { fr 1 3 0 [] with crcBad := true }) (worker id) (fun t => casCount t 3 && t.cas.ring0.sent == []) = true ∧
    leads (.tokenReceive { fr 1 3 0 [] with tag := 5 }) (cascade (fun c => { c with ring0 := { CasRing.reset with seen := true, lastGen := 4 } })) (fun t => casCount t 7 && t.cas.ring0.sent == []) = true ∧
    leads (.tokenReceive { fr 1 3 0 [] with tag := 4 }) (cascade (fun c => { c with ring0 := { CasRing.reset with seen := true, lastGen := 4 } }))
      (fun t => t.cas.ring0.sent.map (fun f => f.tag) == [4] && t.cas.ring0.lastGen == 4) = true ∧
    yields (.tokenRegenerate false) (cascade id) (cascade id) = true ∧
    leads (.tokenRegenerate false) { cascade id with cycle := usCycles 20 } (fun t => t.cas.ring0.sent.map (fun f => (f.typ, f.tag)) == [(1, 1)] && t.cas.ring0.lastAt == usCycles 20) = true := by decide +kernel
/-- A read of 64 bytes at an offset of the window. -/
def reqF (off : Nat) : CasFrame := fr 2 3 0 (reqPayload .rd off 0xF [])
theorem test_req :
    leads (.reqReceive (reqF 0xFFFFFFFC0)) (cascade id) (fun t => t.cas.ring0.outq.map (fun f => (f.typ, f.dst, f.outcome)) == [(3, 3, 4)]) = true ∧
    leads (.reqReceive (reqF 0x800000000)) (cascade id) (fun t => t.cas.ring0.outq.map (fun f => (f.typ, f.dst, f.outcome, f.payload.length)) == [(3, 3, 0, 72)]) = true := by decide +kernel
def open0 (u : CasUse) (f : Cas → Cas) : State := cascade (fun c => f { c with slots := [(0, { gen := 0, use := u, since := 0 })] })
theorem test_rsp :
    leads (.rspReceive (fr 3 3 0 (List.replicate 8 0))) (cascade id) (fun t => casCount t 8) = true ∧
    leads (.rspReceive (fr 3 3 0 (List.replicate 8 0 ++ List.replicate 64 5))) (open0 (.access .fhp none .rd) id) (fun t => t.resp.outc == .ok && t.resp.data == List.replicate 64 5 && (t.casSlot 0).use == .free) = true ∧
    leads (.rspReceive { fr 3 3 0 (List.replicate 8 0) with crcBad := true }) (open0 (.access .fhp none .rd) id) (fun t => casCount t 3 && (t.casSlot 0).use != .free) = true ∧
    leads (.enqReceive (fr 4 3 0 (bytesOfNat 8 1 ++ bytesOfNat 32 (taskOf1 5).toNat))) (withQueue (cascade id) 1 { openQueue 0 [] with remote := true }) (fun t =>
      ((t.slice 0).queue 1).ents == [qent (taskOf1 5) 0] && t.cas.ring0.outq.map (fun f => (f.typ, f.outcome)) == [(5, 0)]) = true ∧
    leads (.enqReceive (fr 4 3 0 (bytesOfNat 8 1 ++ bytesOfNat 32 (taskOf1 5).toNat))) (withQueue (cascade id) 1 { openQueue 0 [qent (taskOf1 1) 0] with cap := 1, remote := true })
      (fun t => t.cas.ring0.outq.map (fun f => f.outcome) == [Outc.queueFull.code]) = true ∧
    leads (.enqReceive (fr 4 3 0 (bytesOfNat 8 1 ++ bytesOfNat 32 (taskOf1 5).toNat))) (cascade id) (fun t => t.cas.ring0.outq.map (fun f => f.outcome) == [9]) = true := by decide +kernel
def xq0 : XQueue := { XQueue.reset with lqid := 1, pkg := 3, en := true, dqid := 9 }
def exporting (e : Option Entry) : State := open0 (if e.isSome then .xq 0 else .free) (fun c => { c with xq := [(0, { xq0 with entry := e })] })
theorem test_export :
    leads (.enqrspReceive (fr 5 3 0 [])) (exporting (some 5)) (fun t => (t.xq 0).entry == none && (t.casSlot 0).use == .free) = true ∧
    leads (.enqrspReceive { fr 5 3 0 [] with outcome := 9 }) (exporting (some 5)) (fun t => (t.xq 0).entry == none && casCount t 9) = true ∧
    leads (.enqrspReceive { fr 5 3 0 [] with outcome := Outc.queueFull.code }) (exporting (some 5)) (fun t => (t.xq 0).entry == some 5 && (t.casSlot 0).use == .xq 0) = true ∧
    leads (.remoteSlotTimeout 0) { exporting (some 5) with cycle := usCycles 2000 } (fun t => (t.xq 0).entry == none && (t.casSlot 0).gen == 1 && casCount t 9) = true ∧
    leads (.exportDequeue 0) (withQueue (exporting none) 1 (openQueue 2 [qent (taskOf1 5) 0])) (fun t => (t.xq 0).entry == some (taskOf1 5) && (t.casSlot 0).use == .xq 0 &&
      t.cas.ring0.outq.map (fun f => (f.typ, f.dst)) == [(4, 3)]) = true := by decide +kernel
theorem test_remote :
    yields (.remoteAccess .fhp .rd (BitVec.ofNat 44 0x45000000040) 0xF [] 7) (cascade id) ((cascade id).answerOnly .routeFault) = true ∧
    leads (.remoteAccess .fhp .rd (BitVec.ofNat 44 0x43000000040) 0xF [] 7) (cascade id) (fun t => (t.casSlot 0).use == .access .fhp none .rd &&
      t.cas.ring0.outq.map (fun f => (f.typ, f.dst, f.payload)) == [(2, 3, reqPayload .rd 0x40 0xF [])]) = true ∧
    yields (.remoteSlotTimeout 0) (open0 (.access .fhp none .rd) id) (open0 (.access .fhp none .rd) id) = true ∧
    leads (.remoteSlotTimeout 0) { open0 (.access .fhp none .rd) id with cycle := usCycles 2000 } (fun t => t.casSlot 0 == { gen := 1, use := .free, since := 0 }) = true := by decide +kernel

/-- A POLL of the manager that names package 3 present and asked to reply. -/
def pollF : CasFrame := { fr 6 0 0 (bytesOfNat 4 0 ++ bytesOfNat 4 8 ++ List.replicate 12 0 ++ bytesOfNat 4 9 ++ List.replicate 232 0) with bcast := true, tag := 3 }
theorem test_poll_receive :
    leads (.pollReceive pollF) (worker id) (fun t => t.cas.joined && t.cas.present == 9 && t.cas.ring0.sent.map (fun f => (f.typ, f.hops, f.tag)) == [(6, 1, 3)] &&
      t.cas.ring1.sent.map (fun f => (f.typ, f.dst)) == [(7, 0)]) = true := by decide +kernel
theorem test_poll :
    yields .pollSend (cascade id) (cascade id) = true ∧
    leads .pollSend { cascade id with cycle := usCycles 10 } (fun t => t.cas.pollSeq == 1 && t.cas.ring0.sent.map (fun f => (f.typ, f.tag)) == [(6, 1)] && t.cas.ring1.sent.length == 1 && t.cas.present == 9) = true ∧
    leads .pollSend { cascade (fun c => { c with peers := [(3, { Peer.reset with missed := 2 })] }) with cycle := usCycles 10 } (fun t => t.cas.present == 1) = true ∧
    frameOk pollF = true ∧ frameOk (fr 7 3 0 (List.replicate 64 0)) = true ∧
    leads (.replyReceive { fr 7 3 0 (List.replicate 64 0) with hops := 3 }) (cascade (fun c => { c with present := 1 })) (fun t => t.cas.present == 9 && (t.peer 3).answered && (t.peer 3).mailbox == List.replicate 16 0) = true ∧
    leads (.replyReceive (fr 7 3 0 (1 :: List.replicate 63 0))) (cascade (fun c => { c with present := 1 })) (fun t => t.cas.present == 1 && casCount t 1) = true ∧
    yields .joinTimeout (worker id) (worker id) = true ∧
    leads .joinTimeout { worker id with cycle := 4 * usCycles 10 } (fun t => !t.cas.joined && t.cas.present == 0) = true := by decide +kernel
theorem test_wrap :
    leads (.linkLockLoss true) (cascade id) (fun t => t.cas.east.wrap && !t.cas.east.lock && casCount t 11) = true ∧
    leads (.linkLockLoss true) { (cascade id) with cas := { (cascade id).cas with en := false } } (fun t => !t.cas.east.wrap && !t.cas.east.lock) = true ∧
    leads (.wrapIndicationReceive false) (cascade id) (fun t => t.cas.west.wrap && t.cas.west.indication && t.cas.west.lock) = true ∧
    yields (.wrapIndicationReceive false) (cascade (fun c => { c with west := { CasPort.reset with lock := true, unwrapAt := some 0 } })) (cascade (fun c => { c with west := { CasPort.reset with lock := true, unwrapAt := some 0 } })) = true ∧
    yields (.cascadeRxLockGain true) (cascade id) (cascade id) = true ∧
    leads (.cascadeRxLockGain true) { host0 with cycle := 5 } (fun t => t.cas.east == { CasPort.reset with lock := true, since := 5 }) = true ∧
    leads (.wrapHoldExpiry true) { cascade (fun c => { c with east := { CasPort.reset with lock := true, wrap := true, indication := true } }) with cycle := usCycles 100000 } (fun t => t.cas.east.linkok) = true ∧
    regOpen (cascade id) .mgc (casBase + 4) = true ∧ yields (.unwrap .mgc 5) (cascade id) ((cascade (fun c => { c with unwrapReq := true })).answerOnly .ok) = true := by decide +kernel

/-- R484 (worked example): a commit that gives line 5 to a second timer is rejected whole with RESULT 0x0200_0005. -/
def clashState : State :=
  let l := listOf (cmkBase + 0x210) 0x7F 0x7F ++ listOf (cmkBase + 0x1000 + 0x20 * 20) 0x519 0xF3F
  let s := after (.cfgStage 0 0 none) (withCmd (dramWith 0x1000 l) (stage [(8, 3), (10, 2)]))
  ((s.setRing 1 cplRing).setTmr 12 { tmr0 with armBit := true, outsel := 3, line := 5 }).setTmr 63 { tmr0 with owner := .crier }
theorem test_conflict : sget 0 clashState.hif.stages 3 = 2 ∧
    ends (.cfgCommit 0 0) clashState (commitD [(9, 1), (10, 200), (12, 4)]) .conflict 0x02000005 = true ∧
    runsOn (.cfgCommit 0 0) (clashState.setTmr 12 Tmr.reset) (commitD [(9, 1), (10, 200), (12, 4)]) (fun t => t.hif.commits.map (fun c => c.sfn) == [200]) = true := by decide +kernel

/-! ## The Crier -/

/-- Table 5 loads 4 bits on every sub-carrier. -/
def table5 : BitVec 256 := 0x4444444444444444444444444444444444444444444444444444444444444444
def cri (f : Cri → Cri) : State := { fh0 with cri := f { Cri.reset with en := true, detthr := 48, tables := [(5, table5)], tblstat := 0x20 } }
/-- R377, R381 (worked example): the header of LEN 100 with table 5, pilots and REF; 224 data bits a symbol, and (100 + 2) · 8 bits in 4 symbols. -/
theorem test_header : slice (mkHeader 5 100 true true) 0 16 = (0xC645 : BitVec 16) ∧ hcrcOk (mkHeader 5 100 true true) = true ∧ hcrcOk 0xC645 = false ∧ tblBits table5 true = 224 ∧
    tblOk table5 = true ∧ cdiv (8 * 102) 224 = 4 := by decide +kernel
def criCount (t : State) (i : Nat) : Bool := sget 0 t.tally (criBase + 0x100 + 8 * i) == 1
theorem test_search :
    yields (.beaconSymbolReceive [] .quiet) fh0 fh0 = true ∧
    leads (.beaconSymbolReceive [7] .quiet) (cri (fun c => { c with rx := .search })) (fun t => t.cri.nfCount == 1 && sget 0 t.cri.nfSum 0 == 7) = true ∧
    leads (.beaconSymbolReceive [] (.preamble 47 3 ts0)) (cri (fun c => { c with rx := .search })) (fun t => t.cri.rx == .search) = true ∧
    leads (.beaconSymbolReceive [] (.preamble 48 3 ts0)) (cri (fun c => { c with rx := .search })) (fun t => t.cri.rx == .sync && t.cri.agcGain == 3 && criCount t 0) = true ∧
    leads (.beaconSymbolReceive [] (.preamble 73 3 ts0)) (cri (fun c => { c with rx := .sync, pkt := { CriPkt.reset with metric := 48 } })) (fun t => t.cri.pkt.metric == 73 && criCount t 1) = true ∧
    yields (.beaconSymbolReceive [] (.preamble 72 3 ts0)) (cri (fun c => { c with rx := .sync, pkt := { CriPkt.reset with metric := 48 } }))
      (cri (fun c => { c with rx := .sync, pkt := { CriPkt.reset with metric := 48 } })) = true ∧
    leads (.beaconSymbolReceive [] (.chirps true 9)) (cri (fun c => { c with rx := .sync })) (fun t => t.cri.rx == .header && t.cri.pkt.residual == 9) = true ∧
    leads (.beaconSymbolReceive [] (.chirps false 9)) (cri (fun c => { c with rx := .sync })) (fun t => t.cri.rx == .search && criCount t 7) = true := by decide +kernel
def hd1 : Word := mkHeader 5 1 false false
theorem test_rx_header :
    leads (.beaconSymbolReceive [] (.header 0xC645)) (cri (fun c => { c with rx := .header })) (fun t => t.cri.rx == .search && criCount t 2) = true ∧
    leads (.beaconSymbolReceive [] (.header (mkHeader 6 1 false false))) (cri (fun c => { c with rx := .header })) (fun t => t.cri.rx == .search && criCount t 3) = true ∧
    leads (.beaconSymbolReceive [] (.header hd1)) (cri (fun c => { c with rx := .header })) (fun t => t.cri.rx == .payload && t.cri.pkt.table == some table5 && t.cri.pkt.header == hd1) = true := by
  decide +kernel
/-- The bits of one byte of 0 with its CRC, which is 0. -/
theorem test_rx_payload : payloadOk (List.replicate 256 false) 1 = true ∧ payloadOk (true :: List.replicate 255 false) 1 = false ∧
    (let st := fun (n : Nat) => cri (fun c => { c with rx := .payload, pkt := { CriPkt.reset with header := mkHeader 5 n false false, table := some table5 } })
     leads (.beaconSymbolReceive [] (.payload [true] 0)) (st 100) (fun t => t.cri.rx == .payload && t.cri.pkt.syms == 1 && t.cri.pkt.stream.take 2 == [true, false]) = true ∧
     leads (.beaconSymbolReceive [] (.payload [true] 0)) (st 1) (fun t => t.cri.rx == .search && criCount t 4) = true ∧
     leads (.beaconSymbolReceive [] (.payload [] 0)) (st 1) (fun t => t.cri.rx == .search && criCount t 6) = true) := by decide +kernel
/-- Symbol 0 of every slot is masked and its send tick is now. -/
def txNow (used total : Nat) : State :=
  let y : CriTx := { ring := 0, idx := 0, table := 5, payload := [0], timer := 0xFF, fireAt := 0, started := false, firstTick := 0, used := used, total := total, header := hd1 }
  let s := cri (fun c => { c with symbols := 1, bw := 1, txstrm := 1, tx := some y })
  { s with hif := { host0.hif with cmds := [{ cmdOf (beaconD 0 5 1 0 1 0xFF) with phase := .running }] } }
theorem met_masked : maskedNow (txNow 0 2) = some (0, { frame := 0, sub := 0, slot := 0, sym := 0 }) ∧ maskedNow (cri id) = none := by decide +kernel
theorem test_crier_enable :
    yields .beaconSymbolTransmit fh0 fh0 = true ∧ regOpen (cri id) .mgc (criBase + 0x38) = true ∧ regOpen (cri id) .mgc (criBase + 4) = true ∧
    yields (.receiveSlotFree .mgc 3) (cri (fun c => { c with used := [(3, true)] })) ((cri id).answerOnly .ok) = true ∧
    criStreamOk fh0 0 = false ∧ criStreamOk (fh0.setStrm 0 { Strm.reset with num := 0 }) 0 = true ∧ criStreamOk fh0 1 = false ∧ criStreamOk (txNow 0 2) 1 = true ∧
    yields (.crierEnable .mgc 5) fh0 (fh0.answerOnly .notPermitted) = true ∧
    (let s := fh0.setStrm 0 { Strm.reset with num := 0 }
     yields (.crierEnable .mgc 5) s ({ s with cri := { Cri.reset with en := true } }.answerOnly .ok) = true) ∧
    leads (.crierDisable .mgc 4) (cri (fun c => { c with rx := .search })) (fun t => !t.cri.en && t.cri.rx == .idle && t.resp.outc == .ok) = true ∧
    yields .referenceHoldExpiry fh0 fh0 = true ∧
    leads .referenceHoldExpiry { (cri (fun c => { c with refvalid := true, hold := 1 })) with cycle := 3932160000, cmk := { Cmk.reset with srcs := [(2, { ClkSrc.reset with en := true, typ := 6, valid := true })] } }
      (fun t => !t.cri.refvalid && !(t.csrc 2).valid) = true := by decide +kernel

/-! ## Stored data -/

/-- R397 (worked example): data bit 5 has the column 0x15; two columns together are no column of one bit. -/
theorem test_columns : eccOf 0x20 = 0x15 ∧ eccClass 0x15 = .single (some 5) ∧ eccClass (eccOf 3) = .bad ∧ eccClass 0x7F = .poison := by decide +kernel
/-- R24 (worked example): PA 0x000_1234_5100 is word 0x123_4500 of controller 1. -/
theorem test_word_of_address : bulkMc 0x12345100 = some 1 ∧ bulkWord 0x12345100 = 0x1234500 ∧ mcAddr 1 0x1234500 = 0x12345100 := by decide +kernel
/-- Hub memory whose first word holds 0x20 with a stored syndrome. -/
def hubWord (syn : BitVec 8) : State := let s := host0.setBytes hubBase [0x20, 0, 0, 0, 0, 0, 0, 0]; { s with edc := { s.edc with syn := sput 0 s.edc.syn hubBase syn } }
def hubPa (o : Nat) : Pa := BitVec.ofNat 44 (hubBase + o)
theorem test_bulk : bulkMc hubBase = some 2 ∧
    leads (.bulkMemoryRead .fhp (hubPa 0) 8 7) (hubWord 0) (fun t => t.resp.outc == .ok && t.resp.data == [0x20, 0, 0, 0, 0, 0, 0, 0]) = true ∧
    leads (.bulkMemoryRead .fhp (hubPa 0) 8 7) (hubWord 0x15) (fun t => t.resp.outc == .okFlagged && t.resp.flags == 0x80 && t.resp.data == List.replicate 8 0) = true ∧
    leads (.bulkMemoryRead .fhp (hubPa 0) 8 7) (hubWord 0x7F) (fun t => t.resp.outc == .uncorrectable) = true ∧
    leads (.bulkMemoryWrite .fhp (hubPa 2) [some 5, none, some 6] 0 7) (hubWord 0) (fun t => t.bytes hubBase 6 == [0x20, 0, 5, 0, 6, 0] && t.resp.outc == .ok) = true := by decide +kernel
/-- The DRAM word of the worked example, steps 1 to 3, through the host's BAR4. -/
theorem test_flip :
    regOpen host0 .mgc (mcBase 1 + 0x18) = true ∧ mcListed host0 1 = true ∧
    yields (.flipArm .mgc 1 0x100) host0 ((host0.setMc 1 { Mc.reset with arm := true }).answerOnly .ok) = true ∧
    yields (.flipArm .mgc 1 0x100) (host0.setMc 1 { Mc.reset with arm := true }) ((host0.setMc 1 { Mc.reset with arm := true }).answerOnly .notPermitted) = true ∧
    (let s := after (.bulkMemoryWrite (.core 0) 0x12345100 (List.replicate 64 (some 1)) 0 7) (host0.setMc 1 { Mc.reset with arm := true, fliplo := 0x20 })
     s.synOf 0x12345100 = 0x15 ∧ (s.mc 1).arm = false ∧
     leads (.bulkMemoryRead (.core 0) 0x12345100 4 7) s (fun t => t.resp.outc == .okFlagged && t.resp.flags == 0x80 && t.resp.data == [1, 1, 1, 1] &&
       (t.mc 1).errLo == 0x81234500 && slice (t.mc 1).errHi 0 8 == (0x15 : BitVec 8) && slice (t.mc 1).errHi 8 3 == (1 : BitVec 3))) := by decide +kernel
theorem test_scrub :
    yields (.scrubRead 2) (host0.setMc 2 { Mc.reset with scrubEn := true }) (host0.setMc 2 { Mc.reset with scrubEn := true }) = true ∧
    yields (.scrubRead 2) { host0.setMc 2 { Mc.reset with scrubEn := true } with cycle := 1024 }
      { host0.setMc 2 { Mc.reset with scrubEn := true, scrubpos := 8, scrubSince := 1024 } with cycle := 1024 } = true ∧
    leads (.scrubRead 2) { host0.setMc 2 { Mc.reset with scrubEn := true, scrubpos := 4194296 } with cycle := 1024 } (fun t => (t.mc 2).scrubpos == 0 && sget 0 t.tally (mcBase 2 + 0x138) == 1) = true ∧
    regOpen host0 .mgc (edcPkg + 4) = true ∧
    yields (.wmapClearStart .mgc 2) host0 ({ host0 with edc := { host0.edc with clrLeft := 2 } }.answerOnly .ok) = true ∧ yields (.wmapClearStart .mgc 0) host0 (host0.answerOnly .ok) = true ∧
    yields (.wmapClearStart .mgc 2) { host0 with edc := { host0.edc with clrLeft := 2 } } ({ host0 with edc := { host0.edc with clrLeft := 2 } }.answerOnly .notPermitted) = true ∧
    yields .wmapClearDone { host0 with edc := { host0.edc with clrLeft := 1, written := [(0, true)] } } { host0 with edc := { host0.edc with clrNext := 1 } } = true ∧
    yields .wmapClearDone host0 host0 = true := by decide +kernel

/-! ## The Assayer -/

def src0 : SourceId := 0x294
def withEvent (f : FaultSrc → FaultSrc) : State :=
  { (host0.setSrc src0 (f (FaultSrc.reset 0x294))) with asy := { (host0.setSrc src0 (f (FaultSrc.reset 0x294))).asy with queued := [(0x294, [{ detail := 5, inj := false, durinj := false }])] } }
theorem test_sources :
    srcListed src0 = true ∧ srcListed 0x3F0 = false ∧ yields (.faultSourceEvent 0x3F0 5) host0 host0 = true ∧ yields (.reportPathFault 0x3F0) host0 host0 = true ∧
    leads (.faultSourceEvent src0 5) (withEvent (fun x => { x with en := false })) (fun t => (t.src src0).lastDet == 5 && (t.src src0).cnt == 0 && sget 0 t.tally (asyBase + 0x10010 + 0x20 * 0x294) == 1) = true ∧
    leads (.faultSourceEvent src0 5) (withEvent id) (fun t => (t.src src0).cnt == 1 && (t.src src0).lastClass == 1 && (t.src src0).wopen && t.asy.buf.length == 1) = true ∧
    leads (.faultSourceEvent src0 5) (withEvent (fun x => { x with thresh := 3, cnt := 2, wopen := true, windowEnd := 9, hireact := 7 })) (fun t => (t.src src0).lastClass == 2 && t.asy.fences.length == 1) = true ∧
    leads (.faultSourceEvent src0 5) (withEvent (fun x => { x with kind := 1 })) (fun t => (t.src src0).lastClass == 0) = true ∧
    leads (.faultSourceEvent src0 5) (withEvent (fun x => { x with kind := 2, hireact := 1 })) (fun t => (t.src src0).lastClass == 3) = true ∧
    leads (.reportPathFault src0) host0 (fun t => (t.src src0).rpf && t.asy.pin) = true := by decide +kernel
theorem test_windows_and_log :
    yields (.faultWindowClose src0) { host0.setSrc src0 { FaultSrc.reset 0x294 with wopen := true, cnt := 3, windowEnd := 9 } with cycle := 9 }
      { host0.setSrc src0 { FaultSrc.reset 0x294 with windowEnd := 9 } with cycle := 9 } = true ∧
    regOpen host0 .mgc (asyBase + 0x18) = true ∧
    leads (.asyUnfence .mgc 0x294) { host0 with asy := { host0.asy with fences := [{ src := src0, unit := .cluster 37 }] } } (fun t => t.asy.fences == [] && t.resp.outc == .ok) = true ∧
    (let s := { (withCmd host0 (desc 0x30 0 [(8, 0x294), (10, 1)])) with asy := { host0.asy with inj := [{ src := src0, ring := 0, idx := 0, left := 1, done := 0, since := 0 }] } }
     yields (.faultInjectTimeout src0) s s = true ∧ leads (.faultInjectTimeout src0) { s with cycle := 3932160000 } (ended .timeout 0 0) = true) ∧
    leads .logRecordWrite { host0 with asy := { host0.asy with buf := [7], logBase := 0x1000 } } (fun t => t.asy.buf == [] && t.byte (hubBase + 0x1000) == 7) = true ∧
    (let s := { host0 with inits := [], asy := { host0.asy with buf := [7] } }
     yields .logRecordWrite s s = true) := by decide +kernel

/-! ## The Scrivener and the board -/

def app0 : JAppend := { cmd := none, typ := 0x40, len := 2, key := 5, payload := 0xABCD, waited := false }
def scv (f : Scv → Scv) : State := { host0 with cycle := 4096, scv := f Scv.reset }
/-- R471 (and the worked example of R477: SEQ 0x0003_918F stands at ring position 0x1_918F, and fill 98 304 starts a compaction). -/
theorem test_records : recValid (mkRec 7 app0) = true ∧ slice (mkRec 7 app0) 0 32 = (7 : Word) ∧ ringPos 0x3918F = 131072 + 0x1918F ∧
    { Scv.reset with cut := 0x20FFF, next := 0x39000 }.fill = 98304 := by decide +kernel
theorem test_journal :
    leads .journalRecordWrite (scv (fun x => { x with queue := [app0], next := 7 })) (fun t => t.scv.queue == [] && t.scv.next == 8 && sget 0 t.scv.store 131079 == mkRec 7 app0 && t.scv.wroteAt == 4096) = true ∧
    leads .journalRecordWrite (scv (fun x => { x with queue := [app0], bucket := 5 })) (fun t => t.scv.queue == [{ app0 with waited := true }] && sget 0 t.tally (scvBase + 0x118) == 1) = true ∧
    (let s := scv (fun x => { x with queue := [{ app0 with waited := true }], bucket := 5 })
     yields .journalRecordWrite s s = true) ∧
    (let s := { scv (fun x => { x with queue := [app0] }) with cycle := 4095 }
     yields .journalRecordWrite s s = true) ∧
    (let s := scv (fun x => { x with queue := [{ app0 with cmd := some (0, 0) }], next := 7 })
     leads .journalRecordWrite { s with hif := { host0.hif with cmds := [{ cmdOf (desc 0x18 7 []) with phase := .running }] } } (ended .ok 0 7) = true) := by decide +kernel
theorem test_compaction :
    yields .compactionStart (scv id) (scv id) = true ∧
    (let s := scv (fun x => { x with compact := some { cmd := none, cut := 9, area := true, count := 1, since := 0 } })
     yields .compactionCommit s s = true ∧
     leads .compactionCommit { s with cycle := 8192 } (fun t => t.scv.compact == none && t.scv.area && t.scv.count == 1 && t.scv.cut == 9 && t.scv.next == 1 && t.scv.lastCommit == some 8192) = true) := by
  decide +kernel
theorem test_smbus :
    yields (.smbusBlockWrite 0x41 4 8) host0 host0 = true ∧ yields (.smbusBlockWrite 0x40 4 8) host0 { host0 with board := { Board.reset with smbOffset := 8 } } = true ∧
    yields (.smbusBlockWrite 0x40 3 8) host0 { host0 with board := { Board.reset with smbNack := true } } = true ∧
    leads (.smbusBlockRead 0x40) { host0 with board := { Board.reset with smbOffset := 0xB00000 } } (fun t => t.board.smbData == 0x10000 && !t.board.smbNack) = true ∧
    leads (.smbusBlockRead 0x40) { host0 with board := { Board.reset with smbOffset := 0x80000 } } (fun t => t.board.smbNack) = true ∧
    leads .smbusTimeout host0 (fun t => t.fresh == 1 && !t.board.smbNack) = true := by decide +kernel
theorem test_jtag :
    yields .extest host0 { host0 with board := { Board.reset with tapIr := 0, tapMode := .drive, tapBypass := false } } = true ∧
    leads .samplePreload host0 (fun t => t.board.tapIr == 1 && t.board.tapMode == .sample && t.fresh == 1) = true ∧
    yields .extestPulse host0 { host0 with board := { Board.reset with tapIr := 2, tapMode := .pulse, tapBypass := false } } = true ∧
    yields .extestTrain host0 { host0 with board := { Board.reset with tapIr := 3, tapMode := .train, tapBypass := false } } = true ∧
    yields .highz host0 { host0 with board := { Board.reset with tapIr := 4, tapMode := .highz } } = true ∧
    yields .clamp host0 { host0 with board := { Board.reset with tapIr := 5, tapMode := .clamp } } = true ∧
    yields (.bypass 9) host0 { host0 with board := { Board.reset with tapIr := 9 } } = true ∧ yields (.bypass 5) host0 host0 = true ∧
    yields .trstNAssert { host0 with board := { Board.reset with tapIr := 0, tapMode := .drive } } host0 = true := by decide +kernel

/-! ## The block as a whole -/

theorem coreOk_reset : CoreOk Core.reset := by
  refine ⟨by decide, by decide, by decide, by decide, by decide, ⟨by decide, fun _ => rfl, fun _ => rfl⟩, ?_, ?_⟩ <;>
    exact ⟨by decide, by decide, by decide, fun _ => rfl, fun _ => rfl⟩
/-- The invariant holds of a state behind reset; memory there has a byte. -/
theorem met_inv : ({ up with mem := [(7, 1)] } : State).Inv :=
  ⟨⟨by decide +kernel, by decide +kernel⟩, ⟨by decide +kernel, by decide +kernel, by decide +kernel⟩, fun _ => coreOk_reset⟩
theorem met_run_steps : (run 2 { up with cmk := { up.cmk with phase3 := 2 } }).isSome = true := by decide +kernel
theorem test_step : step { up with pending := [.loadMailboxDetect, .bootStepTimeout] } = exec .loadMailboxDetect { up with pending := [.bootStepTimeout] } := rfl
/-- CORE_TAL_BUNDLES of core 0 is a Tally counter in every state. -/
theorem met_counter : isCounter (coreRegs 0 + 0x100) := by
  have hp : place (BitVec.ofNat 44 (coreRegs 0 + 0x100)) = .coreReg 0 0x100 := by decide +kernel
  have hq : place (BitVec.ofNat 44 (coreRegs 0 + 0x100 + 4)) = .coreReg 0 0x104 := by decide +kernel
  refine ⟨by decide +kernel, by decide +kernel, fun gc o h => ?_, fun t => ⟨?_, ?_⟩⟩
  · rw [hp] at h
    cases h
  · rw [hp]
    rfl
  · rw [hq]
    rfl

/-! ## Well-formed commands: each check refuses a term -/

theorem test_wf_who : (Instr.coreRun (.host 33) 0).wf = false ∧ (Instr.coreRun (.host 32) 0).wf = true := by decide
theorem test_wf_bundle : (Instr.nop 0 { noOps with a := .rti }).wf = false ∧ (Instr.nop 0 { noOps with b := .fence }).wf = false ∧
    (Instr.nop 0 { noOps with c := .ldw default }).wf = false ∧ (Instr.nop 0 { noOps with d := .acclr 0 }).wf = false ∧ (Instr.nop 0 noOps).wf = true := by decide
theorem test_wf_node : (Instr.requestAtTarget 0x40).wf = false ∧ (Instr.requestAtTarget 0x83).wf = false ∧ (Instr.requestAtTarget 0x96).wf = false ∧ (Instr.requestAtTarget 0x95).wf = true := by decide
theorem test_wf_elem : (Instr.routerForward (.ni 0x50) 0).wf = false ∧ (Instr.routerForward (.ni 0x81) 0).wf = true := by decide
theorem test_wf_path : (Instr.jobSetupReadResponse 0 (some .ok)).wf = false ∧ (Instr.jobSetupReadResponse 0 (some .timeout)).wf = true := by decide
theorem test_wf_data : (Instr.niRequest .fhp .wr 0 0 [] 0).wf = false ∧ (Instr.niRequest .fhp .rd 0 0 [1] 0).wf = false ∧ (Instr.niRequest .fhp .wr256 0 0 (List.replicate 255 0) 0).wf = false ∧
    (Instr.remoteAccess .fhp .wr 0 0 (List.replicate 64 0) 0).wf = true := by decide +kernel
theorem test_wf_regulator : (Instr.regulatorInject 0 66).wf = false ∧ (Instr.regulatorInject 0 65).wf = true := by decide
theorem test_wf_function : (Instr.doorbell 33 0 8 0).wf = false ∧ (Instr.functionLevelReset 33).wf = false ∧ (Instr.busMasterEnableChange 33 true).wf = false ∧
    (Instr.barAccess 33 .bar0 0 false 4 []).wf = false ∧ (Instr.barAccess 0 .bar0 0 true 4 [1]).wf = false ∧ (Instr.barAccess 0 .bar0 0 false 4 []).wf = true := by decide
theorem test_wf_boundary : (Instr.commitBoundary 5 0 0).wf = false ∧ (Instr.commitBoundary 1 0 20).wf = false ∧ (Instr.commitBoundary 1 0 19).wf = true ∧ (Instr.slotPulse 5).wf = false := by decide
theorem test_wf_sizes : (Instr.hostMemoryAccess .fhp 0 true 2 [1] 0).wf = false ∧ (Instr.bulkMemoryRead .fhp 0 257 0).wf = false ∧ (Instr.bulkMemoryWrite .fhp 0 (List.replicate 257 none) 0 0).wf = false ∧
    (Instr.scrubRead 19).wf = false ∧ (Instr.flipArm .mgc 19 0).wf = false ∧ (Instr.thermtrip 5 0 0).wf = false ∧ (Instr.smbusBlockWrite 0 256 0).wf = false := by decide +kernel
theorem test_wf_frame : (let f : CasFrame := { typ := 1, src := 0, dst := 0, ring := false, bcast := false, len := 1, hops := 0, tag := 0, act := 0, outcome := 0, payload := [], crcBad := false,
                                               stomped := false, east := false }
    (Instr.tokenReceive f).wf = false ∧ (Instr.tokenReceive { f with len := 0 }).wf = true) := by decide

end Sys2Proof.Tests
end

section
/-! SUPPORT. Where the register blocks stand in the address map (R23 to R27), register reads that reach their register (R31), and the Tally
counters of the blocks (R37 to R39). -/

namespace Sys2Proof.Machine

/-! ### The address map at a base plus an offset (R23 to R27) -/

theorem place_regionBase_add (r : RegionId) {o : Nat} (ho : o < 0x100000000) :
    place (BitVec.ofNat 44 (regionBase r + o)) = placeRegion r o := by
  have hr : r.toNat < 16 := r.isLt
  have ha : (BitVec.ofNat 44 (regionBase r + o)).toNat = regionBase r + o := by
    simp only [BitVec.toNat_ofNat, regionBase]
    omega
  have hw : regionBase r % 0x1000000000 = r.toNat % 4 * 0x100000000 ∧ (regionBase r - 0x10000000000) / 0x1000000000 = r.toNat / 4 := by
    simp only [regionBase]
    omega
  have hlo : 0x10000000000 ≤ regionBase r ∧ regionBase r + 0x100000000 ≤ 0x14000000000 := by
    simp only [regionBase]
    omega
  have hid : BitVec.ofNat 4 (4 * ((regionBase r + o - 0x10000000000) / 0x1000000000) + (regionBase r + o) % 0x1000000000 / 0x100000000) = r := by
    apply BitVec.eq_of_toNat_eq
    simp only [BitVec.toNat_ofNat]
    omega
  have hoff : (regionBase r + o) % 0x1000000000 % 0x100000000 = o := by omega
  unfold place
  simp only [ha]
  rw [if_neg (by omega), if_neg (by omega), if_pos (by omega), if_pos (by omega), hid, hoff]

theorem place_clusterBase_add (gc : ClusterId) {o : Nat} (ho : o < 0x10000000) :
    place (BitVec.ofNat 44 (clusterBase gc + o)) = placeCluster gc o := by
  have hg : gc.toNat < 64 := gc.isLt
  have hid : clusterOf (clusterRegion gc) (BitVec.ofNat 2 ((0x40000000 + gc.toNat % 4 * 0x10000000 + o - 0x40000000) / 0x10000000)) = gc := by
    apply BitVec.eq_of_toNat_eq
    simp only [clusterOf, clusterRegion, slice, BitVec.toNat_ofNat]
    omega
  have hoff : (0x40000000 + gc.toNat % 4 * 0x10000000 + o) % 0x10000000 = o := by omega
  rw [clusterBase, Nat.add_assoc, Nat.add_assoc, ← Nat.add_assoc 0x40000000, place_regionBase_add _ (by omega)]
  unfold placeRegion
  simp (disch := omega) only [if_neg, if_pos]
  rw [hid, hoff]

theorem place_coreRegs_add (g : CoreId) {o : Nat} (ho : o < 0x10000) : place (BitVec.ofNat 44 (coreRegs g + o)) = .coreReg g o := by
  have hg : g.toNat < 512 := g.isLt
  have hid : coreOf (coreCluster g) (BitVec.ofNat 3 ((0x1080000 + g.toNat % 8 * 0x100000 + o - 0x1000000) / 0x100000)) = g := by
    apply BitVec.eq_of_toNat_eq
    simp only [coreOf, coreCluster, slice, BitVec.toNat_ofNat]
    omega
  have hoff : (0x1080000 + g.toNat % 8 * 0x100000 + o) % 0x100000 - 0x80000 = o := by omega
  rw [coreRegs, Nat.add_assoc, Nat.add_assoc, ← Nat.add_assoc 0x1080000, place_clusterBase_add _ (by omega)]
  unfold placeCluster
  simp (disch := omega) only [if_neg, if_pos]
  rw [hid, hoff]

theorem place_schBase_add (gc : ClusterId) {o : Nat} (ho : o < 0x8000) : place (BitVec.ofNat 44 (schBase gc + o)) = .sch gc o := by
  rw [schBase, Nat.add_assoc, place_clusterBase_add _ (by omega)]
  unfold placeCluster
  simp (disch := omega) only [if_neg, if_pos]
  rw [Nat.add_sub_cancel_left]

theorem place_cluBase_add (gc : ClusterId) {o : Nat} (ho : o < 0x8000) : place (BitVec.ofNat 44 (cluBase gc + o)) = .clu gc o := by
  rw [cluBase, Nat.add_assoc, place_clusterBase_add _ (by omega)]
  unfold placeCluster
  simp (disch := omega) only [if_neg, if_pos]
  rw [Nat.add_sub_cancel_left]

theorem place_engBase_add (e : EngId) {o : Nat} (ho : o < 0x10000) : place (BitVec.ofNat 44 (engBase e + o)) = .engReg e o := by
  have he : e.toNat < 256 := e.isLt
  have hid : BitVec.ofNat 8 (16 * (engRegion e).toNat + (0x1000000 + e.toNat % 16 * 0x10000 + o - 0x1000000) / 0x10000) = e := by
    apply BitVec.eq_of_toNat_eq
    simp only [engRegion, slice, BitVec.toNat_ofNat]
    omega
  have hoff : (0x1000000 + e.toNat % 16 * 0x10000 + o) % 0x10000 = o := by omega
  rw [engBase, Nat.add_assoc, Nat.add_assoc, ← Nat.add_assoc 0x1000000, place_regionBase_add _ (by omega)]
  unfold placeRegion
  simp (disch := omega) only [if_neg, if_pos]
  rw [hid, hoff]

theorem place_budBase_add (r : RegionId) {o : Nat} (ho : o < 0x100000) : place (BitVec.ofNat 44 (budBase r + o)) = .budReg r o := by
  rw [budBase, Nat.add_assoc, place_regionBase_add _ (by omega)]
  unfold placeRegion
  simp (disch := omega) only [if_neg, if_pos]
  rw [Nat.add_sub_cancel_left]

theorem hubBlk_eq (n : Nat) : hubBlk n = 0x20010000000 + n * 0x100000 := rfl

theorem place_hubBlk_add {n o : Nat} (hn : n < 14) (ho : o < 0x100000) : place (BitVec.ofNat 44 (hubBlk n + o)) = .hubReg n o := by
  have hlo : 0x20010000000 ≤ hubBlk n + o ∧ hubBlk n + o < 0x20010E00000 := by
    rw [hubBlk_eq]
    omega
  have ha : (BitVec.ofNat 44 (hubBlk n + o)).toNat = hubBlk n + o := (BitVec.toNat_ofNat _ 44).trans (Nat.mod_eq_of_lt (by omega))
  have hh : hubBlk n + o - hubBase = 0x10000000 + n * 0x100000 + o := by
    rw [hubBlk_eq, hubBase]
    omega
  have hblk : (0x10000000 + n * 0x100000 + o - 0x10000000) / 0x100000 = n := by omega
  have hoff : (0x10000000 + n * 0x100000 + o) % 0x100000 = o := by omega
  unfold place
  simp only [ha]
  rw [if_neg (by omega), if_neg (by omega), if_neg (by omega), if_neg (by omega), if_pos (by omega), hh]
  unfold placeHub
  simp (disch := omega) only [if_neg, if_pos]
  rw [hblk, hoff]

/-! ### Bases of register blocks are aligned and lie in the package address space -/

theorem regionBase_bound (r : RegionId) : regionBase r % 8 = 0 ∧ regionBase r + 0x100000000 ≤ 0x14000000000 := by
  have hr : r.toNat < 16 := r.isLt
  simp only [regionBase]
  omega

theorem clusterBase_bound (gc : ClusterId) : clusterBase gc % 8 = 0 ∧ clusterBase gc + 0x10000000 ≤ 0x14000000000 := by
  have hr := regionBase_bound (clusterRegion gc)
  simp only [clusterBase]
  omega

/-! ### A register read that reaches its register (R31, R35) -/

/-- Whatever reads as a register stands in register space. -/
theorem isReg_of_regRead_isSome {s : State} {p : Place} (h : (regRead s p).isSome = true) : p.isReg = true := by
  cases p with
  | engReg | budReg | coreReg | sch | clu | fab | hubReg => rfl
  | _ => exact absurd h Bool.false_ne_true

/-- Whatever reads as a register is not the load window: the MGC block has no register behind offset 0x18. -/
theorem loadWin_of_regRead_isSome {s t : State} {pa : Pa} (h : (regRead t (place pa)).isSome = true) : loadWin s pa = none := by
  unfold loadWin
  split
  next o hp =>
    refine if_neg fun ho => ?_
    rw [hp] at h
    have hnone : regRead t (.hubReg 0 o) = none := by
      show mgcRead t o = none
      simp (disch := omega) only [mgcRead, if_neg]
    rw [hnone] at h
    exact absurd h Bool.false_ne_true
  · rfl

theorem regRd_word {s t : State} {pa : Nat} {v : Word} (h4 : pa % 4 = 0) (h : regRead s (place (BitVec.ofNat 44 pa)) = some (v, t)) :
    regRd s pa 4 = ({ outc := .ok, flags := 0, data := bytesOfNat 4 v.toNat, poison := [] }, t) := by
  have hpa : pa / 4 * 4 = pa := by omega
  simp [regRd, hpa, h, h4]

theorem exec_tallyCounterRead_of_open {s t : State} {who : Initiator} {pa : Nat} {v : Word} (hlt : pa < 2 ^ 44) (h4 : pa % 4 = 0)
    (h : regRead s (place (BitVec.ofNat 44 pa)) = some (v, t)) (ho : regOpen s who pa = true) :
    exec (.tallyCounterRead who (BitVec.ofNat 44 pa)) s =
      .next (t.answer { outc := .ok, flags := 0, data := bytesOfNat 4 v.toNat, poison := [] }) := by
  have hsome : (regRead s (place (BitVec.ofNat 44 pa))).isSome = true := by rw [h]; rfl
  have hpa : (BitVec.ofNat 44 pa).toNat = pa := (BitVec.toNat_ofNat pa 44).trans (Nat.mod_eq_of_lt hlt)
  show execTallyCounterRead who (BitVec.ofNat 44 pa) s = _
  simp only [execTallyCounterRead, isRegPa, isReg_of_regRead_isSome hsome, loadWin_of_regRead_isSome (s := s) hsome, and_self, regCmd, hpa, ho,
    regRd_word h4 h, if_true]

theorem exec_rcFieldRead_of_open {s t : State} {who : Initiator} {pa : Nat} {v : Word} (ev : BitVec 48) (hlt : pa < 2 ^ 44)
    (h4 : pa % 4 = 0) (h : regRead s (place (BitVec.ofNat 44 pa)) = some (v, t)) (ho : regOpen s who pa = true) :
    exec (.rcFieldRead who (BitVec.ofNat 44 pa) ev) s =
      .next ((lateCount t pa ev).answer { outc := .ok, flags := 0, data := bytesOfNat 4 v.toNat, poison := [] }) := by
  have hsome : (regRead s (place (BitVec.ofNat 44 pa))).isSome = true := by rw [h]; rfl
  have hpa : (BitVec.ofNat 44 pa).toNat = pa := (BitVec.toNat_ofNat pa 44).trans (Nat.mod_eq_of_lt hlt)
  show execRcFieldRead who (BitVec.ofNat 44 pa) ev s = _
  simp only [execRcFieldRead, isRegPa, isReg_of_regRead_isSome hsome, loadWin_of_regRead_isSome (s := s) hsome, and_self, regCmd, hpa, ho,
    regRd_word h4 h, if_true]

/-! ### One Tally counter: read, shadow, clear and saturation (R37, R38) -/

@[simp] theorem sget_tallyAdd_same (s : State) (a n : Nat) :
    sget 0 (tallyAdd s a n).tally a = BitVec.ofNat 48 (min ((sget 0 s.tally a).toNat + n) (2 ^ 48 - 1)) :=
  sget_sput_same _ _ _ _

/-- A counter that holds 0 counts an event of 48 bits whole. -/
theorem tallyAdd_of_cleared {s : State} {a : Nat} (h : sget 0 s.tally a = 0) (ev : BitVec 48) :
    tallyAdd s a ev.toNat = { s with tally := sput 0 s.tally a ev } := by
  have hev : ev.toNat < 2 ^ 48 := ev.isLt
  have hmin : BitVec.ofNat 48 (min (0 + ev.toNat) 0xFFFFFFFFFFFF) = ev := by
    rw [Nat.zero_add, Nat.min_eq_left (by omega), BitVec.ofNat_toNat, BitVec.setWidth_eq]
  rw [tallyAdd, h]
  exact congrArg (fun x => { s with tally := sput 0 s.tally a x }) hmin

/-- The register at a counter's address reads the entry of that address: the key of the counter is the address itself. -/
theorem counterAt_of_isCounter (s : State) {a : Nat} (h : isCounter a) : counterAt s a = some a := by
  obtain ⟨-, -, hsel, hread⟩ := h
  have hrd (x : BitVec 48) : ((regRead { s with tally := sput 0 s.tally a x } (place (BitVec.ofNat 44 a))).map fun r => r.1) =
      some (slice x 0 32) := by
    rw [(hread _).1]
    simp [tallyRead, tallyReadLow]
  have hown (k : Nat) (hk : k = a) :
      (let rd := fun (x : BitVec 48) => (regRead { s with tally := sput 0 s.tally k x } (place (BitVec.ofNat 44 a))).map fun r => r.1
       if rd 1 == some 1 && rd 2 == some 2 then some k else none) = some a := by
    subst hk
    simp only [hrd]
    rfl
  refine hown _ ?_
  split
  next gc o hp => rw [hsel gc o hp, if_neg Bool.false_ne_true]
  · rfl

theorem toNat_slice_low (x : BitVec 48) : (slice x 0 32).toNat = x.toNat % 2 ^ 32 := by
  simp [slice]

theorem exec_tallyCounterRead_low {s : State} {who : Initiator} {a : Nat} (h : isCounter a) (ho : regOpen s who a = true) :
    exec (.tallyCounterRead who (BitVec.ofNat 44 a)) s = .next
      ({ s with tally := sput 0 s.tally a 0, shadow := sput 0 s.shadow a (slice (sget 0 s.tally a) 32 16) }.answer
        { outc := .ok, flags := 0, data := bytesOfNat 4 ((sget 0 s.tally a).toNat % 2 ^ 32), poison := [] }) := by
  obtain ⟨h8, hlt, -, hread⟩ := h
  rw [exec_tallyCounterRead_of_open (by omega) (by omega) (hread s).1 ho, toNat_slice_low]

theorem exec_tallyCounterRead_high {s : State} {who : Initiator} {a : Nat} (h : isCounter a) (ho : regOpen s who (a + 4) = true) :
    exec (.tallyCounterRead who (BitVec.ofNat 44 (a + 4))) s = .next
      (s.answer { outc := .ok, flags := 0, data := bytesOfNat 4 (sget 0 s.shadow a).toNat, poison := [] }) := by
  obtain ⟨h8, hlt, -, hread⟩ := h
  rw [exec_tallyCounterRead_of_open hlt (by omega) (hread s).2 ho, tallyReadHigh, BitVec.toNat_setWidth_of_le (by decide)]

/-- R11: the event of the clearing cycle stands alone in the cleared counter. -/
theorem exec_rcFieldRead_low {s : State} {who : Initiator} {a : Nat} (ev : BitVec 48) (h : isCounter a) (ho : regOpen s who a = true) :
    exec (.rcFieldRead who (BitVec.ofNat 44 a) ev) s = .next
      ({ s with tally := sput 0 s.tally a ev, shadow := sput 0 s.shadow a (slice (sget 0 s.tally a) 32 16) }.answer
        { outc := .ok, flags := 0, data := bytesOfNat 4 ((sget 0 s.tally a).toNat % 2 ^ 32), poison := [] }) := by
  have hkey := fun t => counterAt_of_isCounter t h
  obtain ⟨h8, hlt, -, hread⟩ := h
  rw [exec_rcFieldRead_of_open ev (by omega) (by omega) (hread s).1 ho, toNat_slice_low, lateCount, hkey]
  simp only
  rw [tallyAdd_of_cleared (sget_sput_same 0 s.tally a 0), sput_sput]

/-! ### The rows of Tally counters of the register blocks (R85, R143, R179, R219, R220, R295, R349, R376, R395, R433, R458, R481) -/

theorem inTal_iff {off first n : Nat} : inTal off first n = true ↔ first ≤ off ∧ off < first + 8 * n := decide_eq_true_iff

theorem copyOf_eq_none {off first stride n : Nat} (h : off < first ∨ first + stride * n ≤ off) : copyOf off first stride n = none :=
  if_neg (by omega)

/-- A block that answers the offsets of a row as Tally counters holds a Tally counter in each place of the row. -/
theorem isCounter_of_row {base first n : Nat} {p : Nat → Place} (hbase : base % 8 = 0 ∧ base + first + 8 * n ≤ 2 ^ 44)
    (hfirst : first % 8 = 0) (hplace : ∀ o < first + 8 * n, place (BitVec.ofNat 44 (base + o)) = p o)
    (hread : ∀ t o, inTal o first n = true → regRead t (p o) = talRead t base o)
    (hsel : ∀ o gc o', inTal o first n = true → p o = .sch gc o' → qTalOff o' = false) :
    ∀ i < n, isCounter (base + first + 8 * i) := by
  intro i hi
  have hlow : inTal (first + 8 * i) first n = true := inTal_iff.2 (by omega)
  have hhigh : inTal (first + 8 * i + 4) first n = true := inTal_iff.2 (by omega)
  have hword : base + (first + 8 * i) / 8 * 8 = base + first + 8 * i ∧ base + (first + 8 * i + 4) / 8 * 8 = base + first + 8 * i := by omega
  have hpl := hplace (first + 8 * i) (by omega)
  have hph := hplace (first + 8 * i + 4) (by omega)
  rw [← Nat.add_assoc] at hpl
  rw [← Nat.add_assoc, ← Nat.add_assoc] at hph
  refine ⟨by omega, by omega, fun gc o h => hsel _ gc o hlow (hpl ▸ h), fun t => ⟨?_, ?_⟩⟩
  · rw [hpl, hread t _ hlow, talRead, hword.1, decide_eq_false (by omega)]
  · rw [hph, hread t _ hhigh, talRead, hword.2, decide_eq_true (by omega)]

theorem coreRead_tal (s : State) (g : CoreId) {off : Nat} (h : inTal off 0x100 5 = true) : coreRead s g off = talRead s (coreRegs g) off := by
  have hoff := inTal_iff.1 h
  simp (disch := omega) only [coreRead, if_neg, h, if_true]

theorem cluRead_tal (s : State) (gc : ClusterId) {off : Nat} (h : inTal off 0x200 5 = true) : cluRead s gc off = talRead s (cluBase gc) off := by
  have hoff := inTal_iff.1 h
  simp (disch := omega) only [cluRead, if_neg, copyOf_eq_none, h, if_true]

theorem schRead_tal (s : State) (gc : ClusterId) {off : Nat} (h : schTalOff off = true) : schRead s gc off = talRead s (schBase gc) off := by
  have hoff : (0x200 ≤ off ∧ off < 0x200 + 8 * 14) ∨ (0x600 ≤ off ∧ off < 0x600 + 8 * 16) := by
    rwa [schTalOff, Bool.or_eq_true, inTal_iff, inTal_iff] at h
  simp (disch := omega) only [schRead, if_neg, h, if_true]

theorem engRead_tal (s : State) (e : EngId) {off : Nat} (h : inTal off 0x100 11 = true) : engRead s e off = talRead s (engBase e) off := by
  have hoff := inTal_iff.1 h
  simp (disch := omega) only [engRead, if_neg, h, if_true]

theorem budRead_tal (s : State) (r : RegionId) {off : Nat} (h : inTal off 0x8100 2 = true) : budRead s r off = talRead s (budBase r) off := by
  have hoff := inTal_iff.1 h
  simp (disch := omega) only [budRead, if_neg, copyOf_eq_none, h, if_true]

theorem hifRead_tal (s : State) {off : Nat} (h : inTal off 0xF0000 8 = true) : hifRead s off = talRead s (hubBlk 1) off := by
  have hoff := inTal_iff.1 h
  simp (disch := omega) only [hifRead, hifBase, if_neg, h, if_true]

theorem cmkRead_tal (s : State) {off : Nat} (h : inTal off 0x2000 6 = true) : cmkRead s off = talRead s (hubBlk 3) off := by
  have hoff := inTal_iff.1 h
  simp (disch := omega) only [cmkRead, cmkBase, if_pos, copyOf_eq_none, h, if_true]

theorem casRead_tal (s : State) {off : Nat} (h : inTal off 0x200 12 = true) : casRead s off = talRead s (hubBlk 4) off := by
  have hoff := inTal_iff.1 h
  simp (disch := omega) only [casRead, casBase, if_neg, h, if_true]

theorem criRead_tal (s : State) {off : Nat} (h : inTal off 0x100 11 = true) : criRead s off = talRead s (hubBlk 5) off := by
  have hoff := inTal_iff.1 h
  unfold criRead
  split
  case h_18 => exact if_pos h
  all_goals omega

theorem lmpRead_tal (s : State) {off : Nat} (h : inTal off 0x100 11 = true) : lmpRead s off = talRead s (hubBlk 6) off := by
  have hoff := inTal_iff.1 h
  simp (disch := omega) only [lmpRead, lmpBase, if_neg, h, if_true]

theorem asyRead_tal (s : State) {off : Nat} (h : inTal off 0x100 6 = true) : asyRead s off = talRead s (hubBlk 7) off := by
  have hoff := inTal_iff.1 h
  simp (disch := omega) only [asyRead, asyBase, if_neg, h, if_true]

theorem scvRead_tal (s : State) {off : Nat} (h : inTal off 0x100 4 = true) : scvRead s off = talRead s (hubBlk 8) off := by
  have hoff := inTal_iff.1 h
  simp (disch := omega) only [scvRead, scvBase, if_neg, h, if_true]

theorem isCounter_core (g : CoreId) : ∀ i < 5, isCounter (coreRegs g + 0x100 + 8 * i) := by
  have hb : coreRegs g % 8 = 0 ∧ coreRegs g + 0x100 + 8 * 5 ≤ 2 ^ 44 := by
    have hc := clusterBase_bound (coreCluster g)
    simp only [coreRegs]
    omega
  exact isCounter_of_row (p := .coreReg g) hb rfl (fun o h => place_coreRegs_add g (by omega)) (fun t o h => coreRead_tal t g h) nofun

theorem isCounter_clu (gc : ClusterId) : ∀ i < 5, isCounter (cluBase gc + 0x200 + 8 * i) := by
  have hb : cluBase gc % 8 = 0 ∧ cluBase gc + 0x200 + 8 * 5 ≤ 2 ^ 44 := by
    have hc := clusterBase_bound gc
    simp only [cluBase]
    omega
  exact isCounter_of_row (p := .clu gc) hb rfl (fun o h => place_cluBase_add gc (by omega)) (fun t o h => cluRead_tal t gc h) nofun

/-- A row of the slice's own counters; the rows that SCH_QIDX selects lie beside it. -/
theorem isCounter_sch (gc : ClusterId) {first n : Nat} (hfirst : first % 8 = 0) (hlt : first + 8 * n ≤ 0x8000)
    (hrow : ∀ o, inTal o first n = true → schTalOff o = true) : ∀ i < n, isCounter (schBase gc + first + 8 * i) := by
  have hb : schBase gc % 8 = 0 ∧ schBase gc + first + 8 * n ≤ 2 ^ 44 := by
    have hc := clusterBase_bound gc
    simp only [schBase]
    omega
  refine isCounter_of_row (p := .sch gc) hb hfirst (fun o h => place_schBase_add gc (by omega)) (fun t o h => schRead_tal t gc (hrow o h)) ?_
  rintro o _ _ h ⟨⟩
  have hown := hrow o h
  rw [schTalOff, Bool.or_eq_true, inTal_iff, inTal_iff] at hown
  rw [qTalOff, Bool.or_eq_false_iff, inTal, inTal, decide_eq_false_iff_not, decide_eq_false_iff_not]
  omega

theorem isCounter_eng (e : EngId) : ∀ i < 11, isCounter (engBase e + 0x100 + 8 * i) := by
  have hb : engBase e % 8 = 0 ∧ engBase e + 0x100 + 8 * 11 ≤ 2 ^ 44 := by
    have hr := regionBase_bound (engRegion e)
    simp only [engBase]
    omega
  exact isCounter_of_row (p := .engReg e) hb rfl (fun o h => place_engBase_add e (by omega)) (fun t o h => engRead_tal t e h) nofun

theorem isCounter_bud (r : RegionId) : ∀ i < 2, isCounter (budBase r + 0x8100 + 8 * i) := by
  have hb : budBase r % 8 = 0 ∧ budBase r + 0x8100 + 8 * 2 ≤ 2 ^ 44 := by
    have hr := regionBase_bound r
    simp only [budBase]
    omega
  refine isCounter_of_row (p := .budReg r) hb rfl (fun o h => place_budBase_add r (by omega)) (fun t o h => ?_) nofun
  have hoff := inTal_iff.1 h
  exact (if_pos (by omega)).trans (budRead_tal t r h)

/-- A row of counters of a hub block. -/
theorem isCounter_hub {blk first n : Nat} (hblk : blk < 14) (hfirst : first % 8 = 0) (hlt : first + 8 * n ≤ 0x100000)
    (hread : ∀ t o, inTal o first n = true → regRead t (.hubReg blk o) = talRead t (hubBlk blk) o) :
    ∀ i < n, isCounter (hubBlk blk + first + 8 * i) := by
  have hb : hubBlk blk % 8 = 0 ∧ hubBlk blk + first + 8 * n ≤ 2 ^ 44 := by
    rw [hubBlk_eq]
    omega
  exact isCounter_of_row (p := .hubReg blk) hb hfirst (fun o h => place_hubBlk_add hblk (by omega)) hread nofun

/-- Settles O24: one counter by `exec_tallyCounterRead_low`, `exec_tallyCounterRead_high` and `exec_rcFieldRead_low`, the blocks row by row. -/
theorem tallyCounters : Obligations.TallyCounters := by
  refine ⟨fun s who a h => ⟨exec_tallyCounterRead_low h, exec_tallyCounterRead_high h, fun ev => exec_rcFieldRead_low ev h,
    sget_tallyAdd_same s a, rfl⟩, isCounter_core, isCounter_clu,
    fun gc => isCounter_sch gc rfl (by decide) fun o h => ?_, fun gc => isCounter_sch gc rfl (by decide) fun o h => ?_,
    isCounter_eng, isCounter_bud, ?_⟩
  · rw [schTalOff, h, Bool.true_or]
  · rw [schTalOff, h, Bool.or_true]
  · exact ⟨isCounter_hub (by decide) rfl (by decide) fun t _ => hifRead_tal t,
      isCounter_hub (by decide) rfl (by decide) fun t _ => cmkRead_tal t,
      isCounter_hub (by decide) rfl (by decide) fun t _ => casRead_tal t,
      isCounter_hub (by decide) rfl (by decide) fun t _ => criRead_tal t,
      isCounter_hub (by decide) rfl (by decide) fun t _ => lmpRead_tal t,
      isCounter_hub (by decide) rfl (by decide) fun t _ => asyRead_tal t,
      isCounter_hub (by decide) rfl (by decide) fun t _ => scvRead_tal t⟩

end Sys2Proof.Machine
end

section
/-! SUPPORT. Operations of slot C that write an accumulator (R58 to R60): the value they leave in it and its GOVF bit. -/

namespace Sys2Proof.Machine

variable {s : State} {g : CoreId} {m : Bundle} {acd : BitVec 3} {va vb : BitVec 5}

/-! ### Elements of the results (R58 to R60) -/

/-- The guarded value fits its 40 bits, so the element holds it unchanged. -/
theorem accEl_macOp (sat : Bool) (k : MacKind) (acc : BitVec 1280) (a b : BitVec 512) {e : Nat} (he : e < 32) :
    accEl (macOp sat k acc a b).1 e = (guard40 sat (macExact k (accEl acc e) (macTerm k a b e))).1 := by
  obtain ⟨hlo, hhi⟩ := guard40_range sat (macExact k (accEl acc e) (macTerm k a b e))
  exact (accEl_mkAcc _ e he).trans (toInt_ofInt40 _ hlo hhi)

/-- A lane of 16 bits moved up by 15 fits an element, so ACSET needs no guard. -/
theorem accEl_acsetOp (a : BitVec 512) {e : Nat} (he : e < 32) : accEl (acsetOp a) e = lane a e * 32768 := by
  obtain ⟨hlo, hhi⟩ := lane_range a e
  exact (accEl_mkAcc _ e he).trans (toInt_ofInt40 _ (by omega) (by omega))

/-! ### What the operations leave (R58 to R60) -/

section Effects

variable {old : Core} {got : Got} {q : List Byte} {e : Eff}

theorem marks_opEff_mac (k : MacKind) : marks (opEff old got q (.mac k acd va vb) e) =
    (e.govSet ||| (if (macOp (scfSat old.r.scf) k (old.r.getAc acd) (old.r.getV va) (old.r.getV vb)).2 then 2 ^ acd.toNat else 0),
      e.govClr, e.qsat, e.auto) := by
  obtain ⟨hset, hclr, hqsat, hauto, -⟩ := effPost_marks old (.mac k acd va vb) { e with flags := e.flags ||| got.flags }
  simp only [marks, opEff, Eff.regs, hset, hclr, hqsat, hauto]

theorem marks_opEff_acclr : marks (opEff old got q (.acclr acd) e) = (e.govSet, e.govClr ||| 2 ^ acd.toNat, e.qsat, e.auto) := by
  obtain ⟨hset, hclr, hqsat, hauto, -⟩ := effPost_marks old (.acclr acd) { e with flags := e.flags ||| got.flags }
  simp only [marks, opEff, Eff.regs, hset, hclr, hqsat, hauto]

theorem marks_opEff_acset : marks (opEff old got q (.acset acd va) e) = (e.govSet, e.govClr ||| 2 ^ acd.toNat, e.qsat, e.auto) := by
  obtain ⟨hset, hclr, hqsat, hauto, -⟩ := effPost_marks old (.acset acd va) { e with flags := e.flags ||| got.flags }
  simp only [marks, opEff, Eff.regs, hset, hclr, hqsat, hauto]

theorem getAc_opEff_mac (k : MacKind) : (opEff old got q (.mac k acd va vb) e).c.r.getAc acd =
    (macOp (scfSat old.r.scf) k (old.r.getAc acd) (old.r.getV va) (old.r.getV vb)).1 := by
  simp only [opEff, Eff.regs, getAc_putAc, if_true]

theorem getAc_opEff_acclr : (opEff old got q (.acclr acd) e).c.r.getAc acd = 0 := by
  simp only [opEff, Eff.regs, getAc_putAc, if_true]

theorem getAc_opEff_acset : (opEff old got q (.acset acd va) e).c.r.getAc acd = acsetOp (old.r.getV va) := by
  simp only [opEff, Eff.regs, getAc_putAc, if_true]

end Effects

/-! ### The accumulator and its GOVF bit behind the bundle -/

/-- A mask of at most one GOVF bit in CORE_ACST. -/
theorem ofNat_govMask (acd : BitVec 3) (x : Bool) :
    BitVec.ofNat 9 (if x then 2 ^ acd.toNat else 0) = if x then BitVec.twoPow 9 acd.toNat else 0 := by
  cases x
  · rfl
  · exact BitVec.eq_of_toNat_eq (by simp)

/-- A bundle whose slot C gives ACd the value v, sets its GOVF bit if x and clears it if k, and marks nothing else. -/
theorem does_accumulator {o : Op} {k x : Bool} {v : BitVec 1280} (h : executes s g (inC m o) = true) (hw : .ac acd ∈ opWrites o)
    (hv : (slotEff s g (inC m o) 2 (effStart s g (inC m o))).c.r.getAc acd = v)
    (hm : marks (slotEff s g (inC m o) 2 (effStart s g (inC m o))) =
      (if x then 2 ^ acd.toNat else 0, if k then 2 ^ acd.toNat else 0, false, none)) :
    Does s g (inC m o) (.next (runBundle s g (inC m o))) (fun t =>
      (t.core g).r.getAc acd = v ∧ (touchesCtl m.d = false → noScaledStore m = true → acstBit s t g acd.toNat k x)) := by
  simp only [marks, Prod.mk.injEq] at hm
  obtain ⟨hset, hclr, hqsat, -⟩ := hm
  refine does_of h ⟨(executes_getAc h (k := 2) (by decide) hw).trans hv, fun hd hs => ?_⟩
  obtain ⟨ha, hb⟩ : touchesAcst m.a = false ∧ touchesAcst m.b = false := by simpa [noScaledStore] using hs
  refine executes_acst h hd ha hb acd.toNat (by omega) k x ?_ ?_
  · rw [hclr, ofNat_govMask]
  · rw [hset, hqsat, if_neg Bool.false_ne_true, Nat.add_zero, ofNat_govMask]

theorem Does.mono {b : Bundle} {o : Host.Outcome State Fault Refusal} {P Q : State → Prop} (h : Does s g b o P) (hPQ : ∀ t, P t → Q t) :
    Does s g b o Q := by
  obtain ⟨t, ho, hf, hP⟩ := h
  exact ⟨t, ho, hf, hPQ t hP⟩

/-! ### The commands -/

/-- One argument for the MAC operations: c runs the one of kind k, and x e is the exact new value of element e (R58). -/
theorem does_mac {k : MacKind} {c : Instr} {x : Nat → Int} (hc : exec c s = .next (runBundle s g (inC m (.mac k acd va vb))))
    (hx : ∀ e, macExact k (accEl ((s.core g).r.getAc acd) e) (macTerm k ((s.core g).r.getV va) ((s.core g).r.getV vb) e) = x e)
    (h : executes s g (inC m (.mac k acd va vb)) = true) :
    Does s g (inC m (.mac k acd va vb)) (exec c s) (fun t =>
      (∀ e < 32, accEl ((t.core g).r.getAc acd) e = (guard40 (scfSat (s.core g).r.scf) (x e)).1) ∧
      (touchesCtl m.d = false → noScaledStore m = true →
        acstBit s t g acd.toNat false ((List.range 32).any (fun e => (guard40 (scfSat (s.core g).r.scf) (x e)).2)))) := by
  obtain rfl : _ = x := funext hx
  rw [hc]
  refine (does_accumulator h (List.mem_singleton.mpr rfl) (getAc_opEff_mac k) ((marks_opEff_mac k).trans ?_)).mono
    fun t ⟨hacc, hacst⟩ => ⟨fun e he => ?_, hacst⟩
  · exact Prod.ext (Nat.zero_or _) rfl
  · rw [hacc]
    exact accEl_macOp _ _ _ _ _ he

theorem does_acclr (h : executes s g (inC m (.acclr acd)) = true) :
    Does s g (inC m (.acclr acd)) (exec (.acclr g acd m) s) (fun t =>
      (t.core g).r.getAc acd = 0 ∧ (touchesCtl m.d = false → noScaledStore m = true → acstBit s t g acd.toNat true false)) :=
  does_accumulator h (List.mem_singleton.mpr rfl) getAc_opEff_acclr (marks_opEff_acclr.trans (by rw [effStart, Nat.zero_or]; rfl))

theorem does_acset (h : executes s g (inC m (.acset acd va)) = true) :
    Does s g (inC m (.acset acd va)) (exec (.acset g acd va m) s) (fun t =>
      (∀ e < 32, accEl ((t.core g).r.getAc acd) e = lane ((s.core g).r.getV va) e * 32768) ∧
      (touchesCtl m.d = false → noScaledStore m = true → acstBit s t g acd.toNat true false)) :=
  (does_accumulator h (List.mem_singleton.mpr rfl) getAc_opEff_acset (marks_opEff_acset.trans (by rw [effStart, Nat.zero_or]; rfl))).mono
    fun _ ⟨hacc, hacst⟩ => ⟨fun e he => hacc ▸ accEl_acsetOp _ he, hacst⟩

/-- Settles O5: the MAC operations by `does_mac`, each with its row of R58's table, ACCLR and ACSET by `does_acclr` and `does_acset`. -/
theorem accumulatorOperations : Obligations.AccumulatorOperations := by
  intro s g acd va vb m
  exact ⟨does_mac (k := .cmac) rfl fun _ => rfl, does_mac (k := .cmacj) rfl fun _ => rfl, does_mac (k := .cmsb) rfl fun _ => rfl,
    does_mac (k := .cmul) rfl fun _ => rfl, does_mac (k := .cmulj) rfl fun _ => rfl, does_mac (k := .rmac) rfl fun _ => rfl,
    does_acclr, does_acset⟩

end Sys2Proof.Machine
end

section
/-! SUPPORT. The ring windows of a cluster: CLU_WBASEn and CLU_WLENn where the way to the register is open (R31, R137). -/

namespace Sys2Proof.Machine

/-! ### One bit of a mask, a field of a word, a copy of a register bank -/

theorem getLsbD_or_two_pow {w : Nat} (x : BitVec w) (i : Nat) {j : Nat} (hj : j < w) :
    (x ||| BitVec.ofNat w (2 ^ i)).getLsbD j = (decide (j = i) || x.getLsbD j) := by
  rw [BitVec.getLsbD_or, BitVec.getLsbD_ofNat, Nat.testBit_two_pow, decide_eq_true hj, Bool.true_and, Bool.or_comm, decide_eq_decide.2 eq_comm]

theorem getLsbD_and_not_two_pow {w : Nat} (x : BitVec w) (i : Nat) {j : Nat} (hj : j < w) :
    (x &&& ~~~BitVec.ofNat w (2 ^ i)).getLsbD j = (!decide (j = i) && x.getLsbD j) := by
  rw [BitVec.getLsbD_and, BitVec.getLsbD_not, BitVec.getLsbD_ofNat, Nat.testBit_two_pow, decide_eq_true hj, Bool.true_and, Bool.true_and,
    Bool.and_comm, decide_eq_decide.2 eq_comm]

theorem toNat_slice {n : Nat} (x : BitVec n) (lo w : Nat) : (slice x lo w).toNat = bits x.toNat lo w :=
  BitVec.toNat_ofNat _ _

/-- A word whose only field x stands above lo bits of 0. -/
theorem ofNat_packLE_above (lo : Nat) {w : Nat} (x : BitVec w) :
    BitVec.ofNat 32 (packLE [(lo, 0), (w, x.toNat)]) = x.setWidth 32 <<< lo := by
  apply BitVec.eq_of_toNat_eq
  simp [packLE, Nat.shiftLeft_eq, Nat.mul_comm]

/-- The first register of copy k of a bank. -/
theorem copyOf_first (first : Nat) {stride n k : Nat} (hs : 0 < stride) (hk : k < n) :
    copyOf (first + stride * k) first stride n = some (k, 0) := by
  have hlt : stride * k < stride * n := Nat.mul_lt_mul_of_pos_left hk hs
  rw [copyOf, if_pos (by omega), Nat.add_sub_cancel_left, Nat.mul_div_cancel_left k hs, Nat.mul_mod_right]

/-! ### The CLU registers behind a write (R137) -/

/-- The CLU registers with base b of window n staged. -/
def Clu.stageBase (c : Clu) (n : Nat) (b : BitVec 14) : Clu :=
  { c with wstage := sput 0 c.wstage n b, wpend := c.wpend ||| BitVec.ofNat 16 (2 ^ n) }

/-- The CLU registers with length l of window n effective, and with it the base that was staged. -/
def Clu.applyLen (c : Clu) (n : Nat) (l : BitVec 11) : Clu :=
  { c with wlen := sput 0 c.wlen n l,
           wbase := if c.wpend.getLsbD n then sput 0 c.wbase n (sget 0 c.wstage n) else c.wbase,
           wpend := c.wpend &&& ~~~(BitVec.ofNat 16 (2 ^ n)) }

theorem State.clu_setClu_same (s : State) (gc : ClusterId) (c : Clu) : (s.setClu gc c).clu gc = c :=
  (s.setClu_clu gc gc c).trans (if_pos rfl)

theorem cluWbaseEff_eq (s : State) (gc : ClusterId) (n : BitVec 4) (v : Word) :
    cluWbaseEff s gc n v = s.setClu gc ((s.clu gc).stageBase n.toNat (slice v 6 14)) := rfl

theorem cluWlenEff_of_reserved (s : State) (gc : ClusterId) (n : BitVec 4) {v : Word} (h : 1024 < bits v.toNat 0 11) :
    cluWlenEff s gc n v = s :=
  if_pos (toNat_slice v 0 11 ▸ h)

theorem cluWlenEff_of_le (s : State) (gc : ClusterId) (n : BitVec 4) {v : Word} (h : bits v.toNat 0 11 ≤ 1024) :
    cluWlenEff s gc n v = s.setClu gc ((s.clu gc).applyLen n.toNat (slice v 0 11)) :=
  if_neg (Nat.not_lt.2 (toNat_slice v 0 11 ▸ h))

theorem Clu.sget_wbase_applyLen (c : Clu) (n : Nat) (l : BitVec 11) (j : Nat) :
    sget 0 (c.applyLen n l).wbase j = if j = n ∧ c.wpend.getLsbD n = true then sget 0 c.wstage n else sget 0 c.wbase j := by
  by_cases h : c.wpend.getLsbD n = true
  · rw [Clu.applyLen, if_pos h, sget_sput]
    simp only [h, and_true]
  · rw [Clu.applyLen, if_neg h, if_neg fun hj => h hj.2]

/-! ### The commands and the read (R31, R137) -/

theorem regCmd_of_open {s : State} {who : Initiator} {pa : Nat} (ho : regOpen s who pa = true) (eff : State → State) :
    regCmd s who pa eff = eff s :=
  if_pos ho

theorem exec_cluWbaseWrite_of_open {s : State} {who : Initiator} {gc : ClusterId} {n : BitVec 4} (v : Word)
    (ho : regOpen s who (cluBase gc + 0x100 + 8 * n.toNat) = true) :
    exec (.cluWbaseWrite who gc n v) s = (cluWbaseEff s gc n v).ends .ok :=
  congrArg Host.Outcome.next (regCmd_of_open ho _)

theorem exec_cluWlenWrite_of_open {s : State} {who : Initiator} {gc : ClusterId} {n : BitVec 4} (v : Word)
    (ho : regOpen s who (cluBase gc + 0x104 + 8 * n.toNat) = true) :
    exec (.cluWlenWrite who gc n v) s = (cluWlenEff s gc n v).ends .ok :=
  congrArg Host.Outcome.next (regCmd_of_open ho _)

theorem cluRead_wbase (s : State) (gc : ClusterId) {i : Nat} (hi : i < 16) :
    cluRead s gc (0x100 + 8 * i) = some ((sget 0 (s.clu gc).wbase i).setWidth 32 <<< 6, s) := by
  simp (disch := omega) only [cluRead, if_neg, copyOf_first, if_true, rdPack, ofNat_packLE_above]

/-- Settles O26: the writes by the CLU registers they leave, `Clu.stageBase` and `Clu.applyLen`, the read by `cluRead_wbase`. -/
theorem clusterWindows : Obligations.ClusterWindows := by
  intro s who gc n v
  refine ⟨fun ho => ?staged, fun ho => ⟨fun hv => ?reserved, fun hv => ?applied⟩, cluRead_wbase s gc n.isLt⟩
  case staged =>
    refine ⟨_, exec_cluWbaseWrite_of_open v ho, ?_⟩
    rw [cluWbaseEff_eq, State.clu_setClu_same]
    exact ⟨rfl, sget_sput_same _ _ _ _, rfl, rfl, fun j _ => sget_sput _ _ _ _ _, fun j hj => getLsbD_or_two_pow _ _ hj⟩
  case reserved => rw [exec_cluWlenWrite_of_open v ho, cluWlenEff_of_reserved s gc n hv]
  case applied =>
    refine ⟨_, exec_cluWlenWrite_of_open v ho, ?_⟩
    rw [cluWlenEff_of_le s gc n hv, State.clu_setClu_same]
    exact ⟨rfl, rfl, fun j _ => sget_sput _ _ _ _ _, fun j _ => Clu.sget_wbase_applyLen _ _ _ j, fun j hj => getLsbD_and_not_two_pow _ _ hj⟩

end Sys2Proof.Machine
end

section
/-! SUPPORT. An engine's control registers, and its job from the queue to RUN: dequeue, SETUP reads, the checks of the descriptor and of the
parameter block, and the borrow (R151 to R154, R177 to R180, R210). -/

namespace Sys2Proof.Machine

variable {s t u : State} {e : EngId}

/-! ### ACC_CTL and ACC_QSEL (R154, R178, R180) -/

theorem engSetEn_true (s : State) (e : EngId) : engSetEn s e true =
    s.setEngine e { s.engine e with en := true, st := if (s.engine e).st = .disabled then .idle else (s.engine e).st } := by
  simp [engSetEn]

theorem engSetEn_false (s : State) (e : EngId) : engSetEn s e false =
    s.setEngine e { s.engine e with en := false, st := if (s.engine e).st = .idle then .disabled else (s.engine e).st } := by
  simp [engSetEn]

theorem engSreset_of_no_job (h : (s.engine e).job = none) : engSreset s e = s.setEngine e (Engine.reset e.toNat) := by
  simp [engSreset, h]

theorem engSreset_of_running_job {j : Job} (hjob : (s.engine e).job = some j) (hst : (s.engine e).st ≠ .complete) (hab : j.abort = none) :
    engSreset s e =
      s.setEngine e { s.engine e with rst := true, job := some { j with abort := some .cancelled, abortAt := s.cycle } } := by
  simp [engSreset, hjob, hst, hab]

theorem qselWrite_of_refused {v : Word} (h : (s.engine e).st ≠ .disabled ∨ clusterRegion (queueCluster (slice v 0 16)) ≠ engRegion e) :
    qselWrite s e v = (.notPermitted, s) :=
  if_pos h

theorem qselWrite_of_taken {v : Word} (hst : (s.engine e).st = .disabled) (hq : clusterRegion (queueCluster (slice v 0 16)) = engRegion e) :
    qselWrite s e v = (.ok, s.setEngine e { s.engine e with qsel := slice v 0 16 }) :=
  if_neg fun h => h.elim (fun hne => hne hst) fun hne => hne hq

theorem exec_engineEnable_of_open {who : Initiator} (ho : regOpen s who (engBase e + 4) = true) :
    exec (.engineEnable who e) s = (engSetEn s e true).ends .ok :=
  congrArg Host.Outcome.next (regCmd_of_open ho _)

theorem exec_engineDisable_of_open {who : Initiator} (ho : regOpen s who (engBase e + 4) = true) :
    exec (.engineDisable who e) s = (engSetEn s e false).ends .ok :=
  congrArg Host.Outcome.next (regCmd_of_open ho _)

theorem exec_engineSreset_of_open {who : Initiator} (ho : regOpen s who (engBase e + 4) = true) :
    exec (.engineSreset who e) s = (engSreset s e).ends .ok :=
  congrArg Host.Outcome.next (regCmd_of_open ho _)

theorem exec_accQselWrite_of_open {who : Initiator} (v : Word) (ho : regOpen s who (engBase e + 0xC) = true) :
    exec (.accQselWrite who e v) s = (qselWrite s e v).2.ends (qselWrite s e v).1 :=
  congrArg Host.Outcome.next (regCmd_of_open ho _)

/-! ### The dequeue (R151, R153) -/

theorem eTag_of_job {en : Entry} (h : eKind en = 2) : eTag en = slice en 128 32 := if_pos h

section Dequeue

variable {h : QEnt} (htakes : engTakes s e = true) (hlower : lowerTakes s e = false) (htake : takeFrom s (s.engine e).qsel = (some h, t))
include htakes hlower htake

theorem doDequeue_of_other_kind (hk : eKind h.e ≠ 2) : doDequeue s e = tallyAdd t (engBase e + 0x118) 1 := by
  simp [doDequeue, htakes, hlower, htake, hk, engTal]

theorem doDequeue_of_job (hk : eKind h.e = 2) (hext : extentCheck (jobDesc (newJob h.e) % 2 ^ 44) 64 = none)
    (halign : jobDesc (newJob h.e) % 64 = 0) :
    doDequeue s e = t.setEngine e { t.engine e with st := .setup, curtag := slice h.e 128 32, job := some (newJob h.e) } := by
  simp only [doDequeue, htakes, hlower, htake, hk, hext, halign, eTag_of_job hk, Bool.true_eq_false, Bool.false_eq_true, or_self, ne_eq,
    not_true_eq_false, if_false]

end Dequeue

/-! ### The descriptor comes (orders 3 and 4 of R153) -/

/-- Engine e with job j in its hands. -/
def State.holdJob (s : State) (e : EngId) (j : Job) : State := s.setEngine e { s.engine e with job := some j }

/-- A job once its descriptor has come. -/
def Job.takeDesc (j : Job) (d : Block64) (fl : Word) : Job := { j with desc := d, hasDesc := true, flags := j.flags ||| fl, wait := .params }

section Descriptor

variable {j : Job} {d : Block64} {fl : Word}

theorem gotDescriptor_of_bad_extent {o : Outc} (h : descExtents d = some o) :
    gotDescriptor s e j d fl = finishJob (s.holdJob e (j.takeDesc d fl)) e o 2 := by
  unfold gotDescriptor
  simp only [h]
  rfl

theorem gotDescriptor_of_agrees (hext : descExtents d = none) (h : descAgrees (engType e) j.entry d = true) :
    gotDescriptor s e j d fl = s.holdJob e (j.takeDesc d fl) := by
  unfold gotDescriptor
  simp only [hext, h, if_true]
  rfl

theorem gotDescriptor_of_disagrees (hext : descExtents d = none) (h : descAgrees (engType e) j.entry d = false) :
    gotDescriptor s e j d fl = finishJob (s.holdJob e (j.takeDesc d fl)) e .badDescriptor 2 := by
  unfold gotDescriptor
  simp only [hext, h, Bool.false_eq_true, if_false]
  rfl

end Descriptor

/-! ### The parameter block comes (orders 6 to 8 of R153) -/

/-- A job once its parameter block has come. -/
def Job.takeParams (j : Job) (b : List Byte) (fl : Word) : Job := { j with params := b, flags := j.flags ||| fl, wait := .borrow }

/-- The parameter block is whole and valid, and the lengths that it needs fit those of the descriptor. -/
def paramsFit (e : EngId) (j : Job) (b : List Byte) : Prop :=
  let fn := bits j.desc.toNat 4 4
  let need := needLens (engType e) fn b
  blockLen (engType e) fn b ≤ b.length ∧ paramOk (engType e) fn b = true ∧ need.1 ≤ dField j.desc 0x18 4 ∧
    need.2.1 ≤ dField j.desc 0x1C 4 ∧ need.2.2 ≤ dField j.desc 0x38 4

theorem jobCheck_of_unlimited {r : RegionId} {a : ActId} {c : Nat} (h : ((s.bud r).act a).en = false) : jobCheck s r a c = (.taken, s) :=
  if_pos (.inl h)

theorem tickReached_iff {a b : Word} : tickReached a b = true ↔ (a - b).toNat < 2 ^ 31 := decide_eq_true_iff

theorem enterRun_holdJob (s : State) (e : EngId) (j : Job) :
    enterRun (s.holdJob e j) e = s.setEngine e { s.engine e with st := .run, job := some { j with ran := true } } := by
  simp [enterRun, State.updEngine, State.holdJob]

section Params

variable {j : Job} {b : List Byte} {fl : Word}

theorem gotParams_of_misfit (h : ¬paramsFit e j b) :
    gotParams s e j b fl = finishJob (s.holdJob e (j.takeParams b fl)) e .badDescriptor 4 :=
  if_neg h

theorem gotParams_of_late (hfit : paramsFit e j b) (hdl : jobHasDl j = true) (hlate : (s.tick - slice j.entry 32 32).toNat < 2 ^ 31) :
    gotParams s e j b fl = finishJob (s.holdJob e (j.takeParams b fl)) e .deadlineMissed 5 :=
  (if_pos hfit).trans (if_pos ⟨hdl, tickReached_iff.2 hlate⟩)

theorem gotParams_of_unlimited (hfit : paramsFit e j b) (hdl : jobHasDl j = false) (hact : ((s.bud (engRegion e)).act (jobAct j)).en = false) :
    gotParams s e j b fl = s.setEngine e { s.engine e with st := .run, job := some { j.takeParams b fl with ran := true } } := by
  have hdl' : ¬(jobHasDl (j.takeParams b fl) = true ∧ tickReached s.tick (eDeadline j.entry) = true) := by
    rw [show jobHasDl (j.takeParams b fl) = jobHasDl j from rfl, hdl]
    exact fun h => Bool.false_ne_true h.1
  rw [← enterRun_holdJob]
  refine (if_pos hfit).trans ((if_neg hdl').trans ?_)
  rw [jobCheck_of_unlimited]
  · rfl
  · exact hact

end Params

/-! ### A SETUP read answers (orders 2 and 5 of R153) -/

theorem withRead_of_good {step : BitVec 4} {a : Ans} {k : State → Ans → State} (h : a.outc.good = true) :
    withRead e step (.done a t) k = k t a :=
  if_pos h

theorem withRead_of_bad {step : BitVec 4} {a : Ans} {k : State → Ans → State} (h : a.outc.good = false) :
    withRead e step (.done a t) k = finishJob t e a.outc step :=
  if_neg (Bool.eq_false_iff.1 h)

theorem viaPath_of_bad {o : Outc} (h : o.good = false) (s : State) (f : Acc) : viaPath (some o) s f = .done (Ans.only o) s :=
  if_neg (Bool.eq_false_iff.1 h)

section SetupRead

variable {j : Job} (hst : (s.engine e).st = .setup) (hjob : (s.engine e).job = some j) (hab : j.abort = none)
include hst hjob hab

theorem doSetupRead_of_bad_descriptor {path : PathRes} {a : Ans} (hw : j.wait = .descriptor) (hbad : a.outc.good = false)
    (hread : viaPath path s (accRead s (.engine e) (jobDesc j) 64 (jobAct j)) = .done a t) :
    doSetupRead s e path = finishJob t e a.outc 1 := by
  simp [doSetupRead, hst, hjob, hab, hw, hread, withRead_of_bad hbad]

theorem doSetupRead_of_descriptor {a : Ans} (hw : j.wait = .descriptor) (hgood : a.outc.good = true)
    (hread : accRead s (.engine e) (jobDesc j) 64 (jobAct j) = .done a t) :
    doSetupRead s e none = gotDescriptor t e j (BitVec.ofNat 512 (natOfBytes a.data)) a.flags := by
  simp [doSetupRead, hst, hjob, hab, hw, viaPath, hread, withRead_of_good hgood]

theorem doSetupRead_of_bad_params {path : PathRes} {a : Ans} (hw : j.wait = .params) (hbad : a.outc.good = false)
    (hread : viaPath path s (accRead s (.engine e) (dField j.desc 0x28 8) (min (dField j.desc 0x3C 2) (headLen (engType e))) (jobAct j)) =
      .done a t) :
    doSetupRead s e path = finishJob t e a.outc 3 := by
  simp [doSetupRead, hst, hjob, hab, hw, hread, withRead_of_bad hbad]

/-- The block's head names its length; the rest of the block is read behind it (R511). -/
theorem doSetupRead_of_params {a b : Ans} (hw : j.wait = .params) (hgood : a.outc.good = true) (hgood' : b.outc.good = true)
    (hhead : accRead s (.engine e) (dField j.desc 0x28 8) (min (dField j.desc 0x3C 2) (headLen (engType e))) (jobAct j) = .done a t)
    (hrest : accRead t (.engine e) (dField j.desc 0x28 8 + min (dField j.desc 0x3C 2) (headLen (engType e)))
      (min (dField j.desc 0x3C 2) (blockLen (engType e) (bits j.desc.toNat 4 4) a.data) - min (dField j.desc 0x3C 2) (headLen (engType e)))
      (jobAct j) = .done b u) :
    doSetupRead s e none = gotParams u e j (a.data ++ b.data) (a.flags ||| b.flags) := by
  simp [doSetupRead, hst, hjob, hab, hw, viaPath, hhead, withRead_of_good hgood, hrest, hgood']

end SetupRead

/-! ### A borrow from the reserve (R160, R210) -/

/-- The activity may borrow a job of class c, and the reserve holds one. -/
def canBorrow (s : State) (r : RegionId) (a : ActId) (c : Nat) : Prop :=
  ((s.bud r).act a).borrow = true ∧ (sget 0 ((s.bud r).act a).jobsBorrowed c).toNat < bits ((s.bud r).act a).cur.bmax.toNat 16 16 ∧
    (s.bud r).rsvEn = true ∧ sget 0 (s.bud r).rsvJobs c ≠ 0

theorem jobBorrow_of_refused {r : RegionId} {a : ActId} {c : Nat} (h : ¬canBorrow s r a c) : jobBorrow s r a c = (false, s) :=
  if_neg h

/-- One job moves from the reserve to the activity; the engines stay. -/
theorem jobBorrow_of_granted {r : RegionId} {a : ActId} {c : Nat} (h : canBorrow s r a c) :
    ∃ t, jobBorrow s r a c = (true, t) ∧ t.engines = s.engines ∧
      sget 0 (t.bud r).rsvJobs c = sget 0 (s.bud r).rsvJobs c - 1 ∧
      sget 0 ((t.bud r).act a).jobsBorrowed c = sget 0 ((s.bud r).act a).jobsBorrowed c + 1 := by
  refine ⟨_, if_pos h, rfl, ?_, ?_⟩
  · simp [budTal]
  · simp [budTal, Bud.act, Bud.setAct]

section BorrowAnswer

variable {j : Job} (hst : (s.engine e).st = .setup) (hjob : (s.engine e).job = some j) (hab : j.abort = none) (hw : j.wait = .borrow)
include hst hjob hab hw

theorem doBorrowAnswer_of_refused (h : ¬canBorrow s (engRegion e) (jobAct j) (engType e)) :
    doBorrowAnswer s e = finishJob s e .budgetExhausted 6 := by
  simp [doBorrowAnswer, hst, hjob, hab, hw, jobBorrow_of_refused h]

theorem doBorrowAnswer_of_granted (h : jobBorrow s (engRegion e) (jobAct j) (engType e) = (true, t)) : doBorrowAnswer s e = enterRun t e := by
  simp [doBorrowAnswer, hst, hjob, hab, hw, h]

end BorrowAnswer

theorem enterRun_engine {j : Job} (h : (s.engine e).job = some j) :
    (enterRun s e).engine e = { s.engine e with st := .run, job := some { j with ran := true } } := by
  simp [enterRun, State.updEngine, h]

theorem enterRun_bud (s : State) (e : EngId) (r : RegionId) : (enterRun s e).bud r = s.bud r := rfl

theorem exec_jobBorrowAnswer_of_granted {j : Job} (hst : (s.engine e).st = .setup) (hjob : (s.engine e).job = some j) (hab : j.abort = none)
    (hw : j.wait = .borrow) (h : canBorrow s (engRegion e) (jobAct j) (engType e)) :
    ∃ t, exec (.jobBorrowAnswer e) s = .next t ∧ t.engine e = { s.engine e with st := .run, job := some { j with ran := true } } ∧
      sget 0 (t.bud (engRegion e)).rsvJobs (engType e) = sget 0 (s.bud (engRegion e)).rsvJobs (engType e) - 1 ∧
      sget 0 ((t.bud (engRegion e)).act (jobAct j)).jobsBorrowed (engType e) =
        sget 0 ((s.bud (engRegion e)).act (jobAct j)).jobsBorrowed (engType e) + 1 := by
  obtain ⟨t, ht, heng, hrsv, hborrowed⟩ := jobBorrow_of_granted h
  have hsame : t.engine e = s.engine e := by rw [State.engine, State.engine, heng]
  refine ⟨enterRun t e, congrArg Host.Outcome.next (doBorrowAnswer_of_granted hst hjob hab hw ht), ?_, hrsv, hborrowed⟩
  rw [enterRun_engine (hsame ▸ hjob), hsame]

/-! ### The statement -/

/-- Settles O28: the registers by `engSetEn`, `engSreset` and `qselWrite`, the job's way to RUN by what `doDequeue`, `doSetupRead`, `gotDescriptor`,
`gotParams` and `doBorrowAnswer` do in each case of R153 and R210. -/
theorem engineRegistersAndStart : Obligations.EngineRegistersAndStart := by
  refine ⟨fun s who e v => ⟨fun ho => ⟨?enable, ?disable, fun hjob => ?reset, fun j hjob hst hab => ?cancel⟩,
    fun ho => ⟨fun hst hq => ?taken, fun h => ?refused⟩⟩,
    fun s e => ⟨fun h t htakes hlower htake => ⟨fun hk => ?otherKind, fun hk hext halign => ?dequeued⟩,
      fun j hst hjob hab => ⟨fun a t hw hread => ?descriptor, fun a t hw hread => ⟨fun hbad => ?badHead, fun b u ha hb hrest => ?params⟩,
        fun o p hw hp hbad => ?badPath, fun hw => ⟨fun h => ?granted, fun h => ?exhausted⟩⟩⟩⟩
  case enable => rw [exec_engineEnable_of_open ho, engSetEn_true]
  case disable => rw [exec_engineDisable_of_open ho, engSetEn_false]
  case reset => rw [exec_engineSreset_of_open ho, engSreset_of_no_job hjob]
  case cancel => rw [exec_engineSreset_of_open ho, engSreset_of_running_job hjob hst hab]
  case taken => rw [exec_accQselWrite_of_open v ho, qselWrite_of_taken hst hq]
  case refused => rw [exec_accQselWrite_of_open v ho, qselWrite_of_refused h]
  case otherKind => exact congrArg Host.Outcome.next (doDequeue_of_other_kind htakes hlower htake hk)
  case dequeued => exact congrArg Host.Outcome.next (doDequeue_of_job htakes hlower htake hk hext halign)
  case descriptor =>
    have hdo (hgood : a.outc.good = true) : exec (.jobSetupReadResponse e none) s =
        .next (gotDescriptor t e j (BitVec.ofNat 512 (natOfBytes a.data)) a.flags) :=
      congrArg Host.Outcome.next (doSetupRead_of_descriptor hst hjob hab hw hgood hread)
    exact ⟨fun hbad => congrArg Host.Outcome.next (doSetupRead_of_bad_descriptor hst hjob hab hw hbad hread),
      fun hgood hext hag => (hdo hgood).trans (congrArg Host.Outcome.next (gotDescriptor_of_agrees hext hag)),
      fun hgood hext hdis => (hdo hgood).trans (congrArg Host.Outcome.next (gotDescriptor_of_disagrees hext hdis)),
      fun o hgood hext => (hdo hgood).trans (congrArg Host.Outcome.next (gotDescriptor_of_bad_extent hext))⟩
  case badHead => exact congrArg Host.Outcome.next (doSetupRead_of_bad_params hst hjob hab hw hbad hread)
  case params =>
    have hdo : exec (.jobSetupReadResponse e none) s = .next (gotParams u e j (a.data ++ b.data) (a.flags ||| b.flags)) :=
      congrArg Host.Outcome.next (doSetupRead_of_params hst hjob hab hw ha hb hread hrest)
    exact ⟨fun hmis => hdo.trans (congrArg Host.Outcome.next (gotParams_of_misfit hmis)),
      fun hfit hdl hlate => hdo.trans (congrArg Host.Outcome.next (gotParams_of_late hfit hdl hlate)),
      fun hfit hdl hact => hdo.trans (congrArg Host.Outcome.next (gotParams_of_unlimited hfit hdl hact))⟩
  case badPath =>
    subst hp
    obtain hw | hw := hw
    · rw [if_pos hw]
      exact congrArg Host.Outcome.next (doSetupRead_of_bad_params hst hjob hab hw hbad (viaPath_of_bad hbad s _))
    · rw [if_neg (by simp [hw])]
      exact congrArg Host.Outcome.next (doSetupRead_of_bad_descriptor hst hjob hab hw hbad (viaPath_of_bad hbad s _))
  case granted => exact exec_jobBorrowAnswer_of_granted hst hjob hab hw h
  case exhausted => exact congrArg Host.Outcome.next (doBorrowAnswer_of_refused hst hjob hab hw h)

end Sys2Proof.Machine
end

section
/-! Facts about lists and conditions that core Lean does not have. -/

namespace Sys2Proof.Machine

theorem ite_iff {α : Type} {p q : Prop} [Decidable p] [Decidable q] {x y : α} (h : p ↔ q) : (if p then x else y) = if q then x else y :=
  ite_congr (propext h) (fun _ => rfl) (fun _ => rfl)

theorem flatMap_congr_mem {α β : Type} {l : List α} {f g : α → List β} (h : ∀ x ∈ l, f x = g x) : l.flatMap f = l.flatMap g := by
  rw [List.flatMap_def, List.flatMap_def, List.map_congr_left h]

theorem find?_congr_mem {α : Type} {l : List α} {p q : α → Bool} (h : ∀ x ∈ l, p x = q x) : l.find? p = l.find? q := by
  induction l with
  | nil => rfl
  | cons x l ih =>
    rw [List.find?_cons, List.find?_cons, h x List.mem_cons_self, ih fun y hy => h y (List.mem_cons_of_mem x hy)]

end Sys2Proof.Machine
end

section
/-! The block as a whole: every command answers a next state that keeps the invariant of Safety.lean, and so does every step and every run. -/

namespace Sys2Proof.Machine

variable {s t : State}

/-! ### The invariant and its form for operations -/

theorem ok_of_inv (h : s.Inv) : Ok s.pending s := ⟨rfl, h.1, h.2.1, h.2.2⟩

theorem Ok.inv {q : List Instr} (h : Ok q s) : s.Inv := ⟨h.mem, h.time, h.cores⟩

/-- The queue is no part of the invariant. -/
theorem inv_pending {l : List Instr} (h : s.Inv) : ({ s with pending := l } : State).Inv := h

theorem ok_pending {l : List Instr} (h : s.Inv) : Ok l { s with pending := l } := ok_of_inv (inv_pending h)

/-! ### Commands -/

/-- Each command answers a next state with the same queue, and keeps the invariant. -/
theorem exec_ok {q : List Instr} (h : Ok q s) (c : Instr) : OkN q (exec c s) := by
  cases c with
  | porstNAssert role pkg src => exact execPorstNAssert_ok (_role := role) (_pkg := pkg) (_src := src) h
  | porstNRelease => exact execPorstNRelease_ok h
  | bootStepComplete => exact execBootStepComplete_ok h
  | bootStepTimeout => exact execBootStepTimeout_ok h
  | loadMailboxDetect => exact execLoadMailboxDetect_ok h
  | perstNAssert => exact execPerstNAssert_ok h
  | registerWrite => exact execRegisterWrite_ok h
  | tallyCounterRead => exact execTallyCounterRead_ok h
  | rcFieldRead => exact execRcFieldRead_ok h
  | ldh => exact execLdh_ok h
  | ldw => exact execLdw_ok h
  | sth => exact execSth_ok h
  | stw => exact execStw_ok h
  | vld => exact execVld_ok h
  | vldu => exact execVldu_ok h
  | vst => exact execVst_ok h
  | vsta => exact execVsta_ok h
  | qenq => exact execQenq_ok h
  | qenqStallRelease => exact execQenqStallRelease_ok h
  | enqueueTimeout => exact execEnqueueTimeout_ok h
  | qdeq => exact execQdeq_ok h
  | adda => exact execAdda_ok h
  | mova => exact execMova_ok h
  | movn => exact execMovn_ok h
  | movas => exact execMovas_ok h
  | cmac => exact execCmac_ok h
  | cmacj => exact execCmacj_ok h
  | cmsb => exact execCmsb_ok h
  | cmul => exact execCmul_ok h
  | cmulj => exact execCmulj_ok h
  | rmac => exact execRmac_ok h
  | acclr => exact execAcclr_ok h
  | acset => exact execAcset_ok h
  | acmv => exact execAcmv_ok h
  | acsh => exact execAcsh_ok h
  | vadd => exact execVadd_ok h
  | vsub => exact execVsub_ok h
  | vaddw => exact execVaddw_ok h
  | vsubw => exact execVsubw_ok h
  | vneg => exact execVneg_ok h
  | vconj => exact execVconj_ok h
  | vshrr => exact execVshrr_ok h
  | vmov => exact execVmov_ok h
  | vbcst => exact execVbcst_ok h
  | vand => exact execVand_ok h
  | vor => exact execVor_ok h
  | vxor => exact execVxor_ok h
  | add => exact execAdd_ok h
  | sub => exact execSub_ok h
  | and => exact execAnd_ok h
  | or => exact execOr_ok h
  | xor => exact execXor_ok h
  | shl => exact execShl_ok h
  | shr => exact execShr_ok h
  | sar => exact execSar_ok h
  | mul => exact execMul_ok h
  | cmplt => exact execCmplt_ok h
  | cmpeq => exact execCmpeq_ok h
  | movi => exact execMovi_ok h
  | br => exact execBr_ok h
  | j => exact execJ_ok h
  | call => exact execCall_ok h
  | ret => exact execRet_ok h
  | loop => exact execLoop_ok h
  | loops => exact execLoops_ok h
  | mfc => exact execMfc_ok h
  | mtc => exact execMtc_ok h
  | rti => exact execRti_ok h
  | wait => exact execWait_ok h
  | waitWake => exact execWaitWake_ok h
  | fence => exact execFence_ok h
  | nop => exact execNop_ok h
  | interruptEntry => exact execInterruptEntry_ok h
  | timerRaise => exact execTimerRaise_ok h
  | postedStoreFault => exact execPostedStoreFault_ok h
  | coreRun => exact execCoreRun_ok h
  | coreHalt => exact execCoreHalt_ok h
  | coreSreset => exact execCoreSreset_ok h
  | cpwr => exact execCpwr_ok h
  | cpld => exact execCpld_ok h
  | cprd => exact execCprd_ok h
  | cpst => exact execCpst_ok h
  | cprds => exact execCprds_ok h
  | cpwrs => exact execCpwrs_ok h
  | cpsave => exact execCpsave_ok h
  | cprestore => exact execCprestore_ok h
  | cpOperationFinish => exact execCpOperationFinish_ok h
  | mmac => exact execMmac_ok h
  | mmac8 => exact execMmac8_ok h
  | mmv => exact execMmv_ok h
  | mmva => exact execMmva_ok h
  | mrsq => exact execMrsq_ok h
  | mchol => exact execMchol_ok h
  | mtrsv => exact execMtrsv_ok h
  | maclr => exact execMaclr_ok h
  | sdmap => exact execSdmap_ok h
  | sscrb => exact execSscrb_ok h
  | sdscr => exact execSdscr_ok h
  | sginit => exact execSginit_ok h
  | scrc => exact execScrc_ok h
  | scrcinit => exact execScrcinit_ok h
  | silv => exact execSilv_ok h
  | sdilv => exact execSdilv_ok h
  | cluWbaseWrite => exact execCluWbaseWrite_ok h
  | cluWlenWrite => exact execCluWlenWrite_ok h
  | cmInitStart => exact execCmInitStart_ok h
  | memoryInitDone => exact execMemoryInitDone_ok h
  | requestAtTarget => exact execRequestAtTarget_ok h
  | jobDequeue => exact execJobDequeue_ok h
  | jobSetupReadResponse => exact execJobSetupReadResponse_ok h
  | jobBorrowAnswer => exact execJobBorrowAnswer_ok h
  | jobRunDone => exact execJobRunDone_ok h
  | jobWritebackDone => exact execJobWritebackDone_ok h
  | jobAccessError => exact execJobAccessError_ok h
  | jobInternalError => exact execJobInternalError_ok h
  | jobDeadline => exact execJobDeadline_ok h
  | jobAbortComplete => exact execJobAbortComplete_ok h
  | jobRecordEnqueue => exact execJobRecordEnqueue_ok h
  | engineEnable => exact execEngineEnable_ok h
  | engineDisable => exact execEngineDisable_ok h
  | engineSreset => exact execEngineSreset_ok h
  | accQselWrite => exact execAccQselWrite_ok h
  | queueEnqueue => exact execQueueEnqueue_ok h
  | queueDequeue => exact execQueueDequeue_ok h
  | queueStatusRead => exact execQueueStatusRead_ok h
  | endTask g lq result => exact execEndTask_ok (_lq := lq) h
  | cancel => exact execCancel_ok h
  | taskBind => exact execTaskBind_ok h
  | preemptBind => exact execPreemptBind_ok h
  | taskDeadline => exact execTaskDeadline_ok h
  | taskRecordEnqueue => exact execTaskRecordEnqueue_ok h
  | chunkRequest => exact execChunkRequest_ok h
  | chunkAnswer => exact execChunkAnswer_ok h
  | budgetPeriodEdge => exact execBudgetPeriodEdge_ok h
  | reservePeriodEdge => exact execReservePeriodEdge_ok h
  | budgetEnable => exact execBudgetEnable_ok h
  | budgetDisable => exact execBudgetDisable_ok h
  | reserveEnable => exact execReserveEnable_ok h
  | budBudgetWrite => exact execBudBudgetWrite_ok h
  | dramBudgetPeriodEdge => exact execDramBudgetPeriodEdge_ok h
  | loadPeriodEdge => exact execLoadPeriodEdge_ok h
  | queueEnable => exact execQueueEnable_ok h
  | queueDisable => exact execQueueDisable_ok h
  | stealStart => exact execStealStart_ok h
  | stealRequest => exact execStealRequest_ok h
  | stealReceive => exact execStealReceive_ok h
  | stealRefusal => exact execStealRefusal_ok h
  | stealRecordReturn => exact execStealRecordReturn_ok h
  | stealCancelForward => exact execStealCancelForward_ok h
  | niRequest => exact execNiRequest_ok h
  | regulatorInject => exact execRegulatorInject_ok h
  | regulatorRefill => exact execRegulatorRefill_ok h
  | regulatorConfigWrite => exact execRegulatorConfigWrite_ok h
  | routerForward => exact execRouterForward_ok h
  | responseArrival => exact execResponseArrival_ok h
  | requestTimeout => exact execRequestTimeout_ok h
  | txidQuarantineEnd => exact execTxidQuarantineEnd_ok h
  | responseLifetimeExpiry => exact execResponseLifetimeExpiry_ok h
  | retryArrival => exact execRetryArrival_ok h
  | retryResend => exact execRetryResend_ok h
  | linkFlitError => exact execLinkFlitError_ok h
  | portDrain => exact execPortDrain_ok h
  | portDisable => exact execPortDisable_ok h
  | portEnable => exact execPortEnable_ok h
  | portDrainComplete => exact execPortDrainComplete_ok h
  | routeTableSwap => exact execRouteTableSwap_ok h
  | doorbell => exact execDoorbell_ok h
  | descriptorFetch => exact execDescriptorFetch_ok h
  | taskSubmit => exact execTaskSubmit_ok h
  | taskCancel => exact execTaskCancel_ok h
  | dmaCopy => exact execDmaCopy_ok h
  | dmaGather => exact execDmaGather_ok h
  | cfgStage => exact execCfgStage_ok h
  | cfgCommit => exact execCfgCommit_ok h
  | commitBoundary => exact execCommitBoundary_ok h
  | powerStateWake => exact execPowerStateWake_ok h
  | powerStateNap => exact execPowerStateNap_ok h
  | powerStateRetain => exact execPowerStateRetain_ok h
  | powerStateStandby => exact execPowerStateStandby_ok h
  | powerStateDeep => exact execPowerStateDeep_ok h
  | budgetSet => exact execBudgetSet_ok h
  | journalAppend => exact execJournalAppend_ok h
  | journalCompact => exact execJournalCompact_ok h
  | journalRead => exact execJournalRead_ok h
  | timeCmdRead => exact execTimeCmdRead_ok h
  | timeCmdStep => exact execTimeCmdStep_ok h
  | timeCmdFrequencyAdjust => exact execTimeCmdFrequencyAdjust_ok h
  | timeCmdArmTimer => exact execTimeCmdArmTimer_ok h
  | timeCmdCancelTimer => exact execTimeCmdCancelTimer_ok h
  | beaconTransmit => exact execBeaconTransmit_ok h
  | beaconReceiveOn => exact execBeaconReceiveOn_ok h
  | beaconReceiveOff => exact execBeaconReceiveOff_ok h
  | beaconLoadTable => exact execBeaconLoadTable_ok h
  | beaconReadNoiseFloor => exact execBeaconReadNoiseFloor_ok h
  | faultInject => exact execFaultInject_ok h
  | faultQuery => exact execFaultQuery_ok h
  | hostFence => exact execHostFence_ok h
  | completionWrite => exact execCompletionWrite_ok h
  | sourceQueueForward => exact execSourceQueueForward_ok h
  | eventWrite => exact execEventWrite_ok h
  | ringEnable => exact execRingEnable_ok h
  | ringDisable => exact execRingDisable_ok h
  | functionLevelReset => exact execFunctionLevelReset_ok h
  | barAccess => exact execBarAccess_ok h
  | hostMemoryAccess => exact execHostMemoryAccess_ok h
  | hostReadCompletion => exact execHostReadCompletion_ok h
  | dmaChannelConfigWrite => exact execDmaChannelConfigWrite_ok h
  | frameReceive => exact execFrameReceive_ok h
  | iqPacketReceive => exact execIqPacketReceive_ok h
  | type2MessageReceive => exact execType2MessageReceive_ok h
  | ptpFrameReceive => exact execPtpFrameReceive_ok h
  | esmcFrameReceive => exact execEsmcFrameReceive_ok h
  | delayRequestReceive => exact execDelayRequestReceive_ok h
  | delayFollowUpReceive => exact execDelayFollowUpReceive_ok h
  | remoteDelayRequestReceive => exact execRemoteDelayRequestReceive_ok h
  | delayResponseReceive => exact execDelayResponseReceive_ok h
  | delayMeasurementStart => exact execDelayMeasurementStart_ok h
  | delayMeasurementTimeout => exact execDelayMeasurementTimeout_ok h
  | symbolCloseTimeout => exact execSymbolCloseTimeout_ok h
  | symbolDescriptorEnqueue => exact execSymbolDescriptorEnqueue_ok h
  | exceptionBufferFree => exact execExceptionBufferFree_ok h
  | txEntryDequeue => exact execTxEntryDequeue_ok h
  | txSend => exact execTxSend_ok h
  | txRecordEnqueue => exact execTxRecordEnqueue_ok h
  | quadModeWrite => exact execQuadModeWrite_ok h
  | streamEnable => exact execStreamEnable_ok h
  | streamDisable => exact execStreamDisable_ok h
  | laneLockChange => exact execLaneLockChange_ok h
  | sourceSelection => exact execSourceSelection_ok h
  | sourceValidityChange => exact execSourceValidityChange_ok h
  | phaseMeasurement => exact execPhaseMeasurement_ok h
  | holdoverSpecExpiry => exact execHoldoverSpecExpiry_ok h
  | eventTimerFire => exact execEventTimerFire_ok h
  | timerArm => exact execTimerArm_ok h
  | timerDisarm => exact execTimerDisarm_ok h
  | ppsEnable => exact execPpsEnable_ok h
  | timeSnapshot => exact execTimeSnapshot_ok h
  | slotPulse => exact execSlotPulse_ok h
  | ppsInEdge => exact execPpsInEdge_ok h
  | todMessageReceive => exact execTodMessageReceive_ok h
  | ptpMessageTransmit => exact execPtpMessageTransmit_ok h
  | tokenReceive => exact execTokenReceive_ok h
  | tokenRegenerate => exact execTokenRegenerate_ok h
  | frameTransit => exact execFrameTransit_ok h
  | reqReceive => exact execReqReceive_ok h
  | rspReceive => exact execRspReceive_ok h
  | enqReceive => exact execEnqReceive_ok h
  | enqrspReceive => exact execEnqrspReceive_ok h
  | pollSend => exact execPollSend_ok h
  | pollReceive => exact execPollReceive_ok h
  | replyReceive => exact execReplyReceive_ok h
  | joinTimeout => exact execJoinTimeout_ok h
  | remoteAccess => exact execRemoteAccess_ok h
  | remoteSlotTimeout => exact execRemoteSlotTimeout_ok h
  | exportDequeue => exact execExportDequeue_ok h
  | linkLockLoss => exact execLinkLockLoss_ok h
  | wrapIndicationReceive => exact execWrapIndicationReceive_ok h
  | wrapHoldExpiry => exact execWrapHoldExpiry_ok h
  | unwrap => exact execUnwrap_ok h
  | beaconSymbolReceive => exact execBeaconSymbolReceive_ok h
  | beaconSymbolTransmit => exact execBeaconSymbolTransmit_ok h
  | receiveSlotFree => exact execReceiveSlotFree_ok h
  | crierEnable => exact execCrierEnable_ok h
  | crierDisable => exact execCrierDisable_ok h
  | referenceHoldExpiry => exact execReferenceHoldExpiry_ok h
  | bulkMemoryRead => exact execBulkMemoryRead_ok h
  | bulkMemoryWrite => exact execBulkMemoryWrite_ok h
  | scrubRead => exact execScrubRead_ok h
  | wmapClearStart => exact execWmapClearStart_ok h
  | wmapClearDone => exact execWmapClearDone_ok h
  | flipArm => exact execFlipArm_ok h
  | faultSourceEvent => exact execFaultSourceEvent_ok h
  | reportPathFault => exact execReportPathFault_ok h
  | faultWindowClose => exact execFaultWindowClose_ok h
  | asyUnfence => exact execAsyUnfence_ok h
  | faultInjectTimeout => exact execFaultInjectTimeout_ok h
  | logRecordWrite => exact execLogRecordWrite_ok h
  | prepareAnswer => exact execPrepareAnswer_ok h
  | prepareTimeout => exact execPrepareTimeout_ok h
  | entryDrainComplete => exact execEntryDrainComplete_ok h
  | wakePin => exact execWakePin_ok h
  | wakeStepReady => exact execWakeStepReady_ok h
  | wakeStepTimeout => exact execWakeStepTimeout_ok h
  | thermalPrediction => exact execThermalPrediction_ok h
  | brownOut => exact execBrownOut_ok h
  | aonOvercurrent => exact execAonOvercurrent_ok h
  | reconciliation => exact execReconciliation_ok h
  | operatingPointRequest => exact execOperatingPointRequest_ok h
  | operatingPointDone => exact execOperatingPointDone_ok h
  | regionEnable => exact execRegionEnable_ok h
  | journalRecordWrite => exact execJournalRecordWrite_ok h
  | compactionStart => exact execCompactionStart_ok h
  | compactionCommit => exact execCompactionCommit_ok h
  | thermtrip => exact execThermtrip_ok h
  | smbusBlockWrite => exact execSmbusBlockWrite_ok h
  | smbusBlockRead => exact execSmbusBlockRead_ok h
  | smbusTimeout => exact execSmbusTimeout_ok h
  | extest => exact execExtest_ok h
  | samplePreload => exact execSamplePreload_ok h
  | extestPulse => exact execExtestPulse_ok h
  | extestTrain => exact execExtestTrain_ok h
  | highz => exact execHighz_ok h
  | clamp => exact execClamp_ok h
  | bypass => exact execBypass_ok h
  | trstNAssert => exact execTrstNAssert_ok h
  | perstNRelease => exact execPerstNRelease_ok h
  | busMasterEnableChange => exact execBusMasterEnableChange_ok h
  | cascadeRxLockGain => exact execCascadeRxLockGain_ok h
  | fronthaulLinkChange => exact execFronthaulLinkChange_ok h

/-! ### Steps and runs -/

theorem step_eq_exec {c : Instr} {l : List Instr} (h : s.pending = c :: l) : step s = exec c { s with pending := l } := by
  rw [step, h]

theorem step_eq_rootCycle (h : s.pending = []) : step s = .next (rootCycle s) := by
  rw [step, h]

theorem step_inv (h : s.Inv) : ∃ t, step s = .next t ∧ t.Inv := by
  cases hp : s.pending with
  | nil => exact ⟨rootCycle s, step_eq_rootCycle hp, (rootCycle_ok (ok_of_inv h)).inv⟩
  | cons c l =>
    obtain ⟨t, ht, hok⟩ := exec_ok (ok_pending (l := l) h) c
    exact ⟨t, (step_eq_exec hp).trans ht, hok.inv⟩

/-- The invariant holds in every state that a run reaches. -/
theorem run_inv {n : Nat} (h : s.Inv) (hr : run n s = some t) : t.Inv := by
  induction n generalizing s with
  | zero =>
    cases hr
    exact h
  | succ n ih =>
    obtain ⟨u, hu, hinv⟩ := step_inv h
    rw [run, hu] at hr
    exact ih hinv hr

theorem units_eq (s : State) : s.units = s.cmk.sec * 1000000000 * 65536 + s.cmk.ns * 65536 + s.cmk.frac := by
  rw [State.units, State.nowNs, Nat.add_mul]

/-- 0.491 52 ticks a nanosecond are 3 ticks in 400 000 units of 2^−16 ns (R328). -/
theorem ticksAt_eq (u : Nat) : ticksAt u = u * 49152 / 100000 / 65536 := by
  unfold ticksAt
  omega

theorem reset_timeOk : State.reset.timeOk := by
  unfold State.timeOk
  decide

theorem reset_core (g : CoreId) : State.reset.core g = Core.reset := rfl

/-- Settles O17: a step takes the command in front of the queue. -/
theorem stepRunsTheFrontCommand : Obligations.StepRunsTheFrontCommand := fun _ _ => step_eq_exec rfl

/-- Settles O19: both memories are empty, device time and tick are 0, and every core is the reset core. -/
theorem resetHasTheInvariant : Obligations.ResetHasTheInvariant :=
  ⟨⟨rfl, rfl⟩, reset_timeOk, fun g => reset_core g ▸ CoreOk.reset⟩

/-- Settles O20, from `exec_ok` for the commands and `step_inv` for the steps. -/
theorem everyCommandCompletes : Obligations.EveryCommandCompletes := by
  refine ⟨fun c s h => ?_, fun s h => step_inv h⟩
  obtain ⟨t, ht, hok⟩ := exec_ok (ok_of_inv h) c
  exact ⟨t, ht, hok.queue, hok.inv⟩

/-- Settles O21: the invariant of every run ties the tick counter to device time. -/
theorem tickIsDeviceTime : Obligations.TickIsDeviceTime := by
  intro n s t h hr
  obtain ⟨-, ⟨htick, -, -⟩, -⟩ := run_inv h hr
  rw [← units_eq, ← ticksAt_eq]
  exact htick

end Sys2Proof.Machine
end

section
/-! Scalar and address-register operations, loads and stores of a bundle that executes (R45, R49, R70, R71, R509). -/

namespace Sys2Proof.Machine

variable {s : State} {g : CoreId} {b : Bundle} {m : Bundle} {sl : LsSlot} {o : Op}

/-! ### The slot of an operation -/

/-- The number of slot A or B. -/
def slotNum : LsSlot → Nat
  | .a => 0
  | .b => 1

@[simp] theorem slotOp_inLs (m : Bundle) (sl : LsSlot) (o : Op) : slotOp (inLs m sl o) (slotNum sl) = o := by
  cases sl <;> rfl

theorem slotNum_lt (sl : LsSlot) : slotNum sl < 4 := by
  cases sl <;> decide

theorem slotNum_mem (sl : LsSlot) : slotNum sl ∈ memSlots := by
  cases sl <;> decide

/-! ### Registers that slots A and B write -/

theorem executes_inLs_getS {i : BitVec 5} (h : executes s g (inLs m sl o) = true) (hn : RegName.s i ∈ opWrites o) :
    ((runBundle s g (inLs m sl o)).core g).r.getS i =
      (opEff (heldCore s g (inLs m sl o)) (gotAt s g (inLs m sl o) (slotNum sl)) [] o (effStart s g (inLs m sl o))).c.r.getS i := by
  rw [executes_getS h (slotNum_lt sl) (by rwa [slotOp_inLs]), slotEff, slotOp_inLs]

theorem executes_inLs_getA {i : BitVec 4} (h : executes s g (inLs m sl o) = true) (hn : RegName.a i ∈ opWrites o) :
    ((runBundle s g (inLs m sl o)).core g).r.getA i =
      (opEff (heldCore s g (inLs m sl o)) (gotAt s g (inLs m sl o) (slotNum sl)) [] o (effStart s g (inLs m sl o))).c.r.getA i := by
  rw [executes_getA h (slotNum_lt sl) (by rwa [slotOp_inLs]), slotEff, slotOp_inLs]

theorem executes_inLs_getN {i : BitVec 4} (h : executes s g (inLs m sl o) = true) (hn : RegName.n i ∈ opWrites o) :
    ((runBundle s g (inLs m sl o)).core g).r.getN i =
      (opEff (heldCore s g (inLs m sl o)) (gotAt s g (inLs m sl o) (slotNum sl)) [] o (effStart s g (inLs m sl o))).c.r.getN i := by
  rw [executes_getN h (slotNum_lt sl) (by rwa [slotOp_inLs]), slotEff, slotOp_inLs]

theorem executes_inLs_getV {i : BitVec 5} (h : executes s g (inLs m sl o) = true) (hn : RegName.v i ∈ opWrites o) :
    ((runBundle s g (inLs m sl o)).core g).r.getV i =
      (opEff (heldCore s g (inLs m sl o)) (gotAt s g (inLs m sl o) (slotNum sl)) [] o (effStart s g (inLs m sl o))).c.r.getV i := by
  rw [executes_getV h (slotNum_lt sl) (by rwa [slotOp_inLs]), slotEff, slotOp_inLs]

/-! ### Scalar operations (R509) -/

theorem executes_alu {k : AluKind} {sd sa sb : BitVec 5} (h : executes s g (inD m (.alu k sd sa sb)) = true) :
    ((runBundle s g (inD m (.alu k sd sa sb))).core g).r.getS sd = aluOp k ((s.core g).r.getS sa) ((s.core g).r.getS sb) :=
  (executes_getS h (k := 3) (by decide) (List.mem_singleton.2 rfl)).trans ((getS_putS ..).trans (if_pos rfl))

theorem executes_movi {sd : BitVec 5} {imm : BitVec 16} (h : executes s g (inD m (.movi sd imm)) = true) :
    ((runBundle s g (inD m (.movi sd imm))).core g).r.getS sd = imm.signExtend 32 :=
  (executes_getS h (k := 3) (by decide) (List.mem_singleton.2 rfl)).trans ((getS_putS ..).trans (if_pos rfl))

theorem bits_low5 (x : Word) : bits x.toNat 0 5 = x.toNat % 32 := by
  simp [bits]

/-! ### Address-register operations (R509) -/

theorem executes_addaN {an nm : BitVec 4} (h : executes s g (inLs m sl (.addaN an nm)) = true) :
    ((runBundle s g (inLs m sl (.addaN an nm))).core g).r.getA an = (s.core g).r.getA an + (s.core g).r.getN nm :=
  (executes_inLs_getA h (List.mem_singleton.2 rfl)).trans ((getA_putA ..).trans (if_pos rfl))

theorem executes_addaI {an : BitVec 4} {imm : BitVec 13} (h : executes s g (inLs m sl (.addaI an imm)) = true) :
    ((runBundle s g (inLs m sl (.addaI an imm))).core g).r.getA an = (s.core g).r.getA an + BitVec.ofInt 32 (imm.toInt * 4) :=
  (executes_inLs_getA h (List.mem_singleton.2 rfl)).trans ((getA_putA ..).trans (if_pos rfl))

theorem executes_mova {an : BitVec 4} {sa : BitVec 5} (h : executes s g (inLs m sl (.mova an sa)) = true) :
    ((runBundle s g (inLs m sl (.mova an sa))).core g).r.getA an = (s.core g).r.getS sa :=
  (executes_inLs_getA h (List.mem_singleton.2 rfl)).trans ((getA_putA ..).trans (if_pos rfl))

theorem executes_movn {nm : BitVec 4} {sa : BitVec 5} (h : executes s g (inLs m sl (.movn nm sa)) = true) :
    ((runBundle s g (inLs m sl (.movn nm sa))).core g).r.getN nm = (s.core g).r.getS sa :=
  (executes_inLs_getN h (List.mem_singleton.2 rfl)).trans ((getN_putN ..).trans (if_pos rfl))

theorem executes_movas {sd : BitVec 5} {an : BitVec 4} (h : executes s g (inLs m sl (.movas sd an)) = true) :
    ((runBundle s g (inLs m sl (.movas sd an))).core g).r.getS sd = (s.core g).r.getA an :=
  (executes_inLs_getS h (List.mem_singleton.2 rfl)).trans ((getS_putS ..).trans (if_pos rfl))

/-- Settles O1: each operation writes its destination in its own slot, with the operands of before the bundle. -/
theorem scalarAndAddressOperations : Obligations.ScalarAndAddressOperations := by
  refine ⟨fun s g sd sa sb imm m => ?scalar, fun s g sl an nm imm sa sd m => ?address⟩
  case scalar =>
    simp only [← bits_low5]
    have gives (k : AluKind) (h : executes s g (inD m (.alu k sd sa sb)) = true) :
        Does s g (inD m (.alu k sd sa sb)) (.next (runBundle s g (inD m (.alu k sd sa sb))))
          (fun t => (t.core g).r.getS sd = aluOp k ((s.core g).r.getS sa) ((s.core g).r.getS sb)) :=
      does_of h (executes_alu h)
    exact ⟨gives .add, gives .sub, gives .and, gives .or, gives .xor, gives .shl, gives .shr, gives .sar, gives .mul, gives .cmplt,
      gives .cmpeq, fun h => does_of h (executes_movi h)⟩
  case address =>
    exact ⟨fun h => does_of h (executes_addaN h), fun h => does_of h (executes_addaI h), fun h => does_of h (executes_mova h),
      fun h => does_of h (executes_movn h), fun h => does_of h (executes_movas h)⟩

/-! ### The address and its base register (R70) -/

theorem effAddr_eq_addrOf {a : MemArgs} (r : CoreRegs) (ho : memArgs o = some a) : effAddr r o = some (addrOf r a (accSize o)) := by
  obtain ⟨d, an, mode⟩ := a
  cases o <;> simp only [memArgs, Option.some.injEq, reduceCtorEq] at ho
  all_goals
    subst ho
    cases mode <;> rfl

theorem postMod_of_memArgs {a : MemArgs} (r : CoreRegs) (ho : memArgs o = some a) : postMod r o =
    match a.mode with
    | .off _ => none
    | .postN n => some (a.an, r.getA a.an + r.getN n)
    | .postI i => some (a.an, r.getA a.an + immOff i (accSize o)) := by
  cases o <;> simp only [memArgs, Option.some.injEq, reduceCtorEq] at ho <;> subst ho <;> rfl

theorem mem_opWrites_of_postWrites {a : MemArgs} {x : RegName} (ho : memArgs o = some a) (hx : x ∈ postWrites a.an a.mode) : x ∈ opWrites o := by
  cases o <;> simp only [memArgs, Option.some.injEq, reduceCtorEq] at ho <;> subst ho <;>
    first | exact hx | exact List.mem_cons_of_mem _ hx

/-- A load or store changes address registers by its post-modification only. -/
theorem opEff_a_of_memArgs {a : MemArgs} (ho : memArgs o = some a) (old : Core) (got : Got) (q : List Byte) (e : Eff) :
    (opEff old got q o e).c.r.a = (effPost old o { e with flags := e.flags ||| got.flags }).c.r.a := by
  cases o <;> simp only [memArgs, reduceCtorEq] at ho <;> rfl

theorem executes_getA_of_postMod {a : MemArgs} {w : Word} (h : executes s g (inLs m sl o) = true) (ho : memArgs o = some a)
    (hw : RegName.a a.an ∈ postWrites a.an a.mode) (hp : postMod (s.core g).r o = some (a.an, w)) :
    ((runBundle s g (inLs m sl o)).core g).r.getA a.an = w := by
  rw [executes_inLs_getA h (mem_opWrites_of_postWrites ho hw), CoreRegs.getA, opEff_a_of_memArgs ho, effPost,
    show postMod (heldCore s g (inLs m sl o)).r o = some (a.an, w) from hp]
  exact (getA_putA ..).trans (if_pos rfl)

/-- The base register behind the bundle. -/
theorem executes_baseMoved {a : MemArgs} (h : executes s g (inLs m sl o) = true) (ho : memArgs o = some a) :
    baseMoved (s.core g).r a (accSize o) ((runBundle s g (inLs m sl o)).core g).r := by
  have hp := postMod_of_memArgs (s.core g).r ho
  have hg (w : Word) := executes_getA_of_postMod (w := w) h ho
  obtain ⟨d, an, mode⟩ := a
  cases mode with
  | off i => trivial
  | postN n => exact hg _ (List.mem_singleton.2 rfl) hp
  | postI i => exact hg _ (List.mem_singleton.2 rfl) hp

/-! ### Loads (R45, R49, R71) -/

/-- The data registers of the loads. -/
def isLoad : Op → Bool
  | .ldh _ | .ldw _ | .vld _ | .vldu _ => true
  | _ => false

theorem accSize_le (o : Op) : accSize o ≤ 64 := by
  unfold accSize
  split <;> decide

/-- What a load reads are the bytes at its address. -/
theorem gotNat_inLs_load {a : MemArgs} (h : executes s g (inLs m sl o) = true) (ho : memArgs o = some a) (hl : isLoad o = true) :
    gotNat (gotAt s g (inLs m sl o) (slotNum sl)) = loaded s g (addrOf (s.core g).r a (accSize o)) (accSize o) := by
  refine gotNat_load (executes_ready h) (slotNum_mem sl) (accSize_le o) ?_
  have ha := effAddr_eq_addrOf (s.core g).r ho
  rw [slotOp_inLs]
  cases o <;> simp only [isLoad, Bool.false_eq_true] at hl <;> simp only [opReads, ha]

theorem executes_ldh {a : MemArgs} (h : executes s g (inLs m sl (.ldh a)) = true) :
    ((runBundle s g (inLs m sl (.ldh a))).core g).r.getS a.d =
      (BitVec.ofNat 16 (loaded s g (addrOf (s.core g).r a 2) 2)).signExtend 32 := by
  rw [executes_inLs_getS h List.mem_cons_self, opEff, gotNat_inLs_load h rfl rfl]
  exact (getS_putS ..).trans (if_pos rfl)

theorem executes_ldw {a : MemArgs} (h : executes s g (inLs m sl (.ldw a)) = true) :
    ((runBundle s g (inLs m sl (.ldw a))).core g).r.getS a.d = BitVec.ofNat 32 (loaded s g (addrOf (s.core g).r a 4) 4) := by
  rw [executes_inLs_getS h List.mem_cons_self, opEff, gotNat_inLs_load h rfl rfl]
  exact (getS_putS ..).trans (if_pos rfl)

theorem executes_vld {a : MemArgs} (h : executes s g (inLs m sl (.vld a)) = true) :
    ((runBundle s g (inLs m sl (.vld a))).core g).r.getV a.d = BitVec.ofNat 512 (loaded s g (addrOf (s.core g).r a 64) 64) := by
  rw [executes_inLs_getV h List.mem_cons_self, opEff, gotNat_inLs_load h rfl rfl]
  exact (getV_putV ..).trans (if_pos rfl)

theorem executes_vldu {a : MemArgs} (h : executes s g (inLs m sl (.vldu a)) = true) :
    ((runBundle s g (inLs m sl (.vldu a))).core g).r.getV a.d = BitVec.ofNat 512 (loaded s g (addrOf (s.core g).r a 64) 64) := by
  rw [executes_inLs_getV h List.mem_cons_self, opEff, gotNat_inLs_load h rfl rfl]
  exact (getV_putV ..).trans (if_pos rfl)

/-- Settles O2: a load's register by the bytes at its address, its base by `executes_baseMoved`. -/
theorem loadsFromOwnMemory : Obligations.LoadsFromOwnMemory := fun _ _ _ _ _ =>
  ⟨fun h => does_of h ⟨executes_ldh h, executes_baseMoved h rfl⟩, fun h => does_of h ⟨executes_ldw h, executes_baseMoved h rfl⟩,
    fun h => does_of h ⟨executes_vld h, executes_baseMoved h rfl⟩, fun h => does_of h ⟨executes_vldu h, executes_baseMoved h rfl⟩⟩

/-! ### Stores (R13, R70, R71) -/

/-- Where no other slot stores, the stores of the bundle are those of its operation in slot A or B. -/
theorem bundleStores_inLs (h : bundleStores s g (inLs m sl .nop) = []) (o : Op) :
    bundleStores s g (inLs m sl o) = (opStores (s.core g) o).map (fun p => (ownAddr s g p.1, p.2)) := by
  cases sl <;>
    (simp only [bundleStores, inLs, opStores, List.map_eq_nil_iff, List.append_eq_nil_iff] at h ⊢
     simp only [h, List.nil_append, List.append_nil])

/-- A store of n bytes of v leaves them at its address. -/
theorem executes_store {a : MemArgs} {v : Nat} (hn : bundleStores s g (inLs m sl .nop) = []) (h : executes s g (inLs m sl o) = true)
    (hs : opStores (s.core g) o = [(addrOf (s.core g).r a (accSize o), bytesOfNat (accSize o) v)]) :
    bytesAre s (runBundle s g (inLs m sl o)) g (addrOf (s.core g).r a (accSize o)) (accSize o) v := by
  refine executes_stored h _ _ v ?_
  rw [bundleStores_inLs hn, hs]
  rfl

/-- Settles O3: the bundle's only store is that of its operation. -/
theorem storesToOwnMemory : Obligations.StoresToOwnMemory := by
  intro s g sl a m hn
  have haddr (o : Op) (ho : memArgs o = some a) := effAddr_eq_addrOf (s.core g).r ho
  refine ⟨fun h => does_of h ⟨executes_store hn h ?_, executes_baseMoved h rfl⟩,
    fun h => does_of h ⟨executes_store hn h ?_, executes_baseMoved h rfl⟩,
    fun h => does_of h ⟨executes_store hn h ?_, executes_baseMoved h rfl⟩⟩
  · simp only [opStores, haddr (.sth a) rfl, accSize]
  · simp only [opStores, haddr (.stw a) rfl, accSize]
  · simp only [opStores, haddr (.vst a) rfl, accSize]

end Sys2Proof.Machine
end

section
/-! Vector operations of a bundle that executes (R66). -/

namespace Sys2Proof.Machine

variable {s : State} {g : CoreId} {m : Bundle} {o : Op}

/-! ### Lanes that are limited -/

theorem sat16_fst (x : Int) : (sat16 x).1 = clamp16 x := sat16_value x

theorem sat16_snd (x : Int) : (sat16 x).2 = decide (clamp16 x ≠ x) := sat16_mark x

theorem sat16_of_range {x : Int} (h : -32768 ≤ x ∧ x ≤ 32767) : sat16 x = (x, false) := by
  simp (disch := omega) only [sat16, if_neg]

theorem laneMap_lane (f : Nat → Int) {i : Nat} (h : i < 32) : lane (laneMap (fun i => sat16 (f i))).1 i = clamp16 (f i) :=
  lane_laneMap f i h

theorem laneMap_mark (f : Nat → Int) :
    (laneMap (fun i => sat16 (f i))).2 = (List.range 32).any (fun i => decide (clamp16 (f i) ≠ f i)) := by
  simp only [laneMap, sat16_snd]

/-- VCONJ limits the imaginary parts; the real parts are in range as they are. -/
theorem vconjOp_eq (a : BitVec 512) : vconjOp a = laneMap (fun i => sat16 (if i % 2 = 0 then lane a i else -lane a i)) := by
  unfold vconjOp
  congr 1
  funext i
  split
  · rw [sat16_of_range (lane_range a i)]
  · rfl

/-! ### The vector result and QSAT -/

/-- An operation of slot C whose result is the vector x.1, limited where x.2 says so. -/
def givesVec (o : Op) (vd : BitVec 5) (x : CoreRegs → BitVec 512 × Bool) : Prop :=
  opWrites o = [.v vd] ∧ ∀ (old : Core) (got : Got) (q : List Byte) (e : Eff),
    opEff old got q o e = Eff.vec { e with flags := e.flags ||| got.flags } vd (x old.r)

variable {vd : BitVec 5} {x : CoreRegs → BitVec 512 × Bool}

theorem executes_vec (ho : givesVec o vd x) (h : executes s g (inC m o) = true) :
    ((runBundle s g (inC m o)).core g).r.getV vd = (x (s.core g).r).1 := by
  rw [executes_getV h (k := 2) (by decide) (by rw [show slotOp (inC m o) 2 = o from rfl, ho.1]; exact List.mem_singleton.2 rfl),
    slotEff, show slotOp (inC m o) 2 = o from rfl, ho.2]
  exact (getV_putV ..).trans (if_pos rfl)

theorem noScaledStore_iff : noScaledStore m = true ↔ touchesAcst m.a = false ∧ touchesAcst m.b = false := by
  simp [noScaledStore]

theorem executes_vec_acst (ho : givesVec o vd x) (h : executes s g (inC m o) = true) (hd : touchesCtl m.d = false)
    (hs : noScaledStore m = true) : acstBit s (runBundle s g (inC m o)) g 8 false (x (s.core g).r).2 := by
  obtain ⟨ha, hb⟩ := noScaledStore_iff.1 hs
  have he : slotEff s g (inC m o) 2 (effStart s g (inC m o)) = _ := ho.2 _ _ _ _
  refine executes_acst h hd ha hb 8 (by decide) false _ ?_ ?_
  · rw [he]
    rfl
  · rw [he]
    show BitVec.ofNat 9 (0 + if (false || (x (s.core g).r).2) = true then 256 else 0) = _
    cases (x (s.core g).r).2 <;> decide

/-- The value and the mark of a vector operation. -/
theorem does_vec (ho : givesVec o vd x) (h : executes s g (inC m o) = true) :
    Does s g (inC m o) (.next (runBundle s g (inC m o))) (fun t => (t.core g).r.getV vd = (x (s.core g).r).1 ∧
      (touchesCtl m.d = false → noScaledStore m = true → acstBit s t g 8 false (x (s.core g).r).2)) :=
  does_of h ⟨executes_vec ho h, executes_vec_acst ho h⟩

theorem Does.imp {b : Bundle} {r : Host.Outcome State Fault Refusal} {P Q : State → Prop} (h : Does s g b r P) (hPQ : ∀ t, P t → Q t) :
    Does s g b r Q := by
  obtain ⟨t, ht, hf, hp⟩ := h
  exact ⟨t, ht, hf, hPQ t hp⟩

/-- A limited lane-wise operation. -/
theorem does_limited {f : CoreRegs → Nat → Int} (ho : givesVec o vd (fun r => laneMap (fun i => sat16 (f r i))))
    (h : executes s g (inC m o) = true) :
    Does s g (inC m o) (.next (runBundle s g (inC m o))) (fun t =>
      (∀ i < 32, lane ((t.core g).r.getV vd) i = clamp16 (f (s.core g).r i)) ∧
      (touchesCtl m.d = false → noScaledStore m = true →
        acstBit s t g 8 false ((List.range 32).any (fun i => decide (clamp16 (f (s.core g).r i) ≠ f (s.core g).r i))))) := by
  refine (does_vec ho h).imp fun t ⟨hv, hq⟩ => ⟨fun i hi => ?_, ?_⟩
  · rw [hv, laneMap_lane _ hi]
  · rwa [laneMap_mark] at hq

/-- A lane-wise operation that limits nothing. -/
theorem does_plain {f : CoreRegs → Nat → Int} (ho : givesVec o vd (fun r => (mkLanes (f r), false))) (h : executes s g (inC m o) = true) :
    Does s g (inC m o) (.next (runBundle s g (inC m o))) (fun t =>
      (∀ i < 32, lane ((t.core g).r.getV vd) i = (BitVec.ofInt 16 (f (s.core g).r i)).toInt) ∧
      (touchesCtl m.d = false → noScaledStore m = true → acstBit s t g 8 false false)) := by
  refine (does_vec ho h).imp fun t ⟨hv, hq⟩ => ⟨fun i hi => ?_, hq⟩
  rw [hv, lane_mkLanes _ _ hi]

/-- Settles O6: every vector operation gives a vector and a saturation mark (`givesVec`), read lane by lane. -/
theorem vectorOperations : Obligations.VectorOperations := by
  intro s g vd va vb imm n m
  have conj : givesVec (.vconj vd va) vd
      (fun r => laneMap (fun i => sat16 (if i % 2 = 0 then lane (r.getV va) i else -lane (r.getV va) i))) := by
    simp only [← vconjOp_eq]
    exact ⟨rfl, fun _ _ _ _ => rfl⟩
  exact ⟨does_limited (f := fun r i => lane (r.getV va) i + lane (r.getV vb) i) ⟨rfl, fun _ _ _ _ => rfl⟩,
    does_limited (f := fun r i => lane (r.getV va) i - lane (r.getV vb) i) ⟨rfl, fun _ _ _ _ => rfl⟩,
    does_limited (f := fun r i => -lane (r.getV va) i) ⟨rfl, fun _ _ _ _ => rfl⟩,
    does_limited conj,
    does_plain (f := fun r i => lane (r.getV va) i + lane (r.getV vb) i) ⟨rfl, fun _ _ _ _ => rfl⟩,
    does_plain (f := fun r i => lane (r.getV va) i - lane (r.getV vb) i) ⟨rfl, fun _ _ _ _ => rfl⟩,
    does_plain (f := fun r i => rnd (lane (r.getV va) i) imm.toNat) ⟨rfl, fun _ _ _ _ => rfl⟩,
    does_plain (f := fun r i => lane (r.getV va) (2 * n.toNat + i % 2)) ⟨rfl, fun _ _ _ _ => rfl⟩,
    does_vec (x := fun r => (r.getV va, false)) ⟨rfl, fun _ _ _ _ => rfl⟩,
    does_vec (x := fun r => (r.getV va &&& r.getV vb, false)) ⟨rfl, fun _ _ _ _ => rfl⟩,
    does_vec (x := fun r => (r.getV va ||| r.getV vb, false)) ⟨rfl, fun _ _ _ _ => rfl⟩,
    does_vec (x := fun r => (r.getV va ^^^ r.getV vb, false)) ⟨rfl, fun _ _ _ _ => rfl⟩⟩

end Sys2Proof.Machine
end

section
/-! Where execution goes on behind a bundle (R67 to R69, R77, R81, R83), privilege violations (R76, R79) and CORE_CTL (R84, R85). -/

namespace Sys2Proof.Machine

variable {s t : State} {g : CoreId} {b m : Bundle}

/-! ### The core before the flow -/

/-- Without MTC the effects of the slots leave pc and loops. -/
theorem effCore_pc_loops (r : Ready s g b) (h : isMtc b.d = false) :
    (effCore (bundleEff s g b)).pc = (s.core g).pc ∧ (effCore (bundleEff s g b)).loops = (s.core g).loops := by
  obtain ⟨x, hx, -⟩ := bundleEff_only r h
  have hc : (effCore (bundleEff s g b)).pc = (bundleEff s g b).c.pc ∧ (effCore (bundleEff s g b)).loops = (bundleEff s g b).c.loops := ⟨rfl, rfl⟩
  rw [hc.1, hc.2, hx]
  exact ⟨rfl, rfl⟩

/-- Where the core goes on behind a bundle whose slot D is no MTC and no coprocessor operation. -/
theorem executes_flow (h : executes s g b = true) (hcp : ∀ sl op f, b.d ≠ .cp sl op f) (hw : b.d ≠ .wait) :
    ((runBundle s g b).core g).pc = (flow (heldCore s g b) (effCore (bundleEff s g b)) b.d).pc ∧
      ((runBundle s g b).core g).loops = (flow (heldCore s g b) (effCore (bundleEff s g b)) b.d).loops := by
  rw [executes_core h hw, afterCore_plain hcp]
  exact ⟨rfl, rfl⟩

theorem fallThrough_congr {c d : Core} (hp : c.pc = d.pc) (hl : c.loops = d.loops) :
    (fallThrough c).pc = (fallThrough d).pc ∧ (fallThrough c).loops = (fallThrough d).loops := by
  unfold fallThrough
  rw [hp, hl]
  exact ⟨rfl, rfl⟩

/-! ### Branches (R69, R83) -/

/-- The core goes on at a, with the loop levels that hold it. -/
def branchedTo (c : Core) (a : BitVec 16) (d : Core) : Prop :=
  d.pc = a ∧ d.loops = { c.loops with depth := BitVec.ofNat 3 (depthFor c.loops a 4 0) }

theorem flow_of_taken {old c : Core} {o : Op} {a : BitVec 16} (h : branchTo old o = some a) :
    flow old c o = { c with pc := a, loops := { c.loops with depth := BitVec.ofNat 3 (depthFor c.loops a 4 0) } } := by
  unfold flow
  rw [h]

theorem flow_br_of_not_taken {old c : Core} {k : BrCond} {hint : Bool} {sa : BitVec 5} {off : BitVec 16}
    (h : branchTo old (.br k hint sa off) = none) : flow old c (.br k hint sa off) = fallThrough c := by
  unfold flow
  rw [h]

theorem executes_taken {a : BitVec 16} (h : executes s g b = true) (ht : branchTo (heldCore s g b) b.d = some a) :
    branchedTo (s.core g) a ((runBundle s g b).core g) := by
  have hno (o : Op) (ho : branchTo (heldCore s g b) o = none) : b.d ≠ o := by
    rintro hd
    rw [hd, ho] at ht
    cases ht
  have hm : isMtc b.d = false := by
    cases hd : b.d with
    | mtc sa cr => exact absurd hd (hno _ rfl)
    | _ => rfl
  obtain ⟨-, hl⟩ := effCore_pc_loops (executes_ready h) hm
  obtain ⟨h1, h2⟩ := executes_flow h (fun _ _ _ => hno _ rfl) (hno _ rfl)
  rw [branchedTo, h1, h2, flow_of_taken ht]
  exact ⟨rfl, by rw [hl]⟩

theorem branchTo_br_of_holds {c : Core} {k : BrCond} {hint : Bool} {sa : BitVec 5} {off : BitVec 16} (h : brHolds c k sa) :
    branchTo c (.br k hint sa off) = some (c.pc + 16 * off) := by
  cases k <;> simp_all [branchTo, brHolds]

theorem branchTo_br_of_not_holds {c : Core} {k : BrCond} {hint : Bool} {sa : BitVec 5} {off : BitVec 16} (h : ¬brHolds c k sa) :
    branchTo c (.br k hint sa off) = none := by
  cases k <;> simp_all [branchTo, brHolds]

/-- A branch whose condition fails goes on by the loop test. -/
theorem executes_not_taken {k : BrCond} {hint : Bool} {sa : BitVec 5} {off : BitVec 16} (h : executes s g (inD m (.br k hint sa off)) = true)
    (hk : ¬brHolds (s.core g) k sa) :
    ((runBundle s g (inD m (.br k hint sa off))).core g).pc = (fallThrough (s.core g)).pc ∧
      ((runBundle s g (inD m (.br k hint sa off))).core g).loops = (fallThrough (s.core g)).loops := by
  obtain ⟨hp, hl⟩ := effCore_pc_loops (executes_ready h) rfl
  obtain ⟨h1, h2⟩ := executes_flow h nofun nofun
  have hb : branchTo (heldCore s g (inD m (.br k hint sa off))) (.br k hint sa off) = none :=
    branchTo_br_of_not_holds (c := heldCore s g (inD m (.br k hint sa off))) hk
  rw [h1, h2, show (inD m (.br k hint sa off)).d = .br k hint sa off from rfl, flow_br_of_not_taken hb]
  exact fallThrough_congr hp hl

theorem executes_call {off : BitVec 16} (h : executes s g (inD m (.call off)) = true) :
    ((runBundle s g (inD m (.call off))).core g).r.getS 31 = ((s.core g).pc + 16).setWidth 32 :=
  (executes_getS h (k := 3) (by decide) (List.mem_singleton.2 rfl)).trans ((getS_putS ..).trans (if_pos rfl))

/-- Settles O7: taken branches by `executes_taken`, a failed condition by `executes_not_taken`. -/
theorem branchesAndCalls : Obligations.BranchesAndCalls := by
  intro s g m k hint sa off
  exact ⟨fun h => does_of h ⟨fun hk => executes_taken h (branchTo_br_of_holds (c := heldCore s g _) hk), executes_not_taken h⟩,
    fun h => does_of h (executes_taken h rfl), fun h => does_of h ⟨executes_taken h rfl, executes_call h⟩,
    fun h => does_of h (executes_taken h rfl)⟩

/-! ### Loops (R67, R68) -/

theorem slotDFind_of_ready (r : Ready s g b) : slotDFind (s.core g) b = .fine := by
  have h := r.fine
  unfold undefFind at h
  dsimp only at h
  split at h
  · cases h
  · exact h

theorem openLoop_of_depth {l : Loops} {pc n e : BitVec 16} (h : l.depth.toNat < 4) : openLoop l pc n e =
    { depth := l.depth + 1, lc := sput 0 l.lc l.depth.toNat n, lb := sput 0 l.lb l.depth.toNat (pc + 16), le := sput 0 l.le l.depth.toNat e } :=
  if_neg (by omega)

/-- A LOOP or LOOPS that is not undefined finds a free level. -/
theorem depth_of_fine {c : Core} (h : (if 4 ≤ c.loops.depth.toNat then DFind.undef 1 else .fine) = .fine) : c.loops.depth.toNat < 4 := by
  refine Decidable.byContradiction fun hd => ?_
  rw [if_pos (by omega)] at h
  cases h

/-- The core behind the opening of a loop of n rounds that ends at e. -/
def loopOpened (c : Core) (n e : BitVec 16) : Core :=
  fallThrough { c with loops := { depth := c.loops.depth + 1, lc := sput 0 c.loops.lc c.loops.depth.toNat n,
                                  lb := sput 0 c.loops.lb c.loops.depth.toNat (c.pc + 16), le := sput 0 c.loops.le c.loops.depth.toNat e } }

theorem fallThrough_openLoop {c d : Core} {n : BitVec 16} {fin : BitVec 13} (hd : d.loops.depth.toNat < 4) (hp : c.pc = d.pc)
    (hl : c.loops = d.loops) :
    (fallThrough { c with loops := openLoop c.loops c.pc n (loopEnd c.pc fin) }).pc = (loopOpened d n (loopEnd d.pc fin)).pc ∧
      (fallThrough { c with loops := openLoop c.loops c.pc n (loopEnd c.pc fin) }).loops = (loopOpened d n (loopEnd d.pc fin)).loops := by
  rw [hp, hl, openLoop_of_depth hd]
  exact fallThrough_congr rfl rfl

theorem executes_loop {count : BitVec 12} {fin : BitVec 13} (h : executes s g (inD m (.loop count fin)) = true) :
    ((runBundle s g (inD m (.loop count fin))).core g).pc =
        (loopOpened (s.core g) (count.setWidth 16) (loopEnd (s.core g).pc fin)).pc ∧
      ((runBundle s g (inD m (.loop count fin))).core g).loops =
        (loopOpened (s.core g) (count.setWidth 16) (loopEnd (s.core g).pc fin)).loops := by
  obtain ⟨hp, hl⟩ := effCore_pc_loops (executes_ready h) rfl
  obtain ⟨h1, h2⟩ := executes_flow h nofun nofun
  rw [h1, h2]
  exact fallThrough_openLoop (depth_of_fine (slotDFind_of_ready (executes_ready h))) hp hl

theorem executes_loops {sa : BitVec 5} {fin : BitVec 13} (h : executes s g (inD m (.loops sa fin)) = true)
    (hn : (slice ((s.core g).r.getS sa) 0 16 : BitVec 16) ≠ 0) :
    ((runBundle s g (inD m (.loops sa fin))).core g).pc =
        (loopOpened (s.core g) (slice ((s.core g).r.getS sa) 0 16) (loopEnd (s.core g).pc fin)).pc ∧
      ((runBundle s g (inD m (.loops sa fin))).core g).loops =
        (loopOpened (s.core g) (slice ((s.core g).r.getS sa) 0 16) (loopEnd (s.core g).pc fin)).loops := by
  obtain ⟨hp, hl⟩ := effCore_pc_loops (executes_ready h) rfl
  obtain ⟨h1, h2⟩ := executes_flow h nofun nofun
  have hf : flow (heldCore s g (inD m (.loops sa fin))) (effCore (bundleEff s g (inD m (.loops sa fin)))) (.loops sa fin) = _ := if_neg hn
  rw [h1, h2, show (inD m (.loops sa fin)).d = .loops sa fin from rfl, hf]
  exact fallThrough_openLoop (depth_of_fine (slotDFind_of_ready (executes_ready h))) hp hl

theorem executes_loops_zero {sa : BitVec 5} {fin : BitVec 13} (h : executes s g (inD m (.loops sa fin)) = true)
    (hn : (slice ((s.core g).r.getS sa) 0 16 : BitVec 16) = 0) :
    ((runBundle s g (inD m (.loops sa fin))).core g).pc = loopEnd (s.core g).pc fin + 16 ∧
      ((runBundle s g (inD m (.loops sa fin))).core g).loops = (s.core g).loops := by
  obtain ⟨hp, hl⟩ := effCore_pc_loops (executes_ready h) rfl
  obtain ⟨h1, h2⟩ := executes_flow h nofun nofun
  have hf : flow (heldCore s g (inD m (.loops sa fin))) (effCore (bundleEff s g (inD m (.loops sa fin)))) (.loops sa fin) = _ := if_pos hn
  rw [h1, h2, show (inD m (.loops sa fin)).d = .loops sa fin from rfl, hf]
  exact ⟨by rw [← hp], hl⟩

/-- Settles O8: a level is free since the bundle is not undefined, and the loop test follows. -/
theorem hardwareLoops : Obligations.HardwareLoops := by
  intro s g m count fin sa
  refine ⟨fun h => does_of h (executes_loop h), fun h => does_of h ?_⟩
  split
  next hn => exact executes_loops_zero h hn
  next hn => exact executes_loops h hn

/-! ### RTI, WAIT and FENCE (R77, R81) -/

/-- A bundle whose slots mark no sticky bit, shift no block exponent and write no control register changes data registers only. -/
theorem effCore_of_noMarks (r : Ready s g b) (h : isMtc b.d = false) (hn : noMarks b = true) :
    RegsOnly (heldCore s g b) (effCore (bundleEff s g b)) := by
  obtain ⟨x, hx, hscf⟩ := bundleEff_only r h
  simp only [noMarks, Bool.and_eq_true, Bool.not_eq_true'] at hn
  obtain ⟨⟨ha, hb⟩, hc⟩ := hn
  have hd := (slotD_marks (noConflict_of r).2.2.2.1).1
  have hacst : (bundleOps b).any touchesAcst = false := by simp [bundleOps, ha, hb, hc, hd]
  have hauto : (bundleOps b).any (usesAuto (s.core g).r.scf) = false := by
    simp [bundleOps, usesAuto_touches _ ha, usesAuto_touches _ hb, usesAuto_touches _ hc, usesAuto_touches _ hd]
  obtain ⟨hset, hclr, hq⟩ := bundleEff_acst (s := s) (g := g) hacst
  refine ⟨x, ?_, hscf⟩
  unfold effCore
  dsimp only
  rw [hset, hclr, hq, bundleEff_auto hauto, bundleEff_flags, hx]
  have hflags (w : Word) : w ||| 0 = w := BitVec.or_zero
  simp only [heldCore, hflags, Bool.false_eq_true, if_false, Nat.add_zero, BitVec.or_zero, BitVec.not_zero, BitVec.and_allOnes]

/-- The trap registers of the level that RTI returns from. -/
theorem trapSet_priv (c : Core) : c.trapSet c.c.priv.toNat = if c.c.priv = 0 then c.t0 else c.t1 := by
  simp only [Core.trapSet, ← BitVec.toNat_inj]
  rfl

theorem executes_rti (h : executes s g (inD m .rti) = true) (hn : noMarks m = true) :
    let c := s.core g
    let d := (runBundle s g (inD m .rti)).core g
    let lv := c.trapSet c.c.priv.toNat
    d.pc = lv.epc &&& 0xFFF0 ∧ d.loops = lv.lsh ∧ d.c = { c.c with priv := slice lv.estat 0 2, ie := lv.estat.getLsbD 2 } ∧
      d.r.scf = c.r.scf ∧ d.t0 = c.t0 ∧ d.t1 = c.t1 ∧ portSame c d false ∧ portSame c d true := by
  obtain ⟨x, hx, hscf⟩ := effCore_of_noMarks (executes_ready h) rfl hn
  intro c d lv
  have hd : d = { rtiCore (effCore (bundleEff s g (inD m .rti))) with held := none, st := .running } := by
    show (runBundle s g (inD m .rti)).core g = _
    rw [executes_core h nofun, afterCore_plain (b := inD m .rti) nofun]
    rfl
  rw [hx] at hd
  rw [hd]
  exact ⟨rfl, rfl, rfl, hscf, rfl, rfl, ⟨rfl, rfl⟩, ⟨rfl, rfl⟩⟩

/-- Which interrupt is chosen depends on a core's own registers and its slice. -/
theorem intChoice_congr (hs : t.slices = s.slices) (hc : (t.core g).c = { (s.core g).c with acst := (t.core g).c.acst })
    (h0 : (t.core g).cp0 = (s.core g).cp0) (h1 : (t.core g).cp1 = (s.core g).cp1) : intChoice t g = intChoice s g := by
  have hi : (t.core g).c.imask = (s.core g).c.imask := by rw [hc]
  have hf : (t.core g).c.stfault = (s.core g).c.stfault := by rw [hc]
  have ho : (t.core g).c.stOutc = (s.core g).c.stOutc := by rw [hc]
  have hp : (t.core g).c.timerPend = (s.core g).c.timerPend := by rw [hc]
  simp only [intChoice, intPending, faultTval, State.slice, hs, h0, h1, hi, hf, ho, hp]

theorem executes_wait (h : executes s g (inD m .wait) = true) :
    ((runBundle s g (inD m .wait)).core g).st = if (intChoice s g).isNone then .wait else .running := by
  have hf := executes_frame h
  have hr := runBundle_committed h
  obtain ⟨-, -, h0, h1⟩ := hf.cps rfl
  have hs : (runBundle s g (inD m .wait)).slices = s.slices := by rw [hf.rest]
  have hi := intChoice_congr hs (hf.ctl rfl) h0 h1
  rw [← hi]
  split
  next hnone => exact hr.woken rfl hnone
  next hsome =>
    obtain hc | ⟨-, hnone, -⟩ := hr.core
    · rw [hc]
      rfl
    · exact absurd hnone hsome

/-! ### A bundle comes to its checks at issue (R74, R79) -/

/-- A bundle that can be fetched is issued. -/
theorem runBundle_of_ready {b' : Bundle} (r : Ready s g b') (b : Bundle) : runBundle s g b = issue s g (heldOf s b) := by
  unfold runBundle
  rw [if_pos ⟨r.st, r.held, r.on⟩]
  unfold fetch
  rw [r.imem, if_neg (by simp), parityRead_clean _ r.par r.inj]
  rfl

/-- Slot D with an operation that writes no register and can be in any state is as defined as with NOP there. -/
theorem undefFind_inD {c : Core} {o : Op} (h : (undefFind c (inD m .nop)).1 = .fine) (ho : slotHas 3 o = true) (hr : reservedField o = false)
    (hw : opWrites o = []) (hd : slotDFind c (inD m o) = .fine) : undefFind c (inD m o) = (.fine, opWord o) := by
  unfold undefFind at h ⊢
  dsimp only at h ⊢
  have hbad : ∀ n ∈ List.range 4, (!slotHas n (slotOp (inD m o) n) || reservedField (slotOp (inD m o) n) || writeConflict (inD m o) n) =
      (!slotHas n (slotOp (inD m .nop) n) || reservedField (slotOp (inD m .nop) n) || writeConflict (inD m .nop) n) := by
    intro n hn
    have hn : n = 0 ∨ n = 1 ∨ n = 2 ∨ n = 3 := by
      have := List.mem_range.1 hn
      omega
    obtain rfl | rfl | rfl | rfl := hn
    · rfl
    · rfl
    · rfl
    · show (!slotHas 3 o || reservedField o || writeConflict (inD m o) 3) = false
      rw [ho, hr, writeConflict, show slotOp (inD m o) 3 = o from rfl, hw]
      rfl
  have hfind : (List.range 4).find? (fun n => !slotHas n (slotOp (inD m o) n) || reservedField (slotOp (inD m o) n) || writeConflict (inD m o) n) =
      (List.range 4).find? (fun n => !slotHas n (slotOp (inD m .nop) n) || reservedField (slotOp (inD m .nop) n) || writeConflict (inD m .nop) n) :=
    find?_congr_mem hbad
  rw [hfind]
  split at h
  · cases h
  · rw [hd]
    rfl

/-- FENCE is held in issue while a posted store is open. -/
theorem runBundle_fence_held (h : executes s g (inD m .nop) = true) (hp : (s.core g).c.priv ≠ 2) (ho : postedOpen s g = true) :
    runBundle s g (inD m .fence) = s.setCore g { s.core g with held := some (heldOf s (inD m .fence)) } := by
  have r := executes_ready h
  rw [runBundle_of_ready r, issue]
  dsimp only
  rw [show (heldOf s (inD m .fence)).bundle = inD m .fence from rfl, undefFind_inD r.fine rfl rfl rfl rfl]
  have hpriv : privFind (s.core g) (inD m .fence).d = false := by simpa [privFind, inD] using hp
  simp only [hpriv, Bool.false_eq_true, if_false, ho, and_true]
  rw [if_pos (show (inD m .fence).d = .fence from rfl), stay]
  simp only [heldOf, newHeld, reduceCtorEq, false_and, if_false, if_true]
  rw [← r.st]

/-- Settles O10: RTI by `executes_rti`, WAIT by `executes_wait`, a held FENCE by `runBundle_fence_held`. -/
theorem returnWaitFenceNop : Obligations.ReturnWaitFenceNop := by
  intro s g m
  refine ⟨fun hn h => does_of h ?rti, fun h => does_of h (executes_wait h), fun h => does_of h trivial,
    fun h hp ho => congrArg Host.Outcome.next (runBundle_fence_held h hp ho), fun h => does_of h trivial⟩
  case rti =>
    rw [← trapSet_priv]
    exact executes_rti h hn

/-! ### Traps (R76, R77, R79) -/

theorem pstat_eq (c : Core) : pstat c = BitVec.ofNat 3 (c.c.priv.toNat + if c.c.ie = true then 4 else 0) := by
  unfold pstat b2n
  split <;> rfl

/-- A trap of a core that was not asked to halt enters the handler. -/
theorem trap_entered {cause : Nat} {tval : Word} (h : (s.core g).haltReq = false) : entered s (trap s g cause tval (s.core g).pc) g cause tval := by
  have hc : (trap s g cause tval (s.core g).pc).core g = enterCore (s.core g) cause tval (s.core g).pc := by
    have hb : (enterCore (s.core g) cause tval (s.core g).pc).haltReq = false := by
      unfold enterCore Core.setTrap
      dsimp only
      split <;> exact h
    simp [trap, boundary, hb]
  have ho : ∀ g' : CoreId, g' ≠ g → (trap s g cause tval (s.core g).pc).core g' = s.core g' := by
    intro g' hg
    unfold trap boundary
    dsimp only
    split <;> simp [hg]
  unfold entered
  rw [hc]
  unfold enterCore entryLevel Core.setTrap Core.trapSet
  dsimp only
  by_cases hl : (s.core g).c.deleg.getLsbD cause = true ∧ (s.core g).c.priv ≠ 0
  · rw [if_pos hl, pstat_eq]
    exact ⟨rfl, rfl, rfl, rfl, rfl, rfl, rfl, rfl, rfl, ho⟩
  · rw [if_neg hl, pstat_eq]
    exact ⟨rfl, rfl, rfl, rfl, rfl, rfl, rfl, rfl, rfl, ho⟩

theorem trap_mem (s : State) (g : CoreId) (cause : Nat) (tval : Word) (epc : BitVec 16) : (trap s g cause tval epc).mem = s.mem := by
  unfold trap boundary
  dsimp only
  split <;> rfl

/-- RTI, WAIT and FENCE at P2 trap at issue. -/
theorem runBundle_priv {o : Op} (h : executes s g (inD m .nop) = true) (ho : slotHas 3 o = true) (hr : reservedField o = false)
    (hw : opWrites o = []) (hd : slotDFind (s.core g) (inD m o) = .fine) (hp : privFind (s.core g) o = true) :
    runBundle s g (inD m o) = trap s g 4 (opWord o) (s.core g).pc := by
  have r := executes_ready h
  rw [runBundle_of_ready r, issue, show (heldOf s (inD m o)).bundle = inD m o from rfl, undefFind_inD r.fine ho hr hw hd]
  exact if_pos hp

/-- Settles O15: the privilege check stands before the bundle's accesses and its commit. -/
theorem privilegeViolations : Obligations.PrivilegeViolations := by
  intro s g m h hp
  have hcheck : ((s.core g).c.priv == 2) = true := by rw [hp]; rfl
  have hhalt := (executes_ready h).noHalt
  refine ⟨⟨_, congrArg Host.Outcome.next (runBundle_priv h rfl rfl rfl rfl hcheck), trap_entered hhalt, trap_mem ..⟩,
    ⟨_, congrArg Host.Outcome.next (runBundle_priv h rfl rfl rfl rfl hcheck), trap_entered hhalt, trap_mem ..⟩,
    ⟨_, congrArg Host.Outcome.next (runBundle_priv h rfl rfl rfl rfl hcheck), trap_entered hhalt, trap_mem ..⟩⟩

/-! ### CORE_CTL (R84, R85) -/

/-- Settles O14: each clause is the branch of `coreRunEff`, `coreHaltEff` and `coreSresetEff` that its hypotheses name. -/
theorem coreControl : Obligations.CoreControl := by
  intro s who g ho
  have run : exec (.coreRun who g) s = .next (coreRunEff s g) := congrArg Host.Outcome.next (regCmd_of_open ho _)
  have halt : exec (.coreHalt who g) s = .next (coreHaltEff s g) := congrArg Host.Outcome.next (regCmd_of_open ho _)
  refine ⟨fun hf hst => ?_, fun hf hst => ?_, fun hf => ?_, fun hh hst => ?_, fun hh hst => ?_,
    congrArg Host.Outcome.next (regCmd_of_open ho _)⟩
  · rw [run, coreRunEff, if_neg (by simp [hf]), if_pos hst]
    rfl
  · rw [run, coreRunEff, if_neg (by simp [hf]), if_neg hst]
  · rw [run, coreRunEff, if_pos hf]
  · rw [halt, coreHaltEff, if_neg hst, if_neg (by simp [hh])]
  · rw [halt, coreHaltEff, if_neg hst, if_pos (Option.isSome_iff_ne_none.2 hh)]

end Sys2Proof.Machine
end

section
/-! Coprocessor operations when their bundle commits (R89, R91, R94, R100, R120). -/

namespace Sys2Proof.Machine

variable {s t : State} {g : CoreId} {b m : Bundle} {sl : Bool} {op : BitVec 5} {f : CpFields}

/-! ### Ports and dirty bits -/

@[simp] theorem port_setPort_other (c : Core) (sl : Bool) (p : CpPort) : (c.setPort sl p).port (!sl) = c.port (!sl) := by
  cases sl <;> rfl

@[simp] theorem setPort_cmu (c : Core) (sl : Bool) (p : CpPort) : (c.setPort sl p).cmu = c.cmu := by
  cases sl <;> rfl

@[simp] theorem setPort_sbu (c : Core) (sl : Bool) (p : CpPort) : (c.setPort sl p).sbu = c.sbu := by
  cases sl <;> rfl

@[simp] theorem setDirty_port (c : Core) (sl d sl' : Bool) : (setDirty c sl d).port sl' = c.port sl' := by
  cases sl' <;> rfl

theorem setDirty_false_cpen (c : Core) (sl : Bool) : (setDirty c sl false).c.cpen.getLsbD (8 + b2n sl) = false := by
  cases sl <;> simp [setDirty, b2n]

/-- Counting an operation of a slot leaves the other slot and both units. -/
theorem portSame_setPort (c : Core) (sl : Bool) (p : CpPort) : portSame c (c.setPort sl p) !sl := by
  cases sl <;> exact ⟨rfl, rfl⟩

/-! ### The core behind the bundle -/

theorem newCore_units : (newCore s g b).cmu = (s.core g).cmu ∧ (newCore s g b).sbu = (s.core g).sbu ∧
    ∀ sl, (newCore s g b).port sl = (s.core g).port sl := by
  obtain ⟨-, hcmu, hsbu, h0, h1⟩ := newCore_keeps (s := s) (g := g) (b := b)
  refine ⟨hcmu, hsbu, fun sl => ?_⟩
  cases sl
  · exact h0
  · exact h1

theorem executes_cp (h : executes s g (inD m (.cp sl op f)) = true) : (runBundle s g (inD m (.cp sl op f))).core g =
    cpNext (newCore s g (inD m (.cp sl op f))) (heldCore s g (inD m (.cp sl op f))) sl op f (slotGot s g (inD m (.cp sl op f)) 3) := by
  rw [executes_core h nofun]
  rfl

theorem portSame_of_newCore {d : Core} {sl : Bool} (h : portSame (newCore s g b) d sl) : portSame (s.core g) d sl := by
  obtain ⟨hcmu, hsbu, hport⟩ := newCore_units (s := s) (g := g) (b := b)
  rwa [portSame, hport, hcmu, hsbu] at h

/-- The slot of a unit has counted one operation, and the other unit is as it was. -/
def cpCounted (s t : State) (g : CoreId) (sl : Bool) : Prop :=
  (t.core g).port sl = { (s.core g).port sl with seq := ((s.core g).port sl).seq + 1 } ∧ portSame (s.core g) (t.core g) !sl

section Counted

variable (c old : Core) (got : Got)

/-- CPRD, CPST and CPRDS change no state of the unit. -/
theorem cpNext_read (h : op = 2 ∨ op = 3 ∨ op = 4) :
    cpNext c old sl op f got = c.setPort sl { c.port sl with seq := (c.port sl).seq + 1 } := by
  obtain rfl | rfl | rfl := h <;> rfl

theorem cpNext_save : cpNext c old sl 6 f got = setDirty (c.setPort sl { c.port sl with seq := (c.port sl).seq + 1 }) sl false := rfl

theorem cpNext_restore : cpNext c old sl 7 f got =
    setDirty (if sl then { c.setPort sl { c.port sl with seq := (c.port sl).seq + 1 } with sbu := sbuOfImage (cpData old sl 7 f got) }
      else { c.setPort sl { c.port sl with seq := (c.port sl).seq + 1 } with cmu := cmuOfImage (cpData old sl 7 f got) }) sl false := rfl

theorem cpNext_join (h : op.toNat ∉ [2, 3, 4, 6, 7]) : cpNext c old sl op f got =
    c.setPort sl { c.port sl with seq := (c.port sl).seq + 1, pend := (c.port sl).pend ++ [cpPendOf c old sl op f got] } :=
  if_neg fun hop => h (by simpa using hop)

end Counted

theorem executes_cp_read (h : executes s g (inD m (.cp sl op f)) = true) (hop : op = 2 ∨ op = 3 ∨ op = 4) :
    cpCounted s (runBundle s g (inD m (.cp sl op f))) g sl ∧
      ((runBundle s g (inD m (.cp sl op f))).core g).cmu = (s.core g).cmu ∧
      ((runBundle s g (inD m (.cp sl op f))).core g).sbu = (s.core g).sbu := by
  obtain ⟨hcmu, hsbu, hport⟩ := newCore_units (s := s) (g := g) (b := inD m (.cp sl op f))
  rw [cpCounted, executes_cp h, cpNext_read _ _ _ hop, port_setPort, setPort_cmu, setPort_sbu, hport]
  exact ⟨⟨rfl, portSame_of_newCore (portSame_setPort ..)⟩, hcmu, hsbu⟩

theorem executes_cp_save (h : executes s g (inD m (.cp sl 6 f)) = true) :
    cpCounted s (runBundle s g (inD m (.cp sl 6 f))) g sl ∧
      ((runBundle s g (inD m (.cp sl 6 f))).core g).c.cpen.getLsbD (8 + b2n sl) = false := by
  obtain ⟨-, -, hport⟩ := newCore_units (s := s) (g := g) (b := inD m (.cp sl 6 f))
  rw [cpCounted, executes_cp h, cpNext_save, setDirty_port, port_setPort, hport]
  refine ⟨⟨rfl, portSame_of_newCore (b := inD m (.cp sl 6 f)) ?_⟩, setDirty_false_cpen ..⟩
  cases sl <;> exact ⟨rfl, rfl⟩

theorem executes_cp_restore (h : executes s g (inD m (.cp sl 7 f)) = true) :
    cpCounted s (runBundle s g (inD m (.cp sl 7 f))) g sl ∧
      ((runBundle s g (inD m (.cp sl 7 f))).core g).c.cpen.getLsbD (8 + b2n sl) = false ∧
      (let d := cpData (heldCore s g (inD m (.cp sl 7 f))) sl 7 f (slotGot s g (inD m (.cp sl 7 f)) 3)
       if sl then ((runBundle s g (inD m (.cp sl 7 f))).core g).sbu = sbuOfImage d
       else ((runBundle s g (inD m (.cp sl 7 f))).core g).cmu = cmuOfImage d) := by
  obtain ⟨-, -, hport⟩ := newCore_units (s := s) (g := g) (b := inD m (.cp sl 7 f))
  rw [cpCounted, executes_cp h, cpNext_restore, setDirty_port]
  refine ⟨⟨?_, portSame_of_newCore (b := inD m (.cp sl 7 f)) ?_⟩, setDirty_false_cpen .., ?_⟩
  · rw [← hport]
    cases sl <;> rfl
  · cases sl <;> exact ⟨rfl, rfl⟩
  · cases sl <;> rfl

/-! ### What a coprocessor operation reads -/

/-- Byte o of an aligned block of the cluster. -/
theorem own_byte {blk : Word} {o : Nat} (ha : blk.toNat % 64 = 0) (ho : o < 64) (hown : ownBlock s g blk = true) :
    (match blkAt s g blk with | .own _ pa => pa | _ => 0) + o = ownAddr s g (blk + BitVec.ofNat 32 o) := by
  obtain ⟨hblk, hoff⟩ := ownAddr_first blk o (by omega)
  rw [ha, Nat.sub_zero, BitVec.ofNat_toNat, BitVec.setWidth_eq] at hblk
  rw [ha, Nat.add_zero] at hoff
  exact (ownAddr_eq s g _ blk o ⟨hblk, hoff⟩ hown).symm

/-- What aligned pieces in own memories bring, by core address. -/
theorem pieceBytes_aligned {ps : List ReadPiece}
    (h : ∀ p ∈ ps, p.blk.toNat % 64 = 0 ∧ (∀ o ∈ p.offs, o < 64) ∧ ownBlock s g p.blk = true) :
    pieceBytes s g ps = ps.flatMap (fun p => p.offs.map (fun o => (p.blk.toNat + o, s.byte (ownAddr s g (p.blk + BitVec.ofNat 32 o))))) := by
  refine flatMap_congr_mem fun p hp => List.map_congr_left fun o ho => ?_
  obtain ⟨ha, hoff, hown⟩ := h p hp
  exact congrArg (fun x => (p.blk.toNat + o, s.byte x)) (own_byte ha (hoff o ho) hown)

/-- An address in data memory (R49). -/
theorem ownAddr_dmem {a : Word} (h : a.toNat < 0x20000) : ownAddr s g a = dmemBase g + a.toNat := by
  have hm := mask_toNat a
  have hb : blkAt s g (a &&& 0xFFFFFFC0) = .own (.dmem g) (dmemBase g + a.toNat / 64 * 64) := by
    unfold blkAt coreMap
    simp only [hm]
    rw [if_pos (by omega)]
  unfold ownAddr
  rw [hb]
  show dmemBase g + a.toNat / 64 * 64 + a.toNat % 64 = _
  omega

theorem aligned_of_ready (r : Ready s g b) {a : Word} {al : Nat} (h : opAddr (s.core g) b.d = some (a, al)) : a.toNat % al = 0 := by
  have hm := List.findSome?_eq_none_iff.1 r.mis 3 (by decide)
  rw [show slotOp b 3 = b.d from rfl, h] at hm
  refine Decidable.byContradiction fun hne => ?_
  simp [hne] at hm

/-- The blocks that an operation of slot D reads lie in memories of the cluster. -/
theorem ownBlock_of_read (r : Ready s g b) {p : ReadPiece} (h : p ∈ opReads (s.core g) b.d) : ownBlock s g p.blk = true :=
  r.own 3 (by decide) _ (List.mem_append.2 (.inl (List.mem_map.2 ⟨p, h, rfl⟩)))

/-- The address of CPSAVE, CPRESTORE, CPLD and the gathers. -/
def cpSrc (c : Core) (f : CpFields) : Word := c.r.getA (slice f.srca 0 4)

/-- The state image of a unit lies in data memory, and is aligned (R89). -/
theorem image_in_dmem (r : Ready s g (inD m (.cp sl op f))) (hop : op = 6 ∨ op = 7) :
    (cpSrc (s.core g) f).toNat % 64 = 0 ∧ (cpSrc (s.core g) f).toNat + imageSize sl ≤ 0x20000 := by
  have haddr : cpAddr (s.core g) sl op.toNat f = some (cpSrc (s.core g) f, 64) := by
    obtain rfl | rfl := hop <;> rfl
  have hs : staticFault s g (.cp sl op f) = none := r.noFault 3 (by decide)
  refine ⟨aligned_of_ready r haddr, ?_⟩
  unfold staticFault at hs
  simp only [haddr, hop, true_and] at hs
  refine Decidable.byContradiction fun hlt => ?_
  rw [if_pos (by omega)] at hs
  cases hs

/-- The bytes of rising 64-byte blocks are those of the whole. -/
theorem bytes_blocks (s : State) (p n : Nat) : (List.range n).flatMap (fun i => s.bytes (p + 64 * i) 64) = s.bytes p (64 * n) := by
  induction n with
  | zero => rfl
  | succ n ih =>
    rw [List.range_succ, List.flatMap_append, ih, Nat.mul_succ]
    simp only [State.bytes, List.flatMap_cons, List.flatMap_nil, List.append_nil, List.range_add, List.map_append, List.map_map]
    congr 1

theorem imageSize_eq (sl : Bool) : 64 * (imageSize sl / 64) = imageSize sl := by
  cases sl <;> rfl

/-- Block i of an image in data memory. -/
theorem image_block {a : Word} {i o : Nat} (ha : a.toNat + imageSize sl ≤ 0x20000) (hi : i < imageSize sl / 64) (ho : o < 64) :
    ownAddr s g (a + BitVec.ofNat 32 (64 * i) + BitVec.ofNat 32 o) = dmemBase g + a.toNat + 64 * i + o := by
  have hs := imageSize_eq sl
  have hn : (a + BitVec.ofNat 32 (64 * i) + BitVec.ofNat 32 o).toNat = a.toNat + 64 * i + o := by
    simp only [BitVec.toNat_add, BitVec.toNat_ofNat]
    omega
  rw [ownAddr_dmem (by omega), hn]
  omega

/-- CPRESTORE reads the image. -/
theorem cpData_restore (r : Ready s g (inD m (.cp sl 7 f))) : cpData (heldCore s g (inD m (.cp sl 7 f))) sl 7 f (slotGot s g (inD m (.cp sl 7 f)) 3) =
    s.bytes (dmemBase g + (cpSrc (s.core g) f).toNat) (imageSize sl) := by
  obtain ⟨hal, hin⟩ := image_in_dmem r (.inr rfl)
  have hs := imageSize_eq sl
  have hreads : opReads (s.core g) (.cp sl 7 f) =
      (List.range (imageSize sl / 64)).map (fun i => { blk := cpSrc (s.core g) f + BitVec.ofNat 32 (64 * i), offs := List.range 64 }) := rfl
  have hnat (i : Nat) (hi : i < imageSize sl / 64) :
      (cpSrc (s.core g) f + BitVec.ofNat 32 (64 * i)).toNat = (cpSrc (s.core g) f).toNat + 64 * i := by
    simp only [BitVec.toNat_add, BitVec.toNat_ofNat]
    omega
  have hdata : cpData (heldCore s g (inD m (.cp sl 7 f))) sl 7 f (slotGot s g (inD m (.cp sl 7 f)) 3) =
      (pieceBytes s g (opReads (s.core g) (.cp sl 7 f))).map (fun p => p.2) := if_neg (by simp)
  rw [hdata, pieceBytes_aligned, hreads, List.flatMap_map, List.map_flatMap]
  · conv => rhs; rw [← hs, ← bytes_blocks]
    refine flatMap_congr_mem fun i hi => ?_
    rw [List.map_map, State.bytes]
    refine List.map_congr_left fun o ho => ?_
    simp only [Function.comp]
    rw [image_block hin (List.mem_range.1 hi) (List.mem_range.1 ho)]
  · intro p hp
    have hown := ownBlock_of_read r hp
    rw [hreads] at hp
    obtain ⟨i, hi, rfl⟩ := List.mem_map.1 hp
    refine ⟨?_, fun o ho => List.mem_range.1 ho, hown⟩
    rw [hnat i (List.mem_range.1 hi)]
    omega

/-- CPLD brings the 64 bytes at its address. -/
theorem cpData_load (r : Ready s g (inD m (.cp sl 1 f))) : cpData (heldCore s g (inD m (.cp sl 1 f))) sl 1 f (slotGot s g (inD m (.cp sl 1 f)) 3) =
    (List.range 64).map (fun i => s.byte (ownAddr s g (cpSrc (s.core g) f + BitVec.ofNat 32 i))) := by
  have hal : (cpSrc (s.core g) f).toNat % 64 = 0 := aligned_of_ready (b := inD m (.cp sl 1 f)) r rfl
  have hreads : opReads (s.core g) (.cp sl 1 f) = [{ blk := cpSrc (s.core g) f, offs := List.range 64 }] := by
    show spanPieces (cpSrc (s.core g) f) 64 = _
    unfold spanPieces
    simp [hal]
  have hdata : cpData (heldCore s g (inD m (.cp sl 1 f))) sl 1 f (slotGot s g (inD m (.cp sl 1 f)) 3) =
      (pieceBytes s g (opReads (s.core g) (.cp sl 1 f))).map (fun p => p.2) := if_neg (by simp)
  rw [hdata, pieceBytes_aligned, hreads]
  · simp
  · intro p hp
    have hown := ownBlock_of_read r hp
    rw [hreads, List.mem_singleton] at hp
    subst hp
    exact ⟨hal, fun o ho => List.mem_range.1 ho, hown⟩

/-- Each block of a gather is read at the offsets that its addresses name. -/
theorem gatherPieces_mem {a : Word} {offs : List Nat} {p : ReadPiece} (h : p ∈ gatherPieces a offs) :
    p.blk.toNat % 64 = 0 ∧ ∀ o ∈ p.offs, o < 64 := by
  obtain ⟨blk, hb, rfl⟩ := List.mem_map.1 h
  obtain ⟨x, hx, rfl⟩ := List.mem_map.1 (List.mem_eraseDups.1 hb)
  obtain ⟨o, -, rfl⟩ := List.mem_map.1 hx
  refine ⟨?_, fun o ho => List.mem_range.1 (List.mem_filter.1 ho).1⟩
  have := (a + BitVec.ofNat 32 o).isLt
  rw [BitVec.toNat_ofNat]
  omega

theorem gatherPieces_has {a : Word} {offs : List Nat} {o : Nat} (h : o ∈ offs) :
    ∃ p ∈ gatherPieces a offs, ∃ i ∈ p.offs, p.blk.toNat + i = (a + BitVec.ofNat 32 o).toNat := by
  have hx := (a + BitVec.ofNat 32 o).isLt
  have hmem : (a + BitVec.ofNat 32 o).toNat ∈ offs.map (fun o => (a + BitVec.ofNat 32 o).toNat) := List.mem_map.2 ⟨o, h, rfl⟩
  refine ⟨_, List.mem_map.2 ⟨(a + BitVec.ofNat 32 o).toNat / 64, List.mem_eraseDups.2 (List.mem_map.2 ⟨_, hmem, rfl⟩), rfl⟩,
    (a + BitVec.ofNat 32 o).toNat % 64, List.mem_filter.2 ⟨List.mem_range.2 (by omega), ?_⟩, ?_⟩
  · rw [List.contains_iff_mem, Nat.div_add_mod]
    exact hmem
  · rw [BitVec.toNat_ofNat]
    omega

/-- A gather finds the byte of each of its addresses. -/
theorem gather_find {a : Word} {offs : List Nat} {o : Nat} (hown : ∀ p ∈ gatherPieces a offs, ownBlock s g p.blk = true) (h : o ∈ offs) :
    (((pieceBytes s g (gatherPieces a offs)).find? (fun p => p.1 == (a + BitVec.ofNat 32 o).toNat)).map (fun p => p.2)).getD 0 =
      s.byte (ownAddr s g (a + BitVec.ofNat 32 o)) := by
  have hpb := pieceBytes_aligned (s := s) (g := g) (ps := gatherPieces a offs)
    fun p hp => ⟨(gatherPieces_mem hp).1, (gatherPieces_mem hp).2, hown p hp⟩
  have hval : ∀ x ∈ pieceBytes s g (gatherPieces a offs), x.1 = (a + BitVec.ofNat 32 o).toNat →
      x.2 = s.byte (ownAddr s g (a + BitVec.ofNat 32 o)) := by
    rw [hpb]
    intro x hx hxa
    obtain ⟨p, hp, hx⟩ := List.mem_flatMap.1 hx
    obtain ⟨i, hi, rfl⟩ := List.mem_map.1 hx
    have hword : p.blk + BitVec.ofNat 32 i = a + BitVec.ofNat 32 o := by
      apply BitVec.eq_of_toNat_eq
      have hlt := p.blk.isLt
      obtain ⟨hal, hoff⟩ := gatherPieces_mem hp
      have := hoff i hi
      rw [← hxa, BitVec.toNat_add, BitVec.toNat_ofNat]
      simp only
      omega
    simp only [hword]
  obtain ⟨p, hp, i, hi, hpi⟩ := gatherPieces_has (a := a) h
  cases hf : (pieceBytes s g (gatherPieces a offs)).find? (fun p => p.1 == (a + BitVec.ofNat 32 o).toNat) with
  | none =>
    have hin : (p.blk.toNat + i, s.byte (ownAddr s g (p.blk + BitVec.ofNat 32 i))) ∈ pieceBytes s g (gatherPieces a offs) := by
      rw [hpb]
      exact List.mem_flatMap.2 ⟨p, hp, List.mem_map.2 ⟨i, hi, rfl⟩⟩
    exact absurd (by simpa using hpi) (List.find?_eq_none.1 hf _ hin)
  | some x =>
    exact hval x (List.mem_of_find?_eq_some hf) (by simpa using List.find?_some hf)

/-- SILV and SDILV bring the bytes that they gather. -/
theorem cpData_gather (r : Ready s g (inD m (.cp true op f))) (hop : op = 14 ∨ op = 15) :
    cpData (heldCore s g (inD m (.cp true op f))) true op.toNat f (slotGot s g (inD m (.cp true op f)) 3) =
      (gatherOffs op.toNat (s.core g).sbu).map (fun o => s.byte (ownAddr s g (cpSrc (s.core g) f + BitVec.ofNat 32 o))) := by
  have hreads : opReads (s.core g) (.cp true op f) = gatherPieces (cpSrc (s.core g) f) (gatherOffs op.toNat (s.core g).sbu) := by
    obtain rfl | rfl := hop <;> rfl
  have hdata : cpData (heldCore s g (inD m (.cp true op f))) true op.toNat f (slotGot s g (inD m (.cp true op f)) 3) =
      (gatherOffs op.toNat (s.core g).sbu).map (fun o => (((pieceBytes s g (opReads (s.core g) (.cp true op f))).find?
        (fun p => p.1 == (cpSrc (s.core g) f + BitVec.ofNat 32 o).toNat)).map (fun p => p.2)).getD 0) := by
    obtain rfl | rfl := hop <;> rfl
  rw [hdata, hreads]
  refine List.map_congr_left fun o ho => gather_find (fun p hp => ?_) ho
  rw [← hreads] at hp
  exact ownBlock_of_read r hp

/-- An operation that reads no memory brings nothing. -/
theorem cpData_none (h : cpAddr (s.core g) sl op.toNat f = none) (hop : ¬(sl = true ∧ (op.toNat = 0xE ∨ op.toNat = 0xF))) :
    cpData (heldCore s g (inD m (.cp sl op f))) sl op.toNat f (slotGot s g (inD m (.cp sl op f)) 3) = [] := by
  have hreads : opReads (s.core g) (.cp sl op f) = [] := by
    simp only [opReads, h]
  unfold cpData
  rw [if_neg hop]
  show (pieceBytes s g (opReads (s.core g) (.cp sl op f))).map (fun p => p.2) = []
  rw [hreads]
  rfl

/-- The operation has joined those in flight with the registers of before the bundle and the bytes read; the units are as before. -/
def cpJoined (s t : State) (g : CoreId) (sl : Bool) (op : BitVec 5) (f : CpFields) (data : List Byte) : Prop :=
  let c := s.core g
  let d := t.core g
  d.port sl = { c.port sl with
    seq := (c.port sl).seq + 1,
    pend := (c.port sl).pend ++ [{ op := op, f := f, baddr := c.pc, seq := (c.port sl).seq + 1, vsrc := c.r.getV f.srca,
                                   ssrc := c.r.getS f.srca, ssrc2 := c.r.getS f.srcb, data := data }] } ∧
    d.cmu = c.cmu ∧ d.sbu = c.sbu ∧ portSame c d !sl

/-- An operation that acts when it finishes joins those in flight with what it read. -/
theorem executes_cp_join {data : List Byte} (h : executes s g (inD m (.cp sl op f)) = true) (hop : op.toNat ∉ [2, 3, 4, 6, 7])
    (hdata : cpData (heldCore s g (inD m (.cp sl op f))) sl op.toNat f (slotGot s g (inD m (.cp sl op f)) 3) = data) :
    cpJoined s (runBundle s g (inD m (.cp sl op f))) g sl op f data := by
  obtain ⟨hcmu, hsbu, hport⟩ := newCore_units (s := s) (g := g) (b := inD m (.cp sl op f))
  rw [cpJoined, executes_cp h, cpNext_join _ _ _ hop]
  dsimp only
  rw [port_setPort, setPort_cmu, setPort_sbu, cpPendOf, hdata, hport]
  exact ⟨rfl, hcmu, hsbu, portSame_of_newCore (portSame_setPort ..)⟩

/-! ### What CPST and CPSAVE store -/

/-- Where slots A and B store nothing, the stores of the bundle are those of slot D. -/
theorem bundleStores_inD (h : bundleStores s g (inD m .nop) = []) (o : Op) :
    bundleStores s g (inD m o) = (opStores (s.core g) o).map (fun p => (ownAddr s g p.1, p.2)) := by
  simp only [bundleStores, inD, List.map_eq_nil_iff, List.append_eq_nil_iff] at h ⊢
  obtain ⟨⟨ha, hb⟩, -⟩ := h
  simp only [ha, hb, List.nil_append]

theorem setBytes_append (s : State) (a : Nat) (d e : List Byte) : s.setBytes a (d ++ e) = (s.setBytes a d).setBytes (a + d.length) e := by
  induction d generalizing s a with
  | nil => rfl
  | cons x d ih =>
    rw [List.cons_append, State.setBytes, ih, State.setBytes, List.length_cons]
    congr 1
    omega

/-- Storing a list in rising 64-byte blocks stores the list. -/
theorem store_blocks (s : State) (p n : Nat) (d : List Byte) (h : 64 * n ≤ d.length) :
    ((List.range n).map (fun i => (p + 64 * i, (d.drop (64 * i)).take 64))).foldl (fun u q => u.setBytes q.1 q.2) s =
      s.setBytes p (d.take (64 * n)) := by
  induction n with
  | zero => rfl
  | succ n ih =>
    have hlen : (d.take (64 * n)).length = 64 * n := by
      rw [List.length_take]
      omega
    rw [List.range_succ, List.map_append, List.foldl_append, ih (by omega), Nat.mul_succ, List.take_add, setBytes_append, hlen]
    rfl

theorem length_flatMap_bytesOfNat (n k : Nat) (v : Nat → Nat) : ((List.range k).flatMap (fun i => bytesOfNat n (v i))).length = k * n := by
  induction k with
  | zero => rw [List.range_zero, List.flatMap_nil, List.length_nil, Nat.zero_mul]
  | succ k ih =>
    rw [List.range_succ, List.flatMap_append, List.length_append, ih, List.flatMap_singleton, bytesOfNat_length, Nat.succ_mul]

theorem sbuImage_length (c : Sbu) : (sbuImage c).length = 256 := by
  simp only [sbuImage, List.length_append, length_flatMap_bytesOfNat, List.length_replicate]

theorem cmuImage_length (c : Cmu) : (cmuImage c).length = 2048 := by
  simp only [cmuImage, List.length_append, length_flatMap_bytesOfNat, bytesOfNat_length, List.length_replicate]

/-- The state image of a unit. -/
def unitImage (c : Core) (sl : Bool) : List Byte := if sl then sbuImage c.sbu else cmuImage c.cmu

theorem unitImage_length (c : Core) (sl : Bool) : (unitImage c sl).length = imageSize sl := by
  cases sl
  · exact cmuImage_length _
  · exact sbuImage_length _

theorem executes_save_bytes (h : executes s g (inD m (.cp sl 6 f)) = true) (hn : bundleStores s g (inD m .nop) = []) {i : Nat}
    (hi : i < imageSize sl) : (runBundle s g (inD m (.cp sl 6 f))).byte (dmemBase g + (cpSrc (s.core g) f).toNat + i) =
      (unitImage (s.core g) sl).getD i 0 := by
  have r := executes_ready h
  obtain ⟨hal, hin⟩ := image_in_dmem r (.inl rfl)
  have hs := imageSize_eq sl
  have hl := unitImage_length (s.core g) sl
  have hst : bundleStores s g (inD m (.cp sl 6 f)) = (List.range (imageSize sl / 64)).map
      (fun i => (dmemBase g + (cpSrc (s.core g) f).toNat + 64 * i, ((unitImage (s.core g) sl).drop (64 * i)).take 64)) := by
    rw [bundleStores_inD hn, show opStores (s.core g) (.cp sl 6 f) = (List.range (imageSize sl / 64)).map
      (fun i => (cpSrc (s.core g) f + BitVec.ofNat 32 (64 * i), ((unitImage (s.core g) sl).drop (64 * i)).take 64)) from rfl, List.map_map]
    refine List.map_congr_left fun i hi => ?_
    have hb := image_block (s := s) (g := g) hin (List.mem_range.1 hi) (o := 0) (by decide)
    rw [show (BitVec.ofNat 32 0 : Word) = 0#32 from rfl, BitVec.add_zero, Nat.add_zero] at hb
    simp only [Function.comp, hb]
  rw [(runBundle_committed h).mem, byteAfter, hst, store_blocks _ _ _ _ (by omega), setBytes_byte, hs, ← hl, List.take_length,
    if_pos (by omega), Nat.add_sub_cancel_left]

/-- Settles O11: the unit's registers are those before the bundle; what an operation reads from memory is `cpData`. -/
theorem coprocessorIssue : Obligations.CoprocessorIssue := by
  have size_eq (sl : Bool) : (if sl then 256 else 2048) = imageSize sl := rfl
  refine ⟨fun s g sl f m => ⟨fun h => ?cprd, fun h => ?cprds, fun hn => ⟨fun h => ?cpst, fun h => ?cpsave⟩, fun h => ?cprestore⟩,
    fun s g f m => ?joins⟩
  case cprd =>
    obtain ⟨hc, hunits⟩ := executes_cp_read h (.inl rfl)
    exact does_of h ⟨hc, (executes_getV h (k := 3) (by decide) (List.mem_singleton.2 rfl)).trans ((getV_putV ..).trans (if_pos rfl)), hunits⟩
  case cprds =>
    obtain ⟨hc, hunits⟩ := executes_cp_read h (.inr (.inr rfl))
    exact does_of h ⟨hc, (executes_getS h (k := 3) (by decide) (List.mem_singleton.2 rfl)).trans ((getS_putS ..).trans (if_pos rfl)), hunits⟩
  case cpst =>
    exact does_of h ⟨(executes_cp_read h (.inr (.inl rfl))).1, executes_stored h _ _ _ (bundleStores_inD hn _)⟩
  case cpsave =>
    obtain ⟨hc, hdirty⟩ := executes_cp_save h
    exact does_of h ⟨hc, hdirty, fun i hi => executes_save_bytes h hn (size_eq sl ▸ hi)⟩
  case cprestore =>
    obtain ⟨hc, hdirty, hunit⟩ := executes_cp_restore h
    rw [cpData_restore (executes_ready h)] at hunit
    exact does_of h ⟨hc, hdirty, hunit⟩
  case joins =>
    have plain (sl : Bool) (op : BitVec 5) (hop : op.toNat ∉ [2, 3, 4, 6, 7]) (hno : cpAddr (s.core g) sl op.toNat f = none)
        (hg : ¬(sl = true ∧ (op.toNat = 0xE ∨ op.toNat = 0xF))) (h : executes s g (inD m (.cp sl op f)) = true) :
        Does s g (inD m (.cp sl op f)) (.next (runBundle s g (inD m (.cp sl op f)))) (fun t => cpJoined s t g sl op f []) :=
      does_of h (executes_cp_join h hop (cpData_none hno hg))
    refine ⟨fun sl => ⟨plain sl 0 (by decide) (by simp [cpAddr]) (by simp),
        fun h => does_of h (executes_cp_join h (by decide) (cpData_load (executes_ready h))),
        plain sl 5 (by decide) (by simp [cpAddr]) (by simp)⟩,
      plain false 8 (by decide) rfl (by simp), plain false 9 (by decide) rfl (by simp), plain false 10 (by decide) rfl (by simp),
      plain false 11 (by decide) rfl (by simp), plain false 12 (by decide) rfl (by simp), plain false 13 (by decide) rfl (by simp),
      plain false 14 (by decide) rfl (by simp), plain false 15 (by decide) rfl (by simp), plain true 8 (by decide) rfl (by simp),
      plain true 9 (by decide) rfl (by simp), plain true 10 (by decide) rfl (by simp), plain true 11 (by decide) rfl (by simp),
      plain true 12 (by decide) rfl (by simp), plain true 13 (by decide) rfl (by simp),
      fun h => does_of h (executes_cp_join h (by decide) (cpData_gather (executes_ready h) (.inl rfl))),
      fun h => does_of h (executes_cp_join h (by decide) (cpData_gather (executes_ready h) (.inr rfl)))⟩

end Sys2Proof.Machine
end

section
/-! The board interfaces (O60): every clause is the branch of the target's model that its hypotheses choose. -/

namespace Sys2Proof.Machine

/-- The little-endian bytes of a number give back its low part. -/
theorem natOfBytes_bytesOfNat (n v : Nat) : natOfBytes (bytesOfNat n v) = v % 256 ^ n := by
  induction n generalizing v with
  | zero => simp [bytesOfNat, natOfBytes, Nat.mod_one]
  | succ n ih =>
    have hlow : (BitVec.ofNat 8 v).toNat = v % 256 := by simp
    rw [bytesOfNat, natOfBytes, ih, hlow, Nat.pow_succ', Nat.mod_mul]

/-- The bytes of a register word give the word back. -/
theorem ofNat_natOfBytes_bytesOfNat (v : Word) : BitVec.ofNat 32 (natOfBytes (bytesOfNat 4 v.toNat)) = v := by
  rw [natOfBytes_bytesOfNat]
  exact BitVec.eq_of_toNat_eq (by simp; omega)

/-- A read of an aligned register brings its word and the effects of the read. -/
theorem regRd_of_regRead {s t : State} {pa : Nat} {v : Word} (ha : pa % 4 = 0)
    (hr : regRead s (place (BitVec.ofNat 44 pa)) = some (v, t)) :
    regRd s pa 4 = ({ outc := .ok, flags := 0, data := bytesOfNat 4 v.toNat, poison := [] }, t) := by
  simp [regRd, Nat.div_mul_cancel (Nat.dvd_of_mod_eq_zero ha), hr, ha]

/-- A read of an unaligned register fails. -/
theorem regRd_outc_of_unaligned {s : State} {pa n : Nat} (ha : pa % 4 ≠ 0) : (regRd s pa n).1.outc ≠ .ok := by
  unfold regRd
  split <;> simp [Ans.only, ha]

theorem smbAddressed_iff (s : State) (addr : BitVec 7) :
    smbAddressed s addr = true ↔ s.mgc.porst = false ∧ addr.toNat = 0x40 + s.mgc.pkgid.toNat := by
  simp [smbAddressed]

/-- The offsets that the SMBus target reads (R498). -/
theorem smbOpen_iff (s : State) (o : Nat) :
    smbOpen s o = true ↔ (o < 0x80000 ∧ 4 ≤ s.mgc.step.toNat) ∨ (0x100000 ≤ o ∧ o < 0xE00000 ∧ s.hif.ready = true) := by
  unfold smbOpen
  split <;> cases s.hif.ready <;> simp <;> omega

section
variable {s : State} {addr : BitVec 7} (hm : smbAddressed s addr = true)
include hm

/-- A read at an offset that is not open, or not aligned, is refused. -/
theorem doSmbRead_of_refused (h : smbOpen s s.board.smbOffset.toNat = false ∨ s.board.smbOffset.toNat % 4 ≠ 0) :
    doSmbRead s addr = { s with board := { s.board with smbNack := true } } := by
  unfold doSmbRead
  rw [if_neg (by simp [hm])]
  split
  · rfl
  · next hopen =>
    have ha : (hubRegs + s.board.smbOffset.toNat) % 4 ≠ 0 := by
      have hbase : hubRegs % 4 = 0 := by decide
      have := h.resolve_left hopen
      omega
    simp only [if_neg (regRd_outc_of_unaligned ha)]

/-- A read at an open register brings its word. -/
theorem doSmbRead_of_open {v : Word} {t : State} (ho : smbOpen s s.board.smbOffset.toNat = true) (ha : s.board.smbOffset.toNat % 4 = 0)
    (hr : regRead s (place (BitVec.ofNat 44 (hubRegs + s.board.smbOffset.toNat))) = some (v, t)) :
    doSmbRead s addr = { t with board := { t.board with smbData := v, smbNack := false } } := by
  have ha' : (hubRegs + s.board.smbOffset.toNat) % 4 = 0 := by
    have hbase : hubRegs % 4 = 0 := by decide
    omega
  simp [doSmbRead, hm, ho, regRd_of_regRead ha' hr, ofNat_natOfBytes_bytesOfNat]

end

/-- Settles O60: each SMBus transfer and each instruction of the test port takes its branch of the model. -/
theorem boardInterfaces : Obligations.BoardInterfaces := by
  unfold Obligations.BoardInterfaces
  intro s addr count off ir b mine o nack tap
  have hmine : smbAddressed s addr = true ↔ mine := smbAddressed_iff s addr
  refine ⟨fun hn => ?notMine, fun hm => ?mine, ⟨_, rfl⟩, rfl, ⟨_, rfl⟩, rfl, rfl, rfl, rfl, fun h => ?noFunction, fun h => ?function, rfl⟩
  case notMine =>
    have hno : smbAddressed s addr = false := Bool.eq_false_iff.mpr (mt hmine.mp hn)
    simp [exec, execSmbusBlockWrite, execSmbusBlockRead, doSmbWrite, doSmbRead, hno]
  case mine =>
    have hyes : smbAddressed s addr = true := hmine.mpr hm
    refine ⟨?_, fun hc => ?_, fun h => congrArg _ (doSmbRead_of_refused hyes ?_),
      fun v t ha hin hr => congrArg _ (doSmbRead_of_open hyes ((smbOpen_iff s _).mpr hin) ha hr)⟩
    · simp [exec, execSmbusBlockWrite, doSmbWrite, hyes, b]
    · simp [exec, execSmbusBlockWrite, doSmbWrite, hyes, hc, nack, b]
    · rw [Bool.eq_false_iff, ne_eq, smbOpen_iff]
      simp only [o, b] at h
      cases hready : s.hif.ready <;> simp [hready] at h ⊢ <;> omega
  case noFunction => simp [exec, execBypass, bypassIr, h, tap, tapLoad]
  case function => simp [exec, execBypass, bypassIr, Nat.not_le.mpr h]

end Sys2Proof.Machine
end

section
/-! The frame of completions and events, and the journal (O59): a written record's fields, its ring position, and the two ends of a compaction. -/

namespace Sys2Proof.Machine

/-! ### Completions and events change the HIF and its counters only (R281, R284) -/

theorem completeCmd_frame (s : State) (ring : RingId) (idx : Word) (o : Outc) (flags result result2 : Word) :
    completeCmd s ring idx o flags result result2 = { s with hif := (completeCmd s ring idx o flags result result2).hif,
                                                             tally := (completeCmd s ring idx o flags result result2).tally } := by
  unfold completeCmd
  split
  · rfl
  · dsimp only
    repeat' split
    all_goals rfl

theorem pushEvent_frame (s : State) (typ : Nat) (source : SourceId) (act : ActId) (outc : BitVec 5) (detail : Nat) :
    pushEvent s typ source act outc detail = { s with hif := (pushEvent s typ source act outc detail).hif,
                                                      tally := (pushEvent s typ source act outc detail).tally } := by
  unfold pushEvent
  dsimp only
  split <;> rfl

@[simp] theorem completeCmd_scv (s : State) (ring : RingId) (idx : Word) (o : Outc) (flags result result2 : Word) :
    (completeCmd s ring idx o flags result result2).scv = s.scv := by rw [completeCmd_frame]

@[simp] theorem pushEvent_scv (s : State) (typ : Nat) (source : SourceId) (act : ActId) (outc : BitVec 5) (detail : Nat) :
    (pushEvent s typ source act outc detail).scv = s.scv := by rw [pushEvent_frame]

/-! ### The fields of a record (R470, R471) -/

theorem crc32cBit_lt {r : Nat} (h : r < 2 ^ 32) : crc32cBit r < 2 ^ 32 := by
  unfold crc32cBit
  split
  · exact Nat.xor_lt_two_pow (by omega) (by decide)
  · omega

theorem crc32cByte_lt {r : Nat} (h : r < 2 ^ 32) (b : Byte) : crc32cByte r b < 2 ^ 32 := by
  have hstart : r ^^^ b.toNat < 2 ^ 32 := Nat.xor_lt_two_pow h (Nat.lt_trans b.isLt (by decide))
  unfold crc32cByte upTo
  generalize r ^^^ b.toNat = x at hstart
  generalize List.range 8 = l
  induction l generalizing x with
  | nil => exact hstart
  | cons i l ih => exact ih _ (crc32cBit_lt hstart)

theorem foldl_crc32cByte_lt (d : List Byte) {r : Nat} (h : r < 2 ^ 32) : d.foldl crc32cByte r < 2 ^ 32 := by
  induction d generalizing r with
  | nil => exact h
  | cons b d ih => exact ih (crc32cByte_lt h b)

theorem crc32c_lt (d : List Byte) : crc32c d < 2 ^ 32 := by
  unfold crc32c
  exact Nat.xor_lt_two_pow (foldl_crc32cByte_lt d (by decide)) (by decide)

/-- The first bytes of a number are those of its low part. -/
theorem bytesOfNat_take {m n : Nat} (h : m ≤ n) (v : Nat) : (bytesOfNat n v).take m = bytesOfNat m v := by
  induction m generalizing n v with
  | zero => rfl
  | succ m ih =>
    obtain ⟨k, rfl⟩ : ∃ k, n = k + 1 := ⟨n - 1, by omega⟩
    simp [bytesOfNat, ih (Nat.le_of_succ_le_succ h)]

theorem bytesOfNat_mod (n v : Nat) : bytesOfNat n (v % 256 ^ n) = bytesOfNat n v := by
  induction n generalizing v with
  | zero => rfl
  | succ n ih =>
    have hlow : BitVec.ofNat 8 (v % 256 ^ (n + 1)) = BitVec.ofNat 8 v := by
      apply BitVec.eq_of_toNat_eq
      simp only [BitVec.toNat_ofNat, Nat.pow_succ', Nat.mod_mul_right_mod]
    have hrest : v % 256 ^ (n + 1) / 256 = v / 256 % 256 ^ n := by rw [Nat.pow_succ', Nat.mod_mul_right_div_self]
    rw [bytesOfNat, hlow, hrest, ih, bytesOfNat]

/-- A field above one of m bits. -/
theorem add_mul_two_pow_lt {h c m n : Nat} (hh : h < 2 ^ m) (hc : c < 2 ^ n) : h + c * 2 ^ m < 2 ^ (n + m) := by
  calc h + c * 2 ^ m < (c + 1) * 2 ^ m := by rw [Nat.succ_mul]; omega
    _ ≤ 2 ^ (n + m) := by rw [Nat.pow_add]; exact Nat.mul_le_mul_right _ hc

/-- The CRC that a record carries. -/
def recCrc (seq : Word) (a : JAppend) : Nat := crc32c (bytesOfNat 60 (recHead seq a))

/-- Everything of a record above its first 8 bytes. -/
def recHigh (seq : Word) (a : JAppend) : Nat := a.payload.toNat % 2 ^ (8 * a.len.toNat) % 2 ^ 384 + 2 ^ 416 * recCrc seq a

theorem recHead_lt (seq : Word) (a : JAppend) : recHead seq a < 2 ^ 480 :=
  Nat.lt_of_lt_of_le (packLE_lt _) (Nat.pow_le_pow_right (by decide) (by simp))

theorem mkRec_toNat (seq : Word) (a : JAppend) : (mkRec seq a).toNat = recHead seq a + recCrc seq a * 2 ^ 480 := by
  rw [mkRec, BitVec.toNat_ofNat]
  exact Nat.mod_eq_of_lt (add_mul_two_pow_lt (recHead_lt seq a) (crc32c_lt _))

/-- The first 8 bytes of a record. -/
theorem mkRec_toNat_fields (seq : Word) (a : JAppend) : (mkRec seq a).toNat =
    seq.toNat + 2 ^ 32 * a.typ.toNat + 2 ^ 40 * a.len.toNat + 2 ^ 48 * a.key.toNat + 2 ^ 64 * recHigh seq a := by
  have hcrc : recCrc seq a * 2 ^ 480 = 2 ^ 64 * (2 ^ 416 * recCrc seq a) := by
    rw [← Nat.mul_assoc, ← Nat.pow_add, Nat.mul_comm]
  rw [mkRec_toNat, hcrc, recHigh, recHead]
  generalize 2 ^ 416 * recCrc seq a = c
  simp only [packLE, Nat.mul_zero, Nat.add_zero]
  generalize a.payload.toNat % 2 ^ (8 * a.len.toNat) % 2 ^ 384 = p
  omega

section
variable (seq : Word) (a : JAppend)

theorem recSeq_mkRec : recSeq (mkRec seq a) = seq := by
  apply BitVec.eq_of_toNat_eq
  rw [recSeq, toNat_slice, mkRec_toNat_fields, bits]
  omega

theorem recType_mkRec : recType (mkRec seq a) = a.typ := by
  apply BitVec.eq_of_toNat_eq
  rw [recType, toNat_slice, mkRec_toNat_fields, bits]
  omega

theorem recLen_mkRec : recLen (mkRec seq a) = a.len := by
  apply BitVec.eq_of_toNat_eq
  rw [recLen, toNat_slice, mkRec_toNat_fields, bits]
  omega

theorem recKey_mkRec : recKey (mkRec seq a) = a.key := by
  apply BitVec.eq_of_toNat_eq
  rw [recKey, toNat_slice, mkRec_toNat_fields, bits]
  omega

/-- The payload of a record up to its length. -/
theorem payload_mkRec (hl : a.len.toNat ≤ 48) :
    bits (mkRec seq a).toNat 64 (8 * a.len.toNat) = a.payload.toNat % 2 ^ (8 * a.len.toNat) := by
  have hlow : seq.toNat + 2 ^ 32 * a.typ.toNat + 2 ^ 40 * a.len.toNat + 2 ^ 48 * a.key.toNat < 2 ^ 64 := by omega
  have hdata : 2 ^ (8 * a.len.toNat) ∣ 2 ^ 384 := Nat.pow_dvd_pow 2 (by omega)
  have hcrc : 2 ^ (8 * a.len.toNat) ∣ 2 ^ 416 * recCrc seq a := Nat.dvd_trans (Nat.pow_dvd_pow 2 (by omega)) (Nat.dvd_mul_right _ _)
  have habove : (mkRec seq a).toNat / 2 ^ 64 = recHigh seq a := by
    rw [mkRec_toNat_fields]
    omega
  rw [bits, habove, recHigh, Nat.add_mod, Nat.mod_eq_zero_of_dvd hcrc, Nat.add_zero, Nat.mod_mod, Nat.mod_mod_of_dvd _ hdata, Nat.mod_mod]

/-- The CRC of a record holds. -/
theorem recValid_mkRec (hl : a.len.toNat ≤ 48) (h0 : a.typ ≠ 0) (hff : a.typ ≠ 0xFF) : recValid (mkRec seq a) = true := by
  have hbytes : (recBytes (mkRec seq a)).take 60 = bytesOfNat 60 (recHead seq a) := by
    have hpow : 256 ^ 60 = 2 ^ 480 := (Nat.pow_mul 2 8 60).symm
    have hmod : (mkRec seq a).toNat % 256 ^ 60 = recHead seq a := by
      rw [hpow, mkRec_toNat, Nat.add_mul_mod_self_right, Nat.mod_eq_of_lt (recHead_lt seq a)]
    rw [recBytes, bytesOfNat_take (by decide), ← bytesOfNat_mod, hmod]
  have hfield : bits (mkRec seq a).toNat 480 32 = recCrc seq a := by
    rw [bits, mkRec_toNat, Nat.add_mul_div_right _ _ (Nat.two_pow_pos 480), Nat.div_eq_of_lt (recHead_lt seq a), Nat.zero_add,
      recCrc, Nat.mod_eq_of_lt (crc32c_lt _)]
  simp [recValid, hbytes, hfield, recCrc, recType_mkRec, recLen_mkRec, hl]
  exact ⟨h0, hff⟩

end

/-! ### Appends and compaction (R473, R474) -/

theorem scvFree_iff (s : State) : scvFree s = true ↔ s.lmp.pkg ≠ .deep ∧ 9 ≤ s.mgc.step.toNat ∧ s.scv.wroteAt + 4096 ≤ s.cycle := by
  simp [scvFree, and_assoc]

/-- Values enter an area at consecutive positions. -/
theorem writeArea_other (st : Sparse Block64) (p : Nat) (l : List (Nat × Block64)) {i : Nat} (h : i < p ∨ p + l.length ≤ i) :
    sget 0 (writeArea st p l) i = sget 0 st i := by
  induction l generalizing st p with
  | nil => rfl
  | cons v rest ih =>
    rw [List.length_cons] at h
    have hne : i ≠ p := by omega
    rw [writeArea, ih _ _ (by omega), sget_sput, if_neg hne]

/-- The journal when its oldest append has taken a token. -/
def Scv.taking (x : Scv) (rest : List JAppend) (left now : Nat) : Scv := { x with queue := rest, bucket := left, wroteAt := now }

section
variable {s : State} {a : JAppend} {rest : List JAppend} (hq : s.scv.queue = a :: rest)
include hq

theorem exec_journalRecordWrite_of_busy (hf : scvFree s = false) : exec .journalRecordWrite s = .next s := by
  simp [exec, execJournalRecordWrite, doRecordWrite, hq, hf]

/-- Without a token the append waits, and its first waiting is counted. -/
theorem exec_journalRecordWrite_of_empty (hf : scvFree s = true) (hb : s.scv.bucket < 3932160000) :
    exec .journalRecordWrite s =
      .next (if a.waited then s else scvTal { s with scv := { s.scv with queue := { a with waited := true } :: rest } } 3 1) := by
  simp [exec, execJournalRecordWrite, doRecordWrite, hq, hf, hb, recordCost]

/-- With a token the append is written. -/
theorem exec_journalRecordWrite_of_token (hf : scvFree s = true) (hb : 3932160000 ≤ s.scv.bucket) :
    exec .journalRecordWrite s =
      .next (scvTal (jStore { s with scv := s.scv.taking rest (s.scv.bucket - 3932160000) s.cycle } a) 0 1) := by
  simp [exec, execJournalRecordWrite, doRecordWrite, hq, hf, Nat.not_lt.mpr hb, recordCost, Scv.taking]

end

@[simp] theorem scvTal_scv (s : State) (i n : Nat) : (scvTal s i n).scv = s.scv := rfl

@[simp] theorem journalEvent_scv (s : State) (reason : Nat) : (journalEvent s reason).scv = s.scv := by
  rw [journalEvent, pushEvent_scv]

/-- The journal with the next record in the ring. -/
def Scv.withRec (x : Scv) (a : JAppend) : Scv :=
  { x with next := x.next + 1, store := sput 0 x.store (131072 + x.next.toNat % 131072) (mkRec x.next a) }

/-- A record that no command waits for is only written. -/
theorem jStore_of_none (s : State) (x : Scv) {a : JAppend} (h : a.cmd = none) :
    jStore { s with scv := x } a = { s with scv := x.withRec a } := by
  simp only [jStore, h, ringPos, Scv.withRec]

/-- A record is written; the command that waits for it completes with SEQ. -/
theorem jStore_of_some (s : State) (x : Scv) {a : JAppend} {ring : RingId} {idx : Word} (h : a.cmd = some (ring, idx)) :
    jStore { s with scv := x } a = completeCmd { s with scv := x.withRec a } ring idx .ok 0 x.next 0 := by
  simp only [jStore, h, ringPos, Scv.withRec]

/-- A compaction whose time has come, and the journal as it leaves it. -/
theorem doCompactCommit_scv {s : State} {c : Compaction} (hc : s.scv.compact = some c) (hd : c.since + 4096 * (c.count + 1) ≤ s.cycle)
    (hf : scvFree s = true) :
    (doCompactCommit s).scv =
      { s.scv.withRec (commitRec s.scv c.area c.count c.cut) with
          area := c.area, count := c.count, cut := c.cut, compact := none, lastCommit := some s.cycle, wroteAt := s.cycle } := by
  have hrun : ¬(s.cycle < c.since + 4096 * (c.count + 1) ∨ scvFree s = false) :=
    not_or.mpr ⟨Nat.not_lt.mpr hd, by simp [hf]⟩
  have hscv := congrArg State.scv (jStore_of_none s s.scv (a := commitRec s.scv c.area c.count c.cut) rfl)
  have hcyc := congrArg State.cycle (jStore_of_none s s.scv (a := commitRec s.scv c.area c.count c.cut) rfl)
  unfold doCompactCommit
  rw [hc]
  dsimp only
  rw [if_neg hrun]
  generalize jStore s (commitRec s.scv c.area c.count c.cut) = t at hscv hcyc ⊢
  split
  · rw [completeCmd_scv, journalEvent_scv, scvTal_scv, hscv, hcyc]
  · rw [journalEvent_scv, scvTal_scv, hscv, hcyc]

theorem taking_withRec (x : Scv) (rest : List JAppend) (left now : Nat) (a : JAppend) : (x.taking rest left now).withRec a =
    { x with queue := rest, bucket := left, wroteAt := now, next := x.next + 1,
             store := sput 0 x.store (131072 + x.next.toNat % 131072) (mkRec x.next a) } := rfl

/-- Settles O59: appends by the branch of the write, compaction by its two ends. -/
theorem journalCommands : Obligations.JournalCommands := by
  unfold Obligations.JournalCommands
  intro s a rest c
  dsimp only
  have hbusy (h : ¬(s.lmp.pkg ≠ .deep ∧ 9 ≤ s.mgc.step.toNat ∧ s.scv.wroteAt + 4096 ≤ s.cycle)) : scvFree s = false :=
    Bool.eq_false_iff.mpr (mt (scvFree_iff s).mp h)
  refine ⟨fun hq => ⟨fun hn => exec_journalRecordWrite_of_busy hq (hbusy hn), fun hf hb => ?noToken, fun hf hb => ?token⟩,
    ⟨recSeq_mkRec _ a, recType_mkRec _ a, recLen_mkRec _ a, recKey_mkRec _ a, payload_mkRec _ a, recValid_mkRec _ a⟩,
    fun hc hd => ?start, fun hc => ?commit⟩
  case noToken =>
    rw [exec_journalRecordWrite_of_empty hq ((scvFree_iff s).mpr hf) hb]
    exact ⟨fun hw => by rw [if_pos hw], fun hw => by simp [hw, scvTal]⟩
  case token =>
    rw [exec_journalRecordWrite_of_token hq ((scvFree_iff s).mpr hf) hb]
    exact ⟨fun hn => by rw [jStore_of_none s _ hn, taking_withRec, scvTal],
      fun ring idx hs => by rw [jStore_of_some s _ hs, taking_withRec, scvTal, Scv.taking]⟩
  case start =>
    refine ⟨fun hl => ?_, fun hl => ⟨compactBegin s none, ?_, rfl, rfl, fun p hp => writeArea_other _ _ _ ?_⟩⟩
    · simp [exec, execCompactionStart, doCompactStart, hl]
    · simp [exec, execCompactionStart, doCompactStart, hd, Nat.not_lt.mpr hl, hc]
    · cases harea : s.scv.area <;> simpa [areaPos, harea] using hp
  case commit =>
    refine ⟨?_, fun h => ?_, fun hd hf => ⟨_, rfl, ?_⟩⟩
    · simp [exec, execCompactionStart, doCompactStart, hc]
    · have hstay : s.cycle < c.since + 4096 * (c.count + 1) ∨ scvFree s = false := h.imp_right hbusy
      simp [exec, execCompactionCommit, doCompactCommit, hc, hstay]
    · rw [doCompactCommit_scv hc hd ((scvFree_iff s).mpr hf)]
      exact ⟨rfl, rfl, rfl, rfl, rfl, rfl, by simp only [Scv.withRec]⟩

end Sys2Proof.Machine
end

section
/-! Writes of whole aligned words to a bulk memory: the bytes behind them, and what they leave alone. -/

namespace Sys2Proof.Machine

/-! ### A write of whole words to a bulk memory (R401) -/

theorem bytesOfNat_natOfBytes (l : List Byte) : bytesOfNat l.length (natOfBytes l) = l := by
  induction l with
  | nil => rfl
  | cons b l ih =>
    have hlow : BitVec.ofNat 8 (b.toNat + 256 * natOfBytes l) = b := BitVec.eq_of_toNat_eq (by simpa using b.isLt)
    have hrest : (b.toNat + 256 * natOfBytes l) / 256 = natOfBytes l := by omega
    simp only [List.length_cons, natOfBytes, bytesOfNat, hlow, hrest, ih]

/-- The enabled bytes of a write that enables all. -/
theorem optAt_map_some (d : List Byte) (i : Nat) : optAt (d.map some) i = d[i]? := by
  cases h : d[i]? <;> simp [optAt, h]

/-- The words of a run of whole aligned words. -/
theorem words64_aligned {a k : Nat} (ha : a % 8 = 0) (hk : 0 < k) : words64 a (8 * k) = (List.range k).map (fun i => a + 8 * i) := by
  have hcount : (a + 8 * k - 1) / 8 - a / 8 + 1 = k := by omega
  rw [words64, if_neg (by omega), hcount]
  exact List.map_congr_left (fun i _ => by omega)

/-- The 8 bytes of word i of a run. -/
def wordBytes (d : List Byte) (i : Nat) : List Byte := (List.range 8).map (fun j => d.getD (8 * i + j) 0)

theorem wordBytes_length (d : List Byte) (i : Nat) : (wordBytes d i).length = 8 := by simp [wordBytes]

theorem wordBytes_getD (d : List Byte) (i : Nat) {j : Nat} (h : j < 8) : (wordBytes d i).getD j 0 = d.getD (8 * i + j) 0 := by
  simp [wordBytes, List.getD_eq_getElem?_getD, h]

/-- Each word of a run of whole words is enabled whole. -/
theorem wordOf_aligned {a i : Nat} {d : List Byte} (h : 8 * i + 8 ≤ d.length) :
    wordOf a (d.map some) (a + 8 * i) = (wordBytes d i).map some := by
  rw [wordOf, wordBytes, List.map_map]
  refine List.map_congr_left (fun j hj => ?_)
  have hj8 : j < 8 := List.mem_range.mp hj
  have hoff : a + 8 * i + j - a = 8 * i + j := by omega
  rw [if_neg (by omega), optAt_map_some, hoff, List.getElem?_eq_getElem (by omega), Function.comp_apply, List.getD_eq_getElem?_getD, List.getElem?_eq_getElem (by omega), Option.getD_some]

/-- Enabled bytes over as many bytes hide them all. -/
theorem overlay_map_some {d w : List Byte} (h : d.length = w.length) : overlay d (w.map some) = w :=
  List.ext_getElem (by simp [overlay, h]) (fun i _ h2 => by simp [overlay, h2])

/-- A word that is enabled whole is stored as given, whatever stood there. -/
theorem bulkWriteWord_whole (s : State) (m a : Nat) {w : List Byte} (hw : w.length = 8) :
    bulkWriteWord s m a (w.map some) false 0 0 = (false, (s.setBytes a w).setSyn a 0) := by
  have hover : overlay (List.replicate 8 0) (w.map some) = w := overlay_map_some (by rw [hw]; rfl)
  have hdata : bytesOfNat 8 (natOfBytes w) = w := by
    rw [← hw, bytesOfNat_natOfBytes]
  have hecc : eccOf 0 = 0 := by decide
  have hsome : (w.map some).all (fun x => x.isNone) = false := by
    obtain ⟨b, l, rfl⟩ := List.exists_cons_of_length_pos (l := w) (by omega)
    rfl
  have hevery : (w.map some).all (fun x => x.isSome) = true := by simp
  simp only [bulkWriteWord, hsome, hevery, Bool.false_eq_true, if_false, if_true, storeWord, hover, Nat.xor_zero, hdata, hecc]
  rfl

/-- The words of a run written one after the other: the bytes behind them, and nothing else but their syndromes. -/
def writeWords (s : State) (a : Nat) (d : List Byte) (k : Nat) : State :=
  (List.range k).foldl (fun t i => (t.setBytes (a + 8 * i) (wordBytes d i)).setSyn (a + 8 * i) 0) s

@[simp] theorem setSyn_byte (s : State) (a : Nat) (v : BitVec 8) (b : Nat) : (s.setSyn a v).byte b = s.byte b := rfl

theorem writeWords_succ (s : State) (a : Nat) (d : List Byte) (k : Nat) : writeWords s a d (k + 1) =
    ((writeWords s a d k).setBytes (a + 8 * k) (wordBytes d k)).setSyn (a + 8 * k) 0 := by
  simp [writeWords, List.range_succ]

theorem writeWords_byte (s : State) (a : Nat) (d : List Byte) (k b : Nat) :
    (writeWords s a d k).byte b = if a ≤ b ∧ b < a + 8 * k then d.getD (b - a) 0 else s.byte b := by
  induction k with
  | zero =>
    rw [if_neg (by omega)]
    rfl
  | succ k ih =>
    rw [writeWords_succ, setSyn_byte, setBytes_byte, wordBytes_length, ih]
    by_cases hin : a + 8 * k ≤ b ∧ b < a + 8 * k + 8
    · have hoff : 8 * k + (b - (a + 8 * k)) = b - a := by omega
      rw [if_pos hin, if_pos (by omega), wordBytes_getD _ _ (by omega), hoff]
    · rw [if_neg hin]
      exact ite_iff (by omega)

theorem writeWords_frame (s : State) (a : Nat) (d : List Byte) (k : Nat) :
    writeWords s a d k = { s with mem := (writeWords s a d k).mem, edc := (writeWords s a d k).edc } := by
  induction k with
  | zero => rfl
  | succ k ih =>
    rw [writeWords_succ, State.setSyn, setBytes_shape]
    generalize writeWords s a d k = t at ih ⊢
    rw [ih]

/-- A write of whole aligned words to an initialised store whose flip mask is off. -/
theorem bulkWrite1_whole {s : State} {a k m : Nat} {d : List Byte} {act : ActId} (hm : bulkMc a = some m) (hm2 : 2 ≤ m)
    (harm : (s.mc m).arm = false) (ha : a % 8 = 0) (hk : 0 < k) (hd : d.length = 8 * k) :
    bulkWrite1 s a (d.map some) 0 act = (Ans.only .ok, writeWords s a d k) := by
  have hwords : touched a (d.map some) = (List.range k).map (fun i => a + 8 * i) := by
    rw [touched, List.length_map, hd, words64_aligned ha hk]
    refine List.filter_eq_self.mpr (fun w hw => ?_)
    obtain ⟨i, hi, rfl⟩ := List.mem_map.mp hw
    have hi' := List.mem_range.mp hi
    rw [wordOf_aligned (by omega)]
    simp only [wordBytes, List.map_map, List.any_map, List.any_eq_true, List.mem_range]
    exact ⟨0, by decide, rfl⟩
  have hnone : ((List.range 4).any fun _ => false) = false := rfl
  have hfold : ∀ n ≤ k, ∀ (g : Nat → State → Bool × State), (∀ i < k, ∀ t, g (a + 8 * i) t =
      (false, (t.setBytes (a + 8 * i) (wordBytes d i)).setSyn (a + 8 * i) 0)) →
      ((List.range n).map (fun i => a + 8 * i)).foldl (fun (y : Bool × State) w => (y.1 || (g w y.2).1, (g w y.2).2)) (false, s) =
        (false, writeWords s a d n) := by
    intro n hn g hg
    induction n with
    | zero => rfl
    | succ n ih =>
      rw [List.range_succ, List.map_append, List.foldl_append, ih (by omega), writeWords_succ]
      simp [hg n (by omega)]
  rw [bulkWrite1, hm]
  dsimp only
  rw [if_neg (show ¬m < 2 by omega), hwords]
  simp only [harm, Bool.false_eq_true, false_and, if_false, ite_self]
  rw [hfold k (Nat.le_refl k) (fun w t => bulkWriteWord t m w (wordOf a (d.map some) w) _ 0 0) ?_]
  · rfl
  · intro i hi t
    rw [wordOf_aligned (by omega)]
    simp [hnone, bulkWriteWord_whole _ _ _ (wordBytes_length d i)]

end Sys2Proof.Machine
end

section
/-! The Assayer (O58): a real event by its kind and window, the end of fences, and the log's writes. -/

namespace Sys2Proof.Machine

/-! ### Hub memory and fences -/

theorem bulkMc_hubBase_add {o : Nat} (ho : o < 0x2000000) : bulkMc (hubBase + o) = some 2 := by
  have hpa : (BitVec.ofNat 44 (0x20000000000 + o)).toNat = 0x20000000000 + o := by
    rw [BitVec.toNat_ofNat]
    omega
  have hplace : place (BitVec.ofNat 44 (hubBase + o)) = .hubMem o := by
    simp only [place, hubBase, hpa, placeHub]
    rw [if_neg (by omega), if_neg (by omega), if_neg (by omega), if_neg (by omega), if_pos (by omega), if_pos (by omega),
      Nat.add_sub_cancel_left]
  rw [bulkMc, hplace]

/-- A write of whole aligned words that lies in one 256-byte block (R24). -/
theorem bulkWrite_whole {s : State} {a k m : Nat} {d : List Byte} {act : ActId} (hm : bulkMc a = some m) (hm2 : 2 ≤ m)
    (harm : (s.mc m).arm = false) (ha : a % 8 = 0) (hk : 0 < k) (hd : d.length = 8 * k) (hblk : a % 256 + 8 * k ≤ 256) :
    (bulkWrite s a (d.map some) 0 act).2 = writeWords s a d k := by
  have hpieces : pieces (d.length / 256 + 2) a d.length = [(a, d.length)] := by
    have hmin : min d.length (256 - a % 256) = d.length := by omega
    rw [pieces, if_neg (by omega), hmin]
    simp [pieces]
  rw [bulkWrite, List.length_map, hpieces]
  simp only [List.foldl_cons, List.foldl_nil, Nat.sub_self, List.drop_zero]
  have hall : (d.map some).take d.length = d.map some := List.take_of_length_le (by simp)
  simp [hall, bulkWrite1_whole hm hm2 harm ha hk hd]

theorem unlockPort_frame (s : State) (e : Elem) (p : Nat) : unlockPort s e p = { s with elems := (unlockPort s e p).elems } := by
  unfold unlockPort
  dsimp only
  split <;> rfl

/-- A fold of steps that change ports only changes ports only. -/
theorem foldl_elems_frame {α : Type} {f : State → α → State} (hf : ∀ t x, f t x = { t with elems := (f t x).elems }) (l : List α) (s : State) :
    l.foldl f s = { s with elems := (l.foldl f s).elems } := by
  induction l generalizing s with
  | nil => rfl
  | cons x l ih =>
    rw [List.foldl_cons, ih, hf s x]

theorem unlockUnit_frame (s : State) (u : FaultUnit) : unlockUnit s u = { s with elems := (unlockUnit s u).elems } := by
  cases u with
  | cluster gc => exact unlockPort_frame s _ _
  | region r => exact foldl_elems_frame (fun t c => unlockPort_frame t _ _) _ s
  | port e p => exact unlockPort_frame s _ _
  | _ => rfl

/-- The end of a source's fences changes the fences and the ports. -/
theorem unfence_frame (s : State) (n : SourceId) :
    unfence s n = { s with asy := { s.asy with fences := s.asy.fences.filter (fun f => f.src != n) }, elems := (unfence s n).elems } := by
  unfold unfence
  dsimp only
  rw [foldl_elems_frame (fun t f => unlockUnit_frame t f.unit)]

/-! ### Real events (R420 to R423) -/

@[simp] theorem asyTal_src (s : State) (i : Nat) (n : SourceId) : (asyTal s i).src n = s.src n := rfl
@[simp] theorem srcTal_src (s : State) (m : SourceId) (i : Nat) (n : SourceId) : (srcTal s m i).src n = s.src n := rfl

/-- A real event is counted, and leaves its detail at the source. -/
def eventNoted (s : State) (n : SourceId) (ev : FaultEv) : State :=
  (asyTal (srcTal s n 0) 0).setSrc n { s.src n with lastDet := ev.detail }

/-- A source classifies its event and reacts to it. -/
def eventClassed (t : State) (n : SourceId) (ev : FaultEv) : State :=
  let x := t.src n
  let c := classOf x
  react (t.setSrc n { x with lastClass := c }) n c.toNat (16 * b2n ev.durinj + 32 * b2n x.rpf)
    (if c.toNat < 2 then x.loreact.toNat else x.hireact.toNat) x.cnt ev.detail

theorem eventNoted_src (s : State) (n : SourceId) (ev : FaultEv) :
    (eventNoted s n ev).src n = { s.src n with lastDet := ev.detail } := by
  rw [eventNoted, State.setSrc_src, if_pos rfl]

section
variable {s : State} {n : SourceId} {ev : FaultEv}

theorem realEvent_of_disabled (he : (s.src n).en = false) : realEvent s n ev = eventNoted s n ev := by
  have hen : ((eventNoted s n ev).src n).en = false := by rw [eventNoted_src, he]
  exact if_pos hen

theorem realEvent_of_enabled (he : (s.src n).en = true) :
    realEvent s n ev = eventClassed (if (s.src n).kind = 0 then countEvent (eventNoted s n ev) n else eventNoted s n ev) n ev := by
  have hen : ¬((eventNoted s n ev).src n).en = false := by simp [eventNoted_src, he]
  have hkind : ((eventNoted s n ev).src n).kind = (s.src n).kind := by rw [eventNoted_src]
  rw [← hkind]
  exact if_neg hen

/-- An event without an open window opens one. -/
theorem countEvent_of_closed (h : (s.src n).wopen = false ∨ (s.src n).windowEnd ≤ s.cycle) :
    countEvent s n = s.setSrc n { s.src n with wopen := true, cnt := 1, windowEnd := s.cycle + winCycles (s.src n) } := by
  unfold countEvent closeWindow
  dsimp only
  by_cases hopen : (s.src n).wopen = true
  · have hend : (s.src n).windowEnd ≤ s.cycle := h.resolve_left (by simp [hopen])
    simp [hopen, hend, winCycles]
  · simp [hopen]

/-- An event in an open window counts in it. -/
theorem countEvent_of_open (h : ¬((s.src n).wopen = false ∨ (s.src n).windowEnd ≤ s.cycle)) (hc : (s.src n).cnt ≠ 0xFFFF) :
    countEvent s n = s.setSrc n { s.src n with cnt := (s.src n).cnt + 1 } := by
  obtain ⟨hopen, hend⟩ := not_or.mp h
  have hopen' : (s.src n).wopen = true := by simpa using hopen
  have hc' : ¬(s.src n).cnt = 65535#16 := hc
  simp [countEvent, closeWindow, hopen', hend, hc']

end

/-- A queued event of a listed source is presented. -/
theorem exec_faultSourceEvent_of_queued {s : State} {n : SourceId} {det : Word} {ev : FaultEv} {rest : List FaultEv} (hl : srcListed n = true)
    (hr : s.mgc.porst = false) (hq : sget [] s.asy.queued n.toNat = ev :: rest) (hi : ev.inj = false) :
    exec (.faultSourceEvent n det) s =
      .next (realEvent { s with asy := { s.asy with queued := sput [] s.asy.queued n.toNat rest } } n ev) := by
  simp [exec, execFaultSourceEvent, doSourceEvent, hl, hr, hq, hi]

/-- Settles O58: each command of the Assayer by the branch that its clause describes. -/
theorem assayerCommands : Obligations.AssayerCommands := by
  unfold Obligations.AssayerCommands
  intro s n det ev rest who v r l x count queue counted seen open0 cls flags done
  refine ⟨fun h => ?unlisted, fun hl hr hq hi => ?real, fun hl hr => ?report, fun hw => ?window, fun ho => ?unfence, fun j hj hn => ?inject,
    fun hb => ⟨fun h => ?logWaits, fun hready hdeep harm hlo => ?logged⟩⟩
  case unlisted => simp [exec, execFaultSourceEvent, execReportPathFault, doSourceEvent, doReportPath, h]
  case real =>
    rw [exec_faultSourceEvent_of_queued hl hr hq hi]
    have hsrc : (counted.setSrc n seen).src n = seen := eventNoted_src queue n ev
    have hclass (y : FaultSrc) (hrpf : y.rpf = x.rpf) (hlo : y.loreact = x.loreact) (hhi : y.hireact = x.hireact) :
        eventClassed (counted.setSrc n y) n ev = done { y with lastClass := classOf y } := by
      simp only [eventClassed, State.setSrc_src, State.setSrc_setSrc, if_true, hrpf, hlo, hhi]
      rfl
    have henabled (he : x.en = true) : realEvent queue n ev =
        eventClassed (if x.kind = 0 then countEvent (counted.setSrc n seen) n else counted.setSrc n seen) n ev := realEvent_of_enabled he
    refine ⟨fun he => congrArg _ (realEvent_of_disabled he), fun he hk => congrArg _ ?fatal, fun he hk => congrArg _ ?info,
      fun he hk ho => congrArg _ ?opens, fun he hk ho hc => congrArg _ ?counts⟩
    case fatal =>
      rw [henabled he, if_neg (by rw [hk]; decide), hclass seen rfl rfl rfl]
      simp [classOf, seen, hk]
    case info =>
      rw [henabled he, if_neg (by rw [hk]; decide), hclass seen rfl rfl rfl]
      simp [classOf, seen, hk]
    case opens =>
      rw [henabled he, if_pos hk, countEvent_of_closed (by rw [hsrc]; exact ho), State.setSrc_setSrc, hsrc]
      refine (hclass _ (by rfl) (by rfl) (by rfl)).trans ?_
      simp only [classOf, seen, hk]
      rfl
    case counts =>
      rw [henabled he, if_pos hk, countEvent_of_open (by rw [hsrc]; exact ho) (by rw [hsrc]; exact hc), State.setSrc_setSrc, hsrc]
      refine (hclass _ (by rfl) (by rfl) (by rfl)).trans ?_
      have hnext : (x.cnt + 1).toNat = x.cnt.toNat + 1 := by
        have hlt : x.cnt.toNat ≠ 65535 := fun h => hc (BitVec.eq_of_toNat_eq h)
        rw [BitVec.toNat_add]
        have := x.cnt.isLt
        simp
        omega
      simp only [classOf, seen, hk, hnext]
      rfl
  case report =>
    simp only [exec, execReportPathFault, doReportPath, hl, hr]
    rfl
  case window =>
    refine ⟨fun he => ?_, fun he => ?_⟩
    · exact congrArg _ (if_pos ⟨hw, he⟩)
    · exact congrArg _ (if_neg fun h => absurd h.2 (Nat.not_le.mpr he))
  case unfence =>
    refine ⟨_, congrArg Host.Outcome.next (regCmd_of_open ho _), ?_⟩
    rw [unfence_frame]
    exact ⟨rfl, rfl⟩
  case inject =>
    have hfind : s.asy.inj.find? (fun j => j.src == n) = some j := by simp [hj, hn]
    have hrest : s.asy.inj.filter (fun y => y.src != n) = [] := by simp [hj, hn]
    refine ⟨fun he => ?_, fun he => ?_⟩
    · simp [exec, execFaultInjectTimeout, doInjTimeout, hfind, he]
    · simp only [exec, execFaultInjectTimeout, doInjTimeout, hfind, if_neg (Nat.not_lt.mpr he), hrest]
  case logWaits => simp [exec, execLogRecordWrite, doLogWrite, hb, h]
  case logged =>
    let off := (s.asy.logBase.toNat + 32 * (bits r.toNat 192 32 % 2 ^ s.asy.log2n.toNat)) % 0x2000000
    have hoff : off < 0x2000000 := Nat.mod_lt _ (by decide)
    have hlo' : (hubBase + off) % 32 = 0 := hlo
    have hexec : exec .logRecordWrite s = .next (bulkWrite { s with asy := { s.asy with buf := l } } (hubBase + off)
        ((bytesOfNat 32 r.toNat).map some) 0 0).2 := by
      simp [exec, execLogRecordWrite, doLogWrite, hb, hready, hdeep, off]
    rw [bulkWrite_whole (s := { s with asy := { s.asy with buf := l } }) (k := 4) (bulkMc_hubBase_add hoff) (by decide) harm (by omega) (by decide)
      (bytesOfNat_length 32 _) (by omega)] at hexec
    refine ⟨_, hexec, ?_, fun b => ?_⟩
    · rw [writeWords_frame]
    · rw [writeWords_byte]
      rfl

end Sys2Proof.Machine
end

section
/-! Stored data (O57): the checked read of one word, the scrubber on clean words, the clear of the written-block map, and the flip mask. -/

namespace Sys2Proof.Machine

/-! ### Checks change no memory (R425) -/

@[simp] theorem completeCmd_mem (s : State) (ring : RingId) (idx : Word) (o : Outc) (flags result result2 : Word) :
    (completeCmd s ring idx o flags result result2).mem = s.mem := by rw [completeCmd_frame]

@[simp] theorem queueEvent_mem (s : State) (n : SourceId) (ev : FaultEv) : (queueEvent s n ev).mem = s.mem := by
  unfold queueEvent
  dsimp only
  split <;> rfl

@[simp] theorem check_mem (s : State) (n : SourceId) (found : Bool) (detail : Word) : (check s n found detail).mem = s.mem := by
  unfold check report
  split
  · split <;> simp
  · dsimp only
    split <;> cases found <;> simp

@[simp] theorem lastErr_mem (s : State) (m word syn typ : Nat) (scrub : Bool) : (lastErr s m word syn typ scrub).mem = s.mem := rfl

/-- Without an injection a check that finds nothing does nothing. -/
theorem check_of_clean {s : State} (hi : s.asy.inj = []) (n : SourceId) (detail : Word) : check s n false detail = s := by
  simp [check, hi]

/-- Without an injection the checks of a clean word do nothing. -/
theorem bulkCheck_of_clean {s : State} (hi : s.asy.inj = []) {a : Nat} (hs : s.synOf a = 0) (m : Nat) (scrub : Bool) :
    bulkCheck s m a scrub = s := by
  have hclean : eccClass (BitVec.toNat (0 : BitVec 8)) = .clean := rfl
  simp only [bulkCheck, hs, hclean]
  rw [check_of_clean hi]
  exact check_of_clean hi _ _

@[simp] theorem bulkCheck_mem (s : State) (m a : Nat) (scrub : Bool) : (bulkCheck s m a scrub).mem = s.mem := by
  simp [bulkCheck]

/-! ### One word (R399, R400) -/

theorem bulkReadWord_of_clean {s : State} (hi : s.asy.inj = []) {a : Nat} (hs : s.synOf a = 0) (m : Nat) :
    bulkReadWord s m a = (s.bytes a 8, .clean, s) := by
  have hclean : eccClass (BitVec.toNat (0 : BitVec 8)) = .clean := rfl
  simp only [bulkReadWord, bulkCheck_of_clean hi hs, hs, hclean]

@[simp] theorem bulkReadWord_class (s : State) (m a : Nat) : (bulkReadWord s m a).2.1 = eccClass (s.synOf a).toNat := by
  unfold bulkReadWord
  dsimp only
  split <;> simp [*]

theorem bulkReadWord_data (s : State) (m a : Nat) {i : Nat} (hc : eccClass (s.synOf a).toNat = .single (some i)) :
    (bulkReadWord s m a).1 = flipBit (s.bytes a 8) i := by
  simp [bulkReadWord, hc]

@[simp] theorem bulkReadWord_mem (s : State) (m a : Nat) : (bulkReadWord s m a).2.2.mem = s.mem := by
  unfold bulkReadWord
  dsimp only
  split <;> simp

@[simp] theorem bulkReadWord_length (s : State) (m a : Nat) : (bulkReadWord s m a).1.length = 8 := by
  unfold bulkReadWord
  dsimp only
  split
  · simp [State.bytes]
  · split <;> simp [State.bytes, flipBit]
  · simp [State.bytes]
  · simp [State.bytes]

/-- What a read of one whole word of an initialised store answers, by the word's class. -/
theorem bulkRead1_word {s : State} {a m : Nat} (act : ActId) (hm : bulkMc a = some m) (hm2 : 2 ≤ m) (ha : a % 8 = 0) :
    bulkRead1 s a 8 act =
      let c := eccClass (s.synOf a).toNat
      let o : Outc := match c with | .clean => .ok | .single _ => .okFlagged | _ => .uncorrectable
      ({ outc := o, flags := if o = .okFlagged then 0x80 else 0, data := (bulkReadWord s m a).1,
         poison := List.replicate 4 (c == .poison || c == .bad) }, (bulkReadWord s m a).2.2) := by
  have hwords : words64 a 8 = [a] := by
    rw [show (8 : Nat) = 8 * 1 from rfl, words64_aligned ha (by decide)]
    rfl
  have htake : (bulkReadWord s m a).1.take 8 = (bulkReadWord s m a).1 := List.take_of_length_le (by simp)
  simp only [bulkRead1, hm, show ¬m < 2 by omega, false_and, if_false, hwords, List.foldl_cons, List.foldl_nil,
    bulkReadWord_class, ha, List.nil_append, List.drop_zero, Nat.zero_div, htake]
  refine Prod.ext ?_ rfl
  cases eccClass (s.synOf a).toNat <;> rfl

/-! ### Scrubbing (R405) -/

/-- The scrubber passes a clean word. -/
theorem scrubWord_of_clean {s : State} (hi : s.asy.inj = []) (m w : Nat) (hs : s.synOf (mcAddr m w) = 0) : scrubWord s m w = s := by
  have hclean : eccClass (BitVec.toNat (0 : BitVec 8)) = .clean := rfl
  simp only [scrubWord, bulkCheck_of_clean hi hs, hs, hclean]

theorem scrubBlock_of_clean {s : State} (hi : s.asy.inj = []) {m : Nat} (hm : 2 ≤ m) (w : Nat) (hs : ∀ a, s.synOf a = 0) :
    scrubBlock s m w = s := by
  have hfold (l : List Nat) : l.foldl (fun t i => scrubWord t m (w + i)) s = s := by
    induction l with
    | nil => rfl
    | cons i l ih => rw [List.foldl_cons, scrubWord_of_clean hi m _ (hs _), ih]
  simp only [scrubBlock, if_neg (show ¬m < 2 by omega)]
  exact hfold _

theorem scrubDue_iff (s : State) (m : Nat) : scrubDue s m = true ↔
    (s.mc m).scrubEn = true ∧ mcReady s m = true ∧ mcOn s m = true ∧ m < 19 ∧ (s.mc m).interval.toNat * 16 ≤ s.cycle - (s.mc m).scrubSince := by
  simp [scrubDue, and_assoc]

theorem exec_flipArm_of_open {s : State} {who : Initiator} {m : McId} {v : Word} (ho : regOpen s who (mcBase m.toNat + 0x18) = true)
    (hl : mcListed s m.toNat = true) : exec (.flipArm who m v) s =
      (flipCtlWrite s m.toNat (v ||| 0x100)).2.ends (flipCtlWrite s m.toNat (v ||| 0x100)).1 :=
  congrArg Host.Outcome.next ((regCmd_of_open ho _).trans (if_pos hl))

/-- Settles O57: each command by the branch of its checks. -/
theorem storedData : Obligations.StoredData := by
  unfold Obligations.StoredData
  intro s ini pa len d poison act who m v a t e x blocks
  refine ⟨fun hm => ⟨fun h => ?read, fun h => ?write⟩, fun k w hk hk2 hw hi => ?word, fun hm hm2 hen hready hon => ⟨fun hdue => ?notDue,
    fun hdue hs hi => ?due⟩, fun ho => ?clear, fun hp => ⟨fun h1 => ?last, fun h1 => ?more⟩, fun ho hl => ⟨fun ha => ?armed, fun ha => ?arms⟩⟩
  case read =>
    have hsome : (bulkMc pa.toNat).isNone = false := by simpa using hm
    simp [exec, execBulkMemoryRead, doBulkRead, hsome, h, settleAcc]
  case write =>
    have hsome : (bulkMc pa.toNat).isNone = false := by simpa using hm
    simp only [exec, execBulkMemoryWrite, doBulkWrite, hsome, h, settleAcc, Bool.false_eq_true, if_false]
  case word =>
    intro syn r
    have hr : r = _ := bulkRead1_word act hk hk2 hw
    refine ⟨fun h0 => ?_, fun i hc => ?_, fun hc => ?_, fun b => ?_⟩
    · have hs : s.synOf w = 0 := BitVec.eq_of_toNat_eq h0
      rw [hr, bulkReadWord_of_clean hi hs, hs]
      rfl
    · rw [hr, bulkReadWord_data _ _ _ hc, show eccClass (s.synOf w).toNat = _ from hc]
      rfl
    · rw [hr]
      obtain hc | hc := hc
      · rw [show eccClass (s.synOf w).toNat = _ from hc]
        exact ⟨rfl, rfl⟩
      · rw [show eccClass (s.synOf w).toNat = _ from hc]
        exact ⟨rfl, rfl⟩
    · rw [hr]
      exact congrArg (fun mem => sget 0 mem b) (bulkReadWord_mem s k w)
  case notDue =>
    have hno : scrubDue s m.toNat = false := by
      rw [Bool.eq_false_iff, ne_eq, scrubDue_iff]
      exact fun h => absurd h.2.2.2.2 (Nat.not_le.mpr hdue)
    simp [exec, execScrubRead, doScrub, hno]
  case due =>
    have hyes : scrubDue s m.toNat = true := (scrubDue_iff _ _).mpr ⟨hen, hready, hon, hm, hdue⟩
    refine ⟨fun hlast => ?_, fun hlast => ?_⟩
    · simp [exec, execScrubRead, doScrub, hyes, scrubBlock_of_clean hi hm2 _ hs, Nat.not_le.mpr hlast, x]
    · simp [exec, execScrubRead, doScrub, hyes, scrubBlock_of_clean hi hm2 _ hs, hlast, x]
  case clear =>
    have hexec : exec (.wmapClearStart who v) s = (wmapStart s v).2.ends (wmapStart s v).1 := congrArg _ (regCmd_of_open ho _)
    rw [hexec]
    refine ⟨fun hb => ?_, fun hb hn => ?_, fun hb h0 hn => ?_⟩
    · have h : wmapStart s v = (.notPermitted, s) := if_pos hb
      rw [h]
    · have h : wmapStart s v = (.ok, s) := (if_neg (not_not_intro hb)).trans (if_pos hn)
      rw [h]
    · have h : wmapStart s v = (.ok, { s with edc := { e with clrLeft := blocks, clrNext := e.clrFirst.toNat } }) :=
        (if_neg (not_not_intro hb)).trans (if_neg (not_or.mpr ⟨Nat.ne_of_gt h0, Nat.not_lt.mpr hn⟩))
      rw [h]
  case last => simp [exec, execWmapClearDone, doWmapDone, wmapStep, hp, show s.edc.clrLeft = 1 from h1, e]
  case more => simp [exec, execWmapClearDone, doWmapDone, show s.edc.clrLeft ≠ 1 from h1]
  case armed =>
    have h : flipCtlWrite s m.toNat (v ||| 0x100) = (.notPermitted, s) := if_pos ha
    rw [exec_flipArm_of_open ho hl, h]
  case arms =>
    have hchk : slice (v ||| 0x100) 0 8 = slice v 0 8 := by
      apply BitVec.eq_of_toNat_eq
      simp [slice]
    have harm : (v ||| 0x100).getLsbD 8 = true := by simp
    have h : flipCtlWrite s m.toNat (v ||| 0x100) = (.ok, s.setMc m.toNat { x with chk := slice v 0 8, arm := true }) := by
      rw [← hchk, ← harm]
      exact if_neg (by simp [show (s.mc m.toNat).arm = false from ha])
    rw [exec_flipArm_of_open ho hl, h]

end Sys2Proof.Machine
end

section
/-! Queue accesses through the fabric (O30): the order of the checks of an enqueue, the head of a FIFO queue, and what a status read leaves. -/

namespace Sys2Proof.Machine

/-! ### Queues and their counters -/

@[simp] theorem Slice.setQueue_queue (x : Slice) (i j : BitVec 10) (q : Queue) : (x.setQueue i q).queue j = if j = i then q else x.queue j := by
  simp [Slice.setQueue, Slice.queue, get_put, BitVec.toNat_inj]

@[simp] theorem qTal_slice (s : State) (q : QueueId) (off n : Nat) (gc : ClusterId) : (qTal s q off n).slice gc = s.slice gc := rfl
@[simp] theorem schTal_slice (s : State) (gc' : ClusterId) (off n : Nat) (gc : ClusterId) : (schTal s gc' off n).slice gc = s.slice gc := rfl

theorem sget_tallyAdd_other (s : State) {a b : Nat} (n : Nat) (h : b ≠ a) : sget 0 (tallyAdd s a n).tally b = sget 0 s.tally b := by
  rw [tallyAdd, sget_sput, if_neg h]

/-! ### Enqueue (R186) -/

/-- The queue with an entry behind the others, counted. -/
def enqueued (s : State) (q : QueueId) (e : Entry) : State :=
  let gc := queueCluster q
  let x := s.slice gc
  let y := x.queue (queueLocal q)
  qTal (s.setSlice gc { x.setQueue (queueLocal q) { y with
    ents := y.ents ++ [{ e := e, seq := x.seq, at0 := s.tick, dead := false, bad := false }] } with seq := x.seq + 1 }) q 0x400 1

/-- An entry that the queue takes is appended. -/
theorem enqueue_of_takes {s : State} {q : QueueId} {e : Entry} (h : queueTakes s q e) {src : EnqFrom} (hsrc : src ≠ .cascade) :
    enqueue s src q e = (.accepted, enqueued s q e) := by
  obtain ⟨hen, hact, hbad, hfull⟩ := h
  have hact' : ¬(((s.slice (queueCluster q)).queue (queueLocal q)).actchk = true ∧ eAct e ≠ ((s.slice (queueCluster q)).queue (queueLocal q)).act) :=
    fun h => h.2 (hact h.1)
  simp only [enqueue, hen, hsrc, hbad, hfull, if_neg hact', Bool.true_eq_false, Bool.false_eq_true, false_and, if_false, enqueued]

theorem enqueued_gained (s : State) (q : QueueId) (e : Entry) : queueGained s (enqueued s q e) q e := by
  refine ⟨?_, fun lq' h => ?_⟩
  · simp only [enqueued, qTal_slice, State.setSlice_slice, if_true]
    exact (Slice.setQueue_queue _ _ _ _).trans (if_pos rfl)
  · simp only [enqueued, qTal_slice, State.setSlice_slice, if_true]
    exact (Slice.setQueue_queue _ _ _ _).trans (if_neg h)

theorem enqueued_frame (s : State) (q : QueueId) (e : Entry) :
    enqueued s q e = { s with slices := (enqueued s q e).slices, tally := (enqueued s q e).tally } := rfl

theorem enqueued_tally_other (s : State) (q : QueueId) (e : Entry) {a : Nat} (h : a ≠ qtalKey q 0x400) :
    sget 0 (enqueued s q e).tally a = sget 0 s.tally a := sget_tallyAdd_other _ 1 h

/-- An access that does not come from a core of the cluster and finds its way open acts. -/
theorem queueGate_of_pass {s : State} {src : Initiator} {q : QueueId} (hc : ∀ g, enqFrom src q ≠ .core g)
    (hw : (queueWay s (iniNode src) q).1 = .pass) (eff : State) : queueGate s src q eff = eff := by
  unfold queueGate
  split
  · next g h => exact absurd h (hc g)
  · split
    · rfl
    · next o t h => simp [h] at hw
    · next u t h => simp [h] at hw

theorem enqFrom_eq_fabric {src : Initiator} {q : QueueId} (hc : ∀ g, enqFrom src q ≠ .core g) (hcas : enqFrom src q ≠ .cascade) :
    enqFrom src q = .fabric := by
  cases h : enqFrom src q with
  | core g => exact absurd h (hc g)
  | fabric => rfl
  | cascade => exact absurd h hcas

/-! ### Dequeue (R188) -/

/-- The head of a FIFO queue whose first entry is live and the oldest. -/
theorem headOf_cons {q : Queue} {h : QEnt} {rest : List QEnt} (ht : q.typ = 0) (he : q.ents = h :: rest) (hd : h.dead = false)
    (hs : ∀ y ∈ rest, h.seq < y.seq) : headOf q = some h := by
  have hfold (l : List QEnt) (hl : ∀ y ∈ l, h.seq < y.seq) :
      l.foldl (fun best x => match best with | none => some x | some b => if leavesFirst q.typ x b then some x else some b) (some h) = some h := by
    induction l with
    | nil => rfl
    | cons y l ih =>
      have hy : leavesFirst q.typ y h = false := by simp [leavesFirst, ht, Nat.le_of_lt (hl y (by simp))]
      rw [List.foldl_cons]
      simp only [hy]
      exact ih (fun z hz => hl z (by simp [hz]))
  simp only [headOf, he, List.filter_cons, hd, Bool.not_false, if_true, List.foldl_cons]
  exact hfold _ (fun y hy => hs y ((List.mem_filter.mp hy).1))

/-- The rest of a FIFO queue without its head. -/
theorem removeSeq_cons {q : Queue} {h : QEnt} {rest : List QEnt} (he : q.ents = h :: rest) (hs : ∀ y ∈ rest, h.seq < y.seq) :
    removeSeq q h.seq = { q with ents := rest } := by
  have hrest : rest.filter (fun y => y.seq != h.seq) = rest :=
    List.filter_eq_self.mpr (fun y hy => by simpa using Nat.ne_of_gt (hs y hy))
  simp [removeSeq, he, hrest]

/-- Taking the head of a FIFO queue whose first entry reads well. -/
theorem takeFrom_cons {s : State} {qid : QueueId} {h : QEnt} {rest : List QEnt}
    (ht : ((s.slice (queueCluster qid)).queue (queueLocal qid)).typ = 0)
    (he : ((s.slice (queueCluster qid)).queue (queueLocal qid)).ents = h :: rest) (hd : h.dead = false) (hb : h.bad = false)
    (hs : ∀ y ∈ rest, h.seq < y.seq) :
    takeFrom s qid = (some h, s.setSlice (queueCluster qid) ((s.slice (queueCluster qid)).setQueue (queueLocal qid)
      { (s.slice (queueCluster qid)).queue (queueLocal qid) with ents := rest })) := by
  simp only [takeFrom, takeHead, headOf_cons ht he hd hs, hb, removeSeq_cons he hs, Bool.false_eq_true, if_false]

/-- Settles O30: an access from the fabric acts when its way is open, by the check that decides. -/
theorem queueAccess_holds : Obligations.QueueAccess := by
  unfold Obligations.QueueAccess
  intro s src q e gc x f refused hcore hcas hway
  have hgate (eff : State) : queueGate s src q eff = eff := queueGate_of_pass hcore hway eff
  have hf : f = .fabric := enqFrom_eq_fabric hcore hcas
  have henq : exec (.queueEnqueue src q e) s = .next (doEnqueue s .fabric q e) := by
    rw [← hf]
    exact congrArg _ (hgate _)
  have hdeq : exec (.queueDequeue src q) s = .next ((dequeue s q).2.answer (dequeue s q).1) := congrArg _ (hgate _)
  have hen (h : x.en = true) : ((s.slice (queueCluster q)).queue (queueLocal q)).en = true := h
  have hcores (he : x.en = true) (hc : x.cons = 2) : dequeue s q = match takeFrom s q with
      | (none, s1) => ({ outc := .ok, flags := 0, data := List.replicate 32 0, poison := [] }, s1)
      | (some h, s1) => ({ outc := .ok, flags := 0, data := bytesOfNat 32 h.e.toNat, poison := [] }, countOut s1 q h.at0) :=
    if_neg (by simp [hen he, show ((s.slice (queueCluster q)).queue (queueLocal q)).cons = 2 from hc])
  refine ⟨fun ht => ?takes, fun he => ?off, fun he hc ha => ?act, fun he ha hb => ?bad, fun he ha hb hfull => ?full, fun hn => ?noQueue,
    fun he hc h0 => ?empty, fun h rest he hc ht hents hd hbad hs => ?head, ?status⟩
  case takes =>
    refine ⟨(enqueued s q e).answerOnly .ok, ?_, enqueued_gained s q e, rfl, rfl, fun a ha => enqueued_tally_other s q e ha⟩
    rw [henq, doEnqueue, enqueue_of_takes ht (by simp)]
  case off =>
    have h : enqueue s .fabric q e = (.refused .notPermitted, schTal s gc 0x218 1) := if_pos he
    rw [henq, doEnqueue, h]
    rfl
  case act =>
    have h : enqueue s .fabric q e = (.refused .notPermitted, schTal s gc 0x218 1) :=
      (if_neg (by simp [hen he])).trans ((if_neg (by simp)).trans (if_pos ⟨hc, ha⟩))
    rw [henq, doEnqueue, h]
    rfl
  case bad =>
    have h : enqueue s .fabric q e = (.refused .badDescriptor, schTal s gc 0x218 1) :=
      (if_neg (by simp [hen he])).trans ((if_neg (by simp)).trans ((if_neg ha).trans (if_pos hb)))
    rw [henq, doEnqueue, h]
    rfl
  case full =>
    have h : enqueue s .fabric q e = (.full, schTal s gc 0x210 1) :=
      (if_neg (by simp [hen he])).trans ((if_neg (by simp)).trans ((if_neg ha).trans ((if_neg (Bool.eq_false_iff.mp hb)).trans (if_pos hfull))))
    rw [henq, doEnqueue, h]
    rfl
  case noQueue =>
    have h : dequeue s q = (Ans.only .notPermitted, s) := if_pos hn
    rw [hdeq, h]
    rfl
  case empty =>
    have h0' : ((s.slice (queueCluster q)).queue (queueLocal q)).ents = [] := h0
    have htake : takeFrom s q = (none, s) := by simp [takeFrom, takeHead, headOf, h0']
    have h : dequeue s q = ({ outc := .ok, flags := 0, data := List.replicate 32 0, poison := [] }, s) := by
      rw [hcores he hc, htake]
    rw [hdeq, h]
  case head =>
    have htake := takeFrom_cons (s := s) (qid := q) ht hents hd hbad hs
    refine ⟨_, hdeq, ?_⟩
    rw [hcores he hc, htake]
    refine ⟨rfl, ?_, rfl⟩
    simp only [countOut, State.answer]
    exact (congrArg (fun y => Slice.queue y (queueLocal q)) ((State.setSlice_slice _ _ _ _).trans (if_pos rfl))).trans
      ((Slice.setQueue_queue _ _ _ _).trans (if_pos rfl))
  case status =>
    rw [← hf]
    exact congrArg _ (hgate _)

end Sys2Proof.Machine
end

section
/-! Queue configuration, END and CANCEL (O31): what a write of SCH_QCFG makes of a queue, and what an END and a CANCEL leave in the slice. -/

namespace Sys2Proof.Machine

/-! ### SCH_QCFG (R184) -/

theorem slice_eq_extractLsb' {n : Nat} (x : BitVec n) (lo w : Nat) : slice x lo w = x.extractLsb' lo w := by
  simp [slice, BitVec.extractLsb', Nat.shiftRight_eq_div_pow]

/-- A field sees the bits from its first on only. -/
theorem slice_congr {n : Nat} {x y : BitVec n} {lo : Nat} (w : Nat) (h : ∀ i, lo ≤ i → x.getLsbD i = y.getLsbD i) : slice x lo w = slice y lo w := by
  refine BitVec.eq_of_getLsbD_eq (fun i hi => ?_)
  simp [slice_eq_extractLsb', BitVec.getLsbD_extractLsb', h (lo + i) (Nat.le_add_right lo i)]

/-- The queue after an allowed write that leaves EN as given (R184). -/
def qcfgWith (q : Queue) (v : Word) (en : Bool) : Queue :=
  { q with en := en, typ := if (slice v 1 2 : BitVec 2) = 3 then q.typ else slice v 1 2, cons := if (slice v 3 2 : BitVec 2) = 3 then q.cons else slice v 3 2,
           qprio := slice v 5 3, actchk := v.getLsbD 8, remote := v.getLsbD 9, act := slice v 16 9 }

/-- Two words that differ in bit 0 only write the same fields but EN. -/
theorem qcfgSet_eq {q : Queue} {v w : Word} {en : Bool} (h0 : w.getLsbD 0 = en) (h : ∀ i, 1 ≤ i → w.getLsbD i = v.getLsbD i) :
    qcfgSet q w = qcfgWith q v en := by
  have hs (lo n : Nat) (hlo : 1 ≤ lo) : slice w lo n = slice v lo n := slice_congr n (fun i hi => h i (Nat.le_trans hlo hi))
  simp only [qcfgSet, qcfgWith, keepIf, h0, h 8 (by decide), h 9 (by decide), hs 1 2 (by decide), hs 3 2 (by decide), hs 5 3 (by decide),
    hs 16 9 (by decide), beq_iff_eq]

theorem qcfgSet_enable (q : Queue) (v : Word) : qcfgSet q (v ||| 1) = qcfgWith q v true :=
  qcfgSet_eq (by simp) (fun i hi => by
    have hne : i ≠ 0 := by omega
    simp [hne])

theorem qcfgSet_disable (q : Queue) (v : Word) : qcfgSet q (v &&& ~~~1) = qcfgWith q v false :=
  qcfgSet_eq (by simp) (fun i hi => by
    by_cases h32 : i < 32
    · have hne : ¬(i = 0) := by omega
      rw [show (1 : Word) = BitVec.ofNat 32 (2 ^ 0) from rfl, getLsbD_and_not_two_pow v 0 h32]
      rw [decide_eq_false hne]
      rfl
    · rw [BitVec.getLsbD_of_ge _ _ (by omega), BitVec.getLsbD_of_ge _ _ (by omega)])

section
variable {s : State} {who : Initiator} {gc : ClusterId} (ho : regOpen s who (schBase gc + 0x18) = true)
include ho

theorem exec_queueEnable_of_open (v : Word) :
    exec (.queueEnable who gc v) s = (qcfgWrite s gc (v ||| 1)).2.ends (qcfgWrite s gc (v ||| 1)).1 :=
  congrArg Host.Outcome.next (regCmd_of_open ho _)

theorem exec_queueDisable_of_open (v : Word) :
    exec (.queueDisable who gc v) s = (qcfgWrite s gc (v &&& ~~~1)).2.ends (qcfgWrite s gc (v &&& ~~~1)).1 :=
  congrArg Host.Outcome.next (regCmd_of_open ho _)

end

theorem qcfgWrite_of_none {s : State} {gc : ClusterId} {v : Word} (h : qcfgAns ((s.slice gc).queue (s.slice gc).qidx) v = none) :
    qcfgWrite s gc v = (.notPermitted, s) := by
  simp only [qcfgWrite, h]

theorem qcfgWrite_of_some {s : State} {gc : ClusterId} {v : Word} {q : Queue} (h : qcfgAns ((s.slice gc).queue (s.slice gc).qidx) v = some q) :
    qcfgWrite s gc v = (.ok, s.setSlice gc ((s.slice gc).setQueue (s.slice gc).qidx q)) := by
  simp only [qcfgWrite, h]

/-- The answer to a write that would leave the queue as q1 (R184). -/
theorem qcfgAns_eq {q q1 : Queue} {w : Word} (h : qcfgSet q w = q1) : qcfgAns q w =
    if q.en then
      if { q1 with en := true } ≠ q then none else if q1.en then some q1 else if q.ents = [] then some q1 else none
    else if q1.en then
      if 1 ≤ q.cap.toNat ∧ q.cap.toNat ≤ 4096 ∧ q.base.toNat * 32 + q.cap.toNat * 32 ≤ 0x100000 then some q1 else none
    else some q1 := by
  rw [← h]
  rfl

/-! ### END (R200, R203) -/

theorem returnStolen_of_own {x : Slice} {t : Task} (h : t.stolen = false) : returnStolen x t = x := by simp [returnStolen, h]

/-- The slice with the record of a task that ended in its buffer. -/
def endRecorded (s : State) (gc : ClusterId) (t : Task) (result : Word) : Slice :=
  { s.slice gc with recbuf := (s.slice gc).recbuf ++ (taskRecord s t (if t.missed then .deadlineMissed else .ok) result).toList }

/-- The record of an END has room, or the task forms none: the slice with it in the buffer. -/
theorem endCmd_of_running {s : State} {gc : ClusterId} {k : BitVec 3} {result : Word} {t : Task} (hst : ((s.slice gc).score k).st = .running)
    (hcur : ((s.slice gc).score k).cur = some t) (hown : t.stolen = false)
    (hroom : eNoCompl t.raw = true ∨ ((s.slice gc).recbuf.length < 16 ∧ (s.slice gc).waitRecs = [])) :
    endCmd s gc k result = (.done, afterEnd s gc k (endRecorded s gc t result) ((s.slice gc).score k)) := by
  simp only [endCmd, hst, hcur, returnStolen_of_own hown, endRecorded]
  cases hno : eNoCompl t.raw with
  | true => simp [taskRecord, hno]
  | false =>
    obtain ⟨hlen, hwait⟩ := hroom.resolve_left (by simp [hno])
    simp [taskRecord, hno, recordRoom, hlen, hwait]

/-- A core is that of its cluster and index. -/
theorem coreOf_own (g : CoreId) : coreOf (coreCluster g) (coreIndex g) = g := by
  apply BitVec.eq_of_toNat_eq
  simp only [coreOf, coreCluster, coreIndex, slice, BitVec.toNat_ofNat]
  omega

@[simp] theorem Slice.setScore_score (x : Slice) (i j : BitVec 3) (c : SCore) : (x.setScore i c).score j = if j = i then c else x.score j := by
  simp [Slice.setScore, Slice.score, BitVec.toNat_inj]

section
variable (s : State) (gc : ClusterId) (k : BitVec 3) (x : Slice) (y : SCore)

/-- What the end of a task leaves in the slice besides the core's record. -/
theorem afterEnd_slice : ∃ z, (afterEnd s gc k x y).slice gc = x.setScore k z ∧
    (y.next = none → z.st = .free ∧ z.cur = none) ∧
    (∀ n, y.next = some n → z.st = .bound ∧ z.cur = some n ∧ z.dispatch = some (dispatchTval n y.resume false)) := by
  unfold afterEnd
  cases hn : y.next with
  | none =>
    exact ⟨_, (State.setSlice_slice s _ _ _).trans (if_pos rfl), fun _ => ⟨rfl, rfl⟩, fun n h => nomatch h⟩
  | some n =>
    refine ⟨_, (State.setSlice_slice s _ _ _).trans (if_pos rfl), (fun h => nomatch h), fun m h => ?_⟩
    obtain rfl := Option.some.inj h
    exact ⟨rfl, rfl, rfl⟩

theorem afterEnd_tdesc {n : Task} (hn : y.next = some n) : ((afterEnd s gc k x y).core (coreOf gc k)).c.tdesc = n.raw := by
  simp [afterEnd, hn, setTdesc, State.updCore]

end

/-! ### CANCEL (R202) -/

/-- A slice whose cores hold nothing has nothing of a tag. -/
theorem cancelCore_of_empty {s : State} {gc : ClusterId} (h : (s.slice gc).cores = []) (q : QueueId) (tag : Word) (k : BitVec 3) :
    cancelCore s gc q tag k = (0, s) := by
  have hscore : (s.slice gc).score k = SCore.reset := by
    rw [Slice.score, h]
    rfl
  simp only [cancelCore, hscore]
  rfl

/-- A cancel at a slice whose cores and stolen records are empty, after the queue's entries. -/
theorem cancelCmd_of_empty {s s0 : State} {q : QueueId} {tag : Word} {n0 : Nat}
    (hq : ((s.slice (queueCluster q)).queue (queueLocal q)).ents.foldl (fun (a : Nat × State) h =>
      if eTag h.e = tag ∧ h.dead = false then (a.1 + 1, dropQueued a.2 (queueCluster q) (queueLocal q) h .cancelled) else a) (0, s) = (n0, s0))
    (hc : (s0.slice (queueCluster q)).cores = []) (hs : (s0.slice (queueCluster q)).stolen = [])
    (hcons : ((s0.slice (queueCluster q)).queue (queueLocal q)).cons ≠ 1) :
    cancelCmd s q tag = if n0 = 0 then schTal (s0.setSlice (queueCluster q) (s0.slice (queueCluster q))) (queueCluster q) 0x228 1
      else qTal (s0.setSlice (queueCluster q) (s0.slice (queueCluster q))) q 0x420 n0 := by
  have hcores (l : List Nat) : l.foldl (fun (a : Nat × State) k =>
      let (n, t) := cancelCore a.2 (queueCluster q) q tag (BitVec.ofNat 3 k)
      (a.1 + n, t)) (n0, s0) = (n0, s0) := by
    induction l with
    | nil => rfl
    | cons k l ih =>
      rw [List.foldl_cons, cancelCore_of_empty hc]
      exact ih
  have hrec (mark : Stolen → Stolen) : { s0.slice (queueCluster q) with stolen := (s0.slice (queueCluster q)).stolen.map mark } =
      s0.slice (queueCluster q) := by
    rw [hs, List.map_nil, ← hs]
  unfold cancelCmd
  dsimp only
  rw [hq]
  dsimp only
  rw [hcores]
  dsimp only
  rw [hrec, if_neg hcons, hs]
  rfl

/-! ### A queued task that is cancelled -/

/-- A queued task that forms a record, cancelled while the buffer has room. -/
theorem dropQueued_of_room {s : State} {gc : ClusterId} {lq : BitVec 10} {h : QEnt} {o : Outc} (hk : eKind h.e = 1) (hn : eNoCompl h.e = false)
    (hlen : (s.slice gc).recbuf.length < 16) (hwait : (s.slice gc).waitRecs = []) :
    dropQueued s gc lq h o = s.setSlice gc (Slice.setQueue { s.slice gc with
      recbuf := (s.slice gc).recbuf ++ [{ cqid := eCqid h.e, record := mkRecord h.e o 0 0 1 0 0 0 s.tick }] } lq
        (removeSeq ((s.slice gc).queue lq) h.seq)) := by
  have hrec : queuedRecord s gc lq h o = (some { cqid := eCqid h.e, record := mkRecord h.e o 0 0 1 0 0 0 s.tick }, s) := by
    simp [queuedRecord, hn, hk, taskRecord, taskOf]
  simp only [dropQueued, hrec, emitRecord, hlen, hwait, and_self, if_true, Bool.false_eq_true, if_false]
  rfl

/-- Settles O31: the write of SCH_QCFG by its answer, END by the core's state, CANCEL over the queue's entries. -/
theorem queueConfigurationAndEnd : Obligations.QueueConfigurationAndEnd := by
  unfold Obligations.QueueConfigurationAndEnd
  refine ⟨fun s who gc v ho => ?config, fun s g lq result t => ?ends, fun s src q tag => ?cancels⟩
  case config =>
    intro x q set fits
    have hen : exec (.queueEnable who gc v) s = _ := exec_queueEnable_of_open ho v
    have hdis : exec (.queueDisable who gc v) s = _ := exec_queueDisable_of_open ho v
    have htrue : qcfgAns q (v ||| 1) = _ := qcfgAns_eq (q1 := set true) (qcfgSet_enable q v)
    have hfalse : qcfgAns q (v &&& ~~~1) = _ := qcfgAns_eq (q1 := set false) (qcfgSet_disable q v)
    have hsame (en : Bool) : { set en with en := true } = set true := rfl
    rw [hsame] at htrue hfalse
    refine ⟨fun he hf => ?enable, fun he hf => ?noStore, fun he hne => ⟨?keeps, ?keepsOff⟩, fun he hsame h0 => ?disable, fun he h0 => ?notEmpty⟩
    case enable =>
      rw [hen, qcfgWrite_of_some (htrue.trans ((if_neg (by simp [he])).trans ((if_pos rfl).trans (if_pos hf))))]
      rfl
    case noStore =>
      rw [hen, qcfgWrite_of_none (htrue.trans ((if_neg (by simp [he])).trans ((if_pos rfl).trans (if_neg hf))))]
    case keeps => rw [hen, qcfgWrite_of_none (htrue.trans ((if_pos he).trans (if_pos hne)))]
    case keepsOff => rw [hdis, qcfgWrite_of_none (hfalse.trans ((if_pos he).trans (if_pos hne)))]
    case disable =>
      have hset : { q with en := false } = set false := by rw [← hsame]
      rw [hdis, qcfgWrite_of_some (hfalse.trans ((if_pos he).trans ((if_neg (not_not_intro hsame)).trans ((if_neg (by simp [set])).trans (if_pos h0))))), hset]
      rfl
    case notEmpty =>
      by_cases hne : set true = q
      · rw [hdis, qcfgWrite_of_none (hfalse.trans ((if_pos he).trans ((if_neg (not_not_intro hne)).trans ((if_neg (by simp [set])).trans (if_neg h0)))))]
      · rw [hdis, qcfgWrite_of_none (hfalse.trans ((if_pos he).trans (if_pos hne)))]
  case ends =>
    intro gc k x y
    refine ⟨fun hf => ?idle, fun hst hcur hown hroom => ?running, fun hst hcur hno hfull => ?stalls⟩
    case idle =>
      have h : endCmd s gc k result = (.done, schTal s gc 0x258 1) := by
        simp only [endCmd, show ((s.slice gc).score k).st = .free from hf]
      simp only [exec, execEndTask, doEnd]
      rw [h]
      rfl
    case running =>
      have h := endCmd_of_running (s := s) (gc := gc) (k := k) (result := result) hst hcur hown hroom
      obtain ⟨z, hz, hnone, hsome⟩ := afterEnd_slice s gc k (endRecorded s gc t result) y
      have hu : ((afterEnd s gc k (endRecorded s gc t result) y).answerOnly .ok).slice gc = (endRecorded s gc t result).setScore k z := hz
      have hk : ((endRecorded s gc t result).setScore k z).score k = z := (Slice.setScore_score _ _ _ _).trans (if_pos rfl)
      refine ⟨(afterEnd s gc k (endRecorded s gc t result) y).answerOnly .ok, ?_, ?_, ?_, fun hn => ?_, fun n hn => ?_⟩
      · simp only [exec, execEndTask, doEnd]
        rw [h]
      · rw [hu]
        rfl
      · rw [hu]
        rfl
      · rw [hu, hk]
        exact hnone hn
      · have htd := afterEnd_tdesc s gc k (endRecorded s gc t result) y hn
        rw [coreOf_own] at htd
        obtain ⟨hst', hcur', hdisp⟩ := hsome n hn
        rw [hu, hk]
        exact ⟨hst', hcur', htd, hdisp⟩
    case stalls =>
      have hlen : ¬(s.slice gc).recbuf.length < 16 := Nat.not_lt.mpr hfull
      have hroom : recordRoom (s.slice gc) = false := by simp [recordRoom, hlen]
      have h : endCmd s gc k result = (.stall, s) := by
        simp only [endCmd, show ((s.slice gc).score k).st = .running from hst, show ((s.slice gc).score k).cur = some t from hcur, taskRecord, hno, hroom,
          Bool.false_eq_true, if_false]
      simp only [exec, execEndTask, doEnd]
      rw [h]
  case cancels =>
    intro gc x z hcore hcas hway hcores hstolen hcons
    have hexec : exec (.cancel src q tag) s = .next ((cancelCmd s q tag).answerOnly .ok) := by
      refine congrArg Host.Outcome.next ((queueGate_of_pass hcore hway _).trans (if_neg fun h => hcas h.1))
    refine ⟨fun h0 => ?none, fun h hh htag hd hk hn hlen hwait => ?one⟩
    case none =>
      have hq : z.ents.foldl (fun (a : Nat × State) h =>
        if eTag h.e = tag ∧ h.dead = false then (a.1 + 1, dropQueued a.2 gc (queueLocal q) h .cancelled) else a) (0, s) = (0, s) := by rw [h0]; rfl
      rw [hexec, cancelCmd_of_empty hq hcores hstolen hcons]
      rfl
    case one =>
      have hdrop := dropQueued_of_room (s := s) (gc := gc) (lq := queueLocal q) (o := .cancelled) hk hn hlen hwait
      generalize hs0 : dropQueued s gc (queueLocal q) h .cancelled = s0 at hdrop
      have hq : z.ents.foldl (fun (a : Nat × State) h =>
        if eTag h.e = tag ∧ h.dead = false then (a.1 + 1, dropQueued a.2 gc (queueLocal q) h .cancelled) else a) (0, s) = (1, s0) := by
        simp [hh, htag, hd, hs0]
      have hx : s0.slice gc = Slice.setQueue { x with
          recbuf := x.recbuf ++ [{ cqid := eCqid h.e, record := mkRecord h.e .cancelled 0 0 1 0 0 0 s.tick }] } (queueLocal q)
          (removeSeq z h.seq) := by
        rw [hdrop]
        exact (State.setSlice_slice _ _ _ _).trans (if_pos rfl)
      have hz : (s0.slice gc).queue (queueLocal q) = { z with ents := [] } := by
        rw [hx, Slice.setQueue_queue, if_pos rfl]
        simp [removeSeq, hh]
      have hempty := cancelCmd_of_empty hq (by rw [hx]; exact hcores) (by rw [hx]; exact hstolen) (by rw [hz]; exact hcons)
      refine ⟨_, hexec, ?_⟩
      rw [hempty, if_neg (by decide)]
      have hsl : (((qTal (s0.setSlice gc (s0.slice gc)) q 0x420 1).answerOnly .ok).slice gc) = s0.slice gc :=
        (State.setSlice_slice _ _ _ _).trans (if_pos rfl)
      rw [hsl, hz, hx]
      exact ⟨rfl, rfl, rfl⟩

end Sys2Proof.Machine
end

section
/-! The end of a job (O29): what `finishJob` leaves, and each command that ends a job, by the branch that its hypotheses choose. -/

namespace Sys2Proof.Machine

/-! ### Fault reports beside the job (R420) -/

theorem queueEvent_frame (s : State) (n : SourceId) (ev : FaultEv) :
    queueEvent s n ev = { s with asy := (queueEvent s n ev).asy, tally := (queueEvent s n ev).tally } := by
  unfold queueEvent
  dsimp only
  split <;> rfl

theorem sget_queueEvent_tally (s : State) (n : SourceId) (ev : FaultEv) {a : Nat} (h : a ≠ asyBase + 0x118) :
    sget 0 (queueEvent s n ev).tally a = sget 0 s.tally a := by
  unfold queueEvent
  dsimp only
  split
  · rfl
  · exact sget_tallyAdd_other _ 1 h

/-- The engines' registers lie below the hub window, whose blocks do not reach them. -/
theorem engBase_lt (e : EngId) : engBase e < 0x14000000000 := by
  have hr : (engRegion e).toNat < 16 := (engRegion e).isLt
  simp only [engBase, regionBase]
  omega

theorem engBase_add_ne_merged (e : EngId) {o : Nat} (ho : o < 0x10000) : engBase e + o ≠ asyBase + 0x118 := by
  have h := engBase_lt e
  have hasy : asyBase = 0x20010700000 := rfl
  omega

/-! ### What the end of a job leaves (R154, R155, R162) -/

/-- The outcome that a job ends with: OK with flags is OK_FLAGGED. -/
def jobOutc (j : Job) (o : Outc) : Outc := if o = .ok ∧ j.flags ≠ 0 then .okFlagged else o

/-- A job whose outcome is fixed. -/
def Job.ended (j : Job) (s : State) (o : Outc) (step : BitVec 4) : Job :=
  { j with outc := jobOutc j o, step := if (jobOutc j o).good then 0 else step, tend := s.tick, abort := none }

/-- The engine of a job whose outcome is fixed. -/
def endedEngine (s : State) (e : EngId) (j : Job) (o : Outc) (step : BitVec 4) : Engine :=
  if (jobOutc j o).good then { s.engine e with st := .complete, job := some (j.ended s o step) }
  else { s.engine e with st := .complete, job := some (j.ended s o step), errOutc := (jobOutc j o).code, errStep := step, etag := eTag j.entry }

/-- The end of a job with its counters. -/
def endCounted (s : State) (e : EngId) (j : Job) (o : Outc) (step : BitVec 4) : State :=
  let t := engTal (s.setEngine e (endedEngine s e j o step)) e (outcTal (jobOutc j o)) 1
  if eNoCompl j.entry then t else engTal t e 0x100 1

section
variable {s : State} {e : EngId} {j : Job} (hj : (s.engine e).job = some j) (o : Outc) (step : BitVec 4)

include hj in
/-- A missed deadline is reported besides. -/
theorem finishJob_eq : finishJob s e o step = endCounted s e j o step ∨ ∃ n ev, finishJob s e o step = queueEvent (endCounted s e j o step) n ev := by
  have hcount : endCounted s e j o step =
      (if eNoCompl j.entry then engTal (s.setEngine e (endedEngine s e j o step)) e (outcTal (jobOutc j o)) 1
       else engTal (engTal (s.setEngine e (endedEngine s e j o step)) e (outcTal (jobOutc j o)) 1) e 0x100 1) := rfl
  have heng : endedEngine s e j o step =
      (if (jobOutc j o).good then { s.engine e with st := .complete, job := some (j.ended s o step) }
       else { s.engine e with st := .complete, job := some (j.ended s o step), errOutc := (jobOutc j o).code,
                              errStep := if (jobOutc j o).good then 0 else step, etag := eTag j.entry }) := by
    rw [endedEngine]
    split
    · rfl
    · rfl
  unfold finishJob
  dsimp only
  rw [hj]
  dsimp only
  rw [hcount, heng]
  by_cases hd : jobOutc j o = .deadlineMissed
  · exact .inr ⟨_, _, if_pos hd⟩
  · exact .inl (if_neg hd)

variable (s e j) in
theorem endCounted_frame :
    endCounted s e j o step = { s.setEngine e (endedEngine s e j o step) with tally := (endCounted s e j o step).tally } := by
  unfold endCounted
  dsimp only
  split <;> rfl

/-- A counter with one event more, saturating (R37). -/
def plusOne (s : State) (a : Nat) : BitVec 48 := BitVec.ofNat 48 (min ((sget 0 s.tally a).toNat + 1) (2 ^ 48 - 1))

theorem sget_tallyAdd_one (s : State) (a : Nat) : sget 0 (tallyAdd s a 1).tally a = plusOne s a := by
  rw [tallyAdd, sget_sput_same]
  rfl

theorem outcTal_range (o : Outc) : 0x100 < outcTal o ∧ outcTal o < 0x10000 := by
  cases o <;> decide

variable (s e j) in
theorem endCounted_tally :
    sget 0 (endCounted s e j o step).tally (engBase e + outcTal (jobOutc j o)) = plusOne s (engBase e + outcTal (jobOutc j o)) ∧
    sget 0 (endCounted s e j o step).tally (engBase e + 0x100) =
      (if eNoCompl j.entry then sget 0 s.tally (engBase e + 0x100) else plusOne s (engBase e + 0x100)) ∧
    ∀ a, a ≠ engBase e + outcTal (jobOutc j o) → a ≠ engBase e + 0x100 → sget 0 (endCounted s e j o step).tally a = sget 0 s.tally a := by
  have hrange := outcTal_range (jobOutc j o)
  have hne : engBase e + 0x100 ≠ engBase e + outcTal (jobOutc j o) := by omega
  unfold endCounted
  dsimp only
  generalize ht : s.setEngine e (endedEngine s e j o step) = t
  have htal (a : Nat) : sget 0 t.tally a = sget 0 s.tally a := by rw [← ht]; rfl
  have hone (a : Nat) : plusOne t a = plusOne s a := by rw [plusOne, htal, plusOne]
  simp only [engTal]
  cases eNoCompl j.entry with
  | true =>
    refine ⟨?_, ?_, fun a h _ => ?_⟩
    · exact (sget_tallyAdd_one t _).trans (hone _)
    · exact (sget_tallyAdd_other t 1 hne).trans (htal _)
    · exact (sget_tallyAdd_other t 1 h).trans (htal _)
  | false =>
    refine ⟨?_, ?_, fun a h h0 => ?_⟩
    · exact (sget_tallyAdd_other _ 1 hne.symm).trans ((sget_tallyAdd_one t _).trans (hone _))
    · refine (sget_tallyAdd_one _ _).trans ?_
      rw [plusOne, sget_tallyAdd_other t 1 hne, htal]
      rfl
    · exact (sget_tallyAdd_other _ 1 h0).trans ((sget_tallyAdd_other t 1 h).trans (htal _))

end

/-! ### The commands that end a job -/

/-- A way that is open leaves the state. -/
theorem queueWay_of_pass {s : State} {n : NodeId} {q : QueueId} (h : (queueWay s n q).1 = .pass) : queueWay s n q = (.pass, s) := by
  have hcheck (pa : Pa) {d : NodeId} {t : State} (hr : routeCheck s n pa = (some d, t)) : t = s := by
    unfold routeCheck at hr
    split at hr
    · simp at hr
    · split at hr
      · exact (Prod.mk.inj hr).2.symm
      · simp at hr
  unfold queueWay at h ⊢
  generalize hr : routeCheck s n _ = r at h ⊢
  obtain ⟨_ | d, t⟩ := r
  · simp [queueRouted] at h
  · obtain rfl := hcheck _ hr
    simp only [queueRouted] at h ⊢
    cases hw : pathTo t n d false with
    | stopped e p => simp [queueWalked, hw] at h
    | lost => simp [queueWalked, hw] at h
    | reached m back =>
      simp only [queueWalked, hw] at h ⊢
      by_cases hm : m ≠ d
      · simp [hm] at h
      · rw [if_neg hm] at h ⊢
        unfold queueAt at h ⊢
        split at h
        · simp at h
        · simp only at h
          rw [h]

theorem accReads_nil (s : State) (who : Initiator) (act : ActId) : accReads s who act [] = .done (Ans.only .ok) s := rfl

theorem accStores_nil (s : State) (who : Initiator) (act : ActId) : accStores s who act [] = (some (none, 0), s) := rfl

section
variable {s t : State} {e : EngId} {j : Job} {a : Ans} (hj : (s.engine e).job = some j)
include hj

theorem doRunDone_of_bad_read (hst : (s.engine e).st = .run) (hab : j.abort = none) (hclk : engClk s e = true)
    (hr : accReads s (.engine e) (jobAct j) (inputExtents (engType e) (bits j.desc.toNat 4 4) j.desc j.params) = .done a t)
    (hbad : a.outc.good = false) : doRunDone s e = finishJob t e a.outc 7 := by
  simp [doRunDone, hst, hj, hab, hclk, hr, hbad]

/-- The engine's state when a job's input has been read whole, and its result. -/
theorem doRunDone_of_read {u : State} {out : JobOut} (hst : (s.engine e).st = .run) (hab : j.abort = none) (hclk : engClk s e = true)
    (htyp : engType e ≠ 1)
    (hr : accReads s (.engine e) (jobAct j) (inputExtents (engType e) (bits j.desc.toNat 4 4) j.desc j.params) = .done a t)
    (hgood : a.outc.good = true)
    (hu : u = engReport ({ t with fresh := t.fresh + 1 }.setEngine e { t.engine e with job := some { j with flags := j.flags ||| a.flags } }) e false)
    (hout : out = compute t.fresh (engType e) (bits j.desc.toNat 4 4) j.params a.data []) :
    doRunDone s e =
      if out.fail then finishJob u e .engineError 10
      else
        match accStores u (.engine e) (jobAct j) (out.dst.map (fun p => (dField j.desc 0x20 8 + p.1, p.2))) with
        | (none, w) => stayWake s w
        | (some (some o, k), w) =>
          finishJob (w.updEngine e (fun y => { y with job := y.job.map (fun z => { z with outlen := BitVec.ofNat 32 k }) })) e o 8
        | (some (none, k), w) =>
          match accStores w (.engine e) (jobAct j) (out.aux.map (fun p => (dField j.desc 0x30 8 + p.1, p.2))) with
          | (none, v) => stayWake s v
          | (some (some o, _), v) =>
            finishJob (v.updEngine e (fun y => { y with job := y.job.map (fun z => { z with outlen := BitVec.ofNat 32 k }) })) e o 8
          | (some (none, _), v) => outputDone v e out k := by
  subst hu hout
  have hok : (Ans.only .ok).outc.good = true := rfl
  have hflags : j.flags ||| a.flags ||| (Ans.only .ok).flags = j.flags ||| a.flags := BitVec.or_zero
  unfold doRunDone
  dsimp only
  rw [hst, hj]
  simp only [hab, hclk, ne_eq, not_true_eq_false, Bool.true_eq_false, or_self, if_false, hr, hgood, htyp, false_and, accReads_nil, hok]
  rw [hflags]
  rfl

theorem doWritebackDone_of_answer (hst : (s.engine e).st = .writeback) (hab : j.abort = none)
    (hw : accStore s (.engine e) (dField j.desc 0x30 8) j.wb (jobAct j) = .done a t) :
    doWritebackDone s e none = if a.outc.good = false then finishJob t e a.outc 8 else finishJob (t.setEngine e
      { t.engine e with job := (t.engine e).job.map (fun z => { z with result := z.result ||| 0x80 }) }) e .ok 0 := by
  unfold doWritebackDone
  dsimp only
  rw [hst, hj]
  simp only [viaPath, hw, hab]
  rfl

/-- An engine in COMPLETE whose outcome byte needs no write. -/
theorem doJobRecord_of_written (hst : (s.engine e).st = .complete) (hw : j.hasDesc = false ∨ j.desc.getLsbD 10 = false ∨ j.wbDone = true) :
    doJobRecord s e none =
      if eNoCompl j.entry then releaseEngine (s.holdJob e { j with wbDone := true }) e
      else jobVia e j (queueWay (s.holdJob e { j with wbDone := true }) (engNode e) (eCqid j.entry)) := by
  have hno : ¬(j.hasDesc = true ∧ j.desc.getLsbD 10 = true ∧ j.wbDone = false) := by
    rintro ⟨h1, h2, h3⟩
    rw [h1, h2, h3] at hw
    simp at hw
  have hwrite : writeOutcome s e j = .done (Ans.only .ok) s := if_neg hno
  unfold doJobRecord
  dsimp only
  rw [hst, hj]
  simp only [hwrite]
  rfl

end

theorem releaseEngine_slices (s : State) (e : EngId) : (releaseEngine s e).slices = s.slices := by
  unfold releaseEngine
  dsimp only
  split <;> rfl

/-- What stays of an engine that is free of its job. -/
theorem releaseEngine_engine (s : State) (e : EngId) : (releaseEngine s e).engine e =
    if (s.engine e).rst then Engine.reset e.toNat
    else { s.engine e with job := none, st := if (s.engine e).en then .idle else .disabled } := by
  unfold releaseEngine
  dsimp only
  split
  · exact (State.setEngine_engine s _ _ _).trans (if_pos rfl)
  · exact (State.setEngine_engine s _ _ _).trans (if_pos rfl)

theorem queueGained_of_slices {s t u v : State} {q : QueueId} {e : Entry} (hs : t.slices = s.slices) (htick : t.tick = s.tick) (huv : v.slices = u.slices)
    (h : queueGained t u q e) : queueGained s v q e := by
  have hst : t.slice (queueCluster q) = s.slice (queueCluster q) := by rw [State.slice, State.slice, hs]
  have huv' : v.slice (queueCluster q) = u.slice (queueCluster q) := by rw [State.slice, State.slice, huv]
  unfold queueGained at h ⊢
  rw [hst, htick] at h
  rw [huv']
  exact h

/-- The end of a job and its counted state differ in the fault reports only. -/
theorem finishJob_frame {s : State} {e : EngId} {j : Job} (hj : (s.engine e).job = some j) (o : Outc) (step : BitVec 4) :
    ∃ asy tally, finishJob s e o step = { endCounted s e j o step with asy := asy, tally := tally } ∧
      ∀ a, a ≠ asyBase + 0x118 → sget 0 tally a = sget 0 (endCounted s e j o step).tally a := by
  obtain h | ⟨n, ev, h⟩ := finishJob_eq hj o step
  · exact ⟨_, _, h, fun a _ => rfl⟩
  · refine ⟨_, _, h.trans (queueEvent_frame _ n ev), fun a ha => sget_queueEvent_tally _ n ev ha⟩

/-- Settles O29: the end of a job by its outcome and counters, and each command that ends a job by its branch. -/
theorem jobOutcomes : Obligations.JobOutcomes := by
  refine ⟨fun s e o step j hj => ?finish, fun s e j hj => ⟨fun a t hst hab hclk htyp hr => ⟨fun hbad => ?badRead, fun hgood => ⟨fun hfail => ?fails,
      fun k w hfail haux hwb hstore => ?outputs⟩⟩, fun a t hst hab hw => ⟨fun hbad => ?badWrite, fun hgood => ?written⟩, fun w o hbad hst hab => ?access,
    fun hst hab => ?internal, fun hst hab hdesc hdl hlate => ?late, fun hst => ⟨fun hab => ?abortLate, fun hab => ?abortCancelled⟩,
    fun hst hdone => ⟨fun hno => ?noRecord, fun hrec hway htakes => ?record⟩⟩⟩
  case finish =>
    intro x t o1 j1
    obtain ⟨asy, tally, ht, htal⟩ := finishJob_frame hj o step
    have hframe := endCounted_frame s e j o step
    obtain ⟨hout, hjobs, hother⟩ := endCounted_tally s e j o step
    have heng (e' : EngId) : t.engine e' = (s.setEngine e (endedEngine s e j o step)).engine e' := by
      rw [show t = _ from ht, hframe]
      rfl
    have htal' (a : Nat) (ha : a ≠ asyBase + 0x118) : sget 0 t.tally a = sget 0 (endCounted s e j o step).tally a := by
      rw [show t = _ from ht]
      exact htal a ha
    refine ⟨?_, fun e' he' => ?_, ?_, ?_, ⟨?_, ?_⟩, fun a h1 h2 h3 => ?_⟩
    · exact (heng e).trans ((State.setEngine_engine s _ _ _).trans (if_pos rfl))
    · exact (heng e').trans ((State.setEngine_engine s _ _ _).trans (if_neg he'))
    · rw [show t = _ from ht, hframe]
      rfl
    · rw [show t = _ from ht, hframe]
      rfl
    · exact (htal' _ (engBase_add_ne_merged e (outcTal_range _).2)).trans hout
    · exact (htal' _ (engBase_add_ne_merged e (by decide))).trans hjobs
    · exact (htal' a h3).trans (hother a h1 h2)
  case badRead => exact congrArg Host.Outcome.next (doRunDone_of_bad_read hj hst hab hclk hr hbad)
  case fails =>
    exact congrArg Host.Outcome.next ((doRunDone_of_read hj hst hab hclk htyp hr hgood rfl rfl).trans (if_pos hfail))
  case outputs =>
    refine congrArg Host.Outcome.next ((doRunDone_of_read hj hst hab hclk htyp hr hgood rfl rfl).trans ((if_neg (by simp [hfail])).trans ?_))
    rw [hstore]
    dsimp only
    rw [haux, List.map_nil, accStores_nil]
    dsimp only
    rw [outputDone, hwb]
    rfl
  case badWrite => exact congrArg Host.Outcome.next ((doWritebackDone_of_answer hj hst hab hw).trans (if_pos hbad))
  case written => exact congrArg Host.Outcome.next ((doWritebackDone_of_answer hj hst hab hw).trans (if_neg (by simp [hgood])))
  case access => simp [exec, execJobAccessError, doAccessError, hj, hbad, hst, hab]
  case internal => simp [exec, execJobInternalError, doInternalError, hj, hst, hab]
  case late =>
    have hcond : ((s.engine e).st = .setup ∨ (s.engine e).st = .run ∨ (s.engine e).st = .writeback) ∧ j.abort = none ∧ jobHasDl j = true ∧
        tickReached s.tick (eDeadline j.entry) = true := ⟨hst, hab, by rw [jobHasDl, hdesc, hdl]; rfl, tickReached_iff.mpr hlate⟩
    simp only [exec, execJobDeadline, doJobDeadline, hj]
    rw [if_pos hcond]
  case abortLate =>
    simp only [exec, execJobAbortComplete, doAbortComplete, hj, hab]
    rw [if_pos hst]
    rfl
  case abortCancelled =>
    simp only [exec, execJobAbortComplete, doAbortComplete, hj, hab]
    rw [if_pos hst]
    rfl
  case noRecord =>
    refine ⟨_, congrArg Host.Outcome.next ((doJobRecord_of_written hj hst hdone).trans (if_pos hno)), ?_, releaseEngine_slices _ _⟩
    rw [releaseEngine_engine, State.holdJob, State.setEngine_engine, if_pos rfl]
  case record =>
    let t := s.holdJob e { j with wbDone := true }
    have hway' : queueWay t (engNode e) (eCqid j.entry) = (.pass, t) := queueWay_of_pass hway
    have hq : enqueue t .fabric (eCqid j.entry) (jobRecord e j) = (.accepted, enqueued t (eCqid j.entry) (jobRecord e j)) :=
      enqueue_of_takes (s := t) htakes (by simp)
    have hdo : doJobRecord s e none = releaseEngine (enqueued t (eCqid j.entry) (jobRecord e j)) e := by
      rw [doJobRecord_of_written hj hst hdone, if_neg (by simp [hrec]), hway', jobVia, hq, jobEntered]
    have heng : (enqueued t (eCqid j.entry) (jobRecord e j)).engine e = { s.engine e with job := some { j with wbDone := true } } :=
      (State.setEngine_engine s _ _ _).trans (if_pos rfl)
    refine ⟨_, congrArg Host.Outcome.next hdo, ?_, queueGained_of_slices (t := t) rfl rfl (releaseEngine_slices _ _) (enqueued_gained _ _ _)⟩
    rw [releaseEngine_engine, heng]

end Sys2Proof.Machine
end

section
/-! Work stealing (O34): each step of a theft by its branch. -/

namespace Sys2Proof.Machine

@[simp] theorem State.updSlice_slice (s : State) (i j : ClusterId) (f : Slice → Slice) :
    (s.updSlice i f).slice j = if j = i then f (s.slice i) else s.slice j := State.setSlice_slice _ _ _ _

/-! ### Stealing (R214, R215) -/

section
variable {s : State} {victim thief : ClusterId}

theorem doStealRequest_of_refused (ha : (s.slice thief).thief.asking = some victim) (hc : (s.slice thief).thief.coming = none)
    (hr : (s.slice thief).thief.refused = false) (h : (s.slice victim).giveen = false ∨ oldestSteal s victim thief = none) :
    doStealRequest s victim thief = refuseThief s thief := by
  unfold doStealRequest
  dsimp only
  rw [if_neg (by simp [ha, hc, hr])]
  split
  · rfl
  · next hopen =>
    have hnone : oldestSteal s victim thief = none := h.resolve_left (fun hg => hopen (.inl hg))
    rw [hnone]

/-- The victim's slice without the candidate, with a record of it. -/
def stolenFrom (x : Slice) (thief : ClusterId) (lq : BitVec 10) (c : Cand) : Slice :=
  { x.setQueue lq (removeSeq (x.queue lq) c.task.seq) with
    stolen := x.stolen ++ [{ tag := eTag c.task.raw, qid := c.task.qid, thief := thief, cancelled := false }] }

theorem doStealRequest_of_given {c : Cand} {lq : BitVec 10} (ha : (s.slice thief).thief.asking = some victim)
    (hc : (s.slice thief).thief.coming = none) (hr : (s.slice thief).thief.refused = false) (hg : (s.slice victim).giveen = true)
    (hlen : (s.slice victim).stolen.length < 16) (hclk : clkOn s victim = true) (hhold : memberHolds s (.slice victim) = false)
    (ho : oldestSteal s victim thief = some c) (hb : candBad s victim c = false) (hq : c.src = .queue lq) :
    doStealRequest s victim thief =
      (schTal (s.setSlice victim (stolenFrom (s.slice victim) thief lq c)) victim 0x248 1).updSlice thief
        (fun y => { y with thief := { y.thief with coming := some { c.task with stolen := true, home := victim } } }) := by
  unfold doStealRequest
  dsimp only
  rw [if_neg (by simp [ha, hc, hr]), if_neg (by simp [hg, hclk, hhold, hlen])]
  simp only [ho, hb, hq, Bool.false_eq_true, if_false]
  rfl

/-- A record to a buffer with room. -/
theorem emitRecord_of_room {x : Slice} (hlen : x.recbuf.length < 16) (hw : x.waitRecs = []) (r : RecOut) (h : Holder) :
    emitRecord x (some r) h = (false, { x with recbuf := x.recbuf ++ [r] }) := by
  rw [emitRecord, if_pos ⟨hlen, hw⟩]

/-- The task in a thief's slot, cancelled: its records go to the thief's buffer and back to the victim. -/
theorem dropSteal_of_room {t : Task} (hs : t.stolen = true) (hn : eNoCompl t.raw = false) (hlen : (s.slice thief).recbuf.length < 16)
    (hw : (s.slice thief).waitRecs = []) (o : Outc) :
    dropSteal s thief t o = s.setSlice thief { s.slice thief with
      stealSlot := none, back := (s.slice thief).back ++ [(t.home, eTag t.raw, t.qid)], recbuf := (s.slice thief).recbuf ++ (taskRecord s t o 0).toList } := by
  have hret : returnStolen (s.slice thief) t = { s.slice thief with back := (s.slice thief).back ++ [(t.home, eTag t.raw, t.qid)] } := if_pos hs
  have hrec : ∃ r, taskRecord s t o 0 = some r := ⟨_, if_neg (by simp [hn])⟩
  obtain ⟨r, hr⟩ := hrec
  simp only [dropSteal, hret, hr]
  rw [emitRecord_of_room (x := { s.slice thief with back := (s.slice thief).back ++ [(t.home, eTag t.raw, t.qid)] }) hlen hw]
  rfl

/-- A cancel at a thief that holds the task in its slot only. -/
theorem cancelAtThief_of_slot {t : Task} {q : QueueId} {tag : Word} (hslot : (s.slice thief).stealSlot = some t) (hm : matchTask q tag t = true)
    (hc : ((dropSteal s thief t .cancelled).slice thief).cores = []) : cancelAtThief s thief q tag = dropSteal s thief t .cancelled := by
  have hfold (l : List Nat) : l.foldl (fun u k => (cancelCore u thief q tag (BitVec.ofNat 3 k)).2) (dropSteal s thief t .cancelled) =
      dropSteal s thief t .cancelled := by
    induction l with
    | nil => rfl
    | cons k l ih => rw [List.foldl_cons, cancelCore_of_empty hc, ih]
  simp only [cancelAtThief, hslot, hm, if_true]
  exact hfold _

end

/-- Settles O34: each step of a theft by its branch. -/
theorem workStealing : Obligations.WorkStealing := by
  unfold Obligations.WorkStealing
  intro s victim thief x v none0
  refine ⟨fun t0 first rest hclk hhold hidle hen hst hslot hask hdue hvict => ?start, fun hne ha hc hr => ⟨fun h => ?refuses, fun c lq hg hlen hclk hhold ho hb hq => ?gives⟩,
    fun t hc => ?receive, fun next rest hr hv hn => ?next, fun hr hv => ?fails, fun tag q rest hb hne => ?returned,
    fun r t hv hcan hth hne hcome hslot hcores hm hst hno hlen hw => ?cancel⟩
  case start =>
    have hgo : ¬((s.slice thief).stealen = false ∨ stealIdle s thief = false ∨ (s.slice thief).stealSlot ≠ none ∨ (s.slice thief).thief.asking ≠ none ∨
        s.cycle - t0 < (s.slice thief).stealidle.toNat * clusterDiv s thief) := by
      simp only [show (s.slice thief).stealen = true from hen, hst, show (s.slice thief).stealSlot = none from hslot,
        show (s.slice thief).thief.asking = none from hask, Bool.true_eq_false, ne_eq, not_true_eq_false, false_or]
      exact Nat.not_lt.mpr hdue
    have hdo : doStealStart s thief = s.setSlice thief { x with thief :=
        { idleSince := x.thief.idleSince, victims := rest, refusals := 0, asking := some first, coming := none, refused := false } } := by
      unfold doStealStart
      dsimp only
      rw [show (s.slice thief).thief.idleSince = some t0 from hidle]
      dsimp only
      rw [if_neg hgo, hvict]
    rw [← hdo]
    exact congrArg Host.Outcome.next (if_pos (by simp [hclk, hhold]))
  case refuses => exact congrArg Host.Outcome.next (doStealRequest_of_refused ha hc hr h)
  case gives =>
    refine ⟨_, congrArg Host.Outcome.next (doStealRequest_of_given ha hc hr hg hlen hclk hhold ho hb hq), ?_⟩
    have hvict : (((schTal (s.setSlice victim (stolenFrom (s.slice victim) thief lq c)) victim 0x248 1).updSlice thief
        (fun y => { y with thief := { y.thief with coming := some { c.task with stolen := true, home := victim } } })).slice victim) =
        stolenFrom (s.slice victim) thief lq c := by
      rw [State.updSlice_slice, if_neg hne, schTal_slice, State.setSlice_slice, if_pos rfl]
    rw [hvict, State.updSlice_slice, if_pos rfl, schTal_slice, State.setSlice_slice, if_neg (Ne.symm hne)]
    exact ⟨(Slice.setQueue_queue _ _ _ _).trans (if_pos rfl), rfl, rfl⟩
  case receive =>
    simp only [exec, execStealReceive, doStealReceive, show (s.slice thief).thief.coming = some t from hc]
    rfl
  case next =>
    have hn' : (s.slice thief).thief.refusals + 1 < 3 := Nat.succ_lt_succ hn
    simp only [exec, execStealRefusal, doStealRefusal, show (s.slice thief).thief.refused = true from hr,
      show (s.slice thief).thief.victims = next :: rest from hv, if_pos hn', Bool.true_eq_false, if_false]
    rfl
  case fails =>
    simp only [exec, execStealRefusal, doStealRefusal, show (s.slice thief).thief.refused = true from hr,
      show (s.slice thief).thief.victims = [] from hv, Bool.true_eq_false, if_false]
    rfl
  case returned =>
    have hdo : doRecordReturn s thief = (s.setSlice thief { x with back := rest }).updSlice victim
        (fun v => { v with stolen := dropStolen v.stolen tag q }) := by
      simp only [doRecordReturn, show (s.slice thief).back = (victim, tag, q) :: rest from hb]
      rfl
    refine ⟨_, congrArg Host.Outcome.next hdo, ?_, ?_⟩
    · rw [State.updSlice_slice, if_neg (Ne.symm hne), State.setSlice_slice, if_pos rfl]
    · rw [State.updSlice_slice, if_pos rfl, State.setSlice_slice, if_neg hne]
  case cancel =>
    obtain rfl := hth
    have hfind : (s.slice victim).stolen.find? (fun r => r.cancelled) = some r := by simp [show (s.slice victim).stolen = [r] from hv, hcan]
    let s1 := s.setSlice victim { s.slice victim with stolen := [{ r with cancelled := false }] }
    have hx : s1.slice r.thief = s.slice r.thief := (State.setSlice_slice _ _ _ _).trans (if_neg (Ne.symm hne))
    have hforward : doCancelForward s victim = cancelAtThief s1 r.thief r.qid r.tag := by
      unfold doCancelForward
      dsimp only
      rw [hfind]
      dsimp only
      rw [if_neg (not_not_intro hcome)]
      simp only [show (s.slice victim).stolen = [r] from hv, List.map_cons, List.map_nil, beq_self_eq_true, Bool.and_self, if_true]
      rfl
    have hdrop := dropSteal_of_room (s := s1) (thief := r.thief) hst hno (by rw [hx]; exact hlen) (by rw [hx]; exact hw) .cancelled
    have hcores' : ((dropSteal s1 r.thief t .cancelled).slice r.thief).cores = [] := by
      rw [hdrop, State.setSlice_slice, if_pos rfl, hx]
      exact hcores
    rw [hx] at hdrop
    refine ⟨_, congrArg Host.Outcome.next (hforward.trans (cancelAtThief_of_slot (by rw [hx]; exact hslot) hm hcores')), ?_, ?_, ?_, ?_⟩
    · rw [hdrop, State.setSlice_slice, if_neg hne, State.setSlice_slice, if_pos rfl]
    · rw [hdrop, State.setSlice_slice, if_pos rfl]
    · rw [hdrop, State.setSlice_slice, if_pos rfl]
    · rw [hdrop, State.setSlice_slice, if_pos rfl]
      rfl

end Sys2Proof.Machine
end

section
/-! Budget chunks (O36): the request and its answer by their branches, and what a refusal makes of the cores that run the activity. -/

namespace Sys2Proof.Machine

@[simp] theorem Bud.setAct_act (b : Bud) (i j : ActId) (x : BudAct) : (b.setAct i x).act j = if j = i then x else b.act j := by
  simp [Bud.setAct, Bud.act, BitVec.toNat_inj]

@[simp] theorem Slice.setHold_hold (x : Slice) (i j : ActId) (h : Hold) : (x.setHold i h).hold j = if j = i then h else x.hold j := by
  simp [Slice.setHold, Slice.hold, BitVec.toNat_inj]

/-! ### The request (R209, R210) -/

/-- The slice has asked, and the answer of the BUD is on its way. -/
def chunkAsked (s : State) (gc : ClusterId) (a : ActId) (x : Option Nat × State) : State :=
  let r := clusterRegion gc
  let b := x.2.bud r
  let t := x.2.setBud r { b with msgs := b.msgs ++ [{ gc := gc, act := a, amount := x.1, parity := (b.act a).parity }] }
  t.setSlice gc ((t.slice gc).setHold a { (s.slice gc).hold a with asked := true })

section
variable {s : State} {gc : ClusterId} {a : ActId}

theorem doChunkRequest_of_asks (h : ((s.slice gc).hold a).asked = false ∧ ((s.slice gc).hold a).exh = false ∧ ((s.slice gc).hold a).held < 4096 ∧
    coresRunning (s.slice gc) a ≠ []) : doChunkRequest s gc a = chunkAsked s gc a (budAnswer s (clusterRegion gc) a) := by
  obtain ⟨h1, h2, h3, h4⟩ := h
  exact if_neg (by simp [h1, h2, h4, Int.not_le.mpr h3])

variable (s gc a) in
/-- What an answer leaves of the slice and of the controller. -/
theorem chunkAsked_spec (n : Option Nat) (t : State) :
    (((chunkAsked s gc a (n, t)).slice gc).hold a) = { (s.slice gc).hold a with asked := true } ∧
    (chunkAsked s gc a (n, t)).bud (clusterRegion gc) = { t.bud (clusterRegion gc) with
      msgs := (t.bud (clusterRegion gc)).msgs ++ [{ gc := gc, act := a, amount := n, parity := ((t.bud (clusterRegion gc)).act a).parity }] } := by
  constructor
  · simp only [chunkAsked, State.setSlice_slice, if_true]
    exact (Slice.setHold_hold _ _ _ _).trans (if_pos rfl)
  · simp [chunkAsked]

/-! ### The refusal (R211) -/

/-- A core's record that a refusal asks to yield, where its class and its suspend set allow it. -/
def yieldAsked (x : Slice) (y : SCore) : SCore :=
  match y.cur with
  | none => y
  | some t =>
    if clsPreempt x t.cls ∧ y.susp.length < 8 ∧ y.next = none ∧ y.preempt = none then { y with preempt := some (dispatchTval t false true) } else y

theorem yieldAsked_of_may {x : Slice} {y : SCore} {u : Task} (hcur : y.cur = some u) (hcls : clsPreempt x u.cls = true) (hsusp : y.susp.length < 8)
    (hnext : y.next = none) (hpre : y.preempt = none) : yieldAsked x y = { y with preempt := some (dispatchTval u false true) } := by
  unfold yieldAsked
  rw [hcur]
  exact if_pos ⟨hcls, hsusp, hnext, hpre⟩

/-- The slice after a refusal has asked one core to yield. -/
theorem budgetPreempt_slice (t : State) (gc : ClusterId) (j : BitVec 3) :
    (budgetPreempt t gc j).slice gc = (t.slice gc).setScore j (yieldAsked (t.slice gc) ((t.slice gc).score j)) ∨
    ((budgetPreempt t gc j).slice gc = t.slice gc ∧ yieldAsked (t.slice gc) ((t.slice gc).score j) = (t.slice gc).score j) := by
  unfold budgetPreempt yieldAsked
  dsimp only
  cases hc : ((t.slice gc).score j).cur with
  | none => exact .inr ⟨rfl, rfl⟩
  | some u =>
    dsimp only
    split
    · exact .inl ((State.setSlice_slice _ _ _ _).trans (if_pos rfl))
    · exact .inr ⟨rfl, rfl⟩

theorem budgetPreempt_hold (t : State) (gc : ClusterId) (j : BitVec 3) (a : ActId) :
    ((budgetPreempt t gc j).slice gc).hold a = (t.slice gc).hold a := by
  obtain h | ⟨h, -⟩ := budgetPreempt_slice t gc j
  · rw [h]
    rfl
  · rw [h]

theorem budgetPreempt_cls (t : State) (gc : ClusterId) (j : BitVec 3) : ((budgetPreempt t gc j).slice gc).cls = (t.slice gc).cls := by
  obtain h | ⟨h, -⟩ := budgetPreempt_slice t gc j
  · rw [h]
    rfl
  · rw [h]

theorem budgetPreempt_score (t : State) (gc : ClusterId) (j k : BitVec 3) : ((budgetPreempt t gc j).slice gc).score k =
    if k = j then yieldAsked (t.slice gc) ((t.slice gc).score j) else (t.slice gc).score k := by
  obtain h | ⟨h, hy⟩ := budgetPreempt_slice t gc j
  · rw [h, Slice.setScore_score]
  · rw [h, hy]
    split
    · next hk => rw [hk]
    · rfl

theorem yieldAsked_congr {x x' : Slice} (h : x.cls = x'.cls) (y : SCore) : yieldAsked x y = yieldAsked x' y := by
  unfold yieldAsked clsPreempt
  rw [h]

/-- A core that has been asked is not asked again. -/
theorem yieldAsked_yieldAsked (x : Slice) (y : SCore) : yieldAsked x (yieldAsked x y) = yieldAsked x y := by
  unfold yieldAsked
  cases hc : y.cur with
  | none => rw [hc]
  | some t =>
    by_cases h : clsPreempt x t.cls = true ∧ y.susp.length < 8 ∧ y.next = none ∧ y.preempt = none
    · simp [h]
    · simp [h, hc]

/-- A refusal asks each of several cores. -/
theorem foldl_budgetPreempt (l : List (BitVec 3)) (t : State) (gc : ClusterId) (a : ActId) :
    let u := l.foldl (fun t k => budgetPreempt t gc k) t
    (u.slice gc).hold a = (t.slice gc).hold a ∧ (u.slice gc).cls = (t.slice gc).cls ∧
      ∀ k, (u.slice gc).score k = if k ∈ l then yieldAsked (t.slice gc) ((t.slice gc).score k) else (t.slice gc).score k := by
  induction l generalizing t with
  | nil => exact ⟨rfl, rfl, fun k => by simp⟩
  | cons j l ih =>
    obtain ⟨hh, hc, hs⟩ := ih (budgetPreempt t gc j)
    refine ⟨hh.trans (budgetPreempt_hold t gc j a), hc.trans (budgetPreempt_cls t gc j), fun k => ?_⟩
    have hcls (y : SCore) : yieldAsked ((budgetPreempt t gc j).slice gc) y = yieldAsked (t.slice gc) y := yieldAsked_congr (budgetPreempt_cls t gc j) y
    rw [List.foldl_cons, hs k, hcls, budgetPreempt_score]
    by_cases hkj : k = j
    · subst hkj
      by_cases hl : k ∈ l
      · simp [hl, yieldAsked_yieldAsked]
      · simp [hl]
    · simp [hkj]

theorem overrun_slices (s : State) (gc : ClusterId) (a : ActId) (n : Nat) : (overrun s gc a n).slices = s.slices := by
  unfold overrun
  split
  · rfl
  · dsimp only
    split
    · rfl
    · rw [report, queueEvent_frame]
      rfl

theorem mem_coresRunning {x : Slice} {k : BitVec 3} {u : Task} (hst : (x.score k).st = .running) (hcur : (x.score k).cur = some u) :
    k ∈ coresRunning x (eAct u.raw) := by
  refine List.mem_filter.mpr ⟨List.mem_map.mpr ⟨k.toNat, List.mem_range.mpr k.isLt, by simp⟩, ?_⟩
  simp [hst, hcur]

/-- The slice after a refusal. -/
theorem exhaust_slice (s : State) (gc : ClusterId) (a : ActId) :
    ((exhaust s gc a).slice gc).hold a = { (s.slice gc).hold a with held := 0, exh := true, asked := false } ∧
    ∀ k ∈ coresRunning (s.slice gc) a, ((exhaust s gc a).slice gc).score k = yieldAsked (s.slice gc) ((s.slice gc).score k) := by
  let t := s.setSlice gc ((s.slice gc).setHold a { (s.slice gc).hold a with held := 0, exh := true, asked := false })
  have ht : t.slice gc = (s.slice gc).setHold a { (s.slice gc).hold a with held := 0, exh := true, asked := false } :=
    (State.setSlice_slice _ _ _ _).trans (if_pos rfl)
  obtain ⟨hh, -, hs⟩ := foldl_budgetPreempt (coresRunning (s.slice gc) a) t gc a
  have hsl (u : State) (n : Nat) : (overrun u gc a n).slice gc = u.slice gc := by rw [State.slice, State.slice, overrun_slices]
  unfold exhaust
  dsimp only
  rw [hsl]
  constructor
  · exact hh.trans (by rw [ht, Slice.setHold_hold, if_pos rfl])
  · intro k hk
    refine (hs k).trans ((if_pos hk).trans ?_)
    rw [ht]
    rfl

end

/-- What is left of a word after a chunk of at most 4 096. -/
theorem sub_ofNat_min (v : Word) (n : Nat) : v - BitVec.ofNat 32 (min n v.toNat) = BitVec.ofNat 32 (v.toNat - min n v.toNat) := by
  apply BitVec.eq_of_toNat_eq
  have := v.isLt
  rw [BitVec.toNat_sub, BitVec.toNat_ofNat, BitVec.toNat_ofNat]
  omega

section
variable {s : State} {r : RegionId} {a : ActId}

/-- A chunk of what is left (R209). -/
theorem budAnswer_of_left (hen : ((s.bud r).act a).en = true) (hleft : ((s.bud r).act a).left ≠ 0) :
    let y := (s.bud r).act a
    ∃ t, budAnswer s r a = (some (min 4096 y.left.toNat), t) ∧
      t.bud r = (s.bud r).setAct a { y with left := BitVec.ofNat 32 (y.left.toNat - min 4096 y.left.toNat) } := by
  refine ⟨_, (if_neg (by simp [hen])).trans (if_pos hleft), ?_⟩
  simp [budAllTal, sub_ofNat_min]

/-- A chunk from the region's reserve (R210). -/
theorem budAnswer_of_borrow (hen : ((s.bud r).act a).en = true) (hleft : ((s.bud r).act a).left = 0)
    (hbor : ((s.bud r).act a).borrow = true ∧ ((s.bud r).act a).borrowed.toNat < bits ((s.bud r).act a).cur.bmax.toNat 0 16 ∧
      (s.bud r).rsvEn = true ∧ (s.bud r).rsvLeft ≠ 0) :
    let b := s.bud r
    let y := b.act a
    ∃ t, budAnswer s r a = (some (min 4096 b.rsvLeft.toNat), t) ∧
      t.bud r = { b.setAct a { y with borrowed := y.borrowed + 1 } with rsvLeft := BitVec.ofNat 32 (b.rsvLeft.toNat - min 4096 b.rsvLeft.toNat) } := by
  refine ⟨_, (if_neg (by simp [hen])).trans ((if_neg (by simp [hleft])).trans (if_pos hbor)), ?_⟩
  simp [budAllTal, budTal, sub_ofNat_min]

/-- The refusal of the BUD (R211). -/
theorem budAnswer_of_refused (hen : ((s.bud r).act a).en = true) (hleft : ((s.bud r).act a).left = 0) (hbor : ((s.bud r).act a).borrow = false) :
    let y := (s.bud r).act a
    ∃ t, budAnswer s r a = (none, t) ∧ t.bud r = (s.bud r).setAct a { y with exh := true } := by
  refine ⟨_, (if_neg (by simp [hen])).trans ((if_neg (by simp [hleft])).trans (if_neg (by simp [hbor]))), ?_⟩
  simp only [budAllTal, budTal]
  split
  · simp
  · simp

/-- What the slice makes of the refusal that comes first on its way. -/
theorem doChunkAnswer_of_refused {gc : ClusterId} {m : ChunkMsg} {rest : List ChunkMsg}
    (hm : takeMsg (s.bud (clusterRegion gc)).msgs gc a = some (m, rest)) (hp : m.parity = ((s.bud (clusterRegion gc)).act a).parity)
    (hn : m.amount = none) (hen : ((s.bud (clusterRegion gc)).act a).en = true) :
    doChunkAnswer s gc a = exhaust (s.setBud (clusterRegion gc) { s.bud (clusterRegion gc) with msgs := rest }) gc a := by
  unfold doChunkAnswer
  dsimp only
  rw [hm]
  dsimp only
  rw [hn]
  exact (if_neg (not_not_intro hp)).trans (if_pos hen)

end

/-- Settles O36: the request by what the BUD answers, the answer by its parity and amount. -/
theorem budgetChunks : Obligations.BudgetChunks := by
  unfold Obligations.BudgetChunks
  intro s gc a r b y x h asks answered
  have hreq (hasks : asks) (n : Option Nat) (t : State) (hb : budAnswer s r a = (n, t)) (hmsgs : (t.bud r).msgs = b.msgs)
      (hpar : ((t.bud r).act a).parity = y.parity) :
      ∃ u, exec (.chunkRequest gc a) s = .next u ∧ answered u n ∧ (u.bud r).act a = (t.bud r).act a ∧ (u.bud r).rsvLeft = (t.bud r).rsvLeft := by
    obtain ⟨hhold, hbud⟩ := chunkAsked_spec s gc a n t
    refine ⟨chunkAsked s gc a (n, t), ?_, ⟨hhold, ?_⟩, ?_, ?_⟩
    · exact congrArg Host.Outcome.next ((doChunkRequest_of_asks hasks).trans (congrArg _ hb))
    · exact (congrArg Bud.msgs hbud).trans (by rw [hmsgs, hpar])
    · rw [hbud]
      rfl
    · rw [hbud]
  refine ⟨fun hasks hen => ?free, fun hasks hen hleft => ?left, fun hasks hen hleft hbor hmax hrsv hrl => ?borrow, fun hasks hen hleft hbor => ?refused,
    fun m rest hm => ⟨fun hp => ?stale, fun n hp hn => ?grant, fun hp hn hen => ?exhausts⟩⟩
  case free =>
    obtain ⟨u, hu, hans, hact, -⟩ := hreq hasks (some 4096) (budAllTal s r 0x8100) (if_pos hen) rfl rfl
    exact ⟨u, hu, hans, hact⟩
  case left =>
    obtain ⟨t, hb, ht⟩ := budAnswer_of_left hen hleft
    obtain ⟨u, hu, hans, hact, -⟩ := hreq hasks _ t hb (by rw [ht]; rfl) (by rw [ht, Bud.setAct_act, if_pos rfl])
    exact ⟨u, hu, hans, hact.trans (by rw [ht, Bud.setAct_act, if_pos rfl])⟩
  case borrow =>
    obtain ⟨t, hb, ht⟩ := budAnswer_of_borrow hen hleft ⟨hbor, hmax, hrsv, hrl⟩
    have hty : (t.bud r).act a = { y with borrowed := y.borrowed + 1 } := by
      rw [ht]
      exact (Bud.setAct_act b a a _).trans (if_pos rfl)
    obtain ⟨u, hu, hans, hact, hlft⟩ := hreq hasks _ t hb (by rw [ht]; rfl) (by rw [hty])
    exact ⟨u, hu, hans, hlft.trans (by rw [ht]), by rw [hact, hty]⟩
  case refused =>
    obtain ⟨t, hb, ht⟩ := budAnswer_of_refused hen hleft hbor
    obtain ⟨u, hu, hans, hact, -⟩ := hreq hasks _ t hb (by rw [ht]; rfl) (by rw [ht, Bud.setAct_act, if_pos rfl])
    exact ⟨u, hu, hans, hact.trans (by rw [ht, Bud.setAct_act, if_pos rfl])⟩
  case stale =>
    refine congrArg Host.Outcome.next ?_
    unfold doChunkAnswer
    dsimp only
    rw [hm]
    exact if_pos hp
  case grant =>
    refine congrArg Host.Outcome.next ?_
    unfold doChunkAnswer
    dsimp only
    rw [hm]
    dsimp only
    rw [hn]
    exact if_neg (not_not_intro hp)
  case exhausts =>
    obtain ⟨hhold, hcores⟩ := exhaust_slice (s.setBud r { b with msgs := rest }) gc a
    refine ⟨_, congrArg Host.Outcome.next (doChunkAnswer_of_refused hm hp hn hen), hhold, fun k u hst hcur hact hcls hsusp hnext hpre => ?_⟩
    have hy := yieldAsked_of_may (x := x) hcur hcls hsusp hnext hpre
    have hk : k ∈ coresRunning x a := hact ▸ mem_coresRunning hst hcur
    exact congrArg SCore.preempt ((hcores k hk).trans hy)

end Sys2Proof.Machine
end

section
/-! The fabric's registers (O39): the regulator entry, the port control word by its states, and a drain's end. -/

namespace Sys2Proof.Machine

/-! ### Elements, ports and regulator entries -/

theorem elemOfKey_key (e : Elem) : elemOfKey (Elem.key e) = some e := by
  cases e with
  | mesh gc => simp [Elem.key, elemOfKey, gc.isLt]
  | gwDie d => exact (if_neg (by simp [Elem.key])).trans ((if_pos (by simp [Elem.key]; omega)).trans (by simp [Elem.key, BitVec.toNat_eq]; omega))
  | gwHub d =>
    exact (if_neg (by simp [Elem.key]; omega)).trans ((if_neg (by simp [Elem.key])).trans
      ((if_pos (by simp [Elem.key]; omega)).trans (by simp [Elem.key, BitVec.toNat_eq]; omega)))
  | h0 => rfl
  | h1 => rfl
  | ni n =>
    simp [Elem.key, elemOfKey, show ¬ 128 + n.toNat < 64 by omega, show ¬ 128 + n.toNat < 68 by omega, show ¬ 128 + n.toNat < 72 by omega,
      show 128 + n.toNat ≠ 72 by omega, show 128 + n.toNat ≠ 73 by omega]

theorem Elem.key_inj {e f : Elem} : Elem.key e = Elem.key f ↔ e = f :=
  ⟨fun h => Option.some.inj (by rw [← elemOfKey_key e, ← elemOfKey_key f, h]), congrArg Elem.key⟩

@[simp] theorem State.setElem_elem (s : State) (e f : Elem) (x : ElemState) : (s.setElem e x).elem f = if f = e then x else s.elem f := by
  simp [State.elem, State.setElem, Elem.key_inj]

@[simp] theorem State.setNi_elem (s : State) (n : NodeId) (x : Ni) (e : Elem) : (s.setNi n x).elem e = s.elem e := rfl

@[simp] theorem Ni.setReg_reg (x : Ni) (i j : Nat) (r : RegEntry) : (x.setReg i r).reg j = if j = i then r else x.reg j := by
  simp [Ni.setReg, Ni.reg]

/-- A packet that enters an element or a node leaves every element's ports and output buffers. -/
theorem sendTo_elem (s : State) (x : Next) (k : Packet) (f : Elem) :
    ((sendTo s x k).elem f).ports = (s.elem f).ports ∧ ((sendTo s x k).elem f).outq = (s.elem f).outq := by
  cases x with
  | el e i =>
    simp only [sendTo, State.setElem_elem]
    split
    · next h => exact h ▸ ⟨rfl, rfl⟩
    · exact ⟨rfl, rfl⟩
  | node n => exact ⟨rfl, rfl⟩

theorem foldl_sendTo_elem (l : List Packet) (s : State) (x : Next) (f : Elem) :
    ((l.foldl (fun t k => sendTo t x k) s).elem f).ports = (s.elem f).ports ∧
      ((l.foldl (fun t k => sendTo t x k) s).elem f).outq = (s.elem f).outq := by
  induction l generalizing s with
  | nil => exact ⟨rfl, rfl⟩
  | cons k l ih =>
    obtain ⟨hp, hq⟩ := ih (sendTo s x k)
    obtain ⟨hp', hq'⟩ := sendTo_elem s x k f
    exact ⟨hp.trans hp', hq.trans hq'⟩

/-- The output buffer of a port that has been flushed is empty, and the others stay. -/
theorem flushPort_elem (s : State) (e : Elem) (p : Nat) :
    ((flushPort s e p).elem e).ports = (s.elem e).ports ∧ ((flushPort s e p).elem e).outq = sput [] (s.elem e).outq p [] := by
  obtain ⟨hp, hq⟩ := foldl_sendTo_elem (sget [] (s.elem e).outq p) (s.setElem e { s.elem e with outq := sput [] (s.elem e).outq p [] }) (hop e p) e
  rw [State.setElem_elem, if_pos rfl] at hp hq
  exact ⟨hp, hq⟩

/-- The port and the output buffers of an element after a write of the port. -/
theorem setRPort_elem (s : State) (e : Elem) (p : Nat) (z : RPort) :
    ((s.setRPort e p z).elem e).port p = z ∧ ((s.setRPort e p z).elem e).outq = (s.elem e).outq := by
  simp [State.setRPort, ElemState.port]

/-! ### The commands -/

/-- Another enabled entry below 63 has the activity (R244). -/
theorem regClash_iff (x : Ni) (n : Nat) (act : ActId) (en : Bool) :
    (en && decide (n < 63) && (List.range 63).any (fun i => i != n && (x.reg i).en && (x.reg i).act == act)) = true ↔
      en = true ∧ n < 63 ∧ ∃ j < 63, j ≠ n ∧ (x.reg j).en = true ∧ (x.reg j).act = act := by
  simp [and_assoc]

section
variable {s : State} {who : Initiator} {e : Elem} {p : BitVec 3}

/-- A write of a port's control word that acts. -/
theorem rpCmd_of_open (hb : hasPortBlock e = true) (ho : regOpen s who (elemBase e + 0x40 * p.toNat) = true) (v : Word) :
    rpCmd s who e p v = wrAnswer (rpCtlWrite s e p.toNat v) :=
  (if_pos hb).trans (regCmd_of_open ho _)

theorem rpCtlWrite_of_locked {n : Nat} (hl : portLocked s e n = true) (v : Word) : rpCtlWrite s e n v = (.notPermitted, s) :=
  if_pos (Or.inr hl)

/-- The control word of DRAIN with DEPOCH. -/
theorem drainWord (d : Bool) : bits (BitVec.ofNat 32 (1 + 4 * b2n d)).toNat 0 2 = 1 ∧ (BitVec.ofNat 32 (1 + 4 * b2n d)).getLsbD 2 = d := by
  cases d <;> decide

section
variable {n : Nat} (hp : portPresent e n = true) (hl : portLocked s e n = false)
include hp hl

/-- A present port without a lock changes by its state and the state written (R256). -/
theorem rpCtlWrite_of_free (v : Word) :
    rpCtlWrite s e n v =
      match ((s.elem e).port n).state.toNat, bits v.toNat 0 2 with
      | 0, 1 => (.ok, s.setRPort e n { (s.elem e).port n with state := 1, depoch := v.getLsbD 2, pend := false })
      | 1, 0 => (.ok, s.setRPort e n { (s.elem e).port n with state := 0, pend := false })
      | 1, 2 =>
        if sget [] (s.elem e).outq n = [] then (.ok, s.setRPort e n { (s.elem e).port n with state := 2, pend := false })
        else (.ok, s.setRPort e n { (s.elem e).port n with pend := true })
      | 2, 0 => (.ok, s.setRPort e n { (s.elem e).port n with state := 0 })
      | _, _ => (.notPermitted, s) := by
  unfold rpCtlWrite
  dsimp only
  rw [if_neg (by simp [hp, hl])] <;> rfl

theorem rpCtlWrite_drain (h : ((s.elem e).port n).state = 0) (d : Bool) : rpCtlWrite s e n (BitVec.ofNat 32 (1 + 4 * b2n d)) =
    (.ok, s.setRPort e n { (s.elem e).port n with state := 1, depoch := d, pend := false }) := by
  rw [rpCtlWrite_of_free hp hl, h, (drainWord d).1, (drainWord d).2]
  rfl

theorem rpCtlWrite_drain_refused (h : ((s.elem e).port n).state ≠ 0) (d : Bool) :
    rpCtlWrite s e n (BitVec.ofNat 32 (1 + 4 * b2n d)) = (.notPermitted, s) := by
  rw [rpCtlWrite_of_free hp hl, (drainWord d).1]
  generalize ((s.elem e).port n).state = st at h
  obtain rfl | rfl | rfl := (by decide : ∀ st : BitVec 2, st ≠ 0 → st = 1 ∨ st = 2 ∨ st = 3) st h <;> rfl

theorem rpCtlWrite_disable (h : ((s.elem e).port n).state = 1) : rpCtlWrite s e n 2 =
    if sget [] (s.elem e).outq n = [] then (.ok, s.setRPort e n { (s.elem e).port n with state := 2, pend := false })
    else (.ok, s.setRPort e n { (s.elem e).port n with pend := true }) := by
  rw [rpCtlWrite_of_free hp hl, h]
  rfl

theorem rpCtlWrite_disable_refused (h : ((s.elem e).port n).state ≠ 1) : rpCtlWrite s e n 2 = (.notPermitted, s) := by
  rw [rpCtlWrite_of_free hp hl]
  generalize ((s.elem e).port n).state = st at h
  obtain rfl | rfl | rfl := (by decide : ∀ st : BitVec 2, st ≠ 1 → st = 0 ∨ st = 2 ∨ st = 3) st h <;> rfl

theorem rpCtlWrite_enable_draining (h : ((s.elem e).port n).state = 1) : rpCtlWrite s e n 0 =
    (.ok, s.setRPort e n { (s.elem e).port n with state := 0, pend := false }) := by
  rw [rpCtlWrite_of_free hp hl, h]
  rfl

theorem rpCtlWrite_enable_disabled (h : ((s.elem e).port n).state = 2) : rpCtlWrite s e n 0 =
    (.ok, s.setRPort e n { (s.elem e).port n with state := 0 }) := by
  rw [rpCtlWrite_of_free hp hl, h]
  rfl

end

end

/-- Settles O39: the entry by whether it clashes, the port by its lock and its state, and a drain's end. -/
theorem fabricControl : Obligations.FabricControl := by
  unfold Obligations.FabricControl
  intro s who n i v e p d x r act clash y set refused
  refine ⟨fun hn ho => ?entry, fun hn ho => ?swap, fun hb ho hp => ⟨fun hl => ?locked, fun hl => ?free⟩, fun hst hpend => ?drained⟩
  case entry =>
    have hexec : exec (.regulatorConfigWrite who n i v) s = .next (wrAnswer (regCfgWrite s n i.toNat v)) :=
      congrArg Host.Outcome.next ((if_pos hn).trans (regCmd_of_open ho _))
    have hclash := regClash_iff x i.toNat act (v.getLsbD 9)
    exact ⟨fun hc => hexec.trans (congrArg (fun a => Host.Outcome.next (wrAnswer a)) (if_pos (hclash.mpr hc))),
      fun hc => hexec.trans (congrArg (fun a => Host.Outcome.next (wrAnswer a)) (if_neg (mt hclash.mp hc)))⟩
  case swap =>
    have hlist : nodeListed n = true := (Bool.and_eq_true_iff.mp hn).1
    exact congrArg Host.Outcome.next ((if_pos hlist).trans ((regCmd_of_open ho _).trans
      (congrArg (fun t => wrAnswer (.ok, t)) (if_pos ⟨rfl, hn⟩))))
  case locked =>
    have hw (w : Word) : Host.Outcome.next (φ := Fault) (ρ := Refusal) (rpCmd s who e p w) = refused :=
      congrArg Host.Outcome.next ((rpCmd_of_open hb ho w).trans (congrArg wrAnswer (rpCtlWrite_of_locked hl w)))
    exact ⟨hw _, hw _, hw _⟩
  case free =>
    have hw (w : Word) (a : Outc × State) (ha : rpCtlWrite s e p.toNat w = a) :
        Host.Outcome.next (φ := Fault) (ρ := Refusal) (rpCmd s who e p w) = a.2.ends a.1 :=
      congrArg Host.Outcome.next ((rpCmd_of_open hb ho w).trans (congrArg wrAnswer ha))
    exact ⟨fun h => hw _ _ (rpCtlWrite_drain hp hl h d), fun h => hw _ _ (rpCtlWrite_drain_refused hp hl h d),
      fun h hq => hw _ _ ((rpCtlWrite_disable hp hl h).trans (if_pos hq)), fun h hq => hw _ _ ((rpCtlWrite_disable hp hl h).trans (if_neg hq)),
      fun h => hw _ _ (rpCtlWrite_disable_refused hp hl h), fun h => hw _ _ (rpCtlWrite_enable_draining hp hl h),
      fun h => hw _ _ (rpCtlWrite_enable_disabled hp hl h)⟩
  case drained =>
    obtain ⟨hports, hout⟩ := flushPort_elem s e p.toNat
    obtain ⟨hz, hq⟩ := setRPort_elem (flushPort s e p.toNat) e p.toNat { y with state := 2, pend := false }
    refine ⟨_, congrArg Host.Outcome.next (if_pos ⟨hst, hpend⟩), hz, ?_⟩
    rw [hq, hout, sget_sput_same]

end Sys2Proof.Machine
end

section
/-! Forwarding (O38): the packet that an input buffer offers, and an element's turn by the port it asks for. -/

namespace Sys2Proof.Machine

/-! ### The packet offered (R234, R235) -/

theorem vcOf_le (k : Packet) : vcOf k ≤ 3 := by
  unfold vcOf
  split
  · omega
  · split
    · omega
    · split <;> omega

/-- A packet that no other packet of its buffer goes before is offered. -/
theorem pickPkt_cons {k : Packet} {rest : List Packet} (h : ∀ q ∈ rest, vcOf k ≤ vcOf q) : pickPkt (k :: rest) = some 0 := by
  have hsome : (k :: rest).findIdx? (fun p => vcOf p == vcOf k) = some 0 := by simp [List.findIdx?_cons]
  have hnone (v : Nat) (hv : v < vcOf k) : (k :: rest).findIdx? (fun p => vcOf p == v) = none := by
    rw [List.findIdx?_eq_none_iff]
    intro q hq
    have : vcOf k ≤ vcOf q := by
      rcases List.mem_cons.mp hq with rfl | hq
      · exact Nat.le_refl _
      · exact h q hq
    simp; omega
  have hk := vcOf_le k
  have hsplit : List.range 4 = List.range (vcOf k) ++ (vcOf k) :: (List.range' (vcOf k + 1) (3 - vcOf k)) := by
    obtain hv | hv | hv | hv : vcOf k = 0 ∨ vcOf k = 1 ∨ vcOf k = 2 ∨ vcOf k = 3 := by omega
    all_goals
      rw [hv]
      rfl
  unfold pickPkt
  rw [hsplit, List.findSome?_append, List.findSome?_eq_none_iff.mpr (fun v hv => hnone v (List.mem_range.mp hv)), List.findSome?_cons, hsome]
  rfl

/-! ### An element's turn -/

section
variable {s : State} {e : Elem} {c : BitVec 3} {k : Packet} {rest : List Packet}

/-- The state whose element has given up the packets before `rest`. -/
def bufferLeft (s : State) (e : Elem) (c : BitVec 3) (rest : List Packet) : State :=
  s.setElem e { s.elem e with inq := sput [] (s.elem e).inq c.toNat rest }

theorem portState_bufferLeft (p : Nat) : portState (bufferLeft s e c rest) e p = portState s e p := by
  simp [portState, bufferLeft, ElemState.port]
  rfl

theorem portPasses_bufferLeft (p : Nat) (ep : Bool) : portPasses (bufferLeft s e c rest) e p ep = portPasses s e p ep := by
  unfold portPasses
  rw [portState_bufferLeft]
  simp [bufferLeft, ElemState.port]

theorem doForward_of_first (hq : sget [] (s.elem e).inq c.toNat = k :: rest) (h : ∀ q ∈ rest, vcOf k ≤ vcOf q) :
    doForward s e c = forward (bufferLeft s e c rest) e c.toNat k := by
  unfold doForward
  dsimp only
  rw [hq, pickPkt_cons h]
  rfl

theorem doLifetime_of_first (hq : sget [] (s.elem e).inq c.toNat = k :: rest) (hreq : typIsReq k.typ = false) (hold : 65536 * 4 ≤ s.cycle - k.born) :
    doLifetime s e c = portCount (bufferLeft s e c rest) e (outPort e k) 5 1 := by
  have hidx : (k :: rest).findIdx? (fun q => !typIsReq q.typ && decide (65536 * 4 ≤ s.cycle - q.born)) = some 0 := by
    rw [List.findIdx?_cons, if_pos (by rw [hreq]; exact decide_eq_true hold)]
  unfold doLifetime
  dsimp only
  rw [hq, hidx]
  rfl

@[simp] theorem portCount_asy (t : State) (f : Elem) (p i n : Nat) : (portCount t f p i n).asy = t.asy := by
  unfold portCount
  split <;> rfl

/-- Without an injection a finding is reported. -/
theorem check_of_found {t : State} (hi : t.asy.inj = []) (n : SourceId) (d : Word) : check t n true d = report t n d := by
  simp [check, hi]

/-- The first three failures of a flit: a replay (R248). -/
theorem doFlitError_of_replay {p f : Nat} (hi : s.asy.inj = []) (hl : onLink s e p = some (e, c.toNat, 0, k)) (hf : f < flitsOf k.typ)
    (hn : sget 0 (s.elem e).fails (4 * p + f) < 3) :
    doFlitError s e p f = report (portCount (s.setElem e { s.elem e with
      fails := sput 0 (s.elem e).fails (4 * p + f) (sget 0 (s.elem e).fails (4 * p + f) + 1) }) e p 1 1) (linkSrc e) (linkDetail e p 1) := by
  unfold doFlitError
  rw [hl]
  dsimp only
  rw [if_neg (Nat.not_le.mpr hf), if_pos (Nat.add_lt_add_right hn 1)]
  exact check_of_found (by simpa using hi) _ _

/-- The fourth failure of a flit takes the packet off the link (R249). -/
theorem doFlitError_of_abort {p f : Nat} (hi : s.asy.inj = []) (hl : onLink s e p = some (e, c.toNat, 0, k)) (hf : f < flitsOf k.typ)
    (hn : 3 ≤ sget 0 (s.elem e).fails (4 * p + f)) (hni : ∀ n, e ≠ .ni n) (hq : sget [] (s.elem e).inq c.toNat = k :: rest) :
    let u := report (portCount (s.setElem e { s.elem e with
      fails := sput 0 (s.elem e).fails (4 * p + f) 0, inq := sput [] (s.elem e).inq c.toNat rest }) e p 2 1) (linkSrc e) (linkDetail e p 2)
    doFlitError s e p f = if typIsReq k.typ then sendSynth u e c.toNat k .replayExhausted else portCount u e p 4 1 := by
  intro u
  unfold doFlitError
  rw [hl]
  dsimp only
  rw [if_neg (Nat.not_le.mpr hf), if_neg (by omega), State.setElem_elem, if_pos rfl, State.setElem_setElem]
  dsimp only
  rw [hq, check_of_found (by simpa using hi)]
  cases e with
  | ni n => exact absurd rfl (hni n)
  | _ => rfl

end

/-- Settles O38: the first packet's turn by the port it asks for, and the failures of a flit by their number. -/
theorem forwarding : Obligations.Forwarding := by
  unfold Obligations.Forwarding
  intro s e c k rest x taken p k1 hq hvc
  have hforward : exec (.routerForward e c) s = .next (forward taken e c.toNat k) :=
    congrArg Host.Outcome.next (doForward_of_first hq hvc)
  have hk1 : ({ k with route := consume k.route c.toNat } : Packet) = k1 := by
    unfold consume
    rw [Nat.mod_eq_of_lt c.isLt]
  have hpass : portPasses taken e p k.epoch = portPasses s e p k.epoch := portPasses_bufferLeft p _
  refine ⟨fun ha => ?agent, fun ha hp => ?sent, fun ha hp hr => ?dropped, fun ha hp hr => ?faulted, fun hr hold => ?old,
    fun port flit hi hl hni hf => ⟨fun hn => ?replay, fun hn => ?abort⟩⟩
  case agent => exact hforward.trans (congrArg Host.Outcome.next ((if_pos ha).trans (congrArg _ hk1)))
  case sent => exact hforward.trans (congrArg Host.Outcome.next ((if_neg (Bool.eq_false_iff.mp ha)).trans ((if_pos (hpass.trans hp)).trans (congrArg _ hk1))))
  case dropped =>
    exact hforward.trans (congrArg Host.Outcome.next
      ((if_neg (Bool.eq_false_iff.mp ha)).trans ((if_neg (Bool.eq_false_iff.mp (hpass.trans hp))).trans (if_neg (Bool.eq_false_iff.mp hr)))))
  case faulted =>
    exact hforward.trans (congrArg Host.Outcome.next
      ((if_neg (Bool.eq_false_iff.mp ha)).trans ((if_neg (Bool.eq_false_iff.mp (hpass.trans hp))).trans (if_pos hr))))
  case old => exact congrArg Host.Outcome.next (doLifetime_of_first hq hr hold)
  case replay => exact congrArg Host.Outcome.next (doFlitError_of_replay hi hl hf hn)
  case abort => exact congrArg Host.Outcome.next (doFlitError_of_abort hi hl hf hn hni hq)

end Sys2Proof.Machine
end

section
/-! Requests at a target (O40): the place of a data memory's block, whole-block accesses to a memory without parity errors, and an NI's turn. -/

namespace Sys2Proof.Machine

/-! ### Where data memories stand (R23, R25, R26) -/

/-- A choice with a value that its first branch does not have. -/
theorem of_ite_eq_of_ne {α : Type} {p : Prop} [Decidable p] {a b c : α} (h : (if p then a else b) = c) (hn : a ≠ c) : ¬p ∧ b = c := by
  by_cases hp : p
  · exact absurd ((if_pos hp).symm.trans h) hn
  · exact ⟨hp, (if_neg hp).symm.trans h⟩

/-- A choice with a value that its second branch does not have. -/
theorem of_ite_eq_of_ne' {α : Type} {p : Prop} [Decidable p] {a b c : α} (h : (if p then a else b) = c) (hn : b ≠ c) : p ∧ a = c := by
  by_cases hp : p
  · exact ⟨hp, (if_pos hp).symm.trans h⟩
  · exact absurd ((if_neg hp).symm.trans h) hn

theorem placeCore_ne_dmem (gc : ClusterId) (g f : CoreId) (m x : Nat) : (if m < 0x40000 then Place.gapCluster gc
    else if m < 0x50000 then Place.imem g (m - 0x40000)
    else if m < 0x80000 then Place.gapCluster gc
    else if m < 0x90000 then Place.coreReg g (m - 0x80000)
    else Place.gapCluster gc) ≠ .dmem f x := by
  intro h
  obtain ⟨-, h⟩ := of_ite_eq_of_ne h nofun
  obtain ⟨-, h⟩ := of_ite_eq_of_ne h nofun
  obtain ⟨-, h⟩ := of_ite_eq_of_ne h nofun
  obtain ⟨-, h⟩ := of_ite_eq_of_ne h nofun
  exact Place.noConfusion h

theorem placeCluster_dmem_iff {gc : ClusterId} {o : Nat} {g : CoreId} {x : Nat} : placeCluster gc o = .dmem g x ↔
    (0x1000000 ≤ o ∧ o < 0x1800000) ∧ o % 0x100000 < 0x20000 ∧ coreOf gc (BitVec.ofNat 3 ((o - 0x1000000) / 0x100000)) = g ∧ o % 0x100000 = x := by
  unfold placeCluster
  dsimp only
  constructor
  · intro h
    obtain ⟨-, h⟩ := of_ite_eq_of_ne h nofun
    obtain ⟨-, h⟩ := of_ite_eq_of_ne h nofun
    obtain ⟨hlo, h⟩ := of_ite_eq_of_ne h nofun
    by_cases hhi : o < 0x1800000
    · rw [if_pos hhi] at h
      obtain ⟨hm, h⟩ := of_ite_eq_of_ne' h (placeCore_ne_dmem _ _ _ _ _)
      obtain ⟨hg, hx⟩ := Place.dmem.inj h
      exact ⟨⟨Nat.le_of_not_lt hlo, hhi⟩, hm, hg, hx⟩
    · rw [if_neg hhi] at h
      obtain ⟨-, h⟩ := of_ite_eq_of_ne h nofun
      obtain ⟨-, h⟩ := of_ite_eq_of_ne h nofun
      obtain ⟨-, h⟩ := of_ite_eq_of_ne h nofun
      obtain ⟨-, h⟩ := of_ite_eq_of_ne h nofun
      obtain ⟨-, h⟩ := of_ite_eq_of_ne h nofun
      obtain ⟨-, h⟩ := of_ite_eq_of_ne h nofun
      exact Place.noConfusion h
  · rintro ⟨ho, hm, hg, hx⟩
    rw [if_neg (by omega), if_neg (by omega), if_neg (by omega), if_pos (by omega), if_pos hm, hg, hx]

theorem placeRegion_dmem_iff {r : RegionId} {o : Nat} {g : CoreId} {x : Nat} : placeRegion r o = .dmem g x ↔
    (0x40000000 ≤ o ∧ o < 0x80000000) ∧
      placeCluster (clusterOf r (BitVec.ofNat 2 ((o - 0x40000000) / 0x10000000))) (o % 0x10000000) = .dmem g x := by
  unfold placeRegion
  constructor
  · intro h
    obtain ⟨-, h⟩ := of_ite_eq_of_ne h nofun
    obtain ⟨-, h⟩ := of_ite_eq_of_ne h nofun
    obtain ⟨-, h⟩ := of_ite_eq_of_ne h nofun
    obtain ⟨-, h⟩ := of_ite_eq_of_ne h nofun
    obtain ⟨-, h⟩ := of_ite_eq_of_ne h nofun
    obtain ⟨hlo, h⟩ := of_ite_eq_of_ne h nofun
    obtain ⟨hhi, h⟩ := of_ite_eq_of_ne' h nofun
    exact ⟨⟨Nat.le_of_not_lt hlo, hhi⟩, h⟩
  · rintro ⟨ho, h⟩
    rw [if_neg (by omega), if_neg (by omega), if_neg (by omega), if_neg (by omega), if_neg (by omega), if_neg (by omega), if_pos (by omega), h]

theorem placeHub_ne_dmem (o : Nat) (g : CoreId) (x : Nat) : placeHub o ≠ .dmem g x := by
  intro h
  obtain ⟨-, h⟩ := of_ite_eq_of_ne h nofun
  obtain ⟨-, h⟩ := of_ite_eq_of_ne h nofun
  obtain ⟨-, h⟩ := of_ite_eq_of_ne h nofun
  obtain ⟨-, h⟩ := of_ite_eq_of_ne h nofun
  obtain ⟨-, h⟩ := of_ite_eq_of_ne h nofun
  exact Place.noConfusion h

theorem place_dmem_iff {pa : Pa} {g : CoreId} {x : Nat} : place pa = .dmem g x ↔
    (0x10000000000 ≤ pa.toNat ∧ pa.toNat < 0x14000000000) ∧ pa.toNat % 0x1000000000 < 0x400000000 ∧
      placeRegion (BitVec.ofNat 4 (4 * ((pa.toNat - 0x10000000000) / 0x1000000000) + pa.toNat % 0x1000000000 / 0x100000000))
        (pa.toNat % 0x1000000000 % 0x100000000) = .dmem g x := by
  unfold place
  dsimp only
  constructor
  · intro h
    obtain ⟨-, h⟩ := of_ite_eq_of_ne h nofun
    obtain ⟨hlo, h⟩ := of_ite_eq_of_ne h nofun
    by_cases hhi : pa.toNat < 0x14000000000
    · rw [if_pos hhi] at h
      obtain ⟨hm, h⟩ := of_ite_eq_of_ne' h nofun
      exact ⟨⟨Nat.le_of_not_lt hlo, hhi⟩, hm, h⟩
    · rw [if_neg hhi] at h
      obtain ⟨-, h⟩ := of_ite_eq_of_ne h nofun
      obtain ⟨-, h⟩ := of_ite_eq_of_ne h (placeHub_ne_dmem _ _ _)
      obtain ⟨-, h⟩ := of_ite_eq_of_ne h nofun
      obtain ⟨-, h⟩ := of_ite_eq_of_ne h nofun
      obtain ⟨-, h⟩ := of_ite_eq_of_ne h nofun
      exact Place.noConfusion h
  · rintro ⟨ha, hm, h⟩
    rw [if_neg (by omega), if_neg (by omega), if_pos (by omega), if_pos hm, h]

/-- Within an aligned 64-byte block the quotient by a multiple of 64 stays and the remainder counts on. -/
theorem block_div_mod {a i m : Nat} (ha : a % 64 = 0) (hi : i < 64) (hm : 64 ∣ m) : (a + i) / m = a / m ∧ (a + i) % m = a % m + i ∧ a % m % 64 = 0 := by
  obtain ⟨c, rfl⟩ := hm
  have hmod : a % (64 * c) % 64 = 0 := by rw [Nat.mod_mul_right_mod, ha]
  rcases Nat.eq_zero_or_pos c with rfl | hc
  · simp [ha]
  have hlt : a % (64 * c) + i < 64 * c := by
    have h1 := Nat.mod_lt a (show 0 < 64 * c by omega)
    have h2 : (64 * c - a % (64 * c)) % 64 = 0 := by omega
    omega
  have hsum : a + i = (a % (64 * c) + i) + 64 * c * (a / (64 * c)) := by
    have := Nat.mod_add_div a (64 * c)
    omega
  refine ⟨?_, ?_, hmod⟩
  · rw [hsum, Nat.add_mul_div_left _ _ (by omega), Nat.div_eq_of_lt hlt, Nat.zero_add]
  · rw [hsum, Nat.add_mul_mod_self_left, Nat.mod_eq_of_lt hlt]

theorem sub_mod_block {a c : Nat} (ha : a % 64 = 0) (hc : c % 64 = 0) : (a - c) % 64 = 0 := by omega

theorem placeCluster_dmem_block {gc : ClusterId} {o : Nat} {g : CoreId} {x i : Nat} (h : placeCluster gc o = .dmem g x) (hx : x % 64 = 0)
    (hi : i < 64) : placeCluster gc (o + i) = .dmem g (x + i) ∧ o % 64 = 0 := by
  obtain ⟨⟨hlo, hhi⟩, hlt, hg, hxo⟩ := placeCluster_dmem_iff.mp h
  have ho : o % 64 = 0 := by omega
  obtain ⟨hd, -, -⟩ := block_div_mod (m := 0x100000) (sub_mod_block (c := 0x1000000) ho rfl) hi (by decide)
  obtain ⟨-, hm, -⟩ := block_div_mod (m := 0x100000) ho hi (by decide)
  refine ⟨placeCluster_dmem_iff.mpr ⟨by omega, by omega, ?_, by omega⟩, ho⟩
  rw [Nat.sub_add_comm hlo, hd, hg]

theorem placeRegion_dmem_block {r : RegionId} {o : Nat} {g : CoreId} {x i : Nat} (h : placeRegion r o = .dmem g x) (hx : x % 64 = 0)
    (hi : i < 64) : placeRegion r (o + i) = .dmem g (x + i) ∧ o % 64 = 0 := by
  obtain ⟨⟨hlo, hhi⟩, h⟩ := placeRegion_dmem_iff.mp h
  obtain ⟨hc, hom⟩ := placeCluster_dmem_block h hx hi
  have ho : o % 64 = 0 := by omega
  obtain ⟨hd, -, -⟩ := block_div_mod (m := 0x10000000) (sub_mod_block (c := 0x40000000) ho rfl) hi (by decide)
  obtain ⟨-, hm, -⟩ := block_div_mod (m := 0x10000000) ho hi (by decide)
  refine ⟨placeRegion_dmem_iff.mpr ⟨by omega, ?_⟩, ho⟩
  rw [Nat.sub_add_comm hlo, hd, hm, hc]

/-- A 64-byte block of a data memory stands in it whole. -/
theorem place_dmem_block {pa : Pa} {g : CoreId} {x i : Nat} (h : place pa = .dmem g x) (hx : x % 64 = 0) (hi : i < 64) :
    place (BitVec.ofNat 44 (pa.toNat + i)) = .dmem g (x + i) ∧ pa.toNat % 64 = 0 := by
  obtain ⟨⟨hlo, hhi⟩, hm, h⟩ := place_dmem_iff.mp h
  obtain ⟨hr, hom⟩ := placeRegion_dmem_block h hx hi
  generalize pa.toNat = a at *
  have ha : a % 64 = 0 := by omega
  obtain ⟨hd, -, -⟩ := block_div_mod (m := 0x1000000000) (sub_mod_block (c := 0x10000000000) ha rfl) hi (by decide)
  obtain ⟨-, hm1, ha1⟩ := block_div_mod (m := 0x1000000000) ha hi (by decide)
  obtain ⟨hd2, hm2, -⟩ := block_div_mod (m := 0x100000000) ha1 hi (by decide)
  refine ⟨place_dmem_iff.mpr ?_, ha⟩
  rw [BitVec.toNat_ofNat, Nat.mod_eq_of_lt (by omega), Nat.sub_add_comm hlo, hd, hm1, hd2, hm2]
  exact ⟨by omega, by omega, hr⟩

/-! ### Whole-block accesses without parity errors (R126, R129) -/

section
variable {s : State}

/-- The state has no inverted parity bit and no pending injection. -/
def Unspoiled (s : State) : Prop := s.par = [] ∧ s.asy.inj = []

/-- A byte that may be written. -/
theorem setByteOpt_byte (a b : Nat) (x : Option Byte) : (setByteOpt s a x).byte b = if b = a then x.getD (s.byte b) else s.byte b := by
  cases x with
  | none => simp [setByteOpt]
  | some x => simp [setByteOpt]

theorem setByteOpt_unspoiled (h : Unspoiled s) (a : Nat) (x : Option Byte) : Unspoiled (setByteOpt s a x) := by
  cases x with
  | none => exact h
  | some x => exact h

theorem mergeWord_clean (h : Unspoiled s) (u : ParityUse) (a : Nat) (x y : Option Byte) :
    mergeWord u s a x y false = (false, setByteOpt (setByteOpt s a x) (a + 1) y) := by
  obtain ⟨hp, hi⟩ := h
  have hc (t : State) (ht : t.par = []) : clearPar t a = t := clearPar_clean ht a
  cases x <;> cases y <;> simp [mergeWord, parityWord_clean u hp hi, setByteOpt, hp, hc]

/-- The words of an even number of bytes from an even address. -/
theorem words16_even (a n : Nat) (ha : a % 2 = 0) : words16 a (2 * n) = (List.range n).map (fun i => a + 2 * i) := by
  unfold words16
  split
  · next h => rw [show n = 0 by omega]; rfl
  · rw [show (a + 2 * n - 1) / 2 - a / 2 + 1 = n by omega]
    refine List.map_congr_left (fun i _ => ?_)
    omega

/-- The write of each 16-bit word of an aligned block in turn. -/
theorem parityMerge_clean (h : Unspoiled s) (u : ParityUse) (a n : Nat) (ha : a % 2 = 0) (d : List (Option Byte)) (hd : d.length = 2 * n) :
    ∃ t, parityMerge u s a d 0 = (Ans.only .ok, t) ∧
      ∀ b, t.byte b = if a ≤ b ∧ b < a + 2 * n then (optAt d (b - a)).getD (s.byte b) else s.byte b := by
  have key (m : Nat) : ∃ t, ((List.range m).map (fun i => a + 2 * i)).foldl (fun (x : Bool × State) w =>
      let lo := if w < a then none else optAt d (w - a)
      let (p, t) := mergeWord u x.2 w lo (optAt d (w + 1 - a)) ((0 : BitVec 128).getLsbD (w / 2 - a / 2))
      (x.1 || p, t)) (false, s) = (false, t) ∧ Unspoiled t ∧
      ∀ b, t.byte b = if a ≤ b ∧ b < a + 2 * m then (optAt d (b - a)).getD (s.byte b) else s.byte b := by
    induction m with
    | zero => exact ⟨s, rfl, h, fun b => (if_neg (by omega)).symm⟩
    | succ m ih =>
      obtain ⟨t, ht, hu, hb⟩ := ih
      refine ⟨setByteOpt (setByteOpt t (a + 2 * m) (optAt d (2 * m))) (a + 2 * m + 1) (optAt d (2 * m + 1)), ?_,
        setByteOpt_unspoiled (setByteOpt_unspoiled hu _ _) _ _, fun b => ?_⟩
      · rw [List.range_succ, List.map_append, List.foldl_append, ht]
        simp only [List.map_cons, List.map_nil, List.foldl_cons, List.foldl_nil]
        rw [if_neg (by omega), show a + 2 * m - a = 2 * m by omega, show a + 2 * m + 1 - a = 2 * m + 1 by omega,
          show (0 : BitVec 128) = 0#128 from rfl, BitVec.getLsbD_zero, mergeWord_clean hu]
        rfl
      · rw [setByteOpt_byte, setByteOpt_byte, hb]
        by_cases h1 : b = a + 2 * m + 1
        · rw [if_pos h1, if_neg (by omega), if_neg (by omega), if_pos (by omega), show b - a = 2 * m + 1 by omega]
        · by_cases h0 : b = a + 2 * m
          · rw [if_neg h1, if_pos h0, if_neg (by omega), if_pos (by omega), show b - a = 2 * m by omega]
          · rw [if_neg h1, if_neg h0]
            exact ite_iff (by omega)
  obtain ⟨t, ht, -, hb⟩ := key n
  refine ⟨t, ?_, hb⟩
  unfold parityMerge
  rw [hd, words16_even a n ha, ht]
  rfl

theorem fitBytes_length (n : Nat) (l : List Byte) : (fitBytes n l).length = n := by
  simp [fitBytes]

/-! ### The enabled bytes of a mask (R231) -/

/-- The enabled bytes of a mask stand in its span, and the span in the block. -/
theorem maskSpan_spec (m : BitVec 64) : (maskSpan m).1 < 64 ∧ (maskSpan m).1 + (maskSpan m).2 ≤ 64 ∧
    ∀ i < 64, m.getLsbD i = true → (maskSpan m).1 ≤ i ∧ i < (maskSpan m).1 + (maskSpan m).2 := by
  unfold maskSpan
  have hsorted : ((List.range 64).filter (fun i => m.getLsbD i)).Pairwise (· < ·) := List.pairwise_lt_range.filter _
  have hmem (i : Nat) : i ∈ (List.range 64).filter (fun i => m.getLsbD i) ↔ i < 64 ∧ m.getLsbD i = true := by simp
  generalize (List.range 64).filter (fun i => m.getLsbD i) = l at hsorted hmem
  dsimp only
  cases l with
  | nil => exact ⟨by decide, Nat.zero_le 64, fun i hi hm => absurd ((hmem i).mpr ⟨hi, hm⟩) List.not_mem_nil⟩
  | cons a l =>
    obtain ⟨b, hb⟩ : ∃ b, (a :: l).getLast? = some b := ⟨_, List.getLast?_eq_some_getLast (List.cons_ne_nil a l)⟩
    rw [List.head?_cons, hb]
    obtain ⟨l', hl⟩ := List.getLast?_eq_some_iff.mp hb
    have hlast (i : Nat) (hi : i ∈ a :: l) : i ≤ b := by
      rw [hl] at hi hsorted
      rcases List.mem_append.mp hi with hi | hi
      · exact Nat.le_of_lt ((List.pairwise_append.mp hsorted).2.2 i hi b (List.mem_singleton.mpr rfl))
      · exact Nat.le_of_eq (List.mem_singleton.mp hi)
    have hfirst (i : Nat) (hi : i ∈ a :: l) : a ≤ i := by
      rcases List.mem_cons.mp hi with hi | hi
      · exact Nat.le_of_eq hi.symm
      · exact Nat.le_of_lt ((List.pairwise_cons.mp hsorted).1 i hi)
    have hb64 := ((hmem b).mp (hl ▸ List.mem_append_right l' (List.mem_singleton.mpr rfl))).1
    have hab := hlast a List.mem_cons_self
    refine ⟨by dsimp only; omega, by dsimp only; omega, fun i hi hm => ?_⟩
    have hi' := (hmem i).mpr ⟨hi, hm⟩
    have h1 := hfirst i hi'
    have h2 := hlast i hi'
    dsimp only
    omega

/-- The data of a masked read of memory in its block. -/
theorem inBlock_data (s : State) (m : BitVec 64) (a : Nat) (x : Ans) (hx : x.data = s.bytes (a + (maskSpan m).1) (maskSpan m).2) :
    (inBlock m x).data = (List.range 64).map (fun i => if m.getLsbD i then s.byte (a + i) else 0) := by
  obtain ⟨-, -, hin⟩ := maskSpan_spec m
  unfold inBlock
  dsimp only
  rw [hx]
  refine List.ext_getElem (by simp [fitBytes_length]) (fun i hi _ => ?_)
  have hi64 : i < 64 := by simpa [fitBytes_length] using hi
  rw [List.getElem_map, List.getElem_map, List.getElem_zipIdx, List.getElem_range, Nat.zero_add]
  dsimp only
  split
  · next hm =>
    obtain ⟨hlo, hhi⟩ := hin i hi64 hm
    simp only [fitBytes, List.getElem_take]
    rw [List.getElem_append_left (by simp [State.bytes]; omega), List.getElem_append_right (by simpa using hlo)]
    simp [State.bytes, show a + (maskSpan m).1 + (i - (maskSpan m).1) = a + i by omega]
  · rfl

/-! ### A data memory as a target -/

section
variable {k : Packet} {g : CoreId} {off : Nat}

theorem bulkMc_of_dmem {a : Nat} (h : place (BitVec.ofNat 44 a) = .dmem g off) : bulkMc a = none := by
  unfold bulkMc
  rw [h]

/-- The bytes that a masked or a whole write enables. -/
theorem optAt_reqBytes (hk : k.typ = .wr ∨ k.typ = .wrm) {i : Nat} (hi : i < 64) : optAt (reqBytes k.typ k.mask k.data) i =
    if k.typ = .wr ∨ k.mask.getLsbD i = true then some ((fitBytes 64 k.data).getD i 0) else none := by
  have hlen : i < (fitBytes 64 k.data).length := by rw [fitBytes_length]; exact hi
  rcases hk with hk | hk
  · simp [hk, reqBytes, optAt, List.getElem?_eq_getElem hlen]
  · simp [hk, reqBytes, optAt, hlen]

theorem reqBytes_length (hk : k.typ = .wr ∨ k.typ = .wrm) : (reqBytes k.typ k.mask k.data).length = 64 := by
  rcases hk with hk | hk <;> simp [hk, reqBytes, fitBytes_length]

/-- The pieces of bytes that stand in one block. -/
theorem blocks64_one {a n fuel : Nat} (hn : n ≠ 0) (hb : a % 64 + n ≤ 64) : blocks64 (fuel + 2) a n = [(a, n)] := by
  have hmin : min n (64 - a % 64) = n := by omega
  simp [blocks64, hn, hmin]

/-- An access that comes in one piece is answered with that piece. -/
theorem foldPieces_one {f : State → Nat × Nat → TgtAns} {p : Nat × Nat} {d : List Byte} {pz : List Bool} {t : State}
    (h : f s p = some ({ outc := .ok, flags := 0, data := d, poison := pz }, t)) :
    foldPieces s f [p] = some ({ outc := .ok, flags := 0, data := d, poison := pz }, t) := by
  simp only [foldPieces, List.foldl_cons, List.foldl_nil, h]
  rw [if_neg (by decide)]
  simp [joinAns, Ans.only, joinOutc, goesOn, Outc.good]

section
variable (hp : place k.addr = .dmem g off) (h64 : off % 64 = 0)
include hp h64

theorem plainAt_dmem {i : Nat} (hi : i < 64) : plainAt s (BitVec.ofNat 44 (k.addr.toNat + i)) = .core g 0 (.dmem g) := by
  unfold plainAt
  rw [(place_dmem_block hp h64 hi).1]

variable (hr : s.ready (.dmem g) = true) (hu : Unspoiled s)
include hr hu

/-- A write of a block of a data memory. -/
theorem tgtMem_dmem_write (hk : k.typ = .wr ∨ k.typ = .wrm) : ∃ u, tgtMem s k.addr.toNat k = some (Ans.only .ok, u) ∧
    ∀ b, u.byte b = if k.addr.toNat ≤ b ∧ b < k.addr.toNat + 64 ∧ (k.typ = .wr ∨ k.mask.getLsbD (b - k.addr.toNat) = true) then
      (fitBytes 64 k.data).getD (b - k.addr.toNat) 0 else s.byte b := by
  obtain ⟨hplace, halign⟩ := place_dmem_block hp h64 (i := 0) (by omega)
  rw [Nat.add_zero] at hplace
  obtain ⟨u, hm, hb⟩ := parityMerge_clean hu (coreParity g 0 true none) k.addr.toNat 32 (by omega) (reqBytes k.typ k.mask k.data) (reqBytes_length hk)
  have hplain := plainAt_dmem hp h64 (s := s) (i := 0) (by omega)
  rw [Nat.add_zero] at hplain
  refine ⟨u, ?_, fun b => (hb b).trans ?_⟩
  · have hpoison : (if typPoison k.typ = true then k.poison else 0) = 0 := by rcases hk with hk | hk <;> rw [hk] <;> rfl
    refine (if_pos (by rcases hk with hk | hk <;> rw [hk] <;> rfl)).trans ?_
    rw [hpoison]
    unfold memWrite plainPieces
    rw [reqBytes_length hk, bulkMc_of_dmem hplace, if_neg (by decide), blocks64_one (by omega) (by omega)]
    refine foldPieces_one ?_
    dsimp only
    rw [Nat.sub_self, List.drop_zero, List.take_of_length_le (Nat.le_of_eq (reqBytes_length hk)), Nat.sub_self]
    unfold plainWrite
    rw [hplain]
    exact (if_pos hr).trans (congrArg some hm)
  · by_cases hin : k.addr.toNat ≤ b ∧ b < k.addr.toNat + 64
    · rw [if_pos hin, optAt_reqBytes hk (by omega)]
      by_cases hen : k.typ = .wr ∨ k.mask.getLsbD (b - k.addr.toNat) = true
      · rw [if_pos hen, if_pos ⟨hin.1, hin.2, hen⟩]
        rfl
      · rw [if_neg hen, if_neg (fun h => hen h.2.2)]
        rfl
    · rw [if_neg hin, if_neg (fun h => hin ⟨h.1, h.2.1⟩)]

/-- A masked read of a block of a data memory. -/
theorem tgtMem_dmem_read (hk : k.typ = .rd) : ∃ a, tgtMem s k.addr.toNat k = some (a, s) ∧ a.outc = .ok ∧
    a.data = (List.range 64).map (fun i => if k.mask.getLsbD i then s.byte (k.addr.toNat + i) else 0) := by
  obtain ⟨hlo, hlen, -⟩ := maskSpan_spec k.mask
  have hread : ∃ z, memRead s (k.addr.toNat + (maskSpan k.mask).1) (maskSpan k.mask).2 k.act = some (z, s) ∧ z.outc = .ok ∧
      z.data = s.bytes (k.addr.toNat + (maskSpan k.mask).1) (maskSpan k.mask).2 := by
    obtain ⟨hplace, halign⟩ := place_dmem_block hp h64 hlo
    have hplain := plainAt_dmem hp h64 (s := s) hlo
    unfold memRead plainPieces
    rw [bulkMc_of_dmem hplace, if_neg (by decide)]
    by_cases hn : (maskSpan k.mask).2 = 0
    · rw [hn]
      exact ⟨Ans.only .ok, rfl, rfl, rfl⟩
    · have hpiece : plainRead s (k.addr.toNat + (maskSpan k.mask).1) (maskSpan k.mask).2 k.act =
          some (parityRead (coreParity g 0 true none) s (k.addr.toNat + (maskSpan k.mask).1) (maskSpan k.mask).2) := by
        unfold plainRead
        rw [hplain]
        exact if_pos hr
      rw [blocks64_one hn (by omega)]
      exact ⟨_, foldPieces_one (hpiece.trans (congrArg some (parityRead_clean _ hu.1 hu.2 _ _))), rfl, rfl⟩
  obtain ⟨z, hz, ho, hd⟩ := hread
  refine ⟨inBlock k.mask z, ?_, ho, inBlock_data s k.mask _ z hd⟩
  refine (if_neg (by rw [hk]; exact Bool.false_ne_true)).trans ((if_pos hk).trans ?_)
  dsimp only
  rw [hz]
  rfl

end

end

end

/-! ### An NI's turn (R231, R255, R444, R445) -/

section
variable {s : State} {n : NodeId} {k : Packet} {rest : List Packet}

/-- The NI has given up the packet that arrived first. -/
def ejected (s : State) (n : NodeId) (rest : List Packet) : State := s.setNi n { s.ni n with arrived := rest }

theorem takeArrived_of_first {f : Packet → Bool} (ha : (s.ni n).arrived = k :: rest) (hf : f k = true) :
    takeArrived s n f = some (k, ejected s n rest) := by
  unfold takeArrived ejected
  dsimp only
  rw [ha, List.findIdx?_cons, if_pos hf]
  rfl

theorem takeArrived_of_none {f : Packet → Bool} (ha : (s.ni n).arrived = k :: rest) (hf : f k = false) (hrest : ∀ q ∈ rest, f q = false) :
    takeArrived s n f = none := by
  unfold takeArrived
  dsimp only
  rw [ha, List.findIdx?_eq_none_iff.mpr]
  intro q hq
  rcases List.mem_cons.mp hq with rfl | hq
  · exact hf
  · exact hrest q hq

/-- The request that is served is the one that arrived first. -/
theorem reqIndex_cons (hk : typIsReq k.typ = true) : reqIndex (k :: rest) 0 = some 0 := by
  simp [reqIndex, List.zipIdx_cons, hk]

/-- A request that arrived first and that the NI does not hold meets the gate. -/
theorem doTarget_of_request (hr : inReset s n = false) (ha : (s.ni n).arrived = k :: rest) (hk : typIsReq k.typ = true) (hh : heldAt s n = 0)
    (hrest : ∀ q ∈ rest, q.typ ≠ .reserved ∧ q.typ ≠ .msg) : doTarget s n =
      match nodeGate s n (agentPa k.addr) with
      | .answer o => respond (if o = .domainAsleep then lmpTal (ejected s n rest) 10 else ejected s n rest) n (answerPkt k (Ans.only o))
      | .hold u => holdReq s n u
      | .pass => performReq s (ejected s n rest) n k := by
  have hnone : takeArrived s n (fun k => k.typ == .reserved || k.typ == .msg) = none := by
    refine takeArrived_of_none ha ?_ (fun q hq => ?_)
    · cases ht : k.typ <;> rw [ht] at hk <;> simp_all [typIsReq]
    · simp [hrest q hq]
  unfold doTarget
  rw [if_neg (by simp [hr]), hnone]
  dsimp only
  rw [ha, hh, reqIndex_cons hk]
  rfl

theorem doTarget_of_reserved (hr : inReset s n = false) (ha : (s.ni n).arrived = k :: rest) (hk : k.typ = .reserved ∨ k.typ = .msg) :
    doTarget s n = if k.typ = .reserved then tallyAdd (ejected s n rest) (niBase n + 0x130) 1 else ejected s n rest := by
  unfold doTarget
  rw [if_neg (by simp [hr]), takeArrived_of_first ha (by simpa using hk)]

/-- A wake that an access starts: the unit has a wake in progress, and the source's bit is set (R445, R446). -/
theorem startWake_access (t : State) (u : PowerUnit) :
    let v := startWake t u 0x40 none 0
    v.lmp.held = t.lmp.held ∧ v.nis = t.nis ∧ v.lmp.wakes.any (fun w => w.target == u) = true ∧ v.lmp.wakesrc = t.lmp.wakesrc ||| 0x40 := by
  intro v
  by_cases h : t.lmp.wakes.any (fun w => w.target == u) = true
  · have hv : v = { t with lmp := { t.lmp with
        wakesrc := t.lmp.wakesrc ||| 0x40, wakes := t.lmp.wakes.map (fun w => if w.target = u then { w with src := w.src ||| 0x40 } else w) } } :=
      if_pos h
    rw [hv]
    refine ⟨rfl, rfl, ?_, rfl⟩
    obtain ⟨w, hw, hu⟩ := List.any_eq_true.mp h
    refine List.any_eq_true.mpr ⟨_, List.mem_map.mpr ⟨w, hw, rfl⟩, ?_⟩
    rw [if_pos (by simpa using hu)]
    exact hu
  · rw [show v = _ from if_neg h]
    exact ⟨rfl, rfl, by simp, rfl⟩

/-- A request held for a cluster that sleeps counts, and its wake begins (R444, R445). -/
theorem holdReq_cluster {gc : ClusterId} (hnap : clusterPower s gc ≠ .nap) (htx : s.lmp.tx = none) :
    (holdReq s n (.cluster gc)).lmp.held = s.lmp.held ++ [{ target := .cluster gc, node := n }] ∧ (holdReq s n (.cluster gc)).ni n = s.ni n ∧
      (holdReq s n (.cluster gc)).lmp.wakes.any (fun w => w.target == .cluster gc) = true ∧
      (holdReq s n (.cluster gc)).lmp.wakesrc = s.lmp.wakesrc ||| 0x40 := by
  unfold holdReq
  rw [if_neg (by simpa [napHold] using hnap)]
  obtain ⟨hheld, hni, hany, hsrc⟩ := startWake_access (lmpTal { s with lmp := { s.lmp with held := s.lmp.held ++ [{ target := .cluster gc, node := n }] } } 9)
    (.cluster gc)
  unfold holdWake
  rw [show (lmpTal { s with lmp := { s.lmp with held := s.lmp.held ++ [{ target := .cluster gc, node := n }] } } 9).lmp.tx = none from htx]
  exact ⟨hheld, congrArg (fun l => sget Ni.reset l n.toNat) hni, hany, hsrc⟩

/-- A register's address: ROUTE_FAULT without a register there, NOT_PERMITTED to a P2 task and to a write of a whole block (R31, R232). -/
theorem tgtAccess_reg (pkt : Option Packet) (hreg : isRegPa k.addr = true) (hwin : loadWin s k.addr = none) :
    let word := regRead s (place (BitVec.ofNat 44 ((k.addr.toNat + (reqSpan k).1) / 4 * 4)))
    (word = none → tgtAccess s k pkt = .ans (Ans.only .routeFault) s) ∧
      (word.isSome = true → k.p2 = true ∨ k.typ = .wr → tgtAccess s k pkt = .ans (Ans.only .notPermitted) s) := by
  intro word
  have hacc : tgtAccess s k pkt = Tgt.of (tgtReg s k.addr.toNat k) := by
    unfold tgtAccess
    unfold isRegPa Place.isReg at hreg
    dsimp only
    cases hp : place k.addr <;> rw [hp] at hreg <;> simp_all
  have htgt : tgtReg s k.addr.toNat k = match word with
    | none => some (Ans.only .routeFault, s)
    | some _ =>
      if k.p2 = true ∨ (reqSpan k).2 ≠ 4 ∨ reqWhole k = false ∨ (reqSpan k).1 % 4 ≠ 0 then some (Ans.only .notPermitted, s)
      else if reqPoisoned k then some (Ans.only .uncorrectable, s)
      else if typIsWrite k.typ then
        let (o, t) := regWr s (k.addr.toNat + (reqSpan k).1) 4 (BitVec.ofNat 32 (natOfBytes ((k.data.drop (reqSpan k).1).take 4)))
        some (Ans.only o, t)
      else
        let (a, t) := regRd s (k.addr.toNat + (reqSpan k).1) 4
        some (if goesOn a.outc then inBlock k.mask a else a, t) := by
    unfold tgtReg
    rw [BitVec.ofNat_toNat, BitVec.setWidth_eq, hwin] <;> rfl
  rw [hacc, htgt]
  refine ⟨fun hw => by rw [hw]; rfl, fun hw hno => ?_⟩
  obtain ⟨v, hv⟩ := Option.isSome_iff_exists.mp hw
  rw [hv]
  refine congrArg Tgt.of (if_pos ?_)
  rcases hno with h | h
  · exact Or.inl h
  · exact Or.inr (Or.inl (by simp [reqSpan, typWide, h]))

end

/-- Settles O40: an NI's turn by the packet that came first and by the gate, and what each kind of address answers. -/
theorem targetRequests : Obligations.TargetRequests := by
  unfold Obligations.TargetRequests
  refine ⟨fun s n k rest o a u => ?_, fun s k pkt => ?_⟩
  · intro t c gate hr ha
    refine ⟨fun hk => ?reserved, fun hk => ?msg, fun hk hh hrest => ⟨fun hg ho => ?answer, fun hg => ?asleep, fun gc hg hnap htx => ?hold,
      fun hg hn => ?astray, fun hg hn => ⟨fun ht => ?ans, fun ht => ?retry, fun ht => ?taken, fun ht => ?wait⟩⟩⟩
    case reserved => exact congrArg Host.Outcome.next ((doTarget_of_reserved hr ha (Or.inl hk)).trans (if_pos hk))
    case msg =>
      exact congrArg Host.Outcome.next ((doTarget_of_reserved hr ha (Or.inr hk)).trans (if_neg (by rw [hk]; exact PktType.noConfusion)))
    all_goals
      have hturn := doTarget_of_request hr ha hk hh hrest
      rw [show nodeGate s n (agentPa k.addr) = _ from hg] at hturn
    case answer => exact congrArg Host.Outcome.next (hturn.trans (congrArg (fun v => respond v n (answerPkt k (Ans.only o))) (if_neg ho)))
    case asleep => exact congrArg Host.Outcome.next hturn
    case hold => exact ⟨_, congrArg Host.Outcome.next hturn, holdReq_cluster hnap htx⟩
    case astray => exact congrArg Host.Outcome.next (hturn.trans (if_pos hn))
    all_goals
      have hdone := hturn.trans (if_neg (not_not_intro hn))
      rw [show tgtAccess (ejected s n rest) k (some k) = _ from ht] at hdone
      exact congrArg Host.Outcome.next hdone
  · intro no
    refine ⟨fun h => ?gap, fun hreg hwin => ?regs, fun g off hp h64 hr hpar hinj => ⟨fun hk => ?write, fun hk => ?read⟩⟩
    case gap =>
      rcases h with h | h | ⟨r, h⟩ | ⟨gc, h⟩
      all_goals
        show tgtAccess s k pkt = _
        unfold tgtAccess
        rw [h]
    case regs =>
      intro word
      obtain ⟨hnone, hsome⟩ := tgtAccess_reg pkt hreg hwin
      exact ⟨hnone, fun hw hp2 => hsome hw (Or.inl hp2), fun hw ht => hsome hw (Or.inr ht)⟩
    case write =>
      obtain ⟨u, hm, hb⟩ := tgtMem_dmem_write hp h64 hr ⟨hpar, hinj⟩ hk
      refine ⟨u, ?_, hb⟩
      have hwide : wideBad k = false := by rcases hk with hk | hk <;> simp [wideBad, typWide, hk]
      unfold tgtAccess
      rw [hp]
      exact (if_neg (Bool.eq_false_iff.mp hwide)).trans (congrArg Tgt.of hm)
    case read =>
      obtain ⟨a, hm, ho, hd⟩ := tgtMem_dmem_read hp h64 hr ⟨hpar, hinj⟩ hk
      refine ⟨a, s, ?_, ho, fun _ => rfl, hd⟩
      have hwide : wideBad k = false := by simp [wideBad, typWide, hk]
      unfold tgtAccess
      rw [hp]
      exact (if_neg (Bool.eq_false_iff.mp hwide)).trans (congrArg Tgt.of hm)

end Sys2Proof.Machine
end

section
/-! Host memory (O42): an access within one entry of the translation, and the completion of a read. -/

namespace Sys2Proof.Machine

/-! ### Bytes of host memory -/

theorem hostBytes_frame (s : State) (a : Nat) (d : List Byte) : s.hostBytes a d = { s with hostMem := (s.hostBytes a d).hostMem } := by
  induction d generalizing s a with
  | nil => rfl
  | cons b d ih =>
    unfold State.hostBytes
    rw [ih]

/-- A fold that writes bytes of host memory one after the other. -/
theorem foldl_hostBytes_one (s : State) (a : Nat) (d : List Byte) (n : Nat) (hn : n ≤ d.length) :
    let t := (List.range n).foldl (fun t i => match optAt (d.map some) i with | some b => t.hostBytes (a + i) [b] | none => t) s
    t = { s with hostMem := t.hostMem } ∧ ∀ b, sget 0 t.hostMem b = if a ≤ b ∧ b < a + n then d.getD (b - a) 0 else sget 0 s.hostMem b := by
  induction n with
  | zero => exact ⟨rfl, fun b => (if_neg (by omega)).symm⟩
  | succ n ih =>
    obtain ⟨hf, hb⟩ := ih (by omega)
    have hopt : optAt (d.map some) n = some (d.getD n 0) := by simp [optAt, show n < d.length by omega]
    rw [List.range_succ, List.foldl_append]
    generalize (List.range n).foldl _ s = u at hf hb
    rw [List.foldl_cons, List.foldl_nil, hopt]
    refine ⟨(hostBytes_frame u _ _).trans (by rw [hf]), fun b => ?_⟩
    show sget 0 (sput 0 u.hostMem (a + n) (d.getD n 0)) b = _
    rw [sget_sput, hb]
    by_cases h : b = a + n
    · rw [if_pos h, if_pos (by omega), show b - a = n by omega]
    · rw [if_neg h]
      exact ite_iff (by omega)

/-! ### The translation (R291) -/

section
variable {s : State} {off : Nat} {act : ActId}

/-- An access that ends within its translation entry is one part. -/
theorem hostParts_one {n fuel : Nat} (hn : 0 < n) (he : off % 0x40000000 + n ≤ 0x40000000) : hostParts (fuel + 2) off n = [(off, n)] := by
  have hmin : min n (0x40000000 - off % 0x40000000) = n := by omega
  unfold hostParts
  rw [if_neg (Nat.ne_of_gt hn), hmin]
  dsimp only
  rw [Nat.sub_self]
  unfold hostParts
  rw [if_pos rfl]

theorem hostWrite_one {d : List Byte} (hn : 0 < d.length) (he : off % 0x40000000 + d.length ≤ 0x40000000) :
    hostWrite s off (d.map some) act = hostWrite1 s off (d.map some) act := by
  unfold hostWrite
  rw [List.length_map, hostParts_one hn he, List.foldl_cons, List.foldl_nil]
  dsimp only
  rw [if_pos rfl, Nat.sub_self, List.drop_zero, List.take_of_length_le (by simp)]

theorem hostReadAll_one {ini : Initiator} {n : Nat} (hn : 0 < n) (he : off % 0x40000000 + n ≤ 0x40000000) :
    hostReadAll s ini off n act = hostRead1 s ini none off n act := by
  unfold hostReadAll
  rw [hostParts_one hn he, List.foldl_cons, List.foldl_nil]

theorem hostWrite1_of_refused {o : Outc} (h : hostXlate s off act = .error o) (d : List (Option Byte)) : hostWrite1 s off d act = (o, s) := by
  unfold hostWrite1
  rw [h]

theorem hostRead1_of_refused {o : Outc} (h : hostXlate s off act = .error o) (ini : Initiator) (n : Nat) :
    hostRead1 s ini none off n act = some (o, s) := by
  unfold hostRead1
  rw [h]

variable {ini : Initiator} {pa : Pa} (hp : place pa = .host off) (hr : hostReach s = true)
include hp hr

theorem exec_hostWrite (n : Nat) (d : List Byte) : exec (.hostMemoryAccess ini pa true n d act) s =
    (hostWrite s off (d.map some) act).2.ends (hostWrite s off (d.map some) act).1 := by
  refine congrArg Host.Outcome.next ?_
  unfold doHostAccess
  rw [hp]
  exact if_neg (by simp [hr])

theorem exec_hostRead (n : Nat) (d : List Byte) : exec (.hostMemoryAccess ini pa false n d act) s =
    .next (match hostReadAll s ini off n act with
      | some (.ok, t) => t
      | some (o, t) => t.answerOnly o
      | none => s) := by
  refine congrArg Host.Outcome.next ?_
  unfold doHostAccess
  rw [hp]
  exact (if_neg (by simp [hr])).trans rfl

end

/-- A completion that is not early ends the read (R292). -/
theorem exec_hostReadCompletion {s : State} {tag : BitVec 10} {h : HostRead} (ht : sget none s.hif.reads tag.toNat = some h) (hp : h.pkt = none)
    {cpl : PcieCpl} (hc : cpl = .timeout → ctoCycles s ≤ s.cycle - h.since) : exec (.hostReadCompletion tag cpl) s =
      .next ({ s with hif := { s.hif with reads := sput none s.hif.reads tag.toNat none } }.answer (cplAns h.len cpl)) := by
  refine congrArg Host.Outcome.next ?_
  unfold doHostCpl
  rw [ht]
  dsimp only
  rw [if_neg (fun hh => Nat.not_lt.mpr (hc hh.1) hh.2), hp]
  rfl

/-- Settles O42: an access by what its translation entry says, and a read's end by its completion. -/
theorem hostMemory : Obligations.HostMemory := by
  unfold Obligations.HostMemory
  intro s ini pa off len d act tag cpl e f mine a w r
  refine ⟨fun hp hr hlen hd hel hed => ?access, fun h ht hpkt => ?completion⟩
  case access =>
    have hw : w = (hostWrite1 s off (d.map some) act).2.ends (hostWrite1 s off (d.map some) act).1 := by
      rw [← hostWrite_one hd hed]
      exact exec_hostWrite hp hr len d
    have hrd := exec_hostRead (ini := ini) (act := act) hp hr len d
    rw [hostReadAll_one hlen hel] at hrd
    have hrefused (o : Outc) (ho : o = .routeFault ∨ o = .notPermitted) (hx : hostXlate s off act = .error o) : w = s.ends o ∧ r = s.ends o := by
      refine ⟨by rw [hw, hostWrite1_of_refused hx], hrd.trans ?_⟩
      rw [hostRead1_of_refused hx]
      rcases ho with rfl | rfl <;> rfl
    have hmine : (act.toNat < f.actlo.toNat ∨ f.acthi.toNat < act.toNat ∨ f.bme = false) ↔ ¬mine := by
      simp only [mine, Classical.not_and_iff_not_or_not, Nat.not_le, Bool.not_eq_true]
    refine ⟨fun hv => hrefused _ (.inl rfl) (if_pos hv), fun hv hm => hrefused _ (.inr rfl) ?_, fun hv hm => ?_⟩
    · exact (if_neg (by simp [e, hv])).trans (if_pos (hmine.mpr hm))
    · have hx : hostXlate s off act = .ok a := (if_neg (by simp [e, hv])).trans (if_neg (mt hmine.mp (not_not_intro hm)))
      constructor
      · obtain ⟨hf, hb⟩ := foldl_hostBytes_one s a d d.length (Nat.le_refl _)
        refine ⟨_, hw.trans ?_, hf, hb⟩
        unfold hostWrite1
        rw [hx, List.length_map] <;> rfl
      · intro k hk h
        refine hrd.trans ?_
        unfold hostRead1
        rw [hx]
        dsimp only
        rw [hk]
  case completion =>
    intro c t cto
    have hc (hcto : cpl = .timeout → ctoCycles s ≤ s.cycle - h.since) : c = .next (t.answer (cplAns h.len cpl)) :=
      exec_hostReadCompletion ht hpkt hcto
    refine ⟨fun b hb => ?_, fun hb => ?_, fun hb => ?_, fun b hb => ?_, fun hb hcto => (hc (fun _ => hcto)).trans (by rw [hb]; rfl)⟩
    all_goals
      rw [hc (by rw [hb]; nofun), hb]
      rfl

end Sys2Proof.Machine
end

section
/-! Host rings (O43): what an error, a leave and a written entry make of a ring, then the doorbell, the fetch, the writes and the control words. -/

namespace Sys2Proof.Machine

/-! ### What leaves a ring's record (R292 to R294) -/

/-- A ring without its waiting entries and its count of lost events. -/
def Ring.core (r : Ring) : Ring := { r with waiting := [], lost := 0 }

theorem ring_congr {s t : State} (h : t.hif.rings = s.hif.rings) (n : RingId) : t.ring n = s.ring n := by
  unfold State.ring
  rw [h]

theorem setRing_core {t : State} {k : RingId} {x : Ring} (hx : x.core = (t.ring k).core) (m : RingId) :
    ((t.setRing k x).ring m).core = (t.ring m).core := by
  rw [State.setRing_ring]
  split
  · next h => rw [h, hx]
  · rfl

theorem setRing_waiting_core (t : State) (k : RingId) (w : List Entry) (m : RingId) :
    ((t.setRing k { t.ring k with waiting := w }).ring m).core = (t.ring m).core :=
  setRing_core (by rfl) m

/-- A ring's part in another ring's leave: the entries of that ring no longer wait. -/
def leaveStep (n : RingId) (t : State × Nat) (p : Nat × Ring) : State × Nat :=
  let m : RingId := BitVec.ofNat 12 p.1
  let r := t.1.ring m
  let keep := r.waiting.filter (fun e => entryRing e != n)
  (t.1.setRing m { r with waiting := keep }, t.2 + (r.waiting.length - keep.length))

/-- The rings after the entries that concern a ring have been discarded, and their number. -/
def leaveRings (s : State) (n : RingId) : State × Nat :=
  let t := s.setRing n { s.ring n with waiting := [] }
  t.hif.rings.foldl (leaveStep n) (t, (s.ring n).waiting.length)

theorem ringLeave_eq (s : State) (n : RingId) : ringLeave s n =
    hifCount { (leaveRings s n).1 with hif := { (leaveRings s n).1.hif with
      cmds := (leaveRings s n).1.hif.cmds.map (fun c => if c.ring = n then { c with orphan := true } else c) } } 6 (leaveRings s n).2 :=
  rfl

theorem foldl_leaveStep (n m : RingId) (l : Sparse Ring) (x : State × Nat) :
    ((l.foldl (leaveStep n) x).1.ring m).core = (x.1.ring m).core ∧ (l.foldl (leaveStep n) x).1.hif.cmds = x.1.hif.cmds := by
  induction l generalizing x with
  | nil => exact ⟨rfl, rfl⟩
  | cons p l ih =>
    obtain ⟨hcore, hcmds⟩ := ih (leaveStep n x p)
    exact ⟨hcore.trans (setRing_waiting_core _ _ _ m), hcmds⟩

theorem leaveRings_spec (s : State) (n m : RingId) :
    ((leaveRings s n).1.ring m).core = (s.ring m).core ∧ (leaveRings s n).1.hif.cmds = s.hif.cmds := by
  unfold leaveRings
  obtain ⟨hcore, hcmds⟩ := foldl_leaveStep n m (s.setRing n { s.ring n with waiting := [] }).hif.rings
    (s.setRing n { s.ring n with waiting := [] }, (s.ring n).waiting.length)
  exact ⟨hcore.trans (setRing_waiting_core _ _ _ m), hcmds⟩

theorem ringLeave_core (s : State) (n m : RingId) : ((ringLeave s n).ring m).core = (s.ring m).core := by
  rw [ringLeave_eq, ← (leaveRings_spec s n m).1]
  generalize leaveRings s n = x
  rfl

/-- A ring that leaves ACTIVE makes its commands orphans. -/
theorem ringLeave_cmds (s : State) (n : RingId) :
    (ringLeave s n).hif.cmds = s.hif.cmds.map (fun c => if c.ring = n then { c with orphan := true } else c) := by
  rw [ringLeave_eq, ← (leaveRings_spec s n n).2]
  generalize leaveRings s n = x
  rfl

theorem pushEvent_core (s : State) (typ : Nat) (source : SourceId) (act : ActId) (outc : BitVec 5) (detail : Nat) (m : RingId) :
    ((pushEvent s typ source act outc detail).ring m).core = (s.ring m).core := by
  unfold pushEvent
  dsimp only
  split
  · exact (congrArg Ring.core (ring_congr rfl m)).trans (setRing_core (by rfl) m)
  · rfl

theorem report_ring (s : State) (n : SourceId) (d : Word) (m : RingId) : (report s n d).ring m = s.ring m := by
  unfold report
  rw [queueEvent_frame]
  rfl

/-- A ring that fails stands in ERROR with its cause (R273, R292). -/
theorem ringError_core {s : State} {n : RingId} (h : (s.ring n).st = .active) (c : BitVec 3) :
    ((ringError s n c).ring n).st = .error ∧ ((ringError s n c).ring n).cause = c := by
  have hcore : ((ringError s n c).ring n).core = { (s.ring n).core with st := .error, cause := c } := by
    unfold ringError
    rw [if_pos h]
    dsimp only
    rw [report_ring, pushEvent_core]
    refine (congrArg Ring.core (ring_congr (s := (ringLeave s n).setRing n { (ringLeave s n).ring n with st := .error, cause := c }) rfl n)).trans ?_
    rw [State.setRing_ring, if_pos rfl, ← ringLeave_core s n n]
    rfl
  exact ⟨congrArg Ring.st hcore, congrArg Ring.cause hcore⟩

theorem ringOff_core (s : State) (n m : RingId) : ((ringOff s n).ring m).core =
    if m = n then { (s.ring n).core with en := false, st := .disabled } else (s.ring m).core := by
  have hs1 (k : RingId) : ((if (s.ring n).st = .active then ringLeave s n else s).ring k).core = (s.ring k).core := by
    split
    · exact ringLeave_core s n k
    · rfl
  unfold ringOff
  dsimp only
  rw [State.setRing_ring]
  split
  · rw [← hs1 n]
    rfl
  · exact hs1 m

/-! ### Doorbells (R272, R273, R286) -/

section
variable {s : State} {n : RingId} {fn : BitVec 6} {v : BitVec 64}

/-- The offset of a ring's doorbell names the ring. -/
theorem doorbell_offset (n : RingId) : (BitVec.ofNat 17 (8 * n.toNat)).toNat = 8 * n.toNat := by
  rw [BitVec.toNat_ofNat, Nat.mod_eq_of_lt (by omega)]

theorem doorbellOk_offset (hready : s.hif.ready = true) :
    doorbellOk s fn (8 * n.toNat) 8 = ((s.ring n).st == .active && (fn == 0 || (s.ring n).fn == fn)) := by
  unfold doorbellOk
  dsimp only
  rw [Nat.mul_div_cancel_left _ (by decide), Nat.mul_mod_right, hready, BitVec.ofNat_toNat, BitVec.setWidth_eq]
  simp

/-- A doorbell of a ring while the package runs. -/
theorem doDoorbell_of_run (hr : hostReach s = true) (hf : fn.toNat ≤ 32) (hready : s.hif.ready = true) (hp : s.lmp.pkg = .run) (ht : s.lmp.tx = none) :
    doDoorbell s fn (BitVec.ofNat 17 (8 * n.toNat)) 8 v =
      if doorbellOk s fn (8 * n.toNat) 8 = false then tallyAdd s (hifBase + 0xF0010) 1 else ringDoorbell s n v := by
  have hwake : packageWake s 0x10 4 = s := by
    unfold packageWake
    rw [ht]
    exact if_pos (Or.inl hp)
  unfold doDoorbell
  rw [if_neg (by simp [hr]; omega), if_neg (by simp [hready]), doorbell_offset, if_pos (by omega)]
  unfold ringWrite
  rw [doorbell_offset, hwake, Nat.mul_div_cancel_left _ (by decide), BitVec.ofNat_toNat, BitVec.setWidth_eq]
  dsimp only
  split
  · rfl
  · split
    · exact if_neg (by simp [hp])
    · exact if_neg (by simp [hp])

end

/-! ### Whose turn it is (R275) -/

theorem ringReady_of_nextRing {s : State} {n : RingId} (h : nextRing s = some n) : ringReady s n = true := by
  unfold nextRing at h
  dsimp only at h
  split at h
  · next d hd =>
    obtain ⟨m, hm, hdm⟩ := List.mem_map.mp (List.min?_mem hd)
    have hn : n = m := by
      rw [← Option.some.inj h, ← hdm, BitVec.ofNat_toNat, BitVec.setWidth_eq]
      bv_omega
    rw [hn]
    exact (List.mem_filter.mp hm).2
  · exact absurd h nofun

theorem ringReady_active {s : State} {n : RingId} (h : ringReady s n = true) : (s.ring n).st = .active := by
  simp only [ringReady, Bool.and_eq_true] at h
  obtain ⟨⟨⟨⟨⟨⟨hst, -⟩, -⟩, -⟩, -⟩, -⟩, -⟩ := h
  simpa using hst

/-- The fetch of the ring whose turn it is. -/
theorem doFetch_of_turn {s : State} {n : RingId} (he : s.hif.ringen = true) (hready : s.hif.ready = true) (hr : hostReach s = true) (ht : s.lmp.tx = none)
    (hn : nextRing s = some n) (cpl : PcieCpl) : doFetch s n cpl =
      if (s.hostFn (s.ring n).fn).bme = false then ringError s n 2
      else match cpl with
        | .success d => settleCmds
          (let t := s.setRing n { s.ring n with ci := (s.ring n).ci + 1 }
           let c : Cmd := { ring := n, idx := (s.ring n).ci, desc := BitVec.ofNat 512 (natOfBytes (d.take 64)), phase := .accepted, retried := false,
                            orphan := false }
           { t with hif := { t.hif with rr := n, cmds := t.hif.cmds ++ [c] } })
        | _ => ringError s n 2 := by
  have hholds : hifHolds s = false := by
    unfold hifHolds
    rw [ht]
  unfold doFetch
  dsimp only
  rw [if_neg (by simp [he, hready, hr, hholds, hn])] <;> rfl

/-! ### Written entries (R282, R286) -/

theorem hostBytes_get (s : State) (a : Nat) (d : List Byte) (b : Nat) :
    sget 0 (s.hostBytes a d).hostMem b = if a ≤ b ∧ b < a + d.length then d.getD (b - a) 0 else sget 0 s.hostMem b := by
  induction d generalizing s a with
  | nil => exact (if_neg (by simp only [List.length_nil]; omega)).symm
  | cons x d ih =>
    unfold State.hostBytes
    rw [ih, List.length_cons]
    by_cases h : a + 1 ≤ b ∧ b < a + 1 + d.length
    · rw [if_pos h, if_pos (by omega), show b - a = (b - (a + 1)) + 1 by omega, List.getD_cons_succ]
    · rw [if_neg h]
      dsimp only
      rw [sget_sput]
      by_cases hb : b = a
      · rw [if_pos hb, if_pos (by omega), hb, Nat.sub_self, List.getD_cons_zero]
      · rw [if_neg hb, if_neg (by omega)]

/-- The state after a ring without an armed interrupt has taken an entry. -/
def entryPut (s : State) (n : RingId) (e : Entry) : State :=
  let r := s.ring n
  (s.hostBytes (r.base + r.pi.toNat % r.size * 32) (bytesOfNat 32 (e.toNat - bits e.toNat 7 1 * 128 + b2n r.phase * 128))).setRing n { r with pi := r.pi + 1 }

theorem putEntry_of_quiet {s : State} {n : RingId} (h : ((s.ring n).inten && (s.ring n).armed) = false) (e : Entry) :
    putEntry s n e = entryPut s n e := by
  unfold putEntry ringSignal
  dsimp only
  rw [State.setRing_ring, if_pos rfl]
  exact if_neg (fun hh => Bool.false_ne_true (h.symm.trans (Bool.and_eq_true_iff.mpr hh)))

/-- A ring that takes an entry counts it and holds its bytes; nothing else of the host interface changes. -/
theorem entryPut_spec (s : State) (n : RingId) (e : Entry) :
    let r := s.ring n
    let lo := r.base + r.pi.toNat % 2 ^ r.logsz.toNat * 32
    (entryPut s n e).ring n = { r with pi := r.pi + 1 } ∧
      (∀ b, sget 0 (entryPut s n e).hostMem b = if lo ≤ b ∧ b < lo + 32 then
        (bytesOfNat 32 (e.toNat - bits e.toNat 7 1 * 128 + if (r.pi - r.p0).toNat / 2 ^ r.logsz.toNat % 2 = 0 then 128 else 0)).getD (b - lo) 0
        else sget 0 s.hostMem b) ∧
      (entryPut s n e).slices = s.slices ∧ (entryPut s n e).hif.events = s.hif.events := by
  intro r lo
  have hframe := hostBytes_frame s lo (bytesOfNat 32 (e.toNat - bits e.toNat 7 1 * 128 + b2n r.phase * 128))
  have hphase : b2n r.phase * 128 = if (r.pi - r.p0).toNat / 2 ^ r.logsz.toNat % 2 = 0 then 128 else 0 := by
    unfold Ring.phase Ring.size
    split
    · next h => rw [h]; rfl
    · next h => rw [Nat.mod_two_ne_zero.mp h]; rfl
  refine ⟨?_, fun b => ?_, ?_, ?_⟩
  · exact (State.setRing_ring _ _ _ _).trans (if_pos rfl)
  · refine (hostBytes_get s lo _ b).trans ?_
    rw [bytesOfNat_length, hphase]
  · have h := congrArg State.slices hframe
    exact h
  · have h := congrArg (fun x : State => x.hif.events) hframe
    exact h

theorem Ring.eq_of_core {x y : Ring} (h : x.core = y.core) : x = { y with waiting := x.waiting, lost := x.lost } := by
  cases x
  cases y
  simp only [Ring.core, Ring.mk.injEq] at h ⊢
  simp [h]

/-- A ring that takes an entry in a state whose record of it differs in what waits only. -/
theorem putEntry_wrote {s u : State} {n : RingId} (hcore : (u.ring n).core = (s.ring n).core) (hmem : u.hostMem = s.hostMem)
    (hquiet : ((s.ring n).inten && (s.ring n).armed) = false) (e : Entry) :
    let r := s.ring n
    let t := putEntry u n e
    let lo := r.base + r.pi.toNat % 2 ^ r.logsz.toNat * 32
    (t.ring n = { r with pi := r.pi + 1, waiting := (t.ring n).waiting, lost := (t.ring n).lost } ∧
      ∀ b, sget 0 t.hostMem b = if lo ≤ b ∧ b < lo + 32 then
        (bytesOfNat 32 (e.toNat - bits e.toNat 7 1 * 128 + if (r.pi - r.p0).toNat / 2 ^ r.logsz.toNat % 2 = 0 then 128 else 0)).getD (b - lo) 0
        else sget 0 s.hostMem b) ∧
      (t.ring n).waiting = (u.ring n).waiting ∧ t.slices = u.slices ∧ t.hif.events = u.hif.events := by
  intro r t lo
  have hu := Ring.eq_of_core hcore
  have ht : t = entryPut u n e := putEntry_of_quiet (by rw [hu]; exact hquiet) e
  obtain ⟨hring, hbytes, hslices, hevents⟩ := entryPut_spec u n e
  rw [← ht] at hring hbytes hslices hevents
  refine ⟨⟨?_, fun b => ?_⟩, by rw [hring], hslices, hevents⟩
  · rw [hring]
    conv => lhs; rw [hu]
  · rw [hbytes b, hmem, hu]
    rfl

/-! ### The control word (R293, R295) -/

section
variable {s : State} {n : RingId}

/-- The ring with the fields of a control word; reserved encodings leave theirs (R12). -/
def ringSet (r : Ring) (v : Word) : Ring :=
  { r with typ := keepIf (slice v 1 2 == (3 : BitVec 2)) r.typ (slice v 1 2),
           logsz := keepIf (decide (bits v.toNat 3 5 < 6 ∨ 16 < bits v.toNat 3 5)) r.logsz (slice v 3 5), inten := v.getLsbD 8,
           fn := keepIf (decide (32 < bits v.toNat 9 6)) r.fn (slice v 9 6), vec := slice v 16 11 }

/-- A control word with a reserved encoding. -/
def ringReserved (v : Word) : Bool :=
  slice v 1 2 == (3 : BitVec 2) || decide (bits v.toNat 3 5 < 6 ∨ 16 < bits v.toNat 3 5) || decide (32 < bits v.toNat 9 6)

theorem ringCfgWrite_eq (s : State) (n : RingId) (v : Word) : ringCfgWrite s n v =
    if (s.ring n).st ≠ .disabled then
      if { ringSet (s.ring n) v with inten := (s.ring n).inten } ≠ s.ring n then (.notPermitted, s)
      else (.ok, if v.getLsbD 0 then hifRsv (ringReserved v) (s.setRing n (ringSet (s.ring n) v))
        else ringOff (hifRsv (ringReserved v) (s.setRing n (ringSet (s.ring n) v))) n)
    else if v.getLsbD 0 then
      if ringValid s (ringSet (s.ring n) v) then (.ok, ringOn (hifRsv (ringReserved v) (s.setRing n (ringSet (s.ring n) v))) n) else (.notPermitted, s)
    else (.ok, hifRsv (ringReserved v) (s.setRing n (ringSet (s.ring n) v))) :=
  rfl

/-- EN is no other field's bit. -/
theorem ringSet_congr {v w : Word} (h : ∀ i, 1 ≤ i → w.getLsbD i = v.getLsbD i) (r : Ring) : ringSet r w = ringSet r v ∧ ringReserved w = ringReserved v := by
  have hs (lo n : Nat) (hlo : 1 ≤ lo) : slice w lo n = slice v lo n := slice_congr n (fun i hi => h i (Nat.le_trans hlo hi))
  have hb (lo n : Nat) (hlo : 1 ≤ lo) : bits w.toNat lo n = bits v.toNat lo n := by rw [← toNat_slice, hs lo n hlo, toNat_slice]
  constructor
  · simp only [ringSet, h 8 (by decide), hs 1 2 (by decide), hs 3 5 (by decide), hs 9 6 (by decide), hs 16 11 (by decide), hb 3 5 (by decide),
      hb 9 6 (by decide)]
  · simp only [ringReserved, hs 1 2 (by decide), hb 3 5 (by decide), hb 9 6 (by decide)]

theorem getLsbD_or_one (v : Word) {i : Nat} (hi : 1 ≤ i) : (v ||| 1).getLsbD i = v.getLsbD i := by
  have hne : i ≠ 0 := by omega
  simp [hne]

theorem getLsbD_and_not_one (v : Word) {i : Nat} (hi : 1 ≤ i) : (v &&& ~~~1).getLsbD i = v.getLsbD i := by
  by_cases h32 : i < 32
  · rw [show (1 : Word) = BitVec.ofNat 32 (2 ^ 0) from rfl, getLsbD_and_not_two_pow v 0 h32, decide_eq_false (by omega)]
    rfl
  · rw [BitVec.getLsbD_of_ge _ _ (by omega), BitVec.getLsbD_of_ge _ _ (by omega)]

/-- A control word with defined encodings sets every field. -/
theorem ringSet_of_defined {v : Word} (h1 : bits v.toNat 1 2 < 3) (h2 : 6 ≤ bits v.toNat 3 5) (h3 : bits v.toNat 3 5 ≤ 16) (h4 : bits v.toNat 9 6 ≤ 32)
    (r : Ring) : ringReserved v = false ∧
      ringSet r v = { r with typ := slice v 1 2, logsz := slice v 3 5, inten := v.getLsbD 8, fn := slice v 9 6, vec := slice v 16 11 } := by
  have ht : (slice v 1 2 == (3 : BitVec 2)) = false := by
    refine beq_eq_false_iff_ne.mpr (fun h => ?_)
    have := congrArg BitVec.toNat h
    rw [toNat_slice] at this
    simp at this
    omega
  have hl : decide (bits v.toNat 3 5 < 6 ∨ 16 < bits v.toNat 3 5) = false := decide_eq_false (by omega)
  have hf : decide (32 < bits v.toNat 9 6) = false := decide_eq_false (by omega)
  exact ⟨by rw [ringReserved, ht, hl, hf]; rfl, by rw [ringSet, ht, hl, hf]; rfl⟩

/-- A mask keeps the fields that it covers. -/
theorem slice_and_mask (v m : Word) {lo w : Nat} (hm : ∀ i < w, m.getLsbD (lo + i) = true) : slice (v &&& m) lo w = slice v lo w := by
  refine BitVec.eq_of_getLsbD_eq (fun i hi => ?_)
  simp [slice_eq_extractLsb', BitVec.getLsbD_extractLsb', hm i hi, hi]

/-- The control word that agrees with a ring's fields sets them as they are. -/
theorem ringSet_of_same {r : Ring} {v : Word}
    (h : v &&& 0x7FF7EFE = BitVec.ofNat 32 (r.typ.toNat * 2 + r.logsz.toNat * 8 + r.fn.toNat * 512 + r.vec.toNat * 65536)) :
    { ringSet r v with inten := r.inten } = r := by
  have hfield {lo w : Nat} (hm : ∀ i < w, (0x7FF7EFE : Word).getLsbD (lo + i) = true) (x : BitVec w)
      (hx : (r.typ.toNat * 2 + r.logsz.toNat * 8 + r.fn.toNat * 512 + r.vec.toNat * 65536) / 2 ^ lo % 2 ^ w = x.toNat) : slice v lo w = x := by
    rw [← slice_and_mask v _ hm, h]
    apply BitVec.eq_of_toNat_eq
    rw [toNat_slice, BitVec.toNat_ofNat, Nat.mod_eq_of_lt (by omega)]
    exact hx
  have h1 := hfield (lo := 1) (by decide) r.typ (by omega)
  have h2 := hfield (lo := 3) (by decide) r.logsz (by omega)
  have h3 := hfield (lo := 9) (by decide) r.fn (by omega)
  have h4 := hfield (lo := 16) (by decide) r.vec (by omega)
  unfold ringSet keepIf
  simp only [h1, h2, h3, h4, ite_self]

end

/-! ### Functions (R266) -/

/-- An FLR's turn at a ring. -/
def flrStep (fn : BitVec 6) (t : State) (m : RingId) : State :=
  if (fn = 0 ∨ (t.ring m).fn = fn) ∧ (t.ring m).st ≠ .disabled then ringOff t m else t

theorem flrStep_core (fn : BitVec 6) (t : State) (m n : RingId) : ((flrStep fn t m).ring n).core =
    if m = n ∧ (fn = 0 ∨ (t.ring n).fn = fn) ∧ (t.ring n).st ≠ .disabled then { (t.ring n).core with en := false, st := .disabled }
    else (t.ring n).core := by
  unfold flrStep
  by_cases hmn : m = n
  · subst hmn
    by_cases h : (fn = 0 ∨ (t.ring m).fn = fn) ∧ (t.ring m).st ≠ .disabled
    · rw [if_pos h, if_pos ⟨rfl, h⟩, ringOff_core, if_pos rfl]
    · rw [if_neg h, if_neg (fun hh => h hh.2)]
  · refine Eq.trans ?_ (if_neg (fun hh => hmn hh.1)).symm
    split
    · rw [ringOff_core, if_neg (Ne.symm hmn)]
    · rfl

theorem flr_eq (s : State) (fn : BitVec 6) : flr s fn = (s.hif.rings.map (fun p => BitVec.ofNat 12 p.1)).foldl (flrStep fn) s := by
  rw [List.foldl_map]
  rfl

/-- A ring of another function keeps its record. -/
theorem foldl_flrStep_other {fn : BitVec 6} (l : List RingId) (t : State) {n : RingId} (h0 : fn ≠ 0) (hf : (t.ring n).fn ≠ fn) :
    ((l.foldl (flrStep fn) t).ring n).core = (t.ring n).core := by
  induction l generalizing t with
  | nil => rfl
  | cons m l ih =>
    have hcore : ((flrStep fn t m).ring n).core = (t.ring n).core := (flrStep_core fn t m n).trans (if_neg (fun h => h.2.1.elim h0 hf))
    have hfn : ((flrStep fn t m).ring n).fn = (t.ring n).fn := (congrArg Ring.fn hcore :)
    exact (ih _ (hfn ▸ hf)).trans hcore

/-- A ring of the function is DISABLED once its turn has come. -/
theorem foldl_flrStep_own {fn : BitVec 6} (l : List RingId) (t : State) {n : RingId} (hf : fn = 0 ∨ (t.ring n).fn = fn)
    (hn : n ∈ l ∨ (t.ring n).st = .disabled) : ((l.foldl (flrStep fn) t).ring n).st = .disabled := by
  induction l generalizing t with
  | nil => exact hn.resolve_left List.not_mem_nil
  | cons m l ih =>
    have hcore := flrStep_core fn t m n
    have hfn : ((flrStep fn t m).ring n).fn = (t.ring n).fn := by
      refine (congrArg Ring.fn hcore).trans ?_
      split <;> rfl
    refine ih _ (hfn ▸ hf) ?_
    by_cases hd : (t.ring n).st = .disabled
    · exact Or.inr ((congrArg Ring.st (hcore.trans (if_neg (fun h => h.2.2 hd)))).trans hd)
    · by_cases hmn : m = n
      · exact Or.inr (congrArg Ring.st (hcore.trans (if_pos ⟨hmn, hf, hd⟩)))
      · exact Or.inl (List.mem_of_ne_of_mem (Ne.symm hmn) (hn.resolve_right hd))

/-- A ring that is not recorded is at reset. -/
theorem ring_recorded (s : State) (n : RingId) : n ∈ s.hif.rings.map (fun p => (BitVec.ofNat 12 p.1 : RingId)) ∨ (s.ring n).st = .disabled := by
  unfold State.ring sget
  induction s.hif.rings with
  | nil => exact Or.inr rfl
  | cons p l ih =>
    by_cases hp : p.1 = n.toNat
    · exact Or.inl (List.mem_cons.mpr (Or.inl (by simp [hp])))
    · rcases ih with h | h
      · exact Or.inl (List.mem_cons_of_mem _ h)
      · exact Or.inr ((congrArg Ring.st (if_neg hp)).trans h)

/-! ### The other commands -/

/-- Bus Master Enable with no message pending (R266, R269). -/
theorem setBme_of_quiet {s : State} {fn : BitVec 6} (hf : fn.toNat ≤ 32) (hp : s.hif.pba = []) (on : Bool) :
    let u := s.setHostFn fn { s.hostFn fn with bme := on }
    setBme s fn on = { u with hif := { u.hif with msixerr := u.hif.msixerr || (on && msixBad u fn) } } := by
  intro u
  have hrel (x : State) (hx : x.hif.pba = []) : msixRelease x = x := by
    unfold msixRelease
    rw [hx]
    rfl
  have hpu : u.hif.pba = [] := hp
  have hset : setBme s fn on = msixRelease (if on ∧ msixBad u fn = true then { u with hif := { u.hif with msixerr := true } } else u) :=
    if_neg (Nat.not_lt.mpr hf)
  clear_value u
  by_cases h : on = true ∧ msixBad u fn = true
  · rw [hset, if_pos h, hrel _ (by exact hpu), h.1, h.2, Bool.and_true, Bool.or_true]
  · have hand : (on && msixBad u fn) = false := Bool.eq_false_iff.mpr (mt Bool.and_eq_true_iff.mp h)
    rw [hset, if_neg h, hrel _ hpu, hand, Bool.or_false]

/-- A DMA channel's word without a conflict (R484, R488). -/
theorem noConflict_of_none {s : State} {x : Outc × State} (h : conflictOf x.2 = none) : noConflict false s x = x :=
  if_neg (by simp [h])

/-- A configuration that leaves no hub DMA channel in the pool has a conflict (R485). -/
theorem conflictOf_of_reserved {s : State} (h : ∀ j < 16, (s.dmaCh j).rsv = true) : (conflictOf s).isSome = true := by
  have hd : dmaClash s = some 0xFFFFFF := if_pos (List.all_eq_true.mpr (fun j hj => h j (List.mem_range.mp hj)))
  unfold conflictOf
  rw [hd]
  simp

end Sys2Proof.Machine
end

section
/-! Host rings (O43), continued: the writes of entries by what waits, and the settlement. -/

namespace Sys2Proof.Machine
section
variable {s : State} {n : RingId} {e : Entry} (hr : hostReach s = true) (htakes : s.ringTakes n = true)
include hr htakes

/-- The oldest completion that waits (R281, R292). -/
theorem doComplWrite_of_waiting {rest : List Entry} (h1 : (s.ring n).typ = 1) (hw : (s.ring n).waiting = e :: rest) (ok : Bool) :
    doComplWrite s n ok = if ok then putEntry (s.setRing n { s.ring n with waiting := rest }) n e else ringError s n 3 := by
  unfold doComplWrite
  dsimp only
  rw [hw]
  exact if_neg (by simp [h1, htakes, hr])

/-- An entry of the queue that feeds the ring (R283). -/
theorem doSrcForward_of_entry {o : Ans} {u : State} (h1 : (s.ring n).typ = 1) (hq : (s.ring n).srcq ≠ 0) (hw : (s.ring n).waiting = [])
    (hway : (queueWay s 0x90 (s.ring n).srcq).1 = .pass) (hdeq : dequeue s (s.ring n).srcq = (o, u)) (ho : o.outc = .ok)
    (hany : o.data.any (fun b => b != 0) = true) : doSrcForward s n true = putEntry u n (BitVec.ofNat 256 (natOfBytes o.data)) := by
  have hall : o.data.all (fun b => b == 0) ≠ true := by
    intro h
    obtain ⟨b, hb, hb0⟩ := List.any_eq_true.mp hany
    exact bne_iff_ne.mp hb0 (beq_iff_eq.mp (List.all_eq_true.mp h b hb))
  have hgo : ¬((s.ring n).typ ≠ 1 ∨ s.ringTakes n = false ∨ (s.ring n).srcq = 0 ∨ (s.ring n).waiting ≠ [] ∨ hostReach s = false) := by
    rw [h1, htakes, hw, hr]
    simp only [ne_eq, not_true_eq_false, false_or, Bool.true_eq_false, or_false]
    exact hq
  refine (if_neg hgo).trans ?_
  rw [queueWay_of_pass hway]
  dsimp only
  rw [hdeq]
  exact (if_neg (not_or.mpr ⟨not_not_intro ho, hall⟩)).trans (if_pos rfl)

/-- The state after the first event of a ring has been taken. -/
def eventTaken (s : State) (n : RingId) (l : List EvEnt) : State :=
  let t := s.setRing n { s.ring n with lost := 0 }
  { t with hif := { t.hif with events := l } }

omit hr htakes in
theorem eventTaken_core (s : State) (n : RingId) (l : List EvEnt) : ((eventTaken s n l).ring n).core = (s.ring n).core :=
  (congrArg Ring.core (ring_congr (s := s.setRing n { s.ring n with lost := 0 }) rfl n)).trans (setRing_core (by rfl) n)

/-- The oldest event of a ring that has lost none (R284). -/
theorem doEventWrite_of_first {l : List EvEnt} (h2 : (s.ring n).typ = 2) (hev : s.hif.events = { ring := n, e := e } :: l) (hl : (s.ring n).lost = 0) :
    doEventWrite s n true = putEntry (eventTaken s n l) n e := by
  have htake : takeEvent s.hif.events n = some (e, l) := by
    rw [hev]
    exact if_pos rfl
  have he : (BitVec.ofNat 256 (e.toNat + b2n ((s.ring n).lost != 0) * 2 ^ 152 + (s.ring n).lost.toNat * 2 ^ 160) : Entry) = e := by
    rw [hl]
    simp [b2n]
  unfold doEventWrite
  rw [htake]
  dsimp only
  rw [if_neg (by simp [h2, htakes, hr]), if_pos rfl, he]
  rfl

end

theorem hifRsv_ring (b : Bool) (s : State) (n : RingId) : (hifRsv b s).ring n = s.ring n := by
  unfold hifRsv
  split <;> rfl

/-- A ring that was ACTIVE is DISABLED, and its commands are orphans (R293, R294). -/
theorem ringOff_of_active {s : State} {n : RingId} (h : (s.ring n).st = .active) :
    ((ringOff s n).ring n).en = false ∧ ((ringOff s n).ring n).st = .disabled ∧
      ∀ c ∈ (ringOff s n).hif.cmds, c.ring = n → c.orphan = true := by
  have hcore := (ringOff_core s n n).trans (if_pos rfl)
  refine ⟨(congrArg Ring.en hcore :), (congrArg Ring.st hcore :), fun c hc hn => ?_⟩
  have hcmds : (ringOff s n).hif.cmds = s.hif.cmds.map (fun c => if c.ring = n then { c with orphan := true } else c) := by
    rw [← ringLeave_cmds]
    unfold ringOff
    rw [if_pos h]
    rfl
  rw [hcmds] at hc
  obtain ⟨d, -, rfl⟩ := List.mem_map.mp hc
  by_cases hd : d.ring = n
  · rw [if_pos hd]
  · rw [if_neg hd] at hn
    exact absurd hn hd

/-- Settles O43: each command by the ring's state, its type and the access's success. -/
theorem hostRings : Obligations.HostRings := by
  unfold Obligations.HostRings
  intro s n fn v e rest who cfg r i off bell entry wrote quiet
  refine ⟨fun hr hf hready hp ht => ?bell, fun d he hready hr ht hn => ⟨fun cpl hb => ?fetchOff, fun hb => ?fetch⟩, fun hr htakes hquiet => ?writes,
    fun ho => ⟨fun hst h1 h2 h3 h4 => ?enable, fun hst hsame => ?disable⟩, ?flr, fun on hf hpba => ?bme, fun m ho => ?dma⟩
  case bell =>
    have hbell := congrArg (Host.Outcome.next (φ := Fault) (ρ := Refusal)) (doDoorbell_of_run (n := n) (v := v) hr hf hready hp ht)
    rw [doorbellOk_offset hready] at hbell
    have hact (hst : r.st = .active) (hfn : fn = 0 ∨ r.fn = fn) : bell = .next (ringDoorbell s n v) := by
      refine hbell.trans (congrArg Host.Outcome.next (if_neg ?_))
      rw [Bool.not_eq_false, Bool.and_eq_true, Bool.or_eq_true, beq_iff_eq, beq_iff_eq, beq_iff_eq]
      exact ⟨hst, hfn⟩
    refine ⟨fun h => ?_, fun hst hfn ht0 => ⟨fun hsz hpi => ?_, fun hsz => ?_⟩, fun hst hfn ht0 hci hpi harm => ?_⟩
    · refine hbell.trans (congrArg Host.Outcome.next (if_pos ?_))
      rcases h with h | ⟨h0, h⟩
      · rw [beq_eq_false_iff_ne.mpr (show (s.ring n).st ≠ .active from h), Bool.false_and]
      · rw [beq_eq_false_iff_ne.mpr h0, beq_eq_false_iff_ne.mpr (show (s.ring n).fn ≠ fn from h), Bool.or_false, Bool.and_false]
    · exact (hact hst hfn).trans (congrArg Host.Outcome.next
        ((if_neg (not_not_intro hst)).trans ((if_pos ht0).trans (if_neg (not_or.mpr ⟨Nat.not_lt.mpr hsz, Nat.not_le.mpr hpi⟩)))))
    · exact ⟨_, (hact hst hfn).trans (congrArg Host.Outcome.next ((if_neg (not_not_intro hst)).trans ((if_pos ht0).trans (if_pos (Or.inl hsz))))),
        ringError_core hst 1⟩
    · refine (hact hst hfn).trans (congrArg Host.Outcome.next ((if_neg (not_not_intro hst)).trans ((if_neg ht0).trans
        ((if_neg (not_or.mpr ⟨Nat.not_le.mpr hci, Nat.not_le.mpr hpi⟩)).trans ((if_neg ?_).trans ?_)))))
      · rw [harm]
        exact fun h => Bool.false_ne_true h.1
      · rw [harm, Bool.or_false]
  case fetchOff =>
    have hact := ringReady_active (ringReady_of_nextRing hn)
    exact ⟨_, congrArg Host.Outcome.next ((doFetch_of_turn he hready hr ht hn cpl).trans (if_pos hb)), ringError_core hact 2⟩
  case fetch =>
    exact congrArg Host.Outcome.next ((doFetch_of_turn he hready hr ht hn (.success d)).trans (if_neg (mt Bool.eq_false_iff.mp (not_not_intro hb))))
  case writes =>
    have hact : r.st = .active := by
      have h := htakes
      simp only [State.ringTakes, Bool.and_eq_true, beq_iff_eq] at h
      exact h.1.1
    refine ⟨fun h1 hw => ⟨?_, ?_⟩, fun o u h1 hq hw hway hdeq hhif ho hany hmem => ?_, fun l h2 hev hl => ?_⟩
    · obtain ⟨hput, hwait, -, -⟩ := putEntry_wrote (u := s.setRing n { r with waiting := rest }) (setRing_core (by rfl) n) rfl hquiet e
      exact ⟨putEntry (s.setRing n { r with waiting := rest }) n e, congrArg Host.Outcome.next ((doComplWrite_of_waiting hr htakes h1 hw true).trans (if_pos rfl)), hput,
        hwait.trans (by rw [State.setRing_ring, if_pos rfl])⟩
    · exact ⟨ringError s n 3, congrArg Host.Outcome.next ((doComplWrite_of_waiting hr htakes h1 hw false).trans (if_neg Bool.false_ne_true)), ringError_core hact 3⟩
    · have hring : u.ring n = s.ring n := ring_congr (by rw [hhif]) n
      obtain ⟨hput, -, hslices, -⟩ := putEntry_wrote (s := s) (u := u) (n := n) (by rw [hring]) hmem hquiet (BitVec.ofNat 256 (natOfBytes o.data))
      exact ⟨_, congrArg Host.Outcome.next (doSrcForward_of_entry hr htakes h1 hq hw hway hdeq ho hany), hput, hslices⟩
    · obtain ⟨hput, -, -, hevents⟩ := putEntry_wrote (s := s) (u := eventTaken s n l) (n := n) (eventTaken_core s n l) rfl hquiet e
      exact ⟨_, congrArg Host.Outcome.next (doEventWrite_of_first hr htakes h2 hev hl), hput, hevents⟩
  case enable =>
    intro x
    have hexec : exec (.ringEnable who n cfg) s = (ringCfgWrite s n (cfg ||| 1)).2.ends (ringCfgWrite s n (cfg ||| 1)).1 :=
      congrArg Host.Outcome.next (regCmd_of_open ho _)
    obtain ⟨hres, hset⟩ := ringSet_of_defined h1 h2 h3 h4 r
    obtain ⟨hset1, hres1⟩ := ringSet_congr (fun i hi => getLsbD_or_one cfg hi) r
    have hw : ringCfgWrite s n (cfg ||| 1) =
        if ringValid s x then (.ok, ringOn (hifRsv false (s.setRing n x)) n) else (.notPermitted, s) := by
      rw [ringCfgWrite_eq, if_neg (not_not_intro hst), if_pos (by simp), hset1, hset, hres1, hres]
    constructor
    · intro hv
      rw [hexec, hw, if_pos hv]
      refine congrArg (fun t => State.ends t .ok) ?_
      rw [show hifRsv false (s.setRing n x) = s.setRing n x from if_neg Bool.false_ne_true]
      unfold ringOn
      dsimp only
      rw [State.setRing_ring, if_pos rfl, State.setRing_setRing]
    · intro hv
      rw [hexec, hw, if_neg (by rw [hv]; exact Bool.false_ne_true)]
  case disable =>
    have hexec : exec (.ringDisable who n cfg) s = (ringCfgWrite s n (cfg &&& ~~~1)).2.ends (ringCfgWrite s n (cfg &&& ~~~1)).1 :=
      congrArg Host.Outcome.next (regCmd_of_open ho _)
    obtain ⟨hset, hres⟩ := ringSet_congr (fun i hi => getLsbD_and_not_one cfg hi) r
    have hw : ringCfgWrite s n (cfg &&& ~~~1) = (.ok, ringOff (hifRsv (ringReserved cfg) (s.setRing n (ringSet r cfg))) n) := by
      rw [ringCfgWrite_eq, if_pos (by rw [show (s.ring n).st = .active from hst]; nofun), hset, hres,
        if_neg (not_not_intro (ringSet_of_same hsame)), if_neg (by simp)]
    obtain ⟨hen, hst', horph⟩ := ringOff_of_active (s := hifRsv (ringReserved cfg) (s.setRing n (ringSet r cfg))) (n := n)
      ((congrArg Ring.st (hifRsv_ring _ _ n)).trans (by rw [State.setRing_ring, if_pos rfl]; exact hst))
    exact ⟨_, hexec.trans (by rw [hw]), hen, hst', horph⟩
  case flr =>
    refine ⟨_, rfl, fun h => ?_, fun h0 h => ?_⟩
    · exact (congrArg (fun t => (State.ring t n).st) (flr_eq s fn)).trans (foldl_flrStep_own _ s h (ring_recorded s n))
    · have hcore := foldl_flrStep_other (s.hif.rings.map (fun p => BitVec.ofNat 12 p.1)) s h0 h
      rw [← flr_eq] at hcore
      exact ⟨(congrArg Ring.st hcore :), (congrArg Ring.en hcore :)⟩
  case bme => exact congrArg Host.Outcome.next (setBme_of_quiet hf hpba on)
  case dma =>
    intro u
    have hexec : exec (.dmaChannelConfigWrite who m cfg) s = (noConflict false s (.ok, u)).2.ends (noConflict false s (.ok, u)).1 :=
      congrArg Host.Outcome.next (regCmd_of_open ho _)
    refine ⟨fun h => hexec.trans (by rw [noConflict_of_none (x := (.ok, u)) h]), fun hs hall => hexec.trans ?_⟩
    have hc := conflictOf_of_reserved hall
    rw [show noConflict false s (.ok, u) = (.notPermitted, s) from if_pos ⟨rfl, hc, fun h => by rw [hs] at h; rw [h] at hc; exact Bool.noConfusion hc⟩]

end Sys2Proof.Machine
end

section
/-! TIME_CMD and BEACON_CMD (O46): a command that starts runs its row's effect, and the effects by their checks. -/

namespace Sys2Proof.Machine

/-! ### Commands that start (R275, R277) -/

/-- A command that starts is its row's effect, and then what can start does. -/
theorem runCmd_of_starts {s : State} {ring : RingId} {idx : Word} {d : Block64} (h : starts s ring idx d) {row : Block64 → Bool} (hrow : row d = true)
    (eff : State → Block64 → State) : runCmd s ring idx row eff = settleCmds (eff s d) := by
  obtain ⟨c, hc, rfl, hph, -, hst, hck⟩ := h
  unfold runCmd
  rw [hc]
  dsimp only
  rw [if_neg (by simp [hrow, hph, hst]), hck]

theorem rowSubop_of_eq {op sub : Nat} {d : Block64} (hop : dOp d = op) (hsub : dF d 8 1 = sub) : rowSubop op sub d = true := by
  simp [rowSubop, hop, hsub]

theorem rowOp_of_eq {op : Nat} {d : Block64} (hop : dOp d = op) : rowOp op d = true := by
  simp [rowOp, hop]

/-- A write to a command's DST that ends well. -/
theorem writeThen_of_good {s t : State} {ring : RingId} {idx : Word} {x : Acc} {a : Ans} (hx : x = .done a t) (hg : a.outc.good = true) (r r2 : Word) :
    writeThen s ring idx x r r2 = completeCmd t ring idx .ok 0 r r2 := by
  rw [hx]
  exact if_pos hg

theorem good_of_ok {o : Outc} (h : o = .ok) : o.good = true := by
  rw [h]
  rfl

/-! ### TIME_CMD (R330, R342, R343, R349) -/

section
variable {s : State} {ring : RingId} {idx : Word} {d : Block64}

theorem dTmrOk_iff : dTmrOk d = true ↔ dF d 9 1 < 64 := by
  simp [dTmrOk]

/-- A TIMER that does not exist is BAD_DESCRIPTOR for every subop. -/
theorem timeEffs_of_badTimer (h : dTmrOk d = false) : timeReadEff ring idx none s d = completeOk s ring idx .badDescriptor ∧
    timeStepEff ring idx s d = completeOk s ring idx .badDescriptor ∧ timeFreqEff ring idx s d = completeOk s ring idx .badDescriptor ∧
    timeArmEff ring idx s d = completeOk s ring idx .badDescriptor ∧ timeCancelEff ring idx s d = completeOk s ring idx .badDescriptor :=
  ⟨if_pos h, if_pos (Or.inl h), if_pos (Or.inl h), if_pos h, if_pos h⟩

variable (h : dTmrOk d = true)
include h

theorem timeReadEff_of_done {a : Ans} {t : State} (hw : devWrite s .hif (dF d 0x20 8) (timeBytes s) (dAct d) = .done a t) (hg : a.outc.good = true) :
    timeReadEff ring idx none s d = completeCmd t ring idx .ok 0 s.tick 0 :=
  (if_neg (by simp [h])).trans (writeThen_of_good hw hg _ _)

omit h in
theorem timeStepEff_of_bad (hv : 1 < (dVal d).toNat) : timeStepEff ring idx s d = completeOk s ring idx .badDescriptor :=
  if_pos (Or.inr hv)

theorem timeStepEff_of_value (hv : (dVal d).toNat ≤ 1) : timeStepEff ring idx s d =
    let u := if dVal d = 0 then tsUnits (dTs d) else (((s.units : Int) + tsSigned (dTs d)) % (2 ^ 48 * 1000000000 * 65536)).toNat
    completeCmd (stepTime s u) ring idx .ok 0 (stepTime s u).tick 0 :=
  if_neg (not_or.mpr ⟨by simp [h], Nat.not_lt.mpr hv⟩)

theorem timeFreqEff_of_value (h1 : -50000000 ≤ (dVal d).toInt) (h2 : (dVal d).toInt ≤ 50000000) : timeFreqEff ring idx s d =
    if hostFreq s = false then completeOk s ring idx .refused else completeOk { s with cmk := { s.cmk with foff := dVal d } } ring idx .ok :=
  if_neg (not_or.mpr ⟨by simp [h], not_or.mpr ⟨Int.not_lt.mpr h1, Int.not_lt.mpr h2⟩⟩)

theorem timeArmEff_of_other (h1 : (s.tmr (dTmr d)).owner ≠ .free) (h2 : (s.tmr (dTmr d)).owner ≠ .host) :
    timeArmEff ring idx s d = timerConflict s ring idx (dTmr d).toNat := by
  have harm (x : Tmr) : armTimer false s (dTmr d) .host x = none := if_pos ⟨h1, h2⟩
  refine (if_neg (by simp [h])).trans ?_
  dsimp only
  rw [harm]

/-- The timer armed for the host. -/
def timeArmed (s : State) (d : Block64) : State :=
  s.setTmr (dTmr d) { s.tmr (dTmr d) with inst := dTs d, period := dVal d, periodic := dVal d != 0, armBit := true, armed := true, owner := .host,
                                          skipped := decide (tsUnits (dTs d) < s.units) }

theorem timeArmEff_of_own (ho : (s.tmr (dTmr d)).owner = .free ∨ (s.tmr (dTmr d)).owner = .host) (hc : lineClash (timeArmed s d) = none) :
    timeArmEff ring idx s d = completeOk (timeArmed s d) ring idx .ok := by
  have harm : armTimer false s (dTmr d) .host { s.tmr (dTmr d) with inst := dTs d, period := dVal d, periodic := dVal d != 0 } = some (timeArmed s d) := by
    refine (if_neg (fun hh => ho.elim hh.1 hh.2)).trans (if_neg ?_)
    rintro ⟨-, hsome, -⟩
    have hsome' : (lineClash (timeArmed s d)).isSome = true := hsome
    rw [hc] at hsome'
    exact Bool.noConfusion hsome'
  refine (if_neg (by simp [h])).trans ?_
  dsimp only
  rw [harm]

theorem timeCancelEff_of_owner : timeCancelEff ring idx s d =
    if (s.tmr (dTmr d)).owner ≠ .free ∧ (s.tmr (dTmr d)).owner ≠ .host then timerConflict s ring idx (dTmr d).toNat
    else completeOk (freeTimer s (dTmr d)) ring idx .ok :=
  if_neg (by simp [h])

end

/-! ### BEACON_CMD (R379, R384, R386, R387, R390, R391) -/

section
variable {s : State} {ring : RingId} {idx : Word} {d : Block64} {o : Outc}

theorem beaconTxEff_of_check (h : beaconCheck s d (some s.cri.txstrm) (min (dLen d) 1023) true = some o) :
    beaconTxEff ring idx none s d = completeOk s ring idx o := by
  unfold beaconTxEff
  dsimp only
  rw [h]

theorem beaconTxEff_of_bad (h : beaconCheck s d (some s.cri.txstrm) (min (dLen d) 1023) true = none)
    (hbad : s.cri.table (slice d 72 4) = none ∨ dLen d = 0 ∨ 1023 < dLen d ∨ 15 < dF d 9 1) :
    beaconTxEff ring idx none s d = completeOk s ring idx .badDescriptor := by
  unfold beaconTxEff
  dsimp only
  rw [h]
  dsimp only
  cases ht : s.cri.table (slice d 72 4) with
  | none => rfl
  | some tb =>
    refine if_pos ?_
    rcases hbad with hb | hb | hb | hb
    · exact absurd (ht.symm.trans hb) nofun
    · exact Or.inl hb
    · exact Or.inr (Or.inl hb)
    · exact Or.inr (Or.inr (Or.inl hb))

/-- A transmission whose table, length and pilots are in order. -/
theorem beaconTxEff_of_valid (h : beaconCheck s d (some s.cri.txstrm) (min (dLen d) 1023) true = none) {tb : BitVec 256}
    (ht : s.cri.table (slice d 72 4) = some tb) (h0 : 0 < dLen d) (h1 : dLen d ≤ 1023) (h2 : dF d 9 1 ≤ 15) (h3 : tblOk tb = true)
    (h4 : tblBits tb s.cri.txpilot ≠ 0) (h5 : dF d 0x1C 1 = 0xFF) : beaconTxEff ring idx none s d =
      if s.cri.tx.isSome then completeOk s ring idx .refused
      else match devRead s .hma (dBuf d) (dLen d) (dAct d) with
        | .wait t => accStays s t
        | .done a t =>
          if a.outc.good = false then completeOk t ring idx a.outc
          else match holdTx t ring idx d tb (fitBytes (dLen d) a.data) with
            | some u => cmdRunning u ring idx
            | none => timerConflict t ring idx (dF d 0x1C 1) := by
  unfold beaconTxEff
  dsimp only
  rw [h]
  dsimp only
  rw [ht]
  dsimp only
  refine if_neg ?_
  rintro (hb | hb | hb | hb | hb | hb)
  · omega
  · omega
  · omega
  · exact Bool.false_ne_true (hb.symm.trans h3)
  · exact h4 hb
  · exact hb.2 h5

/-- The transmission that a BEACON_CMD without a timer holds (R390). -/
def heldTx (s : State) (ring : RingId) (idx : Word) (d : Block64) (tb : BitVec 256) (payload : List Byte) : CriTx :=
  { ring := ring, idx := idx, table := slice d 72 4, payload := payload, timer := BitVec.ofNat 8 (dF d 0x1C 1), fireAt := 0, started := false,
    firstTick := 0, used := 0, total := txTotal (chirpLen s.cri) (bandOf s s.cri.txstrm) payload.length (tblBits tb s.cri.txpilot),
    header := mkHeader (dF d 9 1) payload.length s.cri.txpilot (refBit s) }

theorem holdTx_unarmed (h : dF d 0x1C 1 = 0xFF) (tb : BitVec 256) (payload : List Byte) :
    holdTx s ring idx d tb payload = some { s with cri := { s.cri with tx := some (heldTx s ring idx d tb payload) } } :=
  if_pos h

theorem beaconOnEff_of_check (h : beaconCheck s d (some s.cri.rxstrm) (min (dLen d / 1088) 256 * 1088) true = some o) :
    beaconOnEff ring idx s d = completeOk s ring idx o := by
  unfold beaconOnEff
  dsimp only
  rw [h]

theorem beaconOnEff_of_none (h : beaconCheck s d (some s.cri.rxstrm) (min (dLen d / 1088) 256 * 1088) true = none) :
    beaconOnEff ring idx s d =
      if dLen d < 1088 then completeOk s ring idx .badDescriptor
      else if s.cri.rx ≠ .idle then completeOk s ring idx .refused
      else completeCmd { s with cri := { s.cri with
          buf := BitVec.ofNat 44 (dBuf d), nslots := min (dLen d / 1088) 256, used := [], nextSlot := 0, written := 0, rx := .search,
          pkt := CriPkt.reset, act := dAct d } } ring idx .ok 0 (BitVec.ofNat 32 (min (dLen d / 1088) 256)) 0 := by
  unfold beaconOnEff
  dsimp only
  rw [h]

theorem beaconTableEff_of_check (h : beaconCheck s d none 32 false = some o) : beaconTableEff ring idx none s d = completeOk s ring idx o := by
  unfold beaconTableEff
  rw [h]

theorem beaconTableEff_of_none (h : beaconCheck s d none 32 false = none) : beaconTableEff ring idx none s d =
    if dLen d < 32 ∨ 15 < dF d 9 1 then completeOk s ring idx .badDescriptor
    else match devRead s .hma (dBuf d) 32 (dAct d) with
      | .wait t => accStays s t
      | .done a t =>
        if a.outc.good = false then completeOk t ring idx a.outc
        else if tblOk (BitVec.ofNat 256 (natOfBytes (a.data.take 32))) = false then completeOk t ring idx .badDescriptor
        else completeOk { t with cri := { t.cri with
          tables := sput 0 t.cri.tables (dF d 9 1) (BitVec.ofNat 256 (natOfBytes (a.data.take 32))),
          tblstat := t.cri.tblstat ||| BitVec.ofNat 16 (2 ^ dF d 9 1) } } ring idx .ok := by
  unfold beaconTableEff
  rw [h] <;> rfl

theorem tblOk_iff {tb : BitVec 256} : tblOk tb = true ↔ ∀ i < 64, bits tb.toNat (4 * i) 4 ≤ 6 :=
  List.all_eq_true.trans ⟨fun h i hi => of_decide_eq_true (h i (List.mem_range.mpr hi)), fun h i hi => decide_eq_true (h i (List.mem_range.mp hi))⟩

theorem beaconFloorEff_of_check (h : beaconCheck s d none 128 true = some o) : beaconFloorEff ring idx none s d = completeOk s ring idx o := by
  unfold beaconFloorEff
  rw [h]

theorem beaconFloorEff_of_none (h : beaconCheck s d none 128 true = none) : beaconFloorEff ring idx none s d =
    if dLen d < 128 then completeOk s ring idx .badDescriptor
    else writeThen s ring idx (devWrite s .hma (dBuf d) (floorBytes s.cri) (dAct d))
      (if s.cri.nfValid then BitVec.ofNat 32 (2 ^ s.cri.log2n.toNat) else 0) 0 := by
  unfold beaconFloorEff
  rw [h] <;> rfl

/-- The receiver stops without a packet in progress. -/
theorem criRxTo_of_quiet (h : s.cri.rx = .idle ∨ s.cri.rx = .search) : criRxTo s .idle = { s with cri := { s.cri with rx := .idle, pkt := CriPkt.reset } } := by
  have hbusy : criRxBusy s.cri = false := by rcases h with h | h <;> rw [criRxBusy, h] <;> rfl
  unfold criRxTo
  rw [hbusy]
  rfl

end

/-- Settles O46: the commands of each subop by the checks of its row. -/
theorem timeAndBeaconCommands : Obligations.TimeAndBeaconCommands := by
  unfold Obligations.TimeAndBeaconCommands
  intro s ring idx d a t o done val ts tm timers x len slots tbl floors off hs
  have hrun (op sub : Nat) (hop : dOp d = op) (hsub : dF d 8 1 = sub) (eff : State → Block64 → State) (u : State) (he : eff s d = u) :
      Host.Outcome.next (φ := Fault) (ρ := Refusal) (runCmd s ring idx (rowSubop op sub) eff) = u.settled := by
    rw [runCmd_of_starts hs (rowSubop_of_eq hop hsub), he]
    rfl
  refine ⟨fun hop => ?time, fun hop => ?beacon⟩
  case time =>
    have htm : timers → dTmrOk d = true := dTmrOk_iff.mpr
    have hval : (dVal d).toInt = val.toInt := rfl
    refine ⟨fun hbad => ?bad, fun hsub ht hw hg => ?read, fun hsub ht => ⟨fun hv => ?stepBad, fun hv => ?stepTo, fun hv => ?stepBy⟩,
      fun hsub ht => ⟨fun hv => ?freqBad, fun h1 h2 => ⟨fun hh => ?freqRefused, fun hh => ?freq⟩⟩,
      fun hsub ht => ⟨fun h1 h2 => ?armConflict, fun ho => ?arm⟩, fun hsub ht => ⟨fun h1 h2 => ?cancelConflict, fun ho => ?cancel⟩⟩
    case bad =>
      have hb : dTmrOk d = false := Bool.eq_false_iff.mpr (mt dTmrOk_iff.mp hbad)
      obtain ⟨h0, h1, h2, h3, h4⟩ := timeEffs_of_badTimer (s := s) (ring := ring) (idx := idx) hb
      intro p hp hsub
      simp only [List.mem_cons, List.not_mem_nil, or_false] at hp
      obtain rfl | rfl | rfl | rfl | rfl := hp
      · exact hrun 0x20 0 hop hsub _ _ h0
      · exact hrun 0x20 1 hop hsub _ _ h1
      · exact hrun 0x20 2 hop hsub _ _ h2
      · exact hrun 0x20 3 hop hsub _ _ h3
      · exact hrun 0x20 4 hop hsub _ _ h4
    case read => exact hrun 0x20 0 hop hsub _ _ (timeReadEff_of_done (htm ht) hw hg)
    case stepBad => exact hrun 0x20 1 hop hsub _ _ (timeStepEff_of_bad hv)
    case stepTo =>
      intro v
      have hv0 : dVal d = 0 := hv
      refine hrun 0x20 1 hop hsub _ _ ((timeStepEff_of_value (htm ht) (by rw [hv0]; decide)).trans ?_)
      dsimp only
      rw [if_pos hv0]
      rfl
    case stepBy =>
      intro v
      have hv1 : dVal d = 1 := hv
      refine hrun 0x20 1 hop hsub _ _ ((timeStepEff_of_value (htm ht) (by rw [hv1]; decide)).trans ?_)
      dsimp only
      rw [if_neg (by rw [hv1]; decide)]
      rfl
    case freqBad => exact hrun 0x20 2 hop hsub _ _ (if_pos (Or.inr hv))
    case freqRefused => exact hrun 0x20 2 hop hsub _ _ ((timeFreqEff_of_value (htm ht) h1 h2).trans (if_pos hh))
    case freq => exact hrun 0x20 2 hop hsub _ _ ((timeFreqEff_of_value (htm ht) h1 h2).trans (if_neg (by rw [hh]; nofun)))
    case armConflict => exact hrun 0x20 3 hop hsub _ _ (timeArmEff_of_other (htm ht) h1 h2)
    case arm =>
      intro v hc
      exact hrun 0x20 3 hop hsub _ _ (timeArmEff_of_own (htm ht) ho hc)
    case cancelConflict => exact hrun 0x20 4 hop hsub _ _ ((timeCancelEff_of_owner (htm ht)).trans (if_pos ⟨h1, h2⟩))
    case cancel => exact hrun 0x20 4 hop hsub _ _ ((timeCancelEff_of_owner (htm ht)).trans (if_neg (fun hh => ho.elim hh.1 hh.2)))
  case beacon =>
    refine ⟨fun hsub => ⟨fun hc => ?txCheck, fun hc => ⟨fun hb => ?txBad, fun tb htb h0 h1 h2 h3 h4 h5 => ⟨fun hx => ?txBusy, fun hx hr ho => ?tx⟩⟩⟩,
      fun hsub => ⟨fun hc => ?onCheck, fun hc => ⟨fun hl => ?onBad, fun hl hx => ?onBusy, fun hl hx => ?on⟩⟩,
      fun hsub => ⟨fun he => ?offRefused, fun he hx => ?off⟩,
      fun hsub => ⟨fun hc => ?tblCheck, fun hc => ⟨fun hb => ?tblBad, fun hl ht hr ho => ?tbl⟩⟩,
      fun hsub => ⟨fun hc => ?floorCheck, fun hc => ⟨fun hl => ?floorBad, fun hl hw hg => ?floor⟩⟩⟩
    case txCheck => exact hrun 0x28 0 hop hsub _ _ (beaconTxEff_of_check hc)
    case txBad => exact hrun 0x28 0 hop hsub _ _ (beaconTxEff_of_bad hc hb)
    case txBusy => exact hrun 0x28 0 hop hsub _ _ ((beaconTxEff_of_valid hc htb h0 h1 h2 h3 h4 h5).trans (if_pos hx))
    case tx =>
      refine ⟨{ t with cri := { t.cri with tx := some (heldTx t ring idx d tb (fitBytes len a.data)) } }, hrun 0x28 0 hop hsub _ _ ?_, rfl,
        heldTx t ring idx d tb (fitBytes len a.data), rfl, rfl, rfl, rfl, rfl, rfl⟩
      refine (beaconTxEff_of_valid hc htb h0 h1 h2 h3 h4 h5).trans ((if_neg (by rw [hx]; nofun)).trans ?_)
      rw [show devRead s .hma (dBuf d) (dLen d) (dAct d) = .done a t from hr]
      refine (if_neg (by rw [ho]; nofun)).trans ?_
      rw [holdTx_unarmed h5] <;> rfl
    case onCheck => exact hrun 0x28 1 hop hsub _ _ (beaconOnEff_of_check hc)
    case onBad => exact hrun 0x28 1 hop hsub _ _ ((beaconOnEff_of_none hc).trans (if_pos hl))
    case onBusy => exact hrun 0x28 1 hop hsub _ _ ((beaconOnEff_of_none hc).trans ((if_neg (Nat.not_lt.mpr hl)).trans (if_pos hx)))
    case on => exact hrun 0x28 1 hop hsub _ _ ((beaconOnEff_of_none hc).trans ((if_neg (Nat.not_lt.mpr hl)).trans (if_neg (not_not_intro hx))))
    case offRefused => exact hrun 0x28 2 hop hsub _ _ (if_pos he)
    case off =>
      refine hrun 0x28 2 hop hsub _ _ ((if_neg (by rw [he]; nofun)).trans ?_)
      rw [criRxTo_of_quiet hx]
    case tblCheck => exact hrun 0x28 3 hop hsub _ _ (beaconTableEff_of_check hc)
    case tblBad => exact hrun 0x28 3 hop hsub _ _ ((beaconTableEff_of_none hc).trans (if_pos hb))
    case tbl =>
      intro tb
      have hload : beaconTableEff ring idx none s d = if tblOk tb = false then completeOk t ring idx .badDescriptor
          else completeOk { t with cri := { t.cri with
            tables := sput 0 t.cri.tables (dF d 9 1) tb, tblstat := t.cri.tblstat ||| BitVec.ofNat 16 (2 ^ dF d 9 1) } } ring idx .ok := by
        refine (beaconTableEff_of_none hc).trans ((if_neg (not_or.mpr ⟨Nat.not_lt.mpr hl, Nat.not_lt.mpr ht⟩)).trans ?_)
        rw [show devRead s .hma (dBuf d) 32 (dAct d) = .done a t from hr]
        exact if_neg (by rw [ho]; nofun)
      refine ⟨fun hbad => hrun 0x28 3 hop hsub _ _ (hload.trans (if_pos ?_)), fun hok => hrun 0x28 3 hop hsub _ _ (hload.trans (if_neg ?_))⟩
      · obtain ⟨i, hi, h6⟩ := hbad
        exact Bool.eq_false_iff.mpr (fun h => Nat.not_lt.mpr (tblOk_iff.mp h i hi) h6)
      · rw [tblOk_iff.mpr hok]
        nofun
    case floorCheck => exact hrun 0x28 4 hop hsub _ _ (beaconFloorEff_of_check hc)
    case floorBad => exact hrun 0x28 4 hop hsub _ _ ((beaconFloorEff_of_none hc).trans (if_pos hl))
    case floor =>
      exact hrun 0x28 4 hop hsub _ _ ((beaconFloorEff_of_none hc).trans ((if_neg (Nat.not_lt.mpr hl)).trans (writeThen_of_good hw hg _ _)))

end Sys2Proof.Machine
end

section
/-! Commands that do work (O44): a command that a check ends, and TASK_SUBMIT, TASK_CANCEL, the hub DMA, BUDGET_SET and FENCE by their answers. -/

namespace Sys2Proof.Machine

/-- A command that a check ends completes with that check's outcome (R277, R427). -/
theorem runCmd_of_check {s : State} {ring : RingId} {idx : Word} {c : Cmd} {o : Outc} (hc : s.cmd ring idx = some c) (hph : c.phase = .accepted)
    (hst : startable s c = true) (hck : cmdCheck s c = some o) {row : Block64 → Bool} (hrow : row c.desc = true) (eff : State → Block64 → State) :
    runCmd s ring idx row eff = settleCmds (completeOk s ring idx o) := by
  unfold runCmd
  rw [hc]
  dsimp only
  rw [if_neg (by simp [hrow, hph, hst]), hck]

section
variable {s t u : State} {ring : RingId} {idx : Word} {d : Block64} {a b : Ans}

/-! ### Tasks (R279, R287) -/

theorem doTaskSubmit_of_new {c : Cmd} (hc : s.cmd ring idx = some c) (hr : c.retried = false) (path : PathRes) :
    doTaskSubmit s ring idx path = runCmd s ring idx (rowOp 0x01) (submitEff ring idx path) := by
  unfold doTaskSubmit
  rw [hc]
  exact if_neg (by simp [hr])

theorem submitEff_eq (path : PathRes) : submitEff ring idx path s d =
    if (slice d 136 9 : ActId) ≠ dAct d then completeOk s ring idx .badDescriptor
    else if submitWaits s ring idx (dQid d) then s
    else match viaPath path s (accPiece s 0x90 (queuePa (dQid d)) (queueTo (dQid d) (slice d 128 256))) with
      | .wait t => accStays s t
      | .done a t => if a.outc = .queueFull then cmdRetried (tallyAdd t (niBase 0x90 + 0x120) 1) ring idx else completeOk t ring idx a.outc :=
  rfl

/-- A TASK_SUBMIT whose entry is its own and that no other waits before. -/
theorem submitEff_of_first (hact : (slice d 136 9 : ActId) = dAct d) (hw : ∀ c ∈ s.hif.cmds, c.retried = false) {path : PathRes}
    (h : viaPath path s (accPiece s 0x90 (queuePa (dQid d)) (queueTo (dQid d) (slice d 128 256))) = .done a t) : submitEff ring idx path s d =
      if a.outc = .queueFull then cmdRetried (tallyAdd t (niBase 0x90 + 0x120) 1) ring idx else completeOk t ring idx a.outc := by
  have hwaits : submitWaits s ring idx (dQid d) = false := by
    refine List.any_eq_false.mpr (fun c hc => ?_)
    rw [hw c hc]
    exact Bool.false_ne_true
  rw [submitEff_eq, if_neg (not_not_intro hact), if_neg (by rw [hwaits]; nofun), h]

theorem cancelEff_of_done {path : PathRes}
    (h : viaPath path s (accPiece s 0x90 (queuePa (dQid d) + 0x20) (fun x => some (tgtCommand x .fabric (dQid d) (2 + 2 ^ 64 * dF d 0xC 4)))) = .done a t) :
    cancelEff ring idx path s d = completeOk t ring idx a.outc := by
  unfold cancelEff
  dsimp only
  rw [h]

theorem viaPath_none (x : Acc) : viaPath none s x = x := rfl

theorem dQid_eq : dQid d = slice d 64 16 := rfl

theorem queuePa_eq (q : QueueId) : queuePa q = queueBase (queueCluster q) + 64 * (queueLocal q).toNat := rfl

/-- `submitEff_of_first` for a command that waited on nothing on its way. -/
theorem submitEff_of_access (hact : (slice d 136 9 : ActId) = dAct d) (hw : ∀ c ∈ s.hif.cmds, c.retried = false)
    (h : accPiece s 0x90 (queueBase (queueCluster (slice d 64 16)) + 64 * (queueLocal (slice d 64 16)).toNat)
      (queueTo (slice d 64 16) (slice d 128 256)) = .done a t) : submitEff ring idx none s d =
      if a.outc = .queueFull then cmdRetried (tallyAdd t (niBase 0x90 + 0x120) 1) ring idx else completeOk t ring idx a.outc :=
  submitEff_of_first hact hw (by rw [viaPath_none, dQid_eq, queuePa_eq]; exact h)

theorem cancelEff_of_access
    (h : accPiece s 0x90 (queueBase (queueCluster (slice d 64 16)) + 64 * (queueLocal (slice d 64 16)).toNat + 0x20)
      (fun x => some (tgtCommand x .fabric (slice d 64 16) (2 + 2 ^ 64 * dF d 0xC 4))) = .done a t) :
    cancelEff ring idx none s d = completeOk t ring idx a.outc :=
  cancelEff_of_done (by rw [viaPath_none, dQid_eq, queuePa_eq]; exact h)

/-! ### The hub DMA (R280, R486, R488) -/

/-- A transfer that stays within one block of each side is one piece. -/
theorem dmaParts_one {src dst n : Nat} (hn : 0 < n) (hs : src % 64 + n ≤ 64) (hd : dst % 64 + n ≤ 64) : dmaParts [(src, n)] dst = [(src, dst, n)] := by
  have hmin : min n (min (64 - src % 64) (64 - dst % 64)) = n := by omega
  simp [dmaParts, dmaPieces, hmin, Nat.ne_of_gt hn]

theorem dmaOverlaps_one {src dst n : Nat} (h : src + n ≤ dst ∨ dst + n ≤ src) : dmaOverlaps [(src, n)] dst = false := by
  simp [dmaOverlaps]
  omega

/-- A transfer of one piece. -/
theorem dmaRun_one {who : Initiator} {act : ActId} {src dst n : Nat} (hn : 0 < n) (hs : src % 64 + n ≤ 64) (hd : dst % 64 + n ≤ 64)
    (ho : src + n ≤ dst ∨ dst + n ≤ src) (hr : devPiece s who src n act none = .done a t) (hra : a.outc = .ok) (hrf : a.flags = 0)
    (hw : devPiece t who dst n act (some a.data) = .done b u) (hwb : b.outc = .ok) :
    dmaRun s ring idx who act [(src, n)] dst = completeCmd u ring idx .ok 0 (BitVec.ofNat 32 n) 0 := by
  have hstep : dmaStep who act none { done := 0, flags := 0, stop := none, wait := false, st := s } (src, dst, n) =
      { done := n, flags := 0, stop := none, wait := false, st := u } := by
    unfold dmaStep
    rw [if_neg (by simp)]
    dsimp only
    rw [hr]
    dsimp only
    rw [if_neg (by simp [good_of_ok hra]), hw]
    dsimp only
    rw [if_pos (good_of_ok hwb), hrf, Nat.zero_add]
    rfl
  unfold dmaRun
  dsimp only
  rw [dmaOverlaps_one ho, dmaParts_one hn hs hd]
  rw [if_neg Bool.false_ne_true]
  dsimp only
  rw [List.foldl_cons, List.foldl_nil, hstep]
  rfl

theorem dmaLenOk_of {n : Nat} (h1 : 0 < n) (h2 : n ≤ 64) : dmaLenOk n = true :=
  decide_eq_true (by omega)

theorem dmaCopyEff_of_bad (h : dF d 0x18 4 = 0 ∨ 16777216 < dF d 0x18 4) (path : PathRes) :
    dmaCopyEff ring idx path s d = completeOk s ring idx .badDescriptor :=
  if_pos (decide_eq_false (by omega))

theorem dmaCopyEff_of_channel (h : dmaLenOk (dF d 0x18 4) = true) {ch : Nat} (hch : dmaChannel s ring = some ch) :
    dmaCopyEff ring idx none s d = dmaRun s ring idx (.dma (BitVec.ofNat 4 ch)) (dAct d) [(dF d 8 8, dF d 0x18 4)] (dF d 0x10 8) := by
  refine (if_neg (by rw [h]; nofun)).trans ?_
  rw [hch]

theorem dmaGatherEff_of_bad (h : dF d 8 8 % 16 ≠ 0 ∨ dF d 0x18 2 = 0 ∨ 1024 < dF d 0x18 2) (path : PathRes) :
    dmaGatherEff ring idx path s d = completeOk s ring idx .badDescriptor :=
  if_pos h

/-- A DMA_GATHER whose list has been read. -/
theorem dmaGatherEff_of_read (h1 : dF d 8 8 % 16 = 0) (h2 : 0 < dF d 0x18 2) (h3 : dF d 0x18 2 ≤ 1024) {ch : Nat} (hch : dmaChannel s ring = some ch)
    (hr : devRead s (.dma (BitVec.ofNat 4 ch)) (dF d 8 8) (16 * dF d 0x18 2) (dAct d) = .done a t) : dmaGatherEff ring idx none s d =
      if a.outc.good = false then completeOk t ring idx a.outc
      else
        let segs := (List.range (dF d 0x18 2)).map (fun (i : Nat) => (leAt a.data (16 * i) 8 % 2 ^ 44, leAt a.data (16 * i + 8) 4))
        if segs.all (fun p => dmaLenOk p.2) then dmaRun t ring idx (.dma (BitVec.ofNat 4 ch)) (dAct d) segs (dF d 0x10 8)
        else completeOk t ring idx .badDescriptor := by
  refine (if_neg (by omega)).trans ?_
  rw [hch]
  dsimp only
  rw [show viaPath none s (devRead s (.dma (BitVec.ofNat 4 ch)) (dF d 8 8) (16 * dF d 0x18 2) (dAct d)) = .done a t from hr]

/-! ### BUDGET_SET (R279) -/

/-- One region's part of a BUDGET_SET. -/
def budgetStep (d : Block64) (x : Acc) (r : RegionId) : Acc :=
  match x with
  | .wait t => .wait t
  | .done a t =>
    if a.outc.good = false ∨ ((dF d 9 1) % 32 != 0) = false then .done a t
    else accPiece t 0x90 (budBase r + (dAct d).toNat * 0x40) (fun u => some (Ans.only .ok, budgetWords u r d))

theorem budgetEff_eq (s : State) : budgetEff ring idx s d =
    if 15 < dF d 8 1 ∧ dF d 8 1 ≠ 0xFF then completeOk s ring idx .badDescriptor
    else match (budgetRegions s (dF d 8 1)).foldl (budgetStep d) (.done (Ans.only .ok) s) with
      | .wait t => accStays s t
      | .done a t =>
        if a.outc.good = false then completeOk t ring idx a.outc
        else completeOk (if bitOf (dF d 9 1) 5 then dbudLimWrite t (dAct d) (BitVec.ofNat 32 (dF d 0x20 4)) else t) ring idx .ok :=
  rfl

/-- A BUDGET_SET for one region with words to write. -/
theorem budgetEff_of_region (h1 : dF d 8 1 ≤ 15) (h2 : dF d 9 1 % 32 ≠ 0)
    (h : accPiece s 0x90 (budBase (BitVec.ofNat 4 (dF d 8 1)) + (dAct d).toNat * 0x40)
      (fun x => some (Ans.only .ok, budgetWords x (BitVec.ofNat 4 (dF d 8 1)) d)) = .done a t) : budgetEff ring idx s d =
      if a.outc.good = false then completeOk t ring idx a.outc
      else completeOk (if bitOf (dF d 9 1) 5 then dbudLimWrite t (dAct d) (BitVec.ofNat 32 (dF d 0x20 4)) else t) ring idx .ok := by
  have hregions : budgetRegions s (dF d 8 1) = [BitVec.ofNat 4 (dF d 8 1)] := if_neg (by omega)
  have hstep : budgetStep d (.done (Ans.only .ok) s) (BitVec.ofNat 4 (dF d 8 1)) = .done a t :=
    (if_neg (not_or.mpr ⟨Bool.true_eq_false.mp, fun hw => h2 (by simpa using hw)⟩)).trans h
  refine (budgetEff_eq s).trans ((if_neg (by omega)).trans ?_)
  rw [hregions, List.foldl_cons, List.foldl_nil, hstep]

end

/-- Settles O44: what a check ends, then each row by its access's answer. -/
theorem workCommands : Obligations.WorkCommands := by
  unfold Obligations.WorkCommands
  intro s ring idx d a b t u q e src dst len done
  refine ⟨?checked, fun hs => ?started⟩
  case checked =>
    intro p hp c o hc hop hph hret hst hck
    have hend (op : Nat) (hcop : dOp c.desc = op) (eff : State → Block64 → State) :
        Host.Outcome.next (φ := Fault) (ρ := Refusal) (runCmd s ring idx (rowOp op) eff) = done s o := by
      rw [runCmd_of_check hc hph hst hck (rowOp_of_eq hcop)]
      rfl
    simp only [List.mem_cons, List.not_mem_nil, or_false] at hp
    obtain rfl | rfl | rfl | rfl | rfl | rfl | rfl | rfl | rfl | rfl | rfl | rfl | rfl := hp
    · exact (congrArg Host.Outcome.next (doTaskSubmit_of_new hc hret none)).trans (hend 0x01 hop _)
    · exact hend 0x02 hop _
    · exact hend 0x03 hop _
    · exact hend 0x04 hop _
    · exact hend 0x08 hop _
    · exact hend 0x09 hop _
    · exact hend 0x11 hop _
    · exact hend 0x18 hop _
    · exact hend 0x19 hop _
    · exact hend 0x1A hop _
    · exact hend 0x30 hop _
    · exact hend 0x31 hop _
    · exact hend 0x3F hop _
  case started =>
    have hrun (op : Nat) (hop : dOp d = op) (eff : State → Block64 → State) (v : State) (he : eff s d = v) :
        Host.Outcome.next (φ := Fault) (ρ := Refusal) (runCmd s ring idx (rowOp op) eff) = v.settled := by
      rw [runCmd_of_starts hs (rowOp_of_eq hop), he]
      rfl
    have hsubmit (path : PathRes) (hop : dOp d = 1) (v : State) (he : submitEff ring idx path s d = v) :
        exec (.taskSubmit ring idx path) s = v.settled := by
      obtain ⟨c, hc, -, -, hret, -, -⟩ := hs
      exact (congrArg Host.Outcome.next (doTaskSubmit_of_new hc hret path)).trans (hrun 0x01 hop _ v he)
    refine ⟨fun hop hact => ?notOwn, fun hop hact hw hacc => ⟨fun ho => ?submit, fun ho => ?retry⟩, fun hop hacc => ?cancel,
      fun o ho => ⟨fun hop hact hw hfull => ?submitPath, fun hop => ?cancelPath⟩, fun hop hl => ?copyBad,
      fun ch hop h0 hs' hd ho hch hr hra hrf hw hwb => ?copy, fun hop hbad => ?gatherBad, fun ch o hop h1 h2 h3 hch hr ho hg => ?gatherRead,
      fun ch v => ?gather, fun hop h1 h2 => ?budgetBad, fun hop h1 h2 => ?budget, fun hop => ?fence⟩
    case notOwn => exact hsubmit none hop _ (if_pos hact)
    case submit => exact hsubmit none hop _ ((submitEff_of_access hact hw hacc).trans (if_neg ho))
    case retry => exact hsubmit none hop _ ((submitEff_of_access hact hw hacc).trans (if_pos ho))
    case cancel => exact hrun 0x02 hop _ _ (cancelEff_of_access hacc)
    case submitPath => exact hsubmit (some o) hop _ ((submitEff_of_first hact hw (viaPath_of_bad ho s _)).trans (if_neg hfull))
    case cancelPath => exact hrun 0x02 hop _ _ (cancelEff_of_done (viaPath_of_bad ho s _))
    case copyBad => exact hrun 0x03 hop _ _ (dmaCopyEff_of_bad hl none)
    case copy =>
      exact hrun 0x03 hop _ _ ((dmaCopyEff_of_channel (dmaLenOk_of h0 (by omega)) hch).trans (dmaRun_one h0 hs' hd ho hr hra hrf hw hwb))
    case gatherBad => exact hrun 0x04 hop _ _ (dmaGatherEff_of_bad hbad none)
    case gatherRead =>
      subst ho
      exact hrun 0x04 hop _ _ ((dmaGatherEff_of_read h1 h2 h3 hch hr).trans (if_pos hg))
    case gather =>
      intro n hop h1 h2 hch hr hra h0 hs' hd ho hr' hra' hrf' hw
      have hread : devRead s (.dma (BitVec.ofNat 4 ch)) (dF d 8 8) (16 * dF d 0x18 2) (dAct d) = .done a t := by rw [h2]; exact hr
      refine hrun 0x04 hop _ _ ((dmaGatherEff_of_read h1 (by omega) (by omega) hch hread).trans ((if_neg (by rw [hra]; nofun)).trans ?_))
      have hsegs : (List.range (dF d 0x18 2)).map (fun (i : Nat) => (leAt a.data (16 * i) 8 % 2 ^ 44, leAt a.data (16 * i + 8) 4)) =
          [(leAt a.data 0 8 % 2 ^ 44, n)] := by rw [h2]; rfl
      dsimp only
      rw [hsegs]
      refine (if_pos ?_).trans (dmaRun_one h0 hs' hd ho hr' hra' hrf' hw rfl)
      exact List.all_eq_true.mpr (fun p hp => by rw [List.mem_singleton.mp hp]; exact dmaLenOk_of h0 (by omega))
    case budgetBad => exact hrun 0x11 hop _ _ (if_pos ⟨h1, h2⟩)
    case budget =>
      intro r hacc
      refine ⟨fun ho => ?_, fun ho => ?_⟩
      · exact hrun 0x11 hop _ _ ((budgetEff_of_region h1 h2 hacc).trans (if_neg (by rw [ho]; nofun)))
      · exact hrun 0x11 hop _ _ ((budgetEff_of_region h1 h2 hacc).trans (if_pos ho))
    case fence => exact hrun 0x3F hop _ _ rfl

end Sys2Proof.Machine
end

section
/-! The commands of the journal, of faults and of configuration sets (O45), by the branch that each takes. -/

namespace Sys2Proof.Machine

section
variable {s t u : State} {ring : RingId} {idx : Word} {d : Block64} {a g : Ans}

/-! ### Journal (R471 to R474, R478, R479) -/

/-- The append that a JOURNAL_APPEND asks for. -/
def appendOf (ring : RingId) (idx : Word) (d : Block64) : JAppend :=
  { cmd := some (ring, idx), typ := BitVec.ofNat 8 (dF d 8 1), len := BitVec.ofNat 8 (dF d 9 1), key := slice d 80 16,
    payload := BitVec.ofNat 384 (bits d.toNat 128 (8 * dF d 9 1)), waited := false }

theorem appendEff_eq : appendEff ring idx s d =
    if 48 < dF d 9 1 ∨ !(dF d 8 1 == 3 || hostType (dF d 8 1)) ∨ (dF d 8 1 = 3 ∧ hostType (bits (appendOf ring idx d).payload.toNat 0 8) = false) then
      completeOk s ring idx .badDescriptor
    else if s.scv.noRoom (appendOf ring idx d) then completeOk s ring idx .refused
    else cmdRunning (jPush s (appendOf ring idx d)) ring idx :=
  rfl

theorem appendEff_of_bad (h : 48 < dF d 9 1 ∨ ¬(dF d 8 1 = 3 ∨ (0x40 ≤ dF d 8 1 ∧ dF d 8 1 ≤ 0xFE))) :
    appendEff ring idx s d = completeOk s ring idx .badDescriptor := by
  refine appendEff_eq.trans (if_pos ?_)
  rcases h with h | h
  · exact .inl h
  · exact .inr (.inl (by simp [hostType]; omega))

theorem appendEff_of_hostType (hn : dF d 9 1 ≤ 48) (h1 : 0x40 ≤ dF d 8 1) (h2 : dF d 8 1 ≤ 0xFE) : appendEff ring idx s d =
    if s.scv.noRoom (appendOf ring idx d) then completeOk s ring idx .refused else cmdRunning (jPush s (appendOf ring idx d)) ring idx := by
  refine appendEff_eq.trans (if_neg ?_)
  rintro (h | h | ⟨h, -⟩)
  · omega
  · simp [hostType, h1, h2] at h
  · omega

theorem commitFresh_iff : commitFresh s = true ↔ ∃ c, s.scv.lastCommit = some c ∧ s.cycle < c + 60 * 3932160000 := by
  unfold commitFresh
  cases s.scv.lastCommit with
  | none => simp
  | some c => exact ⟨fun h => ⟨c, rfl, of_decide_eq_true h⟩, fun ⟨_, hc, h⟩ => Option.some.inj hc ▸ decide_eq_true h⟩

theorem compactEff_of_refused (h : s.scv.compact.isSome = true ∨ ∃ c, s.scv.lastCommit = some c ∧ s.cycle < c + 60 * 3932160000) :
    compactEff ring idx s d = completeOk s ring idx .refused :=
  if_pos (h.imp_right commitFresh_iff.mpr)

theorem compactEff_of_free (hn : s.scv.compact = none) (h : ∀ c, s.scv.lastCommit = some c → c + 60 * 3932160000 ≤ s.cycle) :
    compactEff ring idx s d = cmdRunning (compactBegin s (some (ring, idx))) ring idx := by
  refine if_neg ?_
  rintro (hc | hf)
  · rw [hn] at hc
    exact Bool.false_ne_true hc
  · obtain ⟨c, hc, hlt⟩ := commitFresh_iff.mp hf
    have := h c hc
    omega

theorem journalReadEff_of_long (hl : 64 ≤ dF d 0x18 4) (path : PathRes) : journalReadEff ring idx path s d =
    match (s.scv.live.find? (fun p => p.1 == pairKey (slice d 80 8) (slice d 64 16))).map (fun p => p.2) with
    | none => completeCmd s ring idx .ok 0 0xFFFFFFFF 0
    | some b =>
      writeThen s ring idx (viaPath path s (devWrite s .scv (dF d 0x10 8) (recBytes b) (dAct d))) ((recLen b).setWidth 32) (recSeq b) :=
  if_neg (by omega)

theorem journalReadEff_of_absent (hl : 64 ≤ dF d 0x18 4) (h : ∀ p ∈ s.scv.live, p.1 ≠ pairKey (slice d 80 8) (slice d 64 16)) :
    journalReadEff ring idx none s d = completeCmd s ring idx .ok 0 0xFFFFFFFF 0 := by
  rw [journalReadEff_of_long hl, List.find?_eq_none.mpr (fun p hp => by simpa using h p hp)]
  rfl

theorem journalReadEff_of_live (hl : 64 ≤ dF d 0x18 4) {k : Nat} {b : Block64} (path : PathRes)
    (h : s.scv.live.find? (fun p => p.1 == pairKey (slice d 80 8) (slice d 64 16)) = some (k, b)) : journalReadEff ring idx path s d =
      writeThen s ring idx (viaPath path s (devWrite s .scv (dF d 0x10 8) (recBytes b) (dAct d))) ((recLen b).setWidth 32) (recSeq b) := by
  rw [journalReadEff_of_long hl, h]
  rfl

theorem writeThen_of_bad {x : Acc} (hx : x = .done a t) (hg : a.outc.good = false) (r r2 : Word) :
    writeThen s ring idx x r r2 = completeOk t ring idx a.outc := by
  rw [hx]
  exact if_neg (by rw [hg]; nofun)

/-! ### Faults (R425, R426, R431) -/

theorem injectCmd_of_refused {src cnt : Nat} (hc : cnt ≠ 0)
    (h : 1024 ≤ src ∨ injectable (BitVec.ofNat 10 src) = false ∨ 16 ≤ s.asy.inj.length) :
    injectCmd s ring idx src cnt = completeOk s ring idx .refused :=
  (if_neg hc).trans (if_pos h)

theorem injectCmd_of_accepted {src cnt : Nat} (hc : cnt ≠ 0) (h1 : src < 1024) (h2 : injectable (BitVec.ofNat 10 src) = true)
    (h3 : s.asy.inj.length < 16) : injectCmd s ring idx src cnt =
      if s.asy.inj.any (fun j => j.src == BitVec.ofNat 10 src) then completeOk s ring idx .conflict
      else cmdRunning { s with asy := { s.asy with inj := s.asy.inj ++
        [{ src := BitVec.ofNat 10 src, ring := ring, idx := idx, left := cnt, done := 0, since := s.cycle }] } } ring idx :=
  (if_neg hc).trans (if_neg (by rw [h2]; simp; omega))

theorem queryEff_of_source (h : dF d 8 2 < 1024) : queryEff ring idx none s d =
    writeThen s ring idx (devWrite s .hif (dF d 0x10 8) (queryBytes s (BitVec.ofNat 10 (dF d 8 2))) (dAct d))
      ((s.src (BitVec.ofNat 10 (dF d 8 2))).cnt.setWidth 32) 0 :=
  (if_neg (by omega)).trans (if_pos h)

theorem queryEff_of_fatal (h : dF d 8 2 = 0xFFFF) : queryEff ring idx none s d =
    writeThen s ring idx (devWrite s .hif (dF d 0x10 8) (fatalBytes s) (dAct d)) (BitVec.ofNat 32 s.asy.fatal.length) 0 :=
  if_pos h

/-! ### CFG_STAGE (R288) -/

/-- The addresses of a list of n entries. -/
def listPas (n : Nat) (l : List Byte) : List Nat := (List.range n).map (fun (i : Nat) => leAt l (16 * i) 8 % 2 ^ 44)

/-- The entries that a CFG_STAGE keeps. -/
def keptEnts (s : State) (d : Block64) : Nat := if d.getLsbD 72 then sget 0 s.hif.stages (dF d 8 1) else 0

theorem stageEff_of_read (h1 : dF d 8 1 ≤ 15) (h2 : 0 < dF d 0xA 2) (h3 : dF d 0xA 2 ≤ 4096) (h4 : dF d 0x10 8 % 16 = 0)
    (hr : devRead s .hif (dF d 0x10 8) (16 * dF d 0xA 2) (dAct d) = .done a t) (ha : a.outc = .ok) :
    stageEff ring idx none s d = stageList t ring idx d (fitBytes (16 * dF d 0xA 2) a.data) := by
  refine (if_neg (by omega)).trans ?_
  rw [show viaPath none s (devRead s .hif (dF d 0x10 8) (16 * dF d 0xA 2) (dAct d)) = .done a t from hr]
  exact if_pos (good_of_ok ha)

theorem stageList_of_remote {l : List Byte} (h : ∃ pa ∈ listPas (dF d 0xA 2) l, isRemote pa = true) :
    stageList t ring idx d l = completeOk t ring idx .notPermitted :=
  if_pos (List.any_eq_true.mpr h)

theorem not_any_remote {l : List Nat} (h : ∀ pa ∈ l, isRemote pa = false) : ¬ l.any isRemote = true := by
  simpa using h

theorem stageList_of_bad {l : List Byte} (h : ∀ pa ∈ listPas (dF d 0xA 2) l, isRemote pa = false)
    (hbad : 4096 < keptEnts t d + dF d 0xA 2 ∨ ∃ pa ∈ listPas (dF d 0xA 2) l, stageable t pa = false) :
    stageList t ring idx d l = completeOk t ring idx .badDescriptor :=
  (if_neg (not_any_remote h)).trans (if_pos (hbad.imp_right (fun ⟨pa, hpa, hs⟩ => List.all_eq_false.mpr ⟨pa, hpa, by rw [hs]; nofun⟩)))

theorem stageList_of_stored {l : List Byte} (h : ∀ pa ∈ listPas (dF d 0xA 2) l, isRemote pa = false ∧ stageable t pa = true)
    (hroom : keptEnts t d + dF d 0xA 2 ≤ 4096) (hw : devWrite t .hif (stagePa (dF d 8 1) (keptEnts t d)) l (dAct d) = .done g u) (hg : g.outc = .ok) :
    stageList t ring idx d l =
      completeOk { u with hif := { u.hif with stages := sput 0 u.hif.stages (dF d 8 1) (keptEnts t d + dF d 0xA 2) } } ring idx .ok := by
  have hall : (listPas (dF d 0xA 2) l).all (stageable t) = true := List.all_eq_true.mpr (fun pa hpa => (h pa hpa).2)
  refine (if_neg (not_any_remote (fun pa hpa => (h pa hpa).1))).trans ((if_neg ?_).trans ?_)
  · rintro (hlt | hf)
    · exact absurd hroom (Nat.not_le.mpr hlt)
    · exact Bool.false_ne_true (hf.symm.trans hall)
  · rw [show devWrite t .hif (stagePa (dF d 8 1) (if d.getLsbD 72 then sget 0 t.hif.stages (dF d 8 1) else 0)) l (dAct d) = .done g u from hw]
    exact if_pos (good_of_ok hg)

/-! ### CFG_COMMIT (R289, R290, R484, R485) -/

/-- The entries of a stage set as they are read. -/
def stageEnts (s : State) (d : Block64) (l : List Byte) : List StageEnt := (List.range (sget 0 s.hif.stages (dF d 8 1))).map (listEnt l)

theorem commitEff_of_none (h : commitBoundaryOf s d = none) : commitEff ring idx s d = completeOk s ring idx .badDescriptor := by
  unfold commitEff
  rw [h]

theorem commitEff_of_read {bd : Boundary} (h : commitBoundaryOf s d = some bd)
    (hr : devRead s .hif (stagePa (dF d 8 1) 0) (16 * sget 0 s.hif.stages (dF d 8 1)) (dAct d) = .done a t) (ha : a.outc = .ok)
    (hs : setGates t (stageEnts s d a.data) = .done g u) (hg : g.outc = .ok) :
    commitEff ring idx s d = commitSet u ring idx bd (stageEnts s d a.data) := by
  have hs' : setGates t ((List.range (sget 0 s.hif.stages (dF d 8 1))).map (listEnt a.data)) = .done g u := hs
  unfold commitEff
  rw [h]
  dsimp only
  rw [hr]
  dsimp only
  rw [if_neg (by rw [good_of_ok ha]; nofun), hs']
  exact if_pos (good_of_ok hg)

/-- A commit that waits for its boundary. -/
def commitOf (ring : RingId) (idx : Word) (bd : Boundary) (l : List StageEnt) : Commit :=
  { ring := ring, idx := idx, num := bd.num, sfn := bd.sfn, slot := bd.slot, tick := ticksAt bd.at0.toNat, writes := l }

variable {bd : Boundary} {l : List StageEnt}

theorem commitSet_of_refused (h : (runSet (withCommits u) l).refused = true) : commitSet u ring idx bd l = completeOk u ring idx .notPermitted :=
  if_pos h

theorem commitSet_of_conflict (h : (runSet (withCommits u) l).refused = false) {c i : Nat}
    (hc : setConflict u (runSet (withCommits u) l) (ticksAt bd.at0.toNat) l = some (c, i)) :
    commitSet u ring idx bd l = completeCmd u ring idx .conflict 0 (BitVec.ofNat 32 (c * 2 ^ 24 + i)) 0 := by
  refine (if_neg (by rw [h]; nofun)).trans ?_
  rw [hc]

theorem commitSet_of_valid (h : (runSet (withCommits u) l).refused = false)
    (hc : setConflict u (runSet (withCommits u) l) (ticksAt bd.at0.toNat) l = none) : commitSet u ring idx bd l =
      if bd.at0 ≤ u.units then completeOk u ring idx .deadlineMissed
      else cmdRunning { u with hif := { u.hif with commits := u.hif.commits ++ [commitOf ring idx bd l] } } ring idx := by
  refine (if_neg (by rw [h]; nofun)).trans ?_
  rw [hc]
  rfl

end

/-! ### The boundary (R289, R290, R294) -/

section
variable {s v : State} {num : BitVec 3} {sfn : BitVec 10} {slot : BitVec 8} {c : Commit}

theorem commitFires_of_good (h : (runSet s c.writes).refused = false) (ht : (runSet s c.writes).timer = none) :
    commitFires s c = completeOk (runSet s c.writes).st c.ring c.idx .ok :=
  if_neg (by rw [h, ht]; simp)

theorem commitFires_of_refused (h : (runSet s c.writes).refused = true) : commitFires s c = completeOk s c.ring c.idx .notPermitted :=
  if_pos (.inl h)

/-- A boundary for which one commit waits. -/
theorem doBoundary_of_due (hp : hubPulse s num.toNat sfn.toNat slot.toNat = true) (hs : s.hif.commits = [c]) (h1 : c.num = num) (h2 : c.sfn = sfn)
    (h3 : c.slot = slot) (ht : c.tick ≤ ticksAt s.units) :
    doBoundary s num sfn slot = settleCmds (commitFires { s with hif := { s.hif with commits := [] } } c) := by
  refine (if_neg (by rw [hp]; nofun)).trans ?_
  dsimp only
  rw [hs]
  simp [h1, h2, h3, ht]

theorem doBoundary_of_later (hp : hubPulse s num.toNat sfn.toNat slot.toNat = true) (hs : s.hif.commits = [c]) (ht : ticksAt s.units < c.tick) :
    doBoundary s num sfn slot = settleCmds s := by
  have hdue : decide (c.tick ≤ ticksAt s.units) = false := decide_eq_false (by omega)
  have hid : { s with hif := { s.hif with commits := [c] } } = s := by rw [← hs]
  refine (if_neg (by rw [hp]; nofun)).trans ?_
  dsimp only
  rw [hs, List.filter_cons_of_pos (by rw [hdue, Bool.and_false]; rfl), List.filter_cons_of_neg (by rw [hdue, Bool.and_false]; exact Bool.false_ne_true), List.filter_nil, List.filter_nil, List.foldl_nil, hid]

end

/-- Settles O45: each command by the branch that its checks take, then the boundary with its one commit. -/
theorem configurationCommands : Obligations.ConfigurationCommands := by
  unfold Obligations.ConfigurationCommands
  intro s ring idx d a g t u bd typ n done app isFree src sid cnt set num lst
  refine ⟨fun hs => ?started, fun num sfn slot c hp hcs h1 h2 h3 => ?boundary⟩
  case boundary =>
    intro v r
    refine ⟨fun ht hr htm => ?_, fun ht hr => ?_, fun ht => ?_⟩
    · refine congrArg Host.Outcome.next ((doBoundary_of_due hp hcs h1 h2 h3 ht).trans ?_)
      rw [commitFires_of_good hr htm]
      rfl
    · refine congrArg Host.Outcome.next ((doBoundary_of_due hp hcs h1 h2 h3 ht).trans ?_)
      rw [commitFires_of_refused hr]
      rfl
    · exact congrArg Host.Outcome.next (doBoundary_of_later hp hcs ht)
  case started =>
    have hrun (op : Nat) (hop : dOp d = op) (eff : State → Block64 → State) (v : State) (he : eff s d = v) :
        Host.Outcome.next (φ := Fault) (ρ := Refusal) (runCmd s ring idx (rowOp op) eff) = v.settled := by
      rw [runCmd_of_starts hs (rowOp_of_eq hop), he]
      rfl
    refine ⟨fun hop hbad => ?appendBad, fun hop hn h1 h2 => ⟨fun hr => ?noRoom, fun hr => ?append⟩, fun hop => ⟨fun hr => ?fresh, fun hn hf => ?compact⟩,
      fun hop hl => ?readShort, fun hop hl => ⟨fun hk => ?absent, fun b hb => ⟨fun hw hg => ?live, fun o ho => ?livePath⟩⟩,
      fun hop => ⟨fun hc => ?noCount, fun hc hr => ?notInjectable, fun hc h1 h2 h3 hj => ?pending, fun hc h1 h2 h3 hj => ?inject⟩,
      fun hop h1 h2 => ?queryBad, fun hop h1 hw hg => ?query, fun hop h1 hw hg => ?fatal, fun hop hbad => ?stageBad,
      fun hop h1 h2 h3 h4 hr ha => ?stage, fun hop hn => ?noBoundary, fun hop hb hr ha => ?commit⟩
    case appendBad => exact hrun 0x18 hop _ _ (appendEff_of_bad hbad)
    case noRoom => exact hrun 0x18 hop _ _ ((appendEff_of_hostType hn h1 h2).trans (if_pos hr))
    case append => exact hrun 0x18 hop _ _ ((appendEff_of_hostType hn h1 h2).trans (if_neg (by rw [show s.scv.noRoom (appendOf ring idx d) = false from hr]; nofun)))
    case fresh => exact hrun 0x19 hop _ _ (compactEff_of_refused hr)
    case compact => exact hrun 0x19 hop _ _ (compactEff_of_free hn hf)
    case readShort => exact hrun 0x1A hop _ _ (if_pos hl)
    case absent => exact hrun 0x1A hop _ _ (journalReadEff_of_absent hl hk)
    case live => exact hrun 0x1A hop _ _ ((journalReadEff_of_live hl none hb).trans (writeThen_of_good hw hg _ _))
    case livePath => exact hrun 0x1A hop _ _ ((journalReadEff_of_live hl (some o) hb).trans (writeThen_of_bad (viaPath_of_bad ho s _) ho _ _))
    case noCount => exact hrun 0x30 hop _ _ (if_pos hc)
    case notInjectable => exact hrun 0x30 hop _ _ (injectCmd_of_refused hc hr)
    case pending =>
      exact hrun 0x30 hop _ _ ((injectCmd_of_accepted hc h1 h2 h3).trans (if_pos (List.any_eq_true.mpr (hj.imp fun j hj => ⟨hj.1, beq_iff_eq.mpr hj.2⟩))))
    case inject =>
      exact hrun 0x30 hop _ _ ((injectCmd_of_accepted hc h1 h2 h3).trans (if_neg (by simpa using hj)))
    case queryBad => exact hrun 0x31 hop _ _ ((if_neg h2).trans (if_neg (Nat.not_lt.mpr h1)))
    case query => exact hrun 0x31 hop _ _ ((queryEff_of_source h1).trans (writeThen_of_good hw hg _ _))
    case fatal => exact hrun 0x31 hop _ _ ((queryEff_of_fatal h1).trans (writeThen_of_good hw hg _ _))
    case stageBad => exact hrun 0x08 hop _ _ (if_pos hbad)
    case stage =>
      intro old l pas
      refine ⟨fun hp => ?_, fun hp hbad => ?_, fun hp hroom hw hg => ?_⟩
      · exact hrun 0x08 hop _ _ ((stageEff_of_read h1 h2 h3 h4 hr ha).trans (stageList_of_remote hp))
      · exact hrun 0x08 hop _ _ ((stageEff_of_read h1 h2 h3 h4 hr ha).trans (stageList_of_bad hp hbad))
      · exact hrun 0x08 hop _ _ ((stageEff_of_read h1 h2 h3 h4 hr ha).trans (stageList_of_stored hp hroom hw hg))
    case noBoundary => exact hrun 0x09 hop _ _ (commitEff_of_none hn)
    case commit =>
      intro l hgates hg r tick
      refine ⟨fun hr' => ?_, fun c i hr' hc => ?_, fun hr' hc => ⟨fun hlate => ?_, fun hearly => ?_⟩⟩
      · exact hrun 0x09 hop _ _ ((commitEff_of_read hb hr ha hgates hg).trans (commitSet_of_refused hr'))
      · exact hrun 0x09 hop _ _ ((commitEff_of_read hb hr ha hgates hg).trans (commitSet_of_conflict hr' hc))
      · exact hrun 0x09 hop _ _ ((commitEff_of_read hb hr ha hgates hg).trans ((commitSet_of_valid hr' hc).trans (if_pos hlate)))
      · exact hrun 0x09 hop _ _ ((commitEff_of_read hb hr ha hgates hg).trans ((commitSet_of_valid hr' hc).trans (if_neg (Int.not_le.mpr hearly))))

end Sys2Proof.Machine
end

section
/-! POWER_STATE (O47): its checks in their order, the wake of a command that raises a unit, and the PREPARE of one that lowers it. -/

namespace Sys2Proof.Machine

section
variable {s v : State} {ring : RingId} {idx : Word} {d : Block64} {u : PowerUnit} {level st : Nat} {c b : BitVec 8} {r : RegionId}

/-! ### Units (R437) -/

theorem powerUnit_package {n : Nat} (h : powerUnit 0 n = some u) : u = .package :=
  (Option.some.inj h).symm

theorem powerUnit_region {n : Nat} (h : powerUnit 1 n = some u) : ∃ r, u = .region r := by
  unfold powerUnit at h
  split at h
  · omega
  · split at h
    · exact ⟨_, (Option.some.inj h).symm⟩
    · split at h
      · omega
      · exact absurd h (by simp)

theorem powerUnit_cluster {n : Nat} (h : powerUnit 2 n = some u) : ∃ gc, u = .cluster gc := by
  unfold powerUnit at h
  split at h
  · omega
  · split at h
    · omega
    · split at h
      · exact ⟨_, (Option.some.inj h).symm⟩
      · exact absurd h (by simp)

/-! ### The checks (R438, R439) -/

/-- The performance of a POWER_STATE that passes its checks: it raises or lowers the unit. -/
def powerMove (s : State) (ring : RingId) (idx : Word) (u : PowerUnit) (st : Nat) : State :=
  match powerCode s u with
  | none => if st = 0 then powerRaise s ring idx u 0 else completeOk s ring idx .wakeFailed
  | some c => if st < c.toNat then powerRaise s ring idx u (BitVec.ofNat 8 st) else powerLower s ring idx u (BitVec.ofNat 8 st)

/-- The checks of a POWER_STATE whose TARGET and STATE are defined. -/
def powerChecks (s : State) (ring : RingId) (idx : Word) (u : PowerUnit) (level st : Nat) : State :=
  if level ≠ 0 ∧ (s.region ((unitRegion u).getD 0)).st = .disabled then completeOk s ring idx .routeFault
  else if powerCode s u = some (BitVec.ofNat 8 st) then completeCmd s ring idx .ok 0 (BitVec.ofNat 32 st) 0
  else if level ≠ 0 ∧ s.lmp.pkg ≠ .run then powerRefuse s ring idx 0x9FFFF
  else if level = 2 ∧ (s.region ((unitRegion u).getD 0)).st ≠ .active then powerRefuse s ring idx (0x90000 + ((unitRegion u).getD 0).toNat)
  else powerMove s ring idx u st

theorem powerCmd_of_noUnit (h : powerUnit (dF d 8 1) (dF d 10 2) = none) : powerCmd s ring idx d = completeOk s ring idx .badDescriptor := by
  unfold powerCmd
  dsimp only
  rw [h]

theorem powerCmd_of_unit (h : powerUnit (dF d 8 1) (dF d 10 2) = some u) : powerCmd s ring idx d =
    if powerPair (dF d 8 1) (dF d 9 1) = false then completeOk s ring idx .badDescriptor else powerChecks s ring idx u (dF d 8 1) (dF d 9 1) := by
  unfold powerCmd
  dsimp only
  rw [h]
  rfl

theorem powerChecks_of_state (hd : level = 0 ∨ (s.region ((unitRegion u).getD 0)).st ≠ .disabled) (hc : powerCode s u = some (BitVec.ofNat 8 st)) :
    powerChecks s ring idx u level st = completeCmd s ring idx .ok 0 (BitVec.ofNat 32 st) 0 :=
  (if_neg (Classical.not_and_iff_not_or_not.mpr (hd.imp_left not_not_intro))).trans (if_pos hc)

section
variable (hd : level = 0 ∨ (s.region ((unitRegion u).getD 0)).st ≠ .disabled) (hc : powerCode s u ≠ some (BitVec.ofNat 8 st))
include hd hc

theorem powerChecks_of_other : powerChecks s ring idx u level st =
    if level ≠ 0 ∧ s.lmp.pkg ≠ .run then powerRefuse s ring idx 0x9FFFF
    else if level = 2 ∧ (s.region ((unitRegion u).getD 0)).st ≠ .active then powerRefuse s ring idx (0x90000 + ((unitRegion u).getD 0).toNat)
    else powerMove s ring idx u st :=
  (if_neg (Classical.not_and_iff_not_or_not.mpr (hd.imp_left not_not_intro))).trans (if_neg hc)

theorem powerChecks_of_sleepingRegion (hl : level = 2) (hp : s.lmp.pkg = .run) (hr : (s.region ((unitRegion u).getD 0)).st ≠ .active) :
    powerChecks s ring idx u level st = powerRefuse s ring idx (0x90000 + ((unitRegion u).getD 0).toNat) :=
  (powerChecks_of_other hd hc).trans ((if_neg (fun h => h.2 hp)).trans (if_pos ⟨hl, hr⟩))

theorem powerChecks_of_ready (hp : level = 0 ∨ s.lmp.pkg = .run) (hr : level ≠ 2 ∨ (s.region ((unitRegion u).getD 0)).st = .active) :
    powerChecks s ring idx u level st = powerMove s ring idx u st :=
  (powerChecks_of_other hd hc).trans ((if_neg (Classical.not_and_iff_not_or_not.mpr (hp.imp not_not_intro not_not_intro))).trans
    (if_neg (Classical.not_and_iff_not_or_not.mpr (hr.imp_right not_not_intro))))

end

theorem powerRefuse_eq (ref : Nat) : powerRefuse s ring idx ref =
    completeCmd (tallyAdd { s with lmp := { s.lmp with lastref := BitVec.ofNat 32 ref } } (lmpBase + 0x108) 1) ring idx .refused 0 (BitVec.ofNat 32 ref) 0 :=
  rfl

theorem powerPair_package (h : powerPair 0 st = true) (h0 : 0 < st) : st = 3 ∨ st = 4 := by
  simp [powerPair] at h
  omega

theorem powerPair_region (h : powerPair 1 st = true) (h0 : 0 < st) : st = 2 := by
  simp [powerPair] at h
  omega

theorem powerPair_cluster (h : powerPair 2 st = true) (h0 : 0 < st) : st = 1 ∨ st = 2 := by
  simp [powerPair] at h
  omega

/-! ### Raising (R446, R448) -/

theorem powerMove_of_noCode (h : powerCode s u = none) (hst : st ≠ 0) : powerMove s ring idx u st = completeOk s ring idx .wakeFailed := by
  unfold powerMove
  rw [h]
  exact if_neg hst

theorem startWakeTo_of_none (h : s.lmp.wakes = []) {src : BitVec 8} {cmd : Option (RingId × Word)} {prev goal : BitVec 8} :
    startWakeTo s u src cmd prev goal = { s with lmp := { s.lmp with wakesrc := s.lmp.wakesrc ||| src, wakes :=
      [{ target := u, step := .regulator, retries := 0, since := s.cycle, start := s.cycle, cmd := cmd, prev := prev, goal := goal, src := src }] } } := by
  unfold startWakeTo
  dsimp only
  rw [h]
  rfl

theorem powerMove_of_raise (h : powerCode s u = some c) (hst : st < c.toNat) :
    powerMove s ring idx u st = cmdRunning (startWakeTo s u 0x20 (some (ring, idx)) c (BitVec.ofNat 8 st)) ring idx := by
  unfold powerMove
  rw [h]
  refine (if_pos hst).trans ?_
  unfold powerRaise prevCode
  rw [h]

/-! ### Lowering (R442, R443, R451) -/

theorem powerMove_of_lower (h : powerCode s u = some c) (hst : c.toNat < st) : powerMove s ring idx u st = powerLower s ring idx u (BitVec.ofNat 8 st) := by
  unfold powerMove
  rw [h]
  exact if_neg (Nat.not_lt.mpr (Nat.le_of_lt hst))

theorem powerLower_cluster {gc : ClusterId} (h : b = 1 ∨ b = 2) : powerLower s ring idx (.cluster gc) b = prepare s ring idx (.cluster gc) b := by
  unfold powerLower
  dsimp only
  rw [if_neg (by simp)]
  dsimp only
  rw [if_pos (h.imp_right (fun h => ⟨h, rfl⟩))]

/-- The end of a lowering after its thermal check. -/
def powerLowerThen (ring : RingId) (idx : Word) (u : PowerUnit) (st : BitVec 8) : Option (Nat × Nat) × State → State
  | (some (i, ma), t) => completeCmd (lmpTal t 7) ring idx .thermalRefused 0 (BitVec.ofNat 32 i) (BitVec.ofNat 32 ma)
  | (none, t) => prepare t ring idx u st

theorem powerLower_region : powerLower s ring idx (.region r) 2 = powerLowerThen ring idx (.region r) 2 (thermalCheck s (.region r) false) :=
  rfl

theorem wakeAsserted_of_disabled (h : s.lmp.wakeEn = 0) : wakeAsserted s = (none, s) := by
  unfold wakeAsserted
  rw [h]
  rfl

theorem powerLower_package (hw : s.lmp.wakeEn = 0) (h1 : b ≠ 1) (h2 : b ≠ 2) :
    powerLower s ring idx .package b = powerLowerThen ring idx .package b (thermalCheck s .package (b == 4)) := by
  unfold powerLower
  dsimp only
  rw [if_pos rfl, wakeAsserted_of_disabled hw]
  dsimp only
  rw [if_neg (not_or.mpr ⟨h1, fun h => h2 h.1⟩)]
  rfl

/-- Only the die of the region is sampled. -/
theorem sampleDies_region (r : RegionId) (s : State) :
    (List.range 4).foldl (fun t d => if [r].any (fun r => r.toNat / 4 == d) then sampleTemp t d else t) s = sampleTemp s (r.toNat / 4) := by
  have hr : r.toNat / 4 = 0 ∨ r.toNat / 4 = 1 ∨ r.toNat / 4 = 2 ∨ r.toNat / 4 = 3 := by have := r.isLt; omega
  simp only [show List.range 4 = [0, 1, 2, 3] from rfl, List.foldl_cons, List.foldl_nil, List.any_cons, List.any_nil, Bool.or_false]
  rcases hr with h | h | h | h <;> rw [h] <;> rfl

theorem thermalCheck_region (hv : sampleTemp s (r.toNat / 4) = v) :
    thermalCheck s (.region r) false = if 500 < regionPred v r then (some (r.toNat, regionPred v r), v) else (none, v) := by
  unfold thermalCheck lowRegions
  dsimp only
  rw [sampleDies_region, hv, if_neg Bool.false_ne_true]
  by_cases h : 500 < regionPred v r
  · rw [if_pos h, show [r].find? (fun r => decide (500 < regionPred v r)) = some r from List.find?_cons_of_pos (decide_eq_true h)]
  · rw [if_neg h, show [r].find? (fun r => decide (500 < regionPred v r)) = none from List.find?_cons_of_neg (by simpa using h)]
    exact if_neg (fun h => Bool.false_ne_true h.1)

theorem lowRegions_package (h : ∀ r, (s.region r).st ≠ .active) : lowRegions s .package = [] :=
  List.filter_eq_nil_iff.mpr (fun r _ => by simpa using h r)

theorem thermalCheck_standby (h : ∀ r, (s.region r).st ≠ .active) : thermalCheck s .package false = (none, s) := by
  unfold thermalCheck
  rw [lowRegions_package h]
  rfl

theorem thermalCheck_deep (h : ∀ r, (s.region r).st ≠ .active) (hv : sampleTemp s 4 = v) :
    thermalCheck s .package true = if 2000 < aonPred v then (some (0xFFFF, aonPred v), v) else (none, v) := by
  unfold thermalCheck
  rw [lowRegions_package h]
  dsimp only
  rw [if_pos rfl, show (List.range 4).foldl (fun t d => if ([] : List RegionId).any (fun r => r.toNat / 4 == d) then sampleTemp t d else t) s = s from rfl, hv]
  simp

/-- The transaction that PREPARE begins. -/
def preparedTx (s : State) (ring : RingId) (idx : Word) (u : PowerUnit) (b : BitVec 8) (deep : Bool) : PowerTx :=
  { ring := ring, idx := idx, target := u, state := b, waiting := powerMembers s u deep, agreed := [], draining := (powerMembers s u deep).isEmpty,
    since := s.cycle }

theorem prepare_eq {deep : Bool} (h : (b == 4) = deep) :
    prepare s ring idx u b = cmdRunning { s with lmp := { s.lmp with tx := some (preparedTx s ring idx u b deep) } } ring idx := by
  subst h
  rfl

/-! ### The command (R277, R438) -/

theorem doPowerState_of_turn (hs : starts s ring idx d) (hop : dOp d = 0x10) (hst : dF d 9 1 = st) (ht : powerTurn s ring idx = true) :
    doPowerState s ring idx st = settleCmds (powerCmd s ring idx d) := by
  refine (if_pos ht).trans ?_
  rw [runCmd_of_starts hs (by simp [hop, hst])]

end

/-- The five commands are POWER_STATE by their STATE, which is below 5. -/
theorem exec_powerState (s : State) (ring : RingId) (idx : Word) (p : Nat × Instr)
    (hp : p ∈ [(0, Instr.powerStateWake ring idx), (1, .powerStateNap ring idx), (2, .powerStateRetain ring idx), (3, .powerStateStandby ring idx),
      (4, .powerStateDeep ring idx)]) : exec p.2 s = .next (doPowerState s ring idx p.1) ∧ p.1 < 5 := by
  simp only [List.mem_cons, List.not_mem_nil, or_false] at hp
  rcases hp with rfl | rfl | rfl | rfl | rfl <;> exact ⟨rfl, by simp⟩

/-- Settles O47: the checks in their order, then what raises and what lowers the unit. -/
theorem powerCommands : Obligations.PowerCommands := by
  unfold Obligations.PowerCommands
  intro s ring idx d u level st r done refuse tx held p hp hs hop hst ht
  obtain ⟨hexec, hlt⟩ := exec_powerState s ring idx p hp
  have hcmd (v : State) (h : powerCmd s ring idx d = v) : exec p.2 s = v.settled := by
    rw [hexec, doPowerState_of_turn hs hop hst ht, h]
    rfl
  refine ⟨fun hu => hcmd _ (powerCmd_of_noUnit hu), fun hu => ⟨fun hpair => ?undefinedState, fun hpair => ?checks⟩⟩
  case undefinedState => exact hcmd _ ((powerCmd_of_unit hu).trans (if_pos hpair))
  case checks =>
    have hchecks (v : State) (h : powerChecks s ring idx u level st = v) : exec p.2 s = v.settled :=
      hcmd _ ((powerCmd_of_unit hu).trans ((if_neg (by rw [hpair]; nofun)).trans h))
    refine ⟨fun hl hd => ?disabled, fun hd => ⟨fun hc => ?same, fun hc => ⟨fun hl hpkg => ?asleep, fun hl hpkg hr => ?region, fun hpkg hr => ?ready⟩⟩⟩
    case disabled => exact hchecks _ (if_pos ⟨hl, hd⟩)
    case same => exact hchecks _ (powerChecks_of_state hd hc)
    case asleep => exact hchecks _ ((powerChecks_of_other hd hc).trans (if_pos ⟨hl, hpkg⟩))
    case region => exact hchecks _ (powerChecks_of_sleepingRegion hd hc hl hpkg hr)
    case ready =>
      have hmove (v : State) (h : powerMove s ring idx u st = v) : exec p.2 s = v.settled :=
        hchecks _ ((powerChecks_of_ready hd hc hpkg hr).trans h)
      have hst5 : st < 5 := hst ▸ hlt
      refine ⟨fun hn h0 => ?noCode, fun c hcode hraise hw => ?raise, fun c hcode hlower hl => ?cluster, fun c hcode hlower hl => ?regionLow,
        fun c hcode hlower hl hwake hact => ?package⟩
      case noCode => exact hmove _ (powerMove_of_noCode hn h0)
      case raise =>
        refine hmove _ ((powerMove_of_raise hcode hraise).trans ?_)
        rw [startWakeTo_of_none hw]
      case cluster =>
        have hpair2 : powerPair 2 st = true := hl ▸ hpair
        obtain ⟨gc, rfl⟩ := powerUnit_cluster (n := dF d 10 2) (u := u) (hl ▸ hu)
        have hb : BitVec.ofNat 8 st = 1 ∨ BitVec.ofNat 8 st = 2 := (powerPair_cluster hpair2 (by omega)).imp (fun h => by rw [h]; rfl) (fun h => by rw [h]; rfl)
        have h4 : (BitVec.ofNat 8 st == 4) = false := by rcases hb with h | h <;> rw [h] <;> rfl
        exact hmove _ ((powerMove_of_lower hcode hlower).trans ((powerLower_cluster hb).trans (prepare_eq h4)))
      case regionLow =>
        intro v
        have h2 : st = 2 := powerPair_region (hl ▸ hpair) (by omega)
        have hb : BitVec.ofNat 8 st = 2 := by rw [h2]; rfl
        obtain ⟨k, rfl⟩ := powerUnit_region (n := dF d 10 2) (u := u) (hl ▸ hu)
        have hlow : powerMove s ring idx (.region k) st = powerLowerThen ring idx (.region k) 2 (thermalCheck s (.region k) false) := by
          rw [powerMove_of_lower hcode hlower, hb]
          exact powerLower_region
        rw [hb]
        refine ⟨fun hcool => ?_, fun hhot => ?_⟩
        · exact hmove _ (hlow.trans (congrArg _ ((thermalCheck_region rfl).trans (if_neg (Nat.not_lt.mpr hcool)))))
        · exact hmove _ (hlow.trans (congrArg _ ((thermalCheck_region rfl).trans (if_pos hhot))))
      case package =>
        obtain rfl : u = .package := powerUnit_package (n := dF d 10 2) (hl ▸ hu)
        refine ⟨fun h3 => ?_, fun h4 => ?_⟩
        · have hb : BitVec.ofNat 8 st = 3 := by rw [h3]; rfl
          have hlow : powerMove s ring idx .package st = prepare s ring idx .package (BitVec.ofNat 8 st) := by
            rw [powerMove_of_lower hcode hlower, hb, powerLower_package hwake (by decide) (by decide),
              show thermalCheck s .package ((3 : BitVec 8) == 4) = (none, s) from thermalCheck_standby hact]
            rfl
          exact hmove _ (hlow.trans (prepare_eq (by rw [hb]; rfl)))
        · intro v
          have hb : BitVec.ofNat 8 st = 4 := by rw [h4]; rfl
          have hlow : powerMove s ring idx .package st = powerLowerThen ring idx .package 4 (thermalCheck s .package true) := by
            rw [powerMove_of_lower hcode hlower, hb]
            exact powerLower_package hwake (by decide) (by decide)
          refine ⟨fun hcool => ?_, fun hhot => ?_⟩
          · exact hmove _ (hlow.trans (congrArg _ ((thermalCheck_deep hact rfl).trans (if_neg (Nat.not_lt.mpr hcool)))))
          · exact hmove _ (hlow.trans (congrArg _ ((thermalCheck_deep hact rfl).trans (if_pos hhot))))

end Sys2Proof.Machine
end

section
/-! The Crier (O56): the receiver's states and symbols, a transmission's pieces, and CRI_CTL. -/

namespace Sys2Proof.Machine

/-! ### The clock slots (R334) -/

/-- Two states that agree in everything but the source slots. -/
def SlotsOnly (s t : State) : Prop := t = { s with cmk := { s.cmk with srcs := t.cmk.srcs } }

theorem SlotsOnly.refl (s : State) : SlotsOnly s s := rfl

theorem SlotsOnly.setCsrc {s t : State} (h : SlotsOnly s t) (i : BitVec 3) (x : ClkSrc) : SlotsOnly s (t.setCsrc i x) := by
  unfold SlotsOnly at h ⊢
  rw [h]
  rfl

theorem State.setCsrc_csrc (s : State) (i j : BitVec 3) (x : ClkSrc) : (s.setCsrc i x).csrc j = if j = i then x else s.csrc j := by
  unfold State.setCsrc State.csrc
  rw [sget_sput]
  exact ite_iff BitVec.toNat_inj

theorem mem_allSlots (i : BitVec 3) : i ∈ allSlots := by
  unfold allSlots
  exact List.mem_map.mpr ⟨i.toNat, List.mem_range.mpr i.isLt, by simp⟩

theorem nodup_allSlots : allSlots.Nodup := by decide

/-- A pass over slots that gives each a function of what it holds. -/
theorem foldl_slots {s : State} {step : State → BitVec 3 → State} {f : ClkSrc → ClkSrc}
    (hstep : ∀ t i, SlotsOnly s t → step t i = t ∧ f (t.csrc i) = t.csrc i ∨ step t i = t.setCsrc i (f (t.csrc i))) (l : List (BitVec 3)) (hl : l.Nodup)
    {t : State} (ht : SlotsOnly s t) : SlotsOnly s (l.foldl step t) ∧ ∀ j, (l.foldl step t).csrc j = if j ∈ l then f (t.csrc j) else t.csrc j := by
  induction l generalizing t with
  | nil => exact ⟨ht, fun j => (if_neg (List.not_mem_nil)).symm⟩
  | cons i l ih =>
    obtain ⟨hi, hl⟩ := List.nodup_cons.mp hl
    have hone : SlotsOnly s (step t i) ∧ ∀ j, (step t i).csrc j = if j = i then f (t.csrc j) else t.csrc j := by
      rcases hstep t i ht with ⟨h, hf⟩ | h <;> rw [h]
      · refine ⟨ht, fun j => ?_⟩
        split
        · next hj => rw [hj, hf]
        · rfl
      · refine ⟨ht.setCsrc i _, fun j => ?_⟩
        rw [State.setCsrc_csrc]
        split
        · next hj => rw [hj]
        · rfl
    obtain ⟨honly, hcs⟩ := ih hl hone.1
    refine ⟨honly, fun j => (hcs j).trans ?_⟩
    rw [hone.2]
    by_cases hj : j = i
    · subst hj
      rw [if_neg hi, if_pos rfl, if_pos List.mem_cons_self]
    · rw [if_neg hj]
      exact ite_iff (by rw [List.mem_cons, or_iff_right hj])

/-- A pass over the eight slots. -/
theorem foldl_allSlots {s : State} {step : State → BitVec 3 → State} {f : ClkSrc → ClkSrc}
    (hstep : ∀ t i, SlotsOnly s t → step t i = t ∧ f (t.csrc i) = t.csrc i ∨ step t i = t.setCsrc i (f (t.csrc i))) :
    SlotsOnly s (allSlots.foldl step s) ∧ ∀ j, (allSlots.foldl step s).csrc j = f (s.csrc j) := by
  obtain ⟨honly, hcs⟩ := foldl_slots hstep allSlots nodup_allSlots (SlotsOnly.refl s)
  exact ⟨honly, fun j => (hcs j).trans (if_pos (mem_allSlots j))⟩

/-- A pass over the eight slots that changes the slots of one kind. -/
theorem foldl_slotsWhere {s : State} {P : ClkSrc → Prop} [DecidablePred P] {y : State → ClkSrc → ClkSrc}
    (hy : ∀ t x, SlotsOnly s t → y t x = y s x) :
    SlotsOnly s (allSlots.foldl (fun t i => if P (t.csrc i) then t.setCsrc i (y t (t.csrc i)) else t) s) ∧
      ∀ j, (allSlots.foldl (fun t i => if P (t.csrc i) then t.setCsrc i (y t (t.csrc i)) else t) s).csrc j =
        if P (s.csrc j) then y s (s.csrc j) else s.csrc j := by
  refine foldl_allSlots (f := fun x => if P x then y s x else x) (fun t i ht => ?_)
  by_cases h : P (t.csrc i)
  · exact .inr (by rw [if_pos h, if_pos h, hy t _ ht])
  · exact .inl ⟨if_neg h, if_neg h⟩

section
variable {s : State} {p : List (BitVec 32)} {o : CriObs} {m gain : BitVec 16} {at0 : Ts} {h foff : Word} {b : List Bool}

/-! ### What a symbol does in each state (R384, R385, R387) -/

theorem criPktEvent_of_silent (hev : s.cri.evfail = false) {reason : Nat} (hr : reason ≠ 0 ∧ reason ≠ 7 ∧ reason ≠ 8) : criPktEvent s reason = s := by
  obtain ⟨h0, h7, h8⟩ := hr
  refine if_neg ?_
  rw [hev]
  simp [h0, h7, h8]

theorem doSymbolRx_of_off (h : s.cri.en = false ∨ s.cri.rx = .idle) : doSymbolRx s p o = s := by
  unfold doSymbolRx
  dsimp only
  split
  · rfl
  · next hen =>
    rw [h.resolve_left hen]

section
variable (hen : s.cri.en = true)
include hen

theorem doSymbolRx_search (hrx : s.cri.rx = .search) : doSymbolRx s p o =
    match o with
    | .preamble m g t => if s.cri.detthr.toNat ≤ m.toNat then startPkt (criTal { s with cri := noiseAdd s.cri p } 0) m g t else { s with cri := noiseAdd s.cri p }
    | _ => { s with cri := noiseAdd s.cri p } := by
  unfold doSymbolRx
  dsimp only
  rw [if_neg (by rw [hen]; nofun), hrx] <;> rfl

theorem doSymbolRx_preamble (hrx : s.cri.rx = .sync ∨ s.cri.rx = .header) :
    doSymbolRx s p (.preamble m gain at0) = if captures s.cri m then capture s m gain at0 else s := by
  unfold doSymbolRx
  dsimp only
  rw [if_neg (by rw [hen]; nofun)]
  rcases hrx with hrx | hrx <;> rw [hrx]

theorem doSymbolRx_chirps (hrx : s.cri.rx = .sync) (ok : Bool) : doSymbolRx s p (.chirps ok foff) =
    if ok then { s with cri := { s.cri with rx := .header, pkt := { s.cri.pkt with residual := foff } } }
    else { criTal s 7 with cri := { s.cri with rx := .search, pkt := CriPkt.reset } } := by
  unfold doSymbolRx
  dsimp only
  rw [if_neg (by rw [hen]; nofun), hrx]
  rfl

theorem doSymbolRx_header (hrx : s.cri.rx = .header) : doSymbolRx s p (.header h) = takeHeader s h := by
  unfold doSymbolRx
  dsimp only
  rw [if_neg (by rw [hen]; nofun), hrx]

theorem doSymbolRx_payload (hrx : s.cri.rx = .payload) : doSymbolRx s p (.payload b foff) = takePayload s b foff := by
  unfold doSymbolRx
  dsimp only
  rw [if_neg (by rw [hen]; nofun), hrx]

end

section
variable (hev : s.cri.evfail = false)
include hev

theorem capture_of_silent : capture s m gain at0 = startPkt (criTal s 1) m gain at0 := by
  unfold capture
  rw [criPktEvent_of_silent (s := criTal s 1) hev ⟨by decide, by decide, by decide⟩]

theorem failPkt_of_silent {i reason : Nat} (hr : reason ≠ 0 ∧ reason ≠ 7 ∧ reason ≠ 8) :
    failPkt s i reason = { criTal s i with cri := { s.cri with rx := .search, pkt := CriPkt.reset } } := by
  unfold failPkt
  rw [criPktEvent_of_silent (s := criTal s i) hev hr]
  rfl

end

theorem takeHeader_eq : takeHeader s h =
    if hcrcOk h = false then failPkt { s with cri := { s.cri with pkt := { s.cri.pkt with header := h } } } 2 1
    else match hdrTable s.cri h with
      | none => failPkt { s with cri := { s.cri with pkt := { s.cri.pkt with header := h } } } 3 2
      | some t => { s with cri := { s.cri with rx := .payload, pkt := { s.cri.pkt with header := h, table := some t }, nco := if s.cri.fmode then s.cri.nco + s.cri.pkt.residual else s.cri.nco } } :=
  rfl

theorem takeHeader_of_noTable (hcrc : hcrcOk h = true) (ht : hdrTable s.cri h = none) :
    takeHeader s h = failPkt { s with cri := { s.cri with pkt := { s.cri.pkt with header := h } } } 3 2 := by
  rw [takeHeader_eq, if_neg (by rw [hcrc]; nofun), ht]

theorem takeHeader_of_table (hcrc : hcrcOk h = true) {tb : BitVec 256} (ht : hdrTable s.cri h = some tb) : takeHeader s h =
    { s with cri := { s.cri with rx := .payload, pkt := { s.cri.pkt with header := h, table := some tb }, nco := if s.cri.fmode then s.cri.nco + s.cri.pkt.residual else s.cri.nco } } := by
  rw [takeHeader_eq, if_neg (by rw [hcrc]; nofun), ht]

/-! ### Payload symbols (R381, R384, R386) -/

/-- The bits of a payload symbol that the packet takes. -/
def payloadBits (c : Cri) : Nat := tblBits (c.pkt.table.getD 0) (c.pkt.header.getLsbD 14)

/-- The packet with one more payload symbol. -/
def payloadPkt (c : Cri) (b : List Bool) (residual : Word) : CriPkt :=
  { c.pkt with stream := c.pkt.stream ++ (List.range (payloadBits c)).map (fun i => (b[i]?).getD false), syms := c.pkt.syms + 1,
               residual := if c.fmode = false ∧ c.pkt.header.getLsbD 14 = true then residual else c.pkt.residual }

/-- The state with one more payload symbol. -/
def payloadNext (s : State) (b : List Bool) (residual : Word) : State := { s with cri := { s.cri with pkt := payloadPkt s.cri b residual } }

theorem takePayload_eq : takePayload s b foff =
    if s.cri.pkt.syms + 1 < cdiv (8 * (hdrLen s.cri.pkt.header + 2)) (payloadBits s.cri) then payloadNext s b foff
    else if payloadOk (payloadPkt s.cri b foff).stream (hdrLen s.cri.pkt.header) = false then failPkt (payloadNext s b foff) 4 3
    else if (goodPkt (payloadNext s b foff) (payloadPkt s.cri b foff).stream).cri.rx = .payload then
      stayWake s (goodPkt (payloadNext s b foff) (payloadPkt s.cri b foff).stream)
    else goodPkt (payloadNext s b foff) (payloadPkt s.cri b foff).stream :=
  rfl

theorem pickSlot_of_full {c : Cri} (h : ∀ i < c.nslots, sget false c.used i = true) : c.pickSlot = none := by
  refine List.find?_eq_none.mpr (fun k hk => ?_)
  obtain ⟨i, hi, rfl⟩ := List.mem_map.mp hk
  rw [h _ (Nat.mod_lt _ (Nat.zero_lt_of_lt (List.mem_range.mp hi)))]
  simp

theorem goodPkt_of_full (href : s.cri.refEn = false) (h : ∀ i < s.cri.nslots, sget false s.cri.used i = true) (l : List Bool) :
    goodPkt s l = failPkt s 6 5 := by
  have hoffer (f : Word) : offerRef s f = s := if_pos (.inl href)
  unfold goodPkt
  dsimp only
  rw [pickSlot_of_full h, hoffer]

/-- A good packet that finds no free slot is dropped. -/
theorem takePayload_of_full (hev : s.cri.evfail = false) (href : s.cri.refEn = false) (hfull : ∀ i < s.cri.nslots, sget false s.cri.used i = true)
    (hlast : cdiv (8 * (hdrLen s.cri.pkt.header + 2)) (payloadBits s.cri) ≤ s.cri.pkt.syms + 1)
    (hok : payloadOk (payloadPkt s.cri b foff).stream (hdrLen s.cri.pkt.header) = true) : takePayload s b foff =
      { criTal (payloadNext s b foff) 6 with cri := { (payloadNext s b foff).cri with rx := .search, pkt := CriPkt.reset } } := by
  have hgood := (goodPkt_of_full (s := payloadNext s b foff) href hfull (payloadPkt s.cri b foff).stream).trans
    (failPkt_of_silent (s := payloadNext s b foff) hev ⟨by decide, by decide, by decide⟩)
  have hrx : (goodPkt (payloadNext s b foff) (payloadPkt s.cri b foff).stream).cri.rx ≠ .payload := by
    rw [hgood]
    nofun
  rw [takePayload_eq, if_neg (Nat.not_lt.mpr hlast), if_neg (by rw [hok]; nofun), if_neg hrx, hgood]

end

/-! ### Transmission (R374 to R381, R390) -/

section
variable {s : State} {t0 : CriTx} {k : Int} {i : SymId}

theorem withRef_header (s : State) (t : CriTx) (m : Nat) : ∃ h, withRef s t m = { t with header := h } := by
  unfold withRef
  dsimp only
  split
  · exact ⟨_, rfl⟩
  · exact ⟨t.header, rfl⟩

theorem doSymbolTx_of_idle (h : s.cri.tx = none ∨ maskedNow s = none) : doSymbolTx s = s := by
  unfold doSymbolTx
  rcases h with h | h
  · rw [h]
  · rw [h]
    cases s.cri.tx <;> rfl

/-- The sub-carriers that a piece of a transmission carries, as the stream codes them. -/
def pieceBody (s : State) (t : CriTx) : List Byte :=
  (List.range (bandOf s s.cri.txstrm / 12)).flatMap (fun j =>
    prbEncode (s.strm s.cri.txstrm).fmt.toNat
      (((txSymbol (takeFree s).1 s.cri t (bandOf s s.cri.txstrm) t.used).drop (12 * j) |>.take 12).flatMap (fun p => [p.1, p.2])))

theorem completeCmd_cmd_self (s : State) (ring : RingId) (idx : Word) (o : Outc) (flags result result2 : Word) :
    (completeCmd s ring idx o flags result result2).cmd ring idx = none := by
  have hnone : (s.hif.cmds.filter (fun x => !(x.ring == ring && x.idx == idx))).find? (fun c => c.ring == ring && c.idx == idx) = none :=
    List.find?_eq_none.mpr (fun c hc => by
      have hf := (List.mem_filter.mp hc).2
      rw [Bool.not_eq_true'] at hf
      rw [hf]
      exact Bool.false_ne_true)
  unfold completeCmd
  split
  · assumption
  · dsimp only
    repeat' split
    all_goals exact hnone

theorem txOut_sent (s : State) (n : StreamId) (hdr body : List Byte) :
    (txOut s n hdr body).fhp.sent = some { strm := n, at0 := s.tick, seqId := (s.strm n).seqId, hdr := hdr, body := body } :=
  rfl

@[simp] theorem completeCmd_fhp (s : State) (ring : RingId) (idx : Word) (o : Outc) (flags result result2 : Word) :
    (completeCmd s ring idx o flags result result2).fhp = s.fhp := by rw [completeCmd_frame]

@[simp] theorem completeCmd_cri (s : State) (ring : RingId) (idx : Word) (o : Outc) (flags result result2 : Word) :
    (completeCmd s ring idx o flags result result2).cri = s.cri := by rw [completeCmd_frame]

section
variable (ht : s.cri.tx = some t0) (hm : maskedNow s = some (k, i)) (hen : s.cri.en = true) (hp : s.lmp.pkg ≠ .deep)
  (hs : t0.started = true ∨ t0.timer = 0xFF)
include ht hm hen hp hs

/-- A piece of a transmission: the message sent, and what stays of the transmission. -/
theorem doSymbolTx_of_piece : doSymbolTx s =
      let t := withRef s t0 (bandOf s s.cri.txstrm)
      let s2 := txOut (takeFree s).2 s.cri.txstrm (txHeader (s.strm s.cri.txstrm) i s.cri.startprb.toNat (bandOf s s.cri.txstrm / 12)) (pieceBody s t)
      let first := if t.started then t.firstTick else symStart (s.strm s.cri.txstrm).num.toNat k i
      if t.total ≤ t.used + 1 then
        completeCmd (criTal { s2 with cri := { s2.cri with tx := none } } 8) t.ring t.idx .ok 0 first (BitVec.ofNat 32 (t.used + 1))
      else { s2 with cri := { s2.cri with tx := some { t with started := true, firstTick := first, used := t.used + 1 } } } := by
  unfold doSymbolTx
  rw [ht, hm]
  refine (if_neg ?_).trans rfl
  rintro (h | h | ⟨h1, h2, -⟩)
  · rw [hen] at h
    exact Bool.false_ne_true h.symm
  · exact hp h
  · rcases hs with hs | hs
    · rw [hs] at h1
      exact Bool.false_ne_true h1.symm
    · exact h2 hs

theorem doSymbolTx_sent : ∃ y, (doSymbolTx s).fhp.sent = some y ∧ y.strm = s.cri.txstrm ∧ y.at0 = s.tick ∧
    y.hdr = txHeader (s.strm s.cri.txstrm) i s.cri.startprb.toNat (bandOf s s.cri.txstrm / 12) := by
  rw [doSymbolTx_of_piece ht hm hen hp hs]
  dsimp only
  have hsent := txOut_sent (takeFree s).2 s.cri.txstrm (txHeader (s.strm s.cri.txstrm) i s.cri.startprb.toNat (bandOf s s.cri.txstrm / 12))
    (pieceBody s (withRef s t0 (bandOf s s.cri.txstrm)))
  generalize txOut (takeFree s).2 _ _ _ = u at hsent ⊢
  split
  · rw [completeCmd_fhp]
    exact ⟨_, hsent, rfl, rfl, rfl⟩
  · exact ⟨_, hsent, rfl, rfl, rfl⟩

theorem doSymbolTx_more (hmore : t0.used + 1 < t0.total) : ∃ z, (doSymbolTx s).cri.tx = some z ∧ z.used = t0.used + 1 ∧ z.started = true ∧
    z.firstTick = (if t0.started then t0.firstTick else symStart (s.strm s.cri.txstrm).num.toNat k i) ∧ z.payload = t0.payload := by
  obtain ⟨hdr, href⟩ := withRef_header s t0 (bandOf s s.cri.txstrm)
  rw [doSymbolTx_of_piece ht hm hen hp hs, href]
  dsimp only
  rw [if_neg (Nat.not_le.mpr hmore)]
  exact ⟨_, rfl, rfl, rfl, rfl, rfl⟩

theorem doSymbolTx_last (hlast : t0.total ≤ t0.used + 1) : (doSymbolTx s).cri.tx = none ∧ (doSymbolTx s).cmd t0.ring t0.idx = none := by
  obtain ⟨hdr, href⟩ := withRef_header s t0 (bandOf s s.cri.txstrm)
  rw [doSymbolTx_of_piece ht hm hen hp hs, href]
  dsimp only
  rw [if_pos hlast, completeCmd_cri, completeCmd_cmd_self]
  exact ⟨rfl, rfl⟩

end


end

/-! ### CRI_CTL and the reference (R372, R384, R389) -/

section
variable {s : State} {v : Word}

theorem getLsbD_zero_or_one (v : Word) : (v ||| 1).getLsbD 0 = true := by simp

theorem getLsbD_zero_and_not_one (v : Word) : (v &&& ~~~1).getLsbD 0 = false := by
  rw [BitVec.getLsbD_and]
  simp

theorem criCtlWrite_on (h : v.getLsbD 0 = true) : criCtlWrite false s v =
    if s.cri.en = false ∧ (criStreamOk s s.cri.rxstrm = false ∨ criStreamOk s s.cri.txstrm = false) then (.notPermitted, s)
    else noConflict false s (.ok, { s with cri :=
      { s.cri with en := true, fmode := v.getLsbD 1, txpilot := v.getLsbD 2, evfail := v.getLsbD 3 } }) := by
  unfold criCtlWrite
  dsimp only
  rw [if_pos h, h]

theorem criCtlWrite_off (h : v.getLsbD 0 = false) : criCtlWrite false s v =
    (.ok, criStop { s with cri := { s.cri with en := false, fmode := v.getLsbD 1, txpilot := v.getLsbD 2, evfail := v.getLsbD 3 } }) := by
  unfold criCtlWrite
  dsimp only
  rw [if_neg (by rw [h]; nofun), h]

/-- EN set by a write: the streams are checked unless the Crier runs already. -/
theorem criCtlWrite_enable (v : Word) : criCtlWrite false s (v ||| 1) =
    if s.cri.en = false ∧ (criStreamOk s s.cri.rxstrm = false ∨ criStreamOk s s.cri.txstrm = false) then (.notPermitted, s)
    else noConflict false s (.ok, { s with cri :=
      { s.cri with en := true, fmode := v.getLsbD 1, txpilot := v.getLsbD 2, evfail := v.getLsbD 3 } }) := by
  rw [criCtlWrite_on (getLsbD_zero_or_one v), getLsbD_or_one v (i := 1) (by decide), getLsbD_or_one v (i := 2) (by decide),
    getLsbD_or_one v (i := 3) (by decide)]

theorem criCtlWrite_disable (v : Word) : criCtlWrite false s (v &&& ~~~1) =
    (.ok, criStop { s with cri := { s.cri with en := false, fmode := v.getLsbD 1, txpilot := v.getLsbD 2, evfail := v.getLsbD 3 } }) := by
  rw [criCtlWrite_off (getLsbD_zero_and_not_one v), getLsbD_and_not_one v (i := 1) (by decide), getLsbD_and_not_one v (i := 2) (by decide),
    getLsbD_and_not_one v (i := 3) (by decide)]

theorem criStop_of_quiet (htx : s.cri.tx = none) (hrx : s.cri.rx = .idle ∨ s.cri.rx = .search) :
    criStop s = { s with cri := { s.cri with rx := .idle, pkt := CriPkt.reset } } := by
  unfold criStop criCancelTx
  rw [criRxTo_of_quiet hrx]
  dsimp only
  rw [htx]

/-- EN cleared by a write while nothing is received or sent. -/
theorem criCtlWrite_disable_of_quiet (v : Word) (htx : s.cri.tx = none) (hrx : s.cri.rx = .idle ∨ s.cri.rx = .search) {off : Cri}
    (hoff : { s.cri with en := false, fmode := v.getLsbD 1, txpilot := v.getLsbD 2, evfail := v.getLsbD 3 } = off) :
    criCtlWrite false s (v &&& ~~~1) = (.ok, { s with cri := { off with rx := .idle, pkt := CriPkt.reset } }) := by
  have hotx : off.tx = none := by rw [← hoff]; exact htx
  have horx : off.rx = .idle ∨ off.rx = .search := by rw [← hoff]; exact hrx
  rw [criCtlWrite_disable, hoff, criStop_of_quiet (s := { s with cri := off }) hotx horx]

theorem criEvent_frame (s : State) (reason slot len metric table : Nat) : criEvent s reason slot len metric table =
    { s with hif := (criEvent s reason slot len metric table).hif, tally := (criEvent s reason slot len metric table).tally } := by
  unfold criEvent
  split
  · exact pushEvent_frame _ _ _ _ _ _
  · rfl

/-- The slots of TYPE CRIER follow REFVALID. -/
theorem refSlots_csrc (s : State) : SlotsOnly s (refSlots s) ∧
    ∀ i, (refSlots s).csrc i = if (s.csrc i).en = true ∧ (s.csrc i).typ = 6 then (s.csrc i).setValid s.cycle s.cri.refvalid else s.csrc i :=
  foldl_slotsWhere (P := fun x => x.en = true ∧ x.typ = 6) (y := fun t x => x.setValid t.cycle s.cri.refvalid) (fun t x ht => by rw [ht])

end

theorem SlotsOnly.cri {s t : State} (h : SlotsOnly s t) : t.cri = s.cri := by
  unfold SlotsOnly at h
  rw [h]

@[simp] theorem criEvent_cri (s : State) (reason slot len metric table : Nat) : (criEvent s reason slot len metric table).cri = s.cri := by
  rw [criEvent_frame]

@[simp] theorem criEvent_csrc (s : State) (reason slot len metric table : Nat) (i : BitVec 3) :
    (criEvent s reason slot len metric table).csrc i = s.csrc i := by
  rw [criEvent_frame]
  rfl

theorem doRefExpiry_of_expired {s : State} (hv : s.cri.refvalid = true) (hexp : s.cri.hold.toNat * rootHz ≤ s.cycle - s.cri.refAt) :
    (doRefExpiry s).cri = { s.cri with refvalid := false } ∧
      ∀ i, (s.csrc i).en = true → (s.csrc i).typ = 6 → ((doRefExpiry s).csrc i).valid = false := by
  obtain ⟨honly, hslots⟩ := refSlots_csrc { s with cri := { s.cri with refvalid := false } }
  have he : doRefExpiry s = criEvent (refSlots { s with cri := { s.cri with refvalid := false } }) 8 0 0 0 0 := if_pos ⟨hv, hexp⟩
  refine ⟨?_, fun i hen htyp => ?_⟩
  · rw [he, criEvent_cri, honly.cri]
  · rw [he, criEvent_csrc, hslots, if_pos ⟨hen, htyp⟩]
    rfl

/-- Settles O56: the receiver by its state and the symbol, a transmission by its next piece, CRI_CTL by EN. -/
theorem crierCommands : Obligations.CrierCommands := by
  unfold Obligations.CrierCommands
  intro s p o m gain at0 h foff b who v c count fresh begun failed hd d all rcv
  have hrcv (x : CriObs) (t : State) (ht : doSymbolRx s p x = t) : rcv x = .next t := congrArg Host.Outcome.next ht
  refine ⟨fun hoff => ?off, fun hen hrx => ?quiet, fun hen hrx => ⟨fun hlow => ?belowThreshold, fun hthr => ?preamble⟩,
    fun hen hev hrx => ⟨fun hcap => ?capture, fun hcap => ?noCapture⟩, fun hen hrx => ⟨?chirpsFound, ?chirpsLost⟩,
    fun hen hev hrx => ⟨fun hcrc => ?badCrc, fun hcrc htab => ?badHeader, fun tb hcrc htab => ?header⟩,
    fun hen hev hrx => ⟨fun hmore => ?payloadMore, fun hlast hbad => ?payloadBad, fun hlast hok href hfull => ?payloadFull⟩, fun hno => ?noTx,
    fun t0 k i ht hm hen hp hs => ?tx, fun ho => ?slotFree, fun ho => ?control, fun hv => ⟨fun hheld => ?held, fun hexp => ?expired⟩, fun hv => ?notValid⟩
  case off => exact hrcv o _ (doSymbolRx_of_off hoff)
  case quiet => exact hrcv .quiet _ (doSymbolRx_search hen hrx)
  case belowThreshold => exact hrcv _ _ ((doSymbolRx_search hen hrx).trans (if_neg (Nat.not_le.mpr hlow)))
  case preamble => exact ⟨_, hrcv _ _ ((doSymbolRx_search hen hrx).trans (if_pos hthr)), rfl, rfl, rfl, rfl, rfl⟩
  case capture =>
    refine hrcv _ _ ((doSymbolRx_preamble hen hrx).trans ((if_pos (decide_eq_true hcap)).trans ?_))
    exact capture_of_silent hev
  case noCapture =>
    refine hrcv _ _ ((doSymbolRx_preamble hen hrx).trans (if_neg ?_))
    rw [captures, decide_eq_false (Nat.not_lt.mpr hcap)]
    exact Bool.false_ne_true
  case chirpsFound => exact hrcv _ _ (doSymbolRx_chirps hen hrx true)
  case chirpsLost => exact hrcv _ _ (doSymbolRx_chirps hen hrx false)
  case badCrc =>
    exact ⟨_, hrcv _ _ ((doSymbolRx_header hen hrx).trans (takeHeader_eq.trans ((if_pos hcrc).trans
      (failPkt_of_silent (by exact hev) ⟨by decide, by decide, by decide⟩)))), rfl, rfl, rfl⟩
  case badHeader =>
    exact ⟨_, hrcv _ _ ((doSymbolRx_header hen hrx).trans ((takeHeader_of_noTable hcrc htab).trans
      (failPkt_of_silent (by exact hev) ⟨by decide, by decide, by decide⟩))), rfl, rfl⟩
  case header => exact hrcv _ _ ((doSymbolRx_header hen hrx).trans (takeHeader_of_table hcrc htab))
  case payloadMore =>
    exact ⟨_, hrcv _ _ ((doSymbolRx_payload hen hrx).trans (takePayload_eq.trans (if_pos hmore))), rfl, rfl, hrx, rfl⟩
  case payloadBad =>
    exact ⟨_, hrcv _ _ ((doSymbolRx_payload hen hrx).trans (takePayload_eq.trans ((if_neg (Nat.not_lt.mpr hlast)).trans ((if_pos hbad).trans
      (failPkt_of_silent (by exact hev) ⟨by decide, by decide, by decide⟩))))), rfl, rfl⟩
  case payloadFull =>
    exact ⟨_, hrcv _ _ ((doSymbolRx_payload hen hrx).trans (takePayload_of_full hev href hfull hlast hok)), rfl, rfl⟩
  case noTx => exact congrArg Host.Outcome.next (doSymbolTx_of_idle hno)
  case tx =>
    exact ⟨_, rfl, doSymbolTx_sent ht hm hen hp hs, doSymbolTx_more ht hm hen hp hs, doSymbolTx_last ht hm hen hp hs⟩
  case slotFree => exact congrArg Host.Outcome.next (regCmd_of_open ho _)
  case control =>
    intro on off
    have hctl (u : Word) (x : Outc × State) (hx : criCtlWrite false s u = x) :
        Host.Outcome.next (φ := Fault) (ρ := Refusal) (regCmd s who (criBase + 4) (fun t => wrAnswer (criCtlWrite false t u))) = x.2.ends x.1 := by
      rw [regCmd_of_open ho, hx]
      rfl
    refine ⟨fun hen hbad => ?_, fun hfit hc => ?_, fun htx hrx => ?_⟩
    · exact hctl _ (.notPermitted, s) ((criCtlWrite_enable v).trans (if_pos ⟨hen, hbad⟩))
    · refine hctl _ (.ok, { s with cri := on }) ((criCtlWrite_enable v).trans ((if_neg ?_).trans (noConflict_of_none hc)))
      rintro ⟨hen, hbad⟩
      rcases hfit with hfit | ⟨h1, h2⟩
      · exact Bool.false_ne_true (hen.symm.trans hfit)
      · rcases hbad with hb | hb
        · exact Bool.false_ne_true (hb.symm.trans h1)
        · exact Bool.false_ne_true (hb.symm.trans h2)
    · exact hctl _ _ (criCtlWrite_disable_of_quiet v htx hrx (off := off) rfl)
  case held => exact congrArg Host.Outcome.next (if_neg (fun hh => absurd hh.2 (Nat.not_le.mpr hheld)))
  case expired =>
    exact ⟨_, rfl, doRefExpiry_of_expired hv hexp⟩
  case notValid => exact congrArg Host.Outcome.next (if_neg (fun hh => Bool.false_ne_true (hv.symm.trans hh.1)))

end Sys2Proof.Machine
end

section
/-! The Clockmaker's commands (O52), one group of lemmas for each: selection and states, measurements, event timers, PPS, snapshots and pulses. -/

namespace Sys2Proof.Machine

theorem timeEvent_frame (s : State) (reason b1 : Nat) :
    timeEvent s reason b1 = { s with hif := (timeEvent s reason b1).hif, tally := (timeEvent s reason b1).tally } :=
  pushEvent_frame _ _ _ _ _ _

@[simp] theorem timeEvent_cmk (s : State) (reason b1 : Nat) : (timeEvent s reason b1).cmk = s.cmk := by rw [timeEvent_frame]

@[simp] theorem timeEvent_cycle (s : State) (reason b1 : Nat) : (timeEvent s reason b1).cycle = s.cycle := by rw [timeEvent_frame]

section
variable {s t : State}

/-! ### Selection and states (R335, R338) -/

/-- The state with the best sources selected. -/
def selected (s : State) : State := { s with cmk := { s.cmk with tsrc := bestSrc s true s.cmk.tsrc, fsrc := bestSrc s false s.cmk.fsrc } }

/-- The state with other sources selected than before: counted, with its event. -/
def switchedTo (s : State) : State := timeEvent (tallyAdd (selected s) (cmkBase + 0x2000) 1) 4 s.cmk.st.code

theorem switchedTo_cmk (s : State) : (switchedTo s).cmk = (selected s).cmk := timeEvent_cmk _ _ _

theorem selectSources_eq (hen : s.cmk.en = true) : selectSources s =
    stateAfterSel (if bestSrc s true s.cmk.tsrc != s.cmk.tsrc || bestSrc s false s.cmk.fsrc != s.cmk.fsrc then switchedTo s else selected s)
      s.cmk.tsrc.isSome (bestSrc s true s.cmk.tsrc != s.cmk.tsrc || bestSrc s false s.cmk.fsrc != s.cmk.fsrc) :=
  if_neg (by rw [hen]; nofun)

theorem selectSources_of_same (hen : s.cmk.en = true) (ht : bestSrc s true s.cmk.tsrc = s.cmk.tsrc) (hf : bestSrc s false s.cmk.fsrc = s.cmk.fsrc) :
    selectSources s = stateAfterSel (selected s) s.cmk.tsrc.isSome false := by
  have hc : (bestSrc s true s.cmk.tsrc != s.cmk.tsrc || bestSrc s false s.cmk.fsrc != s.cmk.fsrc) = false := by simp [ht, hf]
  rw [selectSources_eq hen, hc]
  rfl

theorem selectSources_of_change (hen : s.cmk.en = true) (h : bestSrc s true s.cmk.tsrc ≠ s.cmk.tsrc ∨ bestSrc s false s.cmk.fsrc ≠ s.cmk.fsrc) :
    selectSources s = stateAfterSel (switchedTo s) s.cmk.tsrc.isSome true := by
  have hc : (bestSrc s true s.cmk.tsrc != s.cmk.tsrc || bestSrc s false s.cmk.fsrc != s.cmk.fsrc) = true := by simpa using h
  rw [selectSources_eq hen, hc]
  rfl

theorem stateAfterSel_stay (hst : t.cmk.st = .locked ∨ t.cmk.st = .acquiring) (hany : (t.cmk.tsrc.isSome || t.cmk.fsrc.isSome) = true) (h : Bool) :
    stateAfterSel t h false = t := by
  unfold stateAfterSel
  dsimp only
  rw [hany]
  rcases hst with hst | hst <;> rw [hst] <;> rfl

theorem stateAfterSel_acquire (hst : t.cmk.st = .freerun ∨ t.cmk.st = .locked ∨ t.cmk.st = .holdover)
    (hany : (t.cmk.tsrc.isSome || t.cmk.fsrc.isSome) = true) (h : Bool) : stateAfterSel t h true = enterState t .acquiring := by
  unfold stateAfterSel
  dsimp only
  rw [hany]
  rcases hst with hst | hst | hst <;> rw [hst] <;> rfl

theorem stateAfterSel_lost (hst : t.cmk.st = .locked) (hany : (t.cmk.tsrc.isSome || t.cmk.fsrc.isSome) = false) (h c : Bool) :
    stateAfterSel t h c =
      enterState { freeFoff t with cmk := { (freeFoff t).cmk with hospec := true, hoSince := t.cycle, hoFromTime := h } } .holdover := by
  unfold stateAfterSel
  dsimp only
  rw [hany, hst]
  rfl

theorem stateAfterSel_freerun (hst : t.cmk.st = .acquiring) (hany : (t.cmk.tsrc.isSome || t.cmk.fsrc.isSome) = false) (h c : Bool) :
    stateAfterSel t h c = enterState t .freerun := by
  unfold stateAfterSel
  dsimp only
  rw [hany, hst]
  rfl

theorem enterState_holdover (t : State) : (enterState t .holdover).cmk = { t.cmk with st := .holdover, good := 0 } := timeEvent_cmk _ _ _

theorem enterState_locked (t : State) : (enterState t .locked).cmk = { t.cmk with st := .locked, good := 0 } := timeEvent_cmk _ _ _

/-- The loss of every source in LOCKED. -/
theorem selectSources_of_lost (hen : s.cmk.en = true) (hsome : s.cmk.tsrc.isSome = true) (ht : bestSrc s true s.cmk.tsrc = none)
    (hf : bestSrc s false s.cmk.fsrc = none) (hst : s.cmk.st = .locked) : ∃ x : Cmk, (selectSources s).cmk =
      { x with st := .holdover, good := 0, hospec := true, hoSince := s.cycle, hoFromTime := true, tsrc := none, fsrc := none } := by
  have hne : bestSrc s true s.cmk.tsrc ≠ s.cmk.tsrc := by
    intro h
    rw [← h, ht] at hsome
    exact Bool.false_ne_true hsome
  have hcmk : (switchedTo s).cmk = { s.cmk with tsrc := none, fsrc := none } := by
    rw [switchedTo_cmk, selected, ht, hf]
  have hcycle : (switchedTo s).cycle = s.cycle := timeEvent_cycle _ _ _
  refine ⟨(freeFoff (switchedTo s)).cmk, ?_⟩
  rw [selectSources_of_change hen (.inl hne), stateAfterSel_lost (by rw [hcmk]; exact hst) (by rw [hcmk]; rfl), enterState_holdover, hcycle, hsome]
  unfold freeFoff takeFree
  dsimp only
  rw [hcmk]

/-! ### Sources (R333, R334) -/

theorem doValidity_of_carried {c : SrcChange} (hen : (s.csrc c.slot).en = true)
    (ht : (s.csrc c.slot).typ = 1 ∨ (s.csrc c.slot).typ = 2 ∨ (s.csrc c.slot).typ = 5) : doValidity s c =
      s.setCsrc c.slot { s.csrc c.slot with
        valid := c.valid
        since := if c.valid = true ∧ (s.csrc c.slot).valid = false then s.cycle else (s.csrc c.slot).since
        ql := if (s.csrc c.slot).typ = 5 then c.ql else (s.csrc c.slot).qlcfg } := by
  have hcan : srcCan s (s.csrc c.slot) = true := by
    unfold srcCan
    rcases ht with ht | ht | ht <;> rw [ht] <;> rfl
  have hranked : rankedType (s.csrc c.slot).typ = decide ((s.csrc c.slot).typ = 5) := by rcases ht with ht | ht | ht <;> rw [ht] <;> rfl
  have hown : ¬ ((s.csrc c.slot).typ = 6 ∨ (s.csrc c.slot).typ = 7) := by rcases ht with ht | ht | ht <;> rw [ht] <;> decide
  unfold doValidity
  dsimp only
  rw [if_neg (by rw [hen]; nofun), if_neg hown, hcan, hranked, Bool.and_true]
  unfold ClkSrc.setValid
  simp only [decide_eq_true_eq]

/-! ### Measurements (R336, R338, R339) -/

/-- The state behind the time step of a measurement. -/
def steppedTo (u : State) : State := { u with cmk := { u.cmk with pherr := 0, good := 0 } }

section
variable {i : BitVec 3} {phase : BitVec 64} {ppb : BitVec 32} (hen : s.cmk.en = true) (hsrc : s.cmk.tsrc = some i)
include hen hsrc

theorem measureStep_of_step (hst : s.cmk.st = .acquiring) (ha : s.cmk.autostep = true) (he : 4 * s.cmk.stepthr.toNat < (phaseError s i phase).natAbs)
    {u : State} (hu : stepTime { s with cmk := { s.cmk with pherr := BitVec.ofInt 32 (phaseError s i phase) } }
      ((s.units : Int) + phaseError s i phase * 16384).toNat = u) :
    measureStep s i phase ppb = steppedTo u := by
  refine (if_neg (by rw [hen]; nofun)).trans ((if_pos hsrc).trans ((if_pos ⟨hst, ha, he⟩).trans ?_))
  exact congrArg steppedTo hu

/-- A measurement that steps no time: the phase error stands in the state, the rest but the loop's offset as before. -/
theorem measureStep_of_noStep (hno : ¬ (s.cmk.st = .acquiring ∧ s.cmk.autostep = true ∧ 4 * s.cmk.stepthr.toNat < (phaseError s i phase).natAbs)) :
    ∃ (u : State) (foff : Word), u.cmk = { s.cmk with pherr := BitVec.ofInt 32 (phaseError s i phase), foff := foff } ∧
      measureStep s i phase ppb = goodMeasure u (decide ((phaseError s i phase).natAbs < s.cmk.lockthr.toNat)) := by
  have hstep := (if_neg (by rw [hen]; nofun)).trans ((if_pos hsrc).trans (if_neg hno)) (a := measureStep s i phase ppb)
  refine ⟨_, ?_, ?_, hstep⟩
  · exact (if s.cmk.fsrc.isSome ∧ (s.csrc (s.cmk.fsrc.getD 0)).typ = 7 then s else freeFoff s).cmk.foff
  · split <;> rfl

end

theorem goodMeasure_of_other (hst : s.cmk.st ≠ .acquiring) (ok : Bool) : goodMeasure s ok = s := if_pos hst

theorem goodMeasure_of_good (hst : s.cmk.st = .acquiring) : goodMeasure s true =
    if 16 ≤ s.cmk.good + 1 then enterState s .locked else { s with cmk := { s.cmk with good := s.cmk.good + 1 } } :=
  (if_neg (not_not_intro hst)).trans (if_neg Bool.true_eq_false.mp)

theorem units_of_cmk {u : State} {p : Word} {f : Word} {g : Nat} {st : ClockState} (h : u.cmk = { s.cmk with pherr := p, foff := f, st := st, good := g }) :
    u.units = s.units := by
  unfold State.units State.nowNs
  rw [h]

end

end Sys2Proof.Machine
end

section
/-! Event timers, PPS outputs, snapshots and slot pulses (O52). -/

namespace Sys2Proof.Machine

section
variable {s : State} {t : TimerId} {who : Initiator} {v : Word} {n : Bool}

/-! ### Event timers (R342, R343) -/

theorem State.setTmr_setTmr_tmr (s : State) (t : TimerId) (x : Tmr) : (s.setTmr t x).tmr t = x := by
  rw [State.setTmr_tmr, if_pos rfl]

/-- A timer that fires on time without an event. -/
theorem fireTimer_of_silent (hsk : (s.tmr t).skipped = false) (hev : (s.tmr t).evt = false) : fireTimer s t false =
    (timerOut s t (s.tmr t)).setTmr t { (if (s.tmr t).periodic ∧ (s.tmr t).period ≠ 0 then
        { s.tmr t with inst := unitsTs ((s.tmr t).due + periodUnits (s.tmr t).period), skipped := decide ((s.tmr t).due + periodUnits (s.tmr t).period < s.units) }
      else { s.tmr t with armed := false, owner := .free, skipped := false }) with late := (s.tmr t).late } := by
  unfold fireTimer
  dsimp only
  rw [hsk, hev, Bool.or_false]
  rfl

theorem timerOut_of_none {x : Tmr} (ho : x.owner ≠ .pps) (hs : x.outsel = 0) : timerOut s t x = s := by
  unfold timerOut
  rw [if_neg ho, hs]
  rfl

theorem timerOut_of_line {x : Tmr} (ho : x.owner ≠ .pps) (hs : x.outsel = 3) :
    timerOut s t x = { s with gpo := { s.gpo with lines := s.gpo.lines ^^^ BitVec.ofNat 16 (2 ^ x.line.toNat) } } := by
  unfold timerOut
  rw [if_neg ho, hs]
  rfl

theorem doTimerFire_of_due (ha : (s.tmr t).armed = true) (hd : (s.tmr t).due ≤ s.units) (hp : s.lmp.pkg ≠ .deep) :
    doTimerFire s t = fireTimer s t false :=
  if_pos ⟨ha, hd, hp⟩

theorem slice_or_one (v : Word) {lo w : Nat} (h : 1 ≤ lo) : slice (v ||| 1) lo w = slice v lo w := by
  refine BitVec.eq_of_getLsbD_eq (fun i hi => ?_)
  rw [slice_eq_extractLsb', slice_eq_extractLsb', BitVec.getLsbD_extractLsb', BitVec.getLsbD_extractLsb', getLsbD_or_one v (by omega)]

theorem slice_and_not_one (v : Word) {lo w : Nat} (h : 1 ≤ lo) : slice (v &&& ~~~1) lo w = slice v lo w := by
  refine BitVec.eq_of_getLsbD_eq (fun i hi => ?_)
  rw [slice_eq_extractLsb', slice_eq_extractLsb', BitVec.getLsbD_extractLsb', BitVec.getLsbD_extractLsb', getLsbD_and_not_one v (by omega)]

theorem bits_eq_slice (v : Word) (lo w : Nat) : bits v.toNat lo w = (slice v lo w : BitVec w).toNat := by
  exact (toNat_slice v lo w).symm

theorem tmrCfgSet_or_one (x : Tmr) (v : Word) : tmrCfgSet x (v ||| 1) = { tmrCfgSet x v with armBit := true } := by
  unfold tmrCfgSet
  rw [bits_eq_slice, bits_eq_slice, slice_or_one v (by decide), slice_or_one v (by decide), getLsbD_zero_or_one,
    getLsbD_or_one v (by decide), getLsbD_or_one v (by decide)]

theorem tmrCfgSet_and_not_one (x : Tmr) (v : Word) : tmrCfgSet x (v &&& ~~~1) = { tmrCfgSet x v with armBit := false } := by
  unfold tmrCfgSet
  rw [bits_eq_slice, bits_eq_slice, slice_and_not_one v (by decide), slice_and_not_one v (by decide), getLsbD_zero_and_not_one,
    getLsbD_and_not_one v (by decide), getLsbD_and_not_one v (by decide)]

theorem tmrCfgWrite_of_other (h1 : (s.tmr t).owner ≠ .free) (h2 : (s.tmr t).owner ≠ .host) (v : Word) : tmrCfgWrite false s t v = (.conflict, s) :=
  if_pos ⟨h1, h2⟩

/-- The timer armed for the host by a write. -/
def armedTmr (s : State) (t : TimerId) (v : Word) : Tmr :=
  { tmrCfgSet (s.tmr t) v with armBit := true, armed := true, owner := .host, skipped := decide (tsUnits (s.tmr t).inst < s.units) }

section
variable (ho : (s.tmr t).owner = .free ∨ (s.tmr t).owner = .host)
include ho

theorem tmrCfgWrite_arm (v : Word) : tmrCfgWrite false s t (v ||| 1) =
    if (lineClash (s.setTmr t (armedTmr s t v))).isSome ∧ lineClash (s.setTmr t (armedTmr s t v)) ≠ lineClash s then (.conflict, s)
    else (.ok, s.setTmr t (armedTmr s t v)) := by
  have hown : ¬ ((s.tmr t).owner ≠ .free ∧ (s.tmr t).owner ≠ .host) := by
    rintro ⟨h1, h2⟩
    exact ho.elim h1 h2
  have harm : armTimer false s t .host { tmrCfgSet (s.tmr t) v with armBit := true } =
      if false = false ∧ (lineClash (s.setTmr t (armedTmr s t v))).isSome ∧ lineClash (s.setTmr t (armedTmr s t v)) ≠ lineClash s then none
      else some (s.setTmr t (armedTmr s t v)) := if_neg hown
  unfold tmrCfgWrite
  dsimp only
  rw [if_neg hown, tmrCfgSet_or_one]
  refine (if_pos rfl).trans ?_
  rw [harm]
  by_cases hc : (lineClash (s.setTmr t (armedTmr s t v))).isSome ∧ lineClash (s.setTmr t (armedTmr s t v)) ≠ lineClash s
  · rw [if_pos hc, if_pos ⟨rfl, hc⟩]
  · rw [if_neg hc, if_neg (fun h => hc h.2)]

theorem tmrCfgWrite_disarm (v : Word) : ∃ w : State, tmrCfgWrite false s t (v &&& ~~~1) = (.ok, w) ∧
    w.tmr t = { tmrCfgSet (s.tmr t) v with armBit := false, armed := false, owner := .free, skipped := false } := by
  have hown : ¬ ((s.tmr t).owner ≠ .free ∧ (s.tmr t).owner ≠ .host) := by
    rintro ⟨h1, h2⟩
    exact ho.elim h1 h2
  refine ⟨freeTimer (s.setTmr t (tmrCfgSet (s.tmr t) (v &&& ~~~1))) t, (if_neg hown).trans (if_neg ?_), ?_⟩
  · rw [tmrCfgSet_and_not_one]
    exact Bool.false_ne_true
  · unfold freeTimer
    rw [State.setTmr_setTmr_tmr, State.setTmr_setTmr_tmr, tmrCfgSet_and_not_one]

end

/-! ### PPS (R344, R484) -/

/-- A PPS output enabled by a write. -/
def ppsOn (p : Pps) (v : Word) : Pps :=
  { p with en := true, timer := slice v 1 6, pol := v.getLsbD 7, width := keepIf (slice v 8 16 == (0 : BitVec 16)) p.width (slice v 8 16) }

theorem ppsWrite_on (s : State) (n : Bool) (v : Word) : ppsWrite false s n (v ||| 1) =
    if ((s.pps (!n)).en && (s.pps (!n)).timer == slice v 1 6) = true then (.notPermitted, s)
    else (.ok, ppsTake ((if (s.pps n).en ∧ (s.tmr (s.pps n).timer).owner = .pps then freeTimer s (s.pps n).timer else s).setPps n (ppsOn (s.pps n) v)) n) := by
  unfold ppsWrite ppsOn
  dsimp only
  rw [slice_or_one v (by decide), slice_or_one v (by decide), getLsbD_zero_or_one, getLsbD_or_one v (by decide), Bool.not_false, Bool.true_and, Bool.true_and]
  rfl

theorem State.setPps_pps (s : State) (n : Bool) (p : Pps) : (s.setPps n p).pps n = p := by cases n <;> rfl

theorem State.setPps_tmr (s : State) (n : Bool) (p : Pps) (t : TimerId) : (s.setPps n p).tmr t = s.tmr t := by cases n <;> rfl

theorem State.setPps_units (s : State) (n : Bool) (p : Pps) : (s.setPps n p).units = s.units := by cases n <;> rfl

/-- A free timer taken by a PPS output. -/
def ppsTmr (s : State) (p : Pps) : Tmr :=
  { s.tmr p.timer with armBit := true, armed := true, periodic := true, period := 1000000000, owner := .pps, skipped := false,
                       inst := unitsTs (ppsInstant p.off s.units) }

theorem ppsTake_of_free {p : Pps} (hp : s.pps n = p) (h : (s.tmr p.timer).owner = .free) : ppsTake s n = s.setTmr p.timer (ppsTmr s p) := by
  unfold ppsTake ppsTmr
  dsimp only
  rw [hp, h]
  refine (if_neg Bool.false_ne_true).trans ?_
  rw [if_neg (by decide), show ((TmrOwner.free != .free) && (TmrOwner.free != .pps)) = false from rfl, Bool.or_false]

theorem ppsTake_setPps {p : Pps} (h : (s.tmr p.timer).owner = .free) : ppsTake (s.setPps n p) n = (s.setPps n p).setTmr p.timer (ppsTmr s p) := by
  rw [ppsTake_of_free (State.setPps_pps s n p) (by rw [State.setPps_tmr]; exact h), ppsTmr, State.setPps_tmr, State.setPps_units]
  rfl

/-! ### Snapshots and pulses (R332, R351) -/

theorem snapWrite_of_clear (h : v.getLsbD 0 = false) : snapWrite s v = s := if_neg (by rw [h]; nofun)

theorem snapWrite_of_set (h : v.getLsbD 0 = true) : ∃ c : Cmk, snapWrite s v = { s with cmk := c } ∧ c.snap0.toNat = s.cmk.sec % 2 ^ 32 ∧
    c.snap1.toNat = s.cmk.sec / 2 ^ 32 % 2 ^ 16 + 2 ^ 16 * (s.cmk.frac % 2 ^ 16) ∧ c.snap2.toNat = s.cmk.ns % 2 ^ 32 ∧ c.snap3 = s.tick := by
  refine ⟨_, if_pos h, ?_, ?_, ?_, rfl⟩
  · rw [toNat_slice]
    simp only [State.now, bits, BitVec.toNat_ofNat]
    omega
  · simp only [State.now, packLE, bits, BitVec.toNat_ofNat]
    omega
  · exact BitVec.toNat_ofNat _ _

theorem doSlotPulse_of_now {num : BitVec 3} (hn : num.toNat ≤ 4) (hp : s.lmp.pkg = .run)
    (h : s.cmk.ns % (1000000 / 2 ^ num.toNat) * 65536 + s.cmk.frac < 133334) : doSlotPulse s num =
      { s with cmk := { s.cmk with pulses := sput 0 s.cmk.pulses num.toNat (pulseMark s num.toNat) } } :=
  if_pos ⟨hn, by rw [pulseNow, hp]; exact Bool.and_eq_true_iff.mpr ⟨decide_eq_true h, rfl⟩⟩

end

/-- Settles O52: each command by the lemma of its branch. -/
theorem clockCommands : Obligations.ClockCommands := by
  unfold Obligations.ClockCommands
  intro s i phase ppb c t who v n k tsel fsel s1 switched x e y set
  have hany (h : tsel.isSome = true ∨ fsel.isSome = true) : (tsel.isSome || fsel.isSome) = true := Bool.or_eq_true_iff.mpr h
  refine ⟨fun hen => ?off, fun hen ht hf hst hs => ?same, fun hen hne hs hst => ?switch, fun hen hsome ht hf hst => ?lost,
    fun hen hsome ht hf hst => ?freerun, fun hen htyp => ?validity, fun hen => ?noSlot, fun hen hsrc => ⟨fun hst ha he => ?step, fun hst => ?noted,
    fun hst he hl => ?measured⟩, fun hst hh => ⟨fun hd => ?expired, fun hd => ?inSpec⟩, fun ha hd hp hsk hev => ⟨fun hper ho hs => ?oneShot,
    fun hper h0 ho hs => ?periodic⟩, fun hno => ?notDue, fun hopen => ⟨fun h1 h2 => ?otherOwner, fun ho => ?armed⟩, ?pps, fun hopen => ⟨fun hv => ?noSnap,
    fun hv => ?snap⟩, ?pulse⟩
  case off => exact congrArg Host.Outcome.next (if_pos hen)
  case same => exact congrArg Host.Outcome.next ((selectSources_of_same hen ht hf).trans (stateAfterSel_stay (t := selected s) hst (hany hs) _))
  case switch =>
    have hcmk := switchedTo_cmk s
    refine congrArg Host.Outcome.next ((selectSources_of_change hen hne).trans (stateAfterSel_acquire ?_ ?_ _))
    · rw [hcmk]
      exact hst
    · rw [hcmk]
      exact hany hs
  case lost =>
    obtain ⟨z, hz⟩ := selectSources_of_lost hen hsome ht hf hst
    refine ⟨_, rfl, ?_⟩
    rw [hz]
    exact ⟨rfl, rfl, rfl, rfl, rfl, rfl⟩
  case freerun =>
    have hcmk := switchedTo_cmk s
    have hne : bestSrc s true s.cmk.tsrc ≠ s.cmk.tsrc ∨ bestSrc s false s.cmk.fsrc ≠ s.cmk.fsrc := by
      refine hsome.imp (fun h heq => ?_) (fun h heq => ?_)
      · rw [← heq, show bestSrc s true s.cmk.tsrc = none from ht] at h
        exact Bool.false_ne_true h
      · rw [← heq, show bestSrc s false s.cmk.fsrc = none from hf] at h
        exact Bool.false_ne_true h
    refine congrArg Host.Outcome.next ((selectSources_of_change hen hne).trans (stateAfterSel_freerun ?_ ?_ _ _))
    · rw [hcmk]
      exact hst
    · rw [hcmk]
      exact Bool.or_eq_false_iff.mpr ⟨congrArg Option.isSome ht, congrArg Option.isSome hf⟩
  case validity => exact congrArg Host.Outcome.next (doValidity_of_carried hen htyp)
  case noSlot => exact congrArg Host.Outcome.next (if_pos hen)
  case step => exact congrArg Host.Outcome.next (measureStep_of_step hen hsrc hst ha he rfl)
  case noted =>
    obtain ⟨u, foff, hu, hm⟩ := measureStep_of_noStep (phase := phase) (ppb := ppb) hen hsrc (fun h => hst h.1)
    rw [goodMeasure_of_other (by rw [hu]; exact hst)] at hm
    exact ⟨u, congrArg Host.Outcome.next hm, by rw [hu], by rw [hu], units_of_cmk hu⟩
  case measured =>
    obtain ⟨u, foff, hu, hm⟩ := measureStep_of_noStep (phase := phase) (ppb := ppb) hen hsrc (fun h => absurd h.2.2 (Nat.not_lt.mpr he))
    have hust : u.cmk.st = .acquiring := by rw [hu]; exact hst
    have hgood : u.cmk.good = k.good := by rw [hu]
    rw [decide_eq_true hl, goodMeasure_of_good hust, hgood] at hm
    by_cases h16 : 16 ≤ k.good + 1
    · have hw := (enterState_locked u).trans (congrArg (fun z : Cmk => { z with st := .locked, good := 0 }) hu)
      refine ⟨_, congrArg Host.Outcome.next (hm.trans (if_pos h16)), ?_, units_of_cmk hw, fun h => absurd h16 (Nat.not_le.mpr h), fun _ => ?_⟩
      · rw [hw]
      · rw [hw]
    · refine ⟨_, congrArg Host.Outcome.next (hm.trans (if_neg h16)), ?_, ?_, fun _ => ⟨rfl, hust⟩, fun h => absurd h h16⟩
      · exact congrArg Cmk.pherr hu
      · exact units_of_cmk (g := k.good + 1) (congrArg (fun z : Cmk => { z with good := k.good + 1 }) hu)
  case expired => exact congrArg Host.Outcome.next (if_pos ⟨hst, hh, hd⟩)
  case inSpec => exact congrArg Host.Outcome.next (if_neg (fun h => absurd h.2.2 (Nat.not_le.mpr hd)))
  case oneShot =>
    refine congrArg Host.Outcome.next ((doTimerFire_of_due ha hd hp).trans ((fireTimer_of_silent hsk hev).trans ?_))
    rw [timerOut_of_none ho hs, if_neg (fun h => Bool.false_ne_true (hper.symm.trans h.1))]
  case periodic =>
    refine congrArg Host.Outcome.next ((doTimerFire_of_due ha hd hp).trans ((fireTimer_of_silent hsk hev).trans ?_))
    rw [timerOut_of_line ho hs, if_pos ⟨hper, h0⟩]
    rfl
  case notDue =>
    refine congrArg Host.Outcome.next (if_neg (fun h => ?_))
    rcases hno with hno | hno
    · exact Bool.false_ne_true (hno.symm.trans h.1)
    · exact absurd h.2.1 (Nat.not_le.mpr hno)
  case otherOwner =>
    have hcmd (u : Word) : Host.Outcome.next (φ := Fault) (ρ := Refusal) (regCmd s who (tmrPa t 0) (fun z => wrAnswer (tmrCfgWrite false z t u))) =
        s.ends .conflict := by
      rw [regCmd_of_open (by exact hopen), tmrCfgWrite_of_other h1 h2]
      rfl
    exact ⟨hcmd _, hcmd _⟩
  case armed =>
    intro u
    have hcmd (w : Word) (z : Outc × State) (hz : tmrCfgWrite false s t w = z) :
        Host.Outcome.next (φ := Fault) (ρ := Refusal) (regCmd s who (tmrPa t 0) (fun z => wrAnswer (tmrCfgWrite false z t w))) = z.2.ends z.1 := by
      rw [regCmd_of_open (by exact hopen), hz]
      rfl
    refine ⟨fun hc => ?_, fun hc hs => ?_, ?_⟩
    · exact hcmd _ _ ((tmrCfgWrite_arm ho v).trans (if_neg (fun h => by rw [show lineClash (s.setTmr t (armedTmr s t v)) = none from hc] at h; exact Bool.false_ne_true h.1)))
    · refine hcmd _ _ ((tmrCfgWrite_arm ho v).trans (if_pos ⟨hc, fun h => ?_⟩))
      have hc' : (lineClash (s.setTmr t (armedTmr s t v))).isSome = true := hc
      rw [h, hs] at hc'
      exact Bool.false_ne_true hc'
    · obtain ⟨w, hw, htmr⟩ := tmrCfgWrite_disarm ho v
      exact ⟨w, hcmd _ _ hw, htmr⟩
  case pps =>
    intro p hopen
    have hcmd (z : Outc × State) (hz : ppsWrite false s n (v ||| 1) = z) : exec (.ppsEnable who n v) s = z.2.ends z.1 := by
      refine congrArg Host.Outcome.next ((regCmd_of_open (by exact hopen) _).trans ?_)
      rw [hz]
      rfl
    refine ⟨fun hen ht => ?_, fun hp hen hfree => ?_⟩
    · exact hcmd _ ((ppsWrite_on s n v).trans (if_pos (by rw [hen, ht]; simp)))
    · intro q u z
      refine hcmd (.ok, u.setTmr (slice v 1 6) z) ((ppsWrite_on s n v).trans ((if_neg (by rw [hen]; exact Bool.false_ne_true)).trans ?_))
      rw [if_neg (fun h => Bool.false_ne_true (hp.symm.trans h.1)), ppsTake_setPps hfree]
      rfl
  case noSnap =>
    refine congrArg Host.Outcome.next ((regCmd_of_open hopen _).trans ?_)
    rw [snapWrite_of_clear hv]
    rfl
  case snap =>
    obtain ⟨z, hz, h0, h1, h2, h3⟩ := snapWrite_of_set (s := s) hv
    refine ⟨{ s with cmk := z }, congrArg Host.Outcome.next ((regCmd_of_open hopen _).trans ?_), h0, h1, h2, h3, rfl⟩
    rw [hz]
    rfl
  case pulse =>
    intro num hn hp hnow w
    exact congrArg Host.Outcome.next (doSlotPulse_of_now hn hp hnow)

end Sys2Proof.Machine
end

section
/-! The messages that reach the Clockmaker (O53): PPS_IN, time of day, PTP and ESMC. -/

namespace Sys2Proof.Machine

section
variable {s : State} {edge old : Ts} {n : PortId} {m : PtpMsg} {ssm : BitVec 4}

/-! ### PPS_IN and the time of day (R333, R337) -/

/-- The state with an edge of PPS_IN noted. -/
def edgeNoted (s : State) (edge : Ts) : State := { s with cmk := { s.cmk with ppsIn := some edge, ppsLabel := none } }

theorem edgeNoted_csrc (s : State) (edge : Ts) (i : BitVec 3) : (edgeNoted s edge).csrc i = s.csrc i := rfl

theorem dropGnss_csrc (s : State) : SlotsOnly s (dropGnss s) ∧
    ∀ i, (dropGnss s).csrc i = if (s.csrc i).typ = 1 then (s.csrc i).setValid s.cycle false else s.csrc i :=
  foldl_slotsWhere (P := fun x => x.typ = 1) (y := fun t x => x.setValid t.cycle false) (fun t x ht => by rw [ht])

theorem dropGnss_invalid {i : BitVec 3} (h : (s.csrc i).typ = 1) : ((dropGnss s).csrc i).valid = false := by
  rw [(dropGnss_csrc s).2 i, if_pos h]
  rfl

theorem SlotsOnly.tally {s t : State} (h : SlotsOnly s t) : t.tally = s.tally := by
  unfold SlotsOnly at h
  rw [h]

theorem doPpsIn_of_first (h : s.cmk.ppsIn = none) : doPpsIn s edge = edgeNoted s edge := by
  unfold doPpsIn
  dsimp only
  rw [h]
  rfl

/-- An edge that is j whole seconds behind the one before it. -/
theorem doPpsIn_of_seconds (h : s.cmk.ppsIn = some old) {j : Nat} (hj : 1 ≤ j) (he : tsUnits edge = tsUnits old + j * (1000000000 * 65536)) :
    doPpsIn s edge =
      (let s2 := if 1 < j then cmkTal (edgeNoted s edge) 3 (j - 1) else edgeNoted s edge
       if j ≠ 1 ∨ s.cmk.ppsLabel = none then dropGnss s2 else s2) := by
  have hd : (tsUnits edge : Int) - tsUnits old = j * (1000000000 * 65536) := by rw [he]; simp only [Int.natCast_add, Int.natCast_mul, Int.cast_ofNat_Int]; omega
  have hn : (((tsUnits edge : Int) - tsUnits old + secUnits / 2) / secUnits).toNat = j := by rw [hd, secUnits]; omega
  have hoff : (1000 * 65536 < ((tsUnits edge : Int) - tsUnits old - secUnits).natAbs) ↔ j ≠ 1 := by rw [hd, secUnits]; omega
  unfold doPpsIn
  dsimp only
  rw [h]
  dsimp only
  rw [hn]
  refine ite_iff ?_
  rw [hoff]
  exact ⟨fun h => h.elim .inl (fun h => h.elim .inl .inr), fun h => h.elim .inl (fun h => .inr (.inr h))⟩

/-- An edge one second behind the one before it. -/
theorem doPpsIn_of_next (h : s.cmk.ppsIn = some old) (he : tsUnits edge = tsUnits old + 1000000000 * 65536) :
    doPpsIn s edge = if s.cmk.ppsLabel = none then dropGnss (edgeNoted s edge) else edgeNoted s edge := by
  rw [doPpsIn_of_seconds h (j := 1) (by decide) (by omega)]
  exact ite_iff (or_iff_right (not_not_intro rfl))

/-- An edge behind others that did not arrive. -/
theorem doPpsIn_of_missed (h : s.cmk.ppsIn = some old) {j : Nat} (hj : 2 ≤ j) (he : tsUnits edge = tsUnits old + j * (1000000000 * 65536)) :
    doPpsIn s edge = dropGnss (cmkTal (edgeNoted s edge) 3 (j - 1)) := by
  rw [doPpsIn_of_seconds h (j := j) (by omega) he]
  dsimp only
  rw [if_pos (show 1 < j from hj), if_pos (.inl (by omega))]

theorem cmkTal_csrc (s : State) (i j : Nat) (k : BitVec 3) : (cmkTal s i j).csrc k = s.csrc k := rfl

theorem doTod_of_bad {isTime badSum : Bool} {sec : BitVec 48} (h : isTime = false ∨ badSum = true) : doTod s isTime badSum sec = cmkTal s 4 1 :=
  if_pos h

theorem doTod_of_label {sec : BitVec 48} (h : s.cmk.ppsIn = some old) (h1 : tsUnits old ≤ s.units) (h2 : s.units ≤ tsUnits old + secUnits / 2) :
    doTod s true false sec = { s with cmk := { s.cmk with ppsLabel := some sec } } := by
  refine (if_neg (by simp)).trans ?_
  rw [h]
  exact if_pos ⟨h1, h2⟩

/-! ### PTP (R318, R334, R340, R341) -/

theorem rxLive_iff (s : State) (n : PortId) :
    rxLive s n = true ↔ (s.port n).rxEn = true ∧ portExists s n = true ∧ s.lmp.pkg ≠ .deep := by
  simp [rxLive, and_assoc]

theorem doPtpReceive_of_dead (h : ¬ ((s.port n).rxEn = true ∧ portExists s n = true ∧ s.lmp.pkg ≠ .deep ∧ (s.ptpPort n).en = true)) :
    doPtpReceive s n m = s := by
  refine if_pos ?_
  refine Classical.byContradiction fun hc => ?_
  obtain ⟨h1, h2⟩ := not_or.mp hc
  obtain ⟨h3, h4, h5⟩ := (rxLive_iff s n).mp (by simpa using h1)
  exact h ⟨h3, h4, h5, by simpa using h2⟩

/-- What a port that hears does with a PTP message. -/
theorem doPtpReceive_of_live (h : (s.port n).rxEn = true ∧ portExists s n = true ∧ s.lmp.pkg ≠ .deep ∧ (s.ptpPort n).en = true) :
    doPtpReceive s n m =
      match m with
      | .announce c d => if d = s.cmk.domain then bmca (ptpRank (s.setPtpPort n { s.ptpPort n with clockClass := c }) n c) n else s
      | .sync o _ q => if (s.ptpPort n).st = .slave ∨ (s.ptpPort n).st = .uncalibrated then
          s.setPtpPort n { s.ptpPort n with lastSync := some (o, corrected s.now (s.port n).tscorr.toInt), seq := q } else s
      | .followUp o q =>
        match (s.ptpPort n).lastSync with
        | some (_, r) => if (s.ptpPort n).seq = q then s.setPtpPort n { s.ptpPort n with lastSync := some (o, r) } else s
        | none => s
      | .delayReq _ => if (s.ptpPort n).st = .master ∧ (s.port n).txEn = true ∧ s.asy.safe = false then portTal s n 8 else s
      | .delayResp _ _ => s := by
  obtain ⟨h1, h2, h3, hen⟩ := h
  refine (if_neg ?_).trans rfl
  rw [(rxLive_iff s n).mpr ⟨h1, h2, h3⟩, hen]
  simp

theorem doPtpReceive_followUp (h : (s.port n).rxEn = true ∧ portExists s n = true ∧ s.lmp.pkg ≠ .deep ∧ (s.ptpPort n).en = true) {o rx z : Ts}
    {q : BitVec 16} (hq : (s.ptpPort n).seq = q) (hz : (s.ptpPort n).lastSync = some (z, rx)) :
    doPtpReceive s n (.followUp o q) = s.setPtpPort n { s.ptpPort n with lastSync := some (o, rx) } := by
  rw [doPtpReceive_of_live h]
  dsimp only
  rw [hz]
  exact if_pos hq

theorem State.setPtpPort_ptpPort (s : State) (n : PortId) (x : PtpPort) : (s.setPtpPort n x).ptpPort n = x := by
  simp [State.setPtpPort, State.ptpPort]

theorem ptpRank_only (s : State) (n : PortId) (c : BitVec 8) : SlotsOnly s (ptpRank s n c) :=
  (foldl_slotsWhere (P := fun x => x.typ = 3 ∧ x.inst = n) (y := fun _ x => { x with ql := classRank c }) (fun _ _ _ => rfl)).1

theorem SlotsOnly.ptpPort {s t : State} (h : SlotsOnly s t) (n : PortId) : t.ptpPort n = s.ptpPort n := by
  unfold SlotsOnly at h
  rw [h]
  rfl

theorem SlotsOnly.role {s t : State} (h : SlotsOnly s t) : t.cmk.role = s.cmk.role := by
  unfold SlotsOnly at h
  rw [h]

/-- The BMCA gives its port one of the states that the role allows. -/
theorem bmca_ptpPort (s : State) (n : PortId) : ∃ i : Nat, (bmca s n).ptpPort n = { s.ptpPort n with st := ((bmcaStates s n)[i]?).getD .passive } := by
  unfold bmca
  dsimp only
  exact ⟨_, State.setPtpPort_ptpPort _ n _⟩

theorem getD_mem {l L : List PtpState} (h : ∀ x ∈ l, x ∈ L) (hp : PtpState.passive ∈ L) (i : Nat) : (l[i]?).getD .passive ∈ L := by
  cases hi : l[i]? with
  | none => exact hp
  | some x => exact h x (List.mem_of_getElem? hi)

theorem bmcaStates_mem (s : State) (n : PortId) : ∀ x ∈ bmcaStates s n, x ∈ [PtpState.master, .passive, .uncalibrated, .slave] := by
  unfold bmcaStates
  dsimp only
  repeat' split
  all_goals decide

theorem bmcaStates_grandmaster (h : s.cmk.role = 2) : bmcaStates s n = [.master, .passive] := if_pos h

/-- An Announce message of the port's domain gives the port its class and a state that the role allows. -/
theorem doPtpReceive_announce (h : (s.port n).rxEn = true ∧ portExists s n = true ∧ s.lmp.pkg ≠ .deep ∧ (s.ptpPort n).en = true) (c : BitVec 8) :
    ∃ st, (doPtpReceive s n (.announce c s.cmk.domain)).ptpPort n = { s.ptpPort n with clockClass := c, st := st } ∧
      st ∈ [PtpState.master, .passive, .uncalibrated, .slave] ∧ (s.cmk.role = 2 → st ∈ [PtpState.master, .passive]) := by
  have honly := ptpRank_only (s.setPtpPort n { s.ptpPort n with clockClass := c }) n c
  have heq := (doPtpReceive_of_live (m := .announce c s.cmk.domain) h).trans (if_pos rfl)
  obtain ⟨i, hi⟩ := bmca_ptpPort (ptpRank (s.setPtpPort n { s.ptpPort n with clockClass := c }) n c) n
  have hrole : (ptpRank (s.setPtpPort n { s.ptpPort n with clockClass := c }) n c).cmk.role = s.cmk.role := honly.role
  rw [honly.ptpPort, State.setPtpPort_ptpPort] at hi
  generalize ptpRank (s.setPtpPort n { s.ptpPort n with clockClass := c }) n c = t at heq hi hrole
  refine ⟨_, (congrArg (fun u : State => u.ptpPort n) heq).trans hi, getD_mem (bmcaStates_mem t n) (by decide) i, fun h2 => ?_⟩
  rw [bmcaStates_grandmaster (hrole.trans h2)]
  exact getD_mem (fun x hx => hx) (by decide) i

/-! ### ESMC (R319, R334) -/

theorem doEsmc_csrc (h : rxLive s n = true) (i : BitVec 3) : (doEsmc s n ssm).csrc i =
    if (s.csrc i).en = true ∧ (s.csrc i).typ = 4 ∧ (s.csrc i).inst.toNat = n.toNat / 4 then
      { (s.csrc i).setValid s.cycle (ssm != 15 && !(s.quad (n.toNat / 4)).reclos) with ql := ssmRank ssm } else s.csrc i := by
  have he : doEsmc s n ssm = allSlots.foldl (fun t i =>
      if (t.csrc i).en ∧ (t.csrc i).typ = 4 ∧ (t.csrc i).inst.toNat = n.toNat / 4 then
        t.setCsrc i { (t.csrc i).setValid t.cycle (ssm != 15 && !(t.quad (n.toNat / 4)).reclos) with ql := ssmRank ssm } else t) s :=
    if_neg (by rw [h]; nofun)
  rw [he]
  exact (foldl_slotsWhere (P := fun x => x.en = true ∧ x.typ = 4 ∧ x.inst.toNat = n.toNat / 4)
    (y := fun t x => { x.setValid t.cycle (ssm != 15 && !(t.quad (n.toNat / 4)).reclos) with ql := ssmRank ssm }) (fun t x ht => by rw [ht]; rfl)).2 i

/-! ### PTP messages that leave (R318, R340, R341) -/

section
variable {kind : PtpSend}

/-- A port with its sent message, counted. -/
def ptpSent (s : State) (n : PortId) (kind : PtpSend) : State :=
  portTal (s.setPtpPort n { s.ptpPort n with
    seq := (s.ptpPort n).seq + 1, sent := some (kind, sentClass s.cmk, corrected s.now (-(s.port n).tscorr.toInt)) }) n 8

theorem doPtpSend_of_silent (h : ptpMaySend (s.ptpPort n).st kind = false) : doPtpSend s n kind = s :=
  if_pos (.inr (.inr (.inr (.inr h))))

theorem doPtpSend_of_sent (hen : (s.ptpPort n).en = true) (htx : (s.port n).txEn = true) (hsafe : s.asy.safe = false) (hp : s.lmp.pkg ≠ .deep)
    (h : ptpMaySend (s.ptpPort n).st kind = true) : doPtpSend s n kind =
      if kind = .announce ∨ ((s.port n).oneStep = true ∧ kind = .sync) then ptpSent s n kind
      else if 16 ≤ s.fhp.egress.length then cmkTal (ptpSent s n kind) 5 1
      else { ptpSent s n kind with fhp := { (ptpSent s n kind).fhp with egress := (ptpSent s n kind).fhp.egress ++
        [{ port := n, seqId := (s.ptpPort n).seq, stamp := corrected s.now (-(s.port n).tscorr.toInt) }] } } := by
  refine (if_neg ?_).trans rfl
  rw [hen, htx, hsafe, h]
  simp [hp]

theorem sentClass_eq (c : Cmk) : sentClass c =
    if c.st = .locked ∧ c.timeok = true then (6 : BitVec 8)
    else if c.st = .holdover ∧ c.role = 2 then (if c.hospec then 7 else 140)
    else if c.st = .holdover ∧ c.role ≠ 0 then (if c.hospec then 135 else 165) else 248 := by
  unfold sentClass
  refine ite_congr rfl (fun _ => rfl) (fun _ => ?_)
  by_cases hst : c.st = .holdover
  · by_cases h2 : c.role = 2
    · have h0 : c.st = .holdover ∧ c.role ≠ 0 := ⟨hst, by rw [h2]; decide⟩
      have h02 : c.st = .holdover ∧ c.role = 2 := ⟨hst, h2⟩
      rw [if_pos h0, if_pos h02, if_pos h2, if_pos h2]
    · rw [if_neg (fun h : c.st = .holdover ∧ c.role = 2 => h2 h.2), if_neg h2, if_neg h2]
  · rw [if_neg (fun h => hst h.1), if_neg (fun h => hst h.1), if_neg (fun h => hst h.1)]

theorem portTal_eight (s : State) (n : PortId) : portTal s n 8 = tallyAdd s (fhpBase + 0x2140 + n.toNat * 0x400) 1 := by
  unfold portTal
  rw [show fhpBase + 0x2100 + n.toNat * 0x400 + 8 * 8 = fhpBase + 0x2140 + n.toNat * 0x400 by omega]

theorem ptpSent_eq (s : State) (n : PortId) (kind : PtpSend) : ptpSent s n kind =
    tallyAdd (s.setPtpPort n { s.ptpPort n with
      seq := (s.ptpPort n).seq + 1
      sent := some (kind, if s.cmk.st = .locked ∧ s.cmk.timeok = true then (6 : BitVec 8)
        else if s.cmk.st = .holdover ∧ s.cmk.role = 2 then (if s.cmk.hospec then 7 else 140)
        else if s.cmk.st = .holdover ∧ s.cmk.role ≠ 0 then (if s.cmk.hospec then 135 else 165) else 248,
        corrected s.now (-(s.port n).tscorr.toInt)) }) (fhpBase + 0x2140 + n.toNat * 0x400) 1 := by
  rw [ptpSent, portTal_eight, sentClass_eq]

end
end

/-- Settles O53: each message by the lemma of its case. -/
theorem clockMessages : Obligations.ClockMessages := by
  unfold Obligations.ClockMessages
  intro s edge isTime badSum sec n m ssm o rx seq k p count noted gnssOff live stamp out cls after sent
  refine ⟨fun h => ?first, fun old hold => ⟨fun he hl => ?labelled, fun he hl => ?unlabelled, fun j hj he => ?missed⟩, fun h => ?badTod,
    fun old h1 h2 hold hfrom hto => ?label, fun h => ?dead, fun h => ⟨fun c d hd => ?otherDomain, fun c => ?announce, fun b hst => ?sync,
    fun hq ⟨z, hz⟩ => ?followUp⟩, fun h1 h2 h3 => ?esmc, fun kind hen htx hsafe hp => ⟨fun hno => ?mayNot, fun hk hst => ?sendAnnounce,
    fun hk => ?event⟩⟩
  case first => exact congrArg Host.Outcome.next (doPpsIn_of_first h)
  case labelled => exact congrArg Host.Outcome.next ((doPpsIn_of_next hold he).trans (if_neg hl))
  case unlabelled =>
    exact ⟨_, congrArg Host.Outcome.next ((doPpsIn_of_next hold he).trans (if_pos hl)), fun i hi => dropGnss_invalid (by exact hi)⟩
  case missed =>
    exact ⟨_, congrArg Host.Outcome.next (doPpsIn_of_missed hold hj he), fun i hi => dropGnss_invalid (by rw [cmkTal_csrc, edgeNoted_csrc]; exact hi),
      (dropGnss_csrc _).1.tally⟩
  case badTod => exact congrArg Host.Outcome.next (doTod_of_bad h)
  case label =>
    subst h1 h2
    exact congrArg Host.Outcome.next (doTod_of_label hold hfrom hto)
  case dead => exact congrArg Host.Outcome.next (doPtpReceive_of_dead h)
  case otherDomain => exact congrArg Host.Outcome.next ((doPtpReceive_of_live h).trans (if_neg hd))
  case announce =>
    obtain ⟨st, hst, hmem, hgm⟩ := doPtpReceive_announce h c
    refine ⟨_, rfl, ?_, ?_, fun hrole => ?_⟩
    · rw [hst]
    · rw [hst]
      exact hmem
    · rw [hst]
      exact hgm hrole
  case sync => exact congrArg Host.Outcome.next ((doPtpReceive_of_live h).trans (if_pos hst))
  case followUp => exact congrArg Host.Outcome.next (doPtpReceive_followUp h hq hz)
  case esmc => exact ⟨_, rfl, doEsmc_csrc ((rxLive_iff s n).mpr ⟨h1, h2, h3⟩)⟩
  case mayNot => exact congrArg Host.Outcome.next (doPtpSend_of_silent hno)
  case sendAnnounce =>
    subst hk
    exact congrArg Host.Outcome.next ((doPtpSend_of_sent hen htx hsafe hp (by rw [hst]; rfl)).trans ((if_pos (.inl rfl)).trans (ptpSent_eq s n _)))
  case event =>
    have hmay : ptpMaySend (s.ptpPort n).st kind = true := by rcases hk with ⟨rfl, hst, -⟩ | ⟨rfl, hst⟩ <;> rw [show (s.ptpPort n).st = _ from hst] <;> rfl
    have hevent : ¬ (kind = .announce ∨ ((s.port n).oneStep = true ∧ kind = .sync)) := by
      rcases hk with ⟨rfl, -, h1⟩ | ⟨rfl, -⟩
      · rw [h1]
        decide
      · simp
    have hsend := (doPtpSend_of_sent hen htx hsafe hp hmay).trans (if_neg hevent)
    rw [ptpSent_eq] at hsend
    exact ⟨fun hroom => congrArg Host.Outcome.next (hsend.trans (if_neg (Nat.not_le.mpr hroom))),
      fun hfull => congrArg Host.Outcome.next (hsend.trans (if_pos hfull))⟩

end Sys2Proof.Machine
end

section
/-! Fronthaul ports (O51): delay measurement, quads, streams, lanes and links. -/

namespace Sys2Proof.Machine

section
variable {s : State} {n : PortId} {id : BitVec 8} {v : Word} {q : BitVec 3} {k : StreamId}

/-! ### Delay measurement (R317) -/

/-- A type 5 message of a port that sends. -/
theorem owdSend_of_open (htx : (s.port n).txEn = true) (hsafe : s.asy.safe = false) (action : BitVec 8) (stamp : Ts) (comp : Word) :
    owdSend s n action id stamp comp =
      tallyAdd (s.setPort n { s.port n with owdOut := some { action := action, measId := id, stamp := stamp, comp := comp } })
        (fhpBase + 0x2140 + n.toNat * 0x400) 1 := by
  refine (if_neg ?_).trans (portTal_eight _ n)
  rw [htx, hsafe]
  simp

theorem State.setPort_port_self (s : State) (n : PortId) (x : Port) : (s.setPort n x).port n = x := by
  simp [State.port, State.setPort]

section
variable (hrx : rxLive s n = true)
include hrx

theorem doDelayRequest_of_live (two : Bool) : doDelayRequest s n two id =
    if two then s.setPort n { s.port n with owdReqs := (s.port n).owdReqs.filter (fun r => r.measId != id) ++ [{ measId := id, stamp := s.now }] }
    else owdSend s n 2 id s.now (s.port n).owdcomp :=
  if_neg (by rw [hrx]; nofun)

theorem doDelayFollowUp_of_none (h : ∀ r ∈ (s.port n).owdReqs, r.measId ≠ id) :
    doDelayFollowUp s n id = tallyAdd s (fhpBase + 0x2120 + n.toNat * 0x400) 1 := by
  refine (if_neg (by rw [hrx]; nofun)).trans ?_
  rw [List.find?_eq_none.mpr (fun r hr => by simpa using h r hr)]
  unfold portTal
  dsimp only
  rw [show fhpBase + 0x2100 + n.toNat * 0x400 + 8 * 4 = fhpBase + 0x2120 + n.toNat * 0x400 by omega]

theorem doDelayFollowUp_of_one {stamp : Ts} (h : (s.port n).owdReqs = [{ measId := id, stamp := stamp }]) :
    doDelayFollowUp s n id = owdSend (s.setPort n { s.port n with owdReqs := [] }) n 2 id stamp (s.port n).owdcomp := by
  refine (if_neg (by rw [hrx]; nofun)).trans ?_
  have hfind : [(⟨id, stamp⟩ : OwdReq)].find? (fun r => r.measId == id) = some ⟨id, stamp⟩ := List.find?_cons_of_pos (beq_self_eq_true id)
  have hfilter : [(⟨id, stamp⟩ : OwdReq)].filter (fun r => r.measId != id) = [] := List.filter_cons_of_neg (by simp)
  rw [h, hfind, hfilter]

theorem doRemoteDelay_of_live : doRemoteDelay s n id = if (s.port n).busy then owdSend s n 0 id s.now 0 else owdStart s n id false :=
  if_neg (by rw [hrx]; nofun)

theorem doDelayResponse_of_awaited {peer comp : BitVec 64} (hb : (s.port n).busy = true) (hid : (s.port n).owdId = id) :
    doDelayResponse s n id peer comp = s.setPort n { s.port n with
      busy := false
      valid := true
      delay := BitVec.ofInt 31 (((peer.toNat : Int) * 65536 - tsUnits (s.port n).owdTx - comp.toInt) / 65536) } := by
  refine if_neg ?_
  rw [hrx, hb]
  simp [hid]

end

theorem doDelayResponse_of_other {peer comp : BitVec 64} (h : (s.port n).busy = false ∨ (s.port n).owdId ≠ id) : doDelayResponse s n id peer comp = s :=
  if_pos (.inr h)

/-- The port while its request is out. -/
def awaiting (s : State) (p : Port) (id : BitVec 8) : Port :=
  { p with busy := true, tmo := false, owdSince := s.cycle, owdId := id, owdTx := s.now }

theorem owdStart_of_open {p : Port} (hp : s.port n = p) (htx : p.txEn = true) (hsafe : s.asy.safe = false) : owdStart s n id false =
    (let u := s.setPort n (awaiting s p id)
     tallyAdd (u.setPort n { u.port n with owdOut := some { action := 0, measId := id, stamp := s.now, comp := 0 } }) (fhpBase + 0x2140 + n.toNat * 0x400) 1) := by
  subst hp
  refine owdSend_of_open (s := s.setPort n (awaiting s (s.port n) id)) ?_ hsafe 0 s.now 0
  rw [State.setPort_port_self]
  exact htx

/-- Where a started measurement leaves its port and the counters. -/
theorem owdStart_port {p : Port} (htx : p.txEn = true) (hsafe : s.asy.safe = false) :
    (owdStart (s.setPort n p) n id false).port n =
        { awaiting s p id with owdOut := some { action := 0, measId := id, stamp := s.now, comp := 0 } } ∧
      (owdStart (s.setPort n p) n id false).tally = (tallyAdd s (fhpBase + 0x2140 + n.toNat * 0x400) 1).tally := by
  rw [owdStart_of_open (State.setPort_port_self s n p) htx hsafe]
  refine ⟨(State.setPort_port_self _ n _).trans ?_, rfl⟩
  rw [State.setPort_port_self]
  rfl

/-- A start of a measurement by a write. -/
theorem owdctlWrite_start (hb : (s.port n).busy = false) (hf : v.getLsbD 1 = false) : owdctlWrite s n (v ||| 1) =
    (.ok, owdStart (s.setPort n { s.port n with followup := false, measId := slice v 8 8, valid := false }) n (slice v 8 8) false) := by
  unfold owdctlWrite
  dsimp only
  rw [if_neg (by rw [hb]; simp), if_pos (getLsbD_zero_or_one v), getLsbD_or_one v (i := 1) (by decide), hf, slice_or_one v (by decide)]

theorem owdctlWrite_busy (hb : (s.port n).busy = true) : owdctlWrite s n (v ||| 1) = (.notPermitted, s) :=
  if_pos ⟨getLsbD_zero_or_one v, hb⟩

theorem portPa_owdctl (n : PortId) : portPa n 0x20 = fhpBase + 0x2020 + n.toNat * 0x400 := by
  unfold portPa
  omega

theorem portAns_of_exists (h : portExists s n = true) (x : Outc × State) : portAns s n x = x := if_pos h

/-! ### Quads (R296, R298, R482) -/

theorem State.setQuad_quad_self (s : State) (i : Nat) (x : Quad) : (s.setQuad i x).quad i = x := by
  simp [State.quad, State.setQuad]

theorem bits_low_three (v : Word) : bits v.toNat 0 3 = (slice v 0 3 : BitVec 3).toNat := bits_eq_slice v 0 3

theorem quadWrite_of_defined (h : (slice v 0 3 : BitVec 3).toNat ≤ 4) : quadWrite s q v =
    if (slice v 0 3 : BitVec 3) = (s.quad q.toNat).mode then (.ok, s.setQuad q.toNat { s.quad q.toNat with reclane := slice v 4 2 })
    else if (quadPorts q).any (fun n => (s.port n).rxEn || (s.port n).txEn) then (.notPermitted, s)
    else (.ok, (quadPorts q).foldl (fun t n => t.setPtpPort n { t.ptpPort n with st := .disabled, en := (t.ptpPort n).en && portExists t n })
      (s.setQuad q.toNat { s.quad q.toNat with mode := slice v 0 3, reclane := slice v 4 2, link := 0 })) := by
  unfold quadWrite
  dsimp only
  rw [show keepIf (decide (4 < bits v.toNat 0 3)) (s.quad q.toNat).mode (slice v 0 3) = slice v 0 3 by
    rw [bits_low_three, decide_eq_false (Nat.not_lt.mpr h)]
    rfl]

theorem quadPorts_any {f : PortId → Bool} : (quadPorts q).any f = true ↔ ∃ i < 4, f (BitVec.ofNat 5 (4 * q.toNat + i)) = true := by
  simp [quadPorts]

theorem State.setPtpPort_ptpPort_of (s : State) (n j : PortId) (x : PtpPort) : (s.setPtpPort n x).ptpPort j = if j = n then x else s.ptpPort j := by
  unfold State.setPtpPort State.ptpPort
  rw [sget_sput]
  exact ite_iff BitVec.toNat_inj

/-- Disabling PTP on ports leaves the quads as they are, and the ports DISABLED. -/
theorem foldl_ptpOff {step : State → PortId → State} (hstep : ∀ t n, ∃ b, step t n = t.setPtpPort n { t.ptpPort n with st := .disabled, en := b })
    (l : List PortId) (t : State) : (l.foldl step t).fhp = t.fhp ∧
      ∀ j, j ∈ l ∨ (t.ptpPort j).st = .disabled → ((l.foldl step t).ptpPort j).st = .disabled := by
  induction l generalizing t with
  | nil => exact ⟨rfl, fun j hj => hj.resolve_left List.not_mem_nil⟩
  | cons n l ih =>
    obtain ⟨b, hb⟩ := hstep t n
    obtain ⟨hf, hst⟩ := ih (step t n)
    rw [hb] at hf
    refine ⟨by rw [List.foldl_cons, hb]; exact hf, fun j hj => hst j ?_⟩
    rw [hb, State.setPtpPort_ptpPort_of]
    by_cases hjn : j = n
    · exact .inr (by rw [if_pos hjn])
    · rw [if_neg hjn]
      exact hj.imp_left (fun h => (List.mem_cons.mp h).resolve_left hjn)

/-- A change of mode of a quad whose ports are all disabled. -/
theorem quadWrite_of_change (h : (slice v 0 3 : BitVec 3).toNat ≤ 4) (hne : (slice v 0 3 : BitVec 3) ≠ (s.quad q.toNat).mode)
    (hoff : ∀ i < 4, (s.port (BitVec.ofNat 5 (4 * q.toNat + i))).rxEn = false ∧ (s.port (BitVec.ofNat 5 (4 * q.toNat + i))).txEn = false) :
    ∃ t, quadWrite s q v = (.ok, t) ∧ t.quad q.toNat = { s.quad q.toNat with mode := slice v 0 3, reclane := slice v 4 2, link := 0 } ∧
      ∀ i < 4, (t.ptpPort (BitVec.ofNat 5 (4 * q.toNat + i))).st = .disabled := by
  have hany : ¬ (quadPorts q).any (fun n => (s.port n).rxEn || (s.port n).txEn) = true := by
    rw [quadPorts_any]
    rintro ⟨i, hi, hb⟩
    rw [(hoff i hi).1, (hoff i hi).2] at hb
    exact Bool.false_ne_true hb
  obtain ⟨hfhp, hst⟩ := foldl_ptpOff
    (step := fun t n => t.setPtpPort n { t.ptpPort n with st := .disabled, en := (t.ptpPort n).en && portExists t n }) (fun t n => ⟨_, rfl⟩) (quadPorts q)
    (s.setQuad q.toNat { s.quad q.toNat with mode := slice v 0 3, reclane := slice v 4 2, link := 0 })
  refine ⟨_, (quadWrite_of_defined h).trans ((if_neg hne).trans (if_neg hany)), ?_, fun i hi => hst _ (.inl ?_)⟩
  · exact (congrArg (fun f : Fhp => sget Quad.reset f.quads q.toNat) hfhp).trans (State.setQuad_quad_self s _ _)
  · exact List.mem_map.mpr ⟨i, List.mem_range.mpr hi, rfl⟩

/-! ### Streams (R305, R311, R320) -/

theorem strmCfgSet_en (x : Strm) (v : Word) : (strmCfgSet x v).en = v.getLsbD 0 := rfl

theorem strmCfgWrite_on : strmCfgWrite false s k (v ||| 1) =
    if (strmCfgSet (s.strm k) (v ||| 1)).tx = false ∧ (s.strm k).en = false ∧ isBuffer (strmCfgSet (s.strm k) (v ||| 1)).dst = false then (.notPermitted, s)
    else noConflict false s (.ok, s.setStrm k (strmCfgSet (s.strm k) (v ||| 1))) :=
  if_pos (by rw [strmCfgSet_en]; exact getLsbD_zero_or_one v)

theorem strmCfgWrite_of_buffer (h : (strmCfgSet (s.strm k) (v ||| 1)).tx = true ∨ (s.strm k).en = true ∨ isBuffer (strmCfgSet (s.strm k) (v ||| 1)).dst = true) :
    strmCfgWrite false s k (v ||| 1) = noConflict false s (.ok, s.setStrm k (strmCfgSet (s.strm k) (v ||| 1))) := by
  refine strmCfgWrite_on.trans (if_neg ?_)
  rintro ⟨h1, h2, h3⟩
  rcases h with h | h | h
  · exact Bool.false_ne_true (h1.symm.trans h)
  · exact Bool.false_ne_true (h2.symm.trans h)
  · exact Bool.false_ne_true (h3.symm.trans h)

theorem strmCfgWrite_off (h : (s.strm k).insts = []) : strmCfgWrite false s k (v &&& ~~~1) = (.ok, s.setStrm k (strmCfgSet (s.strm k) (v &&& ~~~1))) := by
  have hclose : closeAll s k = s := by
    unfold closeAll
    rw [h]
    rfl
  refine (if_neg ?_).trans ?_
  · rw [strmCfgSet_en, getLsbD_zero_and_not_one]
    exact Bool.false_ne_true
  · rw [hclose, ite_self]

theorem noConflict_of_new {x : Outc × State} (h : (conflictOf x.2).isSome = true) (hs : conflictOf s = none) :
    noConflict false s x = (.notPermitted, s) := by
  refine if_pos ⟨rfl, h, fun he => ?_⟩
  rw [he, hs] at h
  exact Bool.false_ne_true h

section
variable (h : (strmCfgSet (s.strm k) (v ||| 1)).tx = true ∨ (s.strm k).en = true ∨ isBuffer (strmCfgSet (s.strm k) (v ||| 1)).dst = true)
include h

theorem strmCfgWrite_of_free (hc : conflictOf (s.setStrm k (strmCfgSet (s.strm k) (v ||| 1))) = none) :
    strmCfgWrite false s k (v ||| 1) = (.ok, s.setStrm k (strmCfgSet (s.strm k) (v ||| 1))) := by
  rw [strmCfgWrite_of_buffer h]
  exact noConflict_of_none (x := (.ok, s.setStrm k (strmCfgSet (s.strm k) (v ||| 1)))) hc

theorem strmCfgWrite_of_conflict (hc : (conflictOf (s.setStrm k (strmCfgSet (s.strm k) (v ||| 1)))).isSome = true) (hs : conflictOf s = none) :
    strmCfgWrite false s k (v ||| 1) = (.notPermitted, s) := by
  rw [strmCfgWrite_of_buffer h]
  exact noConflict_of_new (x := (.ok, s.setStrm k (strmCfgSet (s.strm k) (v ||| 1)))) hc hs

end

/-! ### Lanes (R319, R333) -/

theorem SlotsOnly.quad {s t : State} (h : SlotsOnly s t) (q : Nat) : t.quad q = s.quad q := by
  unfold SlotsOnly at h
  rw [h]
  rfl

theorem synceLost_csrc (u : State) (q : BitVec 3) :
    let t := allSlots.foldl (fun t i => if (t.csrc i).typ = 4 ∧ (t.csrc i).inst.toNat = q.toNat then t.setCsrc i ((t.csrc i).setValid t.cycle false) else t) u
    SlotsOnly u t ∧ ∀ i, t.csrc i = if (u.csrc i).typ = 4 ∧ (u.csrc i).inst.toNat = q.toNat then (u.csrc i).setValid u.cycle false else u.csrc i :=
  foldl_slotsWhere (P := fun x => x.typ = 4 ∧ x.inst.toNat = q.toNat) (y := fun t x => x.setValid t.cycle false) (fun t x ht => by rw [ht])

theorem doLaneLock_lost (s : State) (q : BitVec 3) : (doLaneLock s q false).quad q.toNat = { s.quad q.toNat with reclos := true } ∧
    ∀ i, (s.csrc i).typ = 4 → (s.csrc i).inst.toNat = q.toNat → ((doLaneLock s q false).csrc i).valid = false := by
  obtain ⟨honly, hcs⟩ := synceLost_csrc (s.setQuad q.toNat { s.quad q.toNat with reclos := true }) q
  exact ⟨(honly.quad _).trans (State.setQuad_quad_self s q.toNat _), fun i ht hi => congrArg ClkSrc.valid ((hcs i).trans (if_pos ⟨ht, hi⟩))⟩

end

/-- Settles O51: each command by the lemma of its case. -/
theorem fronthaulPorts : Obligations.FronthaulPorts := by
  unfold Obligations.FronthaulPorts
  intro s n id peer comp who v q k b p x y z mode lane msg sends
  refine ⟨fun h1 h2 h3 htx hsafe => ?requests, fun h1 h2 h3 => ⟨fun hb hid => ?response, fun hno => ?strayResponse⟩, fun hex ho => ⟨fun hb => ?startBusy,
    fun hb hid htx hsafe hf => ?start⟩, fun hb => ⟨fun ht => ?timeout, fun ht => ?inTime⟩, fun ho hm => ?quad, fun ho => ⟨fun h1 h2 h3 => ?noBuffer,
    fun h hc => ?enable, fun h hc hs => ?conflict, fun hi => ?disable⟩, ?gained, ?lost, fun hex => ?link, fun hex => ?noPort⟩
  case requests =>
    have hlive : rxLive s n = true := (rxLive_iff s n).mpr ⟨h1, h2, h3⟩
    refine ⟨?_, ?_, fun hnone => ?_, fun stamp hone => ?_, fun hb => ?_, fun hb => ?_⟩
    · exact congrArg Host.Outcome.next ((doDelayRequest_of_live hlive false).trans (owdSend_of_open htx hsafe _ _ _))
    · exact congrArg Host.Outcome.next (doDelayRequest_of_live hlive true)
    · exact congrArg Host.Outcome.next (doDelayFollowUp_of_none hlive hnone)
    · refine congrArg Host.Outcome.next ((doDelayFollowUp_of_one hlive hone).trans
        (owdSend_of_open (s := s.setPort n { s.port n with owdReqs := [] }) ?_ hsafe _ _ _))
      rw [State.setPort_port_self]
      exact htx
    · exact congrArg Host.Outcome.next ((doRemoteDelay_of_live hlive).trans ((if_pos hb).trans (owdSend_of_open htx hsafe _ _ _)))
    · refine congrArg Host.Outcome.next ((doRemoteDelay_of_live hlive).trans ((if_neg (by rw [show (s.port n).busy = false from hb]; nofun)).trans ?_))
      exact owdStart_of_open rfl htx hsafe
  case response => exact congrArg Host.Outcome.next (doDelayResponse_of_awaited ((rxLive_iff s n).mpr ⟨h1, h2, h3⟩) hb hid)
  case strayResponse => exact congrArg Host.Outcome.next (doDelayResponse_of_other hno)
  case startBusy =>
    rw [← portPa_owdctl] at ho
    refine congrArg Host.Outcome.next ((regCmd_of_open ho _).trans ?_)
    rw [portAns_of_exists hex, owdctlWrite_busy hb]
    rfl
  case start =>
    intro u
    rw [← portPa_owdctl] at ho
    obtain ⟨hport, htally⟩ := owdStart_port (s := s) (n := n) (id := id) (p := { s.port n with followup := false, measId := id, valid := false }) htx hsafe
    have hu : u.port n = awaiting s { s.port n with followup := false, measId := id, valid := false } id := State.setPort_port_self s n _
    refine ⟨_, congrArg Host.Outcome.next ((regCmd_of_open ho _).trans ?_), hport.trans ?_, htally⟩
    rotate_left
    · refine Eq.trans ?_ (State.setPort_port_self u n _).symm
      rw [hu]
    · rw [portAns_of_exists hex, owdctlWrite_start hb hf, hid]
      rfl
  case timeout => exact congrArg Host.Outcome.next (if_pos ⟨hb, ht⟩)
  case inTime => exact congrArg Host.Outcome.next (if_neg (fun h => absurd h.2 (Nat.not_le.mpr ht)))
  case quad =>
    intro h
    have hcmd (w : Outc × State) (hw : quadWrite s q v = w) : exec (.quadModeWrite who q v) s = w.2.ends w.1 := by
      refine congrArg Host.Outcome.next ((regCmd_of_open ho _).trans ?_)
      rw [hw]
      rfl
    refine ⟨fun hsame => ?_, fun hne hen => ?_, fun hne hoff => ?_⟩
    · exact hcmd _ ((quadWrite_of_defined hm).trans (if_pos hsame))
    · refine hcmd _ ((quadWrite_of_defined hm).trans ((if_neg hne).trans (if_pos (quadPorts_any.mpr ?_))))
      exact hen.imp (fun i hi => ⟨hi.1, Bool.or_eq_true_iff.mpr hi.2⟩)
    · obtain ⟨t, ht, hquad, hptp⟩ := quadWrite_of_change hm hne hoff
      exact ⟨t, hcmd _ ht, hquad, hptp⟩
  case noBuffer =>
    refine congrArg Host.Outcome.next ((regCmd_of_open ho _).trans ?_)
    rw [strmCfgWrite_on, if_pos ⟨h1, h2, h3⟩]
    rfl
  case enable =>
    refine congrArg Host.Outcome.next ((regCmd_of_open ho _).trans ?_)
    rw [strmCfgWrite_of_free h hc]
    rfl
  case conflict =>
    refine congrArg Host.Outcome.next ((regCmd_of_open ho _).trans ?_)
    rw [strmCfgWrite_of_conflict h hc hs]
    rfl
  case disable =>
    refine congrArg Host.Outcome.next ((regCmd_of_open ho _).trans ?_)
    rw [strmCfgWrite_off hi]
    rfl
  case gained => rfl
  case lost => exact ⟨_, rfl, doLaneLock_lost s q⟩
  case link =>
    intro h w
    exact congrArg Host.Outcome.next (if_pos hex)
  case noPort => exact congrArg Host.Outcome.next (if_neg (by rw [hex]; nofun))

end Sys2Proof.Machine
end

section
/-! Transmit streams (O50): the entry taken, the entry that is due, and the record enqueued. -/

namespace Sys2Proof.Machine

section
variable {s t : State} {n : StreamId} {e : Entry} {a : Ans}

/-- An entry as its completion record names it: a job entry's kind. -/
def jobEntry (e : Entry) : Entry := BitVec.ofNat 256 (e.toNat / 16 * 16 + 2)

theorem jobEntry_toNat (e : Entry) : (jobEntry e).toNat = e.toNat / 16 * 16 + 2 := by
  have h := e.isLt
  exact (BitVec.toNat_ofNat _ _).trans (Nat.mod_eq_of_lt (by omega))

theorem jobEntry_div (e : Entry) {k : Nat} (hk : 4 ≤ k) : (jobEntry e).toNat / 2 ^ k = e.toNat / 2 ^ k := by
  obtain ⟨j, rfl⟩ := Nat.exists_eq_add_of_le hk
  rw [jobEntry_toNat, Nat.pow_add, ← Nat.div_div_eq_div_mul, ← Nat.div_div_eq_div_mul, show (e.toNat / 16 * 16 + 2) / 2 ^ 4 = e.toNat / 2 ^ 4 by omega]

theorem jobEntry_slice (e : Entry) {lo w : Nat} (h : 4 ≤ lo) : slice (jobEntry e) lo w = slice e lo w := by
  unfold slice
  rw [jobEntry_div e h]

theorem jobEntry_getLsbD (e : Entry) {k : Nat} (hk : 4 ≤ k) : (jobEntry e).getLsbD k = e.getLsbD k := by
  rw [BitVec.getLsbD, BitVec.getLsbD, Nat.testBit_eq_decide_div_mod_eq, Nat.testBit_eq_decide_div_mod_eq, jobEntry_div e hk]

/-- The record of a transmit entry, unless it forms none. -/
def txRecs (tick : Word) (e : Entry) (o : Outc) : List PendDesc :=
  if e.getLsbD 176 then [] else [{ q := slice e 160 16, e := mkRecord (jobEntry e) o 0 0 2 0 0 0 tick }]

/-- The stream behind its only held entry that is done. -/
def txStrmDone (x : Strm) (tick : Word) (e : Entry) (o : Outc) : Strm := { x with held := [], recs := x.recs ++ txRecs tick e o }

theorem txDone_of_one (h : (s.strm n).held = [{ e := e }]) (o : Outc) : txDone s n e o = s.setStrm n (txStrmDone (s.strm n) s.tick e o) := by
  have hheld : [(⟨e⟩ : TxHeld)].filter (fun h => h.e != e) ++ ([(⟨e⟩ : TxHeld)].filter (fun h => h.e == e)).drop 1 = [] := by simp
  unfold txDone txStrmDone txRecs
  dsimp only
  rw [h, hheld, show BitVec.ofNat 256 (e.toNat / 16 * 16 + 2) = jobEntry e from rfl, jobEntry_getLsbD e (by decide), jobEntry_slice e (by decide)]
  split
  · rw [List.append_nil]
  · rfl

theorem txDone_strm (h : (s.strm n).held = [{ e := e }]) (o : Outc) : (txDone s n e o).strm n = txStrmDone (s.strm n) s.tick e o := by
  rw [txDone_of_one h, State.setStrm_strm, if_pos rfl]

theorem txDone_sent (s : State) (n : StreamId) (e : Entry) (o : Outc) : (txDone s n e o).fhp.sent = s.fhp.sent := by
  unfold txDone
  dsimp only
  split <;> rfl

theorem txDone_tally (s : State) (n : StreamId) (e : Entry) (o : Outc) : (txDone s n e o).tally = s.tally := by
  unfold txDone
  dsimp only
  split <;> rfl

/-! ### The entry that is due (R316) -/

/-- The check of an extent brings a bad outcome only. -/
theorem extentCheck_bad {pa len : Nat} {o : Outc} (h : extentCheck pa len = some o) : o.good = false := by
  unfold extentCheck at h
  dsimp only at h
  split at h
  · rw [← Option.some.inj h]
    rfl
  · split at h
    · exact absurd h (by simp)
    · rw [← Option.some.inj h]
      rfl

theorem txDue_of_one {x : Strm} (h : x.held = [{ e := e }]) :
    txDue s x = if (!txEntryOk s x e || tickReached s.tick (eDeadline e)) = true then some e else none := by
  unfold txDue
  rw [h]
  by_cases hd : (!txEntryOk s x e || tickReached s.tick (eDeadline e)) = true
  · have hf : [(⟨e⟩ : TxHeld)].find? (fun h => !txEntryOk s x h.e || tickReached s.tick (eDeadline h.e)) = some ⟨e⟩ := List.find?_cons_of_pos hd
    rw [if_pos hd, hf]
    rfl
  · have hf : [(⟨e⟩ : TxHeld)].find? (fun h => !txEntryOk s x h.e || tickReached s.tick (eDeadline h.e)) = none := List.find?_cons_of_neg hd
    rw [if_neg hd, hf]
    rfl

section
variable (h : (s.strm n).held = [{ e := e }]) {path : PathRes}
include h

theorem doTxSend_of_malformed (hok : txEntryOk s (s.strm n) e = false) : doTxSend s n path = txDone s n e .badDescriptor := by
  unfold doTxSend
  dsimp only
  rw [txDue_of_one h, if_pos (by rw [hok]; rfl)]
  exact if_pos hok

theorem doTxSend_of_early (hok : txEntryOk s (s.strm n) e = true) (hd : ¬ tickReached s.tick (eDeadline e) = true) : doTxSend s n path = s := by
  unfold doTxSend
  dsimp only
  rw [txDue_of_one h, if_neg (by rw [hok]; exact hd)]

section
variable (hok : txEntryOk s (s.strm n) e = true) (hd : tickReached s.tick (eDeadline e) = true)
include hok hd

theorem doTxSend_of_late (hl : s.asy.safe = true ∨ ¬ (s.tick - eDeadline e).toNat ≤ s.fhp.txslack.toNat) :
    doTxSend s n path = strmTal (txDone s n e .deadlineMissed) n 9 := by
  unfold doTxSend
  dsimp only
  rw [txDue_of_one h, if_pos (by rw [hok]; exact hd)]
  exact (if_neg (by rw [hok]; nofun)).trans (if_pos (hl.imp_right Nat.lt_of_not_le))

variable (hs : (s.tick - eDeadline e).toNat ≤ s.fhp.txslack.toNat) (hsafe : s.asy.safe = false) (htx : (s.port (s.strm n).port).txEn = true)
include hs hsafe htx

/-- An entry whose samples lie outside buffer memory. -/
theorem doTxSend_of_refused {o : Outc} (hx : extentCheck (bits e.toNat 64 44) (if (s.strm n).type2 then txNum e else 48 * txNum e) = some o) :
    doTxSend s n none = txDone s n e o := by
  have hlate : ¬ (s.asy.safe = true ∨ s.fhp.txslack.toNat < (s.tick - eDeadline e).toNat) :=
    not_or.mpr ⟨fun hh => Bool.false_ne_true (hsafe.symm.trans hh), Nat.not_lt.mpr hs⟩
  unfold doTxSend
  dsimp only
  rw [txDue_of_one h, if_pos (by rw [hok]; exact hd)]
  dsimp only
  rw [if_neg (by rw [hok]; nofun), if_neg hlate, if_neg (by rw [htx]; nofun), hx]
  exact if_pos (extentCheck_bad hx)

/-- An entry sent in time whose samples are read. -/
theorem doTxSend_of_read (hx : extentCheck (bits e.toNat 64 44) (if (s.strm n).type2 then txNum e else 48 * txNum e) = none)
    (hr : accRead s .fhp (bits e.toNat 64 44) (if (s.strm n).type2 then txNum e else 48 * txNum e) (s.strm n).act = .done a t) (ha : a.outc.good = true) :
    doTxSend s n none =
      txDone (txOut t n (txHeader (s.strm n) (txIdent e) (txStart e) (txNum e)) (txBody (s.strm n) (txNum e) a.data)) n e .ok := by
  have hlate : ¬ (s.asy.safe = true ∨ s.fhp.txslack.toNat < (s.tick - eDeadline e).toNat) :=
    not_or.mpr ⟨fun hh => Bool.false_ne_true (hsafe.symm.trans hh), Nat.not_lt.mpr hs⟩
  unfold doTxSend
  dsimp only
  rw [txDue_of_one h, if_pos (by rw [hok]; exact hd)]
  dsimp only
  rw [if_neg (by rw [hok]; nofun), if_neg hlate, if_neg (by rw [htx]; nofun), hx]
  dsimp only
  rw [viaPath_none, hr]
  exact if_neg (by rw [ha]; nofun)

end
end

theorem txOut_strm (s : State) (n : StreamId) (hdr body : List Byte) :
    (txOut s n hdr body).strm n = { s.strm n with seqId := (s.strm n).seqId + 1 } :=
  (State.setStrm_strm { s with fhp := { s.fhp with sent := some _ } } n n _).trans (if_pos rfl)

/-- What stands behind an entry that was sent. -/
theorem txSent_facts (h : (s.strm n).held = [{ e := e }]) (hf : t.fhp = s.fhp) (hc : t.cmk = s.cmk) (hdr body : List Byte) :
    (txDone (txOut t n hdr body) n e .ok).strm n = { txStrmDone (s.strm n) s.tick e .ok with seqId := (s.strm n).seqId + 1 } ∧
      (txDone (txOut t n hdr body) n e .ok).fhp.sent =
        some { strm := n, at0 := s.tick, seqId := (s.strm n).seqId, hdr := hdr, body := body } := by
  have hstrm : t.strm n = s.strm n := congrArg (fun f : Fhp => sget Strm.reset f.strms n.toNat) hf
  have htick : t.tick = s.tick := congrArg Cmk.tick hc
  have hout : (txOut t n hdr body).strm n = { s.strm n with seqId := (s.strm n).seqId + 1 } := by rw [txOut_strm, hstrm]
  refine ⟨?_, ?_⟩
  · rw [txDone_strm (by rw [hout]; exact h), hout, show (txOut t n hdr body).tick = s.tick from htick]
    rfl
  · rw [txDone_sent, txOut_sent, htick, hstrm]

/-! ### The entry taken (R316) -/

theorem doTxDequeue_of_taken (hen : (s.strm n).en = true) (htx : (s.strm n).tx = true) (hl : (s.strm n).held.length < 4)
    (ht : ((s.slice (queueCluster (s.strm n).qid)).queue (queueLocal (s.strm n).qid)).typ = 2)
    (hg : clusterGate s (queueCluster (s.strm n).qid) false = .pass) (hd : dequeue s (s.strm n).qid = (a, t)) (ha : a.outc.good = true)
    (h0 : natOfBytes a.data % 2 ^ 256 ≠ 0)
    (hc : criOwns s s.cri.txstrm n (txFrame s (BitVec.ofNat 256 (natOfBytes a.data))) (txIdent (BitVec.ofNat 256 (natOfBytes a.data))) = false) :
    doTxDequeue s n = t.setStrm n { t.strm n with held := (t.strm n).held ++ [{ e := BitVec.ofNat 256 (natOfBytes a.data) }] } := by
  have hne : (BitVec.ofNat 256 (natOfBytes a.data) : Entry) ≠ 0 := by
    intro hz
    exact h0 (by simpa using congrArg BitVec.toNat hz)
  have hready : ¬ ((s.strm n).en = false ∨ (s.strm n).tx = false ∨ 4 ≤ (s.strm n).held.length ∨
      ((s.slice (queueCluster (s.strm n).qid)).queue (queueLocal (s.strm n).qid)).typ ≠ 2 ∨ clusterGate s (queueCluster (s.strm n).qid) false ≠ .pass) := by
    rw [hen, htx, ht, hg]
    simp [hl]
  have hentry : ¬ (a.outc.good = false ∨ (BitVec.ofNat 256 (natOfBytes a.data) : Entry) = 0) := by
    rw [ha]
    exact not_or.mpr ⟨Bool.true_eq_false.mp, hne⟩
  unfold doTxDequeue
  dsimp only
  rw [if_neg hready, hd]
  dsimp only
  rw [if_neg hentry, if_neg (by rw [hc]; simp)]

/-! ### The record (R316) -/

theorem fabVia_pass (s u : State) (q : QueueId) (e : Entry) : fabVia s q e (.pass, u) = fabEntered (enqueue s .fabric q e) := rfl

theorem fabEntered_accepted (u : State) : fabEntered (.accepted, u) = .taken u := rfl

theorem fabEnqueue_none (s : State) (q : QueueId) (e : Entry) : fabEnqueue s q e none = fabVia s q e (queueWay s 0x91 q) := rfl

theorem fabEnqueue_of_takes {q : QueueId} (hw : (queueWay s 0x91 q).1 = .pass) (ht : queueTakes s q e) : fabEnqueue s q e none = .taken (enqueued s q e) := by
  have he := enqueue_of_takes ht (src := .fabric) nofun
  rw [fabEnqueue_none, queueWay_of_pass hw, fabVia_pass, he, fabEntered_accepted]

theorem tallyAdd_tally_congr {s t : State} (h : t.tally = s.tally) (i k : Nat) : (tallyAdd t i k).tally = (tallyAdd s i k).tally := by
  unfold tallyAdd
  rw [h]

/-- The stream behind the enqueue of its oldest record. -/
def recordEnd (n : StreamId) (rest : List PendDesc) : FabEnq → State
  | .taken t => t.setStrm n { t.strm n with recs := rest }
  | .lost _ t => t.setStrm n { t.strm n with recs := rest }
  | .wait t => t
  | .full t => t

theorem doTxRecord_eq {d : PendDesc} {rest : List PendDesc} (h : (s.strm n).recs = d :: rest) (path : PathRes) :
    doTxRecord s n path = recordEnd n rest (fabEnqueue s d.q d.e path) := by
  unfold doTxRecord
  rw [h]
  dsimp only
  generalize fabEnqueue s d.q d.e path = x
  cases x <;> rfl

theorem fabEnqueue_of_lost {o : Outc} (ho : o.good = false) (q : QueueId) : fabEnqueue s q e (some o) = .lost o s := if_neg (by rw [ho]; nofun)

end

/-- Settles O50: the entry taken, the entry that is due by its checks, and the record by its way. -/
theorem fronthaulTransmit : Obligations.FronthaulTransmit := by
  unfold Obligations.FronthaulTransmit
  intro s n e a t x due slack len pa held recd
  refine ⟨fun hen htx hl ht hg hd ha h0 => ?taken, fun hh path => ⟨fun hok => ?malformed, fun hok hd => ?early, fun hok hd hl => ?late,
    fun hok hd hs hsafe htx hp => ⟨fun o hx => ?refused, fun hx hr ha hf hc => ?sent⟩⟩, fun d rest hrecs => ⟨fun hw ht => ?enqueued, fun o ho => ?lost⟩⟩
  case taken =>
    intro h hc
    exact congrArg Host.Outcome.next (doTxDequeue_of_taken hen htx hl ht hg hd ha h0 hc)
  case malformed =>
    refine ⟨_, congrArg Host.Outcome.next (doTxSend_of_malformed hh hok), ?_, ?_, txDone_sent s n e _⟩
    · exact congrArg Strm.held (txDone_strm hh _)
    · exact congrArg Strm.recs (txDone_strm hh _)
  case early => exact congrArg Host.Outcome.next (doTxSend_of_early hh hok hd)
  case late =>
    refine ⟨_, congrArg Host.Outcome.next (doTxSend_of_late hh hok hd hl), ?_, ?_, txDone_sent s n e _, ?_⟩
    · exact congrArg Strm.held (txDone_strm hh _)
    · exact congrArg Strm.recs (txDone_strm hh _)
    · exact tallyAdd_tally_congr (txDone_tally s n e _) _ _
  case refused =>
    subst hp
    refine ⟨_, congrArg Host.Outcome.next (doTxSend_of_refused hh hok hd hs hsafe htx hx), ?_, ?_, txDone_sent s n e _⟩
    · exact congrArg Strm.held (txDone_strm hh _)
    · exact congrArg Strm.recs (txDone_strm hh _)
  case sent =>
    subst hp
    obtain ⟨hstrm, hsent⟩ := txSent_facts hh hf hc (txHeader (s.strm n) (txIdent e) (txStart e) (txNum e)) (txBody (s.strm n) (txNum e) a.data)
    refine ⟨_, congrArg Host.Outcome.next (doTxSend_of_read hh hok hd hs hsafe htx hx hr ha), ?_, ?_, ?_, hsent⟩
    · exact congrArg Strm.held hstrm
    · exact congrArg Strm.recs hstrm
    · exact congrArg Strm.seqId hstrm
  case enqueued =>
    exact ⟨_, congrArg Host.Outcome.next ((doTxRecord_eq hrecs none).trans (congrArg (recordEnd n rest) (fabEnqueue_of_takes hw ht))),
      queueGained_of_slices rfl rfl rfl (enqueued_gained s d.q d.e), congrArg Strm.recs ((State.setStrm_strm _ n n _).trans (if_pos rfl))⟩
  case lost => exact congrArg Host.Outcome.next ((doTxRecord_eq hrecs (some o)).trans (congrArg (recordEnd n rest) (fabEnqueue_of_lost ho d.q)))

end Sys2Proof.Machine
end

section
/-! Polling, presence and wrap of the cascade rings (O55): what a send leaves, the manager's count of missed polls, a worker's answer to a poll, and the ports. -/

namespace Sys2Proof.Machine

section
variable {s t : State} {f : CasFrame} {e r : Bool}

/-! ### Rings and ports -/

@[simp] theorem State.setCasRing_casRing (s : State) (r r' : Bool) (x : CasRing) : (s.setCasRing r x).casRing r' = if r' = r then x else s.casRing r' := by
  cases r <;> cases r' <;> rfl

@[simp] theorem State.setCasRing_casPort (s : State) (r e : Bool) (x : CasRing) : (s.setCasRing r x).casPort e = s.casPort e := by
  cases r <;> rfl

@[simp] theorem State.setCasPort_casPort (s : State) (e e' : Bool) (x : CasPort) : (s.setCasPort e x).casPort e' = if e' = e then x else s.casPort e' := by
  cases e <;> cases e' <;> rfl

theorem State.setCasPort_self (s : State) (e : Bool) : s.setCasPort e (s.casPort e) = s := by
  cases e <;> rfl

theorem State.setCasPort_setCasPort (s : State) (e : Bool) (x y : CasPort) : (s.setCasPort e x).setCasPort e y = s.setCasPort e y := by
  cases e <;> rfl

theorem State.setCasPort_fields (s : State) (e : Bool) (x : CasPort) :
    (s.setCasPort e x).cas.en = s.cas.en ∧ (s.setCasPort e x).cas.straperr = s.cas.straperr ∧ (s.setCasPort e x).lmp = s.lmp ∧
      (s.setCasPort e x).tally = s.tally ∧ (s.setCasPort e x).cycle = s.cycle := by
  cases e <;> exact ⟨rfl, rfl, rfl, rfl, rfl⟩

@[simp] theorem casRuns_setCasPort (s : State) (e : Bool) (x : CasPort) : casRuns (s.setCasPort e x) = casRuns s := by
  cases e <;> rfl

/-- What the rings' frames and the registers on polls do not touch: the MAC sends, and its ports pass. -/
def CasOpen (s : State) : Prop := s.asy.safe = false ∧ casRuns s = true ∧ s.cas.east.wrap = false ∧ s.cas.west.wrap = false

theorem CasOpen.casPort (h : CasOpen s) (e : Bool) : (s.casPort e).wrap = false := by
  obtain ⟨-, -, heast, hwest⟩ := h
  cases e
  · exact hwest
  · exact heast

/-- A frame goes out on ring r: the MAC sends, and the ring's port passes. -/
def CasPasses (s : State) (r : Bool) : Prop := s.asy.safe = false ∧ casRuns s = true ∧ (s.casPort (!r)).wrap = false

theorem CasOpen.passes (h : CasOpen s) (r : Bool) : CasPasses s r := ⟨h.1, h.2.1, h.casPort _⟩

/-- A frame goes out on its ring while the port passes: it is added to what the ring has sent, and counted. -/
theorem casSend_of_passes (h : CasPasses s r) (f : CasFrame) :
    casSend s r f = casTal (s.setCasRing r { s.casRing r with sent := (s.casRing r).sent ++ [f] }) 0 := by
  obtain ⟨hsafe, hruns, hw⟩ := h
  unfold casSend
  rw [if_neg (by rw [hsafe, hruns]; simp)]
  dsimp only
  rw [hw, if_neg Bool.false_ne_true, if_neg (by rw [hw]; exact Bool.false_ne_true)]

/-- A send changes what the rings have sent and the counters alone. -/
def SendsOnly (s t : State) : Prop :=
  t = { s with cas := { s.cas with ring0 := { s.cas.ring0 with sent := t.cas.ring0.sent }, ring1 := { s.cas.ring1 with sent := t.cas.ring1.sent } },
               tally := t.tally }

theorem sendsOnly_sent (s : State) (r : Bool) (l : List CasFrame) : SendsOnly s (casTal (s.setCasRing r { s.casRing r with sent := l }) 0) := by
  cases r <;> rfl

theorem casSend_sendsOnly (s : State) (r : Bool) (f : CasFrame) : SendsOnly s (casSend s r f) := by
  unfold casSend
  dsimp only
  generalize (if (s.casPort (!r)).wrap = true then !r else r) = q
  split
  · rfl
  · split
    · rfl
    · exact sendsOnly_sent s q _

/-- What a state keeps of the MAC through a send. -/
theorem SendsOnly.keeps (h : SendsOnly s t) :
    t.cas.present = s.cas.present ∧ t.cas.joined = s.cas.joined ∧ t.cas.lastPoll = s.cas.lastPoll ∧ t.cas.pollSeq = s.cas.pollSeq ∧
      t.cas.unwrapReq = s.cas.unwrapReq ∧ t.cycle = s.cycle ∧ t.mgc = s.mgc ∧ t.cmk = s.cmk := by
  rw [h]
  exact ⟨rfl, rfl, rfl, rfl, rfl, rfl, rfl, rfl⟩

theorem CasOpen.sendsOnly (ho : CasOpen s) (h : SendsOnly s t) : CasOpen t := by
  obtain ⟨hsafe, hruns, heast, hwest⟩ := ho
  rw [h]
  exact ⟨hsafe, hruns, heast, hwest⟩

theorem casSend_sent (h : CasOpen s) (r r' : Bool) (f : CasFrame) :
    ((casSend s r f).casRing r').sent = if r' = r then (s.casRing r').sent ++ [f] else (s.casRing r').sent := by
  have hr : ∀ u : State, (casTal u 0).casRing r' = u.casRing r' := fun _ => rfl
  rw [casSend_of_passes (h.passes r), hr, State.setCasRing_casRing]
  split
  next heq => rw [heq]
  · rfl

/-- A good frame that arrives: the last command's frames are forgotten, and RXFRM counts it. -/
theorem casArrive_of_clean (hl : casListens s f.east = true) (hok : frameOk f = true) (hc : f.crcBad = false ∧ f.stomped = false)
    (k : State → CasFrame → State) : casArrive s f k = k (casTal (casQuiet s) 1) { f with hops := f.hops + 1 } := by
  obtain ⟨hcrc, hst⟩ := hc
  unfold casArrive
  dsimp only
  rw [hst, hcrc, hl, hok, if_neg Bool.false_ne_true, if_neg Bool.false_ne_true, if_neg Bool.false_ne_true.symm, if_neg Bool.false_ne_true.symm]

/-! ### Polls of the manager (R361, R364) -/

/-- What POLL_SEND does about the package behind i. -/
def pollStep (s t : State) (i : Nat) : State :=
  let k : PkgId := BitVec.ofNat 4 (i + 1)
  let p := t.peer k
  if s.cas.pollmask.getLsbD (i + 1) then
    if p.answered then t.setPeer k { p with answered := false, missed := 0 }
    else
      let t1 := casTal (t.setPeer k { p with missed := p.missed + 1, ek0 := 0x7FFFFFFFFFFFFFFF, ek1 := 0x7FFFFFFFFFFFFFFF }) 10
      if 3 ≤ p.missed + 1 then { t1 with cas := { t1.cas with present := t1.cas.present &&& ~~~(BitVec.ofNat 16 (2 ^ (i + 1))) } } else t1
  else t.setPeer k { p with answered := false }

theorem pollMisses_eq (s : State) : pollMisses s = (List.range 15).foldl (pollStep s) s := rfl

/-- Package k was polled, has not answered, and this is its third miss. -/
def pollClears (s : State) (k : PkgId) : Bool :=
  s.cas.pollmask.getLsbD k.toNat && !(s.peer k).answered && decide (3 ≤ (s.peer k).missed + 1)

/-- The polls so far change the peers, the presence and the counters alone. -/
def PollsOnly (s t : State) : Prop := t = { s with cas := { s.cas with peers := t.cas.peers, present := t.cas.present }, tally := t.tally }

/-- After n packages: the others' records stand, and presence fell where the third poll was missed. -/
def PolledTo (s t : State) (n : Nat) : Prop :=
  PollsOnly s t ∧ (∀ k : PkgId, n < k.toNat → t.peer k = s.peer k) ∧
    ∀ k : PkgId, t.cas.present.getLsbD k.toNat = (s.cas.present.getLsbD k.toNat && !(decide (k ≠ 0 ∧ k.toNat ≤ n) && pollClears s k))

theorem State.setPeer_peer (s : State) (k j : PkgId) (x : Peer) : (s.setPeer k x).peer j = if j = k then x else s.peer j := by
  refine (sget_sput _ _ _ _ _).trans ?_
  simp only [BitVec.toNat_inj]
  rfl

/-- The next package's record is replaced, and its presence falls or stays. -/
theorem PolledTo.next {n : Nat} {k : PkgId} (h : PolledTo s t n) (hk : k.toNat = n + 1) (x : Peer) (d : Sparse (BitVec 48)) (P : BitVec 16)
    (hP : ∀ j : PkgId, P.getLsbD j.toNat = (t.cas.present.getLsbD j.toNat && !(decide (j = k) && pollClears s k))) :
    PolledTo s { t.setPeer k x with cas := { (t.setPeer k x).cas with present := P }, tally := d } (n + 1) := by
  obtain ⟨honly, hpeer, hpres⟩ := h
  refine ⟨?_, fun j hj => ?_, fun j => ?_⟩
  · unfold PollsOnly at honly ⊢
    rw [honly]
    rfl
  · have hne : j ≠ k := fun he => by rw [he] at hj; omega
    exact (State.setPeer_peer t k j x).trans ((if_neg hne).trans (hpeer j (by omega)))
  · refine (hP j).trans ?_
    rw [hpres j]
    by_cases he : j = k
    · have hk0 : k ≠ 0 := fun h0 => by rw [h0] at hk; exact absurd hk (Nat.succ_ne_zero n).symm
      have h1 : ¬ (k ≠ 0 ∧ k.toNat ≤ n) := fun h => by omega
      have h2 : k ≠ 0 ∧ k.toNat ≤ n + 1 := ⟨hk0, by omega⟩
      subst he
      rw [decide_eq_false h1, decide_eq_true h2, decide_eq_true rfl, Bool.false_and, Bool.not_false, Bool.and_true]
    · have hne : j.toNat ≠ n + 1 := fun hj => he (BitVec.eq_of_toNat_eq (hj.trans hk.symm))
      have h1 : (j ≠ 0 ∧ j.toNat ≤ n) ↔ (j ≠ 0 ∧ j.toNat ≤ n + 1) := and_congr_right fun _ => by omega
      rw [decide_eq_false he, Bool.false_and, Bool.not_false, Bool.and_true, decide_eq_decide.2 h1]

theorem getLsbD_drop_bit (P : BitVec 16) {n : Nat} (k j : PkgId) (hk : k.toNat = n + 1) :
    (P &&& ~~~(BitVec.ofNat 16 (2 ^ (n + 1)))).getLsbD j.toNat = (P.getLsbD j.toNat && !decide (j = k)) := by
  rw [getLsbD_and_not_two_pow P (n + 1) (by omega : j.toNat < 16), ← hk, Bool.and_comm, decide_eq_decide.2 BitVec.toNat_inj]

theorem polledTo_step {n : Nat} (hn : n < 15) (h : PolledTo s t n) : PolledTo s (pollStep s t n) (n + 1) := by
  unfold pollStep
  dsimp only
  generalize hkk : (BitVec.ofNat 4 (n + 1) : PkgId) = k
  have hk : k.toNat = n + 1 := by rw [← hkk]; exact (BitVec.toNat_ofNat _ _).trans (Nat.mod_eq_of_lt (by omega))
  have hp : t.peer k = s.peer k := h.2.1 k (by omega)
  have stay : pollClears s k = false →
      ∀ j : PkgId, t.cas.present.getLsbD j.toNat = (t.cas.present.getLsbD j.toNat && !(decide (j = k) && pollClears s k)) := fun hc j => by
    rw [hc, Bool.and_false, Bool.not_false, Bool.and_true]
  have hclears : pollClears s k = (s.cas.pollmask.getLsbD (n + 1) && !(s.peer k).answered && decide (3 ≤ (s.peer k).missed + 1)) := by
    rw [pollClears, hk]
  rw [hp]
  split
  next hmask =>
    rw [hmask, Bool.true_and] at hclears
    split
    next hans => exact h.next hk _ t.tally t.cas.present (stay (by rw [hclears, hans]; rfl))
    next hans =>
      rw [Bool.eq_false_iff.mpr hans, Bool.not_false, Bool.true_and] at hclears
      split
      next hmiss =>
        refine h.next hk _ (casTal t 10).tally (t.cas.present &&& ~~~(BitVec.ofNat 16 (2 ^ (n + 1)))) fun j => ?_
        rw [hclears, decide_eq_true hmiss, Bool.and_true]
        exact getLsbD_drop_bit _ k j hk
      next hmiss => exact h.next hk _ (casTal t 10).tally t.cas.present (stay (by rw [hclears, decide_eq_false hmiss]))
  next hmask => exact h.next hk _ t.tally t.cas.present (stay (by rw [hclears, Bool.eq_false_iff.mpr hmask, Bool.false_and, Bool.false_and]))

theorem polledTo_upto (s : State) {n : Nat} (hn : n ≤ 15) : PolledTo s ((List.range n).foldl (pollStep s) s) n := by
  induction n with
  | zero =>
    refine ⟨rfl, fun _ _ => rfl, fun k => ?_⟩
    have h0 : ¬ (k ≠ 0 ∧ k.toNat ≤ 0) := fun h => h.1 (BitVec.eq_of_toNat_eq (Nat.le_zero.mp h.2))
    rw [decide_eq_false h0, Bool.false_and, Bool.not_false, Bool.and_true]
    rfl
  | succ n ih =>
    rw [List.range_succ, List.foldl_append]
    exact polledTo_step (by omega) (ih (by omega))

/-- What POLL_SEND leaves of presence. -/
theorem pollMisses_present (s : State) (k : PkgId) :
    (pollMisses s).cas.present.getLsbD k.toNat = (s.cas.present.getLsbD k.toNat && !(decide (k ≠ 0) && pollClears s k)) := by
  rw [pollMisses_eq, (polledTo_upto s (Nat.le_refl 15)).2.2 k]
  rw [decide_eq_decide.2 (and_iff_left (by omega : k.toNat ≤ 15))]

theorem pollMisses_pollsOnly (s : State) : PollsOnly s (pollMisses s) := (polledTo_upto s (Nat.le_refl 15)).1

theorem pollMisses_open (h : CasOpen s) : CasOpen (pollMisses s) := by
  obtain ⟨hsafe, hruns, heast, hwest⟩ := h
  rw [pollMisses_pollsOnly s]
  exact ⟨hsafe, hruns, heast, hwest⟩

/-- The state in which the manager sends its polls. -/
def pollReady (s : State) : State :=
  let s2 := (takeFree (casQuiet (pollMisses s))).2
  { s2 with cas := { s2.cas with pollSeq := s.cas.pollSeq + 1, pollmask := Config.free16 (takeFree (casQuiet (pollMisses s))).1, lastPoll := s.cycle,
                                 present := s2.cas.present ||| 1, unwrapReq := false, t1of0 := s.now, t1of1 := s.now } }

/-- The poll on a ring. -/
def pollFrame (s : State) (ring : Bool) : CasFrame :=
  let k := (takeFree (casQuiet (pollMisses s))).1
  let s2 := (takeFree (casQuiet (pollMisses s))).2
  mkFrame s 6 0 ring true (s.cas.pollSeq + 1) 0 0 (pollPayload s2 ring (s.cas.pollSeq + 1) (Config.free16 k) (s2.cas.present ||| 1) k)

theorem doPollSend_of_due (hm : isManager s = true) (hr : casRuns s = true) (hd : usCycles s.cas.pollper.toNat ≤ s.cycle - s.cas.lastPoll) :
    doPollSend s = casSend (casSend (pollReady s) false (pollFrame s false)) true (pollFrame s true) := by
  unfold doPollSend
  rw [if_neg (by rw [hm, hr]; simp [Nat.not_lt.mpr hd])]
  rfl

theorem doPollSend_early (hd : s.cycle - s.cas.lastPoll < usCycles s.cas.pollper.toNat) : doPollSend s = s := if_pos (.inr (.inr hd))

theorem pollReady_open (h : CasOpen s) : CasOpen (pollReady s) := by
  have ho := pollMisses_open h
  unfold pollReady
  generalize pollMisses s = u at ho ⊢
  obtain ⟨hsafe, hruns, heast, hwest⟩ := ho
  exact ⟨hsafe, hruns, heast, hwest⟩

theorem pollReady_sent (s : State) (r : Bool) : ((pollReady s).casRing r).sent = [] := by
  cases r <;> rfl

theorem doPollSend_sendsOnly (hm : isManager s = true) (hr : casRuns s = true) (hd : usCycles s.cas.pollper.toNat ≤ s.cycle - s.cas.lastPoll) :
    ∃ u, SendsOnly (pollReady s) u ∧ SendsOnly u (doPollSend s) :=
  ⟨casSend (pollReady s) false (pollFrame s false), casSend_sendsOnly _ _ _, by rw [doPollSend_of_due hm hr hd]; exact casSend_sendsOnly _ _ _⟩

/-- Both rings carry their poll. -/
theorem doPollSend_sent (ho : CasOpen s) (hm : isManager s = true) (hd : usCycles s.cas.pollper.toNat ≤ s.cycle - s.cas.lastPoll) (r : Bool) :
    ((doPollSend s).casRing r).sent = [pollFrame s r] := by
  have h0 := pollReady_open ho
  have h1 := h0.sendsOnly (casSend_sendsOnly _ false (pollFrame s false))
  rw [doPollSend_of_due hm ho.2.1 hd, casSend_sent h1, casSend_sent h0, pollReady_sent]
  cases r <;> rfl

/-- POLL_SEND: the count of polls, its time, and the presence that is left (R361, R364). -/
theorem doPollSend_fields (hm : isManager s = true) (hr : casRuns s = true) (hd : usCycles s.cas.pollper.toNat ≤ s.cycle - s.cas.lastPoll) :
    (doPollSend s).cas.pollSeq = s.cas.pollSeq + 1 ∧ (doPollSend s).cas.lastPoll = s.cycle ∧ (doPollSend s).cas.unwrapReq = false ∧
      (doPollSend s).cas.present = (pollMisses s).cas.present ||| 1 := by
  obtain ⟨u, h0, h1⟩ := doPollSend_sendsOnly hm hr hd
  obtain ⟨hp0, -, hl0, hs0, hu0, -⟩ := h0.keeps
  obtain ⟨hp1, -, hl1, hs1, hu1, -⟩ := h1.keeps
  exact ⟨hs1.trans hs0, hl1.trans hl0, hu1.trans hu0, hp1.trans hp0⟩

/-- The manager's own presence aside, a package is present unless this was its third missed poll. -/
theorem pollSend_present (s : State) (k : PkgId) (hk : k ≠ 0) :
    ((pollMisses s).cas.present ||| 1).getLsbD k.toNat = (s.cas.present.getLsbD k.toNat && !pollClears s k) := by
  have h0 : k.toNat ≠ 0 := fun h => hk (BitVec.eq_of_toNat_eq h)
  rw [show (1 : BitVec 16) = BitVec.ofNat 16 (2 ^ 0) from rfl, getLsbD_or_two_pow _ 0 (by omega : k.toNat < 16), decide_eq_false h0, Bool.false_or,
    pollMisses_present, decide_eq_true hk, Bool.true_and]

theorem pollSend_cleared {k : PkgId} (hk : k ≠ 0) (hmask : s.cas.pollmask.getLsbD k.toNat = true) (hans : (s.peer k).answered = false)
    (hmiss : 3 ≤ (s.peer k).missed + 1) : ((pollMisses s).cas.present ||| 1).getLsbD k.toNat = false := by
  rw [pollSend_present s k hk, pollClears, hmask, hans, decide_eq_true hmiss]
  exact Bool.and_false _

theorem pollSend_kept {k : PkgId} (hk : k ≠ 0)
    (h : s.cas.pollmask.getLsbD k.toNat = false ∨ (s.peer k).answered = true ∨ (s.peer k).missed + 1 < 3) :
    ((pollMisses s).cas.present ||| 1).getLsbD k.toNat = s.cas.present.getLsbD k.toNat := by
  have hc : pollClears s k = false := by
    rcases h with h | h | h
    · rw [pollClears, h, Bool.false_and, Bool.false_and]
    · rw [pollClears, h, Bool.not_true, Bool.and_false, Bool.false_and]
    · rw [pollClears, decide_eq_false (Nat.not_le.mpr h), Bool.and_false]
  rw [pollSend_present s k hk, hc, Bool.not_false, Bool.and_true]

theorem pollSend_self (s : State) : ((pollMisses s).cas.present ||| 1).getLsbD 0 = true := by
  rw [BitVec.getLsbD_or]
  exact Bool.or_true _

/-! ### A worker's poll (R361 to R364) -/

/-- What a poll gives the worker: it has joined, with the manager's presence, time and mailbox. -/
def pollJoin (t : State) (g : CasFrame) : State :=
  let d := g.payload
  let x : PollTimes := { t2 := t.now, t3 := t.now, corr := BitVec.ofNat 64 (pF d 0x18 8) }
  { t with cas := { t.cas with
      joined := true, present := BitVec.ofNat 16 (pF d 0x14 2), lastPoll := t.cycle,
      theta := ((if g.east then t.cas.timesE else t.cas.timesW).bind (pollTheta t d)).or t.cas.theta,
      timesE := if g.east then some x else t.cas.timesE, timesW := if g.east then t.cas.timesW else some x,
      mbox := if pF d 0xB0 1 % 16 = t.mgc.pkgid.toNat then (d.drop 0xC0).take 64 else t.cas.mbox } }

/-- The reply to a poll, where its mask names the package. -/
def pollAnswer (t : State) (g : CasFrame) : State :=
  if (pF g.payload 4 4).testBit t.mgc.pkgid.toNat then
    let (k, t4) := takeFree t
    casSend t4 (!g.east) (mkFrame t4 7 0 (!g.east) false g.tag 0 0 (replyPayload t4 (pF g.payload 0 4) k))
  else t

/-- The poll's time for the CASCADE sources, and its UNWRAP. -/
def pollEffects (t : State) (g : CasFrame) : State :=
  let w1 := pF g.payload 4 4
  let t2 := pollSources t g.east (BitVec.ofNat 4 (w1 / 65536)) (bitOf w1 20)
  if bitOf w1 21 then casUnwrap t2 else t2

theorem doPoll_of_clean (ht : f.typ = 6) (hs : f.src ≠ s.mgc.pkgid) (hl : casListens s f.east = true) (hok : frameOk f = true)
    (hc : f.crcBad = false ∧ f.stomped = false) (hh : f.hops ≠ 30) :
    doPoll s f =
      let g : CasFrame := { f with hops := f.hops + 1 }
      pollAnswer (pollEffects (pollJoin (casForward (casTal (casQuiet s) 1) g) g) g) g := by
  have hh' : ({ f with hops := f.hops + 1 } : CasFrame).hops ≠ 31 := fun h => hh <| by
    have h31 : f.hops + 1 = 31 := h
    bv_omega
  have hbad : frameBad { f with hops := f.hops + 1 } = false := by
    obtain ⟨hcrc, hst⟩ := hc
    rw [frameBad, hcrc, hst]
    rfl
  unfold doPoll
  rw [if_neg (fun h => h.elim (fun h => h ht) hs), casArrive_of_clean hl hok hc]
  dsimp only
  rw [if_neg hh', if_neg (by rw [hbad]; exact Bool.false_ne_true)]
  rfl

/-- A poll that is forwarded keeps its source, its tag and its hops. -/
def SamePoll (m g : CasFrame) : Prop := m.typ = 6 ∧ m.hops = g.hops ∧ m.src = g.src ∧ m.tag = g.tag

theorem casForward_of_poll (s : State) (ht : f.typ = 6) : ∃ m, casForward s f = casSend (residence s).2 f.east m ∧ SamePoll m f := by
  unfold casForward
  dsimp only
  rw [if_pos ht]
  exact ⟨_, rfl, ht, rfl, rfl, rfl⟩

theorem residence_open (h : CasOpen s) : CasOpen (residence s).2 := h

theorem arrived_open (h : CasOpen s) : CasOpen (casTal (casQuiet s) 1) := h

theorem arrived_sent (s : State) (r : Bool) : ((casTal (casQuiet s) 1).casRing r).sent = [] := by
  cases r <;> rfl

theorem residence_casRing (s : State) (r : Bool) : (residence s).2.casRing r = s.casRing r := rfl

/-- Forwarding sends the poll on its own ring and nothing on the other. -/
theorem casForward_sent (h : CasOpen s) (ht : f.typ = 6) :
    ∃ m, SamePoll m f ∧ ∀ r : Bool, ((casForward s f).casRing r).sent = if r = f.east then (s.casRing r).sent ++ [m] else (s.casRing r).sent := by
  obtain ⟨m, hm, hsame⟩ := casForward_of_poll s ht
  refine ⟨m, hsame, fun r => ?_⟩
  rw [hm, casSend_sent (residence_open h), residence_casRing]

theorem casForward_open (h : CasOpen s) (ht : f.typ = 6) : CasOpen (casForward s f) := by
  obtain ⟨m, hm, -⟩ := casForward_of_poll s ht
  rw [hm]
  exact (residence_open h).sendsOnly (casSend_sendsOnly _ _ _)

theorem casForward_kept (s : State) (ht : f.typ = 6) :
    (casForward s f).cycle = s.cycle ∧ (casForward s f).mgc = s.mgc := by
  obtain ⟨m, hm, -⟩ := casForward_of_poll s ht
  obtain ⟨-, -, -, -, -, hcyc, hmgc, -⟩ := (casSend_sendsOnly (residence s).2 f.east m).keeps
  rw [hm]
  exact ⟨hcyc, hmgc⟩

theorem pollJoin_open (h : CasOpen s) (f : CasFrame) : CasOpen (pollJoin s f) := h

theorem pollJoin_casRing (s : State) (f : CasFrame) (r : Bool) : (pollJoin s f).casRing r = s.casRing r := rfl

theorem SlotsOnly.cas (h : SlotsOnly s t) : t.cas = s.cas := by
  rw [h]

theorem SlotsOnly.mgc (h : SlotsOnly s t) : t.mgc = s.mgc := by
  rw [h]

theorem SlotsOnly.open (h : SlotsOnly s t) (ho : CasOpen s) : CasOpen t := by
  obtain ⟨hsafe, hruns, heast, hwest⟩ := ho
  rw [h]
  exact ⟨hsafe, hruns, heast, hwest⟩

theorem casUnwrap_of_open (h : CasOpen s) : casUnwrap s = s := by
  have hp : ∀ e, ¬ ((s.casPort e).wrap = true ∧ (s.casPort e).lock = true) := fun e hw => absurd (h.casPort e) (by rw [hw.1]; exact Bool.false_ne_true.symm)
  unfold casUnwrap
  rw [List.foldl_cons, if_neg (hp true), List.foldl_cons, if_neg (hp false), List.foldl_nil]

theorem pollSources_slotsOnly (s : State) (e : Bool) (rank : BitVec 4) (ok : Bool) : SlotsOnly s (pollSources s e rank ok) :=
  (foldl_slotsWhere (P := fun x => x.en = true ∧ x.typ = 5 ∧ x.inst.toNat = b2n (!e)) (y := fun t x => { x.setValid t.cycle ok with ql := rank })
    (fun t x ht => by rw [ht])).1

theorem pollEffects_slotsOnly (h : CasOpen s) (f : CasFrame) : SlotsOnly s (pollEffects s f) := by
  have hs := pollSources_slotsOnly s f.east (BitVec.ofNat 4 (pF f.payload 4 4 / 65536)) (bitOf (pF f.payload 4 4) 20)
  unfold pollEffects
  dsimp only
  split
  · rw [casUnwrap_of_open (hs.open h)]
    exact hs
  · exact hs

/-- A worker that answers changes what a send changes. -/
theorem pollAnswer_kept (s : State) (f : CasFrame) :
    (pollAnswer s f).cas.joined = s.cas.joined ∧ (pollAnswer s f).cas.present = s.cas.present ∧ (pollAnswer s f).cas.lastPoll = s.cas.lastPoll := by
  unfold pollAnswer
  split
  · obtain ⟨hpres, hjoin, hlast, -⟩ := (casSend_sendsOnly (takeFree s).2 (!f.east) (mkFrame (takeFree s).2 7 0 (!f.east) false f.tag 0 0
      (replyPayload (takeFree s).2 (pF f.payload 0 4) (takeFree s).1))).keeps
    exact ⟨hjoin, hpres, hlast⟩
  · exact ⟨rfl, rfl, rfl⟩

theorem pollAnswer_named (h : CasOpen s) (hn : (pF f.payload 4 4).testBit s.mgc.pkgid.toNat = true) :
    ∃ m : CasFrame, (m.typ = 7 ∧ m.dst = 0 ∧ m.tag = f.tag) ∧ ∀ r : Bool, ((pollAnswer s f).casRing r).sent =
      if r = !f.east then (s.casRing r).sent ++ [m] else (s.casRing r).sent := by
  refine ⟨mkFrame (takeFree s).2 7 0 (!f.east) false f.tag 0 0 (replyPayload (takeFree s).2 (pF f.payload 0 4) (takeFree s).1), ⟨rfl, rfl, rfl⟩,
    fun r => ?_⟩
  have ho : CasOpen (takeFree s).2 := h
  unfold pollAnswer
  rw [if_pos hn]
  exact casSend_sent ho _ _ _

theorem pollAnswer_other (hn : (pF f.payload 4 4).testBit s.mgc.pkgid.toNat = false) : pollAnswer s f = s := by
  unfold pollAnswer
  rw [hn]
  exact if_neg Bool.false_ne_true

/-- The worker's state before it answers a good poll. -/
def polled (s : State) (f : CasFrame) : State := pollEffects (pollJoin (casForward (casTal (casQuiet s) 1) f) f) f

section
variable (ho : CasOpen s) (ht : f.typ = 6)
include ho ht

theorem polled_slotsOnly : SlotsOnly (pollJoin (casForward (casTal (casQuiet s) 1) f) f) (polled s f) :=
  pollEffects_slotsOnly (pollJoin_open (casForward_open (arrived_open ho) ht) f) f

theorem polled_open : CasOpen (polled s f) :=
  (polled_slotsOnly ho ht).open (pollJoin_open (casForward_open (arrived_open ho) ht) f)

theorem polled_fields :
    (polled s f).cas.joined = true ∧ (polled s f).cas.present = BitVec.ofNat 16 (pF f.payload 0x14 2) ∧ (polled s f).cas.lastPoll = s.cycle ∧
      (polled s f).mgc = s.mgc := by
  obtain ⟨hcyc, hmgc⟩ := casForward_kept (casTal (casQuiet s) 1) ht
  have hs := polled_slotsOnly ho ht
  rw [hs.cas, hs.mgc]
  exact ⟨rfl, rfl, hcyc, hmgc⟩

/-- The poll goes on to the next package; nothing has been answered yet. -/
theorem polled_sent : ∃ m, SamePoll m f ∧ ∀ r : Bool, ((polled s f).casRing r).sent = if r = f.east then [m] else [] := by
  obtain ⟨m, hm, hsent⟩ := casForward_sent (arrived_open ho) ht
  have hr : ∀ r, (polled s f).casRing r = (casForward (casTal (casQuiet s) 1) f).casRing r := fun r => by
    rw [State.casRing, (polled_slotsOnly ho ht).cas]
    rfl
  refine ⟨m, hm, fun r => ?_⟩
  rw [hr, hsent, arrived_sent]
  rfl

end

/-- POLL_RECEIVE at a worker: it joins, forwards the poll, and answers it where the poll names it. -/
theorem doPoll_result (ho : CasOpen s) (ht : f.typ = 6) (hs : f.src ≠ s.mgc.pkgid) (hl : casListens s f.east = true) (hok : frameOk f = true)
    (hc : f.crcBad = false ∧ f.stomped = false) (hh : f.hops ≠ 30) :
    (doPoll s f).cas.joined = true ∧ (doPoll s f).cas.present = BitVec.ofNat 16 (pF f.payload 0x14 2) ∧ (doPoll s f).cas.lastPoll = s.cycle ∧
      (∃ m, ((doPoll s f).casRing f.east).sent = [m] ∧ m.typ = 6 ∧ m.hops = f.hops + 1 ∧ m.src = f.src ∧ m.tag = f.tag) ∧
      ((pF f.payload 4 4).testBit s.mgc.pkgid.toNat = true →
        ∃ m, ((doPoll s f).casRing (!f.east)).sent = [m] ∧ m.typ = 7 ∧ m.dst = 0 ∧ m.tag = f.tag) ∧
      ((pF f.payload 4 4).testBit s.mgc.pkgid.toNat = false → ((doPoll s f).casRing (!f.east)).sent = []) := by
  have hd : doPoll s f = pollAnswer (polled s { f with hops := f.hops + 1 }) { f with hops := f.hops + 1 } := doPoll_of_clean ht hs hl hok hc hh
  have hne : f.east ≠ !f.east := by cases f.east <;> exact Bool.noConfusion
  have hopen := polled_open (f := { f with hops := f.hops + 1 }) ho ht
  obtain ⟨hjoin, hpres, hlast, hmgc⟩ := polled_fields (f := { f with hops := f.hops + 1 }) ho ht
  obtain ⟨m, ⟨htyp, hhops, hsrc, htag⟩, hsent⟩ := polled_sent (f := { f with hops := f.hops + 1 }) ho ht
  obtain ⟨hjoin', hpres', hlast'⟩ := pollAnswer_kept (polled s { f with hops := f.hops + 1 }) { f with hops := f.hops + 1 }
  generalize polled s { f with hops := f.hops + 1 } = u at hd hopen hjoin hpres hlast hmgc hsent hjoin' hpres' hlast'
  have hfwd : ((doPoll s f).casRing f.east).sent = [m] := by
    rw [hd]
    by_cases hn : (pF f.payload 4 4).testBit u.mgc.pkgid.toNat = true
    · obtain ⟨m', -, hm'⟩ := pollAnswer_named (f := { f with hops := f.hops + 1 }) hopen hn
      exact (hm' f.east).trans ((if_neg hne).trans ((hsent f.east).trans (if_pos rfl)))
    · rw [pollAnswer_other (f := { f with hops := f.hops + 1 }) (Bool.eq_false_iff.mpr hn)]
      exact (hsent f.east).trans (if_pos rfl)
  rw [hd]
  refine ⟨hjoin'.trans hjoin, hpres'.trans hpres, hlast'.trans hlast, ⟨m, hd ▸ hfwd, htyp, hhops, hsrc, htag⟩, fun hn => ?_, fun hn => ?_⟩
  · obtain ⟨m', hm, hm'⟩ := pollAnswer_named (f := { f with hops := f.hops + 1 }) hopen (by rw [hmgc]; exact hn)
    refine ⟨m', (hm' (!f.east)).trans ((if_pos rfl).trans ?_), hm⟩
    rw [hsent, if_neg hne.symm]
    rfl
  · rw [pollAnswer_other (f := { f with hops := f.hops + 1 }) (by rw [hmgc]; exact hn), hsent, if_neg hne.symm]

/-! ### Replies at the manager, and a worker without polls (R362, R364) -/

/-- What the manager notes of a reply. -/
def replyNoted (t : State) (g : CasFrame) : State :=
  let p := t.peer g.src
  let copy := !g.ring
  let e : BitVec 64 := BitVec.ofInt 64 ((t.units : Int) - sF g.payload 0x28 - (tsUnits (if copy then t.cas.t1of1 else t.cas.t1of0) : Int))
  let t1 := t.setPeer g.src { p with answered := true, missed := 0, mailbox := (g.payload.drop 0x30).take 16,
                                     info := BitVec.ofNat 32 (pF g.payload 4 4), hops := if g.ring then g.hops else p.hops,
                                     hopsValid := p.hopsValid || g.ring, ek0 := if copy then p.ek0 else e, ek1 := if copy then e else p.ek1 }
  { t1 with cas := { t1.cas with present := t1.cas.present ||| BitVec.ofNat 16 (2 ^ g.src.toNat) } }

section
variable (ht : f.typ = 7) (hmine : casMine s f = true) (hm : isManager s = true) (hl : casListens s f.east = true) (hok : frameOk f = true)
  (hc : f.crcBad = false ∧ f.stomped = false)
include ht hmine hm hl hok hc

theorem doReply_of_clean : doReply s f =
    if pF f.payload 0 2 ≠ s.cas.pollSeq.toNat then casTal (casQuiet s) 1 else replyNoted (casTal (casQuiet s) 1) { f with hops := f.hops + 1 } := by
  have hbad : frameBad { f with hops := f.hops + 1 } = false := by
    obtain ⟨hcrc, hst⟩ := hc
    rw [frameBad, hcrc, hst]
    rfl
  have hin : ¬ (f.typ ≠ 7 ∨ casMine s f = false ∨ isManager s = false) := by
    rw [ht, hmine, hm]
    decide
  unfold doReply
  rw [if_neg hin, casArrive_of_clean hl hok hc]
  dsimp only
  rw [if_neg (by rw [hbad]; exact Bool.false_ne_true)]
  rfl

end

theorem replyNoted_peer (s : State) (f : CasFrame) :
    ((replyNoted s f).peer f.src).answered = true ∧ ((replyNoted s f).peer f.src).missed = 0 ∧
      ((replyNoted s f).peer f.src).mailbox = (f.payload.drop 0x30).take 16 ∧
      (f.ring = true → ((replyNoted s f).peer f.src).hops = f.hops ∧ ((replyNoted s f).peer f.src).hopsValid = true) := by
  have hp : ∀ (x : Peer) (P : BitVec 16), State.peer { s.setPeer f.src x with cas := { (s.setPeer f.src x).cas with present := P } } f.src = x :=
    fun x P => (State.setPeer_peer s f.src f.src x).trans (if_pos rfl)
  unfold replyNoted
  dsimp only
  rw [hp]
  exact ⟨rfl, rfl, rfl, fun hr => ⟨if_pos hr, by rw [hr]; exact Bool.or_true _⟩⟩

theorem doJoinTimeout_early (h : s.cycle - s.cas.lastPoll < 4 * usCycles s.cas.pollper.toNat) : doJoinTimeout s = s := if_pos (.inr (.inr h))

/-- JOIN_TIMEOUT: the worker has left, and its CASCADE sources are not valid. -/
theorem doJoinTimeout_of_due (hm : isManager s = false) (hj : s.cas.joined = true) (hd : 4 * usCycles s.cas.pollper.toNat ≤ s.cycle - s.cas.lastPoll) :
    (doJoinTimeout s).cas = { s.cas with joined := false, present := 0 } ∧ ∀ i, (s.csrc i).typ = 5 → ((doJoinTimeout s).csrc i).valid = false := by
  have hin : ¬ (isManager s = true ∨ s.cas.joined = false ∨ s.cycle - s.cas.lastPoll < 4 * usCycles s.cas.pollper.toNat) := by
    rw [hm, hj]
    simp [Nat.not_lt.mpr hd]
  obtain ⟨honly, hcs⟩ := foldl_slotsWhere (s := { s with cas := { s.cas with joined := false, present := 0 } }) (P := fun x => x.typ = 5)
    (y := fun t x => x.setValid t.cycle false) (fun t x ht => by rw [ht])
  unfold doJoinTimeout
  rw [if_neg hin]
  exact ⟨honly.cas, fun i hi => (congrArg ClkSrc.valid ((hcs i).trans (if_pos hi))).trans rfl⟩

/-! ### Ports (R369, R370) -/

theorem casPort_of_cas (h : t.cas = s.cas) (e : Bool) : t.casPort e = s.casPort e := by
  unfold State.casPort
  rw [h]

theorem report_cas (s : State) (n : SourceId) (d : Word) : (report s n d).cas = s.cas := by
  rw [report, queueEvent_frame]

/-- The detail of a port that wraps. -/
def wrapDetail (e : Bool) : Word := BitVec.ofNat 32 (packLE [(4, 2), (4, b2n (!e))])

theorem wrapDetail_eq (e : Bool) : wrapDetail e = BitVec.ofNat 32 (2 + if e then 0 else 16) := by
  cases e <;> rfl

theorem casWrap_of_passing (h : (s.casPort e).wrap = false) :
    casWrap s e = report (casTal (s.setCasPort e { s.casPort e with wrap := true, linkok := false, since := s.cycle }) 11) (srcHub 3) (wrapDetail e) := by
  unfold casWrap
  dsimp only
  rw [if_neg (by rw [h]; exact Bool.false_ne_true)]
  rfl

theorem casWrap_casPort (h : (s.casPort e).wrap = false) :
    (casWrap s e).casPort e = { s.casPort e with wrap := true, linkok := false, since := s.cycle } := by
  have htal : ∀ u : State, (casTal u 11).casPort e = u.casPort e := fun _ => rfl
  rw [casWrap_of_passing h, casPort_of_cas (report_cas _ _ _), htal, State.setCasPort_casPort, if_pos rfl]

/-- The event queues and the counters do not depend on the cascade MAC. -/
theorem report_tally_congr (hasy : t.asy = s.asy) (htal : t.tally = s.tally) (n : SourceId) (d : Word) : (report t n d).tally = (report s n d).tally := by
  have ht : t = { t with asy := s.asy, tally := s.tally } := by rw [← hasy, ← htal]
  rw [ht]
  unfold report queueEvent
  dsimp only
  split <;> rfl

/-- The port without lock. -/
def portLost (p : CasPort) : CasPort := { p with lock := false, linkok := false, indication := false }

theorem doLockLoss_stopped (hl : (s.casPort e).lock = true) (hr : casRuns s = false) : doLockLoss s e = s.setCasPort e (portLost (s.casPort e)) := by
  unfold doLockLoss
  dsimp only
  rw [if_neg (by rw [hl]; exact Bool.false_ne_true.symm), hr]
  rfl

theorem doLockLoss_running (hl : (s.casPort e).lock = true) (hr : casRuns s = true) :
    doLockLoss s e = casWrap (s.setCasPort e (portLost (s.casPort e))) e := by
  unfold doLockLoss
  dsimp only
  rw [if_neg (by rw [hl]; exact Bool.false_ne_true.symm), hr]
  rfl

theorem portLost_set (s : State) (e : Bool) : (s.setCasPort e (portLost (s.casPort e))).casPort e = portLost (s.casPort e) :=
  (State.setCasPort_casPort s e e _).trans (if_pos rfl)

theorem doLockLoss_port (hl : (s.casPort e).lock = true) (hw : (s.casPort e).wrap = false) (hr : casRuns s = true) :
    (doLockLoss s e).casPort e = { portLost (s.casPort e) with wrap := true, since := s.cycle } := by
  have hp : ((s.setCasPort e (portLost (s.casPort e))).casPort e).wrap = false := by rw [portLost_set]; exact hw
  obtain ⟨-, -, -, -, hcyc⟩ := s.setCasPort_fields e (portLost (s.casPort e))
  rw [doLockLoss_running hl hr, casWrap_casPort hp, portLost_set, hcyc]
  rfl

theorem setCasPort_asy (s : State) (e : Bool) (x : CasPort) : (s.setCasPort e x).asy = s.asy := by
  cases e <;> rfl

theorem doLockLoss_tally (hl : (s.casPort e).lock = true) (hw : (s.casPort e).wrap = false) (hr : casRuns s = true) :
    (doLockLoss s e).tally = (report (casTal (s.setCasPort e (s.casPort e)) 11) (srcHub 3) (wrapDetail e)).tally := by
  have hp : ((s.setCasPort e (portLost (s.casPort e))).casPort e).wrap = false := by rw [portLost_set]; exact hw
  rw [doLockLoss_running hl hr, casWrap_of_passing hp, State.setCasPort_setCasPort]
  refine report_tally_congr ?_ (tallyAdd_tally_congr ?_ _ _) _ _
  · exact (setCasPort_asy s e _).trans (setCasPort_asy s e _).symm
  · rw [(s.setCasPort_fields e _).2.2.2.1, (s.setCasPort_fields e _).2.2.2.1]

/-- A wrap indication at a port that passes and was not unwrapped of late. -/
theorem doIndication_port (hl : (s.casPort e).lock = true) (hw : (s.casPort e).wrap = false) (hr : casRuns s = true)
    (hu : (s.casPort e).unwrapAt = none) :
    (doIndication s e).casPort e = { s.casPort e with wrap := true, linkok := false, indication := true,
                                                      since := if (s.casPort e).indication then (s.casPort e).since else s.cycle } := by
  unfold doIndication
  dsimp only
  rw [if_neg (by rw [hu, hl, hr]; simp), State.setCasPort_casPort, if_pos rfl, casWrap_casPort hw]

theorem doIndication_young (hw : (s.casPort e).wrap = false) {at0 : Nat} (hu : (s.casPort e).unwrapAt = some at0)
    (hy : s.cycle - at0 < usCycles 1000) : doIndication s e = s := by
  unfold doIndication
  dsimp only
  rw [hu, hw]
  exact if_pos (.inr (.inr ⟨rfl, decide_eq_true hy⟩))

theorem doLockGain_of_lost (hl : (s.casPort e).lock = false) (hs : s.cas.straperr = false) :
    doLockGain s e = s.setCasPort e { s.casPort e with lock := true, since := s.cycle } := by
  unfold doLockGain
  rw [hl, hs]
  rfl

theorem doLockGain_of_locked (hl : (s.casPort e).lock = true) : doLockGain s e = s := if_pos (.inl hl)

theorem doWrapHold_of_held (hw : (s.casPort e).wrap = true) (hl : (s.casPort e).lock = true) (hi : (s.casPort e).indication = true)
    (hd : usCycles 100000 ≤ s.cycle - (s.casPort e).since) : doWrapHold s e = s.setCasPort e { s.casPort e with linkok := true } :=
  if_pos ⟨hw, hl, hi, hd⟩

theorem doWrapHold_early (hd : s.cycle - (s.casPort e).since < usCycles 100000) : doWrapHold s e = s :=
  if_neg fun h => absurd h.2.2.2 (Nat.not_le.mpr hd)

/-- A write of CAS_CTL with UNWRAP = 1. -/
theorem casCtlWrite_unwrap (s : State) (v : Word) :
    casCtlWrite s (v ||| 2) = { s with cas := { s.cas with en := v.getLsbD 0, unwrapReq := s.cas.unwrapReq || isManager s } } := by
  have h0 : (v ||| 2).getLsbD 0 = v.getLsbD 0 := by
    rw [BitVec.getLsbD_or]
    exact Bool.or_false _
  have h1 : (v ||| 2).getLsbD 1 = true := by
    rw [BitVec.getLsbD_or]
    exact Bool.or_true _
  unfold casCtlWrite
  rw [h0, h1, Bool.true_and]

end

/-- Settles O55: clause by clause; the manager's poll with the presence that its misses leave, the worker's answer, the reply, the join's timeout, and the
ports' lock, wrap indication and hold. -/
theorem cascadePolling : Obligations.CascadePolling := by
  unfold Obligations.CascadePolling
  intro s f e who v k c p clean bit
  refine ⟨fun hm hr => ⟨?early, ?poll⟩, ?receive, ?reply, fun hm hj => ⟨?stay, ?leave⟩, fun hl hw => ?lost, ?gain, ?locked,
    fun hw hl hi => ⟨?held, ?young⟩, ?unwrap⟩
  case early => exact fun hd => congrArg Host.Outcome.next (doPollSend_early hd)
  case poll =>
    intro hd
    obtain ⟨hseq, hlast, hreq, hpres⟩ := doPollSend_fields hm hr hd
    refine ⟨doPollSend s, rfl, hseq, hlast, hreq, ?_, fun hk hmask hans hmiss => ?_, fun hk h => ?_, fun hsafe he hw r => ?_⟩
    · rw [hpres]
      exact pollSend_self s
    · rw [hpres]
      exact pollSend_cleared hk hmask hans hmiss
    · rw [hpres]
      exact pollSend_kept hk h
    · exact ⟨pollFrame s r, doPollSend_sent ⟨hsafe, hr, he, hw⟩ hm hd r, rfl, rfl, rfl, rfl, rfl⟩
  case receive =>
    intro ht hs hl hok hc hh hsafe he hw _
    have hr : casRuns s = true := by
      rw [casListens, Bool.and_eq_true, Bool.and_eq_true] at hl
      exact hl.1.1
    exact ⟨doPoll s f, rfl, doPoll_result ⟨hsafe, hr, he, hw⟩ ht hs hl hok hc hh⟩
  case reply =>
    intro ht hmine hm hl hok hc got
    have hd := doReply_of_clean ht hmine hm hl hok hc
    refine ⟨fun hq => congrArg Host.Outcome.next (hd.trans (if_pos hq)), fun hq => ?_⟩
    obtain ⟨hans, hmiss, hmb, hhops⟩ := replyNoted_peer (casTal (casQuiet s) 1) { f with hops := f.hops + 1 }
    exact ⟨_, congrArg Host.Outcome.next (hd.trans (if_neg (not_not_intro hq))), hans, hmiss, hmb, rfl, hhops⟩
  case stay => exact fun hd => congrArg Host.Outcome.next (doJoinTimeout_early hd)
  case leave => exact fun hd => ⟨doJoinTimeout s, rfl, doJoinTimeout_of_due hm hj hd⟩
  case lost =>
    intro d wrapped
    refine ⟨fun hr => congrArg Host.Outcome.next (doLockLoss_stopped hl hr), fun hr => ⟨⟨doLockLoss s e, rfl, doLockLoss_port hl hw hr, ?_⟩, ?_, ?_⟩⟩
    · refine (doLockLoss_tally hl hw hr).trans ?_
      rw [wrapDetail_eq]
      rfl
    · intro hu
      have hp := doIndication_port hl hw hr hu
      refine ⟨doIndication s e, rfl, ?_, ?_, ?_, ?_, fun hi => ?_⟩
      · rw [hp]
      · rw [hp]
      · rw [hp]
      · rw [hp]
        exact hl
      · rw [hp]
        exact if_neg (by rw [show (s.casPort e).indication = false from hi]; exact Bool.false_ne_true)
    · exact fun at0 hu hy => congrArg Host.Outcome.next (doIndication_young hw hu hy)
  case gain => exact fun hl hs => congrArg Host.Outcome.next (doLockGain_of_lost hl hs)
  case locked => exact fun hl => congrArg Host.Outcome.next (doLockGain_of_locked hl)
  case held => exact fun hd => congrArg Host.Outcome.next (doWrapHold_of_held hw hl hi hd)
  case young => exact fun hd => congrArg Host.Outcome.next (doWrapHold_early hd)
  case unwrap =>
    intro ho
    refine congrArg Host.Outcome.next ((regCmd_of_open ho _).trans ?_)
    rw [casCtlWrite_unwrap]
    rfl

end Sys2Proof.Machine
end

section
/-! Frames and tokens of the cascade rings (O54): what arrives, the token's visit, the answers to requests and enqueues, slots and export queues. -/

namespace Sys2Proof.Machine

section
variable {s t : State} {f g : CasFrame} {r : Bool}

/-! ### Arrival (R354, R355, R357) -/

theorem casArrive_deaf (hl : casListens s f.east = false) (k : State → CasFrame → State) : casArrive s f k = s := if_pos hl

theorem casArrive_of_listening (hl : casListens s f.east = true) (hst : f.stomped = false) (k : State → CasFrame → State) :
    casArrive s f k =
      if frameOk f = false then casTal (if f.crcBad then casTal (casTal (casQuiet s) 1) 3 else casTal (casQuiet s) 1) 2
      else k (if f.crcBad then casTal (casTal (casQuiet s) 1) 3 else casTal (casQuiet s) 1) { f with hops := f.hops + 1 } := by
  unfold casArrive
  dsimp only
  rw [hst, hl, if_neg Bool.false_ne_true.symm, if_neg Bool.false_ne_true]

theorem casArrive_malformed (hl : casListens s f.east = true) (hok : frameOk f = false) (hc : f.crcBad = false ∧ f.stomped = false)
    (k : State → CasFrame → State) : casArrive s f k = casTal (casTal (casQuiet s) 1) 2 := by
  obtain ⟨hcrc, hst⟩ := hc
  rw [casArrive_of_listening hl hst, if_pos hok, hcrc, if_neg Bool.false_ne_true]

/-- A frame whose CRC is wrong is counted and passed on. -/
theorem casArrive_of_corrupt (hl : casListens s f.east = true) (hok : frameOk f = true) (hcrc : f.crcBad = true) (hst : f.stomped = false)
    (k : State → CasFrame → State) : casArrive s f k = k (casTal (casTal (casQuiet s) 1) 3) { f with hops := f.hops + 1 } := by
  rw [casArrive_of_listening hl hst, if_neg (by rw [hok]; exact Bool.false_ne_true.symm), if_pos hcrc]

theorem frameBad_of_clean (hc : f.crcBad = false ∧ f.stomped = false) : frameBad f = false := by
  rw [frameBad, hc.1, hc.2]
  rfl

theorem frameBad_of_corrupt (hcrc : f.crcBad = true) : frameBad f = true := by
  rw [frameBad, hcrc]
  rfl

theorem arrived_casRing (s : State) (r : Bool) : (casTal (casQuiet s) 1).casRing r = { s.casRing r with sent := [] } := by
  cases r <;> rfl

theorem arrived_passes (h : CasPasses s r) : CasPasses (casTal (casQuiet s) 1) r := h

/-! ### Frames that are not for this package (R353, R356) -/

section
variable (hl : casListens s f.east = true) (hmine : casMine s f = false) (h1 : f.typ ≠ 1) (h6 : f.typ ≠ 6)

theorem doTransit_deaf (hl : casListens s f.east = false) : doTransit s f = s := by
  unfold doTransit
  split
  · rfl
  · exact casArrive_deaf hl _

/-- What FRAME_TRANSIT does with a frame that has arrived. -/
def transitOn (t : State) (g : CasFrame) : State :=
  if g.src = t.mgc.pkgid then
    (if g.typ = 6 ∧ isManager t = true then (if pollUnwraps g then casUnwrap t else t) else casTal t 5)
  else if g.hops = 31 then casTal t 5
  else casForward t g

include hmine h1 h6 in
theorem doTransit_of_other : doTransit s f = casArrive s f transitOn := by
  refine if_neg ?_
  rintro (h | ⟨h, -⟩ | ⟨h, -⟩)
  · exact h1 h
  · exact h6 h
  · exact absurd h (by rw [hmine]; exact Bool.false_ne_true)

include h6 in
theorem transitOn_orphan (t : State) (h : f.src = t.mgc.pkgid ∨ f.hops = 31) : transitOn t f = casTal t 5 := by
  unfold transitOn
  by_cases hs : f.src = t.mgc.pkgid
  · rw [if_pos hs, if_neg fun h => h6 h.1]
  · rw [if_neg hs, if_pos (h.resolve_left hs)]

include h6 in
theorem transitOn_forward (t : State) (hs : f.src ≠ t.mgc.pkgid) (hh : f.hops ≠ 31) (h7 : f.typ ≠ 7) :
    transitOn t f = casSend t f.east { f with stomped := frameBad f, crcBad := false } := by
  unfold transitOn casForward
  rw [if_neg hs, if_neg hh]
  dsimp only
  rw [if_neg h6, if_neg h7]

theorem hops_succ_eq {h : BitVec 5} : h + 1 = 31 ↔ h = 30 := by
  constructor
  · intro
    bv_omega
  · rintro rfl
    rfl

include hl hmine h1 h6 in
theorem doTransit_malformed (hok : frameOk f = false) (hc : f.crcBad = false ∧ f.stomped = false) :
    doTransit s f = casTal (casTal (casQuiet s) 1) 2 :=
  (doTransit_of_other hmine h1 h6).trans (casArrive_malformed hl hok hc _)

include hl hmine h1 h6 in
theorem doTransit_orphan (hok : frameOk f = true) (hc : f.crcBad = false ∧ f.stomped = false) (h : f.src = s.mgc.pkgid ∨ f.hops = 30) :
    doTransit s f = casTal (casTal (casQuiet s) 1) 5 :=
  ((doTransit_of_other hmine h1 h6).trans (casArrive_of_clean hl hok hc _)).trans
    (transitOn_orphan (f := { f with hops := f.hops + 1 }) h6 _ (h.imp id hops_succ_eq.mpr))

include hl hmine h1 h6 in
theorem doTransit_clean (hok : frameOk f = true) (hs : f.src ≠ s.mgc.pkgid) (hh : f.hops ≠ 30) (h7 : f.typ ≠ 7)
    (hc : f.crcBad = false ∧ f.stomped = false) :
    doTransit s f = casSend (casTal (casQuiet s) 1) f.east { f with hops := f.hops + 1 } := by
  refine ((doTransit_of_other hmine h1 h6).trans (casArrive_of_clean hl hok hc _)).trans
    ((transitOn_forward (f := { f with hops := f.hops + 1 }) h6 (casTal (casQuiet s) 1) hs (fun h => hh (hops_succ_eq.mp h)) h7).trans ?_)
  rw [frameBad_of_clean (f := { f with hops := f.hops + 1 }) hc]
  obtain ⟨hcrc, hst⟩ := hc
  cases f
  cases hcrc
  cases hst
  rfl

include hl hmine h1 h6 in
theorem doTransit_corrupt (hok : frameOk f = true) (hs : f.src ≠ s.mgc.pkgid) (hh : f.hops ≠ 30) (h7 : f.typ ≠ 7)
    (hcrc : f.crcBad = true) (hst : f.stomped = false) :
    doTransit s f = casSend (casTal (casTal (casQuiet s) 1) 3) f.east { f with hops := f.hops + 1, crcBad := false, stomped := true } := by
  refine ((doTransit_of_other hmine h1 h6).trans (casArrive_of_corrupt hl hok hcrc hst _)).trans
    ((transitOn_forward (f := { f with hops := f.hops + 1 }) h6 (casTal (casTal (casQuiet s) 1) 3) hs (fun h => hh (hops_succ_eq.mp h)) h7).trans ?_)
  rw [frameBad_of_corrupt (f := { f with hops := f.hops + 1 }) hcrc]

end

/-! ### Tokens (R358, R359) -/

theorem mkFrame_congr (h : t.mgc = s.mgc) (typ : BitVec 4) (dst : PkgId) (ring bcast : Bool) (tag : BitVec 16) (act : ActId) (outc : BitVec 5)
    (d : List Byte) : mkFrame t typ dst ring bcast tag act outc d = mkFrame s typ dst ring bcast tag act outc d := by
  unfold mkFrame
  rw [h]

theorem CasPasses.sendsOnly (hp : CasPasses s r) (h : SendsOnly s t) : CasPasses t r := by
  obtain ⟨hsafe, hruns, hw⟩ := hp
  rw [h]
  exact ⟨hsafe, hruns, hw⟩

theorem CasPasses.setCasRing (hp : CasPasses s r) (x : CasRing) : CasPasses (s.setCasRing r x) r := by
  obtain ⟨hsafe, hruns, hw⟩ := hp
  cases r <;> exact ⟨hsafe, hruns, hw⟩

theorem casSend_casRing (h : CasPasses s r) (f : CasFrame) : (casSend s r f).casRing r = { s.casRing r with sent := (s.casRing r).sent ++ [f] } := by
  have hr : ∀ u : State, (casTal u 0).casRing r = u.casRing r := fun _ => rfl
  rw [casSend_of_passes h, hr, State.setCasRing_casRing, if_pos rfl]

theorem casSend_mgc (s : State) (r : Bool) (f : CasFrame) : (casSend s r f).mgc = s.mgc := by
  obtain ⟨-, -, -, -, -, -, hmgc, -⟩ := (casSend_sendsOnly s r f).keeps
  exact hmgc

/-- Frames that go out one after another. -/
theorem foldl_casSend (h : CasPasses s r) (l : List CasFrame) :
    CasPasses (l.foldl (fun t f => casSend t r f) s) r ∧ (l.foldl (fun t f => casSend t r f) s).mgc = s.mgc ∧
      (l.foldl (fun t f => casSend t r f) s).casRing r = { s.casRing r with sent := (s.casRing r).sent ++ l } := by
  induction l generalizing s with
  | nil => exact ⟨h, rfl, by rw [List.append_nil]; rfl⟩
  | cons f l ih =>
    obtain ⟨hp, hm, hr⟩ := ih (h.sendsOnly (casSend_sendsOnly s r f))
    refine ⟨hp, hm.trans (casSend_mgc s r f), hr.trans ?_⟩
    rw [casSend_casRing h, List.append_assoc]
    rfl

theorem casToken_casRing (h : CasPasses s r) (gen : BitVec 16) :
    (casToken s r gen).casRing r = { s.casRing r with sent := (s.casRing r).sent ++ [mkFrame s 1 0 r false gen 0 0 []] } :=
  casSend_casRing h _

theorem setCasRing_mgc (s : State) (r : Bool) (x : CasRing) : (s.setCasRing r x).mgc = s.mgc := by
  cases r <;> rfl

/-- The ring after a token's visit: QUOTA frames and the token have gone out. -/
theorem tokenVisit_casRing (h : CasPasses s r) (hmay : casMaySend s = true) (gen : BitVec 16) :
    (tokenVisit s r gen).casRing r =
      { s.casRing r with outq := (s.casRing r).outq.drop s.cas.quota.toNat,
                         sent := (s.casRing r).sent ++ (s.casRing r).outq.take s.cas.quota.toNat ++ [mkFrame s 1 0 r false gen 0 0 []] } := by
  obtain ⟨hp, hm, hr⟩ := foldl_casSend (h.setCasRing { s.casRing r with outq := (s.casRing r).outq.drop s.cas.quota.toNat })
    ((s.casRing r).outq.take s.cas.quota.toNat)
  unfold tokenVisit
  rw [if_pos hmay]
  dsimp only
  rw [casToken_casRing hp, hr, mkFrame_congr (hm.trans (setCasRing_mgc s r _)), State.setCasRing_casRing, if_pos rfl]

/-- What TOKEN_RECEIVE does with a token that has arrived. -/
def tokenOn (t : State) (g : CasFrame) : State :=
  if frameBad g then t
  else
    let r := g.east
    let x := t.casRing r
    if isManager t then
      if x.seen ∧ t.cycle - x.lastAt ≤ usCycles t.cas.toktmo.toNat ∧ laterGen g.tag x.lastGen = true then casTal t 7
      else tokenVisit (t.setCasRing r { x with lastGen := g.tag, lastAt := t.cycle, seen := true }) r g.tag
    else tokenVisit t r g.tag

theorem doToken_of_token (h : f.typ = 1) : doToken s f = casArrive s f tokenOn := if_neg (not_not_intro h)

/-- A token at a worker. -/
theorem tokenOn_worker (hg : frameBad g = false) (hm : isManager t = false) : tokenOn t g = tokenVisit t g.east g.tag := by
  unfold tokenOn
  rw [hg, hm]
  rfl

/-- A token of a younger generation than the last at the manager. -/
theorem tokenOn_duplicate (hg : frameBad g = false) (hm : isManager t = true) (hs : (t.casRing g.east).seen = true)
    (hd : t.cycle - (t.casRing g.east).lastAt ≤ usCycles t.cas.toktmo.toNat) (hlater : laterGen g.tag (t.casRing g.east).lastGen = true) :
    tokenOn t g = casTal t 7 := by
  unfold tokenOn
  rw [hg, hm, if_neg Bool.false_ne_true]
  dsimp only
  rw [if_pos rfl]
  exact if_pos ⟨hs, hd, hlater⟩

/-- The ring of the manager as the token passes. -/
def tokenNoted (t : State) (g : CasFrame) : CasRing := { t.casRing g.east with lastGen := g.tag, lastAt := t.cycle, seen := true }

theorem tokenOn_manager (hg : frameBad g = false) (hm : isManager t = true)
    (h : (t.casRing g.east).seen = false ∨ laterGen g.tag (t.casRing g.east).lastGen = false) :
    tokenOn t g = tokenVisit (t.setCasRing g.east (tokenNoted t g)) g.east g.tag := by
  unfold tokenOn
  rw [hg, hm, if_neg Bool.false_ne_true]
  dsimp only
  rw [if_pos rfl]
  refine if_neg fun hx => ?_
  obtain ⟨hs, -, hl⟩ := hx
  rcases h with h | h
  · exact absurd hs (by rw [h]; exact Bool.false_ne_true)
  · exact absurd hl (by rw [h]; exact Bool.false_ne_true)

theorem tokenOn_corrupt (hg : frameBad g = true) : tokenOn t g = t := if_pos hg

theorem setCasRing_kept (s : State) (r : Bool) (x : CasRing) :
    casMaySend (s.setCasRing r x) = casMaySend s ∧ (s.setCasRing r x).cas.quota = s.cas.quota := by
  cases r <;> exact ⟨rfl, rfl⟩

/-- The manager's ring after the token's visit. -/
theorem tokenVisit_noted (h : CasPasses t g.east) (hmay : casMaySend t = true) :
    (tokenVisit (t.setCasRing g.east (tokenNoted t g)) g.east g.tag).casRing g.east =
      { tokenNoted t g with outq := (t.casRing g.east).outq.drop t.cas.quota.toNat,
                            sent := (t.casRing g.east).sent ++ (t.casRing g.east).outq.take t.cas.quota.toNat ++
                              [mkFrame t 1 0 g.east false g.tag 0 0 []] } := by
  obtain ⟨hmay', hq⟩ := setCasRing_kept t g.east (tokenNoted t g)
  rw [tokenVisit_casRing (h.setCasRing _) (hmay'.trans hmay), hq, mkFrame_congr (setCasRing_mgc t g.east _), State.setCasRing_casRing, if_pos rfl]
  rfl

theorem doRegen_early {r : Bool} (h : s.cycle - (s.casRing r).lastAt < usCycles s.cas.toktmo.toNat) : doRegen s r = s := if_pos (.inr (.inr h))

/-- TOKEN_REGENERATE sends a token of the next generation. -/
theorem doRegen_casRing (hm : isManager s = true) (hp : CasPasses s r) (hd : usCycles s.cas.toktmo.toNat ≤ s.cycle - (s.casRing r).lastAt) :
    (doRegen s r).casRing r = { s.casRing r with lastGen := (s.casRing r).lastGen + 1, lastAt := s.cycle, seen := true,
                                                 sent := [mkFrame s 1 0 r false ((s.casRing r).lastGen + 1) 0 0 []] } := by
  have hp' : CasPasses (casTal (casQuiet s) 6) r := hp
  have hr : (casTal (casQuiet s) 6).casRing r = { s.casRing r with sent := [] } := by cases r <;> rfl
  have hmgc : (casTal (casQuiet s) 6).mgc = s.mgc := rfl
  unfold doRegen
  dsimp only
  rw [if_neg (by rw [hm, hp.2.1]; simp [Nat.not_lt.mpr hd]), casToken_casRing (hp'.setCasRing _), mkFrame_congr ((setCasRing_mgc _ r _).trans hmgc),
    State.setCasRing_casRing, if_pos rfl, hr]
  rfl

/-! ### Requests and responses (R355, R365, R366) -/

theorem State.setCasSlot_casSlot (s : State) (i j : Nat) (x : CasSlot) : (s.setCasSlot i x).casSlot j = if j = i then x else s.casSlot j :=
  sget_sput _ _ _ _ _

theorem State.setXq_xq (s : State) (i j : Nat) (x : XQueue) : (s.setXq i x).xq j = if j = i then x else s.xq j := sget_sput _ _ _ _ _

/-- A frame of type ty for this package is not passed over. -/
theorem not_passed {ty : BitVec 4} (ht : f.typ = ty) (hmine : casMine s f = true) : ¬ (f.typ ≠ ty ∨ casMine s f = false) := by
  rintro (h | h)
  · exact h ht
  · exact absurd hmine (by rw [h]; exact Bool.false_ne_true)

theorem reqAnswer_of_unmapped (hw : windowPa (bits (pF f.payload 0 8) 0 36) = none) : reqAnswer s f = .done (Ans.only .routeFault) s := by
  unfold reqAnswer
  rw [hw]

/-- A slot that a tag names. -/
theorem casOpen_slot {tag : BitVec 16} {i : Nat} {use : CasUse} (h : casOpen s tag = some (i, use)) : (s.casSlot i).use = use := by
  unfold casOpen at h
  dsimp only at h
  split at h
  · exact absurd h (by simp)
  · have hi := Option.some.inj h
    rw [Prod.mk.injEq] at hi
    obtain ⟨hidx, huse⟩ := hi
    rw [← hidx]
    exact huse

theorem rspAns_of_known (s : State) {f : CasFrame} (hu : outcOf f.outcome ≠ .uncorrectable) :
    rspAns s f = ({ outc := outcOf f.outcome, flags := BitVec.ofNat 32 (pF f.payload 0 4), data := f.payload.drop 8, poison := [] }, s) := if_neg hu

section
variable (hl : casListens s f.east = true) (hok : frameOk f = true) (hc : f.crcBad = false ∧ f.stomped = false) (hmine : casMine s f = true)
include hl hok hc hmine

theorem doReq_of_answered {a a0 : Ans} {u u0 : State} (ht : f.typ = 2) (h0 : reqAnswer s f = .done a0 u0)
    (h1 : reqAnswer (casTal (casQuiet s) 1) { f with hops := f.hops + 1 } = .done a u) :
    doReq s f = casQueue u (rspFrame u { f with hops := f.hops + 1 } a) := by
  have hg := frameBad_of_clean (f := { f with hops := f.hops + 1 }) hc
  unfold doReq
  rw [if_neg (not_passed ht hmine), h0]
  dsimp only
  rw [casArrive_of_clean hl hok hc, hg, h1]
  rfl

theorem doRsp_unknown (ht : f.typ = 3) (ho : casOpen s f.tag = none) : doRsp s f = casTal (casTal (casQuiet s) 1) 8 := by
  have hg := frameBad_of_clean (f := { f with hops := f.hops + 1 }) hc
  have ho' : casOpen (casTal (casQuiet s) 1) f.tag = none := ho
  unfold doRsp
  rw [if_neg (not_passed ht hmine), casArrive_of_clean hl hok hc, hg]
  dsimp only
  rw [ho']
  rfl

theorem doRsp_of_access {i : Nat} {ini : Initiator} {k : PktType} (ht : f.typ = 3) (ho : casOpen s f.tag = some (i, .access ini none k))
    (hu : outcOf f.outcome ≠ .uncorrectable) :
    doRsp s f = ((casTal (casQuiet s) 1).setCasSlot i { s.casSlot i with use := .free }).answer
      { outc := outcOf f.outcome, flags := BitVec.ofNat 32 (pF f.payload 0 4), data := f.payload.drop 8, poison := [] } := by
  have hg := frameBad_of_clean (f := { f with hops := f.hops + 1 }) hc
  have ho' : casOpen (casTal (casQuiet s) 1) f.tag = some (i, .access ini none k) := ho
  unfold doRsp
  rw [if_neg (not_passed ht hmine), casArrive_of_clean hl hok hc, hg]
  dsimp only
  rw [ho']
  dsimp only
  rw [rspAns_of_known _ (f := { f with hops := f.hops + 1 }) hu]
  rfl

/-! ### Enqueues and their answers (R367) -/

/-- The answer to an enqueue: ENQRSP with an outcome. -/
def enqAnswer (t : State) (f : CasFrame) (o : Outc) : State := casQueue t (mkFrame t 5 f.src f.ring false f.tag f.act o.code [])

/-- What the queue's answer sends back. -/
def enqSent (f : CasFrame) : EnqAns × State → State
  | (.accepted, u) => enqAnswer u f .ok
  | (.full, u) => enqAnswer u f .queueFull
  | (.refused o, u) => enqAnswer u f o

theorem doEnq_of_pass (ht : f.typ = 4) (hw : (queueWay s 0x92 (BitVec.ofNat 16 (pF f.payload 0 2))).1 = .pass) :
    doEnq s f = enqSent f (enqueue (casTal (casQuiet s) 1) .cascade (BitVec.ofNat 16 (pF f.payload 0 2)) (BitVec.ofNat 256 (pF f.payload 8 32))) := by
  have hg := frameBad_of_clean (f := { f with hops := f.hops + 1 }) hc
  unfold doEnq
  rw [if_neg (not_passed ht hmine)]
  extract_lets q e rsp
  rw [show (queueWay s 0x92 q).1 = .pass from hw]
  refine (casArrive_of_clean hl hok hc _).trans ((if_neg (by rw [hg]; exact Bool.false_ne_true)).trans ?_)
  change _ = enqSent f (enqueue (casTal (casQuiet s) 1) .cascade q e)
  generalize enqueue (casTal (casQuiet s) 1) .cascade q e = x
  obtain ⟨y, u⟩ := x
  cases y <;> rfl

/-- What ENQRSP does with the entry of an export queue. -/
def enqrspOn (t : State) (g : CasFrame) (i : Nat) (n : BitVec 4) (e : Entry) : State :=
  if g.outcome = Outc.queueFull.code then
    casQueue (t.setCasSlot i { t.casSlot i with since := t.cycle }) (xqFrame t n.toNat i ((casRoute t (t.xq n.toNat).pkg).getD g.ring) e)
  else
    let t1 := t.setCasSlot i { t.casSlot i with use := .free }
    if g.outcome = 0 then t1.setXq n.toNat { t.xq n.toNat with entry := none } else xqDrop t1 n g.outcome

theorem doEnqrsp_of_entry {i : Nat} {n : BitVec 4} {e : Entry} (ht : f.typ = 5) (ho : casOpen s f.tag = some (i, .xq n))
    (he : (s.xq n.toNat).entry = some e) : doEnqrsp s f = enqrspOn (casTal (casQuiet s) 1) { f with hops := f.hops + 1 } i n e := by
  have hg := frameBad_of_clean (f := { f with hops := f.hops + 1 }) hc
  have ho' : casOpen (casTal (casQuiet s) 1) f.tag = some (i, .xq n) := ho
  have he' : ((casTal (casQuiet s) 1).xq n.toNat).entry = some e := he
  unfold doEnqrsp
  rw [if_neg (not_passed ht hmine), casArrive_of_clean hl hok hc, hg]
  dsimp only
  rw [ho']
  dsimp only
  rw [he']
  rfl

end

theorem casQueue_slots (s : State) (f : CasFrame) : (casQueue s f).cas.slots = s.cas.slots ∧ (casQueue s f).cas.xq = s.cas.xq := by
  unfold casQueue State.setCasRing
  dsimp only
  split <;> exact ⟨rfl, rfl⟩

theorem casQueue_casSlot (s : State) (f : CasFrame) (i : Nat) : (casQueue s f).casSlot i = s.casSlot i :=
  congrArg (fun m => sget CasSlot.reset m i) (casQueue_slots s f).1

theorem casQueue_xq (s : State) (f : CasFrame) (n : Nat) : (casQueue s f).xq n = s.xq n := congrArg (fun m => sget XQueue.reset m n) (casQueue_slots s f).2

theorem casQueue_outq (s : State) (f : CasFrame) : ((casQueue s f).casRing f.ring).outq = (s.casRing f.ring).outq ++ [f] := by
  unfold casQueue
  dsimp only
  rw [State.setCasRing_casRing, if_pos rfl]

/-- A queue that was full: the entry stays, and its slot. -/
theorem enqrspOn_full {i : Nat} {n : BitVec 4} {e : Entry} (hf : g.outcome = Outc.queueFull.code) :
    ((enqrspOn t g i n e).xq n.toNat) = t.xq n.toNat ∧ ((enqrspOn t g i n e).casSlot i).use = (t.casSlot i).use := by
  unfold enqrspOn
  rw [if_pos hf]
  refine ⟨casQueue_xq _ _ _, (congrArg CasSlot.use ((casQueue_casSlot _ _ _).trans (State.setCasSlot_casSlot _ _ _ _))).trans ?_⟩
  rw [if_pos rfl]

theorem enqrspOn_taken {i : Nat} {n : BitVec 4} {e : Entry} (hf : g.outcome = 0) :
    enqrspOn t g i n e = (t.setCasSlot i { t.casSlot i with use := .free }).setXq n.toNat { t.xq n.toNat with entry := none } := by
  unfold enqrspOn
  rw [if_neg (by rw [hf]; decide)]
  exact if_pos hf

theorem enqrspOn_dropped {i : Nat} {n : BitVec 4} {e : Entry} (h0 : g.outcome ≠ 0) (hf : g.outcome ≠ Outc.queueFull.code) :
    enqrspOn t g i n e = xqDrop (t.setCasSlot i { t.casSlot i with use := .free }) n g.outcome := by
  unfold enqrspOn
  rw [if_neg hf]
  exact if_neg h0

/-- The detail of an export entry that is dropped. -/
theorem packLE_dropped (n : BitVec 4) (o : BitVec 5) : packLE [(4, 1), (4, n.toNat), (5, o.toNat)] = 1 + 16 * n.toNat + 256 * o.toNat := by
  simp only [packLE]
  omega

theorem xqDrop_eq (s : State) (n : BitVec 4) (o : BitVec 5) :
    xqDrop s n o = report (casTal (s.setXq n.toNat { s.xq n.toNat with entry := none }) 9) (srcHub 3)
      (BitVec.ofNat 32 (1 + 16 * n.toNat + 256 * o.toNat)) := by
  unfold xqDrop
  dsimp only
  rw [packLE_dropped]

/-! ### Slots and export queues (R365 to R367) -/

theorem doRemote_of_refused {ini : Initiator} {typ : PktType} {pa : Pa} {mask : BitVec 64} {d : List Byte} {act : ActId} {p : PkgId} {off : Nat}
    (hp : place pa = .remote p off) (hs : reqShape typ pa = true) (hr : casRoute s p = none) :
    doRemote s ini typ pa mask d act = s.answerOnly .routeFault := by
  have hq : remoteReq s ini none typ p off mask d act = .now .routeFault := by
    unfold remoteReq
    rw [hr]
  unfold doRemote
  rw [hp]
  dsimp only
  rw [if_neg (by rw [hs]; exact Bool.false_ne_true.symm), hq]

theorem doRemote_of_sent {ini : Initiator} {typ : PktType} {pa : Pa} {mask : BitVec 64} {d : List Byte} {act : ActId} {p : PkgId} {off i : Nat}
    (hp : place pa = .remote p off) (hs : reqShape typ pa = true) (hr : casRoute s p = some r) (hm : memberHolds s .cas = false)
    (hi : freeCasSlot s = some i) :
    doRemote s ini typ pa mask d act =
      casQueue (s.setCasSlot i { s.casSlot i with use := .access ini none typ, since := s.cycle })
        (mkFrame s 2 p r false (slotTag s i) act 0 (reqPayload typ off mask d)) := by
  have hq : remoteReq s ini none typ p off mask d act =
      .sent (casQueue (s.setCasSlot i { s.casSlot i with use := .access ini none typ, since := s.cycle })
        (mkFrame s 2 p r false (slotTag s i) act 0 (reqPayload typ off mask d))) := by
    unfold remoteReq
    rw [hr]
    dsimp only
    rw [hm, hi]
    rfl
  unfold doRemote
  rw [hp]
  dsimp only
  rw [if_neg (by rw [hs]; exact Bool.false_ne_true.symm), hq]

theorem doSlotTimeout_early {i : Nat} (h : s.cycle - (s.casSlot i).since < usCycles 2000) : doSlotTimeout s i = s := if_pos (.inr h)

/-- The slot behind its timeout. -/
def slotClosed (x : CasSlot) : CasSlot := { x with use := .free, gen := x.gen + 1 }

theorem doSlotTimeout_access {i : Nat} {ini : Initiator} {p : Option Packet} {k : PktType} (hu : (s.casSlot i).use = .access ini p k)
    (hd : usCycles 2000 ≤ s.cycle - (s.casSlot i).since) : doSlotTimeout s i = s.setCasSlot i (slotClosed (s.casSlot i)) := by
  have hin : ¬ ((s.casSlot i).use = .free ∨ s.cycle - (s.casSlot i).since < usCycles 2000) := by
    rw [hu]
    simp [Nat.not_lt.mpr hd]
  unfold doSlotTimeout
  dsimp only
  rw [if_neg hin]
  split
  next h => exact absurd (hu.symm.trans h) (by simp)
  · rfl

theorem doSlotTimeout_xq {i : Nat} {n : BitVec 4} (hu : (s.casSlot i).use = .xq n) (hd : usCycles 2000 ≤ s.cycle - (s.casSlot i).since) :
    doSlotTimeout s i = xqDrop (s.setCasSlot i (slotClosed (s.casSlot i))) n 3 := by
  have hin : ¬ ((s.casSlot i).use = .free ∨ s.cycle - (s.casSlot i).since < usCycles 2000) := by
    rw [hu]
    simp [Nat.not_lt.mpr hd]
  unfold doSlotTimeout
  dsimp only
  rw [if_neg hin]
  split
  next m h =>
    rw [hu] at h
    rw [CasUse.xq.inj h]
    rfl
  next h => exact absurd hu (h n)

section
variable {n i : Nat} {a : Ans}

/-- The state in which an export queue has taken its entry. -/
def exportHeld (n i : Nat) (a : Ans) (t : State) : State :=
  (t.setXq n { t.xq n with entry := some (BitVec.ofNat 256 (natOfBytes a.data)) }).setCasSlot i
    { t.casSlot i with use := .xq (BitVec.ofNat 4 n), since := t.cycle }

theorem exportTaken_of_entry (ho : a.outc = .ok) (hd : (a.data.any (fun b => b != 0)) = true) :
    exportTaken n i r (a, t) = casQueue (exportHeld n i a t) (xqFrame t n i r (BitVec.ofNat 256 (natOfBytes a.data))) := by
  have hall : ¬ (a.outc ≠ .ok ∨ a.data.all (fun b => b == 0) = true) := by
    rintro (h | h)
    · exact h ho
    · rw [List.any_eq_true] at hd
      obtain ⟨b, hb, hb0⟩ := hd
      have := List.all_eq_true.mp h b hb
      simp_all
  unfold exportTaken
  exact if_neg hall

theorem exportTaken_result (ho : a.outc = .ok) (hd : (a.data.any (fun b => b != 0)) = true) :
    ((exportTaken n i r (a, t)).xq n).entry = some (BitVec.ofNat 256 (natOfBytes a.data)) ∧
      ((exportTaken n i r (a, t)).casSlot i).use = .xq (BitVec.ofNat 4 n) ∧
      ((exportTaken n i r (a, t)).casRing r).outq.length = (t.casRing r).outq.length + 1 := by
  have hx : ((exportHeld n i a t).xq n).entry = some (BitVec.ofNat 256 (natOfBytes a.data)) :=
    congrArg XQueue.entry ((State.setXq_xq t n n _).trans (if_pos rfl))
  have hs : ((exportHeld n i a t).casSlot i).use = .xq (BitVec.ofNat 4 n) := congrArg CasSlot.use ((State.setCasSlot_casSlot _ i i _).trans (if_pos rfl))
  have hr : (exportHeld n i a t).casRing r = t.casRing r := rfl
  rw [exportTaken_of_entry ho hd, casQueue_xq, casQueue_casSlot]
  refine ⟨hx, hs, (congrArg List.length (casQueue_outq _ (xqFrame t n i r _))).trans ?_⟩
  rw [List.length_append]
  rfl

theorem doExport_of_ready (hen : (s.xq n).en = true) (hnone : (s.xq n).entry = none) (hm : memberHolds s .cas = false)
    (hr : casRoute s (s.xq n).pkg = some r) (hi : freeCasSlot s = some i) (hw : (queueWay s 0x92 (s.xq n).lqid).1 = .pass) :
    doExport s n = exportTaken n i r (dequeue s (s.xq n).lqid) := by
  unfold doExport
  dsimp only
  rw [if_neg (by rw [hen, hnone, hm]; simp), hr, hi, queueWay_of_pass hw]
  rfl

end

theorem passes_of_listening (hl : casListens s f.east = true) (hsafe : s.asy.safe = false) (hw : (s.casPort (!f.east)).wrap = false) :
    CasPasses s f.east := by
  rw [casListens, Bool.and_eq_true, Bool.and_eq_true] at hl
  exact ⟨hsafe, hl.1.1, hw⟩

/-! ### The token's visit (R358) -/

/-- The visit of the token f: QUOTA waiting frames and the token have gone out on its ring. -/
def TokenVisited (s t : State) (f : CasFrame) : Prop :=
  (t.casRing f.east).outq = (s.casRing f.east).outq.drop s.cas.quota.toNat ∧
    (t.casRing f.east).sent = (s.casRing f.east).outq.take s.cas.quota.toNat ++ [mkFrame s 1 0 f.east false f.tag 0 0 []]

section
variable (ht : f.typ = 1) (hl : casListens s f.east = true) (hok : frameOk f = true) (hc : f.crcBad = false ∧ f.stomped = false)
include ht hl hok hc

theorem doToken_worker (hp : CasPasses s f.east) (hmay : casMaySend s = true) (hm : isManager s = false) : TokenVisited s (doToken s f) f := by
  have hd : doToken s f = tokenVisit (casTal (casQuiet s) 1) f.east f.tag :=
    ((doToken_of_token ht).trans (casArrive_of_clean hl hok hc _)).trans
      (tokenOn_worker (g := { f with hops := f.hops + 1 }) (frameBad_of_clean (f := { f with hops := f.hops + 1 }) hc) hm)
  have hr := tokenVisit_casRing (arrived_passes hp) hmay f.tag
  unfold TokenVisited
  rw [hd, hr, arrived_casRing]
  exact ⟨rfl, rfl⟩

theorem doToken_duplicate (hm : isManager s = true) (hs : (s.casRing f.east).seen = true)
    (hd : s.cycle - (s.casRing f.east).lastAt ≤ usCycles s.cas.toktmo.toNat) (hlater : laterGen f.tag (s.casRing f.east).lastGen = true) :
    doToken s f = casTal (casTal (casQuiet s) 1) 7 := by
  have hr := arrived_casRing s f.east
  refine ((doToken_of_token ht).trans (casArrive_of_clean hl hok hc _)).trans
    (tokenOn_duplicate (g := { f with hops := f.hops + 1 }) (frameBad_of_clean (f := { f with hops := f.hops + 1 }) hc) hm ?_ ?_ ?_)
  · rw [hr]
    exact hs
  · rw [hr]
    exact hd
  · rw [hr]
    exact hlater

theorem doToken_manager (hp : CasPasses s f.east) (hmay : casMaySend s = true) (hm : isManager s = true)
    (h : (s.casRing f.east).seen = false ∨ laterGen f.tag (s.casRing f.east).lastGen = false) :
    TokenVisited s (doToken s f) f ∧ ((doToken s f).casRing f.east).lastGen = f.tag ∧ ((doToken s f).casRing f.east).lastAt = s.cycle := by
  have hr := arrived_casRing s f.east
  have hd := ((doToken_of_token ht).trans (casArrive_of_clean hl hok hc _)).trans
    (tokenOn_manager (t := casTal (casQuiet s) 1) (g := { f with hops := f.hops + 1 }) (frameBad_of_clean (f := { f with hops := f.hops + 1 }) hc) hm
      (by rw [hr]; exact h))
  have hv := tokenVisit_noted (t := casTal (casQuiet s) 1) (g := { f with hops := f.hops + 1 }) (arrived_passes hp) hmay
  rw [← hd] at hv
  unfold TokenVisited
  rw [hv, hr]
  exact ⟨⟨rfl, rfl⟩, rfl, rfl⟩

end

theorem doToken_deaf (ht : f.typ = 1) (hl : casListens s f.east = false) : doToken s f = s := (doToken_of_token ht).trans (casArrive_deaf hl _)

theorem doRsp_deaf (hl : casListens s f.east = false) : doRsp s f = s := by
  unfold doRsp
  split
  · rfl
  · exact casArrive_deaf hl _

theorem doEnqrsp_deaf (hl : casListens s f.east = false) : doEnqrsp s f = s := by
  unfold doEnqrsp
  split
  · rfl
  · exact casArrive_deaf hl _

section
variable (hl : casListens s f.east = true) (hok : frameOk f = true) (hcrc : f.crcBad = true) (hst : f.stomped = false)
include hl hok hcrc hst

theorem doToken_corrupt (ht : f.typ = 1) : doToken s f = casTal (casTal (casQuiet s) 1) 3 :=
  ((doToken_of_token ht).trans (casArrive_of_corrupt hl hok hcrc hst _)).trans
    (tokenOn_corrupt (g := { f with hops := f.hops + 1 }) (frameBad_of_corrupt (f := { f with hops := f.hops + 1 }) hcrc))

theorem doEnqrsp_corrupt (ht : f.typ = 5) (hmine : casMine s f = true) : doEnqrsp s f = casTal (casTal (casQuiet s) 1) 3 := by
  unfold doEnqrsp
  rw [if_neg (not_passed ht hmine)]
  exact (casArrive_of_corrupt hl hok hcrc hst _).trans (if_pos (frameBad_of_corrupt (f := { f with hops := f.hops + 1 }) hcrc))

theorem doRsp_corrupt (ht : f.typ = 3) (hmine : casMine s f = true) (hd : s.cas.deliverBad = false) :
    doRsp s f = casTal (casTal (casQuiet s) 1) 3 := by
  unfold doRsp
  rw [if_neg (not_passed ht hmine)]
  exact (casArrive_of_corrupt hl hok hcrc hst _).trans (if_pos ⟨frameBad_of_corrupt (f := { f with hops := f.hops + 1 }) hcrc, hd⟩)

end

end

/-- Settles O54: by the kind of frame that arrives, whether a port listens, and what the frame carries; then the token that is lost, the remote access, the
slot's timeout and the export queue. -/
theorem cascadeFrames : Obligations.CascadeFrames := by
  unfold Obligations.CascadeFrames
  intro s f ini typ pa mask d act slot n a a0 u u0 count got g clean x visit y z dropped
  refine ⟨fun hl => ⟨?deafToken, ?deafRsp, ?deafEnqrsp, ?deafTransit⟩, fun hl hmine h1 h6 => ⟨?malformed, ?orphan, fun hok hs hh h7 => ⟨?clean, ?stomp⟩⟩,
    fun hl hok hcrc hst => ⟨?corruptToken, ?corruptEnqrsp, ?corruptRsp⟩,
    fun hl hok hc => ⟨fun ht hsafe hmay hw => ⟨?worker, ?duplicate, ?manager⟩, fun ht hmine => ⟨?unmapped, ?answered⟩,
      fun ht hmine => ⟨?unknown, ?access⟩, ?enq, fun ht hmine i e ho he => ⟨?taken, ?dropped, ?full⟩⟩,
    fun hm hr r => ?regen, fun p off hp hs => ⟨?refused, ?sent⟩, fun p k hu => ⟨?early, ?closed⟩, ?xq, ?exported⟩
  case deafToken => exact fun ht => congrArg Host.Outcome.next (doToken_deaf ht hl)
  case deafRsp => exact fun _ => congrArg Host.Outcome.next (doRsp_deaf hl)
  case deafEnqrsp => exact fun _ => congrArg Host.Outcome.next (doEnqrsp_deaf hl)
  case deafTransit => exact congrArg Host.Outcome.next (doTransit_deaf hl)
  case malformed => exact fun hok hc => congrArg Host.Outcome.next (doTransit_malformed hl hmine h1 h6 hok hc)
  case orphan => exact fun hok hc h => congrArg Host.Outcome.next (doTransit_orphan hl hmine h1 h6 hok hc h)
  case clean => exact fun hc => congrArg Host.Outcome.next (doTransit_clean hl hmine h1 h6 hok hs hh h7 hc)
  case stomp => exact fun hcrc hst => congrArg Host.Outcome.next (doTransit_corrupt hl hmine h1 h6 hok hs hh h7 hcrc hst)
  case corruptToken => exact fun ht => congrArg Host.Outcome.next (doToken_corrupt hl hok hcrc hst ht)
  case corruptEnqrsp => exact fun ht hmine => congrArg Host.Outcome.next (doEnqrsp_corrupt hl hok hcrc hst ht hmine)
  case corruptRsp => exact fun ht hmine hd => congrArg Host.Outcome.next (doRsp_corrupt hl hok hcrc hst ht hmine hd)
  case worker => exact fun hm => ⟨doToken s f, rfl, doToken_worker ht hl hok hc (passes_of_listening hl hsafe hw) hmay hm⟩
  case duplicate => exact fun hm hs hd hlater => congrArg Host.Outcome.next (doToken_duplicate ht hl hok hc hm hs hd hlater)
  case manager => exact fun hm h => ⟨doToken s f, rfl, doToken_manager ht hl hok hc (passes_of_listening hl hsafe hw) hmay hm h⟩
  case unmapped =>
    exact fun hw => congrArg Host.Outcome.next (doReq_of_answered hl hok hc hmine ht (reqAnswer_of_unmapped hw) (reqAnswer_of_unmapped hw))
  case answered => exact fun h0 h1 => congrArg Host.Outcome.next (doReq_of_answered hl hok hc hmine ht h0 h1)
  case unknown => exact fun ho => congrArg Host.Outcome.next (doRsp_unknown hl hok hc hmine ht ho)
  case access => exact fun i k ho hu => congrArg Host.Outcome.next (doRsp_of_access hl hok hc hmine ht ho hu)
  case enq =>
    intro ht hmine q e answer hw
    have hd := doEnq_of_pass hl hok hc hmine ht hw
    exact ⟨fun h => congrArg Host.Outcome.next (hd.trans (congrArg (enqSent f) h)), fun h => congrArg Host.Outcome.next (hd.trans (congrArg (enqSent f) h)),
      fun o h => congrArg Host.Outcome.next (hd.trans (congrArg (enqSent f) h))⟩
  case taken =>
    exact fun h => congrArg Host.Outcome.next ((doEnqrsp_of_entry hl hok hc hmine ht ho he).trans (enqrspOn_taken (g := { f with hops := f.hops + 1 }) h))
  case dropped =>
    exact fun h0 hf => congrArg Host.Outcome.next ((doEnqrsp_of_entry hl hok hc hmine ht ho he).trans
      ((enqrspOn_dropped (g := { f with hops := f.hops + 1 }) h0 hf).trans (xqDrop_eq _ _ _)))
  case full =>
    intro hf
    obtain ⟨hx, hu⟩ := enqrspOn_full (t := casTal (casQuiet s) 1) (g := { f with hops := f.hops + 1 }) (i := i) (n := n) (e := e) hf
    exact ⟨_, congrArg Host.Outcome.next (doEnqrsp_of_entry hl hok hc hmine ht ho he), (congrArg XQueue.entry hx).trans he,
      hu.trans (casOpen_slot ho)⟩
  case regen =>
    intro w
    refine ⟨fun h => congrArg Host.Outcome.next (doRegen_early h), fun hd hsafe hw => ⟨doRegen s r, rfl, ?_⟩⟩
    rw [doRegen_casRing hm ⟨hsafe, hr, hw⟩ hd]
    exact ⟨rfl, rfl, rfl⟩
  case refused => exact fun hr => congrArg Host.Outcome.next (doRemote_of_refused hp hs hr)
  case sent => exact fun r i hr hm hi => congrArg Host.Outcome.next (doRemote_of_sent hp hs hr hm hi)
  case early => exact fun h => congrArg Host.Outcome.next (doSlotTimeout_early h)
  case closed => exact fun h => congrArg Host.Outcome.next (doSlotTimeout_access hu h)
  case xq => exact fun hu hd => congrArg Host.Outcome.next ((doSlotTimeout_xq hu hd).trans (xqDrop_eq _ _ _))
  case exported =>
    intro r i hen hnone hm hr hi hw hdq hcas ho hd
    have hx : doExport s n.toNat = exportTaken n.toNat i r (a, u) := (doExport_of_ready hen hnone hm hr hi hw).trans (congrArg (exportTaken n.toNat i r) hdq)
    obtain ⟨hent, huse, hlen⟩ := exportTaken_result (n := n.toNat) (i := i) (r := r) (t := u) ho hd
    have hring : u.casRing r = s.casRing r := by
      unfold State.casRing
      rw [hcas]
    exact ⟨_, congrArg Host.Outcome.next hx, hent, huse.trans (congrArg CasUse.xq ((BitVec.ofNat_toNat 4 n).trans (BitVec.setWidth_eq n))), by rw [hlen, hring]⟩

end Sys2Proof.Machine
end

section
/-! Power transactions and wakes step by step (O48): the answers to PREPARE, the drain, the wake's steps, reconciliation and the enabling of a region. -/

namespace Sys2Proof.Machine

section
variable {s t : State} {m : Member} {tx : PowerTx} {w : WakeTx} {gc : ClusterId} {r : RegionId}

/-! ### PREPARE (R442) -/

theorem doPrepareAnswer_agrees (htx : s.lmp.tx = some tx) (hm : m ∈ tx.waiting) (ha : agrees s tx m = true) :
    doPrepareAnswer s m = { s with lmp := { s.lmp with tx := some { tx with
      waiting := tx.waiting.filter (fun y => y != m), agreed := tx.agreed ++ [m], draining := (tx.waiting.filter (fun y => y != m)).isEmpty } } } := by
  have hc : tx.waiting.contains m = true := List.contains_iff_mem.mpr hm
  unfold doPrepareAnswer
  rw [htx]
  dsimp only
  rw [if_neg (by rw [hc]; exact Bool.false_ne_true.symm), if_pos ha]

/-- The first of the members that wait to refuse. -/
theorem firstRefusal_of_split {pre rest : List Member} (hw : tx.waiting = pre ++ m :: rest) (hpre : ∀ y ∈ pre, agrees s tx y = true)
    (ha : agrees s tx m = false) : firstRefusal s tx = some m := by
  unfold firstRefusal
  rw [hw, List.find?_append, List.find?_eq_none.mpr (fun y hy => by rw [hpre y hy]; exact Bool.false_ne_true), Option.none_or,
    List.find?_cons_of_pos (by rw [ha]; rfl)]

theorem doPrepareAnswer_refuses {pre rest : List Member} (htx : s.lmp.tx = some tx) (hw : tx.waiting = pre ++ m :: rest)
    (hpre : ∀ y ∈ pre, agrees s tx y = true) (ha : agrees s tx m = false) : doPrepareAnswer s m = abortTx s tx (memberRef s tx m) := by
  have hc : tx.waiting.contains m = true := List.contains_iff_mem.mpr (by rw [hw]; exact List.mem_append_right _ List.mem_cons_self)
  unfold doPrepareAnswer
  rw [htx]
  dsimp only
  rw [if_neg (by rw [hc]; exact Bool.false_ne_true.symm), if_neg (by rw [ha]; exact Bool.false_ne_true), firstRefusal_of_split hw hpre ha]

theorem doPrepareTimeout_of_due {rest : List Member} (htx : s.lmp.tx = some tx) (hw : tx.waiting = m :: rest) (hd : tx.since + 393216 ≤ s.cycle) :
    doPrepareTimeout s = abortTx s tx (memberRef s tx m + 0x100000) := by
  unfold doPrepareTimeout
  rw [htx]
  dsimp only
  rw [hw]
  exact if_neg (Nat.not_lt.mpr hd)

/-! ### The drain (R442 steps 4 to 6) -/

theorem wakeHeld_of_none (h : s.lmp.held = []) : wakeHeld s = s := by
  unfold wakeHeld
  rw [h]
  split <;> rfl

theorem powerCode_of_active (hc : clusterPower s gc = .active) (hf : powerFailed s gc = false) : powerCode s (.cluster gc) = some 0 := by
  unfold powerCode
  dsimp only
  rw [hf, hc]
  exact if_neg Bool.false_ne_true

theorem prevCode_of_code {u : PowerUnit} {c : BitVec 8} (h : powerCode s u = some c) : prevCode s u = (c, s) := by
  unfold prevCode
  rw [h]

/-- The state after the completion of a command that lowered a unit. -/
def drainDone (s : State) (tx : PowerTx) : State :=
  completeCmd s tx.ring tx.idx .ok 0 0 (BitVec.ofNat 32 ((s.cycle - tx.since) * 100 / 393216))

theorem drainDone_lmp (s : State) (tx : PowerTx) : (drainDone s tx).lmp = s.lmp := by
  unfold drainDone
  rw [completeCmd_frame]

/-- The entry of a cluster: its power state is recorded, and counted. -/
theorem finishEntry_cluster (hheld : s.lmp.held = []) (ht : tx.target = .cluster gc) :
    finishEntry s tx = lmpTal (setClusterPower { s with lmp := { s.lmp with tx := none } } gc (if tx.state = 1 then .nap else .retain)) 0 := by
  unfold finishEntry
  dsimp only
  rw [ht]
  exact wakeHeld_of_none hheld

theorem doDrain_cluster (htx : s.lmp.tx = some tx) (hd : tx.draining = true) (hdr : drained s tx = true) (hheld : s.lmp.held = [])
    (ht : tx.target = .cluster gc) (hst : tx.state = 1 ∨ tx.state = 2) (hc : clusterPower s gc = .active) (hf : powerFailed s gc = false) :
    doDrain s = lmpTal (setClusterPower { drainDone s tx with lmp := { (drainDone s tx).lmp with tx := none } } gc
      (if tx.state = 1 then .nap else .retain)) 0 := by
  have h4 : tx.state ≠ 4 := by
    rcases hst with h | h <;> rw [h] <;> decide
  have hp : prevCode s tx.target = (0, s) := prevCode_of_code (by rw [ht]; exact powerCode_of_active hc hf)
  unfold doDrain
  rw [htx]
  dsimp only
  rw [if_neg (by rw [hd, hdr]; simp), hp, if_neg h4]
  exact finishEntry_cluster ((congrArg Lmp.held (drainDone_lmp s tx)).trans hheld) ht

/-! ### Wakes (R446 to R448) -/

theorem doWakePin_enabled {i : BitVec 2} (hi : s.lmp.wakeEn.getLsbD i.toNat = true) :
    doWakePin s i = packageWake s (BitVec.ofNat 8 (2 ^ i.toNat)) i.toNat := if_pos hi

theorem packageWake_running (htx : s.lmp.tx = none) (hr : s.lmp.pkg = .run) (src : BitVec 8) (id : Nat) : packageWake s src id = s := by
  unfold packageWake
  rw [htx]
  exact if_pos (.inl hr)

theorem packageWake_asleep (htx : s.lmp.tx = none) (hr : s.lmp.pkg ≠ .run) (hf : s.lmp.wfail = false) (src : BitVec 8) (id : Nat) :
    packageWake s src id = startWakeTo s .package src none 0 0 := by
  unfold packageWake
  rw [htx]
  refine if_neg ?_
  rintro (h | h)
  · exact hr h
  · exact absurd h (by rw [hf]; exact Bool.false_ne_true)

theorem packageWake_aborts (htx : s.lmp.tx = some tx) (ht : tx.target = .package) (src : BitVec 8) (id : Nat) :
    packageWake s src id = abortTx s tx (0x80000 + id) := by
  unfold packageWake
  rw [htx]
  exact if_pos ht

section
variable (hw : s.lmp.wakes = [w])
include hw

theorem find_wake : s.lmp.wakes.find? (fun x => x.target == w.target) = some w := by
  rw [hw]
  exact List.find?_cons_of_pos (beq_self_eq_true w.target)

theorem setWake_of_one {w' : WakeTx} (ht : w'.target = w.target) : setWake s w' = { s with lmp := { s.lmp with wakes := [w'] } } := by
  unfold setWake
  rw [hw, List.map_cons, List.map_nil, if_pos ht.symm]

theorem dropWake_of_one : dropWake s w.target =
    { s with lmp := { s.lmp with wakes := [], held := s.lmp.held.filter (fun h => h.target != w.target) } } := by
  unfold dropWake
  rw [hw, List.filter_cons_of_neg (by rw [bne_self_eq_false]; exact Bool.false_ne_true), List.filter_nil]

theorem doStepReady_done (hn : nextStep s w = none) : doStepReady s w.target = wakeDone s w := by
  unfold doStepReady
  rw [find_wake hw]
  dsimp only
  rw [hn]

theorem doStepReady_oscillator (ht : w.target = .package) (hp : s.lmp.pkg = .deep) (hs : w.step = .regulator) :
    doStepReady s .package = { s with lmp := { s.lmp with wakes := [{ w with step := .oscillator, since := s.cycle }] } } := by
  have hn : nextStep s w = some .oscillator := by
    unfold nextStep
    rw [if_pos ⟨ht, hp⟩, hs]
  unfold doStepReady
  rw [← ht, find_wake hw]
  dsimp only
  rw [hn]
  exact setWake_of_one hw (w' := { w with step := .oscillator, since := s.cycle }) rfl

theorem doStepTimeout_retry (hd : w.since + (stepLimit w.step).1 ≤ s.cycle) (hr : w.retries < 3) :
    doStepTimeout s w.target = lmpTal { s with lmp := { s.lmp with wakes := [{ w with retries := w.retries + 1, since := s.cycle }] } } 4 := by
  unfold doStepTimeout
  rw [find_wake hw]
  dsimp only
  rw [if_neg (Nat.not_lt.mpr hd), if_pos hr, setWake_of_one hw (w' := { w with retries := w.retries + 1, since := s.cycle }) rfl]

theorem doStepTimeout_failed (hd : w.since + (stepLimit w.step).1 ≤ s.cycle) (hr : 3 ≤ w.retries) (ht : w.target ≠ .package) :
    doStepTimeout s w.target = failWake s w (stepLimit w.step).2 := by
  unfold doStepTimeout
  rw [find_wake hw]
  dsimp only
  rw [if_neg (Nat.not_lt.mpr hd), if_neg (Nat.not_lt.mpr hr), if_neg ht]

/-- A cluster that wakes from NAP or RETAIN is ACTIVE. -/
theorem wakeDone_cluster (ht : w.target = .cluster gc) (hcmd : w.cmd = none) (hc : clusterPower s gc = .nap ∨ clusterPower s gc = .retain)
    (hg : w.goal = 0) :
    wakeDone s w =
      let y := s.region (clusterRegion gc)
      let u := { s with lmp := { s.lmp with wakes := [], held := s.lmp.held.filter (fun h => h.target != PowerUnit.cluster gc) } }
      powerEvent (lmpTal (u.setRegion (clusterRegion gc)
        { y.setCl (clusterIndex gc) .active with failed := y.failed.filter (fun k => k != clusterIndex gc) }) 3) w .ok := by
  have hoff : ¬ (s.region (clusterRegion gc)).cl (clusterIndex gc) = .off := fun h => by
    rcases hc with hc | hc
    · exact absurd (hc.symm.trans h) (by decide)
    · exact absurd (hc.symm.trans h) (by decide)
  have hup : ∀ u : State, u.region (clusterRegion gc) = s.region (clusterRegion gc) → unitUp u 0 (.cluster gc) =
      u.setRegion (clusterRegion gc) { (s.region (clusterRegion gc)).setCl (clusterIndex gc) .active with
        failed := (s.region (clusterRegion gc)).failed.filter (fun k => k != clusterIndex gc) } := fun u hu => by
    unfold unitUp
    dsimp only
    rw [hu]
    exact if_neg hoff
  have hdrop := dropWake_of_one hw
  rw [ht] at hdrop
  have hlost : unitLost s w.target = false := by
    rw [ht]
    rfl
  unfold wakeDone finishWake
  dsimp only
  rw [if_neg (by rw [ht]; exact PowerUnit.noConfusion), hlost, hcmd, hg, ht, hup (dropWake s (.cluster gc)) rfl, hdrop]
  rfl

end

theorem report_lmp (s : State) (n : SourceId) (d : Word) : (report s n d).lmp = s.lmp := by
  rw [report, queueEvent_frame]

theorem region_of_lmp (h : t.lmp = s.lmp) (r : RegionId) : t.region r = s.region r := by
  unfold State.region
  rw [h]

/-- A region whose wake failed is FAILED; the wake has ended. -/
theorem failWake_region (hw : s.lmp.wakes = [w]) (ht : w.target = .region r) (n : Nat) :
    ((failWake s w n).region r).st = .failed ∧ (failWake s w n).lmp.wakes = [] := by
  have hlmp : ∀ u : State, (match w.cmd with | none => u | some (ring, idx) => completeOk u ring idx .wakeFailed).lmp = u.lmp := fun u => by
    cases w.cmd with
    | none => rfl
    | some c =>
      obtain ⟨ring, idx⟩ := c
      dsimp only
      unfold completeOk
      rw [completeCmd_frame]
  have hdrop : (lmpTal (dropWake s w.target) 5).lmp.wakes = [] := by
    rw [dropWake_of_one hw]
    rfl
  have hf : ∃ x : RegionState, x.st = .failed ∧ (failWake s w n).lmp = ((lmpTal (dropWake s w.target) 5).setRegion r x).lmp := by
    unfold failWake
    rw [ht]
    refine ⟨_, ?_, (hlmp _).trans (report_lmp _ _ _)⟩
    rfl
  obtain ⟨x, hx, hl⟩ := hf
  constructor
  · rw [region_of_lmp hl, State.setRegion_region, if_pos rfl]
    exact hx
  · rw [hl]
    exact hdrop

theorem doPrediction_of_retain (hr : (s.region r).st = .retain) (hp : s.lmp.pkg ≠ .deep) :
    doPrediction s r = if 450 < regionPred (sampleTemp s (r.toNat / 4)) r then startWake (sampleTemp s (r.toNat / 4)) (.region r) 0x80 none 0
      else sampleTemp s (r.toNat / 4) := by
  unfold doPrediction
  rw [if_neg (fun h => h.elim (fun h => h hr) hp)]

theorem doBrownOut_of_retain (hr : (s.region r).st = .retain) :
    doBrownOut s r = report (lmpTal (s.setRegion r { s.region r with retlost := true }) 6) (srcRegion r 6) 0 := by
  unfold doBrownOut
  exact if_neg (not_not_intro hr)

/-! ### Reconciliation, operating points (R453, R454) -/

theorem unitBusy_of_idle (htx : s.lmp.tx = none) (hw : s.lmp.wakes = []) (u : PowerUnit) : unitBusy s u = false := by
  unfold unitBusy
  rw [htx, hw]
  rfl

section
variable (htx : s.lmp.tx = none) (hw : s.lmp.wakes = []) (ha : (s.region r).st = .active)

include ha in
theorem recordLevel_of_active : recordLevel s (.region r) = 3 := by
  unfold recordLevel
  dsimp only
  rw [ha]

include ha in
theorem doReconcile_same {lv : BitVec 2} (h : 2 ≤ lv.toNat) : doReconcile s (.region r) lv = s := by
  have hb : reportLevel (.region r) lv = 3 := if_neg (Nat.not_lt.mpr h)
  unfold doReconcile
  dsimp only
  rw [recordLevel_of_active ha, hb]
  exact if_pos (.inr rfl)

include htx hw ha in
theorem doReconcile_lesser {lv : BitVec 2} (h : lv.toNat < 2) :
    doReconcile s (.region r) lv = report (lmpTal (lowerRecord s (.region r) lv.toNat) 8) (srcRegion r 7) 1 := by
  have hb : reportLevel (.region r) lv = lv.toNat := if_pos h
  unfold doReconcile
  dsimp only
  rw [recordLevel_of_active ha, hb, unitBusy_of_idle htx hw, if_neg (fun h' => h'.elim Bool.false_ne_true (by omega)), if_pos (by omega)]
  rfl

end

theorem opWrite_refused {v : Word} (h : fusedOff s r = true ∨ (s.region r).opBusy = true) : opWrite s r v = (.notPermitted, s) := if_pos h

theorem opWrite_taken {v : Word} (hf : fusedOff s r = false) (hb : (s.region r).opBusy = false) (hv : (slice v 0 2 : BitVec 2) ≠ 3) :
    opWrite s r v = (.ok, s.setRegion r (if (s.region r).st = .active then opStart s.cycle { s.region r with opReq := slice v 0 2 }
      else { s.region r with opReq := slice v 0 2 })) := by
  have hk : keepIf ((slice v 0 2 : BitVec 2) == 3) (s.region r).opReq (slice v 0 2) = slice v 0 2 := by
    unfold keepIf
    rw [beq_false_of_ne hv]
    rfl
  unfold opWrite
  dsimp only
  rw [hk, if_neg (by rw [hf, hb]; simp)]

theorem doOpDone_of_due (hb : (s.region r).opBusy = true) (hd : (s.region r).opEnd ≤ s.cycle) :
    doOpDone s r = s.setRegion r { s.region r with opBusy := false, opCur := (s.region r).opReq } := if_pos ⟨hb, hd⟩

theorem doOpDone_early (hd : s.cycle < (s.region r).opEnd) : doOpDone s r = s := if_neg fun h => absurd h.2 (Nat.not_le.mpr hd)

/-! ### Enabling a region (R435) -/

theorem startInit_initOf (s : State) (m n : InitMem) : (startInit s m).initOf n = if initKey n = initKey m then .busy else s.initOf n := by
  have h := sget_sput .blank s.inits (initKey m) (initKey n) .busy
  exact h

theorem startInit_busy {n : InitMem} (h : s.initOf n = .busy) (m : InitMem) : (startInit s m).initOf n = .busy := by
  rw [startInit_initOf, h]
  exact ite_self _

/-- A memory that is being initialised goes on while others start. -/
theorem startInits_busy {n : InitMem} (h : s.initOf n = .busy) (l : List InitMem) : (startInits s l).initOf n = .busy := by
  induction l generalizing s with
  | nil => exact h
  | cons m l ih => exact ih (startInit_busy h m)

theorem startInits_cons (s : State) (m : InitMem) (l : List InitMem) : startInits s (m :: l) = startInits (startInit s m) l := rfl

theorem startInits_lmp (s : State) (l : List InitMem) : (startInits s l).lmp = s.lmp := by
  induction l generalizing s with
  | nil => rfl
  | cons m l ih => exact ih (startInit s m)

/-- A pass over a list that leaves the Lamplighter, and the initialisers that run. -/
theorem foldl_keeps {α : Type} {f : State → α → State} (hl : ∀ t x, (f t x).lmp = t.lmp)
    (hb : ∀ t x (n : InitMem), t.initOf n = .busy → (f t x).initOf n = .busy) (l : List α) (s : State) :
    (l.foldl f s).lmp = s.lmp ∧ ∀ n : InitMem, s.initOf n = .busy → (l.foldl f s).initOf n = .busy := by
  induction l generalizing s with
  | nil => exact ⟨rfl, fun _ h => h⟩
  | cons x l ih =>
    obtain ⟨hlmp, hbusy⟩ := ih (f s x)
    exact ⟨hlmp.trans (hl s x), fun n h => hbusy n (hb s x n h)⟩

/-- The state of a cluster reset before its memories' initialisers start. -/
def clusterCleared (s : State) (gc : ClusterId) : State :=
  (((List.range 8).foldl (fun t k => t.setCore (coreOf gc (BitVec.ofNat 3 k)) Core.reset) s).setSlice gc Slice.reset).setClu gc Clu.reset

theorem clusterReset_eq (s : State) (gc : ClusterId) : clusterReset s gc = startInits (clusterCleared s gc) (clusterMems gc) := rfl

theorem clusterCleared_keeps (s : State) (gc : ClusterId) :
    (clusterCleared s gc).lmp = s.lmp ∧ ∀ n : InitMem, s.initOf n = .busy → (clusterCleared s gc).initOf n = .busy := by
  have h := foldl_keeps (f := fun t (k : Nat) => t.setCore (coreOf gc (BitVec.ofNat 3 k)) Core.reset) (fun _ _ => rfl) (fun _ _ _ h => h) (List.range 8) s
  unfold clusterCleared
  generalize List.foldl (fun t (k : Nat) => t.setCore (coreOf gc (BitVec.ofNat 3 k)) Core.reset) s (List.range 8) = u at h ⊢
  exact h

theorem clusterReset_lmp (s : State) (gc : ClusterId) : (clusterReset s gc).lmp = s.lmp := by
  rw [clusterReset_eq, startInits_lmp]
  exact (clusterCleared_keeps s gc).1

theorem clusterReset_busy {n : InitMem} (h : s.initOf n = .busy) (gc : ClusterId) : (clusterReset s gc).initOf n = .busy := by
  rw [clusterReset_eq]
  exact startInits_busy ((clusterCleared_keeps s gc).2 n h) _

theorem clusterReset_cm (s : State) (gc : ClusterId) : (clusterReset s gc).initOf (.cm gc) = .busy := by
  rw [clusterReset_eq, clusterMems, startInits_cons]
  generalize clusterCleared s gc = u
  have h : (startInit u (.cm gc)).initOf (.cm gc) = .busy := (startInit_initOf u _ _).trans (if_pos rfl)
  exact startInits_busy h _

/-- The clusters of a region at reset. -/
def clustersReset (s : State) (r : RegionId) : State := (List.range 4).foldl (fun t c => clusterReset t (clusterOf r (BitVec.ofNat 2 c))) s

theorem clustersReset_lmp (s : State) (r : RegionId) : (clustersReset s r).lmp = s.lmp :=
  (foldl_keeps (f := fun t (c : Nat) => clusterReset t (clusterOf r (BitVec.ofNat 2 c))) (fun t _ => clusterReset_lmp t _)
    (fun _ _ _ h => clusterReset_busy h _) (List.range 4) s).1

theorem clustersReset_cm (s : State) (r : RegionId) {k : Nat} (hk : k < 4) :
    (clustersReset s r).initOf (.cm (clusterOf r (BitVec.ofNat 2 k))) = .busy := by
  obtain ⟨l₁, l₂, hl⟩ := List.append_of_mem (List.mem_range.mpr hk)
  unfold clustersReset
  rw [hl, List.foldl_append, List.foldl_cons]
  exact (foldl_keeps (f := fun t (c : Nat) => clusterReset t (clusterOf r (BitVec.ofNat 2 c))) (fun t _ => clusterReset_lmp t _)
    (fun _ _ _ h => clusterReset_busy h _) l₂ _).2 _ (clusterReset_cm _ _)

/-- The engines of a region at reset. -/
def enginesReset (s : State) (r : RegionId) : State := (List.range 16).foldl (fun t i => unitResetEngine t (BitVec.ofNat 8 (16 * r.toNat + i))) s

theorem regionReset_eq (s : State) (r : RegionId) :
    regionReset s r = startInit ((enginesReset (clustersReset s r) r).setBud r Bud.reset) (.rm r) := by
  unfold regionReset enginesReset clustersReset
  rfl

theorem enginesReset_keeps (s : State) (r : RegionId) :
    (enginesReset s r).lmp = s.lmp ∧ ∀ n : InitMem, s.initOf n = .busy → (enginesReset s r).initOf n = .busy :=
  foldl_keeps (f := fun t (i : Nat) => unitResetEngine t (BitVec.ofNat 8 (16 * r.toNat + i))) (fun _ _ => rfl) (fun _ _ _ h => h) (List.range 16) s

theorem regionReset_lmp (s : State) (r : RegionId) : (regionReset s r).lmp = s.lmp := by
  have h : ∀ u : State, (startInit (u.setBud r Bud.reset) (.rm r)).lmp = u.lmp := fun _ => rfl
  rw [regionReset_eq, h, (enginesReset_keeps _ r).1, clustersReset_lmp]

theorem clusterOf_clusterRegion (gc : ClusterId) : clusterOf (clusterRegion gc) (BitVec.ofNat 2 (gc.toNat % 4)) = gc := by
  unfold clusterOf clusterRegion slice
  apply BitVec.eq_of_toNat_eq
  have := gc.isLt
  simp only [BitVec.toNat_ofNat]
  omega

theorem regionReset_busy {n : InitMem} (h : (clustersReset s r).initOf n = .busy) : (regionReset s r).initOf n = .busy := by
  have he := (enginesReset_keeps (clustersReset s r) r).2 n h
  rw [regionReset_eq]
  refine startInit_busy ?_ _
  unfold State.initOf at he ⊢
  rw [State.setBud_inits]
  exact he

theorem regionReset_cm (s : State) (hr : clusterRegion gc = r) : (regionReset s r).initOf (.cm gc) = .busy := by
  have hcm := clustersReset_cm s r (Nat.mod_lt gc.toNat (by decide : 0 < 4))
  rw [← hr, clusterOf_clusterRegion, hr] at hcm
  exact regionReset_busy hcm

theorem opStart_states (n : Nat) (x : RegionState) :
    (opStart n x).st = x.st ∧ (opStart n x).c0 = x.c0 ∧ (opStart n x).c1 = x.c1 ∧ (opStart n x).c2 = x.c2 ∧ (opStart n x).c3 = x.c3 := by
  unfold opStart
  split <;> exact ⟨rfl, rfl, rfl, rfl, rfl⟩

theorem regionEnable_fused (h : fusedOff s r = true) : regionEnable s r = (.notPermitted, s) := if_pos h

theorem regionEnable_enabled (hf : fusedOff s r = false) (hd : (s.region r).st ≠ .disabled) : regionEnable s r = (.ok, s) := by
  unfold regionEnable
  dsimp only
  rw [hf, if_neg Bool.false_ne_true, if_pos hd]

/-- A region that is enabled. -/
def regionOn (x : RegionState) : RegionState :=
  { x with st := .active, c0 := .active, c1 := .active, c2 := .active, c3 := .active, opCur := 0, retlost := false }

theorem regionEnable_of_disabled (hf : fusedOff s r = false) (hd : (s.region r).st = .disabled) :
    regionEnable s r = (.ok, unlockUnit (regionReset (s.setRegion r (opStart s.cycle (regionOn (s.region r)))) r) (.region r)) := by
  unfold regionEnable
  dsimp only
  rw [hf, if_neg Bool.false_ne_true, if_neg (not_not_intro hd)]
  rfl

/-- The region that is enabled runs, and the memories of its clusters are being initialised. -/
theorem enabled_result (s : State) (r : RegionId) (x : RegionState) (t : State) (ht : t = unlockUnit (regionReset (s.setRegion r x) r) (.region r)) :
    t.region r = x ∧ ∀ gc, clusterRegion gc = r → t.initOf (.cm gc) = .busy := by
  have hlmp := regionReset_lmp (s.setRegion r x) r
  have hcm := fun gc (hgc : clusterRegion gc = r) => regionReset_cm (s.setRegion r x) hgc
  generalize regionReset (s.setRegion r x) r = u at ht hlmp hcm
  rw [unlockUnit_frame] at ht
  have hl : t.lmp = (s.setRegion r x).lmp := by rw [ht, ← hlmp]
  refine ⟨?_, fun gc hgc => ?_⟩
  · rw [region_of_lmp hl, State.setRegion_region, if_pos rfl]
  · have hin : t.inits = u.inits := by rw [ht]
    have hbusy := hcm gc hgc
    unfold State.initOf at hbusy ⊢
    rw [hin]
    exact hbusy

theorem wrAnswer_ok_eq (u : State) : wrAnswer (.ok, u) = u.answerOnly .ok := rfl

/-- Enabling a DISABLED region. -/
theorem regionEnable_result (hf : fusedOff s r = false) (hd : (s.region r).st = .disabled) :
    ∃ t : State, wrAnswer (regionEnable s r) = t.answerOnly .ok ∧ (t.region r).st = .active ∧ (t.region r).c0 = .active ∧
      (t.region r).c1 = .active ∧ (t.region r).c2 = .active ∧ (t.region r).c3 = .active ∧
      ∀ gc, clusterRegion gc = r → t.initOf (.cm gc) = .busy := by
  have he := congrArg wrAnswer (regionEnable_of_disabled hf hd)
  obtain ⟨hreg, hcm⟩ := enabled_result s r (opStart s.cycle (regionOn (s.region r))) _ rfl
  generalize unlockUnit (regionReset (s.setRegion r (opStart s.cycle (regionOn (s.region r)))) r) (.region r) = t at he hreg hcm
  refine ⟨t, he.trans (wrAnswer_ok_eq t), ?_⟩
  rw [hreg]
  obtain ⟨hst, h0, h1, h2, h3⟩ := opStart_states s.cycle (regionOn (s.region r))
  exact ⟨hst, h0, h1, h2, h3, hcm⟩

theorem nextStep_of_unit (h : w.target ≠ .package) : nextStep s w = none := if_neg fun hp => h hp.1

end

/-- Settles O48: the transaction's answers and drain, the wake pin, the wake's steps, and the commands of a region. -/
theorem powerTransitions : Obligations.PowerTransitions := by
  unfold Obligations.PowerTransitions
  intro s m tx w gc r i who v lv x c abort lim
  refine ⟨fun htx => ⟨?agrees, ?refuses, ?silent, ?drain⟩, fun hi htx hw hf => ⟨?running, ?asleep⟩, ?aborts,
    fun hw => ⟨?cluster, ?oscillator, ?retry, ?failed⟩,
    fun hr hp => ⟨?cool, ?hot⟩, ?brownOut, fun htx hw ha => ⟨?same, ?off, ?low⟩, fun ho => ⟨?opRefused, ?opTaken⟩, fun hb => ⟨?opDone, ?opEarly⟩,
    fun ho => ⟨?fused, ?enabled, ?enable⟩⟩
  case agrees => exact fun hm ha => congrArg Host.Outcome.next (doPrepareAnswer_agrees htx hm ha)
  case refuses => exact fun pre rest hw hpre ha => congrArg Host.Outcome.next (doPrepareAnswer_refuses htx hw hpre ha)
  case silent => exact fun rest hw hd => congrArg Host.Outcome.next (doPrepareTimeout_of_due htx hw hd)
  case drain => exact fun hd hdr hheld ht hst hc hf => congrArg Host.Outcome.next (doDrain_cluster htx hd hdr hheld ht hst hc hf)
  case running => exact fun hr => congrArg Host.Outcome.next ((doWakePin_enabled hi).trans (packageWake_running htx hr _ _))
  case asleep =>
    exact fun hr => congrArg Host.Outcome.next ((doWakePin_enabled hi).trans ((packageWake_asleep htx hr hf _ _).trans (startWakeTo_of_none hw)))
  case aborts => exact fun hi htx ht => congrArg Host.Outcome.next ((doWakePin_enabled hi).trans (packageWake_aborts htx ht _ _))
  case cluster =>
    intro ht hcmd hc hg
    have hn : nextStep s w = none := nextStep_of_unit (by rw [ht]; exact PowerUnit.noConfusion)
    exact congrArg Host.Outcome.next ((doStepReady_done hw hn).trans (wakeDone_cluster hw ht hcmd hc hg))
  case oscillator => exact fun ht hp hs => congrArg Host.Outcome.next (doStepReady_oscillator hw ht hp hs)
  case retry => exact fun hd hr => congrArg Host.Outcome.next (doStepTimeout_retry hw hd hr)
  case failed =>
    exact fun hd hr ht => ⟨failWake s w (stepLimit w.step).2,
      congrArg Host.Outcome.next (doStepTimeout_failed hw hd hr (by rw [ht]; exact PowerUnit.noConfusion)), failWake_region hw ht _⟩
  case cool => exact fun hc => congrArg Host.Outcome.next ((doPrediction_of_retain hr hp).trans (if_neg (Nat.not_lt.mpr hc)))
  case hot => exact fun hc => congrArg Host.Outcome.next ((doPrediction_of_retain hr hp).trans (if_pos hc))
  case brownOut => exact fun hr => congrArg Host.Outcome.next (doBrownOut_of_retain hr)
  case same => exact fun h => congrArg Host.Outcome.next (doReconcile_same ha h)
  case off =>
    rintro rfl
    exact congrArg Host.Outcome.next (doReconcile_lesser htx hw ha (by decide))
  case low =>
    rintro rfl
    exact congrArg Host.Outcome.next (doReconcile_lesser htx hw ha (by decide))
  case opRefused => exact fun h => congrArg Host.Outcome.next ((regCmd_of_open ho _).trans (congrArg wrAnswer (opWrite_refused h)))
  case opTaken =>
    exact fun hf hb hv => congrArg Host.Outcome.next ((regCmd_of_open ho _).trans (congrArg wrAnswer (opWrite_taken hf hb hv)))
  case opDone => exact fun hd => congrArg Host.Outcome.next (doOpDone_of_due hb hd)
  case opEarly => exact fun hd => congrArg Host.Outcome.next (doOpDone_early hd)
  case fused => exact fun h => congrArg Host.Outcome.next ((regCmd_of_open ho _).trans (congrArg wrAnswer (regionEnable_fused h)))
  case enabled => exact fun hf hd => congrArg Host.Outcome.next ((regCmd_of_open ho _).trans (congrArg wrAnswer (regionEnable_enabled hf hd)))
  case enable =>
    intro hf hd
    obtain ⟨t, ht, hres⟩ := regionEnable_result hf hd
    exact ⟨t, congrArg Host.Outcome.next ((regCmd_of_open ho _).trans ht), hres⟩

end Sys2Proof.Machine
end

section
/-! How the commit of a bundle depends on the operation of slot A (O12): two commits whose effects differ in data registers only leave the same of everything else. -/

namespace Sys2Proof.Machine

section
variable {c d old : Core} {e f : Eff} {o : Op} {got gd : Got} {q : List Byte} {s t : State} {g : CoreId} {b : Bundle}

/-! ### Effects that differ in data registers -/

/-- d is c but for data registers other than SCF, its run state and what it holds. -/
def CoreTwin (c d : Core) : Prop := ∃ r x y, d = { c with r := r, st := x, held := y } ∧ r.scf = c.r.scf

/-- Effects alike but for such a difference of their cores. -/
def EffTwin (e f : Eff) : Prop := ∃ d, CoreTwin e.c d ∧ f = { e with c := d }

theorem CoreTwin.ite {p : Prop} [Decidable p] {c' d' : Core} (h : CoreTwin c d) (h' : CoreTwin c' d') :
    CoreTwin (if p then c else c') (if p then d else d') := by
  split
  · exact h
  · exact h'

theorem EffTwin.regs (h : EffTwin e f) {φ ψ : CoreRegs → CoreRegs} (hφ : ∀ r, (φ r).scf = r.scf) (hψ : ∀ r, (ψ r).scf = r.scf) :
    EffTwin (e.regs φ) (f.regs ψ) := by
  obtain ⟨_, ⟨r, x, y, rfl, hr⟩, rfl⟩ := h
  exact ⟨_, ⟨ψ r, x, y, rfl, (hψ r).trans (hr.trans (hφ _).symm)⟩, rfl⟩

theorem effPost_twin (old : Core) (o : Op) (h : EffTwin e f) : EffTwin (effPost old o e) (effPost old o f) := by
  unfold effPost
  cases postMod old.r o with
  | none => exact h
  | some p => exact h.regs (fun _ => putA_scf ..) (fun _ => putA_scf ..)

theorem EffTwin.flags (h : EffTwin e f) (x : Word) : EffTwin { e with flags := e.flags ||| x } { f with flags := f.flags ||| x } := by
  obtain ⟨_, hc, rfl⟩ := h
  exact ⟨_, hc, rfl⟩

theorem addAuto_twin (h : EffTwin e f) (x : Option Int) : EffTwin (addAuto e x) (addAuto f x) := by
  obtain ⟨_, hc, rfl⟩ := h
  cases x with
  | none => exact ⟨_, hc, rfl⟩
  | some z => exact ⟨_, hc, rfl⟩

theorem setTrap_twin (h : CoreTwin c d) (n : Nat) (x : TrapRegs) : CoreTwin (c.setTrap n x) (d.setTrap n x) := by
  obtain ⟨r, st, y, rfl, hr⟩ := h
  unfold Core.setTrap
  exact .ite ⟨r, st, y, rfl, hr⟩ ⟨r, st, y, rfl, hr⟩

/-- MTC reads of the core what twins share. -/
theorem cregWrite_twin (h : CoreTwin c d) (n : Nat) (v : Word) : CoreTwin (cregWrite c n v) (cregWrite d n v) := by
  have ht : ∀ (n : Nat) (x : TrapRegs), CoreTwin (c.setTrap n x) (d.setTrap n x) := setTrap_twin h
  obtain ⟨r, st, y, rfl, hr⟩ := h
  have hsame : ∀ c' : CoreCtl, CoreTwin { c with c := c' } { c with r := r, st := st, held := y, c := c' } := fun c' => ⟨r, st, y, rfl, hr⟩
  unfold cregWrite
  exact .ite ⟨_, st, y, rfl, congrArg (fun x => scfWrite x v) hr⟩ (.ite (hsame _) (.ite (hsame _) (.ite (hsame _) (.ite (hsame _) (.ite (hsame _)
    (.ite (ht _ _) (.ite (ht _ _) (.ite (ht _ _) (.ite (ht _ _) (.ite (ht _ _) (.ite ⟨r, st, y, rfl, hr⟩ (.ite (hsame _) (.ite (hsame _)
    (.ite (hsame _) ⟨r, st, y, rfl, hr⟩))))))))))))))

theorem EffTwin.govSet (h : EffTwin e f) (i : BitVec 3) (v : BitVec 1280) (n : Nat) :
    EffTwin { e.regs (fun r => r.putAc i v) with govSet := e.govSet ||| n } { f.regs (fun r => r.putAc i v) with govSet := f.govSet ||| n } := by
  obtain ⟨_, ⟨r, x, y, rfl, hr⟩, rfl⟩ := h
  exact ⟨_, ⟨r.putAc i v, x, y, rfl, hr⟩, rfl⟩

theorem EffTwin.govClr (h : EffTwin e f) (i : BitVec 3) (v : BitVec 1280) (n : Nat) :
    EffTwin { e.regs (fun r => r.putAc i v) with govClr := e.govClr ||| n } { f.regs (fun r => r.putAc i v) with govClr := f.govClr ||| n } := by
  obtain ⟨_, ⟨r, x, y, rfl, hr⟩, rfl⟩ := h
  exact ⟨_, ⟨r.putAc i v, x, y, rfl, hr⟩, rfl⟩

theorem EffTwin.qsat (h : EffTwin e f) (x : Bool) : EffTwin { e with qsat := e.qsat || x } { f with qsat := f.qsat || x } := by
  obtain ⟨_, hc, rfl⟩ := h
  exact ⟨_, hc, rfl⟩

theorem EffTwin.vec (h : EffTwin e f) (vd : BitVec 5) (x : BitVec 512 × Bool) : EffTwin (e.vec vd x) (f.vec vd x) :=
  (h.regs (fun _ => putV_scf ..) (fun _ => putV_scf ..)).qsat x.2

/-- One operation on top of twin effects. -/
theorem opEff_twin (h : EffTwin e f) : EffTwin (opEff old got q o e) (opEff old got q o f) := by
  have hp := effPost_twin old o (h.flags got.flags)
  unfold opEff
  generalize effPost old o { e with flags := e.flags ||| got.flags } = x at hp ⊢
  generalize effPost old o { f with flags := f.flags ||| got.flags } = y at hp ⊢
  have hS := fun i v => hp.regs (φ := fun r => r.putS i v) (ψ := fun r => r.putS i v) (fun _ => putS_scf ..) (fun _ => putS_scf ..)
  have hA := fun i v => hp.regs (φ := fun r => r.putA i v) (ψ := fun r => r.putA i v) (fun _ => putA_scf ..) (fun _ => putA_scf ..)
  have hN := fun i v => hp.regs (φ := fun r => r.putN i v) (ψ := fun r => r.putN i v) (fun _ => putN_scf ..) (fun _ => putN_scf ..)
  have hV := fun i v => hp.regs (φ := fun r => r.putV i v) (ψ := fun r => r.putV i v) (fun _ => putV_scf ..) (fun _ => putV_scf ..)
  cases o <;> dsimp only
  case vsta v => exact addAuto_twin (hp.qsat _) _
  case acmv vd acs sm sh => exact addAuto_twin (hp.vec _ _) _
  case mtc sa cr =>
    obtain ⟨_, hc, rfl⟩ := hp
    exact ⟨_, cregWrite_twin hc _ _, rfl⟩
  case cp sl op cf =>
    split
    · exact hV _ _
    · split
      · exact hS _ _
      · exact hp
  case mac k acd va vb => exact hp.govSet _ _ _
  case acclr acd => exact hp.govClr _ _ _
  case acset acd va => exact hp.govClr _ _ _
  case ldh | ldw | movas | acsh | alu | movi | call | mfc => exact hS _ _
  case addaN | addaI | mova => exact hA _ _
  case movn => exact hN _ _
  case vld | vldu | qdeq => exact hV _ _
  case vbin | vneg | vconj | vshrr | vmov | vbcst => exact hp.vec _ _
  all_goals exact hp

theorem effCore_twin (h : EffTwin e f) : CoreTwin (effCore e) (effCore f) := by
  obtain ⟨_, ⟨r, st, y, rfl, hr⟩, rfl⟩ := h
  refine ⟨_, st, y, rfl, ?_⟩
  unfold effCore
  dsimp only
  rw [hr]

theorem fallThrough_twin (h : CoreTwin c d) : CoreTwin (fallThrough c) (fallThrough d) := by
  obtain ⟨r, st, y, rfl, hr⟩ := h
  exact ⟨r, st, y, rfl, hr⟩

/-- Where execution goes on depends on what twins share. -/
theorem flow_twin (h : CoreTwin c d) (old : Core) (o : Op) : CoreTwin (flow old c o) (flow old d o) := by
  have hf := fallThrough_twin h
  obtain ⟨r, st, y, rfl, hr⟩ := h
  unfold flow
  cases branchTo old o with
  | some x => exact ⟨r, st, y, rfl, hr⟩
  | none =>
    dsimp only
    cases o
    case rti => exact ⟨r, st, y, rfl, hr⟩
    case loop n fin => exact fallThrough_twin ⟨r, st, y, rfl, hr⟩
    case loops sa fin => exact .ite ⟨r, st, y, rfl, hr⟩ (fallThrough_twin ⟨r, st, y, rfl, hr⟩)
    all_goals exact hf

theorem cpNext_twin (h : CoreTwin c d) (old : Core) (sl : Bool) (op : BitVec 5) (cf : CpFields) (got : Got) :
    CoreTwin (cpNext c old sl op cf got) (cpNext d old sl op cf got) := by
  obtain ⟨r, st, y, rfl, hr⟩ := h
  unfold cpNext
  cases sl
  · exact .ite (.ite ⟨r, st, y, rfl, hr⟩ (.ite ⟨r, st, y, rfl, hr⟩ ⟨r, st, y, rfl, hr⟩)) ⟨r, st, y, rfl, hr⟩
  · exact .ite (.ite ⟨r, st, y, rfl, hr⟩ (.ite ⟨r, st, y, rfl, hr⟩ ⟨r, st, y, rfl, hr⟩)) ⟨r, st, y, rfl, hr⟩

/-! ### States that differ in one core's registers -/

/-- d is c but for data registers other than SCF. -/
def RegTwin (c d : Core) : Prop := ∃ r, d = { c with r := r } ∧ r.scf = c.r.scf

theorem CoreTwin.regTwin (h : CoreTwin c d) (hst : d.st = c.st) (hh : d.held = c.held) : RegTwin c d := by
  obtain ⟨r, st, y, rfl, hr⟩ := h
  exact ⟨r, by rw [show st = c.st from hst, show y = c.held from hh], hr⟩

theorem RegTwin.coreTwin (h : RegTwin c d) : CoreTwin c d := by
  obtain ⟨r, rfl, hr⟩ := h
  exact ⟨r, c.st, c.held, rfl, hr⟩

theorem RegTwin.bad (h : RegTwin c d) (sl : Bool) : (d.port sl).bad = (c.port sl).bad := by
  obtain ⟨r, rfl, -⟩ := h
  rfl

/-- The states agree but for core g. -/
def Beside (g : CoreId) (s t : State) : Prop := (∀ g' : CoreId, g' ≠ g → t.core g' = s.core g') ∧ t = { s with cores := t.cores }

/-- The states agree but for data registers of core g other than SCF. -/
def StateTwin (g : CoreId) (s t : State) : Prop := RegTwin (s.core g) (t.core g) ∧ Beside g s t

theorem Beside.setCore (h : Beside g s t) (hc : RegTwin c d) : StateTwin g (s.setCore g c) (t.setCore g d) := by
  obtain ⟨ho, hr⟩ := h
  refine ⟨by rw [core_setCore, core_setCore]; exact hc, fun g' hg => ?_, ?_⟩
  · rw [core_setCore_other _ _ _ _ hg, core_setCore_other _ _ _ _ hg]
    exact ho g' hg
  · rw [hr]
    rfl

theorem StateTwin.tally (h : StateTwin g s t) (a n : Nat) : StateTwin g (tallyAdd s a n) (tallyAdd t a n) := by
  obtain ⟨hc, ho, hr⟩ := h
  refine ⟨hc, ho, ?_⟩
  rw [hr]
  rfl

/-- The coprocessor operation of slot D at its commit. -/
def slotDState (s : State) (old : Core) (g : CoreId) (gd : Got) : Op → State
  | .cp sl op f => cpCommit s old g sl op f gd
  | _ => s

theorem cpCommit_twin (h : StateTwin g s t) (hi : s.asy.inj = []) (sl : Bool) (hb : ((s.core g).port sl).bad = []) (old : Core) (op : BitVec 5)
    (cf : CpFields) (got : Got) : StateTwin g (cpCommit s old g sl op cf got) (cpCommit t old g sl op cf got) := by
  obtain ⟨hc, ho, hr⟩ := h
  have hi' : t.asy.inj = [] := by
    rw [hr]
    exact hi
  obtain ⟨hcs, hos, hrs⟩ := cpCommit_clean hi old sl op cf got hb
  obtain ⟨hct, hot, hrt⟩ := cpCommit_clean hi' old sl op cf got ((hc.bad sl).trans hb)
  have hks := cpNext_keeps (s.core g) old sl op cf got
  have hkt := cpNext_keeps (t.core g) old sl op cf got
  have htwin := cpNext_twin hc.coreTwin old sl op cf got
  obtain ⟨r, hcr, -⟩ := hc
  refine ⟨?_, fun g' hg => ?_, ?_⟩
  · rw [hcs, hct]
    refine htwin.regTwin ?_ ?_
    · rw [hkt.st, hks.st, hcr]
    · rw [hkt.held, hks.held, hcr]
  · rw [hot g' hg, hos g' hg, ho g' hg]
  · rw [hrs, hrt, hr]

theorem slotDState_twin (h : StateTwin g s t) (hi : s.asy.inj = []) (hb : ∀ sl, ((s.core g).port sl).bad = []) (old : Core) (gd : Got) (o : Op) :
    StateTwin g (slotDState s old g gd o) (slotDState t old g gd o) := by
  cases o
  case cp sl op cf => exact cpCommit_twin h hi sl (hb sl) old op cf gd
  all_goals exact h

/-- The guard overflows of a bundle are counted. -/
def countGov (s : State) (g : CoreId) (n : BitVec 8) : State := if n = 0 then s else tallyAdd s (coreRegs g + 0x120) (weight n.toNat)

theorem countGov_twin (h : StateTwin g s t) (n : BitVec 8) : StateTwin g (countGov s g n) (countGov t g n) := by
  unfold countGov
  split
  · exact h
  · exact h.tally _ _

theorem intChoice_twin (h : StateTwin g s t) : intChoice t g = intChoice s g := by
  obtain ⟨⟨r, hc, -⟩, -, hr⟩ := h
  have hs : t.slice = s.slice := by
    rw [hr]
    rfl
  unfold intChoice intPending faultTval
  rw [hc, hs]

/-- WAIT leaves the core waiting. -/
def waited (s : State) (g : CoreId) (o : Op) : State :=
  if o = .wait ∧ (intChoice s g).isNone then s.updCore g (fun c => { c with st := .wait }) else s

theorem waited_twin (h : StateTwin g s t) (o : Op) : StateTwin g (waited s g o) (waited t g o) := by
  unfold waited
  rw [intChoice_twin h]
  split
  · obtain ⟨⟨r, hc, hr⟩, hb⟩ := h
    exact hb.setCore ⟨r, by rw [hc], hr⟩
  · exact h

theorem boundary_twin (h : StateTwin g s t) : StateTwin g (boundary s g) (boundary t g) := by
  have hx := h
  obtain ⟨⟨r, hc, hr⟩, hb⟩ := h
  unfold boundary
  dsimp only
  rw [show (t.core g).haltReq = (s.core g).haltReq by rw [hc]]
  split
  · exact hb.setCore ⟨r, by rw [hc], hr⟩
  · exact hx

/-! ### The commit (R53, R54) -/

/-- What the slots of a bundle do, on top of e. -/
def slotsEff (c : Core) (b : Bundle) (ga gb gd : Got) (q : List Byte) (e : Eff) : Eff :=
  opEff c gd [] b.d (opEff c .nothing [] b.c (opEff c gb [] b.b (opEff c ga q b.a e)))

/-- The core behind the bundle's registers and its branch. -/
def committedCore (c : Core) (o : Op) (e : Eff) : Core := { flow c (effCore e) o with held := none, st := .running }

/-- The commit of a bundle behind its reads, its stores and its effects. -/
def commitDone (s : State) (g : CoreId) (c : Core) (o : Op) (gd : Got) (e : Eff) : State :=
  boundary (waited (countGov (slotDState (tallyAdd (s.setCore g (committedCore c o e)) (coreRegs g + 0x100) 1) c g gd o) g
    (slice (effCore e).c.acst 0 8 &&& ~~~(slice c.c.acst 0 8))) g o) g

theorem commit_eq {h : Held} {ga gb : Got} {s1 s2 : State} (fl : Word) (hg : scfGte (s.core g).r.scf = false)
    (hr : readAll s g h = (ga, gb, gd, s1))
    (hs : coreStores s1 g ((opStores (s.core g) h.bundle.a ++ opStores (s.core g) h.bundle.b) ++ opStores (s.core g) h.bundle.d) = s2) :
    commit s g h q fl = commitDone s2 g (s.core g) h.bundle.d gd (slotsEff (s.core g) h.bundle ga gb gd q
      { c := s2.core g, govSet := 0, govClr := 0, qsat := false, auto := none, flags := fl }) := by
  unfold commit
  dsimp only
  rw [hr]
  dsimp only
  rw [hs, hg, if_neg (by simp)]
  unfold commitDone slotDState waited countGov slotsEff committedCore
  cases h.bundle.d <;> rfl

theorem committedCore_twin (h : EffTwin e f) (c : Core) (o : Op) : RegTwin (committedCore c o e) (committedCore c o f) := by
  obtain ⟨r, st, y, hc, hr⟩ := flow_twin (effCore_twin h) c o
  unfold committedCore
  rw [hc]
  exact ⟨r, rfl, hr⟩

theorem committedCore_keeps (c : Core) (o : Op) (e : Eff) (sl : Bool) : (committedCore c o e).port sl = e.c.port sl := by
  obtain ⟨pc, l, cc, hf⟩ := flow_shape c (effCore e) o
  unfold committedCore
  rw [hf]
  rfl

/-- Twin effects on states that agree but for core g come to states that differ in its data registers. -/
theorem commitDone_twin (hb : Beside g s t) (he : EffTwin e f) (hi : s.asy.inj = []) (hbad : ∀ sl, (e.c.port sl).bad = []) (c : Core) (o : Op) (gd : Got) :
    StateTwin g (commitDone s g c o gd e) (commitDone t g c o gd f) := by
  have hacst : (effCore f).c.acst = (effCore e).c.acst := by
    obtain ⟨r, st, y, hc, -⟩ := effCore_twin he
    rw [hc]
  have h0 := (hb.setCore (committedCore_twin he c o)).tally (coreRegs g + 0x100) 1
  have h1 := slotDState_twin h0 hi (fun sl => by
    rw [tallyAdd_core, core_setCore, committedCore_keeps]
    exact hbad sl) c gd o
  unfold commitDone
  rw [hacst]
  exact boundary_twin (waited_twin (countGov_twin h1 _) o)

theorem boundary_regs (s : State) (g : CoreId) : ((boundary s g).core g).r = (s.core g).r := by
  unfold boundary
  dsimp only
  split
  · rw [core_setCore]
  · rfl

theorem waited_regs (s : State) (g : CoreId) (o : Op) : ((waited s g o).core g).r = (s.core g).r := by
  unfold waited
  split
  · rw [State.updCore, core_setCore]
  · rfl

theorem countGov_regs (s : State) (g : CoreId) (n : BitVec 8) : ((countGov s g n).core g).r = (s.core g).r := by
  unfold countGov
  split <;> rfl

theorem slotDState_regs (hi : s.asy.inj = []) (hb : ∀ sl, ((s.core g).port sl).bad = []) (old : Core) (gd : Got) (o : Op) :
    ((slotDState s old g gd o).core g).r = (s.core g).r := by
  cases o
  case cp sl op cf => exact (congrArg Core.r (cpCommit_clean hi old sl op cf gd (hb sl)).1).trans (cpNext_keeps ..).r
  all_goals rfl

/-- A register behind the commit holds what the effects give it. -/
theorem commitDone_value (hi : s.asy.inj = []) (hbad : ∀ sl, (e.c.port sl).bad = []) (c : Core) (o : Op) (gd : Got) (n : RegName) :
    n.value ((commitDone s g c o gd e).core g).r = n.value e.c.r := by
  have hd := slotDState_regs (s := tallyAdd (s.setCore g (committedCore c o e)) (coreRegs g + 0x100) 1) hi (fun sl => by
    rw [tallyAdd_core, core_setCore, committedCore_keeps]
    exact hbad sl) c gd o
  unfold commitDone
  rw [boundary_regs, waited_regs, countGov_regs, hd, tallyAdd_core, core_setCore]
  unfold committedCore
  obtain ⟨pc, l, cc, hf⟩ := flow_shape c (effCore e) o
  rw [hf]
  exact value_scf _ _ _

end
end Sys2Proof.Machine
end

section
/-! Queue accesses of a core (O12): the bundle comes to its queue access, and commits as it would without it. -/

namespace Sys2Proof.Machine

section
variable {c : Core} {e f : Eff} {o : Op} {got ga gb gd : Got} {q : List Byte} {s t v : State} {g : CoreId} {b : Bundle} {h : Held} {x : CoreRunState}

/-! ### The bundle without its queue access -/

/-- The bundle with nothing in slot A. -/
def withoutA (b : Bundle) : Bundle := { b with a := .nop }

theorem queueOp_reads (c : Core) (hq : isQueueOp o = true) : opReads c o = [] := by
  cases o <;> first | rfl | exact Bool.noConfusion (hq : false = true)

theorem queueOp_stores (c : Core) (hq : isQueueOp o = true) : opStores c o = [] := by
  cases o <;> first | rfl | exact Bool.noConfusion (hq : false = true)

theorem queueOp_blocks (c : Core) (hq : isQueueOp o = true) : opBlocks c o = [] := by
  unfold opBlocks
  rw [queueOp_reads c hq, queueOp_stores c hq]
  rfl

/-- Core g of v holds a bundle. -/
def holding (v : State) (g : CoreId) (x : CoreRunState) (h : Held) : State := v.setCore g { v.core g with st := x, held := some h }

theorem holding_core (v : State) (g : CoreId) (x : CoreRunState) (h : Held) :
    (holding v g x h).core g = { v.core g with st := x, held := some h } := core_setCore _ _ _

theorem holding_blkAt (blk : Word) : blkAt (holding v g x h) g blk = blkAt v g blk :=
  blkAt_congr (t := holding v g x h) (s := v) (by rw [holding_core]) rfl blk

theorem holding_gotOwn (l : List ReadPiece) : gotOwn (holding v g x h) g l = gotOwn v g l := by
  unfold gotOwn pieceBytes
  simp only [holding_blkAt]
  rfl

theorem holding_fault (o : Op) : staticFault (holding v g x h) g o = staticFault v g o := by
  have hb : blkFault (holding v g x h) g = blkFault v g := by
    funext o blk
    unfold blkFault
    rw [holding_blkAt]
  unfold staticFault
  rw [holding_core, hb]
  cases o <;> rfl

theorem opEff_old (x : CoreRunState) (y : Option Held) : opEff { c with st := x, held := y } got q o e = opEff c got q o e := by
  cases o <;> rfl

theorem slotsEff_old (x : CoreRunState) (y : Option Held) : slotsEff { c with st := x, held := y } b ga gb gd q e = slotsEff c b ga gb gd q e := by
  unfold slotsEff
  simp only [opEff_old]

theorem commitDone_old (x : CoreRunState) (y : Option Held) : commitDone s g { c with st := x, held := y } o gd e = commitDone s g c o gd e := by
  have hf : committedCore { c with st := x, held := y } o e = committedCore c o e := by
    unfold committedCore
    cases o <;> rfl
  have hd : ∀ u, slotDState u { c with st := x, held := y } g gd o = slotDState u c g gd o := fun u => by
    cases o <;> rfl
  unfold commitDone
  rw [hf, hd]

theorem slotsEff_port (c : Core) (sl : Bool) : (slotsEff c b ga gb gd q e).c.port sl = e.c.port sl := by
  have hk : ∀ (got : Got) (q : List Byte) (o : Op) (e : Eff), (opEff c got q o e).c.port sl = e.c.port sl := fun got q o e => by
    obtain ⟨-, -, -, -, h0, h1⟩ := opEff_keeps (old := c) (got := got) (q := q) (o := o) (e := e)
    unfold Core.port
    rw [h0, h1]
  unfold slotsEff
  rw [hk, hk, hk, hk]

/-- More writes to data registers on one side. -/
theorem EffTwin.more (h : EffTwin e f) {ψ : CoreRegs → CoreRegs} (hψ : ∀ r, (ψ r).scf = r.scf) : EffTwin e (f.regs ψ) := by
  obtain ⟨_, ⟨r, y, z, rfl, hr⟩, rfl⟩ := h
  exact ⟨_, ⟨ψ r, y, z, rfl, (hψ r).trans hr⟩, rfl⟩

/-- The queue operation changes data registers only, as far as the effects go. -/
theorem queueEff_twin (hq : isQueueOp o = true) (q : List Byte) (h : EffTwin e f) : EffTwin (opEff c ga [] .nop e) (opEff c ga q o f) := by
  have hn : EffTwin { e with flags := e.flags ||| ga.flags } (effPost c o { f with flags := f.flags ||| ga.flags }) := by
    have hf := h.flags ga.flags
    unfold effPost
    cases postMod c.r o with
    | none => exact hf
    | some p => exact hf.more fun _ => putA_scf ..
  cases o
  case qenq m => exact hn
  case qdeq m => exact hn.more fun _ => putV_scf ..
  all_goals exact Bool.noConfusion (hq : false = true)

theorem slotsEff_twin (hq : isQueueOp b.a = true) (q : List Byte) (h : EffTwin e f) :
    EffTwin (slotsEff c (withoutA b) ga gb gd [] e) (slotsEff c b ga gb gd q f) :=
  opEff_twin (opEff_twin (opEff_twin (queueEff_twin hq q h)))

/-- A register that the bundle does not name. -/
theorem slotsEff_other {n : RegName} (hn : n ∉ bundleWrites b) : n.value (slotsEff c b ga gb gd q e).c.r = n.value e.c.r := by
  simp only [bundleWrites, bundleOps, List.flatMap_cons, List.flatMap_nil, List.mem_append, not_or] at hn
  obtain ⟨ha, hb, hc, hd, -⟩ := hn
  unfold slotsEff
  rw [opEff_other hd, opEff_other hc, opEff_other hb, opEff_other ha]

theorem noConflict_of_fine (hf : (undefFind c b).1 = .fine) {n : Nat} (hn : n < 4) : writeConflict b n = false := by
  unfold undefFind at hf
  dsimp only at hf
  generalize hx : (List.range 4).find? (fun n => !slotHas n (slotOp b n) || reservedField (slotOp b n) || writeConflict b n) = x at hf
  cases x with
  | some n => cases hf
  | none =>
    have h := List.find?_eq_none.mp hx n (List.mem_range.mpr hn)
    simp only [Bool.not_eq_true, Bool.or_eq_false_iff] at h
    exact h.2

/-- A register of slot A is no other slot's. -/
theorem disjoint_of_fine (hf : (undefFind c b).1 = .fine) {n : RegName} (hn : n ∈ opWrites b.a) {k : Nat} (h0 : 0 < k) (hk : k < 4) :
    n ∉ opWrites (slotOp b k) := fun hm => by
  have hc := noConflict_of_fine hf hk
  unfold writeConflict at hc
  have h := List.any_eq_false.mp hc n hm
  simp only [List.any_eq_true, List.mem_range, not_exists, not_and] at h
  exact h 0 h0 (List.contains_iff_mem.mpr hn)

/-- A register of slot A holds what its operation gives it. -/
theorem slotsEff_slotA (hf : (undefFind (v.core g) b).1 = .fine) {n : RegName} (hn : n ∈ opWrites b.a) :
    n.value (slotsEff c b ga gb gd q e).c.r = n.value (opEff c ga q b.a e).c.r := by
  have hd : n ∉ opWrites b.d := disjoint_of_fine hf hn (k := 3) (by decide) (by decide)
  have hc : n ∉ opWrites b.c := disjoint_of_fine hf hn (k := 2) (by decide) (by decide)
  have hb : n ∉ opWrites b.b := disjoint_of_fine hf hn (k := 1) (by decide) (by decide)
  unfold slotsEff
  rw [opEff_other hd, opEff_other hc, opEff_other hb]

/-! ### Reads and stores of the held bundle -/

section
variable (r : Ready v g (withoutA h.bundle)) (hq : isQueueOp h.bundle.a = true)
include r hq

theorem queueBundle_own {n : Nat} (hn : n ∈ memSlots) : ∀ blk ∈ opBlocks (v.core g) (slotOp h.bundle n), ownBlock v g blk = true := by
  intro blk hblk
  have hr := r.own n hn blk
  obtain rfl | rfl | rfl : n = 0 ∨ n = 1 ∨ n = 3 := by simpa [memSlots] using hn
  · rw [show slotOp h.bundle 0 = h.bundle.a from rfl, queueOp_blocks _ hq] at hblk
    exact absurd hblk List.not_mem_nil
  · exact hr hblk
  · exact hr hblk

theorem holding_own {n : Nat} (hn : n ∈ memSlots) :
    ∀ p ∈ opReads ((holding v g x h).core g) (slotOp h.bundle n), ownBlock (holding v g x h) g p.blk = true := by
  intro p hp
  rw [holding_core] at hp
  rw [ownBlock_congr (t := holding v g x h) (s := v) (by rw [holding_core]) rfl rfl]
  refine queueBundle_own r hq hn p.blk ?_
  unfold opBlocks
  exact List.mem_append_left _ (List.mem_map.mpr ⟨p, hp, rfl⟩)

theorem readSlot_holding {n : Nat} (hn : n ∈ memSlots) :
    readSlot (holding v g x h) g h n = (gotOwn v g (opReads (v.core g) (slotOp h.bundle n)), holding v g x h) := by
  rw [readSlot_own (s := holding v g x h) r.par r.inj h n (holding_own r hq hn), holding_gotOwn, holding_core]
  rfl

/-- The state behind the reads of the held bundle. -/
def holdRead (v : State) (g : CoreId) (x : CoreRunState) (h : Held) : State :=
  if opReads (v.core g) h.bundle.d = [] then holding v g x h else { holding v g x h with fresh := v.fresh + 1 }

theorem readAll_holding : readAll (holding v g x h) g h =
    (slotGot v g (withoutA h.bundle) 0, slotGot v g (withoutA h.bundle) 1, slotGot v g (withoutA h.bundle) 3, holdRead v g x h) := by
  have h0 : gotOwn v g (opReads (v.core g) (slotOp h.bundle 0)) = slotGot v g (withoutA h.bundle) 0 := by
    rw [show slotOp h.bundle 0 = h.bundle.a from rfl, queueOp_reads _ hq]
    rfl
  unfold readAll
  simp only [readSlot_holding r hq (show 0 ∈ memSlots by decide), readSlot_holding r hq (show 1 ∈ memSlots by decide),
    readSlot_holding r hq (show 3 ∈ memSlots by decide), h0]
  unfold holdRead
  rw [holding_core]
  rfl

end

theorem Beside.stores (hb : Beside g s t) (l : List (Nat × List Byte)) :
    Beside g (l.foldl (fun u p => u.setBytes p.1 p.2) s) (l.foldl (fun u p => u.setBytes p.1 p.2) t) := by
  obtain ⟨ho, hr⟩ := hb
  have hm : (l.foldl (fun u p => u.setBytes p.1 p.2) t).mem = (l.foldl (fun u p => u.setBytes p.1 p.2) s).mem :=
    stores_mem (by rw [hr]) l
  have hs := stores_shape s l
  have ht := stores_shape t l
  rw [hm] at ht
  generalize l.foldl (fun u p => u.setBytes p.1 p.2) s = s' at hs ht
  generalize l.foldl (fun u p => u.setBytes p.1 p.2) t = t' at ht
  refine ⟨fun g' hg => ?_, ?_⟩
  · rw [ht, hs]
    exact ho g' hg
  · rw [ht, hs, hr]

theorem holdRead_beside (v : State) (g : CoreId) (x : CoreRunState) (h : Held) : Beside g (readState v g (withoutA h.bundle)) (holdRead v g x h) := by
  have hb : Beside g (heldState v g (withoutA h.bundle)) (holding v g x h) :=
    ⟨fun g' hg => (core_setCore_other v g g' _ hg).trans (core_setCore_other v g g' _ hg).symm, rfl⟩
  obtain ⟨ho, hr⟩ := hb
  unfold readState holdRead
  rw [show (withoutA h.bundle).d = h.bundle.d from rfl]
  split
  · exact ⟨ho, hr⟩
  · exact ⟨ho, rfl⟩

end
end Sys2Proof.Machine
end

section
/-! The commit of a bundle with a queue access (O12): it keeps to the frame of the bundle. -/

namespace Sys2Proof.Machine

section
variable {c : Core} {e f : Eff} {o : Op} {got ga gb gd : Got} {q : List Byte} {s t v w : State} {g : CoreId} {b : Bundle} {h : Held} {x : CoreRunState}

/-! ### The two commits -/

/-- A bundle's effects start from the core in s. -/
def startEff (s : State) (g : CoreId) : Eff := { c := s.core g, govSet := 0, govClr := 0, qsat := false, auto := none, flags := 0 }

/-- The stores of the bundle that is held, done. -/
def holdStored (v : State) (g : CoreId) (x : CoreRunState) (h : Held) : State :=
  (bundleStores v g (withoutA h.bundle)).foldl (fun u p => u.setBytes p.1 p.2) (holdRead v g x h)

theorem holdRead_core (v : State) (g : CoreId) (x : CoreRunState) (h : Held) :
    (holdRead v g x h).core g = { v.core g with st := x, held := some h } := by
  unfold holdRead
  split <;> exact holding_core ..

theorem holdStored_core (v : State) (g : CoreId) (x : CoreRunState) (h : Held) :
    (holdStored v g x h).core g = { v.core g with st := x, held := some h } := by
  rw [← holdRead_core]
  unfold holdStored
  rw [stores_shape]
  rfl

/-- The effects of the held bundle, on top of e. -/
def heldEff (v : State) (g : CoreId) (b : Bundle) (q : List Byte) (e : Eff) : Eff :=
  slotsEff (v.core g) b (slotGot v g (withoutA b) 0) (slotGot v g (withoutA b) 1) (slotGot v g (withoutA b) 3) q e

theorem coreStores_holdRead (r : Ready v g (withoutA h.bundle)) (hq : isQueueOp h.bundle.a = true) :
    coreStores (holdRead v g x h) g ((opStores (v.core g) h.bundle.a ++ opStores (v.core g) h.bundle.b) ++ opStores (v.core g) h.bundle.d) =
      holdStored v g x h := by
  have hs : holdRead v g x h = { v with cores := (holding v g x h).cores, fresh := (holdRead v g x h).fresh } := by
    unfold holdRead
    split <;> rfl
  rw [coreStores_own (s := v) (by rw [hs]; exact r.par) (by rw [holdRead_core]) (by rw [hs]), queueOp_stores _ hq]
  · rfl
  · intro p hp
    have hm : ∀ n ∈ memSlots, p ∈ opStores (v.core g) (slotOp h.bundle n) → ownBlock v g (p.1 &&& 0xFFFFFFC0) = true := by
      intro n hn hp
      refine queueBundle_own r hq hn _ ?_
      unfold opBlocks
      exact List.mem_append.mpr (Or.inr (List.mem_map.mpr ⟨p, hp, rfl⟩))
    rw [List.mem_append, List.mem_append] at hp
    obtain (ha | hb) | hd := hp
    · exact hm 0 (by decide) ha
    · exact hm 1 (by decide) hb
    · exact hm 3 (by decide) hd

/-- The held bundle commits. -/
theorem commit_holding (r : Ready v g (withoutA h.bundle)) (hq : isQueueOp h.bundle.a = true) :
    commit (holding v g x h) g h q 0 = commitDone (holdStored v g x h) g (v.core g) h.bundle.d (slotGot v g (withoutA h.bundle) 3)
      (heldEff v g h.bundle q (startEff (holdStored v g x h) g)) := by
  have hst := coreStores_holdRead (x := x) r hq
  have hc := holding_core v g x h
  rw [commit_eq (s := holding v g x h) (s2 := holdStored v g x h) 0 (by rw [hc]; exact r.gte) (readAll_holding r hq) (by rw [hc]; exact hst), hc,
    commitDone_old, slotsEff_old]
  rfl

/-- The bundle without its queue access commits. -/
theorem commit_withoutA (he : executes v g (withoutA b) = true) :
    runBundle v g (withoutA b) = commitDone (storedState v g (withoutA b)) g (v.core g) b.d (slotGot v g (withoutA b) 3)
      (heldEff v g (withoutA b) [] (startEff (storedState v g (withoutA b)) g)) := by
  have r := executes_ready he
  have hc : (heldState v g (withoutA b)).core g = { v.core g with st := (v.core g).st, held := some (heldOf v (withoutA b)) } := heldState_core
  have hst := coreStores_bundle r
  rw [runBundle_commit he, commit_eq (s2 := storedState v g (withoutA b)) 0 (by rw [hc]; exact r.gte) (readAll_held r) (by rw [hc]; exact hst), hc,
    commitDone_old, slotsEff_old]
  rfl

theorem startEff_twin : EffTwin (startEff (storedState v g (withoutA h.bundle)) g) (startEff (holdStored v g x h) g) := by
  unfold startEff
  rw [storedState_core, if_pos rfl, holdStored_core]
  exact ⟨_, ⟨(v.core g).r, x, some h, rfl, rfl⟩, rfl⟩

theorem port_clean (r : Ready v g b) (hc : c.cp0 = (v.core g).cp0 ∧ c.cp1 = (v.core g).cp1) (sl : Bool) : (c.port sl).bad = [] := by
  unfold Core.port
  rw [hc.1, hc.2]
  cases sl
  · exact r.bad0
  · exact r.bad1

/-- The two commits leave the same but for data registers. -/
theorem commit_twin (he : executes v g (withoutA h.bundle) = true) (hq : isQueueOp h.bundle.a = true) :
    StateTwin g (runBundle v g (withoutA h.bundle)) (commit (holding v g x h) g h q 0) := by
  have r := executes_ready he
  have hi : (storedState v g (withoutA h.bundle)).asy.inj = [] := by
    rw [storedState_shape]
    exact r.inj
  rw [commit_withoutA he, commit_holding r hq]
  refine commitDone_twin ((holdRead_beside v g x h).stores _) (slotsEff_twin hq q startEff_twin) hi (fun sl => ?_) _ _ _
  rw [slotsEff_port, startEff, storedState_core, if_pos rfl]
  exact port_clean r ⟨rfl, rfl⟩ sl

/-- A register behind the commit holds what the effects give it. -/
theorem commit_value (r : Ready v g (withoutA h.bundle)) (hq : isQueueOp h.bundle.a = true) (n : RegName) :
    n.value ((commit (holding v g x h) g h q 0).core g).r = n.value (heldEff v g h.bundle q (startEff (holdStored v g x h) g)).c.r := by
  have hi : (holdStored v g x h).asy.inj = [] := by
    unfold holdStored
    rw [stores_shape]
    unfold holdRead
    split <;> exact r.inj
  rw [commit_holding r hq]
  refine commitDone_value hi (fun sl => ?_) _ _ _ _
  rw [heldEff, slotsEff_port, startEff, holdStored_core]
  exact port_clean r ⟨rfl, rfl⟩ sl

theorem withoutA_any {p : Op → Bool} (hp : p .nop = false) (hb : (bundleOps b).any p = false) : (bundleOps (withoutA b)).any p = false := by
  simp only [bundleOps, withoutA, List.any_cons, List.any_nil, Bool.or_false, Bool.or_eq_false_iff] at hb ⊢
  exact ⟨hp, hb.2⟩

/-- The frame of the bundle without its queue access is that of the bundle, where the registers agree. -/
theorem frame_of_twin (hf : BundleFrame v g (withoutA b) s) (ht : StateTwin g s t) (hq : isQueueOp b.a = true)
    (hr : ∀ n, n ∉ bundleWrites b → n.value (t.core g).r = n.value (v.core g).r) : BundleFrame v g b t := by
  obtain ⟨⟨r, hc, hscf⟩, ho, hrest⟩ := ht
  have hs : bundleStores v g b = bundleStores v g (withoutA b) := by
    unfold bundleStores
    dsimp only
    rw [queueOp_stores _ hq]
    rfl
  have htm : t.mem = s.mem := by rw [hrest]
  have htt : t.tally = s.tally := by rw [hrest]
  have htf : t.fresh = s.fresh := by rw [hrest]
  have hcr : (t.core g).r = r := by rw [hc]
  refine ⟨hr, fun hd ha => ?_, fun hd ha => ?_, fun hd => ?_, fun hd => ?_, fun hd => ?_, fun hd => ?_, ?_, fun g' hg => ?_, fun a => ?_,
    fun a h0 h1 => ?_, ?_⟩
  · rw [hcr, hscf]
    exact hf.scf hd (withoutA_any rfl ha)
  · rw [hc]
    exact hf.acst hd (withoutA_any rfl ha)
  · rw [hc]
    exact hf.ctl hd
  · rw [hc]
    exact hf.traps hd
  · rw [hc]
    exact hf.cps hd
  · rw [hc]
    exact hf.flow hd
  · rw [hc]
    exact hf.idle
  · rw [ho g' hg]
    exact hf.others g' hg
  · rw [hs, ← hf.mem a]
    unfold State.byte
    rw [htm]
  · rw [htt]
    exact hf.tally a h0 h1
  · rw [htm, htt, htf, hrest, hf.rest]

theorem heldEff_other {n : RegName} (hn : n ∉ bundleWrites b) : n.value (heldEff v g b q e).c.r = n.value e.c.r := slotsEff_other hn

/-- A bundle that comes to its commit with a queue access keeps to its frame. -/
theorem commit_frame (he : executes v g (withoutA h.bundle) = true) (hq : isQueueOp h.bundle.a = true) :
    BundleFrame v g h.bundle (commit (holding v g x h) g h q 0) :=
  frame_of_twin (executes_frame he) (commit_twin he hq) hq fun n hn => by
    rw [commit_value (executes_ready he) hq, heldEff_other hn, startEff, holdStored_core]

/-- A register of the queue access behind the commit. -/
theorem commit_slotA (he : executes v g (withoutA h.bundle) = true) (hq : isQueueOp h.bundle.a = true)
    (hf : (undefFind (v.core g) h.bundle).1 = .fine) {n : RegName} (hn : n ∈ opWrites h.bundle.a) :
    n.value ((commit (holding v g x h) g h q 0).core g).r =
      n.value (opEff (v.core g) (slotGot v g (withoutA h.bundle) 0) q h.bundle.a (startEff (holdStored v g x h) g)).c.r := by
  rw [commit_value (executes_ready he) hq]
  exact slotsEff_slotA hf hn

/-- What the commit leaves of a queue's cluster. -/
theorem commit_slices (he : executes v g (withoutA h.bundle) = true) (hq : isQueueOp h.bundle.a = true) :
    (commit (holding v g x h) g h q 0).slices = v.slices := by
  rw [(commit_frame (x := x) (q := q) he hq).rest]

/-- The base register of the queue access behind the commit. -/
theorem commit_baseMoved {a : MemArgs} (he : executes v g (withoutA h.bundle) = true) (hq : isQueueOp h.bundle.a = true)
    (hf : (undefFind (v.core g) h.bundle).1 = .fine) (ho : memArgs h.bundle.a = some a) :
    baseMoved (v.core g).r a (accSize h.bundle.a) ((commit (holding v g x h) g h q 0).core g).r := by
  have hp := postMod_of_memArgs (v.core g).r ho
  have hg : ∀ w : Word, RegName.a a.an ∈ postWrites a.an a.mode → postMod (v.core g).r h.bundle.a = some (a.an, w) →
      ((commit (holding v g x h) g h q 0).core g).r.getA a.an = w := fun w hw hp => by
    refine BitVec.eq_of_toNat_eq ?_
    have hv := commit_slotA (x := x) (q := q) he hq hf (mem_opWrites_of_postWrites ho hw)
    refine hv.trans (congrArg BitVec.toNat ?_)
    rw [CoreRegs.getA, opEff_a_of_memArgs ho, effPost, hp]
    exact (getA_putA ..).trans (if_pos rfl)
  obtain ⟨d, an, mode⟩ := a
  cases mode with
  | off i => trivial
  | postN n => exact hg _ (List.mem_singleton.2 rfl) hp
  | postI i => exact hg _ (List.mem_singleton.2 rfl) hp

/-- The register that a QDEQ names as its destination. -/
theorem commit_qdeq {a : MemArgs} (he : executes v g (withoutA h.bundle) = true) (ha : h.bundle.a = .qdeq a)
    (hf : (undefFind (v.core g) h.bundle).1 = .fine) :
    ((commit (holding v g x h) g h q 0).core g).r.getV a.d = BitVec.ofNat 512 (natOfBytes q) := by
  have hq : isQueueOp h.bundle.a = true := by rw [ha]; rfl
  have hn : RegName.v a.d ∈ opWrites h.bundle.a := by rw [ha]; exact List.mem_cons_self
  refine BitVec.eq_of_toNat_eq ((commit_slotA (x := x) (q := q) he hq hf hn).trans (congrArg BitVec.toNat ?_))
  rw [ha]
  exact (getV_putV ..).trans (if_pos rfl)

end
end Sys2Proof.Machine
end

section
/-! Queue accesses of a core (O12): what the queue does beside the core that holds the bundle. -/

namespace Sys2Proof.Machine

section
variable {s t u v : State} {g : CoreId} {b : Bundle} {h : Held} {x : CoreRunState} {c : Core} {qid : QueueId} {e : Entry}

/-- A queue's cluster, the counters and the reports that wait are all that changes. -/
def QueueOnly (s t : State) : Prop := ∃ a b z, t = { s with slices := a, tally := b, asy := { s.asy with queued := z } }

theorem QueueOnly.refl (s : State) : QueueOnly s s := ⟨s.slices, s.tally, s.asy.queued, rfl⟩

theorem QueueOnly.trans (h : QueueOnly s t) (h' : QueueOnly t u) : QueueOnly s u := by
  obtain ⟨a, b, z, rfl⟩ := h
  obtain ⟨a', b', z', rfl⟩ := h'
  exact ⟨a', b', z', rfl⟩

theorem QueueOnly.core (h : QueueOnly s t) (g : CoreId) : t.core g = s.core g := by
  obtain ⟨a, b, z, rfl⟩ := h
  rfl

theorem QueueOnly.ready (h : QueueOnly s t) (r : Ready s g b) : Ready t g b := by
  obtain ⟨a, c, z, rfl⟩ := h
  exact ⟨r.st, r.held, r.on, r.noHalt, r.imem, r.par, r.inj, r.bad0, r.bad1, r.fine, r.priv, r.fence, r.mis, r.own, r.noFault, r.noQueue, r.gte⟩

theorem QueueOnly.executes (h : QueueOnly s t) : executes t g b = executes s g b := by
  obtain ⟨a, c, z, rfl⟩ := h
  unfold Machine.executes
  rfl

theorem queueEvent_only (s : State) (n : SourceId) (ev : FaultEv) : QueueOnly s (queueEvent s n ev) := by
  unfold queueEvent
  dsimp only
  split
  · exact ⟨s.slices, s.tally, _, rfl⟩
  · exact ⟨s.slices, _, s.asy.queued, rfl⟩

theorem setSlice_only (s : State) (gc : ClusterId) (y : Slice) : QueueOnly s (s.setSlice gc y) := ⟨_, s.tally, s.asy.queued, rfl⟩

theorem tallyAdd_only (s : State) (a n : Nat) : QueueOnly s (tallyAdd s a n) := ⟨s.slices, _, s.asy.queued, rfl⟩

theorem enqueued_only (s : State) (q : QueueId) (e : Entry) : QueueOnly s (enqueued s q e) := ⟨_, _, s.asy.queued, rfl⟩

theorem takeHead_only (s : State) (qid : QueueId) (fuel : Nat) : QueueOnly s (takeHead s qid fuel).2 := by
  induction fuel generalizing s with
  | zero => exact .refl s
  | succ fuel ih =>
    unfold takeHead
    dsimp only
    split
    · exact .refl s
    · split
      · exact (setSlice_only s _ _).trans ((tallyAdd_only _ _ _).trans ((queueEvent_only _ _ _).trans (ih _)))
      · exact setSlice_only s _ _

theorem dequeue_only (s : State) (qid : QueueId) : QueueOnly s (dequeue s qid).2 := by
  have h := takeHead_only s qid (((s.slice (queueCluster qid)).queue (queueLocal qid)).ents.length + 1)
  unfold dequeue takeFrom
  dsimp only
  split
  · exact .refl s
  · generalize takeHead s qid _ = p at h ⊢
    obtain ⟨o, t⟩ := p
    cases o with
    | none => exact h
    | some y => exact h.trans ((tallyAdd_only _ _ _).trans (tallyAdd_only _ _ _))

/-! ### Beside a core -/

theorem queueEvent_setCore (s : State) (n : SourceId) (ev : FaultEv) : queueEvent (s.setCore g c) n ev = (queueEvent s n ev).setCore g c := by
  unfold queueEvent
  dsimp only
  rw [show (s.setCore g c).asy = s.asy from rfl]
  split <;> rfl

theorem takeHead_setCore (s : State) (qid : QueueId) (fuel : Nat) :
    takeHead (s.setCore g c) qid fuel = ((takeHead s qid fuel).1, (takeHead s qid fuel).2.setCore g c) := by
  induction fuel generalizing s with
  | zero => rfl
  | succ fuel ih =>
    unfold takeHead
    dsimp only
    rw [show (s.setCore g c).slice (queueCluster qid) = s.slice (queueCluster qid) from rfl]
    split
    · rfl
    · split
      · rw [← ih]
        unfold report
        rw [← queueEvent_setCore]
        rfl
      · rfl

theorem dequeue_setCore (s : State) (qid : QueueId) : dequeue (s.setCore g c) qid = ((dequeue s qid).1, (dequeue s qid).2.setCore g c) := by
  unfold dequeue takeFrom
  dsimp only
  rw [show (s.setCore g c).slice (queueCluster qid) = s.slice (queueCluster qid) from rfl, takeHead_setCore]
  split
  · rfl
  · generalize takeHead s qid _ = p
    obtain ⟨o, t⟩ := p
    cases o <;> rfl

theorem enqueue_setCore (s : State) (src : EnqFrom) (qid : QueueId) (e : Entry) :
    enqueue (s.setCore g c) src qid e = ((enqueue s src qid e).1, (enqueue s src qid e).2.setCore g c) := by
  unfold enqueue
  dsimp only
  rw [show (s.setCore g c).slice (queueCluster qid) = s.slice (queueCluster qid) from rfl]
  split
  · rfl
  · split
    · rfl
    · split
      · rfl
      · split
        · rfl
        · split <;> rfl

end
end Sys2Proof.Machine
end

section
/-! Queue accesses of a core (O12). -/

namespace Sys2Proof.Machine

section
variable {s t v : State} {g : CoreId} {b : Bundle} {h : Held} {x : CoreRunState} {a : Word} {lq : BitVec 10} {off : Nat}

/-! ### A bundle comes to its queue access (R73, R79) -/

theorem queueMove_holding (hq : isQueueOp h.bundle.a = true) (ha : effAddr (s.core g).r h.bundle.a = some a) (hm : coreMap (s.core g).c a = .queue lq off) :
    queueMove (holding s g x h) g h = queueOwn (holding s g x h) g h h.bundle.a lq off := by
  have hr : ((holding s g x h).core g).r = (s.core g).r := by rw [holding_core]
  have hc : ((holding s g x h).core g).c = (s.core g).c := by rw [holding_core]
  unfold queueMove
  dsimp only
  rw [hr, hc]
  cases ho : h.bundle.a
  case qenq m | qdeq m =>
    rw [ho] at ha
    dsimp only
    rw [ha]
    dsimp only
    rw [hm]
  all_goals
    rw [ho] at hq
    exact Bool.noConfusion (hq : false = true)

section
variable (r : Ready s g (withoutA h.bundle)) (hq : isQueueOp h.bundle.a = true)
include r hq

theorem holding_blocks_own {n : Nat} (hn : n ∈ memSlots) {blk : Word} (hb : blk ∈ opBlocks ((holding s g x h).core g) (slotOp h.bundle n)) :
    ∃ m pa, blkAt (holding s g x h) g blk = .own m pa ∧ s.ready m = true := by
  rw [holding_core] at hb
  have ho := queueBundle_own r hq hn blk hb
  rw [holding_blkAt]
  unfold ownBlock at ho
  cases hk : blkAt s g blk with
  | own m pa =>
    rw [hk] at ho
    exact ⟨m, pa, rfl, ho⟩
  | fab pa =>
    rw [hk] at ho
    cases ho
  | bad o w =>
    rw [hk] at ho
    cases ho

theorem needsInit_holding : needsInit (holding s g x h) g h.bundle = false := by
  unfold needsInit
  rw [List.any_eq_false]
  intro n hn
  rw [Bool.not_eq_true, List.any_eq_false]
  intro blk hb
  obtain ⟨m, pa, hk, hr⟩ := holding_blocks_own r hq hn hb
  rw [hk]
  show (!s.ready m) ≠ true
  rw [hr]
  decide

theorem fabReads_holding : fabReads (holding s g x h) g h.bundle = [] := by
  unfold fabReads
  rw [List.flatMap_eq_nil_iff]
  intro n hn
  rw [List.filterMap_eq_nil_iff]
  rintro ⟨p, i⟩ hp
  have hm : p.blk ∈ opBlocks ((holding s g x h).core g) (slotOp h.bundle n) := by
    unfold opBlocks
    refine List.mem_append_left _ (List.mem_map.mpr ⟨p, ?_, rfl⟩)
    rw [(List.mem_zipIdx hp).2.2]
    exact List.getElem_mem _
  obtain ⟨m, pa, hk, -⟩ := holding_blocks_own r hq hn hm
  dsimp only
  rw [hk]

theorem staticTrap_holding (ha : effAddr (s.core g).r h.bundle.a = some a) (hm : coreMap (s.core g).c a = .queue lq off) :
    staticTrap (holding s g x h) g h.bundle = none := by
  have hs : memSlots.find? (fun n => (staticFault (holding s g x h) g (slotOp h.bundle n)).isSome) = none := by
    rw [List.find?_eq_none]
    intro n hn
    rw [holding_fault]
    obtain rfl | rfl | rfl : n = 0 ∨ n = 1 ∨ n = 3 := by simpa [memSlots] using hn
    · rw [show slotOp h.bundle 0 = h.bundle.a from rfl]
      unfold staticFault
      cases ho : h.bundle.a
      case qenq m | qdeq m =>
        rw [ho] at ha
        dsimp only
        rw [ha]
        dsimp only
        rw [hm]
        exact Bool.false_ne_true
      all_goals
        rw [ho] at hq
        exact Bool.noConfusion (hq : false = true)
    · rw [show slotOp h.bundle 1 = slotOp (withoutA h.bundle) 1 from rfl, r.noFault 1 hn]
      decide
    · rw [show slotOp h.bundle 3 = slotOp (withoutA h.bundle) 3 from rfl, r.noFault 3 hn]
      decide
  unfold staticTrap
  rw [hs]

theorem nextMove_holding (ha : effAddr (s.core g).r h.bundle.a = some a) (hm : coreMap (s.core g).c a = .queue lq off) :
    nextMove (holding s g x h) g h = queueOwn (holding s g x h) g h h.bundle.a lq off := by
  unfold nextMove
  rw [needsInit_holding r hq, if_neg Bool.false_ne_true, readAll_holding r hq]
  simp only [slotGot, gotOwn, staticTrap_holding r hq ha hm, fabReads_holding r hq, Option.or_none]
  exact queueMove_holding hq ha hm

end

/-! ### The queue access is made and the bundle commits -/

/-- What `queueAccess` says, taken apart. -/
structure AtQueue (s : State) (g : CoreId) (b : Bundle) (lq : BitVec 10) (off : Nat) : Prop where
  runs : executes s g (withoutA b) = true
  fine : (undefFind (s.core g) b).1 = .fine
  mis : misFind (s.core g) b = none
  op : isQueueOp b.a = true
  addr : ∃ a, effAddr (s.core g).r b.a = some a ∧ coreMap (s.core g).c a = .queue lq off

theorem queueAccess_atQueue (h : queueAccess s g b lq off) : AtQueue s g b lq off := by
  obtain ⟨hr, hf, hm, ho, ha⟩ := h
  exact ⟨hr, hf, hm, ho, ha⟩

theorem AtQueue.ready (p : AtQueue s g b lq off) : Ready s g (withoutA b) := executes_ready p.runs

theorem AtQueue.move (p : AtQueue s g h.bundle lq off) : nextMove (holding s g x h) g h = queueOwn (holding s g x h) g h h.bundle.a lq off := by
  obtain ⟨a, ha, hm⟩ := p.addr
  exact nextMove_holding p.ready p.op ha hm

/-- A bundle with a queue access comes to it. -/
theorem AtQueue.runBundle (p : AtQueue s g b lq off) :
    Machine.runBundle s g b = settle settleFuel (holding s g (s.core g).st (heldOf s b)) g := by
  have hf : undefFind (s.core g) b = (.fine, (undefFind (s.core g) b).2) := by rw [← p.fine]
  have hp : privFind (s.core g) b.d = false := p.ready.priv
  have hn : ¬(b.d = .fence ∧ postedOpen s g = true) := p.ready.fence
  rw [runBundle_of_ready p.ready, issue, show (heldOf s b).bundle = b from rfl, hf]
  dsimp only
  rw [hp, if_neg Bool.false_ne_true, if_neg hn, p.mis]
  rfl

theorem settle_go {q : List Byte} (hm : nextMove (holding s g x h) g h = .go q 0 t) : settle settleFuel (holding s g x h) g = commit t g h q 0 := by
  have hh : ((holding s g x h).core g).held = some h := by rw [holding_core]
  show settle (199 + 1) _ _ = _
  unfold settle
  rw [hh]
  dsimp only
  rw [hm]

theorem QueueOnly.atQueue (k : QueueOnly s v) (p : AtQueue s g b lq off) : AtQueue v g b lq off := by
  have hc := k.core g
  obtain ⟨hr, hf, hm, ho, ha⟩ := p
  exact ⟨k.executes.trans hr, by rw [hc]; exact hf, by rw [hc]; exact hm, ho, by rw [hc]; exact ha⟩

/-- The queue's answer to a core beside which it stands. -/
theorem holding_of_only (k : QueueOnly s v) : v.setCore g { s.core g with st := x, held := some h } = holding v g x h := by
  unfold holding
  rw [k.core g]

theorem dequeue_holding (q : QueueId) : dequeue (holding s g x h) q = ((dequeue s q).1, holding (dequeue s q).2 g x h) := by
  rw [← holding_of_only (dequeue_only s q)]
  exact dequeue_setCore s q

theorem enqueue_holding {q : QueueId} {e : Entry} (ht : queueTakes s q e) :
    enqueue (holding s g x h) (.core g) q e = (.accepted, holding (enqueued s q e) g x h) := by
  rw [← holding_of_only (enqueued_only s q e)]
  refine (enqueue_setCore s (.core g) q e).trans ?_
  rw [enqueue_of_takes ht (src := .core g) nofun]

/-- A QENQ that its queue takes. -/
theorem settle_qenq {a : MemArgs} (p : AtQueue s g h.bundle lq 0) (ha : h.bundle.a = .qenq a)
    (ht : queueTakes s (queueOf (coreCluster g) lq) (slice ((s.core g).r.getV a.d) 0 256)) :
    settle settleFuel (holding s g x h) g =
      commit (holding (enqueued s (queueOf (coreCluster g) lq) (slice ((s.core g).r.getV a.d) 0 256)) g x h) g h [] 0 := by
  refine settle_go (p.move.trans ?_)
  have hr : ((holding s g x h).core g).r = (s.core g).r := by rw [holding_core]
  rw [ha]
  unfold queueOwn
  dsimp only
  rw [hr, if_pos rfl, enqueue_holding ht]

/-- A QDEQ that its queue answers. -/
theorem settle_qdeq {a : MemArgs} (p : AtQueue s g h.bundle lq 0) (ha : h.bundle.a = .qdeq a)
    (ho : (dequeue s (queueOf (coreCluster g) lq)).1.outc = .ok) :
    settle settleFuel (holding s g x h) g = commit (holding (dequeue s (queueOf (coreCluster g) lq)).2 g x h) g h
      (dequeue s (queueOf (coreCluster g) lq)).1.data 0 := by
  refine settle_go (p.move.trans ?_)
  rw [ha]
  unfold queueOwn
  dsimp only
  rw [if_pos rfl, dequeue_holding]
  dsimp only
  rw [if_pos ho]

/-- A QDEQ at a CONTROL port. -/
theorem settle_status {a : MemArgs} (p : AtQueue s g h.bundle lq off) (ha : h.bundle.a = .qdeq a) (ho : off ≠ 0) :
    settle settleFuel (holding s g x h) g = commit (holding s g x h) g h (statusRead s (.core g) (queueOf (coreCluster g) lq)) 0 := by
  refine settle_go (p.move.trans ?_)
  rw [ha]
  unfold queueOwn
  dsimp only
  rw [if_neg ho]
  rfl

theorem enqueued_then {v t : State} {q : QueueId} {e : Entry} (hs : t.slices = v.slices) (hg : queueGained s v q e) : queueGained s t q e := by
  unfold queueGained State.slice at hg ⊢
  rw [hs]
  exact hg

section
variable {a : MemArgs} {m : Bundle}

/-- A QENQ that is made: its frame, the queue and the base register. -/
theorem qenq_result (p : AtQueue s g h.bundle lq 0) (ha : h.bundle.a = .qenq a)
    (ht : queueTakes s (queueOf (coreCluster g) lq) (slice ((s.core g).r.getV a.d) 0 256)) :
    BundleFrame (enqueue s (.core g) (queueOf (coreCluster g) lq) (slice ((s.core g).r.getV a.d) 0 256)).2 g h.bundle
        (settle settleFuel (holding s g x h) g) ∧
      queueGained s (settle settleFuel (holding s g x h) g) (queueOf (coreCluster g) lq) (slice ((s.core g).r.getV a.d) 0 256) ∧
      baseMoved (s.core g).r a 32 ((settle settleFuel (holding s g x h) g).core g).r := by
  rw [settle_qenq p ha ht, enqueue_of_takes ht (src := .core g) nofun]
  have k := enqueued_only s (queueOf (coreCluster g) lq) (slice ((s.core g).r.getV a.d) 0 256)
  have hgain := enqueued_gained s (queueOf (coreCluster g) lq) (slice ((s.core g).r.getV a.d) 0 256)
  have hcore := k.core g
  obtain ⟨hr, hf, -, ho, -⟩ := k.atQueue p
  generalize enqueued s (queueOf (coreCluster g) lq) (slice ((s.core g).r.getV a.d) 0 256) = v at hgain hcore hr hf ⊢
  have hb := commit_baseMoved (x := x) (q := []) hr ho hf (a := a) (by rw [ha]; rfl)
  rw [hcore, ha] at hb
  exact ⟨commit_frame hr ho, enqueued_then (commit_slices hr ho) hgain, hb⟩

/-- A QDEQ that is made. -/
theorem qdeq_result (p : AtQueue s g h.bundle lq 0) (ha : h.bundle.a = .qdeq a) (ho : (dequeue s (queueOf (coreCluster g) lq)).1.outc = .ok) :
    BundleFrame (dequeue s (queueOf (coreCluster g) lq)).2 g h.bundle (settle settleFuel (holding s g x h) g) ∧
      ((settle settleFuel (holding s g x h) g).core g).r.getV a.d = BitVec.ofNat 512 (natOfBytes (dequeue s (queueOf (coreCluster g) lq)).1.data) := by
  rw [settle_qdeq p ha ho]
  obtain ⟨hr, hf, -, hq, -⟩ := (dequeue_only s (queueOf (coreCluster g) lq)).atQueue p
  exact ⟨commit_frame hr hq, commit_qdeq hr ha hf⟩

/-- A QDEQ at a CONTROL port that is made. -/
theorem status_result (p : AtQueue s g h.bundle lq off) (ha : h.bundle.a = .qdeq a) (ho : off ≠ 0) :
    BundleFrame s g h.bundle (settle settleFuel (holding s g x h) g) ∧
      ((settle settleFuel (holding s g x h) g).core g).r.getV a.d =
        BitVec.ofNat 512 (natOfBytes (statusRead s (.core g) (queueOf (coreCluster g) lq))) := by
  rw [settle_status p ha ho]
  exact ⟨commit_frame p.runs p.op, commit_qdeq p.runs ha p.fine⟩

/-! ### The stall of a QENQ (R73) -/

theorem stallRelease_eq (hk : h.kind = .queueFull) : doStallRelease (holding s g x h) g = settle settleFuel (holding s g x h) g := by
  have hh : ((holding s g x h).core g).held = some h := by rw [holding_core]
  unfold doStallRelease coreResume
  rw [hh]
  dsimp only
  rw [if_pos hk, hk]

theorem canAbandon_of_full (p : AtQueue s g h.bundle lq 0) (ha : h.bundle.a = .qenq a) (hk : h.kind = .queueFull)
    (hf : (enqueue s (.core g) (queueOf (coreCluster g) lq) (slice ((s.core g).r.getV a.d) 0 256)).1 = .full) :
    canAbandon (holding s g x h) g = true := by
  have hh : ((holding s g x h).core g).held = some h := by rw [holding_core]
  have hr : ((holding s g x h).core g).r = (s.core g).r := by rw [holding_core]
  have he := enqueue_setCore (g := g) (c := { s.core g with st := x, held := some h }) s (.core g) (queueOf (coreCluster g) lq)
    (slice ((s.core g).r.getV a.d) 0 256)
  rw [hf] at he
  unfold canAbandon
  rw [hh]
  dsimp only
  rw [hk]
  dsimp only
  rw [p.move, ha]
  unfold queueOwn
  dsimp only
  rw [hr, if_pos rfl, show enqueue (holding s g x h) (.core g) _ _ = _ from he]
  dsimp only
  rw [if_pos hk]

theorem dropRetry_core (s : State) (g g' : CoreId) : (dropRetry s g).core g' = s.core g' := rfl

theorem trap_slices (s : State) (g : CoreId) (cause : Nat) (tval : Word) (epc : BitVec 16) : (trap s g cause tval epc).slices = s.slices := by
  unfold trap boundary
  dsimp only
  split <;> rfl

theorem enqTimeout_result (p : AtQueue s g h.bundle lq 0) (ha : h.bundle.a = .qenq a) (hk : h.kind = .queueFull)
    (hx : enqExpired (holding s g x h) g h = true)
    (hf : (enqueue s (.core g) (queueOf (coreCluster g) lq) (slice ((s.core g).r.getV a.d) 0 256)).1 = .full) :
    entered (holding s g x h) (doEnqTimeout (holding s g x h) g) g 8 (addrOf (s.core g).r a 32) ∧
      (doEnqTimeout (holding s g x h) g).slices = s.slices := by
  have hh : ((holding s g x h).core g).held = some h := by rw [holding_core]
  have hr : ((holding s g x h).core g).r = (s.core g).r := by rw [holding_core]
  have haddr : effAddr (s.core g).r h.bundle.a = some (addrOf (s.core g).r a 32) := by
    rw [ha]
    exact effAddr_eq_addrOf _ rfl
  have ht : doEnqTimeout (holding s g x h) g =
      trap (dropRetry (holding s g x h) g) g 8 (addrOf (s.core g).r a 32) ((dropRetry (holding s g x h) g).core g).pc := by
    unfold doEnqTimeout
    rw [hh]
    dsimp only
    rw [hx, if_neg Bool.noConfusion, canAbandon_of_full p ha hk hf, if_pos rfl, hr, haddr, dropRetry_core]
    rfl
  have hhalt : ((dropRetry (holding s g x h) g).core g).haltReq = false := by
    rw [dropRetry_core, holding_core]
    exact p.ready.noHalt
  rw [ht]
  exact ⟨trap_entered hhalt, trap_slices ..⟩

end

end

/-- Settles O12: the queue acts beside the core (`QueueOnly`), and the bundle's commit differs from that of the bundle without the access in
data registers alone (`commit_twin`). -/
theorem queueAccesses : Obligations.QueueAccesses := by
  refine ⟨fun s g a m lq off => ⟨fun hq ht => ?_, fun hq ho => ?_, fun hq ho => ?_⟩, fun s g a m lq h hk hb _ _ hq => ⟨fun ht => ?_, fun hx hf => ?_⟩⟩
  · have p := queueAccess_atQueue hq
    exact ⟨_, congrArg Host.Outcome.next p.runBundle, qenq_result (h := heldOf s (inLs m .a (.qenq a))) p rfl ht⟩
  · have p := queueAccess_atQueue hq
    exact ⟨_, congrArg Host.Outcome.next p.runBundle, qdeq_result (h := heldOf s (inLs m .a (.qdeq a))) p rfl ho⟩
  · have p := queueAccess_atQueue hq
    exact ⟨_, congrArg Host.Outcome.next p.runBundle, status_result (h := heldOf s (inLs m .a (.qdeq a))) p rfl ho⟩
  · rw [← hb] at hq ⊢
    have hres := qenq_result (x := .stalled) (queueAccess_atQueue hq) (by rw [hb]; rfl) ht
    rw [← stallRelease_eq hk] at hres
    obtain ⟨hframe, hgain, -⟩ := hres
    exact ⟨_, rfl, hframe, hgain⟩
  · rw [← hb] at hq
    exact ⟨_, rfl, enqTimeout_result (x := .stalled) (queueAccess_atQueue hq) (by rw [hb]; rfl) hk hx hf⟩

end Sys2Proof.Machine
end
